-- ==== Sys2Proof/Word.lean ====
section
/-! DEFINITION. The word types of the SX4 (R7, Table 1-2, Table 2-1): what the spec treats as bits. -/

namespace Sys2Proof

/-- A 64-bit register value or virtual address (Table 2-1). -/
abbrev Word := BitVec 64

/-- A byte of memory (R7). -/
abbrev Byte := BitVec 8

/-- An instruction word (R11). -/
abbrev IWord := BitVec 32

/-- A 5-bit register field: s0 to s31 or v0 to v31 (Table 1-2). -/
abbrev Reg5 := BitVec 5

/-- A 3-bit mask field, 0 meaning none (Table 1-2). -/
abbrev Reg3 := BitVec 3

/-- A vector register (Table 2-1). -/
abbrev VBits := BitVec 16384

/-- A mask register (Table 2-1). -/
abbrev MBits := BitVec 32768

end Sys2Proof
end

