-- ==== Sys2Proof/Machine/Numbers.lean ====
section
/-! DEFINITION. Number formats, exact values, rounding and exceptions (02 R48 to R57, R63): every arithmetic result is
formed exactly as a sign, a natural mantissa and a power of two, and rounded once. -/

namespace Sys2Proof.Machine

/-- The rounding modes of R52. -/
inductive RM where
  | rne | rtz | rdn | rup | rna
  deriving DecidableEq, Repr

/-- The rounding mode of a code of VTYPE.RM (Table 1-7) or of a scalar word (R23). -/
def RM.ofCode (n : Nat) : RM :=
  match n with
  | 0 => .rne | 1 => .rtz | 2 => .rdn | 3 => .rup | _ => .rna

/-- The exceptions an element raises (R53), with `is` for a clamped integer result (R56). -/
structure Exc where
  nv : Bool := false
  dz : Bool := false
  ov : Bool := false
  uf : Bool := false
  nx : Bool := false
  is : Bool := false
  deriving DecidableEq, Repr

/-- No exception. -/
def Exc.none : Exc := {}

/-- The exceptions of two operations of one element. -/
def Exc.or (a b : Exc) : Exc :=
  { nv := a.nv || b.nv, dz := a.dz || b.dz, ov := a.ov || b.ov, uf := a.uf || b.uf, nx := a.nx || b.nx, is := a.is || b.is }

/-- Whether the exception mask bit of the element is set: `exc(i)` (Table 1-1, R53, R56). -/
def Exc.mask (a : Exc) : Bool := a.nv || a.dz || a.ov || a.uf || a.is

/-- The floating-point formats of Table 2-8. -/
inductive FName where
  | f32 | f16 | bf16 | e4m3 | e5m2 | e2m1
  deriving DecidableEq, Repr

/-- Exponent bits (Table 2-8). -/
def FName.ebits : FName → Nat
  | .f32 => 8 | .f16 => 5 | .bf16 => 8 | .e4m3 => 4 | .e5m2 => 5 | .e2m1 => 2

/-- Fraction bits (Table 2-8). -/
def FName.fbits : FName → Nat
  | .f32 => 23 | .f16 => 10 | .bf16 => 7 | .e4m3 => 3 | .e5m2 => 2 | .e2m1 => 1

/-- Exponent bias (Table 2-8). -/
def FName.bias : FName → Nat
  | .f32 => 127 | .f16 => 15 | .bf16 => 127 | .e4m3 => 7 | .e5m2 => 15 | .e2m1 => 1

/-- Width in bits. -/
def FName.width (f : FName) : Nat := 1 + f.ebits + f.fbits

/-- The code of the largest finite value (Table 2-8). -/
def FName.maxCode : FName → Nat
  | .f32 => 0x7F7FFFFF | .f16 => 0x7BFF | .bf16 => 0x7F7F | .e4m3 => 0x7E | .e5m2 => 0x7B | .e2m1 => 0x7

/-- The canonical NaN, +0 where the format has none (Table 2-8, R54). -/
def FName.nanCode : FName → Nat
  | .f32 => 0x7FC00000 | .f16 => 0x7E00 | .bf16 => 0x7FC0 | .e4m3 => 0x7F | .e5m2 => 0x7E | .e2m1 => 0

/-- Whether the format has infinities (Table 2-8). -/
def FName.hasInf : FName → Bool
  | .e4m3 => false | .e2m1 => false | _ => true

/-- The sign bit of a code. -/
def FName.signOf (f : FName) (bits : Nat) : Bool := bits.testBit (f.width - 1)

/-- A code with the given sign and magnitude code. -/
def FName.code (f : FName) (neg : Bool) (mag : Nat) : Nat := mag + if neg then 2 ^ (f.width - 1) else 0

/-- An exact value: NaN, an infinity, or (-1)^neg * m * 2^e (R48, R49). -/
inductive FVal where
  | nan
  | inf (neg : Bool)
  | num (neg : Bool) (m : Nat) (e : Int)
  deriving DecidableEq, Repr

/-- The value a code of the format denotes (R49). -/
def FName.read (f : FName) (bits : Nat) : FVal :=
  let neg := f.signOf bits
  let ex := bits / 2 ^ f.fbits % 2 ^ f.ebits
  let fr := bits % 2 ^ f.fbits
  if ex = 2 ^ f.ebits - 1 && (f.hasInf || (f == .e4m3 && fr == 7)) then
    if f.hasInf && fr == 0 then .inf neg else .nan
  else if ex = 0 then .num neg fr (1 - (f.bias : Int) - f.fbits)
  else .num neg (fr + 2 ^ f.fbits) ((ex : Int) - f.bias - f.fbits)

/-- m / 2^sh rounded to an integer (R52), and whether that changed it. -/
def roundShift (rm : RM) (neg : Bool) (m sh : Nat) : Nat × Bool :=
  let q := m / 2 ^ sh
  let r := m % 2 ^ sh
  let up : Bool :=
    match rm with
    | .rne => decide (2 ^ sh < 2 * r) || (2 * r == 2 ^ sh && r != 0 && q % 2 == 1)
    | .rtz => false
    | .rdn => neg && r != 0
    | .rup => !neg && r != 0
    | .rna => decide (2 ^ sh ≤ 2 * r) && r != 0
  (if up then q + 1 else q, r != 0)

/-- The result where the rounded magnitude passes the largest finite value (R54). -/
def FName.overflow (f : FName) (rm : RM) (sat neg : Bool) : Nat :=
  let toInf : Bool :=
    match rm with
    | .rne => true | .rna => true | .rtz => false | .rup => !neg | .rdn => neg
  if toInf = false then f.code neg f.maxCode
  else match f with
    | .e4m3 => if sat then f.code neg f.maxCode else f.nanCode
    | .e2m1 => f.code neg f.maxCode
    | _ => f.code neg (f.maxCode + 1)

/-- A finite nonzero magnitude m * 2^e rounded once to the format, with the exceptions of R53. -/
def FName.roundNum (f : FName) (rm : RM) (sat neg : Bool) (m : Nat) (e : Int) : Nat × Exc :=
  if m = 0 then (f.code neg 0, {}) else
  let top : Int := (Nat.log2 m : Int) + e
  let emin : Int := 1 - (f.bias : Int) - f.fbits
  let lsb : Int := max (top - f.fbits) emin
  let (r, nx) := if lsb ≤ e then (m * 2 ^ (e - lsb).toNat, false) else roundShift rm neg m (lsb - e).toNat
  let mag := (lsb - emin).toNat * 2 ^ f.fbits + r
  if f.maxCode < mag then (f.overflow rm sat neg, { ov := true, nx := true })
  else (f.code neg mag, { uf := nx && decide (top < 1 - (f.bias : Int)), nx := nx })

/-- An exact value rounded to the format (R52 to R55). -/
def FName.round (f : FName) (rm : RM) (sat : Bool) (v : FVal) : Nat × Exc :=
  match v with
  | .nan => (f.nanCode, { nv := f == .e2m1 })
  | .inf neg =>
    match f with
    | .e4m3 => (if sat then f.code neg f.maxCode else f.nanCode, { nv := true })
    | .e2m1 => (f.code neg f.maxCode, { nv := true })
    | _ => (f.code neg (f.maxCode + 1), {})
  | .num neg m e => f.roundNum rm sat neg m e

/-- The signed integer s with its sign and magnitude as an exact value at the exponent e; a zero takes the sign given. -/
def FVal.ofInt (zneg : Bool) (s : Int) (e : Int) : FVal :=
  if s = 0 then .num zneg 0 0 else .num (decide (s < 0)) s.natAbs e

/-- The signed mantissa. -/
def sgnInt (neg : Bool) (m : Nat) : Int := if neg then -(m : Int) else m

/-- The negation. -/
def FVal.neg : FVal → FVal
  | .nan => .nan
  | .inf n => .inf (!n)
  | .num n m e => .num (!n) m e

/-- The exact sum, and whether it is invalid; the sign of an exact zero follows R55. -/
def FVal.add (rm : RM) (a b : FVal) : FVal × Exc :=
  match a, b with
  | .nan, _ => (.nan, {})
  | _, .nan => (.nan, {})
  | .inf x, .inf y => if x = y then (.inf x, {}) else (.nan, { nv := true })
  | .inf x, _ => (.inf x, {})
  | _, .inf y => (.inf y, {})
  | .num n m e, .num n' m' e' =>
    let lo := min e e'
    let s := sgnInt n m * 2 ^ (e - lo).toNat + sgnInt n' m' * 2 ^ (e' - lo).toNat
    let zneg := if n = n' && m = 0 && m' = 0 then n else rm == .rdn
    (FVal.ofInt zneg s lo, {})

/-- The exact product, and whether it is invalid (R53). -/
def FVal.mul (a b : FVal) : FVal × Exc :=
  match a, b with
  | .nan, _ => (.nan, {})
  | _, .nan => (.nan, {})
  | .inf x, .inf y => (.inf (x != y), {})
  | .inf x, .num y m _ => if m = 0 then (.nan, { nv := true }) else (.inf (x != y), {})
  | .num x m _, .inf y => if m = 0 then (.nan, { nv := true }) else (.inf (x != y), {})
  | .num n m e, .num n' m' e' => (.num (n != n') (m * m') (e + e'), {})

/-- A magnitude strictly between q * 2^e and (q+1) * 2^e, or q * 2^e itself when `exact`: one more bit stands for the rest, so a
later rounding to fewer bits than q has is that of the exact value. -/
def stickyNum (neg exact : Bool) (q : Nat) (e : Int) : FVal :=
  if exact then .num neg q e else .num neg (2 * q + 1) (e - 1)

/-- The quotient, with the exceptions of R53. -/
def FVal.div (a b : FVal) : FVal × Exc :=
  match a, b with
  | .nan, _ => (.nan, {})
  | _, .nan => (.nan, {})
  | .inf _, .inf _ => (.nan, { nv := true })
  | .inf x, .num y _ _ => (.inf (x != y), {})
  | .num x _ _, .inf y => (.num (x != y) 0 0, {})
  | .num x m e, .num y m' e' =>
    if m' = 0 then
      if m = 0 then (.nan, { nv := true }) else (.inf (x != y), { dz := true })
    else if m = 0 then (.num (x != y) 0 0, {})
    else
      let k := 80 + Nat.log2 m'
      let n := m * 2 ^ k
      (stickyNum (x != y) (n % m' == 0) (n / m') (e - e' - k), {})

/-- The largest r below 2^k with base + r squared at most n, bit by bit. -/
def isqrtBits : Nat → Nat → Nat → Nat
  | 0, _, r => r
  | k + 1, n, r =>
    let r' := r + 2 ^ k
    if r' * r' ≤ n then isqrtBits k n r' else isqrtBits k n r

/-- The integer square root. -/
def isqrt (n : Nat) : Nat := isqrtBits (Nat.log2 n / 2 + 1) n 0

/-- The square root (R84, R109). -/
def FVal.sqrt (a : FVal) : FVal × Exc :=
  match a with
  | .nan => (.nan, {})
  | .inf neg => if neg then (.nan, { nv := true }) else (.inf false, {})
  | .num neg m e =>
    if m = 0 then (.num neg 0 0, {})
    else if neg then (.nan, { nv := true })
    else
      let (m1, e1) := if e % 2 = 0 then (m, e) else (2 * m, e - 1)
      let n := m1 * 2 ^ 160
      let r := isqrt n
      (stickyNum false (r * r == n) r (e1 / 2 - 80), {})

/-- A value rounded RNE to 12 significant bits (R109). -/
def FVal.to12 (a : FVal) : FVal :=
  match a with
  | .num neg m e =>
    if m = 0 then a
    else
      let sh := Nat.log2 m - 11
      .num neg (roundShift .rne neg m sh).1 (e + sh)
  | v => v

/-- 1 / sqrt a, exact but for the sticky bit (R109). -/
def FVal.rsqrt (a : FVal) : FVal × Exc :=
  match a with
  | .nan => (.nan, {})
  | .inf neg => if neg then (.nan, { nv := true }) else (.num false 0 0, {})
  | .num neg m e =>
    if m = 0 then (.inf neg, { dz := true })
    else if neg then (.nan, { nv := true })
    else
      let (m1, e1) := if e % 2 = 0 then (m, e) else (2 * m, e - 1)
      let t := 80 + Nat.log2 m1
      let n := 2 ^ (2 * t)
      let r := isqrt (n / m1)
      (stickyNum false (r * r * m1 == n) r (-(t : Int) - e1 / 2), {})

/-- An exact value compared with another where neither is NaN: a < b (R53, -0 equals +0). -/
def FVal.lt (a b : FVal) : Bool :=
  match a, b with
  | .nan, _ => false
  | _, .nan => false
  | .inf x, .inf y => x && !y
  | .inf x, .num _ _ _ => x
  | .num _ _ _, .inf y => !y
  | .num n m e, .num n' m' e' =>
    let lo := min e e'
    decide (sgnInt n m * 2 ^ (e - lo).toNat < sgnInt n' m' * 2 ^ (e' - lo).toNat)

/-- Equality of values, NaN equal to nothing. -/
def FVal.eq (a b : FVal) : Bool :=
  match a, b with
  | .nan, _ => false
  | _, .nan => false
  | .inf x, .inf y => x == y
  | .num n m e, .num n' m' e' =>
    let lo := min e e'
    decide (sgnInt n m * 2 ^ (e - lo).toNat = sgnInt n' m' * 2 ^ (e' - lo).toNat)
  | _, _ => false

/-- Whether the value is NaN. -/
def FVal.isNan : FVal → Bool
  | .nan => true
  | _ => false

/-- The sign of a value. -/
def FVal.isNeg : FVal → Bool
  | .nan => false
  | .inf n => n
  | .num n _ _ => n

/-- a before b in the order of min and max, -0 below +0 (R55). -/
def FVal.below (a b : FVal) : Bool := a.lt b || (a.eq b && a.isNeg && !b.isNeg)

/-- Minimum and maximum (R55): NaN when either is NaN. -/
def FVal.minimum (a b : FVal) : FVal := if a.isNan || b.isNan then .nan else if b.below a then b else a

/-- Maximum (R55). -/
def FVal.maximum (a b : FVal) : FVal := if a.isNan || b.isNan then .nan else if a.below b then b else a

/-- A finite value rounded to an integer, and whether that changed it (R56). -/
def roundToInt (rm : RM) (neg : Bool) (m : Nat) (e : Int) : Int × Bool :=
  if 0 ≤ e then (sgnInt neg (m * 2 ^ e.toNat), false)
  else
    let (q, nx) := roundShift rm neg m (-e).toNat
    (sgnInt neg q, nx)

/-- The ends of an integer format of w bits (R48). -/
def intMin (signed : Bool) (w : Nat) : Int := if signed then -(2 ^ (w - 1) : Int) else 0

/-- The largest value of an integer format of w bits (R48). -/
def intMax (signed : Bool) (w : Nat) : Int := if signed then 2 ^ (w - 1) - 1 else 2 ^ w - 1

/-- `sat(x, fmt)` (Table 1-1). -/
def satInt (signed : Bool) (w : Nat) (x : Int) : Int :=
  if x < intMin signed w then intMin signed w else if intMax signed w < x then intMax signed w else x

/-- An integer as w bits, two's complement (R48). -/
def intBits (w : Nat) (x : Int) : Nat := (x % (2 ^ w : Int)).toNat

/-- w bits read as an integer (R48). -/
def bitsInt (signed : Bool) (w n : Nat) : Int :=
  if signed && decide (2 ^ (w - 1) ≤ n) then (n : Int) - 2 ^ w else n

/-- A float converted to an integer format (R56). -/
def FVal.toIntFmt (v : FVal) (rm : RM) (signed : Bool) (w : Nat) : Nat × Exc :=
  match v with
  | .nan => (0, { nv := true, is := true })
  | .inf neg => (intBits w (if neg then intMin signed w else intMax signed w), { nv := true, is := true })
  | .num neg m e =>
    let (x, nx) := roundToInt rm neg m e
    let y := satInt signed w x
    if y = x then (intBits w x, { nx := nx }) else (intBits w y, { nv := true, is := true })

/-! Exponential and logarithm: an interval around the exact value is narrowed until its ends agree in their first 70 bits; the
value is never a point of the grid (it is transcendental), so the bit below stands for the rest. -/

/-- The terms X^k / k! of the exponential at precision 2^p, floors below and ceilings above. -/
def expSeries : Nat → Nat → Nat → Nat → Nat → Nat → Nat → Nat → Nat × Nat
  | 0, _, _, _, _, _, slo, shi => (slo, shi + 2)
  | n + 1, p, x, k, tlo, thi, slo, shi =>
    let tlo' := tlo * x / 2 ^ p / (k + 1)
    let thi' := thi * (x + 1) / 2 ^ p / (k + 1) + 1
    expSeries n p x (k + 1) tlo' thi' (slo + tlo') (shi + thi')

/-- The interval squared n times at precision 2^p. -/
def sqrTimes : Nat → Nat → Nat × Nat → Nat × Nat
  | 0, _, i => i
  | n + 1, p, (lo, hi) => sqrTimes n p (lo * lo / 2 ^ p, hi * hi / 2 ^ p + 1)

/-- The interval [lo, hi] * 2^e by its first 70 bits, where its ends agree in them. -/
def prefix70 (neg : Bool) (lo hi : Nat) (e : Int) : Option FVal :=
  let k := Nat.log2 lo - 70
  if lo / 2 ^ k = hi / 2 ^ k then some (.num neg (2 * (lo / 2 ^ k) + 1) (e + k - 1)) else none

/-- exp of the positive m * 2^e below 2^11, at precision 2^p: an interval at the exponent -p. -/
def expInterval (p : Nat) (m : Nat) (e : Int) : Nat × Nat :=
  let sh : Int := (p : Int) + e - 16
  let x := if 0 ≤ sh then m * 2 ^ sh.toNat else m / 2 ^ (-sh).toNat
  sqrTimes 16 p (expSeries (p / 4 + 8) p x 0 (2 ^ p) (2 ^ p) (2 ^ p) (2 ^ p))

/-- exp of (-1)^neg * m * 2^e, tried at growing precision. -/
def expTry : Nat → Nat → Bool → Nat → Int → FVal
  | 0, _, _, _, _ => .nan
  | n + 1, p, neg, m, e =>
    let (lo, hi) := expInterval p m e
    let r :=
      if neg then
        let t := 2 * Nat.log2 hi + 8
        prefix70 false (2 ^ t / hi) (2 ^ t / lo + 1) ((p : Int) - t)
      else prefix70 false lo hi (-(p : Int))
    match r with
    | some v => v
    | none => expTry n (2 * p) neg m e

/-- e^a (R85, R109); beyond the reach of every format a value that overflows or underflows in it. -/
def FVal.exp (a : FVal) : FVal × Exc :=
  match a with
  | .nan => (.nan, {})
  | .inf neg => (if neg then .num false 0 0 else .inf false, {})
  | .num neg m e =>
    if m = 0 then (.num false 1 0, {})
    else if 10 ≤ (Nat.log2 m : Int) + e then (.num false 1 (if neg then -4000 else 4000), {})
    else (expTry 6 384 neg m e, {})

/-- Terms z^(2i+1)/(2i+1) of atanh for z = a / b at precision 2^p, floors below and ceilings above. -/
def atanhSeries : Nat → Nat → Nat → Nat → Nat → Nat → Nat → Nat → Nat → Nat × Nat
  | 0, _, _, _, _, _, _, slo, shi => (slo, shi + 4)
  | n + 1, p, a, b, k, tlo, thi, slo, shi =>
    let tlo' := tlo * (a * a) / (b * b)
    let thi' := thi * (a * a) / (b * b) + 1
    atanhSeries n p a b (k + 2) tlo' thi' (slo + tlo' / (k + 2)) (shi + thi' / (k + 2) + 1)

/-- 2 atanh(a / b) at precision 2^p. -/
def atanh2 (p a b : Nat) : Nat × Nat :=
  let tlo := a * 2 ^ p / b
  let thi := a * 2 ^ p / b + 1
  let (lo, hi) := atanhSeries (p / 3 + 8) p a b 1 tlo thi tlo thi
  (2 * lo, 2 * hi)

/-- ln of m * 2^e at precision 2^p: the ends of an interval, scaled by 2^p. The value is f * 2^k with 3/4 <= f < 3/2. -/
def lnInterval (p : Nat) (m : Nat) (e : Int) : Int × Int :=
  let l := Nat.log2 m
  let up : Bool := decide (3 * 2 ^ l ≤ 2 * m)
  let k : Int := (l : Int) + e + if up then 1 else 0
  let den := if up then 2 ^ (l + 1) else 2 ^ l
  let (flo, fhi) : Int × Int :=
    if den ≤ m then
      let (a, b) := atanh2 p (m - den) (m + den)
      ((a : Int), (b : Int))
    else
      let (a, b) := atanh2 p (den - m) (m + den)
      (-(b : Int), -(a : Int))
  let (a, b) := atanh2 p 1 3
  if 0 ≤ k then (k * a + flo, k * b + fhi) else (k * b + flo, k * a + fhi)

/-- ln tried at growing precision. -/
def lnTry : Nat → Nat → Nat → Int → FVal
  | 0, _, _, _ => .nan
  | n + 1, p, m, e =>
    let (lo, hi) := lnInterval p m e
    let r :=
      if 0 < lo then prefix70 false lo.natAbs hi.natAbs (-(p : Int))
      else if hi < 0 then prefix70 true hi.natAbs lo.natAbs (-(p : Int))
      else none
    match r with
    | some v => v
    | none => lnTry n (2 * p) m e

/-- The natural logarithm (R85, R109). -/
def FVal.ln (a : FVal) : FVal × Exc :=
  match a with
  | .nan => (.nan, {})
  | .inf neg => if neg then (.nan, { nv := true }) else (.inf false, {})
  | .num neg m e =>
    if m = 0 then (.inf true, { dz := true })
    else if neg then (.nan, { nv := true })
    else if FVal.eq a (.num false 1 0) then (.num false 0 0, {})
    else (lnTry 6 384 m e, {})

/-- The f32 nearest ln of an exact value: `ln_rne` (R63). -/
def lnRne (a : FVal) : FVal := FName.f32.read (FName.f32.round .rne false (a.ln).1).1

/-- The noise value of R63 from its 64-bit hash: G as an f32 code. -/
def noiseOf (z : Word) : Nat :=
  let u := z.toNat % 2 ^ 24
  let l := lnRne (.num false (2 * u + 1) (-25))
  (FName.f32.round .rne false (lnRne l.neg).neg).1

/-- The keyed hash of R63. -/
def skhHash (key step idx : Word) : Word :=
  let z0 := key ^^^ (step * 0x9C1F52A73E6BD0C5#64) ^^^ (idx * 0x6D0F27BDC93A41E7#64)
  let z1 := (z0 ^^^ (z0 >>> 31)) * 0xB47D8E15F2C6A309#64
  let z2 := (z1 ^^^ (z1 >>> 29)) * 0x52E39A7B10DF64CB#64
  z2 ^^^ (z2 >>> 32)

/-- SKH: the f32 noise of a key, a step and a 32-bit index (R63, R64). -/
def skh (key step : Word) (idx : Nat) : Nat := noiseOf (skhHash key step (BitVec.ofNat 64 (idx % 2 ^ 32)))

/-- An E8M0 scale (R50): the value 2^(e - 127), or NaN. -/
def e8m0 (e : Nat) : FVal := if e = 255 then .nan else .num false 1 ((e : Int) - 127)

end Sys2Proof.Machine
end

