-- ==== Sys2Proof/Config.lean ====
section
/-! DEFINITION. What an SX4 leaves open or fixes per part, as constants without a value: a statement about one holds for every value. -/

namespace Sys2Proof

/-- The arithmetic clocks that one step of the model takes beyond the first (log 2). -/
opaque Config.clocks : Nat → Nat

/-- Whether buffered writes that an access overlaps have performed when it does (R75, R148, log 7). -/
opaque Config.drained : Nat → Bool

/-- Whether a translation still stands in the translation structures (R226, log 6). -/
opaque Config.tlbKept : Nat → Bool

/-- Whether the host refuses an access to its memory (R80, R230, log 16): by a counter, and for the elements of one instruction by the page of host memory. -/
opaque Config.hostRefuses : Nat → Nat → Bool

/-- The nanoseconds of package time that one step of the model takes (log 2). -/
opaque Config.nanos : Nat → Nat

/-- Whether an agent other than a hart makes the next move, where one can (log 1). -/
opaque Config.device : Nat → Bool

/-- The check of a firmware image against the public key in the boot ROM (12 R304, log 18). -/
opaque Config.imageOk : List Byte → Bool

/-- The configuration blocks that firmware loads after a reset, by the count of resets (12 R305, log 18). -/
opaque Config.blocks : Nat → List (List Byte)

/-- The signature of a message under a leaf of the device's identity key (12 R305, log 18). -/
opaque Config.signature : Nat → List Byte → List Byte

/-- A choice among several ways the spec allows, as a number to be reduced modulo their count. -/
opaque Config.pick : Nat → Nat

/-- A result whose value the spec does not state. -/
opaque Config.value : Nat → Word

/-- The value of an i4x marker code that an s register gives alone, without the code it is paired with (R51, R97, log 20). -/
opaque Config.loneMarker : Word

end Sys2Proof
end

