-- ==== Sys2Proof/Events.lean ====
section
/-! DEFINITION. What the events of the machine carry: the elements, packets and answers of remote access (13), and the events themselves, as the
state holds those that are to come (rows 368 to 440 of the opcode table). -/

namespace Sys2Proof

/-- What one element of a remote request asks of the owner (13 R314, R317, R319; 11 R273): a load, a store, a store of one half of a byte (SEW 4),
an atomic of an `amo` code, a vector atomic of a `vamo` code with the rounding mode of its instruction, a SKIM instruction of an fn4 code (10 R251), the translation of a place
to be written, with nothing written (7 R182, 11 R271), or a store, of bytes or of one half of a byte, at the place that such a translation has given. -/
inductive ROp where
  | load
  | store
  | nibble (hi : Bool)
  | amo (code : Nat)
  | vamo (code : Nat) (rm : Nat) (flt : Bool)
  | skim (fn : Nat)
  | probe
  | put (l : Nat) (half : Option Bool)
  deriving DecidableEq, Repr

/-- One element of a remote request: the address in the issuing context, the bytes, the operation, its datum and the compare value of `cas`. -/
structure RElem where
  idx  : Nat
  addr : Word
  n    : Nat
  op   : ROp
  data : Nat
  cmp  : Nat
  deriving DecidableEq, Repr

/-- What the packets of a fabric stream carry (14 R350 to R352): the group of a GV stream, the buffer and its bytes, the flag array and SEQ. -/
structure StreamTag where
  group : Option (BitVec 16)
  buf   : Word
  bytes : Nat
  flaga : Word
  seq   : Word
  deriving DecidableEq, Repr

/-- A request packet (13 R319): up to 32 elements for one owner die of one package. -/
structure Packet where
  seq   : Nat
  src   : Nat
  dst   : Nat
  die   : Nat
  hart  : Nat
  ctx   : BitVec 16
  user  : Bool
  elems : List RElem
  tag   : Option StreamTag
  deriving DecidableEq, Repr

/-- The owner's answer to one element (13 R321, R322, R341, R315). -/
inductive RAns where
  | done (data : Nat) (strict : Bool)
  | ticket (t : Nat)
  | refused
  | failed
  | ecc
  deriving DecidableEq, Repr

/-- What a member brings to a collective (R344): the fn4 code, VL, VTYPE[8:0] with RM, and the root. -/
structure CollKey where
  op    : Nat
  vl    : Nat
  vtype : BitVec 16
  root  : Nat
  deriving DecidableEq, Repr


/-- The events, one constructor for each event row of the opcode table. -/
inductive Ev where
  /-- CONVOY_BEGIN (R156). -/
  | convoyBegin (hart : Nat)
  /-- PREEMPTION_REQUEST (R292). -/
  | preemptionRequest (hart : Nat)
  /-- SOFTWARE_INTERRUPT (R285). -/
  | softwareInterrupt (hart : Nat)
  /-- WFI_WAKE (R88). -/
  | wfiWake (hart : Nat)
  /-- MWAIT_WAKE (R89). -/
  | mwaitWake (hart : Nat)
  /-- MWAIT_TIMEOUT (R89). -/
  | mwaitTimeout (hart : Nat)
  /-- TKWAIT_LIMIT (R333). -/
  | tkwaitLimit (hart : Nat)
  /-- TEPI_ROW_HANDOVER (R185). -/
  | tepiRowHandover (hart : Nat)
  /-- TEPI_CREDIT_TIMEOUT (R186). -/
  | tepiCreditTimeout (hart : Nat)
  /-- STREAM_FETCH (R212). -/
  | streamFetch (hart : Nat) (q : Nat)
  /-- COPY_ELEMENT (R208). -/
  | copyElement (cluster : Nat)
  /-- PAIL_CHAIN_APPLY (R229). -/
  | pailChainApply (hart : Nat)
  /-- REMOTE_REQUEST (R321). -/
  | remoteRequest (p : Packet)
  /-- REMOTE_ANSWER (R320). -/
  | remoteAnswer (seq : Nat) (ans : List (Nat × RAns))
  /-- REPLAY_NOTICE_SEND (R324). -/
  | replayNoticeSend (die : Nat) (ticket : Nat)
  /-- SERVICE_TIMEOUT (R324). -/
  | serviceTimeout (die : Nat) (ticket : Nat)
  /-- REPLAY_NOTICE (R328). -/
  | replayNotice (pkg : Nat) (page : Nat) (ticket : Nat) (ok : Bool)
  /-- CHURN_REMOTE_REPLAY (R275). -/
  | churnRemoteReplay (pkg : Nat) (page : Nat) (ticket : Nat) (ok : Bool)
  /-- COLLECTIVE_ARRIVAL (R346). -/
  | collectiveArrival (ctx : BitVec 16) (gid : BitVec 16) (rank : Nat) (key : CollKey)
  /-- COLLECTIVE_GO (R346). -/
  | collectiveGo (hart : Nat)
  /-- COLLECTIVE_DATA (R346). -/
  | collectiveData (ctx : BitVec 16) (gid : BitVec 16) (remote : List (Nat × List Nat))
  /-- COLLECTIVE_CHUNK (R352). -/
  | collectiveChunk (hart : Nat) (first : Nat) (data : List Nat) (exc : BitVec 10) (full : Bool)
  /-- STREAM_CHUNK_FULL (R351). -/
  | streamChunkFull (ctx : BitVec 16) (group : Option (BitVec 16)) (user : Bool) (flag : Word) (seq : Word)
  /-- GROUP_ABORT_APPLY (R348). -/
  | groupAbortApply (ctx : BitVec 16) (gid : BitVec 16) (why : BitVec 2) (orig : BitVec 10)
  /-- LINK_ERROR (R338): lane 72 * link + l of the port. -/
  | linkError (lane : Nat)
  /-- LANE_FAILURE (R340). -/
  | laneFailure (link : Nat)
  /-- PACKAGE_LOST (R341). -/
  | packageLost (pkg : Nat)
  /-- POWER_MEASURE (R299). -/
  | powerMeasure (mean : Nat) (hot : Bool)
  /-- GRANT_RAISE (R299). -/
  | grantRaise (mean : Nat)
  /-- END_HART (R294). -/
  | endHart (hart : Nat)
  /-- END_JOB (R294). -/
  | endJob (hart : Nat)
  /-- YIELD (R292). -/
  | yield (hart : Nat)
  /-- SHOOTDOWN (R227). -/
  | shootdown (hart : Nat)
  /-- SHOOTDOWN_DONE (R227). -/
  | shootdownDone (hart : Nat)
  /-- PROMOTE (R228). -/
  | promote (hart : Nat)
  /-- PROMOTE_COPY_DONE (R228). -/
  | promoteCopyDone (hart : Nat)
  /-- GRANT (R284). -/
  | grant (hart : Nat) (n : Nat)
  /-- RELEASE (R284). -/
  | release (hart : Nat)
  /-- INTR (R285). -/
  | intr (hart : Nat)
  /-- MAILBOX_BAD_FUNC (R284). -/
  | mailboxBadFunc (hart : Nat)
  /-- QUEUE_TAIL_WRITE (R287). -/
  | queueTailWrite (q : Nat) (v : Nat)
  /-- QUEUE_ENABLE (R287). -/
  | queueEnable (q : Nat) (v : Word)
  /-- QUEUE_DISABLE (R287). -/
  | queueDisable (q : Nat) (v : Word)
  /-- CONTEXT_KILL (R298). -/
  | contextKill (v : Word)
  /-- FW_INSTALL (R304). -/
  | fwInstall (n : Nat) (cut : Bool)
  /-- FW_RESET (R304). -/
  | fwReset
  /-- HOST_WINDOW_WRITE (R286). -/
  | hostWindowWrite (off : Nat) (v : Word)
  /-- TAKE_RECORD (R287). -/
  | takeRecord (q : Nat)
  /-- DEPSIG_RECHECK (R290). -/
  | depsigRecheck (job : Word)
  /-- DEPSIG_POLL (R290). -/
  | depsigPoll (job : Word)
  /-- JOB_PLACEMENT (R290). -/
  | jobPlacement (cluster : Nat)
  /-- CLUSTER_SUSPEND (R292). -/
  | clusterSuspend (cluster : Nat)
  /-- CLUSTER_RESUME (R293). -/
  | clusterResume (ix : Nat) (cluster : Nat) (bad : Bool)
  /-- JOB_END (R294). -/
  | jobEnd (job : Word) (ctxEnds : Bool)
  /-- QUEUE_SWITCH_OUT (R296). -/
  | queueSwitchOut (q : Nat)
  /-- QUEUE_SWITCH_IN (R296). -/
  | queueSwitchIn (q : Nat)
  /-- PACKAGE_RESET (R304). -/
  | packageReset
  /-- CLK (R302). -/
  | clk (pkg : BitVec 7)
  /-- D2D (R302). -/
  | d2d
  /-- DRAMCAL (R303). -/
  | dramcal
  /-- LLCINIT (R302). -/
  | llcinit
  /-- WMARK_ADVANCE (R302). -/
  | wmarkAdvance (die : Nat)
  /-- DRAMINIT (R302). -/
  | draminit
  /-- FABRIC (R339). -/
  | fabric (ports : List Nat) (present : List (BitVec 7))
  /-- READY (R303). -/
  | ready
  /-- STAGE_FAIL (R303). -/
  | stageFail
  /-- ATTESTATION (R305). -/
  | attestation (nonce : List Byte)
  /-- PATROL_SCRUB (R306). -/
  | patrolScrub (decayed : List Nat) (corrected : List Nat)
  /-- HOST_ACCESS (R301). -/
  | hostAccess (e : RElem)
  /-- ILLEGAL_ENCODING (R22). -/
  | illegalEncoding (sub : BitVec 8) (word : IWord) (pos : Nat)
  /-- FETCH_FAULT (R82). -/
  | fetchFault (addr : Word)
  /-- HOST_COMPLETION (R230). -/
  | hostCompletion (hart : Nat)
  /-- ARRIVAL_WITHDRAWAL (R346). -/
  | arrivalWithdrawal (ctx : BitVec 16) (gid : BitVec 16) (rank : Nat) (applied : Bool)
  deriving DecidableEq, Repr

end Sys2Proof
end

