-- ==== Sys2Proof/Syntax.lean ====
section
/-! DEFINITION. The instructions of the SX4: one constructor per row of the opcode table (R22, Tables 1-8 and 1-9),
the 32-bit words first, then the tile pairs (Table 1-6), then the device events.
A field of a word is named by its letter in the encoding tables and has the width the table gives it. -/

namespace Sys2Proof

/-- The instructions and events of the machine, one constructor for each row of the opcode table. -/
inductive Instr where
  /-- ADD (R67): Adds two scalar registers modulo 2^64. -/
  | add (d : BitVec 5) (a : BitVec 5) (b : BitVec 5)
  /-- SUB (R67): Subtracts two scalar registers modulo 2^64. -/
  | sub (d : BitVec 5) (a : BitVec 5) (b : BitVec 5)
  /-- AND (R67): Bitwise AND of two scalar registers. -/
  | and (d : BitVec 5) (a : BitVec 5) (b : BitVec 5)
  /-- OR (R67): Bitwise OR of two scalar registers. -/
  | or (d : BitVec 5) (a : BitVec 5) (b : BitVec 5)
  /-- XOR (R67): Bitwise XOR of two scalar registers. -/
  | xor (d : BitVec 5) (a : BitVec 5) (b : BitVec 5)
  /-- ANDN (R67): AND of sa with the complement of sb. -/
  | andn (d : BitVec 5) (a : BitVec 5) (b : BitVec 5)
  /-- SLL (R67): Logical left shift by s[sb][5:0]. -/
  | sll (d : BitVec 5) (a : BitVec 5) (b : BitVec 5)
  /-- SRL (R67): Logical right shift by s[sb][5:0]. -/
  | srl (d : BitVec 5) (a : BitVec 5) (b : BitVec 5)
  /-- SRA (R67): Arithmetic right shift by s[sb][5:0]. -/
  | sra (d : BitVec 5) (a : BitVec 5) (b : BitVec 5)
  /-- SLT (R67): Writes 1 if sa is signed-less than sb. -/
  | slt (d : BitVec 5) (a : BitVec 5) (b : BitVec 5)
  /-- SLTU (R67): Writes 1 if sa is unsigned-less than sb. -/
  | sltu (d : BitVec 5) (a : BitVec 5) (b : BitVec 5)
  /-- MIN (R67): Signed minimum of two scalar registers. -/
  | min (d : BitVec 5) (a : BitVec 5) (b : BitVec 5)
  /-- MAX (R67): Signed maximum of two scalar registers. -/
  | max (d : BitVec 5) (a : BitVec 5) (b : BitVec 5)
  /-- MINU (R67): Unsigned minimum of two scalar registers. -/
  | minu (d : BitVec 5) (a : BitVec 5) (b : BitVec 5)
  /-- MAXU (R67): Unsigned maximum of two scalar registers. -/
  | maxu (d : BitVec 5) (a : BitVec 5) (b : BitVec 5)
  /-- ADDS (R67): Adds sa and sb shifted left by sh. -/
  | adds (d : BitVec 5) (a : BitVec 5) (b : BitVec 5) (h : BitVec 3)
  /-- ADDI (R68): Adds a sign-extended 16-bit immediate. -/
  | addi (d : BitVec 5) (a : BitVec 5) (i : BitVec 16)
  /-- ANDI (R68): ANDs with a sign-extended immediate. -/
  | andi (d : BitVec 5) (a : BitVec 5) (i : BitVec 16)
  /-- ORI (R68): ORs with a sign-extended immediate. -/
  | ori (d : BitVec 5) (a : BitVec 5) (i : BitVec 16)
  /-- XORI (R68): XORs with a sign-extended immediate. -/
  | xori (d : BitVec 5) (a : BitVec 5) (i : BitVec 16)
  /-- SLTI (R68): Signed compare against an immediate. -/
  | slti (d : BitVec 5) (a : BitVec 5) (i : BitVec 16)
  /-- SLTIU (R68): Unsigned compare against the sign-extended immediate. -/
  | sltiu (d : BitVec 5) (a : BitVec 5) (i : BitVec 16)
  /-- SLLI (R69): Logical left shift by a constant. -/
  | slli (d : BitVec 5) (a : BitVec 5) (h : BitVec 6)
  /-- SRLI (R69): Logical right shift by a constant. -/
  | srli (d : BitVec 5) (a : BitVec 5) (h : BitVec 6)
  /-- SRAI (R69): Arithmetic right shift by a constant. -/
  | srai (d : BitVec 5) (a : BitVec 5) (h : BitVec 6)
  /-- LHI (R70): Loads sext(imm21) shifted left 11. -/
  | lhi (d : BitVec 5) (i : BitVec 21)
  /-- APC (R70): Adds sext(imm21) shifted left 11 to the PC. -/
  | apc (d : BitVec 5) (i : BitVec 21)
  /-- MUL (R71): Low 64 bits of the product. -/
  | mul (d : BitVec 5) (a : BitVec 5) (b : BitVec 5)
  /-- MULH (R71): High 64 bits of the signed product. -/
  | mulh (d : BitVec 5) (a : BitVec 5) (b : BitVec 5)
  /-- MULHU (R71): High 64 bits of the unsigned product. -/
  | mulhu (d : BitVec 5) (a : BitVec 5) (b : BitVec 5)
  /-- MULHSU (R71): High 64 bits of signed by unsigned product. -/
  | mulhsu (d : BitVec 5) (a : BitVec 5) (b : BitVec 5)
  /-- DIV (R72): Signed quotient with fixed boundary results. -/
  | div (d : BitVec 5) (a : BitVec 5) (b : BitVec 5)
  /-- DIVU (R72): Unsigned quotient with fixed boundary results. -/
  | divu (d : BitVec 5) (a : BitVec 5) (b : BitVec 5)
  /-- REM (R72): Signed remainder with fixed boundary results. -/
  | rem (d : BitVec 5) (a : BitVec 5) (b : BitVec 5)
  /-- REMU (R72): Unsigned remainder with fixed boundary results. -/
  | remu (d : BitVec 5) (a : BitVec 5) (b : BitVec 5)
  /-- CLZ (R73): Counts leading zero bits. -/
  | clz (d : BitVec 5) (a : BitVec 5)
  /-- CTZ (R73): Counts trailing zero bits. -/
  | ctz (d : BitVec 5) (a : BitVec 5)
  /-- POP (R73): Counts one bits. -/
  | pop (d : BitVec 5) (a : BitVec 5)
  /-- REV8 (R73): Reverses the byte order. -/
  | rev8 (d : BitVec 5) (a : BitVec 5)
  /-- SEXTB (R73): Sign-extends the low byte. -/
  | sextb (d : BitVec 5) (a : BitVec 5)
  /-- SEXTH (R73): Sign-extends the low halfword. -/
  | sexth (d : BitVec 5) (a : BitVec 5)
  /-- SEXTW (R73): Sign-extends the low word. -/
  | sextw (d : BitVec 5) (a : BitVec 5)
  /-- ZEXTW (R73): Zero-extends the low word. -/
  | zextw (d : BitVec 5) (a : BitVec 5)
  /-- LD_B (R74): Loads a sign-extended byte. -/
  | ldB (d : BitVec 5) (a : BitVec 5) (o : BitVec 13)
  /-- LD_H (R74): Loads a sign-extended halfword. -/
  | ldH (d : BitVec 5) (a : BitVec 5) (o : BitVec 13)
  /-- LD_W (R74): Loads a sign-extended word. -/
  | ldW (d : BitVec 5) (a : BitVec 5) (o : BitVec 13)
  /-- LD_D (R74): Loads a doubleword. -/
  | ldD (d : BitVec 5) (a : BitVec 5) (o : BitVec 13)
  /-- LD_BU (R74): Loads a zero-extended byte. -/
  | ldBu (d : BitVec 5) (a : BitVec 5) (o : BitVec 13)
  /-- LD_HU (R74): Loads a zero-extended halfword. -/
  | ldHu (d : BitVec 5) (a : BitVec 5) (o : BitVec 13)
  /-- LD_WU (R74): Loads a zero-extended word. -/
  | ldWu (d : BitVec 5) (a : BitVec 5) (o : BitVec 13)
  /-- ST_B (R74): Stores a byte. -/
  | stB (v : BitVec 5) (a : BitVec 5) (o : BitVec 13)
  /-- ST_H (R74): Stores a halfword. -/
  | stH (v : BitVec 5) (a : BitVec 5) (o : BitVec 13)
  /-- ST_W (R74): Stores a word. -/
  | stW (v : BitVec 5) (a : BitVec 5) (o : BitVec 13)
  /-- ST_D (R74): Stores a doubleword. -/
  | stD (v : BitVec 5) (a : BitVec 5) (o : BitVec 13)
  /-- LDC_B (R77): Loads a sign-extended byte through the constant cache. -/
  | ldcB (d : BitVec 5) (a : BitVec 5) (o : BitVec 13)
  /-- LDC_H (R77): Loads a sign-extended halfword through the constant cache. -/
  | ldcH (d : BitVec 5) (a : BitVec 5) (o : BitVec 13)
  /-- LDC_W (R77): Loads a sign-extended word through the constant cache. -/
  | ldcW (d : BitVec 5) (a : BitVec 5) (o : BitVec 13)
  /-- LDC_D (R77): Loads a doubleword through the constant cache. -/
  | ldcD (d : BitVec 5) (a : BitVec 5) (o : BitVec 13)
  /-- LDC_BU (R77): Loads a zero-extended byte through the constant cache. -/
  | ldcBu (d : BitVec 5) (a : BitVec 5) (o : BitVec 13)
  /-- LDC_HU (R77): Loads a zero-extended halfword through the constant cache. -/
  | ldcHu (d : BitVec 5) (a : BitVec 5) (o : BitVec 13)
  /-- LDC_WU (R77): Loads a zero-extended word through the constant cache. -/
  | ldcWu (d : BitVec 5) (a : BitVec 5) (o : BitVec 13)
  /-- AMO_SWP (R78): Atomic swap with order and scope. -/
  | amoSwp (d : BitVec 5) (a : BitVec 5) (b : BitVec 5) (w : BitVec 2) (sc : BitVec 3) (o : BitVec 2)
  /-- AMO_ADD (R78): Atomic add with order and scope. -/
  | amoAdd (d : BitVec 5) (a : BitVec 5) (b : BitVec 5) (w : BitVec 2) (sc : BitVec 3) (o : BitVec 2)
  /-- AMO_AND (R78): Atomic AND with order and scope. -/
  | amoAnd (d : BitVec 5) (a : BitVec 5) (b : BitVec 5) (w : BitVec 2) (sc : BitVec 3) (o : BitVec 2)
  /-- AMO_OR (R78): Atomic OR with order and scope. -/
  | amoOr (d : BitVec 5) (a : BitVec 5) (b : BitVec 5) (w : BitVec 2) (sc : BitVec 3) (o : BitVec 2)
  /-- AMO_XOR (R78): Atomic XOR with order and scope. -/
  | amoXor (d : BitVec 5) (a : BitVec 5) (b : BitVec 5) (w : BitVec 2) (sc : BitVec 3) (o : BitVec 2)
  /-- AMO_MIN (R78): Atomic signed minimum. -/
  | amoMin (d : BitVec 5) (a : BitVec 5) (b : BitVec 5) (w : BitVec 2) (sc : BitVec 3) (o : BitVec 2)
  /-- AMO_MAX (R78): Atomic signed maximum. -/
  | amoMax (d : BitVec 5) (a : BitVec 5) (b : BitVec 5) (w : BitVec 2) (sc : BitVec 3) (o : BitVec 2)
  /-- AMO_MINU (R78): Atomic unsigned minimum. -/
  | amoMinu (d : BitVec 5) (a : BitVec 5) (b : BitVec 5) (w : BitVec 2) (sc : BitVec 3) (o : BitVec 2)
  /-- AMO_MAXU (R78): Atomic unsigned maximum. -/
  | amoMaxu (d : BitVec 5) (a : BitVec 5) (b : BitVec 5) (w : BitVec 2) (sc : BitVec 3) (o : BitVec 2)
  /-- AMO_CAS (R78): Atomic compare-and-swap. -/
  | amoCas (d : BitVec 5) (a : BitVec 5) (b : BitVec 5) (w : BitVec 2) (sc : BitVec 3) (o : BitVec 2)
  /-- BEQ (R81): Branches when the registers are equal. -/
  | beq (a : BitVec 5) (b : BitVec 5) (o : BitVec 16)
  /-- BNE (R81): Branches when the registers differ. -/
  | bne (a : BitVec 5) (b : BitVec 5) (o : BitVec 16)
  /-- BLT (R81): Branches on signed less-than. -/
  | blt (a : BitVec 5) (b : BitVec 5) (o : BitVec 16)
  /-- BGE (R81): Branches on signed greater-or-equal. -/
  | bge (a : BitVec 5) (b : BitVec 5) (o : BitVec 16)
  /-- BLTU (R81): Branches on unsigned less-than. -/
  | bltu (a : BitVec 5) (b : BitVec 5) (o : BitVec 16)
  /-- BGEU (R81): Branches on unsigned greater-or-equal. -/
  | bgeu (a : BitVec 5) (b : BitVec 5) (o : BitVec 16)
  /-- JAL (R82): Jumps PC-relative and links PC+4. -/
  | jal (d : BitVec 5) (i : BitVec 21)
  /-- JALR (R82): Jumps to register plus offset and links PC+4. -/
  | jalr (d : BitVec 5) (a : BitVec 5) (i : BitVec 16)
  /-- VLOOP (R83): Subtracts VL from a count and branches while positive. -/
  | vloop (a : BitVec 5) (o : BitVec 16)
  /-- FADD (R84): Scalar f32 addition. -/
  | fadd (d : BitVec 5) (a : BitVec 5) (b : BitVec 5) (r : BitVec 3)
  /-- FSUB (R84): Scalar f32 subtraction. -/
  | fsub (d : BitVec 5) (a : BitVec 5) (b : BitVec 5) (r : BitVec 3)
  /-- FMUL (R84): Scalar f32 multiplication. -/
  | fmul (d : BitVec 5) (a : BitVec 5) (b : BitVec 5) (r : BitVec 3)
  /-- FDIV (R84): Scalar f32 division. -/
  | fdiv (d : BitVec 5) (a : BitVec 5) (b : BitVec 5) (r : BitVec 3)
  /-- FSQRT (R84): Scalar f32 square root. -/
  | fsqrt (d : BitVec 5) (a : BitVec 5) (r : BitVec 3)
  /-- FMA (R84): Scalar fused multiply-add into sd. -/
  | fma (d : BitVec 5) (a : BitVec 5) (b : BitVec 5) (r : BitVec 3)
  /-- FMIN (R84): Scalar f32 minimum. -/
  | fmin (d : BitVec 5) (a : BitVec 5) (b : BitVec 5) (r : BitVec 3)
  /-- FMAX (R84): Scalar f32 maximum. -/
  | fmax (d : BitVec 5) (a : BitVec 5) (b : BitVec 5) (r : BitVec 3)
  /-- FEQ (R84): Scalar f32 equality compare. -/
  | feq (d : BitVec 5) (a : BitVec 5) (b : BitVec 5) (r : BitVec 3)
  /-- FLT (R84): Scalar f32 less-than compare. -/
  | flt (d : BitVec 5) (a : BitVec 5) (b : BitVec 5) (r : BitVec 3)
  /-- FLE (R84): Scalar f32 less-or-equal compare. -/
  | fle (d : BitVec 5) (a : BitVec 5) (b : BitVec 5) (r : BitVec 3)
  /-- FCVT_W_S (R85): Converts f32 to int32 with clamping. -/
  | fcvtWS (d : BitVec 5) (a : BitVec 5) (r : BitVec 3)
  /-- FCVT_S_W (R84): Converts int32 to f32. -/
  | fcvtSW (d : BitVec 5) (a : BitVec 5) (r : BitVec 3)
  /-- FCVT_BF_S (R84): Converts f32 to bf16. -/
  | fcvtBfS (d : BitVec 5) (a : BitVec 5) (r : BitVec 3)
  /-- FCVT_S_BF (R84): Converts bf16 to f32 exactly. -/
  | fcvtSBf (d : BitVec 5) (a : BitVec 5) (r : BitVec 3)
  /-- FLN (R85): Correctly rounded natural logarithm. -/
  | fln (d : BitVec 5) (a : BitVec 5) (r : BitVec 3)
  /-- FEXP (R85): Correctly rounded exponential. -/
  | fexp (d : BitVec 5) (a : BitVec 5) (r : BitVec 3)
  /-- SYS (R86): Traps SYS into system software. -/
  | sys
  /-- BRK (R86): Traps BRK into system software. -/
  | brk
  /-- TRET (R87): Returns from a trap, reissuing the instruction at EPC if REISSUE is set. -/
  | tret
  /-- WFI (R88): Stalls the hart until an interrupt or pre-emption request is pending. -/
  | wfi
  /-- MWAIT (R89): Sleeps while a doubleword equals the last value seen. -/
  | mwait (d : BitVec 5) (a : BitVec 5) (b : BitVec 5)
  /-- FENCE (R90): Orders all earlier accesses before later ones at a scope. -/
  | fence (sc : BitVec 3)
  /-- FENCE_SV (R91): Drains the scalar store buffer before later vector accesses. -/
  | fenceSv
  /-- FENCE_VS (R91): Makes earlier vector stores visible to later scalar loads. -/
  | fenceVs
  /-- FENCE_C (R91): Waits for earlier stores at core scope and invalidates the constant cache. -/
  | fenceC
  /-- VSETL (R40): Opens a strip with VL, VTYPE and the pending grant from registers. -/
  | vsetl (d : BitVec 5) (a : BitVec 5) (b : BitVec 5)
  /-- VSETLI (R40): Opens a strip with an immediate vtype. -/
  | vsetli (d : BitVec 5) (a : BitVec 5) (t : BitVec 16)
  /-- GETC (R93): Reads a control register. -/
  | getc (d : BitVec 5) (c : BitVec 16)
  /-- SETC (R93): Writes a control register. -/
  | setc (a : BitVec 5) (c : BitVec 16)
  /-- TAS (R197): Waits in FIFO order for a semaphore bit and sets it. -/
  | tas (d : BitVec 5) (n : BitVec 11)
  /-- SCLR (R197): Hands a semaphore bit to the oldest waiter or clears it. -/
  | sclr (n : BitVec 11)
  /-- SSET (R197): Sets a semaphore bit. -/
  | sset (n : BitVec 11)
  /-- STST (R197): Reads and sets a semaphore bit without waiting. -/
  | stst (d : BitVec 5) (n : BitVec 11)
  /-- CDRD (R197): Reads a cluster data register. -/
  | cdrd (d : BitVec 5) (n : BitVec 11)
  /-- CDWR (R197): Writes a cluster data register. -/
  | cdwr (a : BitVec 5) (n : BitVec 11)
  /-- GBAR (R201): Arrives at the gang barrier and waits for the phase. -/
  | gbar (a : BitVec 5)
  /-- GBAR_A (R201): Arrives at the gang barrier with expected bytes. -/
  | gbarA (a : BitVec 5)
  /-- GBAR_W (R201): Waits for the gang barrier phase. -/
  | gbarW (d : BitVec 5)
  /-- GBAR_R (R201): Clears barrier FAULT and tries completion. -/
  | gbarR
  /-- WTAKE (R281): Atomically takes the next task from a work pool. -/
  | wtake (d : BitVec 5) (a : BitVec 5)
  /-- WPUT (R281): Atomically adds n tasks to a work pool as a release. -/
  | wput (d : BitVec 5) (a : BitVec 5) (n : BitVec 11)
  /-- VADD_VV (R101): Vector integer add, vector operand. -/
  | vaddVv (d : BitVec 5) (a : BitVec 5) (b : BitVec 5) (m : BitVec 3) (x : BitVec 3) (j : BitVec 1)
  /-- VADD_VS (R101): Vector integer add, scalar operand. -/
  | vaddVs (d : BitVec 5) (a : BitVec 5) (b : BitVec 5) (m : BitVec 3) (x : BitVec 3) (j : BitVec 1)
  /-- VADD_VI (R101): Vector integer add, immediate operand. -/
  | vaddVi (d : BitVec 5) (a : BitVec 5) (i : BitVec 5) (m : BitVec 3) (x : BitVec 3) (j : BitVec 1)
  /-- VSUB_VV (R101): Vector integer subtract, vector operand. -/
  | vsubVv (d : BitVec 5) (a : BitVec 5) (b : BitVec 5) (m : BitVec 3) (x : BitVec 3) (j : BitVec 1)
  /-- VSUB_VS (R101): Vector integer subtract, scalar operand. -/
  | vsubVs (d : BitVec 5) (a : BitVec 5) (b : BitVec 5) (m : BitVec 3) (x : BitVec 3) (j : BitVec 1)
  /-- VSUB_VI (R101): Vector integer subtract, immediate operand. -/
  | vsubVi (d : BitVec 5) (a : BitVec 5) (i : BitVec 5) (m : BitVec 3) (x : BitVec 3) (j : BitVec 1)
  /-- VMUL_VV (R101): Vector low multiply, vector operand. -/
  | vmulVv (d : BitVec 5) (a : BitVec 5) (b : BitVec 5) (m : BitVec 3) (x : BitVec 3) (j : BitVec 1)
  /-- VMUL_VS (R101): Vector low multiply, scalar operand. -/
  | vmulVs (d : BitVec 5) (a : BitVec 5) (b : BitVec 5) (m : BitVec 3) (x : BitVec 3) (j : BitVec 1)
  /-- VMUL_VI (R101): Vector low multiply, immediate operand. -/
  | vmulVi (d : BitVec 5) (a : BitVec 5) (i : BitVec 5) (m : BitVec 3) (x : BitVec 3) (j : BitVec 1)
  /-- VMULH_VV (R101): Vector high multiply, vector operand. -/
  | vmulhVv (d : BitVec 5) (a : BitVec 5) (b : BitVec 5) (m : BitVec 3) (x : BitVec 3) (j : BitVec 1)
  /-- VMULH_VS (R101): Vector high multiply, scalar operand. -/
  | vmulhVs (d : BitVec 5) (a : BitVec 5) (b : BitVec 5) (m : BitVec 3) (x : BitVec 3) (j : BitVec 1)
  /-- VMULH_VI (R101): Vector high multiply, immediate operand. -/
  | vmulhVi (d : BitVec 5) (a : BitVec 5) (i : BitVec 5) (m : BitVec 3) (x : BitVec 3) (j : BitVec 1)
  /-- VMACC_VV (R101): Vector multiply-accumulate, vector operand. -/
  | vmaccVv (d : BitVec 5) (a : BitVec 5) (b : BitVec 5) (m : BitVec 3) (x : BitVec 3) (j : BitVec 1)
  /-- VMACC_VS (R101): Vector multiply-accumulate, scalar operand. -/
  | vmaccVs (d : BitVec 5) (a : BitVec 5) (b : BitVec 5) (m : BitVec 3) (x : BitVec 3) (j : BitVec 1)
  /-- VMACC_VI (R101): Vector multiply-accumulate, immediate operand. -/
  | vmaccVi (d : BitVec 5) (a : BitVec 5) (i : BitVec 5) (m : BitVec 3) (x : BitVec 3) (j : BitVec 1)
  /-- VNMSAC_VV (R101): Vector multiply-subtract from destination, vector operand. -/
  | vnmsacVv (d : BitVec 5) (a : BitVec 5) (b : BitVec 5) (m : BitVec 3) (x : BitVec 3) (j : BitVec 1)
  /-- VNMSAC_VS (R101): Vector multiply-subtract from destination, scalar operand. -/
  | vnmsacVs (d : BitVec 5) (a : BitVec 5) (b : BitVec 5) (m : BitVec 3) (x : BitVec 3) (j : BitVec 1)
  /-- VNMSAC_VI (R101): Vector multiply-subtract from destination, immediate operand. -/
  | vnmsacVi (d : BitVec 5) (a : BitVec 5) (i : BitVec 5) (m : BitVec 3) (x : BitVec 3) (j : BitVec 1)
  /-- VMIN_VV (R101): Vector signed minimum, vector operand. -/
  | vminVv (d : BitVec 5) (a : BitVec 5) (b : BitVec 5) (m : BitVec 3) (x : BitVec 3) (j : BitVec 1)
  /-- VMIN_VS (R101): Vector signed minimum, scalar operand. -/
  | vminVs (d : BitVec 5) (a : BitVec 5) (b : BitVec 5) (m : BitVec 3) (x : BitVec 3) (j : BitVec 1)
  /-- VMIN_VI (R101): Vector signed minimum, immediate operand. -/
  | vminVi (d : BitVec 5) (a : BitVec 5) (i : BitVec 5) (m : BitVec 3) (x : BitVec 3) (j : BitVec 1)
  /-- VMAX_VV (R101): Vector signed maximum, vector operand. -/
  | vmaxVv (d : BitVec 5) (a : BitVec 5) (b : BitVec 5) (m : BitVec 3) (x : BitVec 3) (j : BitVec 1)
  /-- VMAX_VS (R101): Vector signed maximum, scalar operand. -/
  | vmaxVs (d : BitVec 5) (a : BitVec 5) (b : BitVec 5) (m : BitVec 3) (x : BitVec 3) (j : BitVec 1)
  /-- VMAX_VI (R101): Vector signed maximum, immediate operand. -/
  | vmaxVi (d : BitVec 5) (a : BitVec 5) (i : BitVec 5) (m : BitVec 3) (x : BitVec 3) (j : BitVec 1)
  /-- VMINU_VV (R101): Vector unsigned minimum, vector operand. -/
  | vminuVv (d : BitVec 5) (a : BitVec 5) (b : BitVec 5) (m : BitVec 3) (x : BitVec 3) (j : BitVec 1)
  /-- VMINU_VS (R101): Vector unsigned minimum, scalar operand. -/
  | vminuVs (d : BitVec 5) (a : BitVec 5) (b : BitVec 5) (m : BitVec 3) (x : BitVec 3) (j : BitVec 1)
  /-- VMINU_VI (R101): Vector unsigned minimum, immediate operand. -/
  | vminuVi (d : BitVec 5) (a : BitVec 5) (i : BitVec 5) (m : BitVec 3) (x : BitVec 3) (j : BitVec 1)
  /-- VMAXU_VV (R101): Vector unsigned maximum, vector operand. -/
  | vmaxuVv (d : BitVec 5) (a : BitVec 5) (b : BitVec 5) (m : BitVec 3) (x : BitVec 3) (j : BitVec 1)
  /-- VMAXU_VS (R101): Vector unsigned maximum, scalar operand. -/
  | vmaxuVs (d : BitVec 5) (a : BitVec 5) (b : BitVec 5) (m : BitVec 3) (x : BitVec 3) (j : BitVec 1)
  /-- VMAXU_VI (R101): Vector unsigned maximum, immediate operand. -/
  | vmaxuVi (d : BitVec 5) (a : BitVec 5) (i : BitVec 5) (m : BitVec 3) (x : BitVec 3) (j : BitVec 1)
  /-- VAND_VV (R101): Vector bitwise AND, vector operand. -/
  | vandVv (d : BitVec 5) (a : BitVec 5) (b : BitVec 5) (m : BitVec 3) (x : BitVec 3) (j : BitVec 1)
  /-- VAND_VS (R101): Vector bitwise AND, scalar operand. -/
  | vandVs (d : BitVec 5) (a : BitVec 5) (b : BitVec 5) (m : BitVec 3) (x : BitVec 3) (j : BitVec 1)
  /-- VAND_VI (R101): Vector bitwise AND, immediate operand. -/
  | vandVi (d : BitVec 5) (a : BitVec 5) (i : BitVec 5) (m : BitVec 3) (x : BitVec 3) (j : BitVec 1)
  /-- VOR_VV (R101): Vector bitwise OR, vector operand. -/
  | vorVv (d : BitVec 5) (a : BitVec 5) (b : BitVec 5) (m : BitVec 3) (x : BitVec 3) (j : BitVec 1)
  /-- VOR_VS (R101): Vector bitwise OR, scalar operand. -/
  | vorVs (d : BitVec 5) (a : BitVec 5) (b : BitVec 5) (m : BitVec 3) (x : BitVec 3) (j : BitVec 1)
  /-- VOR_VI (R101): Vector bitwise OR, immediate operand. -/
  | vorVi (d : BitVec 5) (a : BitVec 5) (i : BitVec 5) (m : BitVec 3) (x : BitVec 3) (j : BitVec 1)
  /-- VXOR_VV (R101): Vector bitwise XOR, vector operand. -/
  | vxorVv (d : BitVec 5) (a : BitVec 5) (b : BitVec 5) (m : BitVec 3) (x : BitVec 3) (j : BitVec 1)
  /-- VXOR_VS (R101): Vector bitwise XOR, scalar operand. -/
  | vxorVs (d : BitVec 5) (a : BitVec 5) (b : BitVec 5) (m : BitVec 3) (x : BitVec 3) (j : BitVec 1)
  /-- VXOR_VI (R101): Vector bitwise XOR, immediate operand. -/
  | vxorVi (d : BitVec 5) (a : BitVec 5) (i : BitVec 5) (m : BitVec 3) (x : BitVec 3) (j : BitVec 1)
  /-- VSLL_VV (R101): Vector left shift, vector counts. -/
  | vsllVv (d : BitVec 5) (a : BitVec 5) (b : BitVec 5) (m : BitVec 3) (x : BitVec 3) (j : BitVec 1)
  /-- VSLL_VS (R101): Vector left shift, scalar count. -/
  | vsllVs (d : BitVec 5) (a : BitVec 5) (b : BitVec 5) (m : BitVec 3) (x : BitVec 3) (j : BitVec 1)
  /-- VSLL_VI (R101): Vector left shift, immediate count. -/
  | vsllVi (d : BitVec 5) (a : BitVec 5) (i : BitVec 5) (m : BitVec 3) (x : BitVec 3) (j : BitVec 1)
  /-- VSRL_VV (R101): Vector logical right shift, vector counts. -/
  | vsrlVv (d : BitVec 5) (a : BitVec 5) (b : BitVec 5) (m : BitVec 3) (x : BitVec 3) (j : BitVec 1)
  /-- VSRL_VS (R101): Vector logical right shift, scalar count. -/
  | vsrlVs (d : BitVec 5) (a : BitVec 5) (b : BitVec 5) (m : BitVec 3) (x : BitVec 3) (j : BitVec 1)
  /-- VSRL_VI (R101): Vector logical right shift, immediate count. -/
  | vsrlVi (d : BitVec 5) (a : BitVec 5) (i : BitVec 5) (m : BitVec 3) (x : BitVec 3) (j : BitVec 1)
  /-- VSRA_VV (R101): Vector arithmetic right shift, vector counts. -/
  | vsraVv (d : BitVec 5) (a : BitVec 5) (b : BitVec 5) (m : BitVec 3) (x : BitVec 3) (j : BitVec 1)
  /-- VSRA_VS (R101): Vector arithmetic right shift, scalar count. -/
  | vsraVs (d : BitVec 5) (a : BitVec 5) (b : BitVec 5) (m : BitVec 3) (x : BitVec 3) (j : BitVec 1)
  /-- VSRA_VI (R101): Vector arithmetic right shift, immediate count. -/
  | vsraVi (d : BitVec 5) (a : BitVec 5) (i : BitVec 5) (m : BitVec 3) (x : BitVec 3) (j : BitVec 1)
  /-- VSADD (R102): Signed saturating vector add. -/
  | vsadd (d : BitVec 5) (a : BitVec 5) (b : BitVec 5) (m : BitVec 3) (x : BitVec 3) (j : BitVec 1)
  /-- VSADDU (R102): Unsigned saturating vector add. -/
  | vsaddu (d : BitVec 5) (a : BitVec 5) (b : BitVec 5) (m : BitVec 3) (x : BitVec 3) (j : BitVec 1)
  /-- VSSUB (R102): Signed saturating vector subtract. -/
  | vssub (d : BitVec 5) (a : BitVec 5) (b : BitVec 5) (m : BitVec 3) (x : BitVec 3) (j : BitVec 1)
  /-- VSSUBU (R102): Unsigned saturating vector subtract. -/
  | vssubu (d : BitVec 5) (a : BitVec 5) (b : BitVec 5) (m : BitVec 3) (x : BitVec 3) (j : BitVec 1)
  /-- VAVG (R102): Signed rounding average. -/
  | vavg (d : BitVec 5) (a : BitVec 5) (b : BitVec 5) (m : BitVec 3) (x : BitVec 3) (j : BitVec 1)
  /-- VAVGU (R102): Unsigned rounding average. -/
  | vavgu (d : BitVec 5) (a : BitVec 5) (b : BitVec 5) (m : BitVec 3) (x : BitVec 3) (j : BitVec 1)
  /-- VMERGE (R103): Selects elements of two vectors by a mask. -/
  | vmerge (d : BitVec 5) (a : BitVec 5) (b : BitVec 5) (m : BitVec 3) (j : BitVec 1)
  /-- VMV (R103): Copies active vector elements. -/
  | vmv (d : BitVec 5) (a : BitVec 5) (j : BitVec 1)
  /-- VNSRA (R104): Narrowing rounding shift with saturation. -/
  | vnsra (d : BitVec 5) (a : BitVec 5) (b : BitVec 5) (m : BitVec 3) (x : BitVec 3) (j : BitVec 1)
  /-- VWMUL (R104): Widening exact multiply. -/
  | vwmul (d : BitVec 5) (a : BitVec 5) (b : BitVec 5) (m : BitVec 3) (j : BitVec 1)
  /-- VWADD (R104): Widening exact add. -/
  | vwadd (d : BitVec 5) (a : BitVec 5) (b : BitVec 5) (m : BitVec 3) (j : BitVec 1)
  /-- VDOT4 (R105): Four-way byte dot product into 32-bit sums. -/
  | vdot4 (d : BitVec 5) (a : BitVec 5) (b : BitVec 5) (m : BitVec 3) (j : BitVec 1)
  /-- VFADD_VV (R106): Vector float add, vector operand. -/
  | vfaddVv (d : BitVec 5) (a : BitVec 5) (b : BitVec 5) (m : BitVec 3) (x : BitVec 3) (j : BitVec 1)
  /-- VFADD_VS (R106): Vector float add, scalar operand. -/
  | vfaddVs (d : BitVec 5) (a : BitVec 5) (b : BitVec 5) (m : BitVec 3) (x : BitVec 3) (j : BitVec 1)
  /-- VFSUB_VV (R106): Vector float subtract, vector operand. -/
  | vfsubVv (d : BitVec 5) (a : BitVec 5) (b : BitVec 5) (m : BitVec 3) (x : BitVec 3) (j : BitVec 1)
  /-- VFSUB_VS (R106): Vector float subtract, scalar operand. -/
  | vfsubVs (d : BitVec 5) (a : BitVec 5) (b : BitVec 5) (m : BitVec 3) (x : BitVec 3) (j : BitVec 1)
  /-- VFMUL_VV (R106): Vector float multiply, vector operand. -/
  | vfmulVv (d : BitVec 5) (a : BitVec 5) (b : BitVec 5) (m : BitVec 3) (x : BitVec 3) (j : BitVec 1)
  /-- VFMUL_VS (R106): Vector float multiply, scalar operand. -/
  | vfmulVs (d : BitVec 5) (a : BitVec 5) (b : BitVec 5) (m : BitVec 3) (x : BitVec 3) (j : BitVec 1)
  /-- VFDIV_VV (R106): Vector float divide, vector operand. -/
  | vfdivVv (d : BitVec 5) (a : BitVec 5) (b : BitVec 5) (m : BitVec 3) (x : BitVec 3) (j : BitVec 1)
  /-- VFDIV_VS (R106): Vector float divide, scalar operand. -/
  | vfdivVs (d : BitVec 5) (a : BitVec 5) (b : BitVec 5) (m : BitVec 3) (x : BitVec 3) (j : BitVec 1)
  /-- VFMA_VV (R106): Vector fused multiply-add, vector operand. -/
  | vfmaVv (d : BitVec 5) (a : BitVec 5) (b : BitVec 5) (m : BitVec 3) (x : BitVec 3) (j : BitVec 1)
  /-- VFMA_VS (R106): Vector fused multiply-add, scalar operand. -/
  | vfmaVs (d : BitVec 5) (a : BitVec 5) (b : BitVec 5) (m : BitVec 3) (x : BitVec 3) (j : BitVec 1)
  /-- VFNMA_VV (R106): Vector fused multiply-subtract, vector operand. -/
  | vfnmaVv (d : BitVec 5) (a : BitVec 5) (b : BitVec 5) (m : BitVec 3) (x : BitVec 3) (j : BitVec 1)
  /-- VFNMA_VS (R106): Vector fused multiply-subtract, scalar operand. -/
  | vfnmaVs (d : BitVec 5) (a : BitVec 5) (b : BitVec 5) (m : BitVec 3) (x : BitVec 3) (j : BitVec 1)
  /-- VFMIN_VV (R106): Vector float minimum, vector operand. -/
  | vfminVv (d : BitVec 5) (a : BitVec 5) (b : BitVec 5) (m : BitVec 3) (x : BitVec 3) (j : BitVec 1)
  /-- VFMIN_VS (R106): Vector float minimum, scalar operand. -/
  | vfminVs (d : BitVec 5) (a : BitVec 5) (b : BitVec 5) (m : BitVec 3) (x : BitVec 3) (j : BitVec 1)
  /-- VFMAX_VV (R106): Vector float maximum, vector operand. -/
  | vfmaxVv (d : BitVec 5) (a : BitVec 5) (b : BitVec 5) (m : BitVec 3) (x : BitVec 3) (j : BitVec 1)
  /-- VFMAX_VS (R106): Vector float maximum, scalar operand. -/
  | vfmaxVs (d : BitVec 5) (a : BitVec 5) (b : BitVec 5) (m : BitVec 3) (x : BitVec 3) (j : BitVec 1)
  /-- VFSGNJ_VV (R106): Magnitude of a with sign of b, vector operand. -/
  | vfsgnjVv (d : BitVec 5) (a : BitVec 5) (b : BitVec 5) (m : BitVec 3) (x : BitVec 3) (j : BitVec 1)
  /-- VFSGNJ_VS (R106): Magnitude of a with sign of b, scalar operand. -/
  | vfsgnjVs (d : BitVec 5) (a : BitVec 5) (b : BitVec 5) (m : BitVec 3) (x : BitVec 3) (j : BitVec 1)
  /-- VFEXPB_VV (R107): Bounded exponential exp(a-b), vector operand. -/
  | vfexpbVv (d : BitVec 5) (a : BitVec 5) (b : BitVec 5) (m : BitVec 3) (x : BitVec 3) (j : BitVec 1)
  /-- VFEXPB_VS (R107): Bounded exponential exp(a-b), scalar operand. -/
  | vfexpbVs (d : BitVec 5) (a : BitVec 5) (b : BitVec 5) (m : BitVec 3) (x : BitVec 3) (j : BitVec 1)
  /-- VFWMA_VV (R108): Widening multiply-accumulate into f32, vector operand. -/
  | vfwmaVv (d : BitVec 5) (a : BitVec 5) (b : BitVec 5) (m : BitVec 3) (x : BitVec 3) (j : BitVec 1)
  /-- VFWMA_VS (R108): Widening multiply-accumulate into f32, scalar operand. -/
  | vfwmaVs (d : BitVec 5) (a : BitVec 5) (b : BitVec 5) (m : BitVec 3) (x : BitVec 3) (j : BitVec 1)
  /-- VFSQRT (R109): Vector square root. -/
  | vfsqrt (d : BitVec 5) (a : BitVec 5) (m : BitVec 3) (x : BitVec 3) (j : BitVec 1)
  /-- VFRSQE (R109): 12-bit reciprocal square root estimate. -/
  | vfrsqe (d : BitVec 5) (a : BitVec 5) (m : BitVec 3) (x : BitVec 3) (j : BitVec 1)
  /-- VFRECE (R109): 12-bit reciprocal estimate. -/
  | vfrece (d : BitVec 5) (a : BitVec 5) (m : BitVec 3) (x : BitVec 3) (j : BitVec 1)
  /-- VFLN (R109): Vector natural logarithm. -/
  | vfln (d : BitVec 5) (a : BitVec 5) (m : BitVec 3) (x : BitVec 3) (j : BitVec 1)
  /-- VFEXP (R109): Vector exponential. -/
  | vfexp (d : BitVec 5) (a : BitVec 5) (m : BitVec 3) (x : BitVec 3) (j : BitVec 1)
  /-- VFCVT (R110): Converts elements to a target format code. -/
  | vfcvt (d : BitVec 5) (a : BitVec 5) (c : BitVec 5) (m : BitVec 3) (x : BitVec 3) (j : BitVec 1)
  /-- VPACK (R111): Packs int8 elements into 4-bit codes. -/
  | vpack (d : BitVec 5) (a : BitVec 5) (x : BitVec 3) (j : BitVec 1)
  /-- VUNPK (R111): Unpacks 4-bit codes into int8 elements. -/
  | vunpk (d : BitVec 5) (a : BitVec 5) (j : BitVec 1)
  /-- VFCLASS (R112): Classifies float elements. -/
  | vfclass (d : BitVec 5) (a : BitVec 5) (m : BitVec 3) (j : BitVec 1)
  /-- VGMB (R113): Keyed Gumbel noise per token index. -/
  | vgmb (d : BitVec 5) (a : BitVec 5) (m : BitVec 3) (j : BitVec 1)
  /-- VGMB_T (R113): Replayed noise gathered from a table. -/
  | vgmbT (d : BitVec 5) (a : BitVec 5) (b : BitVec 5) (m : BitVec 3) (j : BitVec 1)
  /-- VFABS (R112): Clears the sign bit. -/
  | vfabs (d : BitVec 5) (a : BitVec 5) (m : BitVec 3) (j : BitVec 1)
  /-- VFNEG (R112): Inverts the sign bit. -/
  | vfneg (d : BitVec 5) (a : BitVec 5) (m : BitVec 3) (j : BitVec 1)
  /-- VCEQ_VV (R114): Raw-bit equality compare into a mask, vector operand. -/
  | vceqVv (d : BitVec 5) (a : BitVec 5) (b : BitVec 5) (m : BitVec 3) (x : BitVec 3) (j : BitVec 1)
  /-- VCEQ_VS (R114): Raw-bit equality compare into a mask, scalar operand. -/
  | vceqVs (d : BitVec 5) (a : BitVec 5) (b : BitVec 5) (m : BitVec 3) (x : BitVec 3) (j : BitVec 1)
  /-- VCNE_VV (R114): Inequality compare, vector operand. -/
  | vcneVv (d : BitVec 5) (a : BitVec 5) (b : BitVec 5) (m : BitVec 3) (x : BitVec 3) (j : BitVec 1)
  /-- VCNE_VS (R114): Inequality compare, scalar operand. -/
  | vcneVs (d : BitVec 5) (a : BitVec 5) (b : BitVec 5) (m : BitVec 3) (x : BitVec 3) (j : BitVec 1)
  /-- VCLT_VV (R114): Signed less-than compare, vector operand. -/
  | vcltVv (d : BitVec 5) (a : BitVec 5) (b : BitVec 5) (m : BitVec 3) (x : BitVec 3) (j : BitVec 1)
  /-- VCLT_VS (R114): Signed less-than compare, scalar operand. -/
  | vcltVs (d : BitVec 5) (a : BitVec 5) (b : BitVec 5) (m : BitVec 3) (x : BitVec 3) (j : BitVec 1)
  /-- VCLE_VV (R114): Signed less-or-equal compare, vector operand. -/
  | vcleVv (d : BitVec 5) (a : BitVec 5) (b : BitVec 5) (m : BitVec 3) (x : BitVec 3) (j : BitVec 1)
  /-- VCLE_VS (R114): Signed less-or-equal compare, scalar operand. -/
  | vcleVs (d : BitVec 5) (a : BitVec 5) (b : BitVec 5) (m : BitVec 3) (x : BitVec 3) (j : BitVec 1)
  /-- VCGT_VV (R114): Signed greater-than compare, vector operand. -/
  | vcgtVv (d : BitVec 5) (a : BitVec 5) (b : BitVec 5) (m : BitVec 3) (x : BitVec 3) (j : BitVec 1)
  /-- VCGT_VS (R114): Signed greater-than compare, scalar operand. -/
  | vcgtVs (d : BitVec 5) (a : BitVec 5) (b : BitVec 5) (m : BitVec 3) (x : BitVec 3) (j : BitVec 1)
  /-- VCGE_VV (R114): Signed greater-or-equal compare, vector operand. -/
  | vcgeVv (d : BitVec 5) (a : BitVec 5) (b : BitVec 5) (m : BitVec 3) (x : BitVec 3) (j : BitVec 1)
  /-- VCGE_VS (R114): Signed greater-or-equal compare, scalar operand. -/
  | vcgeVs (d : BitVec 5) (a : BitVec 5) (b : BitVec 5) (m : BitVec 3) (x : BitVec 3) (j : BitVec 1)
  /-- VCLTU_VV (R114): Unsigned less-than compare, vector operand. -/
  | vcltuVv (d : BitVec 5) (a : BitVec 5) (b : BitVec 5) (m : BitVec 3) (x : BitVec 3) (j : BitVec 1)
  /-- VCLTU_VS (R114): Unsigned less-than compare, scalar operand. -/
  | vcltuVs (d : BitVec 5) (a : BitVec 5) (b : BitVec 5) (m : BitVec 3) (x : BitVec 3) (j : BitVec 1)
  /-- VCLEU_VV (R114): Unsigned less-or-equal compare, vector operand. -/
  | vcleuVv (d : BitVec 5) (a : BitVec 5) (b : BitVec 5) (m : BitVec 3) (x : BitVec 3) (j : BitVec 1)
  /-- VCLEU_VS (R114): Unsigned less-or-equal compare, scalar operand. -/
  | vcleuVs (d : BitVec 5) (a : BitVec 5) (b : BitVec 5) (m : BitVec 3) (x : BitVec 3) (j : BitVec 1)
  /-- VFCEQ_VV (R114): Float equality compare, vector operand. -/
  | vfceqVv (d : BitVec 5) (a : BitVec 5) (b : BitVec 5) (m : BitVec 3) (x : BitVec 3) (j : BitVec 1)
  /-- VFCEQ_VS (R114): Float equality compare, scalar operand. -/
  | vfceqVs (d : BitVec 5) (a : BitVec 5) (b : BitVec 5) (m : BitVec 3) (x : BitVec 3) (j : BitVec 1)
  /-- VFCLT_VV (R114): Float less-than compare, vector operand. -/
  | vfcltVv (d : BitVec 5) (a : BitVec 5) (b : BitVec 5) (m : BitVec 3) (x : BitVec 3) (j : BitVec 1)
  /-- VFCLT_VS (R114): Float less-than compare, scalar operand. -/
  | vfcltVs (d : BitVec 5) (a : BitVec 5) (b : BitVec 5) (m : BitVec 3) (x : BitVec 3) (j : BitVec 1)
  /-- VFCLE_VV (R114): Float less-or-equal compare, vector operand. -/
  | vfcleVv (d : BitVec 5) (a : BitVec 5) (b : BitVec 5) (m : BitVec 3) (x : BitVec 3) (j : BitVec 1)
  /-- VFCLE_VS (R114): Float less-or-equal compare, scalar operand. -/
  | vfcleVs (d : BitVec 5) (a : BitVec 5) (b : BitVec 5) (m : BitVec 3) (x : BitVec 3) (j : BitVec 1)
  /-- VFCUN_VV (R114): Unordered compare, vector operand. -/
  | vfcunVv (d : BitVec 5) (a : BitVec 5) (b : BitVec 5) (m : BitVec 3) (x : BitVec 3) (j : BitVec 1)
  /-- VFCUN_VS (R114): Unordered compare, scalar operand. -/
  | vfcunVs (d : BitVec 5) (a : BitVec 5) (b : BitVec 5) (m : BitVec 3) (x : BitVec 3) (j : BitVec 1)
  /-- MAND (R115): Mask AND. -/
  | mand (d : BitVec 5) (a : BitVec 5) (b : BitVec 5) (x : BitVec 3) (j : BitVec 1)
  /-- MOR (R115): Mask OR. -/
  | mor (d : BitVec 5) (a : BitVec 5) (b : BitVec 5) (x : BitVec 3) (j : BitVec 1)
  /-- MXOR (R115): Mask XOR. -/
  | mxor (d : BitVec 5) (a : BitVec 5) (b : BitVec 5) (x : BitVec 3) (j : BitVec 1)
  /-- MANDN (R115): Mask AND-NOT. -/
  | mandn (d : BitVec 5) (a : BitVec 5) (b : BitVec 5) (x : BitVec 3) (j : BitVec 1)
  /-- MNOT (R115): Mask complement. -/
  | mnot (d : BitVec 5) (a : BitVec 5) (x : BitVec 3) (j : BitVec 1)
  /-- MMV (R115): Mask copy. -/
  | mmv (d : BitVec 5) (a : BitVec 5) (x : BitVec 3) (j : BitVec 1)
  /-- MPOP (R115): Counts set active mask bits into a scalar. -/
  | mpop (d : BitVec 5) (a : BitVec 5) (m : BitVec 3) (j : BitVec 1)
  /-- MFFS (R115): Finds the first set active mask bit. -/
  | mffs (d : BitVec 5) (a : BitVec 5) (m : BitVec 3) (j : BitVec 1)
  /-- MSET (R115): Sets mask bits. -/
  | mset (d : BitVec 5) (x : BitVec 3) (j : BitVec 1)
  /-- MCLR (R115): Clears mask bits. -/
  | mclr (d : BitVec 5) (x : BitVec 3) (j : BitVec 1)
  /-- MSBF (R115): Sets mask bits before the first set bit. -/
  | msbf (d : BitVec 5) (a : BitVec 5) (m : BitVec 3) (x : BitVec 3) (j : BitVec 1)
  /-- MTOV (R115): Expands mask bits into integer elements. -/
  | mtov (d : BitVec 5) (a : BitVec 5) (m : BitVec 3) (x : BitVec 3) (j : BitVec 1)
  /-- VTOM (R115): Sets mask bits of nonzero elements. -/
  | vtom (d : BitVec 5) (a : BitVec 5) (m : BitVec 3) (x : BitVec 3) (j : BitVec 1)
  /-- VREDSUM (R116): Integer sum reduction into a scalar. -/
  | vredsum (d : BitVec 5) (a : BitVec 5) (b : BitVec 5) (m : BitVec 3) (j : BitVec 1)
  /-- VREDMAX (R116): Signed maximum reduction. -/
  | vredmax (d : BitVec 5) (a : BitVec 5) (b : BitVec 5) (m : BitVec 3) (j : BitVec 1)
  /-- VREDMIN (R116): Signed minimum reduction. -/
  | vredmin (d : BitVec 5) (a : BitVec 5) (b : BitVec 5) (m : BitVec 3) (j : BitVec 1)
  /-- VREDMAXU (R116): Unsigned maximum reduction. -/
  | vredmaxu (d : BitVec 5) (a : BitVec 5) (b : BitVec 5) (m : BitVec 3) (j : BitVec 1)
  /-- VREDMINU (R116): Unsigned minimum reduction. -/
  | vredminu (d : BitVec 5) (a : BitVec 5) (b : BitVec 5) (m : BitVec 3) (j : BitVec 1)
  /-- VREDAND (R116): Bitwise AND reduction. -/
  | vredand (d : BitVec 5) (a : BitVec 5) (b : BitVec 5) (m : BitVec 3) (j : BitVec 1)
  /-- VREDOR (R116): Bitwise OR reduction. -/
  | vredor (d : BitVec 5) (a : BitVec 5) (b : BitVec 5) (m : BitVec 3) (j : BitVec 1)
  /-- VFREDSUM (R58): Float sum reduction in f32. -/
  | vfredsum (d : BitVec 5) (a : BitVec 5) (b : BitVec 5) (m : BitVec 3) (j : BitVec 1)
  /-- VFREDMAX (R61): Float maximum reduction. -/
  | vfredmax (d : BitVec 5) (a : BitVec 5) (b : BitVec 5) (m : BitVec 3) (j : BitVec 1)
  /-- VFREDMIN (R61): Float minimum reduction. -/
  | vfredmin (d : BitVec 5) (a : BitVec 5) (b : BitVec 5) (m : BitVec 3) (j : BitVec 1)
  /-- VNORM (R60): Upper bound of the Euclidean norm. -/
  | vnorm (d : BitVec 5) (a : BitVec 5) (b : BitVec 5) (m : BitVec 3) (j : BitVec 1)
  /-- VNORMD (R60): Lower bound of the Euclidean norm. -/
  | vnormd (d : BitVec 5) (a : BitVec 5) (b : BitVec 5) (m : BitVec 3) (j : BitVec 1)
  /-- VFDOT (R59): Float dot product accumulated from sd. -/
  | vfdot (d : BitVec 5) (a : BitVec 5) (b : BitVec 5) (m : BitVec 3) (j : BitVec 1)
  /-- VSLUP (R117): Slides elements up by a scalar count. -/
  | vslup (d : BitVec 5) (a : BitVec 5) (b : BitVec 5) (m : BitVec 3) (j : BitVec 1)
  /-- VSLDN (R117): Slides elements down by a scalar count. -/
  | vsldn (d : BitVec 5) (a : BitVec 5) (b : BitVec 5) (m : BitVec 3) (j : BitVec 1)
  /-- VPERM (R117): Permutes elements by an index vector. -/
  | vperm (d : BitVec 5) (a : BitVec 5) (b : BitVec 5) (m : BitVec 3) (j : BitVec 1)
  /-- VCOMP (R117): Compresses selected elements. -/
  | vcomp (d : BitVec 5) (a : BitVec 5) (m : BitVec 3) (j : BitVec 1)
  /-- VEXPD (R117): Expands elements into selected positions. -/
  | vexpd (d : BitVec 5) (a : BitVec 5) (m : BitVec 3) (j : BitVec 1)
  /-- VBCS (R117): Broadcasts a scalar to active elements. -/
  | vbcs (d : BitVec 5) (b : BitVec 5) (m : BitVec 3) (j : BitVec 1)
  /-- VEXT (R117): Extracts one element into a scalar. -/
  | vext (d : BitVec 5) (a : BitVec 5) (b : BitVec 5) (j : BitVec 1)
  /-- VINS (R117): Inserts a scalar into one element. -/
  | vins (d : BitVec 5) (a : BitVec 5) (b : BitVec 5) (j : BitVec 1)
  /-- VID (R117): Writes element indices. -/
  | vid (d : BitVec 5) (m : BitVec 3) (j : BitVec 1)
  /-- VIOTA (R117): Writes prefix counts of a mask. -/
  | viota (d : BitVec 5) (a : BitVec 5) (m : BitVec 3) (j : BitVec 1)
  /-- VREV (R117): Reverses element order. -/
  | vrev (d : BitVec 5) (a : BitVec 5) (m : BitVec 3) (j : BitVec 1)
  /-- VTOPK (R118): Writes the k largest elements and their indices. -/
  | vtopk (d : BitVec 5) (a : BitVec 5) (b : BitVec 5) (m : BitVec 3) (j : BitVec 1)
  /-- VZIP (R117): Interleaves two vectors. -/
  | vzip (d : BitVec 5) (a : BitVec 5) (b : BitVec 5) (m : BitVec 3) (j : BitVec 1)
  /-- VUZP (R117): Takes the even positions of a vector pair. -/
  | vuzp (d : BitVec 5) (a : BitVec 5) (b : BitVec 5) (m : BitVec 3) (j : BitVec 1)
  /-- VLD (R122): Unit-stride vector load. -/
  | vld (d : BitVec 5) (a : BitVec 5) (m : BitVec 3) (j : BitVec 1)
  /-- VLDS (R122): Strided vector load. -/
  | vlds (d : BitVec 5) (a : BitVec 5) (b : BitVec 5) (m : BitVec 3) (j : BitVec 1)
  /-- VLDX (R122): Indexed vector load (gather). -/
  | vldx (d : BitVec 5) (a : BitVec 5) (b : BitVec 5) (m : BitVec 3) (j : BitVec 1) (w : BitVec 4)
  /-- VLD_FF (R124): Fault-only-first load that trims VL. -/
  | vldFf (d : BitVec 5) (a : BitVec 5) (m : BitVec 3) (j : BitVec 1)
  /-- VLDW (R122): Whole-register vector load. -/
  | vldw (d : BitVec 5) (a : BitVec 5) (j : BitVec 1)
  /-- VST (R126): Unit-stride vector store. -/
  | vst (v : BitVec 5) (a : BitVec 5) (m : BitVec 3) (j : BitVec 1)
  /-- VSTS (R126): Strided vector store. -/
  | vsts (v : BitVec 5) (a : BitVec 5) (b : BitVec 5) (m : BitVec 3) (j : BitVec 1)
  /-- VSTX (R126): Indexed vector store (scatter). -/
  | vstx (v : BitVec 5) (a : BitVec 5) (b : BitVec 5) (m : BitVec 3) (j : BitVec 1) (w : BitVec 4)
  /-- VSTW (R126): Whole-register vector store. -/
  | vstw (v : BitVec 5) (a : BitVec 5) (j : BitVec 1)
  /-- VAMO_ADD (R128): Indexed atomic integer add. -/
  | vamoAdd (v : BitVec 5) (a : BitVec 5) (b : BitVec 5) (m : BitVec 3) (o : BitVec 3) (j : BitVec 1)
  /-- VAMO_MIN (R128): Indexed atomic signed minimum. -/
  | vamoMin (v : BitVec 5) (a : BitVec 5) (b : BitVec 5) (m : BitVec 3) (o : BitVec 3) (j : BitVec 1)
  /-- VAMO_MAX (R128): Indexed atomic signed maximum. -/
  | vamoMax (v : BitVec 5) (a : BitVec 5) (b : BitVec 5) (m : BitVec 3) (o : BitVec 3) (j : BitVec 1)
  /-- VAMO_AND (R128): Indexed atomic AND. -/
  | vamoAnd (v : BitVec 5) (a : BitVec 5) (b : BitVec 5) (m : BitVec 3) (o : BitVec 3) (j : BitVec 1)
  /-- VAMO_OR (R128): Indexed atomic OR. -/
  | vamoOr (v : BitVec 5) (a : BitVec 5) (b : BitVec 5) (m : BitVec 3) (o : BitVec 3) (j : BitVec 1)
  /-- VAMO_XOR (R128): Indexed atomic XOR. -/
  | vamoXor (v : BitVec 5) (a : BitVec 5) (b : BitVec 5) (m : BitVec 3) (o : BitVec 3) (j : BitVec 1)
  /-- VAMO_SWP (R128): Indexed atomic swap. -/
  | vamoSwp (v : BitVec 5) (a : BitVec 5) (b : BitVec 5) (m : BitVec 3) (o : BitVec 3) (j : BitVec 1)
  /-- VAMO_FADD (R128): Indexed atomic f32 add. -/
  | vamoFadd (v : BitVec 5) (a : BitVec 5) (b : BitVec 5) (m : BitVec 3) (o : BitVec 3) (j : BitVec 1)
  /-- VAMO_FMAX (R128): Indexed atomic f32 maximum. -/
  | vamoFmax (v : BitVec 5) (a : BitVec 5) (b : BitVec 5) (m : BitVec 3) (o : BitVec 3) (j : BitVec 1)
  /-- VLLS (R167): Loads from lane-private slices. -/
  | vlls (d : BitVec 5) (a : BitVec 5) (m : BitVec 3) (j : BitVec 1)
  /-- VSLS (R167): Stores to lane-private slices. -/
  | vsls (v : BitVec 5) (a : BitVec 5) (m : BitVec 3) (j : BitVec 1)
  /-- VXLT (R233): Translates token positions to row addresses through a block table. -/
  | vxlt (d : BitVec 5) (a : BitVec 5) (b : BitVec 5) (m : BitVec 3) (j : BitVec 1)
  /-- VXLT_FF (R233): vxlt that trims VL at the first unmapped or faulting element. -/
  | vxltFf (d : BitVec 5) (a : BitVec 5) (b : BitVec 5) (m : BitVec 3) (j : BitVec 1)
  /-- QBIND (R212): Binds a stream register to a stream record. -/
  | qbind (n : BitVec 5) (a : BitVec 5) (j : BitVec 1)
  /-- QFREE (R212): Ends a stream binding. -/
  | qfree (n : BitVec 5) (j : BitVec 1)
  /-- QSTAT (R212): Reads a stream's status. -/
  | qstat (d : BitVec 5) (n : BitVec 5) (j : BitVec 1)
  /-- VCOPY (R206): Copies memory through the copy engine, as a long instruction. -/
  | vcopy (d : BitVec 5) (a : BitVec 5) (m : BitVec 3) (j : BitVec 1)
  /-- VCOPY_FF (R207): Copy that trims VL at the first faulting element. -/
  | vcopyFf (d : BitVec 5) (a : BitVec 5) (m : BitVec 3) (j : BitVec 1)
  /-- VCOPY_B (R208): Copy counted on the gang barrier; retires at acceptance. -/
  | vcopyB (d : BitVec 5) (a : BitVec 5) (m : BitVec 3) (j : BitVec 1)
  /-- RSET (R253): Opens a race in a Skimmer slot. -/
  | rset (h : BitVec 5) (a : BitVec 5) (j : BitVec 1)
  /-- RPOST (R254): Posts logits and token indices to a race slot. -/
  | rpost (v : BitVec 5) (h : BitVec 5) (i : BitVec 5) (m : BitVec 3) (j : BitVec 1)
  /-- RBOUND (R255): Reads the slot's cut. -/
  | rbound (d : BitVec 5) (h : BitVec 5) (j : BitVec 1)
  /-- RLEAVE (R256): Asks to leave the race with a bound and residual masses. -/
  | rleave (d : BitVec 5) (h : BitVec 5) (b : BitVec 5) (j : BitVec 1)
  /-- RWIN (R257): Decides or returns the winner and writes the winner record. -/
  | rwin (d : BitVec 5) (h : BitVec 5) (b : BitVec 5) (j : BitVec 1)
  /-- RSTAT (R258): Reads a race slot's status. -/
  | rstat (d : BitVec 5) (h : BitVec 5) (j : BitVec 1)
  /-- CHSET (R269): Opens a dispatch in a Churn context. -/
  | chset (d : BitVec 5) (h : BitVec 5) (b : BitVec 5) (j : BitVec 1)
  /-- CHCOUNT (R270): Counts a strip of tokens by expert. -/
  | chcount (d : BitVec 5) (h : BitVec 5) (b : BitVec 5) (j : BitVec 1)
  /-- CHPLACE (R271): Writes counts, group records and the task table. -/
  | chplace (d : BitVec 5) (h : BitVec 5) (j : BitVec 1)
  /-- CHSEND (R272): Places a strip of tokens into expert slots in token order. -/
  | chsend (d : BitVec 5) (h : BitVec 5) (b : BitVec 5) (j : BitVec 1)
  /-- CHDONE (R276): Publishes the drop count and the pool word as a release. -/
  | chdone (d : BitVec 5) (h : BitVec 5) (j : BitVec 1)
  /-- CHSTAT (R277): Reads a dispatch context's status. -/
  | chstat (d : BitVec 5) (h : BitVec 5) (j : BitVec 1)
  /-- PLD (R314): Scalar load at a peer package. -/
  | pld (d : BitVec 5) (a : BitVec 5) (k : BitVec 4) (z : BitVec 3)
  /-- PST (R314): Scalar store at a peer package. -/
  | pst (v : BitVec 5) (a : BitVec 5) (k : BitVec 4) (z : BitVec 3)
  /-- PAMO_SWP (R314): Relaxed atomic swap at a peer. -/
  | pamoSwp (d : BitVec 5) (a : BitVec 5) (b : BitVec 5) (k : BitVec 4) (z : BitVec 3)
  /-- PAMO_ADD (R314): Relaxed atomic add at a peer. -/
  | pamoAdd (d : BitVec 5) (a : BitVec 5) (b : BitVec 5) (k : BitVec 4) (z : BitVec 3)
  /-- PAMO_AND (R314): Relaxed atomic AND at a peer. -/
  | pamoAnd (d : BitVec 5) (a : BitVec 5) (b : BitVec 5) (k : BitVec 4) (z : BitVec 3)
  /-- PAMO_OR (R314): Relaxed atomic OR at a peer. -/
  | pamoOr (d : BitVec 5) (a : BitVec 5) (b : BitVec 5) (k : BitVec 4) (z : BitVec 3)
  /-- PAMO_XOR (R314): Relaxed atomic XOR at a peer. -/
  | pamoXor (d : BitVec 5) (a : BitVec 5) (b : BitVec 5) (k : BitVec 4) (z : BitVec 3)
  /-- PAMO_MIN (R314): Relaxed atomic signed minimum at a peer. -/
  | pamoMin (d : BitVec 5) (a : BitVec 5) (b : BitVec 5) (k : BitVec 4) (z : BitVec 3)
  /-- PAMO_MAX (R314): Relaxed atomic signed maximum at a peer. -/
  | pamoMax (d : BitVec 5) (a : BitVec 5) (b : BitVec 5) (k : BitVec 4) (z : BitVec 3)
  /-- PAMO_MINU (R314): Relaxed atomic unsigned minimum at a peer. -/
  | pamoMinu (d : BitVec 5) (a : BitVec 5) (b : BitVec 5) (k : BitVec 4) (z : BitVec 3)
  /-- PAMO_MAXU (R314): Relaxed atomic unsigned maximum at a peer. -/
  | pamoMaxu (d : BitVec 5) (a : BitVec 5) (b : BitVec 5) (k : BitVec 4) (z : BitVec 3)
  /-- PAMO_CAS (R314): Relaxed atomic compare-and-swap at a peer. -/
  | pamoCas (d : BitVec 5) (a : BitVec 5) (b : BitVec 5) (k : BitVec 4) (z : BitVec 3)
  /-- PVLD (R316): Unit-stride vector load at a peer. -/
  | pvld (d : BitVec 5) (a : BitVec 5) (m : BitVec 3) (j : BitVec 1) (k : BitVec 4)
  /-- PVLDX (R316): Indexed vector load at a peer. -/
  | pvldx (d : BitVec 5) (a : BitVec 5) (b : BitVec 5) (m : BitVec 3) (j : BitVec 1) (k : BitVec 4)
  /-- PVST (R316): Unit-stride vector store at a peer. -/
  | pvst (v : BitVec 5) (a : BitVec 5) (m : BitVec 3) (j : BitVec 1) (k : BitVec 4)
  /-- PVSTX (R316): Indexed vector store at a peer. -/
  | pvstx (v : BitVec 5) (a : BitVec 5) (b : BitVec 5) (m : BitVec 3) (j : BitVec 1) (k : BitVec 4)
  /-- PVAMO_ADD (R317): Indexed relaxed atomic add at a peer. -/
  | pvamoAdd (v : BitVec 5) (a : BitVec 5) (b : BitVec 5) (m : BitVec 3) (j : BitVec 1) (k : BitVec 4)
  /-- QBIND_F (R351): Binds a stream register to a fabric stream. -/
  | qbindF (n : BitVec 5) (a : BitVec 5) (j : BitVec 1) (k : BitVec 4)
  /-- VCSUM (R345): Elementwise sum over a group. -/
  | vcsum (d : BitVec 5) (a : BitVec 5) (n : BitVec 2) (j : BitVec 1)
  /-- VCMAX (R345): Elementwise maximum over a group. -/
  | vcmax (d : BitVec 5) (a : BitVec 5) (n : BitVec 2) (j : BitVec 1)
  /-- VCMIN (R345): Elementwise minimum over a group. -/
  | vcmin (d : BitVec 5) (a : BitVec 5) (n : BitVec 2) (j : BitVec 1)
  /-- VCGAT (R345): Gathers every member's source. -/
  | vcgat (d : BitVec 5) (a : BitVec 5) (n : BitVec 2) (j : BitVec 1)
  /-- VCSCT (R345): Reduce-scatter over a group. -/
  | vcsct (d : BitVec 5) (a : BitVec 5) (n : BitVec 2) (j : BitVec 1)
  /-- VCBC (R345): Broadcasts the root's vector. -/
  | vcbc (d : BitVec 5) (a : BitVec 5) (n : BitVec 2) (j : BitVec 1)
  /-- VCSCAN (R345): Inclusive prefix sum over ranks. -/
  | vcscan (d : BitVec 5) (a : BitVec 5) (n : BitVec 2) (j : BitVec 1)
  /-- GABORT (R348): Aborts a collective group. -/
  | gabort (n : BitVec 2) (j : BitVec 1)
  /-- GSTAT (R349): Reads a group's status. -/
  | gstat (d : BitVec 5) (n : BitVec 2) (j : BitVec 1)
  /-- TKWAIT (R333): Waits for and reports a ticket outcome. -/
  | tkwait (d : BitVec 5) (a : BitVec 5) (j : BitVec 1)
  /-- TKPOLL (R333): Reports a ticket outcome without waiting. -/
  | tkpoll (d : BitVec 5) (j : BitVec 1)
  /-- VSAVE (R146): Saves the vector state to a save area. -/
  | vsave (a : BitVec 5)
  /-- VREST (R146): Restores the vector state from a save area. -/
  | vrest (a : BitVec 5)
  /-- BROLE (R164): Changes the core's bank roles. -/
  | brole (a : BitVec 5)
  /-- TCFG (R177): Sets a tile's shape and format and clears it. -/
  | tcfg (t : BitVec 3) (fc : BitVec 3) (sa : BitVec 5) (j : BitVec 1)
  /-- TZERO (R177): Clears a tile. -/
  | tzero (t : BitVec 3) (j : BitVec 1)
  /-- VOPA (R179): Rank update of an accumulator tile. -/
  | vopa (t : BitVec 3) (fa : BitVec 3) (fb : BitVec 3) (sm : BitVec 2) (a : BitVec 5) (b : BitVec 5) (j : BitVec 1)
  /-- TLD (R182): Loads tile rows from memory. -/
  | tld (t : BitVec 3) (fc : BitVec 3) (r : BitVec 7) (sa : BitVec 5) (j : BitVec 1)
  /-- TST (R182): Stores tile rows to memory. -/
  | tst (t : BitVec 3) (fc : BitVec 3) (r : BitVec 7) (sa : BitVec 5) (j : BitVec 1)
  /-- TROW (R183): Copies a tile row into a vector. -/
  | trow (t : BitVec 3) (r : BitVec 7) (d : BitVec 5) (j : BitVec 1)
  /-- TEPI (R184): Scales, converts and stores or streams tile rows. -/
  | tepi (t : BitVec 3) (fc : BitVec 3) (sm : BitVec 2) (r : BitVec 7) (sa : BitVec 5) (j : BitVec 1)
  /-- GMM (R278): Multiplies one row strip of one expert into a tile. -/
  | gmm (t : BitVec 3) (b : BitVec 5) (sa : BitVec 5) (j : BitVec 1)
  /-- GMM_E (R278): gmm with the gated epilogue writing output rows. -/
  | gmmE (t : BitVec 3) (b : BitVec 5) (sa : BitVec 5) (j : BitVec 1)
  /-- CLOAD (R190): Loads a Curd tile image. -/
  | cload (t : BitVec 3) (fc : BitVec 3) (sa : BitVec 5) (j : BitVec 1)
  /-- CTEST (R191): Evaluates one sample on a Curd tile. -/
  | ctest (t : BitVec 3) (fc : BitVec 3) (d : BitVec 5) (a : BitVec 5) (m : BitVec 3) (x : BitVec 3) (j : BitVec 1)
  /-- CLEAF (R192): Adds leaf values by leaf index. -/
  | cleaf (d : BitVec 5) (a : BitVec 5) (sa : BitVec 5) (m : BitVec 3) (j : BitVec 1)
  /-- CTEST_C (R191): Evaluates one sample on two chained Curd tiles. -/
  | ctestC (t : BitVec 3) (fc : BitVec 3) (d : BitVec 5) (a : BitVec 5) (m : BitVec 3) (x : BitVec 3) (j : BitVec 1)
  /-- TSAVE (R187): Saves one tile's state. -/
  | tsave (t : BitVec 3) (sa : BitVec 5) (j : BitVec 1)
  /-- TREST (R187): Restores one tile's state. -/
  | trest (t : BitVec 3) (sa : BitVec 5) (j : BitVec 1)
  /-- CONVOY_BEGIN (R156): A convoy starts once the previous convoy has drained and its units are free. -/
  | convoyBegin (hart : Nat)
  /-- PREEMPTION_REQUEST (R292): A hart takes firmware's pre-emption request as INT with TVAL 0. -/
  | preemptionRequest (hart : Nat)
  /-- SOFTWARE_INTERRUPT (R285): A hart takes its lowest pending software interrupt. -/
  | softwareInterrupt (hart : Nat)
  /-- WFI_WAKE (R88): wfi ends on a pending request or early. -/
  | wfiWake (hart : Nat)
  /-- MWAIT_WAKE (R89): mwait wakes on a write to its line or an arbitrary wake and rereads the word. -/
  | mwaitWake (hart : Nat)
  /-- MWAIT_TIMEOUT (R89): mwait completes after 2^20 arithmetic clocks. -/
  | mwaitTimeout (hart : Nat)
  /-- TKWAIT_LIMIT (R333): tkwait's clock limit passes and it returns 3. -/
  | tkwaitLimit (hart : Nat)
  /-- TEPI_ROW_HANDOVER (R185): Credit arrives and a computed tepi row is handed to the stream endpoint. -/
  | tepiRowHandover (hart : Nat)
  /-- TEPI_CREDIT_TIMEOUT (R186): A row waiting for credit is discarded 4,096 clocks after an interrupt request. -/
  | tepiCreditTimeout (hart : Nat)
  /-- STREAM_FETCH (R212): The engine fetches input-stream elements ahead of consumption. -/
  | streamFetch (hart : Nat) (q : Nat)
  /-- COPY_ELEMENT (R208): The copy engine translates, reads and delivers a vcopy.b element and updates PEND. -/
  | copyElement (cluster : Nat)
  /-- PAIL_CHAIN_APPLY (R229): The old value arrives at a Pail unit and its chained updates are applied. -/
  | pailChainApply (hart : Nat)
  /-- REMOTE_REQUEST (R321): An owner die translates a remote packet's elements and performs, tickets or refuses them. -/
  | remoteRequest (p : Packet)
  /-- REMOTE_ANSWER (R320): An owner's answer to a remote element arrives at the requester. -/
  | remoteAnswer (seq : Nat) (ans : List (Nat × RAns))
  /-- REPLAY_NOTICE_SEND (R324): Owner firmware sees a service STATUS write, sends replay notices and frees the ticket. -/
  | replayNoticeSend (die : Nat) (ticket : Nat)
  /-- SERVICE_TIMEOUT (R324): A service request still pending after one second gets a failure notice. -/
  | serviceTimeout (die : Nat) (ticket : Nat)
  /-- REPLAY_NOTICE (R328): A replay notice arrives and moves matching ticket entries to READY or FAIL. -/
  | replayNotice (pkg : Nat) (page : Nat) (ticket : Nat) (ok : Bool)
  /-- CHURN_REMOTE_REPLAY (R275): A replay notice for a REMOTE row makes the Churn rewrite or fail the row. -/
  | churnRemoteReplay (pkg : Nat) (page : Nat) (ticket : Nat) (ok : Bool)
  /-- COLLECTIVE_ARRIVAL (R346): The combining port counts an arrival and multicasts GO when all P have arrived. -/
  | collectiveArrival (ctx : BitVec 16) (gid : BitVec 16) (rank : Nat) (key : CollKey)
  /-- COLLECTIVE_GO (R346): GO reaches a member, which sends its source. -/
  | collectiveGo (hart : Nat)
  /-- COLLECTIVE_DATA (R346): The combining port combines sources and multicasts result chunks. -/
  | collectiveData (ctx : BitVec 16) (gid : BitVec 16) (remote : List (Nat × List Nat))
  /-- COLLECTIVE_CHUNK (R352): A result chunk becomes full at a member; the collective retires when all are. -/
  | collectiveChunk (hart : Nat) (first : Nat) (data : List Nat) (exc : BitVec 10) (full : Bool)
  /-- STREAM_CHUNK_FULL (R351): A fabric stream chunk's count fills and the port writes its flag as a release. -/
  | streamChunkFull (ctx : BitVec 16) (group : Option (BitVec 16)) (user : Bool) (flag : Word) (seq : Word)
  /-- GROUP_ABORT_APPLY (R348): A port applies a group abort received as a CLASS 4 packet. -/
  | groupAbortApply (ctx : BitVec 16) (gid : BitVec 16) (why : BitVec 2) (orig : BitVec 10)
  /-- LINK_ERROR (R338): A flit fails tag, parity or CRC checks and is resent from the retry buffer. -/
  | linkError (lane : Nat)
  /-- LANE_FAILURE (R340): A lane fails and its link is taken down or erased. -/
  | laneFailure (link : Nat)
  /-- PACKAGE_LOST (R341): All links of a package are down for 10 ms and its peers answer for it. -/
  | packageLost (pkg : Nat)
  /-- POWER_MEASURE (R299): Every 10 µs the power controller compares mean power with PCAP and halves grants if over. -/
  | powerMeasure (mean : Nat) (hot : Bool)
  /-- GRANT_RAISE (R299): After 1 ms below 95% of the cap the controller doubles grants one step. -/
  | grantRaise (mean : Nat)
  /-- END_HART (R294): Firmware call that ends the calling hart. -/
  | endHart (hart : Nat)
  /-- END_JOB (R294): Firmware call that ends every hart of the job with an error. -/
  | endJob (hart : Nat)
  /-- YIELD (R292): Firmware call that acknowledges a pre-emption request. -/
  | yield (hart : Nat)
  /-- SHOOTDOWN (R227): Firmware call that starts a TLB shoot-down on every die. -/
  | shootdown (hart : Nat)
  /-- SHOOTDOWN_DONE (R227): All dies acknowledge and firmware reports the shoot-down complete. -/
  | shootdownDone (hart : Nat)
  /-- PROMOTE (R228): Firmware call that starts promoting a HOST page to LOCAL. -/
  | promote (hart : Nat)
  /-- PROMOTE_COPY_DONE (R228): The promotion copy ends and the leaf is switched or the promotion discarded. -/
  | promoteCopyDone (hart : Nat)
  /-- GRANT (R284): Firmware call that grants a race slot, dispatch context or scratchpad unit. -/
  | grant (hart : Nat) (n : Nat)
  /-- RELEASE (R284): Firmware call that frees a grant of the caller's context. -/
  | release (hart : Nat)
  /-- INTR (R285): Firmware call that posts a software interrupt to a hart. -/
  | intr (hart : Nat)
  /-- MAILBOX_BAD_FUNC (R284): A mailbox call with an unlisted FUNC completes with status 3. -/
  | mailboxBadFunc (hart : Nat)
  /-- QUEUE_TAIL_WRITE (R287): The host writes a queue's TAIL; a bad value puts the queue in error. -/
  | queueTailWrite (q : Nat) (v : Nat)
  /-- QUEUE_ENABLE (R287): The host sets a queue's EN. -/
  | queueEnable (q : Nat) (v : Word)
  /-- QUEUE_DISABLE (R287): The host clears EN and firmware stops taking records. -/
  | queueDisable (q : Nat) (v : Word)
  /-- CONTEXT_KILL (R298): A KILL write ends every job of a context and frees its resources. -/
  | contextKill (v : Word)
  /-- FW_INSTALL (R304): FWCMD 1 reads, verifies and stores a firmware image. -/
  | fwInstall (n : Nat) (cut : Bool)
  /-- FW_RESET (R304): FWCMD 2 resets the package. -/
  | fwReset
  /-- HOST_WINDOW_WRITE (R286): A host write to any other host window register. -/
  | hostWindowWrite (off : Nat) (v : Word)
  /-- TAKE_RECORD (R287): Firmware takes the next job record from a resident queue. -/
  | takeRecord (q : Nat)
  /-- DEPSIG_RECHECK (R290): Firmware rereads a dependence signal within 10 µs of a write to its line. -/
  | depsigRecheck (job : Word)
  /-- DEPSIG_POLL (R290): Firmware rereads every dependence signal at least every 100 µs. -/
  | depsigPoll (job : Word)
  /-- JOB_PLACEMENT (R290): When a cluster frees or a job becomes startable, firmware chooses a job and places its gangs. -/
  | jobPlacement (cluster : Nat)
  /-- CLUSTER_SUSPEND (R292): Once all harts yielded and engines stopped, firmware saves and passes the cluster on. -/
  | clusterSuspend (cluster : Nat)
  /-- CLUSTER_RESUME (R293): Firmware resumes a suspended cluster into a free cluster. -/
  | clusterResume (ix : Nat) (cluster : Nat) (bad : Bool)
  /-- JOB_END (R294): After the job's accesses have performed, firmware frees its harts and writes the completion signal. -/
  | jobEnd (job : Word) (ctxEnds : Bool)
  /-- QUEUE_SWITCH_OUT (R296): Firmware writes the final PROGRESS and clears RES. -/
  | queueSwitchOut (q : Nat)
  /-- QUEUE_SWITCH_IN (R296): Firmware switches a waiting queue in, after a free slot or a 1 ms wait. -/
  | queueSwitchIn (q : Nat)
  /-- PACKAGE_RESET (R304): Package reset: the boot ROM verifies and loads the firmware image. -/
  | packageReset
  /-- CLK (R302): Clocks lock and the verified image runs; package id read. -/
  | clk (pkg : BitVec 7)
  /-- D2D (R302): Die-to-die links trained. -/
  | d2d
  /-- DRAMCAL (R303): DRAM calibrated; jobs accepted under reduced service. -/
  | dramcal
  /-- LLCINIT (R302): Last-level cache and directory cleared. -/
  | llcinit
  /-- WMARK_ADVANCE (R302): Another 256 MiB unit of a die's DRAM is initialised. -/
  | wmarkAdvance (die : Nat)
  /-- DRAMINIT (R302): Every WMARK reaches 192. -/
  | draminit
  /-- FABRIC (R339): Psider links trained and port numbers checked. -/
  | fabric (ports : List Nat) (present : List (BitVec 7))
  /-- READY (R303): Reduced service lifted; clock returns to 940 MHz. -/
  | ready
  /-- STAGE_FAIL (R303): A bring-up stage fails and writes FAIL. -/
  | stageFail
  /-- ATTESTATION (R305): The device signs an attestation report with its identity key. -/
  | attestation (nonce : List Byte)
  /-- PATROL_SCRUB (R306): The patrol scrub reads all DRAM once every 24 hours. -/
  | patrolScrub (decayed : List Nat) (corrected : List Nat)
  /-- HOST_ACCESS (R301): A host access through BAR2 or CXL.mem is ordered by the home directory. -/
  | hostAccess (e : RElem)
  /-- ILLEGAL_ENCODING (R22): The hart executes a word whose major is unassigned, whose minor or TOP code is reserved, or a tile body with no prefix, and traps ILL. -/
  | illegalEncoding (sub : BitVec 8) (word : IWord) (pos : Nat)
  /-- FETCH_FAULT (R82): An instruction fetch faults in translation and the hart traps MF with EPC and TVAL at the fetch address. -/
  | fetchFault (addr : Word)
  /-- HOST_COMPLETION (R230): The host port returns a completion, Unsupported Request, Completer Abort or failed CAS for a HOST access or atomic element. -/
  | hostCompletion (hart : Nat)
  /-- ARRIVAL_WITHDRAWAL (R346): A member's withdrawal of its collective arrival reaches the combining port, which applies it unless GO has been sent. -/
  | arrivalWithdrawal (ctx : BitVec 16) (gid : BitVec 16) (rank : Nat) (applied : Bool)
  deriving DecidableEq, Repr

end Sys2Proof
end

