-- ==== Sys2Proof/WellFormed.lean ====
section
/-! DEFINITION. What makes an instruction word legal by its own fields (R9, R13, R14, R20 to R23, R34, R354 step 1):
the subcode of Table 1-10 that a field value the encoding does not admit reports.
The conditions of subcodes 0x07 and 0x09 to 0x0B stand in Machine/Ops.lean, since they are compared with the open convoy. -/

namespace Sys2Proof

/-- Table 1-7 and R21: the vtype values that `vsetl` and `vsetli` accept. -/
def vtypeLegal (t : BitVec 16) : Bool :=
  let sew := t.toNat % 8
  let fmt := t.toNat / 32 % 8
  let sc := t.toNat / 256 % 2
  decide (sew ≤ 4) && decide (t.toNat / 512 % 8 ≤ 4) && decide (t.toNat / 4096 % 8 ≤ 4) &&
  (match fmt with
    | 0 => true
    | 1 => true
    | 2 => sew == 2 || sew == 3
    | 3 => sew == 2
    | 4 => sew == 1
    | 5 => sew == 1
    | _ => sew == 0) &&
  (sc == 0 || (decide (sew ≤ 2) && fmt != 1))

/-- Table 2-2: the control register numbers that are assigned (R34). -/
def cregAssigned (n : BitVec 16) : Bool :=
  decide (n.toNat ≤ 0x008) || (decide (0x010 ≤ n.toNat) && decide (n.toNat ≤ 0x019)) ||
  (decide (0x020 ≤ n.toNat) && decide (n.toNat ≤ 0x025))

/-- Table 2-2: the control registers marked RO (R34). -/
def cregReadOnly (n : BitVec 16) : Bool :=
  n == 0x000 || n == 0x001 || n == 0x003 || n == 0x019 || (decide (0x020 ≤ n.toNat) && decide (n.toNat ≤ 0x025))

/-- Table 2-2: the control registers marked supervisor (R34). -/
def cregSupervisor (n : BitVec 16) : Bool :=
  n == 0x006 || (decide (0x010 ≤ n.toNat) && decide (n.toNat ≤ 0x018)) || n == 0x024

/-- A 5-bit field that names a mask operand holds 1 to 7 (Table 1-2). -/
def maskField (f : BitVec 5) : Bool := decide (1 ≤ f.toNat) && decide (f.toNat ≤ 7)

/-- The exception target names the mask register that the instruction writes (R14). -/
def xHits (x : BitVec 3) (d : BitVec 5) : Bool := x != 0 && x.toNat == d.toNat

/-- The legal rounding codes of a scalar FP word (R23, R85). -/
def fpRmLegal (r : BitVec 3) : Bool := decide (r.toNat ≤ 4) || r == 7

/-- A field value that names one of v24 to v31 (R9, R214). -/
def streamField (n : BitVec 5) : Bool := decide (24 ≤ n.toNat)

/-- The first of two conditions that holds, each with its subcode; the list runs from the lowest subcode (R25). -/
def firstBad (c3 c4 : Bool) : Option (BitVec 8) :=
  if c3 then some 0x03 else if c4 then some 0x04 else none

/-- The subcode of the lowest condition that the fields of a word break by themselves, or none (R13, R25, R354 step 1). -/
def illFields : Instr → Option (BitVec 8)
  | .amoSwp _ _ _ w sc _
  | .amoAdd _ _ _ w sc _
  | .amoAnd _ _ _ w sc _
  | .amoOr _ _ _ w sc _
  | .amoXor _ _ _ w sc _
  | .amoMin _ _ _ w sc _
  | .amoMax _ _ _ w sc _
  | .amoMinu _ _ _ w sc _
  | .amoMaxu _ _ _ w sc _
  | .amoCas _ _ _ w sc _ => firstBad (decide (w.toNat < 2) || decide (4 < sc.toNat)) false
  | .fadd _ _ _ r
  | .fsub _ _ _ r
  | .fmul _ _ _ r
  | .fdiv _ _ _ r
  | .fsqrt _ _ r
  | .fma _ _ _ r
  | .fmin _ _ _ r
  | .fmax _ _ _ r
  | .feq _ _ _ r
  | .flt _ _ _ r
  | .fle _ _ _ r
  | .fcvtWS _ _ r
  | .fcvtSW _ _ r
  | .fcvtBfS _ _ r
  | .fcvtSBf _ _ r
  | .fln _ _ r
  | .fexp _ _ r => firstBad (!fpRmLegal r) false
  | .fence sc => firstBad (decide (4 < sc.toNat)) false
  | .vsetli _ _ t => if vtypeLegal t then none else some 0x08
  | .getc _ c => if cregAssigned c then none else some 0x0C
  | .setc _ c => if cregAssigned c && !cregReadOnly c then none else some 0x0C
  | .tas _ n
  | .sclr n
  | .sset n
  | .stst _ n => firstBad false (decide (64 ≤ n.toNat))
  | .cdrd _ n
  | .cdwr _ n => firstBad false (decide (16 ≤ n.toNat))
  | .wput _ _ n => firstBad (n == 0) false
  | .vmerge _ _ _ m _ => firstBad (m == 0) false
  | .vfcvt _ _ c _ _ _ => firstBad (decide (14 < c.toNat)) false
  | .vldx _ _ _ _ _ w
  | .vstx _ _ _ _ _ w => firstBad (decide (3 < w.toNat)) false
  | .vamoAdd _ _ _ _ o _
  | .vamoMin _ _ _ _ o _
  | .vamoMax _ _ _ _ o _
  | .vamoAnd _ _ _ _ o _
  | .vamoOr _ _ _ _ o _
  | .vamoXor _ _ _ _ o _
  | .vamoSwp _ _ _ _ o _
  | .vamoFadd _ _ _ _ o _
  | .vamoFmax _ _ _ _ o _ => firstBad (decide (3 < o.toNat)) false
  | .vceqVv d _ _ _ x _
  | .vceqVs d _ _ _ x _
  | .vcneVv d _ _ _ x _
  | .vcneVs d _ _ _ x _
  | .vcltVv d _ _ _ x _
  | .vcltVs d _ _ _ x _
  | .vcleVv d _ _ _ x _
  | .vcleVs d _ _ _ x _
  | .vcgtVv d _ _ _ x _
  | .vcgtVs d _ _ _ x _
  | .vcgeVv d _ _ _ x _
  | .vcgeVs d _ _ _ x _
  | .vcltuVv d _ _ _ x _
  | .vcltuVs d _ _ _ x _
  | .vcleuVv d _ _ _ x _
  | .vcleuVs d _ _ _ x _
  | .vfceqVv d _ _ _ x _
  | .vfceqVs d _ _ _ x _
  | .vfcltVv d _ _ _ x _
  | .vfcltVs d _ _ _ x _
  | .vfcleVv d _ _ _ x _
  | .vfcleVs d _ _ _ x _
  | .vfcunVv d _ _ _ x _
  | .vfcunVs d _ _ _ x _ => firstBad (xHits x d) (!maskField d)
  | .mand d a b x _
  | .mor d a b x _
  | .mxor d a b x _
  | .mandn d a b x _ => firstBad (xHits x d) (!maskField d || !maskField a || !maskField b)
  | .mnot d a x _
  | .mmv d a x _
  | .msbf d a _ x _ => firstBad (xHits x d) (!maskField d || !maskField a)
  | .mset d x _
  | .mclr d x _
  | .vtom d _ _ x _ => firstBad (xHits x d) (!maskField d)
  | .mpop _ a _ _
  | .mffs _ a _ _
  | .mtov _ a _ _ _
  | .viota _ a _ _ => firstBad false (!maskField a)
  | .vtopk d _ _ _ _ => firstBad false (d == 31)
  | .qbind n _ _
  | .qfree n _
  | .qstat _ n _
  | .qbindF n _ _ _ => firstBad false (!streamField n)
  | .pld _ _ _ z => firstBad (z == 7) false
  | .pst _ _ _ z => firstBad (decide (3 < z.toNat)) false
  | .pamoSwp _ _ _ _ z
  | .pamoAdd _ _ _ _ z
  | .pamoAnd _ _ _ _ z
  | .pamoOr _ _ _ _ z
  | .pamoXor _ _ _ _ z
  | .pamoMin _ _ _ _ z
  | .pamoMax _ _ _ _ z
  | .pamoMinu _ _ _ _ z
  | .pamoMaxu _ _ _ _ z
  | .pamoCas _ _ _ _ z => firstBad (z != 2 && z != 3) false
  | _ => none

/-- An instruction whose fields are all admitted by its encoding (R13). -/
def Instr.WF (i : Instr) : Prop := illFields i = none

end Sys2Proof
end

