-- ==== Sys2Proof/Decode.lean ====
section
/-! DEFINITION. The decoder and the encoder of instruction words (R11 to R25, Tables 1-3 to 1-10). -/

namespace Sys2Proof

/-- The field [hi:lo] of a word (R7, R11). -/
def fld {n : Nat} (w : IWord) (hi lo : Nat) : BitVec n :=
  BitVec.ofNat n (w.toNat / 2 ^ lo % 2 ^ (hi - lo + 1))

/-- The word of ADD (R67, Table 1-8). -/
def wAdd (d : BitVec 5) (a : BitVec 5) (b : BitVec 5) : IWord := BitVec.ofNat 32 (0x04000000 + d.toNat * 2097152 + a.toNat * 65536 + b.toNat * 2048)
/-- The word of SUB (R67, Table 1-8). -/
def wSub (d : BitVec 5) (a : BitVec 5) (b : BitVec 5) : IWord := BitVec.ofNat 32 (0x04000001 + d.toNat * 2097152 + a.toNat * 65536 + b.toNat * 2048)
/-- The word of AND (R67, Table 1-8). -/
def wAnd (d : BitVec 5) (a : BitVec 5) (b : BitVec 5) : IWord := BitVec.ofNat 32 (0x04000002 + d.toNat * 2097152 + a.toNat * 65536 + b.toNat * 2048)
/-- The word of OR (R67, Table 1-8). -/
def wOr (d : BitVec 5) (a : BitVec 5) (b : BitVec 5) : IWord := BitVec.ofNat 32 (0x04000003 + d.toNat * 2097152 + a.toNat * 65536 + b.toNat * 2048)
/-- The word of XOR (R67, Table 1-8). -/
def wXor (d : BitVec 5) (a : BitVec 5) (b : BitVec 5) : IWord := BitVec.ofNat 32 (0x04000004 + d.toNat * 2097152 + a.toNat * 65536 + b.toNat * 2048)
/-- The word of ANDN (R67, Table 1-8). -/
def wAndn (d : BitVec 5) (a : BitVec 5) (b : BitVec 5) : IWord := BitVec.ofNat 32 (0x04000005 + d.toNat * 2097152 + a.toNat * 65536 + b.toNat * 2048)
/-- The word of SLL (R67, Table 1-8). -/
def wSll (d : BitVec 5) (a : BitVec 5) (b : BitVec 5) : IWord := BitVec.ofNat 32 (0x04000006 + d.toNat * 2097152 + a.toNat * 65536 + b.toNat * 2048)
/-- The word of SRL (R67, Table 1-8). -/
def wSrl (d : BitVec 5) (a : BitVec 5) (b : BitVec 5) : IWord := BitVec.ofNat 32 (0x04000007 + d.toNat * 2097152 + a.toNat * 65536 + b.toNat * 2048)
/-- The word of SRA (R67, Table 1-8). -/
def wSra (d : BitVec 5) (a : BitVec 5) (b : BitVec 5) : IWord := BitVec.ofNat 32 (0x04000008 + d.toNat * 2097152 + a.toNat * 65536 + b.toNat * 2048)
/-- The word of SLT (R67, Table 1-8). -/
def wSlt (d : BitVec 5) (a : BitVec 5) (b : BitVec 5) : IWord := BitVec.ofNat 32 (0x04000009 + d.toNat * 2097152 + a.toNat * 65536 + b.toNat * 2048)
/-- The word of SLTU (R67, Table 1-8). -/
def wSltu (d : BitVec 5) (a : BitVec 5) (b : BitVec 5) : IWord := BitVec.ofNat 32 (0x0400000A + d.toNat * 2097152 + a.toNat * 65536 + b.toNat * 2048)
/-- The word of MIN (R67, Table 1-8). -/
def wMin (d : BitVec 5) (a : BitVec 5) (b : BitVec 5) : IWord := BitVec.ofNat 32 (0x0400000B + d.toNat * 2097152 + a.toNat * 65536 + b.toNat * 2048)
/-- The word of MAX (R67, Table 1-8). -/
def wMax (d : BitVec 5) (a : BitVec 5) (b : BitVec 5) : IWord := BitVec.ofNat 32 (0x0400000C + d.toNat * 2097152 + a.toNat * 65536 + b.toNat * 2048)
/-- The word of MINU (R67, Table 1-8). -/
def wMinu (d : BitVec 5) (a : BitVec 5) (b : BitVec 5) : IWord := BitVec.ofNat 32 (0x0400000D + d.toNat * 2097152 + a.toNat * 65536 + b.toNat * 2048)
/-- The word of MAXU (R67, Table 1-8). -/
def wMaxu (d : BitVec 5) (a : BitVec 5) (b : BitVec 5) : IWord := BitVec.ofNat 32 (0x0400000E + d.toNat * 2097152 + a.toNat * 65536 + b.toNat * 2048)
/-- The word of ADDS (R67, Table 1-8). -/
def wAdds (d : BitVec 5) (a : BitVec 5) (b : BitVec 5) (h : BitVec 3) : IWord := BitVec.ofNat 32 (0x0400000F + d.toNat * 2097152 + a.toNat * 65536 + b.toNat * 2048 + h.toNat * 64)
/-- The word of ADDI (R68, Table 1-8). -/
def wAddi (d : BitVec 5) (a : BitVec 5) (i : BitVec 16) : IWord := BitVec.ofNat 32 (0x08000000 + d.toNat * 2097152 + a.toNat * 65536 + i.toNat)
/-- The word of ANDI (R68, Table 1-8). -/
def wAndi (d : BitVec 5) (a : BitVec 5) (i : BitVec 16) : IWord := BitVec.ofNat 32 (0x0C000000 + d.toNat * 2097152 + a.toNat * 65536 + i.toNat)
/-- The word of ORI (R68, Table 1-8). -/
def wOri (d : BitVec 5) (a : BitVec 5) (i : BitVec 16) : IWord := BitVec.ofNat 32 (0x10000000 + d.toNat * 2097152 + a.toNat * 65536 + i.toNat)
/-- The word of XORI (R68, Table 1-8). -/
def wXori (d : BitVec 5) (a : BitVec 5) (i : BitVec 16) : IWord := BitVec.ofNat 32 (0x14000000 + d.toNat * 2097152 + a.toNat * 65536 + i.toNat)
/-- The word of SLTI (R68, Table 1-8). -/
def wSlti (d : BitVec 5) (a : BitVec 5) (i : BitVec 16) : IWord := BitVec.ofNat 32 (0x18000000 + d.toNat * 2097152 + a.toNat * 65536 + i.toNat)
/-- The word of SLTIU (R68, Table 1-8). -/
def wSltiu (d : BitVec 5) (a : BitVec 5) (i : BitVec 16) : IWord := BitVec.ofNat 32 (0x1C000000 + d.toNat * 2097152 + a.toNat * 65536 + i.toNat)
/-- The word of SLLI (R69, Table 1-8). -/
def wSlli (d : BitVec 5) (a : BitVec 5) (h : BitVec 6) : IWord := BitVec.ofNat 32 (0x20000000 + d.toNat * 2097152 + a.toNat * 65536 + h.toNat * 1024)
/-- The word of SRLI (R69, Table 1-8). -/
def wSrli (d : BitVec 5) (a : BitVec 5) (h : BitVec 6) : IWord := BitVec.ofNat 32 (0x20000001 + d.toNat * 2097152 + a.toNat * 65536 + h.toNat * 1024)
/-- The word of SRAI (R69, Table 1-8). -/
def wSrai (d : BitVec 5) (a : BitVec 5) (h : BitVec 6) : IWord := BitVec.ofNat 32 (0x20000002 + d.toNat * 2097152 + a.toNat * 65536 + h.toNat * 1024)
/-- The word of LHI (R70, Table 1-8). -/
def wLhi (d : BitVec 5) (i : BitVec 21) : IWord := BitVec.ofNat 32 (0x24000000 + d.toNat * 2097152 + i.toNat)
/-- The word of APC (R70, Table 1-8). -/
def wApc (d : BitVec 5) (i : BitVec 21) : IWord := BitVec.ofNat 32 (0x28000000 + d.toNat * 2097152 + i.toNat)
/-- The word of MUL (R71, Table 1-8). -/
def wMul (d : BitVec 5) (a : BitVec 5) (b : BitVec 5) : IWord := BitVec.ofNat 32 (0x2C000000 + d.toNat * 2097152 + a.toNat * 65536 + b.toNat * 2048)
/-- The word of MULH (R71, Table 1-8). -/
def wMulh (d : BitVec 5) (a : BitVec 5) (b : BitVec 5) : IWord := BitVec.ofNat 32 (0x2C000001 + d.toNat * 2097152 + a.toNat * 65536 + b.toNat * 2048)
/-- The word of MULHU (R71, Table 1-8). -/
def wMulhu (d : BitVec 5) (a : BitVec 5) (b : BitVec 5) : IWord := BitVec.ofNat 32 (0x2C000002 + d.toNat * 2097152 + a.toNat * 65536 + b.toNat * 2048)
/-- The word of MULHSU (R71, Table 1-8). -/
def wMulhsu (d : BitVec 5) (a : BitVec 5) (b : BitVec 5) : IWord := BitVec.ofNat 32 (0x2C000003 + d.toNat * 2097152 + a.toNat * 65536 + b.toNat * 2048)
/-- The word of DIV (R72, Table 1-8). -/
def wDiv (d : BitVec 5) (a : BitVec 5) (b : BitVec 5) : IWord := BitVec.ofNat 32 (0x2C000004 + d.toNat * 2097152 + a.toNat * 65536 + b.toNat * 2048)
/-- The word of DIVU (R72, Table 1-8). -/
def wDivu (d : BitVec 5) (a : BitVec 5) (b : BitVec 5) : IWord := BitVec.ofNat 32 (0x2C000005 + d.toNat * 2097152 + a.toNat * 65536 + b.toNat * 2048)
/-- The word of REM (R72, Table 1-8). -/
def wRem (d : BitVec 5) (a : BitVec 5) (b : BitVec 5) : IWord := BitVec.ofNat 32 (0x2C000006 + d.toNat * 2097152 + a.toNat * 65536 + b.toNat * 2048)
/-- The word of REMU (R72, Table 1-8). -/
def wRemu (d : BitVec 5) (a : BitVec 5) (b : BitVec 5) : IWord := BitVec.ofNat 32 (0x2C000007 + d.toNat * 2097152 + a.toNat * 65536 + b.toNat * 2048)
/-- The word of CLZ (R73, Table 1-8). -/
def wClz (d : BitVec 5) (a : BitVec 5) : IWord := BitVec.ofNat 32 (0x30000000 + d.toNat * 2097152 + a.toNat * 65536)
/-- The word of CTZ (R73, Table 1-8). -/
def wCtz (d : BitVec 5) (a : BitVec 5) : IWord := BitVec.ofNat 32 (0x30000001 + d.toNat * 2097152 + a.toNat * 65536)
/-- The word of POP (R73, Table 1-8). -/
def wPop (d : BitVec 5) (a : BitVec 5) : IWord := BitVec.ofNat 32 (0x30000002 + d.toNat * 2097152 + a.toNat * 65536)
/-- The word of REV8 (R73, Table 1-8). -/
def wRev8 (d : BitVec 5) (a : BitVec 5) : IWord := BitVec.ofNat 32 (0x30000003 + d.toNat * 2097152 + a.toNat * 65536)
/-- The word of SEXTB (R73, Table 1-8). -/
def wSextb (d : BitVec 5) (a : BitVec 5) : IWord := BitVec.ofNat 32 (0x30000004 + d.toNat * 2097152 + a.toNat * 65536)
/-- The word of SEXTH (R73, Table 1-8). -/
def wSexth (d : BitVec 5) (a : BitVec 5) : IWord := BitVec.ofNat 32 (0x30000005 + d.toNat * 2097152 + a.toNat * 65536)
/-- The word of SEXTW (R73, Table 1-8). -/
def wSextw (d : BitVec 5) (a : BitVec 5) : IWord := BitVec.ofNat 32 (0x30000006 + d.toNat * 2097152 + a.toNat * 65536)
/-- The word of ZEXTW (R73, Table 1-8). -/
def wZextw (d : BitVec 5) (a : BitVec 5) : IWord := BitVec.ofNat 32 (0x30000007 + d.toNat * 2097152 + a.toNat * 65536)
/-- The word of LD_B (R74, Table 1-8). -/
def wLdB (d : BitVec 5) (a : BitVec 5) (o : BitVec 13) : IWord := BitVec.ofNat 32 (0x34000000 + d.toNat * 2097152 + a.toNat * 65536 + o.toNat)
/-- The word of LD_H (R74, Table 1-8). -/
def wLdH (d : BitVec 5) (a : BitVec 5) (o : BitVec 13) : IWord := BitVec.ofNat 32 (0x34002000 + d.toNat * 2097152 + a.toNat * 65536 + o.toNat)
/-- The word of LD_W (R74, Table 1-8). -/
def wLdW (d : BitVec 5) (a : BitVec 5) (o : BitVec 13) : IWord := BitVec.ofNat 32 (0x34004000 + d.toNat * 2097152 + a.toNat * 65536 + o.toNat)
/-- The word of LD_D (R74, Table 1-8). -/
def wLdD (d : BitVec 5) (a : BitVec 5) (o : BitVec 13) : IWord := BitVec.ofNat 32 (0x34006000 + d.toNat * 2097152 + a.toNat * 65536 + o.toNat)
/-- The word of LD_BU (R74, Table 1-8). -/
def wLdBu (d : BitVec 5) (a : BitVec 5) (o : BitVec 13) : IWord := BitVec.ofNat 32 (0x34008000 + d.toNat * 2097152 + a.toNat * 65536 + o.toNat)
/-- The word of LD_HU (R74, Table 1-8). -/
def wLdHu (d : BitVec 5) (a : BitVec 5) (o : BitVec 13) : IWord := BitVec.ofNat 32 (0x3400A000 + d.toNat * 2097152 + a.toNat * 65536 + o.toNat)
/-- The word of LD_WU (R74, Table 1-8). -/
def wLdWu (d : BitVec 5) (a : BitVec 5) (o : BitVec 13) : IWord := BitVec.ofNat 32 (0x3400C000 + d.toNat * 2097152 + a.toNat * 65536 + o.toNat)
/-- The word of ST_B (R74, Table 1-8). -/
def wStB (v : BitVec 5) (a : BitVec 5) (o : BitVec 13) : IWord := BitVec.ofNat 32 (0x38000000 + v.toNat * 2097152 + a.toNat * 65536 + o.toNat)
/-- The word of ST_H (R74, Table 1-8). -/
def wStH (v : BitVec 5) (a : BitVec 5) (o : BitVec 13) : IWord := BitVec.ofNat 32 (0x38002000 + v.toNat * 2097152 + a.toNat * 65536 + o.toNat)
/-- The word of ST_W (R74, Table 1-8). -/
def wStW (v : BitVec 5) (a : BitVec 5) (o : BitVec 13) : IWord := BitVec.ofNat 32 (0x38004000 + v.toNat * 2097152 + a.toNat * 65536 + o.toNat)
/-- The word of ST_D (R74, Table 1-8). -/
def wStD (v : BitVec 5) (a : BitVec 5) (o : BitVec 13) : IWord := BitVec.ofNat 32 (0x38006000 + v.toNat * 2097152 + a.toNat * 65536 + o.toNat)
/-- The word of LDC_B (R77, Table 1-8). -/
def wLdcB (d : BitVec 5) (a : BitVec 5) (o : BitVec 13) : IWord := BitVec.ofNat 32 (0x3C000000 + d.toNat * 2097152 + a.toNat * 65536 + o.toNat)
/-- The word of LDC_H (R77, Table 1-8). -/
def wLdcH (d : BitVec 5) (a : BitVec 5) (o : BitVec 13) : IWord := BitVec.ofNat 32 (0x3C002000 + d.toNat * 2097152 + a.toNat * 65536 + o.toNat)
/-- The word of LDC_W (R77, Table 1-8). -/
def wLdcW (d : BitVec 5) (a : BitVec 5) (o : BitVec 13) : IWord := BitVec.ofNat 32 (0x3C004000 + d.toNat * 2097152 + a.toNat * 65536 + o.toNat)
/-- The word of LDC_D (R77, Table 1-8). -/
def wLdcD (d : BitVec 5) (a : BitVec 5) (o : BitVec 13) : IWord := BitVec.ofNat 32 (0x3C006000 + d.toNat * 2097152 + a.toNat * 65536 + o.toNat)
/-- The word of LDC_BU (R77, Table 1-8). -/
def wLdcBu (d : BitVec 5) (a : BitVec 5) (o : BitVec 13) : IWord := BitVec.ofNat 32 (0x3C008000 + d.toNat * 2097152 + a.toNat * 65536 + o.toNat)
/-- The word of LDC_HU (R77, Table 1-8). -/
def wLdcHu (d : BitVec 5) (a : BitVec 5) (o : BitVec 13) : IWord := BitVec.ofNat 32 (0x3C00A000 + d.toNat * 2097152 + a.toNat * 65536 + o.toNat)
/-- The word of LDC_WU (R77, Table 1-8). -/
def wLdcWu (d : BitVec 5) (a : BitVec 5) (o : BitVec 13) : IWord := BitVec.ofNat 32 (0x3C00C000 + d.toNat * 2097152 + a.toNat * 65536 + o.toNat)
/-- The word of AMO_SWP (R78, Table 1-8). -/
def wAmoSwp (d : BitVec 5) (a : BitVec 5) (b : BitVec 5) (w : BitVec 2) (sc : BitVec 3) (o : BitVec 2) : IWord := BitVec.ofNat 32 (0x40000000 + d.toNat * 2097152 + a.toNat * 65536 + b.toNat * 2048 + w.toNat * 512 + sc.toNat * 64 + o.toNat * 16)
/-- The word of AMO_ADD (R78, Table 1-8). -/
def wAmoAdd (d : BitVec 5) (a : BitVec 5) (b : BitVec 5) (w : BitVec 2) (sc : BitVec 3) (o : BitVec 2) : IWord := BitVec.ofNat 32 (0x40000001 + d.toNat * 2097152 + a.toNat * 65536 + b.toNat * 2048 + w.toNat * 512 + sc.toNat * 64 + o.toNat * 16)
/-- The word of AMO_AND (R78, Table 1-8). -/
def wAmoAnd (d : BitVec 5) (a : BitVec 5) (b : BitVec 5) (w : BitVec 2) (sc : BitVec 3) (o : BitVec 2) : IWord := BitVec.ofNat 32 (0x40000002 + d.toNat * 2097152 + a.toNat * 65536 + b.toNat * 2048 + w.toNat * 512 + sc.toNat * 64 + o.toNat * 16)
/-- The word of AMO_OR (R78, Table 1-8). -/
def wAmoOr (d : BitVec 5) (a : BitVec 5) (b : BitVec 5) (w : BitVec 2) (sc : BitVec 3) (o : BitVec 2) : IWord := BitVec.ofNat 32 (0x40000003 + d.toNat * 2097152 + a.toNat * 65536 + b.toNat * 2048 + w.toNat * 512 + sc.toNat * 64 + o.toNat * 16)
/-- The word of AMO_XOR (R78, Table 1-8). -/
def wAmoXor (d : BitVec 5) (a : BitVec 5) (b : BitVec 5) (w : BitVec 2) (sc : BitVec 3) (o : BitVec 2) : IWord := BitVec.ofNat 32 (0x40000004 + d.toNat * 2097152 + a.toNat * 65536 + b.toNat * 2048 + w.toNat * 512 + sc.toNat * 64 + o.toNat * 16)
/-- The word of AMO_MIN (R78, Table 1-8). -/
def wAmoMin (d : BitVec 5) (a : BitVec 5) (b : BitVec 5) (w : BitVec 2) (sc : BitVec 3) (o : BitVec 2) : IWord := BitVec.ofNat 32 (0x40000005 + d.toNat * 2097152 + a.toNat * 65536 + b.toNat * 2048 + w.toNat * 512 + sc.toNat * 64 + o.toNat * 16)
/-- The word of AMO_MAX (R78, Table 1-8). -/
def wAmoMax (d : BitVec 5) (a : BitVec 5) (b : BitVec 5) (w : BitVec 2) (sc : BitVec 3) (o : BitVec 2) : IWord := BitVec.ofNat 32 (0x40000006 + d.toNat * 2097152 + a.toNat * 65536 + b.toNat * 2048 + w.toNat * 512 + sc.toNat * 64 + o.toNat * 16)
/-- The word of AMO_MINU (R78, Table 1-8). -/
def wAmoMinu (d : BitVec 5) (a : BitVec 5) (b : BitVec 5) (w : BitVec 2) (sc : BitVec 3) (o : BitVec 2) : IWord := BitVec.ofNat 32 (0x40000007 + d.toNat * 2097152 + a.toNat * 65536 + b.toNat * 2048 + w.toNat * 512 + sc.toNat * 64 + o.toNat * 16)
/-- The word of AMO_MAXU (R78, Table 1-8). -/
def wAmoMaxu (d : BitVec 5) (a : BitVec 5) (b : BitVec 5) (w : BitVec 2) (sc : BitVec 3) (o : BitVec 2) : IWord := BitVec.ofNat 32 (0x40000008 + d.toNat * 2097152 + a.toNat * 65536 + b.toNat * 2048 + w.toNat * 512 + sc.toNat * 64 + o.toNat * 16)
/-- The word of AMO_CAS (R78, Table 1-8). -/
def wAmoCas (d : BitVec 5) (a : BitVec 5) (b : BitVec 5) (w : BitVec 2) (sc : BitVec 3) (o : BitVec 2) : IWord := BitVec.ofNat 32 (0x40000009 + d.toNat * 2097152 + a.toNat * 65536 + b.toNat * 2048 + w.toNat * 512 + sc.toNat * 64 + o.toNat * 16)
/-- The word of BEQ (R81, Table 1-8). -/
def wBeq (a : BitVec 5) (b : BitVec 5) (o : BitVec 16) : IWord := BitVec.ofNat 32 (0x44000000 + a.toNat * 2097152 + b.toNat * 65536 + o.toNat)
/-- The word of BNE (R81, Table 1-8). -/
def wBne (a : BitVec 5) (b : BitVec 5) (o : BitVec 16) : IWord := BitVec.ofNat 32 (0x48000000 + a.toNat * 2097152 + b.toNat * 65536 + o.toNat)
/-- The word of BLT (R81, Table 1-8). -/
def wBlt (a : BitVec 5) (b : BitVec 5) (o : BitVec 16) : IWord := BitVec.ofNat 32 (0x4C000000 + a.toNat * 2097152 + b.toNat * 65536 + o.toNat)
/-- The word of BGE (R81, Table 1-8). -/
def wBge (a : BitVec 5) (b : BitVec 5) (o : BitVec 16) : IWord := BitVec.ofNat 32 (0x50000000 + a.toNat * 2097152 + b.toNat * 65536 + o.toNat)
/-- The word of BLTU (R81, Table 1-8). -/
def wBltu (a : BitVec 5) (b : BitVec 5) (o : BitVec 16) : IWord := BitVec.ofNat 32 (0x54000000 + a.toNat * 2097152 + b.toNat * 65536 + o.toNat)
/-- The word of BGEU (R81, Table 1-8). -/
def wBgeu (a : BitVec 5) (b : BitVec 5) (o : BitVec 16) : IWord := BitVec.ofNat 32 (0x58000000 + a.toNat * 2097152 + b.toNat * 65536 + o.toNat)
/-- The word of JAL (R82, Table 1-8). -/
def wJal (d : BitVec 5) (i : BitVec 21) : IWord := BitVec.ofNat 32 (0x5C000000 + d.toNat * 2097152 + i.toNat)
/-- The word of JALR (R82, Table 1-8). -/
def wJalr (d : BitVec 5) (a : BitVec 5) (i : BitVec 16) : IWord := BitVec.ofNat 32 (0x60000000 + d.toNat * 2097152 + a.toNat * 65536 + i.toNat)
/-- The word of VLOOP (R83, Table 1-8). -/
def wVloop (a : BitVec 5) (o : BitVec 16) : IWord := BitVec.ofNat 32 (0x64000000 + a.toNat * 2097152 + o.toNat)
/-- The word of FADD (R84, Table 1-8). -/
def wFadd (d : BitVec 5) (a : BitVec 5) (b : BitVec 5) (r : BitVec 3) : IWord := BitVec.ofNat 32 (0x68000000 + d.toNat * 2097152 + a.toNat * 65536 + b.toNat * 2048 + r.toNat * 64)
/-- The word of FSUB (R84, Table 1-8). -/
def wFsub (d : BitVec 5) (a : BitVec 5) (b : BitVec 5) (r : BitVec 3) : IWord := BitVec.ofNat 32 (0x68000001 + d.toNat * 2097152 + a.toNat * 65536 + b.toNat * 2048 + r.toNat * 64)
/-- The word of FMUL (R84, Table 1-8). -/
def wFmul (d : BitVec 5) (a : BitVec 5) (b : BitVec 5) (r : BitVec 3) : IWord := BitVec.ofNat 32 (0x68000002 + d.toNat * 2097152 + a.toNat * 65536 + b.toNat * 2048 + r.toNat * 64)
/-- The word of FDIV (R84, Table 1-8). -/
def wFdiv (d : BitVec 5) (a : BitVec 5) (b : BitVec 5) (r : BitVec 3) : IWord := BitVec.ofNat 32 (0x68000003 + d.toNat * 2097152 + a.toNat * 65536 + b.toNat * 2048 + r.toNat * 64)
/-- The word of FSQRT (R84, Table 1-8). -/
def wFsqrt (d : BitVec 5) (a : BitVec 5) (r : BitVec 3) : IWord := BitVec.ofNat 32 (0x68000004 + d.toNat * 2097152 + a.toNat * 65536 + r.toNat * 64)
/-- The word of FMA (R84, Table 1-8). -/
def wFma (d : BitVec 5) (a : BitVec 5) (b : BitVec 5) (r : BitVec 3) : IWord := BitVec.ofNat 32 (0x68000005 + d.toNat * 2097152 + a.toNat * 65536 + b.toNat * 2048 + r.toNat * 64)
/-- The word of FMIN (R84, Table 1-8). -/
def wFmin (d : BitVec 5) (a : BitVec 5) (b : BitVec 5) (r : BitVec 3) : IWord := BitVec.ofNat 32 (0x68000006 + d.toNat * 2097152 + a.toNat * 65536 + b.toNat * 2048 + r.toNat * 64)
/-- The word of FMAX (R84, Table 1-8). -/
def wFmax (d : BitVec 5) (a : BitVec 5) (b : BitVec 5) (r : BitVec 3) : IWord := BitVec.ofNat 32 (0x68000007 + d.toNat * 2097152 + a.toNat * 65536 + b.toNat * 2048 + r.toNat * 64)
/-- The word of FEQ (R84, Table 1-8). -/
def wFeq (d : BitVec 5) (a : BitVec 5) (b : BitVec 5) (r : BitVec 3) : IWord := BitVec.ofNat 32 (0x68000008 + d.toNat * 2097152 + a.toNat * 65536 + b.toNat * 2048 + r.toNat * 64)
/-- The word of FLT (R84, Table 1-8). -/
def wFlt (d : BitVec 5) (a : BitVec 5) (b : BitVec 5) (r : BitVec 3) : IWord := BitVec.ofNat 32 (0x68000009 + d.toNat * 2097152 + a.toNat * 65536 + b.toNat * 2048 + r.toNat * 64)
/-- The word of FLE (R84, Table 1-8). -/
def wFle (d : BitVec 5) (a : BitVec 5) (b : BitVec 5) (r : BitVec 3) : IWord := BitVec.ofNat 32 (0x6800000A + d.toNat * 2097152 + a.toNat * 65536 + b.toNat * 2048 + r.toNat * 64)
/-- The word of FCVT_W_S (R85, Table 1-8). -/
def wFcvtWS (d : BitVec 5) (a : BitVec 5) (r : BitVec 3) : IWord := BitVec.ofNat 32 (0x6800000B + d.toNat * 2097152 + a.toNat * 65536 + r.toNat * 64)
/-- The word of FCVT_S_W (R84, Table 1-8). -/
def wFcvtSW (d : BitVec 5) (a : BitVec 5) (r : BitVec 3) : IWord := BitVec.ofNat 32 (0x6800000C + d.toNat * 2097152 + a.toNat * 65536 + r.toNat * 64)
/-- The word of FCVT_BF_S (R84, Table 1-8). -/
def wFcvtBfS (d : BitVec 5) (a : BitVec 5) (r : BitVec 3) : IWord := BitVec.ofNat 32 (0x6800000D + d.toNat * 2097152 + a.toNat * 65536 + r.toNat * 64)
/-- The word of FCVT_S_BF (R84, Table 1-8). -/
def wFcvtSBf (d : BitVec 5) (a : BitVec 5) (r : BitVec 3) : IWord := BitVec.ofNat 32 (0x6800000E + d.toNat * 2097152 + a.toNat * 65536 + r.toNat * 64)
/-- The word of FLN (R85, Table 1-8). -/
def wFln (d : BitVec 5) (a : BitVec 5) (r : BitVec 3) : IWord := BitVec.ofNat 32 (0x6800000F + d.toNat * 2097152 + a.toNat * 65536 + r.toNat * 64)
/-- The word of FEXP (R85, Table 1-8). -/
def wFexp (d : BitVec 5) (a : BitVec 5) (r : BitVec 3) : IWord := BitVec.ofNat 32 (0x68000010 + d.toNat * 2097152 + a.toNat * 65536 + r.toNat * 64)
/-- The word of SYS (R86, Table 1-8). -/
def wSys : IWord := BitVec.ofNat 32 (0x6C000000)
/-- The word of BRK (R86, Table 1-8). -/
def wBrk : IWord := BitVec.ofNat 32 (0x6C000001)
/-- The word of TRET (R87, Table 1-8). -/
def wTret : IWord := BitVec.ofNat 32 (0x6C000002)
/-- The word of WFI (R88, Table 1-8). -/
def wWfi : IWord := BitVec.ofNat 32 (0x6C000003)
/-- The word of MWAIT (R89, Table 1-8). -/
def wMwait (d : BitVec 5) (a : BitVec 5) (b : BitVec 5) : IWord := BitVec.ofNat 32 (0x6C000004 + d.toNat * 2097152 + a.toNat * 65536 + b.toNat * 2048)
/-- The word of FENCE (R90, Table 1-8). -/
def wFence (sc : BitVec 3) : IWord := BitVec.ofNat 32 (0x6C000005 + sc.toNat * 64)
/-- The word of FENCE_SV (R91, Table 1-8). -/
def wFenceSv : IWord := BitVec.ofNat 32 (0x6C000006)
/-- The word of FENCE_VS (R91, Table 1-8). -/
def wFenceVs : IWord := BitVec.ofNat 32 (0x6C000007)
/-- The word of FENCE_C (R91, Table 1-8). -/
def wFenceC : IWord := BitVec.ofNat 32 (0x6C000008)
/-- The word of VSETL (R40, Table 1-8). -/
def wVsetl (d : BitVec 5) (a : BitVec 5) (b : BitVec 5) : IWord := BitVec.ofNat 32 (0x6C000009 + d.toNat * 2097152 + a.toNat * 65536 + b.toNat * 2048)
/-- The word of VSETLI (R40, Table 1-8). -/
def wVsetli (d : BitVec 5) (a : BitVec 5) (t : BitVec 16) : IWord := BitVec.ofNat 32 (0x7C000000 + d.toNat * 2097152 + a.toNat * 65536 + t.toNat)
/-- The word of GETC (R93, Table 1-8). -/
def wGetc (d : BitVec 5) (c : BitVec 16) : IWord := BitVec.ofNat 32 (0x70000000 + d.toNat * 2097152 + c.toNat)
/-- The word of SETC (R93, Table 1-8). -/
def wSetc (a : BitVec 5) (c : BitVec 16) : IWord := BitVec.ofNat 32 (0x74000000 + a.toNat * 65536 + c.toNat)
/-- The word of TAS (R197, Table 1-8). -/
def wTas (d : BitVec 5) (n : BitVec 11) : IWord := BitVec.ofNat 32 (0x78000000 + d.toNat * 2097152 + n.toNat)
/-- The word of SCLR (R197, Table 1-8). -/
def wSclr (n : BitVec 11) : IWord := BitVec.ofNat 32 (0x78000800 + n.toNat)
/-- The word of SSET (R197, Table 1-8). -/
def wSset (n : BitVec 11) : IWord := BitVec.ofNat 32 (0x78001000 + n.toNat)
/-- The word of STST (R197, Table 1-8). -/
def wStst (d : BitVec 5) (n : BitVec 11) : IWord := BitVec.ofNat 32 (0x78001800 + d.toNat * 2097152 + n.toNat)
/-- The word of CDRD (R197, Table 1-8). -/
def wCdrd (d : BitVec 5) (n : BitVec 11) : IWord := BitVec.ofNat 32 (0x78002000 + d.toNat * 2097152 + n.toNat)
/-- The word of CDWR (R197, Table 1-8). -/
def wCdwr (a : BitVec 5) (n : BitVec 11) : IWord := BitVec.ofNat 32 (0x78002800 + a.toNat * 65536 + n.toNat)
/-- The word of GBAR (R201, Table 1-8). -/
def wGbar (a : BitVec 5) : IWord := BitVec.ofNat 32 (0x78003000 + a.toNat * 65536)
/-- The word of GBAR_A (R201, Table 1-8). -/
def wGbarA (a : BitVec 5) : IWord := BitVec.ofNat 32 (0x78003800 + a.toNat * 65536)
/-- The word of GBAR_W (R201, Table 1-8). -/
def wGbarW (d : BitVec 5) : IWord := BitVec.ofNat 32 (0x78004000 + d.toNat * 2097152)
/-- The word of GBAR_R (R201, Table 1-8). -/
def wGbarR : IWord := BitVec.ofNat 32 (0x78004800)
/-- The word of WTAKE (R281, Table 1-8). -/
def wWtake (d : BitVec 5) (a : BitVec 5) : IWord := BitVec.ofNat 32 (0x78005000 + d.toNat * 2097152 + a.toNat * 65536)
/-- The word of WPUT (R281, Table 1-8). -/
def wWput (d : BitVec 5) (a : BitVec 5) (n : BitVec 11) : IWord := BitVec.ofNat 32 (0x78005800 + d.toNat * 2097152 + a.toNat * 65536 + n.toNat)
/-- The word of VADD_VV (R101, Table 1-8). -/
def wVaddVv (d : BitVec 5) (a : BitVec 5) (b : BitVec 5) (m : BitVec 3) (x : BitVec 3) (j : BitVec 1) : IWord := BitVec.ofNat 32 (0x80000000 + d.toNat * 2097152 + a.toNat * 65536 + b.toNat * 2048 + m.toNat * 256 + x.toNat * 32 + j.toNat * 16)
/-- The word of VADD_VS (R101, Table 1-8). -/
def wVaddVs (d : BitVec 5) (a : BitVec 5) (b : BitVec 5) (m : BitVec 3) (x : BitVec 3) (j : BitVec 1) : IWord := BitVec.ofNat 32 (0x84000000 + d.toNat * 2097152 + a.toNat * 65536 + b.toNat * 2048 + m.toNat * 256 + x.toNat * 32 + j.toNat * 16)
/-- The word of VADD_VI (R101, Table 1-8). -/
def wVaddVi (d : BitVec 5) (a : BitVec 5) (i : BitVec 5) (m : BitVec 3) (x : BitVec 3) (j : BitVec 1) : IWord := BitVec.ofNat 32 (0x88000000 + d.toNat * 2097152 + a.toNat * 65536 + i.toNat * 2048 + m.toNat * 256 + x.toNat * 32 + j.toNat * 16)
/-- The word of VSUB_VV (R101, Table 1-8). -/
def wVsubVv (d : BitVec 5) (a : BitVec 5) (b : BitVec 5) (m : BitVec 3) (x : BitVec 3) (j : BitVec 1) : IWord := BitVec.ofNat 32 (0x80000001 + d.toNat * 2097152 + a.toNat * 65536 + b.toNat * 2048 + m.toNat * 256 + x.toNat * 32 + j.toNat * 16)
/-- The word of VSUB_VS (R101, Table 1-8). -/
def wVsubVs (d : BitVec 5) (a : BitVec 5) (b : BitVec 5) (m : BitVec 3) (x : BitVec 3) (j : BitVec 1) : IWord := BitVec.ofNat 32 (0x84000001 + d.toNat * 2097152 + a.toNat * 65536 + b.toNat * 2048 + m.toNat * 256 + x.toNat * 32 + j.toNat * 16)
/-- The word of VSUB_VI (R101, Table 1-8). -/
def wVsubVi (d : BitVec 5) (a : BitVec 5) (i : BitVec 5) (m : BitVec 3) (x : BitVec 3) (j : BitVec 1) : IWord := BitVec.ofNat 32 (0x88000001 + d.toNat * 2097152 + a.toNat * 65536 + i.toNat * 2048 + m.toNat * 256 + x.toNat * 32 + j.toNat * 16)
/-- The word of VMUL_VV (R101, Table 1-8). -/
def wVmulVv (d : BitVec 5) (a : BitVec 5) (b : BitVec 5) (m : BitVec 3) (x : BitVec 3) (j : BitVec 1) : IWord := BitVec.ofNat 32 (0x80000002 + d.toNat * 2097152 + a.toNat * 65536 + b.toNat * 2048 + m.toNat * 256 + x.toNat * 32 + j.toNat * 16)
/-- The word of VMUL_VS (R101, Table 1-8). -/
def wVmulVs (d : BitVec 5) (a : BitVec 5) (b : BitVec 5) (m : BitVec 3) (x : BitVec 3) (j : BitVec 1) : IWord := BitVec.ofNat 32 (0x84000002 + d.toNat * 2097152 + a.toNat * 65536 + b.toNat * 2048 + m.toNat * 256 + x.toNat * 32 + j.toNat * 16)
/-- The word of VMUL_VI (R101, Table 1-8). -/
def wVmulVi (d : BitVec 5) (a : BitVec 5) (i : BitVec 5) (m : BitVec 3) (x : BitVec 3) (j : BitVec 1) : IWord := BitVec.ofNat 32 (0x88000002 + d.toNat * 2097152 + a.toNat * 65536 + i.toNat * 2048 + m.toNat * 256 + x.toNat * 32 + j.toNat * 16)
/-- The word of VMULH_VV (R101, Table 1-8). -/
def wVmulhVv (d : BitVec 5) (a : BitVec 5) (b : BitVec 5) (m : BitVec 3) (x : BitVec 3) (j : BitVec 1) : IWord := BitVec.ofNat 32 (0x80000003 + d.toNat * 2097152 + a.toNat * 65536 + b.toNat * 2048 + m.toNat * 256 + x.toNat * 32 + j.toNat * 16)
/-- The word of VMULH_VS (R101, Table 1-8). -/
def wVmulhVs (d : BitVec 5) (a : BitVec 5) (b : BitVec 5) (m : BitVec 3) (x : BitVec 3) (j : BitVec 1) : IWord := BitVec.ofNat 32 (0x84000003 + d.toNat * 2097152 + a.toNat * 65536 + b.toNat * 2048 + m.toNat * 256 + x.toNat * 32 + j.toNat * 16)
/-- The word of VMULH_VI (R101, Table 1-8). -/
def wVmulhVi (d : BitVec 5) (a : BitVec 5) (i : BitVec 5) (m : BitVec 3) (x : BitVec 3) (j : BitVec 1) : IWord := BitVec.ofNat 32 (0x88000003 + d.toNat * 2097152 + a.toNat * 65536 + i.toNat * 2048 + m.toNat * 256 + x.toNat * 32 + j.toNat * 16)
/-- The word of VMACC_VV (R101, Table 1-8). -/
def wVmaccVv (d : BitVec 5) (a : BitVec 5) (b : BitVec 5) (m : BitVec 3) (x : BitVec 3) (j : BitVec 1) : IWord := BitVec.ofNat 32 (0x80000004 + d.toNat * 2097152 + a.toNat * 65536 + b.toNat * 2048 + m.toNat * 256 + x.toNat * 32 + j.toNat * 16)
/-- The word of VMACC_VS (R101, Table 1-8). -/
def wVmaccVs (d : BitVec 5) (a : BitVec 5) (b : BitVec 5) (m : BitVec 3) (x : BitVec 3) (j : BitVec 1) : IWord := BitVec.ofNat 32 (0x84000004 + d.toNat * 2097152 + a.toNat * 65536 + b.toNat * 2048 + m.toNat * 256 + x.toNat * 32 + j.toNat * 16)
/-- The word of VMACC_VI (R101, Table 1-8). -/
def wVmaccVi (d : BitVec 5) (a : BitVec 5) (i : BitVec 5) (m : BitVec 3) (x : BitVec 3) (j : BitVec 1) : IWord := BitVec.ofNat 32 (0x88000004 + d.toNat * 2097152 + a.toNat * 65536 + i.toNat * 2048 + m.toNat * 256 + x.toNat * 32 + j.toNat * 16)
/-- The word of VNMSAC_VV (R101, Table 1-8). -/
def wVnmsacVv (d : BitVec 5) (a : BitVec 5) (b : BitVec 5) (m : BitVec 3) (x : BitVec 3) (j : BitVec 1) : IWord := BitVec.ofNat 32 (0x80000005 + d.toNat * 2097152 + a.toNat * 65536 + b.toNat * 2048 + m.toNat * 256 + x.toNat * 32 + j.toNat * 16)
/-- The word of VNMSAC_VS (R101, Table 1-8). -/
def wVnmsacVs (d : BitVec 5) (a : BitVec 5) (b : BitVec 5) (m : BitVec 3) (x : BitVec 3) (j : BitVec 1) : IWord := BitVec.ofNat 32 (0x84000005 + d.toNat * 2097152 + a.toNat * 65536 + b.toNat * 2048 + m.toNat * 256 + x.toNat * 32 + j.toNat * 16)
/-- The word of VNMSAC_VI (R101, Table 1-8). -/
def wVnmsacVi (d : BitVec 5) (a : BitVec 5) (i : BitVec 5) (m : BitVec 3) (x : BitVec 3) (j : BitVec 1) : IWord := BitVec.ofNat 32 (0x88000005 + d.toNat * 2097152 + a.toNat * 65536 + i.toNat * 2048 + m.toNat * 256 + x.toNat * 32 + j.toNat * 16)
/-- The word of VMIN_VV (R101, Table 1-8). -/
def wVminVv (d : BitVec 5) (a : BitVec 5) (b : BitVec 5) (m : BitVec 3) (x : BitVec 3) (j : BitVec 1) : IWord := BitVec.ofNat 32 (0x80000006 + d.toNat * 2097152 + a.toNat * 65536 + b.toNat * 2048 + m.toNat * 256 + x.toNat * 32 + j.toNat * 16)
/-- The word of VMIN_VS (R101, Table 1-8). -/
def wVminVs (d : BitVec 5) (a : BitVec 5) (b : BitVec 5) (m : BitVec 3) (x : BitVec 3) (j : BitVec 1) : IWord := BitVec.ofNat 32 (0x84000006 + d.toNat * 2097152 + a.toNat * 65536 + b.toNat * 2048 + m.toNat * 256 + x.toNat * 32 + j.toNat * 16)
/-- The word of VMIN_VI (R101, Table 1-8). -/
def wVminVi (d : BitVec 5) (a : BitVec 5) (i : BitVec 5) (m : BitVec 3) (x : BitVec 3) (j : BitVec 1) : IWord := BitVec.ofNat 32 (0x88000006 + d.toNat * 2097152 + a.toNat * 65536 + i.toNat * 2048 + m.toNat * 256 + x.toNat * 32 + j.toNat * 16)
/-- The word of VMAX_VV (R101, Table 1-8). -/
def wVmaxVv (d : BitVec 5) (a : BitVec 5) (b : BitVec 5) (m : BitVec 3) (x : BitVec 3) (j : BitVec 1) : IWord := BitVec.ofNat 32 (0x80000007 + d.toNat * 2097152 + a.toNat * 65536 + b.toNat * 2048 + m.toNat * 256 + x.toNat * 32 + j.toNat * 16)
/-- The word of VMAX_VS (R101, Table 1-8). -/
def wVmaxVs (d : BitVec 5) (a : BitVec 5) (b : BitVec 5) (m : BitVec 3) (x : BitVec 3) (j : BitVec 1) : IWord := BitVec.ofNat 32 (0x84000007 + d.toNat * 2097152 + a.toNat * 65536 + b.toNat * 2048 + m.toNat * 256 + x.toNat * 32 + j.toNat * 16)
/-- The word of VMAX_VI (R101, Table 1-8). -/
def wVmaxVi (d : BitVec 5) (a : BitVec 5) (i : BitVec 5) (m : BitVec 3) (x : BitVec 3) (j : BitVec 1) : IWord := BitVec.ofNat 32 (0x88000007 + d.toNat * 2097152 + a.toNat * 65536 + i.toNat * 2048 + m.toNat * 256 + x.toNat * 32 + j.toNat * 16)
/-- The word of VMINU_VV (R101, Table 1-8). -/
def wVminuVv (d : BitVec 5) (a : BitVec 5) (b : BitVec 5) (m : BitVec 3) (x : BitVec 3) (j : BitVec 1) : IWord := BitVec.ofNat 32 (0x80000008 + d.toNat * 2097152 + a.toNat * 65536 + b.toNat * 2048 + m.toNat * 256 + x.toNat * 32 + j.toNat * 16)
/-- The word of VMINU_VS (R101, Table 1-8). -/
def wVminuVs (d : BitVec 5) (a : BitVec 5) (b : BitVec 5) (m : BitVec 3) (x : BitVec 3) (j : BitVec 1) : IWord := BitVec.ofNat 32 (0x84000008 + d.toNat * 2097152 + a.toNat * 65536 + b.toNat * 2048 + m.toNat * 256 + x.toNat * 32 + j.toNat * 16)
/-- The word of VMINU_VI (R101, Table 1-8). -/
def wVminuVi (d : BitVec 5) (a : BitVec 5) (i : BitVec 5) (m : BitVec 3) (x : BitVec 3) (j : BitVec 1) : IWord := BitVec.ofNat 32 (0x88000008 + d.toNat * 2097152 + a.toNat * 65536 + i.toNat * 2048 + m.toNat * 256 + x.toNat * 32 + j.toNat * 16)
/-- The word of VMAXU_VV (R101, Table 1-8). -/
def wVmaxuVv (d : BitVec 5) (a : BitVec 5) (b : BitVec 5) (m : BitVec 3) (x : BitVec 3) (j : BitVec 1) : IWord := BitVec.ofNat 32 (0x80000009 + d.toNat * 2097152 + a.toNat * 65536 + b.toNat * 2048 + m.toNat * 256 + x.toNat * 32 + j.toNat * 16)
/-- The word of VMAXU_VS (R101, Table 1-8). -/
def wVmaxuVs (d : BitVec 5) (a : BitVec 5) (b : BitVec 5) (m : BitVec 3) (x : BitVec 3) (j : BitVec 1) : IWord := BitVec.ofNat 32 (0x84000009 + d.toNat * 2097152 + a.toNat * 65536 + b.toNat * 2048 + m.toNat * 256 + x.toNat * 32 + j.toNat * 16)
/-- The word of VMAXU_VI (R101, Table 1-8). -/
def wVmaxuVi (d : BitVec 5) (a : BitVec 5) (i : BitVec 5) (m : BitVec 3) (x : BitVec 3) (j : BitVec 1) : IWord := BitVec.ofNat 32 (0x88000009 + d.toNat * 2097152 + a.toNat * 65536 + i.toNat * 2048 + m.toNat * 256 + x.toNat * 32 + j.toNat * 16)
/-- The word of VAND_VV (R101, Table 1-8). -/
def wVandVv (d : BitVec 5) (a : BitVec 5) (b : BitVec 5) (m : BitVec 3) (x : BitVec 3) (j : BitVec 1) : IWord := BitVec.ofNat 32 (0x8000000A + d.toNat * 2097152 + a.toNat * 65536 + b.toNat * 2048 + m.toNat * 256 + x.toNat * 32 + j.toNat * 16)
/-- The word of VAND_VS (R101, Table 1-8). -/
def wVandVs (d : BitVec 5) (a : BitVec 5) (b : BitVec 5) (m : BitVec 3) (x : BitVec 3) (j : BitVec 1) : IWord := BitVec.ofNat 32 (0x8400000A + d.toNat * 2097152 + a.toNat * 65536 + b.toNat * 2048 + m.toNat * 256 + x.toNat * 32 + j.toNat * 16)
/-- The word of VAND_VI (R101, Table 1-8). -/
def wVandVi (d : BitVec 5) (a : BitVec 5) (i : BitVec 5) (m : BitVec 3) (x : BitVec 3) (j : BitVec 1) : IWord := BitVec.ofNat 32 (0x8800000A + d.toNat * 2097152 + a.toNat * 65536 + i.toNat * 2048 + m.toNat * 256 + x.toNat * 32 + j.toNat * 16)
/-- The word of VOR_VV (R101, Table 1-8). -/
def wVorVv (d : BitVec 5) (a : BitVec 5) (b : BitVec 5) (m : BitVec 3) (x : BitVec 3) (j : BitVec 1) : IWord := BitVec.ofNat 32 (0x8000000B + d.toNat * 2097152 + a.toNat * 65536 + b.toNat * 2048 + m.toNat * 256 + x.toNat * 32 + j.toNat * 16)
/-- The word of VOR_VS (R101, Table 1-8). -/
def wVorVs (d : BitVec 5) (a : BitVec 5) (b : BitVec 5) (m : BitVec 3) (x : BitVec 3) (j : BitVec 1) : IWord := BitVec.ofNat 32 (0x8400000B + d.toNat * 2097152 + a.toNat * 65536 + b.toNat * 2048 + m.toNat * 256 + x.toNat * 32 + j.toNat * 16)
/-- The word of VOR_VI (R101, Table 1-8). -/
def wVorVi (d : BitVec 5) (a : BitVec 5) (i : BitVec 5) (m : BitVec 3) (x : BitVec 3) (j : BitVec 1) : IWord := BitVec.ofNat 32 (0x8800000B + d.toNat * 2097152 + a.toNat * 65536 + i.toNat * 2048 + m.toNat * 256 + x.toNat * 32 + j.toNat * 16)
/-- The word of VXOR_VV (R101, Table 1-8). -/
def wVxorVv (d : BitVec 5) (a : BitVec 5) (b : BitVec 5) (m : BitVec 3) (x : BitVec 3) (j : BitVec 1) : IWord := BitVec.ofNat 32 (0x8000000C + d.toNat * 2097152 + a.toNat * 65536 + b.toNat * 2048 + m.toNat * 256 + x.toNat * 32 + j.toNat * 16)
/-- The word of VXOR_VS (R101, Table 1-8). -/
def wVxorVs (d : BitVec 5) (a : BitVec 5) (b : BitVec 5) (m : BitVec 3) (x : BitVec 3) (j : BitVec 1) : IWord := BitVec.ofNat 32 (0x8400000C + d.toNat * 2097152 + a.toNat * 65536 + b.toNat * 2048 + m.toNat * 256 + x.toNat * 32 + j.toNat * 16)
/-- The word of VXOR_VI (R101, Table 1-8). -/
def wVxorVi (d : BitVec 5) (a : BitVec 5) (i : BitVec 5) (m : BitVec 3) (x : BitVec 3) (j : BitVec 1) : IWord := BitVec.ofNat 32 (0x8800000C + d.toNat * 2097152 + a.toNat * 65536 + i.toNat * 2048 + m.toNat * 256 + x.toNat * 32 + j.toNat * 16)
/-- The word of VSLL_VV (R101, Table 1-8). -/
def wVsllVv (d : BitVec 5) (a : BitVec 5) (b : BitVec 5) (m : BitVec 3) (x : BitVec 3) (j : BitVec 1) : IWord := BitVec.ofNat 32 (0x8000000D + d.toNat * 2097152 + a.toNat * 65536 + b.toNat * 2048 + m.toNat * 256 + x.toNat * 32 + j.toNat * 16)
/-- The word of VSLL_VS (R101, Table 1-8). -/
def wVsllVs (d : BitVec 5) (a : BitVec 5) (b : BitVec 5) (m : BitVec 3) (x : BitVec 3) (j : BitVec 1) : IWord := BitVec.ofNat 32 (0x8400000D + d.toNat * 2097152 + a.toNat * 65536 + b.toNat * 2048 + m.toNat * 256 + x.toNat * 32 + j.toNat * 16)
/-- The word of VSLL_VI (R101, Table 1-8). -/
def wVsllVi (d : BitVec 5) (a : BitVec 5) (i : BitVec 5) (m : BitVec 3) (x : BitVec 3) (j : BitVec 1) : IWord := BitVec.ofNat 32 (0x8800000D + d.toNat * 2097152 + a.toNat * 65536 + i.toNat * 2048 + m.toNat * 256 + x.toNat * 32 + j.toNat * 16)
/-- The word of VSRL_VV (R101, Table 1-8). -/
def wVsrlVv (d : BitVec 5) (a : BitVec 5) (b : BitVec 5) (m : BitVec 3) (x : BitVec 3) (j : BitVec 1) : IWord := BitVec.ofNat 32 (0x8000000E + d.toNat * 2097152 + a.toNat * 65536 + b.toNat * 2048 + m.toNat * 256 + x.toNat * 32 + j.toNat * 16)
/-- The word of VSRL_VS (R101, Table 1-8). -/
def wVsrlVs (d : BitVec 5) (a : BitVec 5) (b : BitVec 5) (m : BitVec 3) (x : BitVec 3) (j : BitVec 1) : IWord := BitVec.ofNat 32 (0x8400000E + d.toNat * 2097152 + a.toNat * 65536 + b.toNat * 2048 + m.toNat * 256 + x.toNat * 32 + j.toNat * 16)
/-- The word of VSRL_VI (R101, Table 1-8). -/
def wVsrlVi (d : BitVec 5) (a : BitVec 5) (i : BitVec 5) (m : BitVec 3) (x : BitVec 3) (j : BitVec 1) : IWord := BitVec.ofNat 32 (0x8800000E + d.toNat * 2097152 + a.toNat * 65536 + i.toNat * 2048 + m.toNat * 256 + x.toNat * 32 + j.toNat * 16)
/-- The word of VSRA_VV (R101, Table 1-8). -/
def wVsraVv (d : BitVec 5) (a : BitVec 5) (b : BitVec 5) (m : BitVec 3) (x : BitVec 3) (j : BitVec 1) : IWord := BitVec.ofNat 32 (0x8000000F + d.toNat * 2097152 + a.toNat * 65536 + b.toNat * 2048 + m.toNat * 256 + x.toNat * 32 + j.toNat * 16)
/-- The word of VSRA_VS (R101, Table 1-8). -/
def wVsraVs (d : BitVec 5) (a : BitVec 5) (b : BitVec 5) (m : BitVec 3) (x : BitVec 3) (j : BitVec 1) : IWord := BitVec.ofNat 32 (0x8400000F + d.toNat * 2097152 + a.toNat * 65536 + b.toNat * 2048 + m.toNat * 256 + x.toNat * 32 + j.toNat * 16)
/-- The word of VSRA_VI (R101, Table 1-8). -/
def wVsraVi (d : BitVec 5) (a : BitVec 5) (i : BitVec 5) (m : BitVec 3) (x : BitVec 3) (j : BitVec 1) : IWord := BitVec.ofNat 32 (0x8800000F + d.toNat * 2097152 + a.toNat * 65536 + i.toNat * 2048 + m.toNat * 256 + x.toNat * 32 + j.toNat * 16)
/-- The word of VSADD (R102, Table 1-8). -/
def wVsadd (d : BitVec 5) (a : BitVec 5) (b : BitVec 5) (m : BitVec 3) (x : BitVec 3) (j : BitVec 1) : IWord := BitVec.ofNat 32 (0x8C000000 + d.toNat * 2097152 + a.toNat * 65536 + b.toNat * 2048 + m.toNat * 256 + x.toNat * 32 + j.toNat * 16)
/-- The word of VSADDU (R102, Table 1-8). -/
def wVsaddu (d : BitVec 5) (a : BitVec 5) (b : BitVec 5) (m : BitVec 3) (x : BitVec 3) (j : BitVec 1) : IWord := BitVec.ofNat 32 (0x8C000001 + d.toNat * 2097152 + a.toNat * 65536 + b.toNat * 2048 + m.toNat * 256 + x.toNat * 32 + j.toNat * 16)
/-- The word of VSSUB (R102, Table 1-8). -/
def wVssub (d : BitVec 5) (a : BitVec 5) (b : BitVec 5) (m : BitVec 3) (x : BitVec 3) (j : BitVec 1) : IWord := BitVec.ofNat 32 (0x8C000002 + d.toNat * 2097152 + a.toNat * 65536 + b.toNat * 2048 + m.toNat * 256 + x.toNat * 32 + j.toNat * 16)
/-- The word of VSSUBU (R102, Table 1-8). -/
def wVssubu (d : BitVec 5) (a : BitVec 5) (b : BitVec 5) (m : BitVec 3) (x : BitVec 3) (j : BitVec 1) : IWord := BitVec.ofNat 32 (0x8C000003 + d.toNat * 2097152 + a.toNat * 65536 + b.toNat * 2048 + m.toNat * 256 + x.toNat * 32 + j.toNat * 16)
/-- The word of VAVG (R102, Table 1-8). -/
def wVavg (d : BitVec 5) (a : BitVec 5) (b : BitVec 5) (m : BitVec 3) (x : BitVec 3) (j : BitVec 1) : IWord := BitVec.ofNat 32 (0x8C000004 + d.toNat * 2097152 + a.toNat * 65536 + b.toNat * 2048 + m.toNat * 256 + x.toNat * 32 + j.toNat * 16)
/-- The word of VAVGU (R102, Table 1-8). -/
def wVavgu (d : BitVec 5) (a : BitVec 5) (b : BitVec 5) (m : BitVec 3) (x : BitVec 3) (j : BitVec 1) : IWord := BitVec.ofNat 32 (0x8C000005 + d.toNat * 2097152 + a.toNat * 65536 + b.toNat * 2048 + m.toNat * 256 + x.toNat * 32 + j.toNat * 16)
/-- The word of VMERGE (R103, Table 1-8). -/
def wVmerge (d : BitVec 5) (a : BitVec 5) (b : BitVec 5) (m : BitVec 3) (j : BitVec 1) : IWord := BitVec.ofNat 32 (0x8C000006 + d.toNat * 2097152 + a.toNat * 65536 + b.toNat * 2048 + m.toNat * 256 + j.toNat * 16)
/-- The word of VMV (R103, Table 1-8). -/
def wVmv (d : BitVec 5) (a : BitVec 5) (j : BitVec 1) : IWord := BitVec.ofNat 32 (0x8C000007 + d.toNat * 2097152 + a.toNat * 65536 + j.toNat * 16)
/-- The word of VNSRA (R104, Table 1-8). -/
def wVnsra (d : BitVec 5) (a : BitVec 5) (b : BitVec 5) (m : BitVec 3) (x : BitVec 3) (j : BitVec 1) : IWord := BitVec.ofNat 32 (0x8C000008 + d.toNat * 2097152 + a.toNat * 65536 + b.toNat * 2048 + m.toNat * 256 + x.toNat * 32 + j.toNat * 16)
/-- The word of VWMUL (R104, Table 1-8). -/
def wVwmul (d : BitVec 5) (a : BitVec 5) (b : BitVec 5) (m : BitVec 3) (j : BitVec 1) : IWord := BitVec.ofNat 32 (0x8C000009 + d.toNat * 2097152 + a.toNat * 65536 + b.toNat * 2048 + m.toNat * 256 + j.toNat * 16)
/-- The word of VWADD (R104, Table 1-8). -/
def wVwadd (d : BitVec 5) (a : BitVec 5) (b : BitVec 5) (m : BitVec 3) (j : BitVec 1) : IWord := BitVec.ofNat 32 (0x8C00000A + d.toNat * 2097152 + a.toNat * 65536 + b.toNat * 2048 + m.toNat * 256 + j.toNat * 16)
/-- The word of VDOT4 (R105, Table 1-8). -/
def wVdot4 (d : BitVec 5) (a : BitVec 5) (b : BitVec 5) (m : BitVec 3) (j : BitVec 1) : IWord := BitVec.ofNat 32 (0x8C00000B + d.toNat * 2097152 + a.toNat * 65536 + b.toNat * 2048 + m.toNat * 256 + j.toNat * 16)
/-- The word of VFADD_VV (R106, Table 1-8). -/
def wVfaddVv (d : BitVec 5) (a : BitVec 5) (b : BitVec 5) (m : BitVec 3) (x : BitVec 3) (j : BitVec 1) : IWord := BitVec.ofNat 32 (0x90000000 + d.toNat * 2097152 + a.toNat * 65536 + b.toNat * 2048 + m.toNat * 256 + x.toNat * 32 + j.toNat * 16)
/-- The word of VFADD_VS (R106, Table 1-8). -/
def wVfaddVs (d : BitVec 5) (a : BitVec 5) (b : BitVec 5) (m : BitVec 3) (x : BitVec 3) (j : BitVec 1) : IWord := BitVec.ofNat 32 (0x94000000 + d.toNat * 2097152 + a.toNat * 65536 + b.toNat * 2048 + m.toNat * 256 + x.toNat * 32 + j.toNat * 16)
/-- The word of VFSUB_VV (R106, Table 1-8). -/
def wVfsubVv (d : BitVec 5) (a : BitVec 5) (b : BitVec 5) (m : BitVec 3) (x : BitVec 3) (j : BitVec 1) : IWord := BitVec.ofNat 32 (0x90000001 + d.toNat * 2097152 + a.toNat * 65536 + b.toNat * 2048 + m.toNat * 256 + x.toNat * 32 + j.toNat * 16)
/-- The word of VFSUB_VS (R106, Table 1-8). -/
def wVfsubVs (d : BitVec 5) (a : BitVec 5) (b : BitVec 5) (m : BitVec 3) (x : BitVec 3) (j : BitVec 1) : IWord := BitVec.ofNat 32 (0x94000001 + d.toNat * 2097152 + a.toNat * 65536 + b.toNat * 2048 + m.toNat * 256 + x.toNat * 32 + j.toNat * 16)
/-- The word of VFMUL_VV (R106, Table 1-8). -/
def wVfmulVv (d : BitVec 5) (a : BitVec 5) (b : BitVec 5) (m : BitVec 3) (x : BitVec 3) (j : BitVec 1) : IWord := BitVec.ofNat 32 (0x90000002 + d.toNat * 2097152 + a.toNat * 65536 + b.toNat * 2048 + m.toNat * 256 + x.toNat * 32 + j.toNat * 16)
/-- The word of VFMUL_VS (R106, Table 1-8). -/
def wVfmulVs (d : BitVec 5) (a : BitVec 5) (b : BitVec 5) (m : BitVec 3) (x : BitVec 3) (j : BitVec 1) : IWord := BitVec.ofNat 32 (0x94000002 + d.toNat * 2097152 + a.toNat * 65536 + b.toNat * 2048 + m.toNat * 256 + x.toNat * 32 + j.toNat * 16)
/-- The word of VFDIV_VV (R106, Table 1-8). -/
def wVfdivVv (d : BitVec 5) (a : BitVec 5) (b : BitVec 5) (m : BitVec 3) (x : BitVec 3) (j : BitVec 1) : IWord := BitVec.ofNat 32 (0x90000003 + d.toNat * 2097152 + a.toNat * 65536 + b.toNat * 2048 + m.toNat * 256 + x.toNat * 32 + j.toNat * 16)
/-- The word of VFDIV_VS (R106, Table 1-8). -/
def wVfdivVs (d : BitVec 5) (a : BitVec 5) (b : BitVec 5) (m : BitVec 3) (x : BitVec 3) (j : BitVec 1) : IWord := BitVec.ofNat 32 (0x94000003 + d.toNat * 2097152 + a.toNat * 65536 + b.toNat * 2048 + m.toNat * 256 + x.toNat * 32 + j.toNat * 16)
/-- The word of VFMA_VV (R106, Table 1-8). -/
def wVfmaVv (d : BitVec 5) (a : BitVec 5) (b : BitVec 5) (m : BitVec 3) (x : BitVec 3) (j : BitVec 1) : IWord := BitVec.ofNat 32 (0x90000004 + d.toNat * 2097152 + a.toNat * 65536 + b.toNat * 2048 + m.toNat * 256 + x.toNat * 32 + j.toNat * 16)
/-- The word of VFMA_VS (R106, Table 1-8). -/
def wVfmaVs (d : BitVec 5) (a : BitVec 5) (b : BitVec 5) (m : BitVec 3) (x : BitVec 3) (j : BitVec 1) : IWord := BitVec.ofNat 32 (0x94000004 + d.toNat * 2097152 + a.toNat * 65536 + b.toNat * 2048 + m.toNat * 256 + x.toNat * 32 + j.toNat * 16)
/-- The word of VFNMA_VV (R106, Table 1-8). -/
def wVfnmaVv (d : BitVec 5) (a : BitVec 5) (b : BitVec 5) (m : BitVec 3) (x : BitVec 3) (j : BitVec 1) : IWord := BitVec.ofNat 32 (0x90000005 + d.toNat * 2097152 + a.toNat * 65536 + b.toNat * 2048 + m.toNat * 256 + x.toNat * 32 + j.toNat * 16)
/-- The word of VFNMA_VS (R106, Table 1-8). -/
def wVfnmaVs (d : BitVec 5) (a : BitVec 5) (b : BitVec 5) (m : BitVec 3) (x : BitVec 3) (j : BitVec 1) : IWord := BitVec.ofNat 32 (0x94000005 + d.toNat * 2097152 + a.toNat * 65536 + b.toNat * 2048 + m.toNat * 256 + x.toNat * 32 + j.toNat * 16)
/-- The word of VFMIN_VV (R106, Table 1-8). -/
def wVfminVv (d : BitVec 5) (a : BitVec 5) (b : BitVec 5) (m : BitVec 3) (x : BitVec 3) (j : BitVec 1) : IWord := BitVec.ofNat 32 (0x90000006 + d.toNat * 2097152 + a.toNat * 65536 + b.toNat * 2048 + m.toNat * 256 + x.toNat * 32 + j.toNat * 16)
/-- The word of VFMIN_VS (R106, Table 1-8). -/
def wVfminVs (d : BitVec 5) (a : BitVec 5) (b : BitVec 5) (m : BitVec 3) (x : BitVec 3) (j : BitVec 1) : IWord := BitVec.ofNat 32 (0x94000006 + d.toNat * 2097152 + a.toNat * 65536 + b.toNat * 2048 + m.toNat * 256 + x.toNat * 32 + j.toNat * 16)
/-- The word of VFMAX_VV (R106, Table 1-8). -/
def wVfmaxVv (d : BitVec 5) (a : BitVec 5) (b : BitVec 5) (m : BitVec 3) (x : BitVec 3) (j : BitVec 1) : IWord := BitVec.ofNat 32 (0x90000007 + d.toNat * 2097152 + a.toNat * 65536 + b.toNat * 2048 + m.toNat * 256 + x.toNat * 32 + j.toNat * 16)
/-- The word of VFMAX_VS (R106, Table 1-8). -/
def wVfmaxVs (d : BitVec 5) (a : BitVec 5) (b : BitVec 5) (m : BitVec 3) (x : BitVec 3) (j : BitVec 1) : IWord := BitVec.ofNat 32 (0x94000007 + d.toNat * 2097152 + a.toNat * 65536 + b.toNat * 2048 + m.toNat * 256 + x.toNat * 32 + j.toNat * 16)
/-- The word of VFSGNJ_VV (R106, Table 1-8). -/
def wVfsgnjVv (d : BitVec 5) (a : BitVec 5) (b : BitVec 5) (m : BitVec 3) (x : BitVec 3) (j : BitVec 1) : IWord := BitVec.ofNat 32 (0x90000008 + d.toNat * 2097152 + a.toNat * 65536 + b.toNat * 2048 + m.toNat * 256 + x.toNat * 32 + j.toNat * 16)
/-- The word of VFSGNJ_VS (R106, Table 1-8). -/
def wVfsgnjVs (d : BitVec 5) (a : BitVec 5) (b : BitVec 5) (m : BitVec 3) (x : BitVec 3) (j : BitVec 1) : IWord := BitVec.ofNat 32 (0x94000008 + d.toNat * 2097152 + a.toNat * 65536 + b.toNat * 2048 + m.toNat * 256 + x.toNat * 32 + j.toNat * 16)
/-- The word of VFEXPB_VV (R107, Table 1-8). -/
def wVfexpbVv (d : BitVec 5) (a : BitVec 5) (b : BitVec 5) (m : BitVec 3) (x : BitVec 3) (j : BitVec 1) : IWord := BitVec.ofNat 32 (0x90000009 + d.toNat * 2097152 + a.toNat * 65536 + b.toNat * 2048 + m.toNat * 256 + x.toNat * 32 + j.toNat * 16)
/-- The word of VFEXPB_VS (R107, Table 1-8). -/
def wVfexpbVs (d : BitVec 5) (a : BitVec 5) (b : BitVec 5) (m : BitVec 3) (x : BitVec 3) (j : BitVec 1) : IWord := BitVec.ofNat 32 (0x94000009 + d.toNat * 2097152 + a.toNat * 65536 + b.toNat * 2048 + m.toNat * 256 + x.toNat * 32 + j.toNat * 16)
/-- The word of VFWMA_VV (R108, Table 1-8). -/
def wVfwmaVv (d : BitVec 5) (a : BitVec 5) (b : BitVec 5) (m : BitVec 3) (x : BitVec 3) (j : BitVec 1) : IWord := BitVec.ofNat 32 (0x9000000A + d.toNat * 2097152 + a.toNat * 65536 + b.toNat * 2048 + m.toNat * 256 + x.toNat * 32 + j.toNat * 16)
/-- The word of VFWMA_VS (R108, Table 1-8). -/
def wVfwmaVs (d : BitVec 5) (a : BitVec 5) (b : BitVec 5) (m : BitVec 3) (x : BitVec 3) (j : BitVec 1) : IWord := BitVec.ofNat 32 (0x9400000A + d.toNat * 2097152 + a.toNat * 65536 + b.toNat * 2048 + m.toNat * 256 + x.toNat * 32 + j.toNat * 16)
/-- The word of VFSQRT (R109, Table 1-8). -/
def wVfsqrt (d : BitVec 5) (a : BitVec 5) (m : BitVec 3) (x : BitVec 3) (j : BitVec 1) : IWord := BitVec.ofNat 32 (0x98000000 + d.toNat * 2097152 + a.toNat * 65536 + m.toNat * 256 + x.toNat * 32 + j.toNat * 16)
/-- The word of VFRSQE (R109, Table 1-8). -/
def wVfrsqe (d : BitVec 5) (a : BitVec 5) (m : BitVec 3) (x : BitVec 3) (j : BitVec 1) : IWord := BitVec.ofNat 32 (0x98000001 + d.toNat * 2097152 + a.toNat * 65536 + m.toNat * 256 + x.toNat * 32 + j.toNat * 16)
/-- The word of VFRECE (R109, Table 1-8). -/
def wVfrece (d : BitVec 5) (a : BitVec 5) (m : BitVec 3) (x : BitVec 3) (j : BitVec 1) : IWord := BitVec.ofNat 32 (0x98000002 + d.toNat * 2097152 + a.toNat * 65536 + m.toNat * 256 + x.toNat * 32 + j.toNat * 16)
/-- The word of VFLN (R109, Table 1-8). -/
def wVfln (d : BitVec 5) (a : BitVec 5) (m : BitVec 3) (x : BitVec 3) (j : BitVec 1) : IWord := BitVec.ofNat 32 (0x98000003 + d.toNat * 2097152 + a.toNat * 65536 + m.toNat * 256 + x.toNat * 32 + j.toNat * 16)
/-- The word of VFEXP (R109, Table 1-8). -/
def wVfexp (d : BitVec 5) (a : BitVec 5) (m : BitVec 3) (x : BitVec 3) (j : BitVec 1) : IWord := BitVec.ofNat 32 (0x98000004 + d.toNat * 2097152 + a.toNat * 65536 + m.toNat * 256 + x.toNat * 32 + j.toNat * 16)
/-- The word of VFCVT (R110, Table 1-8). -/
def wVfcvt (d : BitVec 5) (a : BitVec 5) (c : BitVec 5) (m : BitVec 3) (x : BitVec 3) (j : BitVec 1) : IWord := BitVec.ofNat 32 (0x98000005 + d.toNat * 2097152 + a.toNat * 65536 + c.toNat * 2048 + m.toNat * 256 + x.toNat * 32 + j.toNat * 16)
/-- The word of VPACK (R111, Table 1-8). -/
def wVpack (d : BitVec 5) (a : BitVec 5) (x : BitVec 3) (j : BitVec 1) : IWord := BitVec.ofNat 32 (0x98000006 + d.toNat * 2097152 + a.toNat * 65536 + x.toNat * 32 + j.toNat * 16)
/-- The word of VUNPK (R111, Table 1-8). -/
def wVunpk (d : BitVec 5) (a : BitVec 5) (j : BitVec 1) : IWord := BitVec.ofNat 32 (0x98000007 + d.toNat * 2097152 + a.toNat * 65536 + j.toNat * 16)
/-- The word of VFCLASS (R112, Table 1-8). -/
def wVfclass (d : BitVec 5) (a : BitVec 5) (m : BitVec 3) (j : BitVec 1) : IWord := BitVec.ofNat 32 (0x98000008 + d.toNat * 2097152 + a.toNat * 65536 + m.toNat * 256 + j.toNat * 16)
/-- The word of VGMB (R113, Table 1-8). -/
def wVgmb (d : BitVec 5) (a : BitVec 5) (m : BitVec 3) (j : BitVec 1) : IWord := BitVec.ofNat 32 (0x98000009 + d.toNat * 2097152 + a.toNat * 65536 + m.toNat * 256 + j.toNat * 16)
/-- The word of VGMB_T (R113, Table 1-8). -/
def wVgmbT (d : BitVec 5) (a : BitVec 5) (b : BitVec 5) (m : BitVec 3) (j : BitVec 1) : IWord := BitVec.ofNat 32 (0x9800000A + d.toNat * 2097152 + a.toNat * 65536 + b.toNat * 2048 + m.toNat * 256 + j.toNat * 16)
/-- The word of VFABS (R112, Table 1-8). -/
def wVfabs (d : BitVec 5) (a : BitVec 5) (m : BitVec 3) (j : BitVec 1) : IWord := BitVec.ofNat 32 (0x9800000B + d.toNat * 2097152 + a.toNat * 65536 + m.toNat * 256 + j.toNat * 16)
/-- The word of VFNEG (R112, Table 1-8). -/
def wVfneg (d : BitVec 5) (a : BitVec 5) (m : BitVec 3) (j : BitVec 1) : IWord := BitVec.ofNat 32 (0x9800000C + d.toNat * 2097152 + a.toNat * 65536 + m.toNat * 256 + j.toNat * 16)
/-- The word of VCEQ_VV (R114, Table 1-8). -/
def wVceqVv (d : BitVec 5) (a : BitVec 5) (b : BitVec 5) (m : BitVec 3) (x : BitVec 3) (j : BitVec 1) : IWord := BitVec.ofNat 32 (0x9C000000 + d.toNat * 2097152 + a.toNat * 65536 + b.toNat * 2048 + m.toNat * 256 + x.toNat * 32 + j.toNat * 16)
/-- The word of VCEQ_VS (R114, Table 1-8). -/
def wVceqVs (d : BitVec 5) (a : BitVec 5) (b : BitVec 5) (m : BitVec 3) (x : BitVec 3) (j : BitVec 1) : IWord := BitVec.ofNat 32 (0xA0000000 + d.toNat * 2097152 + a.toNat * 65536 + b.toNat * 2048 + m.toNat * 256 + x.toNat * 32 + j.toNat * 16)
/-- The word of VCNE_VV (R114, Table 1-8). -/
def wVcneVv (d : BitVec 5) (a : BitVec 5) (b : BitVec 5) (m : BitVec 3) (x : BitVec 3) (j : BitVec 1) : IWord := BitVec.ofNat 32 (0x9C000001 + d.toNat * 2097152 + a.toNat * 65536 + b.toNat * 2048 + m.toNat * 256 + x.toNat * 32 + j.toNat * 16)
/-- The word of VCNE_VS (R114, Table 1-8). -/
def wVcneVs (d : BitVec 5) (a : BitVec 5) (b : BitVec 5) (m : BitVec 3) (x : BitVec 3) (j : BitVec 1) : IWord := BitVec.ofNat 32 (0xA0000001 + d.toNat * 2097152 + a.toNat * 65536 + b.toNat * 2048 + m.toNat * 256 + x.toNat * 32 + j.toNat * 16)
/-- The word of VCLT_VV (R114, Table 1-8). -/
def wVcltVv (d : BitVec 5) (a : BitVec 5) (b : BitVec 5) (m : BitVec 3) (x : BitVec 3) (j : BitVec 1) : IWord := BitVec.ofNat 32 (0x9C000002 + d.toNat * 2097152 + a.toNat * 65536 + b.toNat * 2048 + m.toNat * 256 + x.toNat * 32 + j.toNat * 16)
/-- The word of VCLT_VS (R114, Table 1-8). -/
def wVcltVs (d : BitVec 5) (a : BitVec 5) (b : BitVec 5) (m : BitVec 3) (x : BitVec 3) (j : BitVec 1) : IWord := BitVec.ofNat 32 (0xA0000002 + d.toNat * 2097152 + a.toNat * 65536 + b.toNat * 2048 + m.toNat * 256 + x.toNat * 32 + j.toNat * 16)
/-- The word of VCLE_VV (R114, Table 1-8). -/
def wVcleVv (d : BitVec 5) (a : BitVec 5) (b : BitVec 5) (m : BitVec 3) (x : BitVec 3) (j : BitVec 1) : IWord := BitVec.ofNat 32 (0x9C000003 + d.toNat * 2097152 + a.toNat * 65536 + b.toNat * 2048 + m.toNat * 256 + x.toNat * 32 + j.toNat * 16)
/-- The word of VCLE_VS (R114, Table 1-8). -/
def wVcleVs (d : BitVec 5) (a : BitVec 5) (b : BitVec 5) (m : BitVec 3) (x : BitVec 3) (j : BitVec 1) : IWord := BitVec.ofNat 32 (0xA0000003 + d.toNat * 2097152 + a.toNat * 65536 + b.toNat * 2048 + m.toNat * 256 + x.toNat * 32 + j.toNat * 16)
/-- The word of VCGT_VV (R114, Table 1-8). -/
def wVcgtVv (d : BitVec 5) (a : BitVec 5) (b : BitVec 5) (m : BitVec 3) (x : BitVec 3) (j : BitVec 1) : IWord := BitVec.ofNat 32 (0x9C000004 + d.toNat * 2097152 + a.toNat * 65536 + b.toNat * 2048 + m.toNat * 256 + x.toNat * 32 + j.toNat * 16)
/-- The word of VCGT_VS (R114, Table 1-8). -/
def wVcgtVs (d : BitVec 5) (a : BitVec 5) (b : BitVec 5) (m : BitVec 3) (x : BitVec 3) (j : BitVec 1) : IWord := BitVec.ofNat 32 (0xA0000004 + d.toNat * 2097152 + a.toNat * 65536 + b.toNat * 2048 + m.toNat * 256 + x.toNat * 32 + j.toNat * 16)
/-- The word of VCGE_VV (R114, Table 1-8). -/
def wVcgeVv (d : BitVec 5) (a : BitVec 5) (b : BitVec 5) (m : BitVec 3) (x : BitVec 3) (j : BitVec 1) : IWord := BitVec.ofNat 32 (0x9C000005 + d.toNat * 2097152 + a.toNat * 65536 + b.toNat * 2048 + m.toNat * 256 + x.toNat * 32 + j.toNat * 16)
/-- The word of VCGE_VS (R114, Table 1-8). -/
def wVcgeVs (d : BitVec 5) (a : BitVec 5) (b : BitVec 5) (m : BitVec 3) (x : BitVec 3) (j : BitVec 1) : IWord := BitVec.ofNat 32 (0xA0000005 + d.toNat * 2097152 + a.toNat * 65536 + b.toNat * 2048 + m.toNat * 256 + x.toNat * 32 + j.toNat * 16)
/-- The word of VCLTU_VV (R114, Table 1-8). -/
def wVcltuVv (d : BitVec 5) (a : BitVec 5) (b : BitVec 5) (m : BitVec 3) (x : BitVec 3) (j : BitVec 1) : IWord := BitVec.ofNat 32 (0x9C000006 + d.toNat * 2097152 + a.toNat * 65536 + b.toNat * 2048 + m.toNat * 256 + x.toNat * 32 + j.toNat * 16)
/-- The word of VCLTU_VS (R114, Table 1-8). -/
def wVcltuVs (d : BitVec 5) (a : BitVec 5) (b : BitVec 5) (m : BitVec 3) (x : BitVec 3) (j : BitVec 1) : IWord := BitVec.ofNat 32 (0xA0000006 + d.toNat * 2097152 + a.toNat * 65536 + b.toNat * 2048 + m.toNat * 256 + x.toNat * 32 + j.toNat * 16)
/-- The word of VCLEU_VV (R114, Table 1-8). -/
def wVcleuVv (d : BitVec 5) (a : BitVec 5) (b : BitVec 5) (m : BitVec 3) (x : BitVec 3) (j : BitVec 1) : IWord := BitVec.ofNat 32 (0x9C000007 + d.toNat * 2097152 + a.toNat * 65536 + b.toNat * 2048 + m.toNat * 256 + x.toNat * 32 + j.toNat * 16)
/-- The word of VCLEU_VS (R114, Table 1-8). -/
def wVcleuVs (d : BitVec 5) (a : BitVec 5) (b : BitVec 5) (m : BitVec 3) (x : BitVec 3) (j : BitVec 1) : IWord := BitVec.ofNat 32 (0xA0000007 + d.toNat * 2097152 + a.toNat * 65536 + b.toNat * 2048 + m.toNat * 256 + x.toNat * 32 + j.toNat * 16)
/-- The word of VFCEQ_VV (R114, Table 1-8). -/
def wVfceqVv (d : BitVec 5) (a : BitVec 5) (b : BitVec 5) (m : BitVec 3) (x : BitVec 3) (j : BitVec 1) : IWord := BitVec.ofNat 32 (0x9C000008 + d.toNat * 2097152 + a.toNat * 65536 + b.toNat * 2048 + m.toNat * 256 + x.toNat * 32 + j.toNat * 16)
/-- The word of VFCEQ_VS (R114, Table 1-8). -/
def wVfceqVs (d : BitVec 5) (a : BitVec 5) (b : BitVec 5) (m : BitVec 3) (x : BitVec 3) (j : BitVec 1) : IWord := BitVec.ofNat 32 (0xA0000008 + d.toNat * 2097152 + a.toNat * 65536 + b.toNat * 2048 + m.toNat * 256 + x.toNat * 32 + j.toNat * 16)
/-- The word of VFCLT_VV (R114, Table 1-8). -/
def wVfcltVv (d : BitVec 5) (a : BitVec 5) (b : BitVec 5) (m : BitVec 3) (x : BitVec 3) (j : BitVec 1) : IWord := BitVec.ofNat 32 (0x9C000009 + d.toNat * 2097152 + a.toNat * 65536 + b.toNat * 2048 + m.toNat * 256 + x.toNat * 32 + j.toNat * 16)
/-- The word of VFCLT_VS (R114, Table 1-8). -/
def wVfcltVs (d : BitVec 5) (a : BitVec 5) (b : BitVec 5) (m : BitVec 3) (x : BitVec 3) (j : BitVec 1) : IWord := BitVec.ofNat 32 (0xA0000009 + d.toNat * 2097152 + a.toNat * 65536 + b.toNat * 2048 + m.toNat * 256 + x.toNat * 32 + j.toNat * 16)
/-- The word of VFCLE_VV (R114, Table 1-8). -/
def wVfcleVv (d : BitVec 5) (a : BitVec 5) (b : BitVec 5) (m : BitVec 3) (x : BitVec 3) (j : BitVec 1) : IWord := BitVec.ofNat 32 (0x9C00000A + d.toNat * 2097152 + a.toNat * 65536 + b.toNat * 2048 + m.toNat * 256 + x.toNat * 32 + j.toNat * 16)
/-- The word of VFCLE_VS (R114, Table 1-8). -/
def wVfcleVs (d : BitVec 5) (a : BitVec 5) (b : BitVec 5) (m : BitVec 3) (x : BitVec 3) (j : BitVec 1) : IWord := BitVec.ofNat 32 (0xA000000A + d.toNat * 2097152 + a.toNat * 65536 + b.toNat * 2048 + m.toNat * 256 + x.toNat * 32 + j.toNat * 16)
/-- The word of VFCUN_VV (R114, Table 1-8). -/
def wVfcunVv (d : BitVec 5) (a : BitVec 5) (b : BitVec 5) (m : BitVec 3) (x : BitVec 3) (j : BitVec 1) : IWord := BitVec.ofNat 32 (0x9C00000B + d.toNat * 2097152 + a.toNat * 65536 + b.toNat * 2048 + m.toNat * 256 + x.toNat * 32 + j.toNat * 16)
/-- The word of VFCUN_VS (R114, Table 1-8). -/
def wVfcunVs (d : BitVec 5) (a : BitVec 5) (b : BitVec 5) (m : BitVec 3) (x : BitVec 3) (j : BitVec 1) : IWord := BitVec.ofNat 32 (0xA000000B + d.toNat * 2097152 + a.toNat * 65536 + b.toNat * 2048 + m.toNat * 256 + x.toNat * 32 + j.toNat * 16)
/-- The word of MAND (R115, Table 1-8). -/
def wMand (d : BitVec 5) (a : BitVec 5) (b : BitVec 5) (x : BitVec 3) (j : BitVec 1) : IWord := BitVec.ofNat 32 (0xA4000000 + d.toNat * 2097152 + a.toNat * 65536 + b.toNat * 2048 + x.toNat * 32 + j.toNat * 16)
/-- The word of MOR (R115, Table 1-8). -/
def wMor (d : BitVec 5) (a : BitVec 5) (b : BitVec 5) (x : BitVec 3) (j : BitVec 1) : IWord := BitVec.ofNat 32 (0xA4000001 + d.toNat * 2097152 + a.toNat * 65536 + b.toNat * 2048 + x.toNat * 32 + j.toNat * 16)
/-- The word of MXOR (R115, Table 1-8). -/
def wMxor (d : BitVec 5) (a : BitVec 5) (b : BitVec 5) (x : BitVec 3) (j : BitVec 1) : IWord := BitVec.ofNat 32 (0xA4000002 + d.toNat * 2097152 + a.toNat * 65536 + b.toNat * 2048 + x.toNat * 32 + j.toNat * 16)
/-- The word of MANDN (R115, Table 1-8). -/
def wMandn (d : BitVec 5) (a : BitVec 5) (b : BitVec 5) (x : BitVec 3) (j : BitVec 1) : IWord := BitVec.ofNat 32 (0xA4000003 + d.toNat * 2097152 + a.toNat * 65536 + b.toNat * 2048 + x.toNat * 32 + j.toNat * 16)
/-- The word of MNOT (R115, Table 1-8). -/
def wMnot (d : BitVec 5) (a : BitVec 5) (x : BitVec 3) (j : BitVec 1) : IWord := BitVec.ofNat 32 (0xA4000004 + d.toNat * 2097152 + a.toNat * 65536 + x.toNat * 32 + j.toNat * 16)
/-- The word of MMV (R115, Table 1-8). -/
def wMmv (d : BitVec 5) (a : BitVec 5) (x : BitVec 3) (j : BitVec 1) : IWord := BitVec.ofNat 32 (0xA4000005 + d.toNat * 2097152 + a.toNat * 65536 + x.toNat * 32 + j.toNat * 16)
/-- The word of MPOP (R115, Table 1-8). -/
def wMpop (d : BitVec 5) (a : BitVec 5) (m : BitVec 3) (j : BitVec 1) : IWord := BitVec.ofNat 32 (0xA4000006 + d.toNat * 2097152 + a.toNat * 65536 + m.toNat * 256 + j.toNat * 16)
/-- The word of MFFS (R115, Table 1-8). -/
def wMffs (d : BitVec 5) (a : BitVec 5) (m : BitVec 3) (j : BitVec 1) : IWord := BitVec.ofNat 32 (0xA4000007 + d.toNat * 2097152 + a.toNat * 65536 + m.toNat * 256 + j.toNat * 16)
/-- The word of MSET (R115, Table 1-8). -/
def wMset (d : BitVec 5) (x : BitVec 3) (j : BitVec 1) : IWord := BitVec.ofNat 32 (0xA4000008 + d.toNat * 2097152 + x.toNat * 32 + j.toNat * 16)
/-- The word of MCLR (R115, Table 1-8). -/
def wMclr (d : BitVec 5) (x : BitVec 3) (j : BitVec 1) : IWord := BitVec.ofNat 32 (0xA4000009 + d.toNat * 2097152 + x.toNat * 32 + j.toNat * 16)
/-- The word of MSBF (R115, Table 1-8). -/
def wMsbf (d : BitVec 5) (a : BitVec 5) (m : BitVec 3) (x : BitVec 3) (j : BitVec 1) : IWord := BitVec.ofNat 32 (0xA400000A + d.toNat * 2097152 + a.toNat * 65536 + m.toNat * 256 + x.toNat * 32 + j.toNat * 16)
/-- The word of MTOV (R115, Table 1-8). -/
def wMtov (d : BitVec 5) (a : BitVec 5) (m : BitVec 3) (x : BitVec 3) (j : BitVec 1) : IWord := BitVec.ofNat 32 (0xA400000B + d.toNat * 2097152 + a.toNat * 65536 + m.toNat * 256 + x.toNat * 32 + j.toNat * 16)
/-- The word of VTOM (R115, Table 1-8). -/
def wVtom (d : BitVec 5) (a : BitVec 5) (m : BitVec 3) (x : BitVec 3) (j : BitVec 1) : IWord := BitVec.ofNat 32 (0xA400000C + d.toNat * 2097152 + a.toNat * 65536 + m.toNat * 256 + x.toNat * 32 + j.toNat * 16)
/-- The word of VREDSUM (R116, Table 1-8). -/
def wVredsum (d : BitVec 5) (a : BitVec 5) (b : BitVec 5) (m : BitVec 3) (j : BitVec 1) : IWord := BitVec.ofNat 32 (0xA8000000 + d.toNat * 2097152 + a.toNat * 65536 + b.toNat * 2048 + m.toNat * 256 + j.toNat * 16)
/-- The word of VREDMAX (R116, Table 1-8). -/
def wVredmax (d : BitVec 5) (a : BitVec 5) (b : BitVec 5) (m : BitVec 3) (j : BitVec 1) : IWord := BitVec.ofNat 32 (0xA8000001 + d.toNat * 2097152 + a.toNat * 65536 + b.toNat * 2048 + m.toNat * 256 + j.toNat * 16)
/-- The word of VREDMIN (R116, Table 1-8). -/
def wVredmin (d : BitVec 5) (a : BitVec 5) (b : BitVec 5) (m : BitVec 3) (j : BitVec 1) : IWord := BitVec.ofNat 32 (0xA8000002 + d.toNat * 2097152 + a.toNat * 65536 + b.toNat * 2048 + m.toNat * 256 + j.toNat * 16)
/-- The word of VREDMAXU (R116, Table 1-8). -/
def wVredmaxu (d : BitVec 5) (a : BitVec 5) (b : BitVec 5) (m : BitVec 3) (j : BitVec 1) : IWord := BitVec.ofNat 32 (0xA8000003 + d.toNat * 2097152 + a.toNat * 65536 + b.toNat * 2048 + m.toNat * 256 + j.toNat * 16)
/-- The word of VREDMINU (R116, Table 1-8). -/
def wVredminu (d : BitVec 5) (a : BitVec 5) (b : BitVec 5) (m : BitVec 3) (j : BitVec 1) : IWord := BitVec.ofNat 32 (0xA8000004 + d.toNat * 2097152 + a.toNat * 65536 + b.toNat * 2048 + m.toNat * 256 + j.toNat * 16)
/-- The word of VREDAND (R116, Table 1-8). -/
def wVredand (d : BitVec 5) (a : BitVec 5) (b : BitVec 5) (m : BitVec 3) (j : BitVec 1) : IWord := BitVec.ofNat 32 (0xA8000005 + d.toNat * 2097152 + a.toNat * 65536 + b.toNat * 2048 + m.toNat * 256 + j.toNat * 16)
/-- The word of VREDOR (R116, Table 1-8). -/
def wVredor (d : BitVec 5) (a : BitVec 5) (b : BitVec 5) (m : BitVec 3) (j : BitVec 1) : IWord := BitVec.ofNat 32 (0xA8000006 + d.toNat * 2097152 + a.toNat * 65536 + b.toNat * 2048 + m.toNat * 256 + j.toNat * 16)
/-- The word of VFREDSUM (R58, Table 1-8). -/
def wVfredsum (d : BitVec 5) (a : BitVec 5) (b : BitVec 5) (m : BitVec 3) (j : BitVec 1) : IWord := BitVec.ofNat 32 (0xA8000007 + d.toNat * 2097152 + a.toNat * 65536 + b.toNat * 2048 + m.toNat * 256 + j.toNat * 16)
/-- The word of VFREDMAX (R61, Table 1-8). -/
def wVfredmax (d : BitVec 5) (a : BitVec 5) (b : BitVec 5) (m : BitVec 3) (j : BitVec 1) : IWord := BitVec.ofNat 32 (0xA8000008 + d.toNat * 2097152 + a.toNat * 65536 + b.toNat * 2048 + m.toNat * 256 + j.toNat * 16)
/-- The word of VFREDMIN (R61, Table 1-8). -/
def wVfredmin (d : BitVec 5) (a : BitVec 5) (b : BitVec 5) (m : BitVec 3) (j : BitVec 1) : IWord := BitVec.ofNat 32 (0xA8000009 + d.toNat * 2097152 + a.toNat * 65536 + b.toNat * 2048 + m.toNat * 256 + j.toNat * 16)
/-- The word of VNORM (R60, Table 1-8). -/
def wVnorm (d : BitVec 5) (a : BitVec 5) (b : BitVec 5) (m : BitVec 3) (j : BitVec 1) : IWord := BitVec.ofNat 32 (0xA800000A + d.toNat * 2097152 + a.toNat * 65536 + b.toNat * 2048 + m.toNat * 256 + j.toNat * 16)
/-- The word of VNORMD (R60, Table 1-8). -/
def wVnormd (d : BitVec 5) (a : BitVec 5) (b : BitVec 5) (m : BitVec 3) (j : BitVec 1) : IWord := BitVec.ofNat 32 (0xA800000B + d.toNat * 2097152 + a.toNat * 65536 + b.toNat * 2048 + m.toNat * 256 + j.toNat * 16)
/-- The word of VFDOT (R59, Table 1-8). -/
def wVfdot (d : BitVec 5) (a : BitVec 5) (b : BitVec 5) (m : BitVec 3) (j : BitVec 1) : IWord := BitVec.ofNat 32 (0xA800000C + d.toNat * 2097152 + a.toNat * 65536 + b.toNat * 2048 + m.toNat * 256 + j.toNat * 16)
/-- The word of VSLUP (R117, Table 1-8). -/
def wVslup (d : BitVec 5) (a : BitVec 5) (b : BitVec 5) (m : BitVec 3) (j : BitVec 1) : IWord := BitVec.ofNat 32 (0xAC000000 + d.toNat * 2097152 + a.toNat * 65536 + b.toNat * 2048 + m.toNat * 256 + j.toNat * 16)
/-- The word of VSLDN (R117, Table 1-8). -/
def wVsldn (d : BitVec 5) (a : BitVec 5) (b : BitVec 5) (m : BitVec 3) (j : BitVec 1) : IWord := BitVec.ofNat 32 (0xAC000001 + d.toNat * 2097152 + a.toNat * 65536 + b.toNat * 2048 + m.toNat * 256 + j.toNat * 16)
/-- The word of VPERM (R117, Table 1-8). -/
def wVperm (d : BitVec 5) (a : BitVec 5) (b : BitVec 5) (m : BitVec 3) (j : BitVec 1) : IWord := BitVec.ofNat 32 (0xAC000002 + d.toNat * 2097152 + a.toNat * 65536 + b.toNat * 2048 + m.toNat * 256 + j.toNat * 16)
/-- The word of VCOMP (R117, Table 1-8). -/
def wVcomp (d : BitVec 5) (a : BitVec 5) (m : BitVec 3) (j : BitVec 1) : IWord := BitVec.ofNat 32 (0xAC000003 + d.toNat * 2097152 + a.toNat * 65536 + m.toNat * 256 + j.toNat * 16)
/-- The word of VEXPD (R117, Table 1-8). -/
def wVexpd (d : BitVec 5) (a : BitVec 5) (m : BitVec 3) (j : BitVec 1) : IWord := BitVec.ofNat 32 (0xAC000004 + d.toNat * 2097152 + a.toNat * 65536 + m.toNat * 256 + j.toNat * 16)
/-- The word of VBCS (R117, Table 1-8). -/
def wVbcs (d : BitVec 5) (b : BitVec 5) (m : BitVec 3) (j : BitVec 1) : IWord := BitVec.ofNat 32 (0xAC000005 + d.toNat * 2097152 + b.toNat * 2048 + m.toNat * 256 + j.toNat * 16)
/-- The word of VEXT (R117, Table 1-8). -/
def wVext (d : BitVec 5) (a : BitVec 5) (b : BitVec 5) (j : BitVec 1) : IWord := BitVec.ofNat 32 (0xAC000006 + d.toNat * 2097152 + a.toNat * 65536 + b.toNat * 2048 + j.toNat * 16)
/-- The word of VINS (R117, Table 1-8). -/
def wVins (d : BitVec 5) (a : BitVec 5) (b : BitVec 5) (j : BitVec 1) : IWord := BitVec.ofNat 32 (0xAC000007 + d.toNat * 2097152 + a.toNat * 65536 + b.toNat * 2048 + j.toNat * 16)
/-- The word of VID (R117, Table 1-8). -/
def wVid (d : BitVec 5) (m : BitVec 3) (j : BitVec 1) : IWord := BitVec.ofNat 32 (0xAC000008 + d.toNat * 2097152 + m.toNat * 256 + j.toNat * 16)
/-- The word of VIOTA (R117, Table 1-8). -/
def wViota (d : BitVec 5) (a : BitVec 5) (m : BitVec 3) (j : BitVec 1) : IWord := BitVec.ofNat 32 (0xAC000009 + d.toNat * 2097152 + a.toNat * 65536 + m.toNat * 256 + j.toNat * 16)
/-- The word of VREV (R117, Table 1-8). -/
def wVrev (d : BitVec 5) (a : BitVec 5) (m : BitVec 3) (j : BitVec 1) : IWord := BitVec.ofNat 32 (0xAC00000A + d.toNat * 2097152 + a.toNat * 65536 + m.toNat * 256 + j.toNat * 16)
/-- The word of VTOPK (R118, Table 1-8). -/
def wVtopk (d : BitVec 5) (a : BitVec 5) (b : BitVec 5) (m : BitVec 3) (j : BitVec 1) : IWord := BitVec.ofNat 32 (0xAC00000B + d.toNat * 2097152 + a.toNat * 65536 + b.toNat * 2048 + m.toNat * 256 + j.toNat * 16)
/-- The word of VZIP (R117, Table 1-8). -/
def wVzip (d : BitVec 5) (a : BitVec 5) (b : BitVec 5) (m : BitVec 3) (j : BitVec 1) : IWord := BitVec.ofNat 32 (0xAC00000C + d.toNat * 2097152 + a.toNat * 65536 + b.toNat * 2048 + m.toNat * 256 + j.toNat * 16)
/-- The word of VUZP (R117, Table 1-8). -/
def wVuzp (d : BitVec 5) (a : BitVec 5) (b : BitVec 5) (m : BitVec 3) (j : BitVec 1) : IWord := BitVec.ofNat 32 (0xAC00000D + d.toNat * 2097152 + a.toNat * 65536 + b.toNat * 2048 + m.toNat * 256 + j.toNat * 16)
/-- The word of VLD (R122, Table 1-8). -/
def wVld (d : BitVec 5) (a : BitVec 5) (m : BitVec 3) (j : BitVec 1) : IWord := BitVec.ofNat 32 (0xB0000000 + d.toNat * 2097152 + a.toNat * 65536 + m.toNat * 256 + j.toNat * 16)
/-- The word of VLDS (R122, Table 1-8). -/
def wVlds (d : BitVec 5) (a : BitVec 5) (b : BitVec 5) (m : BitVec 3) (j : BitVec 1) : IWord := BitVec.ofNat 32 (0xB0000020 + d.toNat * 2097152 + a.toNat * 65536 + b.toNat * 2048 + m.toNat * 256 + j.toNat * 16)
/-- The word of VLDX (R122, Table 1-8). -/
def wVldx (d : BitVec 5) (a : BitVec 5) (b : BitVec 5) (m : BitVec 3) (j : BitVec 1) (w : BitVec 4) : IWord := BitVec.ofNat 32 (0xB0000040 + d.toNat * 2097152 + a.toNat * 65536 + b.toNat * 2048 + m.toNat * 256 + j.toNat * 16 + w.toNat)
/-- The word of VLD_FF (R124, Table 1-8). -/
def wVldFf (d : BitVec 5) (a : BitVec 5) (m : BitVec 3) (j : BitVec 1) : IWord := BitVec.ofNat 32 (0xB0000060 + d.toNat * 2097152 + a.toNat * 65536 + m.toNat * 256 + j.toNat * 16)
/-- The word of VLDW (R122, Table 1-8). -/
def wVldw (d : BitVec 5) (a : BitVec 5) (j : BitVec 1) : IWord := BitVec.ofNat 32 (0xB0000080 + d.toNat * 2097152 + a.toNat * 65536 + j.toNat * 16)
/-- The word of VST (R126, Table 1-8). -/
def wVst (v : BitVec 5) (a : BitVec 5) (m : BitVec 3) (j : BitVec 1) : IWord := BitVec.ofNat 32 (0xB4000000 + v.toNat * 2097152 + a.toNat * 65536 + m.toNat * 256 + j.toNat * 16)
/-- The word of VSTS (R126, Table 1-8). -/
def wVsts (v : BitVec 5) (a : BitVec 5) (b : BitVec 5) (m : BitVec 3) (j : BitVec 1) : IWord := BitVec.ofNat 32 (0xB4000020 + v.toNat * 2097152 + a.toNat * 65536 + b.toNat * 2048 + m.toNat * 256 + j.toNat * 16)
/-- The word of VSTX (R126, Table 1-8). -/
def wVstx (v : BitVec 5) (a : BitVec 5) (b : BitVec 5) (m : BitVec 3) (j : BitVec 1) (w : BitVec 4) : IWord := BitVec.ofNat 32 (0xB4000040 + v.toNat * 2097152 + a.toNat * 65536 + b.toNat * 2048 + m.toNat * 256 + j.toNat * 16 + w.toNat)
/-- The word of VSTW (R126, Table 1-8). -/
def wVstw (v : BitVec 5) (a : BitVec 5) (j : BitVec 1) : IWord := BitVec.ofNat 32 (0xB4000080 + v.toNat * 2097152 + a.toNat * 65536 + j.toNat * 16)
/-- The word of VAMO_ADD (R128, Table 1-8). -/
def wVamoAdd (v : BitVec 5) (a : BitVec 5) (b : BitVec 5) (m : BitVec 3) (o : BitVec 3) (j : BitVec 1) : IWord := BitVec.ofNat 32 (0xB8000000 + v.toNat * 2097152 + a.toNat * 65536 + b.toNat * 2048 + m.toNat * 256 + o.toNat * 32 + j.toNat * 16)
/-- The word of VAMO_MIN (R128, Table 1-8). -/
def wVamoMin (v : BitVec 5) (a : BitVec 5) (b : BitVec 5) (m : BitVec 3) (o : BitVec 3) (j : BitVec 1) : IWord := BitVec.ofNat 32 (0xB8000001 + v.toNat * 2097152 + a.toNat * 65536 + b.toNat * 2048 + m.toNat * 256 + o.toNat * 32 + j.toNat * 16)
/-- The word of VAMO_MAX (R128, Table 1-8). -/
def wVamoMax (v : BitVec 5) (a : BitVec 5) (b : BitVec 5) (m : BitVec 3) (o : BitVec 3) (j : BitVec 1) : IWord := BitVec.ofNat 32 (0xB8000002 + v.toNat * 2097152 + a.toNat * 65536 + b.toNat * 2048 + m.toNat * 256 + o.toNat * 32 + j.toNat * 16)
/-- The word of VAMO_AND (R128, Table 1-8). -/
def wVamoAnd (v : BitVec 5) (a : BitVec 5) (b : BitVec 5) (m : BitVec 3) (o : BitVec 3) (j : BitVec 1) : IWord := BitVec.ofNat 32 (0xB8000003 + v.toNat * 2097152 + a.toNat * 65536 + b.toNat * 2048 + m.toNat * 256 + o.toNat * 32 + j.toNat * 16)
/-- The word of VAMO_OR (R128, Table 1-8). -/
def wVamoOr (v : BitVec 5) (a : BitVec 5) (b : BitVec 5) (m : BitVec 3) (o : BitVec 3) (j : BitVec 1) : IWord := BitVec.ofNat 32 (0xB8000004 + v.toNat * 2097152 + a.toNat * 65536 + b.toNat * 2048 + m.toNat * 256 + o.toNat * 32 + j.toNat * 16)
/-- The word of VAMO_XOR (R128, Table 1-8). -/
def wVamoXor (v : BitVec 5) (a : BitVec 5) (b : BitVec 5) (m : BitVec 3) (o : BitVec 3) (j : BitVec 1) : IWord := BitVec.ofNat 32 (0xB8000005 + v.toNat * 2097152 + a.toNat * 65536 + b.toNat * 2048 + m.toNat * 256 + o.toNat * 32 + j.toNat * 16)
/-- The word of VAMO_SWP (R128, Table 1-8). -/
def wVamoSwp (v : BitVec 5) (a : BitVec 5) (b : BitVec 5) (m : BitVec 3) (o : BitVec 3) (j : BitVec 1) : IWord := BitVec.ofNat 32 (0xB8000006 + v.toNat * 2097152 + a.toNat * 65536 + b.toNat * 2048 + m.toNat * 256 + o.toNat * 32 + j.toNat * 16)
/-- The word of VAMO_FADD (R128, Table 1-8). -/
def wVamoFadd (v : BitVec 5) (a : BitVec 5) (b : BitVec 5) (m : BitVec 3) (o : BitVec 3) (j : BitVec 1) : IWord := BitVec.ofNat 32 (0xB8000007 + v.toNat * 2097152 + a.toNat * 65536 + b.toNat * 2048 + m.toNat * 256 + o.toNat * 32 + j.toNat * 16)
/-- The word of VAMO_FMAX (R128, Table 1-8). -/
def wVamoFmax (v : BitVec 5) (a : BitVec 5) (b : BitVec 5) (m : BitVec 3) (o : BitVec 3) (j : BitVec 1) : IWord := BitVec.ofNat 32 (0xB8000008 + v.toNat * 2097152 + a.toNat * 65536 + b.toNat * 2048 + m.toNat * 256 + o.toNat * 32 + j.toNat * 16)
/-- The word of VLLS (R167, Table 1-8). -/
def wVlls (d : BitVec 5) (a : BitVec 5) (m : BitVec 3) (j : BitVec 1) : IWord := BitVec.ofNat 32 (0xBC000000 + d.toNat * 2097152 + a.toNat * 65536 + m.toNat * 256 + j.toNat * 16)
/-- The word of VSLS (R167, Table 1-8). -/
def wVsls (v : BitVec 5) (a : BitVec 5) (m : BitVec 3) (j : BitVec 1) : IWord := BitVec.ofNat 32 (0xBC000001 + v.toNat * 2097152 + a.toNat * 65536 + m.toNat * 256 + j.toNat * 16)
/-- The word of VXLT (R233, Table 1-8). -/
def wVxlt (d : BitVec 5) (a : BitVec 5) (b : BitVec 5) (m : BitVec 3) (j : BitVec 1) : IWord := BitVec.ofNat 32 (0xBC000002 + d.toNat * 2097152 + a.toNat * 65536 + b.toNat * 2048 + m.toNat * 256 + j.toNat * 16)
/-- The word of VXLT_FF (R233, Table 1-8). -/
def wVxltFf (d : BitVec 5) (a : BitVec 5) (b : BitVec 5) (m : BitVec 3) (j : BitVec 1) : IWord := BitVec.ofNat 32 (0xBC000003 + d.toNat * 2097152 + a.toNat * 65536 + b.toNat * 2048 + m.toNat * 256 + j.toNat * 16)
/-- The word of QBIND (R212, Table 1-8). -/
def wQbind (n : BitVec 5) (a : BitVec 5) (j : BitVec 1) : IWord := BitVec.ofNat 32 (0xC0000000 + n.toNat * 2097152 + a.toNat * 65536 + j.toNat * 16)
/-- The word of QFREE (R212, Table 1-8). -/
def wQfree (n : BitVec 5) (j : BitVec 1) : IWord := BitVec.ofNat 32 (0xC0000001 + n.toNat * 2097152 + j.toNat * 16)
/-- The word of QSTAT (R212, Table 1-8). -/
def wQstat (d : BitVec 5) (n : BitVec 5) (j : BitVec 1) : IWord := BitVec.ofNat 32 (0xC0000002 + d.toNat * 2097152 + n.toNat * 65536 + j.toNat * 16)
/-- The word of VCOPY (R206, Table 1-8). -/
def wVcopy (d : BitVec 5) (a : BitVec 5) (m : BitVec 3) (j : BitVec 1) : IWord := BitVec.ofNat 32 (0xC0000003 + d.toNat * 2097152 + a.toNat * 65536 + m.toNat * 256 + j.toNat * 16)
/-- The word of VCOPY_FF (R207, Table 1-8). -/
def wVcopyFf (d : BitVec 5) (a : BitVec 5) (m : BitVec 3) (j : BitVec 1) : IWord := BitVec.ofNat 32 (0xC0000004 + d.toNat * 2097152 + a.toNat * 65536 + m.toNat * 256 + j.toNat * 16)
/-- The word of VCOPY_B (R208, Table 1-8). -/
def wVcopyB (d : BitVec 5) (a : BitVec 5) (m : BitVec 3) (j : BitVec 1) : IWord := BitVec.ofNat 32 (0xC0000005 + d.toNat * 2097152 + a.toNat * 65536 + m.toNat * 256 + j.toNat * 16)
/-- The word of RSET (R253, Table 1-8). -/
def wRset (h : BitVec 5) (a : BitVec 5) (j : BitVec 1) : IWord := BitVec.ofNat 32 (0xC4000000 + h.toNat * 65536 + a.toNat * 2048 + j.toNat * 16)
/-- The word of RPOST (R254, Table 1-8). -/
def wRpost (v : BitVec 5) (h : BitVec 5) (i : BitVec 5) (m : BitVec 3) (j : BitVec 1) : IWord := BitVec.ofNat 32 (0xC4000001 + v.toNat * 2097152 + h.toNat * 65536 + i.toNat * 2048 + m.toNat * 256 + j.toNat * 16)
/-- The word of RBOUND (R255, Table 1-8). -/
def wRbound (d : BitVec 5) (h : BitVec 5) (j : BitVec 1) : IWord := BitVec.ofNat 32 (0xC4000002 + d.toNat * 2097152 + h.toNat * 65536 + j.toNat * 16)
/-- The word of RLEAVE (R256, Table 1-8). -/
def wRleave (d : BitVec 5) (h : BitVec 5) (b : BitVec 5) (j : BitVec 1) : IWord := BitVec.ofNat 32 (0xC4000003 + d.toNat * 2097152 + h.toNat * 65536 + b.toNat * 2048 + j.toNat * 16)
/-- The word of RWIN (R257, Table 1-8). -/
def wRwin (d : BitVec 5) (h : BitVec 5) (b : BitVec 5) (j : BitVec 1) : IWord := BitVec.ofNat 32 (0xC4000004 + d.toNat * 2097152 + h.toNat * 65536 + b.toNat * 2048 + j.toNat * 16)
/-- The word of RSTAT (R258, Table 1-8). -/
def wRstat (d : BitVec 5) (h : BitVec 5) (j : BitVec 1) : IWord := BitVec.ofNat 32 (0xC4000005 + d.toNat * 2097152 + h.toNat * 65536 + j.toNat * 16)
/-- The word of CHSET (R269, Table 1-8). -/
def wChset (d : BitVec 5) (h : BitVec 5) (b : BitVec 5) (j : BitVec 1) : IWord := BitVec.ofNat 32 (0xC8000000 + d.toNat * 2097152 + h.toNat * 65536 + b.toNat * 2048 + j.toNat * 16)
/-- The word of CHCOUNT (R270, Table 1-8). -/
def wChcount (d : BitVec 5) (h : BitVec 5) (b : BitVec 5) (j : BitVec 1) : IWord := BitVec.ofNat 32 (0xC8000001 + d.toNat * 2097152 + h.toNat * 65536 + b.toNat * 2048 + j.toNat * 16)
/-- The word of CHPLACE (R271, Table 1-8). -/
def wChplace (d : BitVec 5) (h : BitVec 5) (j : BitVec 1) : IWord := BitVec.ofNat 32 (0xC8000002 + d.toNat * 2097152 + h.toNat * 65536 + j.toNat * 16)
/-- The word of CHSEND (R272, Table 1-8). -/
def wChsend (d : BitVec 5) (h : BitVec 5) (b : BitVec 5) (j : BitVec 1) : IWord := BitVec.ofNat 32 (0xC8000003 + d.toNat * 2097152 + h.toNat * 65536 + b.toNat * 2048 + j.toNat * 16)
/-- The word of CHDONE (R276, Table 1-8). -/
def wChdone (d : BitVec 5) (h : BitVec 5) (j : BitVec 1) : IWord := BitVec.ofNat 32 (0xC8000004 + d.toNat * 2097152 + h.toNat * 65536 + j.toNat * 16)
/-- The word of CHSTAT (R277, Table 1-8). -/
def wChstat (d : BitVec 5) (h : BitVec 5) (j : BitVec 1) : IWord := BitVec.ofNat 32 (0xC8000005 + d.toNat * 2097152 + h.toNat * 65536 + j.toNat * 16)
/-- The word of PLD (R314, Table 1-8). -/
def wPld (d : BitVec 5) (a : BitVec 5) (k : BitVec 4) (z : BitVec 3) : IWord := BitVec.ofNat 32 (0xCC000000 + d.toNat * 2097152 + a.toNat * 65536 + k.toNat * 128 + z.toNat * 16)
/-- The word of PST (R314, Table 1-8). -/
def wPst (v : BitVec 5) (a : BitVec 5) (k : BitVec 4) (z : BitVec 3) : IWord := BitVec.ofNat 32 (0xCC000001 + v.toNat * 2097152 + a.toNat * 65536 + k.toNat * 128 + z.toNat * 16)
/-- The word of PAMO_SWP (R314, Table 1-8). -/
def wPamoSwp (d : BitVec 5) (a : BitVec 5) (b : BitVec 5) (k : BitVec 4) (z : BitVec 3) : IWord := BitVec.ofNat 32 (0xCC000002 + d.toNat * 2097152 + a.toNat * 65536 + b.toNat * 2048 + k.toNat * 128 + z.toNat * 16)
/-- The word of PAMO_ADD (R314, Table 1-8). -/
def wPamoAdd (d : BitVec 5) (a : BitVec 5) (b : BitVec 5) (k : BitVec 4) (z : BitVec 3) : IWord := BitVec.ofNat 32 (0xCC000003 + d.toNat * 2097152 + a.toNat * 65536 + b.toNat * 2048 + k.toNat * 128 + z.toNat * 16)
/-- The word of PAMO_AND (R314, Table 1-8). -/
def wPamoAnd (d : BitVec 5) (a : BitVec 5) (b : BitVec 5) (k : BitVec 4) (z : BitVec 3) : IWord := BitVec.ofNat 32 (0xCC000004 + d.toNat * 2097152 + a.toNat * 65536 + b.toNat * 2048 + k.toNat * 128 + z.toNat * 16)
/-- The word of PAMO_OR (R314, Table 1-8). -/
def wPamoOr (d : BitVec 5) (a : BitVec 5) (b : BitVec 5) (k : BitVec 4) (z : BitVec 3) : IWord := BitVec.ofNat 32 (0xCC000005 + d.toNat * 2097152 + a.toNat * 65536 + b.toNat * 2048 + k.toNat * 128 + z.toNat * 16)
/-- The word of PAMO_XOR (R314, Table 1-8). -/
def wPamoXor (d : BitVec 5) (a : BitVec 5) (b : BitVec 5) (k : BitVec 4) (z : BitVec 3) : IWord := BitVec.ofNat 32 (0xCC000006 + d.toNat * 2097152 + a.toNat * 65536 + b.toNat * 2048 + k.toNat * 128 + z.toNat * 16)
/-- The word of PAMO_MIN (R314, Table 1-8). -/
def wPamoMin (d : BitVec 5) (a : BitVec 5) (b : BitVec 5) (k : BitVec 4) (z : BitVec 3) : IWord := BitVec.ofNat 32 (0xCC000007 + d.toNat * 2097152 + a.toNat * 65536 + b.toNat * 2048 + k.toNat * 128 + z.toNat * 16)
/-- The word of PAMO_MAX (R314, Table 1-8). -/
def wPamoMax (d : BitVec 5) (a : BitVec 5) (b : BitVec 5) (k : BitVec 4) (z : BitVec 3) : IWord := BitVec.ofNat 32 (0xCC000008 + d.toNat * 2097152 + a.toNat * 65536 + b.toNat * 2048 + k.toNat * 128 + z.toNat * 16)
/-- The word of PAMO_MINU (R314, Table 1-8). -/
def wPamoMinu (d : BitVec 5) (a : BitVec 5) (b : BitVec 5) (k : BitVec 4) (z : BitVec 3) : IWord := BitVec.ofNat 32 (0xCC000009 + d.toNat * 2097152 + a.toNat * 65536 + b.toNat * 2048 + k.toNat * 128 + z.toNat * 16)
/-- The word of PAMO_MAXU (R314, Table 1-8). -/
def wPamoMaxu (d : BitVec 5) (a : BitVec 5) (b : BitVec 5) (k : BitVec 4) (z : BitVec 3) : IWord := BitVec.ofNat 32 (0xCC00000A + d.toNat * 2097152 + a.toNat * 65536 + b.toNat * 2048 + k.toNat * 128 + z.toNat * 16)
/-- The word of PAMO_CAS (R314, Table 1-8). -/
def wPamoCas (d : BitVec 5) (a : BitVec 5) (b : BitVec 5) (k : BitVec 4) (z : BitVec 3) : IWord := BitVec.ofNat 32 (0xCC00000B + d.toNat * 2097152 + a.toNat * 65536 + b.toNat * 2048 + k.toNat * 128 + z.toNat * 16)
/-- The word of PVLD (R316, Table 1-8). -/
def wPvld (d : BitVec 5) (a : BitVec 5) (m : BitVec 3) (j : BitVec 1) (k : BitVec 4) : IWord := BitVec.ofNat 32 (0xD0000000 + d.toNat * 2097152 + a.toNat * 65536 + m.toNat * 256 + j.toNat * 16 + k.toNat)
/-- The word of PVLDX (R316, Table 1-8). -/
def wPvldx (d : BitVec 5) (a : BitVec 5) (b : BitVec 5) (m : BitVec 3) (j : BitVec 1) (k : BitVec 4) : IWord := BitVec.ofNat 32 (0xD0000020 + d.toNat * 2097152 + a.toNat * 65536 + b.toNat * 2048 + m.toNat * 256 + j.toNat * 16 + k.toNat)
/-- The word of PVST (R316, Table 1-8). -/
def wPvst (v : BitVec 5) (a : BitVec 5) (m : BitVec 3) (j : BitVec 1) (k : BitVec 4) : IWord := BitVec.ofNat 32 (0xD0000040 + v.toNat * 2097152 + a.toNat * 65536 + m.toNat * 256 + j.toNat * 16 + k.toNat)
/-- The word of PVSTX (R316, Table 1-8). -/
def wPvstx (v : BitVec 5) (a : BitVec 5) (b : BitVec 5) (m : BitVec 3) (j : BitVec 1) (k : BitVec 4) : IWord := BitVec.ofNat 32 (0xD0000060 + v.toNat * 2097152 + a.toNat * 65536 + b.toNat * 2048 + m.toNat * 256 + j.toNat * 16 + k.toNat)
/-- The word of PVAMO_ADD (R317, Table 1-8). -/
def wPvamoAdd (v : BitVec 5) (a : BitVec 5) (b : BitVec 5) (m : BitVec 3) (j : BitVec 1) (k : BitVec 4) : IWord := BitVec.ofNat 32 (0xD0000080 + v.toNat * 2097152 + a.toNat * 65536 + b.toNat * 2048 + m.toNat * 256 + j.toNat * 16 + k.toNat)
/-- The word of QBIND_F (R351, Table 1-8). -/
def wQbindF (n : BitVec 5) (a : BitVec 5) (j : BitVec 1) (k : BitVec 4) : IWord := BitVec.ofNat 32 (0xD00000A0 + n.toNat * 2097152 + a.toNat * 65536 + j.toNat * 16 + k.toNat)
/-- The word of VCSUM (R345, Table 1-8). -/
def wVcsum (d : BitVec 5) (a : BitVec 5) (n : BitVec 2) (j : BitVec 1) : IWord := BitVec.ofNat 32 (0xD4000000 + d.toNat * 2097152 + a.toNat * 65536 + n.toNat * 2048 + j.toNat * 16)
/-- The word of VCMAX (R345, Table 1-8). -/
def wVcmax (d : BitVec 5) (a : BitVec 5) (n : BitVec 2) (j : BitVec 1) : IWord := BitVec.ofNat 32 (0xD4000001 + d.toNat * 2097152 + a.toNat * 65536 + n.toNat * 2048 + j.toNat * 16)
/-- The word of VCMIN (R345, Table 1-8). -/
def wVcmin (d : BitVec 5) (a : BitVec 5) (n : BitVec 2) (j : BitVec 1) : IWord := BitVec.ofNat 32 (0xD4000002 + d.toNat * 2097152 + a.toNat * 65536 + n.toNat * 2048 + j.toNat * 16)
/-- The word of VCGAT (R345, Table 1-8). -/
def wVcgat (d : BitVec 5) (a : BitVec 5) (n : BitVec 2) (j : BitVec 1) : IWord := BitVec.ofNat 32 (0xD4000003 + d.toNat * 2097152 + a.toNat * 65536 + n.toNat * 2048 + j.toNat * 16)
/-- The word of VCSCT (R345, Table 1-8). -/
def wVcsct (d : BitVec 5) (a : BitVec 5) (n : BitVec 2) (j : BitVec 1) : IWord := BitVec.ofNat 32 (0xD4000004 + d.toNat * 2097152 + a.toNat * 65536 + n.toNat * 2048 + j.toNat * 16)
/-- The word of VCBC (R345, Table 1-8). -/
def wVcbc (d : BitVec 5) (a : BitVec 5) (n : BitVec 2) (j : BitVec 1) : IWord := BitVec.ofNat 32 (0xD4000005 + d.toNat * 2097152 + a.toNat * 65536 + n.toNat * 2048 + j.toNat * 16)
/-- The word of VCSCAN (R345, Table 1-8). -/
def wVcscan (d : BitVec 5) (a : BitVec 5) (n : BitVec 2) (j : BitVec 1) : IWord := BitVec.ofNat 32 (0xD4000006 + d.toNat * 2097152 + a.toNat * 65536 + n.toNat * 2048 + j.toNat * 16)
/-- The word of GABORT (R348, Table 1-8). -/
def wGabort (n : BitVec 2) (j : BitVec 1) : IWord := BitVec.ofNat 32 (0xD4000007 + n.toNat * 2048 + j.toNat * 16)
/-- The word of GSTAT (R349, Table 1-8). -/
def wGstat (d : BitVec 5) (n : BitVec 2) (j : BitVec 1) : IWord := BitVec.ofNat 32 (0xD4000008 + d.toNat * 2097152 + n.toNat * 2048 + j.toNat * 16)
/-- The word of TKWAIT (R333, Table 1-8). -/
def wTkwait (d : BitVec 5) (a : BitVec 5) (j : BitVec 1) : IWord := BitVec.ofNat 32 (0xD4000009 + d.toNat * 2097152 + a.toNat * 65536 + j.toNat * 16)
/-- The word of TKPOLL (R333, Table 1-8). -/
def wTkpoll (d : BitVec 5) (j : BitVec 1) : IWord := BitVec.ofNat 32 (0xD400000A + d.toNat * 2097152 + j.toNat * 16)
/-- The word of VSAVE (R146, Table 1-8). -/
def wVsave (a : BitVec 5) : IWord := BitVec.ofNat 32 (0xD8000000 + a.toNat * 65536)
/-- The word of VREST (R146, Table 1-8). -/
def wVrest (a : BitVec 5) : IWord := BitVec.ofNat 32 (0xD8000001 + a.toNat * 65536)
/-- The word of BROLE (R164, Table 1-8). -/
def wBrole (a : BitVec 5) : IWord := BitVec.ofNat 32 (0xD8000002 + a.toNat * 65536)
/-- The prefix word of TCFG (Tables 1-4, 1-6). -/
def wTcfg (t : BitVec 3) (fc : BitVec 3) : IWord := BitVec.ofNat 32 (0xFC000000 + t.toNat * 262144 + fc.toNat * 512)
/-- The body word of TCFG (Tables 1-4, 1-6). -/
def bTcfg (sa : BitVec 5) (j : BitVec 1) : IWord := BitVec.ofNat 32 (0xF8000000 + sa.toNat * 2048 + j.toNat * 16)
/-- The prefix word of TZERO (Tables 1-4, 1-6). -/
def wTzero (t : BitVec 3) : IWord := BitVec.ofNat 32 (0xFC200000 + t.toNat * 262144)
/-- The body word of TZERO (Tables 1-4, 1-6). -/
def bTzero (j : BitVec 1) : IWord := BitVec.ofNat 32 (0xF8000000 + j.toNat * 16)
/-- The prefix word of VOPA (Tables 1-4, 1-6). -/
def wVopa (t : BitVec 3) (fa : BitVec 3) (fb : BitVec 3) (sm : BitVec 2) : IWord := BitVec.ofNat 32 (0xFC400000 + t.toNat * 262144 + fa.toNat * 32768 + fb.toNat * 4096 + sm.toNat * 128)
/-- The body word of VOPA (Tables 1-4, 1-6). -/
def bVopa (a : BitVec 5) (b : BitVec 5) (j : BitVec 1) : IWord := BitVec.ofNat 32 (0xF8000000 + a.toNat * 2097152 + b.toNat * 65536 + j.toNat * 16)
/-- The prefix word of TLD (Tables 1-4, 1-6). -/
def wTld (t : BitVec 3) (fc : BitVec 3) (r : BitVec 7) : IWord := BitVec.ofNat 32 (0xFC600000 + t.toNat * 262144 + fc.toNat * 512 + r.toNat)
/-- The body word of TLD (Tables 1-4, 1-6). -/
def bTld (sa : BitVec 5) (j : BitVec 1) : IWord := BitVec.ofNat 32 (0xF8000000 + sa.toNat * 2048 + j.toNat * 16)
/-- The prefix word of TST (Tables 1-4, 1-6). -/
def wTst (t : BitVec 3) (fc : BitVec 3) (r : BitVec 7) : IWord := BitVec.ofNat 32 (0xFC800000 + t.toNat * 262144 + fc.toNat * 512 + r.toNat)
/-- The body word of TST (Tables 1-4, 1-6). -/
def bTst (sa : BitVec 5) (j : BitVec 1) : IWord := BitVec.ofNat 32 (0xF8000000 + sa.toNat * 2048 + j.toNat * 16)
/-- The prefix word of TROW (Tables 1-4, 1-6). -/
def wTrow (t : BitVec 3) (r : BitVec 7) : IWord := BitVec.ofNat 32 (0xFCA00000 + t.toNat * 262144 + r.toNat)
/-- The body word of TROW (Tables 1-4, 1-6). -/
def bTrow (d : BitVec 5) (j : BitVec 1) : IWord := BitVec.ofNat 32 (0xF8000000 + d.toNat * 2097152 + j.toNat * 16)
/-- The prefix word of TEPI (Tables 1-4, 1-6). -/
def wTepi (t : BitVec 3) (fc : BitVec 3) (sm : BitVec 2) (r : BitVec 7) : IWord := BitVec.ofNat 32 (0xFCC00000 + t.toNat * 262144 + fc.toNat * 512 + sm.toNat * 128 + r.toNat)
/-- The body word of TEPI (Tables 1-4, 1-6). -/
def bTepi (sa : BitVec 5) (j : BitVec 1) : IWord := BitVec.ofNat 32 (0xF8000000 + sa.toNat * 2048 + j.toNat * 16)
/-- The prefix word of GMM (Tables 1-4, 1-6). -/
def wGmm (t : BitVec 3) : IWord := BitVec.ofNat 32 (0xFCE00000 + t.toNat * 262144)
/-- The body word of GMM (Tables 1-4, 1-6). -/
def bGmm (b : BitVec 5) (sa : BitVec 5) (j : BitVec 1) : IWord := BitVec.ofNat 32 (0xF8000000 + b.toNat * 65536 + sa.toNat * 2048 + j.toNat * 16)
/-- The prefix word of GMM_E (Tables 1-4, 1-6). -/
def wGmmE (t : BitVec 3) : IWord := BitVec.ofNat 32 (0xFCE00001 + t.toNat * 262144)
/-- The body word of GMM_E (Tables 1-4, 1-6). -/
def bGmmE (b : BitVec 5) (sa : BitVec 5) (j : BitVec 1) : IWord := BitVec.ofNat 32 (0xF8000000 + b.toNat * 65536 + sa.toNat * 2048 + j.toNat * 16)
/-- The prefix word of CLOAD (Tables 1-4, 1-6). -/
def wCload (t : BitVec 3) (fc : BitVec 3) : IWord := BitVec.ofNat 32 (0xFD000000 + t.toNat * 262144 + fc.toNat * 512)
/-- The body word of CLOAD (Tables 1-4, 1-6). -/
def bCload (sa : BitVec 5) (j : BitVec 1) : IWord := BitVec.ofNat 32 (0xF8000000 + sa.toNat * 2048 + j.toNat * 16)
/-- The prefix word of CTEST (Tables 1-4, 1-6). -/
def wCtest (t : BitVec 3) (fc : BitVec 3) : IWord := BitVec.ofNat 32 (0xFD200000 + t.toNat * 262144 + fc.toNat * 512)
/-- The body word of CTEST (Tables 1-4, 1-6). -/
def bCtest (d : BitVec 5) (a : BitVec 5) (m : BitVec 3) (x : BitVec 3) (j : BitVec 1) : IWord := BitVec.ofNat 32 (0xF8000000 + d.toNat * 2097152 + a.toNat * 65536 + m.toNat * 256 + x.toNat * 32 + j.toNat * 16)
/-- The prefix word of CLEAF (Tables 1-4, 1-6). -/
def wCleaf : IWord := BitVec.ofNat 32 (0xFD400000)
/-- The body word of CLEAF (Tables 1-4, 1-6). -/
def bCleaf (d : BitVec 5) (a : BitVec 5) (sa : BitVec 5) (m : BitVec 3) (j : BitVec 1) : IWord := BitVec.ofNat 32 (0xF8000000 + d.toNat * 2097152 + a.toNat * 65536 + sa.toNat * 2048 + m.toNat * 256 + j.toNat * 16)
/-- The prefix word of CTEST_C (Tables 1-4, 1-6). -/
def wCtestC (t : BitVec 3) (fc : BitVec 3) : IWord := BitVec.ofNat 32 (0xFD600000 + t.toNat * 262144 + fc.toNat * 512)
/-- The body word of CTEST_C (Tables 1-4, 1-6). -/
def bCtestC (d : BitVec 5) (a : BitVec 5) (m : BitVec 3) (x : BitVec 3) (j : BitVec 1) : IWord := BitVec.ofNat 32 (0xF8000000 + d.toNat * 2097152 + a.toNat * 65536 + m.toNat * 256 + x.toNat * 32 + j.toNat * 16)
/-- The prefix word of TSAVE (Tables 1-4, 1-6). -/
def wTsave (t : BitVec 3) : IWord := BitVec.ofNat 32 (0xFD800000 + t.toNat * 262144)
/-- The body word of TSAVE (Tables 1-4, 1-6). -/
def bTsave (sa : BitVec 5) (j : BitVec 1) : IWord := BitVec.ofNat 32 (0xF8000000 + sa.toNat * 2048 + j.toNat * 16)
/-- The prefix word of TREST (Tables 1-4, 1-6). -/
def wTrest (t : BitVec 3) : IWord := BitVec.ofNat 32 (0xFDA00000 + t.toNat * 262144)
/-- The body word of TREST (Tables 1-4, 1-6). -/
def bTrest (sa : BitVec 5) (j : BitVec 1) : IWord := BitVec.ofNat 32 (0xF8000000 + sa.toNat * 2048 + j.toNat * 16)

/-- The single word of an instruction (R11, Table 1-3, Table 1-8), or the prefix word of a tile pair (Table 1-4); an event has none. -/
def encodeWord : Instr → IWord
  | .add d a b => wAdd d a b
  | .sub d a b => wSub d a b
  | .and d a b => wAnd d a b
  | .or d a b => wOr d a b
  | .xor d a b => wXor d a b
  | .andn d a b => wAndn d a b
  | .sll d a b => wSll d a b
  | .srl d a b => wSrl d a b
  | .sra d a b => wSra d a b
  | .slt d a b => wSlt d a b
  | .sltu d a b => wSltu d a b
  | .min d a b => wMin d a b
  | .max d a b => wMax d a b
  | .minu d a b => wMinu d a b
  | .maxu d a b => wMaxu d a b
  | .adds d a b h => wAdds d a b h
  | .addi d a i => wAddi d a i
  | .andi d a i => wAndi d a i
  | .ori d a i => wOri d a i
  | .xori d a i => wXori d a i
  | .slti d a i => wSlti d a i
  | .sltiu d a i => wSltiu d a i
  | .slli d a h => wSlli d a h
  | .srli d a h => wSrli d a h
  | .srai d a h => wSrai d a h
  | .lhi d i => wLhi d i
  | .apc d i => wApc d i
  | .mul d a b => wMul d a b
  | .mulh d a b => wMulh d a b
  | .mulhu d a b => wMulhu d a b
  | .mulhsu d a b => wMulhsu d a b
  | .div d a b => wDiv d a b
  | .divu d a b => wDivu d a b
  | .rem d a b => wRem d a b
  | .remu d a b => wRemu d a b
  | .clz d a => wClz d a
  | .ctz d a => wCtz d a
  | .pop d a => wPop d a
  | .rev8 d a => wRev8 d a
  | .sextb d a => wSextb d a
  | .sexth d a => wSexth d a
  | .sextw d a => wSextw d a
  | .zextw d a => wZextw d a
  | .ldB d a o => wLdB d a o
  | .ldH d a o => wLdH d a o
  | .ldW d a o => wLdW d a o
  | .ldD d a o => wLdD d a o
  | .ldBu d a o => wLdBu d a o
  | .ldHu d a o => wLdHu d a o
  | .ldWu d a o => wLdWu d a o
  | .stB v a o => wStB v a o
  | .stH v a o => wStH v a o
  | .stW v a o => wStW v a o
  | .stD v a o => wStD v a o
  | .ldcB d a o => wLdcB d a o
  | .ldcH d a o => wLdcH d a o
  | .ldcW d a o => wLdcW d a o
  | .ldcD d a o => wLdcD d a o
  | .ldcBu d a o => wLdcBu d a o
  | .ldcHu d a o => wLdcHu d a o
  | .ldcWu d a o => wLdcWu d a o
  | .amoSwp d a b w sc o => wAmoSwp d a b w sc o
  | .amoAdd d a b w sc o => wAmoAdd d a b w sc o
  | .amoAnd d a b w sc o => wAmoAnd d a b w sc o
  | .amoOr d a b w sc o => wAmoOr d a b w sc o
  | .amoXor d a b w sc o => wAmoXor d a b w sc o
  | .amoMin d a b w sc o => wAmoMin d a b w sc o
  | .amoMax d a b w sc o => wAmoMax d a b w sc o
  | .amoMinu d a b w sc o => wAmoMinu d a b w sc o
  | .amoMaxu d a b w sc o => wAmoMaxu d a b w sc o
  | .amoCas d a b w sc o => wAmoCas d a b w sc o
  | .beq a b o => wBeq a b o
  | .bne a b o => wBne a b o
  | .blt a b o => wBlt a b o
  | .bge a b o => wBge a b o
  | .bltu a b o => wBltu a b o
  | .bgeu a b o => wBgeu a b o
  | .jal d i => wJal d i
  | .jalr d a i => wJalr d a i
  | .vloop a o => wVloop a o
  | .fadd d a b r => wFadd d a b r
  | .fsub d a b r => wFsub d a b r
  | .fmul d a b r => wFmul d a b r
  | .fdiv d a b r => wFdiv d a b r
  | .fsqrt d a r => wFsqrt d a r
  | .fma d a b r => wFma d a b r
  | .fmin d a b r => wFmin d a b r
  | .fmax d a b r => wFmax d a b r
  | .feq d a b r => wFeq d a b r
  | .flt d a b r => wFlt d a b r
  | .fle d a b r => wFle d a b r
  | .fcvtWS d a r => wFcvtWS d a r
  | .fcvtSW d a r => wFcvtSW d a r
  | .fcvtBfS d a r => wFcvtBfS d a r
  | .fcvtSBf d a r => wFcvtSBf d a r
  | .fln d a r => wFln d a r
  | .fexp d a r => wFexp d a r
  | .sys => wSys
  | .brk => wBrk
  | .tret => wTret
  | .wfi => wWfi
  | .mwait d a b => wMwait d a b
  | .fence sc => wFence sc
  | .fenceSv => wFenceSv
  | .fenceVs => wFenceVs
  | .fenceC => wFenceC
  | .vsetl d a b => wVsetl d a b
  | .vsetli d a t => wVsetli d a t
  | .getc d c => wGetc d c
  | .setc a c => wSetc a c
  | .tas d n => wTas d n
  | .sclr n => wSclr n
  | .sset n => wSset n
  | .stst d n => wStst d n
  | .cdrd d n => wCdrd d n
  | .cdwr a n => wCdwr a n
  | .gbar a => wGbar a
  | .gbarA a => wGbarA a
  | .gbarW d => wGbarW d
  | .gbarR => wGbarR
  | .wtake d a => wWtake d a
  | .wput d a n => wWput d a n
  | .vaddVv d a b m x j => wVaddVv d a b m x j
  | .vaddVs d a b m x j => wVaddVs d a b m x j
  | .vaddVi d a i m x j => wVaddVi d a i m x j
  | .vsubVv d a b m x j => wVsubVv d a b m x j
  | .vsubVs d a b m x j => wVsubVs d a b m x j
  | .vsubVi d a i m x j => wVsubVi d a i m x j
  | .vmulVv d a b m x j => wVmulVv d a b m x j
  | .vmulVs d a b m x j => wVmulVs d a b m x j
  | .vmulVi d a i m x j => wVmulVi d a i m x j
  | .vmulhVv d a b m x j => wVmulhVv d a b m x j
  | .vmulhVs d a b m x j => wVmulhVs d a b m x j
  | .vmulhVi d a i m x j => wVmulhVi d a i m x j
  | .vmaccVv d a b m x j => wVmaccVv d a b m x j
  | .vmaccVs d a b m x j => wVmaccVs d a b m x j
  | .vmaccVi d a i m x j => wVmaccVi d a i m x j
  | .vnmsacVv d a b m x j => wVnmsacVv d a b m x j
  | .vnmsacVs d a b m x j => wVnmsacVs d a b m x j
  | .vnmsacVi d a i m x j => wVnmsacVi d a i m x j
  | .vminVv d a b m x j => wVminVv d a b m x j
  | .vminVs d a b m x j => wVminVs d a b m x j
  | .vminVi d a i m x j => wVminVi d a i m x j
  | .vmaxVv d a b m x j => wVmaxVv d a b m x j
  | .vmaxVs d a b m x j => wVmaxVs d a b m x j
  | .vmaxVi d a i m x j => wVmaxVi d a i m x j
  | .vminuVv d a b m x j => wVminuVv d a b m x j
  | .vminuVs d a b m x j => wVminuVs d a b m x j
  | .vminuVi d a i m x j => wVminuVi d a i m x j
  | .vmaxuVv d a b m x j => wVmaxuVv d a b m x j
  | .vmaxuVs d a b m x j => wVmaxuVs d a b m x j
  | .vmaxuVi d a i m x j => wVmaxuVi d a i m x j
  | .vandVv d a b m x j => wVandVv d a b m x j
  | .vandVs d a b m x j => wVandVs d a b m x j
  | .vandVi d a i m x j => wVandVi d a i m x j
  | .vorVv d a b m x j => wVorVv d a b m x j
  | .vorVs d a b m x j => wVorVs d a b m x j
  | .vorVi d a i m x j => wVorVi d a i m x j
  | .vxorVv d a b m x j => wVxorVv d a b m x j
  | .vxorVs d a b m x j => wVxorVs d a b m x j
  | .vxorVi d a i m x j => wVxorVi d a i m x j
  | .vsllVv d a b m x j => wVsllVv d a b m x j
  | .vsllVs d a b m x j => wVsllVs d a b m x j
  | .vsllVi d a i m x j => wVsllVi d a i m x j
  | .vsrlVv d a b m x j => wVsrlVv d a b m x j
  | .vsrlVs d a b m x j => wVsrlVs d a b m x j
  | .vsrlVi d a i m x j => wVsrlVi d a i m x j
  | .vsraVv d a b m x j => wVsraVv d a b m x j
  | .vsraVs d a b m x j => wVsraVs d a b m x j
  | .vsraVi d a i m x j => wVsraVi d a i m x j
  | .vsadd d a b m x j => wVsadd d a b m x j
  | .vsaddu d a b m x j => wVsaddu d a b m x j
  | .vssub d a b m x j => wVssub d a b m x j
  | .vssubu d a b m x j => wVssubu d a b m x j
  | .vavg d a b m x j => wVavg d a b m x j
  | .vavgu d a b m x j => wVavgu d a b m x j
  | .vmerge d a b m j => wVmerge d a b m j
  | .vmv d a j => wVmv d a j
  | .vnsra d a b m x j => wVnsra d a b m x j
  | .vwmul d a b m j => wVwmul d a b m j
  | .vwadd d a b m j => wVwadd d a b m j
  | .vdot4 d a b m j => wVdot4 d a b m j
  | .vfaddVv d a b m x j => wVfaddVv d a b m x j
  | .vfaddVs d a b m x j => wVfaddVs d a b m x j
  | .vfsubVv d a b m x j => wVfsubVv d a b m x j
  | .vfsubVs d a b m x j => wVfsubVs d a b m x j
  | .vfmulVv d a b m x j => wVfmulVv d a b m x j
  | .vfmulVs d a b m x j => wVfmulVs d a b m x j
  | .vfdivVv d a b m x j => wVfdivVv d a b m x j
  | .vfdivVs d a b m x j => wVfdivVs d a b m x j
  | .vfmaVv d a b m x j => wVfmaVv d a b m x j
  | .vfmaVs d a b m x j => wVfmaVs d a b m x j
  | .vfnmaVv d a b m x j => wVfnmaVv d a b m x j
  | .vfnmaVs d a b m x j => wVfnmaVs d a b m x j
  | .vfminVv d a b m x j => wVfminVv d a b m x j
  | .vfminVs d a b m x j => wVfminVs d a b m x j
  | .vfmaxVv d a b m x j => wVfmaxVv d a b m x j
  | .vfmaxVs d a b m x j => wVfmaxVs d a b m x j
  | .vfsgnjVv d a b m x j => wVfsgnjVv d a b m x j
  | .vfsgnjVs d a b m x j => wVfsgnjVs d a b m x j
  | .vfexpbVv d a b m x j => wVfexpbVv d a b m x j
  | .vfexpbVs d a b m x j => wVfexpbVs d a b m x j
  | .vfwmaVv d a b m x j => wVfwmaVv d a b m x j
  | .vfwmaVs d a b m x j => wVfwmaVs d a b m x j
  | .vfsqrt d a m x j => wVfsqrt d a m x j
  | .vfrsqe d a m x j => wVfrsqe d a m x j
  | .vfrece d a m x j => wVfrece d a m x j
  | .vfln d a m x j => wVfln d a m x j
  | .vfexp d a m x j => wVfexp d a m x j
  | .vfcvt d a c m x j => wVfcvt d a c m x j
  | .vpack d a x j => wVpack d a x j
  | .vunpk d a j => wVunpk d a j
  | .vfclass d a m j => wVfclass d a m j
  | .vgmb d a m j => wVgmb d a m j
  | .vgmbT d a b m j => wVgmbT d a b m j
  | .vfabs d a m j => wVfabs d a m j
  | .vfneg d a m j => wVfneg d a m j
  | .vceqVv d a b m x j => wVceqVv d a b m x j
  | .vceqVs d a b m x j => wVceqVs d a b m x j
  | .vcneVv d a b m x j => wVcneVv d a b m x j
  | .vcneVs d a b m x j => wVcneVs d a b m x j
  | .vcltVv d a b m x j => wVcltVv d a b m x j
  | .vcltVs d a b m x j => wVcltVs d a b m x j
  | .vcleVv d a b m x j => wVcleVv d a b m x j
  | .vcleVs d a b m x j => wVcleVs d a b m x j
  | .vcgtVv d a b m x j => wVcgtVv d a b m x j
  | .vcgtVs d a b m x j => wVcgtVs d a b m x j
  | .vcgeVv d a b m x j => wVcgeVv d a b m x j
  | .vcgeVs d a b m x j => wVcgeVs d a b m x j
  | .vcltuVv d a b m x j => wVcltuVv d a b m x j
  | .vcltuVs d a b m x j => wVcltuVs d a b m x j
  | .vcleuVv d a b m x j => wVcleuVv d a b m x j
  | .vcleuVs d a b m x j => wVcleuVs d a b m x j
  | .vfceqVv d a b m x j => wVfceqVv d a b m x j
  | .vfceqVs d a b m x j => wVfceqVs d a b m x j
  | .vfcltVv d a b m x j => wVfcltVv d a b m x j
  | .vfcltVs d a b m x j => wVfcltVs d a b m x j
  | .vfcleVv d a b m x j => wVfcleVv d a b m x j
  | .vfcleVs d a b m x j => wVfcleVs d a b m x j
  | .vfcunVv d a b m x j => wVfcunVv d a b m x j
  | .vfcunVs d a b m x j => wVfcunVs d a b m x j
  | .mand d a b x j => wMand d a b x j
  | .mor d a b x j => wMor d a b x j
  | .mxor d a b x j => wMxor d a b x j
  | .mandn d a b x j => wMandn d a b x j
  | .mnot d a x j => wMnot d a x j
  | .mmv d a x j => wMmv d a x j
  | .mpop d a m j => wMpop d a m j
  | .mffs d a m j => wMffs d a m j
  | .mset d x j => wMset d x j
  | .mclr d x j => wMclr d x j
  | .msbf d a m x j => wMsbf d a m x j
  | .mtov d a m x j => wMtov d a m x j
  | .vtom d a m x j => wVtom d a m x j
  | .vredsum d a b m j => wVredsum d a b m j
  | .vredmax d a b m j => wVredmax d a b m j
  | .vredmin d a b m j => wVredmin d a b m j
  | .vredmaxu d a b m j => wVredmaxu d a b m j
  | .vredminu d a b m j => wVredminu d a b m j
  | .vredand d a b m j => wVredand d a b m j
  | .vredor d a b m j => wVredor d a b m j
  | .vfredsum d a b m j => wVfredsum d a b m j
  | .vfredmax d a b m j => wVfredmax d a b m j
  | .vfredmin d a b m j => wVfredmin d a b m j
  | .vnorm d a b m j => wVnorm d a b m j
  | .vnormd d a b m j => wVnormd d a b m j
  | .vfdot d a b m j => wVfdot d a b m j
  | .vslup d a b m j => wVslup d a b m j
  | .vsldn d a b m j => wVsldn d a b m j
  | .vperm d a b m j => wVperm d a b m j
  | .vcomp d a m j => wVcomp d a m j
  | .vexpd d a m j => wVexpd d a m j
  | .vbcs d b m j => wVbcs d b m j
  | .vext d a b j => wVext d a b j
  | .vins d a b j => wVins d a b j
  | .vid d m j => wVid d m j
  | .viota d a m j => wViota d a m j
  | .vrev d a m j => wVrev d a m j
  | .vtopk d a b m j => wVtopk d a b m j
  | .vzip d a b m j => wVzip d a b m j
  | .vuzp d a b m j => wVuzp d a b m j
  | .vld d a m j => wVld d a m j
  | .vlds d a b m j => wVlds d a b m j
  | .vldx d a b m j w => wVldx d a b m j w
  | .vldFf d a m j => wVldFf d a m j
  | .vldw d a j => wVldw d a j
  | .vst v a m j => wVst v a m j
  | .vsts v a b m j => wVsts v a b m j
  | .vstx v a b m j w => wVstx v a b m j w
  | .vstw v a j => wVstw v a j
  | .vamoAdd v a b m o j => wVamoAdd v a b m o j
  | .vamoMin v a b m o j => wVamoMin v a b m o j
  | .vamoMax v a b m o j => wVamoMax v a b m o j
  | .vamoAnd v a b m o j => wVamoAnd v a b m o j
  | .vamoOr v a b m o j => wVamoOr v a b m o j
  | .vamoXor v a b m o j => wVamoXor v a b m o j
  | .vamoSwp v a b m o j => wVamoSwp v a b m o j
  | .vamoFadd v a b m o j => wVamoFadd v a b m o j
  | .vamoFmax v a b m o j => wVamoFmax v a b m o j
  | .vlls d a m j => wVlls d a m j
  | .vsls v a m j => wVsls v a m j
  | .vxlt d a b m j => wVxlt d a b m j
  | .vxltFf d a b m j => wVxltFf d a b m j
  | .qbind n a j => wQbind n a j
  | .qfree n j => wQfree n j
  | .qstat d n j => wQstat d n j
  | .vcopy d a m j => wVcopy d a m j
  | .vcopyFf d a m j => wVcopyFf d a m j
  | .vcopyB d a m j => wVcopyB d a m j
  | .rset h a j => wRset h a j
  | .rpost v h i m j => wRpost v h i m j
  | .rbound d h j => wRbound d h j
  | .rleave d h b j => wRleave d h b j
  | .rwin d h b j => wRwin d h b j
  | .rstat d h j => wRstat d h j
  | .chset d h b j => wChset d h b j
  | .chcount d h b j => wChcount d h b j
  | .chplace d h j => wChplace d h j
  | .chsend d h b j => wChsend d h b j
  | .chdone d h j => wChdone d h j
  | .chstat d h j => wChstat d h j
  | .pld d a k z => wPld d a k z
  | .pst v a k z => wPst v a k z
  | .pamoSwp d a b k z => wPamoSwp d a b k z
  | .pamoAdd d a b k z => wPamoAdd d a b k z
  | .pamoAnd d a b k z => wPamoAnd d a b k z
  | .pamoOr d a b k z => wPamoOr d a b k z
  | .pamoXor d a b k z => wPamoXor d a b k z
  | .pamoMin d a b k z => wPamoMin d a b k z
  | .pamoMax d a b k z => wPamoMax d a b k z
  | .pamoMinu d a b k z => wPamoMinu d a b k z
  | .pamoMaxu d a b k z => wPamoMaxu d a b k z
  | .pamoCas d a b k z => wPamoCas d a b k z
  | .pvld d a m j k => wPvld d a m j k
  | .pvldx d a b m j k => wPvldx d a b m j k
  | .pvst v a m j k => wPvst v a m j k
  | .pvstx v a b m j k => wPvstx v a b m j k
  | .pvamoAdd v a b m j k => wPvamoAdd v a b m j k
  | .qbindF n a j k => wQbindF n a j k
  | .vcsum d a n j => wVcsum d a n j
  | .vcmax d a n j => wVcmax d a n j
  | .vcmin d a n j => wVcmin d a n j
  | .vcgat d a n j => wVcgat d a n j
  | .vcsct d a n j => wVcsct d a n j
  | .vcbc d a n j => wVcbc d a n j
  | .vcscan d a n j => wVcscan d a n j
  | .gabort n j => wGabort n j
  | .gstat d n j => wGstat d n j
  | .tkwait d a j => wTkwait d a j
  | .tkpoll d j => wTkpoll d j
  | .vsave a => wVsave a
  | .vrest a => wVrest a
  | .brole a => wBrole a
  | .tcfg t fc _ _ => wTcfg t fc
  | .tzero t _ => wTzero t
  | .vopa t fa fb sm _ _ _ => wVopa t fa fb sm
  | .tld t fc r _ _ => wTld t fc r
  | .tst t fc r _ _ => wTst t fc r
  | .trow t r _ _ => wTrow t r
  | .tepi t fc sm r _ _ => wTepi t fc sm r
  | .gmm t _ _ _ => wGmm t
  | .gmmE t _ _ _ => wGmmE t
  | .cload t fc _ _ => wCload t fc
  | .ctest t fc _ _ _ _ _ => wCtest t fc
  | .cleaf _ _ _ _ _ => wCleaf 
  | .ctestC t fc _ _ _ _ _ => wCtestC t fc
  | .tsave t _ _ => wTsave t
  | .trest t _ _ => wTrest t
  | .convoyBegin _ => 0
  | .preemptionRequest _ => 0
  | .softwareInterrupt _ => 0
  | .wfiWake _ => 0
  | .mwaitWake _ => 0
  | .mwaitTimeout _ => 0
  | .tkwaitLimit _ => 0
  | .tepiRowHandover _ => 0
  | .tepiCreditTimeout _ => 0
  | .streamFetch _ _ => 0
  | .copyElement _ => 0
  | .pailChainApply _ => 0
  | .remoteRequest _ => 0
  | .remoteAnswer _ _ => 0
  | .replayNoticeSend _ _ => 0
  | .serviceTimeout _ _ => 0
  | .replayNotice _ _ _ _ => 0
  | .churnRemoteReplay _ _ _ _ => 0
  | .collectiveArrival _ _ _ _ => 0
  | .collectiveGo _ => 0
  | .collectiveData _ _ _ => 0
  | .collectiveChunk _ _ _ _ _ => 0
  | .streamChunkFull _ _ _ _ _ => 0
  | .groupAbortApply _ _ _ _ => 0
  | .linkError _ => 0
  | .laneFailure _ => 0
  | .packageLost _ => 0
  | .powerMeasure _ _ => 0
  | .grantRaise _ => 0
  | .endHart _ => 0
  | .endJob _ => 0
  | .yield _ => 0
  | .shootdown _ => 0
  | .shootdownDone _ => 0
  | .promote _ => 0
  | .promoteCopyDone _ => 0
  | .grant _ _ => 0
  | .release _ => 0
  | .intr _ => 0
  | .mailboxBadFunc _ => 0
  | .queueTailWrite _ _ => 0
  | .queueEnable _ _ => 0
  | .queueDisable _ _ => 0
  | .contextKill _ => 0
  | .fwInstall _ _ => 0
  | .fwReset => 0
  | .hostWindowWrite _ _ => 0
  | .takeRecord _ => 0
  | .depsigRecheck _ => 0
  | .depsigPoll _ => 0
  | .jobPlacement _ => 0
  | .clusterSuspend _ => 0
  | .clusterResume _ _ _ => 0
  | .jobEnd _ _ => 0
  | .queueSwitchOut _ => 0
  | .queueSwitchIn _ => 0
  | .packageReset => 0
  | .clk _ => 0
  | .d2d => 0
  | .dramcal => 0
  | .llcinit => 0
  | .wmarkAdvance _ => 0
  | .draminit => 0
  | .fabric _ _ => 0
  | .ready => 0
  | .stageFail => 0
  | .attestation _ => 0
  | .patrolScrub _ _ => 0
  | .hostAccess _ => 0
  | .illegalEncoding _ _ _ => 0
  | .fetchFault _ => 0
  | .hostCompletion _ => 0
  | .arrivalWithdrawal _ _ _ _ => 0

/-- The body word of a tile pair (Table 1-4); every other instruction has none. -/
def encodeBody : Instr → Option IWord
  | .add _ _ _ => none
  | .sub _ _ _ => none
  | .and _ _ _ => none
  | .or _ _ _ => none
  | .xor _ _ _ => none
  | .andn _ _ _ => none
  | .sll _ _ _ => none
  | .srl _ _ _ => none
  | .sra _ _ _ => none
  | .slt _ _ _ => none
  | .sltu _ _ _ => none
  | .min _ _ _ => none
  | .max _ _ _ => none
  | .minu _ _ _ => none
  | .maxu _ _ _ => none
  | .adds _ _ _ _ => none
  | .addi _ _ _ => none
  | .andi _ _ _ => none
  | .ori _ _ _ => none
  | .xori _ _ _ => none
  | .slti _ _ _ => none
  | .sltiu _ _ _ => none
  | .slli _ _ _ => none
  | .srli _ _ _ => none
  | .srai _ _ _ => none
  | .lhi _ _ => none
  | .apc _ _ => none
  | .mul _ _ _ => none
  | .mulh _ _ _ => none
  | .mulhu _ _ _ => none
  | .mulhsu _ _ _ => none
  | .div _ _ _ => none
  | .divu _ _ _ => none
  | .rem _ _ _ => none
  | .remu _ _ _ => none
  | .clz _ _ => none
  | .ctz _ _ => none
  | .pop _ _ => none
  | .rev8 _ _ => none
  | .sextb _ _ => none
  | .sexth _ _ => none
  | .sextw _ _ => none
  | .zextw _ _ => none
  | .ldB _ _ _ => none
  | .ldH _ _ _ => none
  | .ldW _ _ _ => none
  | .ldD _ _ _ => none
  | .ldBu _ _ _ => none
  | .ldHu _ _ _ => none
  | .ldWu _ _ _ => none
  | .stB _ _ _ => none
  | .stH _ _ _ => none
  | .stW _ _ _ => none
  | .stD _ _ _ => none
  | .ldcB _ _ _ => none
  | .ldcH _ _ _ => none
  | .ldcW _ _ _ => none
  | .ldcD _ _ _ => none
  | .ldcBu _ _ _ => none
  | .ldcHu _ _ _ => none
  | .ldcWu _ _ _ => none
  | .amoSwp _ _ _ _ _ _ => none
  | .amoAdd _ _ _ _ _ _ => none
  | .amoAnd _ _ _ _ _ _ => none
  | .amoOr _ _ _ _ _ _ => none
  | .amoXor _ _ _ _ _ _ => none
  | .amoMin _ _ _ _ _ _ => none
  | .amoMax _ _ _ _ _ _ => none
  | .amoMinu _ _ _ _ _ _ => none
  | .amoMaxu _ _ _ _ _ _ => none
  | .amoCas _ _ _ _ _ _ => none
  | .beq _ _ _ => none
  | .bne _ _ _ => none
  | .blt _ _ _ => none
  | .bge _ _ _ => none
  | .bltu _ _ _ => none
  | .bgeu _ _ _ => none
  | .jal _ _ => none
  | .jalr _ _ _ => none
  | .vloop _ _ => none
  | .fadd _ _ _ _ => none
  | .fsub _ _ _ _ => none
  | .fmul _ _ _ _ => none
  | .fdiv _ _ _ _ => none
  | .fsqrt _ _ _ => none
  | .fma _ _ _ _ => none
  | .fmin _ _ _ _ => none
  | .fmax _ _ _ _ => none
  | .feq _ _ _ _ => none
  | .flt _ _ _ _ => none
  | .fle _ _ _ _ => none
  | .fcvtWS _ _ _ => none
  | .fcvtSW _ _ _ => none
  | .fcvtBfS _ _ _ => none
  | .fcvtSBf _ _ _ => none
  | .fln _ _ _ => none
  | .fexp _ _ _ => none
  | .sys => none
  | .brk => none
  | .tret => none
  | .wfi => none
  | .mwait _ _ _ => none
  | .fence _ => none
  | .fenceSv => none
  | .fenceVs => none
  | .fenceC => none
  | .vsetl _ _ _ => none
  | .vsetli _ _ _ => none
  | .getc _ _ => none
  | .setc _ _ => none
  | .tas _ _ => none
  | .sclr _ => none
  | .sset _ => none
  | .stst _ _ => none
  | .cdrd _ _ => none
  | .cdwr _ _ => none
  | .gbar _ => none
  | .gbarA _ => none
  | .gbarW _ => none
  | .gbarR => none
  | .wtake _ _ => none
  | .wput _ _ _ => none
  | .vaddVv _ _ _ _ _ _ => none
  | .vaddVs _ _ _ _ _ _ => none
  | .vaddVi _ _ _ _ _ _ => none
  | .vsubVv _ _ _ _ _ _ => none
  | .vsubVs _ _ _ _ _ _ => none
  | .vsubVi _ _ _ _ _ _ => none
  | .vmulVv _ _ _ _ _ _ => none
  | .vmulVs _ _ _ _ _ _ => none
  | .vmulVi _ _ _ _ _ _ => none
  | .vmulhVv _ _ _ _ _ _ => none
  | .vmulhVs _ _ _ _ _ _ => none
  | .vmulhVi _ _ _ _ _ _ => none
  | .vmaccVv _ _ _ _ _ _ => none
  | .vmaccVs _ _ _ _ _ _ => none
  | .vmaccVi _ _ _ _ _ _ => none
  | .vnmsacVv _ _ _ _ _ _ => none
  | .vnmsacVs _ _ _ _ _ _ => none
  | .vnmsacVi _ _ _ _ _ _ => none
  | .vminVv _ _ _ _ _ _ => none
  | .vminVs _ _ _ _ _ _ => none
  | .vminVi _ _ _ _ _ _ => none
  | .vmaxVv _ _ _ _ _ _ => none
  | .vmaxVs _ _ _ _ _ _ => none
  | .vmaxVi _ _ _ _ _ _ => none
  | .vminuVv _ _ _ _ _ _ => none
  | .vminuVs _ _ _ _ _ _ => none
  | .vminuVi _ _ _ _ _ _ => none
  | .vmaxuVv _ _ _ _ _ _ => none
  | .vmaxuVs _ _ _ _ _ _ => none
  | .vmaxuVi _ _ _ _ _ _ => none
  | .vandVv _ _ _ _ _ _ => none
  | .vandVs _ _ _ _ _ _ => none
  | .vandVi _ _ _ _ _ _ => none
  | .vorVv _ _ _ _ _ _ => none
  | .vorVs _ _ _ _ _ _ => none
  | .vorVi _ _ _ _ _ _ => none
  | .vxorVv _ _ _ _ _ _ => none
  | .vxorVs _ _ _ _ _ _ => none
  | .vxorVi _ _ _ _ _ _ => none
  | .vsllVv _ _ _ _ _ _ => none
  | .vsllVs _ _ _ _ _ _ => none
  | .vsllVi _ _ _ _ _ _ => none
  | .vsrlVv _ _ _ _ _ _ => none
  | .vsrlVs _ _ _ _ _ _ => none
  | .vsrlVi _ _ _ _ _ _ => none
  | .vsraVv _ _ _ _ _ _ => none
  | .vsraVs _ _ _ _ _ _ => none
  | .vsraVi _ _ _ _ _ _ => none
  | .vsadd _ _ _ _ _ _ => none
  | .vsaddu _ _ _ _ _ _ => none
  | .vssub _ _ _ _ _ _ => none
  | .vssubu _ _ _ _ _ _ => none
  | .vavg _ _ _ _ _ _ => none
  | .vavgu _ _ _ _ _ _ => none
  | .vmerge _ _ _ _ _ => none
  | .vmv _ _ _ => none
  | .vnsra _ _ _ _ _ _ => none
  | .vwmul _ _ _ _ _ => none
  | .vwadd _ _ _ _ _ => none
  | .vdot4 _ _ _ _ _ => none
  | .vfaddVv _ _ _ _ _ _ => none
  | .vfaddVs _ _ _ _ _ _ => none
  | .vfsubVv _ _ _ _ _ _ => none
  | .vfsubVs _ _ _ _ _ _ => none
  | .vfmulVv _ _ _ _ _ _ => none
  | .vfmulVs _ _ _ _ _ _ => none
  | .vfdivVv _ _ _ _ _ _ => none
  | .vfdivVs _ _ _ _ _ _ => none
  | .vfmaVv _ _ _ _ _ _ => none
  | .vfmaVs _ _ _ _ _ _ => none
  | .vfnmaVv _ _ _ _ _ _ => none
  | .vfnmaVs _ _ _ _ _ _ => none
  | .vfminVv _ _ _ _ _ _ => none
  | .vfminVs _ _ _ _ _ _ => none
  | .vfmaxVv _ _ _ _ _ _ => none
  | .vfmaxVs _ _ _ _ _ _ => none
  | .vfsgnjVv _ _ _ _ _ _ => none
  | .vfsgnjVs _ _ _ _ _ _ => none
  | .vfexpbVv _ _ _ _ _ _ => none
  | .vfexpbVs _ _ _ _ _ _ => none
  | .vfwmaVv _ _ _ _ _ _ => none
  | .vfwmaVs _ _ _ _ _ _ => none
  | .vfsqrt _ _ _ _ _ => none
  | .vfrsqe _ _ _ _ _ => none
  | .vfrece _ _ _ _ _ => none
  | .vfln _ _ _ _ _ => none
  | .vfexp _ _ _ _ _ => none
  | .vfcvt _ _ _ _ _ _ => none
  | .vpack _ _ _ _ => none
  | .vunpk _ _ _ => none
  | .vfclass _ _ _ _ => none
  | .vgmb _ _ _ _ => none
  | .vgmbT _ _ _ _ _ => none
  | .vfabs _ _ _ _ => none
  | .vfneg _ _ _ _ => none
  | .vceqVv _ _ _ _ _ _ => none
  | .vceqVs _ _ _ _ _ _ => none
  | .vcneVv _ _ _ _ _ _ => none
  | .vcneVs _ _ _ _ _ _ => none
  | .vcltVv _ _ _ _ _ _ => none
  | .vcltVs _ _ _ _ _ _ => none
  | .vcleVv _ _ _ _ _ _ => none
  | .vcleVs _ _ _ _ _ _ => none
  | .vcgtVv _ _ _ _ _ _ => none
  | .vcgtVs _ _ _ _ _ _ => none
  | .vcgeVv _ _ _ _ _ _ => none
  | .vcgeVs _ _ _ _ _ _ => none
  | .vcltuVv _ _ _ _ _ _ => none
  | .vcltuVs _ _ _ _ _ _ => none
  | .vcleuVv _ _ _ _ _ _ => none
  | .vcleuVs _ _ _ _ _ _ => none
  | .vfceqVv _ _ _ _ _ _ => none
  | .vfceqVs _ _ _ _ _ _ => none
  | .vfcltVv _ _ _ _ _ _ => none
  | .vfcltVs _ _ _ _ _ _ => none
  | .vfcleVv _ _ _ _ _ _ => none
  | .vfcleVs _ _ _ _ _ _ => none
  | .vfcunVv _ _ _ _ _ _ => none
  | .vfcunVs _ _ _ _ _ _ => none
  | .mand _ _ _ _ _ => none
  | .mor _ _ _ _ _ => none
  | .mxor _ _ _ _ _ => none
  | .mandn _ _ _ _ _ => none
  | .mnot _ _ _ _ => none
  | .mmv _ _ _ _ => none
  | .mpop _ _ _ _ => none
  | .mffs _ _ _ _ => none
  | .mset _ _ _ => none
  | .mclr _ _ _ => none
  | .msbf _ _ _ _ _ => none
  | .mtov _ _ _ _ _ => none
  | .vtom _ _ _ _ _ => none
  | .vredsum _ _ _ _ _ => none
  | .vredmax _ _ _ _ _ => none
  | .vredmin _ _ _ _ _ => none
  | .vredmaxu _ _ _ _ _ => none
  | .vredminu _ _ _ _ _ => none
  | .vredand _ _ _ _ _ => none
  | .vredor _ _ _ _ _ => none
  | .vfredsum _ _ _ _ _ => none
  | .vfredmax _ _ _ _ _ => none
  | .vfredmin _ _ _ _ _ => none
  | .vnorm _ _ _ _ _ => none
  | .vnormd _ _ _ _ _ => none
  | .vfdot _ _ _ _ _ => none
  | .vslup _ _ _ _ _ => none
  | .vsldn _ _ _ _ _ => none
  | .vperm _ _ _ _ _ => none
  | .vcomp _ _ _ _ => none
  | .vexpd _ _ _ _ => none
  | .vbcs _ _ _ _ => none
  | .vext _ _ _ _ => none
  | .vins _ _ _ _ => none
  | .vid _ _ _ => none
  | .viota _ _ _ _ => none
  | .vrev _ _ _ _ => none
  | .vtopk _ _ _ _ _ => none
  | .vzip _ _ _ _ _ => none
  | .vuzp _ _ _ _ _ => none
  | .vld _ _ _ _ => none
  | .vlds _ _ _ _ _ => none
  | .vldx _ _ _ _ _ _ => none
  | .vldFf _ _ _ _ => none
  | .vldw _ _ _ => none
  | .vst _ _ _ _ => none
  | .vsts _ _ _ _ _ => none
  | .vstx _ _ _ _ _ _ => none
  | .vstw _ _ _ => none
  | .vamoAdd _ _ _ _ _ _ => none
  | .vamoMin _ _ _ _ _ _ => none
  | .vamoMax _ _ _ _ _ _ => none
  | .vamoAnd _ _ _ _ _ _ => none
  | .vamoOr _ _ _ _ _ _ => none
  | .vamoXor _ _ _ _ _ _ => none
  | .vamoSwp _ _ _ _ _ _ => none
  | .vamoFadd _ _ _ _ _ _ => none
  | .vamoFmax _ _ _ _ _ _ => none
  | .vlls _ _ _ _ => none
  | .vsls _ _ _ _ => none
  | .vxlt _ _ _ _ _ => none
  | .vxltFf _ _ _ _ _ => none
  | .qbind _ _ _ => none
  | .qfree _ _ => none
  | .qstat _ _ _ => none
  | .vcopy _ _ _ _ => none
  | .vcopyFf _ _ _ _ => none
  | .vcopyB _ _ _ _ => none
  | .rset _ _ _ => none
  | .rpost _ _ _ _ _ => none
  | .rbound _ _ _ => none
  | .rleave _ _ _ _ => none
  | .rwin _ _ _ _ => none
  | .rstat _ _ _ => none
  | .chset _ _ _ _ => none
  | .chcount _ _ _ _ => none
  | .chplace _ _ _ => none
  | .chsend _ _ _ _ => none
  | .chdone _ _ _ => none
  | .chstat _ _ _ => none
  | .pld _ _ _ _ => none
  | .pst _ _ _ _ => none
  | .pamoSwp _ _ _ _ _ => none
  | .pamoAdd _ _ _ _ _ => none
  | .pamoAnd _ _ _ _ _ => none
  | .pamoOr _ _ _ _ _ => none
  | .pamoXor _ _ _ _ _ => none
  | .pamoMin _ _ _ _ _ => none
  | .pamoMax _ _ _ _ _ => none
  | .pamoMinu _ _ _ _ _ => none
  | .pamoMaxu _ _ _ _ _ => none
  | .pamoCas _ _ _ _ _ => none
  | .pvld _ _ _ _ _ => none
  | .pvldx _ _ _ _ _ _ => none
  | .pvst _ _ _ _ _ => none
  | .pvstx _ _ _ _ _ _ => none
  | .pvamoAdd _ _ _ _ _ _ => none
  | .qbindF _ _ _ _ => none
  | .vcsum _ _ _ _ => none
  | .vcmax _ _ _ _ => none
  | .vcmin _ _ _ _ => none
  | .vcgat _ _ _ _ => none
  | .vcsct _ _ _ _ => none
  | .vcbc _ _ _ _ => none
  | .vcscan _ _ _ _ => none
  | .gabort _ _ => none
  | .gstat _ _ _ => none
  | .tkwait _ _ _ => none
  | .tkpoll _ _ => none
  | .vsave _ => none
  | .vrest _ => none
  | .brole _ => none
  | .tcfg _ _ sa j => some (bTcfg sa j)
  | .tzero _ j => some (bTzero j)
  | .vopa _ _ _ _ a b j => some (bVopa a b j)
  | .tld _ _ _ sa j => some (bTld sa j)
  | .tst _ _ _ sa j => some (bTst sa j)
  | .trow _ _ d j => some (bTrow d j)
  | .tepi _ _ _ _ sa j => some (bTepi sa j)
  | .gmm _ b sa j => some (bGmm b sa j)
  | .gmmE _ b sa j => some (bGmmE b sa j)
  | .cload _ _ sa j => some (bCload sa j)
  | .ctest _ _ d a m x j => some (bCtest d a m x j)
  | .cleaf d a sa m j => some (bCleaf d a sa m j)
  | .ctestC _ _ d a m x j => some (bCtestC d a m x j)
  | .tsave _ sa j => some (bTsave sa j)
  | .trest _ sa j => some (bTrest sa j)
  | .convoyBegin _ => none
  | .preemptionRequest _ => none
  | .softwareInterrupt _ => none
  | .wfiWake _ => none
  | .mwaitWake _ => none
  | .mwaitTimeout _ => none
  | .tkwaitLimit _ => none
  | .tepiRowHandover _ => none
  | .tepiCreditTimeout _ => none
  | .streamFetch _ _ => none
  | .copyElement _ => none
  | .pailChainApply _ => none
  | .remoteRequest _ => none
  | .remoteAnswer _ _ => none
  | .replayNoticeSend _ _ => none
  | .serviceTimeout _ _ => none
  | .replayNotice _ _ _ _ => none
  | .churnRemoteReplay _ _ _ _ => none
  | .collectiveArrival _ _ _ _ => none
  | .collectiveGo _ => none
  | .collectiveData _ _ _ => none
  | .collectiveChunk _ _ _ _ _ => none
  | .streamChunkFull _ _ _ _ _ => none
  | .groupAbortApply _ _ _ _ => none
  | .linkError _ => none
  | .laneFailure _ => none
  | .packageLost _ => none
  | .powerMeasure _ _ => none
  | .grantRaise _ => none
  | .endHart _ => none
  | .endJob _ => none
  | .yield _ => none
  | .shootdown _ => none
  | .shootdownDone _ => none
  | .promote _ => none
  | .promoteCopyDone _ => none
  | .grant _ _ => none
  | .release _ => none
  | .intr _ => none
  | .mailboxBadFunc _ => none
  | .queueTailWrite _ _ => none
  | .queueEnable _ _ => none
  | .queueDisable _ _ => none
  | .contextKill _ => none
  | .fwInstall _ _ => none
  | .fwReset => none
  | .hostWindowWrite _ _ => none
  | .takeRecord _ => none
  | .depsigRecheck _ => none
  | .depsigPoll _ => none
  | .jobPlacement _ => none
  | .clusterSuspend _ => none
  | .clusterResume _ _ _ => none
  | .jobEnd _ _ => none
  | .queueSwitchOut _ => none
  | .queueSwitchIn _ => none
  | .packageReset => none
  | .clk _ => none
  | .d2d => none
  | .dramcal => none
  | .llcinit => none
  | .wmarkAdvance _ => none
  | .draminit => none
  | .fabric _ _ => none
  | .ready => none
  | .stageFail => none
  | .attestation _ => none
  | .patrolScrub _ _ => none
  | .hostAccess _ => none
  | .illegalEncoding _ _ _ => none
  | .fetchFault _ => none
  | .hostCompletion _ => none
  | .arrivalWithdrawal _ _ _ _ => none

/-! The decoder builds instructions; the compiler of Lean 4.33 makes no code for a constructor beyond the 244th, so the
definitions that build one are evaluated by the kernel only. -/

noncomputable section

/-- Major 0x01 (Table 1-8): the instruction its selector [5:0] names, with its fields. -/
def pick01 (w : IWord) : Option Instr :=
  match (fld w 5 0 : BitVec 6).toNat with
  | 0 => some (.add (fld w 25 21) (fld w 20 16) (fld w 15 11))
  | 1 => some (.sub (fld w 25 21) (fld w 20 16) (fld w 15 11))
  | 2 => some (.and (fld w 25 21) (fld w 20 16) (fld w 15 11))
  | 3 => some (.or (fld w 25 21) (fld w 20 16) (fld w 15 11))
  | 4 => some (.xor (fld w 25 21) (fld w 20 16) (fld w 15 11))
  | 5 => some (.andn (fld w 25 21) (fld w 20 16) (fld w 15 11))
  | 6 => some (.sll (fld w 25 21) (fld w 20 16) (fld w 15 11))
  | 7 => some (.srl (fld w 25 21) (fld w 20 16) (fld w 15 11))
  | 8 => some (.sra (fld w 25 21) (fld w 20 16) (fld w 15 11))
  | 9 => some (.slt (fld w 25 21) (fld w 20 16) (fld w 15 11))
  | 10 => some (.sltu (fld w 25 21) (fld w 20 16) (fld w 15 11))
  | 11 => some (.min (fld w 25 21) (fld w 20 16) (fld w 15 11))
  | 12 => some (.max (fld w 25 21) (fld w 20 16) (fld w 15 11))
  | 13 => some (.minu (fld w 25 21) (fld w 20 16) (fld w 15 11))
  | 14 => some (.maxu (fld w 25 21) (fld w 20 16) (fld w 15 11))
  | 15 => some (.adds (fld w 25 21) (fld w 20 16) (fld w 15 11) (fld w 8 6))
  | _ => none

/-- Major 0x02 (Table 1-8). -/
def pick02 (w : IWord) : Option Instr := some (.addi (fld w 25 21) (fld w 20 16) (fld w 15 0))

/-- Major 0x03 (Table 1-8). -/
def pick03 (w : IWord) : Option Instr := some (.andi (fld w 25 21) (fld w 20 16) (fld w 15 0))

/-- Major 0x04 (Table 1-8). -/
def pick04 (w : IWord) : Option Instr := some (.ori (fld w 25 21) (fld w 20 16) (fld w 15 0))

/-- Major 0x05 (Table 1-8). -/
def pick05 (w : IWord) : Option Instr := some (.xori (fld w 25 21) (fld w 20 16) (fld w 15 0))

/-- Major 0x06 (Table 1-8). -/
def pick06 (w : IWord) : Option Instr := some (.slti (fld w 25 21) (fld w 20 16) (fld w 15 0))

/-- Major 0x07 (Table 1-8). -/
def pick07 (w : IWord) : Option Instr := some (.sltiu (fld w 25 21) (fld w 20 16) (fld w 15 0))

/-- Major 0x08 (Table 1-8): the instruction its selector [1:0] names, with its fields. -/
def pick08 (w : IWord) : Option Instr :=
  match (fld w 1 0 : BitVec 2).toNat with
  | 0 => some (.slli (fld w 25 21) (fld w 20 16) (fld w 15 10))
  | 1 => some (.srli (fld w 25 21) (fld w 20 16) (fld w 15 10))
  | 2 => some (.srai (fld w 25 21) (fld w 20 16) (fld w 15 10))
  | _ => none

/-- Major 0x09 (Table 1-8). -/
def pick09 (w : IWord) : Option Instr := some (.lhi (fld w 25 21) (fld w 20 0))

/-- Major 0x0A (Table 1-8). -/
def pick0A (w : IWord) : Option Instr := some (.apc (fld w 25 21) (fld w 20 0))

/-- Major 0x0B (Table 1-8): the instruction its selector [5:0] names, with its fields. -/
def pick0B (w : IWord) : Option Instr :=
  match (fld w 5 0 : BitVec 6).toNat with
  | 0 => some (.mul (fld w 25 21) (fld w 20 16) (fld w 15 11))
  | 1 => some (.mulh (fld w 25 21) (fld w 20 16) (fld w 15 11))
  | 2 => some (.mulhu (fld w 25 21) (fld w 20 16) (fld w 15 11))
  | 3 => some (.mulhsu (fld w 25 21) (fld w 20 16) (fld w 15 11))
  | 4 => some (.div (fld w 25 21) (fld w 20 16) (fld w 15 11))
  | 5 => some (.divu (fld w 25 21) (fld w 20 16) (fld w 15 11))
  | 6 => some (.rem (fld w 25 21) (fld w 20 16) (fld w 15 11))
  | 7 => some (.remu (fld w 25 21) (fld w 20 16) (fld w 15 11))
  | _ => none

/-- Major 0x0C (Table 1-8): the instruction its selector [5:0] names, with its fields. -/
def pick0C (w : IWord) : Option Instr :=
  match (fld w 5 0 : BitVec 6).toNat with
  | 0 => some (.clz (fld w 25 21) (fld w 20 16))
  | 1 => some (.ctz (fld w 25 21) (fld w 20 16))
  | 2 => some (.pop (fld w 25 21) (fld w 20 16))
  | 3 => some (.rev8 (fld w 25 21) (fld w 20 16))
  | 4 => some (.sextb (fld w 25 21) (fld w 20 16))
  | 5 => some (.sexth (fld w 25 21) (fld w 20 16))
  | 6 => some (.sextw (fld w 25 21) (fld w 20 16))
  | 7 => some (.zextw (fld w 25 21) (fld w 20 16))
  | _ => none

/-- Major 0x0D (Table 1-8): the instruction its selector [15:13] names, with its fields. -/
def pick0D (w : IWord) : Option Instr :=
  match (fld w 15 13 : BitVec 3).toNat with
  | 0 => some (.ldB (fld w 25 21) (fld w 20 16) (fld w 12 0))
  | 1 => some (.ldH (fld w 25 21) (fld w 20 16) (fld w 12 0))
  | 2 => some (.ldW (fld w 25 21) (fld w 20 16) (fld w 12 0))
  | 3 => some (.ldD (fld w 25 21) (fld w 20 16) (fld w 12 0))
  | 4 => some (.ldBu (fld w 25 21) (fld w 20 16) (fld w 12 0))
  | 5 => some (.ldHu (fld w 25 21) (fld w 20 16) (fld w 12 0))
  | 6 => some (.ldWu (fld w 25 21) (fld w 20 16) (fld w 12 0))
  | _ => none

/-- Major 0x0E (Table 1-8): the instruction its selector [15:13] names, with its fields. -/
def pick0E (w : IWord) : Option Instr :=
  match (fld w 15 13 : BitVec 3).toNat with
  | 0 => some (.stB (fld w 25 21) (fld w 20 16) (fld w 12 0))
  | 1 => some (.stH (fld w 25 21) (fld w 20 16) (fld w 12 0))
  | 2 => some (.stW (fld w 25 21) (fld w 20 16) (fld w 12 0))
  | 3 => some (.stD (fld w 25 21) (fld w 20 16) (fld w 12 0))
  | _ => none

/-- Major 0x0F (Table 1-8): the instruction its selector [15:13] names, with its fields. -/
def pick0F (w : IWord) : Option Instr :=
  match (fld w 15 13 : BitVec 3).toNat with
  | 0 => some (.ldcB (fld w 25 21) (fld w 20 16) (fld w 12 0))
  | 1 => some (.ldcH (fld w 25 21) (fld w 20 16) (fld w 12 0))
  | 2 => some (.ldcW (fld w 25 21) (fld w 20 16) (fld w 12 0))
  | 3 => some (.ldcD (fld w 25 21) (fld w 20 16) (fld w 12 0))
  | 4 => some (.ldcBu (fld w 25 21) (fld w 20 16) (fld w 12 0))
  | 5 => some (.ldcHu (fld w 25 21) (fld w 20 16) (fld w 12 0))
  | 6 => some (.ldcWu (fld w 25 21) (fld w 20 16) (fld w 12 0))
  | _ => none

/-- Major 0x10 (Table 1-8): the instruction its selector [3:0] names, with its fields. -/
def pick10 (w : IWord) : Option Instr :=
  match (fld w 3 0 : BitVec 4).toNat with
  | 0 => some (.amoSwp (fld w 25 21) (fld w 20 16) (fld w 15 11) (fld w 10 9) (fld w 8 6) (fld w 5 4))
  | 1 => some (.amoAdd (fld w 25 21) (fld w 20 16) (fld w 15 11) (fld w 10 9) (fld w 8 6) (fld w 5 4))
  | 2 => some (.amoAnd (fld w 25 21) (fld w 20 16) (fld w 15 11) (fld w 10 9) (fld w 8 6) (fld w 5 4))
  | 3 => some (.amoOr (fld w 25 21) (fld w 20 16) (fld w 15 11) (fld w 10 9) (fld w 8 6) (fld w 5 4))
  | 4 => some (.amoXor (fld w 25 21) (fld w 20 16) (fld w 15 11) (fld w 10 9) (fld w 8 6) (fld w 5 4))
  | 5 => some (.amoMin (fld w 25 21) (fld w 20 16) (fld w 15 11) (fld w 10 9) (fld w 8 6) (fld w 5 4))
  | 6 => some (.amoMax (fld w 25 21) (fld w 20 16) (fld w 15 11) (fld w 10 9) (fld w 8 6) (fld w 5 4))
  | 7 => some (.amoMinu (fld w 25 21) (fld w 20 16) (fld w 15 11) (fld w 10 9) (fld w 8 6) (fld w 5 4))
  | 8 => some (.amoMaxu (fld w 25 21) (fld w 20 16) (fld w 15 11) (fld w 10 9) (fld w 8 6) (fld w 5 4))
  | 9 => some (.amoCas (fld w 25 21) (fld w 20 16) (fld w 15 11) (fld w 10 9) (fld w 8 6) (fld w 5 4))
  | _ => none

/-- Major 0x11 (Table 1-8). -/
def pick11 (w : IWord) : Option Instr := some (.beq (fld w 25 21) (fld w 20 16) (fld w 15 0))

/-- Major 0x12 (Table 1-8). -/
def pick12 (w : IWord) : Option Instr := some (.bne (fld w 25 21) (fld w 20 16) (fld w 15 0))

/-- Major 0x13 (Table 1-8). -/
def pick13 (w : IWord) : Option Instr := some (.blt (fld w 25 21) (fld w 20 16) (fld w 15 0))

/-- Major 0x14 (Table 1-8). -/
def pick14 (w : IWord) : Option Instr := some (.bge (fld w 25 21) (fld w 20 16) (fld w 15 0))

/-- Major 0x15 (Table 1-8). -/
def pick15 (w : IWord) : Option Instr := some (.bltu (fld w 25 21) (fld w 20 16) (fld w 15 0))

/-- Major 0x16 (Table 1-8). -/
def pick16 (w : IWord) : Option Instr := some (.bgeu (fld w 25 21) (fld w 20 16) (fld w 15 0))

/-- Major 0x17 (Table 1-8). -/
def pick17 (w : IWord) : Option Instr := some (.jal (fld w 25 21) (fld w 20 0))

/-- Major 0x18 (Table 1-8). -/
def pick18 (w : IWord) : Option Instr := some (.jalr (fld w 25 21) (fld w 20 16) (fld w 15 0))

/-- Major 0x19 (Table 1-8). -/
def pick19 (w : IWord) : Option Instr := some (.vloop (fld w 25 21) (fld w 15 0))

/-- Major 0x1A (Table 1-8): the instruction its selector [5:0] names, with its fields. -/
def pick1A (w : IWord) : Option Instr :=
  match (fld w 5 0 : BitVec 6).toNat with
  | 0 => some (.fadd (fld w 25 21) (fld w 20 16) (fld w 15 11) (fld w 8 6))
  | 1 => some (.fsub (fld w 25 21) (fld w 20 16) (fld w 15 11) (fld w 8 6))
  | 2 => some (.fmul (fld w 25 21) (fld w 20 16) (fld w 15 11) (fld w 8 6))
  | 3 => some (.fdiv (fld w 25 21) (fld w 20 16) (fld w 15 11) (fld w 8 6))
  | 4 => some (.fsqrt (fld w 25 21) (fld w 20 16) (fld w 8 6))
  | 5 => some (.fma (fld w 25 21) (fld w 20 16) (fld w 15 11) (fld w 8 6))
  | 6 => some (.fmin (fld w 25 21) (fld w 20 16) (fld w 15 11) (fld w 8 6))
  | 7 => some (.fmax (fld w 25 21) (fld w 20 16) (fld w 15 11) (fld w 8 6))
  | 8 => some (.feq (fld w 25 21) (fld w 20 16) (fld w 15 11) (fld w 8 6))
  | 9 => some (.flt (fld w 25 21) (fld w 20 16) (fld w 15 11) (fld w 8 6))
  | 10 => some (.fle (fld w 25 21) (fld w 20 16) (fld w 15 11) (fld w 8 6))
  | 11 => some (.fcvtWS (fld w 25 21) (fld w 20 16) (fld w 8 6))
  | 12 => some (.fcvtSW (fld w 25 21) (fld w 20 16) (fld w 8 6))
  | 13 => some (.fcvtBfS (fld w 25 21) (fld w 20 16) (fld w 8 6))
  | 14 => some (.fcvtSBf (fld w 25 21) (fld w 20 16) (fld w 8 6))
  | 15 => some (.fln (fld w 25 21) (fld w 20 16) (fld w 8 6))
  | 16 => some (.fexp (fld w 25 21) (fld w 20 16) (fld w 8 6))
  | _ => none

/-- Major 0x1B (Table 1-8): the instruction its selector [5:0] names, with its fields. -/
def pick1B (w : IWord) : Option Instr :=
  match (fld w 5 0 : BitVec 6).toNat with
  | 0 => some (.sys)
  | 1 => some (.brk)
  | 2 => some (.tret)
  | 3 => some (.wfi)
  | 4 => some (.mwait (fld w 25 21) (fld w 20 16) (fld w 15 11))
  | 5 => some (.fence (fld w 8 6))
  | 6 => some (.fenceSv)
  | 7 => some (.fenceVs)
  | 8 => some (.fenceC)
  | 9 => some (.vsetl (fld w 25 21) (fld w 20 16) (fld w 15 11))
  | _ => none

/-- Major 0x1C (Table 1-8). -/
def pick1C (w : IWord) : Option Instr := some (.getc (fld w 25 21) (fld w 15 0))

/-- Major 0x1D (Table 1-8). -/
def pick1D (w : IWord) : Option Instr := some (.setc (fld w 20 16) (fld w 15 0))

/-- Major 0x1E (Table 1-8): the instruction its selector [15:11] names, with its fields. -/
def pick1E (w : IWord) : Option Instr :=
  match (fld w 15 11 : BitVec 5).toNat with
  | 0 => some (.tas (fld w 25 21) (fld w 10 0))
  | 1 => some (.sclr (fld w 10 0))
  | 2 => some (.sset (fld w 10 0))
  | 3 => some (.stst (fld w 25 21) (fld w 10 0))
  | 4 => some (.cdrd (fld w 25 21) (fld w 10 0))
  | 5 => some (.cdwr (fld w 20 16) (fld w 10 0))
  | 6 => some (.gbar (fld w 20 16))
  | 7 => some (.gbarA (fld w 20 16))
  | 8 => some (.gbarW (fld w 25 21))
  | 9 => some (.gbarR)
  | 10 => some (.wtake (fld w 25 21) (fld w 20 16))
  | 11 => some (.wput (fld w 25 21) (fld w 20 16) (fld w 10 0))
  | _ => none

/-- Major 0x1F (Table 1-8). -/
def pick1F (w : IWord) : Option Instr := some (.vsetli (fld w 25 21) (fld w 20 16) (fld w 15 0))

/-- Major 0x20 (Table 1-8): the instruction its selector [3:0] names, with its fields. -/
def pick20 (w : IWord) : Option Instr :=
  match (fld w 3 0 : BitVec 4).toNat with
  | 0 => some (.vaddVv (fld w 25 21) (fld w 20 16) (fld w 15 11) (fld w 10 8) (fld w 7 5) (fld w 4 4))
  | 1 => some (.vsubVv (fld w 25 21) (fld w 20 16) (fld w 15 11) (fld w 10 8) (fld w 7 5) (fld w 4 4))
  | 2 => some (.vmulVv (fld w 25 21) (fld w 20 16) (fld w 15 11) (fld w 10 8) (fld w 7 5) (fld w 4 4))
  | 3 => some (.vmulhVv (fld w 25 21) (fld w 20 16) (fld w 15 11) (fld w 10 8) (fld w 7 5) (fld w 4 4))
  | 4 => some (.vmaccVv (fld w 25 21) (fld w 20 16) (fld w 15 11) (fld w 10 8) (fld w 7 5) (fld w 4 4))
  | 5 => some (.vnmsacVv (fld w 25 21) (fld w 20 16) (fld w 15 11) (fld w 10 8) (fld w 7 5) (fld w 4 4))
  | 6 => some (.vminVv (fld w 25 21) (fld w 20 16) (fld w 15 11) (fld w 10 8) (fld w 7 5) (fld w 4 4))
  | 7 => some (.vmaxVv (fld w 25 21) (fld w 20 16) (fld w 15 11) (fld w 10 8) (fld w 7 5) (fld w 4 4))
  | 8 => some (.vminuVv (fld w 25 21) (fld w 20 16) (fld w 15 11) (fld w 10 8) (fld w 7 5) (fld w 4 4))
  | 9 => some (.vmaxuVv (fld w 25 21) (fld w 20 16) (fld w 15 11) (fld w 10 8) (fld w 7 5) (fld w 4 4))
  | 10 => some (.vandVv (fld w 25 21) (fld w 20 16) (fld w 15 11) (fld w 10 8) (fld w 7 5) (fld w 4 4))
  | 11 => some (.vorVv (fld w 25 21) (fld w 20 16) (fld w 15 11) (fld w 10 8) (fld w 7 5) (fld w 4 4))
  | 12 => some (.vxorVv (fld w 25 21) (fld w 20 16) (fld w 15 11) (fld w 10 8) (fld w 7 5) (fld w 4 4))
  | 13 => some (.vsllVv (fld w 25 21) (fld w 20 16) (fld w 15 11) (fld w 10 8) (fld w 7 5) (fld w 4 4))
  | 14 => some (.vsrlVv (fld w 25 21) (fld w 20 16) (fld w 15 11) (fld w 10 8) (fld w 7 5) (fld w 4 4))
  | 15 => some (.vsraVv (fld w 25 21) (fld w 20 16) (fld w 15 11) (fld w 10 8) (fld w 7 5) (fld w 4 4))
  | _ => none

/-- Major 0x21 (Table 1-8): the instruction its selector [3:0] names, with its fields. -/
def pick21 (w : IWord) : Option Instr :=
  match (fld w 3 0 : BitVec 4).toNat with
  | 0 => some (.vaddVs (fld w 25 21) (fld w 20 16) (fld w 15 11) (fld w 10 8) (fld w 7 5) (fld w 4 4))
  | 1 => some (.vsubVs (fld w 25 21) (fld w 20 16) (fld w 15 11) (fld w 10 8) (fld w 7 5) (fld w 4 4))
  | 2 => some (.vmulVs (fld w 25 21) (fld w 20 16) (fld w 15 11) (fld w 10 8) (fld w 7 5) (fld w 4 4))
  | 3 => some (.vmulhVs (fld w 25 21) (fld w 20 16) (fld w 15 11) (fld w 10 8) (fld w 7 5) (fld w 4 4))
  | 4 => some (.vmaccVs (fld w 25 21) (fld w 20 16) (fld w 15 11) (fld w 10 8) (fld w 7 5) (fld w 4 4))
  | 5 => some (.vnmsacVs (fld w 25 21) (fld w 20 16) (fld w 15 11) (fld w 10 8) (fld w 7 5) (fld w 4 4))
  | 6 => some (.vminVs (fld w 25 21) (fld w 20 16) (fld w 15 11) (fld w 10 8) (fld w 7 5) (fld w 4 4))
  | 7 => some (.vmaxVs (fld w 25 21) (fld w 20 16) (fld w 15 11) (fld w 10 8) (fld w 7 5) (fld w 4 4))
  | 8 => some (.vminuVs (fld w 25 21) (fld w 20 16) (fld w 15 11) (fld w 10 8) (fld w 7 5) (fld w 4 4))
  | 9 => some (.vmaxuVs (fld w 25 21) (fld w 20 16) (fld w 15 11) (fld w 10 8) (fld w 7 5) (fld w 4 4))
  | 10 => some (.vandVs (fld w 25 21) (fld w 20 16) (fld w 15 11) (fld w 10 8) (fld w 7 5) (fld w 4 4))
  | 11 => some (.vorVs (fld w 25 21) (fld w 20 16) (fld w 15 11) (fld w 10 8) (fld w 7 5) (fld w 4 4))
  | 12 => some (.vxorVs (fld w 25 21) (fld w 20 16) (fld w 15 11) (fld w 10 8) (fld w 7 5) (fld w 4 4))
  | 13 => some (.vsllVs (fld w 25 21) (fld w 20 16) (fld w 15 11) (fld w 10 8) (fld w 7 5) (fld w 4 4))
  | 14 => some (.vsrlVs (fld w 25 21) (fld w 20 16) (fld w 15 11) (fld w 10 8) (fld w 7 5) (fld w 4 4))
  | 15 => some (.vsraVs (fld w 25 21) (fld w 20 16) (fld w 15 11) (fld w 10 8) (fld w 7 5) (fld w 4 4))
  | _ => none

/-- Major 0x22 (Table 1-8): the instruction its selector [3:0] names, with its fields. -/
def pick22 (w : IWord) : Option Instr :=
  match (fld w 3 0 : BitVec 4).toNat with
  | 0 => some (.vaddVi (fld w 25 21) (fld w 20 16) (fld w 15 11) (fld w 10 8) (fld w 7 5) (fld w 4 4))
  | 1 => some (.vsubVi (fld w 25 21) (fld w 20 16) (fld w 15 11) (fld w 10 8) (fld w 7 5) (fld w 4 4))
  | 2 => some (.vmulVi (fld w 25 21) (fld w 20 16) (fld w 15 11) (fld w 10 8) (fld w 7 5) (fld w 4 4))
  | 3 => some (.vmulhVi (fld w 25 21) (fld w 20 16) (fld w 15 11) (fld w 10 8) (fld w 7 5) (fld w 4 4))
  | 4 => some (.vmaccVi (fld w 25 21) (fld w 20 16) (fld w 15 11) (fld w 10 8) (fld w 7 5) (fld w 4 4))
  | 5 => some (.vnmsacVi (fld w 25 21) (fld w 20 16) (fld w 15 11) (fld w 10 8) (fld w 7 5) (fld w 4 4))
  | 6 => some (.vminVi (fld w 25 21) (fld w 20 16) (fld w 15 11) (fld w 10 8) (fld w 7 5) (fld w 4 4))
  | 7 => some (.vmaxVi (fld w 25 21) (fld w 20 16) (fld w 15 11) (fld w 10 8) (fld w 7 5) (fld w 4 4))
  | 8 => some (.vminuVi (fld w 25 21) (fld w 20 16) (fld w 15 11) (fld w 10 8) (fld w 7 5) (fld w 4 4))
  | 9 => some (.vmaxuVi (fld w 25 21) (fld w 20 16) (fld w 15 11) (fld w 10 8) (fld w 7 5) (fld w 4 4))
  | 10 => some (.vandVi (fld w 25 21) (fld w 20 16) (fld w 15 11) (fld w 10 8) (fld w 7 5) (fld w 4 4))
  | 11 => some (.vorVi (fld w 25 21) (fld w 20 16) (fld w 15 11) (fld w 10 8) (fld w 7 5) (fld w 4 4))
  | 12 => some (.vxorVi (fld w 25 21) (fld w 20 16) (fld w 15 11) (fld w 10 8) (fld w 7 5) (fld w 4 4))
  | 13 => some (.vsllVi (fld w 25 21) (fld w 20 16) (fld w 15 11) (fld w 10 8) (fld w 7 5) (fld w 4 4))
  | 14 => some (.vsrlVi (fld w 25 21) (fld w 20 16) (fld w 15 11) (fld w 10 8) (fld w 7 5) (fld w 4 4))
  | 15 => some (.vsraVi (fld w 25 21) (fld w 20 16) (fld w 15 11) (fld w 10 8) (fld w 7 5) (fld w 4 4))
  | _ => none

/-- Major 0x23 (Table 1-8): the instruction its selector [3:0] names, with its fields. -/
def pick23 (w : IWord) : Option Instr :=
  match (fld w 3 0 : BitVec 4).toNat with
  | 0 => some (.vsadd (fld w 25 21) (fld w 20 16) (fld w 15 11) (fld w 10 8) (fld w 7 5) (fld w 4 4))
  | 1 => some (.vsaddu (fld w 25 21) (fld w 20 16) (fld w 15 11) (fld w 10 8) (fld w 7 5) (fld w 4 4))
  | 2 => some (.vssub (fld w 25 21) (fld w 20 16) (fld w 15 11) (fld w 10 8) (fld w 7 5) (fld w 4 4))
  | 3 => some (.vssubu (fld w 25 21) (fld w 20 16) (fld w 15 11) (fld w 10 8) (fld w 7 5) (fld w 4 4))
  | 4 => some (.vavg (fld w 25 21) (fld w 20 16) (fld w 15 11) (fld w 10 8) (fld w 7 5) (fld w 4 4))
  | 5 => some (.vavgu (fld w 25 21) (fld w 20 16) (fld w 15 11) (fld w 10 8) (fld w 7 5) (fld w 4 4))
  | 6 => some (.vmerge (fld w 25 21) (fld w 20 16) (fld w 15 11) (fld w 10 8) (fld w 4 4))
  | 7 => some (.vmv (fld w 25 21) (fld w 20 16) (fld w 4 4))
  | 8 => some (.vnsra (fld w 25 21) (fld w 20 16) (fld w 15 11) (fld w 10 8) (fld w 7 5) (fld w 4 4))
  | 9 => some (.vwmul (fld w 25 21) (fld w 20 16) (fld w 15 11) (fld w 10 8) (fld w 4 4))
  | 10 => some (.vwadd (fld w 25 21) (fld w 20 16) (fld w 15 11) (fld w 10 8) (fld w 4 4))
  | 11 => some (.vdot4 (fld w 25 21) (fld w 20 16) (fld w 15 11) (fld w 10 8) (fld w 4 4))
  | _ => none

/-- Major 0x24 (Table 1-8): the instruction its selector [3:0] names, with its fields. -/
def pick24 (w : IWord) : Option Instr :=
  match (fld w 3 0 : BitVec 4).toNat with
  | 0 => some (.vfaddVv (fld w 25 21) (fld w 20 16) (fld w 15 11) (fld w 10 8) (fld w 7 5) (fld w 4 4))
  | 1 => some (.vfsubVv (fld w 25 21) (fld w 20 16) (fld w 15 11) (fld w 10 8) (fld w 7 5) (fld w 4 4))
  | 2 => some (.vfmulVv (fld w 25 21) (fld w 20 16) (fld w 15 11) (fld w 10 8) (fld w 7 5) (fld w 4 4))
  | 3 => some (.vfdivVv (fld w 25 21) (fld w 20 16) (fld w 15 11) (fld w 10 8) (fld w 7 5) (fld w 4 4))
  | 4 => some (.vfmaVv (fld w 25 21) (fld w 20 16) (fld w 15 11) (fld w 10 8) (fld w 7 5) (fld w 4 4))
  | 5 => some (.vfnmaVv (fld w 25 21) (fld w 20 16) (fld w 15 11) (fld w 10 8) (fld w 7 5) (fld w 4 4))
  | 6 => some (.vfminVv (fld w 25 21) (fld w 20 16) (fld w 15 11) (fld w 10 8) (fld w 7 5) (fld w 4 4))
  | 7 => some (.vfmaxVv (fld w 25 21) (fld w 20 16) (fld w 15 11) (fld w 10 8) (fld w 7 5) (fld w 4 4))
  | 8 => some (.vfsgnjVv (fld w 25 21) (fld w 20 16) (fld w 15 11) (fld w 10 8) (fld w 7 5) (fld w 4 4))
  | 9 => some (.vfexpbVv (fld w 25 21) (fld w 20 16) (fld w 15 11) (fld w 10 8) (fld w 7 5) (fld w 4 4))
  | 10 => some (.vfwmaVv (fld w 25 21) (fld w 20 16) (fld w 15 11) (fld w 10 8) (fld w 7 5) (fld w 4 4))
  | _ => none

/-- Major 0x25 (Table 1-8): the instruction its selector [3:0] names, with its fields. -/
def pick25 (w : IWord) : Option Instr :=
  match (fld w 3 0 : BitVec 4).toNat with
  | 0 => some (.vfaddVs (fld w 25 21) (fld w 20 16) (fld w 15 11) (fld w 10 8) (fld w 7 5) (fld w 4 4))
  | 1 => some (.vfsubVs (fld w 25 21) (fld w 20 16) (fld w 15 11) (fld w 10 8) (fld w 7 5) (fld w 4 4))
  | 2 => some (.vfmulVs (fld w 25 21) (fld w 20 16) (fld w 15 11) (fld w 10 8) (fld w 7 5) (fld w 4 4))
  | 3 => some (.vfdivVs (fld w 25 21) (fld w 20 16) (fld w 15 11) (fld w 10 8) (fld w 7 5) (fld w 4 4))
  | 4 => some (.vfmaVs (fld w 25 21) (fld w 20 16) (fld w 15 11) (fld w 10 8) (fld w 7 5) (fld w 4 4))
  | 5 => some (.vfnmaVs (fld w 25 21) (fld w 20 16) (fld w 15 11) (fld w 10 8) (fld w 7 5) (fld w 4 4))
  | 6 => some (.vfminVs (fld w 25 21) (fld w 20 16) (fld w 15 11) (fld w 10 8) (fld w 7 5) (fld w 4 4))
  | 7 => some (.vfmaxVs (fld w 25 21) (fld w 20 16) (fld w 15 11) (fld w 10 8) (fld w 7 5) (fld w 4 4))
  | 8 => some (.vfsgnjVs (fld w 25 21) (fld w 20 16) (fld w 15 11) (fld w 10 8) (fld w 7 5) (fld w 4 4))
  | 9 => some (.vfexpbVs (fld w 25 21) (fld w 20 16) (fld w 15 11) (fld w 10 8) (fld w 7 5) (fld w 4 4))
  | 10 => some (.vfwmaVs (fld w 25 21) (fld w 20 16) (fld w 15 11) (fld w 10 8) (fld w 7 5) (fld w 4 4))
  | _ => none

/-- Major 0x26 (Table 1-8): the instruction its selector [3:0] names, with its fields. -/
def pick26 (w : IWord) : Option Instr :=
  match (fld w 3 0 : BitVec 4).toNat with
  | 0 => some (.vfsqrt (fld w 25 21) (fld w 20 16) (fld w 10 8) (fld w 7 5) (fld w 4 4))
  | 1 => some (.vfrsqe (fld w 25 21) (fld w 20 16) (fld w 10 8) (fld w 7 5) (fld w 4 4))
  | 2 => some (.vfrece (fld w 25 21) (fld w 20 16) (fld w 10 8) (fld w 7 5) (fld w 4 4))
  | 3 => some (.vfln (fld w 25 21) (fld w 20 16) (fld w 10 8) (fld w 7 5) (fld w 4 4))
  | 4 => some (.vfexp (fld w 25 21) (fld w 20 16) (fld w 10 8) (fld w 7 5) (fld w 4 4))
  | 5 => some (.vfcvt (fld w 25 21) (fld w 20 16) (fld w 15 11) (fld w 10 8) (fld w 7 5) (fld w 4 4))
  | 6 => some (.vpack (fld w 25 21) (fld w 20 16) (fld w 7 5) (fld w 4 4))
  | 7 => some (.vunpk (fld w 25 21) (fld w 20 16) (fld w 4 4))
  | 8 => some (.vfclass (fld w 25 21) (fld w 20 16) (fld w 10 8) (fld w 4 4))
  | 9 => some (.vgmb (fld w 25 21) (fld w 20 16) (fld w 10 8) (fld w 4 4))
  | 10 => some (.vgmbT (fld w 25 21) (fld w 20 16) (fld w 15 11) (fld w 10 8) (fld w 4 4))
  | 11 => some (.vfabs (fld w 25 21) (fld w 20 16) (fld w 10 8) (fld w 4 4))
  | 12 => some (.vfneg (fld w 25 21) (fld w 20 16) (fld w 10 8) (fld w 4 4))
  | _ => none

/-- Major 0x27 (Table 1-8): the instruction its selector [3:0] names, with its fields. -/
def pick27 (w : IWord) : Option Instr :=
  match (fld w 3 0 : BitVec 4).toNat with
  | 0 => some (.vceqVv (fld w 25 21) (fld w 20 16) (fld w 15 11) (fld w 10 8) (fld w 7 5) (fld w 4 4))
  | 1 => some (.vcneVv (fld w 25 21) (fld w 20 16) (fld w 15 11) (fld w 10 8) (fld w 7 5) (fld w 4 4))
  | 2 => some (.vcltVv (fld w 25 21) (fld w 20 16) (fld w 15 11) (fld w 10 8) (fld w 7 5) (fld w 4 4))
  | 3 => some (.vcleVv (fld w 25 21) (fld w 20 16) (fld w 15 11) (fld w 10 8) (fld w 7 5) (fld w 4 4))
  | 4 => some (.vcgtVv (fld w 25 21) (fld w 20 16) (fld w 15 11) (fld w 10 8) (fld w 7 5) (fld w 4 4))
  | 5 => some (.vcgeVv (fld w 25 21) (fld w 20 16) (fld w 15 11) (fld w 10 8) (fld w 7 5) (fld w 4 4))
  | 6 => some (.vcltuVv (fld w 25 21) (fld w 20 16) (fld w 15 11) (fld w 10 8) (fld w 7 5) (fld w 4 4))
  | 7 => some (.vcleuVv (fld w 25 21) (fld w 20 16) (fld w 15 11) (fld w 10 8) (fld w 7 5) (fld w 4 4))
  | 8 => some (.vfceqVv (fld w 25 21) (fld w 20 16) (fld w 15 11) (fld w 10 8) (fld w 7 5) (fld w 4 4))
  | 9 => some (.vfcltVv (fld w 25 21) (fld w 20 16) (fld w 15 11) (fld w 10 8) (fld w 7 5) (fld w 4 4))
  | 10 => some (.vfcleVv (fld w 25 21) (fld w 20 16) (fld w 15 11) (fld w 10 8) (fld w 7 5) (fld w 4 4))
  | 11 => some (.vfcunVv (fld w 25 21) (fld w 20 16) (fld w 15 11) (fld w 10 8) (fld w 7 5) (fld w 4 4))
  | _ => none

/-- Major 0x28 (Table 1-8): the instruction its selector [3:0] names, with its fields. -/
def pick28 (w : IWord) : Option Instr :=
  match (fld w 3 0 : BitVec 4).toNat with
  | 0 => some (.vceqVs (fld w 25 21) (fld w 20 16) (fld w 15 11) (fld w 10 8) (fld w 7 5) (fld w 4 4))
  | 1 => some (.vcneVs (fld w 25 21) (fld w 20 16) (fld w 15 11) (fld w 10 8) (fld w 7 5) (fld w 4 4))
  | 2 => some (.vcltVs (fld w 25 21) (fld w 20 16) (fld w 15 11) (fld w 10 8) (fld w 7 5) (fld w 4 4))
  | 3 => some (.vcleVs (fld w 25 21) (fld w 20 16) (fld w 15 11) (fld w 10 8) (fld w 7 5) (fld w 4 4))
  | 4 => some (.vcgtVs (fld w 25 21) (fld w 20 16) (fld w 15 11) (fld w 10 8) (fld w 7 5) (fld w 4 4))
  | 5 => some (.vcgeVs (fld w 25 21) (fld w 20 16) (fld w 15 11) (fld w 10 8) (fld w 7 5) (fld w 4 4))
  | 6 => some (.vcltuVs (fld w 25 21) (fld w 20 16) (fld w 15 11) (fld w 10 8) (fld w 7 5) (fld w 4 4))
  | 7 => some (.vcleuVs (fld w 25 21) (fld w 20 16) (fld w 15 11) (fld w 10 8) (fld w 7 5) (fld w 4 4))
  | 8 => some (.vfceqVs (fld w 25 21) (fld w 20 16) (fld w 15 11) (fld w 10 8) (fld w 7 5) (fld w 4 4))
  | 9 => some (.vfcltVs (fld w 25 21) (fld w 20 16) (fld w 15 11) (fld w 10 8) (fld w 7 5) (fld w 4 4))
  | 10 => some (.vfcleVs (fld w 25 21) (fld w 20 16) (fld w 15 11) (fld w 10 8) (fld w 7 5) (fld w 4 4))
  | 11 => some (.vfcunVs (fld w 25 21) (fld w 20 16) (fld w 15 11) (fld w 10 8) (fld w 7 5) (fld w 4 4))
  | _ => none

/-- Major 0x29 (Table 1-8): the instruction its selector [3:0] names, with its fields. -/
def pick29 (w : IWord) : Option Instr :=
  match (fld w 3 0 : BitVec 4).toNat with
  | 0 => some (.mand (fld w 25 21) (fld w 20 16) (fld w 15 11) (fld w 7 5) (fld w 4 4))
  | 1 => some (.mor (fld w 25 21) (fld w 20 16) (fld w 15 11) (fld w 7 5) (fld w 4 4))
  | 2 => some (.mxor (fld w 25 21) (fld w 20 16) (fld w 15 11) (fld w 7 5) (fld w 4 4))
  | 3 => some (.mandn (fld w 25 21) (fld w 20 16) (fld w 15 11) (fld w 7 5) (fld w 4 4))
  | 4 => some (.mnot (fld w 25 21) (fld w 20 16) (fld w 7 5) (fld w 4 4))
  | 5 => some (.mmv (fld w 25 21) (fld w 20 16) (fld w 7 5) (fld w 4 4))
  | 6 => some (.mpop (fld w 25 21) (fld w 20 16) (fld w 10 8) (fld w 4 4))
  | 7 => some (.mffs (fld w 25 21) (fld w 20 16) (fld w 10 8) (fld w 4 4))
  | 8 => some (.mset (fld w 25 21) (fld w 7 5) (fld w 4 4))
  | 9 => some (.mclr (fld w 25 21) (fld w 7 5) (fld w 4 4))
  | 10 => some (.msbf (fld w 25 21) (fld w 20 16) (fld w 10 8) (fld w 7 5) (fld w 4 4))
  | 11 => some (.mtov (fld w 25 21) (fld w 20 16) (fld w 10 8) (fld w 7 5) (fld w 4 4))
  | 12 => some (.vtom (fld w 25 21) (fld w 20 16) (fld w 10 8) (fld w 7 5) (fld w 4 4))
  | _ => none

/-- Major 0x2A (Table 1-8): the instruction its selector [3:0] names, with its fields. -/
def pick2A (w : IWord) : Option Instr :=
  match (fld w 3 0 : BitVec 4).toNat with
  | 0 => some (.vredsum (fld w 25 21) (fld w 20 16) (fld w 15 11) (fld w 10 8) (fld w 4 4))
  | 1 => some (.vredmax (fld w 25 21) (fld w 20 16) (fld w 15 11) (fld w 10 8) (fld w 4 4))
  | 2 => some (.vredmin (fld w 25 21) (fld w 20 16) (fld w 15 11) (fld w 10 8) (fld w 4 4))
  | 3 => some (.vredmaxu (fld w 25 21) (fld w 20 16) (fld w 15 11) (fld w 10 8) (fld w 4 4))
  | 4 => some (.vredminu (fld w 25 21) (fld w 20 16) (fld w 15 11) (fld w 10 8) (fld w 4 4))
  | 5 => some (.vredand (fld w 25 21) (fld w 20 16) (fld w 15 11) (fld w 10 8) (fld w 4 4))
  | 6 => some (.vredor (fld w 25 21) (fld w 20 16) (fld w 15 11) (fld w 10 8) (fld w 4 4))
  | 7 => some (.vfredsum (fld w 25 21) (fld w 20 16) (fld w 15 11) (fld w 10 8) (fld w 4 4))
  | 8 => some (.vfredmax (fld w 25 21) (fld w 20 16) (fld w 15 11) (fld w 10 8) (fld w 4 4))
  | 9 => some (.vfredmin (fld w 25 21) (fld w 20 16) (fld w 15 11) (fld w 10 8) (fld w 4 4))
  | 10 => some (.vnorm (fld w 25 21) (fld w 20 16) (fld w 15 11) (fld w 10 8) (fld w 4 4))
  | 11 => some (.vnormd (fld w 25 21) (fld w 20 16) (fld w 15 11) (fld w 10 8) (fld w 4 4))
  | 12 => some (.vfdot (fld w 25 21) (fld w 20 16) (fld w 15 11) (fld w 10 8) (fld w 4 4))
  | _ => none

/-- Major 0x2B (Table 1-8): the instruction its selector [3:0] names, with its fields. -/
def pick2B (w : IWord) : Option Instr :=
  match (fld w 3 0 : BitVec 4).toNat with
  | 0 => some (.vslup (fld w 25 21) (fld w 20 16) (fld w 15 11) (fld w 10 8) (fld w 4 4))
  | 1 => some (.vsldn (fld w 25 21) (fld w 20 16) (fld w 15 11) (fld w 10 8) (fld w 4 4))
  | 2 => some (.vperm (fld w 25 21) (fld w 20 16) (fld w 15 11) (fld w 10 8) (fld w 4 4))
  | 3 => some (.vcomp (fld w 25 21) (fld w 20 16) (fld w 10 8) (fld w 4 4))
  | 4 => some (.vexpd (fld w 25 21) (fld w 20 16) (fld w 10 8) (fld w 4 4))
  | 5 => some (.vbcs (fld w 25 21) (fld w 15 11) (fld w 10 8) (fld w 4 4))
  | 6 => some (.vext (fld w 25 21) (fld w 20 16) (fld w 15 11) (fld w 4 4))
  | 7 => some (.vins (fld w 25 21) (fld w 20 16) (fld w 15 11) (fld w 4 4))
  | 8 => some (.vid (fld w 25 21) (fld w 10 8) (fld w 4 4))
  | 9 => some (.viota (fld w 25 21) (fld w 20 16) (fld w 10 8) (fld w 4 4))
  | 10 => some (.vrev (fld w 25 21) (fld w 20 16) (fld w 10 8) (fld w 4 4))
  | 11 => some (.vtopk (fld w 25 21) (fld w 20 16) (fld w 15 11) (fld w 10 8) (fld w 4 4))
  | 12 => some (.vzip (fld w 25 21) (fld w 20 16) (fld w 15 11) (fld w 10 8) (fld w 4 4))
  | 13 => some (.vuzp (fld w 25 21) (fld w 20 16) (fld w 15 11) (fld w 10 8) (fld w 4 4))
  | _ => none

/-- Major 0x2C (Table 1-8): the instruction its selector [7:5] names, with its fields. -/
def pick2C (w : IWord) : Option Instr :=
  match (fld w 7 5 : BitVec 3).toNat with
  | 0 => some (.vld (fld w 25 21) (fld w 20 16) (fld w 10 8) (fld w 4 4))
  | 1 => some (.vlds (fld w 25 21) (fld w 20 16) (fld w 15 11) (fld w 10 8) (fld w 4 4))
  | 2 => some (.vldx (fld w 25 21) (fld w 20 16) (fld w 15 11) (fld w 10 8) (fld w 4 4) (fld w 3 0))
  | 3 => some (.vldFf (fld w 25 21) (fld w 20 16) (fld w 10 8) (fld w 4 4))
  | 4 => some (.vldw (fld w 25 21) (fld w 20 16) (fld w 4 4))
  | _ => none

/-- Major 0x2D (Table 1-8): the instruction its selector [7:5] names, with its fields. -/
def pick2D (w : IWord) : Option Instr :=
  match (fld w 7 5 : BitVec 3).toNat with
  | 0 => some (.vst (fld w 25 21) (fld w 20 16) (fld w 10 8) (fld w 4 4))
  | 1 => some (.vsts (fld w 25 21) (fld w 20 16) (fld w 15 11) (fld w 10 8) (fld w 4 4))
  | 2 => some (.vstx (fld w 25 21) (fld w 20 16) (fld w 15 11) (fld w 10 8) (fld w 4 4) (fld w 3 0))
  | 4 => some (.vstw (fld w 25 21) (fld w 20 16) (fld w 4 4))
  | _ => none

/-- Major 0x2E (Table 1-8): the instruction its selector [3:0] names, with its fields. -/
def pick2E (w : IWord) : Option Instr :=
  match (fld w 3 0 : BitVec 4).toNat with
  | 0 => some (.vamoAdd (fld w 25 21) (fld w 20 16) (fld w 15 11) (fld w 10 8) (fld w 7 5) (fld w 4 4))
  | 1 => some (.vamoMin (fld w 25 21) (fld w 20 16) (fld w 15 11) (fld w 10 8) (fld w 7 5) (fld w 4 4))
  | 2 => some (.vamoMax (fld w 25 21) (fld w 20 16) (fld w 15 11) (fld w 10 8) (fld w 7 5) (fld w 4 4))
  | 3 => some (.vamoAnd (fld w 25 21) (fld w 20 16) (fld w 15 11) (fld w 10 8) (fld w 7 5) (fld w 4 4))
  | 4 => some (.vamoOr (fld w 25 21) (fld w 20 16) (fld w 15 11) (fld w 10 8) (fld w 7 5) (fld w 4 4))
  | 5 => some (.vamoXor (fld w 25 21) (fld w 20 16) (fld w 15 11) (fld w 10 8) (fld w 7 5) (fld w 4 4))
  | 6 => some (.vamoSwp (fld w 25 21) (fld w 20 16) (fld w 15 11) (fld w 10 8) (fld w 7 5) (fld w 4 4))
  | 7 => some (.vamoFadd (fld w 25 21) (fld w 20 16) (fld w 15 11) (fld w 10 8) (fld w 7 5) (fld w 4 4))
  | 8 => some (.vamoFmax (fld w 25 21) (fld w 20 16) (fld w 15 11) (fld w 10 8) (fld w 7 5) (fld w 4 4))
  | _ => none

/-- Major 0x2F (Table 1-8): the instruction its selector [3:0] names, with its fields. -/
def pick2F (w : IWord) : Option Instr :=
  match (fld w 3 0 : BitVec 4).toNat with
  | 0 => some (.vlls (fld w 25 21) (fld w 20 16) (fld w 10 8) (fld w 4 4))
  | 1 => some (.vsls (fld w 25 21) (fld w 20 16) (fld w 10 8) (fld w 4 4))
  | 2 => some (.vxlt (fld w 25 21) (fld w 20 16) (fld w 15 11) (fld w 10 8) (fld w 4 4))
  | 3 => some (.vxltFf (fld w 25 21) (fld w 20 16) (fld w 15 11) (fld w 10 8) (fld w 4 4))
  | _ => none

/-- Major 0x30 (Table 1-8): the instruction its selector [3:0] names, with its fields. -/
def pick30 (w : IWord) : Option Instr :=
  match (fld w 3 0 : BitVec 4).toNat with
  | 0 => some (.qbind (fld w 25 21) (fld w 20 16) (fld w 4 4))
  | 1 => some (.qfree (fld w 25 21) (fld w 4 4))
  | 2 => some (.qstat (fld w 25 21) (fld w 20 16) (fld w 4 4))
  | 3 => some (.vcopy (fld w 25 21) (fld w 20 16) (fld w 10 8) (fld w 4 4))
  | 4 => some (.vcopyFf (fld w 25 21) (fld w 20 16) (fld w 10 8) (fld w 4 4))
  | 5 => some (.vcopyB (fld w 25 21) (fld w 20 16) (fld w 10 8) (fld w 4 4))
  | _ => none

/-- Major 0x31 (Table 1-8): the instruction its selector [3:0] names, with its fields. -/
def pick31 (w : IWord) : Option Instr :=
  match (fld w 3 0 : BitVec 4).toNat with
  | 0 => some (.rset (fld w 20 16) (fld w 15 11) (fld w 4 4))
  | 1 => some (.rpost (fld w 25 21) (fld w 20 16) (fld w 15 11) (fld w 10 8) (fld w 4 4))
  | 2 => some (.rbound (fld w 25 21) (fld w 20 16) (fld w 4 4))
  | 3 => some (.rleave (fld w 25 21) (fld w 20 16) (fld w 15 11) (fld w 4 4))
  | 4 => some (.rwin (fld w 25 21) (fld w 20 16) (fld w 15 11) (fld w 4 4))
  | 5 => some (.rstat (fld w 25 21) (fld w 20 16) (fld w 4 4))
  | _ => none

/-- Major 0x32 (Table 1-8): the instruction its selector [3:0] names, with its fields. -/
def pick32 (w : IWord) : Option Instr :=
  match (fld w 3 0 : BitVec 4).toNat with
  | 0 => some (.chset (fld w 25 21) (fld w 20 16) (fld w 15 11) (fld w 4 4))
  | 1 => some (.chcount (fld w 25 21) (fld w 20 16) (fld w 15 11) (fld w 4 4))
  | 2 => some (.chplace (fld w 25 21) (fld w 20 16) (fld w 4 4))
  | 3 => some (.chsend (fld w 25 21) (fld w 20 16) (fld w 15 11) (fld w 4 4))
  | 4 => some (.chdone (fld w 25 21) (fld w 20 16) (fld w 4 4))
  | 5 => some (.chstat (fld w 25 21) (fld w 20 16) (fld w 4 4))
  | _ => none

/-- Major 0x33 (Table 1-8): the instruction its selector [3:0] names, with its fields. -/
def pick33 (w : IWord) : Option Instr :=
  match (fld w 3 0 : BitVec 4).toNat with
  | 0 => some (.pld (fld w 25 21) (fld w 20 16) (fld w 10 7) (fld w 6 4))
  | 1 => some (.pst (fld w 25 21) (fld w 20 16) (fld w 10 7) (fld w 6 4))
  | 2 => some (.pamoSwp (fld w 25 21) (fld w 20 16) (fld w 15 11) (fld w 10 7) (fld w 6 4))
  | 3 => some (.pamoAdd (fld w 25 21) (fld w 20 16) (fld w 15 11) (fld w 10 7) (fld w 6 4))
  | 4 => some (.pamoAnd (fld w 25 21) (fld w 20 16) (fld w 15 11) (fld w 10 7) (fld w 6 4))
  | 5 => some (.pamoOr (fld w 25 21) (fld w 20 16) (fld w 15 11) (fld w 10 7) (fld w 6 4))
  | 6 => some (.pamoXor (fld w 25 21) (fld w 20 16) (fld w 15 11) (fld w 10 7) (fld w 6 4))
  | 7 => some (.pamoMin (fld w 25 21) (fld w 20 16) (fld w 15 11) (fld w 10 7) (fld w 6 4))
  | 8 => some (.pamoMax (fld w 25 21) (fld w 20 16) (fld w 15 11) (fld w 10 7) (fld w 6 4))
  | 9 => some (.pamoMinu (fld w 25 21) (fld w 20 16) (fld w 15 11) (fld w 10 7) (fld w 6 4))
  | 10 => some (.pamoMaxu (fld w 25 21) (fld w 20 16) (fld w 15 11) (fld w 10 7) (fld w 6 4))
  | 11 => some (.pamoCas (fld w 25 21) (fld w 20 16) (fld w 15 11) (fld w 10 7) (fld w 6 4))
  | _ => none

/-- Major 0x34 (Table 1-8): the instruction its selector [7:5] names, with its fields. -/
def pick34 (w : IWord) : Option Instr :=
  match (fld w 7 5 : BitVec 3).toNat with
  | 0 => some (.pvld (fld w 25 21) (fld w 20 16) (fld w 10 8) (fld w 4 4) (fld w 3 0))
  | 1 => some (.pvldx (fld w 25 21) (fld w 20 16) (fld w 15 11) (fld w 10 8) (fld w 4 4) (fld w 3 0))
  | 2 => some (.pvst (fld w 25 21) (fld w 20 16) (fld w 10 8) (fld w 4 4) (fld w 3 0))
  | 3 => some (.pvstx (fld w 25 21) (fld w 20 16) (fld w 15 11) (fld w 10 8) (fld w 4 4) (fld w 3 0))
  | 4 => some (.pvamoAdd (fld w 25 21) (fld w 20 16) (fld w 15 11) (fld w 10 8) (fld w 4 4) (fld w 3 0))
  | 5 => some (.qbindF (fld w 25 21) (fld w 20 16) (fld w 4 4) (fld w 3 0))
  | _ => none

/-- Major 0x35 (Table 1-8): the instruction its selector [3:0] names, with its fields. -/
def pick35 (w : IWord) : Option Instr :=
  match (fld w 3 0 : BitVec 4).toNat with
  | 0 => some (.vcsum (fld w 25 21) (fld w 20 16) (fld w 12 11) (fld w 4 4))
  | 1 => some (.vcmax (fld w 25 21) (fld w 20 16) (fld w 12 11) (fld w 4 4))
  | 2 => some (.vcmin (fld w 25 21) (fld w 20 16) (fld w 12 11) (fld w 4 4))
  | 3 => some (.vcgat (fld w 25 21) (fld w 20 16) (fld w 12 11) (fld w 4 4))
  | 4 => some (.vcsct (fld w 25 21) (fld w 20 16) (fld w 12 11) (fld w 4 4))
  | 5 => some (.vcbc (fld w 25 21) (fld w 20 16) (fld w 12 11) (fld w 4 4))
  | 6 => some (.vcscan (fld w 25 21) (fld w 20 16) (fld w 12 11) (fld w 4 4))
  | 7 => some (.gabort (fld w 12 11) (fld w 4 4))
  | 8 => some (.gstat (fld w 25 21) (fld w 12 11) (fld w 4 4))
  | 9 => some (.tkwait (fld w 25 21) (fld w 20 16) (fld w 4 4))
  | 10 => some (.tkpoll (fld w 25 21) (fld w 4 4))
  | _ => none

/-- Major 0x36 (Table 1-8): the instruction its selector [5:0] names, with its fields. -/
def pick36 (w : IWord) : Option Instr :=
  match (fld w 5 0 : BitVec 6).toNat with
  | 0 => some (.vsave (fld w 20 16))
  | 1 => some (.vrest (fld w 20 16))
  | 2 => some (.brole (fld w 20 16))
  | _ => none

/-- The major opcodes that Table 1-8 assigns to one-word instructions (R22). -/
def majorAssigned (m : Nat) : Bool := (1 ≤ m && m ≤ 0x36)

/-- The instruction that the major and the selector of a word name, with the fields its form uses (Table 1-8). -/
def pick (w : IWord) : Option Instr :=
  match (fld w 31 26 : BitVec 6).toNat with
  | 0x01 => pick01 w
  | 0x02 => pick02 w
  | 0x03 => pick03 w
  | 0x04 => pick04 w
  | 0x05 => pick05 w
  | 0x06 => pick06 w
  | 0x07 => pick07 w
  | 0x08 => pick08 w
  | 0x09 => pick09 w
  | 0x0A => pick0A w
  | 0x0B => pick0B w
  | 0x0C => pick0C w
  | 0x0D => pick0D w
  | 0x0E => pick0E w
  | 0x0F => pick0F w
  | 0x10 => pick10 w
  | 0x11 => pick11 w
  | 0x12 => pick12 w
  | 0x13 => pick13 w
  | 0x14 => pick14 w
  | 0x15 => pick15 w
  | 0x16 => pick16 w
  | 0x17 => pick17 w
  | 0x18 => pick18 w
  | 0x19 => pick19 w
  | 0x1A => pick1A w
  | 0x1B => pick1B w
  | 0x1C => pick1C w
  | 0x1D => pick1D w
  | 0x1E => pick1E w
  | 0x1F => pick1F w
  | 0x20 => pick20 w
  | 0x21 => pick21 w
  | 0x22 => pick22 w
  | 0x23 => pick23 w
  | 0x24 => pick24 w
  | 0x25 => pick25 w
  | 0x26 => pick26 w
  | 0x27 => pick27 w
  | 0x28 => pick28 w
  | 0x29 => pick29 w
  | 0x2A => pick2A w
  | 0x2B => pick2B w
  | 0x2C => pick2C w
  | 0x2D => pick2D w
  | 0x2E => pick2E w
  | 0x2F => pick2F w
  | 0x30 => pick30 w
  | 0x31 => pick31 w
  | 0x32 => pick32 w
  | 0x33 => pick33 w
  | 0x34 => pick34 w
  | 0x35 => pick35 w
  | 0x36 => pick36 w
  | _ => none

/-- The tile instruction that the TOP of a prefix names, with the fields Table 1-6 gives it. -/
def pickTile (p b : IWord) : Option Instr :=
  match (fld p 25 21 : BitVec 5).toNat with
  | 0 => some (.tcfg (fld p 20 18) (fld p 11 9) (fld b 15 11) (fld b 4 4))
  | 1 => some (.tzero (fld p 20 18) (fld b 4 4))
  | 2 => some (.vopa (fld p 20 18) (fld p 17 15) (fld p 14 12) (fld p 8 7) (fld b 25 21) (fld b 20 16) (fld b 4 4))
  | 3 => some (.tld (fld p 20 18) (fld p 11 9) (fld p 6 0) (fld b 15 11) (fld b 4 4))
  | 4 => some (.tst (fld p 20 18) (fld p 11 9) (fld p 6 0) (fld b 15 11) (fld b 4 4))
  | 5 => some (.trow (fld p 20 18) (fld p 6 0) (fld b 25 21) (fld b 4 4))
  | 6 => some (.tepi (fld p 20 18) (fld p 11 9) (fld p 8 7) (fld p 6 0) (fld b 15 11) (fld b 4 4))
  | 7 => if (fld p 0 0 : BitVec 1) = 1 then some (.gmmE (fld p 20 18) (fld b 20 16) (fld b 15 11) (fld b 4 4)) else some (.gmm (fld p 20 18) (fld b 20 16) (fld b 15 11) (fld b 4 4))
  | 8 => some (.cload (fld p 20 18) (fld p 11 9) (fld b 15 11) (fld b 4 4))
  | 9 => some (.ctest (fld p 20 18) (fld p 11 9) (fld b 25 21) (fld b 20 16) (fld b 10 8) (fld b 7 5) (fld b 4 4))
  | 10 => some (.cleaf (fld b 25 21) (fld b 20 16) (fld b 15 11) (fld b 10 8) (fld b 4 4))
  | 11 => some (.ctestC (fld p 20 18) (fld p 11 9) (fld b 25 21) (fld b 20 16) (fld b 10 8) (fld b 7 5) (fld b 4 4))
  | 12 => some (.tsave (fld p 20 18) (fld b 15 11) (fld b 4 4))
  | 13 => some (.trest (fld p 20 18) (fld b 15 11) (fld b 4 4))
  | _ => none

/-- The instructions whose vb field names a group register in its low two bits (Table 1-2). -/
def isGroupWord : Instr → Bool
  | .vcsum _ _ _ _ | .vcmax _ _ _ _ | .vcmin _ _ _ _ | .vcgat _ _ _ _ | .vcsct _ _ _ _ | .vcbc _ _ _ _ | .vcscan _ _ _ _ => true
  | .gabort _ _ | .gstat _ _ _ => true
  | _ => false

/-- What decoding one instruction gives: the instruction, or the ILL subcode of Table 1-10 with the word that failed (R24). -/
inductive Decoded where
  /-- A legal instruction of `len` bytes. -/
  | ok (i : Instr) (len : Nat)
  /-- An illegal word: the subcode and the word that TVAL[63:32] reports (R24). -/
  | ill (sub : BitVec 8) (word : IWord)
  /-- The bytes end before the instruction does. -/
  | short
  deriving DecidableEq, Repr

/-- The prefix bits that Table 1-6 lets the TOP of a prefix use differ from the word: an unused field is not 0 (R19). -/
def prefixBad (i : Instr) (p : IWord) : Bool := encodeWord i != p

/-- The body word holds a nonzero field that Table 1-6 does not give its TOP (R16, R19). -/
def bodyBad (i : Instr) (b : IWord) : Bool := encodeBody i != some b

/-- The subcode of a word that differs from its instruction's encoding: a group field with vb[4:2] nonzero names a register outside
its set (Table 1-2, 14 R345 to R349), every other difference is a nonzero must-be-zero bit (R13). -/
def mbzSub (i : Instr) (w : IWord) : BitVec 8 :=
  if isGroupWord i && BitVec.ofNat 32 (w.toNat - w.toNat / 2 ^ 13 % 8 * 2 ^ 13) == encodeWord i then 0x04 else 0x03

/-- Decoding one 32-bit word that is not a tile prefix (R22 to R25): the lowest subcode of the conditions the word alone decides,
but for those that `Machine.Ops` checks with the hart's open convoy (0x07, 0x09 to 0x0B). -/
def decodeWord (w : IWord) : Decoded :=
  if (fld w 31 26 : BitVec 6) = 0x3E then .ill 0x05 w else
  if majorAssigned (fld w 31 26 : BitVec 6).toNat = false then .ill 0x01 w else
  match pick w with
  | none => .ill 0x02 w
  | some i =>
    if encodeWord i != w then .ill (mbzSub i w) w else
    match illFields i with
    | some sub => .ill sub w
    | none => .ok i 4

/-- Decoding a prefix word and the word after it (R16 to R19, R24, R25): where both words have a nonzero unused field, the body word is the one that
failed. -/
def decodePair (p b : IWord) : Decoded :=
  match pickTile p b with
  | none => .ill 0x02 p
  | some i =>
    if (fld b 31 26 : BitVec 6) = 0x3E ∧ bodyBad i b = true then .ill 0x03 b else
    if prefixBad i p then .ill 0x03 p else
    if (fld b 31 26 : BitVec 6) ≠ 0x3E then .ill 0x06 p else
    match illFields i with
    | some sub => .ill sub b
    | none => .ok i 8

/-- Decoding from the words at the program counter: one word, or a prefix with the word after it. -/
def decode : List IWord → Decoded
  | [] => .short
  | w :: rest =>
    if (fld w 31 26 : BitVec 6) = 0x3F then
      match rest with
      | [] => .short
      | b :: _ => decodePair w b
    else decodeWord w

/-- A word from its four bytes, the byte at the lowest address first (R7). -/
def wordOfBytes (b0 b1 b2 b3 : Byte) : IWord :=
  BitVec.ofNat 32 (b0.toNat + b1.toNat * 2 ^ 8 + b2.toNat * 2 ^ 16 + b3.toNat * 2 ^ 24)

/-- The words that a list of bytes holds, four bytes each (R7). -/
def wordsOfBytes : List Byte → List IWord
  | b0 :: b1 :: b2 :: b3 :: rest => wordOfBytes b0 b1 b2 b3 :: wordsOfBytes rest
  | _ => []

/-- The four bytes of a word, lowest address first (R7). -/
def bytesOfWord (w : IWord) : List Byte :=
  [fld w 7 0, fld w 15 8, fld w 23 16, fld w 31 24]

/-- The words of an instruction in memory order (R7, R16). -/
def encode (i : Instr) : List IWord :=
  encodeWord i :: (encodeBody i).toList

/-- Decoding from bytes. -/
def decodeBytes (bs : List Byte) : Decoded := decode (wordsOfBytes bs)

/-- The bytes of an instruction whose bits are w, the opcode table's bit 0 being the lowest bit of the first word,
followed by zeros up to the longest instruction (8 bytes). -/
def tableBytes (nbits w : Nat) : List Byte :=
  (List.range 8).map (fun k => BitVec.ofNat 8 (w % 2 ^ nbits / 2 ^ (8 * k)))

/-- The instruction the decoder reads from an instruction of the opcode table whose bits are w. -/
def decodeTableWord (nbits w : Nat) : Option Instr :=
  match decodeBytes (tableBytes nbits w) with
  | .ok i _ => some i
  | _ => none

end

end Sys2Proof
end

