-- ==== Sys2Proof/Machine/State.lean ====
section
/-! DEFINITION. The state of one SX4 package, as plain data: its harts, cores, clusters, dies, memory, firmware and port
(Table 2-1, Table 2-2 and the state tables of the later chapters), and the state after reset. -/

namespace Sys2Proof.Machine

open Sys2Proof

/-- The reasons a step can stop with a fault. The spec gives every condition of the machine an effect (a trap, a status value, a
completion), so no meaning raises one. -/
inductive Fault where
  /-- Raised by nobody; safe. -/
  | unreachable
  deriving DecidableEq, Repr

/-- The reasons a step can be refused. -/
inductive Refusal where
  /-- The instruction has no meaning in the model yet; raised by the arm of `exec` that names it; safe: nothing is said of it. -/
  | notModelled (mnemonic : String)
  deriving DecidableEq, Repr

/-- The unit classes of Tables 4-2 and 6-2. -/
inductive UnitClass where
  | valu | vmul | vlsu | xlane | tile | engine
  deriving DecidableEq, Repr

/-- The open convoy of a hart (R15, R157): its members' classes, oldest first, and the s registers they write (R94). -/
structure Convoy where
  members : List UnitClass
  swrites : List Reg5
  deriving DecidableEq, Repr

/-- An entry of the address interlock (R172): its number and the ranges of 64-byte lines, first and last, that it covers. -/
structure Lock where
  num   : Nat
  lines : List (Nat × Nat)
  deriving DecidableEq, Repr

/-- A write of the hart that has retired and not yet performed (R159, R169): its place in program order, its location, its bytes, the strip it belongs to,
for a vector atomic that waits at its Pail unit its code, rounding mode and whether it adds f32 (R229; its bytes are then the operand), the address, the
physical lane whose store buffer holds it, and the interlock entry of its instruction. -/
structure PendWrite where
  seq   : Nat
  loc   : Nat
  bytes : List Byte
  strip : Nat
  rmw   : Option (Nat × Nat × Bool)
  va    : Word
  lane  : Nat
  lock  : Lock
  deriving DecidableEq, Repr

/-- Why a hart that waits for nothing else cannot issue its next instruction (R149): a structural resource is busy, or the instruction waits for the
earlier ones of its hart; `role` where that is a `brole`, which no other hart of the core issues beside (R164). -/
inductive Stall where
  | none | held | waiting | role
  deriving DecidableEq, Repr

/-- A replay notice for a ticket that the instruction at PC has been answered with and has not entered yet (R326, R328): package, page, ticket, whether it was
serviced, and the order of its arrival. -/
structure Told where
  pkg    : Nat
  page   : Nat
  ticket : Nat
  ok     : Bool
  ord    : Nat
  deriving DecidableEq, Repr

/-- What an address names for an access: a location of the package, host memory, a page of another package, or nothing (R221 to R224, R312). -/
inductive Place where
  | loc (l : Nat) (strict : Bool)
  | host (l : Nat) (strict : Bool)
  | peer (pkg : Nat) (addr : Word) (strict : Bool)
  | fault (kind : Nat)
  deriving DecidableEq, Repr

/-- The kinds of access that translation tells apart (R224). -/
inductive AccK where
  | read | write | fetch
  deriving DecidableEq, Repr

/-- A translation that the instruction in progress has made, which stands for it until it ends (R121): the address bits above the `bits` low ones, 0 of them
where the instruction translates each element on its own, the kind of access, and the place of the first address there. -/
structure Placing where
  base  : Nat
  bits  : Nat
  acc   : AccK
  place : Place
  deriving DecidableEq, Repr

/-- A convoy that has not begun (R152, R156): its members' classes, oldest first; `joins` where they join the convoy that runs; and, where one of them takes
the TILE unit, the clock at which that one was issued (R176). -/
structure QConvoy where
  members : List UnitClass
  joins   : Bool
  tile    : Option Nat
  deriving DecidableEq, Repr

/-- A vector instruction that stands in the vector queue and has not been executed (R152): its words, its PC, the s registers captured at issue (R94), the
translations it has made, the counter by which the host refuses its accesses, its interlock entry (R172), the number of its first write, and the convoy it has joined. -/
structure Late where
  words  : List IWord
  pc     : Word
  s      : Vector Word 32
  places : List Placing
  refuse : Option Nat
  lock   : Lock
  seq    : Nat
  convoy : Option Convoy
  deriving DecidableEq, Repr

/-- What a hart that takes no issue slot waits for (R88, R89, R186, R197, R201, R314, R333, R346, 11 R272, R276). -/
inductive Wait where
  | none
  | wfi
  | mwait (loc : Nat) (since : Nat)
  | tas (n : Nat)
  | bar (arrived : Bool)
  | tkwait (limit : Option Nat)
  | remote (left : Nat)
  | group (g : Nat)
  | credit (since : Option Nat)
  | churn (k first : Nat)
  deriving DecidableEq, Repr

/-- What a wait ended with, for the instruction at PC to complete by (R89, R198, R201, R333). -/
inductive Resume where
  | none
  | woken
  | granted (waited : Nat)
  | barrier (fault : Bool)
  | limit
  | answered
  | go (result : List Nat) (exc : Nat)
  | aborted
  deriving DecidableEq, Repr

/-- A group register (R343, R349). -/
structure Group where
  v    : Bool
  ab   : Bool
  why  : BitVec 2
  last : BitVec 2
  orig : BitVec 10
  gid  : BitVec 16
  rank : BitVec 10
  nm1  : BitVec 10
  deriving DecidableEq, Repr

/-- A fetch of a stream that faulted (R212, R214): the trap that its consumer takes, by cause and TVAL, and whether one has taken it. -/
structure StreamFault where
  cause : BitVec 8
  tval  : Word
  taken : Bool
  deriving DecidableEq, Repr

/-- A stream binding of v24 to v31 (R211 to R213, R235, R350, R351): the record's address and fields as read at the bind, the count of
elements consumed or appended, the elements fetched ahead of it, and the fault of the fetch after those, if it faulted. `peer` is the peer register
of a fabric binding and `group` the group register of one with GV = 1. -/
structure Stream where
  recAddr : Word
  fabric  : Bool
  peer    : BitVec 4
  group   : Option (BitVec 2)
  mode    : BitVec 2
  out     : Bool
  sew     : BitVec 3
  base    : Word
  stride  : Word
  count   : Nat
  pos     : Word
  table   : Word
  rstride : Word
  nblk    : Nat
  flaga   : Word
  seq     : Word
  done    : Nat
  fetched : List Nat
  flt     : Option StreamFault
  deriving DecidableEq, Repr

/-- A collective that a hart has begun (R346): the group register, what it brings, its source, whether GO has reached it, the elements of its destination with those
received, the exceptions of the combination, and whether it has asked to withdraw its arrival. -/
structure Coll where
  g    : BitVec 2
  key  : CollKey
  src  : List Nat
  go   : Bool
  want : Nat
  got  : List (Nat × Nat)
  exc  : BitVec 10
  asked : Bool
  deriving DecidableEq, Repr

/-- The state of a hart (Tables 2-1 and 2-2). -/
structure Hart where
  /-- HARTID[9:0]: die, cluster, core and hart (Table 2-6). -/
  id      : Nat
  /-- The hart runs a job (12 R291, R294). -/
  run     : Bool
  pc      : Word
  s       : Vector Word 32
  v       : Vector VBits 32
  /-- m1 to m7, mK at index K - 1. -/
  m       : Vector MBits 7
  vl      : Nat
  vtype   : BitVec 16
  vstart  : BitVec 16
  lanes   : Nat
  pend    : Nat
  slip    : BitVec 5
  fcsr    : BitVec 10
  status  : BitVec 10
  tmap    : Word
  skey    : Word
  sstep   : Word
  cause   : BitVec 8
  epc     : Word
  tval    : Word
  tvec    : Word
  ctxid   : BitVec 16
  vownV   : Bool
  vownCtx : BitVec 16
  fltBase : BitVec 48
  fltHead : BitVec 6
  fltn    : BitVec 32
  tkOvf   : Bool
  jobid   : Word
  gang    : Word
  peers   : Vector Word 16
  groups  : Vector Group 4
  streams : Vector (Option Stream) 8
  /-- The pending set of software interrupts, ascending (12 R285). -/
  irqs    : List Nat
  /-- A pre-emption request is pending (12 R292). -/
  preempt : Bool
  /-- Firmware has taken the hart's YIELD, and the hart is stopped (12 R292). -/
  yielded : Bool
  /-- The pending request came during the instruction that runs next (R132). -/
  seen    : Bool
  /-- Firmware stops the hart at its next instruction boundary (12 R294). -/
  stop    : Bool
  convoy  : Option Convoy
  /-- The instruction at PC is the reissue that a `tret` with REISSUE = 1 returned into (R36). -/
  reissue : Bool
  /-- The scalar store buffer, oldest first (R169). -/
  sbuf    : List PendWrite
  /-- The lane store buffers and engine writes not yet performed, oldest first (R159). -/
  vbuf    : List PendWrite
  /-- The strip in which the hart is: the number of its `vsetl` and `vsetli` (R40). -/
  strip   : Nat
  /-- The number of writes the hart has put in its buffers. -/
  wseq    : Nat
  wait    : Wait
  resume  : Resume
  /-- The commit boundary at which a pending request stops the long instruction (R132). -/
  stopAt  : Option Nat
  /-- The answers the instruction at PC has received (R314, R320): element number and answer. -/
  answers : List (Nat × RAns)
  /-- What the instruction at PC has asked other packages for: element number, package and address there. -/
  asked   : List (Nat × Nat × Word)
  told    : List Told
  /-- The words of the instruction at PC, once it has begun and waits (R314, R320); none where it has not begun. -/
  cur     : List IWord
  /-- The translations that the instruction at PC has made (R121, R226). -/
  places  : List Placing
  /-- The counter by which the host refuses accesses of the instruction at PC, once it is drawn (log 16). -/
  refuse  : Option Nat
  /-- The instruction at PC has made its interlock entry (R172). -/
  opened  : Bool
  /-- The row of the `tepi` at PC for which credit has come (R185, R186). -/
  credit  : Option Nat
  /-- The interlock entry of the memory instruction that came last (R172). -/
  lock    : Lock
  /-- The vector queue: the convoys that have not begun, oldest first (R152, R156). -/
  vq      : List QConvoy
  /-- The instructions of the queue that have not been executed, oldest first; the model has executed the others (R152, log 37). -/
  late    : List Late
  /-- The members of the convoy that runs (R156). -/
  busy    : List UnitClass
  stall   : Stall
  /-- The number of writes of the package at the job's start or the hart's last `fence.c` (R77). -/
  constAt : Nat
  /-- The index of the gang's barrier register (R200). -/
  bar     : Nat
  coll    : Option Coll
  /-- The codewords of the hart's registers with an uncorrectable error (R140, R306): 512 numbers for each of v0 to v31, m0 to m7, s0 to s31. -/
  bad     : List Nat
  /-- The class of the unit that the instruction at PC has while it waits (R154, R156, R176). -/
  inUse   : Option UnitClass
  /-- The dispatch context at which the instruction at PC is being applied (11 R267, R269). -/
  claim   : Option Nat
  deriving DecidableEq, Repr

/-- An exact sum of an open K-block (R179, R180): the accumulator's index, the marks, and the sum times 2^288 (Table 7-8). -/
structure BlkCell where
  pos  : Nat
  nan  : Bool
  pinf : Bool
  ninf : Bool
  sum  : Int
  deriving DecidableEq, Repr

/-- The tile state of a TL bank but for its bytes (Table 7-1). -/
structure Tile where
  curd : Bool
  f32  : Bool
  tm   : Nat
  tn   : Nat
  kc   : Nat
  blk  : List BlkCell
  bsa  : Vector Byte 128
  bsb  : Vector Byte 128
  nl   : Vector Byte 128
  deriving DecidableEq, Repr

/-- The states of a ticket table entry in use (R325). -/
inductive TkState where
  | wait | ready | fail | failr
  deriving DecidableEq, Repr

/-- An entry of a core's ticket table that is not FREE (Table 13-5); `ord` is the order in which its notice arrived. -/
structure Ticket where
  state  : TkState
  ticket : BitVec 16
  pkg    : BitVec 7
  page   : BitVec 39
  hart   : BitVec 2
  ctx    : BitVec 16
  ord    : Nat
  deriving DecidableEq, Repr

/-- The state of a core (R150, R161, R175, R325, R237): the bank roles, the tile states of the TL banks, the ticket table, the
constant cache's lines with the bytes they hold, the WAIT counters of its harts and the hart that issued last. -/
structure Core where
  brole   : Word
  tiles   : List (Nat × Tile)
  tickets : List Ticket
  consts  : List (Nat × List Byte)
  icache  : List (Nat × List Byte)
  waits   : Vector Nat 4
  last    : Nat
  deriving DecidableEq, Repr

/-- A semaphore bit with the harts waiting for it, oldest first (R196). -/
structure Sem where
  bit   : Bool
  queue : List (Nat × Nat)
  deriving DecidableEq, Repr

/-- A gang barrier register (Table 8-2). -/
structure Bar where
  n     : Nat
  count : Nat
  arr   : BitVec 32
  phase : Bool
  pend  : Word
  fault : Bool
  deriving DecidableEq, Repr

/-- A copy that the engine has accepted and not finished (R205, R206, R208, R209): the issuing hart with its barrier, context and mode, the
element bytes, the addresses, the strip of the instruction (Table 6-5), the active elements of an overlapping copy whose source is still to be read before it begins with the values read so, the active
elements not yet performed, what its fault record says, and the request it waits for with the answers to its element and what was asked for; `sync` marks the place of a `vcopy` or `vcopy.ff` whose hart performs it. -/
structure Copy where
  hart   : Nat
  bar    : Nat
  ctx    : BitVec 16
  user   : Bool
  n      : Nat
  dst    : Word
  src    : Word
  toSave : List Nat
  saved  : List (Nat × Nat)
  left   : List Nat
  vl     : Nat
  vstart : Nat
  word   : IWord
  pc     : Word
  reiss  : Bool
  wait   : Option Nat
  answer : List (Nat × RAns)
  asked  : List (Nat × Nat × Word)
  told   : List Told
  strip  : Nat
  sync   : Bool
  deriving DecidableEq, Repr

/-- The state of a cluster (R195, R196, R200, R205). -/
structure Cluster where
  owner  : Option (BitVec 16)
  sems   : Vector Sem 64
  cds    : Vector Word 16
  bars   : Vector Bar 32
  copies : List Copy
  deriving DecidableEq, Repr

/-- A translation that is held (R226): by the TLB of die `unit`, 0 to 3, or by the translation unit of core `unit` - 4; the context, the first page number it
maps and the level of its leaf, the leaf, and whether it was installed for a write (R225). -/
structure Tlb where
  unit  : Nat
  ctx   : BitVec 16
  vpn   : Nat
  level : Nat
  leaf  : Word
  wr    : Bool
  deriving DecidableEq, Repr

/-- A pointer entry that the walker cache of a die holds (Table 9-5): the context, the level of its table, the address bits above what it maps, the entry. -/
structure WalkEnt where
  die    : Nat
  ctx    : BitVec 16
  level  : Nat
  prefix_ : Nat
  entry  : Word
  deriving DecidableEq, Repr

/-- A collective at its combining port (R346): the arrivals by rank, whether GO has been sent, and the sources that have come. -/
structure Combine where
  ctx     : BitVec 16
  gid     : BitVec 16
  arrived : List (Nat × CollKey)
  go      : Bool
  sources : List (Nat × List Nat)
  deriving DecidableEq, Repr

/-- A group that the package's port holds (R342, R343): its members by rank, each a package, a gang and a hart of the gang; WHY and ORIG of
the abort, once one has been applied (R348). -/
structure PortGroup where
  ctx     : BitVec 16
  gid     : BitVec 16
  members : List (Nat × Nat × Nat)
  abort   : Option (BitVec 2 × BitVec 10)
  deriving DecidableEq, Repr

/-- An entry of TOP (R244): the codes of z' and g, and the token index. -/
structure TopEntry where
  z : Nat
  j : Nat
  g : Nat
  deriving DecidableEq, Repr

/-- A race slot that is granted to a context (Table 10-2): STATE 0 FREE, 1 OPEN, 2 DONE; the record and the winner record as bytes, the f32 items
as codes, and the elements accepted, of which EVAL shows 32 bits. -/
structure RaceSlot where
  ctx   : BitVec 16
  state : Nat
  cap   : List Byte
  top   : List TopEntry
  best  : TopEntry
  sdn   : Nat
  sup   : Nat
  ldn   : Nat
  uup   : Nat
  left  : BitVec 64
  eval  : Nat
  nanp  : Bool
  drop  : Bool
  win   : List Byte
  deriving DecidableEq, Repr
/-- Bytes of a row for a REMOTE expert that have been sent and have not performed (R275): the expert and slot, the package and the store, the
privilege of the hart that placed it and that hart, the request on its way, or the ticket whose replay notice it waits for. -/
structure ChurnRow where
  expert : Nat
  slot   : Nat
  pkg    : Nat
  elem   : RElem
  user   : Bool
  hart   : Nat
  seq    : Option Nat
  ticket : Option Nat
  deriving DecidableEq, Repr

/-- A placement entry (Table 11-4). -/
structure Placement where
  base    : Word
  rstride : Nat
  remote  : Option Nat
  deriving DecidableEq, Repr

/-- A dispatch context that is granted to a context (Table 11-2): STATE 0 FREE, 1 COUNT, 2 SEND, 3 DONE, 4 ERROR; RPEND is the number of
rows in `rows`. `tables` is the hart whose `chplace` wrote the tables and the number of its interlock entry (11 R276). -/
structure Churn where
  owner : BitVec 16
  state : Nat
  cap   : List Byte
  plc   : List Placement
  cnt   : List (Nat × Nat)
  cur   : List (Nat × Nat)
  cntd  : Nat
  next  : Nat
  drops : Nat
  tasks : Nat
  rows  : List ChurnRow
  rfail : Bool
  tables : Option (Nat × Nat)
  deriving DecidableEq, Repr

/-- What the package sends that is not a request: answers and notices to other packages (13), what collectives and aborts send (14), attestation
reports or their refusal (12 R305), and answers to accesses of the host, none where the access fails (12 R300, R303). -/
inductive Out where
  | answer (pkg seq : Nat) (answers : List (Nat × RAns))
  | notice (pkg ticket page : Nat) (ok : Bool)
  | arrival (ctx gid : BitVec 16) (rank : Nat) (key : CollKey)
  | withdrawal (ctx gid : BitVec 16) (rank : Nat)
  | withdrawn (ctx gid : BitVec 16) (rank : Nat) (applied : Bool)
  | go (ctx gid : BitVec 16)
  | source (ctx gid : BitVec 16) (rank : Nat) (data : List Nat)
  | result (ctx gid : BitVec 16) (rank : Nat) (data : List Nat) (exc : BitVec 10)
  | abort (ctx gid : BitVec 16) (why : BitVec 2) (orig : BitVec 10)
  | report (bytes signature : List Byte)
  | noReport
  | hostAnswer (addr : Word) (data : Option Nat)
  deriving DecidableEq, Repr

/-- A ticket that a die of this package has given for a page of a context (R322, R323): the packages that received it, the address of its entry in the
service ring, if one could be posted, and the package time of its posting. -/
structure OwnerTicket where
  die    : Nat
  ticket : Nat
  ctx    : BitVec 16
  page   : Nat
  pkgs   : List Nat
  entry  : Option Word
  posted : Nat
  deriving DecidableEq, Repr

/-- A shoot-down in progress (09 R227): the hart whose call it is with the REQ that firmware read, the context, the first page number, the pages
(0 for all), whether only write permission goes, and the mailbox slot as firmware read it (12 R284). -/
structure Shoot where
  hart    : Nat
  ctx     : BitVec 16
  first   : Nat
  pages   : Nat
  wonly   : Bool
  req     : Nat
  slot    : List Byte
  deriving DecidableEq, Repr

/-- A promotion in progress (09 R228): the hart whose call it is with the REQ that firmware read, the context, the page number, the location of its leaf, GEN at the start, the local
frame, what the tracker recorded; whether the write shoot-down has completed and whether the leaf has been switched; the mailbox slot as firmware read it. -/
structure Promo where
  hart     : Nat
  ctx      : BitVec 16
  page     : Nat
  pte      : Nat
  gen      : Nat
  frame    : Nat
  tracked  : Bool
  copying  : Bool
  switched : Bool
  req      : Nat
  slot     : List Byte
  deriving DecidableEq, Repr

/-- A host queue (Table 12-3): `since` is the package time since which a queue that could be switched in has waited, `resAt` that at which it became
resident; `dropped` are the kills that discard its untaken records: those below an index with a CTXID (R298); `last` is the job taken from it last. -/
structure Queue where
  tail     : Nat
  progress : Nat
  ring     : Word
  pmax     : Nat
  log2n    : Nat
  err      : Bool
  res      : Bool
  en       : Bool
  since    : Nat
  resAt    : Nat
  dropped  : List (Nat × BitVec 16)
  last     : Option Word
  deriving DecidableEq, Repr

/-- A job that firmware has taken and not ended (12 R287 to R294): its number, queue, record and priority, and the job of its queue before it; whether its dependence has been met; the
gangs placed, the package time of the first and its die; the nonzero exit codes by gang and hart; the error that ends it; the flags of its signal. -/
structure Job where
  id     : Word
  queue  : Nat
  cap    : List Byte
  prio   : Nat
  prev   : Option Word
  dep    : Bool
  placed : Nat
  start  : Option Nat
  die    : Nat
  codes  : List (Nat × Nat × Nat)
  err    : Option Nat
  killed : Bool
  pre    : Bool
  deriving DecidableEq, Repr

/-- A gang that firmware has placed (R291): its job and priority, its index, its cluster and barrier, its harts in order, the lanes last granted, its limit, and the order of its start. -/
structure Gang where
  job     : Word
  prio    : Nat
  index   : Nat
  cluster : Nat
  bar     : Nat
  harts   : List Nat
  lanes   : Nat
  limit   : Nat
  order   : Nat
  deriving DecidableEq, Repr

/-- A suspended cluster (R292): the context, the gangs with their harts, the cores, the cluster's registers, and the bytes of its banks and slices
with their bad codewords, at offsets from the cluster's first. -/
structure Parked where
  ctx    : BitVec 16
  from_  : Nat
  gangs  : List Gang
  harts  : List Hart
  cores  : List (Nat × Core)
  regs   : Cluster
  banks  : List Host.Cell
  slices : List Host.Cell
  bad    : List Nat
  badS   : List Nat
  deriving DecidableEq, Repr

/-- A cached copy of a codeword with an uncorrectable error (R306, R307): the structure of Table 12-11 that holds it (1 scalar L1, 2 core cache, 4 L2,
6 memory-side cache), the core or die whose structure that is, the first location of the codeword, and, where the line is dirty there, the number of the writes
that had performed when memory last took the line. -/
structure BadCopy where
  unit  : Nat
  owner : Nat
  cw    : Nat
  dirty : Option Nat
  deriving DecidableEq, Repr

/-- A link of the Psider port (14 R338, R340): whether a failed lane is held as an erasure, whether the link is down and the package time since which it is,
and the lanes of its mismatches of the last millisecond with their times. -/
structure Link where
  erased : Bool
  down   : Bool
  since  : Nat
  errs   : List (Nat × Nat)
  deriving DecidableEq, Repr

/-- A chunk of a fabric stream that arrives at the port (14 R351): its context and privilege, the address of its flag, SEQ, the group of a GV stream, the bytes
that have performed and the bytes of the chunk. -/
structure ChunkCount where
  ctx   : BitVec 16
  user  : Bool
  flag  : Word
  seq   : Word
  group : Option (BitVec 16)
  got   : Nat
  want  : Nat
  deriving DecidableEq, Repr

/-- The state of the package. -/
structure State where
  /-- The harts of the four firmware cores, one for each die (R2, R3; log 38). -/
  eweok    : Vector Hart 4
  /-- The hart that issues next. -/
  hart     : Hart
  /-- The other harts that a job has used, by HARTID[9:0]. -/
  harts    : List (Nat × Hart)
  cores    : List (Nat × Core)
  clusters : List (Nat × Cluster)
  /-- Physical memory and the SRAM of the package, one byte per location (Machine/Ops.lean numbers them): rising locations, no zero byte. -/
  mem      : List Host.Cell
  /-- The writes that have performed, and the bytes that each replaced, newest first: number, location, bytes (R77). -/
  writes   : Nat
  past     : List (Nat × Nat × List Byte)
  /-- The codewords whose data has an uncorrectable error (R140, R306): their first locations. -/
  ecc      : List Nat
  /-- The copies in caches that have an uncorrectable error (R306). -/
  badCopies : List BadCopy
  tlb      : List Tlb
  walkc    : List WalkEnt
  /-- The level-1 table of each context (R223, R289). -/
  roots    : List (Nat × Nat)
  /-- The owner of each 1 MiB unit of die scratchpad: unit 64 * die + k (R220, R284). -/
  spOwner  : List (Nat × BitVec 16)
  /-- HARTID.PKG (R339). -/
  pkg      : BitVec 7
  /-- The packages present on the crossbar (R310, R339). -/
  present  : List (BitVec 7)
  /-- BRDY (12). -/
  brdy     : Word
  /-- Arithmetic clocks since package reset (Table 2-2). -/
  cycle    : Nat
  /-- The model's own counter of free values. -/
  free     : Nat
  /-- Chunks of fabric streams whose bytes the port counts: context, flag address, SEQ, bytes that have performed, bytes of the chunk, group (14 R351). -/
  chunks   : List ChunkCount
  /-- Requests sent and not answered (R341). -/
  sent     : List Packet
  /-- The sequence number of the next request packet. -/
  seq      : Nat
  /-- The harts whose mailbox calls firmware has not carried out, in the order their REQ writes performed (R284). -/
  calls    : List Nat
  /-- MCRING and MCHEAD of the host window (12 R286, R308). -/
  mcRing   : Word
  mcHead   : Nat
  /-- Corrected errors since reset, by unit: 256 * die + structure (R308). -/
  corrected : List (Nat × Nat)
  /-- MSI-X vectors sent, newest first. -/
  msix     : List Nat
  /-- Package time in nanoseconds (R295). -/
  time     : Nat
  /-- The jobs whose access found an uncorrectable error (R307). -/
  mchk     : List Word
  combines : List Combine
  groups   : List PortGroup
  /-- The events that come next, in order: the moves of other agents and the inputs from outside the package. -/
  agenda   : List Ev
  /-- The race slots that are granted: slot 16 * die + k (R239). -/
  slots    : List (Nat × RaceSlot)
  /-- The dispatch contexts that are granted: 4 * die + context (R259). -/
  churns   : List (Nat × Churn)
  /-- What the package has sent, oldest first. -/
  outbox   : List Out
  /-- The next ticket number of each die (R322). -/
  nextTk   : List (Nat × Nat)
  owned    : List OwnerTicket
  /-- Replay notices that have arrived (ORD of Table 13-5). -/
  notices  : Nat
  shoots   : List Shoot
  promos   : List Promo
  queues   : List (Nat × Queue)
  jobs     : List Job
  gangs    : List Gang
  parked   : List Parked
  /-- The number of the next job (JOBID, Table 2-2). -/
  nextJob  : Nat
  /-- The queue that last started a job (R290). -/
  lastQ    : Nat
  /-- The grant that the most recent change gave gangs of a priority (R299). -/
  pgrant   : List (Nat × Nat)
  /-- PCAP in watts (Table 12-4). -/
  pcap     : Nat
  /-- ROOTS (Table 12-4). -/
  rootTab  : Word
  /-- FWIMG (Table 12-4). -/
  fwImg    : Word
  /-- KILL and FWCMD as last written (R286). -/
  killReg  : Word
  fwCmd    : Word
  /-- FWSTAT (Table 12-4). -/
  fwStat   : Nat
  /-- The boot ROM has refused the image in the store: recovery mode (R304). -/
  recovery : Bool
  /-- The image in the firmware store, if there is one whole (R304). -/
  fwStore  : Option (List Byte)
  /-- M0 (R305). -/
  m0       : List Byte
  /-- The next leaf of the identity key (R305). -/
  leaf     : Nat
  /-- Package resets (R305). -/
  resets   : Nat
  links    : Vector Link 4
  /-- Link errors counted in the port (14 R338). -/
  linkErrs : Nat
  /-- The clusters that are being pre-empted (R292). -/
  victims  : List Nat
  /-- Contexts that have been killed and whose resources are still to be freed (R298). -/
  dying    : List (BitVec 16)
  /-- The next step is an agent's own move, if one can come. -/
  dev      : Bool
  /-- The harts found since the last slot unable to issue (R149). -/
  tried    : List Nat
  deriving DecidableEq, Repr

/-- A group register after reset: invalid (R343). -/
def Group.init : Group := ⟨false, false, 0, 0, 0, 0, 0, 0⟩

/-- A hart after package reset: the reset column of Table 2-2, STATUS.IE set (Table 2-4), SLIP 16; every value that the spec calls
per gang, per job or gives at job entry only is the model's choice (log 3). -/
def Hart.init (id : Nat) : Hart :=
  { id := id, run := false, pc := 0, s := Vector.replicate 32 0, v := Vector.replicate 32 0, m := Vector.replicate 7 0,
    vl := 0, vtype := 0, vstart := 0, lanes := 32, pend := 32, slip := 16, fcsr := 0, status := 2, tmap := 0, skey := 0,
    sstep := 0, cause := 0, epc := 0, tval := 0, tvec := 0, ctxid := 0, vownV := false, vownCtx := 0, fltBase := 0,
    fltHead := 0, fltn := 0, tkOvf := false, jobid := 0, gang := 0, peers := Vector.replicate 16 0,
    groups := Vector.replicate 4 Group.init, streams := Vector.replicate 8 none, irqs := [], preempt := false, yielded := false, seen := false, stop := false,
    convoy := none, reissue := false, sbuf := [], vbuf := [], strip := 0, wseq := 0, wait := .none, resume := .none,
    stopAt := none, answers := [], asked := [], told := [], cur := [], places := [], refuse := none, opened := false, credit := none, lock := ⟨0, []⟩, vq := [],
    late := [], busy := [], stall := .none, constAt := 0, bar := 0, coll := none, bad := [], inUse := none, claim := none }

/-- The tile state of a bank that enters role TL (Table 7-1). -/
def Tile.init : Tile :=
  { curd := false, f32 := true, tm := 128, tn := 128, kc := 0, blk := [], bsa := Vector.replicate 128 127,
    bsb := Vector.replicate 128 127, nl := Vector.replicate 128 0 }

/-- A core after package reset: every bank in role CC (Table 6-4), no tile, no ticket, empty caches. -/
def Core.init : Core :=
  { brole := 0, tiles := [], tickets := [], consts := [], icache := [], waits := Vector.replicate 4 0, last := 0 }

/-- A gang barrier register that no gang has (R195). -/
def Bar.init : Bar := ⟨0, 0, 0, false, 0, false⟩

/-- A cluster after package reset (R195). -/
def Cluster.init : Cluster :=
  { owner := none, sems := Vector.replicate 64 ⟨false, []⟩, cds := Vector.replicate 16 0, bars := Vector.replicate 32 Bar.init,
    copies := [] }

/-- A slot just granted: FREE (R239, Table 10-2). -/
def RaceSlot.init (ctx : BitVec 16) : RaceSlot :=
  { ctx := ctx, state := 0, cap := List.replicate 256 0, top := [], best := ⟨0xFF800000, 0xFFFFFFFF, 0xFF800000⟩, sdn := 0, sup := 0, ldn := 0,
    uup := 0, left := 0, eval := 0, nanp := false, drop := false, win := [] }
/-- A dispatch context just granted: FREE, every item at its reset value (R259, R261). -/
def Churn.init (owner : BitVec 16) : Churn :=
  { owner := owner, state := 0, cap := List.replicate 128 0, plc := [], cnt := [], cur := [], cntd := 0, next := 0, drops := 0, tasks := 0,
    rows := [], rfail := false, tables := none }
/-- A queue after package reset (Table 12-3). -/
def Queue.init : Queue := ⟨0, 0, 0, 0, 0, false, false, false, 0, 0, [], none⟩

/-- SHAKE256 of an image of no bytes, the image that the store holds at reset (R305, log 18). -/
def emptyImageDigest : List Byte :=
  [0x46, 0xb9, 0xdd, 0x2b, 0x0b, 0xa8, 0x8d, 0x13, 0x23, 0x3b, 0x3f, 0xeb, 0x74, 0x3e, 0xeb, 0x24,
   0x3f, 0xcd, 0x52, 0xea, 0x62, 0xb8, 0x1b, 0x82, 0xb5, 0x0c, 0x27, 0x64, 0x6e, 0xd5, 0x76, 0x2f]
/-- The harts of the firmware cores after package reset: stopped until CLK (Table 12-9). Their number, that each is one hart, and their lanes are not stated:
DESIGN CHOICE, 4096 and the die, and the least grant of a compute hart, as the short vector length of R3 (log 38). -/
def eweokInit : Vector Hart 4 := Vector.ofFn (fun (k : Fin 4) => { Hart.init (4096 + k.val) with lanes := 4, pend := 4 })

/-- The machine right after package reset: no hart runs, no job is placed, memory lists nothing. -/
def State.reset : State :=
  { eweok := eweokInit, hart := Hart.init 0, harts := [], cores := [], clusters := [], mem := [], writes := 0, past := [], ecc := [], badCopies := [], tlb := [], walkc := [], roots := [], spOwner := [],
    pkg := 0, present := [], brdy := 0, cycle := 0, free := 0, chunks := [], sent := [], seq := 0, calls := [], mcRing := 0, mcHead := 0, corrected := [], msix := [], time := 0,
    mchk := [], combines := [], groups := [], agenda := [],
    slots := [], churns := [], outbox := [], nextTk := [], owned := [], notices := 0, shoots := [], promos := [], queues := [], jobs := [],
    gangs := [], parked := [], nextJob := 1, lastQ := 255, pgrant := [], pcap := 1450, rootTab := 0, fwImg := 0, killReg := 0, fwCmd := 0, fwStat := 0, recovery := false, fwStore := some [],
    m0 := emptyImageDigest, leaf := 0, resets := 0, links := Vector.replicate 4 ⟨false, false, 0, []⟩, linkErrs := 0, victims := [], dying := [], dev := false, tried := [] }
end Sys2Proof.Machine
end

