-- ==== Sys2Proof/Machine/Ops.lean ====
section
/-! DEFINITION. The named operations over the state that the meanings share: tables, registers, memory, traps and their return, the
open convoy, the order of the checks (R354) and the retirement of an instruction. -/

namespace Sys2Proof.Machine

open Sys2Proof

/-! ### Tables by number -/

/-- The entry of a number in a table sorted by number. -/
def tabGet {α : Type} : List (Nat × α) → Nat → Option α
  | [], _ => none
  | (k, v) :: rest, n => if k = n then some v else tabGet rest n

/-- The table with the entry of a number set, sorted by number. -/
def tabPut {α : Type} : List (Nat × α) → Nat → α → List (Nat × α)
  | [], n, x => [(n, x)]
  | (k, v) :: rest, n, x => if n < k then (n, x) :: (k, v) :: rest else if k = n then (n, x) :: rest else (k, v) :: tabPut rest n x

/-- The table without the entry of a number. -/
def tabDel {α : Type} : List (Nat × α) → Nat → List (Nat × α)
  | [], _ => []
  | (k, v) :: rest, n => if k = n then rest else (k, v) :: tabDel rest n

/-! ### Memory: one sorted list of the nonzero bytes -/

/-- The byte at a location; one that is not listed reads as 0 (log 4). -/
def memGet : List Host.Cell → Nat → Byte
  | [], _ => 0
  | (k, b) :: rest, n => if k = n then b else memGet rest n

/-- The nonzero bytes of a block as cells. -/
def cellsOf : Nat → List Byte → List Host.Cell
  | _, [] => []
  | l, b :: bs => if b = 0 then cellsOf (l + 1) bs else (l, b) :: cellsOf (l + 1) bs

/-- Memory with a block of bytes written at a location. -/
def memPut (mem : List Host.Cell) (l : Nat) (bs : List Byte) : List Host.Cell :=
  mem.takeWhile (fun c => decide (c.1 < l)) ++ cellsOf l bs ++ mem.dropWhile (fun c => decide (c.1 < l + bs.length))

/-- Memory with `n` bytes at a location zeroed. -/
def memClear (mem : List Host.Cell) (l n : Nat) : List Host.Cell :=
  mem.takeWhile (fun c => decide (c.1 < l)) ++ mem.dropWhile (fun c => decide (c.1 < l + n))

/-- The `n` bytes from a location. -/
def memRead : Nat → Nat → List Host.Cell → List Byte
  | 0, _, _ => []
  | n + 1, l, mem =>
    let r := mem.dropWhile (fun c => decide (c.1 < l))
    (match r with
      | [] => 0
      | c :: _ => if c.1 = l then c.2 else 0) :: memRead n (l + 1) r

/-- The canonical form of memory: rising locations, no zero byte. -/
def Memory.wfFrom : Nat → List Host.Cell → Bool
  | _, [] => true
  | lo, (k, b) :: rest => decide (lo ≤ k) && b != 0 && Memory.wfFrom (k + 1) rest

/-- The canonical form of memory. -/
def Memory.wf (mem : List Host.Cell) : Bool := Memory.wfFrom 0 mem

/-- The number that bytes hold, the lowest address least significant (R7). -/
def leNat : List Byte → Nat
  | [] => 0
  | b :: bs => b.toNat + 256 * leNat bs

/-- The `n` bytes of a number, the least significant at the lowest address (R7). -/
def natLe : Nat → Nat → List Byte
  | 0, _ => []
  | n + 1, x => BitVec.ofNat 8 x :: natLe n (x / 256)

/-! ### The numbering of locations: physical addresses (Table 9-3), then the SRAM that has none -/

/-- Byte `off` of bank `bank` of core `core` of the package (R161). -/
def locBank (core bank off : Nat) : Nat := 2 ^ 52 + (core * 32 + bank) * 65536 + off

/-- Byte `a` of lane-private slice `lane` of a core (R166). -/
def locSlice (core lane a : Nat) : Nat := 2 ^ 53 + (core * 32 + lane) * 8192 + a

/-- Byte `off` of the scratchpad of a die (R220). -/
def locScratch (die off : Nat) : Nat := 2 ^ 54 + die * 2 ^ 32 + off

/-- Byte `off` of the firmware memory of a die (Table 12-11; log 38). -/
def locFirm (die off : Nat) : Nat := 2 ^ 57 + die * 2 ^ 32 + off

/-! ### Harts and units -/

/-- The number of a hart of a firmware core: 4096 and its die (log 38). -/
def isFirm (hart : Nat) : Bool := decide (4096 ≤ hart) && decide (hart < 4100)
/-- The core of a hart, 0 to 255 (Table 2-6); the firmware core of die d is 1024 + d (log 38). -/
def coreOf (hart : Nat) : Nat := if isFirm hart then hart - 3072 else hart / 4
/-- The cluster of a hart, 0 to 31 (Table 2-6); the firmware core of die d stands alone, as 128 + d (log 38). -/
def clusterOf (hart : Nat) : Nat := if isFirm hart then hart - 3968 else hart / 32
/-- The die of a hart, 0 to 3 (Table 2-6). -/
def dieOf (hart : Nat) : Nat := if isFirm hart then hart - 4096 else hart / 256

/-- A hart by HARTID[9:0], or a firmware core's by its number (log 38). -/
def State.getHart (s : State) (id : Nat) : Hart :=
  if s.hart.id = id then s.hart
  else if isFirm id then s.eweok.getD (id - 4096) (Hart.init id)
  else (tabGet s.harts id).getD (Hart.init id)

/-- The state with a hart that does not issue set. -/
def State.putAway (s : State) (h : Hart) : State :=
  if isFirm h.id then { s with eweok := s.eweok.setIfInBounds (h.id - 4096) h } else { s with harts := tabPut s.harts h.id h }

/-- The state with a hart set. -/
def State.setHart (s : State) (h : Hart) : State := if s.hart.id = h.id then { s with hart := h } else s.putAway h

/-- The state with the issuing hart changed. -/
def State.upd (s : State) (f : Hart → Hart) : State := { s with hart := f s.hart }

/-- A core by its number in the package. -/
def State.getCore (s : State) (c : Nat) : Core := (tabGet s.cores c).getD Core.init
/-- The state with a core set. -/
def State.setCore (s : State) (c : Nat) (x : Core) : State := { s with cores := tabPut s.cores c x }
/-- A cluster by its number in the package. -/
def State.getCluster (s : State) (c : Nat) : Cluster := (tabGet s.clusters c).getD Cluster.init
/-- The state with a cluster set. -/
def State.setCluster (s : State) (c : Nat) (x : Cluster) : State := { s with clusters := tabPut s.clusters c x }

/-- Every hart that a job has used, and those of the firmware cores that run (log 38). -/
def State.allHarts (s : State) : List Hart := s.hart :: s.harts.map (·.2) ++ s.eweok.toList.filter (fun h => h.run && h.id != s.hart.id)

/-- Every hart changed. -/
def State.mapHarts (s : State) (f : Hart → Hart) : State :=
  { s with hart := f s.hart, harts := s.harts.map (fun p => (p.1, f p.2)), eweok := s.eweok.map f }

/-- The state after a free value has been taken. -/
def State.took (s : State) : State := { s with free := s.free + 1 }

/-! ### Performing a write (R173, R216, R238, R335): it performs at every scope when it reaches memory -/

/-- The byte of the mailbox slot of a hart (R283): its offset in its die's scratchpad. -/
def mailboxOff (hart : Nat) : Nat := 0x3F00000 + 64 * (hart % 256)

/-- Bytes of a codeword at a location (R306): 32 in memory that has a physical address, 8 in SRAM that has none (log 17). -/
def cwSize (l : Nat) : Nat := if l < 2 ^ 52 then 32 else 8

/-- The codeword of a location: its first location. -/
def codeword (l : Nat) : Nat := l / cwSize l * cwSize l

/-- Whether data of `n` bytes at a location has an uncorrectable error (R140). -/
def State.bad (s : State) (l n : Nat) : Bool := s.ecc.any (fun w => decide (w < l + n) && decide (l < w + cwSize w))

/-- The codewords that a write of `n` bytes covers whole are repaired (R307). -/
def repaired (ecc : List Nat) (l n : Nat) : List Nat := ecc.filter (fun w => !(decide (l ≤ w) && decide (w + cwSize w ≤ l + n)))

/-- Bytes of a cached codeword (R306). -/
def BadCopy.size (c : BadCopy) : Nat := if c.unit = 6 then 32 else 8

/-- A write to the line that a hart sleeps on ends its `mwait` (R89). -/
def Hart.wakeOn (h : Hart) (l n : Nat) : Hart :=
  match h.wait with
  | .mwait w _ => if l / 64 ≤ w / 64 && w / 64 ≤ (l + n - 1) / 64 then { h with wait := .none, resume := .woken } else h
  | _ => h

/-- The hart whose mailbox REQ a write reaches, if it does (R284). -/
def mailboxHart (l n : Nat) : Option Nat :=
  let o := l - 2 ^ 54
  let die := o / 2 ^ 32
  let off := o % 2 ^ 32
  if 2 ^ 54 ≤ l && l < 2 ^ 55 && 0x3F00000 ≤ off && off < 0x3F04000 && 0 < n && off % 64 < 8 then some (die * 256 + (off - 0x3F00000) / 64)
  else none

/-- Performing a write of bytes at a location: memory, what they replace (R77), repaired codewords, the harts asleep on its line, a started firmware call. -/
def State.perform (s : State) (l : Nat) (bs : List Byte) : State :=
  let mem := memPut s.mem l bs
  let s1 := { s with mem := mem, writes := s.writes + 1, past := (s.writes, l, memRead bs.length l s.mem) :: s.past, ecc := repaired s.ecc l bs.length,
                     badCopies := s.badCopies.filter (fun c => !(decide (l ≤ c.cw) && decide (c.cw + c.size ≤ l + bs.length))),
                     hart := s.hart.wakeOn l bs.length, harts := s.harts.map (fun p => (p.1, p.2.wakeOn l bs.length)),
                     eweok := s.eweok.map (·.wakeOn l bs.length) }
  match mailboxHart l bs.length with
  | none => s1
  | some k =>
    let req := locScratch (dieOf k) (mailboxOff k)
    if leNat (memRead 8 req mem) / 2 ^ 63 = 0 then { s1 with calls := s1.calls ++ [k] } else s1

/-! ### Events to come and messages -/

/-- An event comes after those that are already to come. -/
def State.queue (s : State) (e : Ev) : State := { s with agenda := s.agenda ++ [e] }

/-- A message leaves the package. -/
def State.emit (s : State) (o : Out) : State := { s with outbox := s.outbox ++ [o] }

/-! ### Scalar registers (Table 1-2): s0 reads 0 and discards writes -/

/-- s[r]. -/
def Hart.gs (h : Hart) (r : Reg5) : Word := if r = 0 then 0 else h.s[r.toNat]

/-- The number of the codeword of s[r] among those of a hart's registers. -/
def sCode (r : Nat) : Nat := 512 * (64 + r)

/-- s[r] := x; the write repairs its codeword (R307). -/
def Hart.ps (h : Hart) (r : Reg5) (x : Word) : Hart := if r = 0 then h else { h with s := h.s.set r.toNat x, bad := h.bad.filter (· != sCode r.toNat) }

/-- s[r] of the issuing hart. -/
def State.gs (s : State) (r : Reg5) : Word := s.hart.gs r

/-- s[r] := x in the issuing hart. -/
def State.ps (s : State) (r : Reg5) (x : Word) : State := s.upd (·.ps r x)

/-- Mask register mK, 1 to 7. -/
def Hart.gm (h : Hart) (k : Nat) : MBits := h.m.getD (k - 1) 0

/-- mK := x. -/
def Hart.pm (h : Hart) (k : Nat) (x : MBits) : Hart := { h with m := h.m.setIfInBounds (k - 1) x }

/-! ### Status (Table 2-4) -/

/-- STATUS.PRIV: supervisor mode. -/
def Hart.super (h : Hart) : Bool := h.status.getLsbD 0
/-- STATUS.IE. -/
def Hart.ie (h : Hart) : Bool := h.status.getLsbD 1

/-- STATUS on entry to a trap (R36): PPRIV := PRIV, PIE := IE, PRIV := 1, IE := 0, REISSUE := 0, GARR unchanged. -/
def trapStatus (st : BitVec 10) : BitVec 10 :=
  (st &&& 0x200) ||| (if st.getLsbD 0 then 0x10 else 0) ||| (if st.getLsbD 1 then 0x20 else 0) ||| 1

/-- STATUS after `tret` (R36, R87): PRIV := PPRIV, IE := PIE. -/
def tretStatus (st : BitVec 10) : BitVec 10 :=
  (st &&& 0x330) ||| (if st.getLsbD 4 then 1 else 0) ||| (if st.getLsbD 5 then 2 else 0)

/-! ### Traps (R36, R142) -/

/-- A trap: its code of Table 5-8 and TVAL. -/
structure Trap where
  cause : BitVec 8
  tval  : Word
  deriving DecidableEq, Repr

/-- Taking a trap (R15, R36, R142): CAUSE, EPC and TVAL are written, STATUS changes, the open convoy closes, PC := TVEC. DESIGN CHOICE (log 39): that entry to a
trap closes the convoy (R15, R142) holds for the ILL 0x08 of a `vsetl` or `vsetli` too, of which R21 says that the convoy is not closed. -/
def Hart.trap (h : Hart) (t : Trap) : Hart :=
  { h with cause := t.cause, epc := h.pc, tval := t.tval, status := trapStatus h.status, convoy := none, pc := h.tvec,
           reissue := false, wait := .none, resume := .none, answers := [], asked := [], told := [], cur := [], places := [], refuse := none, opened := false, credit := none,
           stopAt := none, coll := none, stall := .none, inUse := none, claim := none }

/-- Taking a trap in the issuing hart. -/
def State.trap (s : State) (t : Trap) : State := s.upd (·.trap t)

/-! ### The header of an instruction: what the checks before it performs look at (R354) -/

/-- The header of an instruction: its words, the unit class of one that enters the vector queue (R155), its J bit (R15), the s
registers that it reads as a scalar instruction or writes as a queued one (R94), whether it serialises (R66), is privileged, is subject to
VO (R144), names registers that overlap whatever LMUL is (R10), or has a tile format code its TOP does not allow (R18). -/
structure Hdr where
  word    : IWord
  body    : Option IWord := none
  unit    : Option UnitClass := none
  j       : Bool := false
  reads   : List Reg5 := []
  swrites : List Reg5 := []
  serial  : Bool := false
  priv    : Bool := false
  vo      : Bool := false
  bad07   : Bool := false
  bad0B   : Bool := false
  deriving DecidableEq, Repr

/-- Bytes of the instruction (R7). -/
def Hdr.len (h : Hdr) : Word := if h.body.isSome then 8 else 4

/-- TVAL of an ILL trap (R24). -/
def illTval (sub : BitVec 8) (w : IWord) (pos : Nat) : Word :=
  BitVec.ofNat 64 (w.toNat * 2 ^ 32 + pos * 2 ^ 8 + sub.toNat)

/-- The ILL trap of a word (R24). -/
def illWord (sub : BitVec 8) (w : IWord) : Trap := ⟨0x01, illTval sub w 0⟩

/-- The ILL trap that a field of the body word decides, or for a single word the word (R24). -/
def Hdr.illBody (h : Hdr) (sub : BitVec 8) : Trap := illWord sub (h.body.getD h.word)

/-- The ILL trap that the single word or the prefix reports (R24). -/
def Hdr.ill (h : Hdr) (sub : BitVec 8) : Trap := illWord sub h.word

/-- Units of a class in a core (Table 6-1). -/
def UnitClass.units : UnitClass → Nat
  | .valu => 2
  | _ => 1

/-- The open convoy that an instruction with J = 1 joins (R15). -/
def Hdr.joins (h : Hdr) (c : Option Convoy) : Convoy :=
  match c with
  | some c => if h.j then c else ⟨[], []⟩
  | none => ⟨[], []⟩

/-- The convoy fault of an instruction, if it makes its convoy illegal (R15, R24, R157). -/
def Hdr.convoyTrap (h : Hdr) (c : Option Convoy) : Option Trap :=
  match h.unit with
  | none => none
  | some u =>
    let ms := (h.joins c).members
    if 8 < ms.length + 1 then some ⟨0x01, illTval 0x09 h.word ms.length⟩
    else if u.units < ms.count u + 1 then some ⟨0x01, illTval 0x0A h.word ms.length⟩
    else none

/-- The convoy after the instruction has passed its checks (R15, R94). -/
def Hdr.convoy (h : Hdr) (c : Option Convoy) : Option Convoy :=
  match h.unit with
  | some u =>
    let o := h.joins c
    some ⟨o.members ++ [u], o.swrites ++ h.swrites⟩
  | none =>
    match c with
    | none => none
    | some o => if h.serial || h.reads.any (fun r => r != 0 && o.swrites.contains r) then none else some o

/-- The first trap of steps 1 to 3 of R354. -/
def Hdr.check (h : Hdr) (s : State) : Option Trap :=
  if h.bad07 then some (h.illBody 0x07) else
  match h.convoyTrap s.hart.convoy with
  | some t => some t
  | none =>
    if h.bad0B then some (h.illBody 0x0B) else
    if h.priv && !s.hart.super then some ⟨0x02, BitVec.ofNat 64 h.word.toNat⟩ else
    if h.vo && (!s.hart.vownV || s.hart.vownCtx != s.hart.ctxid) then some ⟨0x03, BitVec.ofNat 64 s.hart.vownCtx.toNat⟩ else
    none

/-! ### Uncorrectable errors in registers (R95, R140, R306, R307; log 19) -/

/-- HARTID of a hart (Table 2-6). -/
def State.hartid (s : State) (id : Nat) : Nat := s.pkg.toNat * 2 ^ 10 + id

/-- Writing a machine-check record (R308): KIND, UNIT, HART, CTX, ADDR; the syndrome is not stated (log 17). -/
def State.machineCheck (s : State) (kind unit hart ctx addr syn : Nat) : State :=
  let s1 := { s with mcHead := s.mcHead + 1 }
  if s.mcRing = 0 then s1
  else
    let bytes := natLe 8 (s.mcHead + 1) ++ natLe 4 kind ++ natLe 4 hart ++ natLe 2 unit ++ natLe 2 ctx ++ natLe 4 syn ++ natLe 8 addr ++
      natLe 8 s.time ++ natLe 8 ((tabGet s.corrected unit).getD 0) ++ List.replicate 16 0
    { s1.perform (s.mcRing.toNat + 64 * (s.mcHead % 64)) bytes with msix := 0 :: s.msix }

/-- A job whose access found an uncorrectable error (R307). -/
def State.markJob (s : State) (job : Word) : State := { s with mchk := if s.mchk.contains job then s.mchk else job :: s.mchk }

/-- The record of an uncorrectable error that an access or a register read of the hart found (R307, R308), whose job is marked. -/
def State.eccRecord (s : State) (own unit addr : Nat) : State :=
  let h := s.getHart own
  ((s.took).machineCheck 2 unit (s.hartid own) h.ctxid.toNat addr (Config.value s.free).toNat).markJob h.jobid

/-- The s registers and mask registers, by number, that a vector or tile instruction reads (Tables 1-4, 1-6, 1-8): those of its operands, and its governing
mask. -/
def vectorReads (w : IWord) (body : Option IWord) : List Nat × List Nat :=
  let f := fun (x : IWord) (lo n : Nat) => x.toNat / 2 ^ lo % 2 ^ n
  let maj := f w 26 6
  let (d, a, b, m, mode, fn) := (f w 21 5, f w 16 5, f w 11 5, f w 8 3, f w 5 3, f w 0 4)
  match body with
  | some y => ((if f w 21 5 = 7 then [f y 16 5] else []) ++ [f y 11 5], [f y 8 3])
  | none =>
    match maj with
    | 0x21 => ([b], [m])
    | 0x25 => ([b], [m])
    | 0x28 => ([b], [m])
    | 0x26 => (if fn = 10 then [b] else [], [m])
    | 0x29 => ([], if fn ≤ 3 then [a % 8, b % 8, m] else if fn = 12 then [m] else [a % 8, m])
    | 0x2A => (if fn = 12 then [d] else [b], [m])
    | 0x2B => (if fn ≤ 1 || fn = 6 || fn = 11 then [b] else if fn = 5 then [b] else if fn = 7 then [a, b] else [], if fn = 9 then [a % 8, m] else [m])
    | 0x2C => (if mode = 1 then [a, b] else [a], [m])
    | 0x2D => (if mode = 1 then [a, b] else [a], [m])
    | 0x2E => ([a], [m])
    | 0x2F => ([a], [m])
    | 0x30 => (if 3 ≤ fn then [d, a] else if fn = 0 then [a] else [], [m])
    | 0x31 => (if fn = 3 then [d, a, b] else if fn = 1 then [a] else [a, b], if fn = 1 then [m] else [])
    | 0x32 => ([a, b], [])
    | 0x34 => ([a], if mode = 5 then [] else [m])
    | 0x35 => (if fn = 5 || fn = 9 then [a] else [], [])
    | _ => ([], [m])

/-- The bits of m7 that a reissue reads as a mask (R138): none for an instruction that addresses no memory element by element, N of R122 for a whole-register
access, VL for the others. -/
def Hart.m7Bits (h : Hart) (w : IWord) (body : Option IWord) : Nat :=
  let maj := w.toNat / 2 ^ 26
  let fn := w.toNat % 16
  let top := w.toNat / 2 ^ 21 % 32
  let out := match h.streams.getD (top - 24) none with
    | some st => decide (24 ≤ top) && st.out
    | none => false
  if !h.reissue then 0
  else if (maj == 0x2C || maj == 0x2D) && w.toNat / 2 ^ 5 % 8 == 4 then 2 ^ (h.vtype.toNat / 8 % 4) * 64 * h.lanes
  else if body.isSome then (if [3, 4, 6, 7, 10].contains top then h.vl else 0)
  else if (decide (0x2C ≤ maj) && decide (maj ≤ 0x2F)) || maj == 0x34 || (maj == 0x30 && decide (3 ≤ fn)) || (maj == 0x32 && fn == 1) || (maj == 0x26 && fn == 10) || out then h.vl
  else 0

/-- The first codeword with an uncorrectable error among the s registers and masks that an instruction reads; of a mask only bits below VL, and m7 too on a
reissue (R138). -/
def Hdr.badSource (hdr : Hdr) (h : Hart) : Option Nat :=
  let (ss, ms) := if hdr.unit.isSome then vectorReads hdr.word hdr.body else (hdr.reads.map (·.toNat), [])
  let n7 := if hdr.unit.isSome then h.m7Bits hdr.word hdr.body else 0
  h.bad.find? (fun c => ss.any (fun r => r != 0 && c == sCode r) || ms.any (fun k => k != 0 && c / 512 == 32 + k && decide (c % 512 * 64 < h.vl)) ||
    (c / 512 == 39 && decide (c % 512 * 64 < n7)))

/-- An uncorrectable error in a register that the instruction reads (R140, R307): its record, and ECC by precise unwind with TVAL 0 (Table 5-8). -/
def State.regError (s : State) (code : Nat) : State × Trap :=
  (s.eccRecord s.hart.id (256 * dieOf s.hart.id) (8 * (code % 512)), ⟨0x0C, 0⟩)

/-! ### How an instruction ends -/

/-- How the effect of an instruction ends: it retires and falls through, retires with a new PC, traps with the effect its regime allows, or
its hart waits with PC at it. -/
inductive Eff where
  | next (s : State)
  | jump (s : State) (pc : Word)
  | trap (s : State) (t : Trap)
  | hold (s : State)

/-- Retirement (R36, R42): REISSUE of a reissued instruction is cleared, VSTART := 0 for a vector or tile instruction, whose translations stand until the next one begins
(log 37). -/
def Hart.retire (h : Hart) (vec : Bool) (pc : Word) : Hart :=
  { h with pc := pc, vstart := if vec then 0 else h.vstart, status := if h.reissue then h.status &&& 0x2FF else h.status,
           reissue := false, wait := .none, resume := .none, answers := [], asked := [], told := [], cur := [], places := if vec then h.places else [], refuse := if vec then h.refuse else none,
           opened := false, credit := none, stopAt := none, coll := none, inUse := none, claim := none }

/-- Returning from a trap (R87): STATUS, the convoy, PC := EPC; with REISSUE = 1 the instruction at EPC is a reissue. A `tret` that is itself the reissue executes
as without REISSUE and clears it (R36, R87). -/
def Hart.tret (h : Hart) : Hart :=
  let x := h.retire false h.epc
  { x with status := tretStatus x.status, convoy := none, reissue := h.status.getLsbD 8 && !h.reissue }

/-- A vector or tile instruction that begins has made no translation, no interlock entry and no draw yet (R121, R172); one that goes on keeps them. -/
def Hart.begin_ (h : Hart) : Hart := if h.cur.isEmpty then { h with places := [], refuse := none, opened := false, credit := none } else h

/-- The hart as its instruction begins or goes on. -/
def Hdr.starts (h : Hdr) (x : Hart) : Hart := if h.unit.isSome then x.begin_ else x

/-- The words of the instruction. -/
def Hdr.words (h : Hdr) : List IWord := h.word :: h.body.toList

/-- An instruction that waits for another agent, or has been answered by one, has begun: it is not fetched again (R314, R320), and has its unit (R154, R156, R176). -/
def Hdr.held (h : Hdr) (x : Hart) : Hart := if x.wait = .none && x.answers.isEmpty then x else { x with cur := h.words, inUse := h.unit }

/-- The state after the end of an instruction; one that waits has not joined a convoy yet, so the convoy before it, `c`, stands. -/
def Hdr.finish (h : Hdr) (c : Option Convoy) : Eff → State
  | .next s => s.upd (fun x => x.retire h.unit.isSome (x.pc + h.len))
  | .jump s pc => s.upd (·.retire h.unit.isSome pc)
  | .trap s t => s.trap t
  | .hold s => s.upd (fun x => h.held { x with convoy := c })

/-- An instruction: the checks of R354 that the header decides, the convoy, errors in the registers that it reads, then its own checks and effect. DESIGN CHOICE (log 19): an
error in an s register or mask that a vector or tile instruction reads traps before the ILL checks of step 4, and one in a vector group after them, where R354 and R141 place
neither. An instruction that has begun and goes on after a wait has read its registers. -/
def runInstr (h : Hdr) (s : State) (f : State → Except Trap Eff) : Host.Outcome State Fault Refusal :=
  match h.check s with
  | some t => .next (s.trap t)
  | none =>
    let s1 := s.upd (fun x => h.starts { x with convoy := h.convoy x.convoy })
    match (if s1.hart.cur.isEmpty then h.badSource s1.hart else none) with
    | some c => .next ((s1.regError c).1.trap (s1.regError c).2)
    | none =>
      match f s1 with
      | .error t => .next (s1.trap t)
      | .ok e => .next (h.finish s.hart.convoy e)

/-- A check of R354: the trap unless the condition holds. -/
def require (ok : Bool) (t : Trap) : Except Trap Unit := if ok then .ok () else .error t

/-- A scalar instruction that always retires with the state `f` gives. -/
def scalarOp (h : Hdr) (f : State → State) (s : State) : Host.Outcome State Fault Refusal :=
  runInstr h s (fun s => .ok (.next (f s)))

/-- A scalar instruction that writes one register from the hart's registers and PC (R65). -/
def scalarReg (h : Hdr) (d : Reg5) (f : Hart → Word) (s : State) : Host.Outcome State Fault Refusal :=
  scalarOp h (fun s => s.ps d (f s.hart)) s

end Sys2Proof.Machine
end

