-- ==== Sys2Proof/Machine/Flags.lean ====
section
/-! DEFINITION. FCSR and the exception masks (Table 2-3, R14, R53, R57). -/

namespace Sys2Proof.Machine

open Sys2Proof

/-- The sticky bits of FCSR that an exception sets (Table 2-3, R56, R57). -/
def Exc.fcsr (e : Exc) : BitVec 10 :=
  (if e.nv then 0x10 else 0) ||| (if e.dz then 0x08 else 0) ||| (if e.ov then 0x04 else 0) |||
  (if e.uf then 0x02 else 0) ||| (if e.nx then 0x01 else 0) ||| (if e.is then 0x200 else 0)

/-- FCSR with the exceptions ORed in (R57). -/
def Hart.raise (h : Hart) (e : Exc) : Hart := { h with fcsr := h.fcsr ||| e.fcsr }

/-- FCSR.RM (Table 2-3). -/
def Hart.fcsrRm (h : Hart) : RM := RM.ofCode (h.fcsr.toNat / 32 % 8)

/-- FCSR.SAT (Table 2-3). -/
def Hart.satBit (h : Hart) : Bool := h.fcsr.getLsbD 8

/-- The rounding mode of a scalar FP word (R23, R52): code 7 is FCSR.RM. -/
def Hart.wordRm (h : Hart) (r : BitVec 3) : RM := if r = 7 then h.fcsrRm else RM.ofCode r.toNat

/-- VTYPE.RM (Table 1-7). -/
def Hart.vrm (h : Hart) : RM := RM.ofCode (h.vtype.toNat / 4096 % 8)

/-- An f32 operand of an s register (R84): bits [31:0]. -/
def f32Of (x : Word) : FVal := FName.f32.read (x.toNat % 2 ^ 32)

/-- An exact value rounded to f32, with the exceptions of forming it and of rounding it. -/
def toF32 (rm : RM) (r : FVal × Exc) : Nat × Exc :=
  let (c, e) := FName.f32.round rm false r.1
  (c, r.2.or e)

end Sys2Proof.Machine
end

