-- ==== Sys2Proof/Machine/Memory.lean ====
section
/-! DEFINITION. Addresses, translation, performing an access, the store buffers of a hart, and remote elements on the requester's side
(05 R119 to R148, 06 R161 to R173, 08 R193, 09 R217 to R231, 13 R309 to R331). -/

namespace Sys2Proof.Machine

open Sys2Proof

/-! ### Who accesses, and what an address names -/

/-- The agent of an access: its hart's place, its context and privilege (R220, R224, R283). For a request of another package `remote` is the HARTID
of the requester and `hart` a hart of the owner die; for an access of firmware it is 0xFFFFFFFF (12 R308). -/
structure Agent where
  hart : Nat
  ctx  : BitVec 16
  user : Bool
  remote : Option Nat
  deriving DecidableEq, Repr

/-- The agent that a hart is. -/
def Hart.agent (h : Hart) : Agent := ⟨h.id, h.ctxid, !h.super, none⟩

/-- The number that no hart has: an access under it finds no buffered write of its own. -/
def noHart : Nat := 2 ^ 20

/-- The hart whose buffers are the agent's own. -/
def Agent.buffers (a : Agent) : Nat := if a.remote.isSome then noHart else a.hart

/-- Bits [63:55] of an address all equal bit 54 (R221). -/
def canonical (va : Word) : Bool := va.toNat / 2 ^ 54 == 0 || va.toNat / 2 ^ 54 == 0x3FF

/-- The role of a bank in BROLE (Table 6-4): 0 CC, 1 SP, 2 TL, 3 CM. -/
def bankRole (brole : Word) (b : Nat) : Nat := brole.toNat / 4 ^ b % 4

/-- The banks of a core in a role, ascending. -/
def banksIn (brole : Word) (role : Nat) : List Nat := (List.range 32).filter (fun b => bankRole brole b == role)

/-- The byte of a core's scratchpad window (R163). -/
def State.scratchpad (s : State) (core off : Nat) : Place :=
  let bs := banksIn (s.getCore core).brole 1
  let q := off / 64
  match bs[q % bs.length]? with
  | none => .fault 0
  | some b => if off < bs.length * 65536 then .loc (locBank core b (q / bs.length * 64 + off % 64)) false else .fault 0

/-- The CM banks of a cluster as pairs of core and bank, in window order (R193). -/
def State.cmBanks (s : State) (cluster : Nat) : List (Nat × Nat) :=
  (List.range 8).flatMap (fun k => (banksIn (s.getCore (cluster * 8 + k)).brole 3).map (fun b => (cluster * 8 + k, b)))

/-- The byte of a cluster's memory window (R193). -/
def State.clusterMem (s : State) (cluster off : Nat) : Place :=
  match (s.cmBanks cluster)[off / 65536]? with
  | none => .fault 0
  | some (c, b) => .loc (locBank c b (off % 65536)) false

/-- The byte of a die's scratchpad (R220, R283). -/
def State.dieScratch (s : State) (a : Agent) (die off : Nat) : Place :=
  if 64 * 2 ^ 20 ≤ off then .fault 0
  else if off / 2 ^ 20 = 63 then
    if isFirm a.hart then .loc (locScratch die off) false
    else if !a.user && dieOf a.hart == die && mailboxOff a.hart ≤ off && off < mailboxOff a.hart + 64 then .loc (locScratch die off) false
    else .fault 0
  else if tabGet s.spOwner (64 * die + off / 2 ^ 20) = some a.ctx then .loc (locScratch die off) false
  else .fault 0

/-- The untranslated region (Table 9-2), for an address at or above 0xFFFF_F000_0000_0000. -/
def State.window (s : State) (a : Agent) (va : Word) : Place :=
  let o := va.toNat - 0xFFFFF00000000000
  if o < 2 ^ 40 then s.scratchpad (coreOf a.hart) o
  else if o < 2 * 2 ^ 40 then s.clusterMem (clusterOf a.hart) (o - 2 ^ 40)
  else if o < 2 * 2 ^ 40 + 4 * 2 ^ 32 then s.dieScratch a ((o - 2 * 2 ^ 40) / 2 ^ 32) (o % 2 ^ 32)
  else .fault 0

/-! ### Translation (R223 to R226) -/

/-- V of an entry (Table 9-4). -/
def pteV (e : Word) : Bool := e.getLsbD 63
/-- KIND. -/
def pteKind (e : Word) : Nat := e.toNat / 2 ^ 61 % 4
/-- STRICT. -/
def pteStrict (e : Word) : Bool := e.getLsbD 60
/-- W. -/
def pteW (e : Word) : Bool := e.getLsbD 59
/-- X. -/
def pteX (e : Word) : Bool := e.getLsbD 58
/-- U. -/
def pteU (e : Word) : Bool := e.getLsbD 57
/-- LEAF. -/
def pteLeaf (e : Word) : Bool := e.getLsbD 56
/-- FRAME as an address: PA[51:16] and 16 zero bits. -/
def pteFrame (e : Word) : Nat := e.toNat / 2 ^ 16 % 2 ^ 36 * 2 ^ 16
/-- GEN or PKG. -/
def pteGen (e : Word) : Nat := e.toNat % 2 ^ 16

/-- The virtual address bits below a leaf of a level: 42, 29 or 16 (R223). -/
def levelBits (level : Nat) : Nat := match level with
  | 1 => 42
  | 2 => 29
  | _ => 16

/-- An entry is well formed as a leaf of its level, and not a fault of KIND 0 (R224). -/
def leafOk (e : Word) (level : Nat) : Bool :=
  pteKind e != 3 && e.toNat / 2 ^ 52 % 16 == 0 && pteFrame e % 2 ^ levelBits level == 0 &&
  (pteKind e != 1 || pteGen e / 128 == 0)

/-- A pointer entry is well formed (Table 9-4). -/
def pointerOk (e : Word) : Bool :=
  e.toNat / 2 ^ 52 % 16 == 0 && pteKind e == 0 && pteGen e == 0

/-- The entry of an address in the table at `base` of a level: its location. -/
def entryLoc (va : Word) (level base : Nat) : Nat := base + va.toNat / 2 ^ levelBits level % 8192 * 8

/-- The walk from the table at `base` of a level (R223, R224): the location of the leaf, the leaf and its level. `held` are pointer entries that stand for those
in memory, by level (Table 9-5). -/
def walkFrom (mem : List Host.Cell) (held : List (Nat × Word)) (va : Word) : Nat → Nat → Nat → Option (Nat × Word × Nat)
  | 0, _, _ => none
  | n + 1, level, base =>
    let l := entryLoc va level base
    let e := (tabGet held level).getD (BitVec.ofNat 64 (leNat (memRead 8 l mem)))
    if pteV e = false then none
    else if pteLeaf e then if leafOk e level then some (l, e, level) else none
    else if level = 3 || !pointerOk e then none
    else walkFrom mem held va n (level + 1) (pteFrame e)

/-- The pointer entries on the way of a walk, by level. -/
def walkPointers (mem : List Host.Cell) (held : List (Nat × Word)) (va : Word) : Nat → Nat → Nat → List (Nat × Word)
  | 0, _, _ => []
  | n + 1, level, base =>
    let e := (tabGet held level).getD (BitVec.ofNat 64 (leNat (memRead 8 (entryLoc va level base) mem)))
    if pteV e = false || pteLeaf e || level = 3 || !pointerOk e then []
    else (level, e) :: walkPointers mem held va n (level + 1) (pteFrame e)

/-- The walk of an address in the tables of a context, with pointer entries held by level. -/
def State.walkWith (s : State) (held : List (Nat × Word)) (ctx : BitVec 16) (va : Word) : Option (Nat × Word × Nat) :=
  match tabGet s.roots ctx.toNat with
  | none => none
  | some r => walkFrom s.mem held va 3 1 r

/-- The walk of an address in the tables of a context. -/
def State.walk (s : State) (ctx : BitVec 16) (va : Word) : Option (Nat × Word × Nat) := s.walkWith [] ctx va

/-- The bits of an address above what an entry of a level maps. -/
def levelPrefix (va : Word) (level : Nat) : Nat := va.toNat % 2 ^ 55 / 2 ^ levelBits level

/-- The pointer entries that the walker cache of a die holds for an address, by level (Table 9-5). -/
def State.heldPointers (s : State) (die : Nat) (ctx : BitVec 16) (va : Word) : List (Nat × Word) :=
  (s.walkc.filter (fun w => w.die == die && w.ctx == ctx && levelPrefix va w.level == w.prefix_)).map (fun w => (w.level, w.entry))

/-- The walker cache with the pointer entries of a walk. -/
def cachePointers (die : Nat) (ctx : BitVec 16) (va : Word) (ws : List WalkEnt) (ps : List (Nat × Word)) : List WalkEnt :=
  ps.foldl (fun ws p =>
    let w : WalkEnt := ⟨die, ctx, p.1, levelPrefix va p.1, p.2⟩
    if ws.contains w then ws else w :: ws.filter (fun x => !(x.die == die && x.ctx == ctx && x.level == w.level && x.prefix_ == w.prefix_))) ws

/-- The walk that a walker of a die makes, with the pointer entries that it reads (R226): from memory, or by entries of the walker cache that still stand;
where both give one leaf, no choice is made. -/
def State.walkCached (s : State) (die : Nat) (ctx : BitVec 16) (va : Word) : State × Option (Nat × Word × Nat) :=
  let go := fun (s : State) (held : List (Nat × Word)) =>
    let ps := match tabGet s.roots ctx.toNat with
      | none => []
      | some r => walkPointers s.mem held va 3 1 r
    ({ s with walkc := cachePointers die ctx va s.walkc ps }, s.walkWith held ctx va)
  let held := s.heldPointers die ctx va
  if s.walkWith held ctx va = s.walk ctx va then go s [] else if Config.tlbKept s.free then go s.took held else go s.took []

/-- The physical address is one of DRAM or of host memory (Table 9-3). -/
def paReserved (pa : Nat) : Bool := decide (0x3000000000 ≤ pa) && decide (pa < 0x8000000000000)

/-- The package gives reduced service: DRAMCAL is set and READY is not (12 R303). -/
def State.reduced (s : State) : Bool := s.brdy.getLsbD 2 && !s.brdy.getLsbD 6

/-- WMARK of a die (Table 12-9). -/
def State.wmark (s : State) (die : Nat) : Nat := s.brdy.toNat / 2 ^ (32 + 8 * die) % 256

/-- A physical address in DRAM that reduced service does not reach yet (12 R303). -/
def State.unready (s : State) (pa : Nat) : Bool :=
  s.reduced && decide (pa < 0x3000000000) && decide (s.wmark (pa / 0xC00000000) * 2 ^ 28 ≤ pa % 0xC00000000)

/-- A leaf that the access may not use: KIND 1 (R224). -/
def denied (e : Word) (a : Agent) (k : AccK) : Bool :=
  (k == .write && !pteW e) || (k == .fetch && !pteX e) || (a.user && !pteU e) || (pteKind e != 1 && paReserved (pteFrame e))

/-- A leaf that the access may not use at an address, reduced service included. -/
def State.deniedAt (s : State) (e : Word) (level : Nat) (va : Word) (a : Agent) (k : AccK) : Bool :=
  denied e a k || (pteKind e == 0 && s.unready (pteFrame e + va.toNat % 2 ^ levelBits level))

/-- Where a leaf maps an address. DESIGN CHOICE (log 39): only FRAME is checked against the reserved ranges, so an address of a large page whose own physical address is in
one performs as memory; and the KIND of a leaf, not its FRAME, says whether the access is local or the host's. -/
def leafPlace (e : Word) (level : Nat) (va : Word) : Place :=
  let pa := pteFrame e + va.toNat % 2 ^ levelBits level
  match pteKind e with
  | 0 => .loc pa (pteStrict e)
  | 1 => .peer (pteGen e % 128) (BitVec.ofNat 64 pa) (pteStrict e)
  | _ => .host pa (pteStrict e)

/-- A standing translation of an address for an access in a translation unit (R225, R226). -/
def Tlb.covers (t : Tlb) (unit : Nat) (ctx : BitVec 16) (va : Word) (k : AccK) : Bool :=
  t.unit == unit && t.ctx == ctx && levelPrefix va t.level == t.vpn && (k != .write || t.wr)

/-- A translation installed in a unit: it takes the place of the one of the same page there. -/
def installTlb (ts : List Tlb) (t : Tlb) : List Tlb :=
  t :: ts.filter (fun x => !(x.unit == t.unit && x.ctx == t.ctx && x.vpn == t.vpn && x.level == t.level))

/-- The translation unit of a core in State.tlb. -/
def coreUnit (hart : Nat) : Nat := 4 + coreOf hart

/-- Bytes of memory that change without an access of an agent: what they replace is held too (R77). -/
def State.remember (s : State) (l : Nat) (bs : List Byte) : State :=
  { s with mem := memPut s.mem l bs, writes := s.writes + 1, past := (s.writes, l, memRead bs.length l s.mem) :: s.past }

/-- `n` bytes of memory at a location zeroed without an access of an agent: what they held is held too (R77). -/
def State.zeroed (s : State) (l n : Nat) : State :=
  { s with mem := memClear s.mem l n, writes := s.writes + 1,
           past := ((s.mem.dropWhile (fun c => decide (c.1 < l))).takeWhile (fun c => decide (c.1 < l + n))).map (fun (c : Host.Cell) => (s.writes, c.1, [c.2])) ++ s.past,
           ecc := s.ecc.filter (fun w => !(decide (l ≤ w) && decide (w < l + n))) }

/-- Translation by a new walk (R224, R225): a write to a LOCAL or HOST leaf increments its GEN; the translation is installed in the die's TLB, and in the
core's translation unit where `core`. -/
def State.walkInstall (s : State) (core : Bool) (a : Agent) (k : AccK) (va : Word) : State × Place :=
  match s.walkCached (dieOf a.hart) a.ctx va with
  | (s, none) => (s, .fault 0)
  | (s, some (l, e, level)) =>
    if s.deniedAt e level va a k then (s, .fault 1)
    else
      let e' := if k == .write && pteKind e != 1 then BitVec.ofNat 64 (e.toNat - pteGen e + (pteGen e + 1) % 2 ^ 16) else e
      let t : Tlb := ⟨dieOf a.hart, a.ctx, levelPrefix va level, level, e', k == .write⟩
      let ts := installTlb s.tlb t
      let s1 := { s with tlb := if core then installTlb ts { t with unit := coreUnit a.hart } else ts,
                         promos := if e' = e then s.promos else s.promos.map (fun p => if p.pte = l then { p with tracked := true } else p) }
      (if e' = e then s1 else s1.remember l (natLe 8 e'.toNat), leafPlace e' level va)

/-- What a standing translation makes of an access. -/
def State.tlbPlace (s : State) (t : Tlb) (a : Agent) (k : AccK) (va : Word) : Place :=
  if s.deniedAt t.leaf t.level va a k then .fault 1 else leafPlace t.leaf t.level va

/-- Translation of a canonical address outside the untranslated region: the core's translation unit where `core`, the die's TLB, a walk (R226). A standing
translation may be used or may have been replaced; where every way gives one place and leaves memory alike, no choice is made. -/
def State.translateTab (s : State) (core : Bool) (a : Agent) (k : AccK) (va : Word) : State × Place :=
  let find := fun (u : Nat) => s.tlb.find? (fun t => t.covers u a.ctx va k)
  let miss := s.walkInstall core a k va
  let inDie := find (dieOf a.hart)
  let hit := fun (s : State) (t : Tlb) => ({ s with tlb := if core then installTlb s.tlb { t with unit := coreUnit a.hart } else s.tlb }, s.tlbPlace t a k va)
  let alike := fun (t : Tlb) => s.tlbPlace t a k va = miss.2 && miss.1.mem = s.mem
  let fromDie := fun (s : State) =>
    match inDie with
    | none => s.walkInstall core a k va
    | some t => if Config.tlbKept s.free then hit s.took t else s.took.walkInstall core a k va
  match if core then find (coreUnit a.hart) else none with
  | some c =>
    if alike c && inDie.all alike then (s, s.tlbPlace c a k va)
    else if Config.tlbKept s.free then (s.took, s.tlbPlace c a k va)
    else fromDie s.took
  | none =>
    match inDie with
    | none => miss
    | some t => if alike t then hit s t else fromDie s

/-- What an address names for a firmware core below the untranslated region. DESIGN CHOICE (log 38): physical memory at its own address, and the firmware memory of its die at 2^53. -/
def State.firmPlace (s : State) (a : Agent) (va : Word) : Place :=
  let p := va.toNat
  if 2 ^ 53 ≤ p && p < 2 ^ 53 + 2 ^ 32 then .loc (locFirm (dieOf a.hart) (p - 2 ^ 53)) false
  else if p < 0x3000000000 then (if s.unready p then .fault 1 else .loc p false)
  else if 2 ^ 51 ≤ p && p < 2 ^ 52 then .host p false
  else .fault 0

/-- Translation of an address for an access (R221 to R226): by way of the core's translation unit, or of the die's TLB alone. -/
def State.translateVia (s : State) (core : Bool) (a : Agent) (k : AccK) (va : Word) : State × Place :=
  if canonical va = false then (s, .fault 0)
  else if 0xFFFFF00000000000 ≤ va.toNat then (s, s.window a va)
  else if isFirm a.hart then (s, s.firmPlace a va)
  else s.translateTab core a k va

/-- The place of another address under the translation of the first: `bits` low bits are its own. -/
def Place.move (p : Place) (bits : Nat) (va : Word) : Place :=
  let at_ := fun (l : Nat) => l / 2 ^ bits * 2 ^ bits + va.toNat % 2 ^ bits
  match p with
  | .loc l st => .loc (at_ l) st
  | .host l st => .host (at_ l) st
  | .peer pkg a st => .peer pkg (BitVec.ofNat 64 (at_ a.toNat)) st
  | .fault k => .fault k

/-- Translation of a scalar access, a fetch, or a page of a unit, strided or whole-register access (R226). -/
def State.translate (s : State) (a : Agent) (k : AccK) (va : Word) : State × Place := s.translateVia true a k va

/-! ### Performing (R173, R216, R238, R335): a write performs at every scope when it reaches memory -/

/-- Bytes at a location with those that a write replaced put back where they overlap. -/
def putBack (l : Nat) (bs : List Byte) (w : Nat × Nat × List Byte) : List Byte :=
  bs.mapIdx (fun k b => if w.2.1 ≤ l + k && l + k < w.2.1 + w.2.2.length then w.2.2.getD (l + k - w.2.1) b else b)

/-- The bytes that a location held before the write of a number performed (R77). -/
def State.heldAt (s : State) (num l n : Nat) : List Byte := (s.past.takeWhile (fun w => decide (num ≤ w.1))).foldl (putBack l) (memRead n l s.mem)

/-- The value an atomic of an `amo` code writes, if it writes (R78). -/
def amoNew (code w old b cmp : Nat) : Option Nat :=
  let sm := fun x => bitsInt true w x
  match code with
  | 0 => some b
  | 1 => some ((old + b) % 2 ^ w)
  | 2 => some (old &&& b)
  | 3 => some (old ||| b)
  | 4 => some (old ^^^ b)
  | 5 => some (if sm old < sm b then old else b)
  | 6 => some (if sm old < sm b then b else old)
  | 7 => some (min old b)
  | 8 => some (max old b)
  | _ => if old = cmp then some b else none

/-- The value a vector atomic writes (R128): codes 0 to 8 of Table 1-8; 0 with `flt` and 7 are f32 additions (R317). -/
def vamoNew (code w : Nat) (rm : RM) (flt : Bool) (old d : Nat) : Nat :=
  let sm := fun x => bitsInt true w x
  let fa := (toF32 rm (FVal.add rm (FName.f32.read old) (FName.f32.read d))).1
  match code with
  | 0 => if flt then fa else (old + d) % 2 ^ w
  | 1 => if sm d < sm old then d else old
  | 2 => if sm old < sm d then d else old
  | 3 => old &&& d
  | 4 => old ||| d
  | 5 => old ^^^ d
  | 6 => d
  | 7 => fa
  | _ => (FName.f32.round .rne false (FVal.maximum (FName.f32.read old) (FName.f32.read d))).1

/-- A buffered write performs: its bytes, or its atomic update of the bytes that stand there then, with no write between the two (R128, R229, R231). -/
def State.performWrite (s : State) (p : PendWrite) : State :=
  match p.rmw with
  | none => s.perform p.loc p.bytes
  | some (code, rm, flt) =>
    let n := p.bytes.length
    s.perform p.loc (natLe n (vamoNew code (8 * n) (RM.ofCode rm) flt (leNat (memRead n p.loc s.mem)) (leNat p.bytes)))

/-! ### The buffers of a hart (R159, R169, Table 5-10) -/

/-- A buffered write overlaps `n` bytes at a location. -/
def PendWrite.hits (p : PendWrite) (l n : Nat) : Bool := decide (p.loc < l + n) && decide (l < p.loc + p.bytes.length)

/-- An interlock entry covers a line of an address (R172). -/
def Lock.covers (k : Lock) (va : Word) : Bool := k.lines.any (fun r => decide (r.1 ≤ va.toNat / 64) && decide (va.toNat / 64 ≤ r.2))

/-- A buffered write stands in the way of an access to `n` bytes at a location, by its bytes or by the interlock entry of its instruction (R172). -/
def PendWrite.blocks (p : PendWrite) (l n : Nat) (va : Word) : Bool := p.hits l n || p.lock.covers va

/-- An earlier vector write that performs before a later one: it overlaps it, it is of the same instruction, whose elements commit in ascending order (R159), the
interlock entry of an earlier instruction covers it, or a strip boundary stands between them (R172, Table 5-10, Table 6-5 note 2). -/
def PendWrite.precedes (q p : PendWrite) : Bool :=
  q.hits p.loc p.bytes.length || q.lock.num == p.lock.num || q.lock.covers p.va || decide (q.strip < p.strip)

/-- The writes that meet a test with those that have to perform before them, and the rest, both in order. -/
def splitWrites (f : PendWrite → Bool) : List PendWrite → List PendWrite × List PendWrite
  | [] => ([], [])
  | q :: qs =>
    let r := splitWrites f qs
    if f q || r.1.any q.precedes then (q :: r.1, r.2) else (r.1, q :: r.2)

/-- Performing buffered writes in order. -/
def State.performAll (s : State) (ps : List PendWrite) : State := ps.foldl State.performWrite s

/-- The number of entries up to the last that meets a test. -/
def lastHit (f : PendWrite → Bool) : List PendWrite → Nat → Nat → Nat
  | [], _, best => best
  | p :: ps, k, best => lastHit f ps (k + 1) (if f p then k + 1 else best)

/-- Performing the vector writes of a hart that meet a test, each with what has to perform before it (R159, R172, R173). -/
def State.drainWhere (s : State) (id : Nat) (f : PendWrite → Bool) : State :=
  let h := s.getHart id
  let r := splitWrites f h.vbuf
  if r.1.isEmpty then s else (s.setHart { h with vbuf := r.2 }).performAll r.1

/-- Performing the first `k` vector writes of a hart (R159). -/
def State.drainV (s : State) (id k : Nat) : State :=
  if k = 0 then s
  else
    let h := s.getHart id
    (s.setHart { h with vbuf := h.vbuf.drop k }).performAll (h.vbuf.take k)

/-- Performing the oldest scalar store of a hart: earlier vector writes that stand in its way perform first (R172). -/
def State.drainS1 (s : State) (id : Nat) : State :=
  match (s.getHart id).sbuf with
  | [] => s
  | p :: _ =>
    let s1 := s.drainWhere id (fun q => q.blocks p.loc p.bytes.length p.va && decide (q.seq < p.seq))
    let h := s1.getHart id
    (s1.setHart { h with sbuf := h.sbuf.drop 1 }).perform p.loc p.bytes

/-- Performing the first `k` scalar stores of a hart. -/
def State.drainS (s : State) (id : Nat) : Nat → State
  | 0 => s
  | k + 1 => (s.drainS1 id).drainS id k

/-- Every write that a hart has buffered performs: a fence, a release, an arrival (R79, R90, R201). -/
def State.drainAll (s : State) (id : Nat) : State :=
  let s1 := s.drainS id (s.getHart id).sbuf.length
  s1.drainV id (s1.getHart id).vbuf.length

/-- The oldest `k` scalar stores of a hart may perform: none of them stands behind an access of the vector queue that its interlock entry covers (R172). -/
def Hart.mayDrainS (h : Hart) (k : Nat) : Bool := (h.sbuf.take k).all (fun p => !h.late.any (fun q => q.lock.covers p.va))

/-- Another hart's buffered writes that an access overlaps may have performed or not (R128, R169). -/
def State.settleOther (s : State) (id l n : Nat) : State :=
  let h := s.getHart id
  let kv := lastHit (fun p => p.hits l n) h.vbuf 0 0
  let ks := lastHit (fun p => p.hits l n) h.sbuf 0 0
  let s1 := if kv = 0 then s else if Config.drained s.free then (s.took).drainWhere id (fun p => p.hits l n) else s.took
  if ks = 0 || !(s1.getHart id).mayDrainS ks then s1 else if Config.drained s1.free then (s1.took).drainS id ks else s1.took

/-- The effect of an access to `n` bytes on the buffers of every hart but its own. -/
def State.settleOthers (s : State) (own l n : Nat) : State :=
  (s.allHarts.map (·.id)).foldl (fun s id => if id = own then s else s.settleOther id l n) s

/-- A scalar load of the hart's own (Table 5-10 note 2): its vector writes to the bytes may have performed or not. -/
def State.settleScalar (s : State) (own l n : Nat) : State :=
  let kv := lastHit (fun p => p.hits l n) (s.getHart own).vbuf 0 0
  let s1 := if kv = 0 then s else if Config.drained s.free then (s.took).drainWhere own (fun p => p.hits l n) else s.took
  s1.settleOthers own l n

/-- A vector or engine access of the hart's own (Table 5-10 note 1): its earlier vector writes that stand in its way, by their bytes or by the interlock entry of an earlier
instruction, have performed; its scalar stores may have. -/
def State.settleVector (s : State) (own l n : Nat) (va : Word) : State :=
  let h := s.getHart own
  let s1 := s.drainWhere own (fun p => p.hits l n || (!(h.opened && p.lock.num == h.lock.num) && p.lock.covers va))
  let ks := lastHit (fun p => p.hits l n) (s1.getHart own).sbuf 0 0
  let s2 := if ks = 0 || !(s1.getHart own).mayDrainS ks then s1 else if Config.drained s1.free then (s1.took).drainS own ks else s1.took
  s2.settleOthers own l n

/-- An atomic of the hart's own: every one of its writes to the bytes has performed (Table 5-10). -/
def State.settleAtomic (s : State) (own l n : Nat) : State :=
  let s1 := s.drainS own (lastHit (fun p => p.hits l n) (s.getHart own).sbuf 0 0)
  (s1.drainWhere own (fun p => p.hits l n)).settleOthers own l n

/-- The bytes a scalar load takes: those of the hart's own buffered stores where they overlap, else memory (R169). -/
def forward (ps : List PendWrite) (l : Nat) (bs : List Byte) : List Byte :=
  ps.foldl (fun bs p =>
    bs.mapIdx (fun k b => if p.loc ≤ l + k && l + k < p.loc + p.bytes.length then p.bytes.getD (l + k - p.loc) b else b)) bs

/-- A scalar store enters the store buffer (R169); a hart whose buffer of 8 is full is held before it (R149). -/
def State.bufferS (s : State) (own l : Nat) (bs : List Byte) (va : Word) : State :=
  let s1 := if 8 ≤ (s.getHart own).sbuf.length then s.drainS1 own else s
  let h := s1.getHart own
  s1.setHart { h with sbuf := h.sbuf ++ [⟨h.wseq, l, bs, h.strip, none, va, 0, ⟨0, []⟩⟩], wseq := h.wseq + 1 }

/-- The physical lane of an element: its virtual lane under the grant (R45). -/
def Hart.laneOf (h : Hart) (i : Nat) : Nat := i % 32 % max 1 h.lanes

/-- The entries of a lane's store buffer that are taken: an element of at most 64 bits takes one (R159). That two elements never share an entry is DEDUCED (log 37). -/
def laneEntries (lane : Nat) (ps : List PendWrite) : Nat := ps.countP (fun p => p.lane == lane)

/-- A lane whose buffer of 16 entries is full stops until its oldest writes have performed (R159). -/
def State.roomInLane (s : State) (own lane : Nat) : Nat → State
  | 0 => s
  | k + 1 =>
    let h := s.getHart own
    match h.vbuf.find? (fun p => p.lane == lane) with
    | none => s
    | some p => if laneEntries lane h.vbuf < 16 then s else (s.drainWhere own (fun q => q.seq == p.seq)).roomInLane own lane k

/-- A committed vector write, or with `rmw` an atomic update, enters the store buffer of its element's lane (R159). An older scalar store of the hart to the
bytes that has not performed may perform before it or after it (Table 5-10 note 1). -/
def State.bufferV (s : State) (own l : Nat) (bs : List Byte) (rmw : Option (Nat × Nat × Bool)) (va : Word) (idx : Nat) : State :=
  let lane := (s.getHart own).laneOf idx
  let s1 := s.roomInLane own lane 16
  let h := s1.getHart own
  s1.setHart { h with vbuf := h.vbuf ++ [⟨h.wseq, l, bs, h.strip, rmw, va, lane, h.lock⟩], wseq := h.wseq + 1 }

/-- The ranges of lines of byte ranges. -/
def linesOf (rs : List (Word × Nat)) : List (Nat × Nat) := rs.map (fun r => (r.1.toNat / 64, (r.1.toNat + r.2 - 1) / 64))

/-- The interlock entries that a hart has in use (R172): those of writes that have not performed, of instructions of its queue that have not been executed, and of its copies. -/
def State.locksUsed (s : State) (own : Nat) : Nat :=
  let h := s.getHart own
  (((h.vbuf.map (·.lock.num) ++ h.late.map (·.lock.num)).filter (· != 0)).eraseDups).length + ((s.getCluster (clusterOf own)).copies.filter (fun c => c.hart == own)).length

/-- A memory instruction makes its interlock entry (R172), once; it may cover more lines as its rows come up. -/
def State.openLock (s : State) (own : Nat) (lines : List (Nat × Nat)) : State :=
  let h := s.getHart own
  if h.opened then s.setHart { h with lock := ⟨h.lock.num, h.lock.lines ++ lines.filter (fun r => !h.lock.lines.contains r)⟩ }
  else s.setHart { h with lock := ⟨h.lock.num + 1, lines⟩, opened := true }

/-! ### Errors in cached copies (R306, R307) -/

/-- A cached codeword overlaps `n` bytes at a location. -/
def BadCopy.hits (c : BadCopy) (l n : Nat) : Bool := decide (c.cw < l + n) && decide (l < c.cw + c.size)

/-- An access of a hart, by the scalar path or not, may take its data from the copy: it lies in the hart's core or die, or in the memory-side cache, or the copy is the only one with the
line's newest bytes (R169, R217 to R219). -/
def BadCopy.near (c : BadCopy) (own : Nat) (scalar : Bool) : Bool :=
  c.dirty.isSome || (match c.unit with
    | 1 => scalar && c.owner == coreOf own
    | 2 => c.owner == coreOf own
    | 4 => c.owner == dieOf own
    | _ => true)

/-- UNIT of a machine-check record for a copy (Table 12-11). -/
def BadCopy.record (c : BadCopy) : Nat :=
  256 * (match c.unit with
    | 4 => c.owner
    | 6 => if c.cw < 2 ^ 51 then c.cw / 0xC00000000 % 4 else c.cw / 2 ^ 12 % 4
    | _ => if 1024 ≤ c.owner then c.owner - 1024 else c.owner / 64) + c.unit

/-- The copy's line is evicted (R307): a clean one goes; of a dirty one nothing is written, so that memory keeps its earlier value, and a machine-check record of KIND 3 says so. -/
def State.evictCopy (s : State) (c : BadCopy) : State :=
  let s1 := { s with badCopies := s.badCopies.erase c }
  match c.dirty with
  | none => s1
  | some num =>
    let line := c.cw / 64 * 64
    ((s1.remember line (s1.heldAt num line 64)).took).machineCheck 3 c.record 0xFFFFFFFF 0xFFFF c.cw (Config.value s1.free).toNat

/-- What a read of `n` bytes at a location meets among bad copies: the error, or none of them: a clean copy is passed by for a good one, or has been evicted, a dirty one has
been evicted (R307). -/
def State.meetCopies (s : State) : List BadCopy → State × Bool
  | [] => (s, false)
  | c :: cs =>
    match Config.pick s.free % 3 with
    | 0 => (s.took, true)
    | 1 => if c.dirty.isSome then (s.took, true) else s.took.meetCopies cs
    | _ => (s.took.evictCopy c).meetCopies cs

/-- A read of `n` bytes at a location for a hart finds an uncorrectable error (R140, R307): in the data themselves, or in a cached copy. -/
def State.readError (s : State) (own : Nat) (scalar : Bool) (l n : Nat) : State × Bool :=
  if s.bad l n then (s, true) else s.meetCopies (s.badCopies.filter (fun c => c.hits l n && c.near own scalar))

/-- UNIT and ADDR of the record of an error that an access of a hart found at a location: of the data there, or of a cached copy of its line (Table 12-11). -/
def State.errorUnit (s : State) (own l : Nat) (unit addr : Nat) : Nat × Nat :=
  match (if s.bad l 16 then none else s.badCopies.find? (fun c => c.cw / 64 == l / 64 && c.near own true)) with
  | some c => (c.record, c.cw)
  | none => (unit, addr)

/-! ### One element on its own package -/

/-- How an element fails: MF with the KIND of Table 5-4, RF, or an uncorrectable error in the data read. -/
inductive ElemFault where
  | mf (kind : Nat)
  | rf
  | ecc
  deriving DecidableEq, Repr

/-- The outcome of one element: its datum, its fault, or the request it needs an answer to. -/
inductive ElemRes where
  | done (data : Nat) (strict : Bool)
  | fault (f : ElemFault)
  | need (pkg : Nat) (e : RElem)
  deriving DecidableEq, Repr

/-- The access that an operation makes (R224): an atomic counts as a write. -/
def ropAcc : ROp → AccK
  | .load => .read
  | _ => .write

/-- One element performs at a location of the package for the hart `own`, by the scalar or the vector path (R74, R78, R122, R126, R128). A vector atomic waits for
its Pail unit or bank, at host memory for its completion, which comes before the instruction retires (R229 to R231). -/
def State.performElem (s : State) (own : Nat) (scalar : Bool) (l : Nat) (e : RElem) : State × ElemRes :=
  match e.op with
  | .load =>
    let s1 := if scalar then s.settleScalar own l e.n else s.settleVector own l e.n e.addr
    match s1.readError own scalar l e.n with
    | (s2, true) => (s2, .fault .ecc)
    | (s2, false) =>
      let bs := memRead e.n l s2.mem
      (s2, .done (leNat (if scalar then forward (s2.getHart own).sbuf l bs else bs)) false)
  | .store =>
    (if scalar then s.bufferS own l (natLe e.n e.data) e.addr else s.bufferV own l (natLe e.n e.data) none e.addr e.idx, .done 0 false)
  | .nibble hi =>
    let s1 := s.settleVector own l 1 e.addr
    let old := (memGet s1.mem l).toNat
    let s2 := s1.bufferV own l [BitVec.ofNat 8 (if hi then old % 16 + e.data % 16 * 16 else old / 16 * 16 + e.data % 16)] none e.addr e.idx
    (s2.drainWhere own (fun p => p.hits l 1), .done 0 false)
  | .amo code =>
    match (s.settleAtomic own l e.n).readError own true l e.n with
    | (s1, true) => (s1, .fault .ecc)
    | (s1, false) =>
      let old := leNat (memRead e.n l s1.mem)
      match amoNew code (8 * e.n) old e.data e.cmp with
      | none => (s1, .done old false)
      | some x => (s1.perform l (natLe e.n x), .done old false)
  | .vamo code rm flt =>
    match (s.drainWhere own (fun p => p.hits l e.n)).readError own false l e.n with
    | (s0, true) => (s0, .fault .ecc)
    | (s0, false) =>
      let s1 := s0.bufferV own l (natLe e.n e.data) (some (code, rm, flt)) e.addr e.idx
      (if 2 ^ 51 ≤ l && l < 2 ^ 52 then s1.drainWhere own (fun p => p.hits l e.n) else s1, .done 0 false)
  | .skim _ => (s, .done 0 false)
  | .probe => (s, .done l false)
  | .put _ _ => (s, .done 0 false)

/-! ### Remote elements on the requester's side (13 R312, R325 to R331, R341) -/

/-- The tickets of a core. -/
def State.tickets (s : State) (hart : Nat) : List Ticket := (s.getCore (coreOf hart)).tickets

/-- An entry belongs to the hart in its current context and names the page of an address at a package. -/
def Ticket.names (t : Ticket) (h : Hart) (pkg : Nat) (va : Word) : Bool :=
  t.hart.toNat == h.id % 4 && t.ctx == h.ctxid && t.pkg.toNat == pkg % 128 && t.page.toNat == va.toNat / 2 ^ 16 % 2 ^ 39

/-- An entry of the hart's current context. -/
def Ticket.ofHart (t : Ticket) (h : Hart) : Bool := t.hart.toNat == h.id % 4 && t.ctx == h.ctxid

/-- The outstanding entries of a hart's current context (R325, R330). -/
def State.outstanding (s : State) (h : Hart) : Nat :=
  ((s.tickets h.id).filter (fun t => t.ofHart h && t.state != .failr)).length

/-- A request can reach a package (R312, R341). -/
def State.reachable (s : State) (pkg : Nat) : Bool :=
  pkg == s.pkg.toNat || (s.brdy.getLsbD 5 && s.present.contains (BitVec.ofNat 7 pkg))

/-- Entering a ticket for the hart in a context (R326): the busy ticket and a full table set TKST.OVF. `told` are the replay notices that came before. -/
def State.enterTicket (s : State) (own : Nat) (ctx : BitVec 16) (told : List Told) (pkg : Nat) (va : Word) (t : Nat) : State :=
  let h := { s.getHart own with ctxid := ctx }
  let c := s.getCore (coreOf own)
  let page := va.toNat / 2 ^ 16 % 2 ^ 39
  let new := match told.find? (fun x => x.pkg == pkg && x.page == page && x.ticket == t) with
    | some x => (if x.ok then TkState.ready else TkState.fail, x.ord)
    | none => (TkState.wait, 0)
  if c.tickets.any (fun e => e.names h pkg va && (e.state == .wait || (new.1 != .wait && e.ticket.toNat == t && e.state == new.1))) then s
  else if t = 0xFFFF || 64 ≤ c.tickets.length then s.setHart { s.getHart own with tkOvf := true }
  else s.setCore (coreOf own) { c with tickets := c.tickets ++
      [⟨new.1, BitVec.ofNat 16 t, BitVec.ofNat 7 pkg, BitVec.ofNat 39 page, BitVec.ofNat 2 own, ctx, new.2⟩] }

/-- An answer as the outcome of its element (R314, R315, R321, R326, R331). -/
def answerRes : RAns → ElemRes
  | .done d st => .done d st
  | .ticket _ => .fault (.mf 2)
  | .refused => .fault (.mf 3)
  | .failed => .fault .rf
  | .ecc => .fault .ecc

/-- How an element of the instruction at PC fails without being sent, from the answers that lower elements have had: one of its page was ticketed (R327), or, for a write, one that writes a byte
of it has not performed, which a reissue will write again (R126, R316, R317). -/
def Hart.failedBelow (h : Hart) (pkg : Nat) (e : RElem) : Option ElemFault :=
  h.answers.findSome? (fun a =>
    match a.2, tabGet h.asked a.1 with
    | .done _ _, _ => none
    | r, some (p, va) =>
      let page := match r with
        | .ticket _ => va.toNat / 2 ^ 16 == e.addr.toNat / 2 ^ 16
        | _ => false
      if p == pkg && (page || (e.op != .load && decide (va.toNat < e.addr.toNat + e.n) && decide (e.addr.toNat < va.toNat + e.n))) then
        match answerRes r with
        | .fault f => some f
        | _ => none
      else none
    | _, none => none)

/-- One element for another package, or for a peer register of this one, by the tickets of the hart: refused, failed, or needing an answer (R326, R327, R331).
Entering a ticket is left to the instruction's end. -/
def State.remoteNew (s : State) (h : Hart) (pkg : Nat) (e : RElem) : ElemRes :=
  let mine := (s.tickets h.id).filter (fun t => t.names h pkg e.addr)
  match h.failedBelow pkg e with
  | some f => .fault f
  | none =>
  if mine.any (fun t => t.state == .fail || t.state == .failr) then .fault .rf
  else if mine.any (fun t => t.state == .wait) then .fault (.mf 2)
  else if s.reachable pkg then .need pkg e else .fault .rf

/-- One element for another package: answered, or new. The answers are those of the instruction at PC. -/
def State.remoteElem (s : State) (own pkg : Nat) (e : RElem) : ElemRes :=
  match tabGet (s.getHart own).answers e.idx with
  | some a => answerRes a
  | none => s.remoteNew (s.getHart own) pkg e

/-- Where an element goes and whether it can be performed: translation and, for a remote one, its answer (R121, R312). Nothing has
performed after this. -/
def State.placeElem (s : State) (own : Nat) (e : RElem) : State × Place :=
  s.translate (s.getHart own).agent (ropAcc e.op) e.addr

/-- The virtual address bits that the translation just made of an address maps: those of the standing translation, or of the leaf that it may not use (R121). -/
def State.spanBits (s : State) (a : Agent) (k : AccK) (va : Word) : Nat :=
  match s.tlb.find? (fun t => t.covers (coreUnit a.hart) a.ctx va k) with
  | some t => levelBits t.level
  | none =>
    match s.walk a.ctx va with
    | some (_, _, level) => levelBits level
    | none => 16

/-- The instruction in progress remembers a translation (R121, R227). -/
def State.noted (s : State) (own : Nat) (bits : Nat) (k : AccK) (va : Word) (p : Place) : State :=
  let h := s.getHart own
  s.setHart { h with places := ⟨va.toNat / 2 ^ bits, bits, k, p⟩ :: h.places }

/-- A translation that the instruction in progress has made stands for an address; only one of the address itself where it translates each element on its own. -/
def Hart.placing (h : Hart) (wide : Bool) (k : AccK) (va : Word) : Option Placing :=
  h.places.find? (fun m => m.acc == k && (wide || m.bits == 0) && va.toNat / 2 ^ m.bits == m.base)

/-- The place of an address for the instruction in progress (R121, R226): translated once for each page or large page where `wide`, else once for each address; an address of an
untranslated window is not translated. -/
def State.placeVa (s : State) (own : Nat) (wide : Bool) (k : AccK) (va : Word) : State × Place :=
  let h := s.getHart own
  match h.placing wide k va with
  | some m => (s, m.place.move m.bits va)
  | none =>
    let (s1, p) := s.translateVia wide h.agent k va
    if wide && 0xFFFFF00000000000 ≤ va.toNat then (s1, p)
    else (s1.noted own (if wide then s1.spanBits h.agent k va else 0) k va p, p)

/-- Whether the host refuses an access of the instruction in progress at a location (R80, R230, log 16): one draw for the instruction, by location. -/
def State.hostRefused (s : State) (own l : Nat) : State × Bool :=
  let h := s.getHart own
  match h.refuse with
  | some b => (s, Config.hostRefuses b l)
  | none => (s.took.setHart { h with refuse := some s.free }, Config.hostRefuses s.free l)

/-- An element performs where it is local, with the mark of its page. -/
def State.performMarked (s : State) (own : Nat) (scalar : Bool) (l : Nat) (st : Bool) (e : RElem) : State × ElemRes :=
  match s.performElem own scalar l e with
  | (s1, .done d _) => (s1, .done d st)
  | r => r

/-- A scalar element performs where it is local; where it fails, the instruction remembers where it went. -/
def State.scalarAt (s : State) (own l : Nat) (st : Bool) (e : RElem) : State × ElemRes :=
  match s.performMarked own true l st e with
  | (s1, .fault f) => (s1.noted own 0 (ropAcc e.op) e.addr (.loc l st), .fault f)
  | r => r

/-- A whole element of a scalar access: one that has been answered, else placed, then performed where it is local. -/
def State.scalarPlain (s : State) (own : Nat) (e : RElem) : State × ElemRes :=
  match tabGet (s.getHart own).answers e.idx with
  | some a => (s, answerRes a)
  | none =>
    match s.placeElem own e with
    | (s1, .fault k) => (s1, .fault (.mf k))
    | (s1, .loc l st) => s1.scalarAt own l st e
    | (s1, .host l st) =>
      if (ropAcc e.op == .write && e.op != .store) && Config.hostRefuses s1.free l then (s1.took, .fault (.mf 3)) else s1.took.scalarAt own l st e
    | (s1, .peer pkg a st) =>
      ((if (s1.getHart own).places.isEmpty then s1.noted own 0 (ropAcc e.op) e.addr (.peer pkg a st) else s1), s1.remoteNew (s1.getHart own) pkg { e with addr := a })

/-- A whole element of a vector or engine instruction: one that has been answered, else placed once, then performed where it is local. -/
def State.vectorPlain (s : State) (own : Nat) (e : RElem) : State × ElemRes :=
  match tabGet (s.getHart own).answers e.idx with
  | some a => (s, answerRes a)
  | none =>
    match s.placeVa own false (ropAcc e.op) e.addr with
    | (s1, .fault k) => (s1, .fault (.mf k))
    | (s1, .loc l st) => s1.performMarked own false l st e
    | (s1, .host l st) =>
      match s1.hostRefused own l with
      | (s2, true) => (s2, .fault (.mf 3))
      | (s2, false) => s2.performMarked own false l st e
    | (s1, .peer pkg a _) => (s1, s1.remoteNew (s1.getHart own) pkg { e with addr := a })

/-- A whole element of a hart (scalar or vector). -/
def State.elem (s : State) (own : Nat) (scalar : Bool) (e : RElem) : State × ElemRes :=
  if scalar then s.scalarPlain own e else s.vectorPlain own e

/-- Owner dies of a DIES field (R313): all four for 0. -/
def diesOf (dies : Nat) : List Nat :=
  let ds := (List.range 4).filter (fun d => dies.testBit d)
  if ds.isEmpty then List.range 4 else ds

/-- The owner die of an address (R313). -/
def ownerDie (dies : Nat) (va : Word) : Nat :=
  let ds := diesOf dies
  ds.getD (va.toNat % 2 ^ 55 / 2 ^ 16 % ds.length) 0

/-- Consecutive elements with one destination, at most 32 to a packet (R319). -/
def packetsOf (dies : Nat) : List (Nat × RElem) → List (Nat × Nat × List RElem)
  | [] => []
  | (pkg, e) :: rest =>
    let d := ownerDie dies e.addr
    match packetsOf dies rest with
    | (p, d', es) :: ps => if p = pkg && d' = d && es.length < 32 then (p, d', e :: es) :: ps else (pkg, d, [e]) :: (p, d', es) :: ps
    | [] => [(pkg, d, [e])]

/-- Two elements share a byte at the owner. -/
def elemsMeet (a b : RElem) : Bool := decide (a.addr.toNat < b.addr.toNat + b.n) && decide (b.addr.toNat < a.addr.toNat + a.n)

/-- A packet of atomics: the next goes out when its answers have come, so that no element above one that has not performed is sent (R317, R320). -/
def atomicPacket (es : List RElem) : Bool := es.any (fun e => match e.op with
  | .amo _ => true
  | .vamo _ _ _ => true
  | _ => false)

/-- The packets that may be on their way together (R126, R316, R317): those before the first that writes a byte which an earlier one writes, since two packets
may arrive in either order, and of atomics one. -/
def packetsApart (sent : List (Nat × RElem)) : List (Nat × Nat × List RElem) → List (Nat × Nat × List RElem)
  | [] => []
  | p :: ps =>
    if p.2.2.any (fun e => e.op != .load && sent.any (fun x => x.1 == p.1 && elemsMeet x.2 e)) then []
    else if atomicPacket p.2.2 then [p]
    else p :: packetsApart (sent ++ p.2.2.map (fun e => (p.1, e))) ps

/-! ### The interlock entry of a copy (R172, R205) -/

/-- The 64-byte lines of `n` bytes at an address and of `m` bytes at another share one (R172). -/
def linesMeet (a : Word) (n : Nat) (b : Word) (m : Nat) : Bool :=
  decide (0 < n) && decide (0 < m) && (decide (a.toNat / 64 ≤ (b.toNat + m - 1) / 64)) && (decide (b.toNat / 64 ≤ (a.toNat + n - 1) / 64))

/-- The lines of both ranges of a copy, elements 0 to VL - 1, meet `n` bytes at an address. -/
def Copy.covers (c : Copy) (va : Word) (n : Nat) : Bool := linesMeet c.src (c.vl * c.n) va n || linesMeet c.dst (c.vl * c.n) va n

/-- A hart has copies that its cluster's engine has not finished. -/
def State.copyBusy (s : State) (own : Nat) : Bool := (s.getCluster (clusterOf own)).copies.any (fun c => c.hart == own && !c.sync)

/-- Rows that a CHURN instruction of the hart has sent are on their way (11 R267, R275). -/
def State.rowsOut (s : State) (own : Nat) : Bool := s.churns.any (fun x => x.2.rows.any (fun r => r.hart == own && r.seq.isSome))

/-- An access that an engine makes for the hart has not performed: a fence and a release wait for it (R79, R90). -/
def State.engineBusy (s : State) (own : Nat) : Bool := s.copyBusy own || s.rowsOut own

/-- An unfinished copy of the hart covers `n` bytes at an address, so that a later access to them waits (R172). -/
def State.copyHits (s : State) (own : Nat) (va : Word) (n : Nat) : Bool :=
  (s.getCluster (clusterOf own)).copies.any (fun c => c.hart == own && !c.sync && c.covers va n)

/-- An unfinished copy of the hart's of an earlier strip: its writes perform before every vector store, scatter and vector atomic of a later one (Table 6-5 note 2). -/
def State.copyEarlier (s : State) (own : Nat) : Bool :=
  (s.getCluster (clusterOf own)).copies.any (fun c => c.hart == own && !c.sync && decide (c.strip < (s.getHart own).strip))

/-- An unfinished copy of the hart stands in the way of one of the elements: it covers bytes of it, or it is of an earlier strip than an element that writes. -/
def State.copyBlocks (s : State) (own : Nat) (es : List RElem) : Bool :=
  s.copyBusy own && (es.any (fun e => s.copyHits own e.addr e.n) || (es.any (fun e => e.op != .load) && s.copyEarlier own))

/-! ### Sending requests -/

/-- Sending request packets (R319), of a fabric stream with `tag`, and waiting for their answers (R314, R320). Before a request to the hart's own package leaves,
its earlier vector writes have performed there (Table 5-10, R319), and it waits for a copy of the hart's that covers its bytes (R335). -/
def State.sendTagged (s0 : State) (own dies : Nat) (tag : Option StreamTag) (es : List (Nat × RElem)) : State :=
  if es.any (fun e => e.1 == s0.pkg.toNat && s0.copyHits own e.2.addr e.2.n) then s0.setHart { s0.getHart own with stall := .held }
  else
  let s := if es.any (fun e => e.1 == s0.pkg.toNat) then s0.drainV own (s0.getHart own).vbuf.length else s0
  let h := s.getHart own
  let ps := (packetsApart [] (packetsOf dies es)).mapIdx (fun k p =>
    (⟨s.seq + k, s.pkg.toNat, p.1, p.2.1, own, h.ctxid, !h.super, p.2.2, tag⟩ : Packet))
  { s with sent := s.sent ++ ps, seq := s.seq + ps.length }.setHart
    { h with wait := .remote ps.length, asked := h.asked ++ ps.flatMap (fun (p : Packet) => p.elems.map (fun (e : RElem) => (e.idx, p.dst, e.addr))) }

/-- Sending request packets that are no stream's. -/
def State.sendPackets (s : State) (own dies : Nat) (es : List (Nat × RElem)) : State := s.sendTagged own dies none es

end Sys2Proof.Machine
end

