-- ==== Sys2Proof/Machine/Record.lean ====
section
/-! DEFINITION. Fault records and machine-check records (05 R134 to R137, 12 R307, R308). -/

namespace Sys2Proof.Machine

open Sys2Proof

/-- A faulted element: its number, its address, the KIND of Table 5-4, and whether it writes. -/
structure FaultElem where
  idx  : Nat
  addr : Word
  kind : Nat
  wr   : Bool
  deriving DecidableEq, Repr

/-- Writing bytes in the untranslated windows, in 64-byte pieces; nothing where a piece is not backed. -/
def State.writeWindow (s : State) (a : Agent) : Nat → Word → List Byte → State
  | 0, _, _ => s
  | n + 1, va, bs =>
    if bs.isEmpty then s
    else
      let s1 := match s.window a va with
        | .loc l _ => s.perform l (bs.take 64)
        | _ => s
      s1.writeWindow a n (va + 64) (bs.drop 64)

/-- A slot of the fault ring is backed (R137): it lies in the untranslated windows and within their backed parts. -/
def State.slotBacked (s : State) (a : Agent) (va : Word) : Bool :=
  decide (0xFFFFF00000000000 ≤ va.toNat) &&
  (match s.window a va with
    | .loc _ _ => true
    | _ => false) &&
  (match s.window a (va + 1023) with
    | .loc _ _ => true
    | _ => false)

/-- The page entries of faulted elements (R136): one for each page, in the order of the lowest faulted element on it. KIND of a page whose elements faulted with
different kinds is not stated: DESIGN CHOICE, that of its lowest faulted element (log 39). -/
def pageEntries : List FaultElem → List (Nat × Nat × Bool) → List (Nat × Nat × Bool)
  | [], acc => acc
  | f :: fs, acc =>
    let p := f.addr.toNat / 2 ^ 16
    if acc.any (fun e => e.1 == p) then
      pageEntries fs (acc.map (fun e => if e.1 = p then (e.1, e.2.1, e.2.2 || f.wr) else e))
    else pageEntries fs (acc ++ [(p, f.kind, f.wr)])

/-- What a fault record says beside its pages (Table 5-3). -/
structure RecordInfo where
  epc   : Word
  word  : IWord
  vlen  : Nat
  vst0  : Nat
  first : Nat
  nflt  : Nat
  reiss : Bool
  tkt   : Bool
  deriving DecidableEq, Repr

/-- The bytes of a fault record (Tables 5-3 and 5-4). -/
def recordBytes (r : RecordInfo) (pages : List (Nat × Nat × Bool)) (ctx : BitVec 16) (hartid fltn cycle : Nat) : List Byte :=
  let ps := pages.take 64
  let flags := (if 64 < pages.length then 1 else 0) + (if pages.any (·.2.2) then 2 else 0) + (if r.tkt then 4 else 0) + (if r.reiss then 8 else 0)
  natLe 8 r.epc.toNat ++ natLe 4 r.word.toNat ++ natLe 2 r.vlen ++ natLe 2 r.vst0 ++ natLe 2 r.first ++ natLe 1 ps.length ++
  natLe 1 flags ++ natLe 2 ctx.toNat ++ natLe 2 0 ++ natLe 4 hartid ++ natLe 4 fltn ++ natLe 8 cycle ++ natLe 2 r.nflt ++
  List.replicate 22 0 ++
  ps.flatMap (fun p => natLe 8 (p.1 * 2 ^ 16 + p.2.1 * 2 ^ 14 + if p.2.2 then 2 ^ 13 else 0))

/-- Appending a fault record to the ring of a hart for a context (R134, R137, R209); a slot that is not backed discards it. -/
def State.appendRecord (s : State) (own : Nat) (ctx : BitVec 16) (r : RecordInfo) (fs : List FaultElem) : State :=
  let h := s.getHart own
  let slot : Word := BitVec.ofNat 64 (h.fltBase.toNat * 2 ^ 16 + h.fltHead.toNat * 1024)
  let a : Agent := { h.agent with ctx := ctx }
  if s.slotBacked a slot then
    let n := h.fltn + 1
    let s1 := s.writeWindow a 16 slot (recordBytes r (pageEntries fs []) ctx (s.hartid own) n.toNat s.cycle)
    let h1 := s1.getHart own
    s1.setHart { h1 with fltn := n, fltHead := h1.fltHead + 1 }
  else s

/-- The unit of a machine-check record for a location: 256 * die + structure (Table 12-11). -/
def unitOfLoc (l : Nat) : Nat :=
  if l < 2 ^ 52 then 256 * (l / 0xC00000000 % 4) + 7
  else if l < 2 ^ 53 then 256 * ((l - 2 ^ 52) / (2 ^ 21 * 64) % 4) + 2
  else if l < 2 ^ 54 then 256 * ((l - 2 ^ 53) / (2 ^ 18 * 64) % 4) + 3
  else if l < 2 ^ 57 then 256 * ((l - 2 ^ 54) / 2 ^ 32 % 4) + 5
  else 256 * ((l - 2 ^ 57) / 2 ^ 32 % 4) + 8

/-- ADDR of a machine-check record for a location (Table 12-11): the physical address, or the offset in its bank or memory. -/
def addrOfLoc (l : Nat) : Nat :=
  if l < 2 ^ 52 then l
  else if l < 2 ^ 53 then (l - 2 ^ 52) % 65536
  else if l < 2 ^ 54 then (l - 2 ^ 53) % 8192
  else (l - 2 ^ 54) % 2 ^ 32

/-- The record of an uncorrectable error that an access of a hart found at a location (R307). -/
def State.eccFound (s : State) (own l : Nat) : State :=
  let r := s.errorUnit own l (unitOfLoc l) (addrOfLoc l)
  s.eccRecord own r.1 r.2

/-- The record of an uncorrectable error that an access of an agent found (R307, R308). -/
def State.eccAgent (s : State) (a : Agent) (l : Nat) : State :=
  match a.remote with
  | none => s.eccFound a.hart l
  | some id =>
    let r := s.errorUnit noHart l (unitOfLoc l) (addrOfLoc l)
    if id = 0xFFFFFFFF then (s.took).machineCheck 3 r.1 id 0xFFFF r.2 (Config.value s.free).toNat
    else if id / 1024 = s.pkg.toNat then s.eccFound (id % 1024) l
    else (s.took).machineCheck 2 r.1 id a.ctx.toNat r.2 (Config.value s.free).toNat

end Sys2Proof.Machine
end

