-- ==== Sys2Proof/Machine/Elements.lean ====
section
/-! DEFINITION. The elements of a memory instruction: the three stop regimes (05 R130 to R141), tickets, trimming (R124) and reissue
(R138, R139), once for every instruction that addresses memory element by element. -/

namespace Sys2Proof.Machine

open Sys2Proof

/-- The way the elements of an instruction travel: by translation of each, by translation of each page of unit, strided and whole-register access with the bytes
that its interlock entry covers (R121, R172), or to the package of a peer register with its DIES (R312, R314), for a fabric stream with what its packets carry (R350). -/
inductive Route where
  | translate
  | pages (first : Word) (bytes : Nat)
  | peer (pkg dies : Nat) (tag : Option StreamTag)
  deriving DecidableEq, Repr

/-- The DIES of a route (R312, R313). -/
def Route.dies : Route → Nat
  | .peer _ d _ => d
  | _ => 0

/-- What the packets of a route carry for a fabric stream. -/
def Route.tag (r : Route) : Option StreamTag :=
  match r with
  | .peer _ _ t => t
  | _ => none

/-- Elements on this route may meet local bytes: a remote access overlaps a local one only where the peer is the hart's own package (R148, R319). -/
def Route.here (r : Route) (pkg : BitVec 7) : Bool :=
  match r with
  | .peer k _ _ => k == pkg.toNat
  | _ => true

/-- The bytes from the first of `n` blocks of `bytes` bytes a signed stride apart to the last: where they start and how many they are (R172). -/
def spanOf (base stride : Word) (n bytes : Nat) : Word × Nat :=
  let d := stride.toInt.natAbs * (n - 1)
  (if stride.toInt < 0 then base - BitVec.ofNat 64 d else base, d + bytes)

/-- The lines that the interlock entry of an instruction covers (R172). -/
def Route.lines (r : Route) (es : List RElem) : List (Nat × Nat) :=
  match r with
  | .pages a n => linesOf [(a, n)]
  | _ => linesOf (es.map (fun e => (e.addr, e.n)))

/-- The number of an element: its stores into an output stream and the writes of a copy have numbers of their own above 2^32. -/
def elemNo (e : RElem) : Nat := e.idx % 2 ^ 32

/-- An element with the place it goes to, or the fault known before anything performs. -/
inductive Placed where
  | loc (e : RElem) (l : Nat) (strict : Bool)
  | answered (e : RElem) (data : Nat) (strict : Bool)
  | fault (e : RElem) (f : ElemFault)
  | need (e : RElem) (pkg : Nat) (remote : RElem)
  deriving DecidableEq, Repr

/-- The element itself. -/
def Placed.elem : Placed → RElem
  | .loc e _ _ => e
  | .answered e _ _ => e
  | .fault e _ => e
  | .need e _ _ => e

/-- An outcome as a placed element. -/
def placedOf (e : RElem) (pkg : Nat) (remote : RElem) : ElemRes → Placed
  | .done d st => .answered e d st
  | .fault f => .fault e f
  | .need _ _ => .need e pkg remote

/-- The elements of the route are translated once for each page (R121). -/
def Route.wide : Route → Bool
  | .pages _ _ => true
  | _ => false

/-- One element placed; nothing performs (R121, R312). One that has been answered is not translated again. -/
def State.place1 (s : State) (own : Nat) (r : Route) (e : RElem) : State × Placed :=
  match tabGet (s.getHart own).answers e.idx with
  | some a => (s, placedOf e 0 e (answerRes a))
  | none =>
    match r with
    | .peer pkg _ _ => (s, placedOf e pkg e (s.remoteNew (s.getHart own) pkg e))
    | _ =>
      match s.placeVa own r.wide (ropAcc e.op) e.addr with
      | (s1, .fault k) => (s1, .fault e (.mf k))
      | (s1, .loc l st) => (s1, .loc e l st)
      | (s1, .host l st) =>
        let (s2, no) := s1.hostRefused own l
        (s2, if no then .fault e (.mf 3) else .loc e l st)
      | (s1, .peer pkg a _) => (s1, placedOf e pkg { e with addr := a } (s1.remoteNew (s1.getHart own) pkg { e with addr := a }))

/-- Every element of an instruction placed, in ascending order. -/
def State.placeAll (s : State) (own : Nat) (r : Route) : List RElem → State × List Placed
  | [] => (s, [])
  | e :: es =>
    let (s1, p) := s.place1 own r e
    let (s2, ps) := s1.placeAll own r es
    (s2, p :: ps)

/-- How the performing of elements ends: every element that can has completed, or an uncorrectable error stops it at one (R140). -/
inductive RunEnd where
  | done
  | ecc (e : RElem) (l : Option Nat)
  deriving DecidableEq, Repr

/-- Performing placed elements in ascending order (R132, R134, R140). `before`: no lower element has faulted. An element with an uncorrectable error above a
faulted one is not performed, not marked in m7 and not recorded: the rules say nothing of it, and this is the model's DESIGN CHOICE (log 39). The data of the loads are
collected with their element numbers. -/
def State.performPlaced (s : State) (own : Nat) : Bool → List Placed → State × List (Nat × Nat) × RunEnd
  | _, [] => (s, [], .done)
  | before, p :: ps =>
    match p with
    | .answered e d _ =>
      let (s1, ds, r) := s.performPlaced own before ps
      (s1, (e.idx, d) :: ds, r)
    | .need _ _ _ => s.performPlaced own before ps
    | .fault e .ecc => if before then (s, [], .ecc e none) else s.performPlaced own before ps
    | .fault _ _ => s.performPlaced own false ps
    | .loc e l _ =>
      match s.performElem own false l e with
      | (s1, .done d _) =>
        let (s2, ds, r) := s1.performPlaced own before ps
        (s2, (e.idx, d) :: ds, r)
      | (s1, _) => if before then (s1, [], .ecc e (some l)) else s1.performPlaced own before ps

/-- The faulted elements (R134): MF and RF ones. -/
def faultsOf : List Placed → List (FaultElem × Bool)
  | [] => []
  | .fault e (.mf k) :: ps => (⟨elemNo e, e.addr, k, e.op != .load⟩, false) :: faultsOf ps
  | .fault e .rf :: ps => (⟨elemNo e, e.addr, 2, e.op != .load⟩, true) :: faultsOf ps
  | _ :: ps => faultsOf ps

/-- The requests that elements need. -/
def needsOf : List Placed → List (Nat × RElem)
  | [] => []
  | .need _ pkg r :: ps => (pkg, r) :: needsOf ps
  | _ :: ps => needsOf ps

/-- The remote address and package of an element: as it was asked for, by the route, or by the PEER leaf. -/
def State.remoteOf (s : State) (own : Nat) (r : Route) (e : RElem) : Option (Nat × Word) :=
  match tabGet (s.getHart own).asked e.idx, r with
  | some x, _ => some x
  | none, .peer pkg _ _ => some (pkg, e.addr)
  | none, _ =>
    match (s.placeVa own r.wide (ropAcc e.op) e.addr).2 with
    | .peer pkg a _ => some (pkg, a)
    | _ => none

/-- Entering the tickets of the elements that were answered with one (R326). -/
def State.enterTickets (s : State) (own : Nat) (es : List RElem) : State :=
  es.foldl (fun s e =>
    let h := s.getHart own
    match tabGet h.answers e.idx, tabGet h.asked e.idx with
    | some (.ticket t), some (pkg, a) => s.enterTicket own h.ctxid h.told pkg a t
    | _, _ => s) s

/-- Freeing the entries that an RF trap names (R331). -/
def State.freeFailed (s : State) (own : Nat) (r : Route) (es : List RElem) : State :=
  let h := s.getHart own
  let names : List (Nat × Word) := es.filterMap (fun e => s.remoteOf own r e)
  let c := s.getCore (coreOf own)
  let keep := c.tickets.filter (fun t => !((t.state == .fail || t.state == .failr) && names.any (fun n => t.names h n.1 n.2)))
  if keep = c.tickets then s else s.setCore (coreOf own) { c with tickets := keep }

/-- A mask register with bits 0 to n - 1 replaced by those of a number (R134). -/
def setLow (m : MBits) (n bits : Nat) : MBits :=
  BitVec.ofNat 32768 (m.toNat / 2 ^ n * 2 ^ n + bits % 2 ^ n)

/-- The number whose set bits are the elements given. -/
def bitsOf (is : List Nat) : Nat := is.foldl (fun b i => b ||| 2 ^ i) 0

/-- TVAL of the INT trap of the pending request (Table 5-8): 0 for pre-emption, else the source. -/
def Hart.intTval (h : Hart) : Word := if h.preempt then 0 else BitVec.ofNat 64 (h.irqs.headD 0)

/-- The request of the INT trap is taken: a software interrupt leaves the pending list (12 R285). -/
def Hart.tookInt (h : Hart) : Hart := if h.preempt then { h with preempt := false } else { h with irqs := h.irqs.drop 1 }

/-- The INT trap (R132, R142). -/
def State.intTrap (s : State) : Eff := .trap (s.upd (·.tookInt)) ⟨0x0B, s.hart.intTval⟩

/-- What the elements of an instruction come to. -/
inductive Elems where
  /-- Every active element has performed; the data of the loads. -/
  | all (s : State) (data : List (Nat × Nat))
  /-- The instruction stops with the data of the elements that performed: the state still has to take them before the trap. -/
  | stop (s : State) (data : List (Nat × Nat)) (vstart : Nat) (t : Trap)
  /-- A pending request stops it at a commit boundary (R132). -/
  | int (s : State) (data : List (Nat × Nat)) (vstart : Nat)
  /-- It trims VL to g, with the elements below performed (R124). -/
  | trim (s : State) (data : List (Nat × Nat)) (g : Nat)
  /-- It waits for answers of other packages. -/
  | hold (s : State)

/-- The writes that the instruction has made perform (R128, R132, R134, R185, R230). -/
def State.drainEntry (s : State) : State := s.drainWhere s.hart.id (fun p => s.hart.opened && p.lock.num == s.hart.lock.num)

/-- Partial completion (R134, R331): the elements that complete have performed; then the tickets, m7, the fault record, and the trap. -/
def State.partialStop (s : State) (r : Route) (h : Hdr) (n vst0 : Nat) (es : List RElem) (fs : List (FaultElem × Bool)) : State × Nat × Trap :=
  let own := s.hart.id
  let s1 := s.drainEntry.enterTickets own es
  let faults := fs.map (·.1)
  let first := (faults.head?.map (·.idx)).getD 0
  let s2 := s1.upd (fun x => x.pm 7 (setLow (x.gm 7) n (bitsOf (faults.map (·.idx)))))
  let s3 := s2.appendRecord own s2.hart.ctxid
    { epc := s2.hart.pc, word := h.word, vlen := n, vst0 := vst0, first := first, nflt := (faults.map (·.idx)).eraseDups.length, reiss := s2.hart.reissue,
      tkt := fs.any (fun f => f.1.kind == 2 && !f.2) } faults
  match fs.find? (·.2) with
  | some f => (s3.freeFailed own r (es.filter (fun e => faults.any (fun x => x.idx == elemNo e))), first, ⟨0x08, f.1.addr⟩)
  | none => (s3, first, ⟨0x04, (faults.head?.map (·.addr)).getD 0⟩)

/-- The record of an uncorrectable error found here; the owner of a remote element writes its own (R315). -/
def State.eccAt (s : State) (own : Nat) : Option Nat → State
  | none => s
  | some l => s.eccFound own l

/-- Where a fault-only-first form trims VL (R124): at the lowest fault `g` above the first active element, or earlier at any active element
above the first, which the rule leaves free (log 9); not at all where the first active element faults. -/
def trimPoint (free : Nat) (is : List Nat) (f0 : Nat) (g : Option Nat) (n : Nat) : Option Nat :=
  if g = some f0 then none
  else
    let early := is.filter (fun i => decide (f0 < i) && decide (i < g.getD n))
    if early.isEmpty then g
    else
      let k := Config.pick free % (early.length + 1)
      if k = 0 then g else early[k - 1]?

/-- Where a pending request stops a long instruction (R132, R141): at the lowest active element at or above the commit boundary, unless an element
below it faults or every active element is below. -/
def stopPoint (at_ : Option Nat) (is fs : List Nat) : Option Nat :=
  match at_ with
  | none => none
  | some k =>
    match is.find? (fun i => decide (k ≤ i)) with
    | none => none
    | some i => if fs.any (fun f => decide (f < i)) then none else some i

/-- A store or atomic element that has been answered has performed; a request stops the instruction above it (R320). -/
def committedBelow : List Placed → Nat
  | [] => 0
  | .answered e _ _ :: ps => max (if e.op = .load then 0 else elemNo e + 1) (committedBelow ps)
  | _ :: ps => committedBelow ps

/-- The number under which the place of a store is asked for before any of it is sent (R182, 11 R271). -/
def probeIdx (e : RElem) : Nat := e.idx + 2 ^ 62

/-- The answers leave no room for a stop at boundary k (R320): one is a ticket, a refusal or a failure, or a load above it has returned data from a STRICT page. -/
def unstoppable (answers : List (Nat × RAns)) (k : Nat) (ps : List Placed) : Bool :=
  ps.any (fun p => match p with
    | .answered e _ st => st && e.op == .load && decide (k < elemNo e)
    | .fault e _ => (tabGet answers e.idx).isSome || (tabGet answers (probeIdx e)).isSome
    | _ => false)

/-- Where a pending request stops an instruction of elements `is` that fault at `fs` (R132, R141, R320). -/
def Hart.stopIn (h : Hart) (is fs : List Nat) (ps : List Placed) : Option Nat :=
  match h.stopAt with
  | none => none
  | some k =>
    let k1 := max k (committedBelow ps)
    if unstoppable h.answers k1 ps then none else stopPoint (some k1) is fs

/-- Where a pending request stops an instruction with these elements. -/
def Hart.stopOf (h : Hart) (es : List RElem) (ps : List Placed) : Option Nat := h.stopIn (es.map elemNo) ((faultsOf ps).map (·.1.idx)) ps

/-- The requests that may still go out where an element has been answered with an uncorrectable error and no lower one has faulted: those of lower elements (R140, R320). -/
def needsBelowError (ps : List Placed) : List (Nat × RElem) :=
  needsOf (match ps.find? (fun p => match p with
      | .fault _ _ => true
      | _ => false) with
    | some (.fault e .ecc) => ps.filter (fun p => decide (elemNo p.elem < elemNo e))
    | _ => ps)

/-- A request of elements goes out, and on a reissue not before the element at VSTART has performed (R139, R320): alone where it is remote itself, and where it
is local it performs now and counts as answered. -/
def State.askFor (s : State) (r : Route) (vst0 : Nat) (ps : List Placed) (wanted : List (Nat × RElem)) : Elems :=
  let own := s.hart.id
  let mine := if s.hart.reissue then ps.filter (fun p => elemNo p.elem == vst0) else []
  if needsOf mine ≠ [] then .hold (s.sendTagged own r.dies r.tag (needsOf mine))
  else if faultsOf mine ≠ [] then .hold (s.sendTagged own r.dies r.tag wanted)
  else
    match s.performPlaced own true mine with
    | (s1, _, .ecc e l) => .stop (s1.drainEntry.eccAt own l) [] (elemNo e) ⟨0x0C, e.addr⟩
    | (s1, ds, .done) =>
      let done := mine.filterMap (fun p => match p with
        | .loc e _ st => some (e.idx, RAns.done ((tabGet ds e.idx).getD 0) st)
        | _ => none)
      .hold ((s1.upd (fun h => { h with answers := h.answers ++ done })).sendTagged own r.dies r.tag wanted)

/-- Running placed elements, `ps` in ascending order (R130 to R141). `es` are their elements; `n` is the count that stands in VL's place
(R122); `long` whether a request may stop them; `trims` whether the instruction is a fault-only-first form. -/
def State.runPlaced (s1 : State) (h : Hdr) (r : Route) (long trims : Bool) (n : Nat) (es : List RElem) (ps : List Placed) : Elems :=
  let own := s1.hart.id
  let vst0 := s1.hart.vstart.toNat
  let needs := needsBelowError ps
  let fs := faultsOf ps
  let stop := if long then s1.hart.stopOf es ps else none
  let wanted := match stop with
    | some k => needs.filter (fun e => decide (elemNo e.2 < k))
    | none => needs
  if wanted ≠ [] then s1.askFor r vst0 ps wanted
  else
    match stop with
    | some k =>
      match s1.performPlaced own true (ps.filter (fun p => decide (elemNo p.elem < k))) with
      | (s2, ds, .done) => .int s2.drainEntry ds k
      | (s2, ds, .ecc e l) => .stop (s2.drainEntry.eccAt own l) ds (elemNo e) ⟨0x0C, e.addr⟩
    | none =>
      let f0 := (es.head?.map elemNo).getD 0
      match (if trims then trimPoint s1.free (es.map elemNo) f0 (fs.head?.map (fun f => f.1.idx)) n else none) with
      | some g' =>
        match (s1.took).performPlaced own true (ps.filter (fun p => decide (elemNo p.elem < g'))) with
        | (s2, ds, .done) => .trim s2 ds g'
        | (s2, ds, .ecc e l) => .stop (s2.eccAt own l) ds (elemNo e) ⟨0x0C, e.addr⟩
      | none =>
        match s1.performPlaced own true ps with
        | (s2, ds, .ecc e l) => .stop (s2.drainEntry.eccAt own l) ds (elemNo e) ⟨0x0C, e.addr⟩
        | (s2, ds, .done) =>
          if fs = [] then .all s2 ds
          else
            let (s3, first, t) := s2.partialStop r h n vst0 es fs
            .stop s3 ds first t

/-- The hart cannot go on with its instruction before an engine of it has finished (R149). -/
def State.stalled (s : State) (why : Stall) : State := s.upd (fun h => { h with stall := why })

/-- Running the active elements of an instruction that addresses memory, `es` ascending: its interlock entry is made (R172), and they are placed, then run; they wait while an
unfinished copy of the hart stands in the way of one of them. -/
def State.runElems (s : State) (h : Hdr) (r : Route) (long trims : Bool) (n : Nat) (es : List RElem) : Elems :=
  if r.here s.pkg && s.copyBlocks s.hart.id es then .hold (s.stalled .held)
  else
    let (s1, ps) := (s.openLock s.hart.id (r.lines es)).placeAll s.hart.id r es
    s1.runPlaced h r long trims n es ps

/-- A piece of a store for another package after the answer to the request for its place: it faults, or is to be stored there. -/
def Hart.probed (h : Hart) (p : Placed) : Placed :=
  match p with
  | .need e pkg r =>
    match tabGet h.answers (probeIdx e) with
    | some (.done l _) => .need e pkg { r with op := .put l (match r.op with
        | .nibble hi => some hi
        | _ => none) }
    | some a => placedOf e pkg r (answerRes a)
    | none => p
  | p => p

/-- The requests for the places of the pieces of an element that goes to other packages in more than one piece: none of them is sent before every one can be written, since an
element that faults writes nothing (R182, R185, 11 R271, R280). -/
def probesOf (ps : List Placed) : List (Nat × RElem) :=
  ps.filterMap (fun p => match p with
    | .need e pkg r =>
      if (r.op == .store || r.op == .nibble false || r.op == .nibble true) && decide (1 < (ps.filter (fun q => elemNo q.elem == elemNo e)).length) then
        some (pkg, { r with idx := probeIdx e, op := .probe, data := 0 }) else none
    | _ => none)

/-- The elements with the requests for their places. -/
def withProbes (es : List RElem) : List RElem := es ++ es.map (fun e => { e with idx := probeIdx e })

/-- A request of elements goes out after those for the places of its pieces (R182); on a reissue the element at VSTART comes first in both (R139, R320). -/
def State.askRows (s : State) (r : Route) (vst0 : Nat) (ps : List Placed) (wanted : List (Nat × RElem)) : Elems :=
  let want := probesOf (ps.filter (fun p => wanted.any (fun w => w.2.idx == p.elem.idx)))
  let mine := want.filter (fun w => elemNo w.2 == vst0)
  let first := s.hart.reissue && needsOf (ps.filter (fun p => elemNo p.elem == vst0)) != []
  let now := if first then mine else want
  if now ≠ [] then .hold (s.sendTagged s.hart.id r.dies r.tag now) else s.askFor r vst0 ps wanted

/-- An instruction that waits keeps what it has read at issue: numbers and data. -/
def Eff.keeps (e : Eff) (ds : List (Nat × Nat)) : Eff :=
  match e with
  | .hold s =>
    if s.hart.wait = .none then .hold s
    else .hold (s.upd (fun h => { h with answers := h.answers ++ (ds.filter (fun d => (tabGet h.answers d.1).isNone)).map (fun d => (d.1, .done d.2 false)) }))
  | e => e

/-- What the elements come to with the state changed where the instruction ends. -/
def Elems.mapState (e : Elems) (f : State → State) : Elems :=
  match e with
  | .all s ds => .all (f s) ds
  | .trim s ds g => .trim (f s) ds g
  | .stop s ds k t => .stop (f s) ds k t
  | .int s ds k => .int (f s) ds k
  | .hold s => .hold s

/-- The end of an instruction from its elements; `take` writes the data of the elements that performed into the state. -/
def Elems.finish (e : Elems) (take : State → List (Nat × Nat) → State) : Eff :=
  match e with
  | .all s ds => .next (take s ds)
  | .trim s ds g => .next ((take s ds).upd (fun h => { h with vl := g }))
  | .stop s ds k t => .trap ((take s ds).upd (fun h => { h with vstart := BitVec.ofNat 16 k })) t
  | .int s ds k => ((take s ds).upd (fun h => { h with vstart := BitVec.ofNat 16 k })).intTrap
  | .hold s => .hold s

/-- AL on the addresses of the active elements (R120): the lowest misaligned one. -/
def alignedAll (es : List RElem) : Except Trap Unit :=
  match es.find? (fun e => e.addr.toNat % e.n != 0) with
  | some e => .error ⟨0x05, e.addr⟩
  | none => .ok ()

/-! ### Records and save areas read at issue (R354 step 8, R147, R214, R234) -/

/-- The machine-check record of an uncorrectable error that an access of the hart found on its own package. -/
def State.eccElem (s : State) (own : Nat) (e : RElem) : State :=
  match (s.placeVa own false (ropAcc e.op) e.addr).2 with
  | .loc l _ => s.eccFound own l
  | .host l _ => s.eccFound own l
  | _ => s

/-- What reading or writing a record comes to. -/
inductive RecRes where
  | ok (s : State) (data : Nat)
  | trap (s : State) (t : Trap)
  | hold (s : State)

/-- One access of an instruction to a record, by the precise regime with no fault record: it completes, waits, or traps with `report` as TVAL. -/
def State.recordAccess (s : State) (own : Nat) (e : RElem) (report : Word) : RecRes :=
  if s.copyBlocks own [e] then .hold (s.stalled .held)
  else
    match s.elem own false e with
    | (s1, .done d _) => .ok s1 d
    | (s1, .need pkg x) => .hold (s1.sendPackets own 0 [(pkg, x)])
    | (s1, .fault (.mf _)) => .trap (s1.enterTickets own [e]) ⟨0x04, report⟩
    | (s1, .fault .rf) => .trap (s1.freeFailed own .translate [e]) ⟨0x08, report⟩
    | (s1, .fault .ecc) => .trap (s1.eccElem own e) ⟨0x0C, report⟩

/-- Reading the record of `n` bytes at an address; `idx` tells its reads apart from others of the instruction. -/
def State.readRecord (s : State) (idx : Nat) (va : Word) (n : Nat) : RecRes :=
  s.recordAccess s.hart.id ⟨2 ^ 60 + idx, va, n, .load, 0, 0⟩ va

/-- A field of `n` bytes at offset `off` of a record. -/
def field (r off n : Nat) : Nat := r / 2 ^ (8 * off) % 2 ^ (8 * n)

end Sys2Proof.Machine
end

