-- ==== Sys2Proof/Machine/CopyEngine.lean ====
section
/-! DEFINITION. What a cluster does on its own: its gang barriers and the elements of its copy engine (08 R200 to R209). -/

namespace Sys2Proof.Machine

open Sys2Proof

/-! ### Gang barriers (R200, R201) -/

/-- A barrier register of a cluster. -/
def State.getBar (s : State) (cluster b : Nat) : Bar := (s.getCluster cluster).bars.getD b Bar.init

/-- A barrier register set. -/
def State.setBar (s : State) (cluster b : Nat) (x : Bar) : State :=
  let c := s.getCluster cluster
  s.setCluster cluster { c with bars := c.bars.setIfInBounds b x }

/-- Every hart that waits at a barrier is released (R201, R204). -/
def State.releaseBar (s : State) (cluster b : Nat) (fault : Bool) : State :=
  s.mapHarts (fun h =>
    match h.wait with
    | .bar _ => if clusterOf h.id = cluster && h.bar = b then { h with wait := .none, resume := .barrier fault } else h
    | _ => h)

/-- `try_complete()` (R201). -/
def State.tryComplete (s : State) (cluster b : Nat) : State :=
  let x := s.getBar cluster b
  if x.count = x.n && x.pend == 0 && !x.fault then
    (s.setBar cluster b { x with phase := !x.phase, count := 0, arr := 0 }).releaseBar cluster b false
  else s

/-- A bound copy faulted (R204). -/
def State.faultBar (s : State) (cluster b : Nat) : State :=
  (s.setBar cluster b { s.getBar cluster b with fault := true }).releaseBar cluster b true

/-- Bytes of a bound copy have performed at cluster scope (R208). -/
def State.delivered (s : State) (cluster b n : Nat) : State :=
  let x := s.getBar cluster b
  (s.setBar cluster b { x with pend := x.pend - BitVec.ofNat 64 n }).tryComplete cluster b

/-! ### The elements of `vcopy.b` (R208, R209) -/

/-- Virtual ranges of `n` bytes overlap. -/
def rangesOverlap (a b : Word) (n : Nat) : Bool := decide (a.toNat < b.toNat + n) && decide (b.toNat < a.toNat + n)

/-- Who accesses for a copy (R208). -/
def Copy.agent (c : Copy) : Agent := ⟨c.hart, c.ctx, c.user, none⟩

/-- The read of element i. -/
def Copy.read (c : Copy) (i : Nat) : RElem := ⟨i, c.src + BitVec.ofNat 64 (i * c.n), c.n, .load, 0, 0⟩

/-- The write of element i; its number is told apart from the read's. -/
def Copy.write (c : Copy) (i d : Nat) : RElem := ⟨i + 2 ^ 32, c.dst + BitVec.ofNat 64 (i * c.n), c.n, .store, d, 0⟩

/-- The hart of a copy as its tickets and packets see it: in the context of the `vcopy.b`. -/
def State.copyHart (s : State) (c : Copy) : Hart := { s.getHart c.hart with ctxid := c.ctx, answers := c.answer, asked := c.asked }

/-- A remote element of a copy (R209, R326, R331). -/
def State.copyRemote (s : State) (c : Copy) (pkg : Nat) (e : RElem) : ElemRes := s.remoteNew (s.copyHart c) pkg e

/-- One access of a copy: one that has been answered, else translated now, performed at once where it is local, the hart's earlier vector writes to the bytes and those of an
earlier strip first (Table 6-5 note 2). -/
def State.copyAccess (s : State) (c : Copy) (e : RElem) : State × ElemRes × Option Nat :=
  let go := fun (s : State) (l : Nat) =>
    match s.performElem c.hart false l e with
    | (s1, .done d st) => if e.op = .store then (s1.drainWhere c.hart (fun p => p.hits l e.n), .done d st, some l) else (s1, .done d st, some l)
    | (s1, r) => (s1, r, some l)
  match tabGet c.answer e.idx with
  | some a => (s, answerRes a, none)
  | none =>
    match s.translateVia false c.agent (ropAcc e.op) e.addr with
    | (s1, .fault k) => (s1, .fault (.mf k), none)
    | (s1, .loc l _) => go s1 l
    | (s1, .host l _) => if Config.hostRefuses s1.free l then (s1.took, .fault (.mf 3), none) else go s1.took l
    | (s1, .peer pkg a _) => (s1, s1.copyRemote c pkg { e with addr := a }, none)

/-- The head of the copies of a cluster set, or removed. -/
def State.setHead (s : State) (cluster : Nat) (c : Option Copy) : State :=
  let x := s.getCluster cluster
  s.setCluster cluster { x with copies := c.toList ++ x.copies.drop 1 }

/-- The engine asks another package for an element of a copy. -/
def State.copySend (s : State) (cluster : Nat) (c : Copy) (pkg : Nat) (e : RElem) : State :=
  ({ s with sent := s.sent ++ [(⟨s.seq, s.pkg.toNat, pkg, ownerDie 0 e.addr, c.hart, c.ctx, c.user, [e], none⟩ : Packet)], seq := s.seq + 1 }).setHead cluster
    (some { c with wait := some s.seq, asked := c.asked ++ [(e.idx, pkg, e.addr)] })

/-- The ticket that an element of a copy was answered with enters the core's table (R209). -/
def State.copyTicket (s : State) (c : Copy) (e : RElem) : State :=
  match tabGet c.answer e.idx, tabGet c.asked e.idx with
  | some (.ticket t), some (pkg, a) => s.enterTicket c.hart c.ctx c.told pkg a t
  | _, _ => s

/-- A copy stops at element i (R209): the tickets, the fault record, FAULT; an uncorrectable error writes a machine-check record of KIND 3, for no instruction,
in place of the fault record (R140, R308). -/
def State.copyStop (s : State) (cluster : Nat) (c : Copy) (i : Nat) (fs : List (RElem × ElemFault)) (l : Option Nat) : State :=
  let s1 := fs.foldl (fun s f => s.copyTicket c f.1) s
  let ecc := fs.any (fun f => f.2 == .ecc)
  let s2 :=
    if ecc then
      match l with
      | some l => (s1.took).machineCheck 3 (unitOfLoc l) 0xFFFFFFFF 0xFFFF (addrOfLoc l) (Config.value s1.free).toNat |>.markJob (s1.getHart c.hart).jobid
      | none => s1
    else s1.appendRecord c.hart c.ctx
      { epc := c.pc, word := c.word, vlen := c.vl, vst0 := c.vstart, first := i, nflt := c.left.length, reiss := c.reiss,
        tkt := fs.any (fun f => f.2 == .mf 2) }
      (fs.map (fun f => (⟨i, f.1.addr, match f.2 with | .mf k => k | _ => 2, f.1.op != .load⟩ : FaultElem)))
  (s2.setHead cluster none).faultBar cluster c.bar

/-- The destination of an element can be written: its translation, without performing. -/
def State.copyDest (s : State) (c : Copy) (e : RElem) : State × Option ElemFault :=
  match tabGet c.answer e.idx with
  | some a =>
    match answerRes a with
    | .fault f => (s, some f)
    | _ => (s, none)
  | none =>
    match s.translateVia false c.agent .write e.addr with
    | (s1, .fault k) => (s1, some (.mf k))
    | (s1, .peer pkg a _) =>
      match s1.copyRemote c pkg { e with addr := a } with
      | .fault f => (s1, some f)
      | _ => (s1, none)
    | (s1, _) => (s1, none)

/-- Element i delivered or found to fault, its source value known or its source faulted. -/
def State.copyDeliver (s : State) (cluster : Nat) (c : Copy) (i : Nat) (src : Option ElemFault) (d : Nat) (l : Option Nat) : State :=
  let w := c.write i d
  match src with
  | some f =>
    match f, s.copyDest c w with
    | .ecc, _ => s.copyStop cluster c i [(c.read i, .ecc)] l
    | f, (s1, some g) => s1.copyStop cluster c i [(c.read i, f), (w, g)] none
    | f, (s1, none) => s1.copyStop cluster c i [(c.read i, f)] none
  | none =>
    match s.copyAccess c w with
    | (s1, .done _ _, _) =>
      let c1 := { c with left := c.left.drop 1, wait := none, answer := [], asked := [], told := [] }
      (s1.setHead cluster (if c1.left.isEmpty then none else some c1)).delivered cluster c.bar c.n
    | (s1, .fault f, _) => s1.copyStop cluster c i [(w, f)] none
    | (s1, .need pkg e, _) => s1.copySend cluster c pkg e

/-- The hart of a place that stands in for a `vcopy` or `vcopy.ff` is still at that instruction (R205). -/
def State.standsIn (s : State) (c : Copy) : Bool :=
  let h := s.getHart c.hart
  h.run && h.pc == c.pc && h.ctxid == c.ctx

/-- One move of a cluster's copy engine on its oldest copy (R205, R206, R208): the source read of an overlapping copy's element before the copy
begins, or the next element. -/
def State.copyStep (s : State) (cluster : Nat) : State :=
  match (s.getCluster cluster).copies with
  | [] => s
  | c :: _ =>
    if c.sync then (if s.standsIn c then s else s.setHead cluster none)
    else if c.wait.isSome then s
    else
      match c.toSave with
      | i :: rest =>
        match s.copyAccess c (c.read i) with
        | (s1, .done d _, _) => s1.setHead cluster (some { c with toSave := rest, saved := c.saved ++ [(i, d)], answer := [], asked := [], told := [] })
        | (s1, .fault _, _) => s1.setHead cluster (some { c with toSave := rest, answer := [], asked := [], told := [] })
        | (s1, .need pkg e, _) => s1.copySend cluster c pkg e
      | [] =>
        match c.left with
        | [] => s.setHead cluster none
        | i :: _ =>
          match tabGet c.saved i with
          | some d => s.copyDeliver cluster c i none d none
          | none =>
            match s.copyAccess c (c.read i) with
            | (s1, .done d _, _) => s1.copyDeliver cluster c i none d none
            | (s1, .fault f, l) => s1.copyDeliver cluster c i (some f) 0 l
            | (s1, .need pkg e, _) => s1.copySend cluster c pkg e

end Sys2Proof.Machine
end

