-- ==== Sys2Proof/Machine/ScalarMem.lean ====
section
/-! DEFINITION. Scalar memory access: loads, stores, the constant path, atomics, and scalar access at a peer (03 R74 to R80, 09 R237,
13 R312 to R315). -/

namespace Sys2Proof.Machine

open Sys2Proof

/-- The register value of a load of `n` bytes (R74). -/
def extend (signed : Bool) (n d : Nat) : Word := if signed then BitVec.ofInt 64 (bitsInt true (8 * n) (d % 2 ^ (8 * n))) else BitVec.ofNat 64 (d % 2 ^ (8 * n))

/-- The effective address (R74). -/
def Hart.ea (h : Hart) (a : Reg5) (o : BitVec 13) : Word := h.gs a + o.signExtend 64

/-- One scalar element by translation or at a peer (R76, R314). -/
def State.scalarElem (s : State) (r : Route) (e : RElem) : State × ElemRes :=
  match r with
  | .translate => s.elem s.hart.id true e
  | .peer pkg _ _ => (s, s.remoteElem s.hart.id pkg e)
  | .pages _ _ => s.elem s.hart.id true e

/-- The record of an uncorrectable error that a scalar access found on its own package (R140, R315). -/
def State.scalarEcc (s : State) (r : Route) (e : RElem) : State :=
  match r, tabGet s.hart.answers e.idx with
  | .translate, none =>
    match s.hart.places.head?.map (·.place) with
    | some (Place.loc l _) => s.eccFound s.hart.id l
    | _ => s
  | _, _ => s

/-- The fates of a scalar access that its element decides (R76, R315, R326, R331): it completes with `post`, waits for an answer, or traps; a
ticket enters the table before MF, and RF frees the entry it names. -/
def State.scalarAccess (s : State) (r : Route) (e : RElem) (post : State → Nat → State) : Eff :=
  match s.scalarElem r e with
  | (s1, .done d _) => .next (post s1 d)
  | (s1, .need pkg x) => .hold (s1.sendPackets s1.hart.id r.dies [(pkg, x)])
  | (s1, .fault (.mf _)) => .trap (s1.enterTickets s1.hart.id [e]) ⟨0x04, e.addr⟩
  | (s1, .fault .rf) => .trap (s1.freeFailed s1.hart.id r [e]) ⟨0x08, e.addr⟩
  | (s1, .fault .ecc) => .trap (s1.scalarEcc r e) ⟨0x0C, e.addr⟩

/-- AL of a scalar access (R76). -/
def scalarAligned (ea : Word) (n : Nat) : Except Trap Unit := require (ea.toNat % n == 0) ⟨0x05, ea⟩

/-- `ld` (R74). -/
def loadOp (w : IWord) (d a : Reg5) (o : BitVec 13) (n : Nat) (signed : Bool) (s : State) : Host.Outcome State Fault Refusal :=
  runInstr { word := w, reads := [a] } s (fun s =>
    match scalarAligned (s.hart.ea a o) n with
    | .error t => .error t
    | .ok _ => .ok (s.scalarAccess .translate ⟨0, s.hart.ea a o, n, .load, 0, 0⟩ (fun s x => s.ps d (extend signed n x))))

/-- `st` (R74); it waits while an unfinished copy of the hart covers its bytes (R172). -/
def storeOp (w : IWord) (v a : Reg5) (o : BitVec 13) (n : Nat) (s : State) : Host.Outcome State Fault Refusal :=
  runInstr { word := w, reads := [v, a] } s (fun s =>
    match scalarAligned (s.hart.ea a o) n with
    | .error t => .error t
    | .ok _ =>
      if s.hart.cur.isEmpty && s.copyHits s.hart.id (s.hart.ea a o) n then .ok (.hold (s.stalled .held))
      else .ok (s.scalarAccess .translate ⟨0, s.hart.ea a o, n, .store, (s.gs v).toNat % 2 ^ (8 * n), 0⟩ (fun s _ => s)))

/-- The line of the constant cache set (R237). -/
def State.fillConst (s : State) (line : Nat) (bs : List Byte) : State :=
  let c := s.getCore (coreOf s.hart.id)
  s.setCore (coreOf s.hart.id) { c with consts := tabPut c.consts line bs }

/-- The bytes of a line as a fill finds them (R237). -/
def State.lineNow (s : State) (line : Nat) : State × List Byte :=
  let s1 := s.settleOther s.hart.id (64 * line) 64
  let s2 := s1.settleOthers s1.hart.id (64 * line) 64
  (s2, memRead 64 (64 * line) s2.mem)

/-- `ldc` at a location of the package (R77, R237): the bytes that the location held at one time since the job's start or the hart's last `fence.c`, where
they have changed; the line is filled with what it held then. -/
def State.constRead (s : State) (l n : Nat) : State × List Byte :=
  let line := l / 64
  let (s1, now) := s.lineNow line
  let since := s1.hart.constAt
  let cut := fun (bs : List Byte) => (bs.drop (l % 64)).take n
  if s1.past.any (fun w => decide (since ≤ w.1) && decide (w.2.1 < l + n) && decide (l < w.2.1 + w.2.2.length)) then
    let bs := s1.heldAt (since + Config.pick s1.free % (s1.writes - since + 1)) (64 * line) 64
    (s1.took.fillConst line bs, cut bs)
  else (s1.fillConst line now, cut now)

/-- `ldc` (R77): a load through the constant cache; its fates are those of R76. -/
def constOp (w : IWord) (d a : Reg5) (o : BitVec 13) (n : Nat) (signed : Bool) (s : State) : Host.Outcome State Fault Refusal :=
  runInstr { word := w, reads := [a] } s (fun s =>
    let e : RElem := ⟨0, s.hart.ea a o, n, .load, 0, 0⟩
    let post := fun (s : State) (x : Nat) => s.ps d (extend signed n x)
    match scalarAligned e.addr n with
    | .error t => .error t
    | .ok _ =>
      let go := fun (s1 : State) (l : Nat) =>
        match s1.readError s1.hart.id true l n with
        | (s2, true) => Eff.trap (s2.eccFound s2.hart.id l) ⟨0x0C, e.addr⟩
        | (s2, false) =>
          let (s3, bs) := s2.constRead l n
          Eff.next (post s3 (leNat bs))
      if s.hart.cur ≠ [] then .ok (s.scalarAccess .translate e post) else
      match s.placeElem s.hart.id e with
      | (s1, .loc l _) => .ok (go s1 l)
      | (s1, .host l _) => .ok (go s1 l)
      | _ => .ok (s.scalarAccess .translate e post))

/-- `amo` (R78 to R80): `rel` marks rel and acqrel, which wait for and perform every earlier access of the hart. -/
def amoOp (w : IWord) (code : Nat) (d a b : Reg5) (wd : BitVec 2) (o : BitVec 2) (s : State) : Host.Outcome State Fault Refusal :=
  runInstr { word := w, reads := [d, a, b] } s (fun s =>
    let n := if wd = 2 then 4 else 8
    let ea := s.gs a
    let rel := o.getLsbD 1
    match scalarAligned ea n with
    | .error t => .error t
    | .ok _ =>
      let fresh := s.hart.cur.isEmpty
      if fresh && rel && 0 < s.outstanding s.hart then .error ⟨0x07, BitVec.ofNat 64 (s.outstanding s.hart)⟩
      else if fresh && ((rel && s.engineBusy s.hart.id) || s.copyHits s.hart.id ea n) then .ok (.hold (s.stalled .waiting))
      else
        let s1 := if rel then s.drainAll s.hart.id else s
        .ok (s1.scalarAccess .translate ⟨0, ea, n, .amo code, (s.gs b).toNat % 2 ^ (8 * n), (s.gs d).toNat % 2 ^ (8 * n)⟩
          (fun s x => s.ps d (extend true n x))))

/-- The route through peer register k, or none where it is not valid (R309, R315). -/
def Hart.peerRoute (h : Hart) (k : BitVec 4) : Option Route :=
  let p := h.peers.getD k.toNat 0
  if p.getLsbD 63 then some (.peer (p.toNat % 128) (p.toNat / 256 % 16) none) else none

/-- A scalar access at a peer (R314, R315); one to the hart's own package waits for a copy of the hart's that covers its bytes (Table 5-10). -/
def peerOp (w : IWord) (reads : List Reg5) (a : Reg5) (k : BitVec 4) (n : Nat) (e : Hart → Word → RElem) (post : State → Nat → State)
    (s : State) : Host.Outcome State Fault Refusal :=
  runInstr { word := w, reads := a :: reads } s (fun s =>
    let ea := s.gs a
    match scalarAligned ea n with
    | .error t => .error t
    | .ok _ =>
      match s.hart.peerRoute k with
      | none => .error ⟨0x04, ea⟩
      | some r => .ok (s.scalarAccess r (e s.hart ea) post))

/-- Bytes of an access width code (R74). -/
def accessBytes (z : BitVec 3) : Nat := 2 ^ (z.toNat % 4)

/-- `ld.b` (R74). -/
def execLdB (d a : Reg5) (o : BitVec 13) (s : State) : Host.Outcome State Fault Refusal :=
  loadOp (wLdB d a o) d a o 1 true s

/-- `ld.h` (R74). -/
def execLdH (d a : Reg5) (o : BitVec 13) (s : State) : Host.Outcome State Fault Refusal :=
  loadOp (wLdH d a o) d a o 2 true s

/-- `ld.w` (R74). -/
def execLdW (d a : Reg5) (o : BitVec 13) (s : State) : Host.Outcome State Fault Refusal :=
  loadOp (wLdW d a o) d a o 4 true s

/-- `ld.d` (R74). -/
def execLdD (d a : Reg5) (o : BitVec 13) (s : State) : Host.Outcome State Fault Refusal :=
  loadOp (wLdD d a o) d a o 8 false s

/-- `ld.bu` (R74). -/
def execLdBu (d a : Reg5) (o : BitVec 13) (s : State) : Host.Outcome State Fault Refusal :=
  loadOp (wLdBu d a o) d a o 1 false s

/-- `ld.hu` (R74). -/
def execLdHu (d a : Reg5) (o : BitVec 13) (s : State) : Host.Outcome State Fault Refusal :=
  loadOp (wLdHu d a o) d a o 2 false s

/-- `ld.wu` (R74). -/
def execLdWu (d a : Reg5) (o : BitVec 13) (s : State) : Host.Outcome State Fault Refusal :=
  loadOp (wLdWu d a o) d a o 4 false s

/-- `st.b` (R74). -/
def execStB (v a : Reg5) (o : BitVec 13) (s : State) : Host.Outcome State Fault Refusal :=
  storeOp (wStB v a o) v a o 1 s

/-- `st.h` (R74). -/
def execStH (v a : Reg5) (o : BitVec 13) (s : State) : Host.Outcome State Fault Refusal :=
  storeOp (wStH v a o) v a o 2 s

/-- `st.w` (R74). -/
def execStW (v a : Reg5) (o : BitVec 13) (s : State) : Host.Outcome State Fault Refusal :=
  storeOp (wStW v a o) v a o 4 s

/-- `st.d` (R74). -/
def execStD (v a : Reg5) (o : BitVec 13) (s : State) : Host.Outcome State Fault Refusal :=
  storeOp (wStD v a o) v a o 8 s

/-- `ldc.b` (R77). -/
def execLdcB (d a : Reg5) (o : BitVec 13) (s : State) : Host.Outcome State Fault Refusal :=
  constOp (wLdcB d a o) d a o 1 true s

/-- `ldc.h` (R77). -/
def execLdcH (d a : Reg5) (o : BitVec 13) (s : State) : Host.Outcome State Fault Refusal :=
  constOp (wLdcH d a o) d a o 2 true s

/-- `ldc.w` (R77). -/
def execLdcW (d a : Reg5) (o : BitVec 13) (s : State) : Host.Outcome State Fault Refusal :=
  constOp (wLdcW d a o) d a o 4 true s

/-- `ldc.d` (R77). -/
def execLdcD (d a : Reg5) (o : BitVec 13) (s : State) : Host.Outcome State Fault Refusal :=
  constOp (wLdcD d a o) d a o 8 false s

/-- `ldc.bu` (R77). -/
def execLdcBu (d a : Reg5) (o : BitVec 13) (s : State) : Host.Outcome State Fault Refusal :=
  constOp (wLdcBu d a o) d a o 1 false s

/-- `ldc.hu` (R77). -/
def execLdcHu (d a : Reg5) (o : BitVec 13) (s : State) : Host.Outcome State Fault Refusal :=
  constOp (wLdcHu d a o) d a o 2 false s

/-- `ldc.wu` (R77). -/
def execLdcWu (d a : Reg5) (o : BitVec 13) (s : State) : Host.Outcome State Fault Refusal :=
  constOp (wLdcWu d a o) d a o 4 false s

/-- `amo.swp` (R78). -/
def execAmoSwp (d a b : Reg5) (w : BitVec 2) (sc : BitVec 3) (o : BitVec 2) (s : State) : Host.Outcome State Fault Refusal :=
  amoOp (wAmoSwp d a b w sc o) 0 d a b w o s

/-- `amo.add` (R78). -/
def execAmoAdd (d a b : Reg5) (w : BitVec 2) (sc : BitVec 3) (o : BitVec 2) (s : State) : Host.Outcome State Fault Refusal :=
  amoOp (wAmoAdd d a b w sc o) 1 d a b w o s

/-- `amo.and` (R78). -/
def execAmoAnd (d a b : Reg5) (w : BitVec 2) (sc : BitVec 3) (o : BitVec 2) (s : State) : Host.Outcome State Fault Refusal :=
  amoOp (wAmoAnd d a b w sc o) 2 d a b w o s

/-- `amo.or` (R78). -/
def execAmoOr (d a b : Reg5) (w : BitVec 2) (sc : BitVec 3) (o : BitVec 2) (s : State) : Host.Outcome State Fault Refusal :=
  amoOp (wAmoOr d a b w sc o) 3 d a b w o s

/-- `amo.xor` (R78). -/
def execAmoXor (d a b : Reg5) (w : BitVec 2) (sc : BitVec 3) (o : BitVec 2) (s : State) : Host.Outcome State Fault Refusal :=
  amoOp (wAmoXor d a b w sc o) 4 d a b w o s

/-- `amo.min` (R78). -/
def execAmoMin (d a b : Reg5) (w : BitVec 2) (sc : BitVec 3) (o : BitVec 2) (s : State) : Host.Outcome State Fault Refusal :=
  amoOp (wAmoMin d a b w sc o) 5 d a b w o s

/-- `amo.max` (R78). -/
def execAmoMax (d a b : Reg5) (w : BitVec 2) (sc : BitVec 3) (o : BitVec 2) (s : State) : Host.Outcome State Fault Refusal :=
  amoOp (wAmoMax d a b w sc o) 6 d a b w o s

/-- `amo.minu` (R78). -/
def execAmoMinu (d a b : Reg5) (w : BitVec 2) (sc : BitVec 3) (o : BitVec 2) (s : State) : Host.Outcome State Fault Refusal :=
  amoOp (wAmoMinu d a b w sc o) 7 d a b w o s

/-- `amo.maxu` (R78). -/
def execAmoMaxu (d a b : Reg5) (w : BitVec 2) (sc : BitVec 3) (o : BitVec 2) (s : State) : Host.Outcome State Fault Refusal :=
  amoOp (wAmoMaxu d a b w sc o) 8 d a b w o s

/-- `amo.cas` (R78). -/
def execAmoCas (d a b : Reg5) (w : BitVec 2) (sc : BitVec 3) (o : BitVec 2) (s : State) : Host.Outcome State Fault Refusal :=
  amoOp (wAmoCas d a b w sc o) 9 d a b w o s

/-- `pld` (R314). -/
def execPld (d a : Reg5) (k : BitVec 4) (z : BitVec 3) (s : State) : Host.Outcome State Fault Refusal :=
  peerOp (wPld d a k z) [] a k (accessBytes z) (fun _ ea => ⟨0, ea, accessBytes z, .load, 0, 0⟩)
    (fun s x => s.ps d (extend (z.toNat < 3) (accessBytes z) x)) s

/-- `pst` (R314). -/
def execPst (v a : Reg5) (k : BitVec 4) (z : BitVec 3) (s : State) : Host.Outcome State Fault Refusal :=
  peerOp (wPst v a k z) [v] a k (accessBytes z)
    (fun h ea => ⟨0, ea, accessBytes z, .store, (h.gs v).toNat % 2 ^ (8 * accessBytes z), 0⟩) (fun s _ => s) s

/-- `pamo` (R314). -/
def pamoOp (w : IWord) (code : Nat) (d a b : Reg5) (k : BitVec 4) (z : BitVec 3) (s : State) : Host.Outcome State Fault Refusal :=
  peerOp w [d, b] a k (accessBytes z)
    (fun h ea => ⟨0, ea, accessBytes z, .amo code, (h.gs b).toNat % 2 ^ (8 * accessBytes z), (h.gs d).toNat % 2 ^ (8 * accessBytes z)⟩)
    (fun s x => s.ps d (extend true (accessBytes z) x)) s

/-- `pamo.swp` (R314). -/
def execPamoSwp (d a b : Reg5) (k : BitVec 4) (z : BitVec 3) (s : State) : Host.Outcome State Fault Refusal :=
  pamoOp (wPamoSwp d a b k z) 0 d a b k z s

/-- `pamo.add` (R314). -/
def execPamoAdd (d a b : Reg5) (k : BitVec 4) (z : BitVec 3) (s : State) : Host.Outcome State Fault Refusal :=
  pamoOp (wPamoAdd d a b k z) 1 d a b k z s

/-- `pamo.and` (R314). -/
def execPamoAnd (d a b : Reg5) (k : BitVec 4) (z : BitVec 3) (s : State) : Host.Outcome State Fault Refusal :=
  pamoOp (wPamoAnd d a b k z) 2 d a b k z s

/-- `pamo.or` (R314). -/
def execPamoOr (d a b : Reg5) (k : BitVec 4) (z : BitVec 3) (s : State) : Host.Outcome State Fault Refusal :=
  pamoOp (wPamoOr d a b k z) 3 d a b k z s

/-- `pamo.xor` (R314). -/
def execPamoXor (d a b : Reg5) (k : BitVec 4) (z : BitVec 3) (s : State) : Host.Outcome State Fault Refusal :=
  pamoOp (wPamoXor d a b k z) 4 d a b k z s

/-- `pamo.min` (R314). -/
def execPamoMin (d a b : Reg5) (k : BitVec 4) (z : BitVec 3) (s : State) : Host.Outcome State Fault Refusal :=
  pamoOp (wPamoMin d a b k z) 5 d a b k z s

/-- `pamo.max` (R314). -/
def execPamoMax (d a b : Reg5) (k : BitVec 4) (z : BitVec 3) (s : State) : Host.Outcome State Fault Refusal :=
  pamoOp (wPamoMax d a b k z) 6 d a b k z s

/-- `pamo.minu` (R314). -/
def execPamoMinu (d a b : Reg5) (k : BitVec 4) (z : BitVec 3) (s : State) : Host.Outcome State Fault Refusal :=
  pamoOp (wPamoMinu d a b k z) 7 d a b k z s

/-- `pamo.maxu` (R314). -/
def execPamoMaxu (d a b : Reg5) (k : BitVec 4) (z : BitVec 3) (s : State) : Host.Outcome State Fault Refusal :=
  pamoOp (wPamoMaxu d a b k z) 8 d a b k z s

/-- `pamo.cas` (R314). -/
def execPamoCas (d a b : Reg5) (k : BitVec 4) (z : BitVec 3) (s : State) : Host.Outcome State Fault Refusal :=
  pamoOp (wPamoCas d a b k z) 9 d a b k z s

end Sys2Proof.Machine
end

