-- ==== Sys2Proof/Machine/Operands.lean ====
section
/-! DEFINITION. Vector operands: VTYPE, register groups, masks, stream operands, and the driver of the element-wise instructions
(01 R10, R14, R20, 02 R39 to R51, 04 R96 to R98, 08 R211 to R215). -/

namespace Sys2Proof.Machine

open Sys2Proof

/-! ### VTYPE (Table 1-7) -/

/-- SEW in bits. -/
def Hart.sew (h : Hart) : Nat := 4 * 2 ^ (h.vtype.toNat % 8)
/-- LMUL. -/
def Hart.lmul (h : Hart) : Nat := 2 ^ (h.vtype.toNat / 8 % 4)
/-- FMT. -/
def Hart.fmt (h : Hart) : Nat := h.vtype.toNat / 32 % 8
/-- SC. -/
def Hart.scaled (h : Hart) : Bool := h.vtype.getLsbD 8
/-- SCOPE. -/
def Hart.vscope (h : Hart) : Nat := h.vtype.toNat / 512 % 8
/-- REPRO. -/
def Hart.repro (h : Hart) : Bool := h.vtype.getLsbD 15

/-- VLMAX for a vtype and a grant (R39). -/
def vlmaxOf (vtype : BitVec 16) (g : Nat) : Nat := 16384 / (4 * 2 ^ (vtype.toNat % 8)) * 2 ^ (vtype.toNat / 8 % 4) * g / 32

/-- VLMAX of the current strip. -/
def Hart.vlmax (h : Hart) : Nat := vlmaxOf h.vtype h.lanes

/-- Signed elements where signedness follows FMT (R96). -/
def Hart.signed (h : Hart) : Bool := h.fmt != 1

/-- The float format of FMT and SEW (Table 1-7, R21), if it is one. -/
def Hart.ffmt (h : Hart) : Option FName :=
  match h.fmt with
  | 2 => if h.sew = 32 then some .f32 else some .f16
  | 3 => some .bf16
  | 4 => some .e4m3
  | 5 => some .e5m2
  | 6 => some .e2m1
  | _ => none

/-- The float format, f32 where FMT is none (used only after the format check). -/
def Hart.ff (h : Hart) : FName := h.ffmt.getD .f32

/-! ### Elements of register groups (R44) -/

/-- Elements of width w in one register. -/
def Hart.perReg (h : Hart) (w : Nat) : Nat := 512 * h.lanes / w

/-- Element i of width w of the group that starts at a register. -/
def Hart.elem (h : Hart) (r w i : Nat) : Nat :=
  let e := h.perReg w
  (h.v.getD (r + i / e) 0).toNat / 2 ^ (w * (i % e)) % 2 ^ w

/-- A number with the w bits at bit position p replaced. -/
def putBits (x p w y : Nat) : Nat := x / 2 ^ (p + w) * 2 ^ (p + w) + y % 2 ^ w * 2 ^ p + x % 2 ^ p

/-- Element i of width w of a group set. -/
def Hart.putElem (h : Hart) (r w i y : Nat) : Hart :=
  let e := h.perReg w
  let k := r + i / e
  { h with v := h.v.setIfInBounds k (BitVec.ofNat 16384 (putBits (h.v.getD k 0).toNat (w * (i % e)) w y)) }

/-- Elements of a group set, in the order of the list; a codeword of which every bit is written is repaired (R307). -/
def Hart.putElems (h : Hart) (r w : Nat) (xs : List (Nat × Nat)) : Hart :=
  let h1 := xs.foldl (fun h p => h.putElem r w p.1 p.2) h
  { h1 with bad := h.bad.filter (fun c => !(decide (512 * r ≤ c) && decide (c < 512 * 32) &&
      (List.range (64 / w)).all (fun k => xs.any (fun p => p.1 == (c / 512 - r) * h.perReg w + c % 512 * (64 / w) + k)))) }

/-- The first codeword with an uncorrectable error among elements `lo` to `n` - 1 of a group of `regs` registers from r. -/
def Hart.badGroup (h : Hart) (r regs w lo n : Nat) : Option Nat :=
  let e := h.perReg w
  h.bad.find? (fun c => decide (512 * r ≤ c) && decide (c < 512 * (r + regs)) && decide (c % 512 * 64 < e * w) &&
    decide ((c / 512 - r) * e + c % 512 * 64 / w < n) && decide (lo ≤ (c / 512 - r) * e + (c % 512 * 64 + 63) / w))

/-! ### Masks (R14, R42, R46) -/

/-- Bit i of mask register m, or true for no mask. -/
def Hart.maskBit (h : Hart) (m : Reg3) (i : Nat) : Bool := m = 0 || (h.gm m.toNat).getLsbD i

/-- The active elements below n, ascending: `active(i)` (Table 1-1). -/
def Hart.active (h : Hart) (m : Reg3) (n : Nat) : List Nat :=
  (List.range n).filter (fun i => decide (h.vstart.toNat ≤ i) && h.maskBit m i)

/-- The active elements of an instruction of the partial-completion class: on a reissue those of m7 too (R138). -/
def Hart.activeMem (h : Hart) (m : Reg3) (n : Nat) : List Nat :=
  (h.active m n).filter (fun i => !h.reissue || (h.gm 7).getLsbD i)

/-- A mask register with some bits set or cleared. -/
def putMask (m : MBits) (bs : List (Nat × Bool)) : MBits :=
  let clr := bitsOf (bs.map (·.1))
  let set := bitsOf ((bs.filter (·.2)).map (·.1))
  (m &&& ~~~(BitVec.ofNat 32768 clr)) ||| BitVec.ofNat 32768 set

/-- Bits of a mask register set or cleared; a codeword of which every bit is written is repaired (R307). -/
def Hart.pmBits (h : Hart) (k : Nat) (bs : List (Nat × Bool)) : Hart :=
  { h.pm k (putMask (h.gm k) bs) with
    bad := h.bad.filter (fun c => !(c / 512 == 32 + k && (List.range 64).all (fun j => bs.any (fun b => b.1 == c % 512 * 64 + j)))) }

/-- The exception bits of the active elements under x (R14), and FCSR (R57). -/
def Hart.except (h : Hart) (x : Reg3) (es : List (Nat × Exc)) : Hart :=
  let h1 := h.raise (es.foldl (fun e p => e.or p.2) {})
  if x = 0 then h1 else h1.pmBits x.toNat (es.map (fun p => (p.1, p.2.mask)))

/-! ### Vector operands -/

/-- A vector operand: its first register, its registers and its element width. -/
structure VOpd where
  reg  : Reg5
  regs : Nat
  w    : Nat
  deriving DecidableEq, Repr

/-- A group that does not start at a multiple of its size (R10), or has more than 8 registers. -/
def VOpd.misaligned (o : VOpd) : Bool := o.reg.toNat % o.regs != 0 || decide (8 < o.regs)

/-- Two groups share a register. -/
def VOpd.overlaps (a b : VOpd) : Bool :=
  decide (a.reg.toNat < b.reg.toNat + b.regs) && decide (b.reg.toNat < a.reg.toNat + a.regs)

/-- Two groups share a register and are not identical (R10). -/
def VOpd.partialOverlap (a b : VOpd) : Bool := a.overlaps b && !(a.reg == b.reg && a.regs == b.regs)

/-- An operand of LMUL registers at SEW. -/
def Hart.opd (h : Hart) (r : Reg5) : VOpd := ⟨r, h.lmul, h.sew⟩

/-- An operand of width w: max(1, LMUL * w / SEW) registers (R110, R119). -/
def Hart.opdW (h : Hart) (r : Reg5) (w : Nat) : VOpd := ⟨r, max 1 (h.lmul * w / h.sew), w⟩

/-- The stream bound to a register, if it is v24 to v31 and bound (R211). -/
def Hart.stream (h : Hart) (r : Reg5) : Option Stream := if 24 ≤ r.toNat then h.streams.getD (r.toNat - 24) none else none

/-- A source or destination that the stream rules forbid with ILL 0x03 (R214). -/
def Hart.streamBad (h : Hart) (o : VOpd) (isDst masked : Bool) : Bool :=
  match h.stream o.reg with
  | none => false
  | some st => st.out != isDst || st.sew.toNat != h.vtype.toNat % 8 || (isDst && masked)

/-- A group with a bound register other than its first (R214). -/
def Hart.streamInside (h : Hart) (o : VOpd) : Bool :=
  (List.range o.regs).any (fun k => k != 0 && (h.stream (BitVec.ofNat 5 (o.reg.toNat + k))).isSome)

/-- The checks of step 4 of R354 common to vector instructions: ILL 0x03 of the entry and of the streams, then 0x07 of alignment, of the
entry's overlaps and of the streams. -/
def stepFour (hdr : Hdr) (h : Hart) (bad03 bad07 : Bool) (masked : Bool) (srcs dsts : List VOpd) : Except Trap Unit :=
  if bad03 || srcs.any (h.streamBad · false false) || dsts.any (h.streamBad · true masked) then .error (hdr.ill 0x03)
  else if bad07 || srcs.any VOpd.misaligned || dsts.any VOpd.misaligned || srcs.any h.streamInside || dsts.any h.streamInside then
    .error (hdr.illBody 0x07)
  else .ok ()

/-- A partial overlap of a destination with a source (R10). -/
def partialOverlaps (srcs dsts : List VOpd) : Bool := dsts.any (fun d => srcs.any (fun s => d.partialOverlap s))

/-- Any overlap of a destination with a source. -/
def anyOverlap (srcs dsts : List VOpd) : Bool := dsts.any (fun d => srcs.any (fun s => d.overlaps s))

/-! ### Streams as operands (R211 to R214, R235, R350, R351) -/

/-- What fetching stream elements comes to. -/
inductive Fetched where
  | ok (s : State) (vals : List Nat)
  | trap (s : State) (t : Trap)
  | hold (s : State)

/-- A single read by the hart's engine, of an element whose number is its own for its answer. -/
def State.engineRead (s : State) (own : Nat) (e : RElem) : State × ElemRes := s.elem own false e

/-- The address of stream element e (R211), with the address that a fault reports (R235): none for an unmapped token. -/
inductive StreamAddr where
  | at (s : State) (va report : Word)
  | unmapped (s : State) (report : Word)
  | fault (s : State) (e : RElem) (f : ElemFault) (report : Word)
  | need (s : State) (pkg : Nat) (e : RElem)

/-- The element number of the k-th engine read of a stream. -/
def streamIdx (q e : Nat) : Nat := 2 ^ 20 + q * 2 ^ 50 + e

/-- The address of stream element e (R211, R232, R235). -/
def State.streamAddr (s : State) (own q : Nat) (st : Stream) (e : Nat) : StreamAddr :=
  let n := st.sew.toNat |> fun c => 4 * 2 ^ c / 8
  match st.mode.toNat with
  | 0 => let a := st.base + BitVec.ofNat 64 (e * n); .at s a a
  | 1 => let a := st.base + BitVec.ofInt 64 (st.stride.toInt * e); .at s a a
  | _ =>
    let row := st.stride.toNat
    let (tok, col) := if row = 0 then ((Config.value e).toNat, (Config.value (e + 1)).toNat) else (e / row, e % row)
    let t := (st.pos.toNat + tok) % 2 ^ 64
    let b := t / 32
    let entry := st.table + BitVec.ofNat 64 (8 * b)
    if st.nblk ≤ b then .unmapped s entry
    else
      let x : RElem := ⟨streamIdx q e + 2 ^ 49, entry, 8, .load, 0, 0⟩
      match s.engineRead own x with
      | (s1, .done d _) =>
        if d / 64 = 0 then .unmapped s1 entry
        else
          let a := BitVec.ofNat 64 (d / 64 * 64 + t % 32 * st.rstride.toNat + col * n)
          .at s1 a a
      | (s1, .fault f) => .fault s1 x f entry
      | (s1, .need p x) => .need s1 p x

/-- The trap of a consumer that reaches a faulted element (R214). -/
def streamTrap (f : ElemFault) (va : Word) : Trap :=
  match f with
  | .mf _ => ⟨0x04, va⟩
  | .rf => ⟨0x08, va⟩
  | .ecc => ⟨0x0C, va⟩

/-- The read of the flag of element e of an input fabric stream (R350). -/
def flagRead (q : Nat) (st : Stream) (e : Nat) : RElem :=
  ⟨streamIdx q e + 2 ^ 48, st.flaga + BitVec.ofNat 64 (8 * (e * (4 * 2 ^ st.sew.toNat / 8) / 65536)), 8, .load, 0, 0⟩

/-- Whether element e of an input stream is available: of a fabric stream, its chunk's flag reads SEQ (R350). -/
def State.chunkReady (s : State) (own q : Nat) (st : Stream) (e : Nat) : State × ElemRes :=
  if st.fabric = false then (s, .done st.seq.toNat false) else s.engineRead own (flagRead q st e)

/-- The read of element e of a stream at its address. -/
def streamRead (q : Nat) (st : Stream) (e : Nat) (va : Word) : RElem := ⟨streamIdx q e, va, 4 * 2 ^ st.sew.toNat / 8, .load, 0, 0⟩

/-- A stream set for the hart of a number. -/
def State.putStream (s : State) (id q : Nat) (st : Stream) : State :=
  let h := s.getHart id
  s.setHart { h with streams := h.streams.setIfInBounds q (some st) }

/-- What a fault of a stream's read leaves beside the trap (R307, R326, R331): its ticket enters, a failed entry is freed, a machine-check record is written. -/
def State.fetchStop (s : State) (own : Nat) (e : RElem) (f : ElemFault) : State :=
  match f with
  | .mf _ => s.enterTickets own [e]
  | .rf => s.freeFailed own .translate [e]
  | .ecc => s.eccElem own e

/-- A consumer takes the trap of the element of stream q after those of values `got`, which have been fetched and stay so, at most 8 KiB of them (R212, R214); the fault stands
until the element has been fetched again. -/
def State.fetchTrap (s : State) (own q : Nat) (st : Stream) (got : List Nat) (t : Trap) : State × Trap :=
  let kept := got.take (8192 / (4 * 2 ^ st.sew.toNat / 8))
  (s.putStream own q { st with fetched := kept, flt := if kept.length = got.length then some ⟨t.cause, t.tval, true⟩ else none }, t)

/-- The chunk of element e of an input fabric stream was full before an abort and its flag is still to be written (R352). -/
def State.chunkFull (s : State) (ctx : BitVec 16) (q : Nat) (st : Stream) (e : Nat) : Bool :=
  s.chunks.any (fun c => c.ctx == ctx && c.flag == (flagRead q st e).addr && c.seq == st.seq && decide (c.want ≤ c.got))

/-- The group of a stream with GV = 1 has been aborted or is invalid (R352). -/
def Hart.streamAborted (h : Hart) (st : Stream) : Option Nat :=
  match st.group with
  | none => none
  | some g => if (h.groups.getD g.toNat Group.init).ab || !(h.groups.getD g.toNat Group.init).v then some g.toNat else none

/-- Fetching the elements from `e`, `k` of them, for a consumer (R213, R214, R350, R352). -/
def State.fetchFrom (s : State) (own q : Nat) (st : Stream) : Nat → Nat → List Nat → Fetched
  | 0, _, acc => .ok s acc
  | k + 1, e, acc =>
    if st.count ≤ e then s.fetchFrom own q st k (e + 1) (acc ++ [0])
    else
      let stop := fun (s : State) (x : RElem) (f : ElemFault) (report : Word) =>
        let r := (s.fetchStop own x f).fetchTrap own q st acc (streamTrap f report)
        Fetched.trap r.1 r.2
      match s.chunkReady own q st e with
      | (s1, .fault f) => stop s1 (flagRead q st e) f (st.base + BitVec.ofNat 64 (e * (4 * 2 ^ st.sew.toNat / 8)))
      | (s1, .need p x) => .hold (s1.sendPackets own 0 [(p, x)])
      | (s1, .done d _) =>
        if d ≠ st.seq.toNat then
          match s1.hart.streamAborted st with
          | some g => if s1.chunkFull s1.hart.ctxid q st e then .hold s1 else .trap s1 ⟨0x0D, BitVec.ofNat 64 g⟩
          | none => .hold s1
        else
          match s1.streamAddr own q st e with
          | .unmapped s2 r =>
            let x := s2.fetchTrap own q st acc ⟨0x04, r⟩
            .trap x.1 x.2
          | .fault s2 x f r => stop s2 x f r
          | .need s2 p x => .hold (s2.sendPackets own 0 [(p, x)])
          | .at s2 va r =>
            match s2.engineRead own (streamRead q st e va) with
            | (s3, .done d _) => s3.fetchFrom own q st k (e + 1) (acc ++ [d])
            | (s3, .fault f) => stop s3 (streamRead q st e va) f r
            | (s3, .need p x) => .hold (s3.sendPackets own 0 [(p, x)])

/-- A stream with the next elements fetched, at most 8 KiB of them (R212). -/
def Stream.holding (st : Stream) (xs : List Nat) : Stream :=
  { st with fetched := xs.take (min (8192 / (4 * 2 ^ st.sew.toNat / 8)) (st.count - st.done)), flt := none }

/-- The elements of one source operand for elements VSTART to n - 1, fetched where it is a stream; none where it is a register group. An element whose fetch
ahead faulted traps first; once the trap has been taken it is fetched again (R214). A group with an uncorrectable error traps ECC by precise unwind (R95, R140), unless the instruction
has begun and read it. DESIGN CHOICE (log 32): an inactive element counts as read, so every element from VSTART to n - 1 is fetched and the fault of an inactive one traps too. -/
def State.fetchSource (s : State) (o : VOpd) (n : Nat) : Fetched :=
  match s.hart.stream o.reg with
  | none =>
    match (if s.hart.cur.isEmpty then s.hart.badGroup o.reg.toNat o.regs o.w s.hart.vstart.toNat n else none) with
    | some c => .trap (s.regError c).1 (s.regError c).2
    | none => .ok s []
  | some st =>
    let q := o.reg.toNat - 24
    let want := n - s.hart.vstart.toNat
    let have_ := st.fetched.take want
    let kept := fun (r : Fetched) =>
      match r with
      | .ok s1 xs => if want ≤ st.fetched.length then .ok s1 xs else .ok (s1.putStream s.hart.id q (st.holding xs)) xs
      | r => r
    match (if have_.length < want && st.done + have_.length < st.count then st.flt else none) with
    | some f =>
      if f.taken then kept (s.fetchFrom s.hart.id q st (want - have_.length) (st.done + have_.length) have_)
      else
        let r := s.fetchTrap s.hart.id q st have_ ⟨f.cause, f.tval⟩
        .trap r.1 r.2
    | none => kept (s.fetchFrom s.hart.id q st (want - have_.length) (st.done + have_.length) have_)

/-- Every source operand fetched; the values by operand. Operands that name one stream see the same elements (R213): it is fetched for the first of them. -/
def State.fetchSources (s : State) (n : Nat) : List VOpd → List (VOpd × List Nat) → State × Except Eff (List (List Nat))
  | [], acc => (s, .ok (acc.map (·.2)))
  | o :: os, acc =>
    match (if (s.hart.stream o.reg).isSome then acc.find? (fun p => p.1.reg == o.reg) else none) with
    | some p => s.fetchSources n os (acc ++ [(o, p.2)])
    | none =>
      match s.fetchSource o n with
      | .ok s1 xs => s1.fetchSources n os (acc ++ [(o, xs)])
      | .trap s1 t => (s1, .error (.trap s1 t))
      | .hold s1 => (s1, .error (.hold s1))

/-- An instruction that reads elements of register groups beside those of its source operands from VSTART, each with its first element and their end: an uncorrectable error in them
traps ECC by precise unwind (R95, R140). -/
def State.reading (s : State) (os : List (VOpd × Nat × Nat)) (go : Eff) : Eff :=
  match (if s.hart.cur.isEmpty then os.findSome? (fun o =>
      if (s.hart.stream o.1.reg).isSome then none else s.hart.badGroup o.1.reg.toNat o.1.regs o.1.w o.2.1 o.2.2) else none) with
  | some c => .trap (s.regError c).1 (s.regError c).2
  | none => go

/-- The value of element i of the k-th source operand. An element of a stream below VSTART has no value the spec states (log 20). DESIGN CHOICE (log 32): an element of a
stream that is read wider than the stream's SEW (`va` of `vnsra` and `vnsrl`) is extended with zeros. -/
def Hart.srcVal (h : Hart) (srcs : List VOpd) (vals : List (List Nat)) (k i : Nat) : Nat :=
  match srcs[k]? with
  | none => 0
  | some o =>
    if (h.stream o.reg).isNone then h.elem o.reg.toNat o.w i
    else if i < h.vstart.toNat then (Config.value i).toNat % 2 ^ o.w
    else (vals.getD k []).getD (i - h.vstart.toNat) 0

/-- A stream after `k` of its elements have been consumed or appended. -/
def Stream.advance (st : Stream) (k : Nat) : Stream :=
  { st with done := st.done + k, fetched := st.fetched.drop k, flt := if k ≤ st.fetched.length then st.flt else none }

/-- The streams of the operands after `k` elements have been committed: each once (R213). -/
def Hart.advance (h : Hart) (os : List VOpd) (k : Nat) : Hart :=
  { h with streams := h.streams.mapFinIdx (fun q st _ => if os.any (fun o => o.reg.toNat == 24 + q) then st.map (·.advance k) else st) }

/-- The elements that an output stream appends, as stores (R213, R350); those at or beyond COUNT are discarded, and results below VSTART are no elements of the stream's.
DESIGN CHOICE (log 32): for an element from VSTART to VL - 1 that the instruction leaves undisturbed nothing is stored, and C passes it. -/
def appendElems (st : Stream) (vstart : Nat) (xs : List (Nat × Nat)) : List RElem :=
  let n := 4 * 2 ^ st.sew.toNat / 8
  (xs.filter (fun p => decide (vstart ≤ p.1) && decide (st.done + p.1 - vstart < st.count))).map (fun p =>
    let e := st.done + p.1 - vstart
    ⟨p.1 + 2 ^ 32, if st.mode.toNat = 1 then st.base + BitVec.ofInt 64 (st.stride.toInt * e) else st.base + BitVec.ofNat 64 (e * n), n, .store, p.2, 0⟩)

/-- The route of a stream's elements (R350). -/
def Hart.streamRoute (h : Hart) (st : Stream) : Route :=
  if st.fabric then
    let p := h.peers.getD st.peer.toNat 0
    .peer (p.toNat % 128) (p.toNat / 256 % 16)
      (some ⟨st.group.map (fun g => (h.groups.getD g.toNat Group.init).gid), st.base, st.count * (4 * 2 ^ st.sew.toNat / 8), st.flaga, st.seq⟩)
  else .translate

/-- The active elements of an instruction that writes an output stream, which addresses memory by its elements: on a reissue those of m7 (R138, R214). -/
def Hart.activeFor (h : Hart) (dst : VOpd) (m : Reg3) (n : Nat) : List Nat :=
  if (h.stream dst.reg).isSome then h.activeMem m n else h.active m n

/-- The lowest appended element that the port has not sent (R351, R352): the lowest that is not committed. -/
def Hart.committed (h : Hart) (n : Nat) (es : List RElem) : Nat :=
  ((es.find? (fun e => (tabGet h.asked e.idx).isNone)).map elemNo).getD n

/-- The end of an instruction whose appends stop at element k (R213): the exceptions of the elements that `ok` has performed, the streams, VSTART. A fault's bits in m7
stand over those of an exception mask m7. -/
def State.appendStop (s : State) (os : List VOpd) (k : Nat) (ok : Nat → Bool) (post : (Nat → Bool) → State → State) (faulted : Bool) : State :=
  let s1 := (post ok s).upd (·.advance os (k - s.hart.vstart.toNat))
  s1.upd (fun h => { (if faulted then h.pm 7 (s.hart.gm 7) else h) with vstart := BitVec.ofNat 16 k })

/-- Writing the result of a vector instruction: into its group, or appended to the output stream bound to it, where a fault stops the
instruction by partial completion (R213, R214) and an aborted group by GA, with what is committed standing (R352). `srcs` are its source operands; `post` writes
the exceptions of the elements that have committed. -/
def State.putResult (s : State) (hdr : Hdr) (n : Nat) (srcs : List VOpd) (dst : VOpd) (xs : List (Nat × Nat)) (post : (Nat → Bool) → State → State) : Eff :=
  let vst := s.hart.vstart.toNat
  let all := fun (_ : Nat) => true
  match s.hart.stream dst.reg with
  | none => .next (post all ((s.upd (·.putElems dst.reg.toNat dst.w xs)).upd (·.advance srcs (n - vst))))
  | some st =>
    let es := appendElems st vst xs
    let done := fun (s : State) => Eff.next (post all (s.upd (·.advance (dst :: srcs) (n - vst))))
    match s.hart.streamAborted st with
    | some g =>
      let k := s.hart.committed n es
      let s1 := s.enterTickets s.hart.id es
      if k = n then done s1 else .trap (s1.appendStop (dst :: srcs) k (fun i => decide (i < k)) post false) ⟨0x0D, BitVec.ofNat 64 g⟩
    | none =>
      match s.runElems hdr (s.hart.streamRoute st) false false n es with
      | .all s1 _ => done s1
      | .stop s1 _ k t =>
        let ecc := t.cause = 0x0C
        .trap (s1.appendStop (dst :: srcs) k (fun i => if ecc then decide (i < k) else !(s1.hart.gm 7).getLsbD i) post (!ecc)) t
      | .int s1 _ _ => .hold s1
      | .trim s1 _ _ => .hold s1
      | .hold s1 => .hold s1

/-- A vector instruction that addresses no memory of its own: the checks of step 4 of R354, its source operands, then `k` with the value of
element i of each source operand. -/
def vecRun (hdr : Hdr) (bad03 bad07 : Hart → Bool) (masked : Bool) (srcs dsts : Hart → List VOpd)
    (k : State → List VOpd → (Nat → Nat → Nat) → Eff) (s : State) : Host.Outcome State Fault Refusal :=
  runInstr hdr s (fun s =>
    let h := s.hart
    let so := srcs h
    match stepFour hdr h (bad03 h) (bad07 h) masked so (dsts h) with
    | .error t => .error t
    | .ok _ =>
      match s.fetchSources h.vl so [] with
      | (_, .error e) => .ok e
      | (s1, .ok vals) => .ok (k s1 so (s1.hart.srcVal so vals)))

/-- The results of an element-wise instruction (R96): for each active element i, `f` gives the destination element and its exceptions. The result, the exception mask and
FCSR are written together. -/
def State.mapped (s : State) (hdr : Hdr) (so : List VOpd) (src : Nat → Nat → Nat) (dst : VOpd) (m x : Reg3)
    (f : Hart → (Nat → Nat → Nat) → Nat → Nat × Exc) : Eff :=
  let h := s.hart
  let rs := (h.activeFor dst m h.vl).map (fun i => (i, f h src i))
  s.putResult hdr h.vl so dst (rs.map (fun r => (r.1, r.2.1)))
    (fun ok s => s.upd (·.except x ((rs.filter (fun r => ok r.1)).map (fun r => (r.1, r.2.2)))))

/-- An element-wise instruction (R96), from the hart before the instruction and the source operands. -/
def vecMap (hdr : Hdr) (bad03 bad07 : Hart → Bool) (srcs : Hart → List VOpd) (dst : Hart → VOpd) (m x : Reg3)
    (f : Hart → (Nat → Nat → Nat) → Nat → Nat × Exc) (s : State) : Host.Outcome State Fault Refusal :=
  vecRun hdr bad03 (fun h => bad07 h || partialOverlaps (srcs h) [dst h]) (m != 0) srcs (fun h => [dst h])
    (fun s so src => s.mapped hdr so src (dst s.hart) m x f) s

/-- An element-wise instruction that reads further groups, its accumulator or paired scale registers (R47, R95). -/
def vecMapAlso (hdr : Hdr) (bad03 bad07 : Hart → Bool) (srcs : Hart → List VOpd) (also : Hart → List (VOpd × Nat × Nat)) (dst : Hart → VOpd) (m x : Reg3)
    (f : Hart → (Nat → Nat → Nat) → Nat → Nat × Exc) (s : State) : Host.Outcome State Fault Refusal :=
  vecRun hdr bad03 (fun h => bad07 h || partialOverlaps (srcs h) [dst h]) (m != 0) srcs (fun h => [dst h])
    (fun s so src => s.reading (also s.hart) (s.mapped hdr so src (dst s.hart) m x f)) s

/-- The streams of the source operands consumed by an instruction that retires in full (R213). -/
def State.consume (s : State) (so : List VOpd) : State := s.upd (fun h => h.advance so (h.vl - h.vstart.toNat))

/-- An instruction that writes a mask register (R114, R115): for each active element i, `f` gives bit i and its exceptions. -/
def vecMask (hdr : Hdr) (bad03 : Hart → Bool) (srcs : Hart → List VOpd) (d : Reg5) (m x : Reg3)
    (f : Hart → (Nat → Nat → Nat) → Nat → Bool × Exc) (s : State) : Host.Outcome State Fault Refusal :=
  vecRun hdr bad03 (fun _ => false) (m != 0) srcs (fun _ => [])
    (fun s so src =>
      let h := s.hart
      let rs := (h.active m h.vl).map (fun i => (i, f h src i))
      .next ((s.consume so).upd (fun h =>
        (h.pmBits d.toNat (rs.map (fun r => (r.1, r.2.1)))).except x (rs.map (fun r => (r.1, r.2.2)))))) s

end Sys2Proof.Machine
end

