-- ==== Sys2Proof/Machine/VecInt.lean ====
section
/-! DEFINITION. Integer element operations and the saturating, averaging, selecting, narrowing and widening ones (04 R97, R101 to R105). -/

namespace Sys2Proof.Machine

open Sys2Proof

/-- The header of a vector instruction: its word, unit class and J bit; subject to VO (R144). -/
def vhdr (w : IWord) (u : UnitClass) (j : BitVec 1) : Hdr := { word := w, unit := some u, j := j == 1, vo := true }

/-- Operand b of an integer form (R97). -/
inductive BForm where
  | vv (b : Reg5)
  | vs (b : Reg5)
  | vi (i : BitVec 5)
  deriving DecidableEq, Repr

/-- The vector sources that operand b adds. -/
def BForm.srcs (f : BForm) (h : Hart) : List VOpd :=
  match f with
  | .vv b => [h.opd b]
  | _ => []

/-- Operand b of element i at width w; a vector b is source operand 1 (R97). -/
def BForm.val (f : BForm) (h : Hart) (src : Nat → Nat → Nat) (w i : Nat) : Nat :=
  match f with
  | .vv _ => src 1 i
  | .vs b => (h.gs b).toNat % 2 ^ w
  | .vi c => intBits w c.toInt

/-- An integer operation of width w: operands d, a and b, and whether FMT makes the elements unsigned. -/
abbrev IntFn := Nat → Bool → Nat → Nat → Nat → Nat

/-- `vadd` (Table 4-3). -/
def iAdd : IntFn := fun w _ _ a b => (a + b) % 2 ^ w
/-- `vsub`. -/
def iSub : IntFn := fun w _ _ a b => intBits w ((a : Int) - b)
/-- `vmul`. -/
def iMul : IntFn := fun w _ _ a b => a * b % 2 ^ w
/-- `vmulh`. -/
def iMulh : IntFn := fun w u _ a b => intBits w (bitsInt (!u) w a * bitsInt (!u) w b / 2 ^ w)
/-- `vmacc`. -/
def iMacc : IntFn := fun w _ d a b => (d + a * b) % 2 ^ w
/-- `vnmsac`. -/
def iNmsac : IntFn := fun w _ d a b => intBits w ((d : Int) - a * b)
/-- `vmin`. -/
def iMin : IntFn := fun w _ _ a b => if bitsInt true w b < bitsInt true w a then b else a
/-- `vmax`. -/
def iMax : IntFn := fun w _ _ a b => if bitsInt true w a < bitsInt true w b then b else a
/-- `vminu`. -/
def iMinu : IntFn := fun _ _ _ a b => min a b
/-- `vmaxu`. -/
def iMaxu : IntFn := fun _ _ _ a b => max a b
/-- `vand`. -/
def iAnd : IntFn := fun _ _ _ a b => a &&& b
/-- `vor`. -/
def iOr : IntFn := fun _ _ _ a b => a ||| b
/-- `vxor`. -/
def iXor : IntFn := fun _ _ _ a b => a ^^^ b
/-- `vsll`; the count is b modulo the width (R97). -/
def iSll : IntFn := fun w _ _ a b => a * 2 ^ (b % w) % 2 ^ w
/-- `vsrl`. -/
def iSrl : IntFn := fun w _ _ a b => a / 2 ^ (b % w)
/-- `vsra`. -/
def iSra : IntFn := fun w _ _ a b => intBits w (bitsInt true w a / 2 ^ (b % w))

/-- A VINT instruction (R101); `acc` marks the forms that read the destination. It raises nothing, so x clears the active bits. -/
def vintOp (hdr : Hdr) (acc : Bool) (f : IntFn) (d a : Reg5) (b : BForm) (m x : Reg3) (s : State) : Host.Outcome State Fault Refusal :=
  vecMap hdr (fun _ => false) (fun _ => false) (fun h => [h.opd a] ++ b.srcs h ++ if acc then [h.opd d] else []) (fun h => h.opd d) m x
    (fun h src i => (f h.sew (h.fmt == 1) (h.elem d.toNat h.sew i) (src 0 i) (b.val h src h.sew i), {})) s

/-- `vadd.vv` (R101). -/
def execVaddVv (d a b : Reg5) (m x : Reg3) (j : BitVec 1) (s : State) : Host.Outcome State Fault Refusal :=
  vintOp (vhdr (wVaddVv d a b m x j) .valu j) false iAdd d a (.vv b) m x s

/-- `vadd.vs` (R101). -/
def execVaddVs (d a b : Reg5) (m x : Reg3) (j : BitVec 1) (s : State) : Host.Outcome State Fault Refusal :=
  vintOp (vhdr (wVaddVs d a b m x j) .valu j) false iAdd d a (.vs b) m x s

/-- `vadd.vi` (R101). -/
def execVaddVi (d a : Reg5) (i : BitVec 5) (m x : Reg3) (j : BitVec 1) (s : State) : Host.Outcome State Fault Refusal :=
  vintOp (vhdr (wVaddVi d a i m x j) .valu j) false iAdd d a (.vi i) m x s

/-- `vsub.vv` (R101). -/
def execVsubVv (d a b : Reg5) (m x : Reg3) (j : BitVec 1) (s : State) : Host.Outcome State Fault Refusal :=
  vintOp (vhdr (wVsubVv d a b m x j) .valu j) false iSub d a (.vv b) m x s

/-- `vsub.vs` (R101). -/
def execVsubVs (d a b : Reg5) (m x : Reg3) (j : BitVec 1) (s : State) : Host.Outcome State Fault Refusal :=
  vintOp (vhdr (wVsubVs d a b m x j) .valu j) false iSub d a (.vs b) m x s

/-- `vsub.vi` (R101). -/
def execVsubVi (d a : Reg5) (i : BitVec 5) (m x : Reg3) (j : BitVec 1) (s : State) : Host.Outcome State Fault Refusal :=
  vintOp (vhdr (wVsubVi d a i m x j) .valu j) false iSub d a (.vi i) m x s

/-- `vmul.vv` (R101). -/
def execVmulVv (d a b : Reg5) (m x : Reg3) (j : BitVec 1) (s : State) : Host.Outcome State Fault Refusal :=
  vintOp (vhdr (wVmulVv d a b m x j) .vmul j) false iMul d a (.vv b) m x s

/-- `vmul.vs` (R101). -/
def execVmulVs (d a b : Reg5) (m x : Reg3) (j : BitVec 1) (s : State) : Host.Outcome State Fault Refusal :=
  vintOp (vhdr (wVmulVs d a b m x j) .vmul j) false iMul d a (.vs b) m x s

/-- `vmul.vi` (R101). -/
def execVmulVi (d a : Reg5) (i : BitVec 5) (m x : Reg3) (j : BitVec 1) (s : State) : Host.Outcome State Fault Refusal :=
  vintOp (vhdr (wVmulVi d a i m x j) .vmul j) false iMul d a (.vi i) m x s

/-- `vmulh.vv` (R101). -/
def execVmulhVv (d a b : Reg5) (m x : Reg3) (j : BitVec 1) (s : State) : Host.Outcome State Fault Refusal :=
  vintOp (vhdr (wVmulhVv d a b m x j) .vmul j) false iMulh d a (.vv b) m x s

/-- `vmulh.vs` (R101). -/
def execVmulhVs (d a b : Reg5) (m x : Reg3) (j : BitVec 1) (s : State) : Host.Outcome State Fault Refusal :=
  vintOp (vhdr (wVmulhVs d a b m x j) .vmul j) false iMulh d a (.vs b) m x s

/-- `vmulh.vi` (R101). -/
def execVmulhVi (d a : Reg5) (i : BitVec 5) (m x : Reg3) (j : BitVec 1) (s : State) : Host.Outcome State Fault Refusal :=
  vintOp (vhdr (wVmulhVi d a i m x j) .vmul j) false iMulh d a (.vi i) m x s

/-- `vmacc.vv` (R101). -/
def execVmaccVv (d a b : Reg5) (m x : Reg3) (j : BitVec 1) (s : State) : Host.Outcome State Fault Refusal :=
  vintOp (vhdr (wVmaccVv d a b m x j) .vmul j) true iMacc d a (.vv b) m x s

/-- `vmacc.vs` (R101). -/
def execVmaccVs (d a b : Reg5) (m x : Reg3) (j : BitVec 1) (s : State) : Host.Outcome State Fault Refusal :=
  vintOp (vhdr (wVmaccVs d a b m x j) .vmul j) true iMacc d a (.vs b) m x s

/-- `vmacc.vi` (R101). -/
def execVmaccVi (d a : Reg5) (i : BitVec 5) (m x : Reg3) (j : BitVec 1) (s : State) : Host.Outcome State Fault Refusal :=
  vintOp (vhdr (wVmaccVi d a i m x j) .vmul j) true iMacc d a (.vi i) m x s

/-- `vnmsac.vv` (R101). -/
def execVnmsacVv (d a b : Reg5) (m x : Reg3) (j : BitVec 1) (s : State) : Host.Outcome State Fault Refusal :=
  vintOp (vhdr (wVnmsacVv d a b m x j) .vmul j) true iNmsac d a (.vv b) m x s

/-- `vnmsac.vs` (R101). -/
def execVnmsacVs (d a b : Reg5) (m x : Reg3) (j : BitVec 1) (s : State) : Host.Outcome State Fault Refusal :=
  vintOp (vhdr (wVnmsacVs d a b m x j) .vmul j) true iNmsac d a (.vs b) m x s

/-- `vnmsac.vi` (R101). -/
def execVnmsacVi (d a : Reg5) (i : BitVec 5) (m x : Reg3) (j : BitVec 1) (s : State) : Host.Outcome State Fault Refusal :=
  vintOp (vhdr (wVnmsacVi d a i m x j) .vmul j) true iNmsac d a (.vi i) m x s

/-- `vmin.vv` (R101). -/
def execVminVv (d a b : Reg5) (m x : Reg3) (j : BitVec 1) (s : State) : Host.Outcome State Fault Refusal :=
  vintOp (vhdr (wVminVv d a b m x j) .valu j) false iMin d a (.vv b) m x s

/-- `vmin.vs` (R101). -/
def execVminVs (d a b : Reg5) (m x : Reg3) (j : BitVec 1) (s : State) : Host.Outcome State Fault Refusal :=
  vintOp (vhdr (wVminVs d a b m x j) .valu j) false iMin d a (.vs b) m x s

/-- `vmin.vi` (R101). -/
def execVminVi (d a : Reg5) (i : BitVec 5) (m x : Reg3) (j : BitVec 1) (s : State) : Host.Outcome State Fault Refusal :=
  vintOp (vhdr (wVminVi d a i m x j) .valu j) false iMin d a (.vi i) m x s

/-- `vmax.vv` (R101). -/
def execVmaxVv (d a b : Reg5) (m x : Reg3) (j : BitVec 1) (s : State) : Host.Outcome State Fault Refusal :=
  vintOp (vhdr (wVmaxVv d a b m x j) .valu j) false iMax d a (.vv b) m x s

/-- `vmax.vs` (R101). -/
def execVmaxVs (d a b : Reg5) (m x : Reg3) (j : BitVec 1) (s : State) : Host.Outcome State Fault Refusal :=
  vintOp (vhdr (wVmaxVs d a b m x j) .valu j) false iMax d a (.vs b) m x s

/-- `vmax.vi` (R101). -/
def execVmaxVi (d a : Reg5) (i : BitVec 5) (m x : Reg3) (j : BitVec 1) (s : State) : Host.Outcome State Fault Refusal :=
  vintOp (vhdr (wVmaxVi d a i m x j) .valu j) false iMax d a (.vi i) m x s

/-- `vminu.vv` (R101). -/
def execVminuVv (d a b : Reg5) (m x : Reg3) (j : BitVec 1) (s : State) : Host.Outcome State Fault Refusal :=
  vintOp (vhdr (wVminuVv d a b m x j) .valu j) false iMinu d a (.vv b) m x s

/-- `vminu.vs` (R101). -/
def execVminuVs (d a b : Reg5) (m x : Reg3) (j : BitVec 1) (s : State) : Host.Outcome State Fault Refusal :=
  vintOp (vhdr (wVminuVs d a b m x j) .valu j) false iMinu d a (.vs b) m x s

/-- `vminu.vi` (R101). -/
def execVminuVi (d a : Reg5) (i : BitVec 5) (m x : Reg3) (j : BitVec 1) (s : State) : Host.Outcome State Fault Refusal :=
  vintOp (vhdr (wVminuVi d a i m x j) .valu j) false iMinu d a (.vi i) m x s

/-- `vmaxu.vv` (R101). -/
def execVmaxuVv (d a b : Reg5) (m x : Reg3) (j : BitVec 1) (s : State) : Host.Outcome State Fault Refusal :=
  vintOp (vhdr (wVmaxuVv d a b m x j) .valu j) false iMaxu d a (.vv b) m x s

/-- `vmaxu.vs` (R101). -/
def execVmaxuVs (d a b : Reg5) (m x : Reg3) (j : BitVec 1) (s : State) : Host.Outcome State Fault Refusal :=
  vintOp (vhdr (wVmaxuVs d a b m x j) .valu j) false iMaxu d a (.vs b) m x s

/-- `vmaxu.vi` (R101). -/
def execVmaxuVi (d a : Reg5) (i : BitVec 5) (m x : Reg3) (j : BitVec 1) (s : State) : Host.Outcome State Fault Refusal :=
  vintOp (vhdr (wVmaxuVi d a i m x j) .valu j) false iMaxu d a (.vi i) m x s

/-- `vand.vv` (R101). -/
def execVandVv (d a b : Reg5) (m x : Reg3) (j : BitVec 1) (s : State) : Host.Outcome State Fault Refusal :=
  vintOp (vhdr (wVandVv d a b m x j) .valu j) false iAnd d a (.vv b) m x s

/-- `vand.vs` (R101). -/
def execVandVs (d a b : Reg5) (m x : Reg3) (j : BitVec 1) (s : State) : Host.Outcome State Fault Refusal :=
  vintOp (vhdr (wVandVs d a b m x j) .valu j) false iAnd d a (.vs b) m x s

/-- `vand.vi` (R101). -/
def execVandVi (d a : Reg5) (i : BitVec 5) (m x : Reg3) (j : BitVec 1) (s : State) : Host.Outcome State Fault Refusal :=
  vintOp (vhdr (wVandVi d a i m x j) .valu j) false iAnd d a (.vi i) m x s

/-- `vor.vv` (R101). -/
def execVorVv (d a b : Reg5) (m x : Reg3) (j : BitVec 1) (s : State) : Host.Outcome State Fault Refusal :=
  vintOp (vhdr (wVorVv d a b m x j) .valu j) false iOr d a (.vv b) m x s

/-- `vor.vs` (R101). -/
def execVorVs (d a b : Reg5) (m x : Reg3) (j : BitVec 1) (s : State) : Host.Outcome State Fault Refusal :=
  vintOp (vhdr (wVorVs d a b m x j) .valu j) false iOr d a (.vs b) m x s

/-- `vor.vi` (R101). -/
def execVorVi (d a : Reg5) (i : BitVec 5) (m x : Reg3) (j : BitVec 1) (s : State) : Host.Outcome State Fault Refusal :=
  vintOp (vhdr (wVorVi d a i m x j) .valu j) false iOr d a (.vi i) m x s

/-- `vxor.vv` (R101). -/
def execVxorVv (d a b : Reg5) (m x : Reg3) (j : BitVec 1) (s : State) : Host.Outcome State Fault Refusal :=
  vintOp (vhdr (wVxorVv d a b m x j) .valu j) false iXor d a (.vv b) m x s

/-- `vxor.vs` (R101). -/
def execVxorVs (d a b : Reg5) (m x : Reg3) (j : BitVec 1) (s : State) : Host.Outcome State Fault Refusal :=
  vintOp (vhdr (wVxorVs d a b m x j) .valu j) false iXor d a (.vs b) m x s

/-- `vxor.vi` (R101). -/
def execVxorVi (d a : Reg5) (i : BitVec 5) (m x : Reg3) (j : BitVec 1) (s : State) : Host.Outcome State Fault Refusal :=
  vintOp (vhdr (wVxorVi d a i m x j) .valu j) false iXor d a (.vi i) m x s

/-- `vsll.vv` (R101). -/
def execVsllVv (d a b : Reg5) (m x : Reg3) (j : BitVec 1) (s : State) : Host.Outcome State Fault Refusal :=
  vintOp (vhdr (wVsllVv d a b m x j) .valu j) false iSll d a (.vv b) m x s

/-- `vsll.vs` (R101). -/
def execVsllVs (d a b : Reg5) (m x : Reg3) (j : BitVec 1) (s : State) : Host.Outcome State Fault Refusal :=
  vintOp (vhdr (wVsllVs d a b m x j) .valu j) false iSll d a (.vs b) m x s

/-- `vsll.vi` (R101). -/
def execVsllVi (d a : Reg5) (i : BitVec 5) (m x : Reg3) (j : BitVec 1) (s : State) : Host.Outcome State Fault Refusal :=
  vintOp (vhdr (wVsllVi d a i m x j) .valu j) false iSll d a (.vi i) m x s

/-- `vsrl.vv` (R101). -/
def execVsrlVv (d a b : Reg5) (m x : Reg3) (j : BitVec 1) (s : State) : Host.Outcome State Fault Refusal :=
  vintOp (vhdr (wVsrlVv d a b m x j) .valu j) false iSrl d a (.vv b) m x s

/-- `vsrl.vs` (R101). -/
def execVsrlVs (d a b : Reg5) (m x : Reg3) (j : BitVec 1) (s : State) : Host.Outcome State Fault Refusal :=
  vintOp (vhdr (wVsrlVs d a b m x j) .valu j) false iSrl d a (.vs b) m x s

/-- `vsrl.vi` (R101). -/
def execVsrlVi (d a : Reg5) (i : BitVec 5) (m x : Reg3) (j : BitVec 1) (s : State) : Host.Outcome State Fault Refusal :=
  vintOp (vhdr (wVsrlVi d a i m x j) .valu j) false iSrl d a (.vi i) m x s

/-- `vsra.vv` (R101). -/
def execVsraVv (d a b : Reg5) (m x : Reg3) (j : BitVec 1) (s : State) : Host.Outcome State Fault Refusal :=
  vintOp (vhdr (wVsraVv d a b m x j) .valu j) false iSra d a (.vv b) m x s

/-- `vsra.vs` (R101). -/
def execVsraVs (d a b : Reg5) (m x : Reg3) (j : BitVec 1) (s : State) : Host.Outcome State Fault Refusal :=
  vintOp (vhdr (wVsraVs d a b m x j) .valu j) false iSra d a (.vs b) m x s

/-- `vsra.vi` (R101). -/
def execVsraVi (d a : Reg5) (i : BitVec 5) (m x : Reg3) (j : BitVec 1) (s : State) : Host.Outcome State Fault Refusal :=
  vintOp (vhdr (wVsraVi d a i m x j) .valu j) false iSra d a (.vi i) m x s

/-! ### VSAT (R102 to R105) -/

/-- A clamp of an integer result: the value, and IS where it changed (R56). -/
def clamp (signed : Bool) (w : Nat) (x : Int) : Nat × Exc :=
  (intBits w (satInt signed w x), { is := satInt signed w x != x })

/-- A VSAT form of two SEW-wide operands (R102). -/
def vsatOp (hdr : Hdr) (f : Nat → Nat → Nat → Nat × Exc) (d a b : Reg5) (m x : Reg3) (s : State) : Host.Outcome State Fault Refusal :=
  vecMap hdr (fun _ => false) (fun _ => false) (fun h => [h.opd a, h.opd b]) (fun h => h.opd d) m x
    (fun h src i => f h.sew (src 0 i) (src 1 i)) s

/-- `vsadd` (R102). -/
def execVsadd (d a b : Reg5) (m x : Reg3) (j : BitVec 1) (s : State) : Host.Outcome State Fault Refusal :=
  vsatOp (vhdr (wVsadd d a b m x j) .valu j) (fun w a b => clamp true w (bitsInt true w a + bitsInt true w b)) d a b m x s

/-- `vsaddu` (R102). -/
def execVsaddu (d a b : Reg5) (m x : Reg3) (j : BitVec 1) (s : State) : Host.Outcome State Fault Refusal :=
  vsatOp (vhdr (wVsaddu d a b m x j) .valu j) (fun w a b => clamp false w ((a : Int) + b)) d a b m x s

/-- `vssub` (R102). -/
def execVssub (d a b : Reg5) (m x : Reg3) (j : BitVec 1) (s : State) : Host.Outcome State Fault Refusal :=
  vsatOp (vhdr (wVssub d a b m x j) .valu j) (fun w a b => clamp true w (bitsInt true w a - bitsInt true w b)) d a b m x s

/-- `vssubu` (R102). -/
def execVssubu (d a b : Reg5) (m x : Reg3) (j : BitVec 1) (s : State) : Host.Outcome State Fault Refusal :=
  vsatOp (vhdr (wVssubu d a b m x j) .valu j) (fun w a b => clamp false w ((a : Int) - b)) d a b m x s

/-- `vavg` (R102). -/
def execVavg (d a b : Reg5) (m x : Reg3) (j : BitVec 1) (s : State) : Host.Outcome State Fault Refusal :=
  vsatOp (vhdr (wVavg d a b m x j) .valu j) (fun w a b => (intBits w ((bitsInt true w a + bitsInt true w b + 1) / 2), {})) d a b m x s

/-- `vavgu` (R102). -/
def execVavgu (d a b : Reg5) (m x : Reg3) (j : BitVec 1) (s : State) : Host.Outcome State Fault Refusal :=
  vsatOp (vhdr (wVavgu d a b m x j) .valu j) (fun _ a b => ((a + b + 1) / 2, {})) d a b m x s

/-- `vmerge` (R103): m is a selector, not a governing mask. -/
def execVmerge (d a b : Reg5) (m : Reg3) (j : BitVec 1) (s : State) : Host.Outcome State Fault Refusal :=
  vecMap (vhdr (wVmerge d a b m j) .valu j) (fun h => h.streamBad (h.opd d) true true) (fun _ => false)
    (fun h => [h.opd a, h.opd b]) (fun h => h.opd d) 0 0
    (fun h src i => (if h.maskBit m i then src 1 i else src 0 i, {})) s

/-- `vmv` (R103). -/
def execVmv (d a : Reg5) (j : BitVec 1) (s : State) : Host.Outcome State Fault Refusal :=
  vecMap (vhdr (wVmv d a j) .valu j) (fun _ => false) (fun _ => false) (fun h => [h.opd a]) (fun h => h.opd d) 0 0
    (fun _ src i => (src 0 i, {})) s

/-- An integer divided by 2^n and rounded to an integer (R104, R52). -/
def roundShiftInt (rm : RM) (x : Int) (n : Nat) : Int :=
  sgnInt (decide (x < 0)) (roundShift rm (decide (x < 0)) x.natAbs n).1

/-- `vnsra` (R104): its source group of twice the size meets a destination that starts at its first or second register whatever LMUL is (R10, R354 step 1). DESIGN CHOICE (log
39): that an odd `va` is misaligned under every LMUL is found in step 4 of R354 with the other alignments, not in step 1. -/
def execVnsra (d a b : Reg5) (m x : Reg3) (j : BitVec 1) (s : State) : Host.Outcome State Fault Refusal :=
  vecMap { vhdr (wVnsra d a b m x j) .valu j with bad07 := d == a || d.toNat == a.toNat + 1 } (fun h => h.sew == 64) (fun h => h.lmul == 8)
    (fun h => [⟨a, 2 * h.lmul, 2 * h.sew⟩, h.opd b]) (fun h => h.opd d) m x
    (fun h src i =>
      clamp h.signed h.sew (roundShiftInt h.vrm (bitsInt h.signed (2 * h.sew) (src 0 i)) (src 1 i % (2 * h.sew)))) s

/-- `vwmul` and `vwadd` (R104): the destination is twice SEW wide and overlaps no source; it meets one that starts at its first or second register whatever LMUL
is (R10, R354 step 1). DESIGN CHOICE (log 39): that an odd `vd` is misaligned under every LMUL is found in step 4 of R354, after VO, the convoy limits and the ILL 0x03
of SEW 64, not in step 1. -/
def widenOp (hdr : Hdr) (f : Int → Int → Int) (d a b : Reg5) (m : Reg3) (s : State) : Host.Outcome State Fault Refusal :=
  vecMap { hdr with bad07 := d == a || d == b || a.toNat == d.toNat + 1 || b.toNat == d.toNat + 1 } (fun h => h.sew == 64)
    (fun h => h.lmul == 8 || anyOverlap [h.opd a, h.opd b] [⟨d, 2 * h.lmul, 2 * h.sew⟩])
    (fun h => [h.opd a, h.opd b]) (fun h => ⟨d, 2 * h.lmul, 2 * h.sew⟩) m 0
    (fun h src i => (intBits (2 * h.sew) (f (bitsInt h.signed h.sew (src 0 i)) (bitsInt h.signed h.sew (src 1 i))), {})) s

/-- `vwmul` (R104). -/
def execVwmul (d a b : Reg5) (m : Reg3) (j : BitVec 1) (s : State) : Host.Outcome State Fault Refusal :=
  widenOp (vhdr (wVwmul d a b m j) .vmul j) (fun x y => x * y) d a b m s

/-- `vwadd` (R104). -/
def execVwadd (d a b : Reg5) (m : Reg3) (j : BitVec 1) (s : State) : Host.Outcome State Fault Refusal :=
  widenOp (vhdr (wVwadd d a b m j) .valu j) (fun x y => x + y) d a b m s

/-- The sum of the four byte products of `vdot4` (R105). -/
def dot4 (signed : Bool) (a b : Nat) : Int :=
  ((List.range 4).map (fun q => bitsInt signed 8 (a / 2 ^ (8 * q) % 256) * bitsInt signed 8 (b / 2 ^ (8 * q) % 256))).sum

/-- `vdot4` (R105). -/
def execVdot4 (d a b : Reg5) (m : Reg3) (j : BitVec 1) (s : State) : Host.Outcome State Fault Refusal :=
  vecMap (vhdr (wVdot4 d a b m j) .vmul j) (fun h => h.sew != 32) (fun _ => false)
    (fun h => [h.opd a, h.opd b, h.opd d]) (fun h => h.opd d) m 0
    (fun h src i => (intBits 32 ((h.elem d.toNat 32 i : Int) + dot4 h.signed (src 0 i) (src 1 i)), {})) s

end Sys2Proof.Machine
end

