-- ==== Sys2Proof/Machine/VecFp.lean ====
section
/-! DEFINITION. Floating-point element operations, unary functions, conversions, packing, classification and keyed noise
(02 R47 to R51, 04 R106 to R113). -/

namespace Sys2Proof.Machine

open Sys2Proof

/-! ### Values of elements (R47, R50, R51, R96) -/

/-- FMT and SEW name one of the formats that the entry allows (R98). -/
def Hart.fmtIn (h : Hart) (fs : List Nat) : Bool := fs.contains h.fmt

/-- The value of an element read without scales: integers and raw i4x codes too (R51, R96). -/
def Hart.plainValue (h : Hart) (raw : Nat) : FVal :=
  match h.ffmt with
  | some f => f.read raw
  | none => FVal.ofInt false (bitsInt h.signed h.sew raw) 0

/-- The entry of block b in the paired scale register of a group (R47). -/
def Hart.scaleEntry (h : Hart) (r : Reg5) (b : Nat) : Nat :=
  let v := (h.v.getD (r.toNat + h.lmul) 0).toNat
  if h.fmt = 7 then v / 2 ^ (16 * b) % 2 ^ 16 else v / 2 ^ (8 * b) % 2 ^ 8

/-- The paired scale registers of groups with the entries that elements VSTART to VL - 1 read (R47). -/
def Hart.scaleOpds (h : Hart) (rs : List Reg5) : List (VOpd × Nat × Nat) :=
  if h.scaled then rs.map (fun r => (⟨BitVec.ofNat 5 (r.toNat + h.lmul), 1, if h.fmt = 7 then 16 else 8⟩, h.vstart.toNat / 32, (h.vl + 31) / 32)) else []

/-- An element of an i4x pair before its scale (R51). -/
def i4xValue (lo hi ox : Nat) (odd : Bool) : FVal :=
  let out := fun c => (FVal.mul (FName.e2m1.read c) (.num false 1 ox)).1
  let zero : FVal := .num false 0 0
  if lo = 8 && hi = 8 then zero
  else if lo = 8 then if odd then zero else out hi
  else if hi = 8 then if odd then out lo else zero
  else FVal.ofInt false (bitsInt true 4 (if odd then hi else lo)) 0

/-- A value times an E8M0 scale, exactly; a NaN scale reads as NaN and raises invalid (R50). -/
def scaleBy (v : FVal) (e : Nat) : FVal × Exc :=
  if e = 255 then (.nan, { nv := true }) else ((FVal.mul v (e8m0 e)).1, {})

/-- Element i of a source that an instruction reads as values: with its scale where SC = 1, decoded where FMT is i4x (R47, R51). -/
def Hart.value (h : Hart) (r : Reg5) (raw i : Nat) : FVal × Exc :=
  let entry := if h.scaled then h.scaleEntry r (i / 32) else 127
  let v :=
    if h.fmt = 7 then
      i4xValue (h.elem r.toNat 4 (i / 2 * 2)) (h.elem r.toNat 4 (i / 2 * 2 + 1)) (if h.scaled then entry / 2 ^ 8 % 16 else 0) (i % 2 == 1)
    else h.plainValue raw
  if h.scaled then scaleBy v (entry % 2 ^ 8) else (v, {})

/-- The unscaled value of an s register as one element (R97); the marker code of i4x alone has no value the spec states. -/
def Hart.scalarValue (h : Hart) (b : Reg5) : FVal :=
  let raw := (h.gs b).toNat % 2 ^ h.sew
  if h.fmt = 7 && raw == 8 then FVal.ofInt false (Config.loneMarker).toInt 0 else h.plainValue raw

/-- A scaled source without a paired register, or with one inside the destination (R47). -/
def Hart.scaleBad (h : Hart) (rs : List Reg5) (dst : Option VOpd) : Bool :=
  h.scaled && rs.any (fun r => decide (31 < r.toNat + h.lmul) ||
    match dst with
    | none => false
    | some d => VOpd.overlaps d ⟨BitVec.ofNat 5 (r.toNat + h.lmul), 1, 8⟩)

/-! ### VFP (R106 to R108) -/

/-- Operand b of a float form (R97). -/
inductive FForm where
  | vv (b : Reg5)
  | vs (b : Reg5)
  deriving DecidableEq, Repr

/-- The vector sources that operand b adds. -/
def FForm.srcs (f : FForm) (h : Hart) : List VOpd :=
  match f with
  | .vv b => [h.opd b]
  | .vs _ => []

/-- The code of operand b of element i; a vector b is source operand 1. -/
def FForm.code (f : FForm) (h : Hart) (src : Nat → Nat → Nat) (i : Nat) : Nat :=
  match f with
  | .vv _ => src 1 i
  | .vs b => (h.gs b).toNat % 2 ^ h.sew

/-- An exact result rounded once to the element format under a mode, with the exceptions of forming it (R52 to R54). -/
def Hart.finish (h : Hart) (rm : RM) (r : FVal × Exc) : Nat × Exc :=
  let (c, e) := h.ff.round rm h.satBit r.1
  (c, r.2.or e)

/-- A float operation on the codes d, a and b of an element. -/
abbrev FpFn := Hart → Nat → Nat → Nat → Nat × Exc

/-- `vfadd` (Table 4-4). -/
def fAdd : FpFn := fun h _ a b => h.finish h.vrm (FVal.add h.vrm (h.ff.read a) (h.ff.read b))
/-- `vfsub`. -/
def fSub : FpFn := fun h _ a b => h.finish h.vrm (FVal.add h.vrm (h.ff.read a) (h.ff.read b).neg)
/-- `vfmul`. -/
def fMul : FpFn := fun h _ a b => h.finish h.vrm (FVal.mul (h.ff.read a) (h.ff.read b))
/-- `vfdiv`. -/
def fDiv : FpFn := fun h _ a b => h.finish h.vrm (FVal.div (h.ff.read a) (h.ff.read b))
/-- d plus or minus a × b, exactly. -/
def fusedExact (rm : RM) (d a b : FVal) (minus : Bool) : FVal × Exc :=
  let (p, e) := FVal.mul a b
  let (x, e') := FVal.add rm d (if minus then p.neg else p)
  (x, e.or e')
/-- `vfma`. -/
def fMa : FpFn := fun h d a b => h.finish h.vrm (fusedExact h.vrm (h.ff.read d) (h.ff.read a) (h.ff.read b) false)
/-- `vfnma`. -/
def fNma : FpFn := fun h d a b => h.finish h.vrm (fusedExact h.vrm (h.ff.read d) (h.ff.read a) (h.ff.read b) true)
/-- `vfmin`. -/
def fMin : FpFn := fun h _ a b => h.finish .rne (FVal.minimum (h.ff.read a) (h.ff.read b), {})
/-- `vfmax`. -/
def fMax : FpFn := fun h _ a b => h.finish .rne (FVal.maximum (h.ff.read a) (h.ff.read b), {})
/-- `vfsgnj`: the magnitude of a with the sign of b. -/
def fSgnj : FpFn := fun h _ a b =>
  (if (h.ff.read a).isNan then h.ff.nanCode else a % 2 ^ (h.sew - 1) + b / 2 ^ (h.sew - 1) % 2 * 2 ^ (h.sew - 1), {})
/-- `vfexpb` (R107). -/
def fExpb : FpFn := fun h _ a b =>
  let (x, e) := FVal.add .rne (h.ff.read a) (h.ff.read b).neg
  let (y, _) := x.exp
  let (c, r) := h.ff.round h.vrm h.satBit y
  (c, e.or { nx := r.nx, ov := FVal.lt (.num false 0 0) x })

/-- A VFP instruction (R106); `acc` marks the forms that read the destination. -/
def vfpOp (hdr : Hdr) (acc : Bool) (f : FpFn) (d a : Reg5) (b : FForm) (m x : Reg3) (s : State) : Host.Outcome State Fault Refusal :=
  vecMap hdr (fun h => !h.fmtIn [2, 3]) (fun _ => false) (fun h => [h.opd a] ++ b.srcs h ++ if acc then [h.opd d] else []) (fun h => h.opd d) m x
    (fun h src i => f h (h.elem d.toNat h.sew i) (src 0 i) (b.code h src i)) s

/-- `vfadd.vv` (R106). -/
def execVfaddVv (d a b : Reg5) (m x : Reg3) (j : BitVec 1) (s : State) : Host.Outcome State Fault Refusal :=
  vfpOp (vhdr (wVfaddVv d a b m x j) .valu j) false fAdd d a (.vv b) m x s

/-- `vfadd.vs` (R106). -/
def execVfaddVs (d a b : Reg5) (m x : Reg3) (j : BitVec 1) (s : State) : Host.Outcome State Fault Refusal :=
  vfpOp (vhdr (wVfaddVs d a b m x j) .valu j) false fAdd d a (.vs b) m x s

/-- `vfsub.vv` (R106). -/
def execVfsubVv (d a b : Reg5) (m x : Reg3) (j : BitVec 1) (s : State) : Host.Outcome State Fault Refusal :=
  vfpOp (vhdr (wVfsubVv d a b m x j) .valu j) false fSub d a (.vv b) m x s

/-- `vfsub.vs` (R106). -/
def execVfsubVs (d a b : Reg5) (m x : Reg3) (j : BitVec 1) (s : State) : Host.Outcome State Fault Refusal :=
  vfpOp (vhdr (wVfsubVs d a b m x j) .valu j) false fSub d a (.vs b) m x s

/-- `vfmul.vv` (R106). -/
def execVfmulVv (d a b : Reg5) (m x : Reg3) (j : BitVec 1) (s : State) : Host.Outcome State Fault Refusal :=
  vfpOp (vhdr (wVfmulVv d a b m x j) .vmul j) false fMul d a (.vv b) m x s

/-- `vfmul.vs` (R106). -/
def execVfmulVs (d a b : Reg5) (m x : Reg3) (j : BitVec 1) (s : State) : Host.Outcome State Fault Refusal :=
  vfpOp (vhdr (wVfmulVs d a b m x j) .vmul j) false fMul d a (.vs b) m x s

/-- `vfdiv.vv` (R106). -/
def execVfdivVv (d a b : Reg5) (m x : Reg3) (j : BitVec 1) (s : State) : Host.Outcome State Fault Refusal :=
  vfpOp (vhdr (wVfdivVv d a b m x j) .vmul j) false fDiv d a (.vv b) m x s

/-- `vfdiv.vs` (R106). -/
def execVfdivVs (d a b : Reg5) (m x : Reg3) (j : BitVec 1) (s : State) : Host.Outcome State Fault Refusal :=
  vfpOp (vhdr (wVfdivVs d a b m x j) .vmul j) false fDiv d a (.vs b) m x s

/-- `vfma.vv` (R106). -/
def execVfmaVv (d a b : Reg5) (m x : Reg3) (j : BitVec 1) (s : State) : Host.Outcome State Fault Refusal :=
  vfpOp (vhdr (wVfmaVv d a b m x j) .vmul j) true fMa d a (.vv b) m x s

/-- `vfma.vs` (R106). -/
def execVfmaVs (d a b : Reg5) (m x : Reg3) (j : BitVec 1) (s : State) : Host.Outcome State Fault Refusal :=
  vfpOp (vhdr (wVfmaVs d a b m x j) .vmul j) true fMa d a (.vs b) m x s

/-- `vfnma.vv` (R106). -/
def execVfnmaVv (d a b : Reg5) (m x : Reg3) (j : BitVec 1) (s : State) : Host.Outcome State Fault Refusal :=
  vfpOp (vhdr (wVfnmaVv d a b m x j) .vmul j) true fNma d a (.vv b) m x s

/-- `vfnma.vs` (R106). -/
def execVfnmaVs (d a b : Reg5) (m x : Reg3) (j : BitVec 1) (s : State) : Host.Outcome State Fault Refusal :=
  vfpOp (vhdr (wVfnmaVs d a b m x j) .vmul j) true fNma d a (.vs b) m x s

/-- `vfmin.vv` (R106). -/
def execVfminVv (d a b : Reg5) (m x : Reg3) (j : BitVec 1) (s : State) : Host.Outcome State Fault Refusal :=
  vfpOp (vhdr (wVfminVv d a b m x j) .valu j) false fMin d a (.vv b) m x s

/-- `vfmin.vs` (R106). -/
def execVfminVs (d a b : Reg5) (m x : Reg3) (j : BitVec 1) (s : State) : Host.Outcome State Fault Refusal :=
  vfpOp (vhdr (wVfminVs d a b m x j) .valu j) false fMin d a (.vs b) m x s

/-- `vfmax.vv` (R106). -/
def execVfmaxVv (d a b : Reg5) (m x : Reg3) (j : BitVec 1) (s : State) : Host.Outcome State Fault Refusal :=
  vfpOp (vhdr (wVfmaxVv d a b m x j) .valu j) false fMax d a (.vv b) m x s

/-- `vfmax.vs` (R106). -/
def execVfmaxVs (d a b : Reg5) (m x : Reg3) (j : BitVec 1) (s : State) : Host.Outcome State Fault Refusal :=
  vfpOp (vhdr (wVfmaxVs d a b m x j) .valu j) false fMax d a (.vs b) m x s

/-- `vfsgnj.vv` (R106). -/
def execVfsgnjVv (d a b : Reg5) (m x : Reg3) (j : BitVec 1) (s : State) : Host.Outcome State Fault Refusal :=
  vfpOp (vhdr (wVfsgnjVv d a b m x j) .valu j) false fSgnj d a (.vv b) m x s

/-- `vfsgnj.vs` (R106). -/
def execVfsgnjVs (d a b : Reg5) (m x : Reg3) (j : BitVec 1) (s : State) : Host.Outcome State Fault Refusal :=
  vfpOp (vhdr (wVfsgnjVs d a b m x j) .valu j) false fSgnj d a (.vs b) m x s

/-- `vfexpb.vv` (R106). -/
def execVfexpbVv (d a b : Reg5) (m x : Reg3) (j : BitVec 1) (s : State) : Host.Outcome State Fault Refusal :=
  vfpOp (vhdr (wVfexpbVv d a b m x j) .vmul j) false fExpb d a (.vv b) m x s

/-- `vfexpb.vs` (R106). -/
def execVfexpbVs (d a b : Reg5) (m x : Reg3) (j : BitVec 1) (s : State) : Host.Outcome State Fault Refusal :=
  vfpOp (vhdr (wVfexpbVs d a b m x j) .vmul j) false fExpb d a (.vs b) m x s

/-- The destination of `vfwma`: LMUL × 32 / SEW registers of f32 elements (R108). -/
def Hart.wideOpd (h : Hart) (r : Reg5) : VOpd := ⟨r, h.lmul * 32 / h.sew, 32⟩

/-- `vfwma` (R108): one f32 rounding of d + a × b, each source with its own scale. -/
def vfwmaOp (hdr : Hdr) (d a : Reg5) (b : FForm) (m x : Reg3) (s : State) : Host.Outcome State Fault Refusal :=
  let bs := match b with
    | .vv b => [b]
    | .vs _ => []
  vecMapAlso { hdr with bad07 := d == a || bs.contains d } (fun h => !(h.fmtIn [3, 4, 5, 6, 7] || (h.fmt == 2 && h.sew == 16)) || (h.stream d).isSome)
    (fun h => h.scaleBad (a :: bs) (some (h.wideOpd d)) || anyOverlap (h.opd a :: b.srcs h) [h.wideOpd d])
    (fun h => h.opd a :: b.srcs h) (fun h => (h.wideOpd d, h.vstart.toNat, h.vl) :: h.scaleOpds (a :: bs)) (fun h => h.wideOpd d) m x
    (fun h src i =>
      let (va, ea) := h.value a (src 0 i) i
      let (vb, eb) := match b with
        | .vv b => h.value b (src 1 i) i
        | .vs b => (h.scalarValue b, {})
      let (c, e) := toF32 h.vrm (fusedExact h.vrm (FName.f32.read (h.elem d.toNat 32 i)) va vb false)
      (c, (ea.or eb).or e)) s

/-- `vfwma.vv` (R108). -/
def execVfwmaVv (d a b : Reg5) (m x : Reg3) (j : BitVec 1) (s : State) : Host.Outcome State Fault Refusal :=
  vfwmaOp (vhdr (wVfwmaVv d a b m x j) .vmul j) d a (.vv b) m x s

/-- `vfwma.vs` (R108). -/
def execVfwmaVs (d a b : Reg5) (m x : Reg3) (j : BitVec 1) (s : State) : Host.Outcome State Fault Refusal :=
  vfwmaOp (vhdr (wVfwmaVs d a b m x j) .vmul j) d a (.vs b) m x s

/-! ### VFUN (R109 to R113) -/

/-- A unary float function (R109). -/
def vfunOp (hdr : Hdr) (f : Hart → Nat → Nat × Exc) (d a : Reg5) (m x : Reg3) (s : State) : Host.Outcome State Fault Refusal :=
  vecMap hdr (fun h => !h.fmtIn [2, 3]) (fun _ => false) (fun h => [h.opd a]) (fun h => h.opd d) m x (fun h src i => f h (src 0 i)) s

/-- `vfsqrt` (R109). -/
def execVfsqrt (d a : Reg5) (m x : Reg3) (j : BitVec 1) (s : State) : Host.Outcome State Fault Refusal :=
  vfunOp (vhdr (wVfsqrt d a m x j) .vmul j) (fun h a => h.finish h.vrm (h.ff.read a).sqrt) d a m x s

/-- The smallest normal value of a format (Table 2-8). -/
def FName.minNormal (f : FName) : FVal := .num false 1 (1 - (f.bias : Int))

/-- An estimate (R109): rounded to 12 significant bits, then to the format, both RNE; inexact and underflow compare with the exact result (R53). -/
def Hart.estimate (h : Hart) (r : FVal × Exc) : Nat × Exc :=
  let (c, e) := h.ff.round .rne h.satBit r.1.to12
  match r.1 with
  | .num _ m x =>
    let nx := !(FVal.eq (h.ff.read c) r.1)
    (c, r.2.or { nx := nx, ov := e.ov, uf := nx && m != 0 && FVal.lt (.num false m x) h.ff.minNormal })
  | _ => (c, r.2)

/-- `vfrsqe` (R109). -/
def execVfrsqe (d a : Reg5) (m x : Reg3) (j : BitVec 1) (s : State) : Host.Outcome State Fault Refusal :=
  vfunOp (vhdr (wVfrsqe d a m x j) .vmul j) (fun h a => h.estimate ((h.ff.read a).rsqrt)) d a m x s

/-- `vfrece` (R109). -/
def execVfrece (d a : Reg5) (m x : Reg3) (j : BitVec 1) (s : State) : Host.Outcome State Fault Refusal :=
  vfunOp (vhdr (wVfrece d a m x j) .vmul j) (fun h a => h.estimate (FVal.div (.num false 1 0) (h.ff.read a))) d a m x s

/-- `vfln` (R109). -/
def execVfln (d a : Reg5) (m x : Reg3) (j : BitVec 1) (s : State) : Host.Outcome State Fault Refusal :=
  vfunOp (vhdr (wVfln d a m x j) .vmul j) (fun h a => h.finish h.vrm (h.ff.read a).ln) d a m x s

/-- `vfexp` (R109). -/
def execVfexp (d a : Reg5) (m x : Reg3) (j : BitVec 1) (s : State) : Host.Outcome State Fault Refusal :=
  vfunOp (vhdr (wVfexp d a m x j) .vmul j) (fun h a => h.finish h.vrm (h.ff.read a).exp) d a m x s

/-- A target format of `vfcvt` (Table 4-5). -/
inductive CvtTo where
  | int (signed : Bool) (w : Nat)
  | float (f : FName)
  deriving DecidableEq, Repr

/-- The target of a code (Table 4-5). -/
def cvtTo (c : BitVec 5) : CvtTo :=
  match c.toNat with
  | 0 => .int true 4
  | 1 => .int true 8
  | 2 => .int true 16
  | 3 => .int true 32
  | 4 => .int true 64
  | 5 => .int false 8
  | 6 => .int false 16
  | 7 => .int false 32
  | 8 => .int false 64
  | 9 => .float .f32
  | 10 => .float .f16
  | 11 => .float .bf16
  | 12 => .float .e4m3
  | 13 => .float .e5m2
  | _ => .float .e2m1

/-- The width of a target. -/
def CvtTo.width : CvtTo → Nat
  | .int _ w => w
  | .float f => f.width

/-- A conversion (R110): `isInt` marks an integer or i4x source. -/
def convert (tgt : CvtTo) (isInt : Bool) (rm : RM) (sat : Bool) (v : FVal) : Nat × Exc :=
  match tgt with
  | .float f => f.round rm sat v
  | .int sg w =>
    match v with
    | .num neg m e =>
      if isInt then
        let (x, nx) := roundToInt rm neg m e
        let (y, c) := clamp sg w x
        (y, { c with nx := nx })
      else v.toIntFmt rm sg w
    | _ => v.toIntFmt rm sg w

/-- `vfcvt` (R110). -/
def execVfcvt (d a c : Reg5) (m x : Reg3) (j : BitVec 1) (s : State) : Host.Outcome State Fault Refusal :=
  let tgt := cvtTo c
  vecMapAlso (vhdr (wVfcvt d a c m x j) .valu j) (fun _ => false)
    (fun h => h.scaleBad [a] (some (h.opdW d tgt.width)) || (tgt.width != h.sew && anyOverlap [h.opd a] [h.opdW d tgt.width]))
    (fun h => [h.opd a]) (fun h => h.scaleOpds [a]) (fun h => h.opdW d tgt.width) m x
    (fun h src i =>
      let (v, e) := h.value a (src 0 i) i
      let (y, e') := convert tgt (h.fmtIn [0, 1, 7]) h.vrm h.satBit v
      (y, e.or e')) s

/-- The 4-bit code of an int8 (R111). -/
def packCode (x : Nat) : Nat × Exc :=
  let v := bitsInt true 8 x
  if v = -128 then (8, {})
  else
    let y : Int := max (-7) (min v 7)
    (intBits 4 y, { is := y != v })

/-- `vpack` (R111). -/
def execVpack (d a : Reg5) (x : Reg3) (j : BitVec 1) (s : State) : Host.Outcome State Fault Refusal :=
  vecMap { vhdr (wVpack d a x j) .valu j with bad07 := d == a } (fun h => h.sew != 8) (fun h => anyOverlap [h.opd a] [h.opdW d 4])
    (fun h => [h.opd a]) (fun h => h.opdW d 4) 0 x (fun _ src i => packCode (src 0 i)) s

/-- `vunpk` (R111). -/
def execVunpk (d a : Reg5) (j : BitVec 1) (s : State) : Host.Outcome State Fault Refusal :=
  vecMap { vhdr (wVunpk d a j) .valu j with bad07 := d == a } (fun h => h.sew != 8) (fun h => anyOverlap [h.opdW a 4] [h.opd d])
    (fun h => [h.opdW a 4]) (fun h => h.opd d) 0 0
    (fun _ src i => (if src 0 i = 8 then 0x80 else intBits 8 (bitsInt true 4 (src 0 i)), {})) s

/-- The class bit of a float code (R112). -/
def classBit (f : FName) (c : Nat) : Nat :=
  match f.read c with
  | .nan => 8
  | .inf neg => if neg then 0 else 7
  | .num neg m _ =>
    if m = 0 then if neg then 3 else 4
    else if c % 2 ^ (f.width - 1) < 2 ^ f.fbits then if neg then 2 else 5
    else if neg then 1 else 6

/-- `vfclass` (R112). -/
def execVfclass (d a : Reg5) (m : Reg3) (j : BitVec 1) (s : State) : Host.Outcome State Fault Refusal :=
  vfunOp (vhdr (wVfclass d a m j) .valu j) (fun h a => (2 ^ classBit h.ff a, {})) d a m 0 s

/-- `vfabs` and `vfneg` (R112). -/
def signOp (hdr : Hdr) (f : Nat → Nat → Nat) (d a : Reg5) (m : Reg3) (s : State) : Host.Outcome State Fault Refusal :=
  vecMap hdr (fun h => !h.fmtIn [2, 3, 4, 5, 6]) (fun _ => false) (fun h => [h.opd a]) (fun h => h.opd d) m 0
    (fun h src i => (if (h.ff.read (src 0 i)).isNan then h.ff.nanCode else f h.sew (src 0 i), {})) s

/-- `vfabs` (R112). -/
def execVfabs (d a : Reg5) (m : Reg3) (j : BitVec 1) (s : State) : Host.Outcome State Fault Refusal :=
  signOp (vhdr (wVfabs d a m j) .valu j) (fun w c => c % 2 ^ (w - 1)) d a m s

/-- `vfneg` (R112). -/
def execVfneg (d a : Reg5) (m : Reg3) (j : BitVec 1) (s : State) : Host.Outcome State Fault Refusal :=
  signOp (vhdr (wVfneg d a m j) .valu j) (fun w c => c ^^^ 2 ^ (w - 1)) d a m s

/-- `vgmb` (R113): SKH under SKEY and SSTEP. -/
def execVgmb (d a : Reg5) (m : Reg3) (j : BitVec 1) (s : State) : Host.Outcome State Fault Refusal :=
  vecMap { vhdr (wVgmb d a m j) .vmul j with bad07 := d == a } (fun h => h.sew != 32) (fun h => anyOverlap [h.opd a] [h.opd d])
    (fun h => [h.opd a]) (fun h => h.opd d) m 0 (fun h src i => (skh h.skey h.sstep (src 0 i), {})) s

end Sys2Proof.Machine
end

