-- ==== Sys2Proof/Machine/VecMask.lean ====
section
/-! DEFINITION. Compares into masks and mask operations (04 R114, R115). -/

namespace Sys2Proof.Machine

open Sys2Proof

/-- An integer compare (R114): the relation on raw codes of width w. -/
def vcmpOp (hdr : Hdr) (f : Nat → Nat → Nat → Bool) (d a : Reg5) (b : FForm) (m x : Reg3) (s : State) : Host.Outcome State Fault Refusal :=
  vecMask hdr (fun _ => false) (fun h => h.opd a :: b.srcs h) d m x (fun h src i => (f h.sew (src 0 i) (b.code h src i), {})) s

/-- A float compare (R114, Table 4-1): an ordered one of a NaN is invalid. -/
def vfcmpOp (hdr : Hdr) (ordered : Bool) (f : FVal → FVal → Bool) (d a : Reg5) (b : FForm) (m x : Reg3) (s : State) :
    Host.Outcome State Fault Refusal :=
  vecMask hdr (fun h => !h.fmtIn [2, 3, 4, 5, 6]) (fun h => h.opd a :: b.srcs h) d m x
    (fun h src i =>
      let u := h.ff.read (src 0 i)
      let v := h.ff.read (b.code h src i)
      (f u v, { nv := ordered && (u.isNan || v.isNan) })) s

/-- `vceq.vv` (Table 4-6). -/
def execVceqVv (d a b : Reg5) (m x : Reg3) (j : BitVec 1) (s : State) : Host.Outcome State Fault Refusal :=
  vcmpOp (vhdr (wVceqVv d a b m x j) .xlane j) (fun _ a b => a == b) d a (.vv b) m x s

/-- `vceq.vs` (Table 4-6). -/
def execVceqVs (d a b : Reg5) (m x : Reg3) (j : BitVec 1) (s : State) : Host.Outcome State Fault Refusal :=
  vcmpOp (vhdr (wVceqVs d a b m x j) .xlane j) (fun _ a b => a == b) d a (.vs b) m x s

/-- `vcne.vv` (Table 4-6). -/
def execVcneVv (d a b : Reg5) (m x : Reg3) (j : BitVec 1) (s : State) : Host.Outcome State Fault Refusal :=
  vcmpOp (vhdr (wVcneVv d a b m x j) .xlane j) (fun _ a b => a != b) d a (.vv b) m x s

/-- `vcne.vs` (Table 4-6). -/
def execVcneVs (d a b : Reg5) (m x : Reg3) (j : BitVec 1) (s : State) : Host.Outcome State Fault Refusal :=
  vcmpOp (vhdr (wVcneVs d a b m x j) .xlane j) (fun _ a b => a != b) d a (.vs b) m x s

/-- `vclt.vv` (Table 4-6). -/
def execVcltVv (d a b : Reg5) (m x : Reg3) (j : BitVec 1) (s : State) : Host.Outcome State Fault Refusal :=
  vcmpOp (vhdr (wVcltVv d a b m x j) .xlane j) (fun w a b => decide (bitsInt true w a < bitsInt true w b)) d a (.vv b) m x s

/-- `vclt.vs` (Table 4-6). -/
def execVcltVs (d a b : Reg5) (m x : Reg3) (j : BitVec 1) (s : State) : Host.Outcome State Fault Refusal :=
  vcmpOp (vhdr (wVcltVs d a b m x j) .xlane j) (fun w a b => decide (bitsInt true w a < bitsInt true w b)) d a (.vs b) m x s

/-- `vcle.vv` (Table 4-6). -/
def execVcleVv (d a b : Reg5) (m x : Reg3) (j : BitVec 1) (s : State) : Host.Outcome State Fault Refusal :=
  vcmpOp (vhdr (wVcleVv d a b m x j) .xlane j) (fun w a b => decide (bitsInt true w a ≤ bitsInt true w b)) d a (.vv b) m x s

/-- `vcle.vs` (Table 4-6). -/
def execVcleVs (d a b : Reg5) (m x : Reg3) (j : BitVec 1) (s : State) : Host.Outcome State Fault Refusal :=
  vcmpOp (vhdr (wVcleVs d a b m x j) .xlane j) (fun w a b => decide (bitsInt true w a ≤ bitsInt true w b)) d a (.vs b) m x s

/-- `vcgt.vv` (Table 4-6). -/
def execVcgtVv (d a b : Reg5) (m x : Reg3) (j : BitVec 1) (s : State) : Host.Outcome State Fault Refusal :=
  vcmpOp (vhdr (wVcgtVv d a b m x j) .xlane j) (fun w a b => decide (bitsInt true w b < bitsInt true w a)) d a (.vv b) m x s

/-- `vcgt.vs` (Table 4-6). -/
def execVcgtVs (d a b : Reg5) (m x : Reg3) (j : BitVec 1) (s : State) : Host.Outcome State Fault Refusal :=
  vcmpOp (vhdr (wVcgtVs d a b m x j) .xlane j) (fun w a b => decide (bitsInt true w b < bitsInt true w a)) d a (.vs b) m x s

/-- `vcge.vv` (Table 4-6). -/
def execVcgeVv (d a b : Reg5) (m x : Reg3) (j : BitVec 1) (s : State) : Host.Outcome State Fault Refusal :=
  vcmpOp (vhdr (wVcgeVv d a b m x j) .xlane j) (fun w a b => decide (bitsInt true w b ≤ bitsInt true w a)) d a (.vv b) m x s

/-- `vcge.vs` (Table 4-6). -/
def execVcgeVs (d a b : Reg5) (m x : Reg3) (j : BitVec 1) (s : State) : Host.Outcome State Fault Refusal :=
  vcmpOp (vhdr (wVcgeVs d a b m x j) .xlane j) (fun w a b => decide (bitsInt true w b ≤ bitsInt true w a)) d a (.vs b) m x s

/-- `vcltu.vv` (Table 4-6). -/
def execVcltuVv (d a b : Reg5) (m x : Reg3) (j : BitVec 1) (s : State) : Host.Outcome State Fault Refusal :=
  vcmpOp (vhdr (wVcltuVv d a b m x j) .xlane j) (fun _ a b => decide (a < b)) d a (.vv b) m x s

/-- `vcltu.vs` (Table 4-6). -/
def execVcltuVs (d a b : Reg5) (m x : Reg3) (j : BitVec 1) (s : State) : Host.Outcome State Fault Refusal :=
  vcmpOp (vhdr (wVcltuVs d a b m x j) .xlane j) (fun _ a b => decide (a < b)) d a (.vs b) m x s

/-- `vcleu.vv` (Table 4-6). -/
def execVcleuVv (d a b : Reg5) (m x : Reg3) (j : BitVec 1) (s : State) : Host.Outcome State Fault Refusal :=
  vcmpOp (vhdr (wVcleuVv d a b m x j) .xlane j) (fun _ a b => decide (a ≤ b)) d a (.vv b) m x s

/-- `vcleu.vs` (Table 4-6). -/
def execVcleuVs (d a b : Reg5) (m x : Reg3) (j : BitVec 1) (s : State) : Host.Outcome State Fault Refusal :=
  vcmpOp (vhdr (wVcleuVs d a b m x j) .xlane j) (fun _ a b => decide (a ≤ b)) d a (.vs b) m x s

/-- `vfceq.vv` (Table 4-6). -/
def execVfceqVv (d a b : Reg5) (m x : Reg3) (j : BitVec 1) (s : State) : Host.Outcome State Fault Refusal :=
  vfcmpOp (vhdr (wVfceqVv d a b m x j) .xlane j) false FVal.eq d a (.vv b) m x s

/-- `vfceq.vs` (Table 4-6). -/
def execVfceqVs (d a b : Reg5) (m x : Reg3) (j : BitVec 1) (s : State) : Host.Outcome State Fault Refusal :=
  vfcmpOp (vhdr (wVfceqVs d a b m x j) .xlane j) false FVal.eq d a (.vs b) m x s

/-- `vfclt.vv` (Table 4-6). -/
def execVfcltVv (d a b : Reg5) (m x : Reg3) (j : BitVec 1) (s : State) : Host.Outcome State Fault Refusal :=
  vfcmpOp (vhdr (wVfcltVv d a b m x j) .xlane j) true FVal.lt d a (.vv b) m x s

/-- `vfclt.vs` (Table 4-6). -/
def execVfcltVs (d a b : Reg5) (m x : Reg3) (j : BitVec 1) (s : State) : Host.Outcome State Fault Refusal :=
  vfcmpOp (vhdr (wVfcltVs d a b m x j) .xlane j) true FVal.lt d a (.vs b) m x s

/-- `vfcle.vv` (Table 4-6). -/
def execVfcleVv (d a b : Reg5) (m x : Reg3) (j : BitVec 1) (s : State) : Host.Outcome State Fault Refusal :=
  vfcmpOp (vhdr (wVfcleVv d a b m x j) .xlane j) true (fun u v => u.lt v || u.eq v) d a (.vv b) m x s

/-- `vfcle.vs` (Table 4-6). -/
def execVfcleVs (d a b : Reg5) (m x : Reg3) (j : BitVec 1) (s : State) : Host.Outcome State Fault Refusal :=
  vfcmpOp (vhdr (wVfcleVs d a b m x j) .xlane j) true (fun u v => u.lt v || u.eq v) d a (.vs b) m x s

/-- `vfcun.vv` (Table 4-6). -/
def execVfcunVv (d a b : Reg5) (m x : Reg3) (j : BitVec 1) (s : State) : Host.Outcome State Fault Refusal :=
  vfcmpOp (vhdr (wVfcunVv d a b m x j) .xlane j) false (fun u v => u.isNan || v.isNan) d a (.vv b) m x s

/-- `vfcun.vs` (Table 4-6). -/
def execVfcunVs (d a b : Reg5) (m x : Reg3) (j : BitVec 1) (s : State) : Host.Outcome State Fault Refusal :=
  vfcmpOp (vhdr (wVfcunVs d a b m x j) .xlane j) false (fun u v => u.isNan || v.isNan) d a (.vs b) m x s

/-- Bit i of the mask register that a field names. -/
def Hart.mbit (h : Hart) (r : Reg5) (i : Nat) : Bool := (h.gm r.toNat).getLsbD i

/-- A mask operation on the bits of mask registers (R115). -/
def maskOp (hdr : Hdr) (f : Hart → Nat → Bool) (d : Reg5) (x : Reg3) (s : State) : Host.Outcome State Fault Refusal :=
  vecMask hdr (fun _ => false) (fun _ => []) d 0 x (fun h _ i => (f h i, {})) s

/-- `mand` (Table 4-7). -/
def execMand (d a b : Reg5) (x : Reg3) (j : BitVec 1) (s : State) : Host.Outcome State Fault Refusal :=
  maskOp (vhdr (wMand d a b x j) .valu j) (fun h i => h.mbit a i && h.mbit b i) d x s

/-- `mor` (Table 4-7). -/
def execMor (d a b : Reg5) (x : Reg3) (j : BitVec 1) (s : State) : Host.Outcome State Fault Refusal :=
  maskOp (vhdr (wMor d a b x j) .valu j) (fun h i => h.mbit a i || h.mbit b i) d x s

/-- `mxor` (Table 4-7). -/
def execMxor (d a b : Reg5) (x : Reg3) (j : BitVec 1) (s : State) : Host.Outcome State Fault Refusal :=
  maskOp (vhdr (wMxor d a b x j) .valu j) (fun h i => h.mbit a i != h.mbit b i) d x s

/-- `mandn` (Table 4-7). -/
def execMandn (d a b : Reg5) (x : Reg3) (j : BitVec 1) (s : State) : Host.Outcome State Fault Refusal :=
  maskOp (vhdr (wMandn d a b x j) .valu j) (fun h i => h.mbit a i && !h.mbit b i) d x s

/-- `mnot` (Table 4-7). -/
def execMnot (d a : Reg5) (x : Reg3) (j : BitVec 1) (s : State) : Host.Outcome State Fault Refusal :=
  maskOp (vhdr (wMnot d a x j) .valu j) (fun h i => !h.mbit a i) d x s

/-- `mmv` (Table 4-7). -/
def execMmv (d a : Reg5) (x : Reg3) (j : BitVec 1) (s : State) : Host.Outcome State Fault Refusal :=
  maskOp (vhdr (wMmv d a x j) .valu j) (fun h i => h.mbit a i) d x s

/-- `mset` (Table 4-7). -/
def execMset (d : Reg5) (x : Reg3) (j : BitVec 1) (s : State) : Host.Outcome State Fault Refusal :=
  maskOp (vhdr (wMset d x j) .valu j) (fun _ _ => true) d x s

/-- `mclr` (Table 4-7). -/
def execMclr (d : Reg5) (x : Reg3) (j : BitVec 1) (s : State) : Host.Outcome State Fault Refusal :=
  maskOp (vhdr (wMclr d x j) .valu j) (fun _ _ => false) d x s

/-- The active elements whose bit of a mask is 1, ascending (R115). -/
def Hart.marked (h : Hart) (a : Reg5) (m : Reg3) : List Nat := (h.active m h.vl).filter (h.mbit a)

/-- `mpop` (Table 4-7): 0 with no active element. -/
def execMpop (d a : Reg5) (m : Reg3) (j : BitVec 1) (s : State) : Host.Outcome State Fault Refusal :=
  vecRun { vhdr (wMpop d a m j) .xlane j with swrites := [d] } (fun _ => false) (fun _ => false) false (fun _ => []) (fun _ => [])
    (fun s _ _ => .next (s.ps d (BitVec.ofNat 64 (s.hart.marked a m).length))) s

/-- `mffs` (Table 4-7): -1 where no active bit is set. -/
def execMffs (d a : Reg5) (m : Reg3) (j : BitVec 1) (s : State) : Host.Outcome State Fault Refusal :=
  vecRun { vhdr (wMffs d a m j) .xlane j with swrites := [d] } (fun _ => false) (fun _ => false) false (fun _ => []) (fun _ => [])
    (fun s _ _ => .next (s.ps d (match (s.hart.marked a m).head? with
      | some i => BitVec.ofNat 64 i
      | none => BitVec.allOnes 64))) s

/-- `msbf` (Table 4-7); mD = mA traps ILL 0x07. -/
def execMsbf (d a : Reg5) (m x : Reg3) (j : BitVec 1) (s : State) : Host.Outcome State Fault Refusal :=
  vecMask { vhdr (wMsbf d a m x j) .xlane j with bad07 := d == a } (fun _ => false) (fun _ => []) d m x
    (fun h _ i => (decide (i < (h.marked a m).head?.getD h.vl), {})) s

/-- `mtov` (Table 4-7). -/
def execMtov (d a : Reg5) (m x : Reg3) (j : BitVec 1) (s : State) : Host.Outcome State Fault Refusal :=
  vecMap (vhdr (wMtov d a m x j) .valu j) (fun _ => false) (fun _ => false) (fun _ => []) (fun h => h.opd d) m x
    (fun h _ i => ((h.mbit a i).toNat, {})) s

/-- `vtom` (Table 4-7). -/
def execVtom (d a : Reg5) (m x : Reg3) (j : BitVec 1) (s : State) : Host.Outcome State Fault Refusal :=
  vecMask (vhdr (wVtom d a m x j) .valu j) (fun _ => false) (fun h => [h.opd a]) d m x (fun _ src i => (src 0 i != 0, {})) s

end Sys2Proof.Machine
end

