-- ==== Sys2Proof/Machine/VecMem.lean ====
section
/-! DEFINITION. Vector memory access: loads, stores, atomics, replayed noise, lane-private slices, and vector access at a peer
(04 R113, 05 R119 to R129, 06 R166 to R168, 13 R316 to R318). -/

namespace Sys2Proof.Machine

open Sys2Proof

/-! ### The ends of the instructions -/

/-- The data of the elements of a load that stops or trims: into the destination's group, then `fin`; or appended to its stream (R213), where an appended
element that faults joins the faulted elements of the load and the lower of the two stops it. `s0` is the state before the stop. -/
def State.takeData (s0 s : State) (hdr : Hdr) (n : Nat) (dst : VOpd) (xs : List (Nat × Nat)) (fin : State → Eff) : Eff :=
  match s.hart.stream dst.reg with
  | none => fin (s.upd (·.putElems dst.reg.toNat dst.w xs))
  | some st =>
    let es := appendElems st s.hart.vstart.toNat xs
    match s.hart.streamAborted st with
    | some g => .trap s0 ⟨0x0D, BitVec.ofNat 64 g⟩
    | none =>
      match s0.runElems hdr (s0.hart.streamRoute st) false false n es with
      | .hold s1 => .hold s1
      | _ =>
        match s.runElems hdr (s.hart.streamRoute st) false false n es with
        | .stop s1 _ k t =>
          let both := s1.upd (fun h => h.pm 7 (h.gm 7 ||| s.hart.gm 7))
          match fin both with
          | .trap s2 t2 => if s2.hart.vstart.toNat ≤ k then .trap s2 t2 else .trap (s2.upd (fun h => { h with vstart := BitVec.ofNat 16 k })) t
          | _ => .trap (s1.upd (fun h => { h with vstart := BitVec.ofNat 16 k })) t
        | .all s1 _ => fin s1
        | _ => fin s

/-- The end of a load from the state before its elements: the data of the elements that completed are written, the streams advance, VSTART is set by a stop
(R132, R134, R140). -/
def loadEnd (s0 : State) (hdr : Hdr) (n : Nat) (so : List VOpd) (dst : VOpd) (conv : Nat → Nat → Nat) (r : Elems) : Eff :=
  let cv := fun (ds : List (Nat × Nat)) => ds.map (fun d => (d.1, conv d.1 d.2))
  let stopped := fun (s : State) (k : Nat) =>
    (s.upd (·.advance (dst :: so) (k - s0.hart.vstart.toNat))).upd (fun h => { h with vstart := BitVec.ofNat 16 k })
  match r with
  | .all s ds => s.putResult hdr n so dst (cv ds) (fun _ s => s)
  | .trim s ds g => s0.takeData s hdr n dst (cv ds) (fun s => .next ((s.upd (·.advance (dst :: so) (g - s0.hart.vstart.toNat))).upd (fun h => { h with vl := g })))
  | .stop s ds k t => s0.takeData s hdr n dst (cv ds) (fun s => .trap (stopped s k) t)
  | .int s ds k => s0.takeData s hdr n dst (cv ds) (fun s => (stopped s k).intTrap)
  | .hold s => .hold s

/-- The end of an instruction that writes no register by its elements. -/
def storeEnd (n : Nat) (so : List VOpd) (r : Elems) : Eff :=
  let stopped := fun (s : State) (k : Nat) =>
    (s.upd (·.advance so (k - s.hart.vstart.toNat))).upd (fun h => { h with vstart := BitVec.ofNat 16 k })
  match r with
  | .all s _ => .next (s.upd (·.advance so (n - s.hart.vstart.toNat)))
  | .trim s _ g => .next ((s.upd (·.advance so (g - s.hart.vstart.toNat))).upd (fun h => { h with vl := g }))
  | .stop s _ k t => .trap (stopped s k) t
  | .int s _ k => (stopped s k).intTrap
  | .hold s => .hold s

/-- A memory instruction after its checks of step 4 (R354): its index operands, the checks `pre` from AL of every active element (R120) on, then its data
operands, whose elements perform as they are fetched, then `k`. The data operands come first in `src`. -/
def memRun (hdr : Hdr) (bad03 bad07 : Hart → Bool) (masked : Bool) (data ixs dsts : Hart → List VOpd) (n : Hart → Nat)
    (elems : Hart → (Nat → Nat → Nat) → List RElem) (pre : State → (Nat → Nat → Nat) → List RElem → Except Trap Unit)
    (k : State → List VOpd → List RElem → Except Trap Eff) (s : State) : Host.Outcome State Fault Refusal :=
  runInstr hdr s (fun s =>
    let h := s.hart
    let so := data h ++ ixs h
    let blank := (data h).map (fun _ => ([] : List Nat))
    match stepFour hdr h (bad03 h) (bad07 h) masked so (dsts h) with
    | .error t => .error t
    | .ok _ =>
      match s.fetchSources (n h) (ixs h) [] with
      | (_, .error e) => .ok e
      | (s1, .ok ixVals) =>
        let src := s1.hart.srcVal so (blank ++ ixVals)
        match pre s1 src (elems s1.hart src) with
        | .error t => .error t
        | .ok _ =>
          match s1.fetchSources (n h) (data h) [] with
          | (_, .error e) => .ok e
          | (s2, .ok vals) => k s2 so (elems s2.hart (s2.hart.srcVal so (vals ++ ixVals))))

/-- AL is the only check of an instruction's addresses. -/
def addrCheck (_ : State) (_ : Nat → Nat → Nat) (es : List RElem) : Except Trap Unit := alignedAll es

/-- AL of the elements, then another check. -/
def thenCheck (es : List RElem) (c : Except Trap Unit) : Except Trap Unit :=
  match alignedAll es with
  | .error t => .error t
  | .ok _ => c

/-! ### Loads and stores (R119 to R127) -/

/-- Bytes of an element: one for a half byte (R119). -/
def Hart.elemBytes (h : Hart) : Nat := max 1 (h.sew / 8)

/-- The byte address of element i in unit mode (R119). -/
def Hart.unitAddr (h : Hart) (a : Reg5) (i : Nat) : Word := h.gs a + BitVec.ofNat 64 (i * h.sew / 8)

/-- The byte address of element i in strided mode (R119). -/
def Hart.strideAddr (h : Hart) (a b : Reg5) (i : Nat) : Word := h.gs a + h.gs b * BitVec.ofNat 64 i

/-- The index width of a code (R119). -/
def indexWidth (c : BitVec 4) : Nat := 8 * 2 ^ (c.toNat % 4)

/-- The route of a unit access: its pages, and the interlock entry over elements 0 to n - 1, whatever the mask (R121, R172). -/
def Hart.unitRoute (h : Hart) (a : Reg5) (n bits : Nat) : Route := .pages (h.gs a) ((n * bits + 7) / 8)

/-- The route of a strided access. -/
def Hart.strideRoute (h : Hart) (a b : Reg5) (n : Nat) : Route :=
  let r := spanOf (h.gs a) (h.gs b) n h.elemBytes
  .pages r.1 r.2

/-- The route of elements that are translated one by one (R121). -/
def gatherRoute (_ : Hart) : Route := .translate

/-- A loaded datum as an element: the nibble of a half byte (R119). -/
def Hart.loaded (h : Hart) (i d : Nat) : Nat := if h.sew = 4 then d / 16 ^ (i % 2) % 16 else d

/-- A load (R122): `addr` gives the address of element i from the index operand, which is source operand 0 where there is one. -/
def vloadOp (hdr : Hdr) (noNib trims : Bool) (d : Reg5) (idx : Hart → List VOpd) (m : Reg3) (route : Hart → Route)
    (addr : Hart → (Nat → Nat → Nat) → Nat → Word) (s : State) : Host.Outcome State Fault Refusal :=
  memRun hdr (fun h => noNib && h.sew == 4) (fun h => anyOverlap (idx h) [h.opd d]) (m != 0) (fun _ => []) idx (fun h => [h.opd d]) (·.vl)
    (fun h src => (h.activeMem m h.vl).map (fun i => ⟨i, addr h src i, h.elemBytes, .load, 0, 0⟩)) addrCheck
    (fun s so es => .ok (loadEnd s hdr s.hart.vl so (s.hart.opd d) s.hart.loaded (s.runElems hdr (route s.hart) true trims s.hart.vl es))) s

/-- `vld` (R122). -/
def execVld (d a : Reg5) (m : Reg3) (j : BitVec 1) (s : State) : Host.Outcome State Fault Refusal :=
  vloadOp (vhdr (wVld d a m j) .vlsu j) false false d (fun _ => []) m (fun h => h.unitRoute a h.vl h.sew) (fun h _ i => h.unitAddr a i) s

/-- `vlds` (R122). -/
def execVlds (d a b : Reg5) (m : Reg3) (j : BitVec 1) (s : State) : Host.Outcome State Fault Refusal :=
  vloadOp (vhdr (wVlds d a b m j) .vlsu j) true false d (fun _ => []) m (fun h => h.strideRoute a b h.vl) (fun h _ i => h.strideAddr a b i) s

/-- `vldx` (R122, R123). -/
def execVldx (d a b : Reg5) (m : Reg3) (j : BitVec 1) (w : BitVec 4) (s : State) : Host.Outcome State Fault Refusal :=
  vloadOp { vhdr (wVldx d a b m j w) .vlsu j with bad07 := d == b } true false d (fun h => [h.opdW b (indexWidth w)]) m gatherRoute
    (fun h src i => h.gs a + BitVec.ofNat 64 (src 0 i)) s

/-- `vld.ff` (R124). -/
def execVldFf (d a : Reg5) (m : Reg3) (j : BitVec 1) (s : State) : Host.Outcome State Fault Refusal :=
  vloadOp (vhdr (wVldFf d a m j) .vlsu j) false true d (fun _ => []) m (fun h => h.unitRoute a h.vl h.sew) (fun h _ i => h.unitAddr a i) s

/-- The N of a whole-register access: bytes of the group (R122). -/
def Hart.wholeBytes (h : Hart) : Nat := h.lmul * 64 * h.lanes

/-- `vldw` (R122). -/
def execVldw (d a : Reg5) (j : BitVec 1) (s : State) : Host.Outcome State Fault Refusal :=
  let hdr := vhdr (wVldw d a j) .vlsu j
  let dst := fun (h : Hart) => (⟨d, h.lmul, 8⟩ : VOpd)
  memRun hdr (fun _ => false) (fun _ => false) false (fun _ => []) (fun _ => []) (fun h => [dst h]) Hart.wholeBytes
    (fun h _ => (h.activeMem 0 h.wholeBytes).map (fun i => ⟨i, h.gs a + BitVec.ofNat 64 i, 1, .load, 0, 0⟩)) addrCheck
    (fun s so es => .ok (loadEnd s hdr s.hart.wholeBytes so (dst s.hart) (fun _ d => d)
      (s.runElems hdr (s.hart.unitRoute a s.hart.wholeBytes 8) true false s.hart.wholeBytes es))) s

/-- The store of element i (R119, R126): a byte's half at SEW 4. -/
def Hart.storeElem (h : Hart) (i : Nat) (a : Word) (x : Nat) : RElem :=
  if h.sew = 4 then ⟨i, a, 1, .nibble (i % 2 == 1), x, 0⟩ else ⟨i, a, h.elemBytes, .store, x, 0⟩

/-- A store (R126): the stored group is source operand 0, an index group source operand 1. -/
def vstoreOp (hdr : Hdr) (noNib : Bool) (v : Reg5) (idx : Hart → List VOpd) (m : Reg3) (route : Hart → Route)
    (addr : Hart → (Nat → Nat → Nat) → Nat → Word) (s : State) : Host.Outcome State Fault Refusal :=
  memRun hdr (fun h => noNib && h.sew == 4) (fun _ => false) false (fun h => [h.opd v]) idx (fun _ => []) (·.vl)
    (fun h src => (h.activeMem m h.vl).map (fun i => h.storeElem i (addr h src i) (src 0 i))) addrCheck
    (fun s so es => .ok (storeEnd s.hart.vl so (s.runElems hdr (route s.hart) true false s.hart.vl es))) s

/-- `vst` (R126). -/
def execVst (v a : Reg5) (m : Reg3) (j : BitVec 1) (s : State) : Host.Outcome State Fault Refusal :=
  vstoreOp (vhdr (wVst v a m j) .vlsu j) false v (fun _ => []) m (fun h => h.unitRoute a h.vl h.sew) (fun h _ i => h.unitAddr a i) s

/-- `vsts` (R126). -/
def execVsts (v a b : Reg5) (m : Reg3) (j : BitVec 1) (s : State) : Host.Outcome State Fault Refusal :=
  vstoreOp (vhdr (wVsts v a b m j) .vlsu j) true v (fun _ => []) m (fun h => h.strideRoute a b h.vl) (fun h _ i => h.strideAddr a b i) s

/-- `vstx` (R126). -/
def execVstx (v a b : Reg5) (m : Reg3) (j : BitVec 1) (w : BitVec 4) (s : State) : Host.Outcome State Fault Refusal :=
  vstoreOp (vhdr (wVstx v a b m j w) .vlsu j) true v (fun h => [h.opdW b (indexWidth w)]) m gatherRoute
    (fun h src i => h.gs a + BitVec.ofNat 64 (src 1 i)) s

/-- `vstw` (R126). -/
def execVstw (v a : Reg5) (j : BitVec 1) (s : State) : Host.Outcome State Fault Refusal :=
  let hdr := vhdr (wVstw v a j) .vlsu j
  memRun hdr (fun _ => false) (fun _ => false) false (fun h => [⟨v, h.lmul, 8⟩]) (fun _ => []) (fun _ => []) Hart.wholeBytes
    (fun h src => (h.activeMem 0 h.wholeBytes).map (fun i => ⟨i, h.gs a + BitVec.ofNat 64 i, 1, .store, src 0 i, 0⟩)) addrCheck
    (fun s so es => .ok (storeEnd s.hart.wholeBytes so (s.runElems hdr (s.hart.unitRoute a s.hart.wholeBytes 8) true false s.hart.wholeBytes es))) s

/-! ### Atomics (R128, R129) -/

/-- The TKR trap of an instruction that may not leave a ticket outstanding (R330). -/
def State.tkrCheck (s : State) (on : Bool) : Except Trap Unit :=
  require (!on || s.outstanding s.hart == 0) ⟨0x07, BitVec.ofNat 64 (s.outstanding s.hart)⟩

/-- `vamo` (R128): a rel or ar order traps TKR with a ticket outstanding, and performs the hart's earlier accesses first; its own elements have reported, and so performed,
when it ends (R230). -/
def vamoOp (hdr : Hdr) (code : Nat) (flt : Bool) (v a b : Reg5) (m : Reg3) (o : BitVec 3) (s : State) : Host.Outcome State Fault Refusal :=
  let rel := o.getLsbD 1
  memRun { hdr with bad07 := v == b } (fun h => (h.sew != 32 && h.sew != 64) || (flt && !(h.fmt == 2 && h.sew == 32)))
    (fun h => anyOverlap [h.opd b] [h.opd v]) false (fun h => [h.opd v]) (fun h => [h.opd b]) (fun _ => []) (·.vl)
    (fun h src => (h.activeMem m h.vl).map (fun i =>
      ⟨i, h.gs a + BitVec.ofNat 64 (src 1 i), h.sew / 8, .vamo code (h.vtype.toNat / 4096 % 8) false, src 0 i, 0⟩))
    (fun s _ es => thenCheck es (s.tkrCheck (rel && s.hart.cur.isEmpty)))
    (fun s so es =>
      if rel && s.hart.cur.isEmpty && s.engineBusy s.hart.id then .ok (.hold (s.stalled .held))
      else
        let s1 := if rel then s.drainAll s.hart.id else s
        .ok (storeEnd s1.hart.vl so ((s1.runElems hdr .translate true false s1.hart.vl es).mapState State.drainEntry))) s

/-- `vamo.add` (R128). -/
def execVamoAdd (v a b : Reg5) (m : Reg3) (o : BitVec 3) (j : BitVec 1) (s : State) : Host.Outcome State Fault Refusal :=
  vamoOp (vhdr (wVamoAdd v a b m o j) .vlsu j) 0 false v a b m o s

/-- `vamo.min` (R128). -/
def execVamoMin (v a b : Reg5) (m : Reg3) (o : BitVec 3) (j : BitVec 1) (s : State) : Host.Outcome State Fault Refusal :=
  vamoOp (vhdr (wVamoMin v a b m o j) .vlsu j) 1 false v a b m o s

/-- `vamo.max` (R128). -/
def execVamoMax (v a b : Reg5) (m : Reg3) (o : BitVec 3) (j : BitVec 1) (s : State) : Host.Outcome State Fault Refusal :=
  vamoOp (vhdr (wVamoMax v a b m o j) .vlsu j) 2 false v a b m o s

/-- `vamo.and` (R128). -/
def execVamoAnd (v a b : Reg5) (m : Reg3) (o : BitVec 3) (j : BitVec 1) (s : State) : Host.Outcome State Fault Refusal :=
  vamoOp (vhdr (wVamoAnd v a b m o j) .vlsu j) 3 false v a b m o s

/-- `vamo.or` (R128). -/
def execVamoOr (v a b : Reg5) (m : Reg3) (o : BitVec 3) (j : BitVec 1) (s : State) : Host.Outcome State Fault Refusal :=
  vamoOp (vhdr (wVamoOr v a b m o j) .vlsu j) 4 false v a b m o s

/-- `vamo.xor` (R128). -/
def execVamoXor (v a b : Reg5) (m : Reg3) (o : BitVec 3) (j : BitVec 1) (s : State) : Host.Outcome State Fault Refusal :=
  vamoOp (vhdr (wVamoXor v a b m o j) .vlsu j) 5 false v a b m o s

/-- `vamo.swp` (R128). -/
def execVamoSwp (v a b : Reg5) (m : Reg3) (o : BitVec 3) (j : BitVec 1) (s : State) : Host.Outcome State Fault Refusal :=
  vamoOp (vhdr (wVamoSwp v a b m o j) .vlsu j) 6 false v a b m o s

/-- `vamo.fadd` (R128). -/
def execVamoFadd (v a b : Reg5) (m : Reg3) (o : BitVec 3) (j : BitVec 1) (s : State) : Host.Outcome State Fault Refusal :=
  vamoOp (vhdr (wVamoFadd v a b m o j) .vlsu j) 7 true v a b m o s

/-- `vamo.fmax` (R128). -/
def execVamoFmax (v a b : Reg5) (m : Reg3) (o : BitVec 3) (j : BitVec 1) (s : State) : Host.Outcome State Fault Refusal :=
  vamoOp (vhdr (wVamoFmax v a b m o j) .vlsu j) 8 true v a b m o s

/-- `vgmb.t` (R113): an indexed load of 32-bit words at 4 × idx. -/
def execVgmbT (d a b : Reg5) (m : Reg3) (j : BitVec 1) (s : State) : Host.Outcome State Fault Refusal :=
  let hdr := { vhdr (wVgmbT d a b m j) .vlsu j with bad07 := d == a }
  memRun hdr (fun h => h.sew != 32) (fun h => anyOverlap [h.opd a] [h.opd d]) (m != 0) (fun _ => []) (fun h => [h.opd a]) (fun h => [h.opd d]) (·.vl)
    (fun h src => (h.activeMem m h.vl).map (fun i => ⟨i, h.gs b + BitVec.ofNat 64 (4 * src 0 i), 4, .load, 0, 0⟩)) addrCheck
    (fun s so es => .ok (loadEnd s hdr s.hart.vl so (s.hart.opd d) (fun _ d => d) (s.runElems hdr .translate true false s.hart.vl es))) s

/-! ### Lane-private slices (R167, R168) -/

/-- The byte of a slice that element i lies in (R167): `L * 8192 + a`. -/
def Hart.sliceByte (h : Hart) (o i : Nat) : Nat :=
  i % 32 * 8192 + (if h.sew = 4 then (o + i / 64) % 8192 else (o + i / 32 * (h.sew / 8)) % 8192)

/-- A slice instruction's elements placed: they need no translation and never fault MF (R168). -/
def Hart.slicePlaced (h : Hart) (es : List RElem) : List Placed :=
  es.map (fun e => .loc e (locSlice (coreOf h.id) (e.addr.toNat % 2 ^ 62 / 8192) (e.addr.toNat % 8192)) false)

/-- The address under which a slice byte stands in the interlock: no memory address is equal to it. -/
def sliceVa (b : Nat) : Word := BitVec.ofNat 64 (2 ^ 62 + b)

/-- TVAL of a stop at a slice element: the slice byte (R168). -/
def sliceTval (r : Elems) : Elems :=
  match r with
  | .stop s ds k t => .stop s ds k { t with tval := BitVec.ofNat 64 (t.tval.toNat % 2 ^ 62) }
  | r => r

/-- AL of the slice offset (R168). -/
def Hart.sliceAligned (h : Hart) (o : Nat) : Except Trap Unit := require (o % h.elemBytes == 0) ⟨0x05, BitVec.ofNat 64 o⟩

/-- The slice offset: s[sa][12:0] (R166). -/
def Hart.sliceOff (h : Hart) (a : Reg5) : Nat := (h.gs a).toNat % 8192

/-- The elements of a slice instruction (R167). DESIGN CHOICE (log 39): `vlls` and `vsls` are of the partial-completion class, so that a reissue runs them under m7 (R138), though
they never fault MF. -/
def sliceElems (a : Reg5) (m : Reg3) (op : Hart → (Nat → Nat → Nat) → Nat → Word → RElem) (h : Hart) (src : Nat → Nat → Nat) : List RElem :=
  (h.activeMem m h.vl).map (fun i => op h src i (sliceVa (h.sliceByte (h.sliceOff a) i)))

/-- `vlls` (R167); at SEW 4 the nibble is (i div 32) mod 2. -/
def execVlls (d a : Reg5) (m : Reg3) (j : BitVec 1) (s : State) : Host.Outcome State Fault Refusal :=
  let hdr := vhdr (wVlls d a m j) .vlsu j
  memRun hdr (fun _ => false) (fun _ => false) (m != 0) (fun _ => []) (fun _ => []) (fun h => [h.opd d]) (·.vl)
    (sliceElems a m (fun h _ i va => ⟨i, va, h.elemBytes, .load, 0, 0⟩)) (fun s _ _ => s.hart.sliceAligned (s.hart.sliceOff a))
    (fun s so es =>
      let s1 := s.openLock s.hart.id (Route.translate.lines es)
      .ok (loadEnd s hdr s.hart.vl so (s.hart.opd d) (fun i x => s.hart.loaded (i / 32) x)
        (sliceTval (s1.runPlaced hdr .translate true false s1.hart.vl es (s1.hart.slicePlaced es))))) s

/-- `vsls` (R167). -/
def execVsls (v a : Reg5) (m : Reg3) (j : BitVec 1) (s : State) : Host.Outcome State Fault Refusal :=
  let hdr := vhdr (wVsls v a m j) .vlsu j
  memRun hdr (fun _ => false) (fun _ => false) false (fun h => [h.opd v]) (fun _ => []) (fun _ => []) (·.vl)
    (sliceElems a m (fun h src i va => { h.storeElem (i / 32) va (src 0 i) with idx := i })) (fun s _ _ => s.hart.sliceAligned (s.hart.sliceOff a))
    (fun s so es =>
      let s1 := s.openLock s.hart.id (Route.translate.lines es)
      .ok (storeEnd s1.hart.vl so (sliceTval (s1.runPlaced hdr .translate true false s1.hart.vl es (s1.hart.slicePlaced es))))) s

/-! ### Vector access at a peer (R316 to R318) -/

/-- A PVEC instruction (R316): MF by the precise regime through an invalid peer register, at the address of element VSTART (R318). -/
def peerRun (hdr : Hdr) (bad03 bad07 : Hart → Bool) (masked : Bool) (data ixs dsts : Hart → List VOpd) (k : BitVec 4)
    (addr : Hart → (Nat → Nat → Nat) → Nat → Word) (m : Reg3) (elem : Hart → (Nat → Nat → Nat) → Nat → Word → RElem)
    (fin : State → List VOpd → Elems → Eff) (s : State) : Host.Outcome State Fault Refusal :=
  memRun hdr (fun h => bad03 h || h.sew == 4) bad07 masked data ixs dsts (·.vl)
    (fun h src => (h.activeMem m h.vl).map (fun i => elem h src i (addr h src i)))
    (fun s src es => thenCheck es
      (require (decide (s.hart.vl ≤ s.hart.vstart.toNat) || (s.hart.peerRoute k).isSome) ⟨0x04, addr s.hart src s.hart.vstart.toNat⟩))
    (fun s so es => .ok (fin s so (match s.hart.peerRoute k with
      | none => .all s []
      | some r => s.runElems hdr r true false s.hart.vl es))) s

/-- A peer load. -/
def ploadOp (hdr : Hdr) (d : Reg5) (idx : Hart → List VOpd) (m : Reg3) (k : BitVec 4)
    (addr : Hart → (Nat → Nat → Nat) → Nat → Word) (s : State) : Host.Outcome State Fault Refusal :=
  peerRun hdr (fun _ => false) (fun h => anyOverlap (idx h) [h.opd d]) (m != 0) (fun _ => []) idx (fun h => [h.opd d]) k addr m
    (fun h _ i a => ⟨i, a, h.elemBytes, .load, 0, 0⟩)
    (fun s so r => loadEnd s hdr s.hart.vl so (s.hart.opd d) (fun _ x => x) r) s

/-- A peer store or atomic: the data are source operand 0. -/
def pstoreOp (hdr : Hdr) (bad03 : Hart → Bool) (op : Hart → ROp) (v : Reg5) (idx : Hart → List VOpd) (m : Reg3) (k : BitVec 4)
    (addr : Hart → (Nat → Nat → Nat) → Nat → Word) (s : State) : Host.Outcome State Fault Refusal :=
  peerRun hdr bad03 (fun h => anyOverlap (idx h) [h.opd v]) false (fun h => [h.opd v]) idx (fun _ => []) k addr m
    (fun h src i a => ⟨i, a, h.elemBytes, op h, src 0 i, 0⟩)
    (fun s so r => storeEnd s.hart.vl so r) s

/-- `pvld` (R316). -/
def execPvld (d a : Reg5) (m : Reg3) (j : BitVec 1) (k : BitVec 4) (s : State) : Host.Outcome State Fault Refusal :=
  ploadOp (vhdr (wPvld d a m j k) .engine j) d (fun _ => []) m k (fun h _ i => h.unitAddr a i) s

/-- `pvldx` (R316). -/
def execPvldx (d a b : Reg5) (m : Reg3) (j : BitVec 1) (k : BitVec 4) (s : State) : Host.Outcome State Fault Refusal :=
  ploadOp { vhdr (wPvldx d a b m j k) .engine j with bad07 := d == b } d (fun h => [h.opd b]) m k
    (fun h src i => h.gs a + BitVec.ofNat 64 (src 0 i)) s

/-- `pvst` (R316). -/
def execPvst (v a : Reg5) (m : Reg3) (j : BitVec 1) (k : BitVec 4) (s : State) : Host.Outcome State Fault Refusal :=
  pstoreOp (vhdr (wPvst v a m j k) .engine j) (fun _ => false) (fun _ => .store) v (fun _ => []) m k (fun h _ i => h.unitAddr a i) s

/-- `pvstx` (R316). -/
def execPvstx (v a b : Reg5) (m : Reg3) (j : BitVec 1) (k : BitVec 4) (s : State) : Host.Outcome State Fault Refusal :=
  pstoreOp { vhdr (wPvstx v a b m j k) .engine j with bad07 := v == b } (fun _ => false) (fun _ => .store) v (fun h => [h.opd b]) m k
    (fun h src i => h.gs a + BitVec.ofNat 64 (src 1 i)) s

/-- `pvamo.add` (R317): an f32 addition with FMT 2 at SEW 32. -/
def execPvamoAdd (v a b : Reg5) (m : Reg3) (j : BitVec 1) (k : BitVec 4) (s : State) : Host.Outcome State Fault Refusal :=
  pstoreOp { vhdr (wPvamoAdd v a b m j k) .engine j with bad07 := v == b } (fun h => h.sew != 32 && h.sew != 64)
    (fun h => .vamo 0 (h.vtype.toNat / 4096 % 8) (h.fmt == 2 && h.sew == 32)) v (fun h => [h.opd b]) m k
    (fun h src i => h.gs a + BitVec.ofNat 64 (src 1 i)) s

end Sys2Proof.Machine
end

