-- ==== Sys2Proof/Machine/Engine.lean ====
section
/-! DEFINITION. Copies, streams and block tables: `vcopy`, `vcopy.ff`, `vcopy.b` (08 R205 to R210), `qbind`, `qfree`, `qstat` (08 R211 to R215),
`qbind.f` (14 R350, R351) and `vxlt` (09 R232 to R234). -/

namespace Sys2Proof.Machine

open Sys2Proof

/-! ### Copies (R206, R207, R210) -/

/-- The read of element i of a copy. -/
def copyRead (src : Word) (n i : Nat) : RElem := ⟨i, src + BitVec.ofNat 64 (i * n), n, .load, 0, 0⟩
/-- The write of element i of a copy, its number told apart from the read's. -/
def copyWrite (dst : Word) (n i d : Nat) : RElem := ⟨i + 2 ^ 32, dst + BitVec.ofNat 64 (i * n), n, .store, d, 0⟩

/-- The lowest misaligned address of the active elements of a copy (R210). -/
def copyAligned (n : Nat) (as : List Word) : Except Trap Unit :=
  match (as.filter (fun a => a.toNat % n != 0)).map (·.toNat) with
  | [] => .ok ()
  | x :: xs => .error ⟨0x05, BitVec.ofNat 64 (xs.foldl min x)⟩

/-- The value that a copy writes where its source was read from `l`: with ranges that overlap only physically, any value that the source held
during the copy (R206). -/
def State.copyVal (s : State) (overlap : Bool) (l : Option Nat) (n d : Nat) : State × Nat :=
  match l with
  | none => (s, d)
  | some l =>
    let now := leNat (memRead n l s.mem)
    if overlap || now == d then (s, d) else if Config.pick s.free % 2 = 0 then (s.took, d) else (s.took, now)

/-- The location that a placed read reads. -/
def Placed.loc? : Placed → Option Nat
  | .loc _ l _ => some l
  | _ => none

/-- Performing the writes of a copy in ascending order; each has performed at core scope when the instruction retires (R206). -/
def State.copyWrites (s : State) (overlap : Bool) : List (Placed × Nat × Option Nat) → State
  | [] => s
  | (p, d, src) :: ps =>
    match p with
    | .loc e l _ =>
      let (s1, v) := s.copyVal overlap src e.n d
      let own := s1.hart.id
      let s2 := (s1.performElem own false l { e with data := v }).1
      (s2.drainV own (lastHit (fun q => q.hits l e.n) (s2.getHart own).vbuf 0 0)).copyWrites overlap ps
    | _ => s.copyWrites overlap ps

/-- Faults in the order of their elements, a read's before its write's. -/
def mergeFaults (is : List Nat) (rs ws : List (FaultElem × Bool)) : List (FaultElem × Bool) :=
  is.flatMap (fun i => rs.filter (fun f => f.1.idx == i) ++ ws.filter (fun f => f.1.idx == i))

/-- The place of the hart's `vcopy` or `vcopy.ff` among the copies of its cluster's engine, which processes them in the order of acceptance (R205). -/
def State.ownPlace (s : State) (c : Copy) : Bool := c.sync && c.hart == s.hart.id && c.pc == s.hart.pc && c.ctx == s.hart.ctxid

/-- The copies of the cluster's engine without the places of the hart. -/
def State.engineLeave (s : State) : State :=
  let k := clusterOf s.hart.id
  let x := s.getCluster k
  if x.copies.any (fun c => c.sync && c.hart == s.hart.id) then
    s.setCluster k { x with copies := x.copies.filter (fun c => !(c.sync && c.hart == s.hart.id)) }
  else s

/-- The hart's copy accepted: its place comes last, unless it has one. -/
def State.enginePlace (s : State) (word : IWord) : State :=
  let k := clusterOf s.hart.id
  let h := s.hart
  if (s.getCluster k).copies.any s.ownPlace then s
  else
    let s1 := s.engineLeave
    let x := s1.getCluster k
    s1.setCluster k { x with copies := x.copies ++
      [{ hart := h.id, bar := h.bar, ctx := h.ctxid, user := !h.super, n := 0, dst := 0, src := 0, toSave := [], saved := [], left := [], vl := 0,
         vstart := 0, word := word, pc := h.pc, reiss := h.reissue, wait := none, answer := [], asked := [], told := [], strip := h.strip, sync := true }] }

/-- A copy that the hart itself waits for, by way of the cluster's engine (R205): with 16 copies held it is not accepted; accepted, it waits until the copies
before it have finished. -/
def State.throughEngine (s : State) (word : IWord) (f : State → Eff) : Eff :=
  let cs := (s.getCluster (clusterOf s.hart.id)).copies
  if cs.any s.ownPlace = false && 16 ≤ cs.length then .hold (s.stalled .held)
  else if (cs.head?.map s.ownPlace).getD true then
    match f s with
    | .hold s1 => .hold (s1.enginePlace word)
    | .next s1 => .next s1.engineLeave
    | .jump s1 pc => .jump s1.engineLeave pc
    | .trap s1 t => .trap s1.engineLeave t
  else .hold ((s.enginePlace word).stalled .held)

/-- Performing the reads of a copy: those below the lowest fault, of which an uncorrectable error stops the copy (R140), then those above it. -/
def State.copyReads (s : State) (first : Nat) (rp : List Placed) : State × List (Nat × Nat) × RunEnd :=
  match s.performPlaced s.hart.id true (rp.filter (fun p => decide (elemNo p.elem < first))) with
  | (s1, ds, .done) =>
    let (s2, ds2, _) := s1.performPlaced s.hart.id false (rp.filter (fun p => decide (first ≤ elemNo p.elem)))
    (s2, ds ++ ds2, .done)
  | r => r

/-- The local source elements of a copy that have been read count as answered: their values stand (R206). -/
def State.keepReads (s : State) (ds : List (Nat × Nat)) (rp : List Placed) : State :=
  s.upd (fun h => { h with answers := h.answers ++ rp.filterMap (fun p =>
    match p with
    | .loc e _ st => (tabGet ds e.idx).map (fun d => (e.idx, RAns.done d st))
    | _ => none) })

/-- The element at VSTART of a reissued copy that asks other packages for elements: it performs before any other does (R139, R320). None where it has. Where the ranges overlap, the
sources that its write may reach are read before it (R206): they are local where it is, and remote where it is. -/
def State.copyFirst (s0 : State) (overlap : Bool) (vst first : Nat) (rp wp : List Placed) : Option Eff :=
  let own := s0.hart.id
  match rp.find? (fun p => elemNo p.elem == vst), wp.find? (fun p => elemNo p.elem == vst) with
  | some (.need _ pkg e), some _ => some (.hold (s0.sendPackets own 0 [(pkg, e)]))
  | some r, some w =>
    if overlap && needsOf [w] != [] && needsOf rp != [] then some (.hold (s0.sendPackets own 0 (needsOf rp))) else
    let s := if overlap then
        let (s1, ds, _) := s0.copyReads first rp
        s1.keepReads ds rp
      else s0
    let r := match tabGet s.hart.answers r.elem.idx with
      | some a => placedOf r.elem 0 r.elem (answerRes a)
      | none => r
    match s.performPlaced own true [r] with
    | (s1, [(_, d)], .done) =>
      match w with
      | .need _ pkg e => some (.hold (s1.sendPackets own 0 [(pkg, { e with data := d })]))
      | .loc e l st =>
        let s2 := (s1.performElem own false l { e with data := d }).1
        let s3 := s2.drainWhere own (fun q => q.hits l e.n)
        some (.hold (s3.upd (fun h => { h with answers := h.answers ++ [(e.idx, .done 0 st)] })))
      | _ => none
    | _ => none
  | _, _ => none

/-- `vcopy` and `vcopy.ff` (R206, R207) over the active elements `is`, ascending: reads and writes are placed before any performs. A copy whose ranges overlap
does not stop for a request, since its destination bytes take the values from before it began. -/
def State.runCopy (s : State) (hdr : Hdr) (trims : Bool) (n : Nat) (dst src : Word) (is : List Nat) : Eff :=
  let own := s.hart.id
  let vl := s.hart.vl
  let reads := is.map (copyRead src n)
  let stores := is.map (fun i => copyWrite dst n i 0)
  let overlap := rangesOverlap dst src (vl * n)
  let (s1, rp) := s.placeAll own .translate reads
  let (s2, wp) := s1.placeAll own .translate stores
  let fs := mergeFaults is (faultsOf rp) (faultsOf wp)
  let first := (fs.head?.map (·.1.idx)).getD (2 ^ 32)
  let stop := if overlap then none else s2.hart.stopOf reads (rp ++ wp)
  let below := fun (e : Nat × RElem) => decide (elemNo e.2 < stop.getD (2 ^ 32))
  let askR := (needsOf rp).filter below
  let askW := (needsOf wp).filter below
  match (if s2.hart.reissue && (askR ++ askW) ≠ [] then s2.copyFirst overlap s2.hart.vstart.toNat first rp wp else none) with
  | some e => e
  | none =>
    if askR ≠ [] then .hold (s2.sendPackets own 0 askR)
    else
      let (s3, ds, rend) := s2.copyReads first (rp.filter (fun p => decide (elemNo p.elem < stop.getD (2 ^ 32))))
      let limit := match rend with
        | .ecc e _ => e.idx
        | .done => stop.getD (2 ^ 32)
      let datum := fun i => (tabGet ds i).getD 0
      let canRead := fun (p : Placed) => (tabGet ds (elemNo p.elem)).isSome
      let want := (needsOf (wp.filter (fun p => canRead p && decide (elemNo p.elem < limit)))).map (fun (x : Nat × RElem) => (x.1, { x.2 with data := datum (elemNo x.2) }))
      if want ≠ [] then .hold ((if overlap then s3.keepReads ds rp else s3).sendPackets own 0 want)
      else
        let writes := fun (k : Nat) => (wp.filter (fun p => canRead p && decide (elemNo p.elem < k))).map (fun p =>
          (p, datum (elemNo p.elem), (rp.find? (fun q => elemNo q.elem == elemNo p.elem)).bind Placed.loc?))
        let atStop := fun (s : State) (k : Nat) => s.upd (fun h => { h with vstart := BitVec.ofNat 16 k })
        match stop, rend with
        | _, .ecc e l => .trap (atStop ((s3.copyWrites overlap (writes e.idx)).eccAt own l) e.idx) ⟨0x0C, e.addr⟩
        | some k, .done => (atStop (s3.copyWrites overlap (writes k)) k).intTrap
        | none, .done =>
          match (if trims then trimPoint s3.free is (is.headD 0) (fs.head?.map (·.1.idx)) vl else none) with
          | some g => .next ((s3.took.copyWrites overlap (writes g)).upd (fun h => { h with vl := g }))
          | none =>
            let s4 := s3.copyWrites overlap (writes (2 ^ 32))
            if fs = [] then .next s4
            else
              let (s5, first, t) := s4.partialStop .translate hdr vl s4.hart.vstart.toNat (reads ++ stores) fs
              .trap (atStop s5 first) t

/-- A copy of the hart: it waits for an unfinished one that covers its bytes (R172), makes its interlock entry over both ranges, and goes through the engine. -/
def State.startCopy (s : State) (hdr : Hdr) (trims : Bool) (n : Nat) (dst src : Word) (is : List Nat) : Eff :=
  let range := s.hart.vl * n
  if s.copyBlocks s.hart.id (is.flatMap (fun i => [copyRead src n i, copyWrite dst n i 0])) then .hold (s.stalled .held)
  else s.throughEngine hdr.word (fun s => (s.openLock s.hart.id (linesOf [(src, range), (dst, range)])).runCopy hdr trims n dst src is)

/-- The checks of a copy before its elements (R210), then `k` with the element bytes, the addresses and the active elements. -/
def copyRun (hdr : Hdr) (d a : Reg5) (m : Reg3) (k : State → Nat → Word → Word → List Nat → Eff) (s : State) : Host.Outcome State Fault Refusal :=
  runInstr hdr s (fun s =>
    let h := s.hart
    let n := h.sew / 8
    let is := h.activeMem m h.vl
    match require (h.sew != 4) (hdr.ill 0x03) with
    | .error t => .error t
    | .ok _ =>
      match copyAligned n (is.flatMap (fun i => [(copyRead (h.gs a) n i).addr, (copyWrite (h.gs d) n i 0).addr])) with
      | .error t => .error t
      | .ok _ => .ok (k s n (h.gs d) (h.gs a) is))

/-- `vcopy` (R206). -/
def execVcopy (d a : Reg5) (m : Reg3) (j : BitVec 1) (s : State) : Host.Outcome State Fault Refusal :=
  let hdr := vhdr (wVcopy d a m j) .engine j
  copyRun hdr d a m (fun s n dst src is => s.startCopy hdr false n dst src is) s

/-- `vcopy.ff` (R207). -/
def execVcopyFf (d a : Reg5) (m : Reg3) (j : BitVec 1) (s : State) : Host.Outcome State Fault Refusal :=
  let hdr := vhdr (wVcopyFf d a m j) .engine j
  copyRun hdr d a m (fun s n dst src is => s.startCopy hdr true n dst src is) s

/-- `vcopy.b` (R208): retires when the cluster's engine, which holds 16 copies, has accepted it (R205). -/
def execVcopyB (d a : Reg5) (m : Reg3) (j : BitVec 1) (s : State) : Host.Outcome State Fault Refusal :=
  let hdr := vhdr (wVcopyB d a m j) .engine j
  copyRun hdr d a m (fun s n dst src is =>
    let h := s.hart
    let c := s.getCluster (clusterOf h.id)
    if is.isEmpty then .next s
    else if 16 ≤ c.copies.length || s.copyBlocks h.id (is.flatMap (fun i => [copyRead src n i, copyWrite dst n i 0])) then .hold (s.stalled .held)
    else
      .next (s.setCluster (clusterOf h.id) { c with copies := c.copies ++
        [{ hart := h.id, bar := h.bar, ctx := h.ctxid, user := !h.super, n := n, dst := dst, src := src,
           toSave := if rangesOverlap dst src (h.vl * n) then is else [], saved := [], left := is, vl := h.vl, vstart := h.vstart.toNat,
           word := hdr.word, pc := h.pc, reiss := h.reissue, wait := none, answer := [], asked := [], told := [], strip := h.strip, sync := false }] })) s

/-! ### Stream records (R211, R214, R232, R235, R350, R351) -/

/-- What binding a stream comes to. -/
inductive Bound where
  | ok (s : State) (st : Stream)
  | trap (s : State) (t : Trap)
  | hold (s : State)

/-- A block table record (R232, R234): its fields TABLE, RSTRIDE and NBLK, by the precise regime. DESIGN CHOICE (log 39): a record with NBLK above the 2^32 of Table 9-8, for which R234
names no trap, is used as it stands. -/
def State.readTable (s : State) (hdr : Hdr) (idx : Nat) (va : Word) : RecRes :=
  if va.toNat % 32 ≠ 0 then .trap s ⟨0x05, va⟩
  else
    match s.readRecord idx va 32 with
    | .ok s1 r =>
      if field r 0x18 8 ≠ 0 || field r 0x10 8 = 0 || field r 0x08 8 % 8 ≠ 0 || field r 0x00 8 % 8 ≠ 0 then .trap s1 (hdr.ill 0x03) else .ok s1 r
    | r => r

/-- The fields of a stream record break its layout (R214). -/
def streamRecordBad (r : Nat) : Bool :=
  let mode := field r 0x20 4 % 4
  let out := (field r 0x20 4).testBit 2
  let sew := field r 0x20 4 / 8 % 8
  field r 0x24 28 != 0 || field r 0x20 4 / 2 ^ 6 != 0 || mode == 3 || (mode == 2 && out) || sew == 0 || decide (4 < sew) ||
  field r 0x10 8 == 0 || decide (2 ^ 48 < field r 0x10 8) || (mode != 2 && field r 0x18 8 != 0) || (mode == 0 && field r 0x08 8 != 0)

/-- Reading a stream record at `va` and the block table record of an indirect one (R212, R235). -/
def State.readStream (s : State) (hdr : Hdr) (idx : Nat) (va : Word) : Bound :=
  if va.toNat % 64 ≠ 0 then .trap s ⟨0x05, va⟩
  else
    match s.readRecord idx va 64 with
    | .trap s1 t => .trap s1 t
    | .hold s1 => .hold s1
    | .ok s1 r =>
      if streamRecordBad r then .trap s1 (hdr.ill 0x03)
      else
        let f := field r 0x20 4
        let st : Stream :=
          { recAddr := va, fabric := false, peer := 0, group := none, mode := BitVec.ofNat 2 f, out := f.testBit 2, sew := BitVec.ofNat 3 (f / 8),
            base := BitVec.ofNat 64 (field r 0x00 8), stride := BitVec.ofNat 64 (field r 0x08 8), count := field r 0x10 8,
            pos := BitVec.ofNat 64 (field r 0x18 8), table := 0, rstride := 0, nblk := 0, flaga := 0, seq := 0, done := 0, fetched := [],
            flt := none }
        if st.mode = 2 then
          match s1.readTable hdr (idx + 1) st.base with
          | .trap s2 t => .trap s2 t
          | .hold s2 => .hold s2
          | .ok s2 b => .ok s2 { st with table := BitVec.ofNat 64 (field b 0x00 8), rstride := BitVec.ofNat 64 (field b 0x08 8), nblk := field b 0x10 8 }
        else .ok s1 st

/-- The fields of a fabric stream record break its layout (R351). -/
def fabricRecordBad (r : Nat) (k : BitVec 4) : Bool :=
  let f := field r 0x20 4
  field r 0x24 28 != 0 || f / 2 ^ 11 != 0 || f / 2 ^ 6 % 4 != 0 || f % 4 != 0 || f / 8 % 8 == 0 || decide (4 < f / 8 % 8) ||
  field r 0x08 8 == 0 || decide (2 ^ 40 < field r 0x08 8) || field r 0x18 8 == 0 || field r 0x10 8 % 8 != 0 || (!f.testBit 2 && k != 0)

/-- Reading a fabric stream record (R350, R351); `fresh` where `qbind.f` binds it, so that its group and peer register have to be valid. The
address that MF reports for an invalid peer register is not stated (log 20). -/
def State.readFabric (s : State) (hdr : Hdr) (fresh : Bool) (idx : Nat) (va : Word) (k : BitVec 4) : Bound :=
  if va.toNat % 64 ≠ 0 then .trap s ⟨0x05, va⟩
  else
    match s.readRecord idx va 64 with
    | .trap s1 t => .trap s1 t
    | .hold s1 => .hold s1
    | .ok s1 r =>
      let f := field r 0x20 4
      let g := BitVec.ofNat 2 (f / 2 ^ 8)
      let gr := s1.hart.groups.getD g.toNat Group.init
      if fabricRecordBad r k then .trap s1 (hdr.ill 0x03)
      else if fresh && f.testBit 10 && (!gr.v || gr.ab) then .trap s1 ⟨0x0D, BitVec.ofNat 64 g.toNat⟩
      else if fresh && f.testBit 2 && (s1.hart.peerRoute k).isNone then .trap s1.took ⟨0x04, Config.value s1.free⟩
      else
        .ok s1 { recAddr := va, fabric := true, peer := k, group := if f.testBit 10 then some g else none, mode := 0, out := f.testBit 2,
                 sew := BitVec.ofNat 3 (f / 8), base := BitVec.ofNat 64 (field r 0x00 8), stride := 0, count := field r 0x08 8, pos := 0, table := 0,
                 rstride := 0, nblk := 0, flaga := BitVec.ofNat 64 (field r 0x10 8), seq := BitVec.ofNat 64 (field r 0x18 8), done := 0,
                 fetched := [], flt := none }

/-- A stream set for a register v24 to v31. -/
def Hart.setStream (h : Hart) (n : Reg5) (st : Option Stream) : Hart := { h with streams := h.streams.setIfInBounds (n.toNat - 24) st }

/-- `qfree` (R212): an output stream's elements perform; the register reads as zeros. -/
def State.freeStream (s : State) (n : Reg5) : State :=
  match s.hart.stream n with
  | none => s
  | some st =>
    let s1 := if st.out then s.drainV s.hart.id s.hart.vbuf.length else s
    s1.upd (fun h => { h.setStream n none with v := h.v.setIfInBounds n.toNat 0, bad := h.bad.filter (fun c => c / 512 != n.toNat) })

/-- The end of a binding instruction: the old binding is freed first (R212). -/
def State.bindEnd (n : Reg5) : Bound → Eff
  | .ok s st => .next ((s.freeStream n).upd (·.setStream n (some st)))
  | .trap s t => .trap s t
  | .hold s => .hold s

/-- `qbind` (R212); it waits until the hart's copies have performed (R172). -/
def execQbind (n a : Reg5) (j : BitVec 1) (s : State) : Host.Outcome State Fault Refusal :=
  let hdr := vhdr (wQbind n a j) .engine j
  runInstr hdr s (fun s =>
    if s.copyBusy s.hart.id then .ok (.hold (s.stalled .held)) else .ok (State.bindEnd n (s.readStream hdr 0 (s.gs a))))

/-- `qbind.f` (R350, R351). -/
def execQbindF (n a : Reg5) (j : BitVec 1) (k : BitVec 4) (s : State) : Host.Outcome State Fault Refusal :=
  let hdr := vhdr (wQbindF n a j k) .engine j
  runInstr hdr s (fun s =>
    if s.copyBusy s.hart.id then .ok (.hold (s.stalled .held)) else .ok (State.bindEnd n (s.readFabric hdr true 0 (s.gs a) k)))

/-- `qfree` (R212). -/
def execQfree (n : Reg5) (j : BitVec 1) (s : State) : Host.Outcome State Fault Refusal :=
  runInstr (vhdr (wQfree n j) .engine j) s (fun s => .ok (.next (s.freeStream n)))

/-- The `qstat` result (Table 8-6). -/
def Stream.status : Option Stream → Word
  | none => 0
  | some st =>
    BitVec.ofNat 64 (st.done % 2 ^ 32 * 2 ^ 32 + min st.fetched.length 65535 * 2 ^ 16 + (if st.flt.isSome && st.fetched.isEmpty then 8 else 0) +
      (if st.count ≤ st.done then 4 else 0) + (if st.out then 2 else 0) + 1)

/-- `qstat` (R212). -/
def execQstat (d n : Reg5) (j : BitVec 1) (s : State) : Host.Outcome State Fault Refusal :=
  runInstr { vhdr (wQstat d n j) .engine j with swrites := [d] } s (fun s => .ok (.next (s.ps d (Stream.status (s.hart.stream n)))))

/-! ### vxlt (R233, R234) -/

/-- The table entry's block base for a token, 0 for an unmapped one (R232, R233): `ds` are the entries that were read. -/
def tokenBase (ds : List (Nat × Nat)) (i : Nat) : Nat := (tabGet ds i).getD 0 / 64 * 64

/-- The row address of a token (R233). -/
def rowAddr (base rstride t : Nat) : Nat := if base = 0 then 0 else (base + t % 32 * rstride) % 2 ^ 64

/-- `vxlt` and `vxlt.ff` (R233): the active elements `is` with their tokens; the table reads are those of blocks below NBLK. -/
def State.runXlt (s : State) (hdr : Hdr) (trims : Bool) (so : List VOpd) (dst : VOpd) (tok : Nat → Nat) (rec_ : Nat) (is : List Nat) : Eff :=
  let own := s.hart.id
  let vl := s.hart.vl
  let inTab := fun i => decide (tok i / 32 < field rec_ 0x10 8)
  let es := fun (is : List Nat) => (is.filter inTab).map (fun i =>
    (⟨i, BitVec.ofNat 64 (field rec_ 0x00 8 + 8 * (tok i / 32)), 8, .load, 0, 0⟩ : RElem))
  let rows := fun (is : List Nat) (ds : List (Nat × Nat)) => is.map (fun i => (i, rowAddr (tokenBase ds i) (field rec_ 0x08 8) (tok i)))
  let marks := fun (is : List Nat) (ds : List (Nat × Nat)) (ok : Nat → Bool) (s : State) =>
    s.upd (fun h => h.pmBits 7 ((is.filter ok).map (fun i => (i, tokenBase ds i == 0))))
  let all := fun (_ : Nat) => true
  let got := fun (ds : List (Nat × Nat)) => is.filter (fun i => !inTab i || (tabGet ds i).isSome)
  let low := fun (k : Nat) => is.filter (fun i => decide (i < k))
  let stopped := fun (s : State) (k : Nat) =>
    (s.upd (·.advance (dst :: so) (k - s.hart.vstart.toNat))).upd (fun h => { h with vstart := BitVec.ofNat 16 k })
  let full := fun (s : State) =>
    match s.runElems hdr .translate true false vl (es is) with
    | .all s1 ds => s1.putResult hdr vl so dst (rows is ds) (marks is ds)
    | .trim s1 _ _ => .hold s1
    | .stop s1 ds k t =>
      if t.cause = 0x0C then s.takeData s1 hdr vl dst (rows (low k) ds) (fun s => .trap (stopped (marks (low k) ds all s) k) t)
      else s.takeData s1 hdr vl dst (rows (got ds) ds) (fun s => .trap (stopped s k) t)
    | .int s1 ds k => s.takeData s1 hdr vl dst (rows (low k) ds) (fun s => (stopped (marks (low k) ds all s) k).intTrap)
    | .hold s1 => .hold s1
  if trims = false || s.copyBlocks own (es is) then full s
  else
    let (s1, ps) := s.placeAll own .translate (es is)
    let needs := needsOf ps
    if needs ≠ [] then
      match s1.askFor .translate s1.hart.vstart.toNat ps needs with
      | .hold s2 => .hold s2
      | _ => full s
    else
      let (s2, ds, _) := s1.performPlaced own true ps
      let bad := is.filter (fun i => !inTab i || (faultsOf ps).any (fun f => f.1.idx == i) ||
        ((tabGet ds i).isSome && tokenBase ds i == 0))
      match trimPoint s2.free is (is.headD 0) bad.head? vl with
      | none => full s2
      | some g =>
        match s2.took.runElems hdr .translate false false vl (es (low g)) with
        | .all s3 ds => s2.takeData s3 hdr vl dst (rows (low g) ds) (fun s =>
            .next ((s.upd (·.advance (dst :: so) (g - s.hart.vstart.toNat))).upd (fun h => { h with vl := g })))
        | .stop s3 ds k t => s2.takeData s3 hdr vl dst (rows (low k) ds) (fun s => .trap (stopped s k) t)
        | .trim s3 _ _ => .hold s3
        | .int s3 _ _ => .hold s3
        | .hold s3 => .hold s3

/-- `vxlt` and `vxlt.ff` after their checks (R234). DESIGN CHOICE (log 39): with no active element, VL 0 or VSTART at or above VL, the record is still read and checked. -/
def xltOp (hdr : Hdr) (trims : Bool) (d a b : Reg5) (m : Reg3) (s : State) : Host.Outcome State Fault Refusal :=
  runInstr hdr s (fun s =>
    let h := s.hart
    let so := [h.opd b]
    match stepFour hdr h (h.sew != 64) (partialOverlaps so [h.opd d]) (m != 0) so [h.opd d] with
    | .error t => .error t
    | .ok _ =>
      match s.readTable hdr 0 (h.gs a) with
      | .trap s1 t => .ok (.trap s1 t)
      | .hold s1 => .ok (.hold s1)
      | .ok s1 r =>
        match s1.fetchSources h.vl so [] with
        | (_, .error e) => .ok e
        | (s2, .ok vals) =>
          .ok ((s2.runXlt hdr trims so (s2.hart.opd d) (s2.hart.srcVal so vals 0) r (s2.hart.activeMem m s2.hart.vl)).keeps [(2 ^ 60, r)]))

/-- `vxlt` (R233). -/
def execVxlt (d a b : Reg5) (m : Reg3) (j : BitVec 1) (s : State) : Host.Outcome State Fault Refusal :=
  xltOp (vhdr (wVxlt d a b m j) .vlsu j) false d a b m s

/-- `vxlt.ff` (R233). -/
def execVxltFf (d a b : Reg5) (m : Reg3) (j : BitVec 1) (s : State) : Host.Outcome State Fault Refusal :=
  xltOp (vhdr (wVxltFf d a b m j) .vlsu j) true d a b m s

end Sys2Proof.Machine
end

