-- ==== Sys2Proof/Machine/Fabric.lean ====
section
/-! DEFINITION. Groups, collectives and abort (14 R342 to R349, R352, R353). -/

namespace Sys2Proof.Machine

open Sys2Proof

/-! ### Groups -/

/-- A group register of a hart. -/
def Hart.group (h : Hart) (g : BitVec 2) : Group := h.groups.getD g.toNat Group.init

/-- A group register set. -/
def Hart.setGroup (h : Hart) (g : BitVec 2) (x : Group) : Hart := { h with groups := h.groups.setIfInBounds g.toNat x }

/-- The port's record of a group of a context. -/
def State.portGroup (s : State) (ctx gid : BitVec 16) : Option PortGroup := s.groups.find? (fun p => p.ctx == ctx && p.gid == gid)

/-- The port's record of a group changed. -/
def State.updGroup (s : State) (ctx gid : BitVec 16) (f : PortGroup → PortGroup) : State :=
  { s with groups := s.groups.map (fun p => if p.ctx = ctx ∧ p.gid = gid then f p else p) }

/-- This package combines the group: it is that of rank 0 (R346). -/
def State.combinesHere (s : State) (ctx gid : BitVec 16) : Bool :=
  match s.portGroup ctx gid with
  | none => false
  | some p => match p.members with
    | [] => false
    | m :: _ => m.1 == s.pkg.toNat

/-- The ranks of the group's members on this package (R342). -/
def State.ranksHere (s : State) (p : PortGroup) : List Nat :=
  (List.range p.members.length).filter (fun r => (p.members.getD r (128, 0, 0)).1 == s.pkg.toNat)

/-- A hart has a valid group register of the group; its index. -/
def Hart.groupOf (h : Hart) (ctx gid : BitVec 16) : Option (BitVec 2) :=
  if h.ctxid = ctx then (([0, 1, 2, 3] : List (BitVec 2)).find? (fun g => (h.group g).v && (h.group g).gid == gid)) else none

/-- The member of a rank on this package. -/
def State.memberHart (s : State) (ctx gid : BitVec 16) (rank : Nat) : Option Hart :=
  s.allHarts.find? (fun h => match h.groupOf ctx gid with
    | none => false
    | some g => (h.group g).rank.toNat == rank)

/-! ### Abort (R348, R352, R353) -/

/-- Result bytes that were on their way to a hart may have come before the abort: its chunk becomes a part of one (R347). -/
def State.stray (s : State) (id : Nat) (c : Coll) : Coll :=
  s.agenda.foldl (fun c e =>
    match e with
    | .collectiveChunk k first data _ _ => if k = id then { c with got := c.got ++ data.mapIdx (fun j x => (first + j, x)) } else c
    | _ => c) c

/-- The hart's part of an abort (R348, R352, R353): AB, WHY and ORIG of its registers of the group, V cleared by a kill, and its unfinished
collective on the group ends. -/
def State.abortHart (s : State) (ctx gid : BitVec 16) (why : BitVec 2) (orig : BitVec 10) (h : Hart) : Hart :=
  if h.ctxid = ctx then
    let h1 := { h with groups := h.groups.map (fun g =>
      if g.v && g.gid == gid && !g.ab then { g with ab := true, why := why, orig := orig, v := why != 2 } else g) }
    match h.wait, h.coll with
    | .group _, some c =>
      if (h.group c.g).gid = gid && (h.group c.g).v then { h1 with wait := .none, resume := .aborted, coll := some (s.stray h.id c) } else h1
    | .credit _, _ => { h1 with wait := .none }
    | _, _ => h1
  else h

/-- A packet of a stream that is bound to a group (R351). -/
def ofGroup (ctx gid : BitVec 16) (p : Packet) : Bool := p.ctx == ctx && p.tag.bind (·.group) == some gid

/-- The packets of a group that have no answer yet are discarded (R352): a hart that waits for one of them as an appender goes on. -/
def State.discardSent (s : State) (ctx gid : BitVec 16) : State :=
  let gone := s.sent.filter (ofGroup ctx gid)
  ({ s with sent := s.sent.filter (fun p => !ofGroup ctx gid p) } : State).mapHarts (fun h =>
    match h.wait with
    | .remote n =>
      let k := gone.countP (fun p => p.src == s.pkg.toNat && p.hart == h.id)
      if k = 0 then h else { h with wait := if n ≤ k then .none else .remote (n - k) }
    | _ => h)

/-- A port applies an abort of a group, once (R348): its members here, the collective it combines, the packets of the group's streams on their way, and the chunks of those streams
whose counts are not full (R352). -/
def State.applyAbort (s : State) (ctx gid : BitVec 16) (why : BitVec 2) (orig : BitVec 10) : State :=
  match s.portGroup ctx gid with
  | none => s
  | some p =>
    if p.abort.isSome then s
    else
      let s1 := (s.discardSent ctx gid).mapHarts (s.abortHart ctx gid why orig)
      { s1.updGroup ctx gid (fun p => { p with abort := some (why, orig) }) with
        parked := s1.parked.map (fun k => { k with harts := k.harts.map (s.abortHart ctx gid why orig) }),
        combines := s1.combines.filter (fun c => !(c.ctx == ctx && c.gid == gid)),
        chunks := s1.chunks.filter (fun c => !(c.ctx == ctx && c.group == some gid && decide (c.got < c.want))) }

/-- `gabort` (R348). -/
def execGabort (n : BitVec 2) (j : BitVec 1) (s : State) : Host.Outcome State Fault Refusal :=
  runInstr (vhdr (wGabort n j) .engine j) s (fun s =>
    let g := s.hart.group n
    .ok (.next (if g.v then (s.applyAbort s.hart.ctxid g.gid 1 g.rank).emit (.abort s.hart.ctxid g.gid 1 g.rank) else s)))

/-- The `gstat` result (Table 14-4). -/
def Group.stat (g : Group) : Word :=
  BitVec.ofNat 64 ((if g.v then 2 ^ 63 else 0) + (if g.ab then 2 ^ 62 else 0) + g.why.toNat * 2 ^ 60 + g.last.toNat * 2 ^ 58 +
    g.orig.toNat * 2 ^ 48 + g.gid.toNat * 2 ^ 32 + g.rank.toNat * 2 ^ 16 + g.nm1.toNat)

/-- `gstat` (R349). -/
def execGstat (d : Reg5) (n : BitVec 2) (j : BitVec 1) (s : State) : Host.Outcome State Fault Refusal :=
  runInstr { vhdr (wGstat d n j) .engine j with swrites := [d] } s (fun s => .ok (.next (s.ps d (s.hart.group n).stat)))

/-! ### A member's side of a collective (R345 to R347) -/

/-- Members of a group register. -/
def Group.count (g : Group) : Nat := g.nm1.toNat + 1

/-- The elements of the destination of a collective. -/
def collDest (op p vl : Nat) : Nat := if op = 3 then p * vl else vl

/-- The elements of its source. -/
def collSrc (op p vl : Nat) : Nat := if op = 4 then p * vl else vl

/-- The format that a collective accepts (R345). -/
def Hart.collFmt (h : Hart) (op : Nat) : Bool :=
  if op = 3 || op = 5 then h.sew != 4
  else match h.fmt with
    | 0 => h.sew != 4
    | 1 => h.sew != 4
    | 2 => h.sew == 16 || h.sew == 32
    | 3 => true
    | _ => false

/-- LAST of a group register (Table 14-4). -/
def Hart.setLast (h : Hart) (g : BitVec 2) (x : BitVec 2) : Hart := h.setGroup g { h.group g with last := x }

/-- The elements of vd after an abort: of those whose result has come, any may hold it (R347). -/
def State.mixed (s : State) (dst : VOpd) : List (Nat × Nat) → State
  | [] => s
  | x :: xs =>
    let s1 := if Config.pick s.free % 2 = 0 then s.took else s.took.upd (·.putElem dst.reg.toNat dst.w x.1 x.2)
    s1.mixed dst xs

/-- A collective (R345 to R347): its checks, its arrival, and its end once its wait is over. `a` is the source group, `root` the root rank. -/
def collOp (hdr : Hdr) (op : Nat) (d a : Reg5) (n : BitVec 2) (root : Hart → Nat) (s : State) : Host.Outcome State Fault Refusal :=
  runInstr hdr s (fun s =>
    let h := s.hart
    let g := h.group n
    let p := g.count
    let so := [h.opd a]
    let dst := h.opd d
    let bad03 := h.vstart != 0 || !h.collFmt op ||
      (g.v && ((op == 3 || op == 4) && decide (h.vlmax < p * h.vl) || op == 5 && decide (p ≤ root h)))
    let bad07 := if op = 3 || op = 4 then anyOverlap so [dst] else partialOverlaps so [dst]
    match h.resume with
    | .aborted =>
      .ok (.trap ((match h.coll with
        | some c => s.mixed dst c.got
        | none => s).upd (fun h => { h.setLast n 2 with vstart := 0 })) ⟨0x0D, BitVec.ofNat 64 n.toNat⟩)
    | .go res exc =>
      .ok (s.putResult hdr res.length [] dst (res.mapIdx (fun i x => (i, x)))
        (fun _ s => s.upd (fun h => { (h.advance so (collSrc op p h.vl)).setLast n 1 with fcsr := h.fcsr ||| BitVec.ofNat 10 exc })))
    | _ =>
      match stepFour hdr h bad03 bad07 false so [dst] with
      | .error t => .error t
      | .ok _ =>
        match require (g.v && !g.ab) ⟨0x0D, BitVec.ofNat 64 n.toNat⟩ with
        | .error t => .error t
        | .ok _ =>
          match s.fetchSources (collSrc op p h.vl) so [] with
          | (_, .error e) => .ok e
          | (s1, .ok vals) =>
            let src := (List.range (collSrc op p h.vl)).map (s1.hart.srcVal so vals 0)
            let key : CollKey := ⟨op, h.vl, h.vtype &&& 0x71FF, root h⟩
            let s2 := s1.upd (fun h => { h with wait := .group n.toNat, coll := some ⟨n, key, src, false, collDest op p h.vl, [], 0, false⟩ })
            .ok (.hold (if s2.combinesHere h.ctxid g.gid then s2.queue (.collectiveArrival h.ctxid g.gid g.rank.toNat key)
              else s2.emit (.arrival h.ctxid g.gid g.rank.toNat key))))

/-- `vcsum` (R345). -/
def execVcsum (d a : Reg5) (n : BitVec 2) (j : BitVec 1) (s : State) : Host.Outcome State Fault Refusal :=
  collOp (vhdr (wVcsum d a n j) .engine j) 0 d a n (fun _ => 0) s

/-- `vcmax` (R345). -/
def execVcmax (d a : Reg5) (n : BitVec 2) (j : BitVec 1) (s : State) : Host.Outcome State Fault Refusal :=
  collOp (vhdr (wVcmax d a n j) .engine j) 1 d a n (fun _ => 0) s

/-- `vcmin` (R345). -/
def execVcmin (d a : Reg5) (n : BitVec 2) (j : BitVec 1) (s : State) : Host.Outcome State Fault Refusal :=
  collOp (vhdr (wVcmin d a n j) .engine j) 2 d a n (fun _ => 0) s

/-- `vcgat` (R345). -/
def execVcgat (d a : Reg5) (n : BitVec 2) (j : BitVec 1) (s : State) : Host.Outcome State Fault Refusal :=
  collOp { vhdr (wVcgat d a n j) .engine j with bad07 := d == a } 3 d a n (fun _ => 0) s

/-- `vcsct` (R345). -/
def execVcsct (d a : Reg5) (n : BitVec 2) (j : BitVec 1) (s : State) : Host.Outcome State Fault Refusal :=
  collOp { vhdr (wVcsct d a n j) .engine j with bad07 := d == a } 4 d a n (fun _ => 0) s

/-- `vcbc` (R345): its source is vd, the root rank stands in s[a]. -/
def execVcbc (d a : Reg5) (n : BitVec 2) (j : BitVec 1) (s : State) : Host.Outcome State Fault Refusal :=
  collOp (vhdr (wVcbc d a n j) .engine j) 5 d d n (fun h => (h.gs a).toNat) s

/-- `vcscan` (R345). -/
def execVcscan (d a : Reg5) (n : BitVec 2) (j : BitVec 1) (s : State) : Host.Outcome State Fault Refusal :=
  collOp (vhdr (wVcscan d a n j) .engine j) 6 d a n (fun _ => 0) s

/-! ### The combining port (R345, R346) -/

/-- `op` of two elements (R345): a hart that has only the VTYPE of the collective stands for its formats. -/
def collPair (h : Hart) (op a b : Nat) : Nat × Exc :=
  if 2 ≤ h.fmt then
    match op with
    | 1 => fMax h 0 a b
    | 2 => fMin h 0 a b
    | _ => fAdd h 0 a b
  else
    match op with
    | 1 => (if h.signed then iMax h.sew false 0 a b else iMaxu h.sew true 0 a b, {})
    | 2 => (if h.signed then iMin h.sew false 0 a b else iMinu h.sew true 0 a b, {})
    | _ => (iAdd h.sew false 0 a b, {})

/-- A combined value, in ascending rank (R345). -/
def collFold (h : Hart) (op : Nat) : List Nat → Nat × Exc
  | [] => (0, {})
  | x :: xs => xs.foldl (fun (acc : Nat × Exc) y =>
      let (z, e) := collPair h op acc.1 y
      (z, acc.2.or e)) (x, {})

/-- The result at the member of a rank (Table 14-3): `srcs` are the sources in ascending rank. -/
def collResult (key : CollKey) (srcs : List (List Nat)) (rank : Nat) : List Nat × Exc :=
  let h := { Hart.init 0 with vtype := key.vtype }
  let column := fun (ss : List (List Nat)) (j : Nat) => ss.map (fun a => a.getD j 0)
  let reduce := fun (ss : List (List Nat)) (off : Nat) =>
    let rs := (List.range key.vl).map (fun j => collFold h key.op (column ss (off + j)))
    (rs.map (·.1), rs.foldl (fun (e : Exc) r => e.or r.2) {})
  match key.op with
  | 3 => (srcs.flatMap (fun a => a), {})
  | 4 => reduce srcs (rank * key.vl)
  | 5 => (srcs.getD key.root [], {})
  | 6 => reduce (srcs.take (rank + 1)) 0
  | _ => reduce srcs 0

/-- The exceptions of the whole combination, for every member (R345): those of every member's result. -/
def collExc (key : CollKey) (srcs : List (Nat × List Nat)) : BitVec 10 :=
  (srcs.foldl (fun (acc : Exc) x => acc.or (collResult key (srcs.map (·.2)) x.1).2) {}).fcsr

/-- The collective of a group at this port. -/
def State.combine (s : State) (ctx gid : BitVec 16) : Combine :=
  (s.combines.find? (fun c => c.ctx == ctx && c.gid == gid)).getD ⟨ctx, gid, [], false, []⟩

/-- The collective of a group at this port set, or removed. -/
def State.setCombine (s : State) (ctx gid : BitVec 16) (c : Option Combine) : State :=
  { s with combines := c.toList ++ s.combines.filter (fun c => !(c.ctx == ctx && c.gid == gid)) }

/-- COLLECTIVE_ARRIVAL (R344, R346): the port counts the arrival; with all P it sends GO to the members here and elsewhere, or aborts the group
where they do not match. -/
def execCollectiveArrival (ctx gid : BitVec 16) (rank : Nat) (key : CollKey) (s : State) : Host.Outcome State Fault Refusal :=
  .next (
    match s.portGroup ctx gid with
    | none => s.setCombine ctx gid (some (let c := s.combine ctx gid; { c with arrived := tabPut c.arrived rank key }))
    | some p =>
      let c := s.combine ctx gid
      if p.abort.isSome || !s.combinesHere ctx gid || c.go || p.members.length ≤ rank then s
      else
        let c1 := { c with arrived := tabPut c.arrived rank key }
        if c1.arrived.length < p.members.length then s.setCombine ctx gid (some c1)
        else if c1.arrived.any (fun x => x.2 != key) then
          let orig := BitVec.ofNat 10 (Config.value s.free).toNat
          (s.took.applyAbort ctx gid 3 orig).emit (.abort ctx gid 3 orig)
        else
          ((s.ranksHere p).foldl (fun s r => match s.memberHart ctx gid r with
            | some h => s.queue (.collectiveGo h.id)
            | none => s) (s.setCombine ctx gid (some { c1 with go := true }))).emit (.go ctx gid))

/-- COLLECTIVE_GO (R346): the member sends its source; the port that combines here and has every source combines them next. -/
def execCollectiveGo (hart : Nat) (s : State) : Host.Outcome State Fault Refusal :=
  .next (
    let h := s.getHart hart
    match h.wait, h.coll with
    | .group _, some c =>
      let g := h.group c.g
      if c.go || g.ab || !g.v then s
      else
        let s1 := s.setHart { h with coll := some { c with go := true } }
        match s.portGroup h.ctxid g.gid with
        | none => s1
        | some p =>
          if s.combinesHere h.ctxid g.gid then
            let k := s.combine h.ctxid g.gid
            let k1 := { k with sources := tabPut k.sources g.rank.toNat c.src }
            let s2 := s1.setCombine h.ctxid g.gid (some k1)
            if k1.sources.length = p.members.length then s2.queue (.collectiveData h.ctxid g.gid []) else s2
          else s1.emit (.source h.ctxid g.gid g.rank.toNat c.src)
    | _, _ => s)

/-- COLLECTIVE_DATA (R345, R346): the sources of the members on other packages come; with every source the port combines them and sends each
member here its result, which is one chunk. -/
def execCollectiveData (ctx gid : BitVec 16) (remote : List (Nat × List Nat)) (s : State) : Host.Outcome State Fault Refusal :=
  .next (
    let c := s.combine ctx gid
    match s.portGroup ctx gid, c.arrived with
    | some p, (_, key) :: _ =>
      let srcs := remote.foldl (fun t x =>
        if x.1 < p.members.length && !(s.ranksHere p).contains x.1 then tabPut t x.1 x.2 else t) c.sources
      if !c.go || srcs.length < p.members.length then s.setCombine ctx gid (if c.go then some { c with sources := srcs } else some c)
      else
        let exc := collExc key srcs
        (List.range p.members.length).foldl (fun s r =>
          let res := (collResult key (srcs.map (·.2)) r).1
          if (s.ranksHere p).contains r then
            match s.memberHart ctx gid r with
            | some h => s.queue (.collectiveChunk h.id 0 res exc true)
            | none => s
          else s.emit (.result ctx gid r res exc)) (s.setCombine ctx gid none)
    | _, _ => s)
/-- COLLECTIVE_CHUNK (R346, R347, R352): result elements reach a member; with a full chunk, the one that its destination is, the collective ends
with success. -/
def execCollectiveChunk (hart first : Nat) (data : List Nat) (exc : BitVec 10) (full : Bool) (s : State) : Host.Outcome State Fault Refusal :=
  .next (
    let h := s.getHart hart
    match h.wait, h.coll with
    | .group _, some c =>
      if !c.go || (h.group c.g).ab || !(h.group c.g).v then s
      else
        let got := data.mapIdx (fun j x => (first + j, x)) ++ c.got
        if full && (List.range c.want).all (fun i => (tabGet got i).isSome) then
          s.setHart { h with wait := .none, resume := .go ((List.range c.want).map (fun i => (tabGet got i).getD 0)) exc.toNat,
                             coll := some { c with got := got, exc := exc } }
        else s.setHart { h with coll := some { c with got := got } }
    | _, _ => s)

/-- GROUP_ABORT_APPLY (R348, R353). -/
def execGroupAbortApply (ctx gid : BitVec 16) (why : BitVec 2) (orig : BitVec 10) (s : State) : Host.Outcome State Fault Refusal :=
  .next (s.applyAbort ctx gid why orig)

end Sys2Proof.Machine
end

