-- ==== Sys2Proof/Machine/System.lean ====
section
/-! DEFINITION. System instructions: traps, waits, fences, strips and control registers (02 R34 to R41, 03 R86 to R93). -/

namespace Sys2Proof.Machine

open Sys2Proof

/-- `sys` (R86): traps SYS. -/
def execSys (s : State) : Host.Outcome State Fault Refusal := runInstr { word := wSys } s (fun _ => .error ⟨0x09, 0⟩)

/-- `brk` (R86): traps BRK. -/
def execBrk (s : State) : Host.Outcome State Fault Refusal := runInstr { word := wBrk } s (fun _ => .error ⟨0x0A, 0⟩)

/-- `tret` (R87): PRV in user mode; else the return from the trap. -/
def execTret (s : State) : Host.Outcome State Fault Refusal :=
  match Hdr.check { word := wTret, serial := true, priv := true } s with
  | some t => .next (s.trap t)
  | none => .next (s.upd (·.tret))

/-- An interrupt or pre-emption request is pending (R88, R142). -/
def Hart.pending (h : Hart) : Bool := h.preempt || !h.irqs.isEmpty

/-- `wfi` (R88): waits until a request is pending; it may end early. -/
def execWfi (s : State) : Host.Outcome State Fault Refusal :=
  runInstr { word := wWfi } s (fun s =>
    if s.hart.resume = .woken || s.hart.pending then .ok (.next s)
    else .ok (.hold (s.upd (fun h => { h with wait := .wfi }))))

/-- The location that a sleeping `mwait` watches, or one that nothing writes for an address at another package (R89). -/
def State.watched (s : State) (e : RElem) : Nat :=
  match (s.placeElem s.hart.id e).2 with
  | .loc l _ => l
  | .host l _ => l
  | _ => 2 ^ 62

/-- `mwait` (R89): completes at once when the doubleword differs from s[sb], else sleeps; on completion it reads the doubleword again. -/
def execMwait (d a b : Reg5) (s : State) : Host.Outcome State Fault Refusal :=
  runInstr { word := wMwait d a b, reads := [a, b] } s (fun s =>
    let e : RElem := ⟨0, s.gs a, 8, .load, 0, 0⟩
    match scalarAligned e.addr 8 with
    | .error t => .error t
    | .ok _ =>
      if s.hart.resume = .woken then .ok (s.scalarAccess .translate e (fun s x => s.ps d (BitVec.ofNat 64 x)))
      else
        match s.scalarElem .translate e with
        | (s1, .done x _) =>
          if BitVec.ofNat 64 x ≠ s.gs b then .ok (.next (s1.ps d (BitVec.ofNat 64 x)))
          else .ok (.hold (s1.upd (fun h => { h with wait := .mwait (s1.watched e) s1.cycle, answers := [], asked := [], told := [], places := [] })))
        | _ => .ok (s.scalarAccess .translate e (fun s _ => s)))

/-- `fence` (R90): TKR at system scope with a ticket outstanding; waits for the hart's copies; every buffered write performs. A scope of core
or wider lets every later fetch see the words that have performed (R171). -/
def execFence (sc : BitVec 3) (s : State) : Host.Outcome State Fault Refusal :=
  runInstr { word := wFence sc, serial := true } s (fun s =>
    if sc = 4 && 0 < s.outstanding s.hart then .error ⟨0x07, BitVec.ofNat 64 (s.outstanding s.hart)⟩
    else if s.engineBusy s.hart.id then .ok (.hold (s.stalled .waiting))
    else
      let s1 := s.drainAll s.hart.id
      if sc = 0 then .ok (.next s1)
      else
        let c := s1.getCore (coreOf s1.hart.id)
        .ok (.next (if c.icache.isEmpty then s1 else s1.setCore (coreOf s1.hart.id) { c with icache := [] })))

/-- `fence.sv` (R91): the scalar stores perform. -/
def execFenceSv (s : State) : Host.Outcome State Fault Refusal :=
  runInstr { word := wFenceSv, serial := true } s (fun s => .ok (.next (s.drainS s.hart.id s.hart.sbuf.length)))

/-- `fence.vs` (R91): the vector stores and engine writes perform. -/
def execFenceVs (s : State) : Host.Outcome State Fault Refusal :=
  runInstr { word := wFenceVs, serial := true } s (fun s =>
    if s.engineBusy s.hart.id then .ok (.hold (s.stalled .waiting)) else .ok (.next (s.drainV s.hart.id s.hart.vbuf.length)))

/-- `fence.c` (R91): the stores perform, then the core's constant cache is invalidated. -/
def execFenceC (s : State) : Host.Outcome State Fault Refusal :=
  runInstr { word := wFenceC, serial := true } s (fun s =>
    if s.engineBusy s.hart.id then .ok (.hold (s.stalled .waiting))
    else
      let s0 := s.drainAll s.hart.id
      let s1 := s0.upd (fun h => { h with constAt := s0.writes })
      let c := s1.getCore (coreOf s1.hart.id)
      .ok (.next (if c.consts.isEmpty then s1 else s1.setCore (coreOf s1.hart.id) { c with consts := [] })))

/-! ### Strips (R40, R41, R92) -/

/-- `apply_grant` (R41): the content bits below 512 × min(G_old, G_new) stay, every other bit reads 0. -/
def Hart.applyGrant (h : Hart) (g : Nat) : Hart :=
  if h.lanes = g then h
  else { h with v := h.v.map (fun x => BitVec.ofNat 16384 (x.toNat % 2 ^ (512 * min h.lanes g))), lanes := g }

/-- The length that a strip is granted (R40). -/
def grantVl (vtype : BitVec 16) (g : Nat) (req : Word) : Nat :=
  let n := if req.toInt ≤ 0 then 0 else min req.toInt.toNat (vlmaxOf vtype g)
  if vtype.getLsbD 15 && decide (32 ≤ req.toInt) then n - n % 32 else n

/-- Opening a strip (R40). -/
def Hart.openStrip (h : Hart) (d a : Reg5) (vtype : BitVec 16) : Hart :=
  let n := grantVl vtype h.pend (h.gs a)
  ({ h.applyGrant h.pend with vtype := vtype, vl := n, vstart := 0, strip := h.strip + 1 }).ps d (BitVec.ofNat 64 n)

/-- `vsetl` (R92): ILL 0x08 for an illegal vtype in s[sb]. -/
def execVsetl (d a b : Reg5) (s : State) : Host.Outcome State Fault Refusal :=
  let hdr : Hdr := { word := wVsetl d a b, reads := [a, b], serial := true, vo := true }
  runInstr hdr s (fun s =>
    if (s.gs b).toNat < 2 ^ 16 && vtypeLegal (BitVec.ofNat 16 (s.gs b).toNat) then
      .ok (.next (s.upd (·.openStrip d a (BitVec.ofNat 16 (s.gs b).toNat))))
    else .error (hdr.ill 0x08))

/-- `vsetli` (R92); an illegal vtype is refused by the word alone. -/
def execVsetli (d a : Reg5) (t : BitVec 16) (s : State) : Host.Outcome State Fault Refusal :=
  runInstr { word := wVsetli d a t, reads := [a], serial := true, vo := true } s (fun s => .ok (.next (s.upd (·.openStrip d a t))))

/-! ### Control registers (Table 2-2, R34, R35, R38, R93) -/

/-- TKST (R329). -/
def State.tkst (s : State) : Word :=
  let ts := (s.tickets s.hart.id).filter (·.ofHart s.hart)
  let waits := (ts.filter (fun t => t.state == .wait)).length
  let dones := (ts.filter (fun t => t.state == .ready || t.state == .fail)).length
  BitVec.ofNat 64 ((if s.hart.tkOvf then 2 ^ 16 else 0) + waits * 2 ^ 8 + dones)

/-- The value of a control register (Table 2-2). -/
def State.readCreg (s : State) (c : BitVec 16) : Word :=
  let h := s.hart
  match c.toNat with
  | 0x000 => BitVec.ofNat 64 h.vl
  | 0x001 => h.vtype.zeroExtend 64
  | 0x002 => h.vstart.zeroExtend 64
  | 0x003 => BitVec.ofNat 64 (h.pend * 2 ^ 8 + h.lanes)
  | 0x004 => h.slip.zeroExtend 64
  | 0x005 => h.fcsr.zeroExtend 64
  | 0x006 => h.tmap
  | 0x007 => h.skey
  | 0x008 => h.sstep
  | 0x010 => h.cause.zeroExtend 64
  | 0x011 => h.epc
  | 0x012 => h.tval
  | 0x013 => h.tvec
  | 0x014 => h.status.zeroExtend 64
  | 0x015 => h.ctxid.zeroExtend 64
  | 0x016 => BitVec.ofNat 64 ((if h.vownV then 2 ^ 63 else 0) + h.vownCtx.toNat)
  | 0x017 => BitVec.ofNat 64 (h.fltBase.toNat * 2 ^ 16 + h.fltHead.toNat)
  | 0x018 => h.fltn.zeroExtend 64
  | 0x019 => s.tkst
  | 0x020 => BitVec.ofNat 64 (s.hartid h.id)
  | 0x021 => h.jobid
  | 0x022 => h.gang
  | 0x023 => BitVec.ofNat 64 s.cycle
  | 0x024 => (s.getCore (coreOf h.id)).brole
  | _ => s.brdy

/-- SLIP as a `setc` stores it (R38). -/
def slipOf (x : Word) : BitVec 5 := BitVec.ofNat 5 (max 1 (min x.toNat 16))

/-- A control register written: its RW fields (Table 2-2, R34). -/
def Hart.writeCreg (h : Hart) (c : BitVec 16) (x : Word) : Hart :=
  match c.toNat with
  | 0x002 => { h with vstart := x.truncate 16 }
  | 0x004 => { h with slip := slipOf x }
  | 0x005 => { h with fcsr := x.truncate 10 }
  | 0x006 => { h with tmap := x &&& 0x9F9F9F9F9F9F9F9F }
  | 0x007 => { h with skey := x }
  | 0x008 => { h with sstep := x }
  | 0x010 => { h with cause := x.truncate 8 }
  | 0x011 => { h with epc := x }
  | 0x012 => { h with tval := x }
  | 0x013 => { h with tvec := x &&& 0xFFFFFFFFFFFFFFFC }
  | 0x014 => { h with status := x.truncate 10 &&& 0x333, seen := h.seen || (x.getLsbD 1 && h.pending) }
  | 0x015 => { h with ctxid := x.truncate 16 }
  | 0x016 => { h with vownV := x.getLsbD 63, vownCtx := x.truncate 16 }
  | 0x017 => { h with fltBase := BitVec.ofNat 48 (x.toNat / 2 ^ 16), fltHead := x.truncate 6 }
  | 0x018 => { h with fltn := x.truncate 32 }
  | _ => h

/-- The control registers whose read is subject to VO: VL, VTYPE and GRANT (R144). -/
def cregVector (c : BitVec 16) : Bool := c == 0x000 || c == 0x001 || c == 0x003

/-- `getc` (R93). -/
def execGetc (d : Reg5) (c : BitVec 16) (s : State) : Host.Outcome State Fault Refusal :=
  scalarOp { word := wGetc d c, serial := true, priv := cregSupervisor c, vo := cregVector c } (fun s => s.ps d (s.readCreg c)) s

/-- `setc` (R93, R35): ILL 0x03 for a reserved rounding code in FCSR.RM. -/
def execSetc (a : Reg5) (c : BitVec 16) (s : State) : Host.Outcome State Fault Refusal :=
  let hdr : Hdr := { word := wSetc a c, reads := [a], serial := true, priv := cregSupervisor c }
  runInstr hdr s (fun s =>
    if c = 0x005 && 5 ≤ (s.gs a).toNat / 32 % 8 then .error (hdr.ill 0x03)
    else .ok (.next (s.upd (·.writeCreg c (s.gs a)))))

end Sys2Proof.Machine
end

