-- ==== Sys2Proof/Machine/Sync.lean ====
section
/-! DEFINITION. Communication registers and gang barriers (08 R196 to R204), and the reports of tickets (13 R333, R334). -/

namespace Sys2Proof.Machine

open Sys2Proof

/-- A semaphore of the hart's cluster. -/
def State.getSem (s : State) (n : Nat) : Sem := (s.getCluster (clusterOf s.hart.id)).sems.getD n ⟨false, []⟩

/-- A semaphore set. -/
def State.setSem (s : State) (n : Nat) (x : Sem) : State :=
  let c := s.getCluster (clusterOf s.hart.id)
  s.setCluster (clusterOf s.hart.id) { c with sems := c.sems.setIfInBounds n x }

/-- `tas` (R197, R198). -/
def execTas (d : Reg5) (n : BitVec 11) (s : State) : Host.Outcome State Fault Refusal :=
  runInstr { word := wTas d n, serial := true } s (fun s =>
    match s.hart.resume with
    | .granted w => .ok (.next (s.ps d (BitVec.ofNat 64 (min w (2 ^ 32 - 1)))))
    | _ =>
      let x := s.getSem n.toNat
      if x.bit = false && x.queue.isEmpty then .ok (.next ((s.setSem n.toNat { x with bit := true }).ps d 0))
      else .ok (.hold ((s.setSem n.toNat { x with queue := x.queue ++ [(s.hart.id, s.cycle)] }).upd (fun h => { h with wait := .tas n.toNat }))))

/-- A release at cluster scope (R199): it waits for the accesses that engines make for the hart, and every buffered write performs. -/
def releaseOp (hdr : Hdr) (f : State → State) (s : State) : Host.Outcome State Fault Refusal :=
  runInstr hdr s (fun s => if s.engineBusy s.hart.id then .ok (.hold (s.stalled .waiting)) else .ok (.next (f (s.drainAll s.hart.id))))

/-- `sclr` (R197): the oldest waiter is granted and the bit stays set, else the bit is cleared. -/
def execSclr (n : BitVec 11) (s : State) : Host.Outcome State Fault Refusal :=
  releaseOp { word := wSclr n, serial := true } (fun s =>
    let x := s.getSem n.toNat
    match x.queue with
    | [] => s.setSem n.toNat { x with bit := false }
    | (id, since) :: rest =>
      let s1 := s.setSem n.toNat ⟨true, rest⟩
      s1.setHart { s1.getHart id with wait := .none, resume := .granted (s.cycle - since) }) s

/-- `sset` (R197). -/
def execSset (n : BitVec 11) (s : State) : Host.Outcome State Fault Refusal :=
  releaseOp { word := wSset n, serial := true } (fun s => s.setSem n.toNat { s.getSem n.toNat with bit := true }) s

/-- `stst` (R197). -/
def execStst (d : Reg5) (n : BitVec 11) (s : State) : Host.Outcome State Fault Refusal :=
  scalarOp { word := wStst d n, serial := true } (fun s =>
    (s.setSem n.toNat { s.getSem n.toNat with bit := true }).ps d (if (s.getSem n.toNat).bit then 1 else 0)) s

/-- `cdrd` (R197). -/
def execCdrd (d : Reg5) (n : BitVec 11) (s : State) : Host.Outcome State Fault Refusal :=
  scalarOp { word := wCdrd d n } (fun s => s.ps d ((s.getCluster (clusterOf s.hart.id)).cds.getD n.toNat 0)) s

/-- `cdwr` (R197). -/
def execCdwr (a : Reg5) (n : BitVec 11) (s : State) : Host.Outcome State Fault Refusal :=
  scalarOp { word := wCdwr a n, reads := [a] } (fun s =>
    let c := s.getCluster (clusterOf s.hart.id)
    s.setCluster (clusterOf s.hart.id) { c with cds := c.cds.setIfInBounds n.toNat (s.gs a) }) s

/-! ### Gang barriers (R201 to R204) -/

/-- The hart's index in its gang (Table 2-2, GANG[4:0]). -/
def Hart.gangHart (h : Hart) : Nat := h.gang.toNat % 32

/-- STATUS.GARR (R203). -/
def Hart.garr (h : Hart) : Bool := h.status.getLsbD 9

/-- STATUS.GARR set or cleared. -/
def Hart.setGarr (h : Hart) (b : Bool) : Hart := { h with status := (h.status &&& 0x1FF) ||| (if b then 0x200 else 0) }

/-- `arrive(bytes)` (R201): every earlier access but bound copies performs; a hart arrives once in each phase. -/
def State.arrive (s : State) (bytes : Word) : State :=
  let h := s.hart
  let s1 := s.drainAll h.id
  let b := s1.getBar (clusterOf h.id) h.bar
  let s2 :=
    if b.arr.getLsbD h.gangHart then s1
    else s1.setBar (clusterOf h.id) h.bar { b with arr := b.arr ||| BitVec.ofNat 32 (2 ^ h.gangHart), count := b.count + 1, pend := b.pend + bytes }
  s2.tryComplete (clusterOf h.id) h.bar

/-- `wait()` before it sleeps (R201): its result, or none where the hart has to sleep. -/
def State.barWait (s : State) : Option Bool :=
  let b := s.getBar (clusterOf s.hart.id) s.hart.bar
  if b.fault then some true else if b.arr.getLsbD s.hart.gangHart then none else some false

/-- The end of `wait()` in `gbar` (R203): BF with GARR set where it returned 1. -/
def State.gbarEnd (s : State) (fault : Bool) : Eff :=
  if fault then .trap (s.upd (·.setGarr true)) ⟨0x0E, BitVec.ofNat 64 s.hart.bar⟩ else .next s

/-- `gbar` (R201, R203): with GARR set it clears GARR and does not arrive. -/
def execGbar (a : Reg5) (s : State) : Host.Outcome State Fault Refusal :=
  runInstr { word := wGbar a, reads := [a], serial := true } s (fun s =>
    match s.hart.resume with
    | .barrier f => .ok (s.gbarEnd f)
    | _ =>
      if !s.hart.garr && s.rowsOut s.hart.id then .ok (.hold (s.stalled .waiting))
      else
        let s1 := if s.hart.garr then s.upd (·.setGarr false) else s.arrive (s.gs a)
        match s1.barWait with
        | some f => .ok (s1.gbarEnd f)
        | none => .ok (.hold (s1.upd (fun h => { h with wait := .bar true }))))

/-- `gbar.a` (Table 8-3): it waits for rows that the Churn has on their way for the hart. -/
def execGbarA (a : Reg5) (s : State) : Host.Outcome State Fault Refusal :=
  runInstr { word := wGbarA a, reads := [a], serial := true } s (fun s =>
    if s.rowsOut s.hart.id then .ok (.hold (s.stalled .waiting)) else .ok (.next ((s.upd (·.setGarr false)).arrive (s.gs a))))

/-- `gbar.w` (Table 8-3). -/
def execGbarW (d : Reg5) (s : State) : Host.Outcome State Fault Refusal :=
  runInstr { word := wGbarW d, serial := true } s (fun s =>
    let s1 := s.upd (·.setGarr false)
    let out := fun (f : Bool) => Eff.next (s1.ps d (if f then 1 else 0))
    match s.hart.resume with
    | .barrier f => .ok (out f)
    | _ =>
      match s1.barWait with
      | some f => .ok (out f)
      | none => .ok (.hold (s1.upd (fun h => { h with wait := .bar false }))))

/-- `gbar.r` (Table 8-3). -/
def execGbarR (s : State) : Host.Outcome State Fault Refusal :=
  scalarOp { word := wGbarR, serial := true } (fun s =>
    let c := clusterOf s.hart.id
    let s1 := s.upd (·.setGarr false)
    (s1.setBar c s.hart.bar { s1.getBar c s.hart.bar with fault := false }).tryComplete c s.hart.bar) s

/-! ### Tickets (R333, R334) -/

/-- The entry of the hart's current context that a report takes: the READY or FAIL one whose notice arrived first. -/
def State.reportable (s : State) : Option Ticket :=
  ((s.tickets s.hart.id).filter (fun t => t.ofHart s.hart && (t.state == .ready || t.state == .fail))).foldl
    (fun best t => match best with
      | none => some t
      | some b => if t.ord < b.ord then some t else some b) none

/-- An entry of the hart's current context is in WAIT. -/
def State.ticketWaits (s : State) : Bool := (s.tickets s.hart.id).any (fun t => t.ofHart s.hart && t.state == .wait)

/-- The report of an entry (Table 13-7). -/
def Ticket.report (t : Ticket) : Word :=
  BitVec.ofNat 64 (t.page.toNat * 2 ^ 25 + t.pkg.toNat * 2 ^ 18 + t.ticket.toNat * 4 + if t.state = .ready then 1 else 2)

/-- The first entry equal to one, removed or put in another state. -/
def replaceTicket (t : Ticket) (new : Option Ticket) : List Ticket → List Ticket
  | [] => []
  | x :: xs => if x = t then new.toList ++ xs else x :: replaceTicket t new xs

/-- Reporting an entry into s[d] (R333). -/
def State.reportTicket (s : State) (d : Reg5) (t : Ticket) : State :=
  let k := coreOf s.hart.id
  let c := s.getCore k
  (s.setCore k { c with tickets := replaceTicket t (if t.state = .ready then none else some { t with state := .failr }) c.tickets }).ps d t.report

/-- The report of `tkwait` and `tkpoll` where it need not wait (R333). -/
def State.ticketReport (s : State) (d : Reg5) : Option State :=
  match s.reportable with
  | some t => some (s.reportTicket d t)
  | none => if s.ticketWaits then none else some ((s.upd (fun h => { h with tkOvf := false })).ps d 0)

/-- `tkwait` (R333). -/
def execTkwait (d a : Reg5) (j : BitVec 1) (s : State) : Host.Outcome State Fault Refusal :=
  runInstr { word := wTkwait d a j, unit := some .engine, j := j == 1, vo := true, swrites := [d] } s (fun s =>
    match s.ticketReport d with
    | some s1 => .ok (.next s1)
    | none =>
      if s.hart.resume = .limit then .ok (.next (s.ps d 3))
      else
        .ok (.hold (s.upd (fun h => { h with wait := .tkwait (if s.gs a = 0 then none else some (s.cycle + (s.gs a).toNat)) }))))

/-- `tkpoll` (R333). -/
def execTkpoll (d : Reg5) (j : BitVec 1) (s : State) : Host.Outcome State Fault Refusal :=
  runInstr { word := wTkpoll d j, unit := some .engine, j := j == 1, vo := true, swrites := [d] } s (fun s =>
    match s.ticketReport d with
    | some s1 => .ok (.next s1)
    | none => .ok (.next (s.ps d 3)))

end Sys2Proof.Machine
end

