-- ==== Sys2Proof/Machine/Context.lean ====
section
/-! DEFINITION. Blocks of memory read or written at issue, saving and restoring the vector state (05 R144 to R147), and the bank roles
(06 R161, R164, R165). -/

namespace Sys2Proof.Machine

open Sys2Proof

/-! ### Blocks (R354 step 8): the precise regime with no fault record -/

/-- The pieces of `n` bytes at an address that have one translation: 64 bytes in the untranslated windows, else to the end of the page. -/
def blockPieces : Nat → Word → Nat → List (Word × Nat)
  | 0, _, _ => []
  | fuel + 1, va, n =>
    if n = 0 then []
    else
      let room := if 0xFFFFF00000000000 ≤ va.toNat then 64 - va.toNat % 64 else 65536 - va.toNat % 65536
      let k := min n room
      (va, k) :: blockPieces fuel (va + BitVec.ofNat 64 k) (n - k)

/-- What an access to a block comes to: its bytes, a trap, or a wait. -/
inductive Blk where
  | ok (s : State) (bytes : List Byte)
  | trap (s : State) (t : Trap)
  | hold (s : State)

/-- The elements of a block access; `tag` tells its accesses apart from others of the instruction, `bs` are the bytes of a write. -/
def blockElems (tag : Nat) (op : ROp) : Nat → List (Word × Nat) → List Byte → List RElem
  | _, [], _ => []
  | k, p :: ps, bs => ⟨2 ^ 60 + tag * 2 ^ 32 + k, p.1, p.2, op, leNat (bs.take p.2), 0⟩ :: blockElems tag op (k + 1) ps (bs.drop p.2)

/-- What a faulted block leaves beside its trap (R326, R331): the tickets of its pieces, and for RF the freed entry that the trap names. -/
def State.blockStop (s : State) (es : List RElem) (ps : List Placed) (t : Trap) : State :=
  let s1 := s.enterTickets s.hart.id es
  if t.cause = 0x08 then
    s1.freeFailed s.hart.id .translate ((ps.filterMap (fun p =>
      match p with
      | .fault e .rf => some e
      | _ => none)).take 1)
  else s1

/-- The trap of the first faulted piece, if one faulted, with its address or the one to report. -/
def blockTrap (report : Option Word) : List Placed → Option Trap
  | [] => none
  | .fault e (.mf _) :: _ => some ⟨0x04, report.getD e.addr⟩
  | .fault e .rf :: _ => some ⟨0x08, report.getD e.addr⟩
  | .fault e .ecc :: _ => some ⟨0x0C, report.getD e.addr⟩
  | _ :: ps => blockTrap report ps

/-- Reading `n` bytes at an address by the precise regime: MF, RF or ECC at the first piece that fails, with its address. -/
def State.readBlock (s : State) (tag : Nat) (va : Word) (n : Nat) (report : Option Word) : Blk :=
  let own := s.hart.id
  let es := blockElems tag .load 0 (blockPieces (n + 1) va n) []
  if s.copyBlocks own es then .hold (s.stalled .held)
  else
    let (s1, ps) := s.placeAll own .translate es
    if needsOf ps ≠ [] then .hold (s1.sendPackets own 0 (needsOf ps))
    else
      match blockTrap report ps with
      | some t => .trap (s1.blockStop es ps t) t
      | none =>
        match s1.performPlaced own true ps with
        | (s2, ds, .done) => .ok s2 (es.flatMap (fun e => natLe e.n ((tabGet ds e.idx).getD 0)))
        | (s2, _, .ecc e l) => .trap (s2.eccAt own l) ⟨0x0C, report.getD e.addr⟩

/-- The pieces of a faulted write that have been written: any of those that can be (R147, R188). -/
def State.someWritten (s : State) : List Placed → State
  | [] => s
  | .loc e l _ :: ps => (if Config.pick s.free % 2 = 0 then s.took else (s.took.performElem s.hart.id false l e).1).someWritten ps
  | _ :: ps => s.someWritten ps

/-- Writing bytes at an address by the precise regime, its interlock entry made over their lines (R172): after a fault, part of them may have been written. -/
def State.writeBlock (s : State) (tag : Nat) (va : Word) (bs : List Byte) : Blk :=
  let own := s.hart.id
  let es := blockElems tag .store 0 (blockPieces (bs.length + 1) va bs.length) bs
  if s.copyBlocks own es then .hold (s.stalled .held)
  else
    let (s1, ps) := (s.openLock own (linesOf [(va, bs.length)])).placeAll own .translate es
    if needsOf ps ≠ [] then .hold (s1.sendPackets own 0 (needsOf ps))
    else
      match blockTrap none ps with
      | some t => .trap ((s1.someWritten ps).blockStop es ps t) t
      | none => .ok (s1.performPlaced own true ps).1 []

/-- The numbers and data of the accesses that read a block. -/
def blockData (tag : Nat) (va : Word) (bs : List Byte) : List (Nat × Nat) :=
  (blockElems tag .load 0 (blockPieces (bs.length + 1) va bs.length) bs).map (fun e => (e.idx, e.data))

/-- A field of `n` bytes at offset `off` of a block. -/
def fieldOf (bs : List Byte) (off n : Nat) : Nat := leNat ((bs.drop off).take n)

/-- The bytes of a block from one offset to below another are all zero. -/
def zeroIn (bs : List Byte) (lo hi : Nat) : Bool := ((bs.drop lo).take (hi - lo)).all (· == 0)

/-! ### vsave and vrest (R146, R147) -/

/-- The bytes of a stream binding (Table 5-9; R351 for a fabric binding). -/
def streamBytes : Option Stream → List Byte
  | none => List.replicate 64 0
  | some st =>
    natLe 8 (st.recAddr.toNat + if st.fabric then 1 + 4 * st.peer.toNat else 0) ++ natLe 8 st.done ++ List.replicate 48 0

/-- The vector save area (Table 5-9): bits above 512 * LANES are written as 0. -/
def State.vectorArea (s : State) : List Byte :=
  let h := s.hart
  natLe 4 h.vtype.toNat ++ natLe 4 1 ++ natLe 4 h.vl ++ natLe 4 h.lanes ++ natLe 8 (s.readCreg 0x016).toNat ++ List.replicate 40 0 ++
  h.v.toList.flatMap (fun v => natLe 2048 (v.toNat % 2 ^ (512 * h.lanes))) ++ h.m.toList.flatMap (fun m => natLe 4096 m.toNat) ++
  h.streams.toList.flatMap streamBytes

/-- The first codeword with an uncorrectable error among what `vsave` reads of the vector state (R140, R307): v0 to v31 below 512 * LANES, and m1 to m7. -/
def Hart.badSaved (h : Hart) : Option Nat :=
  h.bad.find? (fun c => (decide (c / 512 < 32) && decide (c % 512 * 64 < 512 * h.lanes)) || (decide (33 ≤ c / 512) && decide (c / 512 < 40)))

/-- `vsave` (R146). Whether it and `vrest`, which wait for the hart's last convoy (R153), close the open convoy is not among the closings that R15 lists: DESIGN
CHOICE, they leave it open (log 39). -/
def execVsave (a : Reg5) (s : State) : Host.Outcome State Fault Refusal :=
  runInstr { word := wVsave a, reads := [a], priv := true } s (fun s =>
    let s := s.upd (·.begin_)
    if (s.gs a).toNat % 64 ≠ 0 then .error ⟨0x05, s.gs a⟩
    else
      match (if s.hart.cur.isEmpty then s.hart.badSaved else none) with
      | some c => .ok (.trap (s.regError c).1 (s.regError c).2)
      | none =>
        match s.writeBlock 0 (s.gs a) s.vectorArea with
        | .ok s1 _ => .ok (.next s1)
        | .trap s1 t => .ok (.trap s1 t)
        | .hold s1 => .ok (.hold s1))

/-- The area breaks its layout (R147). -/
def vectorAreaBad (bs : List Byte) : Bool :=
  fieldOf bs 4 4 != 1 || fieldOf bs 2 2 != 0 || !vtypeLegal (BitVec.ofNat 16 (fieldOf bs 0 2)) || !([4, 8, 16, 32].contains (fieldOf bs 0xC 4)) ||
  !zeroIn bs 0x18 0x40 || (List.range 8).any (fun q => !zeroIn bs (0x17050 + 64 * q) (0x17080 + 64 * q))

/-- What rebinding the streams of a save area comes to. -/
inductive Rebind where
  | ok (s : State) (sts : List (Option Stream))
  | trap (s : State) (t : Trap)
  | hold (s : State)

/-- The stream bindings of a save area, each from its record (R146, R351; log 21). -/
def State.rebind (s : State) (hdr : Hdr) (bs : List Byte) : Nat → Nat → List (Option Stream) → Rebind
  | 0, _, acc => .ok s acc
  | n + 1, q, acc =>
    let a := fieldOf bs (0x17040 + 64 * q) 8
    if a = 0 then s.rebind hdr bs n (q + 1) (acc ++ [none])
    else
      let r := if a % 2 = 1 then s.readFabric hdr false (4 * q + 4) (BitVec.ofNat 64 (a / 64 * 64)) (BitVec.ofNat 4 (a / 4))
        else s.readStream hdr (4 * q + 4) (BitVec.ofNat 64 a)
      match r with
      | .ok s1 st => s1.rebind hdr bs n (q + 1) (acc ++ [some { st with done := fieldOf bs (0x17048 + 64 * q) 8 }])
      | .trap s1 t => .trap s1 t
      | .hold s1 => .hold s1

/-- The state that a save area gives a hart (R146). -/
def Hart.restore (h : Hart) (bs : List Byte) (sts : List (Option Stream)) : Hart :=
  { h with
    vtype := BitVec.ofNat 16 (fieldOf bs 0 2), vl := fieldOf bs 8 4, lanes := fieldOf bs 0xC 4,
    v := Vector.ofFn (fun (k : Fin 32) => BitVec.ofNat 16384 (fieldOf bs (0x40 + 2048 * k.val) 2048)),
    m := Vector.ofFn (fun (k : Fin 7) => BitVec.ofNat 32768 (fieldOf bs (0x10040 + 4096 * k.val) 4096)),
    streams := Vector.ofFn (fun (k : Fin 8) => sts.getD k.val none), bad := h.bad.filter (fun c => decide (sCode 0 ≤ c)) }

/-- `vrest` (R146). -/
def execVrest (a : Reg5) (s : State) : Host.Outcome State Fault Refusal :=
  let hdr : Hdr := { word := wVrest a, reads := [a], priv := true }
  runInstr hdr s (fun s =>
    let s := s.upd (·.begin_)
    if (s.gs a).toNat % 64 ≠ 0 then .error ⟨0x05, s.gs a⟩
    else
      match s.readBlock 0 (s.gs a) 94784 none with
      | .trap s1 t => .ok (.trap s1 t)
      | .hold s1 => .ok (.hold s1)
      | .ok s1 bs =>
        if vectorAreaBad bs then .ok (.trap s1 (hdr.ill 0x03))
        else
          match s1.rebind hdr bs 8 0 [] with
          | .trap s2 t => .ok (.trap s2 t)
          | .hold s2 => .ok (.hold s2)
          | .ok s2 sts => .ok (.next (s2.upd (·.restore bs sts))))

/-! ### brole (R161, R164, R165) -/

/-- The entry of tile k in TMAP maps a bank (Table 2-2). -/
def tmapNames (tmap : Word) (k bank : Nat) : Bool := tmap.toNat / 2 ^ (8 * k) % 256 == 128 + bank

/-- TMAP with the valid bits of the tiles that map one of the banks cleared. -/
def tmapWithout (tmap : Word) (banks : List Nat) : Word :=
  (List.range 8).foldl (fun t k => if banks.any (tmapNames tmap k) then t &&& ~~~(BitVec.ofNat 64 (2 ^ (8 * k + 7))) else t) tmap

/-- An unfinished copy reads or writes one of the banks of a core. -/
def State.copyInBanks (s : State) (core : Nat) (banks : List Nat) : Bool :=
  let hit := fun (p : Place) => match p with
    | .loc l _ => banks.any (fun b => decide (locBank core b 0 ≤ l) && decide (l < locBank core b 0 + 65536))
    | _ => false
  s.clusters.any (fun c => c.2.copies.any (fun k => k.left.any (fun i =>
    hit (s.translate k.agent .read (k.read i).addr).2 || hit (s.translate k.agent .write (k.write i 0).addr).2)))

/-- The roles of a core changed (R164): every bank whose role changes reads 0 and has the tile state of Table 7-1; TMAP entries that mapped a bank
leaving role TL lose their valid bit. -/
def State.changeRoles (s : State) (core : Nat) (new : Word) : State :=
  let c := s.getCore core
  let banks := (List.range 32).filter (fun b => bankRole new b != bankRole c.brole b)
  let left := banks.filter (fun b => bankRole c.brole b == 2)
  let s1 := s.mapHarts (fun h => if coreOf h.id = core then { h with tmap := tmapWithout h.tmap left } else h)
  let s2 := banks.foldl (fun (s : State) b => s.zeroed (locBank core b 0) 65536) s1
  s2.setCore core { c with brole := new, tiles := c.tiles.filter (fun t => !banks.contains t.1) }

/-- A dirty line whose write-back for a `brole` fails (R165, R307): its memory copy, the value that it had when memory last took the line, stands, and a machine-check record
says so. -/
def State.lostLine (s : State) (c : BadCopy) (num : Nat) : State :=
  let h := s.hart
  let line := c.cw / 64 * 64
  let s1 := ({ s with badCopies := s.badCopies.filter (fun x => x.cw / 64 != c.cw / 64) } : State).remember line (s.heldAt num line 64)
  ((s1.took).machineCheck 2 c.record (s.hartid h.id) h.ctxid.toNat c.cw (Config.value s1.free).toNat).markJob h.jobid

/-- The dirty lines with an uncorrectable error in the caches of the hart's core that a `brole` writes back: any of them may stand in a way that leaves role CC. The state, and
the lines that were lost. -/
def State.writeBack (s : State) : List BadCopy → List Nat → State × List Nat
  | [], acc => (s, acc)
  | c :: cs, acc =>
    match c.dirty with
    | none => s.writeBack cs acc
    | some num =>
      if Config.pick s.free % 2 = 0 || acc.contains (c.cw / 64 * 64) then s.took.writeBack cs acc
      else (s.took.lostLine c num).writeBack cs (acc ++ [c.cw / 64 * 64])

/-- A write is one into the cluster memory window (R193). -/
def PendWrite.toCluster (p : PendWrite) : Bool := decide (0xFFFFF10000000000 ≤ p.va.toNat) && decide (p.va.toNat < 0xFFFFF20000000000)

/-- Buffered writes of the cluster's other cores into cluster memory before a `brole` (R164): those of a hart arrive before it, or are held. -/
def State.clusterWrites (s : State) (core : Nat) : State :=
  ((s.allHarts.filter (fun h => clusterOf h.id == core / 8 && coreOf h.id != core && (h.sbuf ++ h.vbuf).any PendWrite.toCluster)).map (·.id)).foldl
    (fun s id => if Config.drained s.free && (s.getHart id).mayDrainS (s.getHart id).sbuf.length then s.took.drainAll id else s.took) s

/-- A held write into cluster memory under the layout that stands now; one that its window no longer backs writes nothing (log 7). -/
def State.relocate (s : State) (cluster : Nat) (ps : List PendWrite) : List PendWrite :=
  ps.filterMap (fun p =>
    if p.toCluster then
      match s.clusterMem cluster (p.va.toNat - 0xFFFFF10000000000) with
      | .loc l _ => some { p with loc := l }
      | _ => none
    else some p)

/-- The writes into cluster memory that a `brole` has held perform under the new layout (R164). -/
def State.relocateAll (s : State) (cluster : Nat) : State :=
  s.mapHarts (fun h => if clusterOf h.id = cluster then { h with sbuf := s.relocate cluster h.sbuf, vbuf := s.relocate cluster h.vbuf } else h)

/-- Vector, tile or engine work of a hart has not ended: convoys that have not begun or that run, and an instruction that has begun and waits (R164). -/
def Hart.working (h : Hart) : Bool := !h.vq.isEmpty || !h.busy.isEmpty || !h.late.isEmpty || h.inUse.isSome

/-- `brole` (R164, R165): it waits for transfers into the banks that change and for the vector, tile and engine work of every hart of the core; their buffers perform. -/
def execBrole (a : Reg5) (s : State) : Host.Outcome State Fault Refusal :=
  runInstr { word := wBrole a, reads := [a], serial := true, priv := true } s (fun s =>
    let core := coreOf s.hart.id
    let old := (s.getCore core).brole
    let new := s.gs a &&& 0xFFFFFFFFFFFFFF00
    let banks := (List.range 32).filter (fun b => bankRole new b != bankRole old b)
    if s.copyInBanks core banks || s.allHarts.any (fun h => coreOf h.id == core && h.working) then .ok (.hold (s.stalled .role))
    else
      let s0 := s.clusterWrites core
      let s1 := ((s0.allHarts.filter (fun h => coreOf h.id == core)).foldl (fun s h => s.drainAll h.id) s0)
      let s2 := (s1.changeRoles core new).relocateAll (core / 8)
      let bad := s2.badCopies.filter (fun c => (c.unit == 1 || c.unit == 2) && c.owner == core)
      match s2.writeBack (if banks.any (fun b => bankRole old b == 0) then bad else []) [] with
      | (s3, []) => .ok (.next s3)
      | (s3, l :: _) => .ok (.trap (s3.upd (fun h => h.retire false (h.pc + 4))) ⟨0x0C, BitVec.ofNat 64 l⟩))

end Sys2Proof.Machine
end

