-- ==== Sys2Proof/Machine/Tiles.lean ====
section
/-! DEFINITION. The tile engine: mapping and state of tiles, K-blocks, rank updates, rows in and out, the epilogue, saving tiles
(07 R174 to R188). -/

namespace Sys2Proof.Machine

open Sys2Proof

/-! ### Tiles and their banks (R174, R175) -/

/-- The bank that a hart's TMAP maps a tile to, if the tile is mapped (R174). -/
def State.tileBank (s : State) (t : BitVec 3) : Option Nat :=
  let e := s.hart.tmap.toNat / 2 ^ (8 * t.toNat) % 256
  let b := e % 32
  if 128 ≤ e && 4 ≤ b && bankRole (s.getCore (coreOf s.hart.id)).brole b == 2 then some b else none

/-- The tile of a bank of the hart's core. -/
def State.getTile (s : State) (b : Nat) : Tile := (tabGet (s.getCore (coreOf s.hart.id)).tiles b).getD Tile.init

/-- The tile of a bank of the hart's core set. -/
def State.setTile (s : State) (b : Nat) (t : Tile) : State :=
  let k := coreOf s.hart.id
  let c := s.getCore k
  s.setCore k { c with tiles := tabPut c.tiles b t }

/-- The location of accumulator (i, j) of a bank of the hart's core (R175). -/
def State.accLoc (s : State) (b i j : Nat) : Nat := locBank (coreOf s.hart.id) b ((i * 128 + j) * 4)

/-- The 32-bit values that bytes hold. -/
def words32 : List Byte → List Nat
  | a :: b :: c :: d :: rest => leNat [a, b, c, d] :: words32 rest
  | _ => []

/-- The first n accumulators of a row. -/
def State.accRow (s : State) (b i n : Nat) : List Nat := words32 (memRead (4 * n) (s.accLoc b i 0) s.mem)

/-- The first accumulators of a row set. -/
def State.putAccRow (s : State) (b i : Nat) (xs : List Nat) : State :=
  { s with mem := memPut s.mem (s.accLoc b i 0) (xs.flatMap (natLe 4)) }

/-- The header of a tile instruction. -/
def tileHdr (p b : IWord) (j : BitVec 1) : Hdr := { word := p, body := some b, unit := some .tile, j := j == 1, vo := true }

/-- The TILE unit of the core runs an instruction of another hart, which acts on tile state as one whole (R176). -/
def State.tileTaken (s : State) (id : Nat) : Bool := s.allHarts.any (fun h => coreOf h.id == coreOf id && h.id != id && h.run && h.inUse == some .tile)

/-- A tile instruction: it waits for the TILE unit, and has it until it retires or traps where it waits for answers or for credit (R176). -/
def tileRun (hdr : Hdr) (s : State) (f : State → Except Trap Eff) : Host.Outcome State Fault Refusal :=
  runInstr hdr s (fun s =>
    if s.tileTaken s.hart.id then .ok (.hold (s.stalled .held)) else f s)

/-- The bank of a tile, or TM (R174). -/
def State.needTile (s : State) (t : BitVec 3) : Except Trap Nat :=
  match s.tileBank t with
  | some b => .ok b
  | none => .error ⟨0x06, BitVec.ofNat 64 t.toNat⟩

/-- The first bad codeword of a tile's bank (R307). -/
def State.tileBad (s : State) (b : Nat) : Option Nat :=
  s.ecc.find? (fun w => decide (s.accLoc b 0 0 ≤ w) && decide (w < s.accLoc b 0 0 + 65536))

/-- An instruction that reads a tile: an uncorrectable error in its bank traps ECC by precise unwind, a non-memory path (R140), unless the instruction has begun and read it. -/
def State.readsTile (s : State) (b : Nat) (f : State → Eff) : Eff :=
  match (if s.hart.cur.isEmpty then s.tileBad b else none) with
  | some l => .trap (s.eccFound s.hart.id l) ⟨0x0C, 0⟩
  | none => f s

/-- ILL that depends on the state of a tile (R354 step 7). -/
def tileChecks (hdr : Hdr) (bad03 bad0B : Bool) : Except Trap Unit :=
  if bad03 then .error (hdr.ill 0x03) else if bad0B then .error (hdr.illBody 0x0B) else .ok ()

/-! ### Open K-blocks (R179, R180) -/

/-- The value that a block adds to its accumulator at `close`, before its scales (R180). -/
def BlkCell.value (c : BlkCell) : FVal × Exc :=
  if c.nan then (.nan, {})
  else if c.pinf && c.ninf then (.nan, { nv := true })
  else if c.pinf then (.inf false, {})
  else if c.ninf then (.inf true, {})
  else (FVal.ofInt false c.sum (-288), {})

/-- A value times two scales (R50). -/
def scaleTwice (v : FVal × Exc) (x y : Nat) : FVal × Exc :=
  let (a, e) := scaleBy v.1 x
  let (b, e') := scaleBy a y
  (b, (v.2.or e).or e')

/-- `close` of one accumulator. -/
def closeOne (c : Nat) (blk : Option BlkCell) (x y : Nat) : Nat × Exc :=
  let (p, e) := scaleTwice (match blk with
    | some k => k.value
    | none => (.num false 0 0, {})) x y
  let (z, e') := toF32 .rne (FVal.add .rne (FName.f32.read c) p)
  (z, e.or e')

/-- `close` of the accumulators from column j of a row; `blk` are the row's cells, ascending, `base` the position of its first. -/
def closeRow (bsb : Vector Byte 128) (x base : Nat) : Nat → List Nat → List BlkCell → List Nat × Exc
  | _, [], _ => ([], {})
  | j, c :: cs, blk =>
    let cell := match blk with
      | k :: _ => if k.pos = base + j then some k else none
      | [] => none
    let (z, e) := closeOne c cell x (bsb.getD j 127).toNat
    let (zs, e') := closeRow bsb x base (j + 1) cs (if cell.isSome then blk.drop 1 else blk)
    (z :: zs, e.or e')

/-- `close` (R179): the open block of a tile, if it has one, is rounded into its accumulators; the exceptions go to FCSR (R180). -/
def State.closeTile (s : State) (b : Nat) : State :=
  let t := s.getTile b
  if t.kc = 0 then s
  else
    let (s1, e) := (List.range t.tm).foldl (fun (acc : State × Exc) i =>
      let (row, e) := closeRow t.bsb (t.bsa.getD i 127).toNat (i * 128) 0 (acc.1.accRow b i t.tn)
        (t.blk.filter (fun k => decide (i * 128 ≤ k.pos) && decide (k.pos < i * 128 + t.tn)))
      (acc.1.putAccRow b i row, acc.2.or e)) (s, {})
    (s1.setTile b { t with kc := 0, blk := t.blk.filter (fun k => !(decide (k.pos / 128 < t.tm) && decide (k.pos % 128 < t.tn))) }).upd (·.raise e)

/-- One product added to a block (R180): its exact sum times 2^288, or a mark. -/
def BlkCell.term (c : BlkCell) (a b : FVal) : BlkCell × Exc :=
  match FVal.mul a b with
  | (.nan, e) => ({ c with nan := true }, e)
  | (.inf neg, e) => (if neg then { c with ninf := true } else { c with pinf := true }, e)
  | (.num neg m x, e) => ({ c with sum := c.sum + sgnInt neg (m * 2 ^ (x + 288).toNat) }, e)

/-- Products added to the blocks of ascending positions; a block that is zero and unmarked is not listed. -/
def blkMerge : List BlkCell → List (Nat × List (FVal × FVal)) → List BlkCell × Exc
  | old, [] => (old, {})
  | old, (pos, ts) :: rest =>
    let low := old.takeWhile (fun k => decide (k.pos < pos))
    let high := old.dropWhile (fun k => decide (k.pos < pos))
    let c0 : BlkCell := match high with
      | k :: _ => if k.pos = pos then k else ⟨pos, false, false, false, 0⟩
      | [] => ⟨pos, false, false, false, 0⟩
    let (c, e) := ts.foldl (fun (acc : BlkCell × Exc) p =>
      let (c, e) := acc.1.term p.1 p.2
      (c, acc.2.or e)) (c0, {})
    let (out, e') := blkMerge (high.dropWhile (fun k => k.pos == pos)) rest
    (low ++ (if c.nan || c.pinf || c.ninf || c.sum != 0 then [c] else []) ++ out, e.or e')

/-! ### tcfg, tzero (R177) -/

/-- The bytes of a tile's bank zeroed. -/
def State.zeroTile (s : State) (b : Nat) : State :=
  let l := s.accLoc b 0 0
  { s with mem := memClear s.mem l 65536, ecc := s.ecc.filter (fun w => !(decide (l ≤ w) && decide (w < l + 65536))) }

/-- `tcfg` (R177). -/
def execTcfg (t fc : BitVec 3) (sa : Reg5) (j : BitVec 1) (s : State) : Host.Outcome State Fault Refusal :=
  let hdr := { tileHdr (wTcfg t fc) (bTcfg sa j) j with bad0B := decide (1 < fc.toNat) }
  tileRun hdr s (fun s =>
    let x := (s.gs sa).toNat
    match require (x / 2 ^ 15 == 0 && x / 2 ^ 7 % 2 == 0) (hdr.ill 0x03) with
    | .error e => .error e
    | .ok _ =>
      match s.needTile t with
      | .error e => .error e
      | .ok b => .ok (.next ((s.zeroTile b).setTile b
          { s.getTile b with curd := false, f32 := fc == 1, tm := x % 128 + 1, tn := x / 2 ^ 8 % 128 + 1, kc := 0, blk := [],
                             bsa := Vector.replicate 128 127, bsb := Vector.replicate 128 127 })))

/-- `tzero` (R177). -/
def execTzero (t : BitVec 3) (j : BitVec 1) (s : State) : Host.Outcome State Fault Refusal :=
  tileRun (tileHdr (wTzero t) (bTzero j) j) s (fun s =>
    match s.needTile t with
    | .error e => .error e
    | .ok b => .ok (.next ((s.zeroTile b).setTile b { s.getTile b with curd := false, kc := 0, blk := [] })))

/-! ### vopa (R178 to R180) -/

/-- The width of an operand format code (R178): SEW for code 0. -/
def fmtWidth (code : BitVec 3) (sew : Nat) : Nat :=
  match code.toNat with
  | 0 => sew | 1 => 32 | 2 => 16 | 3 => 16 | 4 => 8 | 5 => 8 | _ => 4

/-- The value of an operand element of a format code (R178), `idx` its place in its group, `nib` the 4-bit codes of the group, `ox` its OX. -/
def tileValue (code : BitVec 3) (w raw idx : Nat) (nib : Nat → Nat) (ox : Nat) : FVal :=
  match code.toNat with
  | 0 => FVal.ofInt false (bitsInt true w raw) 0
  | 1 => FName.f32.read raw
  | 2 => FName.f16.read raw
  | 3 => FName.bf16.read raw
  | 4 => FName.e4m3.read raw
  | 5 => FName.e5m2.read raw
  | 6 => FName.e2m1.read raw
  | _ => i4xValue (nib (idx / 2 * 2)) (nib (idx / 2 * 2 + 1)) ox (idx % 2 == 1)

/-- The scale entry of row or column k in a paired register (R178): E8M0 in [7:0] and OX in [11:8]. -/
def rowScale (code : BitVec 3) (v : VBits) (k : Nat) : Nat :=
  if code = 7 then v.toNat / 2 ^ (16 * k) % 2 ^ 16 else v.toNat / 2 ^ (8 * k) % 2 ^ 8

/-- The operands of a rank update: the rank, the values of each row and column, and their E8M0 scales. -/
structure RankOps where
  r  : Nat
  a  : List (List FVal)
  b  : List (List FVal)
  sa : List Nat
  sb : List Nat

/-- The rank update of an f32 tile from f32 operands (R179). -/
def State.rankF32 (s : State) (bank : Nat) (t : Tile) (o : RankOps) : State × Exc :=
  (List.range t.tm).foldl (fun (acc : State × Exc) i =>
    let (x, ex) := scaleBy ((o.a.getD i []).headD .nan) (o.sa.getD i 127)
    let row := ((acc.1.accRow bank i t.tn).zip ((o.b.map (·.headD .nan)).zip o.sb)).map (fun c =>
      let (y, ey) := scaleBy c.2.1 c.2.2
      let (p, ep) := FVal.mul x y
      let (z, ez) := toF32 .rne (FVal.add .rne (FName.f32.read c.1) p)
      (z, ((ex.or ey).or ep).or ez))
    (acc.1.putAccRow bank i (row.map (·.1)), row.foldl (fun (e : Exc) p => e.or p.2) acc.2)) (s, {})

/-- The rank update of an int32 tile (R179). -/
def State.rankInt (s : State) (bank : Nat) (t : Tile) (r : Nat) (a b : Nat → Nat → Int) : State :=
  (List.range t.tm).foldl (fun s i =>
    s.putAccRow bank i ((s.accRow bank i t.tn).mapIdx (fun n (c : Nat) =>
      intBits 32 ((c : Int) + (List.range r).foldl (fun acc j => acc + a i j * b n j) 0)))) s

/-- The rank update of an f32 tile from operands of 16 bits or fewer (R179): the open block closes when it would pass 32 values or a scale changes. -/
def State.rankBlock (s : State) (bank : Nat) (o : RankOps) : State × Exc :=
  let t := s.getTile bank
  let differs := (List.range t.tm).any (fun i => (t.bsa.getD i 127).toNat != o.sa.getD i 127) ||
    (List.range t.tn).any (fun n => (t.bsb.getD n 127).toNat != o.sb.getD n 127)
  let s1 := if t.kc ≠ 0 && (decide (32 < t.kc + o.r) || differs) then s.closeTile bank else s
  let t1 := s1.getTile bank
  let t2 := if t1.kc = 0 then
      { t1 with bsa := t1.bsa.mapFinIdx (fun i x _ => if i < t1.tm then BitVec.ofNat 8 (o.sa.getD i 127) else x),
                bsb := t1.bsb.mapFinIdx (fun n x _ => if n < t1.tn then BitVec.ofNat 8 (o.sb.getD n 127) else x) }
    else t1
  let terms := (o.a.mapIdx (fun i x => o.b.mapIdx (fun n y => (i * 128 + n, x.zip y)))).flatten
  let (blk, e) := blkMerge t2.blk terms
  let s2 := s1.setTile bank { t2 with blk := blk, kc := t2.kc + o.r }
  (if t2.kc + o.r = 32 then s2.closeTile bank else s2, e)

/-- `vopa` (R178 to R180). DESIGN CHOICE (log 39): VSTART does not shorten its register operands, of which it reads every element (R178); and whether the
accumulator is f32, for a paired scale register beyond v31, is read from the operand codes at step 4 of R354, not from the tile's FMT at step 7. -/
def execVopa (t fa fb : BitVec 3) (sm : BitVec 2) (a b : Reg5) (j : BitVec 1) (s : State) : Host.Outcome State Fault Refusal :=
  let hdr := { tileHdr (wVopa t fa fb sm) (bVopa a b j) j with
    bad0B := fa != 0 && fb != 0 && fmtWidth fa 0 != fmtWidth fb 0 }
  tileRun hdr s (fun s =>
    let h := s.hart
    let isInt := fa == 0 && fb == 0
    let w := fmtWidth (if fa = 0 then fb else fa) h.sew
    let r := 32 / w
    let coded := fa == 0 || fb == 0
    let bad03 := h.sew != w || (coded && !([4, 8, 16].contains h.sew))
    let bad07 := !isInt && ((sm.getLsbD 0 && decide (31 < a.toNat + h.lmul)) || (sm.getLsbD 1 && decide (31 < b.toNat + h.lmul)))
    let oa := h.opd a
    let ob := h.opd b
    match stepFour hdr h bad03 bad07 false [oa, ob] [] with
    | .error e => .error e
    | .ok _ =>
      match s.needTile t with
      | .error e => .error e
      | .ok bank =>
        let tile := s.getTile bank
        match tileChecks hdr (h.vl != tile.tm * r || decide (h.vlmax < tile.tn * r)) (tile.curd || (isInt == tile.f32)) with
        | .error e => .error e
        | .ok _ =>
          .ok (s.readsTile bank (fun s =>
            match s.fetchSources (if a = b then max h.vl (tile.tn * r) else h.vl) [oa] [] with
            | (_, .error e) => e
            | (s1, .ok va) =>
              match (if a = b then (s1, .ok va) else s1.fetchSources (tile.tn * r) [ob] []) with
              | (_, .error e) => e
              | (s2, .ok vb) =>
                let scale := fun (on : Bool) (code : BitVec 3) (reg : Reg5) (n : Nat) =>
                  (if on && !isInt then [(⟨BitVec.ofNat 5 (reg.toNat + h.lmul), 1, if code = 7 then 16 else 8⟩, 0, n)] else [] : List (VOpd × Nat × Nat))
                s2.reading ([(oa, 0, h.vl), (ob, 0, tile.tn * r)] ++ scale (sm.getLsbD 0) fa a tile.tm ++ scale (sm.getLsbD 1) fb b tile.tn) <|
                let ra := h.srcVal [oa] va 0
                let rb := h.srcVal [ob] vb 0
                let done := fun (s : State) =>
                  Eff.next (s.upd (fun h =>
                    let ka := h.vl - h.vstart.toNat
                    let kb := tile.tn * r - h.vstart.toNat
                    if a = b then h.advance [oa] (max ka kb) else (h.advance [oa] ka).advance [ob] kb))
                if isInt then
                  done (s2.rankInt bank tile r (fun i k => bitsInt true w (ra (k * tile.tm + i))) (fun n k => bitsInt true w (rb (k * tile.tn + n))))
                else
                  let entry := fun (scaled : Bool) (code : BitVec 3) (reg : Reg5) (k : Nat) =>
                    if scaled then rowScale code (h.v.getD (reg.toNat + h.lmul) 0) k else 127
                  let vals := fun (code : BitVec 3) (raw : Nat → Nat) (scaled : Bool) (reg : Reg5) (count : Nat) =>
                    (List.range count).map (fun i => (List.range r).map (fun k =>
                      tileValue code w (raw (k * count + i)) (k * count + i) raw (entry scaled code reg i / 2 ^ 8 % 16)))
                  let ops : RankOps :=
                    { r := r, a := vals fa ra (sm.getLsbD 0) a tile.tm, b := vals fb rb (sm.getLsbD 1) b tile.tn,
                      sa := (List.range tile.tm).map (fun i => entry (sm.getLsbD 0) fa a i % 256),
                      sb := (List.range tile.tn).map (fun n => entry (sm.getLsbD 1) fb b n % 256) }
                  let (s3, e) := if w = 32 then (s2.closeTile bank).rankF32 bank tile ops else s2.rankBlock bank ops
                  done (s3.upd (·.raise e)))))

/-! ### Rows as elements (R182, R185) -/

/-- The elements of a row: the pieces of its bytes, with the row in the low bits of their numbers and their bytes for a store. -/
def rowElems (op : ROp) (i : Nat) (va : Word) (n : Nat) (bs : List Byte) : List RElem :=
  let rec go : Nat → List (Word × Nat) → List Byte → List RElem
    | _, [], _ => []
    | k, p :: ps, bs => ⟨i + 2 ^ 32 * (k + 1), p.1, p.2, op, leNat (bs.take p.2), 0⟩ :: go (k + 1) ps (bs.drop p.2)
  go 0 (blockPieces (n + 1) va n) bs

/-- An uncorrectable error that a row's data has: the row, the location where the model holds it, and the address. -/
abbrev RowBad := Nat × Option Nat × Word

/-- The entry among the data that says that row i has performed. -/
def rowMark (i : Nat) : Nat := 2 ^ 63 + i

/-- Performing rows in ascending order, each whole; an uncorrectable error stops it at the lowest such row unless a row below has faulted (R141). -/
def State.performRows (s : State) (own : Nat) (faulted : List Nat) : List Nat → List Placed → State × List (Nat × Nat) × Option RowBad
  | [], _ => (s, [], none)
  | i :: is, ps =>
    match s.performPlaced own true (ps.filter (fun p => elemNo p.elem == i)) with
    | (s1, ds, .done) =>
      let (s2, ds2, r) := s1.performRows own faulted is ps
      (s2, (rowMark i, 1) :: (ds ++ ds2), r)
    | (s1, _, .ecc e l) => if faulted.any (fun f => decide (f < i)) then s1.performRows own faulted is ps else (s1, [], some (i, l, e.addr))

/-- What has been read of rows before they perform: the elements and the data of their reads, their faults, and the first with an uncorrectable error. -/
structure RowReads where
  es   : List RElem
  ds   : List (Nat × Nat)
  fs   : List (FaultElem × Bool)
  bad  : Option RowBad

/-- No reads. -/
def RowReads.none : RowReads := ⟨[], [], [], .none⟩

/-- Reading elements of the rows `is` (R132, R134), or the requests that this takes. -/
def State.readRows (s : State) (is : List Nat) (es : List RElem) : Except (State × List (Nat × RElem)) (State × RowReads) :=
  let own := s.hart.id
  let (s1, ps) := s.placeAll own .translate es
  if needsOf ps ≠ [] then .error (s1, needsOf ps)
  else
    let fs := faultsOf ps
    let faulted := fs.map (·.1.idx)
    let (s2, ds, bad) := s1.performRows own faulted (is.filter (fun i => !faulted.contains i)) ps
    .ok (s2, ⟨es, ds, fs, bad⟩)

/-- Running the rows `is` of a tile instruction, with their elements `es` (R132, R134, R182, R185): `pre` is what has been read for them. -/
def State.runRows (s : State) (hdr : Hdr) (r : Route) (n : Nat) (is : List Nat) (es : List RElem) (pre : RowReads) : Elems :=
  let own := s.hart.id
  let (s1, ps0) := s.placeAll own r es
  let ps := ps0.map s1.hart.probed
  let fs := mergeFaults is pre.fs (faultsOf ps)
  let faulted := fs.map (·.1.idx)
  let live := ps.filter (fun p => !faulted.contains (elemNo p.elem))
  let came := pre.es.filterMap (fun e => (tabGet s1.hart.answers e.idx).map (fun a => placedOf e 0 e (answerRes a)))
  let stop := s1.hart.stopIn is faulted (ps ++ came)
  let want := (needsOf live).filter (fun e => match stop with
    | some k => decide (elemNo e.2 < k)
    | none => true)
  if want ≠ [] then s1.askRows r s1.hart.vstart.toNat live want
  else
    let rows := (match stop with
      | some k => is.filter (fun i => decide (i < k))
      | none => is).filter (fun i => !faulted.contains i)
    let cut := match pre.bad with
      | some (q, _) => if faulted.any (fun f => decide (f < q)) then none else some q
      | none => none
    let rows1 := match cut with
      | some q => rows.filter (fun i => decide (i < q))
      | none => rows.filter (fun i => match pre.bad with
        | some (q, _) => i != q
        | none => true)
    match s1.performRows own faulted rows1 live with
    | (s2, ds, some (q, l, va)) => .stop (s2.drainEntry.eccAt own l) ds q ⟨0x0C, va⟩
    | (s2, ds, none) =>
      match cut, pre.bad, stop with
      | some q, some (_, l, va), _ => .stop (s2.drainEntry.eccAt own l) ds q ⟨0x0C, va⟩
      | _, _, some k => .int s2.drainEntry ds k
      | _, _, none =>
        if fs = [] then .all s2 ds
        else
          let (s3, first, t) := s2.partialStop r hdr n s2.hart.vstart.toNat (pre.es ++ withProbes es) fs
          .stop s3 ds first t

/-- The interlock entry of a row instruction: the bytes of rows 0 to `n` - 1 at a base and a stride (R182, R184). -/
def State.lockRows (s : State) (base stride : Word) (n bytes : Nat) (more : List (Word × Nat)) : State :=
  s.openLock s.hart.id (linesOf (spanOf base stride n bytes :: more))

/-- The rows that have performed. -/
def rowsDone (is : List Nat) (ds : List (Nat × Nat)) : List Nat := is.filter (fun i => (tabGet ds (rowMark i)).isSome)

/-- The bytes that a row's loads gave. -/
def rowBytes (es : List RElem) (ds : List (Nat × Nat)) (i : Nat) : List Byte :=
  (es.filter (fun e => elemNo e == i)).flatMap (fun e => natLe e.n ((tabGet ds e.idx).getD 0))

/-- Reading a record of `n` bytes at issue, with the record's address as TVAL of a fault. -/
def State.issueRecord (s : State) (tag : Nat) (va : Word) (align n : Nat) : Blk :=
  if va.toNat % align ≠ 0 then .trap s ⟨0x05, va⟩ else s.readBlock tag va n (some va)

/-- AL of a base and a stride that a record gives (R142, R354 step 8). -/
def baseStride (base stride : Word) (m : Nat) : Option Trap :=
  if base.toNat % m ≠ 0 then some ⟨0x05, base⟩ else if stride.toNat % m ≠ 0 then some ⟨0x05, base + stride⟩ else none

/-- A 64-bit field of a block. -/
def fieldW (bs : List Byte) (off : Nat) : Word := BitVec.ofNat 64 (fieldOf bs off 8)

/-! ### tld, tst, trow (R182, R183) -/

/-- The checks of `tld`, `tst` before their rows, then `k` with the bank and the row record's BASE and STRIDE (R182). DESIGN CHOICE (log 39): with VL = 0 they, and
`tepi`, still read and check their record and close the open block, of which R43 and R278 say so for `gmm` alone. -/
def rowMove (hdr : Hdr) (t : BitVec 3) (f32 : Bool) (row : BitVec 7) (sa : Reg5) (k : State → Nat → Word → Word → Eff) (s : State) :
    Host.Outcome State Fault Refusal :=
  tileRun hdr s (fun s =>
    match s.needTile t with
    | .error e => .error e
    | .ok b =>
      let tile := s.getTile b
      match tileChecks hdr (decide (tile.tm < row.toNat + s.hart.vl)) (tile.curd || tile.f32 != f32) with
      | .error e => .error e
      | .ok _ =>
        match s.issueRecord 0 (s.gs sa) 8 16 with
        | .trap s1 e => .ok (.trap s1 e)
        | .hold s1 => .ok (.hold s1)
        | .ok s1 bs =>
          match baseStride (fieldW bs 0) (fieldW bs 8) 4 with
          | some e => .ok (.trap s1 e)
          | none => .ok ((s1.readsTile b (fun s => k s b (fieldW bs 0) (fieldW bs 8))).keeps (blockData 0 (s.gs sa) bs)))

/-- The address of row i of a row or epilogue record. -/
def strideAddr (base stride : Word) (i : Nat) : Word := base + BitVec.ofInt 64 (stride.toInt * i)

/-- `tld` (R182). -/
def execTld (t fc : BitVec 3) (r : BitVec 7) (sa : Reg5) (j : BitVec 1) (s : State) : Host.Outcome State Fault Refusal :=
  let hdr := { tileHdr (wTld t fc r) (bTld sa j) j with bad0B := decide (1 < fc.toNat) }
  rowMove hdr t (fc == 1) r sa (fun s b base stride =>
    let n := (s.getTile b).tn
    let is := s.hart.activeMem 0 s.hart.vl
    let es := is.flatMap (fun i => rowElems .load i (strideAddr base stride i) (4 * n) [])
    if s.copyBlocks s.hart.id es then .hold (s.stalled .held)
    else
      ((s.closeTile b).runRows hdr .translate s.hart.vl is es .none).finish (fun s ds =>
        (rowsDone is ds).foldl (fun s i => s.putAccRow b (r.toNat + i) (words32 (rowBytes es ds i))) s)) s

/-- `tst` (R182). -/
def execTst (t fc : BitVec 3) (r : BitVec 7) (sa : Reg5) (j : BitVec 1) (s : State) : Host.Outcome State Fault Refusal :=
  let hdr := { tileHdr (wTst t fc r) (bTst sa j) j with bad0B := decide (1 < fc.toNat) }
  rowMove hdr t (fc == 1) r sa (fun s b base stride =>
    let n := (s.getTile b).tn
    let is := s.hart.activeMem 0 s.hart.vl
    let s1 := s.closeTile b
    let es := is.flatMap (fun i => rowElems .store i (strideAddr base stride i) (4 * n) ((s1.accRow b (r.toNat + i) n).flatMap (natLe 4)))
    if s.copyBlocks s.hart.id es then .hold (s.stalled .held)
    else ((s1.lockRows base stride s.hart.vl (4 * n) []).runRows hdr .translate s.hart.vl is es .none).finish (fun s _ => s)) s

/-- `trow` (R183). -/
def execTrow (t : BitVec 3) (r : BitVec 7) (d : Reg5) (j : BitVec 1) (s : State) : Host.Outcome State Fault Refusal :=
  let hdr := tileHdr (wTrow t r) (bTrow d j) j
  tileRun hdr s (fun s =>
    let h := s.hart
    match stepFour hdr h (h.sew != 32) false false [] [h.opd d] with
    | .error e => .error e
    | .ok _ =>
      match s.needTile t with
      | .error e => .error e
      | .ok b =>
        let tile := s.getTile b
        match tileChecks hdr (decide (tile.tm ≤ r.toNat) || decide (tile.tn < h.vl)) tile.curd with
        | .error e => .error e
        | .ok _ =>
          .ok (s.readsTile b (fun s =>
            let s1 := s.closeTile b
            let row := s1.accRow b r.toNat tile.tn
            s1.putResult hdr h.vl [] (h.opd d) ((h.active 0 h.vl).map (fun i => (i, row.getD i 0))) (fun _ s => s))))

/-! ### tepi (R184 to R186) -/

/-- The bits of an output element of a result format code. -/
def outWidth (fc : BitVec 3) : Nat :=
  match fc.toNat with
  | 0 => 32 | 1 => 32 | 2 => 16 | 3 => 16 | 4 => 8 | 5 => 8 | 6 => 4 | _ => 8

/-- A value converted to a result format (R184). -/
def outConvert (fc : BitVec 3) (rm : RM) (sat : Bool) (v : FVal × Exc) : Nat × Exc :=
  let (c, e) := match fc.toNat with
    | 0 => v.1.toIntFmt rm true 32
    | 1 => FName.f32.round rm sat v.1
    | 2 => FName.f16.round rm sat v.1
    | 3 => FName.bf16.round rm sat v.1
    | 4 => FName.e4m3.round rm sat v.1
    | 5 => FName.e5m2.round rm sat v.1
    | 6 => FName.e2m1.round rm sat v.1
    | _ => v.1.toIntFmt rm true 8
  (c, v.2.or e)

/-- Elements of w bits packed into bytes, the first lowest (R44). -/
def packBytes (w : Nat) (xs : List Nat) : List Byte :=
  natLe ((xs.length * w + 7) / 8) (xs.foldr (fun x acc => x % 2 ^ w + 2 ^ w * acc) 0)

/-- An accumulator as an exact value. -/
def accValue (f32 : Bool) (c : Nat) : FVal := if f32 then FName.f32.read c else FVal.ofInt false (bitsInt true 32 c) 0

/-- y of R184: an accumulator times its row and column scales, plus its bias. -/
def epiValue (c rs cs bias : FVal) (rm : RM) : FVal × Exc :=
  let (a, e1) := FVal.mul c rs
  let (b, e2) := FVal.mul a cs
  let (y, e3) := FVal.add rm b bias
  (y, (e1.or e2).or e3)

/-- The column arrays of an epilogue record as read at issue; a missing one stands for 1 or 0 (R184). -/
structure EpiCols where
  cs   : List Nat
  bias : List Nat

/-- The output row of tile row q (R184), `rs` its row scale's code where one is used. -/
def State.epiRow (s : State) (b : Nat) (fc : BitVec 3) (cols : EpiCols) (rs : Option Nat) (q : Nat) : List Byte × Exc :=
  let h := s.hart
  let t := s.getTile b
  let one : FVal := .num false 1 0
  let f := fun (c : Option Nat) (d : FVal) => match c with
    | some x => FName.f32.read x
    | none => d
  let out := (s.accRow b q t.tn).mapIdx (fun j c =>
    outConvert fc h.vrm h.satBit (epiValue (accValue t.f32 c) (f rs one) (f cols.cs[j]? one) (f cols.bias[j]? (.num false 0 0)) h.vrm))
  (packBytes (outWidth fc) (out.map (·.1)), out.foldl (fun (e : Exc) p => e.or p.2) {})

/-- The record of an epilogue breaks its layout (Table 7-6), or its stream is not bound for output. -/
def State.epiRecordBad (s : State) (bs : List Byte) : Bool :=
  let fl := fieldOf bs 0x28 8
  !zeroIn bs 0x30 0x40 || fl / 32 != 0 || fl / 8 % 2 != 0 ||
  (fl.testBit 4 && !(match s.hart.stream (BitVec.ofNat 5 (24 + fl % 8)) with
    | some st => st.out
    | none => false))

/-- The column arrays of an epilogue, read by the precise regime (R184). -/
def State.epiCols (s : State) (bs : List Byte) (sm : BitVec 2) (n : Nat) : Blk × Option EpiCols :=
  let bias := fieldW bs 0x20
  match (if sm.getLsbD 1 then s.readBlock 4 (fieldW bs 0x18) (4 * n) none else .ok s []) with
  | .ok s1 cs =>
    match (if bias = 0 then .ok s1 [] else s1.readBlock 5 bias (4 * n) none) with
    | .ok s2 b => (.ok s2 [], some ⟨words32 cs, words32 b⟩)
    | r => (r, none)
  | r => (r, none)

/-- The reads of the row scales of the rows `is` (R184). -/
def scaleElems (base : Word) (row : Nat) (is : List Nat) : List RElem :=
  is.flatMap (fun i => (rowElems .load i (base + BitVec.ofNat 64 (4 * (row + i))) 4 []).map (fun e => { e with idx := e.idx + 2 ^ 50 }))

/-- The stream elements that a row of `len` bytes fills (R185, log 22). -/
def rowLength (st : Stream) (len : Nat) : Nat :=
  let n := 4 * 2 ^ st.sew.toNat / 8
  (len + n - 1) / n

/-- The stream elements that the bytes of row i make up, in order (R185); zeros fill up the last one (log 22). -/
def streamRow (st : Stream) (vstart i : Nat) (bs : List Byte) : List RElem :=
  let n := 4 * 2 ^ st.sew.toNat / 8
  let m := rowLength st bs.length
  ((appendElems { st with done := st.done + (i - vstart) * m } 0 ((List.range m).map (fun k => (k, leNat ((bs.drop (k * n)).take n)))))).map
    (fun e => { e with idx := i + 2 ^ 32 * (e.idx + 1) })

/-- The row below which a stream's endpoint has credit for the rows (R185, R186): for any number of them, after a handover at least one; with a request pending, no
further row is computed. It stands until those rows have been handed over. -/
def State.credited (s : State) (is : List Nat) : State × Nat :=
  let h := s.hart
  match h.credit with
  | some c => (s, c)
  | none =>
    let k := if h.resume = .woken then
        if h.pending && h.ie then 1 else 1 + Config.pick s.free % is.length
      else Config.pick s.free % (is.length + 1)
    let c := is[k]?.getD h.vl
    (s.took.upd (fun h => { h with credit := some c }), c)

/-- The rows of a `tepi` into a stream (R185, R186, R352). `row i` gives the bytes and exceptions of row i. -/
def State.epiStream (s0 : State) (hdr : Hdr) (q : Reg5) (st : Stream) (is : List Nat) (row : Nat → List Byte × Exc) (pre : RowReads) : Eff :=
  let (s, c) := s0.credited is
  let h := s.hart
  let vst := h.vstart.toNat
  let now := is.filter (fun i => decide (i < c))
  let es := now.flatMap (fun i => streamRow st vst i (row i).1)
  let m := rowLength st (row (is.headD 0)).1.length
  let o : VOpd := ⟨q, 1, 8⟩
  let take := fun (s : State) (ds : List (Nat × Nat)) => s.upd (·.raise ((rowsDone now ds).foldl (fun (e : Exc) i => e.or (row i).2) {}))
  let upto := fun (s : State) (i : Nat) => s.upd (fun h => { h.advance [o] ((i - vst) * m) with vstart := BitVec.ofNat 16 i })
  match h.streamAborted st with
  | some g =>
    let sent := is.takeWhile (fun i => h.committed (i + 1) (streamRow st vst i (row i).1) == i + 1)
    let done := (s.enterTickets h.id (withProbes es)).upd (·.raise (sent.foldl (fun (e : Exc) i => e.or (row i).2) {}))
    (match is[sent.length]? with
      | some i => .trap (upto done i) ⟨0x0D, BitVec.ofNat 64 g⟩
      | none => .next (done.upd (·.advance [o] ((h.vl - vst) * m))))
  | none =>
    let route := h.streamRoute st
    if route.here s.pkg && s.copyBlocks h.id es then .hold (s0.stalled .held) else
    match (s.openLock h.id (route.lines es)).runRows hdr route h.vl now es
        { pre with fs := pre.fs.filter (fun f => now.contains f.1.idx), bad := pre.bad.filter (fun b => now.contains b.1) } with
    | .all s1 ds =>
      match is.find? (fun i => decide (c ≤ i)) with
      | none => .next ((take s1 ds).upd (·.advance [o] ((h.vl - vst) * m)))
      | some i =>
        if h.resume = .woken && h.pending && h.ie then (upto (take s1 ds) i).intTrap
        else .hold ((upto (take s1 ds) i).upd (fun h => { h with wait := .credit none, resume := .none, credit := none }))
    | .stop s1 ds i t => .trap (upto (take s1 ds) i) t
    | .int s1 ds i => (upto (take s1 ds) i).intTrap
    | .trim s1 _ _ => .hold s1
    | .hold s1 => .hold s1

/-- The row at VSTART of a reissued `tepi` that asks other packages for the row scales of others: it performs first (R139, R320). -/
def State.firstRow (s : State) (wanted : List (Nat × RElem)) (scale : List RElem) (out : State → RowReads → List RElem) : Eff :=
  let own := s.hart.id
  let vst := s.hart.vstart.toNat
  if !s.hart.reissue then .hold (s.sendPackets own 0 wanted)
  else
    match s.readRows [vst] scale with
    | .error (s1, want) => .hold (s1.sendPackets own 0 want)
    | .ok (s1, pre) =>
      let (s2, ps0) := s1.placeAll own .translate (out s1 pre)
      let ps := ps0.map s2.hart.probed
      Eff.keeps (ds := pre.ds.filter (fun d => decide (d.1 < 2 ^ 63))) (match s2.askRows .translate vst ps (needsOf ps ++ wanted) with
        | .hold s3 => .hold s3
        | _ => .hold (s2.sendPackets own 0 wanted))

/-- `tepi` (R184 to R186). The order of AL on BASE and STRIDE and of MF on the column arrays, which are no records, is not stated by R354: DESIGN CHOICE, AL comes
first (log 39). -/
def execTepi (t fc : BitVec 3) (sm : BitVec 2) (r : BitVec 7) (sa : Reg5) (j : BitVec 1) (s : State) : Host.Outcome State Fault Refusal :=
  let hdr := tileHdr (wTepi t fc sm r) (bTepi sa j) j
  tileRun hdr s (fun s =>
    match s.needTile t with
    | .error e => .error e
    | .ok b =>
      let tile := s.getTile b
      let vl := s.hart.vl
      match tileChecks hdr (decide (tile.tm < r.toNat + vl) || tile.tn * outWidth fc % 8 != 0) tile.curd with
      | .error e => .error e
      | .ok _ =>
        match s.issueRecord 0 (s.gs sa) 64 64 with
        | .trap s1 e => .ok (.trap s1 e)
        | .hold s1 => .ok (.hold s1)
        | .ok s1 bs =>
          let base := fieldW bs 0
          let stride := fieldW bs 8
          if s1.epiRecordBad bs then .ok (.trap s1 (hdr.ill 0x03))
          else
            match baseStride base stride (max 1 (outWidth fc / 8)) with
            | some e => .ok (.trap s1 e)
            | none =>
              match s1.epiCols bs sm tile.tn with
              | (.trap s2 e, _) => .ok (.trap s2 e)
              | (.hold s2, _) => .ok (.hold s2)
              | (.ok s2 _, none) => .ok (.next s2)
              | (.ok s2 _, some cols) =>
                let read := blockData 0 (s.gs sa) bs ++ (if sm.getLsbD 1 then blockData 4 (fieldW bs 0x18) (cols.cs.flatMap (natLe 4)) else []) ++
                  blockData 5 (fieldW bs 0x20) (cols.bias.flatMap (natLe 4))
                .ok (Eff.keeps (ds := read) (s2.readsTile b (fun s2 =>
                  let is := s2.hart.activeMem 0 vl
                  let fl := fieldOf bs 0x28 8
                  let scales := fun (is : List Nat) => if sm.getLsbD 0 then scaleElems (fieldW bs 0x10) r.toNat is else []
                  let rowAt := fun (s : State) (pre : RowReads) (i : Nat) =>
                    s.epiRow b fc cols (if sm.getLsbD 0 then some (leNat (rowBytes pre.es pre.ds i)) else none) (r.toNat + i)
                  let width := tile.tn * outWidth fc / 8
                  let outOf := fun (s : State) (pre : RowReads) (i : Nat) => rowElems .store i (strideAddr base stride i) width (rowAt s pre i).1
                  if s2.copyBlocks s2.hart.id (scales is) then .hold (s2.stalled .held) else
                  match s2.readRows is (scales is) with
                  | .error (s3, want) =>
                    if fl.testBit 4 then .hold (s3.sendPackets s3.hart.id 0 want)
                    else
                      let vst := s3.hart.vstart.toNat
                      s3.firstRow want (scales [vst]) (fun s pre => outOf (s.closeTile b) pre vst)
                  | .ok (s3, pre) =>
                    Eff.keeps (ds := pre.ds.filter (fun d => decide (d.1 < 2 ^ 63))) (
                    let s4 := s3.closeTile b
                    let row := rowAt s4 pre
                    if fl.testBit 4 then
                      match s4.hart.stream (BitVec.ofNat 5 (24 + fl % 8)) with
                      | some st => if is.isEmpty then .next s4 else s4.epiStream hdr (BitVec.ofNat 5 (24 + fl % 8)) st is row pre
                      | none => .next s4
                    else
                      let es := is.flatMap (outOf s4 pre)
                      if s4.copyBlocks s4.hart.id es then .hold (s2.stalled .held)
                      else
                        (((s4.lockRows base stride vl width []).runRows hdr .translate vl is es pre).mapState State.drainEntry).finish (fun s ds =>
                          s.upd (·.raise ((rowsDone is ds).foldl (fun (e : Exc) i => e.or (row i).2) {}))))))))

/-! ### tsave, trest (R187, R188) -/

/-- The PEND field of an accumulator (Table 7-8). -/
def pendBytes (c : Option BlkCell) : List Byte :=
  match c with
  | none => List.replicate 72 0
  | some c => natLe 72 ((if c.nan then 2 ^ 575 else 0) + (if c.pinf then 2 ^ 574 else 0) + (if c.ninf then 2 ^ 573 else 0) + intBits 552 c.sum)

/-- The PEND fields of 128 * 128 accumulators from a position; `blk` ascending. -/
def pendArea : Nat → Nat → List BlkCell → List Byte
  | 0, _, _ => []
  | n + 1, pos, blk =>
    let cell := match blk with
      | k :: _ => if k.pos = pos then some k else none
      | [] => none
    pendBytes cell ++ pendArea n (pos + 1) (if cell.isSome then blk.drop 1 else blk)

/-- The tile save area (Table 7-8). -/
def State.tileArea (s : State) (b : Nat) : List Byte :=
  let t := s.getTile b
  natLe 4 1 ++ natLe 4 0 ++ natLe 1 ((if t.curd then 1 else 0) + (if t.f32 then 2 else 0)) ++ natLe 1 (t.tm - 1) ++ natLe 1 (t.tn - 1) ++ natLe 1 t.kc ++
  List.replicate 52 0 ++ t.bsa.toList ++ t.bsb.toList ++ t.nl.toList ++ List.replicate 576 0 ++ memRead 65536 (s.accLoc b 0 0) s.mem ++
  if t.kc = 0 then [] else pendArea 16384 0 t.blk

/-- The header of a tile save or restore: privileged, never VO (R188). -/
def saveHdr (p b : IWord) (j : BitVec 1) : Hdr := { tileHdr p b j with vo := false, priv := true }

/-- `tsave` (R187). -/
def execTsave (t : BitVec 3) (sa : Reg5) (j : BitVec 1) (s : State) : Host.Outcome State Fault Refusal :=
  tileRun (saveHdr (wTsave t) (bTsave sa j) j) s (fun s =>
    match s.needTile t with
    | .error e => .error e
    | .ok b =>
      if (s.gs sa).toNat % 64 ≠ 0 then .error ⟨0x05, s.gs sa⟩
      else
        .ok (s.readsTile b (fun s =>
          match s.writeBlock 0 (s.gs sa) (s.tileArea b) with
          | .ok s1 _ => .next s1
          | .trap s1 e => .trap s1 e
          | .hold s1 => .hold s1)))

/-- The blocks of the PEND fields of a save area, from a position. -/
def blocksOf : Nat → Nat → List Byte → List BlkCell
  | 0, _, _ => []
  | n + 1, pos, bs =>
    let x := leNat (bs.take 72)
    let c : BlkCell := ⟨pos, x.testBit 575, x.testBit 574, x.testBit 573, bitsInt true 552 (x % 2 ^ 552)⟩
    (if x = 0 then [] else [c]) ++ blocksOf n (pos + 1) (bs.drop 72)

/-- PEND fields whose zero bits are not zero (Table 7-8). -/
def pendBad : Nat → List Byte → Bool
  | 0, _ => false
  | n + 1, bs => leNat (bs.take 72) / 2 ^ 552 % 2 ^ 21 != 0 || pendBad n (bs.drop 72)

/-- The first part of a tile save area breaks its layout (R188; TM and TN above 128, log 23). -/
def tileAreaBad (bs : List Byte) : Bool :=
  fieldOf bs 0 4 != 1 || !zeroIn bs 4 8 || decide (3 < fieldOf bs 8 1) || decide (127 < fieldOf bs 9 1) || decide (127 < fieldOf bs 0xA 1) ||
  decide (31 < fieldOf bs 0xB 1) || !zeroIn bs 0xC 0x40 || !zeroIn bs 0x1C0 0x400 ||
  ((bs.drop 0x140).take 128).any (fun x => decide (64 < x.toNat))

/-- 128 bytes of a block as a vector. -/
def vec128 (bs : List Byte) (off : Nat) : Vector Byte 128 := Vector.ofFn (fun (k : Fin 128) => ((bs.drop off).take 128).getD k.val 0)

/-- `trest` (R187). -/
def execTrest (t : BitVec 3) (sa : Reg5) (j : BitVec 1) (s : State) : Host.Outcome State Fault Refusal :=
  let hdr := saveHdr (wTrest t) (bTrest sa j) j
  tileRun hdr s (fun s =>
    match s.needTile t with
    | .error e => .error e
    | .ok b =>
      if (s.gs sa).toNat % 64 ≠ 0 then .error ⟨0x05, s.gs sa⟩
      else
        match s.readBlock 0 (s.gs sa) 0x10400 none with
        | .trap s1 e => .ok (.trap s1 e)
        | .hold s1 => .ok (.hold s1)
        | .ok s1 bs =>
          if tileAreaBad bs then .ok (.trap s1 (hdr.ill 0x03))
          else
            let kc := fieldOf bs 0xB 1
            match (if kc = 0 then .ok s1 [] else s1.readBlock 1 (s.gs sa + 0x10400) (72 * 16384) none) with
            | .trap s2 e => .ok (.trap s2 e)
            | .hold s2 => .ok (.hold s2)
            | .ok s2 ps =>
              if kc ≠ 0 && pendBad 16384 ps then .ok (.trap s2 (hdr.ill 0x03))
              else
                let s3 := { s2.zeroTile b with mem := memPut s2.mem (s2.accLoc b 0 0) ((bs.drop 0x400).take 65536) }
                .ok (.next (s3.setTile b
                  { curd := (fieldOf bs 8 1).testBit 0, f32 := (fieldOf bs 8 1).testBit 1, tm := fieldOf bs 9 1 + 1, tn := fieldOf bs 0xA 1 + 1, kc := kc,
                    blk := if kc = 0 then [] else blocksOf 16384 0 ps, bsa := vec128 bs 0x40, bsb := vec128 bs 0xC0, nl := vec128 bs 0x140 })))

end Sys2Proof.Machine
end

