-- ==== Sys2Proof/Machine/Curd.lean ====
section
/-! DEFINITION. The Curd threshold array (07 R189 to R192). -/

namespace Sys2Proof.Machine

open Sys2Proof

/-- `cload` (R190). -/
def execCload (t fc : BitVec 3) (sa : Reg5) (j : BitVec 1) (s : State) : Host.Outcome State Fault Refusal :=
  let hdr := { tileHdr (wCload t fc) (bCload sa j) j with bad0B := decide (1 < fc.toNat) }
  tileRun hdr s (fun s =>
    match s.needTile t with
    | .error e => .error e
    | .ok b =>
      if (s.gs sa).toNat % 64 ≠ 0 then .error ⟨0x05, s.gs sa⟩
      else
        match s.readBlock 0 (s.gs sa) 65664 none with
        | .trap s1 e => .ok (.trap s1 e)
        | .hold s1 => .ok (.hold s1)
        | .ok s1 bs =>
          if (bs.take 128).any (fun x => decide (64 < x.toNat)) then .ok (.trap s1 (hdr.ill 0x03))
          else
            let s2 := { s1.zeroTile b with mem := memPut s1.mem (s1.accLoc b 0 0) (bs.drop 128) }
            .ok (.next (s2.setTile b { s2.getTile b with curd := true, f32 := fc == 1, kc := 0, blk := [], nl := vec128 bs 0 })))

/-- The cell (n, t) of a Curd tile as a number (Table 7-9). -/
def State.curdCell (s : State) (b n t : Nat) : Nat := leNat (memRead 16 (s.accLoc b 0 0 + (n * 128 + t) * 16) s.mem)

/-- The test of a cell that is valid (R191): `feat` gives the code of a feature below VL. -/
def curdPass (cell vl : Nat) (f32 : Bool) (feat : Nat → Nat) : Bool :=
  let f := cell / 2 ^ 20 % 2 ^ 12
  let thr := cell / 2 ^ 32 % 2 ^ 32
  let missing := !cell.testBit 19
  if vl ≤ f then missing
  else if f32 then
    let x := FName.f32.read (feat f)
    if x.isNan then missing
    else
      let y := FName.f32.read thr
      x.lt y || x.eq y
  else decide (bitsInt true 32 (feat f) ≤ bitsInt true 32 thr)

/-- The running mask of a tree after its cells (R191). -/
def curdRun (vl : Nat) (f32 : Bool) (feat : Nat → Nat) : List Nat → Nat → Nat
  | [], run => run
  | cell :: cells, run =>
    curdRun vl f32 feat cells (if cell.testBit 18 && !curdPass cell vl f32 feat then run &&& (cell / 2 ^ 64) else run)

/-- The lowest set bit of a number below 2^64. -/
def lowestBit (n : Nat) : Nat := ((List.range 64).find? (fun i => n.testBit i)).getD 64

/-- `ctest` and `ctest.c` (R191): `ts` are the tiles of the node rows, the first with the leaf counts. -/
def ctestOp (hdr : Hdr) (ts : List (BitVec 3)) (f32 : Bool) (d a : Reg5) (m x : Reg3) (s : State) : Host.Outcome State Fault Refusal :=
  tileRun hdr s (fun s =>
    let h := s.hart
    let so := [h.opd a]
    let dst : VOpd := ⟨d, 1, 8⟩
    match stepFour hdr h (h.vstart != 0 || h.sew != 32 || decide (4096 < h.vl)) (anyOverlap so [dst]) (m != 0) so [dst] with
    | .error e => .error e
    | .ok _ =>
      match ts.mapM (fun t => s.needTile t) with
      | .error e => .error e
      | .ok bs =>
        match tileChecks hdr false (bs.any (fun b => !(s.getTile b).curd || (s.getTile b).f32 != f32)) with
        | .error e => .error e
        | .ok _ =>
          .ok (bs.foldr (fun b k => fun s => s.readsTile b k) (fun s =>
            match s.fetchSources h.vl so [] with
            | (_, .error e) => e
            | (s1, .ok vals) =>
              let feat := h.srcVal so vals 0
              let nl := fun t => ((s1.getTile (bs.headD 0)).nl.getD t 0).toNat
              let cols := (List.range 128).filter (fun t => nl t != 0 && h.maskBit m t)
              let rs := cols.map (fun t =>
                let run := curdRun h.vl f32 feat (bs.flatMap (fun b => (List.range 32).map (fun n => s1.curdCell b n t))) (2 ^ nl t - 1)
                (t, if run = 0 then (0xFF, ({ nv := true } : Exc)) else (lowestBit run, {})))
              s1.putResult hdr h.vl so dst (rs.map (fun r => (r.1, r.2.1)))
                (fun ok s => s.upd (·.except x ((rs.filter (fun r => ok r.1)).map (fun r => (r.1, r.2.2)))))) s))

/-- `ctest` (R191). -/
def execCtest (t fc : BitVec 3) (d a : Reg5) (m x : Reg3) (j : BitVec 1) (s : State) : Host.Outcome State Fault Refusal :=
  ctestOp { tileHdr (wCtest t fc) (bCtest d a m x j) j with bad0B := decide (1 < fc.toNat), bad07 := d == a } [t] (fc == 1) d a m x s

/-- `ctest.c` (R191). -/
def execCtestC (t fc : BitVec 3) (d a : Reg5) (m x : Reg3) (j : BitVec 1) (s : State) : Host.Outcome State Fault Refusal :=
  ctestOp { tileHdr (wCtestC t fc) (bCtestC d a m x j) j with bad0B := decide (1 < fc.toNat), bad07 := d == a } [t, t + 1] (fc == 1) d a m x s

/-- `cleaf` (R192). It is not long, and what an uncorrectable error in a table element leaves is stated for long instructions only (R140): DESIGN CHOICE, the lower
elements commit and VSTART is that element (log 39). -/
def execCleaf (d a sa : Reg5) (m : Reg3) (j : BitVec 1) (s : State) : Host.Outcome State Fault Refusal :=
  let hdr := { tileHdr wCleaf (bCleaf d a sa m j) j with bad07 := d == a }
  tileRun hdr s (fun s =>
    let h := s.hart
    let leaves : VOpd := ⟨a, 1, 8⟩
    let dst := h.opd d
    match stepFour hdr h (h.sew != 32 || decide (128 < h.vl)) (anyOverlap [leaves] [dst]) (m != 0) [leaves, dst] [dst] with
    | .error e => .error e
    | .ok _ =>
      match s.fetchSources h.vl [leaves] [] with
      | (_, .error e) => .ok e
      | (s1, .ok vals) =>
        let leaf := fun t => h.srcVal [leaves] vals 0 t % 256
        let es := ((h.activeMem m h.vl).filter (fun t => decide (leaf t < 64))).map (fun t =>
          (⟨t, h.gs sa + BitVec.ofNat 64 (4 * (64 * t + leaf t)), 4, .load, 0, 0⟩ : RElem))
        match alignedAll es with
        | .error e => .error e
        | .ok _ =>
          let take := fun (s : State) (ds : List (Nat × Nat)) (k : Nat) =>
            let rs := ds.map (fun p => (p.1, toF32 h.vrm (FVal.add h.vrm (FName.f32.read (h.elem d.toNat 32 p.1)) (FName.f32.read p.2))))
            s.upd (fun h => (((h.putElems d.toNat 32 (rs.map (fun r => (r.1, r.2.1)))).raise
              (rs.foldl (fun (e : Exc) r => e.or r.2.2) {})).advance [leaves] (k - h.vstart.toNat)))
          .ok (s1.reading [(dst, h.vstart.toNat, h.vl)] (
            match s1.runElems hdr .translate false false h.vl es with
            | .all s2 ds => .next (take s2 ds h.vl)
            | .stop s2 ds k t => .trap ((take s2 ds k).upd (fun h => { h with vstart := BitVec.ofNat 16 k })) t
            | .trim s2 _ _ => .hold s2
            | .int s2 _ _ => .hold s2
            | .hold s2 => .hold s2)))

end Sys2Proof.Machine
end

