-- ==== Sys2Proof/Machine/Skimmer.lean ====
section
/-! DEFINITION. The Skimmer: race slots, what a slot computes, and the SKIM instructions (10 R239 to R258). -/

namespace Sys2Proof.Machine

open Sys2Proof

/-! ### Handles and records (R240, R242, R243) -/

/-- The reserved bits of a race handle are zero (Table 10-1). -/
def handleOk (h : Word) : Bool := h.toNat / 2 ^ 23 == 0 && h.toNat / 2 ^ 14 % 4 == 0 && h.toNat / 2 ^ 6 % 4 == 0
/-- PKG of a handle. -/
def handlePkg (h : Word) : Nat := h.toNat / 2 ^ 16 % 128
/-- SHARD of a handle. -/
def handleShard (h : Word) : Nat := h.toNat / 2 ^ 8 % 64
/-- The slot of a handle in its package: 16 * DIE + SLOT. -/
def handleSlot (h : Word) : Nat := h.toNat / 2 ^ 4 % 4 * 16 + h.toNat % 16

/-- A field of the race record as an f32. -/
def recF32 (rec_ : List Byte) (off : Nat) : FVal := FName.f32.read (fieldOf rec_ off 4)

/-- A finite value. -/
def FVal.finite : FVal → Bool
  | .num _ _ _ => true
  | _ => false

/-- K of a record. -/
def recK (r : List Byte) : Nat := fieldOf r 0x24 2
/-- NPEN. -/
def recNpen (r : List Byte) : Nat := fieldOf r 0x26 2
/-- NSHARD. -/
def recNshard (r : List Byte) : Nat := fieldOf r 0x28 2
/-- FLAGS.REPLAY. -/
def recReplay (r : List Byte) : Bool := (fieldOf r 0x2A 2).testBit 0
/-- FLAGS.BOUNDS. -/
def recBounds (r : List Byte) : Bool := (fieldOf r 0x2A 2).testBit 1

/-- A valid race record (R243). -/
def raceRecordOk (r : List Byte) : Bool :=
  let t := recF32 r 0x18
  let rho := recF32 r 0x1C
  let zero : FVal := .num false 0 0
  t.finite && zero.lt t && (recNpen r == 0 || (rho.finite && zero.lt rho)) && decide (recK r ≤ 64) && decide (recNpen r ≤ 48) &&
  decide (1 ≤ recNshard r) && decide (recNshard r ≤ 64) && fieldOf r 0x2A 2 / 4 == 0 && zeroIn r 0x2C 0x40 &&
  (!recReplay r || fieldOf r 0x10 8 % 4 == 0) && (!(recK r == 0 && recBounds r) || (recF32 r 0x20).finite)

/-! ### Arithmetic of a slot: every step rounded to f32 (R244) -/

/-- A value rounded to f32, as a value. -/
def r32 (rm : RM) (v : FVal) : FVal := FName.f32.read (FName.f32.round rm false v).1
/-- The f32 code of a value that is one. -/
def code32 (v : FVal) : Nat := (FName.f32.round .rne false v).1
/-- A rounded sum. -/
def addR (rm : RM) (a b : FVal) : FVal := r32 rm (FVal.add rm a b).1
/-- A rounded difference. -/
def subR (rm : RM) (a b : FVal) : FVal := r32 rm (FVal.add rm a b.neg).1
/-- A rounded product. -/
def mulR (rm : RM) (a b : FVal) : FVal := r32 rm (FVal.mul a b).1
/-- A rounded quotient. -/
def divR (rm : RM) (a b : FVal) : FVal := r32 rm (FVal.div a b).1
/-- round(exp(round(round(a - b) / t))), all in one mode. -/
def expR (rm : RM) (a b t : FVal) : FVal := r32 rm (divR rm (subR rm a b) t).exp.1

/-- A perturbed score ranks above another (R244): a NaN ranks below every other. -/
def scoreAbove (a b : FVal) : Bool := !a.isNan && (b.isNan || b.lt a)
/-- Two perturbed scores rank equal. -/
def scoreEq (a b : FVal) : Bool := (a.isNan && b.isNan) || a.eq b

/-- A post is one that R244 applies: the slot is OPEN, the shard races, the index names a token; a NaN logit is left out. -/
def RaceSlot.applies (x : RaceSlot) (shard z j : Nat) : Bool :=
  x.state == 1 && decide (shard < recNshard x.cap) && !x.left.getLsbD shard && j != 0xFFFFFFFF && !(FName.f32.read z).isNan

/-- TOP with an entry put in its place: z' descending, then j ascending (R244). -/
def topInsert (t : TopEntry) : List TopEntry → List TopEntry
  | [] => [t]
  | u :: us =>
    let a := FName.f32.read t.z
    let b := FName.f32.read u.z
    if b.lt a || (a.eq b && t.j < u.j) then t :: u :: us else u :: topInsert t us

/-- z' of a logit (R244). -/
def RaceSlot.penalised (x : RaceSlot) (z j : Nat) : FVal :=
  let v := FName.f32.read z
  let rho := recF32 x.cap 0x1C
  if (List.range (recNpen x.cap)).any (fun k => fieldOf x.cap (0x40 + 4 * k) 4 == j) then
    if (FVal.num false 0 0).lt v then divR .rne v rho else mulR .rne v rho
  else v

/-- `post` of one element (R244), `noise` its G as an f32 code. -/
def RaceSlot.post (x : RaceSlot) (shard z j noise : Nat) : RaceSlot :=
  if x.state ≠ 1 || recNshard x.cap ≤ shard || x.left.getLsbD shard || j == 0xFFFFFFFF then { x with drop := true }
  else if (FName.f32.read z).isNan then { x with nanp := true }
  else
    let t := recF32 x.cap 0x18
    let z' := x.penalised z j
    let g := addR .rne (divR .rne z' t) (FName.f32.read noise)
    let e : TopEntry := ⟨code32 z', j, code32 g⟩
    let x1 := { x with eval := x.eval + 1 }
    let x2 :=
      if 0 < recK x.cap then { x1 with top := (topInsert e x1.top).take (recK x.cap) }
      else
        let a := FName.f32.read e.g
        let b := FName.f32.read x1.best.g
        if scoreAbove a b || (scoreEq a b && j < x1.best.j) then { x1 with best := e } else x1
    if recK x.cap = 0 && recBounds x.cap then
      let rref := recF32 x.cap 0x20
      { x2 with sdn := code32 (addR .rdn (FName.f32.read x2.sdn) (expR .rdn z' rref t)),
                sup := code32 (addR .rup (FName.f32.read x2.sup) (expR .rup z' rref t)) }
    else x2

/-- The cut (R245) as an f32 code. -/
def RaceSlot.cut (x : RaceSlot) : Nat :=
  if x.state = 0 then 0xFF800000
  else if 0 < recK x.cap then
    if x.top.length < recK x.cap then 0xFF800000 else (x.top.getLast?.map (·.z)).getD 0xFF800000
  else x.best.g

/-- `rleave` at the slot (R246, R256): the slot and the status. -/
def RaceSlot.leave (x : RaceSlot) (shard brem u l : Nat) : RaceSlot × Nat :=
  if x.state ≠ 1 then (x, 3)
  else if recNshard x.cap ≤ shard || x.left.getLsbD shard then (x, 2)
  else
    let b := FName.f32.read brem
    if b = .inf true || b.lt (FName.f32.read x.cut) then
      let uv := FName.f32.read u
      let lv := FName.f32.read l
      let zero : FVal := .num false 0 0
      let u1 := if uv.isNan then .inf false else uv
      let l1 := if lv.isNan || lv.lt zero then zero else lv
      let u2 := if u1.lt l1 then l1 else u1
      ({ x with left := x.left ||| BitVec.ofNat 64 (2 ^ shard), uup := code32 (addR .rup (FName.f32.read x.uup) u2),
                ldn := code32 (addR .rdn (FName.f32.read x.ldn) l1) }, 1)
    else (x, 0)

/-- The winner (R247): of TOP the largest perturbed score, equal scores to the lower index; else BEST. -/
def RaceSlot.winner (x : RaceSlot) : TopEntry :=
  if 0 < recK x.cap then
    match x.top with
    | [] => x.best
    | t :: ts => ts.foldl (fun w e =>
        let a := FName.f32.read e.g
        let b := FName.f32.read w.g
        if scoreAbove a b || (scoreEq a b && e.j < w.j) then e else w) t
  else x.best

/-- The entries of TOP in ascending index. DESIGN CHOICE (log 40): of entries of equal index, one token posted twice with different logits, that of the smaller z' comes first. -/
def byIndex : List TopEntry → List TopEntry
  | [] => []
  | t :: ts => ins t (byIndex ts)
where
  /-- An entry put in its place. -/
  ins (t : TopEntry) : List TopEntry → List TopEntry
    | [] => [t]
    | u :: us => if t.j < u.j || (t.j == u.j && FVal.lt (FName.f32.read t.z) (FName.f32.read u.z)) then t :: u :: us else u :: ins t us

/-- The probability bounds of the winner (R248): p_lo, p_hi as f32 codes, and NANB. -/
def RaceSlot.bounds (x : RaceSlot) (w : TopEntry) : Nat × Nat × Bool :=
  let t := recF32 x.cap 0x18
  let zw := FName.f32.read w.z
  let zero : FVal := .num false 0 0
  let one : FVal := .num false 1 0
  let (dn, up) :=
    if 0 < recK x.cap then
      (byIndex x.top).foldl (fun (acc : FVal × FVal) e =>
        (addR .rdn acc.1 (expR .rdn (FName.f32.read e.z) zw t), addR .rup acc.2 (expR .rup (FName.f32.read e.z) zw t))) (zero, zero)
    else
      let rref := recF32 x.cap 0x20
      (mulR .rdn (addR .rdn (FName.f32.read x.sdn) (FName.f32.read x.ldn)) (expR .rdn rref zw t),
       mulR .rup (addR .rup (FName.f32.read x.sup) (FName.f32.read x.uup)) (expR .rup rref zw t))
  let lo := divR .rdn one up
  let hi0 := divR .rup one dn
  let hi := if one.lt hi0 then one else hi0
  if lo.isNan || hi.isNan then (0, 0x3F800000, true) else (code32 lo, code32 hi, false)

/-- The winner record (Table 10-6, R247, R248). -/
def RaceSlot.record (x : RaceSlot) : List Byte :=
  let step := fieldOf x.cap 0x08 8
  let flags := (if recBounds x.cap then 0 else 32) + (if 0 < recK x.cap then 16 else 0) + (if recReplay x.cap then 8 else 0) +
    (if x.drop then 4 else 0) + (if x.nanp then 2 else 0)
  if x.eval = 0 then natLe 4 0xFFFFFFFF ++ List.replicate 19 0 ++ natLe 1 (flags + 1) ++ natLe 8 step
  else
    let w := x.winner
    let (lo, hi, nanb) := if recBounds x.cap then x.bounds w else (0, 0, false)
    natLe 4 w.j ++ natLe 4 w.z ++ natLe 4 w.g ++ natLe 4 lo ++ natLe 4 hi ++ natLe 3 (min x.eval (2 ^ 24 - 1)) ++
    natLe 1 (flags + if nanb then 64 else 0) ++ natLe 8 step

/-- Every shard of the race has left. -/
def RaceSlot.allLeft (x : RaceSlot) : Bool := (List.range (recNshard x.cap)).all (fun k => x.left.getLsbD k)

/-- The `rstat` result (Table 10-7). -/
def RaceSlot.stat (x : RaceSlot) : Nat :=
  x.eval % 2 ^ 32 * 2 ^ 32 + recNshard x.cap % 256 * 2 ^ 16 + ((List.range 64).filter (fun k => x.left.getLsbD k)).length * 2 ^ 8 +
  (if x.drop then 8 else 0) + (if x.nanp then 4 else 0) + x.state

/-- The slot that `rset` opens (R241, R253). -/
def RaceSlot.open_ (x : RaceSlot) (rec_ : List Byte) : RaceSlot := { RaceSlot.init x.ctx with cap := rec_, state := 1 }

/-! ### A SKIM instruction at its slot (R239, R251, R254) -/

/-- What a slot answers: a result and the bytes of the winner record, a context that the slot is not granted to, or a replay entry that cannot be
read. -/
inductive SkimRes where
  | ok (result : Nat) (rec : List Byte)
  | prv
  | mf (va : Word)
  | ecc (va : Word)
  deriving DecidableEq, Repr

/-- A replay entry read with the translation of the slot's context (R254), which no owner tickets: its code, or how it fails. DESIGN CHOICE (log 40): an entry on a PEER page fails, MF, for a
slot of the hart's own package too; and so does one at an untranslated address for a hart of another package, whose core's windows the slot's package does not hold. -/
def State.replayRead (s : State) (a : Agent) (va : Word) : State × Except Bool Nat :=
  let get := fun (s : State) (l : Nat) =>
    let s1 := s.settleVector a.buffers l 4 va
    match s1.readError (if a.remote.isSome then noHart else a.hart) false l 4 with
    | (s2, true) => (s2.eccAgent a l, .error true)
    | (s2, false) => (s2, .ok (leNat (memRead 4 l s2.mem)))
  match (if a.remote.isSome && decide (0xFFFFF00000000000 ≤ va.toNat) then (s, .fault 0) else s.translate a .read va) with
  | (s1, .loc l _) => get s1 l
  | (s1, .host l _) => if Config.hostRefuses s1.free l then (s1.took, .error false) else get s1.took l
  | (s1, _) => (s1, .error false)

/-- The replay entries that a post reads (R254). -/
def RaceSlot.replayElems (x : RaceSlot) (shard : Nat) (ps : List (Nat × Nat)) : List RElem :=
  if recReplay x.cap then (ps.filter (fun p => x.applies shard p.1 p.2)).map (fun p => ⟨0, fieldW x.cap 0x10 + BitVec.ofNat 64 (4 * p.2), 4, .load, 0, 0⟩) else []

/-- The noise of the elements of a post, in order (R63, R244, R254): the codes, and the addresses of the entries that fail, with `true` for an
uncorrectable error. An element that R244 does not apply reads none. -/
def State.noises (s : State) (a : Agent) (x : RaceSlot) (shard : Nat) : List (Nat × Nat) → State × List Nat × List (Bool × Word)
  | [] => (s, [], [])
  | (z, j) :: ps =>
    if !x.applies shard z j then
      let (s1, gs, fs) := s.noises a x shard ps
      (s1, 0 :: gs, fs)
    else if recReplay x.cap then
      let va := fieldW x.cap 0x10 + BitVec.ofNat 64 (4 * j)
      let (s1, r) := s.replayRead a va
      let (s2, gs, fs) := s1.noises a x shard ps
      match r with
      | .ok g => (s2, g :: gs, fs)
      | .error e => (s2, 0 :: gs, (e, va) :: fs)
    else
      let (s1, gs, fs) := s.noises a x shard ps
      (s1, skh (fieldW x.cap 0) (fieldW x.cap 8) j :: gs, fs)

/-- The lowest of some addresses. -/
def lowestAddr (fs : List Word) : Option Word :=
  fs.foldl (fun m a => match m with
    | none => some a
    | some b => if a.toNat < b.toNat then some a else some b) none

/-- The fn code of a request that asks the slot of another package whether it is granted to the context, and with the operands of an `rleave` what it would
answer (R354 step 5, R251): it changes nothing (log 40). -/
def skimProbe : Nat := 15

/-- The status that `rleave` gives at a slot, with the slot after it, from its operands. -/
def RaceSlot.leaveOf (x : RaceSlot) (shard : Nat) (xs : List (Nat × Nat)) : RaceSlot × Nat :=
  match xs with
  | (b, m) :: _ => x.leave shard b (m / 2 ^ 32) (m % 2 ^ 32)
  | [] => (x, 0)

/-- A SKIM instruction applied at a slot of this package for an agent (R251): `fn` is its fn4 code, `xs` its operands: the record of `rset`, the
logits and indices of `rpost`, B_rem, U and L of `rleave`. An uncorrectable error at an element below every faulted one is taken before MF (R141). -/
def State.skimApply (s : State) (a : Agent) (handle : Word) (fn : Nat) (xs : List (Nat × Nat)) : State × SkimRes :=
  let k := handleSlot handle
  let shard := handleShard handle
  match tabGet s.slots k with
  | none => (s, .prv)
  | some x =>
    if x.ctx ≠ a.ctx then (s, .prv)
    else
      let put := fun (s : State) (x : RaceSlot) => { s with slots := tabPut s.slots k x }
      match fn with
      | 0 => (put s (x.open_ (natLe 256 ((xs.headD (0, 0)).1))), .ok 0 [])
      | 1 =>
        let (s1, gs, fs) := s.noises a x shard xs
        match lowestAddr ((fs.takeWhile (·.1)).map (·.2)), lowestAddr ((fs.filter (fun f => !f.1)).map (·.2)) with
        | some va, _ => (s1, .ecc va)
        | none, some va => (s1, .mf va)
        | none, none => (put s1 ((xs.zip gs).foldl (fun x p => x.post shard p.1.1 p.1.2 p.2) x), .ok 0 [])
      | 2 => (s, .ok x.cut [])
      | 3 =>
        let (x1, st) := x.leaveOf shard xs
        (put s x1, .ok st [])
      | 4 =>
        if x.state = 1 && x.allLeft then
          let w := x.record
          (put s { x with state := 2, win := w }, .ok (fieldOf w 0 4) w)
        else if x.state = 2 then (s, .ok (fieldOf x.win 0 4) x.win)
        else (s, .ok (2 ^ 64 - 1) [])
      | 5 => (s, .ok x.stat [])
      | _ => (s, .ok (x.leaveOf shard xs).2 [])

/-- An answer as the datum of a remote element. -/
def SkimRes.encode : SkimRes → Nat
  | .ok r bs => 4 * (r + 2 ^ 64 * leNat bs)
  | .prv => 1
  | .mf va => 2 + 4 * va.toNat
  | .ecc va => 3 + 4 * va.toNat

/-- The answer that a datum stands for; `fn` tells whether a winner record comes with it. -/
def SkimRes.decode (fn n : Nat) : SkimRes :=
  match n % 4 with
  | 0 => .ok (n / 4 % 2 ^ 64) (if fn = 4 && n / 4 % 2 ^ 64 != 2 ^ 64 - 1 then natLe 32 (n / 4 / 2 ^ 64) else [])
  | 1 => .prv
  | 2 => .mf (BitVec.ofNat 64 (n / 4))
  | _ => .ecc (BitVec.ofNat 64 (n / 4))

/-- What a SKIM instruction comes to at its hart. -/
inductive Skim where
  | ok (s : State) (result : Nat) (rec : List Byte)
  | trap (s : State) (t : Trap)
  | hold (s : State)

/-- The number of the first element of a SKIM request: one that is applied, or one that only asks. -/
def skimIdx (fn : Nat) : Nat := if fn = skimProbe then 2 ^ 58 else 2 ^ 59

/-- A SKIM request leaves for the slot's package, and the hart waits for its answer (R251). -/
def State.skimAsk (s : State) (handle : Word) (fn : Nat) (xs : List (Nat × Nat)) : State :=
  let es := (if xs.isEmpty then [(0, 0)] else xs).mapIdx (fun k p => (⟨skimIdx fn + k, handle, xs.length, .skim fn, p.1, p.2⟩ : RElem))
  let p : Packet := ⟨s.seq, s.pkg.toNat, handlePkg handle, handle.toNat / 2 ^ 4 % 4, s.hart.id, s.hart.ctxid, !s.hart.super, es, none⟩
  ({ s with sent := s.sent ++ [p], seq := s.seq + 1 } : State).upd (fun h => { h with wait := .remote 1 })

/-- What a slot's answer comes to at the hart. -/
def State.skimEnd (s : State) (hdr : Hdr) : SkimRes → Skim
  | .ok x bs => .ok s x bs
  | .prv => .trap s ⟨0x02, BitVec.ofNat 64 hdr.word.toNat⟩
  | .mf va => .trap s ⟨0x04, va⟩
  | .ecc va => .trap s ⟨0x0C, va⟩

/-- The slot of another package has answered the request of an fn code (R251). -/
def State.skimAnswered (s : State) (handle : Word) (fn : Nat) : Bool :=
  handlePkg handle != s.pkg.toNat && (tabGet s.hart.answers (skimIdx fn)).isSome

/-- Where a SKIM instruction is applied (R239, R240, R251, R341): at a slot of this package, or at another package, which answers. -/
def State.skim (s : State) (hdr : Hdr) (handle : Word) (fn : Nat) (xs : List (Nat × Nat)) : Skim :=
  if handlePkg handle = s.pkg.toNat then
    let (s1, r) := s.skimApply s.hart.agent handle fn xs
    s1.skimEnd hdr r
  else
    match tabGet s.hart.answers (skimIdx fn) with
    | some (.done d _) => s.skimEnd hdr (SkimRes.decode fn d)
    | some _ => .trap s ⟨0x08, 0⟩
    | none => if s.reachable (handlePkg handle) then .hold (s.skimAsk handle fn xs) else .trap s ⟨0x08, 0⟩

/-- How a SKIM instruction goes on at its hart: `f` with the slot's result and the winner record, or the trap, or the wait. -/
def Skim.eff (r : Skim) (f : State → Nat → List Byte → Eff) : Eff :=
  match r with
  | .ok s x bs => f s x bs
  | .trap s t => .trap s t
  | .hold s => .hold s

/-- The header of a SKIM instruction. -/
def skimHdr (w : IWord) (j : BitVec 1) : Hdr := vhdr w .engine j

/-- The checks of a SKIM instruction up to step 5 of R354, PRV for a slot that is not granted to the context, then `f` with the handle. -/
def skimRun (hdr : Hdr) (hr : Reg5) (f : State → Word → Eff) (s : State) : Host.Outcome State Fault Refusal :=
  runInstr hdr s (fun s =>
    match require (handleOk (s.gs hr)) (hdr.ill 0x03) with
    | .error t => .error t
    | .ok _ => .ok ((s.skim hdr (s.gs hr) skimProbe []).eff (fun s _ _ => f s (s.gs hr))))

/-- A SKIM instruction that reads a word from its slot: the slot's own answer decides PRV, its only condition beyond step 4. -/
def skimRead (hdr : Hdr) (fn : Nat) (d hr : Reg5) (s : State) : Host.Outcome State Fault Refusal :=
  runInstr { hdr with swrites := [d] } s (fun s =>
    match require (handleOk (s.gs hr)) (hdr.ill 0x03) with
    | .error t => .error t
    | .ok _ => .ok ((s.skim hdr (s.gs hr) fn []).eff (fun s r _ => .next (s.ps d (BitVec.ofNat 64 r)))))

/-! ### The instructions (R253 to R258) -/

/-- `rset` (R253). Once the slot of another package has applied it, it retires. -/
def execRset (hr a : Reg5) (j : BitVec 1) (s : State) : Host.Outcome State Fault Refusal :=
  let hdr := skimHdr (wRset hr a j) j
  skimRun hdr hr (fun s h =>
    let apply := fun (s : State) (n : Nat) => (s.skim hdr h 0 [(n, 0)]).eff (fun s _ _ => .next s)
    if s.skimAnswered h 0 then apply s 0
    else if (s.gs a).toNat % 64 ≠ 0 then .trap s ⟨0x05, s.gs a⟩
    else
      match s.readBlock 0 (s.gs a) 256 none with
      | .trap s1 t => .trap s1 t
      | .hold s1 => .hold s1
      | .ok s1 bs => if !raceRecordOk bs then .trap s1 (hdr.ill 0x03) else apply s1 (leNat bs)) s

/-- The posts of `rpost` at its slot, from its elements (R254): with none active the slot is unchanged; once the slot has applied them it retires. Its replay reads at a slot of the
hart's package wait for a copy of the hart's that covers them (Table 5-10, R208). -/
def State.postElems (s : State) (hdr : Hdr) (h : Word) (so : List VOpd) (m : Reg3) : Eff :=
  let reads := fun (xs : List (Nat × Nat)) =>
    match (if handlePkg h = s.pkg.toNat then tabGet s.slots (handleSlot h) else none) with
    | some x => x.replayElems (handleShard h) xs
    | none => []
  let apply := fun (s : State) (xs : List (Nat × Nat)) =>
    if s.copyBlocks s.hart.id (reads xs) then Eff.hold (s.stalled .held) else (s.skim hdr h 1 xs).eff (fun s _ _ => .next (s.consume so))
  if s.skimAnswered h 1 then apply s []
  else
    match s.fetchSources s.hart.vl so [] with
    | (_, .error e) => e
    | (s1, .ok vals) =>
      let src := s.hart.srcVal so vals
      let xs := (s.hart.active m s.hart.vl).map (fun i => (src 0 i, src 1 i))
      if xs.isEmpty then .next (s1.consume so) else apply s1 xs

/-- `rpost` (R254). -/
def execRpost (v hr i : Reg5) (m : Reg3) (j : BitVec 1) (s : State) : Host.Outcome State Fault Refusal :=
  let hdr := skimHdr (wRpost v hr i m j) j
  runInstr hdr s (fun s =>
    let h := s.hart
    let so := [h.opd v, h.opd i]
    match stepFour hdr h (!handleOk (s.gs hr) || h.sew != 32) false false so [] with
    | .error t => .error t
    | .ok _ => .ok ((s.skim hdr (h.gs hr) skimProbe []).eff (fun s _ _ => s.postElems hdr (h.gs hr) so m)))

/-- `rbound` (R255). -/
def execRbound (d hr : Reg5) (j : BitVec 1) (s : State) : Host.Outcome State Fault Refusal :=
  skimRead (skimHdr (wRbound d hr j) j) 2 d hr s

/-- `rleave` (R256). The slot's package first answers what the leave would come to: one that is refused changes nothing. One that will be accepted is a release
(R251), which waits for the accesses of the hart's engines; at system scope it traps TKR with outstanding tickets. -/
def execRleave (d hr b : Reg5) (j : BitVec 1) (s : State) : Host.Outcome State Fault Refusal :=
  let hdr := { skimHdr (wRleave d hr b j) j with swrites := [d] }
  runInstr hdr s (fun s =>
    let h := s.gs hr
    let xs := [((s.gs d).toNat % 2 ^ 32, (s.gs b).toNat)]
    let status := fun (s : State) (r : Nat) => Eff.next (s.ps d (BitVec.ofNat 64 r))
    match require (handleOk h) (hdr.ill 0x03) with
    | .error t => .error t
    | .ok _ =>
      .ok ((s.skim hdr h skimProbe xs).eff (fun s st _ =>
        let n := s.outstanding s.hart
        if st ≠ 1 then status s st
        else if s.skimAnswered h 3 then (s.skim hdr h 3 xs).eff (fun s r _ => status s r)
        else if handlePkg h ≠ s.pkg.toNat ∧ n ≠ 0 then .trap s ⟨0x07, BitVec.ofNat 64 n⟩
        else if s.engineBusy s.hart.id then .hold (s.stalled .waiting)
        else ((s.drainAll s.hart.id).skim hdr h 3 xs).eff (fun s r _ => status s r))))

/-- `rwin` (R257). It waits for a copy of the hart's that covers its record before it reaches the slot (R251). -/
def execRwin (d hr b : Reg5) (j : BitVec 1) (s : State) : Host.Outcome State Fault Refusal :=
  let hdr := { skimHdr (wRwin d hr b j) j with swrites := [d] }
  skimRun hdr hr (fun s h =>
    if (s.gs b).toNat % 32 ≠ 0 then .trap s ⟨0x05, s.gs b⟩
    else if s.hart.cur.isEmpty && s.copyBlocks s.hart.id [⟨0, s.gs b, 32, .store, 0, 0⟩] then .hold (s.stalled .held)
    else
      (s.skim hdr h 4 []).eff (fun s1 r bs =>
        if bs.isEmpty then .next (s1.ps d (BitVec.ofNat 64 r))
        else
          match s1.writeBlock 0 (s.gs b) bs with
          | .ok s2 _ => .next (s2.ps d (BitVec.ofNat 64 r))
          | .trap s2 t => .trap s2 t
          | .hold s2 => .hold s2)) s

/-- `rstat` (R258). -/
def execRstat (d hr : Reg5) (j : BitVec 1) (s : State) : Host.Outcome State Fault Refusal :=
  skimRead (skimHdr (wRstat d hr j) j) 5 d hr s

end Sys2Proof.Machine
end

