-- ==== Sys2Proof/Machine/Churn.lean ====
section
/-! DEFINITION. The Churn: dispatch contexts, the CHURN instructions, and the work pool (11 R259 to R277, R281). -/

namespace Sys2Proof.Machine

open Sys2Proof

/-! ### Handles and records (R260, R262, R263) -/

/-- The reserved bits of a dispatch handle are zero (Table 11-1). -/
def churnHandleOk (h : Word) : Bool := h.toNat / 64 == 0 && h.toNat / 4 % 4 == 0
/-- The dispatch context of a handle: 4 * DIE + CTX. -/
def churnKey (h : Word) : Nat := h.toNat / 16 % 4 * 4 + h.toNat % 4

/-- T of a dispatch record. -/
def dispT (r : List Byte) : Nat := fieldOf r 0 4
/-- K. -/
def dispK (r : List Byte) : Nat := fieldOf r 4 1
/-- E. -/
def dispE (r : List Byte) : Nat := fieldOf r 6 2
/-- C. -/
def dispC (r : List Byte) : Nat := fieldOf r 8 4
/-- ROWB. -/
def dispRowb (r : List Byte) : Nat := fieldOf r 0xC 4
/-- CHOICE. -/
def dispChoice (r : List Byte) : Word := fieldW r 0x10
/-- GATE. -/
def dispGate (r : List Byte) : Word := fieldW r 0x18
/-- PLACE. -/
def dispPlace (r : List Byte) : Word := fieldW r 0x20
/-- COUNT. -/
def dispCount (r : List Byte) : Word := fieldW r 0x28
/-- GROUP. -/
def dispGroup (r : List Byte) : Word := fieldW r 0x30
/-- INVP. -/
def dispInvp (r : List Byte) : Word := fieldW r 0x38
/-- DLOG. -/
def dispDlog (r : List Byte) : Word := fieldW r 0x40
/-- DCNT. -/
def dispDcnt (r : List Byte) : Word := fieldW r 0x48
/-- POOL. -/
def dispPool (r : List Byte) : Word := fieldW r 0x50
/-- GOUT. -/
def dispGout (r : List Byte) : Word := fieldW r 0x58
/-- TROWS. -/
def dispTrows (r : List Byte) : Nat := fieldOf r 0x60 2
/-- NCB. -/
def dispNcb (r : List Byte) : Nat := fieldOf r 0x62 2
/-- DMAX. -/
def dispDmax (r : List Byte) : Nat := fieldOf r 0x64 4
/-- SRC. -/
def dispSrc (r : List Byte) : Word := fieldW r 0x68
/-- SSTRIDE. -/
def dispSstride (r : List Byte) : Word := fieldW r 0x70

/-- A field of a record is aligned. -/
def alignedTo (r : List Byte) (off m : Nat) : Bool := fieldOf r off 8 % m == 0

/-- A valid dispatch record (R262). -/
def dispatchRecordOk (r : List Byte) : Bool :=
  decide (1 ≤ dispT r) && decide (1 ≤ dispK r) && decide (dispK r ≤ 8) && fieldOf r 5 1 == 0 && decide (1 ≤ dispE r) && decide (dispE r ≤ 1024) &&
  decide (1 ≤ dispC r) && decide (dispC r ≤ 65535) && dispRowb r % 16 == 0 && decide (16 ≤ dispRowb r) && decide (dispRowb r ≤ 65536) &&
  alignedTo r 0x10 2 && alignedTo r 0x18 2 && alignedTo r 0x20 16 && alignedTo r 0x28 4 && alignedTo r 0x30 64 && alignedTo r 0x38 4 &&
  alignedTo r 0x40 8 && alignedTo r 0x48 8 && alignedTo r 0x50 64 && alignedTo r 0x58 4 && decide (1 ≤ dispTrows r) && decide (dispTrows r ≤ 128) &&
  decide (1 ≤ dispNcb r) && alignedTo r 0x68 16 && alignedTo r 0x70 16 && fieldOf r 0x78 8 == 0

/-- A placement entry of 16 bytes is well formed (R263, R271). -/
def placementOk (rowb : Nat) (b : List Byte) : Bool :=
  let fl := fieldOf b 0xC 2
  fieldOf b 0xE 2 == 0 && fl / 128 % 256 == 0 && (fl / 2 ^ 15 == 1 || fl == 0) && fieldOf b 0 8 % 16 == 0 && fieldOf b 8 4 % 16 == 0 &&
  decide (rowb ≤ fieldOf b 8 4)

/-- The placement entry that 16 bytes hold. -/
def placementOf (b : List Byte) : Placement :=
  ⟨fieldW b 0, fieldOf b 8 4, if fieldOf b 0xC 2 / 2 ^ 15 = 1 then some (fieldOf b 0xC 2 % 128) else none⟩

/-- Pieces of 16 bytes. -/
def chunks16 : Nat → List Byte → List (List Byte)
  | 0, _ => []
  | n + 1, bs => bs.take 16 :: chunks16 n (bs.drop 16)

/-- The count of a number in a table of counts; one that is not listed is 0. -/
def countOf (t : List (Nat × Nat)) (e : Nat) : Nat := (tabGet t e).getD 0

/-- A count raised by one. -/
def countUp (t : List (Nat × Nat)) (e : Nat) : List (Nat × Nat) := tabPut t e ((countOf t e + 1) % 2 ^ 32)

/-! ### Contexts in the state -/

/-- RPEND (Table 11-2): the rows with bytes that have not performed. -/
def Churn.rpend (x : Churn) : Nat := ((x.rows.map (fun r => (r.expert, r.slot))).eraseDups).length

/-- A dispatch context set. -/
def State.setChurn (s : State) (k : Nat) (x : Churn) : State := { s with churns := tabPut s.churns k x }

/-- A dispatch context changed. -/
def State.updChurn (s : State) (k : Nat) (f : Churn → Churn) : State :=
  match tabGet s.churns k with
  | some x => s.setChurn k (f x)
  | none => s

/-- The strips that wait at a context and meet a test are taken up again (R273, Table 11-8). -/
def State.wakeStrips (s : State) (k : Nat) (f : Nat → Bool) (r : Resume) : State :=
  s.mapHarts (fun h =>
    match h.wait with
    | .churn k' first => if k' = k && f first then { h with wait := .none, resume := r } else h
    | _ => h)

/-- A strip waits at a context. -/
def State.stripWaits (s : State) (k : Nat) : Bool :=
  s.allHarts.any (fun h => match h.wait with
    | .churn k' _ => k' == k
    | _ => false)

/-! ### Elements of tokens -/

/-- The pieces of an access of element i: its number, told apart by a tag. -/
def tokElems (i tag : Nat) (op : ROp) (va : Word) (n : Nat) (bs : List Byte) : List RElem :=
  (rowElems op i va n bs).map (fun e => { e with idx := e.idx + 2 ^ 48 * tag })

/-- The tag of an access. -/
def tagOf (e : RElem) : Nat := e.idx / 2 ^ 48

/-- The bytes that loads with a tag gave. -/
def tagBytes (es : List RElem) (ds : List (Nat × Nat)) (tag : Nat) : List Byte :=
  (es.filter (fun e => tagOf e == tag)).flatMap (fun e => natLe e.n ((tabGet ds e.idx).getD 0))

/-- The address of choice c of token t (R270). -/
def choiceAddr (r : List Byte) (t c : Nat) : Word := dispChoice r + BitVec.ofNat 64 (2 * (dispK r * t + c))

/-- The reads of the choices of token t as element i. -/
def choiceElems (r : List Byte) (i t : Nat) : List RElem :=
  (List.range (dispK r)).flatMap (fun c => tokElems i (8 * c) .load (choiceAddr r t c) 2 [])

/-- The numbers of elements that perform here or have performed, as answers. -/
def localDone : List Placed → List (Nat × RAns)
  | [] => []
  | .loc e _ st :: ps => (e.idx, .done 0 st) :: localDone ps
  | _ :: ps => localDone ps

/-- Writing every element or none by the precise regime, `last` after the others (R271, R276): every destination is translated, at its owner where it lies in
another package, before one is written, and the interlock entry covers them (R267). -/
def State.writeAll (s : State) (es last : List RElem) : Blk :=
  let own := s.hart.id
  let all := es ++ last
  if s.copyBlocks own all then .hold (s.stalled .held)
  else
    let (s1, ps0) := (s.openLock own (Route.translate.lines all)).placeAll own .translate all
    let ps := ps0.map s.hart.probed
    let probes := ((needsOf ps).filter (fun x => x.2.op == .store)).map (fun x => (x.1, { x.2 with idx := probeIdx x.2, op := .probe, data := 0 }))
    match blockTrap none ps with
    | some t => .trap (s1.blockStop (withProbes all) ps t) t
    | none =>
      if probes ≠ [] then .hold (s1.sendPackets own 0 probes)
      else
        let first := ps.take es.length
        let rest := ps.drop es.length
        if needsOf first ≠ [] then .hold (s1.sendPackets own 0 (needsOf first))
        else
          let s2 := (s1.performPlaced own true first).1
          if rest.isEmpty then .ok s2 []
          else
            let s3 := s2.drainEntry
            if needsOf rest ≠ [] then
              .hold ((s3.upd (fun h => { h with answers := h.answers ++ localDone first })).sendPackets own 0 (needsOf rest))
            else .ok (s3.performPlaced own true rest).1 []

/-! ### Rows for REMOTE experts (R275) -/

/-- The hart number of a packet of a dispatch context. -/
def churnAgent (k : Nat) : Nat := 8192 + k

/-- A row's bytes sent to its package (R275); at a package that cannot be reached the row fails. -/
def State.sendRow (s : State) (k : Nat) (r : ChurnRow) : State :=
  match tabGet s.churns k with
  | none => s
  | some x =>
    if s.reachable r.pkg then
      let p : Packet := ⟨s.seq, s.pkg.toNat, r.pkg, ownerDie 0 r.elem.addr, churnAgent k, x.owner, r.user, [r.elem], none⟩
      { s with sent := s.sent ++ [p], seq := s.seq + 1 }.setChurn k { x with rows := x.rows ++ [{ r with seq := some s.seq, ticket := none }] }
    else s.setChurn k { x with rfail := true }

/-- A row for a REMOTE expert sent, in pieces that have one translation at its owner. -/
def State.remoteRow (s : State) (k e slot pkg : Nat) (va : Word) (bs : List Byte) : State :=
  (blockElems 0 .store 0 (blockPieces (bs.length + 1) va bs.length) bs).foldl
    (fun s p => s.sendRow k ⟨e, slot, pkg, p, !s.hart.super, s.hart.id, none, none⟩) s

/-! ### Placing a token (R272, R274) -/

/-- What a pair comes to: no expert, a slot, or a drop with its place in the drop log. -/
inductive Slotted where
  | none
  | row (slot : Nat)
  | drop (log : Option Nat)
  deriving DecidableEq, Repr

/-- A (token, choice) pair. -/
structure Pair where
  c  : Nat
  e  : Nat
  to_ : Slotted
  deriving DecidableEq, Repr

/-- The pairs of a token's choices from choice c, with the cursors and the drop count after them (R272). -/
def Churn.pairs (x : Churn) : Nat → List Nat → List Pair × Churn
  | _, [] => ([], x)
  | c, e :: es =>
    if dispE x.cap ≤ e then
      let (ps, y) := x.pairs (c + 1) es
      (⟨c, e, .none⟩ :: ps, y)
    else
      let slot := countOf x.cur e
      let x1 := { x with cur := countUp x.cur e }
      if slot < dispC x.cap then
        let (ps, y) := x1.pairs (c + 1) es
        (⟨c, e, .row slot⟩ :: ps, y)
      else
        let (ps, y) := { x1 with drops := (x.drops + 1) % 2 ^ 32 }.pairs (c + 1) es
        (⟨c, e, .drop (if x.drops < dispDmax x.cap then some x.drops else none)⟩ :: ps, y)

/-- The reads of a pair: its gate (tag 8c + 1) and its source row (tag 8c + 2). -/
def Churn.pairReads (x : Churn) (i t : Nat) (p : Pair) : List RElem :=
  match p.to_ with
  | .row _ =>
    (if dispGout x.cap = 0 then [] else tokElems i (8 * p.c + 1) .load (dispGate x.cap + BitVec.ofNat 64 (2 * (dispK x.cap * t + p.c))) 2 []) ++
    tokElems i (8 * p.c + 2) .load (strideAddr (dispSrc x.cap) (dispSstride x.cap) t) (dispRowb x.cap) []
  | _ => []

/-- The placement entry of an expert. -/
def Churn.place (x : Churn) (e : Nat) : Placement := x.plc.getD e ⟨0, 0, none⟩

/-- The address of slot s of an expert (R263). -/
def Churn.dest (x : Churn) (e slot : Nat) : Word := (x.place e).base + BitVec.ofNat 64 (slot * (x.place e).rstride)

/-- A bf16 code as the f32 code of its value, exactly (R272); the result for a NaN is the canonical NaN (R55). -/
def gateF32 (g : Nat) : Nat := (FName.f32.round .rne false (FName.bf16.read g)).1

/-- The writes of a pair on this package, from the bytes of its gate and of its row (R272). -/
def Churn.pairWrites (x : Churn) (i t : Nat) (p : Pair) (gate row : List Byte) : List RElem :=
  let inv := fun (n : Nat) => tokElems i (8 * p.c + 5) .store (dispInvp x.cap + BitVec.ofNat 64 (4 * (dispK x.cap * t + p.c))) 4 (natLe 4 n)
  match p.to_ with
  | .none => inv 0xFFFFFFFF
  | .row slot =>
    (if (x.place p.e).remote.isSome then [] else tokElems i (8 * p.c + 3) .store (x.dest p.e slot) (dispRowb x.cap) row) ++
    (if dispGout x.cap = 0 then []
     else tokElems i (8 * p.c + 4) .store (dispGout x.cap + BitVec.ofNat 64 (4 * (dispC x.cap * p.e + slot))) 4 (natLe 4 (gateF32 (leNat gate)))) ++
    inv (p.e * 2 ^ 20 + slot)
  | .drop log =>
    (match log with
      | some d => tokElems i (8 * p.c + 6) .store (dispDlog x.cap + BitVec.ofNat 64 (8 * d)) 8 (natLe 8 (p.e * 2 ^ 48 + p.c * 2 ^ 32 + t))
      | none => []) ++ inv 0xFFFFFFFF

/-- A placed write with the bytes it writes. -/
def Placed.withData (p : Placed) (e : RElem) : Placed :=
  match p with
  | .loc _ l st => .loc e l st
  | .need _ pkg r => .need e pkg { r with data := e.data }
  | q => q

/-- The pairs of a token performed in order: their reads, then their writes; the requests that writes still need, and the first uncorrectable
error. -/
def State.sendPairs (s : State) (k : Nat) (x : Churn) (i t : Nat) : List Pair → List Placed → List Placed →
    State × List (Nat × RElem) × Option (Word × Option Nat)
  | [], _, _ => (s, [], none)
  | p :: ps, pr, pw =>
    let rs := x.pairReads i t p
    match s.performPlaced s.hart.id true (pr.take rs.length) with
    | (s1, _, .ecc e l) => (s1, [], some (e.addr, l))
    | (s1, ds, .done) =>
      let row := tagBytes rs ds (8 * p.c + 2)
      let ws := x.pairWrites i t p (tagBytes rs ds (8 * p.c + 1)) row
      let placed := List.zipWith Placed.withData (pw.take ws.length) ws
      let s2 := (s1.performPlaced s.hart.id true placed).1
      let s3 := match p.to_, (x.place p.e).remote with
        | .row slot, some pkg => s2.remoteRow k p.e slot pkg (x.dest p.e slot) row
        | _, _ => s2
      let (s4, ns, r) := s3.sendPairs k x i t ps (pr.drop rs.length) (pw.drop ws.length)
      (s4, needsOf placed ++ ns, r)

/-- What placing a token comes to: it has committed, needs answers, an access of it faulted with nothing of it performed, or read bad data. -/
inductive TokRes where
  | ok (s : State)
  | need (s : State) (ns : List (Nat × RElem))
  | fault (s : State) (fs : List (FaultElem × Bool)) (es : List RElem)
  | ecc (s : State) (va : Word) (l : Option Nat)

/-- Element i of a strip, token t, placed: its choices are read, then every access of its pairs is tried before one performs. -/
def State.sendToken (s : State) (k i t : Nat) : TokRes :=
  match tabGet s.churns k with
  | none => .ok s
  | some x =>
    let own := s.hart.id
    let ces := choiceElems x.cap i t
    let (s1, pc) := s.placeAll own .translate ces
    let cfs := faultsOf pc
    if cfs ≠ [] then .fault s1 cfs ces
    else if needsOf pc ≠ [] then .need s1 (needsOf pc)
    else
      match s1.performPlaced own true pc with
      | (s2, _, .ecc e l) => .ecc s2 e.addr l
      | (s2, ds, .done) =>
        let kept := fun (s : State) => s.upd (fun h => { h with answers := h.answers ++ (ds.filter (fun d => (tabGet h.answers d.1).isNone)).map (fun d => (d.1, .done d.2 false)) })
        let (pairs, y) := x.pairs 0 ((List.range (dispK x.cap)).map (fun c => leNat (tagBytes ces ds (8 * c))))
        let res := pairs.flatMap (x.pairReads i t)
        let wes := pairs.flatMap (fun p => x.pairWrites i t p (List.replicate 2 0) (List.replicate (dispRowb x.cap) 0))
        let (s3, pr) := s2.placeAll own .translate res
        let (s4, pw) := s3.placeAll own .translate wes
        let fs := faultsOf pr ++ faultsOf pw
        if fs ≠ [] then .fault s4 fs (res ++ wes)
        else if needsOf pr ≠ [] then .need (kept s4) (needsOf pr)
        else
          match s4.sendPairs k x i t pairs pr pw with
          | (s5, _, some (va, l)) => .ecc s5 va l
          | (_, n :: ns, none) => .need (kept s4) (n :: ns)
          | (s5, [], none) => .ok (s5.updChurn k (fun z => { z with cur := y.cur, drops := y.drops, next := t + 1 }))

/-- What placing a strip comes to. -/
inductive StripRes where
  | done (s : State)
  | hold (s : State) (ns : List (Nat × RElem))
  | int (s : State) (i : Nat)
  | fault (s : State) (i : Nat) (fs : List (FaultElem × Bool)) (es : List RElem)
  | ecc (s : State) (i : Nat) (va : Word) (l : Option Nat)

/-- `n` tokens placed from element i, whose token is b + i (R272); `stop` is the element at which a pending request stops the strip (R132). -/
def State.sendStrip (s : State) (k b : Nat) (stop : Option Nat) : Nat → Nat → StripRes
  | 0, _ => .done s
  | n + 1, i =>
    if stop = some i then .int s i
    else
      match s.sendToken k i (b + i) with
      | .ok s1 => s1.sendStrip k b stop n (i + 1)
      | .need s1 ns => .hold s1 ns
      | .fault s1 fs es => .fault s1 i fs es
      | .ecc s1 va l => .ecc s1 i va l

/-- The writes of the tokens that have committed have performed at device scope (R274), and the strips that may go on are taken up (R273). -/
def State.committed (s : State) (k : Nat) : State :=
  let s1 := s.drainEntry
  match tabGet s1.churns k with
  | some x => s1.wakeStrips k (fun first => decide (first ≤ x.next)) .none
  | none => s1

/-- The stop of a strip at token f whose accesses fault (R274): every token from f counts as faulted. -/
def State.stripStop (s : State) (hdr : Hdr) (f : Nat) (fs : List (FaultElem × Bool)) (es : List RElem) : State × Trap :=
  let own := s.hart.id
  let n := s.hart.vl
  let s1 := s.enterTickets own es
  let s2 := s1.upd (fun x => x.pm 7 (setLow (x.gm 7) n (2 ^ n - 2 ^ f)))
  let faults := fs.map (·.1)
  let s3 := s2.appendRecord own s2.hart.ctxid
    { epc := s2.hart.pc, word := hdr.word, vlen := n, vst0 := s2.hart.vstart.toNat, first := f, nflt := n - f, reiss := s2.hart.reissue,
      tkt := fs.any (fun f => f.1.kind == 2 && !f.2) } faults
  match fs.find? (·.2) with
  | some e => (s3.freeFailed own .translate es, ⟨0x08, e.1.addr⟩)
  | none => (s3, ⟨0x04, (faults.head?.map (·.addr)).getD 0⟩)

/-! ### The CHURN instructions (R267 to R277) -/

/-- The header of a CHURN instruction; its status register is written. -/
def churnHdr (w : IWord) (d : Reg5) (j : BitVec 1) : Hdr := { vhdr w .engine j with swrites := [d] }

/-- An instruction of another hart is being applied at the context (R267, R269). -/
def State.claimed (s : State) (k : Nat) : Bool := s.allHarts.any (fun h => h.id != s.hart.id && h.claim == some k)

/-- A CHURN instruction is applied whole: one that another hart has in progress at the context comes first, and it has the context itself until its answers have
come and it ends (R267). -/
def State.applied (s : State) (k : Nat) (e : Eff) : Eff :=
  if s.claimed k then .hold (s.stalled .held)
  else
    match e with
    | .hold s1 => .hold (match s1.hart.wait with
        | .churn _ _ => s1
        | _ => s1.upd (fun h => { h with claim := some k }))
    | e => e

/-- The checks of a CHURN instruction up to step 5 of R354, then `k` with the dispatch context. -/
def churnRun (hdr : Hdr) (hr : Reg5) (f : State → Nat → Churn → Except Trap Eff) (s : State) : Host.Outcome State Fault Refusal :=
  runInstr hdr s (fun s =>
    match require (churnHandleOk (s.gs hr)) (hdr.ill 0x03) with
    | .error t => .error t
    | .ok _ =>
      match tabGet s.churns (churnKey (s.gs hr)) with
      | none => .error ⟨0x02, BitVec.ofNat 64 hdr.word.toNat⟩
      | some x => if x.owner = s.hart.ctxid then f s (churnKey (s.gs hr)) x else .error ⟨0x02, BitVec.ofNat 64 hdr.word.toNat⟩)

/-- The end of a CHURN instruction that writes a status. -/
def churnStatus (s : State) (d : Reg5) (n : Nat) : Eff := .next (s.ps d (BitVec.ofNat 64 n))

/-- `chset` (R269). -/
def execChset (d hr b : Reg5) (j : BitVec 1) (s : State) : Host.Outcome State Fault Refusal :=
  let hdr := churnHdr (wChset d hr b j) d j
  churnRun hdr hr (fun s k x =>
    if (s.gs b).toNat % 64 ≠ 0 then .error ⟨0x05, s.gs b⟩
    else
      match s.readBlock 0 (s.gs b) 128 none with
      | .trap s1 t => .ok (.trap s1 t)
      | .hold s1 => .ok (.hold s1)
      | .ok s1 bs =>
        if !dispatchRecordOk bs then .ok (.trap s1 (hdr.ill 0x03))
        else if s1.claimed k then .ok (.hold (s1.stalled .held))
        else
          .ok (churnStatus ((s1.setChurn k { Churn.init x.owner with state := 1, cap := bs }).wakeStrips k (fun _ => true) .aborted) d 0)) s

/-- The status by the state of a context (Table 11-8): 3 in ERROR, 1 in a state not `want`. -/
def Churn.wrong (x : Churn) (want : Nat) : Option Nat := if x.state = 4 then some 3 else if x.state = want then none else some 1

/-- The tokens of elements counted (R270). -/
def countTokens (x : Churn) (es : List RElem) (ds : List (Nat × Nat)) (is : List Nat) : Churn :=
  is.foldl (fun (x : Churn) i =>
    let mine := es.filter (fun e => elemNo e == i)
    let cs := (List.range (dispK x.cap)).map (fun c => leNat (tagBytes mine ds (8 * c)))
    { x with cnt := (cs.filter (fun e => decide (e < dispE x.cap))).foldl countUp x.cnt, cntd := (x.cntd + 1) % 2 ^ 32 }) x

/-- `chcount` (R270). -/
def execChcount (d hr b : Reg5) (j : BitVec 1) (s : State) : Host.Outcome State Fault Refusal :=
  let hdr := churnHdr (wChcount d hr b j) d j
  churnRun hdr hr (fun s k x =>
    let base := (s.gs b).toNat
    let vl := s.hart.vl
    .ok (s.applied k (
      match x.wrong 1 with
      | some st => churnStatus s d st
      | none =>
        if dispT x.cap < base + vl then churnStatus s d 2
        else
          let is := s.hart.activeMem 0 vl
          let es := is.flatMap (fun i => choiceElems x.cap i (base + i))
          if s.copyBlocks s.hart.id es then .hold (s.stalled .held)
          else
            let count := fun (s : State) (ds : List (Nat × Nat)) => s.updChurn k (fun x => countTokens x es ds (rowsDone is ds))
            match s.runRows hdr .translate vl is es .none with
            | .all s1 ds => churnStatus (count s1 ds) d 0
            | .stop s1 ds i t =>
              let s2 := (count s1 ds).upd (fun h => { h with vstart := BitVec.ofNat 16 i })
              .trap (if t.cause = 0x0C then s2 else s2.ps d 0) t
            | .int s1 ds i => ((count s1 ds).upd (fun h => { h with vstart := BitVec.ofNat 16 i })).intTrap
            | .trim s1 _ _ => .hold s1
            | .hold s1 => .hold s1))) s

/-- The rows of an expert's group (R271). -/
def Churn.groupRows (x : Churn) (e : Nat) : Nat := min (countOf x.cnt e) (dispC x.cap)

/-- The task entries (R266, R271), experts ascending, row blocks ascending, column blocks ascending. -/
def Churn.taskWords (x : Churn) : List Nat :=
  (List.range (dispE x.cap)).flatMap (fun e =>
    (List.range ((x.groupRows e + dispTrows x.cap - 1) / dispTrows x.cap)).flatMap (fun rb =>
      (List.range (dispNcb x.cap)).map (fun cb => e * 2 ^ 48 + cb * 2 ^ 32 + rb * dispTrows x.cap)))

/-- The elements of a block of bytes to write, with numbers of their own. -/
def writeElems (tag : Nat) (va : Word) (bs : List Byte) : List RElem := blockElems tag .store 0 (blockPieces (bs.length + 1) va bs.length) bs

/-- The fields of the group record of expert e that `chplace` writes (Table 11-5, R271). -/
def Churn.groupElems (x : Churn) (plc : List Placement) (e : Nat) : List RElem :=
  let g := dispGroup x.cap + BitVec.ofNat 64 (64 * e)
  let p := plc.getD e ⟨0, 0, none⟩
  let gate : Word := if dispGout x.cap = 0 then 0 else dispGout x.cap + BitVec.ofNat 64 (4 * dispC x.cap * e)
  writeElems (16 + 8 * e) g (natLe 2 (x.groupRows e)) ++ writeElems (17 + 8 * e) (g + 8) (natLe 2 e) ++
  writeElems (18 + 8 * e) (g + 0xC) (natLe 4 p.rstride) ++ writeElems (19 + 8 * e) (g + 0x18) (natLe 8 p.base.toNat) ++
  writeElems (20 + 8 * e) (g + 0x30) (natLe 8 gate.toNat)

/-- `chplace` (R271). -/
def execChplace (d hr : Reg5) (j : BitVec 1) (s : State) : Host.Outcome State Fault Refusal :=
  let hdr := churnHdr (wChplace d hr j) d j
  churnRun hdr hr (fun s k x =>
    .ok (s.applied k (
      match x.wrong 1 with
      | some st => churnStatus s d st
      | none =>
        if x.cntd ≠ dispT x.cap then churnStatus s d 2
        else
          match s.readBlock 0 (dispPlace x.cap) (16 * dispE x.cap) none with
          | .trap s1 t => .trap s1 t
          | .hold s1 => .hold s1
          | .ok s1 bs =>
            let entries := chunks16 (dispE x.cap) bs
            if entries.any (fun b => !placementOk (dispRowb x.cap) b) then .trap s1 (hdr.ill 0x03)
            else
              let plc := entries.map placementOf
              let tasks := x.taskWords
              let es := writeElems 1 (dispCount x.cap) ((List.range (dispE x.cap)).flatMap (fun e => natLe 4 (countOf x.cnt e))) ++
                (List.range (dispE x.cap)).flatMap (x.groupElems plc) ++ writeElems 2 (dispPool x.cap + 64) (tasks.flatMap (natLe 8)) ++
                writeElems 3 (dispPool x.cap) (natLe 8 0)
              match s1.writeAll es [] with
              | .trap s2 t => .trap s2 t
              | .hold s2 => .hold s2
              | .ok s2 _ =>
                churnStatus (s2.setChurn k { x with state := 2, plc := plc, tasks := tasks.length, cur := [], next := 0, drops := 0,
                                                    tables := some (s2.hart.id, s2.hart.lock.num) }) d 0))) s

/-- `chsend` (R272 to R275). Tokens below one that waits for another package have committed (R139), and the strip goes on above them. -/
def execChsend (d hr b : Reg5) (j : BitVec 1) (s : State) : Host.Outcome State Fault Refusal :=
  let hdr := churnHdr (wChsend d hr b j) d j
  churnRun hdr hr (fun s k x =>
    let base := (s.gs b).toNat
    let h := s.hart
    let vst := h.vstart.toNat
    let from_ := if h.claim = some k then max vst (x.next - base) else vst
    if h.resume = .aborted then .ok (churnStatus s d 1)
    else if x.state = 2 ∧ base + h.vl ≤ dispT x.cap ∧ vst < h.vl ∧ x.next < base + vst then
      .ok (.hold (s.upd (fun h => { h with wait := .churn k (base + vst) })))
    else
      .ok (s.applied k (
        match x.wrong 2 with
        | some st => churnStatus s d st
        | none =>
          if dispT x.cap < base + h.vl then churnStatus s d 2
          else if h.vl ≤ vst then churnStatus s d 0
          else if base + from_ < x.next then churnStatus s d 4
          else if s.copyBusy h.id then .hold (s.stalled .held)
          else
            let upto := fun (s : State) (i : Nat) => (s.committed k).upd (fun h => { h with vstart := BitVec.ofNat 16 i })
            match (s.openLock h.id []).sendStrip k base (stopPoint h.stopAt ((List.range h.vl).drop from_) []) (h.vl - from_) from_ with
            | .done s1 => churnStatus (s1.committed k) d 0
            | .hold s1 ns => .hold ((s1.committed k).sendPackets h.id 0 ns)
            | .int s1 i => (upto s1 i).intTrap
            | .ecc s1 i va l => .trap (upto (s1.eccAt h.id l) i) ⟨0x0C, va⟩
            | .fault s1 i fs es =>
              let (s2, t) := (s1.committed k).stripStop hdr i fs es
              .trap ((s2.ps d 0).upd (fun h => { h with vstart := BitVec.ofNat 16 i })) t))) s

/-- Some placement entry has REMOTE = 1. -/
def Churn.hasRemote (x : Churn) : Bool := x.plc.any (·.remote.isSome)

/-- The writes of the tables by `chplace`, whichever hart made it, have performed (R276). -/
def State.tablesDone (s : State) (x : Churn) : State :=
  match x.tables with
  | none => s
  | some (id, n) => s.drainWhere id (fun p => p.lock.num == n)

/-- `chdone` (R276): every write of the dispatch has performed, then DCNT, then the pool word. -/
def execChdone (d hr : Reg5) (j : BitVec 1) (s : State) : Host.Outcome State Fault Refusal :=
  let hdr := churnHdr (wChdone d hr j) d j
  churnRun hdr hr (fun s k x =>
    .ok (s.applied k (
      if x.state = 3 then churnStatus s d 0
      else
        match x.wrong 2 with
        | some st => churnStatus s d st
        | none =>
          if x.next ≠ dispT x.cap then churnStatus s d 2
          else if x.hasRemote ∧ 0 < s.outstanding s.hart then .trap s ⟨0x07, BitVec.ofNat 64 (s.outstanding s.hart)⟩
          else if 0 < x.rpend then .hold (s.stalled .waiting)
          else if x.rfail then churnStatus (s.setChurn k { x with state := 4 }) d 3
          else if s.engineBusy s.hart.id then .hold (s.stalled .waiting)
          else
            match ((s.drainAll s.hart.id).tablesDone x).writeAll (writeElems 0 (dispDcnt x.cap) (natLe 8 x.drops))
                (writeElems 1 (dispPool x.cap) (natLe 8 (x.tasks * 2 ^ 32))) with
            | .trap s1 t => .trap s1 t
            | .hold s1 => .hold s1
            | .ok s1 _ => churnStatus (s1.drainEntry.setChurn k { x with state := 3 }) d 0))) s

/-- The `chstat` result (Table 11-9). -/
def Churn.stat (x : Churn) (waits : Bool) : Nat :=
  (if x.state = 1 then x.cntd else x.next) % 2 ^ 32 * 2 ^ 32 + min x.drops 65535 * 2 ^ 16 + (if dispDmax x.cap < x.drops then 2 ^ 7 else 0) +
  (if x.rfail then 2 ^ 6 else 0) + (if 0 < x.rpend then 2 ^ 5 else 0) + (if waits then 2 ^ 4 else 0) + x.state

/-- `chstat` (R277). -/
def execChstat (d hr : Reg5) (j : BitVec 1) (s : State) : Host.Outcome State Fault Refusal :=
  let hdr := churnHdr (wChstat d hr j) d j
  churnRun hdr hr (fun s k x => .ok (.next (s.ps d (BitVec.ofNat 64 (x.stat (s.stripWaits k)))))) s

/-! ### The work pool (R281) -/

/-- An atomic on a pool word: `f` gives the result and the word written from NEXT and TOTAL; a word on a PEER or HOST page faults. -/
def poolOp (hdr : Hdr) (d a : Reg5) (rel : Bool) (f : Nat → Nat → Word × Option Nat) (s : State) : Host.Outcome State Fault Refusal :=
  runInstr hdr s (fun s =>
    let ea := s.gs a
    match scalarAligned ea 8 with
    | .error t => .error t
    | .ok _ =>
      if rel && decide (0 < s.outstanding s.hart) then .error ⟨0x07, BitVec.ofNat 64 (s.outstanding s.hart)⟩
      else if rel && s.engineBusy s.hart.id then .ok (.hold (s.stalled .waiting))
      else if s.copyHits s.hart.id ea 8 then .ok (.hold (s.stalled .held))
      else
        let s0 := if rel then s.drainAll s.hart.id else s
        match s0.translate s0.hart.agent .write ea with
        | (s1, .loc l _) =>
          let s2 := s1.settleAtomic s1.hart.id l 8
          match s2.readError s2.hart.id true l 8 with
          | (s2, true) => .ok (.trap (s2.eccFound s2.hart.id l) ⟨0x0C, ea⟩)
          | (s2, false) =>
            let w := leNat (memRead 8 l s2.mem)
            let (r, new) := f (w % 2 ^ 32) (w / 2 ^ 32)
            .ok (.next ((match new with
              | some x => s2.perform l (natLe 8 x)
              | none => s2).ps d r))
        | (s1, _) => .ok (.trap s1 ⟨0x04, ea⟩))

/-- `wtake` (R281). -/
def execWtake (d a : Reg5) (s : State) : Host.Outcome State Fault Refusal :=
  poolOp { word := wWtake d a, reads := [a] } d a false (fun next total =>
    if next < total then (BitVec.ofNat 64 next, some (total * 2 ^ 32 + next + 1)) else (BitVec.allOnes 64, none)) s

/-- `wput` (R281). -/
def execWput (d a : Reg5) (n : BitVec 11) (s : State) : Host.Outcome State Fault Refusal :=
  poolOp { word := wWput d a n, reads := [a] } d a true (fun next total =>
    if total + n.toNat < 2 ^ 32 then (BitVec.ofNat 64 total, some ((total + n.toNat) * 2 ^ 32 + next)) else (BitVec.allOnes 64, none)) s

end Sys2Proof.Machine
end

