-- ==== Sys2Proof/Machine/Control.lean ====
section
/-! DEFINITION. Control transfer: branches, jumps and the strip loop (03 R81 to R83). -/

namespace Sys2Proof.Machine

open Sys2Proof

/-- The target of a word offset from an address (R12). -/
def target {n : Nat} (pc : Word) (off : BitVec n) : Word := pc + (off.signExtend 64) <<< 2

/-- A conditional branch (R81). -/
def branchOp (w : IWord) (a b : Reg5) (o : BitVec 16) (f : Word → Word → Bool) (s : State) : Host.Outcome State Fault Refusal :=
  runInstr { word := w, reads := [a, b] } s (fun s =>
    .ok (if f (s.gs a) (s.gs b) then .jump s (target s.hart.pc o) else .next s))

/-- `beq` (R81). -/
def execBeq (a b : Reg5) (o : BitVec 16) (s : State) : Host.Outcome State Fault Refusal := branchOp (wBeq a b o) a b o (fun x y => x == y) s

/-- `bne` (R81). -/
def execBne (a b : Reg5) (o : BitVec 16) (s : State) : Host.Outcome State Fault Refusal := branchOp (wBne a b o) a b o (fun x y => x != y) s

/-- `blt` (R81). -/
def execBlt (a b : Reg5) (o : BitVec 16) (s : State) : Host.Outcome State Fault Refusal := branchOp (wBlt a b o) a b o (fun x y => x.slt y) s

/-- `bge` (R81). -/
def execBge (a b : Reg5) (o : BitVec 16) (s : State) : Host.Outcome State Fault Refusal := branchOp (wBge a b o) a b o (fun x y => !(x.slt y)) s

/-- `bltu` (R81). -/
def execBltu (a b : Reg5) (o : BitVec 16) (s : State) : Host.Outcome State Fault Refusal := branchOp (wBltu a b o) a b o (fun x y => x.ult y) s

/-- `bgeu` (R81). -/
def execBgeu (a b : Reg5) (o : BitVec 16) (s : State) : Host.Outcome State Fault Refusal := branchOp (wBgeu a b o) a b o (fun x y => !(x.ult y)) s

/-- `jal` (R82): s[d] := PC + 4; PC := PC + sext(imm21) * 4. -/
def execJal (d : Reg5) (i : BitVec 21) (s : State) : Host.Outcome State Fault Refusal :=
  runInstr { word := wJal d i } s (fun s => .ok (.jump (s.ps d (s.hart.pc + 4)) (target s.hart.pc i)))

/-- `jalr` (R82): PC := s[a] + sext(imm16), s[a] read first; AL where the target is not a multiple of 4. -/
def execJalr (d a : Reg5) (i : BitVec 16) (s : State) : Host.Outcome State Fault Refusal :=
  runInstr { word := wJalr d a i, reads := [a] } s (fun s =>
    let t := s.gs a + i.signExtend 64
    if t.toNat % 4 = 0 then .ok (.jump (s.ps d (s.hart.pc + 4)) t) else .error ⟨0x05, t⟩)

/-- `vloop` (R83): s[a] := s[a] - VL; branches while that is positive. -/
def execVloop (a : Reg5) (o : BitVec 16) (s : State) : Host.Outcome State Fault Refusal :=
  runInstr { word := wVloop a o, reads := [a], vo := true } s (fun s =>
    let x := s.gs a - BitVec.ofNat 64 s.hart.vl
    let s' := s.ps a x
    .ok (if BitVec.slt 0 x then .jump s' (target s.hart.pc o) else .next s'))

end Sys2Proof.Machine
end

