-- ==== Sys2Proof/Machine/Gmm.lean ====
section
/-! DEFINITION. Grouped matrix multiply (11 R264, R265, R278 to R280). -/

namespace Sys2Proof.Machine

open Sys2Proof

/-! ### The group record and the scale pointer records (R264, R265) -/

/-- A signed 32-bit field as a stride. -/
def stride32 (r : List Byte) (off : Nat) : Word := BitVec.ofInt 64 (bitsInt true 32 (fieldOf r off 4))

/-- M of a group record. -/
def grpM (g : List Byte) : Nat := fieldOf g 0 2
/-- N. -/
def grpN (g : List Byte) : Nat := fieldOf g 2 2
/-- KD. -/
def grpKd (g : List Byte) : Nat := fieldOf g 4 2
/-- fmtA. -/
def grpFa (g : List Byte) : BitVec 3 := BitVec.ofNat 3 (fieldOf g 6 2)
/-- fmtB. -/
def grpFb (g : List Byte) : BitVec 3 := BitVec.ofNat 3 (fieldOf g 6 2 / 8)
/-- fmtC. -/
def grpFc (g : List Byte) : BitVec 3 := BitVec.ofNat 3 (fieldOf g 6 2 / 64)
/-- The accumulators are int32: both operands have code 0 (R278). -/
def grpInt (g : List Byte) : Bool := grpFa g == 0 && grpFb g == 0
/-- smode, which has no effect with int32 accumulators. -/
def grpSm (g : List Byte) : Nat := if grpInt g then 0 else fieldOf g 6 2 / 2 ^ 9 % 4
/-- The width of an operand element (R178). -/
def grpW (g : List Byte) (sew : Nat) : Nat := fmtWidth (grpFa g) sew
/-- SCP. -/
def grpScp (g : List Byte) : Word := fieldW g 0x38
/-- GATE. -/
def grpGate (g : List Byte) : Word := fieldW g 0x30
/-- The columns of column block cb: nc. -/
def grpNc (g : List Byte) (cb : Nat) : Nat := min 128 (grpN g - 128 * cb)
/-- K-blocks. -/
def grpNb (g : List Byte) : Nat := (grpKd g + 31) / 32

/-- ILL on the fields of a group record (R280): its subcode. -/
def groupBad (g : List Byte) (sew cb : Nat) : Option (BitVec 8) :=
  if grpN g = 0 || grpKd g = 0 || decide ((grpN g + 127) / 128 ≤ cb) || fieldOf g 0xA 2 != 0 || fieldOf g 6 2 / 2 ^ 11 != 0 ||
    (grpSm g != 0 && grpScp g == 0) then some 0x03
  else if fmtWidth (grpFa g) sew ≠ fmtWidth (grpFb g) sew || ((grpFa g == 0 || grpFb g == 0) && !([4, 8, 16].contains sew)) ||
    grpInt g != (grpFc g == 0 || grpFc g == 7) then some 0x0B
  else none

/-- A scale pointer record (Table 11-6), with its bytes. -/
structure Scales where
  base   : Word
  stride : Word
  sw     : Nat
  bytes  : List Byte
  deriving DecidableEq, Repr

/-- Entries from one address to below another lie in one window of scratchpad (R265). -/
def scaleWindow (lo hi : Int) : Bool :=
  (decide (0xFFFFF00000000000 ≤ lo) && decide (hi ≤ 0xFFFFF00000000000 + 2 ^ 40)) ||
  (List.range 4).any (fun d => decide (0xFFFFF20000000000 + d * 2 ^ 32 ≤ lo) && decide (hi ≤ 0xFFFFF20000000000 + (d + 1) * 2 ^ 32))

/-- The range of the entries of A that a strip of rows q0 to below q1 reads (R265). -/
def Scales.rangeA (x : Scales) (q0 q1 nb : Nat) : Int × Int :=
  let a := x.stride.toInt * q0
  let b := x.stride.toInt * (q1 - 1 : Nat)
  ((x.base.toNat : Int) + min a b, (x.base.toNat : Int) + max a b + (nb * x.sw : Nat))

/-- The range of the entries of B that a column block reads. -/
def Scales.rangeB (x : Scales) (n0 nc nb : Nat) : Int × Int :=
  let b := x.stride.toInt * (nb - 1 : Nat)
  ((x.base.toNat : Int) + min 0 b + (n0 * x.sw : Nat), (x.base.toNat : Int) + max 0 b + ((n0 + nc) * x.sw : Nat))

/-- What a scale pointer record comes to: it is not read, read, or ends the instruction. -/
inductive ScaleRes where
  | ok (s : State) (r : Option Scales)
  | stop (e : Eff)

/-- Reading a scale pointer record, with its checks (R280): `range` is what the strip reads, if it reads any. -/
def State.scaleRecord (s : State) (hdr : Hdr) (tag : Nat) (va : Word) (range : Scales → Option (Int × Int)) : ScaleRes :=
  match s.readBlock tag va 32 none with
  | .trap s1 t => .stop (.trap s1 t)
  | .hold s1 => .stop (.hold s1)
  | .ok s1 bs =>
    let x : Scales := ⟨fieldW bs 0, stride32 bs 8, fieldOf bs 0xC 1, bs⟩
    let bad := (x.sw != 1 && x.sw != 2) || !zeroIn bs 0xD 0x20 || (match range x with
      | some (lo, hi) => !scaleWindow lo hi
      | none => false)
    if bad then .stop (.trap s1 (hdr.ill 0x03)) else .ok s1 (some x)

/-- The scale pointer records that a group record names, A's then B's (R265, R280). -/
def State.groupScales (s : State) (hdr : Hdr) (g : List Byte) (row0 cb : Nat) : Except Eff (State × Option Scales × Option Scales) :=
  let sm := grpSm g
  let q1 := min (row0 + s.hart.vl) (grpM g)
  let some_ := fun (r : Int × Int) => if row0 < q1 then some r else none
  if sm = 0 then .ok (s, none, none)
  else if (grpScp g).toNat % 64 ≠ 0 then .error (.trap s ⟨0x05, grpScp g⟩)
  else
    match (if sm.testBit 0 then s.scaleRecord hdr 1 (grpScp g) (fun x => some_ (x.rangeA row0 q1 (grpNb g))) else .ok s none) with
    | .stop e => .error e
    | .ok s1 a =>
      match (if sm.testBit 1 then s1.scaleRecord hdr 2 (grpScp g + 64) (fun x => some_ (x.rangeB (128 * cb) (grpNc g cb) (grpNb g))) else .ok s1 none) with
      | .stop e => .error (e.keeps ((a.map (fun x => blockData 1 (grpScp g) x.bytes)).getD []))
      | .ok s2 b => .ok (s2, a, b)

/-- AL on the bases and strides of a group record (R142, R280). -/
def groupAligned (g : List Byte) : Option Trap :=
  match baseStride (fieldW g 0x18) (stride32 g 0xC) 8 with
  | some t => some t
  | none =>
    match baseStride (fieldW g 0x20) (stride32 g 0x10) 8 with
    | some t => some t
    | none => baseStride (fieldW g 0x28) (stride32 g 0x14) (max 1 (outWidth (grpFc g) / 8))

/-! ### The arithmetic (R62, R278) -/

/-- Bytes as elements of w bits (R44). -/
def unpack (w : Nat) : List Byte → List Nat
  | [] => []
  | a :: bs =>
    if w = 4 then a.toNat % 16 :: a.toNat / 16 :: unpack w bs
    else if w = 8 then a.toNat :: unpack w bs
    else
      match bs with
      | b :: cs =>
        if w = 16 then leNat [a, b] :: unpack w cs
        else
          match cs with
          | c :: d :: ds => leNat [a, b, c, d] :: unpack w ds
          | _ => []
      | [] => []

/-- A K-block of an operand: its scale entry and its values. -/
abbrev KBlock := Nat × List FVal

/-- Values cut into K-blocks of 32, with the entry of each. -/
def kBlocks (entry : Nat → Nat) : Nat → Nat → List FVal → List KBlock
  | 0, _, _ => []
  | n + 1, kb, xs => (entry kb, xs.take 32) :: kBlocks entry n (kb + 1) (xs.drop 32)

/-- One K-block added to an accumulator (R62): exact, scaled, and rounded once. -/
def blockDot (c : Nat) (a b : KBlock) : Nat × Exc :=
  let (cell, e) := (a.2.zip b.2).foldl (fun (acc : BlkCell × Exc) p =>
    let (x, e) := acc.1.term p.1 p.2
    (x, acc.2.or e)) ((⟨0, false, false, false, 0⟩ : BlkCell), {})
  let (z, e') := closeOne c (some cell) (a.1 % 256) (b.1 % 256)
  (z, e.or e')

/-- One K-block of f32 operands added to an accumulator, each product fused (R62). -/
def fusedDot (c : Nat) (a b : KBlock) : Nat × Exc :=
  (a.2.zip b.2).foldl (fun (acc : Nat × Exc) p =>
    let (x, ex) := scaleBy p.1 (a.1 % 256)
    let (y, ey) := scaleBy p.2 (b.1 % 256)
    let (q, eq) := FVal.mul x y
    let (z, ez) := toF32 .rne (FVal.add .rne (FName.f32.read acc.1) q)
    (z, (((acc.2.or ex).or ey).or eq).or ez)) (c, {})

/-- The accumulator of a row and a column (R278). -/
def gmmCell (w : Nat) (a b : List KBlock) : Nat × Exc :=
  (a.zip b).foldl (fun (acc : Nat × Exc) p =>
    let (z, e) := if w = 32 then fusedDot acc.1 p.1 p.2 else blockDot acc.1 p.1 p.2
    (z, acc.2.or e)) (0, {})

/-- The values of packed elements from bytes, `ox` the OX of each. -/
def packedValues (code : BitVec 3) (w : Nat) (bs : List Byte) (ox : Nat → Nat) : List FVal :=
  let raws := (unpack w bs).toArray
  raws.toList.mapIdx (fun k x => tileValue code w x k (fun i => raws.getD i 0) (ox k))

/-- The entries of scale bytes: E8M0 in [7:0] and OX in [11:8]. -/
def scaleEntries (sw : Nat) (bs : List Byte) : List Nat := unpack (8 * sw) bs

/-- The operands of a strip: for each column the K-blocks of B, or its raw elements for int32 accumulators. -/
structure GmmB where
  cols : List (List KBlock)
  ints : List (List Int)

/-- B as read: `row k` the bytes of row k, `scale kb` those of the entries of K-block kb (R278). -/
def gmmB (g : List Byte) (sew cb : Nat) (sw : Option Nat) (row scale : Nat → List Byte) : GmmB :=
  let w := grpW g sew
  let nc := grpNc g cb
  let kd := grpKd g
  if grpInt g then
    let rows := (List.range kd).map (fun k => ((unpack w (row k)).map (bitsInt true w)).toArray)
    ⟨[], (List.range nc).map (fun j => rows.map (fun r => r.getD j 0))⟩
  else
    let ents := (List.range (grpNb g)).map (fun kb => match sw with
      | some n => (scaleEntries n (scale kb)).toArray
      | none => #[])
    let ent := fun (kb j : Nat) => (ents.getD kb #[]).getD j 127
    let rows := (List.range kd).map (fun k => (packedValues (grpFb g) w (row k) (fun j => ent (k / 32) j / 256 % 16)).toArray)
    ⟨(List.range nc).map (fun j => kBlocks (fun kb => ent kb j) (grpNb g) 0 (rows.map (fun r => r.getD j .nan))), []⟩

/-- The accumulators of a row (R278), from its bytes and its scale entries. -/
def gmmRow (g : List Byte) (sew : Nat) (b : GmmB) (sw : Option Nat) (row scale : List Byte) : List Nat × Exc :=
  let w := grpW g sew
  if grpInt g then
    let xs := ((unpack w row).take (grpKd g)).map (bitsInt true w)
    (b.ints.map (fun col => intBits 32 ((xs.zip col).foldl (fun acc p => acc + p.1 * p.2) (0 : Int))), {})
  else
    let ents := (match sw with
      | some n => scaleEntries n scale
      | none => []).toArray
    let ent := fun (kb : Nat) => ents.getD kb 127
    let xs := kBlocks ent (grpNb g) 0 ((packedValues (grpFa g) w row (fun k => ent (k / 32) / 256 % 16)).take (grpKd g))
    let cs := b.cols.map (gmmCell w xs)
    (cs.map (·.1), cs.foldl (fun (e : Exc) c => e.or c.2) {})

/-- The output elements of a row and their exceptions (R278, R184). -/
def gmmOut (g : List Byte) (rm : RM) (sat : Bool) (gate : Option Nat) (cs : List Nat) : List Nat × Exc :=
  let gv := match gate with
    | some x => FName.f32.read x
    | none => FVal.num false 1 0
  let out := cs.map (fun c => outConvert (grpFc g) rm sat (FVal.mul (accValue (!grpInt g) c) gv))
  (out.map (·.1), out.foldl (fun (e : Exc) p => e.or p.2) {})

/-! ### The rows as elements (R278, R280) -/

/-- The address of A row q. -/
def grpRowA (g : List Byte) (q : Nat) : Word := strideAddr (fieldW g 0x18) (stride32 g 0xC) q

/-- The reads of row i, which is row q: its elements (tag 0), its scale entries (tag 1) and its gate (tag 2). -/
def gmmReads (g : List Byte) (sew : Nat) (epi : Bool) (sa : Option Scales) (i q : Nat) : List RElem :=
  tokElems i 0 .load (grpRowA g q) ((grpKd g * grpW g sew + 7) / 8) [] ++
  (match sa with
    | some x => tokElems i 1 .load (strideAddr x.base x.stride q) (grpNb g * x.sw) []
    | none => []) ++
  (if epi && grpGate g != 0 then tokElems i 2 .load (grpGate g + BitVec.ofNat 64 (4 * q)) 4 [] else [])

/-- The writes of the output row of row i, which is row q: packed, an odd 4-bit element as the low half of its byte (R278). -/
def gmmWrites (g : List Byte) (cb i q : Nat) (out : List Nat) : List RElem :=
  let w := outWidth (grpFc g)
  let va := strideAddr (fieldW g 0x28) (stride32 g 0x14) q + BitVec.ofNat 64 (128 * cb * w / 8)
  if w = 4 && out.length % 2 = 1 then
    rowElems .store i va (out.length / 2) (packBytes 4 (out.take (out.length - 1))) ++
      [⟨i + 2 ^ 47, va + BitVec.ofNat 64 (out.length / 2), 1, .nibble false, out.getLastD 0, 0⟩]
  else rowElems .store i va (out.length * w / 8) (packBytes w out)

/-- The reads of B: row k as element k (tag 3), the entries of K-block kb as element kb (tag 4). -/
def gmmReadsB (g : List Byte) (sew cb : Nat) (sb : Option Scales) : List RElem :=
  let w := grpW g sew
  (List.range (grpKd g)).flatMap (fun k =>
    tokElems k 3 .load (strideAddr (fieldW g 0x20) (stride32 g 0x10) k + BitVec.ofNat 64 (128 * cb * w / 8)) ((grpNc g cb * w + 7) / 8) []) ++
  (match sb with
    | some x => (List.range (grpNb g)).flatMap (fun kb =>
        tokElems kb 4 .load (strideAddr x.base x.stride kb + BitVec.ofNat 64 (128 * cb * x.sw)) (grpNc g cb * x.sw) [])
    | none => [])

/-- The tile as `gmm` sets it up (R181, R278): the open block closed, its configuration, and rows VSTART to VL - 1 zero. -/
def State.gmmTile (s0 : State) (bank : Nat) (f32 : Bool) (nc : Nat) : State :=
  let s := s0.closeTile bank
  let h := s.hart
  let l := s.accLoc bank h.vstart.toNat 0
  let n := (h.vl - h.vstart.toNat) * 512
  ({ s with mem := memClear s.mem l n, ecc := s.ecc.filter (fun w => !(decide (l ≤ w) && decide (w < l + n))) } : State).setTile bank
    { s.getTile bank with curd := false, f32 := f32, tm := h.vl, tn := nc, kc := 0, blk := [] }

/-- The faults of B as faults of every row (R280): the first row lists them all. -/
def spreadFaults (is : List Nat) (fs : List (FaultElem × Bool)) : List (FaultElem × Bool) :=
  match is with
  | [] => []
  | i :: rest =>
    fs.map (fun f => ({ f.1 with idx := i }, f.2)) ++ rest.flatMap (fun k => (fs.take 1).map (fun f => ({ f.1 with idx := k }, f.2)))

/-- The bytes that loads of an element with a tag gave. -/
def elemBytes (es : List RElem) (ds : List (Nat × Nat)) (i tag : Nat) : List Byte :=
  tagBytes (es.filter (fun e => elemNo e == i)) ds tag

/-- The rows of a strip once its records have passed (R278, R280): the active rows `is`, of which `live` lie below M. -/
def State.gmmRows (s : State) (hdr : Hdr) (bank : Nat) (epi : Bool) (g : List Byte) (row0 cb : Nat) (sa sb : Option Scales) : Eff :=
  let h := s.hart
  let own := h.id
  let vl := h.vl
  let nc := grpNc g cb
  let sew := h.sew
  let is := h.activeMem 0 vl
  let live := is.filter (fun i => decide (row0 + i < grpM g))
  let bes := if live.isEmpty then [] else gmmReadsB g sew cb sb
  let res := live.flatMap (fun i => gmmReads g sew epi sa i (row0 + i))
  let zero := List.replicate nc 0
  if s.copyBlocks own (bes ++ res ++ live.flatMap (fun i => gmmWrites g cb i (row0 + i) zero)) then .hold (s.stalled .held)
  else
    let s0 := (s.gmmTile bank (!grpInt g) nc).openLock own []
    let (s1, pb) := s0.placeAll own .translate bes
    let atRow := fun (s : State) (k : Nat) => s.upd (fun h => { h with vstart := BitVec.ofNat 16 k })
    if faultsOf pb ≠ [] then
      let (s2, first, t) := s1.partialStop .translate hdr vl h.vstart.toNat bes (spreadFaults is (faultsOf pb))
      .trap (atRow s2 first) t
    else if needsOf pb ≠ [] then .hold (s1.sendPackets own 0 (needsOf pb))
    else
      match s1.performPlaced own true pb with
      | (s2, _, .ecc e l) => .trap (atRow (s2.eccAt own l) (is.headD 0)) ⟨0x0C, e.addr⟩
      | (s2, dsb, .done) =>
        Eff.keeps (ds := dsb) <|
        let b := gmmB g sew cb (sb.map (·.sw)) (fun k => elemBytes bes dsb k 3) (fun kb => elemBytes bes dsb kb 4)
        match s2.readRows live res with
        | .error (s3, needs) =>
          let first := live.filter (fun i => i == h.vstart.toNat)
          s3.firstRow needs (first.flatMap (fun i => gmmReads g sew epi sa i (row0 + i))) (fun _ pre =>
            if epi then first.flatMap (fun i => gmmWrites g cb i (row0 + i) (gmmOut g h.vrm h.satBit
              (if grpGate g = 0 then none else some (leNat (elemBytes pre.es pre.ds i 2)))
              (gmmRow g sew b (sa.map (·.sw)) (elemBytes pre.es pre.ds i 0) (elemBytes pre.es pre.ds i 1)).1).1) else [])
        | .ok (s3, pre) =>
          Eff.keeps (ds := pre.ds.filter (fun d => decide (d.1 < 2 ^ 63))) <|
          let acc := fun (i : Nat) => gmmRow g sew b (sa.map (·.sw)) (elemBytes pre.es pre.ds i 0) (elemBytes pre.es pre.ds i 1)
          let gate := fun (i : Nat) => if grpGate g = 0 then none else some (leNat (elemBytes pre.es pre.ds i 2))
          let out := fun (i : Nat) => gmmOut g h.vrm h.satBit (gate i) (acc i).1
          let wes := if epi then live.flatMap (fun i => gmmWrites g cb i (row0 + i) (out i).1) else []
          (s3.runRows hdr .translate vl is wes pre).finish (fun s ds =>
            (rowsDone is ds).foldl (fun s i =>
              if live.contains i then
                let (cs, e) := acc i
                (s.putAccRow bank i cs).upd (·.raise (if epi then e.or (out i).2 else e))
              else s) s.drainEntry)

/-- `gmm` and `gmm.e` (R278 to R280). -/
def gmmOp (hdr : Hdr) (t : BitVec 3) (rb ra : Reg5) (epi : Bool) (s : State) : Host.Outcome State Fault Refusal :=
  tileRun hdr s (fun s =>
    if 128 < s.hart.vl then .error (hdr.ill 0x03)
    else if s.hart.vl = 0 then .ok (.next s)
    else
      match s.needTile t with
      | .error e => .error e
      | .ok bank =>
        let x := (s.gs rb).toNat
        let row0 := x % 2 ^ 32
        let cb := x / 2 ^ 32 % 2 ^ 16
        match s.issueRecord 0 (s.gs ra) 64 64 with
        | .trap s1 e => .ok (.trap s1 e)
        | .hold s1 => .ok (.hold s1)
        | .ok s1 g =>
          match groupBad g s.hart.sew cb with
          | some sub => .ok (.trap s1 (if sub = 0x03 then hdr.ill sub else hdr.illBody sub))
          | none =>
            let record := blockData 0 (s.gs ra) g
            match s1.groupScales hdr g row0 cb with
            | .error e => .ok (e.keeps record)
            | .ok (s2, sa, sb) =>
              let scales := fun (tag : Nat) (va : Word) (x : Option Scales) => (x.map (fun x => blockData tag va x.bytes)).getD []
              match groupAligned g with
              | some e => .ok (.trap s2 e)
              | none => .ok ((s2.gmmRows hdr bank epi g row0 cb sa sb).keeps
                  (record ++ scales 1 (grpScp g) sa ++ scales 2 (grpScp g + 64) sb)))

/-- `gmm` (R278). -/
def execGmm (t : BitVec 3) (b sa : Reg5) (j : BitVec 1) (s : State) : Host.Outcome State Fault Refusal :=
  gmmOp (tileHdr (wGmm t) (bGmm b sa j) j) t b sa false s

/-- `gmm.e` (R278). -/
def execGmmE (t : BitVec 3) (b sa : Reg5) (j : BitVec 1) (s : State) : Host.Outcome State Fault Refusal :=
  gmmOp (tileHdr (wGmmE t) (bGmmE b sa j) j) t b sa true s

end Sys2Proof.Machine
end

