-- ==== Sys2Proof/Machine/Waits.lean ====
section
/-! DEFINITION. Where a hart takes a pending request, how its waits end, and what the engines of its core do ahead of it and behind it (02 R36, 03 R65,
R88, R89, 05 R131, R132, 06 R156, 07 R186, 08 R198, R203, R212, 09 R229, R230, 12 R285, R292, R294, 13 R333, 14 R346). -/

namespace Sys2Proof.Machine

open Sys2Proof

/-! ### Requests -/

/-- A request that the hart takes at its next point: an interrupt or pre-emption request while IE = 1, or a stop by firmware (R36, 12 R285, R294). -/
def Hart.requested (h : Hart) : Bool := h.stop || (h.ie && h.pending)

/-- The wait of the hart may be abandoned for a request (R88, R89, R198, R201, R273, R334), or it has none. -/
def Wait.open_ : Wait → Bool
  | .none => true
  | .wfi => true
  | .mwait _ _ => true
  | .tas _ => true
  | .bar _ => true
  | .tkwait _ => true
  | .churn _ _ => true
  | .remote _ => false
  | .group _ => false
  | .credit _ => false

/-- The hart is at a point at which it takes a request: between instructions, or in a wait that may be abandoned; the instruction at PC has not begun to wait for other
packages, has had no answer, no wake and no stop of its own (R65, R95, R314, R320), and is no `brole` that has issued (R164, R165). -/
def Hart.atPoint (h : Hart) : Bool :=
  h.run && h.answers.isEmpty && h.stopAt.isNone && h.resume == .none && h.wait.open_ && (h.cur.isEmpty || h.wait != .none) && h.stall != .role

/-- The hart leaves the queue of the semaphore it waits for (R198). -/
def State.leaveQueue (s : State) (id : Nat) : State :=
  match (s.getHart id).wait with
  | .tas n =>
    let k := clusterOf id
    let c := s.getCluster k
    let x := c.sems.getD n ⟨false, []⟩
    s.setCluster k { c with sems := c.sems.setIfInBounds n { x with queue := x.queue.filter (fun q => q.1 != id) } }
  | _ => s

/-- What a wait leaves behind when it is abandoned: a `wfi` has completed (R88), a `gbar` has set GARR (R203). -/
def Hart.abandon (h : Hart) : Hart :=
  match h.wait with
  | .wfi => h.retire false (h.pc + 4)
  | .bar true => h.setGarr true
  | _ => h

/-- INT taken by a hart at a point (R36, R65, 12 R285): EPC is the instruction at PC, the one after a `wfi`. -/
def State.takeInt (s : State) (id : Nat) : State :=
  let s1 := s.leaveQueue id
  let h := (s1.getHart id).abandon
  s1.setHart { h.tookInt.trap ⟨0x0B, h.intTval⟩ with seen := false }

/-- Firmware stops a hart at a point (12 R294): its accesses have performed. -/
def State.stopHart (s : State) (id : Nat) : State :=
  let s1 := (s.leaveQueue id).drainAll id
  s1.setHart { s1.getHart id with run := false, stop := false, wait := .none, resume := .none, answers := [], asked := [], told := [], cur := [], places := [], refuse := none, opened := false, credit := none, stopAt := none, coll := none, inUse := none, claim := none, stall := .none, vq := [], busy := [] }

/-- A member asks to withdraw its arrival (R346): this package's port decides next, or another port is asked. -/
def State.withdraw (s : State) (id : Nat) : State :=
  let h := s.getHart id
  match h.wait, h.coll with
  | .group _, some c =>
    if c.go || c.asked then s
    else
      let g := h.group c.g
      let s1 := s.setHart { h with coll := some { c with asked := true } }
      if s.combinesHere h.ctxid g.gid then s1.queue (.arrivalWithdrawal h.ctxid g.gid g.rank.toNat false)
      else s1.emit (.withdrawal h.ctxid g.gid g.rank.toNat)
  | _, _ => s

/-- ARRIVAL_WITHDRAWAL (R346): the combining port applies it unless GO has been sent, and answers a member in another package; `applied` is the answer of a port
elsewhere. A member here whose withdrawal is applied has begun no collective, and traps INT or stops. -/
def execArrivalWithdrawal (ctx gid : BitVec 16) (rank : Nat) (applied : Bool) (s0 : State) : Host.Outcome State Fault Refusal :=
  .next (
    let here := s0.combinesHere ctx gid
    let c := s0.combine ctx gid
    let yes := if here then !c.go else applied
    let s := if here && (s0.memberHart ctx gid rank).isNone then s0.emit (.withdrawn ctx gid rank yes) else s0
    if yes then
      let s1 := if here then { s.setCombine ctx gid (some { c with arrived := tabDel c.arrived rank }) with
        agenda := s.agenda.filter (fun e => match e with
          | .collectiveArrival x y r _ => !(x == ctx && y == gid && r == rank)
          | _ => true) } else s
      match s1.memberHart ctx gid rank with
      | some h =>
        (match h.coll with
          | some k =>
            if k.go then s
            else
              let s2 := s1.setHart { h with wait := .none, coll := none }
              if h.stop then s2.stopHart h.id else if h.requested then s2.takeInt h.id else s2
          | none => s1)
      | none => s1
    else s)

/-- What a request that is due brings about: INT, the stop, or the withdrawal that comes before it. -/
def State.honour (s : State) (id : Nat) : State :=
  let h := s.getHart id
  if !h.requested then s
  else if h.stop && (h.atPoint || (h.run && h.wait matches .credit _)) then s.stopHart id
  else if h.atPoint then s.takeInt id
  else s.withdraw id

/-- PREEMPTION_REQUEST (R36, R65, 12 R292): a hart takes the pre-emption request of firmware, or withdraws its arrival first (14 R346). -/
def execPreemptionRequest (hart : Nat) (s : State) : Host.Outcome State Fault Refusal :=
  .next (if (s.getHart hart).preempt || (s.getHart hart).stop then s.honour hart else s)

/-- SOFTWARE_INTERRUPT (12 R285): a hart takes its lowest pending source; a pre-emption request goes first. -/
def execSoftwareInterrupt (hart : Nat) (s : State) : Host.Outcome State Fault Refusal :=
  .next (if (s.getHart hart).preempt || (s.getHart hart).stop then s else s.honour hart)

/-! ### The ends of waits -/

/-- WFI_WAKE (R88): `wfi` ends when a request is pending, or early. -/
def execWfiWake (hart : Nat) (s : State) : Host.Outcome State Fault Refusal :=
  .next (
    let h := s.getHart hart
    match h.wait with
    | .wfi => s.setHart { h with wait := .none, resume := .woken }
    | _ => s)

/-- MWAIT_WAKE (R89): `mwait` ends by a request that is not taken, or early; a write to its line ends it when it performs. -/
def execMwaitWake (hart : Nat) (s : State) : Host.Outcome State Fault Refusal :=
  .next (
    let h := s.getHart hart
    match h.wait with
    | .mwait _ _ => s.setHart { h with wait := .none, resume := .woken }
    | _ => s)

/-- MWAIT_TIMEOUT (R89): 2^20 arithmetic clocks have passed. -/
def execMwaitTimeout (hart : Nat) (s : State) : Host.Outcome State Fault Refusal :=
  .next (
    let h := s.getHart hart
    match h.wait with
    | .mwait _ since => if since + 2 ^ 20 ≤ s.cycle then s.setHart { h with wait := .none, resume := .woken } else s
    | _ => s)

/-- TKWAIT_LIMIT (R333): the limit of `tkwait` has passed. -/
def execTkwaitLimit (hart : Nat) (s : State) : Host.Outcome State Fault Refusal :=
  .next (
    let h := s.getHart hart
    match h.wait with
    | .tkwait (some l) => if l ≤ s.cycle then s.setHart { h with wait := .none, resume := .limit } else s
    | _ => s)

/-- TEPI_ROW_HANDOVER (R185, R186): credit comes for the row that a hart has computed, not later than 4,096 clocks after a request, and it is handed over. -/
def execTepiRowHandover (hart : Nat) (s : State) : Host.Outcome State Fault Refusal :=
  .next (
    let h := s.getHart hart
    match h.wait with
    | .credit none => s.setHart { h with wait := .none, resume := .woken }
    | .credit (some t) => if s.cycle ≤ t + 4096 then s.setHart { h with wait := .none, resume := .woken } else s
    | _ => s)

/-- A hart that waits for credit notes when a request came (R186). -/
def Hart.noteRequest (h : Hart) (now : Nat) : Hart :=
  match h.wait with
  | .credit none => if h.requested then { h with wait := .credit (some now) } else h
  | .credit (some _) => if h.requested then h else { h with wait := .credit none }
  | _ => h

/-- TEPI_CREDIT_TIMEOUT (R186): 4,096 clocks after a request the computed row is discarded and the hart traps INT, with VSTART at that row. -/
def execTepiCreditTimeout (hart : Nat) (s : State) : Host.Outcome State Fault Refusal :=
  .next (
    let h := s.getHart hart
    match h.wait with
    | .credit (some t) => if t + 4096 ≤ s.cycle && h.requested then s.takeInt hart else s
    | _ => s)

/-! ### Engines -/

/-- The units of a class that other harts of the core have, with the convoys they run or for an instruction that has begun and waits (R156). -/
def State.unitsTaken (s : State) (id : Nat) (u : UnitClass) : Nat :=
  ((s.allHarts.filter (fun h => coreOf h.id == coreOf id && h.id != id)).map (fun h => h.busy.count u + (if h.inUse = some u then 1 else 0))).sum

/-- Another hart of the core has an earlier tile instruction whose convoy has not begun: convoys that take the TILE unit begin in the order in which the model has applied their
instructions (R176, log 37). -/
def State.tileBehind (s : State) (id : Nat) (c : QConvoy) : Bool :=
  match c.tile with
  | none => false
  | some t => s.allHarts.any (fun h => coreOf h.id == coreOf id && h.id != id && h.vq.any (fun q => match q.tile with
      | some x => decide (x < t)
      | none => false))

/-- The hart's oldest queued convoy may begin (R154, R156): the convoy before it has drained, or is the one that it joins, and every unit that it needs is free. -/
def State.mayBegin (s : State) (h : Hart) : Bool :=
  match h.vq with
  | [] => false
  | c :: _ =>
    let running := if c.joins then h.busy else []
    (c.joins || h.busy.isEmpty) && c.members.all (fun u => decide (s.unitsTaken h.id u + (running ++ c.members).count u ≤ u.units)) && !s.tileBehind h.id c

/-- CONVOY_BEGIN (R152, R156): the hart's oldest convoy that has not begun leaves the vector queue. -/
def execConvoyBegin (hart : Nat) (s : State) : Host.Outcome State Fault Refusal :=
  .next (
    let h := s.getHart hart
    match h.vq with
    | [] => s
    | c :: cs => if s.mayBegin h then s.setHart { h with vq := cs, busy := h.busy ++ c.members } else s)

/-- The element of an input stream that the engine may fetch next: up to 8 KiB ahead of the consumed count (R212), while the vector state of the hart
is that of its context and the hart runs in user mode (log 22). -/
def Hart.fetchNext (h : Hart) (st : Stream) : Option Nat :=
  if st.out || st.flt.isSome || !h.answers.isEmpty || !h.vownV || h.vownCtx != h.ctxid || h.super || st.count ≤ st.done + st.fetched.length ||
      8192 < (st.fetched.length + 1) * (4 * 2 ^ st.sew.toNat / 8) then none
  else some (st.done + st.fetched.length)

/-- A fetch ahead faulted: its consumer takes the trap (R214); an uncorrectable error has its machine-check record now (R307). A failed ticket is left to the
consumer, whose trap frees it (R331). -/
def State.fetchFaulted (s : State) (id q : Nat) (st : Stream) (e : RElem) (f : ElemFault) (report : Word) : State :=
  let t := streamTrap f report
  if f = .rf then s else (if f = .ecc then s.eccElem id e else s).putStream id q { st with flt := some ⟨t.cause, t.tval, false⟩ }

/-- The engine fetches one element of an input stream ahead (R212, R214, R350); where that needs another package it waits for the consumer. -/
def State.fetchAhead (s : State) (id q : Nat) (st : Stream) (e : Nat) : State :=
  match s.chunkReady id q st e with
  | (s1, .fault f) => s1.fetchFaulted id q st (flagRead q st e) f (st.base + BitVec.ofNat 64 (e * (4 * 2 ^ st.sew.toNat / 8)))
  | (_, .need _ _) => s
  | (s1, .done f _) =>
    if f ≠ st.seq.toNat then s1
    else
      match s1.streamAddr id q st e with
      | .unmapped s2 r => s2.putStream id q { st with flt := some ⟨0x04, r, false⟩ }
      | .fault s2 x f r => s2.fetchFaulted id q st x f r
      | .need _ _ _ => s
      | .at s2 va r =>
        match s2.engineRead id (streamRead q st e va) with
        | (s3, .done d _) => s3.putStream id q { st with fetched := st.fetched ++ [d] }
        | (s3, .fault f) => s3.fetchFaulted id q st (streamRead q st e va) f r
        | (_, .need _ _) => s

/-- A move of an engine for a hart makes translations of its own, apart from those of the instruction at PC (R121). -/
def State.apart (s : State) (id : Nat) (f : State → State) : State :=
  let h := s.getHart id
  let t := f (s.setHart { h with places := [], refuse := none, opened := false })
  t.setHart { t.getHart id with places := h.places, refuse := h.refuse, opened := h.opened }

/-- STREAM_FETCH (R212, R213). -/
def execStreamFetch (hart q : Nat) (s : State) : Host.Outcome State Fault Refusal :=
  .next (
    match (s.getHart hart).streams.getD q none with
    | none => s
    | some st =>
      match (s.getHart hart).fetchNext st with
      | none => s
      | some e => s.apart hart (fun s => s.fetchAhead hart q st e))

/-- COPY_ELEMENT (R205, R208, R209). -/
def execCopyElement (cluster : Nat) (s : State) : Host.Outcome State Fault Refusal := .next (s.copyStep cluster)

/-- The number of entries up to the first that meets a test, 0 for none. -/
def firstHit (f : PendWrite → Bool) (ps : List PendWrite) : Nat :=
  match ps.findIdx? f with
  | none => 0
  | some k => k + 1

/-- PAIL_CHAIN_APPLY (R128, R229): the oldest atomic updates of a hart perform, in order with what they follow. -/
def execPailChainApply (hart : Nat) (s : State) : Host.Outcome State Fault Refusal :=
  .next (s.drainV hart (firstHit (·.rmw.isSome) (s.getHart hart).vbuf))

/-- A location in host memory (Table 9-3). -/
def isHost (l : Nat) : Bool := decide (2 ^ 51 ≤ l) && decide (l < 2 ^ 52)

/-- HOST_COMPLETION (R230, R335): the completion of the oldest access of a hart to host memory returns, and it has performed. -/
def execHostCompletion (hart : Nat) (s : State) : Host.Outcome State Fault Refusal :=
  .next (s.drainV hart (firstHit (fun p => isHost p.loc) (s.getHart hart).vbuf))

end Sys2Proof.Machine
end

