-- ==== Sys2Proof/Machine/Owner.lean ====
section
/-! DEFINITION. Accesses that no hart of the package makes, the owner's side of remote access, and what its answers and notices do at the requester
(13 R311 to R328, R341, 11 R275, 14 R351, R352). -/

namespace Sys2Proof.Machine

open Sys2Proof

/-! ### Accesses of firmware, ports and the host at locations -/

/-- Bytes read at a location for no hart; none where they have an uncorrectable error. -/
def State.readLoc (s : State) (l n : Nat) : State × Option (List Byte) :=
  match (s.settleOthers noHart l n).readError noHart false l n with
  | (s1, true) => (s1, none)
  | (s1, false) => (s1, some (memRead n l s1.mem))

/-- Bytes written at a location for no hart. -/
def State.writeLoc (s : State) (l : Nat) (bs : List Byte) : State := (s.settleOthers noHart l bs.length).perform l bs

/-- Firmware at a die as the agent of a context (12 R289). -/
def fwAgent (die : Nat) (ctx : BitVec 16) : Agent := ⟨die * 256, ctx, false, some 0xFFFFFFFF⟩

/-- The location of an address in the tables of a context, whose untranslated windows belong to harts only (R321, R323). -/
def State.tabPlace (s : State) (a : Agent) (k : AccK) (va : Word) : State × Place :=
  if canonical va = false || decide (0xFFFFF00000000000 ≤ va.toNat) then (s, .fault 0) else s.translateTab false a k va

/-- A piece of a block that lies on one page read by firmware for a context. -/
def State.fwReadPiece (s : State) (a : Agent) (va : Word) (n : Nat) : State × Option (List Byte) :=
  let read := fun (s : State) (l : Nat) =>
    match s.readLoc l n with
    | (s1, none) => (s1.eccAgent a l, none)
    | r => r
  match s.tabPlace a .read va with
  | (s1, .loc l _) => read s1 l
  | (s1, .host l _) => if Config.hostRefuses s1.free l then (s1.took, none) else read s1.took l
  | (s1, _) => (s1, none)

/-- The pieces of a block read in order; none where one cannot be. -/
def State.fwReadPieces (s : State) (a : Agent) : List (Word × Nat) → List Byte → State × Option (List Byte)
  | [], acc => (s, some acc)
  | p :: ps, acc =>
    match s.fwReadPiece a p.1 p.2 with
    | (s1, none) => (s1, none)
    | (s1, some bs) => s1.fwReadPieces a ps (acc ++ bs)

/-- `n` bytes of a context read by firmware. -/
def State.fwRead (s : State) (a : Agent) (va : Word) (n : Nat) : State × Option (List Byte) :=
  s.fwReadPieces a (blockPieces (n + 1) va n) []

/-- Bytes on one page of a context written by firmware; whether they could be. -/
def State.fwWrite (s : State) (a : Agent) (va : Word) (bs : List Byte) : State × Bool :=
  match s.tabPlace a .write va with
  | (s1, .loc l _) => (s1.writeLoc l bs, true)
  | (s1, .host l _) => if Config.hostRefuses s1.free l then (s1.took, false) else (s1.took.writeLoc l bs, true)
  | (s1, _) => (s1, false)

/-- The fabric table of a context (R310, Table 13-2). -/
def fabricTable : Word := 0x003FFFFFFFFF0000

/-! ### The owner's side (R321 to R324) -/

/-- One element performs at a location of the package for no hart of it (R314, R317, R319). -/
def State.performAgent (s : State) (l : Nat) (e : RElem) : State × ElemRes :=
  let (s1, bad) := if e.op matches .store | .nibble _ | .put _ _ | .probe | .skim _ then (s.settleOthers noHart l e.n, false)
    else (s.settleOthers noHart l e.n).readError noHart false l e.n
  let old := leNat (memRead e.n l s1.mem)
  let half := fun (hi : Bool) => s1.perform l [BitVec.ofNat 8 (if hi then old % 16 + e.data % 16 * 16 else old / 16 * 16 + e.data % 16)]
  match e.op with
  | .store => (s1.perform l (natLe e.n e.data), .done 0 false)
  | .load => if bad then (s1, .fault .ecc) else (s1, .done old false)
  | .nibble hi => (half hi, .done 0 false)
  | .amo code =>
    if bad then (s1, .fault .ecc)
    else
      match amoNew code (8 * e.n) old e.data e.cmp with
      | none => (s1, .done old false)
      | some x => (s1.perform l (natLe e.n x), .done old false)
  | .vamo code rm flt =>
    if bad then (s1, .fault .ecc)
    else (s1.perform l (natLe e.n (vamoNew code (8 * e.n) (RM.ofCode rm) flt old e.data)), .done 0 false)
  | .skim _ => (s1, .done 0 false)
  | .probe => (s1, .done l false)
  | .put _ none => (s1.perform l (natLe e.n e.data), .done 0 false)
  | .put _ (some hi) => (half hi, .done 0 false)

/-- The page number of an address. -/
def pageOf (va : Word) : Nat := va.toNat / 2 ^ 16 % 2 ^ 39

/-- The address of a page number. -/
def pageAddr (page : Nat) : Word := (BitVec.ofNat 39 page).signExtend 64 <<< 16

/-- The next ticket number of a die that no pending ticket has (R322): at most 1,024 are in use. -/
def nextTicket (used : List Nat) : Nat → Nat → Nat
  | 0, t => t
  | n + 1, t => if used.contains t then nextTicket used n ((t + 1) % 0xFFFF) else t

/-- Firmware posts the service request of a new ticket (R323): the address of its entry, none where the ticket fails at once. -/
def State.postService (s : State) (die : Nat) (ctx : BitVec 16) (page ticket kind : Nat) (w : Bool) : State × Option Word :=
  let a := fwAgent die ctx
  match s.fwRead a (fabricTable + 0xC0) 16 with
  | (s1, none) => (s1, none)
  | (s1, some bs) =>
    let svc := BitVec.ofNat 64 (fieldOf bs 0 8)
    let n := fieldOf bs 8 8
    if svc = 0 || svc.toNat % 64 != 0 || !([16, 32, 64, 128, 256, 512, 1024, 2048, 4096].contains n) then (s1, none)
    else
      match s1.fwRead a svc 8 with
      | (s2, none) => (s2, none)
      | (s2, some pb) =>
        let q := (leNat pb + 1) % 2 ^ 64
        let va := svc + 64 + BitVec.ofNat 64 (32 * ((q + 2 ^ 64 - 1) % 2 ^ 64 % n))
        match s2.fwRead a va 32 with
        | (s3, none) => (s3, none)
        | (s3, some eb) =>
          if n < q && fieldOf eb 0x18 4 == 0 then (s3, none)
          else
            let info := die * 2 ^ 20 + (if w then 2 ^ 19 else 0) + kind * 2 ^ 16 + ticket
            match s3.fwWrite a va (natLe 8 (pageAddr page).toNat ++ natLe 8 info ++ natLe 8 q ++ natLe 8 0) with
            | (s4, false) => (s4, none)
            | (s4, true) =>
              match s4.fwWrite a svc (natLe 8 q) with
              | (s5, true) => (s5, some va)
              | (s5, false) => (s5, none)

/-- The ticket of a page at a die for a package (R322): the pending one, a new one, or the busy ticket. -/
def State.ticketFor (s : State) (die : Nat) (ctx : BitVec 16) (page pkg kind : Nat) (w : Bool) : State × Nat :=
  match s.owned.find? (fun t => t.die == die && t.ctx == ctx && t.page == page) with
  | some t =>
    ({ s with owned := s.owned.map (fun x => if x = t then { x with pkgs := if x.pkgs.contains pkg then x.pkgs else x.pkgs ++ [pkg] } else x) }, t.ticket)
  | none =>
    let mine := s.owned.filter (fun t => t.die == die)
    if 1024 ≤ mine.length then (s, 0xFFFF)
    else
      let t := nextTicket (mine.map (·.ticket)) 1024 ((tabGet s.nextTk die).getD 0)
      let (s1, entry) := { s with nextTk := tabPut s.nextTk die ((t + 1) % 0xFFFF) }.postService die ctx page t kind w
      ({ s1 with owned := s1.owned ++ [⟨die, t, ctx, page, [pkg], entry, s1.time⟩] }, t)

/-- The agent of a request at its owner: the HARTID of the hart it came from, none for a row of a dispatch context. -/
def packetAgent (p : Packet) : Agent := ⟨p.die * 256, p.ctx, p.user, some (if p.hart < 1024 then p.src * 1024 + p.hart else 0xFFFFFFFF)⟩

/-- One element at its owner (R321): performed, ticketed or refused; `w` is whether an element of its packet writes the page, `base` the counter by which the host
refuses pages of its memory. -/
def State.ownElem (s : State) (p : Packet) (base : Nat) (e : RElem) (w : Bool) : State × RAns :=
  let a := packetAgent p
  let go := fun (s : State) (l : Nat) (st : Bool) =>
    match s.performAgent l e with
    | (s1, .done d _) => (s1, RAns.done d st)
    | (s1, _) => (s1.eccAgent a l, RAns.ecc)
  let tick := fun (s : State) (kind : Nat) =>
    let (s1, t) := s.ticketFor p.die p.ctx (pageOf e.addr) p.src kind w
    (s1, RAns.ticket t)
  match e.op with
  | .put l _ => go s l false
  | _ =>
  match s.tabPlace a (ropAcc e.op) e.addr with
  | (s1, .loc l st) => go s1 l st
  | (s1, .host l st) => if Config.hostRefuses base l then (s1, .refused) else go s1 l st
  | (s1, .peer _ _ _) => tick s1.took (Config.pick s1.free % 2)
  | (s1, .fault k) => tick s1 k

/-- The elements of a packet in ascending order (R319); an uncorrectable error at an atomic stops it there, since no element above it may have performed (R140, R320). -/
def State.ownElems (s : State) (p : Packet) (base : Nat) : List RElem → State × List (Nat × RAns)
  | [] => (s, [])
  | e :: es =>
    let w := p.elems.any (fun x => pageOf x.addr == pageOf e.addr && ropAcc x.op == .write)
    let (s1, r) := s.ownElem p base e w
    if r = .ecc && e.op != .load then (s1, [(e.idx, r)])
    else
    let (s2, rs) := s1.ownElems p base es
    (s2, (e.idx, r) :: rs)

/-- A packet at its owner: a SKIM instruction at its slot (10 R239, R251), or the elements of an access. -/
def State.ownPacket (s : State) (p : Packet) : State × List (Nat × RAns) :=
  match p.elems with
  | e :: _ =>
    match e.op with
    | .skim fn =>
      let (s1, r) := s.skimApply (packetAgent p) e.addr fn ((p.elems.take e.n).map (fun x => (x.data, x.cmp)))
      (s1, [(skimIdx fn, .done r.encode false)])
    | _ => s.took.ownElems p s.free p.elems
  | [] => (s, [])

/-! ### Chunks of fabric streams at their receiver (14 R350 to R353) -/

/-- The count of the chunk that bytes at an address of a stream's buffer belong to, with nothing of it arrived yet (R350). -/
def chunkOf (p : Packet) (t : StreamTag) (va : Word) : ChunkCount :=
  let c := (va - t.buf).toNat / 65536
  ⟨p.ctx, p.user, t.flaga + BitVec.ofNat 64 (8 * c), t.seq, t.group, 0, min 65536 (t.bytes - 65536 * c)⟩

/-- The counts of two chunks are of one chunk. -/
def ChunkCount.same (a b : ChunkCount) : Bool := a.ctx == b.ctx && a.user == b.user && a.flag == b.flag && a.seq == b.seq && a.group == b.group

/-- A chunk whose count is full (R351). -/
def ChunkCount.full (c : ChunkCount) : Bool := decide (c.want ≤ c.got)

/-- Bytes of a chunk have performed: they are counted. -/
def countChunk (cs : List ChunkCount) (c : ChunkCount) (n : Nat) : List ChunkCount :=
  if cs.any (fun x => x.same c && !x.full) then cs.map (fun x => if x.same c && !x.full then { x with got := x.got + n } else x)
  else cs ++ [{ c with got := n }]

/-- The port counts the bytes of a stream's packet that have performed (R351). -/
def State.countStream (s : State) (p : Packet) (rs : List (Nat × RAns)) : State :=
  match p.tag with
  | none => s
  | some t =>
    { s with chunks := p.elems.foldl (fun cs e =>
        match tabGet rs e.idx with
        | some (.done _ _) => if e.op = .probe then cs else countChunk cs (chunkOf p t e.addr) e.n
        | _ => cs) s.chunks }

/-- A packet of a group whose abort this package's port has applied (R352, R353): it is discarded. -/
def State.discards (s : State) (p : Packet) : Bool :=
  match p.tag with
  | some ⟨some g, _, _, _, _⟩ =>
    (match s.portGroup p.ctx g with
      | some x => x.abort.isSome
      | none => false)
  | _ => false

/-- REMOTE_REQUEST (R313, R321): a packet reaches its owner die; the answers go back to the package it came from. One that is discarded has performed nothing; its
sender here goes on without an answer to any element. -/
def execRemoteRequest (p : Packet) (s : State) : Host.Outcome State Fault Refusal :=
  .next (
    let here := p.src == s.pkg.toNat
    if here && !s.sent.any (· == p) then s
    else if s.discards p then (if here then s.queue (.remoteAnswer p.seq []) else s)
    else
      let (s1, rs) := s.ownPacket p
      let s2 := s1.countStream p rs
      if here then s2.queue (.remoteAnswer p.seq rs) else s2.emit (.answer p.src p.seq rs))

/-- The notices of a ticket go to every package that received it, and it is free (R324). -/
def State.sendNotices (s : State) (t : OwnerTicket) (ok : Bool) : State :=
  t.pkgs.foldl (fun (s : State) k =>
    if k = s.pkg.toNat then (s.queue (.replayNotice k t.page t.ticket ok)).queue (.churnRemoteReplay k t.page t.ticket ok)
    else s.emit (.notice k t.ticket t.page ok)) { s with owned := s.owned.filter (· != t) }

/-- STATUS of a service entry, if it can be read (Table 13-4). -/
def State.serviceStatus (s : State) (t : OwnerTicket) : State × Option Nat :=
  match t.entry with
  | none => (s, some 2)
  | some va =>
    match s.fwRead (fwAgent t.die t.ctx) (va + 0x18) 4 with
    | (s1, some bs) => (s1, some (leNat bs))
    | (s1, none) => (s1, none)

/-- A pending ticket of a die. -/
def State.ownedTicket (s : State) (die ticket : Nat) : Option OwnerTicket := s.owned.find? (fun t => t.die == die && t.ticket == ticket)

/-- REPLAY_NOTICE_SEND (R323, R324): firmware sees STATUS 1 or 2, or could not post the request. -/
def execReplayNoticeSend (die ticket : Nat) (s : State) : Host.Outcome State Fault Refusal :=
  .next (
    match s.ownedTicket die ticket with
    | none => s
    | some t =>
      match s.serviceStatus t with
      | (s1, some 1) => s1.sendNotices t true
      | (s1, some 2) => s1.sendNotices t false
      | (s1, _) => s1)

/-- SERVICE_TIMEOUT (R324): STATUS is still 0 one second after posting. -/
def execServiceTimeout (die ticket : Nat) (s : State) : Host.Outcome State Fault Refusal :=
  .next (
    match s.ownedTicket die ticket with
    | none => s
    | some t =>
      if s.time < t.posted + 10 ^ 9 then s
      else
        match s.serviceStatus t with
        | (s1, some 1) => s1
        | (s1, some 2) => s1
        | (s1, _) => s1.sendNotices t false)

/-! ### The requester's side (R314, R320, R325 to R328, R332, R341; 08 R209; 11 R275) -/

/-- The row of a dispatch context that a request carried comes to its answer (11 R275). -/
def State.rowAnswer (s : State) (k : Nat) (r : ChurnRow) (a : RAns) : State :=
  let rest := fun (x : Churn) => x.rows.filter (· != r)
  match a with
  | .done _ _ => s.updChurn k (fun x => { x with rows := rest x })
  | .ticket 0xFFFF => (s.updChurn k (fun x => { x with rows := rest x })).sendRow k r
  | .ticket t => s.updChurn k (fun x => { x with rows := rest x ++ [{ r with seq := none, ticket := some t }] })
  | _ => s.updChurn k (fun x => { x with rows := rest x, rfail := true })

/-- The answers of a request reach who sent it: a hart, a copy engine or a dispatch context. -/
def State.deliver (s : State) (p : Packet) (ans : List (Nat × RAns)) : State :=
  let s1 := { s with sent := s.sent.filter (fun x => x.seq != p.seq) }
  if 8192 ≤ p.hart then
    match tabGet s1.churns (p.hart - 8192) with
    | none => s1
    | some x =>
      match x.rows.find? (fun r => r.seq == some p.seq) with
      | none => s1
      | some r => s1.rowAnswer (p.hart - 8192) r ((tabGet ans r.elem.idx).getD .failed)
  else
    let k := clusterOf p.hart
    let c := s1.getCluster k
    if c.copies.any (fun c => c.wait == some p.seq) then
      s1.setCluster k { c with copies := c.copies.map (fun c => if c.wait = some p.seq then { c with wait := none, answer := c.answer ++ ans } else c) }
    else
      let h := s1.getHart p.hart
      match h.wait with
      | .remote n => s1.setHart { h with answers := h.answers ++ ans, wait := if n ≤ 1 then .none else .remote (n - 1) }
      | _ => s1

/-- REMOTE_ANSWER (R314, R320): the owner's answer to a request arrives, once. -/
def execRemoteAnswer (seq : Nat) (ans : List (Nat × RAns)) (s : State) : Host.Outcome State Fault Refusal :=
  .next (
    match s.sent.find? (fun p => p.seq == seq) with
    | none => s
    | some p => s.deliver p ans)

/-- An entry after a replay notice (R328). -/
def Ticket.noticed (t : Ticket) (pkg page ticket : Nat) (ok : Bool) (ord : Nat) : Ticket :=
  if t.state = .wait && t.ticket.toNat == ticket && t.pkg.toNat == pkg && t.page.toNat == page then
    { t with state := if ok then .ready else .fail, ord := ord }
  else t

/-- The harts that wait in `tkwait` and have something to report, or no entry in WAIT, are taken up again (R333). -/
def State.wakeTkwait (s : State) : State :=
  s.mapHarts (fun h =>
    match h.wait with
    | .tkwait _ =>
      let ts := (s.getCore (coreOf h.id)).tickets.filter (·.ofHart h)
      if ts.any (fun t => t.state == .ready || t.state == .fail) || !ts.any (fun t => t.state == .wait) then { h with wait := .none } else h
    | _ => h)

/-- The tickets of a core after a replay notice. -/
def Core.noticed (c : Core) (pkg page ticket : Nat) (ok : Bool) (ord : Nat) : Core :=
  { c with tickets := c.tickets.map (fun (t : Ticket) => t.noticed pkg page ticket ok ord) }

/-- Elements answered with a ticket, whose entries are not made yet, hear a notice that matches one of them (R326, R328). -/
def heard (answers : List (Nat × RAns)) (asked : List (Nat × Nat × Word)) (told : List Told) (n : Told) : List Told :=
  if answers.any (fun a => a.2 == .ticket n.ticket && (match tabGet asked a.1 with
      | some (pkg, va) => pkg == n.pkg && pageOf va == n.page
      | none => false)) then told ++ [n] else told

/-- A replay notice reaches the harts and copies that have been answered with its ticket and have not entered it yet. -/
def State.tell (s : State) (n : Told) : State :=
  let s1 := s.mapHarts (fun h => { h with told := heard h.answers h.asked h.told n })
  { s1 with clusters := s1.clusters.map (fun (c : Nat × Cluster) =>
      (c.1, { c.2 with copies := c.2.copies.map (fun k => { k with told := heard k.answer k.asked k.told n }) })) }

/-- A replay notice applied to the ticket tables of every core, and to those that firmware has saved (R328, R332). -/
def State.notice (s : State) (pkg page ticket : Nat) (ok : Bool) : State :=
  let f := fun (c : Nat × Core) => (c.1, c.2.noticed pkg page ticket ok s.notices)
  let s1 : State := { s with cores := s.cores.map f, parked := s.parked.map (fun (p : Parked) => { p with cores := p.cores.map f }),
                             notices := s.notices + 1 }
  (s1.tell ⟨pkg, page, ticket, ok, s.notices⟩).wakeTkwait

/-- REPLAY_NOTICE (R328). -/
def execReplayNotice (pkg page ticket : Nat) (ok : Bool) (s : State) : Host.Outcome State Fault Refusal :=
  .next (s.notice pkg page ticket ok)

/-- A replay notice at one dispatch context (11 R275): its rows with the ticket are written again, or fail. -/
def State.churnNotice (s : State) (pkg page ticket : Nat) (ok : Bool) (k : Nat) : State :=
  match tabGet s.churns k with
  | none => s
  | some x =>
    let hit := fun (r : ChurnRow) => r.ticket == some ticket && r.pkg == pkg && pageOf r.elem.addr == page
    let s1 := s.setChurn k { x with rows := x.rows.filter (fun r => !hit r), rfail := x.rfail || (!ok && x.rows.any hit) }
    if ok then (x.rows.filter hit).foldl (fun s r => s.sendRow k r) s1 else s1

/-- CHURN_REMOTE_REPLAY (11 R275). -/
def execChurnRemoteReplay (pkg page ticket : Nat) (ok : Bool) (s : State) : Host.Outcome State Fault Refusal :=
  .next ((s.churns.map (·.1)).foldl (fun s k => s.churnNotice pkg page ticket ok k) s)

/-! ### Flags of stream chunks (14 R351, R352) -/

/-- STREAM_CHUNK_FULL (14 R351, R352): the port writes the flag of a chunk whose count is full as a release at system scope, and no other. -/
def execStreamChunkFull (ctx : BitVec 16) (group : Option (BitVec 16)) (user : Bool) (flag seq : Word) (s : State) : Host.Outcome State Fault Refusal :=
  .next (
    match s.chunks.find? (fun c => c.full && c.same ⟨ctx, user, flag, seq, group, 0, 0⟩) with
    | none => s
    | some c => (({ s with chunks := s.chunks.erase c } : State).fwWrite { fwAgent 0 ctx with user := user } flag (natLe 8 seq.toNat)).1)

end Sys2Proof.Machine
end

