-- ==== Sys2Proof/Machine/Firmware.lean ====
section
/-! DEFINITION. The firmware mailbox and its functions, shoot-downs and promotions (12 R283 to R285, R289, R294, 09 R220, R227, R228). -/

namespace Sys2Proof.Machine

open Sys2Proof

/-- Firmware carries out calls and takes jobs: DRAMCAL is set, no stage has failed, and the package is not in recovery mode (12 R302 to R304). -/
def State.serving (s : State) : Bool := s.brdy.getLsbD 2 && s.brdy.toNat / 256 % 256 == 0 && !s.recovery

/-- The location of the mailbox slot of a hart (R283). -/
def mailboxLoc (hart : Nat) : Nat := locScratch (dieOf hart) (mailboxOff hart)

/-- A call as firmware has read it: REQ, the arguments, and the bytes of the slot. -/
structure Call where
  req  : Nat
  args : List Word
  slot : List Byte
  deriving DecidableEq, Repr

/-- Argument k of a call. -/
def Call.arg (c : Call) (k : Nat) : Word := c.args.getD k 0

/-- A call of the hart is in progress. -/
def State.callBusy (s : State) (hart : Nat) : Bool := s.shoots.any (·.hart == hart) || s.promos.any (·.hart == hart)

/-- Firmware reads the slot of a hart that has called (R284 step 3) and goes on where FUNC is one that `f` names; a call whose REQ has DONE = 1 by
then is lost. -/
def State.withCall (s : State) (hart : Nat) (f : Nat → Bool) (k : State → Call → State) : State :=
  if !s.serving || !s.calls.contains hart || s.callBusy hart then s
  else
    match s.readLoc (mailboxLoc hart) 40 with
    | (s1, none) => { s1 with calls := s1.calls.erase hart }.eccAgent (fwAgent (dieOf hart) 0) (mailboxLoc hart)
    | (s1, some bs) =>
      let req := fieldOf bs 0 8
      if req / 2 ^ 63 = 1 then { s1 with calls := s1.calls.erase hart }
      else if f (req % 256) then
        k { s1 with calls := s1.calls.erase hart } ⟨req, (List.range 4).map (fun j => BitVec.ofNat 64 (fieldOf bs (8 * j + 8) 8)),
          memRead 64 (mailboxLoc hart) s1.mem⟩
      else s

/-- Firmware answers a call (R284 step 4): RES, then REQ with DONE. -/
def State.respond (s : State) (hart req status value : Nat) : State :=
  let s1 := s.writeLoc (mailboxLoc hart + 0x38) (natLe 8 (value * 2 ^ 16 + status))
  { s1.writeLoc (mailboxLoc hart) (natLe 8 (2 ^ 63 + req / 2 ^ 16 % 2 ^ 32 * 2 ^ 16 + req % 256)) with
    calls := s1.calls.filter (· != hart) }

/-- The answer of a call that firmware has been carrying out since it read the slot: what was written to the slot since is lost (R284). -/
def State.respondLate (s : State) (hart : Nat) (slot : List Byte) (req status value : Nat) : State :=
  (s.writeLoc (mailboxLoc hart) slot).respond hart req status value

/-! ### END_HART, END_JOB, YIELD (R292, R294) -/

/-- An exit code in range (Table 12-2). -/
def exitCode (x : Word) : Bool := decide (0x100 ≤ x.toNat) && decide (x.toNat < 2 ^ 32)

/-- A job changed. -/
def State.updJob (s : State) (id : Word) (f : Job → Job) : State := { s with jobs := s.jobs.map (fun j => if j.id = id then f j else j) }

/-- A hart of a job that firmware stops: at its next instruction boundary; one that has yielded is stopped already (R294). -/
def Hart.stopFor (h : Hart) (job : Word) : Hart :=
  if h.jobid = job then (if h.run then { h with stop := true } else { h with yielded := false }) else h

/-- Firmware stops every remaining hart of a job (R294). -/
def State.stopJob (s : State) (job : Word) : State :=
  let s1 := s.mapHarts (·.stopFor job)
  { s1 with parked := s1.parked.map (fun (p : Parked) => { p with harts := p.harts.map (fun h => if h.jobid = job then { h with run := false, yielded := false } else h) }) }

/-- END_HART (R294): the hart ends with its exit code. -/
def execEndHart (hart : Nat) (s : State) : Host.Outcome State Fault Refusal :=
  .next (s.withCall hart (· == 1) (fun s c =>
    let x := c.arg 0
    let h := s.getHart hart
    if x = 0 || exitCode x then
      let s1 := s.drainAll hart
      let s2 := s1.setHart { s1.getHart hart with run := false, stop := false }
      if x = 0 then s2 else s2.updJob h.jobid (fun j => { j with codes := j.codes ++ [(h.gang.toNat / 2 ^ 32, h.gangHart, x.toNat)] })
    else s.respond hart c.req 2 0))

/-- END_JOB (R294): every hart of the job ends with the error. -/
def execEndJob (hart : Nat) (s : State) : Host.Outcome State Fault Refusal :=
  .next (s.withCall hart (· == 2) (fun s c =>
    let x := c.arg 0
    let id := (s.getHart hart).jobid
    if exitCode x then
      (s.updJob id (fun j => { j with err := some (j.err.getD x.toNat) })).stopJob id
    else s.respond hart c.req 2 0))

/-- YIELD (R292): status 0; a hart of a cluster that is being pre-empted then stands until the cluster is resumed. -/
def execYield (hart : Nat) (s : State) : Host.Outcome State Fault Refusal :=
  .next (s.withCall hart (· == 3) (fun s c =>
    let s1 := s.respond hart c.req 0 0
    let h := s1.getHart hart
    if s1.victims.contains (clusterOf hart) && h.run then s1.setHart { h with run := false, yielded := true } else s1))

/-! ### Context roots and shoot-downs (R289, 09 R227) -/

/-- The context root entry of a context, if it is valid (R289). -/
def State.readRoot (s : State) (ctx : BitVec 16) : State × Option Nat :=
  if s.rootTab = 0 then (s, none)
  else
    match s.readLoc (s.rootTab.toNat + 8 * ctx.toNat) 8 with
    | (s1, none) => (s1.eccAgent (fwAgent 0 ctx) (s.rootTab.toNat + 8 * ctx.toNat), none)
    | (s1, some bs) =>
      let e := leNat bs
      let root := e / 2 ^ 16 % 2 ^ 36 * 2 ^ 16
      if e / 2 ^ 63 = 1 && e / 2 ^ 52 % 2 ^ 11 == 0 && e % 2 ^ 16 == 0 && !paReserved root then (s1, some root) else (s1, none)

/-- A translation that a shoot-down of `pages` pages from a page number, or of all, matches. -/
def Tlb.matched (t : Tlb) (ctx : BitVec 16) (first pages : Nat) : Bool :=
  let size := 2 ^ (levelBits t.level - 16)
  t.ctx == ctx && (pages == 0 || (decide (t.vpn * size < first + pages) && decide (first < (t.vpn + 1) * size)))

/-- A pointer entry of a walker cache that such a shoot-down matches. -/
def WalkEnt.matched (w : WalkEnt) (ctx : BitVec 16) (first pages : Nat) : Bool :=
  let size := 2 ^ (levelBits w.level - 16)
  w.ctx == ctx && (pages == 0 || (decide (w.prefix_ * size < first + pages) && decide (first < (w.prefix_ + 1) * size)))

/-- A translation that the instruction in progress has made and such a shoot-down matches. -/
def Placing.matched (m : Placing) (first pages : Nat) : Bool :=
  let lo := m.base * 2 ^ m.bits % 2 ^ 55 / 2 ^ 16
  pages == 0 || (decide (lo < first + pages) && decide (first < lo + 2 ^ (m.bits - 16)))

/-- The range of `n` bytes at an address has a page that such a shoot-down matches. -/
def rangeMatched (va : Word) (n first pages : Nat) : Bool :=
  pages == 0 || (decide (0 < n) && decide (pageOf va < first + pages) && decide (first ≤ (va.toNat + n - 1) / 2 ^ 16 % 2 ^ 39))

/-- A request that a hart or a copy engine has sent under a matching PEER translation has not been answered: an access under it has still to perform (R143, R227). -/
def State.requestsOut (s : State) (ctx : BitVec 16) (first pages : Nat) : Bool :=
  s.allHarts.any (fun h => h.ctxid == ctx && (match h.wait with
    | .remote _ =>
      h.places.any (fun m => m.matched first pages && (match m.place with
        | .peer _ _ _ => true
        | _ => false)) || (h.asked.any (fun a => decide (2 ^ 61 ≤ a.1) && decide (a.1 < 2 ^ 61 + 2)) && rangeMatched h.pc 8 first pages)
    | _ => false)) ||
  s.clusters.any (fun x => x.2.copies.any (fun c => c.ctx == ctx && c.wait.isSome && (rangeMatched c.src (c.vl * c.n) first pages || rangeMatched c.dst (c.vl * c.n) first pages)))

/-- A shoot-down completes on every die (09 R227): matching translations are gone, those of instructions in progress too (R143), or permit no write; every access made under
them has performed. -/
def State.shootNow (s : State) (ctx : BitVec 16) (first pages : Nat) (wonly : Bool) : State :=
  let s1 := ((s.allHarts.map (·.id)).foldl (fun s id => s.drainAll id) s).mapHarts (fun h =>
    if h.ctxid = ctx then { h with places := h.places.filter (fun m => !(m.matched first pages && (!wonly || m.acc == .write))) } else h)
  { s1 with walkc := s1.walkc.filter (fun w => !w.matched ctx first pages),
            tlb := if wonly then s1.tlb.map (fun t => if t.matched ctx first pages then { t with wr := false } else t)
                   else s1.tlb.filter (fun t => !t.matched ctx first pages) }

/-- SHOOTDOWN (09 R227): firmware sends the request to every die. -/
def execShootdown (hart : Nat) (s : State) : Host.Outcome State Fault Refusal :=
  .next (s.withCall hart (· == 4) (fun s c =>
    let h := s.getHart hart
    let pages := (c.arg 2).toNat
    if c.arg 0 = h.ctxid.zeroExtend 64 && (c.arg 3).toNat < 2 &&
        (pages == 0 || (canonical (c.arg 1) && (c.arg 1).toNat % 65536 == 0 && decide (pageOf (c.arg 1) + pages ≤ 2 ^ 39))) then
      { s with shoots := s.shoots ++ [⟨hart, h.ctxid, if pages = 0 then 0 else pageOf (c.arg 1), pages, (c.arg 3).getLsbD 0, c.req, c.slot⟩] }
    else s.respond hart c.req 2 0))

/-! ### Promotion (09 R228) -/

/-- Memory with 64 KiB copied from one location to another. -/
def copyFrame (mem : List Host.Cell) (src dst : Nat) : List Host.Cell :=
  let moved := ((mem.dropWhile (fun c => decide (c.1 < src))).takeWhile (fun c => decide (c.1 < src + 65536))).map
    (fun (c : Host.Cell) => ((c.1 - src + dst, c.2) : Host.Cell))
  mem.takeWhile (fun c => decide (c.1 < dst)) ++ moved ++ mem.dropWhile (fun c => decide (c.1 < dst + 65536))

/-- PROMOTE (09 R228): the promotion of a page of host memory begins, unless 16 are in progress on the die of the frame. DESIGN CHOICE (log 29): status 2 for a page that is not
mapped, whose leaf is no HOST leaf, or that lies in a large page. -/
def execPromote (hart : Nat) (s : State) : Host.Outcome State Fault Refusal :=
  .next (s.withCall hart (· == 5) (fun s c =>
    let h := s.getHart hart
    let frame := (c.arg 1).toNat
    if c.arg 2 = h.ctxid.zeroExtend 64 && canonical (c.arg 0) && (c.arg 0).toNat % 65536 == 0 && frame % 65536 == 0 &&
        decide (frame < 0x3000000000) && !s.unready frame then
      match s.walk h.ctxid (c.arg 0) with
      | some (l, e, 3) =>
        if pteKind e = 2 then
          if 16 ≤ (s.promos.filter (fun p => p.frame / 0xC00000000 == frame / 0xC00000000)).length then s.respond hart c.req 1 0
          else { s with promos := s.promos ++ [⟨hart, h.ctxid, pageOf (c.arg 0), l, pteGen e, frame, false, false, false, c.req, c.slot⟩] }
        else s.respond hart c.req 2 0
      | _ => s.respond hart c.req 2 0
    else s.respond hart c.req 2 0))

/-- What the locations of one 64 KiB frame have held, as those of another that takes its place (R77). -/
def movePast (past : List (Nat × Nat × List Byte)) (src dst : Nat) : List (Nat × Nat × List Byte) :=
  past.flatMap (fun w =>
    if src ≤ w.2.1 && w.2.1 < src + 65536 then [w, (w.1, w.2.1 - src + dst, w.2.2)] else if dst ≤ w.2.1 && w.2.1 < dst + 65536 then [] else [w])

/-- A promotion replaced, or removed. -/
def State.setPromo (s : State) (p : Promo) (new : Option Promo) : State :=
  { s with promos := s.promos.filter (· != p) ++ new.toList }

/-- PROMOTE_COPY_DONE (09 R228): the page is copied; the leaf is switched where GEN stands and no write walk was tracked, else the promotion is
discarded. -/
def execPromoteCopyDone (hart : Nat) (s : State) : Host.Outcome State Fault Refusal :=
  .next (
    match s.promos.find? (fun p => p.hart == hart && p.copying && !p.switched) with
    | none => s
    | some p =>
      let e := leNat (memRead 8 p.pte s.mem)
      let host := e / 2 ^ 16 % 2 ^ 36 * 2 ^ 16
      let s1 := s.settleOthers noHart host 65536
      let s2 := { s1 with mem := copyFrame s1.mem host p.frame, past := movePast s1.past host p.frame,
                          ecc := s1.ecc.filter (fun w => !(decide (p.frame ≤ w) && decide (w < p.frame + 65536))) ++
                            (s1.ecc.filter (fun w => decide (host ≤ w) && decide (w < host + 65536))).map (fun w => w - host + p.frame) }
      if e % 2 ^ 16 = p.gen && !p.tracked then
        let leaf := e - e % 2 ^ 52 - e / 2 ^ 61 % 4 * 2 ^ 61 + p.frame / 2 ^ 16 * 2 ^ 16 + p.gen
        (s2.writeLoc p.pte (natLe 8 leaf)).setPromo p (some { p with switched := true })
      else (s2.setPromo p none).respondLate hart p.slot p.req 4 0)

/-- SHOOTDOWN_DONE (09 R227, R228): every die has completed the shoot-down that a hart asked for, or that its promotion needs; not before the requests under the translations
that go have been answered. -/
def execShootdownDone (hart : Nat) (s : State) : Host.Outcome State Fault Refusal :=
  .next (
    match s.shoots.find? (fun x => x.hart == hart) with
    | some x =>
      if s.requestsOut x.ctx x.first x.pages then s
      else
      let s1 := ({ s with shoots := s.shoots.filter (· != x) } : State).shootNow x.ctx x.first x.pages x.wonly
      if x.pages = 0 then
        match s1.readRoot x.ctx with
        | (s2, some root) => ({ s2 with roots := tabPut s2.roots x.ctx.toNat root } : State).respondLate hart x.slot x.req 0 0
        | (s2, none) => s2.respondLate hart x.slot x.req 0 0
      else s1.respondLate hart x.slot x.req 0 0
    | none =>
      match s.promos.find? (fun p => p.hart == hart && (!p.copying || p.switched)) with
      | none => s
      | some p =>
        if s.requestsOut p.ctx p.page 1 then s
        else if p.switched then ((s.shootNow p.ctx p.page 1 false).setPromo p none).respondLate hart p.slot p.req 0 0
        else (s.shootNow p.ctx p.page 1 true).setPromo p (some { p with copying := true }))

/-! ### GRANT, RELEASE, INTR (R220, R239, R259, R284, R285) -/

/-- The resources of a kind at a die that are free: race slots, dispatch contexts, die scratchpad units. -/
def State.freeOf (s : State) (kind die : Nat) : List Nat :=
  match kind with
  | 0 => (List.range 16).filter (fun k => (tabGet s.slots (16 * die + k)).isNone)
  | 1 => (List.range 4).filter (fun k => (tabGet s.churns (4 * die + k)).isNone)
  | _ => (List.range 63).filter (fun k => (tabGet s.spOwner (64 * die + k)).isNone)

/-- A resource given to a context: a slot FREE, a dispatch context FREE, a unit of zeros. -/
def State.give (s : State) (kind die n : Nat) (ctx : BitVec 16) : State :=
  match kind with
  | 0 => { s with slots := tabPut s.slots (16 * die + n) (RaceSlot.init ctx) }
  | 1 => { s with churns := tabPut s.churns (4 * die + n) (Churn.init ctx) }
  | _ => { s with spOwner := tabPut s.spOwner (64 * die + n) ctx }

/-- The context that holds a resource. -/
def State.holder (s : State) (kind die n : Nat) : Option (BitVec 16) :=
  match kind with
  | 0 => if n < 16 then (tabGet s.slots (16 * die + n)).map (·.ctx) else none
  | 1 => if n < 4 then (tabGet s.churns (4 * die + n)).map (·.owner) else none
  | _ => if n < 63 then tabGet s.spOwner (64 * die + n) else none

/-- The buffered writes of every hart to `n` bytes at a location perform. -/
def State.performInto (s : State) (l n : Nat) : State :=
  (s.allHarts.map (·.id)).foldl (fun s id =>
    let s1 := s.drainWhere id (fun p => p.hits l n)
    s1.drainS id (lastHit (fun p => p.hits l n) (s1.getHart id).sbuf 0 0)) s

/-- A resource freed: what harts have still to write to a scratchpad unit performs, and then it is zeroed (R220); strips that wait at a dispatch context are
released. -/
def State.free_ (s : State) (kind die n : Nat) : State :=
  match kind with
  | 0 => { s with slots := tabDel s.slots (16 * die + n) }
  | 1 => { s.wakeStrips (4 * die + n) (fun _ => true) .aborted with churns := tabDel s.churns (4 * die + n) }
  | _ =>
    let l := locScratch die (n * 2 ^ 20)
    let s1 := s.performInto l (2 ^ 20)
    { s1.zeroed l (2 ^ 20) with spOwner := tabDel s1.spOwner (64 * die + n) }

/-- GRANT (R284): a free resource of the kind at the die; `n` is firmware's choice among them. -/
def execGrant (hart n : Nat) (s : State) : Host.Outcome State Fault Refusal :=
  .next (s.withCall hart (· == 6) (fun s c =>
    let kind := (c.arg 0).toNat
    let die := (c.arg 1).toNat
    if 2 < kind || 3 < die then s.respond hart c.req 2 0
    else
      let free := s.freeOf kind die
      match free[n % max 1 free.length]? with
      | none => s.respond hart c.req 1 0
      | some k => (s.give kind die k (s.getHart hart).ctxid).respond hart c.req 0 k))

/-- RELEASE (R284): status 2 for what is not granted to the caller's context. -/
def execRelease (hart : Nat) (s : State) : Host.Outcome State Fault Refusal :=
  .next (s.withCall hart (· == 7) (fun s c =>
    let kind := (c.arg 0).toNat
    let die := (c.arg 1).toNat
    let n := (c.arg 2).toNat
    if 2 < kind || 3 < die || s.holder kind die n != some (s.getHart hart).ctxid then s.respond hart c.req 2 0
    else (s.free_ kind die n).respond hart c.req 0 0))

/-- A source put in a pending set, ascending; one that is pending already changes nothing (R285). -/
def irqInsert (n : Nat) : List Nat → List Nat
  | [] => [n]
  | x :: xs => if n < x then n :: x :: xs else if n = x then x :: xs else x :: irqInsert n xs

/-- INTR (R285): the source is posted to a hart of the caller's context. -/
def execIntr (hart : Nat) (s : State) : Host.Outcome State Fault Refusal :=
  .next (s.withCall hart (· == 8) (fun s c =>
    let target := (c.arg 0).toNat
    let src := (c.arg 1).toNat
    let t := s.getHart (target % 1024)
    if target / 1024 = s.pkg.toNat && t.jobid != 0 && t.ctxid == (s.getHart hart).ctxid && decide (1 ≤ src) && decide (src ≤ 255) then
      (s.setHart { t with irqs := irqInsert src t.irqs }).respond hart c.req 0 0
    else s.respond hart c.req 2 0))

/-- MAILBOX_BAD_FUNC (R284): status 3 for a FUNC that Table 12-2 does not list. -/
def execMailboxBadFunc (hart : Nat) (s : State) : Host.Outcome State Fault Refusal :=
  .next (s.withCall hart (fun f => f == 0 || decide (8 < f)) (fun s c => s.respond hart c.req 3 0))

end Sys2Proof.Machine
end

