-- ==== Sys2Proof/Machine/Jobs.lean ====
section
/-! DEFINITION. The host window and its queues, job records, placement and pre-emption, the end of a job, and the kill of a context
(08 R195, 12 R286 to R298, 13 R310, R332, 14 R342, R343, R353). -/

namespace Sys2Proof.Machine

open Sys2Proof

/-! ### Queues and the host window (R286, R287, Tables 12-3 and 12-4) -/

/-- A queue's page. -/
def State.getQueue (s : State) (q : Nat) : Queue := (tabGet s.queues q).getD Queue.init

/-- A queue that is not resident and could be switched in (R296). -/
def Queue.waiting (x : Queue) : Bool := !x.res && x.en && decide (x.progress < x.tail)

/-- A TAIL below PROGRESS, or more than a ring above it (R287). -/
def Queue.badTail (x : Queue) : Bool := decide (x.tail < x.progress) || decide (x.progress + 2 ^ x.log2n < x.tail)

/-- A queue's page set: firmware sets ERR for a bad TAIL of a resident queue with EN = 1 (R287); `since` is when the queue began to wait. -/
def State.setQueue (s : State) (q : Nat) (x : Queue) : State :=
  let x1 := if x.res && x.en && x.badTail then { x with err := true } else x
  let x2 := if x1.waiting && !(s.getQueue q).waiting then { x1 with since := s.time } else x1
  { s with queues := tabPut s.queues q x2 }

/-- CTRL written (R287): PMAX and LOG2N only while EN = 0; clearing EN ends the error. -/
def Queue.writeCtrl (x : Queue) (v : Word) : Queue :=
  let x1 := if x.en then x else { x with pmax := v.toNat / 2 ^ 16 % 16, log2n := v.toNat / 2 ^ 8 % 16 }
  { x1 with en := v.getLsbD 0, err := x.err && v.getLsbD 0 }

/-- QUEUE_TAIL_WRITE (R286, R287). -/
def execQueueTailWrite (q v : Nat) (s : State) : Host.Outcome State Fault Refusal :=
  .next (if q < 256 then s.setQueue q { s.getQueue q with tail := v % 2 ^ 64 } else s)

/-- QUEUE_ENABLE (R287): CTRL written with EN = 1. -/
def execQueueEnable (q : Nat) (v : Word) (s : State) : Host.Outcome State Fault Refusal :=
  .next (if q < 256 then s.setQueue q ((s.getQueue q).writeCtrl (v ||| 1)) else s)

/-- QUEUE_DISABLE (R287): CTRL written with EN = 0. -/
def execQueueDisable (q : Nat) (v : Word) (s : State) : Host.Outcome State Fault Refusal :=
  .next (if q < 256 then s.setQueue q ((s.getQueue q).writeCtrl (v &&& ~~~1)) else s)

/-- A doubleword of the window written by the host (R286): KILL and FWCMD bring their events about. -/
def State.hostWrite (s : State) (off : Nat) (v : Word) : State :=
  if off < 0x4000 then
    let q := off / 64
    let x := s.getQueue q
    match off % 64 with
    | 0x00 => s.setQueue q { x with tail := v.toNat }
    | 0x10 => if x.en then s else s.setQueue q { x with ring := v }
    | 0x18 => s.setQueue q (x.writeCtrl v)
    | _ => s
  else
    match off with
    | 0x4008 => let s1 := { s with killReg := v }; if v.getLsbD 16 then s1.queue (.contextKill v) else s1
    | 0x4010 => { s with pcap := v.toNat }
    | 0x4018 => { s with mcRing := v }
    | 0x4028 => { s with fwImg := v }
    | 0x4030 => let s1 := { s with fwCmd := v }; if v = 1 then { s1 with fwStat := 1 } else if v = 2 then s1.queue .fwReset else s1
    | 0x4040 => { s with rootTab := v }
    | _ => s

/-- HOST_WINDOW_WRITE (R286): a doubleword of the window written by the host. -/
def execHostWindowWrite (off : Nat) (v : Word) (s : State) : Host.Outcome State Fault Refusal := .next (s.hostWrite off v)

/-- CTRL of a queue as it reads (Table 12-3). -/
def Queue.ctrl (x : Queue) : Nat :=
  x.pmax % 16 * 2 ^ 16 + x.log2n % 16 * 2 ^ 8 + (if x.err then 4 else 0) + (if x.res then 2 else 0) + (if x.en then 1 else 0)

/-- A doubleword of the window as the host reads it (R286): the value last written, by the host or by firmware. -/
def State.hostRead (s : State) (off : Nat) : Nat :=
  if off < 0x4000 then
    let x := s.getQueue (off / 64)
    match off % 64 with
    | 0x00 => x.tail
    | 0x08 => x.progress
    | 0x10 => x.ring.toNat
    | 0x18 => x.ctrl
    | _ => 0
  else
    match off with
    | 0x4000 => s.brdy.toNat
    | 0x4008 => s.killReg.toNat
    | 0x4010 => s.pcap
    | 0x4018 => s.mcRing.toNat
    | 0x4020 => s.mcHead
    | 0x4028 => s.fwImg.toNat
    | 0x4030 => s.fwCmd.toNat
    | 0x4038 => s.fwStat
    | 0x4040 => s.rootTab.toNat
    | _ => 0

/-! ### Job records (R288, Table 12-5) -/

/-- ENTRY. -/
def jobEntry (r : List Byte) : Word := fieldW r 0x00
/-- ARG. -/
def jobArg (r : List Byte) : Word := fieldW r 0x08
/-- GANGS. -/
def jobGangs (r : List Byte) : Nat := fieldOf r 0x10 4
/-- HARTS. -/
def jobHarts (r : List Byte) : Nat := fieldOf r 0x15 1
/-- LANES, 0 meaning 32. -/
def jobLanes (r : List Byte) : Nat := if fieldOf r 0x16 1 = 0 then 32 else fieldOf r 0x16 1
/-- FLAGS.SERIAL. -/
def jobSerial (r : List Byte) : Bool := (fieldOf r 0x18 2).testBit 0
/-- FLAGS.IRQ. -/
def jobIrq (r : List Byte) : Bool := (fieldOf r 0x18 2).testBit 1
/-- CTXID. -/
def jobCtx (r : List Byte) : BitVec 16 := BitVec.ofNat 16 (fieldOf r 0x1A 2)
/-- MSIX. -/
def jobMsix (r : List Byte) : Nat := fieldOf r 0x1C 4
/-- BROLE. -/
def jobBrole (r : List Byte) : Word := fieldW r 0x30
/-- TMAP. -/
def jobTmap (r : List Byte) : Word := fieldW r 0x38
/-- DEPSIG. -/
def jobDepsig (r : List Byte) : Word := fieldW r 0x40
/-- DEPVAL. -/
def jobDepval (r : List Byte) : Nat := fieldOf r 0x48 8
/-- COMPL. -/
def jobCompl (r : List Byte) : Word := fieldW r 0x50

/-- TMAP of a record maps only banks that its BROLE puts in role TL (R288). -/
def jobTmapOk (r : List Byte) : Bool :=
  (List.range 8).all (fun k =>
    let e := (jobTmap r).toNat / 2 ^ (8 * k) % 256
    e < 128 || (e / 32 % 4 == 0 && decide (4 ≤ e % 32) && bankRole (jobBrole r) (e % 32) == 2))

/-- FLTP of a record names a ring of 64 KiB in an untranslated window (R288, Tables 5-5 and 9-2). -/
def jobFltpOk (r : List Byte) : Bool :=
  fieldOf r 0x28 8 % 2 ^ 16 == 0 && decide (0xFFFFF00000000000 ≤ fieldOf r 0x28 8) && decide (fieldOf r 0x28 8 < 0xFFFFF20000000000 + 4 * 2 ^ 32)

/-- A valid job record (R288). -/
def jobRecordOk (r : List Byte) : Bool :=
  r.length == 128 && (jobEntry r).toNat % 4 == 0 && decide (1 ≤ jobGangs r) && fieldOf r 0x14 1 == 0 && decide (1 ≤ jobHarts r) && decide (jobHarts r ≤ 32) &&
  ([0, 4, 8, 16, 32] : List Nat).contains (fieldOf r 0x16 1) && decide (fieldOf r 0x17 1 < 16) && decide (fieldOf r 0x18 2 < 4) &&
  decide (jobMsix r < 2048) && fieldOf r 0x20 8 % 4 == 0 && jobFltpOk r && fieldOf r 0x30 8 % 256 == 0 && jobTmapOk r &&
  fieldOf r 0x40 8 % 32 == 0 && fieldOf r 0x50 8 % 32 == 0 && zeroIn r 0x58 0x80

/-- TAKE_RECORD (R287, R288): the next record of a resident queue becomes a job; a record that a kill has discarded does not (R298). -/
def execTakeRecord (q : Nat) (s : State) : Host.Outcome State Fault Refusal :=
  .next (
    let x := s.getQueue q
    if !s.serving || !x.res || !x.en || x.err || x.tail ≤ x.progress then s
    else if x.badTail then s.setQueue q { x with err := true }
    else
      let l := x.ring.toNat + 128 * (x.progress % 2 ^ x.log2n)
      let (s1, rd) := s.readLoc l 128
      let s2 := if rd.isNone then s1.eccAgent (fwAgent 0 0) l else s1
      let r := rd.getD (List.replicate 128 0)
      let s3 := s2.setQueue q { x with progress := x.progress + 1 }
      let id := BitVec.ofNat 64 s3.nextJob
      if x.dropped.any (fun d => decide (x.progress < d.1) && d.2 == jobCtx r) then s3
      else
        { s3.setQueue q { s3.getQueue q with last := some id } with
          jobs := s3.jobs ++ [{ id := id, queue := q, cap := r, prio := min (fieldOf r 0x17 1 % 16) x.pmax, prev := x.last,
                                dep := jobDepsig r == 0, placed := 0, start := none, die := 0, codes := [],
                                err := if jobRecordOk r then none else some 1, killed := false, pre := false }],
          nextJob := s3.nextJob + 1 })

/-! ### Dependence signals (R289, R290) -/

/-- Firmware acts in the address space of a context: through the root it holds, or through the entry of the root table; `no` where there is none. -/
def State.asContext (s : State) (ctx : BitVec 16) (f no : State → State) : State :=
  if (tabGet s.roots ctx.toNat).isSome then f s
  else
    match s.readRoot ctx with
    | (s1, none) => no s1
    | (s1, some root) =>
      let s2 := f { s1 with roots := tabPut s1.roots ctx.toNat root }
      { s2 with roots := tabDel s2.roots ctx.toNat }

/-- A job of a number. -/
def State.job (s : State) (id : Word) : Option Job := s.jobs.find? (fun j => j.id == id)

/-- A job ends with an error unless it has one. -/
def Job.fail (j : Job) (e : Nat) : Job := { j with err := some (j.err.getD e) }

/-- Firmware reads the dependence signal of a job that waits for it (R290): error 2 where it cannot be read, 6 without an address space. -/
def State.readDepsig (s : State) (id : Word) : State :=
  match s.job id with
  | none => s
  | some j =>
    if !s.serving || j.dep || j.err.isSome then s
    else
      s.asContext (jobCtx j.cap)
        (fun s =>
          match s.fwRead (fwAgent 0 (jobCtx j.cap)) (jobDepsig j.cap) 8 with
          | (s1, none) => s1.updJob id (·.fail 2)
          | (s1, some bs) => if jobDepval j.cap ≤ leNat bs then s1.updJob id (fun j => { j with dep := true }) else s1)
        (fun s => s.updJob id (·.fail 6))

/-- DEPSIG_RECHECK (R290): the signal is read again after a write to its line. -/
def execDepsigRecheck (job : Word) (s : State) : Host.Outcome State Fault Refusal := .next (s.readDepsig job)

/-- DEPSIG_POLL (R290): the signal is read again, at least once every 100 µs. -/
def execDepsigPoll (job : Word) (s : State) : Host.Outcome State Fault Refusal := .next (s.readDepsig job)

/-! ### The job that comes next (R290) -/

/-- A job whose gangs have begun to be placed and are not all placed. -/
def Job.partly (j : Job) : Bool := j.err.isNone && j.start.isSome && decide (j.placed < jobGangs j.cap)

/-- A startable job (R290): the job of its queue before it has started, or completed. -/
def State.startable (s : State) (j : Job) : Bool :=
  j.err.isNone && j.start.isNone && j.dep &&
  match j.prev.bind s.job with
  | none => true
  | some p => p.start.isSome && !jobSerial j.cap

/-- A job comes before another (R290): by priority, a partly placed one first, then in cyclic order after the queue that last started a job. -/
def State.before (s : State) (a b : Job) : Bool :=
  let cyc := fun (j : Job) => (j.queue + 512 - s.lastQ - 1) % 256
  decide (b.prio < a.prio) || (a.prio == b.prio && ((a.partly && !b.partly) || (a.partly == b.partly && decide (cyc a < cyc b))))

/-- The job that firmware chooses (R290). -/
def State.chosen (s : State) : Option Job :=
  (s.jobs.filter (fun j => (s.getQueue j.queue).res && (j.partly || s.startable j))).foldl (fun (best : Option Job) j =>
    match best with
    | none => some j
    | some b => if s.before j b then some j else some b) none

/-! ### Clusters for a gang (R195, R291) -/

/-- A hart that a job has. -/
def State.occupied (s : State) (id : Nat) : Bool := (s.getHart id).jobid != 0

/-- A core with no hart of any context. -/
def State.coreFree (s : State) (core : Nat) : Bool := (List.range 4).all (fun k => !s.occupied (core * 4 + k))

/-- The harts of a cluster that a gang of a record may have, in order (R291). -/
def State.openHarts (s : State) (cluster : Nat) (r : List Byte) : List Nat :=
  ((List.range 32).map (cluster * 32 + ·)).filter (fun id =>
    !s.occupied id && (s.coreFree (coreOf id) || (s.getCore (coreOf id)).brole == jobBrole r))

/-- The gangs of a cluster. -/
def State.gangsIn (s : State) (cluster : Nat) : List Gang := s.gangs.filter (fun g => g.cluster == cluster)

/-- A barrier of a cluster that no gang has. -/
def State.freeBar (s : State) (cluster : Nat) : Option Nat := (List.range 32).find? (fun b => !(s.gangsIn cluster).any (fun g => g.bar == b))

/-- A cluster can hold the next gang of a record (R291). -/
def State.fits (s : State) (cluster : Nat) (r : List Byte) : Bool :=
  decide (cluster < 32) && ((s.gangsIn cluster).isEmpty || (s.getCluster cluster).owner == some (jobCtx r)) && !s.victims.contains cluster &&
  (s.freeBar cluster).isSome && decide (jobHarts r ≤ (s.openHarts cluster r).length)

/-- The cells of a range of memory, with their offsets from its first location. -/
def cellsIn (mem : List Host.Cell) (lo n : Nat) : List Host.Cell :=
  ((mem.dropWhile (fun c => decide (c.1 < lo))).takeWhile (fun c => decide (c.1 < lo + n))).map (fun (c : Host.Cell) => ((c.1 - lo, c.2) : Host.Cell))

/-- Memory with a range replaced by cells at offsets from its first location. -/
def putCells (mem : List Host.Cell) (lo n : Nat) (cs : List Host.Cell) : List Host.Cell :=
  mem.takeWhile (fun c => decide (c.1 < lo)) ++ (cs.filter (fun c => decide (c.1 < n) && c.2 != 0)).map (fun (c : Host.Cell) => ((c.1 + lo, c.2) : Host.Cell)) ++
    mem.dropWhile (fun c => decide (c.1 < lo + n))

/-- Bytes of the banks of a cluster. -/
def bankBytes : Nat := 8 * 32 * 65536
/-- Bytes of the lane-private slices of a cluster. -/
def sliceBytes : Nat := 8 * 32 * 8192

/-- The codewords of a range that have an uncorrectable error, as offsets. -/
def badIn (ecc : List Nat) (lo n : Nat) : List Nat := (ecc.filter (fun w => decide (lo ≤ w) && decide (w < lo + n))).map (· - lo)

/-- The codewords outside a range. -/
def badOut (ecc : List Nat) (lo n : Nat) : List Nat := ecc.filter (fun w => !(decide (lo ≤ w) && decide (w < lo + n)))

/-- A cluster's memory, registers and tile state zeroed for a context (R195); the const lines of its cores go. -/
def State.zeroCluster (s : State) (cluster : Nat) (owner : Option (BitVec 16)) : State :=
  let b := locBank (8 * cluster) 0 0
  let l := locSlice (8 * cluster) 0 0
  let s1 := (List.range 8).foldl (fun (s : State) k => s.changeRoles (8 * cluster + k) 0) s
  let s2 := { s1 with mem := memClear (memClear s1.mem b bankBytes) l sliceBytes, ecc := badOut (badOut s1.ecc b bankBytes) l sliceBytes }
  let s3 := (List.range 8).foldl (fun (s : State) k => s.setCore (8 * cluster + k) { s.getCore (8 * cluster + k) with consts := [] }) s2
  s3.setCluster cluster { Cluster.init with owner := owner }

/-! ### Peer and group registers (13 R310, 14 R342, R343) -/

/-- The value of a peer register from its entry (R310): invalid unless its conditions hold. -/
def State.peerOf (s : State) (e : Nat) : Word :=
  if e / 2 ^ 63 = 1 && e / 2 ^ 12 % 2 ^ 51 == 0 && e / 128 % 2 == 0 && s.brdy.getLsbD 5 &&
      (e % 128 == s.pkg.toNat || s.present.contains (BitVec.ofNat 7 e)) then BitVec.ofNat 64 e else 0

/-- The uint32 entries of a member list. -/
def wordsOf : Nat → List Byte → List Nat
  | 0, _ => []
  | n + 1, bs => leNat (bs.take 4) :: wordsOf n (bs.drop 4)

/-- The group that entry g of a fabric table describes, with its member entries (R342, R343). -/
def State.groupEntry (s : State) (a : Agent) (tab : List Byte) (g : Nat) : State × Option (BitVec 16 × List Nat) :=
  let o := 0x80 + 16 * g
  let n := fieldOf tab (o + 8) 2
  if s.brdy.getLsbD 5 && fieldOf tab (o + 12) 4 == 1 && decide (1 ≤ n) && decide (n ≤ 1024) && fieldOf tab o 8 % 4 == 0 then
    match s.fwRead a (fieldW tab o) (4 * n) with
    | (s1, some bs) => (s1, some (BitVec.ofNat 16 (fieldOf tab (o + 10) 2), wordsOf n bs))
    | (s1, none) => (s1, none)
  else (s, none)

/-- The member entry of a hart of this package (R342). -/
def State.memberEntry (s : State) (gang ix : Nat) : Nat := s.pkg.toNat * 2 ^ 16 + gang % 2048 * 2 ^ 5 + ix % 32

/-- The port holds the group, or has no room for it (R343). One that has been aborted stays aborted (R348). -/
def State.holdGroup (s : State) (ctx gid : BitVec 16) (entries : List Nat) : State × Bool :=
  let ms := entries.map (fun e => (e / 2 ^ 16 % 128, e / 2 ^ 5 % 2048, e % 32))
  match s.portGroup ctx gid with
  | some _ => (s, true)
  | none => if 64 ≤ s.groups.length then (s, false) else ({ s with groups := s.groups ++ [⟨ctx, gid, ms, none⟩] }, true)

/-- A group register of a hart from its group (R343): valid where the hart stands in the list exactly once; of a group that the port has aborted, as the abort leaves
its members (R348, R353). -/
def State.loadGroup (s : State) (ctx : BitVec 16) (gang ix : Nat) : Option (BitVec 16 × List Nat) → State × Group
  | none => (s, Group.init)
  | some (gid, es) =>
    match es.idxOf? (s.memberEntry gang ix) with
    | none => (s, Group.init)
    | some r =>
      if es.count (s.memberEntry gang ix) ≠ 1 then (s, Group.init)
      else
        match s.holdGroup ctx gid es with
        | (s1, false) => (s1, Group.init)
        | (s1, true) =>
          let g : Group := ⟨true, false, 0, 0, 0, gid, BitVec.ofNat 10 r, BitVec.ofNat 10 (es.length - 1)⟩
          (s1, match (s1.portGroup ctx gid).bind (·.abort) with
            | some (why, orig) => { g with v := why != 2, ab := true, why := why, orig := orig }
            | none => g)

/-- The group registers of a hart. -/
def State.loadGroups (s : State) (ctx : BitVec 16) (gang ix : Nat) (gs : List (Option (BitVec 16 × List Nat))) : State × Vector Group 4 :=
  let (s1, rs) := gs.foldl (fun (acc : State × List Group) g =>
    let (s1, r) := acc.1.loadGroup ctx gang ix g
    (s1, acc.2 ++ [r])) (s, [])
  (s1, Vector.ofFn (fun (k : Fin 4) => rs.getD k.val Group.init))

/-- The fabric table of a context as firmware reads it: the peer registers and the groups (R310, R343). -/
def State.readFabricTable (s : State) (die : Nat) (ctx : BitVec 16) : State × Vector Word 16 × List (Option (BitVec 16 × List Nat)) :=
  let a := fwAgent die ctx
  match s.fwRead a fabricTable 256 with
  | (s1, none) => (s1, Vector.replicate 16 0, [])
  | (s1, some tab) =>
    let (s2, gs) := (List.range 4).foldl (fun (acc : State × List (Option (BitVec 16 × List Nat))) g =>
      let (s2, r) := acc.1.groupEntry a tab g
      (s2, acc.2 ++ [r])) (s1, [])
    (s2, Vector.ofFn (fun (k : Fin 16) => s1.peerOf (fieldOf tab (8 * k.val) 8)), gs)

/-! ### Placement (R33, R289, R291, R299) -/

/-- The largest grant of a gang: at most 16 lanes in reduced service (R299, R303). -/
def State.grantLimit (s : State) (limit : Nat) : Nat := if s.reduced then min limit 16 else limit

/-- A hart at job entry (R33, R291). -/
def jobHart (r : List Byte) (job : Word) (id gang ix lanes bar : Nat) (peers : Vector Word 16) (groups : Vector Group 4) : Hart :=
  let h := { Hart.init id with
    run := true, pc := jobEntry r, lanes := lanes, pend := lanes, tmap := jobTmap r &&& 0x9F9F9F9F9F9F9F9F, tvec := fieldW r 0x20, ctxid := jobCtx r, vownV := true,
    vownCtx := jobCtx r, fltBase := BitVec.ofNat 48 (fieldOf r 0x28 8 / 2 ^ 16), jobid := job,
    gang := BitVec.ofNat 64 (gang * 2 ^ 32 + jobHarts r * 2 ^ 16 + ix), peers := peers, groups := groups, bar := bar }
  ((((h.ps 10 (jobArg r)).ps 11 (BitVec.ofNat 64 ix)).ps 12 (BitVec.ofNat 64 gang)).ps 13 (BitVec.ofNat 64 (jobHarts r))).ps 14 (BitVec.ofNat 64 lanes)

/-- A core made ready for harts of a record (R166, R291, R332): the slices of a free core are zeroed and its banks get the record's roles. -/
def State.readyCore (s : State) (core : Nat) (r : List Byte) : State :=
  if s.coreFree core then
    let l := locSlice core 0 0
    let s1 := (s.changeRoles core (jobBrole r))
    let s2 := { s1 with mem := memClear s1.mem l (32 * 8192), ecc := badOut s1.ecc l (32 * 8192) }
    s2.setCore core { s2.getCore core with tickets := [], consts := [], icache := [] }
  else s.setCore core { s.getCore core with consts := [] }

/-- The ticket table entries of a hart freed (R332). -/
def State.dropTickets (s : State) (id : Nat) : State :=
  let c := s.getCore (coreOf id)
  let keep := c.tickets.filter (fun t => t.hart.toNat != id % 4)
  if keep = c.tickets then s else s.setCore (coreOf id) { c with tickets := keep }

/-- The harts of a gang placed, hart index ix onward. -/
def State.placeHarts (s : State) (j : Job) (bar lanes : Nat) (peers : Vector Word 16) (gs : List (Option (BitVec 16 × List Nat))) : Nat → List Nat → State
  | _, [] => s
  | ix, id :: ids =>
    let (s1, groups) := (s.dropTickets id).loadGroups (jobCtx j.cap) j.placed ix gs
    (s1.setHart { jobHart j.cap j.id id j.placed ix lanes bar peers groups with constAt := s1.writes }).placeHarts j bar lanes peers gs (ix + 1) ids

/-- The next gang of a job placed in a cluster that can hold it (R291). -/
def State.placeGang (s : State) (j : Job) (cluster : Nat) : State :=
  let r := j.cap
  let ctx := jobCtx r
  let ids := (s.openHarts cluster r).take (jobHarts r)
  let bar := (s.freeBar cluster).getD 0
  let lanes := min (s.grantLimit (jobLanes r)) ((tabGet s.pgrant j.prio).getD 32)
  let s1 := if (s.getCluster cluster).owner = some ctx then s else s.zeroCluster cluster (some ctx)
  let s2 := ((ids.map coreOf).eraseDups).foldl (fun (s : State) c => s.readyCore c r) s1
  let (s3, peers, gs) := s2.readFabricTable (cluster / 8) ctx
  let s4 := (s3.setBar cluster bar { Bar.init with n := jobHarts r }).placeHarts j bar lanes peers gs 0 ids
  let order := (s4.gangs.foldl (fun (m : Nat) g => max m g.order) 0) + 1
  { s4.updJob j.id (fun j => { j with placed := j.placed + 1, start := some (j.start.getD s.time), die := if j.start.isNone then cluster / 8 else j.die }) with
    gangs := s4.gangs ++ [⟨j.id, j.prio, j.placed, cluster, bar, ids, lanes, jobLanes r, order⟩],
    lastQ := if j.start.isNone then j.queue else s4.lastQ }

/-- The highest priority of some gangs. -/
def topPrio (gs : List Gang) : Nat := gs.foldl (fun (m : Nat) g => max m g.prio) 0

/-- The latest start of some gangs. -/
def lastStart (gs : List Gang) : Nat := gs.foldl (fun (m : Nat) g => max m g.order) 0

/-- The cluster that firmware pre-empts for a job (R292): among those whose gangs all have lower priorities, the lowest highest priority, then the
latest start. -/
def State.victim (s : State) (prio : Nat) : Option Nat :=
  ((List.range 32).filter (fun c => !(s.gangsIn c).isEmpty && (s.gangsIn c).all (fun g => decide (g.prio < prio)))).foldl
    (fun (best : Option Nat) c =>
      match best with
      | none => some c
      | some b =>
        if topPrio (s.gangsIn c) < topPrio (s.gangsIn b) ||
            (topPrio (s.gangsIn c) == topPrio (s.gangsIn b) && decide (lastStart (s.gangsIn b) < lastStart (s.gangsIn c))) then some c else some b) none

/-- A pre-emption request on every hart of a cluster (R292). -/
def State.preemptCluster (s : State) (cluster : Nat) : State :=
  { s.mapHarts (fun h => if clusterOf h.id = cluster && h.run then { h with preempt := true } else h) with victims := cluster :: s.victims }

/-- A suspended cluster goes before a new gang of equal or lower priority (R293). -/
def State.parkedFirst (s : State) (prio : Nat) : Bool := s.parked.any (fun p => decide (prio ≤ topPrio p.gangs))

/-- The chosen job cannot place its next gang (R292, R293): no cluster can hold it, or a suspended cluster goes first, which no cluster that holds no gang can take. -/
def State.stuck (s : State) (j : Job) : Bool :=
  if s.parkedFirst j.prio then !(List.range 32).any (fun c => (s.gangsIn c).isEmpty && !s.victims.contains c) else !(List.range 32).any (fun c => s.fits c j.cap)

/-- JOB_PLACEMENT (R289 to R292): at each job's first gang the root entry is read; a root that is held for the context stays (log 28); the next gang of the chosen job goes into a cluster that can hold it; where none can, firmware pre-empts. -/
def execJobPlacement (cluster : Nat) (s : State) : Host.Outcome State Fault Refusal :=
  .next (
    match s.chosen with
    | none => s
    | some j =>
      if !s.serving then s
      else if !s.parkedFirst j.prio && s.fits cluster j.cap then
        if j.start.isSome then s.placeGang j cluster
        else
          match s.readRoot (jobCtx j.cap) with
          | (s1, none) => s1.updJob j.id (·.fail 6)
          | (s1, some root) =>
            (if (tabGet s1.roots (jobCtx j.cap).toNat).isSome then s1
              else { s1 with roots := tabPut s1.roots (jobCtx j.cap).toNat root }).placeGang j cluster
      else if !s.stuck j then s
      else
        match s.victim j.prio with
        | none => s
        | some c => if s.victims.contains c then s else s.preemptCluster c)

/-! ### Suspending and resuming a cluster (R292, R293, R332) -/

/-- The harts of a cluster that a job has. -/
def State.hartsIn (s : State) (cluster : Nat) : List Hart :=
  (((List.range 32).map (cluster * 32 + ·)).map s.getHart).filter (fun h => h.jobid != 0)

/-- A hart given back: no row that waits for a notice is one of its accesses any more. -/
def State.clearHart (s : State) (id : Nat) : State :=
  { s.setHart (Hart.init id) with
    churns := s.churns.map (fun (x : Nat × Churn) => (x.1, { x.2 with
      tables := x.2.tables.filter (fun t => t.1 != id), rows := x.2.rows.map (fun r => if r.hart = id then { r with hart := noHart } else r) })),
    shoots := s.shoots.filter (fun x => x.hart != id), promos := s.promos.filter (fun p => p.hart != id),
                                  calls := s.calls.filter (· != id) }

/-- No request, copy or row of the harts has still to perform. -/
def State.quiet (s : State) (ids : List Nat) : Bool :=
  !s.sent.any (fun p => p.src == s.pkg.toNat && ids.contains p.hart) && !s.clusters.any (fun c => c.2.copies.any (fun k => !k.sync && ids.contains k.hart)) &&
  !s.churns.any (fun x => x.2.rows.any (fun r => ids.contains r.hart))

/-- CLUSTER_SUSPEND (R292): once every hart of a cluster that is being pre-empted has yielded and its engine transfers have ended, firmware saves the
cluster, and it is free. -/
def execClusterSuspend (cluster : Nat) (s : State) : Host.Outcome State Fault Refusal :=
  .next (
    let hs := s.hartsIn cluster
    if !s.serving || !s.victims.contains cluster || hs.any (·.run) || !s.quiet (hs.map (·.id)) then s
    else if (s.gangsIn cluster).isEmpty then { s with victims := s.victims.filter (· != cluster) }
    else
      let s1 := (hs.map (·.id)).foldl (fun (s : State) id => s.drainAll id) s
      let b := locBank (8 * cluster) 0 0
      let l := locSlice (8 * cluster) 0 0
      let gs := s1.gangsIn cluster
      let c := s1.getCluster cluster
      let p : Parked := {
        ctx := c.owner.getD 0, from_ := cluster, gangs := gs, harts := s1.hartsIn cluster,
        cores := (List.range 8).map (fun k => (k, s1.getCore (8 * cluster + k))), regs := c,
        banks := cellsIn s1.mem b bankBytes, slices := cellsIn s1.mem l sliceBytes, bad := badIn s1.ecc b bankBytes, badS := badIn s1.ecc l sliceBytes }
      let s2 := (hs.map (·.id)).foldl (fun (s : State) id => s.clearHart id) s1
      let s3 := (List.range 8).foldl (fun (s : State) k => s.setCore (8 * cluster + k) { s.getCore (8 * cluster + k) with tickets := [], consts := [] }) s2
      { s3.setCluster cluster { c with bars := Vector.replicate 32 Bar.init, copies := [] } with
        parked := s3.parked ++ [p], gangs := s3.gangs.filter (fun g => g.cluster != cluster), victims := s3.victims.filter (· != cluster),
        jobs := s3.jobs.map (fun j => if gs.any (fun g => g.job == j.id) then { j with pre := true } else j) })

/-- The group register of a resumed hart (R343): loaded again; its abort and the state of its last collective survive. -/
def Group.resumed (old new : Group) : Group := if old.gid = new.gid && (old.v || old.ab) && (new.v || new.ab) then (if new.ab && !old.ab then { new with last := old.last } else old) else new

/-- A hart of a suspended cluster put into a cluster (R293): only DIE and CLUSTER of HARTID change, peer and group registers are loaded again, and it restarts at the
return of its INT, with PC and STATUS as a `tret` gives them (log 28). -/
def State.resumeHart (s : State) (cluster : Nat) (ctx : BitVec 16) (peers : Vector Word 16) (gs : List (Option (BitVec 16 × List Nat))) (h : Hart) : State :=
  let (s1, groups) := s.loadGroups ctx (h.gang.toNat / 2 ^ 32) h.gangHart gs
  s1.setHart { (if h.yielded then h.tret else h) with
    id := cluster * 32 + h.id % 32, run := h.yielded, yielded := false, peers := peers,
    groups := Vector.ofFn (fun (k : Fin 4) => (h.groups.get k).resumed (groups.get k)) }

/-- CLUSTER_RESUME (R293, R308): a suspended cluster goes into a cluster that holds no gang; `bad` is an uncorrectable error in what firmware saved. -/
def execClusterResume (ix cluster : Nat) (bad : Bool) (s : State) : Host.Outcome State Fault Refusal :=
  .next (
    match s.parked[ix]? with
    | none => s
    | some p =>
      if !s.serving || 32 ≤ cluster || !(s.gangsIn cluster).isEmpty || !(s.hartsIn cluster).isEmpty then s
      else if bad then
        let s1 := p.gangs.foldl (fun (s : State) g => (s.updJob g.job (·.fail 5)).stopJob g.job) s
        (s1.took.took).machineCheck 4 (cluster / 8 * 256 + 8) 0xFFFFFFFF 0xFFFF (Config.value s1.free).toNat (Config.value (s1.free + 1)).toNat
      else
        let b := locBank (8 * cluster) 0 0
        let l := locSlice (8 * cluster) 0 0
        let s1 := s.zeroCluster cluster (some p.ctx)
        let s2 := { s1 with mem := putCells (putCells s1.mem b bankBytes p.banks) l sliceBytes p.slices,
                            ecc := s1.ecc ++ p.bad.map (· + b) ++ p.badS.map (· + l) }
        let s3 := p.cores.foldl (fun (s : State) c => s.setCore (8 * cluster + c.1) { c.2 with icache := [], consts := [] }) s2
        let s4 := s3.setCluster cluster { p.regs with owner := some p.ctx, copies := [] }
        let (s5, peers, gs) := s4.readFabricTable (cluster / 8) p.ctx
        let s6 := p.harts.foldl (fun (s : State) h => s.resumeHart cluster p.ctx peers gs h) s5
        { s6 with parked := s6.parked.eraseIdx ix,
                  gangs := s6.gangs ++ p.gangs.map (fun (g : Gang) => { g with cluster := cluster, harts := g.harts.map (fun id => cluster * 32 + id % 32) }) })

/-! ### The end of a job (R294 to R298, 13 R332) -/

/-- The gangs of a job that are suspended. -/
def State.parkedGangs (s : State) (job : Word) : List Gang := (s.parked.flatMap (·.gangs)).filter (fun g => g.job == job)

/-- Every hart of the job has ended or been stopped, and every access and engine transfer of it has come to its end (R294). -/
def State.jobOver (s : State) (j : Job) : Bool :=
  let ids := (s.gangs.filter (fun g => g.job == j.id)).flatMap (·.harts)
  (j.err.isSome || (decide (jobGangs j.cap ≤ j.placed) && (s.parkedGangs j.id).isEmpty)) &&
  ids.all (fun id => !(s.getHart id).run && !(s.getHart id).yielded) && s.quiet ids &&
  s.churns.all (fun x => x.2.owner != jobCtx j.cap || x.2.rows.isEmpty)

/-- A hart comes before another by gang and then by hart. -/
def codeBefore (a b : Nat × Nat × Nat) : Bool := decide (a.1 < b.1) || (a.1 == b.1 && decide (a.2.1 < b.2.1))

/-- ERROR of a job (R294): that of END_JOB, a kill or firmware; else the exit code of the first hart that ended with one; else 0. -/
def Job.error (j : Job) : Nat :=
  match j.err with
  | some e => e
  | none =>
    match j.codes.foldl (fun (best : Option (Nat × Nat × Nat)) c =>
      match best with
      | none => some c
      | some b => if codeBefore c b then some c else some b) none with
    | none => 0
    | some c => c.2.2

/-- The completion signal of a job after VALUE (Table 12-6). -/
def State.signalBytes (s : State) (j : Job) (value : Nat) : List Byte :=
  natLe 8 (value + 1) ++ natLe 8 (j.start.getD s.time) ++ natLe 8 s.time ++ natLe 4 j.error ++
  natLe 4 ((if j.pre then 1 else 0) + (if j.killed then 2 else 0) + (if s.mchk.contains j.id then 4 else 0))

/-- The record of a signal that could not be written (R295, R308). -/
def State.signalLost (s : State) (j : Job) : State :=
  let die := if j.start.isSome then j.die else Config.pick s.free % 4
  s.took.machineCheck 5 (die * 256 + 8) 0xFFFFFFFF (jobCtx j.cap).toNat (jobCompl j.cap).toNat 0

/-- The completion signal written once, as a system-scope release (R295, R297). -/
def State.signal (s : State) (j : Job) : State :=
  if jobCompl j.cap = 0 then s
  else if (jobCompl j.cap).toNat % 32 ≠ 0 then s.signalLost j
  else
    let a := fwAgent j.die (jobCtx j.cap)
    s.asContext (jobCtx j.cap)
      (fun s =>
        match s.fwRead a (jobCompl j.cap) 8 with
        | (s1, none) => s1.signalLost j
        | (s1, some bs) =>
          match s1.fwWrite a (jobCompl j.cap) (s1.signalBytes j (leNat bs)) with
          | (s2, true) => s2
          | (s2, false) => s2.signalLost j)
      (fun s => s.signalLost j)

/-- The grants of a context freed (R220, R239, R259). -/
def State.freeGrants (s : State) (ctx : BitVec 16) : State :=
  ([0, 1, 2] : List Nat).foldl (fun (s : State) kind =>
    (List.range 4).foldl (fun (s : State) die =>
      (List.range 63).foldl (fun (s : State) n => if s.holder kind die n = some ctx then s.free_ kind die n else s) s) s) s

/-- The clusters that a killed context had are zeroed (R298). -/
def State.zeroOwned (s : State) (ctx : BitVec 16) : State :=
  (List.range 32).foldl (fun (s : State) c =>
    if (s.getCluster c).owner = some ctx && (s.gangsIn c).isEmpty then s.zeroCluster c none else s) s

/-- What a context without a job leaves (R289, R298, R343): its root is no longer held and the port drops its groups; at its end, or its kill, its
grants are freed; after a kill its clusters are zeroed. -/
def State.leaveContext (s : State) (ctx : BitVec 16) (ends : Bool) : State :=
  if s.jobs.any (fun j => jobCtx j.cap == ctx) then s
  else
    let dying := s.dying.contains ctx
    let s1 := { s with roots := tabDel s.roots ctx.toNat, groups := s.groups.filter (fun g => g.ctx != ctx),
                       combines := s.combines.filter (fun c => c.ctx != ctx), dying := s.dying.filter (· != ctx) }
    let s2 := if ends || dying then s1.freeGrants ctx else s1
    if dying then s2.zeroOwned ctx else s2

/-- A suspended cluster without what a job had in it: its gangs, its harts and their ticket entries (R332). -/
def Parked.without (p : Parked) (job : Word) : Parked :=
  let gone := (p.harts.filter (fun h => h.jobid == job)).map (·.id)
  { p with gangs := p.gangs.filter (fun g => g.job != job), harts := p.harts.filter (fun h => h.jobid != job),
           cores := p.cores.map (fun (c : Nat × Core) => (c.1, { c.2 with tickets := c.2.tickets.filter (fun t =>
             !gone.any (fun id => coreOf id % 8 == c.1 && id % 4 == t.hart.toNat)) })) }

/-- The harts, barriers and ticket entries of a job freed (R294, R332). -/
def State.freeJob (s : State) (job : Word) : State :=
  let gs := s.gangs.filter (fun g => g.job == job)
  let s1 := gs.foldl (fun (s : State) g => g.harts.foldl (fun (s : State) id =>
    let s1 := s.drainAll id
    (s1.dropTickets id).clearHart id) (s.setBar g.cluster g.bar Bar.init)) s
  { s1 with
    gangs := s1.gangs.filter (fun g => g.job != job), mchk := s1.mchk.filter (· != job), jobs := s1.jobs.filter (fun j => j.id != job),
    parked := (s1.parked.map (fun (p : Parked) => p.without job)).filter
      (fun p => !p.gangs.isEmpty),
    victims := s1.victims.filter (fun c => s1.gangs.any (fun g => g.cluster == c && g.job != job)) }

/-- JOB_END (R294 to R297): the job's harts are freed and its signal is written; `ctxEnds` is whether its context, with no job left, ends. -/
def execJobEnd (job : Word) (ctxEnds : Bool) (s : State) : Host.Outcome State Fault Refusal :=
  .next (
    match s.job job with
    | none => s
    | some j =>
      if !s.serving || !s.jobOver j then s
      else
        let drained := ((s.gangs.filter (fun g => g.job == job)).flatMap (·.harts)).foldl (fun (s : State) id => s.drainAll id) s
        let s1 := drained.signal j
        let s2 := if jobIrq j.cap then { s1 with msix := jobMsix j.cap :: s1.msix } else s1
        (s2.freeJob job).leaveContext (jobCtx j.cap) ctxEnds)

/-! ### Switching queues (R296) -/

/-- Queues that are resident. -/
def State.residents (s : State) : Nat := (s.queues.filter (·.2.res)).length

/-- QUEUE_SWITCH_IN (R296): RES is set and TAIL is read again. -/
def execQueueSwitchIn (q : Nat) (s : State) : Host.Outcome State Fault Refusal :=
  .next (
    let x := s.getQueue q
    if s.serving && x.waiting && decide (s.residents < 64) then s.setQueue q { x with res := true, resAt := s.time } else s)

/-- A resident queue with no job that has been taken and not started (R296). -/
def State.switchable (s : State) (q : Nat) : Bool := (s.getQueue q).res && !s.jobs.any (fun j => j.queue == q && j.start.isNone)

/-- A queue has waited 1 ms for a resident slot. -/
def State.longWait (s : State) : Bool := s.queues.any (fun x => x.2.waiting && decide (x.2.since + 10 ^ 6 ≤ s.time))

/-- QUEUE_SWITCH_OUT (R296): RES of the queue that has been resident longest is cleared for one that has waited. -/
def execQueueSwitchOut (q : Nat) (s : State) : Host.Outcome State Fault Refusal :=
  .next (
    let x := s.getQueue q
    if s.serving && s.longWait && decide (64 ≤ s.residents) && s.switchable q &&
        s.queues.all (fun y => !s.switchable y.1 || decide (x.resAt ≤ y.2.resAt)) then s.setQueue q { x with res := false }
    else s)

/-! ### Killing a context (R298, 14 R353) -/

/-- The engine transfers and requests of a context that are in flight are stopped (R298). -/
def State.stopTransfers (s : State) (ctx : BitVec 16) : State :=
  let s1 := s.mapHarts (fun h =>
    match h.wait with
    | .remote _ => if h.ctxid = ctx then { h with wait := .none, answers := [], asked := [], told := [], cur := [], places := [], refuse := none, opened := false, credit := none, stopAt := none, inUse := none, claim := none } else h
    | _ => h)
  { s1 with
    sent := s1.sent.filter (fun p => !(p.src == s1.pkg.toNat && p.ctx == ctx)),
    clusters := s1.clusters.map (fun (c : Nat × Cluster) => (c.1, { c.2 with copies := c.2.copies.filter (fun k => k.ctx != ctx) })),
    churns := s1.churns.map (fun (x : Nat × Churn) => if x.2.owner = ctx then (x.1, { x.2 with rows := [] }) else x) }

/-- The groups of a context are aborted with WHY = 2 (14 R353); ORIG is the lowest rank of a member here. -/
def State.killGroups (s : State) (ctx : BitVec 16) : State :=
  (s.groups.filter (fun p => p.ctx == ctx && p.abort.isNone)).foldl (fun (s : State) p =>
    let orig := BitVec.ofNat 10 ((s.ranksHere p).headD 0)
    (s.applyAbort ctx p.gid 2 orig).emit (.abort ctx p.gid 2 orig)) s

/-- CONTEXT_KILL (R298): `v` is the value written to KILL. -/
def execContextKill (v : Word) (s : State) : Host.Outcome State Fault Refusal :=
  .next (
    if !s.serving || !v.getLsbD 16 then s
    else
      let ctx : BitVec 16 := v.truncate 16
      let mine := s.jobs.filter (fun j => jobCtx j.cap == ctx)
      let s1 := (s.killGroups ctx).stopTransfers ctx
      let s2 := mine.foldl (fun (s : State) j => (s.updJob j.id (fun j => { j.fail 4 with killed := true })).stopJob j.id) s1
      { s2 with queues := s2.queues.map (fun (x : Nat × Queue) => (x.1, { x.2 with dropped := x.2.dropped ++ [(x.2.tail, ctx)] })),
                dying := ctx :: s2.dying.filter (· != ctx) }.leaveContext ctx true)

end Sys2Proof.Machine
end

