-- ==== Sys2Proof/Machine/Crypto.lean ====
section
/-! DEFINITION. SHAKE256 with 32 bytes of output, for measurements (12 R305). The spec names the function and does not define it: it is taken from
FIPS 202 (log 18). -/

namespace Sys2Proof.Machine

open Sys2Proof

/-- The shift register of the round constants after `n` steps (FIPS 202, rc: x^8 + x^6 + x^5 + x^4 + 1), its output bit 0. -/
def rcRegister : Nat → Nat
  | 0 => 1
  | n + 1 =>
    let r := 2 * rcRegister n
    if 256 ≤ r then r ^^^ 0x171 else r

/-- The constant of round `i`: bit 2^j - 1 is output j + 7i of the register (FIPS 202, iota). -/
def roundConst (i : Nat) : Word :=
  BitVec.ofNat 64 (((List.range 7).map (fun j => rcRegister (j + 7 * i) % 2 * 2 ^ (2 ^ j - 1))).sum)

/-- The lanes in the order in which rho visits them, from lane (x, y): the next is (y, 2x + 3y). -/
def rhoPath : Nat → Nat → Nat → List Nat
  | 0, _, _ => []
  | n + 1, x, y => (x + 5 * y) :: rhoPath n y ((2 * x + 3 * y) % 5)

/-- The rotation of lane i = x + 5y: (t + 1)(t + 2)/2 for the lane that rho visits as number t; lane 0 is not rotated. -/
def rhoAmount (i : Nat) : Nat :=
  match (rhoPath 24 1 0).idxOf? i with
  | some t => (t + 1) * (t + 2) / 2 % 64
  | none => 0

/-- Lane (x, y) of a state of 25, with x and y modulo 5. -/
def lane (a : List Word) (x y : Nat) : Word := a.getD (x % 5 + 5 * (y % 5)) 0

/-- A state given lane by lane. -/
def lanes (f : Nat → Nat → Word) : List Word := (List.range 25).map (fun i => f (i % 5) (i / 5))

/-- Theta: each lane with the parities of the column before it and, rotated, of that after it. -/
def theta (a : List Word) : List Word :=
  let parity := (List.range 5).map (fun x => (List.range 5).foldl (fun w y => w ^^^ lane a x y) 0)
  lanes (fun x y => lane a x y ^^^ parity.getD ((x + 4) % 5) 0 ^^^ (parity.getD ((x + 1) % 5) 0).rotateLeft 1)

/-- Rho and pi: lane (x, y) is lane (x + 3y, x) rotated. -/
def rhoPi (a : List Word) : List Word :=
  lanes (fun x y => (lane a (x + 3 * y) x).rotateLeft (rhoAmount ((x + 3 * y) % 5 + 5 * x)))

/-- Chi and iota. -/
def chiIota (a : List Word) (rc : Word) : List Word :=
  lanes (fun x y => lane a x y ^^^ (~~~(lane a (x + 1) y) &&& lane a (x + 2) y) ^^^ (if x = 0 ∧ y = 0 then rc else 0))

/-- Keccak-f[1600]: 24 rounds. -/
def keccakF (a : List Word) : List Word := (List.range 24).foldl (fun a i => chiIota (rhoPi (theta a)) (roundConst i)) a

/-- A lane from 8 bytes, the first least significant. -/
def laneOf (bs : List Byte) : Word := bs.foldr (fun b (w : Word) => w <<< 8 ||| b.zeroExtend 64) 0

/-- A block of 136 bytes absorbed. -/
def absorb (a : List Word) (block : List Byte) : List Word :=
  keccakF ((List.range 25).map (fun i => a.getD i 0 ^^^ (if i < 17 then laneOf ((block.drop (8 * i)).take 8) else 0)))

/-- The padded message absorbed in blocks of 136 bytes; at most `n` of them. -/
def absorbAll : Nat → List Word → List Byte → List Word
  | 0, a, _ => a
  | n + 1, a, bs =>
    if bs.length < 136 then
      let z := bs ++ [0x1F] ++ List.replicate (135 - bs.length) 0
      absorb a (z.take 135 ++ [z.getD 135 0 ||| 0x80])
    else absorbAll n (absorb a (bs.take 136)) (bs.drop 136)

/-- SHAKE256 with 32 bytes of output. -/
def shake256 (bs : List Byte) : List Byte :=
  let a := absorbAll (bs.length / 136 + 1) (List.replicate 25 0) bs
  (List.range 32).map (fun k => (a.getD (k / 8) 0 >>> (8 * (k % 8))).truncate 8)

end Sys2Proof.Machine
end

