-- ==== Sys2Proof/Machine/Package.lean ====
section
/-! DEFINITION. Power grants, the host's accesses, bring-up, firmware image and attestation, links, the patrol scrub, and the traps of a word that is no
instruction or cannot be fetched (01 R22, 03 R82, 12 R299 to R308, 14 R338 to R341, R353). -/

namespace Sys2Proof.Machine

open Sys2Proof

/-! ### Power grants (R37, R299) -/

/-- The grant of every gang that meets a test changed, for its harts at once (R37); the last change for its priority is kept. -/
def State.regrant (s : State) (p : Gang → Bool) (f : Gang → Nat) : State :=
  let hit := s.gangs.filter p
  let s1 := s.mapHarts (fun h =>
    match hit.find? (fun g => g.harts.contains h.id) with
    | some g => { h with pend := f g }
    | none => h)
  { s1 with gangs := s1.gangs.map (fun g => if p g then { g with lanes := f g } else g),
            pgrant := hit.foldl (fun (t : List (Nat × Nat)) g => tabPut t g.prio (f g)) s1.pgrant }

/-- POWER_MEASURE (R299): over the cap, or with a die at its junction limit, the grant of every gang of the lowest priority that is above 4 lanes is
halved. -/
def execPowerMeasure (mean : Nat) (hot : Bool) (s : State) : Host.Outcome State Fault Refusal :=
  .next (
    let able := s.gangs.filter (fun g => decide (4 < g.lanes))
    match able with
    | [] => s
    | g :: gs =>
      if hot || s.pcap < mean then
        let low := gs.foldl (fun (m : Nat) g => min m g.prio) g.prio
        s.regrant (fun g => g.prio == low && decide (4 < g.lanes)) (fun g => g.lanes / 2)
      else s)

/-- GRANT_RAISE (R299): below 95 % of the cap the grant of every gang of the highest priority that is below its limit is doubled. -/
def execGrantRaise (mean : Nat) (s : State) : Host.Outcome State Fault Refusal :=
  .next (
    let below := fun (g : Gang) => decide (g.lanes < s.grantLimit g.limit)
    match s.gangs.filter below with
    | [] => s
    | g :: gs =>
      if 100 * mean < 95 * s.pcap then
        let high := gs.foldl (fun (m : Nat) g => max m g.prio) g.prio
        s.regrant (fun g => g.prio == high && below g) (fun g => min (2 * g.lanes) (s.grantLimit g.limit))
      else s)

/-! ### The host's accesses (R300, R301, R303) -/

/-- Byte `o` of the host window as it reads. -/
def State.windowByte (s : State) (o : Nat) : Byte := BitVec.ofNat 8 (s.hostRead (o / 8 * 8) / 256 ^ (o % 8))

/-- `n` bytes of the host window (R286). -/
def State.windowBytes (s : State) (o n : Nat) : List Byte := (List.range n).map (fun k => s.windowByte (o + k))

/-- The doubleword at `d` of the window with the bytes of a write at `o` in it. -/
def State.mergeWord (s : State) (d o : Nat) (bs : List Byte) : Word :=
  BitVec.ofNat 64 (leNat ((List.range 8).map (fun k => if o ≤ d + k then bs.getD (d + k - o) (s.windowByte (d + k)) else s.windowByte (d + k))))

/-- Bytes of the host window written (R286), by doublewords. -/
def State.windowStore (s : State) (o : Nat) (bs : List Byte) : State :=
  (List.range ((o + bs.length - 1) / 8 + 1 - o / 8)).foldl (fun (s : State) k =>
    let d := (o / 8 + k) * 8
    s.hostWrite d (s.mergeWord d o bs)) s

/-- An access of the host to its window (R286), which always completes: the value read and the window after it. -/
def State.windowAccess (s : State) (o : Nat) (e : RElem) : State × Nat :=
  let old := leNat (s.windowBytes o e.n)
  match e.op with
  | .store => (s.windowStore o (natLe e.n e.data), 0)
  | .amo code => (match amoNew code (8 * e.n) old e.data e.cmp with
    | none => s
    | some x => s.windowStore o (natLe e.n x), old)
  | _ => (s, old)

/-- HOST_ACCESS (R286, R300, R301): an access of the host, or one of its atomics: through BAR0 to the host window, at 2^63 and the offset (log 30); else to the DRAM of
the package, where it fails above WMARK in reduced service and before DRAM is calibrated (R303). -/
def execHostAccess (e : RElem) (s : State) : Host.Outcome State Fault Refusal :=
  .next (
    let l := e.addr.toNat
    if 2 ^ 63 ≤ l then
      if l - 2 ^ 63 + e.n ≤ 0x8000 then
        let (s1, old) := s.windowAccess (l - 2 ^ 63) e
        s1.emit (.hostAnswer e.addr (some old))
      else s.emit (.hostAnswer e.addr none)
    else if 0x3000000000 < l + e.n || !s.brdy.getLsbD 2 || s.unready l || s.unready (l + e.n - 1) then s.emit (.hostAnswer e.addr none)
    else
      match s.performAgent l e with
      | (s1, .done d _) => s1.emit (.hostAnswer e.addr (some d))
      | (s1, _) => (s1.eccAgent (fwAgent 0 0) l).emit (.hostAnswer e.addr none))

/-! ### Bring-up (R302, R303, 14 R339) -/

/-- FAIL of BRDY (Table 12-9). -/
def State.stageFailed (s : State) : Bool := s.brdy.toNat / 256 % 256 != 0

/-- The lowest stage bit of BRDY that is clear, 7 where every stage is set. -/
def State.nextStage (s : State) : Nat := ((List.range 7).find? (fun k => !s.brdy.getLsbD k)).getD 7

/-- Bits of BRDY set. -/
def State.setBrdy (s : State) (bits : Nat) : State := { s with brdy := s.brdy ||| BitVec.ofNat 64 bits }

/-- A stage bit set: only in ascending order, and none after a failure (R302, R303). -/
def State.stage (s : State) (k : Nat) : State := if s.stageFailed || s.nextStage != k then s else s.setBrdy (2 ^ k)

/-- The firmware cores run the verified image (R3, R302). DESIGN CHOICE (log 38): it lies at 2^53 in the firmware memory of each die and starts there in supervisor mode; an image of no
bytes has nothing to run. -/
def State.startFirmware (s : State) : State :=
  let image := s.fwStore.getD []
  { s with eweok := s.eweok.map (fun h => { h with run := !image.isEmpty, pc := BitVec.ofNat 64 (2 ^ 53), status := h.status ||| 1 }),
           mem := (List.range 4).foldl (fun m d => memPut m (locFirm d 0) image) s.mem }

/-- CLK (R302, 14 R339, R305): clocks lock and the verified image runs on the firmware cores; M0 is extended with the digest of each configuration block that it
loads; the package id is read and stands in HARTID of every hart. -/
def execClk (pkg : BitVec 7) (s : State) : Host.Outcome State Fault Refusal :=
  .next (
    if s.recovery || s.stageFailed || s.nextStage != 0 then s
    else { s.startFirmware.stage 0 with
      pkg := pkg,
      m0 := (Config.blocks s.resets).foldl (fun m b => shake256 (m ++ shake256 b)) s.m0 })

/-- D2D (R302). -/
def execD2d (s : State) : Host.Outcome State Fault Refusal := .next (s.stage 1)

/-- DRAMCAL (R302, R303): jobs are accepted, and reduced service begins. -/
def execDramcal (s : State) : Host.Outcome State Fault Refusal := .next (s.stage 2)

/-- LLCINIT (R302). -/
def execLlcinit (s : State) : Host.Outcome State Fault Refusal := .next (s.stage 3)

/-- WMARK_ADVANCE (R302, R303): the next 256 MiB of a die's DRAM are written with zeros. -/
def execWmarkAdvance (die : Nat) (s : State) : Host.Outcome State Fault Refusal :=
  .next (
    if s.stageFailed || !s.brdy.getLsbD 3 || 3 < die || 192 ≤ s.wmark die then s
    else
      let l := die * 0xC00000000 + s.wmark die * 2 ^ 28
      { s with mem := memClear s.mem l (2 ^ 28), ecc := badOut s.ecc l (2 ^ 28), brdy := s.brdy + BitVec.ofNat 64 (2 ^ (32 + 8 * die)) })

/-- DRAMINIT (R302): every WMARK is 192. -/
def execDraminit (s : State) : Host.Outcome State Fault Refusal :=
  .next (if (List.range 4).all (fun d => s.wmark d == 192) then s.stage 4 else s)

/-- FABRIC (R302, 14 R339): `ports` are the port numbers that the links report and `present` the packages on the crossbar; a number that is not the
package id fails the stage with FAIL = 6. -/
def execFabric (ports : List Nat) (present : List (BitVec 7)) (s : State) : Host.Outcome State Fault Refusal :=
  .next (
    if s.stageFailed || s.nextStage != 5 then s
    else if ports.any (· != s.pkg.toNat) then s.setBrdy (6 * 256)
    else { s.stage 5 with present := present })

/-- READY (R302, R303): reduced service is lifted. -/
def execReady (s : State) : Host.Outcome State Fault Refusal := .next (s.stage 6)

/-- STAGE_FAIL (R303): the next stage fails. -/
def execStageFail (s : State) : Host.Outcome State Fault Refusal :=
  .next (if s.stageFailed || s.nextStage == 7 then s else s.setBrdy ((s.nextStage + 1) * 256))

/-! ### Reset, firmware image, attestation (R304, R305) -/

/-- An event that only the package itself brings about: it does not outlive a reset. -/
def Ev.inner : Ev → Bool
  | .remoteAnswer _ _ => true
  | .replayNotice _ _ _ _ => true
  | .churnRemoteReplay _ _ _ _ => true
  | .collectiveArrival _ _ _ _ => true
  | .collectiveGo _ => true
  | .collectiveData _ _ _ => true
  | .collectiveChunk _ _ _ _ _ => true
  | .arrivalWithdrawal _ _ _ _ => true
  | .streamChunkFull _ _ _ _ _ => true
  | .contextKill _ => true
  | .fwReset => true
  | _ => false

/-- Package reset (R304, R305): everything is as after reset but the firmware store, the next leaf of the identity key, the count of resets, the
memory of the host, and the model's own counter; the boot ROM checks the image and measures it, or enters recovery mode. -/
def State.resetPackage (s : State) : State :=
  let s1 := { State.reset with
    mem := s.mem.filter (fun c => isHost c.1), fwStore := s.fwStore, leaf := s.leaf, resets := s.resets + 1, free := s.free, outbox := s.outbox,
    msix := s.msix, agenda := s.agenda.filter (fun e => !Ev.inner e) }
  match s.fwStore with
  | some image => if Config.imageOk image then { s1 with m0 := shake256 image } else { s1 with recovery := true, fwStat := 4, m0 := shake256 image }
  | none => { s1 with recovery := true, fwStat := 4, m0 := [] }

/-- PACKAGE_RESET (R304, R305). -/
def execPackageReset (s : State) : Host.Outcome State Fault Refusal := .next s.resetPackage

/-- FW_RESET (R304): FWCMD = 2. -/
def execFwReset (s : State) : Host.Outcome State Fault Refusal := .next s.resetPackage

/-- The location of a host physical address: host memory takes the upper half of the physical addresses (Table 9-3; log 18). -/
def hostLoc (a : Nat) : Nat := 2 ^ 51 + a % 2 ^ 51

/-- FW_INSTALL (R304): FWCMD = 1: an image of `n` bytes is read from host memory at FWIMG, verified and stored; `cut` is a reset during the write. -/
def execFwInstall (n : Nat) (cut : Bool) (s : State) : Host.Outcome State Fault Refusal :=
  .next (
    if s.fwStat != 1 then s
    else
      match s.readLoc (hostLoc s.fwImg.toNat) n with
      | (s1, none) => { s1 with fwStat := 3 }
      | (s1, some image) =>
        if !Config.imageOk image then { s1 with fwStat := 3 }
        else if cut then { s1 with fwStore := none }.resetPackage
        else { s1 with fwStore := some image, fwStat := 2 })

/-- ATTESTATION (R305): a report of M0, the nonce, the package id and the reset count, signed with the next leaf of the identity key, of which there are
2^20. -/
def execAttestation (nonce : List Byte) (s : State) : Host.Outcome State Fault Refusal :=
  .next (
    if s.recovery || s.stageFailed || !s.brdy.getLsbD 0 then s
    else if 2 ^ 20 ≤ s.leaf then s.emit .noReport
    else
      let r := s.m0 ++ (nonce ++ List.replicate 32 0).take 32 ++ natLe 8 s.pkg.toNat ++ natLe 8 s.resets
      { s with leaf := s.leaf + 1 }.emit (.report r (Config.signature s.leaf r)))

/-! ### Patrol scrub (R306 to R308) -/

/-- A corrected error counted for its structure (R306); a record with its address at each multiple of 1,024 (R308). The syndrome is not stated (log 17). -/
def State.countCorrected (s : State) (unit addr : Nat) : State :=
  let n := (tabGet s.corrected unit).getD 0 + 1
  let s1 := { s with corrected := tabPut s.corrected unit n }
  if n % 1024 = 0 then s1.took.machineCheck 1 unit 0xFFFFFFFF 0xFFFF addr (Config.value s1.free).toNat
  else s1

/-- The codewords of a hart's registers stand in PATROL_SCRUB at 2^56 + 2^16 * HARTID[9:0] and their number (log 19). -/
def State.decayRegs (s : State) (w : Nat) : State :=
  let id := (w - 2 ^ 56) / 2 ^ 16
  let h := s.getHart id
  if id < 1024 && !h.bad.contains (w % 2 ^ 16) then s.setHart { h with bad := h.bad ++ [w % 2 ^ 16] } else s

/-- A cached copy of a codeword decays. The copies stand in PATROL_SCRUB at 2^60, by the codeword's location, 2^52 times the core or die whose structure holds it, 2^62 times the structure
(Table 12-11), and 2^66 times 0 where the line is clean there, else 1 and the number of writes that have performed since memory last took it (log 19). -/
def State.decayCopy (s : State) (w : Nat) : State :=
  let x := w - 2 ^ 60
  let cw := x % 2 ^ 52
  let owner := x / 2 ^ 52 % 1024
  let unit := x / 2 ^ 62 % 16
  let back := x / 2 ^ 66
  let c : BadCopy := ⟨unit, owner, cw, if back = 0 then none else some (s.writes - (back - 1))⟩
  let held := (unit == 1 && decide (owner < 256)) || (unit == 2 && decide (owner < 256)) || (unit == 4 && decide (owner < 4)) || (unit == 6 && owner == 0)
  if held && (decide (cw < 0x3000000000) || isHost cw) && cw % c.size == 0 && decide (back ≤ s.writes + 1) && !s.badCopies.contains c then
    { s with badCopies := s.badCopies ++ [c] }
  else s

/-- A codeword decays: in DRAM or in SRAM that has locations, where its data has an uncorrectable error from now on, in a hart's registers, or in a cached copy. -/
def State.decay (s : State) (w : Nat) : State :=
  if 2 ^ 60 ≤ w then s.decayCopy w
  else if 2 ^ 56 ≤ w then s.decayRegs w
  else if codeword w = w && (decide (w < 0x3000000000) || decide (2 ^ 52 ≤ w)) && !s.ecc.contains w then { s with ecc := s.ecc ++ [w] }
  else s

/-- PATROL_SCRUB (R306, R307, R308): errors come about, and all DRAM is read: `decayed` are the codewords with a new uncorrectable error, of which the scrub finds those in
DRAM; `corrected` are the corrected errors, each its structure and 2^16 times its address. -/
def execPatrolScrub (decayed corrected : List Nat) (s : State) : Host.Outcome State Fault Refusal :=
  .next (
    let s1 := corrected.foldl (fun (s : State) u => s.countCorrected (u % 2 ^ 16) (u / 2 ^ 16)) (decayed.foldl State.decay s)
    (s1.ecc.filter (fun w => decide (w < 0x3000000000))).foldl (fun (s : State) w => s.eccAgent (fwAgent 0 0) w) s1)

/-! ### Links and lost packages (14 R338, R340, R341, R353) -/

/-- LINK_ERROR (14 R336, R338): a mismatch on lane `l` of link `k`, as 72 * k + l: counted in the port, and the flit is sent again; a lane in whose slice, which is lanes 2c and 2c + 1,
16 occur within 1 ms is a failed lane. -/
def execLinkError (lane : Nat) (s : State) : Host.Outcome State Fault Refusal :=
  .next (
    let s1 := { s with linkErrs := s.linkErrs + 1 }
    match s.links[lane / 72]? with
    | none => s1
    | some x =>
      let recent := x.errs.filter (fun e => decide (s.time ≤ e.2 + 10 ^ 6)) ++ [(lane % 72, s.time)]
      let mine := fun (e : Nat × Nat) => e.1 / 2 == lane % 72 / 2
      if 16 ≤ recent.countP mine then
        { s1 with links := s1.links.setIfInBounds (lane / 72) { x with errs := recent.filter (fun e => !mine e) } }.queue (.laneFailure (lane / 72))
      else { s1 with links := s1.links.setIfInBounds (lane / 72) { x with errs := recent } })

/-- A link taken down (14 R340). -/
def Link.fall (x : Link) (now : Nat) : Link := if x.down then x else { x with down := true, since := now }

/-- LANE_FAILURE (14 R340): in normal service the link goes down; in erasure mode the first failed lane is an erasure. -/
def execLaneFailure (link : Nat) (s : State) : Host.Outcome State Fault Refusal :=
  .next (
    match s.links[link]? with
    | none => s
    | some x =>
      let y : Link := if s.brdy.getLsbD 6 || x.erased then x.fall s.time else { x with erased := true }
      { s with links := s.links.setIfInBounds link y })

/-- Every link of the package has been down for 10 ms (14 R340). -/
def State.cutOff (s : State) : Bool := s.links.all (fun x => x.down && decide (x.since + 10 ^ 7 ≤ s.time))

/-- The ticket table entries of lost packages fail, as by a failure notice (14 R341). -/
def Core.lost (c : Core) (lost : Nat → Bool) (ord : Nat) : Core :=
  { c with tickets := c.tickets.map (fun (t : Ticket) => if t.state = .wait && lost t.pkg.toNat then { t with state := .fail, ord := ord } else t) }

/-- The answers of a port in place of the owner of a request (14 R341). -/
def lostAnswers (p : Packet) : List (Nat × RAns) :=
  (skimIdx skimProbe, .failed) :: (skimIdx 0, .failed) :: p.elems.map (fun e => (e.idx, .failed))

/-- The lowest rank of a member that is lost. -/
def PortGroup.firstLost (p : PortGroup) (lost : Nat → Bool) : BitVec 10 :=
  BitVec.ofNat 10 (((List.range p.members.length).filter (fun r => lost (p.members.getD r (128, 0, 0)).1)).headD 0)

/-- The groups with a lost member are aborted as by a kill of it (14 R353). -/
def State.abortLost (s : State) (lost : Nat → Bool) : State :=
  (s.groups.filter (fun p => p.abort.isNone && p.members.any (fun m => lost m.1))).foldl (fun (s : State) p =>
    s.applyAbort p.ctx p.gid 2 (p.firstLost lost)) s

/-- Packages lost to this one (14 R341, R353): the port answers for them, their tickets and rows fail, and their groups are aborted. -/
def State.losePackages (s : State) (lost : Nat → Bool) : State :=
  let s1 := { s with present := s.present.filter (fun p => !lost p.toNat) }
  let s2 := (s1.sent.filter (fun p => lost p.dst)).foldl (fun (s : State) p => s.deliver p (lostAnswers p)) s1
  let f := fun (c : Nat × Core) => (c.1, c.2.lost lost s2.notices)
  let s3 : State := { s2 with
    cores := s2.cores.map f, parked := s2.parked.map (fun (p : Parked) => { p with cores := p.cores.map f }), notices := s2.notices + 1,
    churns := s2.churns.map (fun (x : Nat × Churn) =>
      if x.2.rows.any (fun r => lost r.pkg) then (x.1, { x.2 with rows := x.2.rows.filter (fun r => !lost r.pkg), rfail := true }) else x) }
  s3.wakeTkwait.abortLost lost

/-- PACKAGE_LOST (14 R340, R341, R353): another package is lost to this one; or this one to its peers, every link of it down for 10 ms: its groups are aborted as for a
kill, and the others are lost to it (log 17). -/
def execPackageLost (pkg : Nat) (s : State) : Host.Outcome State Fault Refusal :=
  .next (
    if pkg ≠ s.pkg.toNat then s.losePackages (fun p => p == pkg)
    else if s.cutOff then (s.abortLost (fun p => p == pkg)).losePackages (fun p => p != pkg)
    else s)

/-! ### Words that are no instruction (01 R22, R24, 03 R82) -/

/-- ILLEGAL_ENCODING (R22, R24): the hart traps ILL for the word it executes. -/
def execIllegalEncoding (sub : BitVec 8) (word : IWord) (pos : Nat) (s : State) : Host.Outcome State Fault Refusal :=
  .next (s.trap ⟨0x01, illTval sub word pos⟩)

/-- FETCH_FAULT (R82): the hart traps MF with TVAL at the fetch address. -/
def execFetchFault (addr : Word) (s : State) : Host.Outcome State Fault Refusal := .next (s.trap ⟨0x04, addr⟩)

end Sys2Proof.Machine
end

