-- ==== Sys2Proof/Machine/ScalarFp.lean ====
section
/-! DEFINITION. Scalar f32 instructions (03 R84, R85). -/

namespace Sys2Proof.Machine

open Sys2Proof

/-- A scalar FP instruction: s[d] := the result and FCSR ORed with its exceptions (R57, R85); the operands are the hart's. -/
def fpOp (w : IWord) (reads : List Reg5) (d : Reg5) (f : Hart → Nat × Exc) (s : State) : Host.Outcome State Fault Refusal :=
  scalarOp { word := w, reads := reads } (fun s =>
    let (x, e) := f s.hart
    (s.ps d (BitVec.ofNat 64 x)).upd (·.raise e)) s

/-- A comparison result, invalid where an ordered compare meets a NaN (R53, R84). -/
def fpCmp (ordered : Bool) (r : FVal → FVal → Bool) (a b : FVal) : Nat × Exc :=
  ((r a b).toNat, { nv := ordered && (a.isNan || b.isNan) })

/-- `fadd` (R84). -/
def execFadd (d a b : Reg5) (r : BitVec 3) (s : State) : Host.Outcome State Fault Refusal :=
  fpOp (wFadd d a b r) [a, b] d (fun h => toF32 (h.wordRm r) (FVal.add (h.wordRm r) (f32Of (h.gs a)) (f32Of (h.gs b)))) s

/-- `fsub` (R84). -/
def execFsub (d a b : Reg5) (r : BitVec 3) (s : State) : Host.Outcome State Fault Refusal :=
  fpOp (wFsub d a b r) [a, b] d (fun h => toF32 (h.wordRm r) (FVal.add (h.wordRm r) (f32Of (h.gs a)) (f32Of (h.gs b)).neg)) s

/-- `fmul` (R84). -/
def execFmul (d a b : Reg5) (r : BitVec 3) (s : State) : Host.Outcome State Fault Refusal :=
  fpOp (wFmul d a b r) [a, b] d (fun h => toF32 (h.wordRm r) (FVal.mul (f32Of (h.gs a)) (f32Of (h.gs b)))) s

/-- `fdiv` (R84). -/
def execFdiv (d a b : Reg5) (r : BitVec 3) (s : State) : Host.Outcome State Fault Refusal :=
  fpOp (wFdiv d a b r) [a, b] d (fun h => toF32 (h.wordRm r) (FVal.div (f32Of (h.gs a)) (f32Of (h.gs b)))) s

/-- `fmin` (R84). -/
def execFmin (d a b : Reg5) (r : BitVec 3) (s : State) : Host.Outcome State Fault Refusal :=
  fpOp (wFmin d a b r) [a, b] d (fun h => toF32 .rne (FVal.minimum (f32Of (h.gs a)) (f32Of (h.gs b)), {})) s

/-- `fmax` (R84). -/
def execFmax (d a b : Reg5) (r : BitVec 3) (s : State) : Host.Outcome State Fault Refusal :=
  fpOp (wFmax d a b r) [a, b] d (fun h => toF32 .rne (FVal.maximum (f32Of (h.gs a)) (f32Of (h.gs b)), {})) s

/-- `feq` (R84). -/
def execFeq (d a b : Reg5) (r : BitVec 3) (s : State) : Host.Outcome State Fault Refusal :=
  fpOp (wFeq d a b r) [a, b] d (fun h => fpCmp false FVal.eq (f32Of (h.gs a)) (f32Of (h.gs b))) s

/-- `flt` (R84). -/
def execFlt (d a b : Reg5) (r : BitVec 3) (s : State) : Host.Outcome State Fault Refusal :=
  fpOp (wFlt d a b r) [a, b] d (fun h => fpCmp true FVal.lt (f32Of (h.gs a)) (f32Of (h.gs b))) s

/-- `fle` (R84). -/
def execFle (d a b : Reg5) (r : BitVec 3) (s : State) : Host.Outcome State Fault Refusal :=
  fpOp (wFle d a b r) [a, b] d (fun h => fpCmp true (fun x y => x.lt y || x.eq y) (f32Of (h.gs a)) (f32Of (h.gs b))) s

/-- `fma` (R84): s[d] := round(d + a * b), one rounding. -/
def execFma (d a b : Reg5) (r : BitVec 3) (s : State) : Host.Outcome State Fault Refusal :=
  fpOp (wFma d a b r) [d, a, b] d (fun h =>
    let (p, e) := FVal.mul (f32Of (h.gs a)) (f32Of (h.gs b))
    let (x, e') := FVal.add (h.wordRm r) (f32Of (h.gs d)) p
    toF32 (h.wordRm r) (x, e.or e')) s

/-- `fsqrt` (R84, R85). -/
def execFsqrt (d a : Reg5) (r : BitVec 3) (s : State) : Host.Outcome State Fault Refusal :=
  fpOp (wFsqrt d a r) [a] d (fun h => toF32 (h.wordRm r) (f32Of (h.gs a)).sqrt) s

/-- `fcvtWS` (R84, R85): the int32 of round-to-integer, clamped (R56). -/
def execFcvtWS (d a : Reg5) (r : BitVec 3) (s : State) : Host.Outcome State Fault Refusal :=
  fpOp (wFcvtWS d a r) [a] d (fun h => let (x, e) := (f32Of (h.gs a)).toIntFmt (h.wordRm r) true 32; (intBits 64 (bitsInt true 32 x), e)) s

/-- `fcvtSW` (R84, R85). -/
def execFcvtSW (d a : Reg5) (r : BitVec 3) (s : State) : Host.Outcome State Fault Refusal :=
  fpOp (wFcvtSW d a r) [a] d (fun h => toF32 (h.wordRm r) (FVal.ofInt false (bitsInt true 32 ((h.gs a).toNat % 2 ^ 32)) 0, {})) s

/-- `fcvtBfS` (R84, R85). -/
def execFcvtBfS (d a : Reg5) (r : BitVec 3) (s : State) : Host.Outcome State Fault Refusal :=
  fpOp (wFcvtBfS d a r) [a] d (fun h => FName.bf16.round (h.wordRm r) false (f32Of (h.gs a))) s

/-- `fcvtSBf` (R84, R85). -/
def execFcvtSBf (d a : Reg5) (r : BitVec 3) (s : State) : Host.Outcome State Fault Refusal :=
  fpOp (wFcvtSBf d a r) [a] d (fun h => toF32 .rne (FName.bf16.read ((h.gs a).toNat % 2 ^ 16), {})) s

/-- `fln` (R84, R85). -/
def execFln (d a : Reg5) (r : BitVec 3) (s : State) : Host.Outcome State Fault Refusal :=
  fpOp (wFln d a r) [a] d (fun h => toF32 (h.wordRm r) (f32Of (h.gs a)).ln) s

/-- `fexp` (R84, R85). -/
def execFexp (d a : Reg5) (r : BitVec 3) (s : State) : Host.Outcome State Fault Refusal :=
  fpOp (wFexp d a r) [a] d (fun h => toF32 (h.wordRm r) (f32Of (h.gs a)).exp) s

end Sys2Proof.Machine
end

