-- ==== Sys2Proof/Machine/ScalarInt.lean ====
section
/-! DEFINITION. Scalar integer instructions: ALU, immediates, shifts, upper immediates, MULDIV and BIT (03 R67 to R73). -/

namespace Sys2Proof.Machine

open Sys2Proof

/-- 1 or 0 (R67). -/
def boolWord (b : Bool) : Word := if b then 1 else 0

/-- Signed division (R71, R72): truncated; -1 for a divisor 0; -2^63 over -1 wraps to itself. -/
def divSigned (x y : Word) : Word := if y = 0 then BitVec.allOnes 64 else BitVec.ofInt 64 (x.toInt.tdiv y.toInt)

/-- Signed remainder (R71, R72): the sign of the dividend; the dividend for a divisor 0. -/
def remSigned (x y : Word) : Word := if y = 0 then x else BitVec.ofInt 64 (x.toInt.tmod y.toInt)

/-- The number of one bits among the low n bits. -/
def popBits : Nat → Nat → Nat
  | 0, _ => 0
  | n + 1, x => x % 2 + popBits n (x / 2)

/-- The number of trailing zero bits among the low n bits. -/
def ctzBits : Nat → Nat → Nat
  | 0, _ => 0
  | n + 1, x => if x % 2 = 1 then 0 else 1 + ctzBits n (x / 2)

/-- `pop` (R73). -/
def pop64 (x : Word) : Word := BitVec.ofNat 64 (popBits 64 x.toNat)

/-- `ctz` (R73): 64 for 0. -/
def ctz64 (x : Word) : Word := BitVec.ofNat 64 (ctzBits 64 x.toNat)

/-- `clz` (R73): 64 for 0. -/
def clz64 (x : Word) : Word := if x = 0 then 64 else BitVec.ofNat 64 (63 - Nat.log2 x.toNat)

/-- The number whose k-th of n bytes is byte n - 1 - k of the number given. -/
def revBytes : Nat → Nat → Nat
  | 0, _ => 0
  | n + 1, x => x % 256 * 256 ^ n + revBytes n (x / 256)

/-- `rev8` (R73): byte k of the result is byte 7 - k. -/
def rev8Word (x : Word) : Word := BitVec.ofNat 64 (revBytes 8 x.toNat)

/-- A register-register operation: s[d] := f s[a] s[b] (R67, R71). -/
def aluOp (w : IWord) (d a b : Reg5) (f : Word → Word → Word) (s : State) : Host.Outcome State Fault Refusal :=
  scalarReg { word := w, reads := [a, b] } d (fun h => f (h.gs a) (h.gs b)) s

/-- An immediate operation: s[d] := f s[a] (sext imm16) (R68). -/
def immOp (w : IWord) (d a : Reg5) (i : BitVec 16) (f : Word → Word → Word) (s : State) : Host.Outcome State Fault Refusal :=
  scalarReg { word := w, reads := [a] } d (fun h => f (h.gs a) (i.signExtend 64)) s

/-- A shift by a constant (R69). -/
def shiftOp (w : IWord) (d a : Reg5) (n : BitVec 6) (f : Word → Nat → Word) (s : State) : Host.Outcome State Fault Refusal :=
  scalarReg { word := w, reads := [a] } d (fun h => f (h.gs a) n.toNat) s

/-- A bit operation: s[d] := f s[a] (R73). -/
def bitOp (w : IWord) (d a : Reg5) (f : Word → Word) (s : State) : Host.Outcome State Fault Refusal :=
  scalarReg { word := w, reads := [a] } d (fun h => f (h.gs a)) s

/-- `add` (R67). -/
def execAdd (d a b : Reg5) (s : State) : Host.Outcome State Fault Refusal := aluOp (wAdd d a b) d a b (fun x y => x + y) s

/-- `sub` (R67). -/
def execSub (d a b : Reg5) (s : State) : Host.Outcome State Fault Refusal := aluOp (wSub d a b) d a b (fun x y => x - y) s

/-- `and` (R67). -/
def execAnd (d a b : Reg5) (s : State) : Host.Outcome State Fault Refusal := aluOp (wAnd d a b) d a b (fun x y => x &&& y) s

/-- `or` (R67). -/
def execOr (d a b : Reg5) (s : State) : Host.Outcome State Fault Refusal := aluOp (wOr d a b) d a b (fun x y => x ||| y) s

/-- `xor` (R67). -/
def execXor (d a b : Reg5) (s : State) : Host.Outcome State Fault Refusal := aluOp (wXor d a b) d a b (fun x y => x ^^^ y) s

/-- `andn` (R67). -/
def execAndn (d a b : Reg5) (s : State) : Host.Outcome State Fault Refusal := aluOp (wAndn d a b) d a b (fun x y => x &&& ~~~y) s

/-- `sll` (R67). -/
def execSll (d a b : Reg5) (s : State) : Host.Outcome State Fault Refusal := aluOp (wSll d a b) d a b (fun x y => x <<< (y.toNat % 64)) s

/-- `srl` (R67). -/
def execSrl (d a b : Reg5) (s : State) : Host.Outcome State Fault Refusal := aluOp (wSrl d a b) d a b (fun x y => x >>> (y.toNat % 64)) s

/-- `sra` (R67). -/
def execSra (d a b : Reg5) (s : State) : Host.Outcome State Fault Refusal := aluOp (wSra d a b) d a b (fun x y => x.sshiftRight (y.toNat % 64)) s

/-- `slt` (R67). -/
def execSlt (d a b : Reg5) (s : State) : Host.Outcome State Fault Refusal := aluOp (wSlt d a b) d a b (fun x y => boolWord (x.slt y)) s

/-- `sltu` (R67). -/
def execSltu (d a b : Reg5) (s : State) : Host.Outcome State Fault Refusal := aluOp (wSltu d a b) d a b (fun x y => boolWord (x.ult y)) s

/-- `min` (R67). -/
def execMin (d a b : Reg5) (s : State) : Host.Outcome State Fault Refusal := aluOp (wMin d a b) d a b (fun x y => if x.slt y then x else y) s

/-- `max` (R67). -/
def execMax (d a b : Reg5) (s : State) : Host.Outcome State Fault Refusal := aluOp (wMax d a b) d a b (fun x y => if x.slt y then y else x) s

/-- `minu` (R67). -/
def execMinu (d a b : Reg5) (s : State) : Host.Outcome State Fault Refusal := aluOp (wMinu d a b) d a b (fun x y => if x.ult y then x else y) s

/-- `maxu` (R67). -/
def execMaxu (d a b : Reg5) (s : State) : Host.Outcome State Fault Refusal := aluOp (wMaxu d a b) d a b (fun x y => if x.ult y then y else x) s

/-- `adds` (R67): s[d] := s[a] + (s[b] << h). -/
def execAdds (d a b : Reg5) (h : BitVec 3) (s : State) : Host.Outcome State Fault Refusal :=
  aluOp (wAdds d a b h) d a b (fun x y => x + (y <<< h.toNat)) s

/-- `addi` (R68). -/
def execAddi (d a : Reg5) (i : BitVec 16) (s : State) : Host.Outcome State Fault Refusal := immOp (wAddi d a i) d a i (fun x k => x + k) s

/-- `andi` (R68). -/
def execAndi (d a : Reg5) (i : BitVec 16) (s : State) : Host.Outcome State Fault Refusal := immOp (wAndi d a i) d a i (fun x k => x &&& k) s

/-- `ori` (R68). -/
def execOri (d a : Reg5) (i : BitVec 16) (s : State) : Host.Outcome State Fault Refusal := immOp (wOri d a i) d a i (fun x k => x ||| k) s

/-- `xori` (R68). -/
def execXori (d a : Reg5) (i : BitVec 16) (s : State) : Host.Outcome State Fault Refusal := immOp (wXori d a i) d a i (fun x k => x ^^^ k) s

/-- `slti` (R68). -/
def execSlti (d a : Reg5) (i : BitVec 16) (s : State) : Host.Outcome State Fault Refusal := immOp (wSlti d a i) d a i (fun x k => boolWord (x.slt k)) s

/-- `sltiu` (R68). -/
def execSltiu (d a : Reg5) (i : BitVec 16) (s : State) : Host.Outcome State Fault Refusal := immOp (wSltiu d a i) d a i (fun x k => boolWord (x.ult k)) s

/-- `slli` (R69). -/
def execSlli (d a : Reg5) (h : BitVec 6) (s : State) : Host.Outcome State Fault Refusal := shiftOp (wSlli d a h) d a h (fun x n => x <<< n) s

/-- `srli` (R69). -/
def execSrli (d a : Reg5) (h : BitVec 6) (s : State) : Host.Outcome State Fault Refusal := shiftOp (wSrli d a h) d a h (fun x n => x >>> n) s

/-- `srai` (R69). -/
def execSrai (d a : Reg5) (h : BitVec 6) (s : State) : Host.Outcome State Fault Refusal := shiftOp (wSrai d a h) d a h (fun x n => x.sshiftRight n) s

/-- `lhi` (R70): s[d] := sext(imm21) << 11. -/
def execLhi (d : Reg5) (i : BitVec 21) (s : State) : Host.Outcome State Fault Refusal :=
  scalarReg { word := wLhi d i } d (fun _ => (i.signExtend 64) <<< 11) s

/-- `apc` (R70): s[d] := PC + (sext(imm21) << 11). -/
def execApc (d : Reg5) (i : BitVec 21) (s : State) : Host.Outcome State Fault Refusal :=
  scalarReg { word := wApc d i } d (fun h => h.pc + ((i.signExtend 64) <<< 11)) s

/-- `mul` (R71, R72). -/
def execMul (d a b : Reg5) (s : State) : Host.Outcome State Fault Refusal := aluOp (wMul d a b) d a b (fun x y => x * y) s

/-- `mulh` (R71, R72). -/
def execMulh (d a b : Reg5) (s : State) : Host.Outcome State Fault Refusal := aluOp (wMulh d a b) d a b (fun x y => BitVec.ofInt 64 (x.toInt * y.toInt / 2 ^ 64)) s

/-- `mulhu` (R71, R72). -/
def execMulhu (d a b : Reg5) (s : State) : Host.Outcome State Fault Refusal := aluOp (wMulhu d a b) d a b (fun x y => BitVec.ofNat 64 (x.toNat * y.toNat / 2 ^ 64)) s

/-- `mulhsu` (R71, R72). -/
def execMulhsu (d a b : Reg5) (s : State) : Host.Outcome State Fault Refusal := aluOp (wMulhsu d a b) d a b (fun x y => BitVec.ofInt 64 (x.toInt * y.toNat / 2 ^ 64)) s

/-- `div` (R71, R72). -/
def execDiv (d a b : Reg5) (s : State) : Host.Outcome State Fault Refusal := aluOp (wDiv d a b) d a b (divSigned) s

/-- `divu` (R71, R72). -/
def execDivu (d a b : Reg5) (s : State) : Host.Outcome State Fault Refusal := aluOp (wDivu d a b) d a b (fun x y => if y = 0 then BitVec.allOnes 64 else BitVec.ofNat 64 (x.toNat / y.toNat)) s

/-- `rem` (R71, R72). -/
def execRem (d a b : Reg5) (s : State) : Host.Outcome State Fault Refusal := aluOp (wRem d a b) d a b (remSigned) s

/-- `remu` (R71, R72). -/
def execRemu (d a b : Reg5) (s : State) : Host.Outcome State Fault Refusal := aluOp (wRemu d a b) d a b (fun x y => if y = 0 then x else BitVec.ofNat 64 (x.toNat % y.toNat)) s

/-- `clz` (R73). -/
def execClz (d a : Reg5) (s : State) : Host.Outcome State Fault Refusal := bitOp (wClz d a) d a (clz64) s

/-- `ctz` (R73). -/
def execCtz (d a : Reg5) (s : State) : Host.Outcome State Fault Refusal := bitOp (wCtz d a) d a (ctz64) s

/-- `pop` (R73). -/
def execPop (d a : Reg5) (s : State) : Host.Outcome State Fault Refusal := bitOp (wPop d a) d a (pop64) s

/-- `rev8` (R73). -/
def execRev8 (d a : Reg5) (s : State) : Host.Outcome State Fault Refusal := bitOp (wRev8 d a) d a (rev8Word) s

/-- `sextb` (R73). -/
def execSextb (d a : Reg5) (s : State) : Host.Outcome State Fault Refusal := bitOp (wSextb d a) d a (fun x => (x.setWidth 8).signExtend 64) s

/-- `sexth` (R73). -/
def execSexth (d a : Reg5) (s : State) : Host.Outcome State Fault Refusal := bitOp (wSexth d a) d a (fun x => (x.setWidth 16).signExtend 64) s

/-- `sextw` (R73). -/
def execSextw (d a : Reg5) (s : State) : Host.Outcome State Fault Refusal := bitOp (wSextw d a) d a (fun x => (x.setWidth 32).signExtend 64) s

/-- `zextw` (R73). -/
def execZextw (d a : Reg5) (s : State) : Host.Outcome State Fault Refusal := bitOp (wZextw d a) d a (fun x => (x.setWidth 32).setWidth 64) s

end Sys2Proof.Machine
end

