-- ==== Sys2Proof/Machine/VecPerm.lean ====
section
/-! DEFINITION. Permutations and selection (04 R100, R117, R118). -/

namespace Sys2Proof.Machine

open Sys2Proof

/-- A permutation (R117): each element of the list `f` gives is written; `forbid` marks the forms whose destination may share no register
with a source (R100), `below` those that read source elements below VSTART. -/
def permOp (hdr : Hdr) (forbid below : Bool) (masked : Bool) (srcs : Hart → List VOpd) (d : Reg5)
    (f : Hart → (Nat → Nat → Nat) → List (Nat × Nat)) (s : State) : Host.Outcome State Fault Refusal :=
  vecRun hdr (fun _ => false)
    (fun h => if forbid then anyOverlap (srcs h) [h.opd d] else partialOverlaps (srcs h) [h.opd d]) masked srcs (fun h => [h.opd d])
    (fun s so src => s.reading (if below then so.map (fun o => (o, 0, s.hart.vl)) else [])
      (s.putResult hdr s.hart.vl so (s.hart.opd d) (f s.hart src) (fun _ s => s))) s

/-- The header of a permutation, XLANE but for three forms (Table 4-2), whose identical registers always overlap. -/
def permHdr (w : IWord) (j : BitVec 1) (same : Bool) : Hdr := { vhdr w .xlane j with bad07 := same }

/-- `vslup` (Table 4-9). -/
def execVslup (d a b : Reg5) (m : Reg3) (j : BitVec 1) (s : State) : Host.Outcome State Fault Refusal :=
  permOp (permHdr (wVslup d a b m j) j (d == a)) true true (m != 0) (fun h => [h.opd a]) d
    (fun h src => ((h.active m h.vl).filter (fun i => decide ((h.gs b).toNat ≤ i))).map (fun i => (i, src 0 (i - (h.gs b).toNat)))) s

/-- `vsldn` (Table 4-9). -/
def execVsldn (d a b : Reg5) (m : Reg3) (j : BitVec 1) (s : State) : Host.Outcome State Fault Refusal :=
  permOp (permHdr (wVsldn d a b m j) j (d == a)) true false (m != 0) (fun h => [h.opd a]) d
    (fun h src => (h.active m h.vl).map (fun i => (i, if i + (h.gs b).toNat < h.vl then src 0 (i + (h.gs b).toNat) else 0))) s

/-- `vperm` (Table 4-9). -/
def execVperm (d a b : Reg5) (m : Reg3) (j : BitVec 1) (s : State) : Host.Outcome State Fault Refusal :=
  permOp (permHdr (wVperm d a b m j) j (d == a || d == b)) true true (m != 0) (fun h => [h.opd a, h.opd b]) d
    (fun h src => (h.active m h.vl).map (fun i => (i, if src 1 i < h.vl then src 0 (src 1 i) else 0))) s

/-- The elements from VSTART to VL - 1 that a selector marks; selector 0 marks all (Table 4-9). -/
def Hart.selected (h : Hart) (m : Reg3) : List Nat := h.active m h.vl

/-- `vcomp` (Table 4-9). -/
def execVcomp (d a : Reg5) (m : Reg3) (j : BitVec 1) (s : State) : Host.Outcome State Fault Refusal :=
  permOp (permHdr (wVcomp d a m j) j (d == a)) true false (m != 0) (fun h => [h.opd a]) d
    (fun h src => (h.selected m).mapIdx (fun k i => (k, src 0 i))) s

/-- `vexpd` (Table 4-9). -/
def execVexpd (d a : Reg5) (m : Reg3) (j : BitVec 1) (s : State) : Host.Outcome State Fault Refusal :=
  permOp (permHdr (wVexpd d a m j) j (d == a)) true true (m != 0) (fun h => [h.opd a]) d
    (fun h src => (h.selected m).mapIdx (fun k i => (i, src 0 k))) s

/-- `vbcs` (Table 4-9). -/
def execVbcs (d b : Reg5) (m : Reg3) (j : BitVec 1) (s : State) : Host.Outcome State Fault Refusal :=
  permOp (vhdr (wVbcs d b m j) .valu j) false false (m != 0) (fun _ => []) d
    (fun h _ => (h.active m h.vl).map (fun i => (i, (h.gs b).toNat % 2 ^ h.sew))) s

/-- `vext` (Table 4-9): 0 where k is at or above VL; sign-extended for FMT 0. With VL = 0 it leaves s[sd] undisturbed (R43). -/
def execVext (d a b : Reg5) (j : BitVec 1) (s : State) : Host.Outcome State Fault Refusal :=
  vecRun { vhdr (wVext d a b j) .xlane j with swrites := [d] } (fun _ => false) (fun _ => false) false (fun h => [h.opd a]) (fun _ => [])
    (fun s so src =>
      let h := s.hart
      let k := (h.gs b).toNat
      if h.vl = 0 then .next s
      else
        s.reading (if k < h.vl then so.map (fun o => (o, k, k + 1)) else [])
          (.next ((s.consume so).ps d (if k < h.vl then BitVec.ofInt 64 (bitsInt (h.fmt == 0) h.sew (src 0 k)) else 0)))) s

/-- `vins` (Table 4-9). -/
def execVins (d a b : Reg5) (j : BitVec 1) (s : State) : Host.Outcome State Fault Refusal :=
  permOp (vhdr (wVins d a b j) .valu j) false false false (fun _ => []) d
    (fun h _ =>
      let k := (h.gs b).toNat
      if h.vstart.toNat ≤ k && k < h.vl then [(k, (h.gs a).toNat % 2 ^ h.sew)] else []) s

/-- `vid` (Table 4-9). -/
def execVid (d : Reg5) (m : Reg3) (j : BitVec 1) (s : State) : Host.Outcome State Fault Refusal :=
  permOp (vhdr (wVid d m j) .valu j) false false (m != 0) (fun _ => []) d (fun h _ => (h.active m h.vl).map (fun i => (i, i % 2 ^ h.sew))) s

/-- `viota` (Table 4-9). -/
def execViota (d a : Reg5) (m : Reg3) (j : BitVec 1) (s : State) : Host.Outcome State Fault Refusal :=
  permOp (vhdr (wViota d a m j) .xlane j) false false (m != 0) (fun _ => []) d
    (fun h _ => (h.active m h.vl).map (fun i => (i, popBits i (h.gm a.toNat).toNat % 2 ^ h.sew))) s

/-- `vrev` (Table 4-9). -/
def execVrev (d a : Reg5) (m : Reg3) (j : BitVec 1) (s : State) : Host.Outcome State Fault Refusal :=
  permOp (permHdr (wVrev d a m j) j (d == a)) true true (m != 0) (fun h => [h.opd a]) d
    (fun h src => (h.active m h.vl).map (fun i => (i, src 0 (h.vl - 1 - i)))) s

/-- `vzip` (Table 4-9). -/
def execVzip (d a b : Reg5) (m : Reg3) (j : BitVec 1) (s : State) : Host.Outcome State Fault Refusal :=
  permOp (permHdr (wVzip d a b m j) j (d == a || d == b)) true true (m != 0) (fun h => [h.opd a, h.opd b]) d
    (fun h src => (h.active m h.vl).map (fun i => (i, if i % 2 = 0 then src 0 (i / 2) else src 1 ((i - 1) / 2)))) s

/-- `vuzp` (Table 4-9). -/
def execVuzp (d a b : Reg5) (m : Reg3) (j : BitVec 1) (s : State) : Host.Outcome State Fault Refusal :=
  permOp (permHdr (wVuzp d a b m j) j (d == a || d == b)) true true (m != 0) (fun h => [h.opd a, h.opd b]) d
    (fun h src => (h.active m h.vl).map (fun i => (i, if 2 * i < h.vl then src 0 (2 * i) else src 1 (2 * i - h.vl)))) s

/-! ### vtopk (R118) -/

/-- Element code x ranks strictly above y under the format of VTYPE (R118). -/
def Hart.ranksAbove (h : Hart) (x y : Nat) : Bool :=
  match h.ffmt with
  | none => decide (bitsInt h.signed h.sew y < bitsInt h.signed h.sew x)
  | some f =>
    let u := f.read x
    let v := f.read y
    if u.isNan then false else if v.isNan then true else v.lt u

/-- An entry put into a ranking before the first that it ranks above; of equal values the earlier index stays ahead (R118). -/
def rankInsert (above : Nat → Nat → Bool) (p : Nat × Nat) : List (Nat × Nat) → List (Nat × Nat)
  | [] => [p]
  | q :: qs => if above p.2 q.2 then p :: q :: qs else q :: rankInsert above p qs

/-- The first k of the ranking of index and code pairs in ascending index order (R118). -/
def rankTop (above : Nat → Nat → Bool) (k : Nat) (ps : List (Nat × Nat)) : List (Nat × Nat) :=
  ps.foldl (fun acc p => (rankInsert above p acc).take k) []

/-- NEG(FMT) (R118). -/
def Hart.negCode (h : Hart) : Nat :=
  match h.ffmt with
  | none => if h.fmt = 1 then 0 else 2 ^ (h.sew - 1)
  | some f => f.code true (if f.hasInf then f.maxCode + 1 else f.maxCode)

/-- A ranked float code as it is written: NaN as the canonical NaN (R118). -/
def Hart.rankCode (h : Hart) (c : Nat) : Nat :=
  match h.ffmt with
  | none => c
  | some f => if (f.read c).isNan then f.nanCode else c

/-- `vtopk` (R118). -/
def execVtopk (d a b : Reg5) (m : Reg3) (j : BitVec 1) (s : State) : Host.Outcome State Fault Refusal :=
  let one := fun (r : Reg5) (w : Nat) => (⟨r, 1, w⟩ : VOpd)
  let hdr := { permHdr (wVtopk d a b m j) j (d == a || d + 1 == a) with swrites := [b] }
  vecRun hdr
    (fun h => let k := (h.gs b).toNat; k == 0 || decide (256 < k) || decide (16 * h.lanes < k) || decide (h.perReg h.sew < k))
    (fun h => anyOverlap [h.opd a] [one d h.sew, one (d + 1) 32]) (m != 0) (fun h => [h.opd a]) (fun h => [one d h.sew, one (d + 1) 32])
    (fun s so src =>
      let h := s.hart
      let k := (h.gs b).toNat
      if h.vl = 0 then .next ((s.consume so).ps b 0)
      else
        let top := rankTop h.ranksAbove k ((h.active m h.vl).map (fun i => (i, src 0 i)))
        let c := top.length
        let vals := top.mapIdx (fun n p => (n, h.rankCode p.2)) ++ (List.range (k - c)).map (fun n => (c + n, h.negCode))
        let idxs := top.mapIdx (fun n p => (n, p.1)) ++ (List.range (k - c)).map (fun n => (c + n, 2 ^ 32 - 1))
        match s.putResult hdr h.vl so (one d h.sew) vals (fun _ s => s) with
        | .next s1 => s1.putResult hdr h.vl [] (one (d + 1) 32) idxs (fun _ s => s.ps b (BitVec.ofNat 64 c))
        | e => e) s

end Sys2Proof.Machine
end

