-- ==== Sys2Proof/Machine/VecRed.lean ====
section
/-! DEFINITION. Reductions to a scalar (02 R43, R58 to R61, 04 R116). -/

namespace Sys2Proof.Machine

open Sys2Proof

/-- A float sum as it is formed: the value, the exceptions so far, and the choices taken. -/
structure FSum where
  val  : FVal
  exc  : Exc
  used : Nat

/-- One f32 addition under a mode (R58, R59). -/
def fadd32 (rm : RM) (a b : FVal) : FVal × Exc :=
  let (c, e) := toF32 rm (FVal.add rm a b)
  (FName.f32.read c, e)

/-- One level of the pairwise tree: neighbours added (R58). -/
def treeLevel (rm : RM) : List FVal → Exc → List FVal × Exc
  | a :: b :: rest, e =>
    let (x, e1) := fadd32 rm a b
    let (xs, e2) := treeLevel rm rest (e.or e1)
    (x :: xs, e2)
  | xs, e => (xs, e)

/-- The five levels of a block of 32 terms (R58). -/
def treeSum (rm : RM) : Nat → List FVal → Exc → FVal × Exc
  | 0, xs, e => (xs.headD (.num true 0 0), e)
  | n + 1, xs, e =>
    let (ys, e1) := treeLevel rm xs e
    treeSum rm n ys e1

/-- The sum of the blocks in ascending order (R58): `term i` is the term of element i, or none where it is absent or inactive. -/
def blockSum (rm : RM) (term : Nat → Option FVal) (vl : Nat) (init : FVal) : FVal × Exc :=
  (List.range ((vl + 31) / 32)).foldl (fun acc b =>
    let (t, e) := treeSum rm 5 ((List.range 32).map (fun j => (term (32 * b + j)).getD (.num true 0 0))) {}
    let (x, e1) := fadd32 rm acc.1 t
    (x, (acc.2.or e).or e1)) (init, {})

/-- The value of some full binary tree over the leaves (R59): two trees, chosen freely, are joined until one is left (log 8). -/
def openSum (rm : RM) (free : Nat) : Nat → List FVal → FSum → FSum
  | 0, _, acc => acc
  | n + 1, xs, acc =>
    match xs with
    | [] => acc
    | [x] => { acc with val := x }
    | _ =>
      let i := Config.pick (free + acc.used) % xs.length
      let rest := xs.eraseIdx i
      let k := Config.pick (free + acc.used + 1) % rest.length
      let (y, e) := fadd32 rm (xs.getD i .nan) (rest.getD k .nan)
      openSum rm free n (y :: rest.eraseIdx k) { acc with exc := acc.exc.or e, used := acc.used + 2 }

/-- Products that are rounded as leaves of their own, each by a free choice (R59). -/
def openLeaves (rm : RM) (free : Nat) : List FVal → List FVal × Exc × Nat
  | [] => ([], {}, 0)
  | x :: xs =>
    let (ys, e, n) := openLeaves rm (free + 1) xs
    if Config.pick free % 2 = 0 then (x :: ys, e, n + 1)
    else
      let (c, e1) := toF32 rm (x, {})
      (FName.f32.read c :: ys, e.or e1, n + 1)

/-- A float written to an s register (R44). -/
def f32Word (v : FVal) : Word := BitVec.ofNat 64 (FName.f32.round .rne false v).1

/-- The header of a reduction: XLANE, writing s[sd] (R94, R99). -/
def redHdr (w : IWord) (d : Reg5) (j : BitVec 1) : Hdr := { vhdr w .xlane j with swrites := [d] }

/-- An integer reduction (R61, R116): `signed` gives the extension of the elements from FMT. -/
def redInt (hdr : Hdr) (signed : Hart → Bool) (f : Word → Word → Word) (d a b : Reg5) (m : Reg3) (s : State) : Host.Outcome State Fault Refusal :=
  vecRun hdr (fun _ => false) (fun _ => false) false (fun h => [h.opd a]) (fun _ => [])
    (fun s so src =>
      let h := s.hart
      let r := (h.active m h.vl).foldl (fun acc i => f acc (BitVec.ofInt 64 (bitsInt (signed h) h.sew (src 0 i)))) (h.gs b)
      .next ((s.consume so).ps d r)) s

/-- `vredsum` (Table 4-8). -/
def execVredsum (d a b : Reg5) (m : Reg3) (j : BitVec 1) (s : State) : Host.Outcome State Fault Refusal :=
  redInt (redHdr (wVredsum d a b m j) d j) Hart.signed (fun x y => x + y) d a b m s

/-- `vredmax` (Table 4-8). -/
def execVredmax (d a b : Reg5) (m : Reg3) (j : BitVec 1) (s : State) : Host.Outcome State Fault Refusal :=
  redInt (redHdr (wVredmax d a b m j) d j) (fun _ => true) (fun x y => if x.slt y then y else x) d a b m s

/-- `vredmin` (Table 4-8). -/
def execVredmin (d a b : Reg5) (m : Reg3) (j : BitVec 1) (s : State) : Host.Outcome State Fault Refusal :=
  redInt (redHdr (wVredmin d a b m j) d j) (fun _ => true) (fun x y => if y.slt x then y else x) d a b m s

/-- `vredmaxu` (Table 4-8). -/
def execVredmaxu (d a b : Reg5) (m : Reg3) (j : BitVec 1) (s : State) : Host.Outcome State Fault Refusal :=
  redInt (redHdr (wVredmaxu d a b m j) d j) (fun _ => false) (fun x y => if x.ult y then y else x) d a b m s

/-- `vredminu` (Table 4-8). -/
def execVredminu (d a b : Reg5) (m : Reg3) (j : BitVec 1) (s : State) : Host.Outcome State Fault Refusal :=
  redInt (redHdr (wVredminu d a b m j) d j) (fun _ => false) (fun x y => if y.ult x then y else x) d a b m s

/-- `vredand` (Table 4-8). -/
def execVredand (d a b : Reg5) (m : Reg3) (j : BitVec 1) (s : State) : Host.Outcome State Fault Refusal :=
  redInt (redHdr (wVredand d a b m j) d j) Hart.signed (fun x y => x &&& y) d a b m s

/-- `vredor` (Table 4-8). -/
def execVredor (d a b : Reg5) (m : Reg3) (j : BitVec 1) (s : State) : Host.Outcome State Fault Refusal :=
  redInt (redHdr (wVredor d a b m j) d j) Hart.signed (fun x y => x ||| y) d a b m s

/-- A float reduction (R116): ILL 0x03 under FMT 0 or 1; with VL = 0 the initial value bit for bit (R43). `f` gives the result, the exceptions
and the number of free choices taken, from the active elements with their source codes; `scales` are sources read with their paired registers. -/
def redFp (hdr : Hdr) (bad07 : Hart → Bool) (srcs : Hart → List VOpd) (scales : List Reg5) (raw0 : Bool) (init : Hart → Word) (d : Reg5) (m : Reg3)
    (f : State → (Nat → Nat → Nat) → List Nat → FVal → FSum) (s : State) : Host.Outcome State Fault Refusal :=
  vecRun hdr (fun h => h.fmtIn [0, 1]) bad07 false srcs (fun _ => [])
    (fun s so src =>
      let h := s.hart
      if raw0 && h.vl == 0 then .next ((s.consume so).ps d (BitVec.ofNat 64 ((init h).toNat % 2 ^ 32)))
      else
        let r := f s src (h.active m h.vl) (f32Of (init h))
        s.reading (h.scaleOpds scales) (.next (({ s.consume so with free := s.free + r.used }.upd (·.raise r.exc)).ps d (f32Word r.val)))) s

/-- A sum of terms with their exceptions, in the order that REPRO gives (R58, R59): `rounded` terms for REPRO = 1, `exact` ones for 0, products
that may be rounded apart where `prods`. -/
def redSum (s : State) (is : List Nat) (init : FVal) (rounded exact : Nat → FVal × Exc) (prods : Bool) : FSum :=
  let h := s.hart
  if h.repro then
    let ts := is.map (fun i => (i, rounded i))
    let (v, e) := blockSum .rne (fun i => (tabGet ts i).map (·.1)) h.vl init
    ⟨v, ts.foldl (fun (acc : Exc) t => acc.or t.2.2) e, 0⟩
  else
    let ts := is.map exact
    let e0 := ts.foldl (fun (acc : Exc) t => acc.or t.2) {}
    let (ls, e1, n) := if prods then openLeaves h.vrm s.free (ts.map (·.1)) else (ts.map (·.1), {}, 0)
    openSum h.vrm s.free (ls.length + 1) (init :: ls) ⟨init, e0.or e1, n⟩

/-- A value rounded RNE to f32 as a term (R58). -/
def term32 (r : FVal × Exc) : FVal × Exc :=
  let (c, e) := toF32 .rne r
  (FName.f32.read c, e)

/-- `vfredsum` (R58, R59, Table 4-8). -/
def execVfredsum (d a b : Reg5) (m : Reg3) (j : BitVec 1) (s : State) : Host.Outcome State Fault Refusal :=
  redFp (redHdr (wVfredsum d a b m j) d j) (fun h => h.scaleBad [a] none) (fun h => [h.opd a]) [a] true (fun h => h.gs b) d m
    (fun s src is init => redSum s is init (fun i => term32 (s.hart.value a (src 0 i) i)) (fun i => s.hart.value a (src 0 i) i) false) s

/-- `vfdot` (R58, R59, Table 4-8): its initial value is s[sd]. -/
def execVfdot (d a b : Reg5) (m : Reg3) (j : BitVec 1) (s : State) : Host.Outcome State Fault Refusal :=
  let prod := fun (s : State) (src : Nat → Nat → Nat) (i : Nat) =>
    let (x, e) := s.hart.value a (src 0 i) i
    let (y, e') := s.hart.value b (src 1 i) i
    let (p, e'') := FVal.mul x y
    (p, (e.or e').or e'')
  redFp (redHdr (wVfdot d a b m j) d j) (fun h => h.scaleBad [a, b] none) (fun h => [h.opd a, h.opd b]) [a, b] true (fun h => h.gs d) d m
    (fun s src is init => redSum s is init (fun i => term32 (prod s src i)) (prod s src) true) s

/-- `vfredmax` and `vfredmin` (R61): exact; NaN where any value is. -/
def redExt (hdr : Hdr) (f : FVal → FVal → FVal) (d a b : Reg5) (m : Reg3) (s : State) : Host.Outcome State Fault Refusal :=
  redFp hdr (fun _ => false) (fun h => [h.opd a]) [] true (fun h => h.gs b) d m
    (fun s src is init => ⟨is.foldl (fun acc i => f acc (s.hart.plainValue (src 0 i))) init, {}, 0⟩) s

/-- `vfredmax` (Table 4-8). -/
def execVfredmax (d a b : Reg5) (m : Reg3) (j : BitVec 1) (s : State) : Host.Outcome State Fault Refusal :=
  redExt (redHdr (wVfredmax d a b m j) d j) FVal.maximum d a b m s

/-- `vfredmin` (Table 4-8). -/
def execVfredmin (d a b : Reg5) (m : Reg3) (j : BitVec 1) (s : State) : Host.Outcome State Fault Refusal :=
  redExt (redHdr (wVfredmin d a b m j) d j) FVal.minimum d a b m s

/-- A square rounded to f32 under a mode (R60). -/
def square32 (rm : RM) (x : FVal) : FVal × Exc :=
  let (c, e) := toF32 rm (FVal.mul x x)
  (FName.f32.read c, e)

/-- A bound of the norm (R60), every rounding in mode `rm`. -/
def normOp (hdr : Hdr) (rm : RM) (d a b : Reg5) (m : Reg3) (s : State) : Host.Outcome State Fault Refusal :=
  redFp hdr (fun _ => false) (fun h => [h.opd a]) [] false (fun h => h.gs b) d m
    (fun s src is init =>
      let h := s.hart
      let (q0, e0) := square32 rm init
      let ts := is.map (fun i => (i, square32 rm (h.plainValue (src 0 i))))
      let et := ts.foldl (fun (acc : Exc) t => acc.or t.2.2) e0
      let q : FSum :=
        if h.repro then
          let (v, e) := blockSum rm (fun i => (tabGet ts i).map (·.1)) h.vl q0
          ⟨v, et.or e, 0⟩
        else openSum rm s.free (ts.length + 1) (q0 :: ts.map (·.2.1)) ⟨q0, et, 0⟩
      let (c, e) := toF32 rm q.val.sqrt
      ⟨FName.f32.read c, q.exc.or e, q.used⟩) s

/-- `vnorm` (R60). -/
def execVnorm (d a b : Reg5) (m : Reg3) (j : BitVec 1) (s : State) : Host.Outcome State Fault Refusal :=
  normOp (redHdr (wVnorm d a b m j) d j) .rup d a b m s

/-- `vnormd` (R60). -/
def execVnormd (d a b : Reg5) (m : Reg3) (j : BitVec 1) (s : State) : Host.Outcome State Fault Refusal :=
  normOp (redHdr (wVnormd d a b m j) d j) .rdn d a b m s

end Sys2Proof.Machine
end

