-- ==== Sys2Proof/Machine/Dispatch.lean ====
section
/-! DEFINITION. The meaning of each instruction: one arm per constructor of Instr. -/

namespace Sys2Proof.Machine

open Sys2Proof

/-- The meaning of an instruction or event: what it does to the state. -/
def exec (i : Instr) (s : State) : Host.Outcome State Fault Refusal :=
  match i with
  | .add d a b => Sys2Proof.Machine.execAdd d a b s
  | .sub d a b => Sys2Proof.Machine.execSub d a b s
  | .and d a b => Sys2Proof.Machine.execAnd d a b s
  | .or d a b => Sys2Proof.Machine.execOr d a b s
  | .xor d a b => Sys2Proof.Machine.execXor d a b s
  | .andn d a b => Sys2Proof.Machine.execAndn d a b s
  | .sll d a b => Sys2Proof.Machine.execSll d a b s
  | .srl d a b => Sys2Proof.Machine.execSrl d a b s
  | .sra d a b => Sys2Proof.Machine.execSra d a b s
  | .slt d a b => Sys2Proof.Machine.execSlt d a b s
  | .sltu d a b => Sys2Proof.Machine.execSltu d a b s
  | .min d a b => Sys2Proof.Machine.execMin d a b s
  | .max d a b => Sys2Proof.Machine.execMax d a b s
  | .minu d a b => Sys2Proof.Machine.execMinu d a b s
  | .maxu d a b => Sys2Proof.Machine.execMaxu d a b s
  | .adds d a b h => Sys2Proof.Machine.execAdds d a b h s
  | .addi d a imm => Sys2Proof.Machine.execAddi d a imm s
  | .andi d a imm => Sys2Proof.Machine.execAndi d a imm s
  | .ori d a imm => Sys2Proof.Machine.execOri d a imm s
  | .xori d a imm => Sys2Proof.Machine.execXori d a imm s
  | .slti d a imm => Sys2Proof.Machine.execSlti d a imm s
  | .sltiu d a imm => Sys2Proof.Machine.execSltiu d a imm s
  | .slli d a h => Sys2Proof.Machine.execSlli d a h s
  | .srli d a h => Sys2Proof.Machine.execSrli d a h s
  | .srai d a h => Sys2Proof.Machine.execSrai d a h s
  | .lhi d imm => Sys2Proof.Machine.execLhi d imm s
  | .apc d imm => Sys2Proof.Machine.execApc d imm s
  | .mul d a b => Sys2Proof.Machine.execMul d a b s
  | .mulh d a b => Sys2Proof.Machine.execMulh d a b s
  | .mulhu d a b => Sys2Proof.Machine.execMulhu d a b s
  | .mulhsu d a b => Sys2Proof.Machine.execMulhsu d a b s
  | .div d a b => Sys2Proof.Machine.execDiv d a b s
  | .divu d a b => Sys2Proof.Machine.execDivu d a b s
  | .rem d a b => Sys2Proof.Machine.execRem d a b s
  | .remu d a b => Sys2Proof.Machine.execRemu d a b s
  | .clz d a => Sys2Proof.Machine.execClz d a s
  | .ctz d a => Sys2Proof.Machine.execCtz d a s
  | .pop d a => Sys2Proof.Machine.execPop d a s
  | .rev8 d a => Sys2Proof.Machine.execRev8 d a s
  | .sextb d a => Sys2Proof.Machine.execSextb d a s
  | .sexth d a => Sys2Proof.Machine.execSexth d a s
  | .sextw d a => Sys2Proof.Machine.execSextw d a s
  | .zextw d a => Sys2Proof.Machine.execZextw d a s
  | .ldB d a o => Sys2Proof.Machine.execLdB d a o s
  | .ldH d a o => Sys2Proof.Machine.execLdH d a o s
  | .ldW d a o => Sys2Proof.Machine.execLdW d a o s
  | .ldD d a o => Sys2Proof.Machine.execLdD d a o s
  | .ldBu d a o => Sys2Proof.Machine.execLdBu d a o s
  | .ldHu d a o => Sys2Proof.Machine.execLdHu d a o s
  | .ldWu d a o => Sys2Proof.Machine.execLdWu d a o s
  | .stB v a o => Sys2Proof.Machine.execStB v a o s
  | .stH v a o => Sys2Proof.Machine.execStH v a o s
  | .stW v a o => Sys2Proof.Machine.execStW v a o s
  | .stD v a o => Sys2Proof.Machine.execStD v a o s
  | .ldcB d a o => Sys2Proof.Machine.execLdcB d a o s
  | .ldcH d a o => Sys2Proof.Machine.execLdcH d a o s
  | .ldcW d a o => Sys2Proof.Machine.execLdcW d a o s
  | .ldcD d a o => Sys2Proof.Machine.execLdcD d a o s
  | .ldcBu d a o => Sys2Proof.Machine.execLdcBu d a o s
  | .ldcHu d a o => Sys2Proof.Machine.execLdcHu d a o s
  | .ldcWu d a o => Sys2Proof.Machine.execLdcWu d a o s
  | .amoSwp d a b w sc o => Sys2Proof.Machine.execAmoSwp d a b w sc o s
  | .amoAdd d a b w sc o => Sys2Proof.Machine.execAmoAdd d a b w sc o s
  | .amoAnd d a b w sc o => Sys2Proof.Machine.execAmoAnd d a b w sc o s
  | .amoOr d a b w sc o => Sys2Proof.Machine.execAmoOr d a b w sc o s
  | .amoXor d a b w sc o => Sys2Proof.Machine.execAmoXor d a b w sc o s
  | .amoMin d a b w sc o => Sys2Proof.Machine.execAmoMin d a b w sc o s
  | .amoMax d a b w sc o => Sys2Proof.Machine.execAmoMax d a b w sc o s
  | .amoMinu d a b w sc o => Sys2Proof.Machine.execAmoMinu d a b w sc o s
  | .amoMaxu d a b w sc o => Sys2Proof.Machine.execAmoMaxu d a b w sc o s
  | .amoCas d a b w sc o => Sys2Proof.Machine.execAmoCas d a b w sc o s
  | .beq a b o => Sys2Proof.Machine.execBeq a b o s
  | .bne a b o => Sys2Proof.Machine.execBne a b o s
  | .blt a b o => Sys2Proof.Machine.execBlt a b o s
  | .bge a b o => Sys2Proof.Machine.execBge a b o s
  | .bltu a b o => Sys2Proof.Machine.execBltu a b o s
  | .bgeu a b o => Sys2Proof.Machine.execBgeu a b o s
  | .jal d imm => Sys2Proof.Machine.execJal d imm s
  | .jalr d a imm => Sys2Proof.Machine.execJalr d a imm s
  | .vloop a o => Sys2Proof.Machine.execVloop a o s
  | .fadd d a b r => Sys2Proof.Machine.execFadd d a b r s
  | .fsub d a b r => Sys2Proof.Machine.execFsub d a b r s
  | .fmul d a b r => Sys2Proof.Machine.execFmul d a b r s
  | .fdiv d a b r => Sys2Proof.Machine.execFdiv d a b r s
  | .fsqrt d a r => Sys2Proof.Machine.execFsqrt d a r s
  | .fma d a b r => Sys2Proof.Machine.execFma d a b r s
  | .fmin d a b r => Sys2Proof.Machine.execFmin d a b r s
  | .fmax d a b r => Sys2Proof.Machine.execFmax d a b r s
  | .feq d a b r => Sys2Proof.Machine.execFeq d a b r s
  | .flt d a b r => Sys2Proof.Machine.execFlt d a b r s
  | .fle d a b r => Sys2Proof.Machine.execFle d a b r s
  | .fcvtWS d a r => Sys2Proof.Machine.execFcvtWS d a r s
  | .fcvtSW d a r => Sys2Proof.Machine.execFcvtSW d a r s
  | .fcvtBfS d a r => Sys2Proof.Machine.execFcvtBfS d a r s
  | .fcvtSBf d a r => Sys2Proof.Machine.execFcvtSBf d a r s
  | .fln d a r => Sys2Proof.Machine.execFln d a r s
  | .fexp d a r => Sys2Proof.Machine.execFexp d a r s
  | .sys => Sys2Proof.Machine.execSys s
  | .brk => Sys2Proof.Machine.execBrk s
  | .tret => Sys2Proof.Machine.execTret s
  | .wfi => Sys2Proof.Machine.execWfi s
  | .mwait d a b => Sys2Proof.Machine.execMwait d a b s
  | .fence sc => Sys2Proof.Machine.execFence sc s
  | .fenceSv => Sys2Proof.Machine.execFenceSv s
  | .fenceVs => Sys2Proof.Machine.execFenceVs s
  | .fenceC => Sys2Proof.Machine.execFenceC s
  | .vsetl d a b => Sys2Proof.Machine.execVsetl d a b s
  | .vsetli d a t => Sys2Proof.Machine.execVsetli d a t s
  | .getc d c => Sys2Proof.Machine.execGetc d c s
  | .setc a c => Sys2Proof.Machine.execSetc a c s
  | .tas d n => Sys2Proof.Machine.execTas d n s
  | .sclr n => Sys2Proof.Machine.execSclr n s
  | .sset n => Sys2Proof.Machine.execSset n s
  | .stst d n => Sys2Proof.Machine.execStst d n s
  | .cdrd d n => Sys2Proof.Machine.execCdrd d n s
  | .cdwr a n => Sys2Proof.Machine.execCdwr a n s
  | .gbar a => Sys2Proof.Machine.execGbar a s
  | .gbarA a => Sys2Proof.Machine.execGbarA a s
  | .gbarW d => Sys2Proof.Machine.execGbarW d s
  | .gbarR => Sys2Proof.Machine.execGbarR s
  | .wtake d a => Sys2Proof.Machine.execWtake d a s
  | .wput d a n => Sys2Proof.Machine.execWput d a n s
  | .vaddVv d a b m x j => Sys2Proof.Machine.execVaddVv d a b m x j s
  | .vaddVs d a b m x j => Sys2Proof.Machine.execVaddVs d a b m x j s
  | .vaddVi d a imm m x j => Sys2Proof.Machine.execVaddVi d a imm m x j s
  | .vsubVv d a b m x j => Sys2Proof.Machine.execVsubVv d a b m x j s
  | .vsubVs d a b m x j => Sys2Proof.Machine.execVsubVs d a b m x j s
  | .vsubVi d a imm m x j => Sys2Proof.Machine.execVsubVi d a imm m x j s
  | .vmulVv d a b m x j => Sys2Proof.Machine.execVmulVv d a b m x j s
  | .vmulVs d a b m x j => Sys2Proof.Machine.execVmulVs d a b m x j s
  | .vmulVi d a imm m x j => Sys2Proof.Machine.execVmulVi d a imm m x j s
  | .vmulhVv d a b m x j => Sys2Proof.Machine.execVmulhVv d a b m x j s
  | .vmulhVs d a b m x j => Sys2Proof.Machine.execVmulhVs d a b m x j s
  | .vmulhVi d a imm m x j => Sys2Proof.Machine.execVmulhVi d a imm m x j s
  | .vmaccVv d a b m x j => Sys2Proof.Machine.execVmaccVv d a b m x j s
  | .vmaccVs d a b m x j => Sys2Proof.Machine.execVmaccVs d a b m x j s
  | .vmaccVi d a imm m x j => Sys2Proof.Machine.execVmaccVi d a imm m x j s
  | .vnmsacVv d a b m x j => Sys2Proof.Machine.execVnmsacVv d a b m x j s
  | .vnmsacVs d a b m x j => Sys2Proof.Machine.execVnmsacVs d a b m x j s
  | .vnmsacVi d a imm m x j => Sys2Proof.Machine.execVnmsacVi d a imm m x j s
  | .vminVv d a b m x j => Sys2Proof.Machine.execVminVv d a b m x j s
  | .vminVs d a b m x j => Sys2Proof.Machine.execVminVs d a b m x j s
  | .vminVi d a imm m x j => Sys2Proof.Machine.execVminVi d a imm m x j s
  | .vmaxVv d a b m x j => Sys2Proof.Machine.execVmaxVv d a b m x j s
  | .vmaxVs d a b m x j => Sys2Proof.Machine.execVmaxVs d a b m x j s
  | .vmaxVi d a imm m x j => Sys2Proof.Machine.execVmaxVi d a imm m x j s
  | .vminuVv d a b m x j => Sys2Proof.Machine.execVminuVv d a b m x j s
  | .vminuVs d a b m x j => Sys2Proof.Machine.execVminuVs d a b m x j s
  | .vminuVi d a imm m x j => Sys2Proof.Machine.execVminuVi d a imm m x j s
  | .vmaxuVv d a b m x j => Sys2Proof.Machine.execVmaxuVv d a b m x j s
  | .vmaxuVs d a b m x j => Sys2Proof.Machine.execVmaxuVs d a b m x j s
  | .vmaxuVi d a imm m x j => Sys2Proof.Machine.execVmaxuVi d a imm m x j s
  | .vandVv d a b m x j => Sys2Proof.Machine.execVandVv d a b m x j s
  | .vandVs d a b m x j => Sys2Proof.Machine.execVandVs d a b m x j s
  | .vandVi d a imm m x j => Sys2Proof.Machine.execVandVi d a imm m x j s
  | .vorVv d a b m x j => Sys2Proof.Machine.execVorVv d a b m x j s
  | .vorVs d a b m x j => Sys2Proof.Machine.execVorVs d a b m x j s
  | .vorVi d a imm m x j => Sys2Proof.Machine.execVorVi d a imm m x j s
  | .vxorVv d a b m x j => Sys2Proof.Machine.execVxorVv d a b m x j s
  | .vxorVs d a b m x j => Sys2Proof.Machine.execVxorVs d a b m x j s
  | .vxorVi d a imm m x j => Sys2Proof.Machine.execVxorVi d a imm m x j s
  | .vsllVv d a b m x j => Sys2Proof.Machine.execVsllVv d a b m x j s
  | .vsllVs d a b m x j => Sys2Proof.Machine.execVsllVs d a b m x j s
  | .vsllVi d a imm m x j => Sys2Proof.Machine.execVsllVi d a imm m x j s
  | .vsrlVv d a b m x j => Sys2Proof.Machine.execVsrlVv d a b m x j s
  | .vsrlVs d a b m x j => Sys2Proof.Machine.execVsrlVs d a b m x j s
  | .vsrlVi d a imm m x j => Sys2Proof.Machine.execVsrlVi d a imm m x j s
  | .vsraVv d a b m x j => Sys2Proof.Machine.execVsraVv d a b m x j s
  | .vsraVs d a b m x j => Sys2Proof.Machine.execVsraVs d a b m x j s
  | .vsraVi d a imm m x j => Sys2Proof.Machine.execVsraVi d a imm m x j s
  | .vsadd d a b m x j => Sys2Proof.Machine.execVsadd d a b m x j s
  | .vsaddu d a b m x j => Sys2Proof.Machine.execVsaddu d a b m x j s
  | .vssub d a b m x j => Sys2Proof.Machine.execVssub d a b m x j s
  | .vssubu d a b m x j => Sys2Proof.Machine.execVssubu d a b m x j s
  | .vavg d a b m x j => Sys2Proof.Machine.execVavg d a b m x j s
  | .vavgu d a b m x j => Sys2Proof.Machine.execVavgu d a b m x j s
  | .vmerge d a b m j => Sys2Proof.Machine.execVmerge d a b m j s
  | .vmv d a j => Sys2Proof.Machine.execVmv d a j s
  | .vnsra d a b m x j => Sys2Proof.Machine.execVnsra d a b m x j s
  | .vwmul d a b m j => Sys2Proof.Machine.execVwmul d a b m j s
  | .vwadd d a b m j => Sys2Proof.Machine.execVwadd d a b m j s
  | .vdot4 d a b m j => Sys2Proof.Machine.execVdot4 d a b m j s
  | .vfaddVv d a b m x j => Sys2Proof.Machine.execVfaddVv d a b m x j s
  | .vfaddVs d a b m x j => Sys2Proof.Machine.execVfaddVs d a b m x j s
  | .vfsubVv d a b m x j => Sys2Proof.Machine.execVfsubVv d a b m x j s
  | .vfsubVs d a b m x j => Sys2Proof.Machine.execVfsubVs d a b m x j s
  | .vfmulVv d a b m x j => Sys2Proof.Machine.execVfmulVv d a b m x j s
  | .vfmulVs d a b m x j => Sys2Proof.Machine.execVfmulVs d a b m x j s
  | .vfdivVv d a b m x j => Sys2Proof.Machine.execVfdivVv d a b m x j s
  | .vfdivVs d a b m x j => Sys2Proof.Machine.execVfdivVs d a b m x j s
  | .vfmaVv d a b m x j => Sys2Proof.Machine.execVfmaVv d a b m x j s
  | .vfmaVs d a b m x j => Sys2Proof.Machine.execVfmaVs d a b m x j s
  | .vfnmaVv d a b m x j => Sys2Proof.Machine.execVfnmaVv d a b m x j s
  | .vfnmaVs d a b m x j => Sys2Proof.Machine.execVfnmaVs d a b m x j s
  | .vfminVv d a b m x j => Sys2Proof.Machine.execVfminVv d a b m x j s
  | .vfminVs d a b m x j => Sys2Proof.Machine.execVfminVs d a b m x j s
  | .vfmaxVv d a b m x j => Sys2Proof.Machine.execVfmaxVv d a b m x j s
  | .vfmaxVs d a b m x j => Sys2Proof.Machine.execVfmaxVs d a b m x j s
  | .vfsgnjVv d a b m x j => Sys2Proof.Machine.execVfsgnjVv d a b m x j s
  | .vfsgnjVs d a b m x j => Sys2Proof.Machine.execVfsgnjVs d a b m x j s
  | .vfexpbVv d a b m x j => Sys2Proof.Machine.execVfexpbVv d a b m x j s
  | .vfexpbVs d a b m x j => Sys2Proof.Machine.execVfexpbVs d a b m x j s
  | .vfwmaVv d a b m x j => Sys2Proof.Machine.execVfwmaVv d a b m x j s
  | .vfwmaVs d a b m x j => Sys2Proof.Machine.execVfwmaVs d a b m x j s
  | .vfsqrt d a m x j => Sys2Proof.Machine.execVfsqrt d a m x j s
  | .vfrsqe d a m x j => Sys2Proof.Machine.execVfrsqe d a m x j s
  | .vfrece d a m x j => Sys2Proof.Machine.execVfrece d a m x j s
  | .vfln d a m x j => Sys2Proof.Machine.execVfln d a m x j s
  | .vfexp d a m x j => Sys2Proof.Machine.execVfexp d a m x j s
  | .vfcvt d a c m x j => Sys2Proof.Machine.execVfcvt d a c m x j s
  | .vpack d a x j => Sys2Proof.Machine.execVpack d a x j s
  | .vunpk d a j => Sys2Proof.Machine.execVunpk d a j s
  | .vfclass d a m j => Sys2Proof.Machine.execVfclass d a m j s
  | .vgmb d a m j => Sys2Proof.Machine.execVgmb d a m j s
  | .vgmbT d a b m j => Sys2Proof.Machine.execVgmbT d a b m j s
  | .vfabs d a m j => Sys2Proof.Machine.execVfabs d a m j s
  | .vfneg d a m j => Sys2Proof.Machine.execVfneg d a m j s
  | .vceqVv d a b m x j => Sys2Proof.Machine.execVceqVv d a b m x j s
  | .vceqVs d a b m x j => Sys2Proof.Machine.execVceqVs d a b m x j s
  | .vcneVv d a b m x j => Sys2Proof.Machine.execVcneVv d a b m x j s
  | .vcneVs d a b m x j => Sys2Proof.Machine.execVcneVs d a b m x j s
  | .vcltVv d a b m x j => Sys2Proof.Machine.execVcltVv d a b m x j s
  | .vcltVs d a b m x j => Sys2Proof.Machine.execVcltVs d a b m x j s
  | .vcleVv d a b m x j => Sys2Proof.Machine.execVcleVv d a b m x j s
  | .vcleVs d a b m x j => Sys2Proof.Machine.execVcleVs d a b m x j s
  | .vcgtVv d a b m x j => Sys2Proof.Machine.execVcgtVv d a b m x j s
  | .vcgtVs d a b m x j => Sys2Proof.Machine.execVcgtVs d a b m x j s
  | .vcgeVv d a b m x j => Sys2Proof.Machine.execVcgeVv d a b m x j s
  | .vcgeVs d a b m x j => Sys2Proof.Machine.execVcgeVs d a b m x j s
  | .vcltuVv d a b m x j => Sys2Proof.Machine.execVcltuVv d a b m x j s
  | .vcltuVs d a b m x j => Sys2Proof.Machine.execVcltuVs d a b m x j s
  | .vcleuVv d a b m x j => Sys2Proof.Machine.execVcleuVv d a b m x j s
  | .vcleuVs d a b m x j => Sys2Proof.Machine.execVcleuVs d a b m x j s
  | .vfceqVv d a b m x j => Sys2Proof.Machine.execVfceqVv d a b m x j s
  | .vfceqVs d a b m x j => Sys2Proof.Machine.execVfceqVs d a b m x j s
  | .vfcltVv d a b m x j => Sys2Proof.Machine.execVfcltVv d a b m x j s
  | .vfcltVs d a b m x j => Sys2Proof.Machine.execVfcltVs d a b m x j s
  | .vfcleVv d a b m x j => Sys2Proof.Machine.execVfcleVv d a b m x j s
  | .vfcleVs d a b m x j => Sys2Proof.Machine.execVfcleVs d a b m x j s
  | .vfcunVv d a b m x j => Sys2Proof.Machine.execVfcunVv d a b m x j s
  | .vfcunVs d a b m x j => Sys2Proof.Machine.execVfcunVs d a b m x j s
  | .mand d a b x j => Sys2Proof.Machine.execMand d a b x j s
  | .mor d a b x j => Sys2Proof.Machine.execMor d a b x j s
  | .mxor d a b x j => Sys2Proof.Machine.execMxor d a b x j s
  | .mandn d a b x j => Sys2Proof.Machine.execMandn d a b x j s
  | .mnot d a x j => Sys2Proof.Machine.execMnot d a x j s
  | .mmv d a x j => Sys2Proof.Machine.execMmv d a x j s
  | .mpop d a m j => Sys2Proof.Machine.execMpop d a m j s
  | .mffs d a m j => Sys2Proof.Machine.execMffs d a m j s
  | .mset d x j => Sys2Proof.Machine.execMset d x j s
  | .mclr d x j => Sys2Proof.Machine.execMclr d x j s
  | .msbf d a m x j => Sys2Proof.Machine.execMsbf d a m x j s
  | .mtov d a m x j => Sys2Proof.Machine.execMtov d a m x j s
  | .vtom d a m x j => Sys2Proof.Machine.execVtom d a m x j s
  | .vredsum d a b m j => Sys2Proof.Machine.execVredsum d a b m j s
  | .vredmax d a b m j => Sys2Proof.Machine.execVredmax d a b m j s
  | .vredmin d a b m j => Sys2Proof.Machine.execVredmin d a b m j s
  | .vredmaxu d a b m j => Sys2Proof.Machine.execVredmaxu d a b m j s
  | .vredminu d a b m j => Sys2Proof.Machine.execVredminu d a b m j s
  | .vredand d a b m j => Sys2Proof.Machine.execVredand d a b m j s
  | .vredor d a b m j => Sys2Proof.Machine.execVredor d a b m j s
  | .vfredsum d a b m j => Sys2Proof.Machine.execVfredsum d a b m j s
  | .vfredmax d a b m j => Sys2Proof.Machine.execVfredmax d a b m j s
  | .vfredmin d a b m j => Sys2Proof.Machine.execVfredmin d a b m j s
  | .vnorm d a b m j => Sys2Proof.Machine.execVnorm d a b m j s
  | .vnormd d a b m j => Sys2Proof.Machine.execVnormd d a b m j s
  | .vfdot d a b m j => Sys2Proof.Machine.execVfdot d a b m j s
  | .vslup d a b m j => Sys2Proof.Machine.execVslup d a b m j s
  | .vsldn d a b m j => Sys2Proof.Machine.execVsldn d a b m j s
  | .vperm d a b m j => Sys2Proof.Machine.execVperm d a b m j s
  | .vcomp d a m j => Sys2Proof.Machine.execVcomp d a m j s
  | .vexpd d a m j => Sys2Proof.Machine.execVexpd d a m j s
  | .vbcs d b m j => Sys2Proof.Machine.execVbcs d b m j s
  | .vext d a b j => Sys2Proof.Machine.execVext d a b j s
  | .vins d a b j => Sys2Proof.Machine.execVins d a b j s
  | .vid d m j => Sys2Proof.Machine.execVid d m j s
  | .viota d a m j => Sys2Proof.Machine.execViota d a m j s
  | .vrev d a m j => Sys2Proof.Machine.execVrev d a m j s
  | .vtopk d a b m j => Sys2Proof.Machine.execVtopk d a b m j s
  | .vzip d a b m j => Sys2Proof.Machine.execVzip d a b m j s
  | .vuzp d a b m j => Sys2Proof.Machine.execVuzp d a b m j s
  | .vld d a m j => Sys2Proof.Machine.execVld d a m j s
  | .vlds d a b m j => Sys2Proof.Machine.execVlds d a b m j s
  | .vldx d a b m j w => Sys2Proof.Machine.execVldx d a b m j w s
  | .vldFf d a m j => Sys2Proof.Machine.execVldFf d a m j s
  | .vldw d a j => Sys2Proof.Machine.execVldw d a j s
  | .vst v a m j => Sys2Proof.Machine.execVst v a m j s
  | .vsts v a b m j => Sys2Proof.Machine.execVsts v a b m j s
  | .vstx v a b m j w => Sys2Proof.Machine.execVstx v a b m j w s
  | .vstw v a j => Sys2Proof.Machine.execVstw v a j s
  | .vamoAdd v a b m o j => Sys2Proof.Machine.execVamoAdd v a b m o j s
  | .vamoMin v a b m o j => Sys2Proof.Machine.execVamoMin v a b m o j s
  | .vamoMax v a b m o j => Sys2Proof.Machine.execVamoMax v a b m o j s
  | .vamoAnd v a b m o j => Sys2Proof.Machine.execVamoAnd v a b m o j s
  | .vamoOr v a b m o j => Sys2Proof.Machine.execVamoOr v a b m o j s
  | .vamoXor v a b m o j => Sys2Proof.Machine.execVamoXor v a b m o j s
  | .vamoSwp v a b m o j => Sys2Proof.Machine.execVamoSwp v a b m o j s
  | .vamoFadd v a b m o j => Sys2Proof.Machine.execVamoFadd v a b m o j s
  | .vamoFmax v a b m o j => Sys2Proof.Machine.execVamoFmax v a b m o j s
  | .vlls d a m j => Sys2Proof.Machine.execVlls d a m j s
  | .vsls v a m j => Sys2Proof.Machine.execVsls v a m j s
  | .vxlt d a b m j => Sys2Proof.Machine.execVxlt d a b m j s
  | .vxltFf d a b m j => Sys2Proof.Machine.execVxltFf d a b m j s
  | .qbind n a j => Sys2Proof.Machine.execQbind n a j s
  | .qfree n j => Sys2Proof.Machine.execQfree n j s
  | .qstat d n j => Sys2Proof.Machine.execQstat d n j s
  | .vcopy d a m j => Sys2Proof.Machine.execVcopy d a m j s
  | .vcopyFf d a m j => Sys2Proof.Machine.execVcopyFf d a m j s
  | .vcopyB d a m j => Sys2Proof.Machine.execVcopyB d a m j s
  | .rset h a j => Sys2Proof.Machine.execRset h a j s
  | .rpost v h imm m j => Sys2Proof.Machine.execRpost v h imm m j s
  | .rbound d h j => Sys2Proof.Machine.execRbound d h j s
  | .rleave d h b j => Sys2Proof.Machine.execRleave d h b j s
  | .rwin d h b j => Sys2Proof.Machine.execRwin d h b j s
  | .rstat d h j => Sys2Proof.Machine.execRstat d h j s
  | .chset d h b j => Sys2Proof.Machine.execChset d h b j s
  | .chcount d h b j => Sys2Proof.Machine.execChcount d h b j s
  | .chplace d h j => Sys2Proof.Machine.execChplace d h j s
  | .chsend d h b j => Sys2Proof.Machine.execChsend d h b j s
  | .chdone d h j => Sys2Proof.Machine.execChdone d h j s
  | .chstat d h j => Sys2Proof.Machine.execChstat d h j s
  | .pld d a k z => Sys2Proof.Machine.execPld d a k z s
  | .pst v a k z => Sys2Proof.Machine.execPst v a k z s
  | .pamoSwp d a b k z => Sys2Proof.Machine.execPamoSwp d a b k z s
  | .pamoAdd d a b k z => Sys2Proof.Machine.execPamoAdd d a b k z s
  | .pamoAnd d a b k z => Sys2Proof.Machine.execPamoAnd d a b k z s
  | .pamoOr d a b k z => Sys2Proof.Machine.execPamoOr d a b k z s
  | .pamoXor d a b k z => Sys2Proof.Machine.execPamoXor d a b k z s
  | .pamoMin d a b k z => Sys2Proof.Machine.execPamoMin d a b k z s
  | .pamoMax d a b k z => Sys2Proof.Machine.execPamoMax d a b k z s
  | .pamoMinu d a b k z => Sys2Proof.Machine.execPamoMinu d a b k z s
  | .pamoMaxu d a b k z => Sys2Proof.Machine.execPamoMaxu d a b k z s
  | .pamoCas d a b k z => Sys2Proof.Machine.execPamoCas d a b k z s
  | .pvld d a m j k => Sys2Proof.Machine.execPvld d a m j k s
  | .pvldx d a b m j k => Sys2Proof.Machine.execPvldx d a b m j k s
  | .pvst v a m j k => Sys2Proof.Machine.execPvst v a m j k s
  | .pvstx v a b m j k => Sys2Proof.Machine.execPvstx v a b m j k s
  | .pvamoAdd v a b m j k => Sys2Proof.Machine.execPvamoAdd v a b m j k s
  | .qbindF n a j k => Sys2Proof.Machine.execQbindF n a j k s
  | .vcsum d a n j => Sys2Proof.Machine.execVcsum d a n j s
  | .vcmax d a n j => Sys2Proof.Machine.execVcmax d a n j s
  | .vcmin d a n j => Sys2Proof.Machine.execVcmin d a n j s
  | .vcgat d a n j => Sys2Proof.Machine.execVcgat d a n j s
  | .vcsct d a n j => Sys2Proof.Machine.execVcsct d a n j s
  | .vcbc d a n j => Sys2Proof.Machine.execVcbc d a n j s
  | .vcscan d a n j => Sys2Proof.Machine.execVcscan d a n j s
  | .gabort n j => Sys2Proof.Machine.execGabort n j s
  | .gstat d n j => Sys2Proof.Machine.execGstat d n j s
  | .tkwait d a j => Sys2Proof.Machine.execTkwait d a j s
  | .tkpoll d j => Sys2Proof.Machine.execTkpoll d j s
  | .vsave a => Sys2Proof.Machine.execVsave a s
  | .vrest a => Sys2Proof.Machine.execVrest a s
  | .brole a => Sys2Proof.Machine.execBrole a s
  | .tcfg t fc sa j => Sys2Proof.Machine.execTcfg t fc sa j s
  | .tzero t j => Sys2Proof.Machine.execTzero t j s
  | .vopa t fa fb sm a b j => Sys2Proof.Machine.execVopa t fa fb sm a b j s
  | .tld t fc r sa j => Sys2Proof.Machine.execTld t fc r sa j s
  | .tst t fc r sa j => Sys2Proof.Machine.execTst t fc r sa j s
  | .trow t r d j => Sys2Proof.Machine.execTrow t r d j s
  | .tepi t fc sm r sa j => Sys2Proof.Machine.execTepi t fc sm r sa j s
  | .gmm t b sa j => Sys2Proof.Machine.execGmm t b sa j s
  | .gmmE t b sa j => Sys2Proof.Machine.execGmmE t b sa j s
  | .cload t fc sa j => Sys2Proof.Machine.execCload t fc sa j s
  | .ctest t fc d a m x j => Sys2Proof.Machine.execCtest t fc d a m x j s
  | .cleaf d a sa m j => Sys2Proof.Machine.execCleaf d a sa m j s
  | .ctestC t fc d a m x j => Sys2Proof.Machine.execCtestC t fc d a m x j s
  | .tsave t sa j => Sys2Proof.Machine.execTsave t sa j s
  | .trest t sa j => Sys2Proof.Machine.execTrest t sa j s
  | .convoyBegin hart => Sys2Proof.Machine.execConvoyBegin hart s
  | .preemptionRequest hart => Sys2Proof.Machine.execPreemptionRequest hart s
  | .softwareInterrupt hart => Sys2Proof.Machine.execSoftwareInterrupt hart s
  | .wfiWake hart => Sys2Proof.Machine.execWfiWake hart s
  | .mwaitWake hart => Sys2Proof.Machine.execMwaitWake hart s
  | .mwaitTimeout hart => Sys2Proof.Machine.execMwaitTimeout hart s
  | .tkwaitLimit hart => Sys2Proof.Machine.execTkwaitLimit hart s
  | .tepiRowHandover hart => Sys2Proof.Machine.execTepiRowHandover hart s
  | .tepiCreditTimeout hart => Sys2Proof.Machine.execTepiCreditTimeout hart s
  | .streamFetch hart q => Sys2Proof.Machine.execStreamFetch hart q s
  | .copyElement cluster => Sys2Proof.Machine.execCopyElement cluster s
  | .pailChainApply hart => Sys2Proof.Machine.execPailChainApply hart s
  | .remoteRequest p => Sys2Proof.Machine.execRemoteRequest p s
  | .remoteAnswer seq ans => Sys2Proof.Machine.execRemoteAnswer seq ans s
  | .replayNoticeSend die ticket => Sys2Proof.Machine.execReplayNoticeSend die ticket s
  | .serviceTimeout die ticket => Sys2Proof.Machine.execServiceTimeout die ticket s
  | .replayNotice pkg page ticket ok => Sys2Proof.Machine.execReplayNotice pkg page ticket ok s
  | .churnRemoteReplay pkg page ticket ok => Sys2Proof.Machine.execChurnRemoteReplay pkg page ticket ok s
  | .collectiveArrival ctx gid rank key => Sys2Proof.Machine.execCollectiveArrival ctx gid rank key s
  | .collectiveGo hart => Sys2Proof.Machine.execCollectiveGo hart s
  | .collectiveData ctx gid remote => Sys2Proof.Machine.execCollectiveData ctx gid remote s
  | .collectiveChunk hart first data exc full => Sys2Proof.Machine.execCollectiveChunk hart first data exc full s
  | .streamChunkFull ctx group user flag seq => Sys2Proof.Machine.execStreamChunkFull ctx group user flag seq s
  | .groupAbortApply ctx gid why orig => Sys2Proof.Machine.execGroupAbortApply ctx gid why orig s
  | .linkError link => Sys2Proof.Machine.execLinkError link s
  | .laneFailure link => Sys2Proof.Machine.execLaneFailure link s
  | .packageLost pkg => Sys2Proof.Machine.execPackageLost pkg s
  | .powerMeasure mean hot => Sys2Proof.Machine.execPowerMeasure mean hot s
  | .grantRaise mean => Sys2Proof.Machine.execGrantRaise mean s
  | .endHart hart => Sys2Proof.Machine.execEndHart hart s
  | .endJob hart => Sys2Proof.Machine.execEndJob hart s
  | .yield hart => Sys2Proof.Machine.execYield hart s
  | .shootdown hart => Sys2Proof.Machine.execShootdown hart s
  | .shootdownDone hart => Sys2Proof.Machine.execShootdownDone hart s
  | .promote hart => Sys2Proof.Machine.execPromote hart s
  | .promoteCopyDone hart => Sys2Proof.Machine.execPromoteCopyDone hart s
  | .grant hart n => Sys2Proof.Machine.execGrant hart n s
  | .release hart => Sys2Proof.Machine.execRelease hart s
  | .intr hart => Sys2Proof.Machine.execIntr hart s
  | .mailboxBadFunc hart => Sys2Proof.Machine.execMailboxBadFunc hart s
  | .queueTailWrite q v => Sys2Proof.Machine.execQueueTailWrite q v s
  | .queueEnable q v => Sys2Proof.Machine.execQueueEnable q v s
  | .queueDisable q v => Sys2Proof.Machine.execQueueDisable q v s
  | .contextKill v => Sys2Proof.Machine.execContextKill v s
  | .fwInstall n cut => Sys2Proof.Machine.execFwInstall n cut s
  | .fwReset => Sys2Proof.Machine.execFwReset s
  | .hostWindowWrite off v => Sys2Proof.Machine.execHostWindowWrite off v s
  | .takeRecord q => Sys2Proof.Machine.execTakeRecord q s
  | .depsigRecheck job => Sys2Proof.Machine.execDepsigRecheck job s
  | .depsigPoll job => Sys2Proof.Machine.execDepsigPoll job s
  | .jobPlacement cluster => Sys2Proof.Machine.execJobPlacement cluster s
  | .clusterSuspend cluster => Sys2Proof.Machine.execClusterSuspend cluster s
  | .clusterResume ix cluster bad => Sys2Proof.Machine.execClusterResume ix cluster bad s
  | .jobEnd job ctxEnds => Sys2Proof.Machine.execJobEnd job ctxEnds s
  | .queueSwitchOut q => Sys2Proof.Machine.execQueueSwitchOut q s
  | .queueSwitchIn q => Sys2Proof.Machine.execQueueSwitchIn q s
  | .packageReset => Sys2Proof.Machine.execPackageReset s
  | .clk pkg => Sys2Proof.Machine.execClk pkg s
  | .d2d => Sys2Proof.Machine.execD2d s
  | .dramcal => Sys2Proof.Machine.execDramcal s
  | .llcinit => Sys2Proof.Machine.execLlcinit s
  | .wmarkAdvance die => Sys2Proof.Machine.execWmarkAdvance die s
  | .draminit => Sys2Proof.Machine.execDraminit s
  | .fabric ports present => Sys2Proof.Machine.execFabric ports present s
  | .ready => Sys2Proof.Machine.execReady s
  | .stageFail => Sys2Proof.Machine.execStageFail s
  | .attestation nonce => Sys2Proof.Machine.execAttestation nonce s
  | .patrolScrub decayed corrected => Sys2Proof.Machine.execPatrolScrub decayed corrected s
  | .hostAccess e => Sys2Proof.Machine.execHostAccess e s
  | .illegalEncoding sub word pos => Sys2Proof.Machine.execIllegalEncoding sub word pos s
  | .fetchFault addr => Sys2Proof.Machine.execFetchFault addr s
  | .hostCompletion hart => Sys2Proof.Machine.execHostCompletion hart s
  | .arrivalWithdrawal ctx gid rank applied => Sys2Proof.Machine.execArrivalWithdrawal ctx gid rank applied s

end Sys2Proof.Machine
end

