-- ==== Sys2Proof/Machine/Fetch.lean ====
section
/-! DEFINITION. Around the meanings: fetching the words at PC, which hart comes next, the moves that agents of the package may make on their own, time,
and how a request meets an instruction (01 R7, R17, 03 R82, 05 R132, 06 R149 to R151, R171). -/

namespace Sys2Proof.Machine

open Sys2Proof

/-! ### Fetch (R7, R17, R82, R171) -/

/-- What fetching a word comes to: the word, a fault in translation, another trap, or a wait for another package. -/
inductive Fetch where
  | word (s : State) (w : IWord)
  | fault (s : State) (va : Word)
  | trap (s : State) (t : Trap)
  | hold (s : State)

/-- The word that four bytes hold (R7). -/
def wordAt (bs : List Byte) : IWord := wordOfBytes (bs.getD 0 0) (bs.getD 1 0) (bs.getD 2 0) (bs.getD 3 0)

/-- The line of the instruction cache that a fetch from a location reads: the bytes it holds or those of memory, as the rule leaves open (R171,
log 11). -/
def State.fetchLine (s : State) (l : Nat) : State × List Byte :=
  let line := l / 64 * 64
  let k := coreOf s.hart.id
  let c := s.getCore k
  let now := memRead 64 line s.mem
  match tabGet c.icache line with
  | none => (s.setCore k { c with icache := tabPut c.icache line now }, now)
  | some old =>
    if old = now then (s, now)
    else if Config.pick s.free % 2 = 0 then (s.took, old)
    else ((s.setCore k { c with icache := tabPut c.icache line now }).took, now)

/-- The word at a location. -/
def State.fetchLoc (s : State) (va : Word) (l : Nat) : Fetch :=
  match s.readError s.hart.id false l 4 with
  | (s, true) => .trap (s.eccFound s.hart.id l) ⟨0x0C, va⟩
  | (s, false) =>
    if l % 64 ≤ 60 then
      let (s1, bs) := s.fetchLine l
      .word s1 (wordAt (bs.drop (l % 64)))
    else .word s (wordAt (memRead 4 l s.mem))

/-- What an answer for a fetched word comes to. -/
def State.fetchAnswer (s : State) (e : RElem) (va : Word) (r : ElemRes) : Fetch :=
  match r with
  | .done d _ => .word s (BitVec.ofNat 32 d)
  | .need p x => .hold (s.sendPackets s.hart.id 0 [(p, x)])
  | .fault (.mf _) => .fault (s.enterTickets s.hart.id [e]) va
  | .fault .rf => .trap (s.freeFailed s.hart.id .translate [e]) ⟨0x08, va⟩
  | .fault .ecc => .trap s ⟨0x0C, va⟩

/-- The word at an address; `k` tells the two words of a tile pair apart. -/
def State.fetchWord (s : State) (k : Nat) (va : Word) : Fetch :=
  let e : RElem := ⟨2 ^ 61 + k, va, 4, .load, 0, 0⟩
  match tabGet s.hart.answers e.idx with
  | some a => s.fetchAnswer e va (answerRes a)
  | none =>
    match s.translate s.hart.agent .fetch va with
    | (s1, .fault _) => .fault s1 va
    | (s1, .loc l _) => s1.fetchLoc va l
    | (s1, .host l _) => s1.fetchLoc va l
    | (s1, .peer pkg a _) => s1.fetchAnswer e va (s1.remoteNew s1.hart pkg { e with addr := a })

/-- A tile prefix (R16). -/
def isPrefix (w : IWord) : Bool := (fld w 31 26 : BitVec 6) == 0x3F

/-- What fetching an instruction comes to. -/
inductive Fetched2 where
  | words (s : State) (ws : List IWord)
  | fault (s : State) (va : Word)
  | trap (s : State) (t : Trap)
  | hold (s : State)

/-- The words at PC: one, or a prefix and the word after it (R17); an instruction that has begun and waits is not fetched again (R314). -/
def State.fetch (s : State) : Fetched2 :=
  if s.hart.cur ≠ [] then .words s s.hart.cur
  else
  match s.fetchWord 0 s.hart.pc with
  | .fault s1 va => .fault s1 va
  | .trap s1 t => .trap s1 t
  | .hold s1 => .hold s1
  | .word s1 w =>
    if isPrefix w then
      match s1.fetchWord 1 (s1.hart.pc + 4) with
      | .fault s2 va => .fault s2 va
      | .trap s2 t => .trap s2 t
      | .hold s2 => .hold s2
      | .word s2 b => .words s2 [w, b]
    else .words s1 [w]

/-! ### Which hart comes next (R149 to R151) -/

/-- A hart made the issuing one. -/
def State.swap (s : State) (id : Nat) : State :=
  if s.hart.id = id then s
  else
    let t := ({ s with harts := tabDel s.harts id } : State).putAway s.hart
    { t with hart := s.getHart id }

/-- What kept a hart from issuing is found anew; a `brole` that has issued stays so (R165). -/
def Hart.retry (h : Hart) : Hart := if h.stall = .role then h else { h with stall := .none }

/-- A hart made the issuing one, for a turn. -/
def State.focus (s : State) (id : Nat) : State := (s.swap id).upd (·.retry)

/-- An instruction, by its words, that enters the vector queue (R152): MAJ 0x20 to 0x32, 0x34, 0x35 and the tile pairs. -/
def queuedWord (ws : List IWord) : Bool :=
  let m := (ws.headD 0).toNat / 2 ^ 26
  decide (0x20 ≤ m) && (decide (m ≤ 0x32) || m == 0x34 || m == 0x35 || m == 0x3F)

/-- An instruction, by its words, that issues only when the hart's queue is empty and its last convoy has drained: the serialising ones (R66, R199, R201), `vsave`, `vrest` and
`brole` (R153). -/
def aloneWord (ws : List IWord) : Bool :=
  let w := (ws.headD 0).toNat
  let m := w / 2 ^ 26
  m == 0x1C || m == 0x1D || m == 0x1F || m == 0x36 || (m == 0x1E && (decide (w / 2 ^ 11 % 32 ≤ 3) || (decide (6 ≤ w / 2 ^ 11 % 32) && decide (w / 2 ^ 11 % 32 ≤ 9)))) ||
    (m == 0x1B && (w % 64 == 2 || (decide (5 ≤ w % 64) && decide (w % 64 ≤ 9))))

/-- A scalar store, by its words (Table 1-8). -/
def storeWord (ws : List IWord) : Bool := (ws.headD 0).toNat / 2 ^ 26 == 0x0E

/-- An instruction, by its words, that makes an entry in the address interlock (R172): the vector, VLOC, tile, engine and PVEC ones that access memory. -/
def memoryWord (ws : List IWord) : Bool :=
  let w := (ws.headD 0).toNat
  let m := w / 2 ^ 26
  let top := w / 2 ^ 21 % 32
  (decide (0x2C ≤ m) && decide (m ≤ 0x32)) || m == 0x34 || (m == 0x26 && w % 16 == 10) ||
    (m == 0x3F && ([3, 4, 6, 7, 8, 10, 12, 13] : List Nat).contains top)

/-- Instructions in the vector queue of a hart. -/
def Hart.queued (h : Hart) : Nat := (h.vq.map (·.members.length)).sum

/-- What the queues of a hart do to its next instruction (R149, R152, R169, R172): hold it before a full vector queue, store buffer or address interlock, or let it wait for the
convoys. An instruction that has begun has passed them. -/
def State.gate (s : State) (h : Hart) : Stall :=
  let idle := h.vq.isEmpty && h.busy.isEmpty
  if h.cur ≠ [] || (idle && h.sbuf.length < 8 && s.locksUsed h.id < 32) then .none
  else
    match (s.focus h.id).fetch with
    | .words _ ws =>
      if (queuedWord ws && 16 ≤ h.queued) || (storeWord ws && 8 ≤ h.sbuf.length) || (memoryWord ws && 32 ≤ s.locksUsed h.id) then .held
      else if aloneWord ws && !idle then .waiting
      else .none
    | _ => .none

/-- Why a hart that waits for nothing else cannot issue (R149): what its last attempt met, or its vector queue; `none` as far as is known. -/
def State.stallOf (s : State) (h : Hart) : Stall := if h.stall = .none then s.gate h else h.stall

/-- A `brole` of another hart of the core has issued (R164). -/
def State.roleBlocked (s : State) (id : Nat) : Bool :=
  s.allHarts.any (fun g => g.id != id && coreOf g.id == coreOf id && g.run && g.stall == .role)

/-- A hart is ready or held (R149, R150): it runs, sleeps on nothing, waits for nothing earlier, and no `brole` bars it. -/
def State.counts (s : State) (h : Hart) : Bool := h.run && h.wait == .none && !s.roleBlocked h.id && (s.stallOf h == .none || s.stallOf h == .held)

/-- A hart may issue: it runs, sleeps on nothing, its queue lets its next instruction pass, no `brole` bars it, and it has not been tried in this slot. -/
def State.mayIssue (s : State) (h : Hart) : Bool :=
  h.run && h.wait == .none && !s.tried.contains h.id && s.gate h == .none && !s.roleBlocked h.id

/-- The vector queue after an instruction has entered it at a clock (R15, R152, R156, R176): one that joins its convoy goes with it, or into it where it runs once its unit is free; one
whose convoy has finished runs alone. -/
def Hart.enqueue (h : Hart) (u : UnitClass) (joins : Bool) (now : Nat) : Hart :=
  let tile := fun (t : Option Nat) => if u = .tile then some (t.getD now) else t
  match h.vq.getLast? with
  | some q =>
    if joins then { h with vq := h.vq.dropLast ++ [{ q with members := q.members ++ [u], tile := tile q.tile }] }
    else { h with vq := h.vq ++ [⟨[u], false, tile none⟩] }
  | none => { h with vq := [⟨[u], joins && !h.busy.isEmpty, tile none⟩] }

/-- After an instruction that was issued at `pc`: where it has retired and is one of the queue's, it stands in the queue until its convoy begins. The model has
executed it already, or keeps it to be executed later (log 37). What it remembered of its translations is of no further use. -/
def State.entered (s : State) (pc : Word) (ws : List IWord) : State :=
  if queuedWord ws && s.hart.pc == pc + BitVec.ofNat 64 (4 * ws.length) then
    match s.hart.convoy with
    | none => s
    | some c => s.upd (fun h => { h.enqueue (c.members.getLastD .valu) (decide (1 < c.members.length)) s.cycle with places := [], refuse := none })
  else s

/-- WAIT of a hart (R150). -/
def State.waitOf (s : State) (id : Nat) : Nat := (s.getCore (coreOf id)).waits.toList.getD (id % 4) 0

/-- The place of a hart in cyclic order after the last one of its core that issued. -/
def State.turn (s : State) (id : Nat) : Nat := (id % 4 + 7 - (s.getCore (coreOf id)).last % 4) % 4

/-- Of the ready harts of a core, the one with the greatest WAIT, ties in cyclic order (R150). -/
def State.bestOf (s : State) : List Nat → Option Nat
  | [] => none
  | id :: ids =>
    match s.bestOf ids with
    | none => some id
    | some b => if s.waitOf b < s.waitOf id || (s.waitOf b == s.waitOf id && decide (s.turn id < s.turn b)) then some id else some b

/-- The harts that may issue. -/
def State.readyHarts (s : State) : List Nat := (s.allHarts.filter s.mayIssue).map (·.id)

/-- The hart that issues next: of one core as R150 has it; which core, where several have a ready hart, is open (log 1). -/
def State.nextHart (s : State) : Option Nat :=
  let rs := s.readyHarts
  let cores := (rs.map coreOf).eraseDups
  match cores with
  | [] => none
  | [_] => s.bestOf rs
  | _ => s.bestOf (rs.filter (fun id => coreOf id == cores.getD (Config.pick s.free % cores.length) 0))

/-! ### Time (R150, Table 2-2, log 2) -/

/-- The WAIT counters of a core after a slot in which a hart of it issued, or none (R150). -/
def State.slotWaits (s : State) (k issued : Nat) : Vector Nat 4 :=
  Vector.ofFn (fun (j : Fin 4) =>
    if k * 4 + j.val = issued then 0
    else if s.counts (s.getHart (k * 4 + j.val)) then s.waitOf (k * 4 + j.val) + 1 else 0)

/-- The end of a slot of a core. -/
def State.coreSlot (s : State) (k issued last : Nat) : State :=
  let c := s.getCore k
  let w := s.slotWaits k issued
  if c.waits = w && c.last == last then s else s.setCore k { c with waits := w, last := last }

/-- The end of a slot in which a hart issued. -/
def State.slotEnd (s : State) (issued : Nat) : State := s.coreSlot (coreOf issued) issued (issued % 4)

/-- A slot in which no hart could issue, in every core that has a hart. -/
def State.idleSlot (s : State) : State :=
  ((s.allHarts.map (fun h => coreOf h.id)).eraseDups).foldl (fun (s : State) k => s.coreSlot k noHart (s.getCore k).last) s

/-- The hart's turn has ended: it issued, and the slot ends with `tick`; or it could not, and the slot is another's (R149, R150). -/
def State.turnEnd (s : State) (id : Nat) (tick : State → State) : State :=
  if s.hart.stall = .none then tick (s.slotEnd id) else { s with tried := id :: s.tried }

/-- The harts that have writes in their buffers. -/
def State.buffering (s : State) : List Nat := (s.allHarts.filter (fun h => !h.sbuf.isEmpty || !h.vbuf.isEmpty)).map (·.id)

/-- Buffered writes perform at any time (R148, R159, R169, log 7): of one hart, as many of the oldest scalar stores as a free value says, and those vector
writes that another picks, in whatever order the rules allow (Table 5-10). -/
def State.seep (s : State) : State :=
  match s.buffering with
  | [] => s
  | id :: ids =>
    let own := (id :: ids).getD (Config.pick s.free % (ids.length + 1)) id
    let k := Config.pick (s.free + 1) % ((s.getHart own).sbuf.length + 1)
    let s1 := if (s.getHart own).mayDrainS k then s.took.took.took.drainS own k else s.took.took.took
    s1.drainWhere own (fun p => (Config.pick (s.free + 2)).testBit p.seq)

/-- A convoy that runs may have drained (R156), where every instruction of its hart has been executed. -/
def State.drainConvoy (s : State) : State :=
  match (s.allHarts.filter (fun h => !h.busy.isEmpty && h.late.isEmpty)).map (·.id) with
  | [] => s
  | id :: ids =>
    match (id :: ids)[Config.pick s.free % (ids.length + 2)]? with
    | none => s.took
    | some k => s.took.setHart { s.getHart k with busy := [] }

/-- The line of a cached copy that has an uncorrectable error may be evicted (R307). -/
def State.evictSome (s : State) : State :=
  if s.badCopies.isEmpty then s
  else
    match s.badCopies[Config.pick s.free % (s.badCopies.length + 1)]? with
    | none => s.took
    | some c => s.took.evictCopy c

/-- A hart that waits for the credit of a row has a request, or none any more. -/
def State.noteRequests (s : State) : State :=
  if s.allHarts.any (fun h => h.wait matches .credit _) then s.mapHarts (·.noteRequest s.cycle) else s

/-- Time passes: buffered writes may perform, a convoy may drain, a line may be evicted, and who moves next is drawn (log 1, log 2, log 7). -/
def State.tick (s0 : State) : State :=
  let s := s0.noteRequests.seep.drainConvoy.evictSome
  { s with cycle := s.cycle + 1 + Config.clocks s.free, time := s.time + Config.nanos s.free, dev := Config.device s.free, free := s.free + 1, tried := [] }

/-! ### Requests (R65, R95, R132, log 13) -/

/-- How a hart that is to issue meets its requests: one that it takes now, or one that came during the instruction, with the commit boundary at which
it stops a long instruction. -/
inductive Meet where
  | take (s : State)
  | run (s : State)

/-- A request that comes during the instruction, with the commit boundary at which it stops one that is long. -/
def State.during (s : State) : State :=
  s.took.upd (fun h => { h with seen := true, stopAt := some (h.vstart.toNat + Config.pick s.free % 32769), wait := .none })

/-- A request at an instruction: it is taken at the instruction, or during it and then no later than at the next. It may come between two of the requests that an instruction sends
to other packages (R320). -/
def State.meet (s0 : State) : Meet :=
  let s := s0.upd (fun h => { h with stall := .none })
  let h := s0.hart
  if !h.requested then .run s
  else if !h.atPoint then
    if !h.answers.isEmpty && h.stopAt.isNone && h.resume == .none && h.wait == .none && Config.pick s.free % 2 == 0 then .run s.took.during else .run s
  else if h.stop || h.seen || Config.pick s.free % 2 = 0 then .take ((if h.stop || h.seen then s else s.took).honour h.id)
  else .run s.took.during

/-- After the instruction: one that has come to an open wait is not stopped inside (R132). -/
def State.settleStop (s : State) : State := s.upd (fun h => if h.wait.open_ && h.answers.isEmpty then { h with stopAt := none } else h)

/-! ### The moves of agents other than the issuing hart -/

/-- The moves that harts' waits, engines and buffers may make. -/
def State.hartMoves (s : State) (h : Hart) : List Ev :=
  let req : List Ev :=
    if h.run && h.requested && (h.atPoint || (match h.wait with
        | .group _ => true
        | .credit _ => h.stop
        | _ => false)) then [if h.preempt || h.stop then .preemptionRequest h.id else .softwareInterrupt h.id] else []
  let wake : List Ev :=
    match h.wait with
    | .wfi => [.wfiWake h.id]
    | .mwait _ t => .mwaitWake h.id :: (if t + 2 ^ 20 ≤ s.cycle then [.mwaitTimeout h.id] else [])
    | .tkwait (some l) => if l ≤ s.cycle then [.tkwaitLimit h.id] else []
    | .credit _ => [.tepiRowHandover h.id, .tepiCreditTimeout h.id]
    | _ => []
  let streams : List Ev := (List.range 8).flatMap (fun q =>
    match h.streams.getD q none with
    | some st => if (h.fetchNext st).isSome then [.streamFetch h.id q] else []
    | none => [])
  let bufs : List Ev := (if h.vbuf.any (·.rmw.isSome) then [.pailChainApply h.id] else []) ++
    (if h.vbuf.any (fun p => isHost p.loc) then [.hostCompletion h.id] else [])
  let convoy : List Ev := if s.mayBegin h then [.convoyBegin h.id] else []
  req ++ wake ++ streams ++ bufs ++ convoy

/-- The event of a mailbox call by its FUNC (Table 12-2). -/
def callEvent (hart func pick : Nat) : Ev :=
  match func with
  | 1 => .endHart hart
  | 2 => .endJob hart
  | 3 => .yield hart
  | 4 => .shootdown hart
  | 5 => .promote hart
  | 6 => .grant hart pick
  | 7 => .release hart
  | 8 => .intr hart
  | _ => .mailboxBadFunc hart

/-- The moves of firmware. -/
def State.firmwareMoves (s : State) : List Ev :=
  let calls : List Ev := ((s.calls.eraseDups).filter (fun h => !s.callBusy h)).map (fun h =>
    callEvent h (memGet s.mem (mailboxLoc h)).toNat (Config.pick (s.free + 1)))
  let shoots : List Ev := s.shoots.map (fun x => .shootdownDone x.hart) ++
    s.promos.map (fun p => if p.copying && !p.switched then .promoteCopyDone p.hart else .shootdownDone p.hart)
  let queues : List Ev := s.queues.flatMap (fun x =>
    (if x.2.res && x.2.en && !x.2.err && x.2.progress < x.2.tail then [.takeRecord x.1] else []) ++
    (if x.2.waiting && s.residents < 64 then [.queueSwitchIn x.1] else []) ++
    (if s.longWait && 64 ≤ s.residents && s.switchable x.1 then [.queueSwitchOut x.1] else []))
  let jobs : List Ev := s.jobs.flatMap (fun j =>
    (if !j.dep && j.err.isNone then [.depsigRecheck j.id, .depsigPoll j.id] else []) ++
    (if s.jobOver j then [.jobEnd j.id (Config.pick (s.free + 1) % 2 == 0)] else []))
  let place : List Ev :=
    match s.chosen with
    | none => []
    | some _ => (List.range 32).map (fun c => Ev.jobPlacement c)
  let suspend : List Ev := s.victims.map (fun c => Ev.clusterSuspend c)
  let free := (List.range 32).filter (fun c => (s.gangsIn c).isEmpty && (s.hartsIn c).isEmpty)
  let resume : List Ev := (List.range s.parked.length).flatMap (fun ix =>
    match s.parked[ix]? with
    | none => []
    | some p =>
      if (s.parked.all (fun q => topPrio q.gangs ≤ topPrio p.gangs)) && (match s.chosen with
          | none => true
          | some j => decide (j.prio ≤ topPrio p.gangs)) then free.map (fun c => Ev.clusterResume ix c false) else [])
  if s.serving then calls ++ shoots ++ queues ++ jobs ++ place ++ suspend ++ resume else []

/-- The moves of engines, ports and bring-up. -/
def State.packageMoves (s : State) : List Ev :=
  let copies : List Ev := s.clusters.flatMap (fun c => match c.2.copies with
    | k :: _ => if k.wait.isNone && !(k.sync && s.standsIn k) then [Ev.copyElement c.1] else []
    | [] => [])
  let remote : List Ev := (s.sent.filter (fun p => p.dst == s.pkg.toNat)).map (fun p => Ev.remoteRequest p)
  let tickets : List Ev := s.owned.flatMap (fun t =>
    Ev.replayNoticeSend t.die t.ticket :: (if t.posted + 10 ^ 9 ≤ s.time then [Ev.serviceTimeout t.die t.ticket] else []))
  let boot : List Ev :=
    if s.stageFailed then []
    else
      (if s.brdy.getLsbD 3 then ((List.range 4).filter (fun d => s.wmark d < 192)).map (fun d => Ev.wmarkAdvance d) else []) ++
      match s.nextStage with
      | 1 => [.d2d]
      | 2 => [.dramcal]
      | 3 => [.llcinit]
      | 4 => if (List.range 4).all (fun d => s.wmark d == 192) then [.draminit] else []
      | 6 => [.ready]
      | _ => []
  let install : List Ev := if s.fwStat = 1 then [.fwInstall (Config.pick (s.free + 1)) (Config.pick (s.free + 2) % 2 == 0)] else []
  let chunks : List Ev := (s.chunks.filter (·.full)).map (fun c => Ev.streamChunkFull c.ctx c.group c.user c.flag c.seq)
  let lost : List Ev := if s.cutOff && !s.present.isEmpty then [.packageLost s.pkg.toNat] else []
  copies ++ remote ++ tickets ++ boot ++ install ++ chunks ++ lost

/-- Every move that is due. -/
def State.due (s : State) : List Ev := s.allHarts.flatMap s.hartMoves ++ s.firmwareMoves ++ s.packageMoves

/-- The move that comes next where the step is an agent's own: any that is due. -/
def State.nextMove (s : State) : Option Ev :=
  let es := s.due
  es[Config.pick s.free % max 1 es.length]?

/-! ### Placing an instruction at the next fetch -/

/-- The leaf that maps the first 4 TiB of a context for every access (Table 9-4): V, LOCAL, W, X, U, LEAF, frame 0. -/
def firstLeaf : Word := 0x8F00000000000000

/-- The location of the page table that holds it. -/
def firstTable : Nat := 0x10000

/-- The location of the instruction that the next step fetches. -/
def firstPc : Nat := 0x100000

/-- The issuing hart about to fetch from memory that holds the given bytes: it runs, no other hart and no event comes first, and its context has one
leaf (log 5). -/
def State.withBytes (s : State) (bs : List Byte) : State :=
  { s with
    hart := { s.hart with run := true, wait := .none, resume := .none, answers := [], asked := [], told := [], stopAt := none, seen := false, stop := false,
                          preempt := false, irqs := [], vq := [], busy := [], stall := .none, bad := [], coll := none, claim := none, inUse := none, cur := [], places := [], refuse := none,
                          opened := false, credit := none, late := [],
                          pc := BitVec.ofNat 64 firstPc },
    harts := s.harts.map (fun p => (p.1, { p.2 with run := false })), eweok := s.eweok.map (fun h => { h with run := false }), agenda := [], dev := false, tried := [], tlb := [], walkc := [],
    roots := tabPut s.roots s.hart.ctxid.toNat firstTable,
    mem := memPut (memPut s.mem firstTable (natLe 8 firstLeaf.toNat)) firstPc bs,
    ecc := s.ecc.filter (fun w => !(decide (w < firstPc + 64) && decide (firstTable ≤ w))),
    cores := s.cores.map (fun c => (c.1, { c.2 with icache := [] })) }

end Sys2Proof.Machine
end

