-- ==== Sys2Proof/Machine/Moves.lean ====
section
/-! DEFINITION. Each event as the instruction of the opcode table whose meaning it is (rows 368 to 440). -/

namespace Sys2Proof.Machine

open Sys2Proof

/-- The row of the opcode table that an event is; the compiler of Lean 4.33 makes no code for it. -/
noncomputable def eventInstr : Ev → Instr
  | .convoyBegin hart => .convoyBegin hart
  | .preemptionRequest hart => .preemptionRequest hart
  | .softwareInterrupt hart => .softwareInterrupt hart
  | .wfiWake hart => .wfiWake hart
  | .mwaitWake hart => .mwaitWake hart
  | .mwaitTimeout hart => .mwaitTimeout hart
  | .tkwaitLimit hart => .tkwaitLimit hart
  | .tepiRowHandover hart => .tepiRowHandover hart
  | .tepiCreditTimeout hart => .tepiCreditTimeout hart
  | .streamFetch hart q => .streamFetch hart q
  | .copyElement cluster => .copyElement cluster
  | .pailChainApply hart => .pailChainApply hart
  | .remoteRequest p => .remoteRequest p
  | .remoteAnswer seq ans => .remoteAnswer seq ans
  | .replayNoticeSend die ticket => .replayNoticeSend die ticket
  | .serviceTimeout die ticket => .serviceTimeout die ticket
  | .replayNotice pkg page ticket ok => .replayNotice pkg page ticket ok
  | .churnRemoteReplay pkg page ticket ok => .churnRemoteReplay pkg page ticket ok
  | .collectiveArrival ctx gid rank key => .collectiveArrival ctx gid rank key
  | .collectiveGo hart => .collectiveGo hart
  | .collectiveData ctx gid remote => .collectiveData ctx gid remote
  | .collectiveChunk hart first data exc full => .collectiveChunk hart first data exc full
  | .streamChunkFull ctx group user flag seq => .streamChunkFull ctx group user flag seq
  | .groupAbortApply ctx gid why orig => .groupAbortApply ctx gid why orig
  | .linkError link => .linkError link
  | .laneFailure link => .laneFailure link
  | .packageLost pkg => .packageLost pkg
  | .powerMeasure mean hot => .powerMeasure mean hot
  | .grantRaise mean => .grantRaise mean
  | .endHart hart => .endHart hart
  | .endJob hart => .endJob hart
  | .yield hart => .yield hart
  | .shootdown hart => .shootdown hart
  | .shootdownDone hart => .shootdownDone hart
  | .promote hart => .promote hart
  | .promoteCopyDone hart => .promoteCopyDone hart
  | .grant hart n => .grant hart n
  | .release hart => .release hart
  | .intr hart => .intr hart
  | .mailboxBadFunc hart => .mailboxBadFunc hart
  | .queueTailWrite q v => .queueTailWrite q v
  | .queueEnable q v => .queueEnable q v
  | .queueDisable q v => .queueDisable q v
  | .contextKill v => .contextKill v
  | .fwInstall n cut => .fwInstall n cut
  | .fwReset => .fwReset
  | .hostWindowWrite off v => .hostWindowWrite off v
  | .takeRecord q => .takeRecord q
  | .depsigRecheck job => .depsigRecheck job
  | .depsigPoll job => .depsigPoll job
  | .jobPlacement cluster => .jobPlacement cluster
  | .clusterSuspend cluster => .clusterSuspend cluster
  | .clusterResume ix cluster bad => .clusterResume ix cluster bad
  | .jobEnd job ctxEnds => .jobEnd job ctxEnds
  | .queueSwitchOut q => .queueSwitchOut q
  | .queueSwitchIn q => .queueSwitchIn q
  | .packageReset => .packageReset
  | .clk pkg => .clk pkg
  | .d2d => .d2d
  | .dramcal => .dramcal
  | .llcinit => .llcinit
  | .wmarkAdvance die => .wmarkAdvance die
  | .draminit => .draminit
  | .fabric ports present => .fabric ports present
  | .ready => .ready
  | .stageFail => .stageFail
  | .attestation nonce => .attestation nonce
  | .patrolScrub decayed corrected => .patrolScrub decayed corrected
  | .hostAccess e => .hostAccess e
  | .illegalEncoding sub word pos => .illegalEncoding sub word pos
  | .fetchFault addr => .fetchFault addr
  | .hostCompletion hart => .hostCompletion hart
  | .arrivalWithdrawal ctx gid rank applied => .arrivalWithdrawal ctx gid rank applied

end Sys2Proof.Machine
end

