-- ==== Sys2Proof/Machine/Late.lean ====
section
/-! DEFINITION. Vector instructions that stand in the queue unexecuted while the scalar side of their hart runs ahead of them (06 R152, R172, R173; log 37), and the words of an
instruction as they issue. -/

namespace Sys2Proof.Machine

open Sys2Proof

/-! ### Which instructions stand and which run ahead -/

/-- Scalar instructions, by their words, that run ahead of the vector queue: those of majors 0x01 to 0x1A but the atomics, which order later accesses (R79, R152). -/
def runsAhead (ws : List IWord) : Bool :=
  let m := (ws.headD 0).toNat / 2 ^ 26
  decide (1 ≤ m) && decide (m ≤ 0x1A) && m != 0x10

/-- Instructions, by their words, that may stand in the queue unexecuted: those of VINT to VPERM, vector loads and stores, and slice accesses. `alone`: no other one of the hart
stands there; an access that takes a mask or an index group, which an earlier one may still write, stands only so. -/
def mayStand (ws : List IWord) (alone : Bool) : Bool :=
  match ws with
  | [x] =>
    let w := x.toNat
    let m := w / 2 ^ 26
    let mode := w / 2 ^ 5 % 8
    let fn := w % 16
    let plain := alone || w / 2 ^ 8 % 8 == 0
    if m = 0x26 && fn = 10 then alone
    else if m = 0x2C then mode != 3 && plain && (alone || mode != 2)
    else if m = 0x2D then plain && (alone || mode != 2)
    else if m = 0x2F then decide (fn ≤ 1) && plain
    else decide (0x20 ≤ m) && decide (m ≤ 0x2B)
  | _ => false

/-- The instruction that takes a state to another may stand: it retires there in full, it is no reissue, writes no s register, moves no stream, keeps VL, and every write that
it has made is still buffered. -/
def State.standsWell (s t : State) : Bool :=
  let h := s.hart
  let g := t.hart
  g.pc == h.pc + 4 && !h.reissue && h.vstart == 0 && g.wait == .none && g.stall == .none && g.vl == h.vl && g.s == h.s && g.streams == h.streams && s.badCopies.isEmpty &&
  (match g.convoy with
    | some c => c.swrites.length == (if 1 < c.members.length then (h.convoy.map (·.swrites.length)).getD 0 else 0)
    | none => false) &&
  (g.vbuf.filter (fun p => decide (h.wseq ≤ p.seq))).length + h.wseq == g.wseq

/-- The instruction at PC enters the queue and stands there: what its execution in `t` gave the vector state, and its writes, are still to come; its checks and translations
have been made. -/
def State.stood (s t : State) (ws : List IWord) : State :=
  let h := s.hart
  t.upd (fun g => { g with
    v := h.v, m := h.m, fcsr := h.fcsr, bad := h.bad, vbuf := g.vbuf.filter (fun p => decide (p.seq < h.wseq)),
    late := h.late ++ [⟨ws, h.pc, h.s, g.places, g.refuse, if g.lock.num = h.lock.num then ⟨0, []⟩ else g.lock, h.wseq, h.convoy⟩] })

/-! ### Executing them -/

/-- The hart as it executes an instruction that has stood: with what was captured at issue (R94), and with no scalar store that came after it. -/
def Hart.recall (h : Hart) (q : Late) (qs : List Late) : Hart :=
  { h with pc := q.pc, s := q.s, cur := q.words, places := q.places, refuse := q.refuse, lock := q.lock, opened := true, convoy := q.convoy, vstart := 0, reissue := false,
           credit := none, wait := .none, resume := .none, stopAt := none, answers := [], asked := [], told := [], coll := none, inUse := none, claim := none, stall := .none,
           sbuf := h.sbuf.filter (fun p => decide (p.seq < q.seq)), wseq := q.seq, late := qs }

/-- The oldest instruction of the issuing hart that stands in the queue is executed. -/
noncomputable def State.runLate1 (s : State) : State :=
  match s.hart.late with
  | [] => s
  | q :: qs =>
    let h := s.hart
    match decode q.words with
    | .ok i _ =>
      match exec i { s with hart := h.recall q qs } with
      | .next t =>
        { t with hart := { h with late := qs, v := t.hart.v, m := t.hart.m, fcsr := t.hart.fcsr, bad := t.hart.bad, vbuf := t.hart.vbuf,
                                  sbuf := t.hart.sbuf ++ h.sbuf.filter (fun p => decide (q.seq ≤ p.seq)) } }
      | _ => { s with hart := { h with late := qs } }
    | _ => { s with hart := { h with late := qs } }

/-- The oldest `k` of them. -/
noncomputable def State.runLate : Nat → State → State
  | 0, s => s
  | k + 1, s => State.runLate k s.runLate1

/-- Every instruction of the issuing hart that stands in the queue is executed. -/
noncomputable def State.catchUp (s : State) : State := State.runLate s.hart.late.length s

/-- The harts with instructions that stand. -/
def State.lagging (s : State) : List Nat := (s.allHarts.filter (fun h => !h.late.isEmpty)).map (·.id)

/-- Every instruction of every hart that stands in the queue is executed. -/
noncomputable def State.catchUpAll (s : State) : State := s.lagging.foldl (fun s id => ((s.swap id).catchUp).swap s.hart.id) s

/-- Instructions that stand are executed at any time, in the order of their hart (R152). -/
noncomputable def State.lateSome (s : State) : State :=
  match s.lagging with
  | [] => s
  | id :: ids =>
    let own := (id :: ids).getD (Config.pick s.free % (ids.length + 1)) id
    ((State.runLate (Config.pick (s.free + 1) % ((s.getHart own).late.length + 1)) (s.took.took.swap own))).swap s.hart.id

/-- Time passes, and instructions that stand may be executed. -/
noncomputable def State.pass (s : State) : State := s.tick.lateSome

/-- The moves that may come while instructions stand unexecuted: those of buffers, engines and ports, and the ends of waits. -/
def Ev.besides : Ev → Bool
  | .convoyBegin _ => true
  | .wfiWake _ => true
  | .mwaitWake _ => true
  | .mwaitTimeout _ => true
  | .tkwaitLimit _ => true
  | .streamFetch _ _ => true
  | .copyElement _ => true
  | .pailChainApply _ => true
  | .hostCompletion _ => true
  | .remoteRequest _ => true
  | .remoteAnswer _ _ => true
  | .hostAccess _ => true
  | _ => false

/-- The state in which a move comes. -/
noncomputable def State.before_ (s : State) (e : Ev) : State := if Ev.besides e then s else s.catchUpAll

/-! ### The words of an instruction issue -/

/-- The trap of the instruction at PC shows in the state after it. -/
def State.trapped (s t : State) : Bool := t.hart.epc == s.hart.pc && t.hart.pc == t.hart.tvec

/-- An instruction issues: one that may stand in the queue does, or is executed after those that stand; a scalar one runs ahead of them unless it traps. -/
noncomputable def State.issueInstr (s : State) (i : Instr) (ws : List IWord) : Host.Outcome State Fault Refusal :=
  if mayStand ws s.hart.late.isEmpty then
    match exec i s.took with
    | .next t =>
      if s.took.standsWell t && Config.pick s.free % 2 = 0 then .next (s.took.stood t ws)
      else if s.hart.late.isEmpty then .next t
      else exec i s.took.catchUp
    | r => r
  else if s.hart.late.isEmpty then exec i s
  else if runsAhead ws then
    match exec i s with
    | .next t => if s.trapped t then exec i s.catchUp else .next t
    | r => r
  else exec i s.catchUp

end Sys2Proof.Machine
end

