-- ==== Sys2Proof/Machine/Step.lean ====
section
/-! DEFINITION. One step: the next event, an agent's own move, or the next instruction of a hart, with what stands around it; and a state whose next
step runs a given instruction. -/

namespace Sys2Proof.Machine

open Sys2Proof

/-- The outcome with its next state changed. -/
def thenDo (o : Host.Outcome State Fault Refusal) (f : State → State) : Host.Outcome State Fault Refusal :=
  match o with
  | .next s => .next (f s)
  | .fault r => .fault r
  | .refused r => .refused r

/-- The instruction at PC of the issuing hart (R7, R17, R22, R82). -/
noncomputable def issue (s : State) : Host.Outcome State Fault Refusal :=
  match s.fetch with
  | .hold s1 => .next s1
  | .trap s1 t => .next (s1.catchUp.trap t)
  | .fault s1 va => exec (.fetchFault va) s1.catchUp
  | .words s1 ws =>
    match decode ws with
    | .ok i _ => thenDo (s1.issueInstr i ws) (fun t => t.entered s1.hart.pc ws)
    | .ill sub w => exec (.illegalEncoding sub w 0) s1.catchUp
    | .short => .next s1

/-- A hart's turn: it takes a request, or issues. -/
noncomputable def turn (s : State) : Host.Outcome State Fault Refusal :=
  match (if s.hart.requested then s.catchUp else s).meet with
  | .take s1 => .next s1
  | .run s1 => thenDo (issue s1) State.settleStop

/-- One step. -/
noncomputable def step (s : State) : Host.Outcome State Fault Refusal :=
  match s.agenda with
  | e :: rest => thenDo (exec (eventInstr e) (State.before_ { s with agenda := rest } e)) State.pass
  | [] =>
    match (if s.dev then s.nextMove else none) with
    | some e => thenDo (exec (eventInstr e) (s.took.took.took.before_ e)) State.pass
    | none =>
      match s.nextHart with
      | none => .next s.idleSlot.pass
      | some id => thenDo (turn (s.took.focus id)) (fun s => s.turnEnd id State.pass)

/-- A state whose next step fetches and runs the instruction of the opcode table whose bits are w (log 5). -/
noncomputable def State.withFetchWord (s : State) (nbits w : Nat) : State := s.withBytes (tableBytes nbits w)

end Sys2Proof.Machine
end

