-- ==== Sys2Proof/Safety.lean ====
section
/-! DEFINITION. What a safe run is, the invariants that statements rest on, and the terms in which statements say when an instruction executes
normally and what it leaves. -/

namespace Sys2Proof.Machine

open Sys2Proof

/-! ### Runs and invariants -/

/-- The step of a state does not stop. -/
def Goes (s : State) : Prop := ∃ t, step s = .next t

/-- The memory, and the banks and slices of every suspended cluster, keep the canonical form (log 4). -/
def MemoryOk (s : State) : Prop :=
  Memory.wf s.mem = true ∧ ∀ p ∈ s.parked, Memory.wf p.banks = true ∧ Memory.wf p.slices = true

/-! ### A hart past an instruction -/

/-- The hart past an instruction that retires (R36, R42): PC, the open convoy, REISSUE of a reissue cleared, and nothing left of a wait. -/
def Hart.past (h : Hart) (pc : Word) (c : Option Convoy) : Hart :=
  { h with pc := pc, convoy := c, status := if h.reissue then h.status &&& 0x2FF else h.status, reissue := false,
           wait := .none, resume := .none, answers := [], asked := [], told := [], cur := [], places := [], refuse := none, opened := false, credit := none, stopAt := none,
           coll := none, inUse := none, claim := none }

/-- The open convoy after a scalar instruction that reads registers `rs` (R15, R66, R94): one that serialises, or reads a register that a
member writes, closes it. -/
def Hart.convoyPast (h : Hart) (serial : Bool) (rs : List Reg5) : Option Convoy :=
  match h.convoy with
  | none => none
  | some c => if serial || rs.any (fun r => r != 0 && c.swrites.contains r) then none else some c

/-- The hart past a scalar instruction that falls through. -/
def Hart.scalarPast (h : Hart) (serial : Bool) (rs : List Reg5) : Hart := h.past (h.pc + 4) (h.convoyPast serial rs)

/-- The state past a scalar instruction that falls through and writes one register. -/
def State.wrote (s : State) (serial : Bool) (rs : List Reg5) (d : Reg5) (x : Word) : State :=
  { s with hart := (s.hart.scalarPast serial rs).ps d x }

/-- The state in which a scalar instruction that reads `rs` has passed its checks and has its effect: the convoy is settled, nothing else has changed. -/
def State.checked (s : State) (serial : Bool) (rs : List Reg5) : State := s.upd (fun h => { h with convoy := h.convoyPast serial rs })

/-- The state past an instruction of one word whose effect has been had, with one register written. -/
def State.retired (s : State) (d : Reg5) (x : Word) : State := { s with hart := (s.hart.past (s.hart.pc + 4) s.hart.convoy).ps d x }

/-- No codeword of the hart's registers has an uncorrectable error (R306). -/
def Hart.sound (h : Hart) : Bool := h.bad.isEmpty

/-- No hart has a buffered write to any of `n` bytes at a location. -/
def State.quietAt (s : State) (l n : Nat) : Bool := s.allHarts.all (fun h => h.sbuf.all (fun p => !p.hits l n) && h.vbuf.all (fun p => !p.hits l n))

/-- The rational number that an exact value is, if it is finite (R49). -/
def FVal.rat : FVal → Option ℚ
  | .num neg m e => some ((if neg then -1 else 1) * m * 2 ^ e)
  | _ => none

/-! ### A hart that may issue a vector instruction (R144, R15, R157) -/

/-- The hart's context owns the vector state (R144). -/
def Hart.owns (h : Hart) : Bool := h.vownV && h.vownCtx == h.ctxid

/-- The convoy that an instruction with this J bit joins (R15). -/
def Hart.joinedConvoy (h : Hart) (j : BitVec 1) : Convoy :=
  match h.convoy with
  | some c => if j = 1 then c else ⟨[], []⟩
  | none => ⟨[], []⟩

/-- The convoy has room for an instruction of a unit class (R15, R157). -/
def Hart.room (h : Hart) (u : UnitClass) (j : BitVec 1) : Bool :=
  decide ((h.joinedConvoy j).members.length < 8) && decide ((h.joinedConvoy j).members.count u < u.units)

/-- The hart owns the vector state, the convoy has room, and no register has an uncorrectable error: steps 1 to 3 of R354 trap nothing, and every register reads. -/
def Hart.mayJoin (h : Hart) (u : UnitClass) (j : BitVec 1) : Bool := h.owns && h.room u j && h.sound

/-- The open convoy after an instruction of a unit class that writes the s registers `sw` at its retirement (R15, R94). -/
def Hart.convoyWith (h : Hart) (u : UnitClass) (j : BitVec 1) (sw : List Reg5) : Option Convoy :=
  some ⟨(h.joinedConvoy j).members ++ [u], (h.joinedConvoy j).swrites ++ sw⟩

/-- The hart past a vector, tile or engine instruction of `len` bytes that falls through and makes no translation: VSTART := 0 (R42). -/
def Hart.vectorPast (h : Hart) (len : Word) (u : UnitClass) (j : BitVec 1) (sw : List Reg5) : Hart :=
  { h.past (h.pc + len) (h.convoyWith u j sw) with vstart := 0, places := h.begin_.places, refuse := h.begin_.refuse }

/-- A hart with what another remembers of the instruction it ran last, as the translations that it made (R121) and its interlock entry (R172). -/
def Hart.keeping (h g : Hart) : Hart :=
  { h with places := g.places, refuse := g.refuse, lock := g.lock, opened := g.opened, credit := g.credit }

/-- A state but for what its issuing hart remembers of the instruction it ran last, which is as in another. -/
def State.keeping (s t : State) : State := { s with hart := s.hart.keeping t.hart }

/-- Operand groups that start at a multiple of their size and have no register bound to a stream (R10, R211). -/
def Hart.plainGroups (h : Hart) (os : List VOpd) : Bool :=
  os.all (fun o => !o.misaligned && (List.range o.regs).all (fun k => (h.stream (BitVec.ofNat 5 (o.reg.toNat + k))).isNone)
    && (h.stream o.reg).isNone)

/-- An instruction that names these operands executes: its groups are plain, and no destination overlaps a source in part (R10). -/
def Hart.operandsOk (h : Hart) (srcs dsts : List VOpd) : Bool :=
  h.plainGroups srcs && h.plainGroups dsts && !partialOverlaps srcs dsts

/-- The hart past an element-wise vector instruction (R42, R57, R96): for each active element its result of width `w` in the group at `d`, and its exceptions under
`x` and in FCSR. -/
def Hart.vecDone (h : Hart) (u : UnitClass) (j : BitVec 1) (d : Reg5) (w : Nat) (x : Reg3) (rs : List (Nat × Nat × Exc)) : Hart :=
  ((h.putElems d.toNat w (rs.map (fun r => (r.1, r.2.1)))).except x (rs.map (fun r => (r.1, r.2.2)))).vectorPast 4 u j []

/-- The state past an element-wise vector instruction under governing mask `m`: `f` gives the result of an active element and its exceptions. -/
def State.vecDone (s : State) (u : UnitClass) (j : BitVec 1) (d : Reg5) (w : Nat) (m x : Reg3) (f : Nat → Nat × Exc) : State :=
  { s with hart := s.hart.vecDone u j d w x ((s.hart.active m s.hart.vl).map (fun i => (i, f i))) }

/-- The hart past an instruction that writes mask register `d` (R114, R115): bit i of each active element, and its exceptions. -/
def Hart.maskDone (h : Hart) (u : UnitClass) (j : BitVec 1) (d : Reg5) (x : Reg3) (rs : List (Nat × Bool × Exc)) : Hart :=
  ((h.pmBits d.toNat (rs.map (fun r => (r.1, r.2.1)))).except x (rs.map (fun r => (r.1, r.2.2)))).vectorPast 4 u j []

/-- A full binary tree of f32 additions under a mode over some leaves, in some order (R59): the leaves and the value. -/
inductive SumTree (rm : RM) : List FVal → FVal → Prop where
  | leaf (x : FVal) : SumTree rm [x] x
  | node (xs ys : List FVal) (x y : FVal) : SumTree rm xs x → SumTree rm ys y → SumTree rm (xs ++ ys) (fadd32 rm x y).1
  | reorder (xs ys : List FVal) (x : FVal) : SumTree rm xs x → xs.Perm ys → SumTree rm ys x

/-- The state in which an instruction of a unit class that has passed its checks has its effect. -/
def State.joined (s : State) (u : UnitClass) (j : BitVec 1) (sw : List Reg5) : State := s.upd (fun h => ({ h with convoy := h.convoyWith u j sw } : Hart).begin_)

/-- An access of `n` bytes at an address is placed at a location of the package, by way of the core's translation unit where `core`, by a translation that changes
nothing (a window, or a standing translation); no codeword there is bad nor a cached copy, no write of any hart is buffered for it, and no interlock entry of the hart covers it. -/
def State.reaches (s : State) (core : Bool) (k : AccK) (n : Nat) (va : Word) (l : Nat) : Prop :=
  (∃ st, s.translateVia core s.hart.agent k va = (s, .loc l st)) ∧ (l < 2 ^ 51 ∨ 2 ^ 52 ≤ l) ∧ s.bad l n = false ∧ s.badCopies = [] ∧ s.quietAt l n = true ∧
    s.hart.vbuf.all (fun p => !p.lock.covers va) = true

/-- Elements of one page, as far as a translation of one of them reaches, are placed in it alike (R121). -/
def State.pagesAgree (s : State) (k : AccK) (is : List Nat) (ad : Nat → Word) (loc : Nat → Nat) : Prop :=
  ∀ i ∈ is, ∀ i' ∈ is,
    let b := s.spanBits s.hart.agent k (ad i)
    (ad i).toNat < 0xFFFFF00000000000 → (ad i).toNat / 2 ^ b = (ad i').toNat / 2 ^ b → loc i' = loc i / 2 ^ b * 2 ^ b + (ad i').toNat % 2 ^ b

/-- No request stops the hart's long instruction, and no copy of the hart is unfinished. -/
def State.undisturbed (s : State) : Bool := s.hart.stopAt.isNone && !s.copyBusy s.hart.id

/-- The memory of a state once every write that its issuing hart has buffered has performed. -/
def State.settledMem (s : State) : List Host.Cell := (s.drainAll s.hart.id).mem

/-- The state past a vector, tile or engine instruction of `len` bytes that had its effect after it joined its convoy. -/
def State.vecRetired (s : State) (len : Word) : State :=
  { s with hart := { s.hart.past (s.hart.pc + len) s.hart.convoy with vstart := 0, places := s.hart.places, refuse := s.hart.refuse } }

/-- The code of accumulator (i, n) of a bank of the hart's core (R175). -/
def State.acc (s : State) (b i n : Nat) : Nat := leNat (memRead 4 (s.accLoc b i n) s.mem)

/-- A cell of an open K-block after products have been added to it (R180): their marks, and their exact sum times 2^288. -/
def BlkCell.gains (c c' : BlkCell) (ps : List FVal) : Prop :=
  c'.nan = (c.nan || ps.any FVal.isNan) ∧ c'.pinf = (c.pinf || ps.contains (.inf false)) ∧ c'.ninf = (c.ninf || ps.contains (.inf true)) ∧
    (c'.sum : ℚ) = c.sum + 2 ^ 288 * (ps.map (fun p => p.rat.getD 0)).sum

/-- The open K-block of an accumulator: a cell that is not listed is zero and unmarked. -/
def Tile.cell (t : Tile) (i n : Nat) : BlkCell := (t.blk.find? (fun c => c.pos == i * 128 + n)).getD ⟨i * 128 + n, false, false, false, 0⟩

/-- The byte that an address of an untranslated window holds. -/
def State.byteAt (s : State) (va : Word) : Nat :=
  match s.window s.hart.agent va with
  | .loc l _ => (memGet s.mem l).toNat
  | _ => 0

/-- Element k of `w` bits of a packed row at an address of the untranslated windows (R44). -/
def State.windowElem (s : State) (w : Nat) (va : Word) (k : Nat) : Nat :=
  if w = 4 then s.byteAt (va + BitVec.ofNat 64 (k / 2)) / 16 ^ (k % 2) % 16
  else ((List.range (w / 8)).map (fun b => s.byteAt (va + BitVec.ofNat 64 (k * (w / 8) + b)) * 256 ^ b)).sum

/-- The hart may issue a tile instruction that names tile `t`, mapped to bank `b`, whose bytes hold no bad codeword (R174, R307). -/
def State.tileReady (s : State) (t : BitVec 3) (b : Nat) (j : BitVec 1) : Bool := s.hart.mayJoin .tile j && s.tileBank t == some b && (s.tileBad b).isNone

/-- An entry of TOP stands before another, or is of the same token with an equal score (R244). -/
def TopEntry.leads (u v : TopEntry) : Bool :=
  let a := FName.f32.read u.z
  let b := FName.f32.read v.z
  b.lt a || (a.eq b && decide (u.j ≤ v.j))

/-- TOP of a slot is in its order, holds at most K entries, and no score of it is a NaN (R244). -/
def RaceSlot.topOk (x : RaceSlot) : Prop :=
  x.top.Pairwise (fun u v => u.leads v = true) ∧ x.top.length ≤ recK x.cap ∧ ∀ e ∈ x.top, (FName.f32.read e.z).isNan = false

/-! ### Words and events -/

/-- The rows 368 to 440 of the opcode table: events of the machine, which no instruction word stands for (R22). -/
def isEvent : Instr → Bool
  | .convoyBegin _
  | .preemptionRequest _
  | .softwareInterrupt _
  | .wfiWake _
  | .mwaitWake _
  | .mwaitTimeout _
  | .tkwaitLimit _
  | .tepiRowHandover _
  | .tepiCreditTimeout _
  | .streamFetch _ _
  | .copyElement _
  | .pailChainApply _
  | .remoteRequest _
  | .remoteAnswer _ _
  | .replayNoticeSend _ _
  | .serviceTimeout _ _
  | .replayNotice _ _ _ _
  | .churnRemoteReplay _ _ _ _
  | .collectiveArrival _ _ _ _
  | .collectiveGo _
  | .collectiveData _ _ _
  | .collectiveChunk _ _ _ _ _
  | .streamChunkFull _ _ _ _ _
  | .groupAbortApply _ _ _ _
  | .linkError _
  | .laneFailure _
  | .packageLost _
  | .powerMeasure _ _
  | .grantRaise _
  | .endHart _
  | .endJob _
  | .yield _
  | .shootdown _
  | .shootdownDone _
  | .promote _
  | .promoteCopyDone _
  | .grant _ _
  | .release _
  | .intr _
  | .mailboxBadFunc _
  | .queueTailWrite _ _
  | .queueEnable _ _
  | .queueDisable _ _
  | .contextKill _
  | .fwInstall _ _
  | .fwReset
  | .hostWindowWrite _ _
  | .takeRecord _
  | .depsigRecheck _
  | .depsigPoll _
  | .jobPlacement _
  | .clusterSuspend _
  | .clusterResume _ _ _
  | .jobEnd _ _
  | .queueSwitchOut _
  | .queueSwitchIn _
  | .packageReset
  | .clk _
  | .d2d
  | .dramcal
  | .llcinit
  | .wmarkAdvance _
  | .draminit
  | .fabric _ _
  | .ready
  | .stageFail
  | .attestation _
  | .patrolScrub _ _
  | .hostAccess _
  | .illegalEncoding _ _ _
  | .fetchFault _
  | .hostCompletion _
  | .arrivalWithdrawal _ _ _ _ => true
  | _ => false

end Sys2Proof.Machine
end

