-- ==== Sys2Proof/Certificates/Slice0/Obligations.lean ====
section
/-! DEFINITION. The statements about the SX4 model: what the numbered rules of the spec say its instructions and events do. -/

open Sys2Proof Sys2Proof.Machine

/-! ### Reset, the step, fetch, and the words of instructions -/

/-- Table 2-2, Table 2-4, R42, R93, R286: after package reset every hart stands as the reset columns say where they give a value, no hart runs, and the host window's
queues, FWSTAT, FWIMG, ROOTS and BRDY are zero and PCAP is 1450. Table 6-4 gives no reset value of BROLE[63:8]: that they are zero too is the model's choice (log 3). -/
def Obligations.ResetLeavesStatedValues : Prop :=
  (∀ id : Nat,
    let h := State.reset.getHart id
    h.run = false ∧ h.vl = 0 ∧ h.vtype = 0 ∧ h.vstart = 0 ∧ h.slip = 16 ∧ h.fcsr = 0 ∧ h.skey = 0 ∧ h.sstep = 0 ∧
    h.cause = 0 ∧ h.epc = 0 ∧ h.tval = 0 ∧ h.fltn = 0 ∧ h.tkOvf = false ∧ h.super = false ∧ h.ie = true ∧ h.irqs = []) ∧
  (∀ k : Nat, (State.reset.getCore k).brole = 0 ∧ (State.reset.getCore k).tickets = [] ∧ (State.reset.getCore k).tiles = []) ∧
  State.reset.brdy = 0 ∧ State.reset.fwStat = 0 ∧ State.reset.fwImg = 0 ∧ State.reset.rootTab = 0 ∧ State.reset.pcap = 1450 ∧
  State.reset.queues = [] ∧ State.reset.jobs = [] ∧ State.reset.slots = [] ∧ State.reset.churns = []

/-- R7, R16, R17, R22: where no event, no move of another agent and no request comes first, the step of a state is the meaning of the instruction that the words
fetched at the PC of the next hart decode to, with an instruction that the word is not as its ILL trap. Around it the model does what it has of the vector queue (the
instruction enters it, R152) and of the issue slot: where the hart could not issue, the slot is another hart's (R149, R150), else it ends and time passes. By log 37, the
model's choice, a vector instruction may instead enter the queue unexecuted, with what its execution gave the vector registers and the buffer of its writes still to come;
scalar instructions run ahead of those that stand there unless they trap, and every other one is executed after them, a vector instruction that does not join them too. -/
def Obligations.StepRunsTheDecodedInstruction : Prop :=
  ∀ (s s0 s1 : State) (ws : List IWord) (id : Nat),
    s.agenda = [] → s.dev = false → s.nextHart = some id → (s.took.focus id).hart.requested = false → (s.took.focus id).meet = .run s0 → s0.fetch = .words s1 ws →
    let ends := fun (t : State) =>
      let u := (t.entered s1.hart.pc ws).settleStop
      step s = .next (if u.hart.stall = .none then (u.slotEnd id).pass else { u with tried := id :: u.tried })
    (∀ i rest t, decode ws = .ok i rest →
      (mayStand ws s1.hart.late.isEmpty = false → s1.hart.late = [] → exec i s1 = .next t → ends t) ∧
      (mayStand ws s1.hart.late.isEmpty = true → exec i s1.took = .next t →
        (s1.hart.late = [] ∧ ends t) ∨ (s1.took.standsWell t = true ∧ ends (s1.took.stood t ws)) ∨ (s1.hart.late ≠ [] ∧ ∀ u, exec i s1.took.catchUp = .next u → ends u)) ∧
      (mayStand ws s1.hart.late.isEmpty = false → s1.hart.late ≠ [] → runsAhead ws = true → exec i s1 = .next t →
        (s1.trapped t = false → ends t) ∧ (s1.trapped t = true → ∀ u, exec i s1.catchUp = .next u → ends u)) ∧
      (mayStand ws s1.hart.late.isEmpty = false → s1.hart.late ≠ [] → runsAhead ws = false → exec i s1.catchUp = .next t → ends t)) ∧
    (∀ sub w, decode ws = .ill sub w →
      step s = .next ((s1.catchUp.trap ⟨0x01, illTval sub w 0⟩).settleStop.turnEnd id State.pass))

/-- R7, R17, R171: the word fetched at an address that translation takes to a location is the four bytes of memory there, the lowest address in bits [7:0];
a word with MAJ = 0x3F brings the word after it. Stated for a line that the core's instruction cache does not hold (a line it holds may give its older
bytes, R171), and for an instruction that has not begun to wait. That a leaf of another package is read by a request, so that a word it has answered with is that answer's,
is the model's choice (log 11). -/
def Obligations.FetchReadsTheBytesAtPc : Prop :=
  (∀ (s s1 : State) (l : Nat) (strict : Bool),
    s.hart.cur = [] → tabGet s.hart.answers (2 ^ 61) = none →
    s.translate s.hart.agent .fetch s.hart.pc = (s1, .loc l strict) → l % 4 = 0 → s1.bad l 4 = false → s1.badCopies = [] →
    tabGet (s1.getCore (coreOf s1.hart.id)).icache (l / 64 * 64) = none →
    let w := wordOfBytes (memRead 4 l s1.mem)[0]! (memRead 4 l s1.mem)[1]! (memRead 4 l s1.mem)[2]! (memRead 4 l s1.mem)[3]!
    ∃ s2, s.fetchWord 0 s.hart.pc = .word s2 w ∧ s2.mem = s1.mem ∧ s2.hart = s1.hart ∧
      (isPrefix w = false → s.fetch = .words s2 [w]) ∧
      (isPrefix w = true → ∀ s3 b, s2.fetchWord 1 (s2.hart.pc + 4) = .word s3 b → s.fetch = .words s3 [w, b])) ∧
  (∀ (s : State) (k : Nat) (va : Word) (d : Nat) (st : Bool),
    tabGet s.hart.answers (2 ^ 61 + k) = some (.done d st) → s.fetchWord k va = .word s (BitVec.ofNat 32 d))

/-- R11, R16, Tables 1-3, 1-4, 1-8, 1-9 and the worked encodings of the spec: words written out bit by bit decode to the instruction they stand for. -/
def Obligations.WrittenWordsDecode : Prop :=
  decode [0b000001_00101_00110_00111_00000000000] = .ok (.add 5 6 7) 4 ∧
  decode [0b000010_00101_00000_1111111111111101] = .ok (.addi 5 0 0xFFFD) 4 ∧
  decode [0b010000_10010_10001_10001_11_010_11_0001] = .ok (.amoAdd 18 17 17 3 2 3) 4 ∧
  decode [0b100000_00011_00100_00101_000_000_0_0000] = .ok (.vaddVv 3 4 5 0 0 0) 4 ∧
  decode [0b101011_01000_10000_00101_000_000_0_1011] = .ok (.vtopk 8 16 5 0 0) 4 ∧
  decode [0b111111_00001_010_000_000_000_00_0000000, 0b111110_00000_00000_00000_000_000_0_0000] = .ok (.tzero 2 0) 8 ∧
  decode [0b011011_00000_00000_00000_00000_000001] = .ok .brk 4

/-- R7, R11 to R23, R34: every instruction with legal fields decodes from its own words, whatever follows them, to itself, with every operand at every
value the encoding admits. -/
def Obligations.DecodeOfEncodeIsTheInstruction : Prop :=
  ∀ (i : Instr) (rest : List IWord), isEvent i = false → i.WF → decode (encode i ++ rest) = .ok i (4 * (encode i).length)

/-- R13, R20 to R25, R34: the words of an instruction with a field value that the encoding does not admit are refused, with the lowest subcode that its
fields break and one of its words. -/
def Obligations.IllegalFieldsAreRefused : Prop :=
  ∀ (i : Instr) (sub : BitVec 8) (rest : List IWord), isEvent i = false → illFields i = some sub →
    ∃ w ∈ encode i, decode (encode i ++ rest) = .ill sub w

/-! ### Memory -/

/-- The model's own canonical form of memory (log 4): a step from a state whose memory lists rising locations and no zero byte gives such a state. -/
def Obligations.EveryStepKeepsMemoryCanonical : Prop := ∀ s t : State, MemoryOk s → step s = .next t → MemoryOk t

/-- The canonical form holds at reset (log 4). -/
def Obligations.ResetMemoryIsCanonical : Prop := MemoryOk State.reset

/-- R65, R94, Table 1-2: whatever an instruction does, the one scalar register that it changes is the one that its word names as a destination, in bits [25:21] (`vtopk`: the
count register, in bits [15:11]), and never s0, whose writes are discarded.
R34, R36, Table 2-2: no instruction in user mode changes TVEC, CTXID, VOWN or TMAP, and one that changes STATUS.PRIV has trapped, which leaves PC at TVEC and PPRIV saying user
mode. Every meaning gives a next state: the spec gives every condition an effect. -/
def Obligations.WhatNoInstructionChanges : Prop :=
  (∀ (i : Instr) (s : State), ∃ t, exec i s = .next t) ∧
  (∀ (i : Instr) (s t : State) (r : Fin 32), isEvent i = false → exec i s = .next t → t.hart.s[r] ≠ s.hart.s[r] →
    r ≠ 0 ∧ ((encodeWord i).toNat / 2 ^ 21 % 32 = r.val ∨ ((∃ d a b m j, i = .vtopk d a b m j) ∧ (encodeWord i).toNat / 2 ^ 11 % 32 = r.val))) ∧
  (∀ (i : Instr) (s t : State), isEvent i = false → s.hart.super = false → exec i s = .next t →
    t.hart.tvec = s.hart.tvec ∧ t.hart.ctxid = s.hart.ctxid ∧ t.hart.vownV = s.hart.vownV ∧ t.hart.vownCtx = s.hart.vownCtx ∧ t.hart.tmap = s.hart.tmap ∧
    (t.hart.super = true → t.hart.pc = t.hart.tvec ∧ t.hart.status.getLsbD 4 = false))

/-! ### Traps, their return, and who may execute what -/

/-- R36, R86, R24, R82: `sys`, `brk`, a word that is no instruction and a fetch that cannot be made take their trap: CAUSE, EPC and TVAL are written, STATUS
is pushed with PRIV = 1, IE = 0 and REISSUE = 0, the open convoy closes, and PC is TVEC; nothing else changes (what the model holds of an instruction in progress is cleared).
Subcode 0x08, of a `vsetli` with an illegal VTYPE, is left out: whether it closes the convoy is the model's choice (log 39). -/
def Obligations.TrapsAreTaken : Prop :=
  ∀ (s : State) (sub : BitVec 8) (w : IWord) (pos : Nat) (addr : Word),
    let took := fun (cause : BitVec 8) (tval : Word) => ({ s with hart := { s.hart with
      cause := cause, epc := s.hart.pc, tval := tval, pc := s.hart.tvec, convoy := none, reissue := false,
      status := (s.hart.status &&& 0x200) ||| (if s.hart.super then 0x10 else 0) ||| (if s.hart.ie then 0x20 else 0) ||| 1,
      wait := .none, resume := .none, answers := [], asked := [], told := [], stopAt := none, coll := none,
      cur := [], places := [], refuse := none, opened := false, credit := none, stall := .none, inUse := none, claim := none } } : State)
    exec .sys s = .next (took 0x09 0) ∧
    exec .brk s = .next (took 0x0A 0) ∧
    (sub ≠ 0x08 → exec (.illegalEncoding sub w pos) s = .next (took 0x01 (BitVec.ofNat 64 (w.toNat * 2 ^ 32 + pos * 2 ^ 8 + sub.toNat)))) ∧
    exec (.fetchFault addr) s = .next (took 0x04 addr)

/-- R87, R36: in supervisor mode `tret` makes PRIV and IE the saved ones, closes the convoy and continues at EPC; with STATUS.REISSUE set the instruction there is
a reissue. A `tret` that is itself a reissue clears REISSUE, as every instruction that retires does, and what follows it is none. Every other register, flag and all of memory stay. -/
def Obligations.TretReturns : Prop :=
  ∀ s : State, s.hart.super = true →
    let st := if s.hart.reissue then s.hart.status &&& 0x2FF else s.hart.status
    exec .tret s = .next { s with hart := { s.hart.past s.hart.epc none with
      reissue := s.hart.status.getLsbD 8 && !s.hart.reissue,
      status := (st &&& 0x330) ||| (if st.getLsbD 4 then 1 else 0) ||| (if st.getLsbD 5 then 2 else 0) } }

/-- R34, R87, R146, R147, R164, R187, R188, Table 5-8: in user mode a privileged instruction traps PRV with its word (a tile pair's prefix) in TVAL, and has
none of its effect.
R144, Table 5-8: a vector, mask, stream or engine instruction of a hart whose context does not own the vector state traps VO with the owner in TVAL, before any check of
registers and with none of its effect; stated for one instruction of each family. (A `setc` of a read-only register, and a `vsetli` of an illegal vtype, are illegal by
their word, R34 and R21, before either.) -/
def Obligations.PrivilegeAndOwnershipTraps : Prop :=
  (∀ (s : State) (i : Instr), s.hart.super = false →
     (i = .tret ∨ (∃ a, i = .vsave a ∨ i = .vrest a ∨ i = .brole a) ∨
       (∃ d c, ((i = .getc d c ∧ (c = 0x006 ∨ (0x010 ≤ c.toNat ∧ c.toNat ≤ 0x018) ∨ c = 0x024)) ∨ (i = .setc d c ∧ (c = 0x006 ∨ (0x010 ≤ c.toNat ∧ c.toNat ≤ 0x018))))) ∨
       (∃ t a j, (i = .tsave t a j ∨ i = .trest t a j) ∧ s.hart.room .tile j = true)) →
     exec i s = .next (s.trap ⟨0x02, BitVec.ofNat 64 (encodeWord i).toNat⟩)) ∧
  (∀ (s : State) (d a b : Reg5) (m x : Reg3) (j : BitVec 1) (o : BitVec 16) (t : BitVec 16) (r : BitVec 7) (sm : BitVec 2), s.hart.owns = false →
     let vo := Host.Outcome.next (s.trap ⟨0x03, BitVec.ofNat 64 s.hart.vownCtx.toNat⟩)
     (s.hart.room .valu j = true → exec (.vaddVv d a b m x j) s = vo ∧ exec (.vfaddVv d a b m x j) s = vo ∧ exec (.mand d a b x j) s = vo) ∧
     (s.hart.room .vmul j = true → exec (.vmulVv d a b m x j) s = vo) ∧
     (s.hart.room .vlsu j = true → exec (.vld d a m j) s = vo ∧ exec (.vst d a m j) s = vo) ∧
     (s.hart.room .xlane j = true → exec (.vredsum d a b m j) s = vo ∧ exec (.vceqVv d a b m x j) s = vo) ∧
     (s.hart.room .engine j = true → exec (.vcopy d a m j) s = vo ∧ exec (.rstat d a j) s = vo ∧ exec (.tkpoll d j) s = vo) ∧
     (s.hart.room .tile j = true → exec (.tzero m j) s = vo ∧ exec (.trow m r d j) s = vo ∧ exec (.tld m 1 r a j) s = vo ∧ exec (.vopa m x x sm a b j) s = vo ∧
       exec (.gmm m b a j) s = vo ∧ exec (.cload m 0 a j) s = vo) ∧
     exec (.vloop a o) s = vo ∧ exec (.vsetl d a b) s = vo ∧ (vtypeLegal t = true → exec (.vsetli d a t) s = vo) ∧
     exec (.getc d 0x000) s = vo ∧ exec (.getc d 0x001) s = vo ∧ exec (.getc d 0x003) s = vo)
/-! ### Scalar results: each equation is the whole next state, so it is the frame as well. They are stated for a hart whose registers have no uncorrectable error;
what reading one with an error does stands in `SystemInstructionsTrap`. -/

/-- R65, R67: the register-register instructions write s[d] from the values that s[a] and s[b] held, modulo 2^64, and nothing else but PC (and the open
convoy, R15, R94); with d = 0 nothing is written. -/
def Obligations.RegisterArithmeticResults : Prop :=
  ∀ (s : State) (d a b : Reg5) (h : BitVec 3), s.hart.sound = true →
    let x := s.gs a
    let y := s.gs b
    let n := y.toNat % 64
    let w := fun (v : Word) => Host.Outcome.next (s.wrote false [a, b] d v)
    exec (.add d a b) s = w (BitVec.ofNat 64 (x.toNat + y.toNat)) ∧
    exec (.sub d a b) s = w (BitVec.ofInt 64 (x.toInt - y.toInt)) ∧
    exec (.and d a b) s = w (x &&& y) ∧ exec (.or d a b) s = w (x ||| y) ∧ exec (.xor d a b) s = w (x ^^^ y) ∧
    exec (.andn d a b) s = w (x &&& ~~~y) ∧
    exec (.sll d a b) s = w (BitVec.ofNat 64 (x.toNat * 2 ^ n)) ∧
    exec (.srl d a b) s = w (BitVec.ofNat 64 (x.toNat / 2 ^ n)) ∧
    exec (.sra d a b) s = w (BitVec.ofInt 64 (x.toInt / 2 ^ n)) ∧
    exec (.slt d a b) s = w (if x.toInt < y.toInt then 1 else 0) ∧
    exec (.sltu d a b) s = w (if x.toNat < y.toNat then 1 else 0) ∧
    exec (.min d a b) s = w (BitVec.ofInt 64 (min x.toInt y.toInt)) ∧
    exec (.max d a b) s = w (BitVec.ofInt 64 (max x.toInt y.toInt)) ∧
    exec (.minu d a b) s = w (BitVec.ofNat 64 (min x.toNat y.toNat)) ∧
    exec (.maxu d a b) s = w (BitVec.ofNat 64 (max x.toNat y.toNat)) ∧
    exec (.adds d a b h) s = w (BitVec.ofNat 64 (x.toNat + y.toNat * 2 ^ h.toNat))

/-- R12, R68, R69, R70: the immediate, constant-shift and upper-immediate instructions write s[d] and nothing else but PC (and the open convoy). -/
def Obligations.ImmediateResults : Prop :=
  ∀ (s : State) (d a : Reg5) (i : BitVec 16) (n : BitVec 6) (u : BitVec 21), s.hart.sound = true →
    let x := s.gs a
    let k : Word := BitVec.ofInt 64 i.toInt
    let w := fun (v : Word) => Host.Outcome.next (s.wrote false [a] d v)
    let w0 := fun (v : Word) => Host.Outcome.next (s.wrote false [] d v)
    exec (.addi d a i) s = w (BitVec.ofInt 64 (x.toInt + i.toInt)) ∧
    exec (.andi d a i) s = w (x &&& k) ∧ exec (.ori d a i) s = w (x ||| k) ∧ exec (.xori d a i) s = w (x ^^^ k) ∧
    exec (.slti d a i) s = w (if x.toInt < i.toInt then 1 else 0) ∧
    exec (.sltiu d a i) s = w (if x.toNat < k.toNat then 1 else 0) ∧
    exec (.slli d a n) s = w (BitVec.ofNat 64 (x.toNat * 2 ^ n.toNat)) ∧
    exec (.srli d a n) s = w (BitVec.ofNat 64 (x.toNat / 2 ^ n.toNat)) ∧
    exec (.srai d a n) s = w (BitVec.ofInt 64 (x.toInt / 2 ^ n.toNat)) ∧
    exec (.lhi d u) s = w0 (BitVec.ofInt 64 (u.toInt * 2 ^ 11)) ∧
    exec (.apc d u) s = w0 (BitVec.ofInt 64 (s.hart.pc.toInt + u.toInt * 2 ^ 11))

/-- R71, R72: products are the low or high 64 bits of the exact product; division truncates; a divisor of 0 gives a quotient of all ones and the dividend as the remainder, and
−2^63 divided by −1 gives −2^63 with remainder 0. Nothing else but PC (and the open convoy) changes. -/
def Obligations.MultiplyAndDivideResults : Prop :=
  ∀ (s : State) (d a b : Reg5), s.hart.sound = true →
    let x := s.gs a
    let y := s.gs b
    let w := fun (v : Word) => Host.Outcome.next (s.wrote false [a, b] d v)
    exec (.mul d a b) s = w (BitVec.ofNat 64 (x.toNat * y.toNat)) ∧
    exec (.mulh d a b) s = w (BitVec.ofInt 64 (x.toInt * y.toInt / 2 ^ 64)) ∧
    exec (.mulhu d a b) s = w (BitVec.ofNat 64 (x.toNat * y.toNat / 2 ^ 64)) ∧
    exec (.mulhsu d a b) s = w (BitVec.ofInt 64 (x.toInt * (y.toNat : Int) / 2 ^ 64)) ∧
    exec (.div d a b) s = w (if y = 0 then BitVec.ofInt 64 (-1) else if x.toInt = -2 ^ 63 ∧ y.toInt = -1 then x else BitVec.ofInt 64 (x.toInt.tdiv y.toInt)) ∧
    exec (.divu d a b) s = w (if y = 0 then BitVec.ofInt 64 (-1) else BitVec.ofNat 64 (x.toNat / y.toNat)) ∧
    exec (.rem d a b) s = w (if y = 0 then x else if x.toInt = -2 ^ 63 ∧ y.toInt = -1 then 0 else BitVec.ofInt 64 (x.toInt.tmod y.toInt)) ∧
    exec (.remu d a b) s = w (if y = 0 then x else BitVec.ofNat 64 (x.toNat % y.toNat))

/-- R73: `clz` and `ctz` count the zero bits above the highest and below the lowest one bit, 64 for 0; `pop` counts the one bits; `rev8` puts byte k at byte 7 − k; the extensions
are of the low byte, halfword and word. Nothing else but PC (and the open convoy) changes. -/
def Obligations.BitInstructionResults : Prop :=
  ∀ (s : State) (d a : Reg5), s.hart.sound = true →
    let x := s.gs a
    let w := fun (v : Word) => Host.Outcome.next (s.wrote false [a] d v)
    (∃ n : Nat, n ≤ 64 ∧ x.toNat < 2 ^ (64 - n) ∧ (n < 64 → 2 ^ (63 - n) ≤ x.toNat) ∧ exec (.clz d a) s = w (BitVec.ofNat 64 n)) ∧
    (∃ n : Nat, n ≤ 64 ∧ (∀ k < n, x.getLsbD k = false) ∧ (n < 64 → x.getLsbD n = true) ∧ exec (.ctz d a) s = w (BitVec.ofNat 64 n)) ∧
    exec (.pop d a) s = w (BitVec.ofNat 64 ((List.range 64).countP x.getLsbD)) ∧
    (∃ v : Word, (∀ k < 8, v.toNat / 2 ^ (8 * k) % 256 = x.toNat / 2 ^ (8 * (7 - k)) % 256) ∧ exec (.rev8 d a) s = w v) ∧
    exec (.sextb d a) s = w (BitVec.ofInt 64 (x.toInt.bmod (2 ^ 8))) ∧
    exec (.sexth d a) s = w (BitVec.ofInt 64 (x.toInt.bmod (2 ^ 16))) ∧
    exec (.sextw d a) s = w (BitVec.ofInt 64 (x.toInt.bmod (2 ^ 32))) ∧
    exec (.zextw d a) s = w (BitVec.ofNat 64 (x.toNat % 2 ^ 32))

/-- R12, R81: a conditional branch goes to PC + 4 × offset where its condition holds and to PC + 4 where it does not; R82: `jal` and `jalr` link PC + 4 and jump, the base of `jalr`
being read before the link is written, and a target of `jalr` that is not a multiple of 4 traps AL with nothing written; R83: `vloop` subtracts VL and branches while the difference
is positive. Nothing else changes. -/
def Obligations.ControlTransferResults : Prop :=
  ∀ (s : State) (d a b : Reg5) (o : BitVec 16) (u : BitVec 21), s.hart.sound = true →
    let x := s.gs a
    let y := s.gs b
    let to_ := fun (rs : List Reg5) (pc : Word) => s.hart.past pc (s.hart.convoyPast false rs)
    let br := fun (c : Bool) => Host.Outcome.next ({ s with hart := to_ [a, b] (if c then BitVec.ofInt 64 (s.hart.pc.toInt + 4 * o.toInt) else s.hart.pc + 4) } : State)
    exec (.beq a b o) s = br (x = y) ∧ exec (.bne a b o) s = br (x ≠ y) ∧
    exec (.blt a b o) s = br (x.toInt < y.toInt) ∧ exec (.bge a b o) s = br (y.toInt ≤ x.toInt) ∧
    exec (.bltu a b o) s = br (x.toNat < y.toNat) ∧ exec (.bgeu a b o) s = br (y.toNat ≤ x.toNat) ∧
    exec (.jal d u) s = .next { s with hart := (to_ [] (BitVec.ofInt 64 (s.hart.pc.toInt + 4 * u.toInt))).ps d (s.hart.pc + 4) } ∧
    (let t : Word := BitVec.ofInt 64 (x.toInt + o.toInt)
     (t.toNat % 4 = 0 → exec (.jalr d a o) s = .next { s with hart := (to_ [a] t).ps d (s.hart.pc + 4) }) ∧
     (t.toNat % 4 ≠ 0 → exec (.jalr d a o) s = .next (s.trap ⟨0x05, t⟩))) ∧
    (s.hart.owns = true →
      let v : Word := BitVec.ofInt 64 (x.toInt - s.hart.vl)
      exec (.vloop a o) s = .next { s with hart := (to_ [a] (if 0 < v.toInt then BitVec.ofInt 64 (s.hart.pc.toInt + 4 * o.toInt) else s.hart.pc + 4)).ps a v })

/-- R52, R53, R55, R57, R84, R85: the scalar f32 instructions write s[d] with the exact result rounded once in the mode of the word (code 7: FCSR.RM), zero-extended, and OR the exceptions
into FCSR; minima, maxima and compares round nothing; nothing else but PC (and the open convoy) changes. `FVal` and the rounding functions are those of
Machine/Numbers.lean. -/
def Obligations.ScalarFloatResults : Prop :=
  ∀ (s : State) (d a b : Reg5) (r : BitVec 3), s.hart.sound = true →
    let rm := if r = 7 then RM.ofCode (s.hart.fcsr.toNat / 32 % 8) else RM.ofCode r.toNat
    let x := FName.f32.read ((s.gs a).toNat % 2 ^ 32)
    let y := FName.f32.read ((s.gs b).toNat % 2 ^ 32)
    let z := FName.f32.read ((s.gs d).toNat % 2 ^ 32)
    let w := fun (rs : List Reg5) (v : Nat) (e : Exc) =>
      Host.Outcome.next ({ s with hart := { (s.hart.scalarPast false rs).ps d (BitVec.ofNat 64 v) with fcsr := s.hart.fcsr ||| e.fcsr } } : State)
    let rounded := fun (rs : List Reg5) (rm : RM) (v : FVal × Exc) => w rs (FName.f32.round rm false v.1).1 (v.2.or (FName.f32.round rm false v.1).2)
    let invalid : Exc := { nv := x.isNan || y.isNan }
    exec (.fadd d a b r) s = rounded [a, b] rm (FVal.add rm x y) ∧
    exec (.fsub d a b r) s = rounded [a, b] rm (FVal.add rm x y.neg) ∧
    exec (.fmul d a b r) s = rounded [a, b] rm (FVal.mul x y) ∧
    exec (.fdiv d a b r) s = rounded [a, b] rm (FVal.div x y) ∧
    exec (.fsqrt d a r) s = rounded [a] rm x.sqrt ∧
    exec (.fma d a b r) s = rounded [d, a, b] rm ((FVal.add rm z (FVal.mul x y).1).1, (FVal.mul x y).2.or (FVal.add rm z (FVal.mul x y).1).2) ∧
    exec (.fmin d a b r) s = rounded [a, b] .rne (FVal.minimum x y, {}) ∧
    exec (.fmax d a b r) s = rounded [a, b] .rne (FVal.maximum x y, {}) ∧
    exec (.feq d a b r) s = w [a, b] (FVal.eq x y).toNat {} ∧
    exec (.flt d a b r) s = w [a, b] (FVal.lt x y).toNat invalid ∧
    exec (.fle d a b r) s = w [a, b] (FVal.lt x y || FVal.eq x y).toNat invalid ∧
    exec (.fcvtWS d a r) s = w [a] (intBits 64 (bitsInt true 32 (x.toIntFmt rm true 32).1)) (x.toIntFmt rm true 32).2 ∧
    exec (.fcvtSW d a r) s = rounded [a] rm (FVal.ofInt false (bitsInt true 32 ((s.gs a).toNat % 2 ^ 32)) 0, {}) ∧
    exec (.fcvtBfS d a r) s = w [a] (FName.bf16.round rm false x).1 (FName.bf16.round rm false x).2 ∧
    exec (.fcvtSBf d a r) s = rounded [a] .rne (FName.bf16.read ((s.gs a).toNat % 2 ^ 16), {}) ∧
    exec (.fln d a r) s = rounded [a] rm x.ln ∧
    exec (.fexp d a r) s = rounded [a] rm x.exp

/-- R49, R52, R54: of the finite values of a format, rounding an exact value to nearest gives one that lies as near as any, and of two that lie equally near the one of even significand
(RNE), or the one farther from zero (RNA); toward −∞ the greatest that does not exceed it, toward +∞ the least that it does not exceed, toward zero the one of those two
that is no larger in magnitude: for every format of Table 2-8, wherever no overflow is raised. Where it is raised, the value lies beyond the largest finite one, and the result is the infinity of its
sign or that largest finite value, by the mode; for the formats without infinities it is what R54 puts in the place of ±∞. NaN and ±∞ convert as R54 and Table 2-8 say. -/
def Obligations.RoundingPicksTheRightNeighbour : Prop :=
  ∀ (f : FName) (neg sat : Bool) (m : Nat) (e : Int) (rm : RM),
    let sign : ℚ := if neg then -1 else 1
    let v : ℚ := sign * m * 2 ^ e
    let big : ℚ := match f with | .f32 => (2 ^ 24 - 1) * 2 ^ 104 | .f16 => 65504 | .bf16 => (2 ^ 8 - 1) * 2 ^ 120 | .e5m2 => 57344 | .e4m3 => 448 | .e2m1 => 6
    let z := f.round rm sat (.num neg m e)
    (∀ (c : Nat) (r u : ℚ), c < 2 ^ f.width → z.2.ov = false → (f.read z.1).rat = some r → (f.read c).rat = some u →
      match rm with
      | .rne => |r - v| ≤ |u - v| ∧ (|r - v| = |u - v| → u ≠ r → z.1 % 2 = 0)
      | .rna => |r - v| ≤ |u - v| ∧ (|r - v| = |u - v| → |u| ≤ |r|)
      | .rdn => r ≤ v ∧ (u ≤ v → u ≤ r)
      | .rup => v ≤ r ∧ (v ≤ u → r ≤ u)
      | .rtz => |r| ≤ |v| ∧ (0 ≤ u * v → |u| ≤ |v| → |u| ≤ |r|)) ∧
    (z.2.ov = true → big < |v| ∧
      if rm = .rtz ∨ (rm = .rup ∧ neg = true) ∨ (rm = .rdn ∧ neg = false) then (f.read z.1).rat = some (sign * big)
      else match f with
        | .e4m3 => if sat then (f.read z.1).rat = some (sign * big) else z.1 = 0x7F
        | .e2m1 => (f.read z.1).rat = some (sign * big)
        | _ => f.read z.1 = .inf neg) ∧
    (f.round rm sat .nan).1 = (match f with | .f32 => 0x7FC00000 | .f16 => 0x7E00 | .bf16 => 0x7FC0 | .e5m2 => 0x7E | .e4m3 => 0x7F | .e2m1 => 0) ∧
    (match f with
      | .e4m3 => if sat then (f.read (f.round rm sat (.inf neg)).1).rat = some (sign * 448) else (f.round rm sat (.inf neg)).1 = 0x7F
      | .e2m1 => (f.read (f.round rm sat (.inf neg)).1).rat = some (sign * 6)
      | _ => f.read (f.round rm sat (.inf neg)).1 = .inf neg)

/-! ### Scalar memory access -/

/-- R74, R76, R121, R169: a scalar load of n bytes at an aligned address, placed by translation at a location with no uncorrectable error, there or in a cached copy, and with no buffered write to its bytes,
writes s[d] with the n bytes there, sign- or zero-extended; memory and everything but PC (and what translation installs, R225, R226) stay. -/
def Obligations.ScalarLoadsReadMemory : Prop :=
  ∀ (s s1 : State) (d a : Reg5) (o : BitVec 13) (l : Nat) (strict : Bool),
    let ea : Word := BitVec.ofInt 64 ((s.gs a).toInt + o.toInt)
    s.hart.sound = true → tabGet s.hart.answers 0 = none →
    (s.checked false [a]).translate s.hart.agent .read ea = (s1, .loc l strict) →
    ∀ p ∈ ([(Instr.ldB, 1, true), (Instr.ldH, 2, true), (Instr.ldW, 4, true), (Instr.ldD, 8, true), (Instr.ldBu, 1, false), (Instr.ldHu, 2, false),
        (Instr.ldWu, 4, false)] : List ((Reg5 → Reg5 → BitVec 13 → Instr) × Nat × Bool)),
      ea.toNat % p.2.1 = 0 → s1.bad l p.2.1 = false → s1.badCopies = [] → s1.quietAt l p.2.1 = true →
      let x := leNat (memRead p.2.1 l s1.mem)
      exec (p.1 d a o) s = .next (s1.retired d (if p.2.2 then BitVec.ofInt 64 (Int.bmod x (2 ^ (8 * p.2.1))) else BitVec.ofNat 64 x))

/-- R77, R237: a load through the constant cache of an address that translation takes to a location writes s[d] from its line and fills the line. Where no write has performed on the bytes
since the hart's job started or its last `fence.c`, it is what stands there; else the value that the location held at one time since. Memory and everything but PC (and what translation
installs) stay. -/
def Obligations.ConstantLoadsReadTheirLine : Prop :=
  ∀ (s s1 : State) (d a : Reg5) (o : BitVec 13) (l : Nat) (strict : Bool),
    let ea : Word := BitVec.ofInt 64 ((s.gs a).toInt + o.toInt)
    s.hart.sound = true → s.hart.cur = [] →
    (s.checked false [a]).translate s.hart.agent .read ea = (s1, .loc l strict) →
    s1.badCopies = [] → s1.quietAt (64 * (l / 64)) 64 = true →
    ∀ p ∈ ([(Instr.ldcB, 1, true), (Instr.ldcH, 2, true), (Instr.ldcW, 4, true), (Instr.ldcD, 8, true), (Instr.ldcBu, 1, false), (Instr.ldcHu, 2, false),
        (Instr.ldcWu, 4, false)] : List ((Reg5 → Reg5 → BitVec 13 → Instr) × Nat × Bool)),
      ea.toNat % p.2.1 = 0 → s1.bad l p.2.1 = false →
      let written := ∃ w ∈ s1.past, s1.hart.constAt ≤ w.1 ∧ w.2.1 < l + p.2.1 ∧ l < w.2.1 + w.2.2.length
      let ends := fun (t : State) (line : List Byte) =>
        let x := leNat ((line.drop (l % 64)).take p.2.1)
        (t.fillConst (l / 64) line).retired d (if p.2.2 then BitVec.ofInt 64 (Int.bmod x (2 ^ (8 * p.2.1))) else BitVec.ofNat 64 x)
      (¬ written → exec (p.1 d a o) s = .next (ends s1 (memRead 64 (64 * (l / 64)) s1.mem))) ∧
      (written → ∃ num, s1.hart.constAt ≤ num ∧ num ≤ max s1.hart.constAt s1.writes ∧
        exec (p.1 d a o) s = .next (ends s1.took (s1.heldAt num (64 * (l / 64)) 64)))

/-- R74, R76, R169: a scalar store of the low n bytes of s[v] at an aligned address, placed by translation at a location that no unfinished copy of the hart covers, enters the store buffer
of the hart with its bytes, the lowest address least significant; no register is written, and while the buffer has room no byte of memory changes. -/
def Obligations.ScalarStoresEnterTheStoreBuffer : Prop :=
  ∀ (s s1 : State) (v a : Reg5) (o : BitVec 13) (l : Nat) (strict : Bool),
    let ea : Word := BitVec.ofInt 64 ((s.gs a).toInt + o.toInt)
    s.hart.sound = true → tabGet s.hart.answers 0 = none →
    (s.checked false [v, a]).translate s.hart.agent .write ea = (s1, .loc l strict) →
    ∀ p ∈ ([(Instr.stB, 1), (Instr.stH, 2), (Instr.stW, 4), (Instr.stD, 8)] : List ((Reg5 → Reg5 → BitVec 13 → Instr) × Nat)),
      ea.toNat % p.2 = 0 → s.copyHits s.hart.id ea p.2 = false →
      let bs := natLe p.2 (s.gs v).toNat
      (s1.hart.sbuf.length < 8 →
        exec (p.1 v a o) s = .next { s1 with hart := { s1.hart.past (s1.hart.pc + 4) s1.hart.convoy with
          sbuf := s1.hart.sbuf ++ [⟨s1.hart.wseq, l, bs, s1.hart.strip, none, ea, 0, ⟨0, []⟩⟩], wseq := s1.hart.wseq + 1 } }) ∧
      exec (p.1 v a o) s = .next ((s1.bufferS s1.hart.id l bs ea).retired 0 0)

/-- R169, R90: a scalar load reads the bytes of the hart's own buffered stores, and after a fence memory holds them: for a location that no other write is buffered for, a doubleword store
followed by a load of it gives the stored value, and followed by a `fence` of any scope leaves it in memory. Stated for the untranslated windows, where placing an access changes
nothing. -/
def Obligations.StoresReachLoadsAndMemory : Prop :=
  ∀ (s s1 s2 : State) (v d a : Reg5) (o : BitVec 13) (sc : BitVec 3) (l : Nat),
    let ea : Word := BitVec.ofInt 64 ((s.gs a).toInt + o.toInt)
    (∀ t : State, t.hart.agent = s.hart.agent → t.cores = s.cores → t.spOwner = s.spOwner → ∀ k, t.translate t.hart.agent k ea = (t, .loc l false)) →
    ea.toNat % 8 = 0 → mailboxHart l 8 = none → s.hart.sbuf = [] → s.hart.vbuf = [] → s.harts = [] → s.eweok.toList.all (fun h => !h.run) = true → s.clusters = [] → s.churns = [] →
    s.ecc = [] → s.badCopies = [] → s.hart.sound = true → s.hart.answers = [] → s.hart.cur = [] → sc.toNat ≤ 3 →
    Memory.wf s.mem = true → exec (.stD v a o) s = .next s1 → exec (.fence sc) s1 = .next s2 →
    (∃ t, exec (.ldD d a o) s1 = .next t ∧ (d ≠ 0 → t.gs d = s.gs v) ∧ t.mem = s.mem) ∧
    memRead 8 l s2.mem = natLe 8 (s.gs v).toNat ∧ (∀ k, (k < l ∨ l + 8 ≤ k) → memGet s2.mem k = memGet s.mem k)

/-- R76, R78, R89, R315: a scalar access whose address is not a multiple of its width traps AL with the address in TVAL, before anything else of it, and has none of its effect. That
AL comes before the TKR of a release with a ticket outstanding is the model's choice (log 34: R354, R141). -/
def Obligations.MisalignedScalarAccessesTrap : Prop :=
  ∀ (s : State) (d a b : Reg5) (o : BitVec 13) (w : BitVec 2) (sc : BitVec 3) (q : BitVec 2) (k : BitVec 4) (z : BitVec 3), s.hart.sound = true →
    let ea : Word := BitVec.ofInt 64 ((s.gs a).toInt + o.toInt)
    (∀ p ∈ ([(Instr.ldH, 2), (Instr.ldW, 4), (Instr.ldD, 8), (Instr.ldHu, 2), (Instr.ldWu, 4), (Instr.stH, 2), (Instr.stW, 4), (Instr.stD, 8), (Instr.ldcH, 2),
        (Instr.ldcW, 4), (Instr.ldcD, 8), (Instr.ldcHu, 2), (Instr.ldcWu, 4)] : List ((Reg5 → Reg5 → BitVec 13 → Instr) × Nat)),
      ea.toNat % p.2 ≠ 0 → exec (p.1 d a o) s = .next (s.trap ⟨0x05, ea⟩)) ∧
    (∀ p ∈ ([Instr.amoSwp, Instr.amoAdd, Instr.amoAnd, Instr.amoOr, Instr.amoXor, Instr.amoMin, Instr.amoMax, Instr.amoMinu, Instr.amoMaxu, Instr.amoCas] :
        List (Reg5 → Reg5 → Reg5 → BitVec 2 → BitVec 3 → BitVec 2 → Instr)),
      (s.gs a).toNat % (if w = 2 then 4 else 8) ≠ 0 → exec (p d a b w sc q) s = .next (s.trap ⟨0x05, s.gs a⟩)) ∧
    ((s.gs a).toNat % 8 ≠ 0 → exec (.mwait d a b) s = .next (s.trap ⟨0x05, s.gs a⟩)) ∧
    ((s.gs a).toNat % 2 ^ (z.toNat % 4) ≠ 0 → exec (.pld d a k z) s = .next (s.trap ⟨0x05, s.gs a⟩) ∧ exec (.pst d a k z) s = .next (s.trap ⟨0x05, s.gs a⟩))

/-- R78, R79, R80: an atomic at an aligned address, placed by translation at a location, with no buffered write to its bytes, reads the n bytes there into s[d], sign-extended, and writes the new value
there in the same step; `cas` writes only where the old value equals s[d]. With rel or acqrel it first performs every write the hart has buffered; with a ticket outstanding it then traps TKR
instead. -/
def Obligations.AtomicsReadAndWriteTogether : Prop :=
  ∀ (s s1 : State) (d a b : Reg5) (w : BitVec 2) (sc : BitVec 3) (o : BitVec 2) (l : Nat) (strict : Bool),
    let n := if w = 2 then 4 else 8
    let rel := o.getLsbD 1
    let s0 := s.checked false [d, a, b]
    let sb := fun (x : Nat) => Int.bmod x (2 ^ (8 * n))
    s.hart.sound = true → s.hart.cur = [] → tabGet s.hart.answers 0 = none → (s.gs a).toNat % n = 0 →
    ∀ p ∈ ([(Instr.amoSwp, fun _ y _ => y), (Instr.amoAdd, fun x y _ => (x + y) % 2 ^ (8 * n)), (Instr.amoAnd, fun x y _ => x &&& y), (Instr.amoOr, fun x y _ => x ||| y),
        (Instr.amoXor, fun x y _ => x ^^^ y), (Instr.amoMin, fun x y _ => if sb x < sb y then x else y), (Instr.amoMax, fun x y _ => if sb x < sb y then y else x),
        (Instr.amoMinu, fun x y _ => min x y), (Instr.amoMaxu, fun x y _ => max x y), (Instr.amoCas, fun x y c => if x = c then y else x)] :
        List ((Reg5 → Reg5 → Reg5 → BitVec 2 → BitVec 3 → BitVec 2 → Instr) × (Nat → Nat → Nat → Nat))),
      (rel = true → 0 < s.outstanding s.hart → exec (p.1 d a b w sc o) s = .next (s.trap ⟨0x07, BitVec.ofNat 64 (s.outstanding s.hart)⟩)) ∧
      ((rel = true → s.outstanding s.hart = 0 ∧ s.engineBusy s.hart.id = false) → s.copyHits s.hart.id (s.gs a) n = false →
        (if rel then s0.drainAll s.hart.id else s0).translate s.hart.agent .write (s.gs a) = (s1, .loc l strict) →
        s1.bad l n = false → s1.badCopies = [] → s1.quietAt l n = true → Memory.wf s1.mem = true →
        let old := leNat (memRead n l s1.mem)
        let new := p.2 old ((s.gs b).toNat % 2 ^ (8 * n)) ((s.gs d).toNat % 2 ^ (8 * n))
        ∃ t, exec (p.1 d a b w sc o) s = .next t ∧ (d ≠ 0 → t.gs d = BitVec.ofInt 64 (sb old)) ∧ (∀ r, r ≠ d → t.gs r = s.gs r) ∧ t.hart.pc = s.hart.pc + 4 ∧
          memRead n l t.mem = natLe n new ∧ (∀ k, (k < l ∨ l + n ≤ k) → memGet t.mem k = memGet s1.mem k))

/-- R309, R314: a scalar access through a valid peer register at an aligned address completes with the answer of the owner: a load or an atomic writes s[d], sign-extended for the signed
widths, and nothing else changes. One that is new sends its request and waits at the instruction, with its registers as they were: that it keeps the hart until then is the model's choice
(log 12). Where the owner is the hart's own package, that is stated where no unfinished copy of the hart covers its bytes. -/
def Obligations.PeerScalarAccessesTakeTheirAnswer : Prop :=
  ∀ (s : State) (d a b : Reg5) (k : BitVec 4) (z : BitVec 3) (x : Nat) (st : Bool),
    let n := 2 ^ (z.toNat % 4)
    let p := s.hart.peers.getD k.toNat 0
    s.hart.sound = true → p.getLsbD 63 = true → (s.gs a).toNat % n = 0 →
    (s.hart.answers = [] → s.reachable (p.toNat % 128) = true → s.copyHits s.hart.id (s.gs a) n = false → (∀ t ∈ s.tickets s.hart.id, t.names s.hart (p.toNat % 128) (s.gs a) = false) →
      ∀ q ∈ ([(Instr.pld d a k z, .load, 0), (Instr.pst d a k z, .store, (s.gs d).toNat % 2 ^ (8 * n))] : List (Instr × ROp × Nat)),
        ∃ t, exec q.1 s = .next t ∧ t.hart.pc = s.hart.pc ∧ t.hart.wait = .remote 1 ∧ t.hart.s = s.hart.s ∧
          t.sent = s.sent ++ [⟨s.seq, s.pkg.toNat, p.toNat % 128, ownerDie (p.toNat / 256 % 16) (s.gs a), s.hart.id, s.hart.ctxid, !s.hart.super,
            [⟨0, s.gs a, n, q.2.1, q.2.2, 0⟩], none⟩]) ∧
    (tabGet s.hart.answers 0 = some (.done x st) →
    exec (.pld d a k z) s = .next (s.wrote false [a] d (if z.toNat < 3 then BitVec.ofInt 64 (Int.bmod x (2 ^ (8 * n))) else BitVec.ofNat 64 (x % 2 ^ (8 * n)))) ∧
    exec (.pst d a k z) s = .next (s.wrote false [a, d] 0 0) ∧
    (∀ p ∈ ([Instr.pamoSwp, Instr.pamoAdd, Instr.pamoAnd, Instr.pamoOr, Instr.pamoXor, Instr.pamoMin, Instr.pamoMax, Instr.pamoMinu, Instr.pamoMaxu, Instr.pamoCas] :
        List (Reg5 → Reg5 → Reg5 → BitVec 4 → BitVec 3 → Instr)),
      exec (p d a b k z) s = .next (s.wrote false [a, d, b] d (BitVec.ofInt 64 (Int.bmod x (2 ^ (8 * n)))))))

/-! ### Control registers, strips, fences and waits -/

/-- R34, R38, R93, Table 2-2: `getc` writes s[sd] with the register, whose reserved bits read 0, and `setc` writes the RW fields of the register from s[sa]; nothing else but PC and the open convoy
changes. A request that a written IE lets in is noted, to be taken before the next instruction. -/
def Obligations.ControlRegistersReadAndWrite : Prop :=
  ∀ (s : State) (d a : Reg5),
    (∀ p ∈ ([(0x002, s.hart.vstart.toNat), (0x004, s.hart.slip.toNat), (0x005, s.hart.fcsr.toNat), (0x007, s.hart.skey.toNat),
        (0x008, s.hart.sstep.toNat), (0x019, s.tkst.toNat), (0x020, s.pkg.toNat * 2 ^ 10 + s.hart.id), (0x021, s.hart.jobid.toNat), (0x022, s.hart.gang.toNat), (0x023, s.cycle),
        (0x025, s.brdy.toNat)] : List (BitVec 16 × Nat)),
      exec (.getc d p.1) s = .next (s.wrote true [] d (BitVec.ofNat 64 p.2))) ∧
    (s.hart.owns = true → ∀ p ∈ ([(0x000, s.hart.vl), (0x001, s.hart.vtype.toNat), (0x003, s.hart.pend * 256 + s.hart.lanes)] : List (BitVec 16 × Nat)),
      exec (.getc d p.1) s = .next (s.wrote true [] d (BitVec.ofNat 64 p.2))) ∧
    (s.hart.super = true → ∀ p ∈ ([(0x006, s.hart.tmap.toNat), (0x010, s.hart.cause.toNat), (0x011, s.hart.epc.toNat), (0x012, s.hart.tval.toNat), (0x013, s.hart.tvec.toNat),
        (0x014, s.hart.status.toNat), (0x015, s.hart.ctxid.toNat), (0x016, (if s.hart.vownV then 2 ^ 63 else 0) + s.hart.vownCtx.toNat),
        (0x017, s.hart.fltBase.toNat * 2 ^ 16 + s.hart.fltHead.toNat), (0x018, s.hart.fltn.toNat), (0x024, (s.getCore (coreOf s.hart.id)).brole.toNat)] : List (BitVec 16 × Nat)),
      exec (.getc d p.1) s = .next (s.wrote true [] d (BitVec.ofNat 64 p.2))) ∧
    (s.hart.sound = true →
     let x := s.gs a
     let sets := fun (h : Hart) => Host.Outcome.next ({ s with hart := h.scalarPast true [a] } : State)
     exec (.setc a 0x002) s = sets { s.hart with vstart := x.truncate 16 } ∧
     exec (.setc a 0x004) s = sets { s.hart with slip := BitVec.ofNat 5 (max 1 (min x.toNat 16)) } ∧
     (x.toNat / 32 % 8 < 5 → exec (.setc a 0x005) s = sets { s.hart with fcsr := x.truncate 10 }) ∧
     exec (.setc a 0x007) s = sets { s.hart with skey := x } ∧ exec (.setc a 0x008) s = sets { s.hart with sstep := x } ∧
     (s.hart.super = true →
       exec (.setc a 0x006) s = sets { s.hart with tmap := x &&& 0x9F9F9F9F9F9F9F9F } ∧ exec (.setc a 0x010) s = sets { s.hart with cause := x.truncate 8 } ∧
       exec (.setc a 0x011) s = sets { s.hart with epc := x } ∧ exec (.setc a 0x012) s = sets { s.hart with tval := x } ∧
       exec (.setc a 0x013) s = sets { s.hart with tvec := x &&& ~~~3 } ∧ exec (.setc a 0x014) s = sets { s.hart with status := x.truncate 10 &&& 0x333, seen := s.hart.seen || (x.getLsbD 1 && (s.hart.preempt || !s.hart.irqs.isEmpty)) } ∧
       exec (.setc a 0x015) s = sets { s.hart with ctxid := x.truncate 16 } ∧ exec (.setc a 0x016) s = sets { s.hart with vownV := x.getLsbD 63, vownCtx := x.truncate 16 } ∧
       exec (.setc a 0x017) s = sets { s.hart with fltBase := BitVec.ofNat 48 (x.toNat / 2 ^ 16), fltHead := x.truncate 6 } ∧
       exec (.setc a 0x018) s = sets { s.hart with fltn := x.truncate 32 }))

/-- R40, R41, R92: `vsetl` and `vsetli` apply the pending grant, set VTYPE, VL and VSTART, write VL to s[sd] and open a strip; where the grant changes, the vector registers keep the content bits
below 512 times the smaller grant and every other bit reads 0; nothing else but PC and the open convoy changes. -/
def Obligations.StripsAreGranted : Prop :=
  ∀ (s : State) (d a b : Reg5) (t : BitVec 16), s.hart.owns = true → s.hart.sound = true → vtypeLegal t = true →
    let req := (s.gs a).toInt
    let g := s.hart.pend
    let vlmax := 16384 / (4 * 2 ^ (t.toNat % 8)) * 2 ^ (t.toNat / 8 % 4) * g / 32
    let m := if req ≤ 0 then 0 else min req.toNat vlmax
    let n := if t.getLsbD 15 = true ∧ 32 ≤ req then m - m % 32 else m
    let opened := fun (rs : List Reg5) => Host.Outcome.next ({ s with hart := ({ s.hart.scalarPast true rs with
      vtype := t, vl := n, vstart := 0, lanes := g, strip := s.hart.strip + 1,
      v := if s.hart.lanes = g then s.hart.v else s.hart.v.map (fun (x : VBits) => BitVec.ofNat 16384 (x.toNat % 2 ^ (512 * min s.hart.lanes g))) }).ps d (BitVec.ofNat 64 n) } : State)
    exec (.vsetli d a t) s = opened [a] ∧ (s.gs b = t.zeroExtend 64 → exec (.vsetl d a b) s = opened [a, b])

/-- R90, R91, R171: with no access of an engine for the hart unfinished, and for a `fence` of system scope no ticket outstanding, the fences complete: a `fence` leaves no write of the hart
buffered, `fence.sv` no scalar store, `fence.vs` no vector store, and `fence.c` none and an empty constant cache. Registers stay, and memory changes only at bytes for which a write was buffered.
While an engine's access is unfinished all but `fence.sv` wait at the instruction. -/
def Obligations.FencesPerformBufferedWrites : Prop :=
  ∀ (s : State) (sc : BitVec 3) (i : Instr),
    ((i = .fence sc ∧ sc.toNat ≤ 4 ∧ (sc = 4 → s.outstanding s.hart = 0)) ∨ i = .fenceSv ∨ i = .fenceVs ∨ i = .fenceC) →
    (s.engineBusy s.hart.id = true → i ≠ .fenceSv → s.hart.wait = .none → s.hart.answers = [] → exec i s = .next { s with hart := { s.hart with stall := .waiting } }) ∧
    ((s.engineBusy s.hart.id = false ∨ i = .fenceSv) → Memory.wf s.mem = true →
    ∃ t, exec i s = .next t ∧ t.hart.pc = s.hart.pc + 4 ∧ t.hart.s = s.hart.s ∧ t.hart.v = s.hart.v ∧ t.hart.m = s.hart.m ∧ t.hart.fcsr = s.hart.fcsr ∧
      (i ≠ .fenceVs → t.hart.sbuf = []) ∧ (i ≠ .fenceSv → t.hart.vbuf = []) ∧ (i = .fenceC → (t.getCore (coreOf t.hart.id)).consts = []) ∧
      (i = .fence sc → sc ≠ 0 → (t.getCore (coreOf t.hart.id)).icache = []) ∧
      (∀ k, (∀ p ∈ s.hart.sbuf ++ s.hart.vbuf, p.hits k 1 = false) → memGet t.mem k = memGet s.mem k))

/-- R88, R89: `wfi` completes when a request is pending or it has been woken, else the hart waits; `mwait` whose doubleword, at an aligned address, differs from s[sb] completes with it in s[sd], else
the hart sleeps with s[sd] unchanged; a woken `mwait` completes with the doubleword read again.
R36, R65, R88, R89, R156, R285, R333: a wake ends its wait and nothing else; a software interrupt or pre-emption request that a hart between instructions may take traps INT, with the lowest
pending source, or 0 for a pre-emption request, in TVAL, and is no longer pending; the oldest convoy of a vector queue begins once none of the hart runs, or it is the one that it joins, and its units
are free of other harts. Convoys with a tile instruction begin in the order of those instructions: that order is the model's choice (log 37). -/
def Obligations.WaitsEndAndRequestsAreTaken : Prop :=
  (∀ (s s1 : State) (d a b : Reg5) (x : Nat) (st : Bool),
     ((s.hart.resume = .woken ∨ s.hart.preempt = true ∨ s.hart.irqs ≠ []) → exec .wfi s = .next (s.wrote false [] 0 0)) ∧
     (s.hart.resume ≠ .woken → s.hart.preempt = false → s.hart.irqs = [] → exec .wfi s = .next { s with hart := { s.hart with wait := .wfi, cur := [wWfi], inUse := none } }) ∧
     (s.hart.sound = true → (s.gs a).toNat % 8 = 0 → (s.checked false [a, b]).elem s.hart.id true ⟨0, s.gs a, 8, .load, 0, 0⟩ = (s1, .done x st) →
       ((s.hart.resume = .woken ∨ BitVec.ofNat 64 x ≠ s.gs b) → exec (.mwait d a b) s = .next (s1.retired d (BitVec.ofNat 64 x))) ∧
       (s.hart.resume ≠ .woken → BitVec.ofNat 64 x = s.gs b →
         ∃ l, exec (.mwait d a b) s = .next { s1 with hart := { s1.hart with wait := .mwait l s1.cycle, answers := [], asked := [], told := [], places := [], convoy := s.hart.convoy, cur := [wMwait d a b], inUse := none } }))) ∧
  (∀ (s : State) (k l since : Nat),
     let h := s.getHart k
     (h.vq = [] → exec (.convoyBegin k) s = .next s) ∧
     (∀ c cs, h.vq = c :: cs →
       let all := (if c.joins then h.busy else []) ++ c.members
       ((c.joins = true ∨ h.busy = []) → (∀ u ∈ c.members, s.unitsTaken h.id u + all.count u ≤ u.units) → s.tileBehind h.id c = false →
         exec (.convoyBegin k) s = .next (s.setHart { h with vq := cs, busy := h.busy ++ c.members })) ∧
       (((c.joins = false ∧ h.busy ≠ []) ∨ (∃ u ∈ c.members, u.units < s.unitsTaken h.id u + all.count u) ∨ s.tileBehind h.id c = true) →
         exec (.convoyBegin k) s = .next s)) ∧
     (h.wait = .wfi → exec (.wfiWake k) s = .next (s.setHart { h with wait := .none, resume := .woken })) ∧
     (h.wait = .mwait l since → exec (.mwaitWake k) s = .next (s.setHart { h with wait := .none, resume := .woken })) ∧
     (h.wait = .mwait l since → since + 1048576 ≤ s.cycle → exec (.mwaitTimeout k) s = .next (s.setHart { h with wait := .none, resume := .woken })) ∧
     (h.wait = .tkwait (some l) → l ≤ s.cycle → exec (.tkwaitLimit k) s = .next (s.setHart { h with wait := .none, resume := .limit })) ∧
     (h.run = true → h.stop = false → h.ie = true → h.answers = [] → h.cur = [] → h.stopAt = none → h.resume = .none → h.wait = .none → h.stall ≠ .role → h.id = k →
       (h.preempt = true → exec (.preemptionRequest k) s = .next (s.setHart { ({ h with preempt := false } : Hart).trap ⟨0x0B, 0⟩ with seen := false })) ∧
       (∀ n ns, h.preempt = false → h.irqs = n :: ns →
         exec (.softwareInterrupt k) s = .next (s.setHart { ({ h with irqs := ns } : Hart).trap ⟨0x0B, BitVec.ofNat 64 n⟩ with seen := false }))))

/-! ### Communication registers and gang barriers -/

/-- R196, R197, R199: `tas` of a clear bit that no hart waits for sets it and returns 0; a granted `tas` returns the clocks it has waited, at most 2^32 − 1; else the hart joins the queue. `stst` returns the
bit and sets it; `cdrd` and `cdwr` read and write a data register. `sset` and `sclr`, with no access of an engine for the hart unfinished, perform the hart's buffered writes and then set the bit, or clear it; with waiters
`sclr` grants the oldest and the bit stays set.
R200, R201, R203, Table 8-3: an arrival counts a hart once in each phase and adds its bytes; the phase completes when COUNT = N, PEND = 0 and FAULT = 0. `gbar.a` arrives; `gbar` arrives unless
GARR is set, and completes where its phase has; `gbar.w` returns 0 where the phase of the arrival has completed and 1 where FAULT is set; `gbar.r` clears FAULT. All clear GARR. -/
def Obligations.SemaphoresAndGangBarriers : Prop :=
  (∀ (s : State) (d a : Reg5) (n : BitVec 11),
     let c := s.getCluster (clusterOf s.hart.id)
     let x := s.getSem n.toNat
     let D := (s.checked true []).drainAll s.hart.id
     (s.hart.resume = .none → x.bit = false → x.queue = [] → exec (.tas d n) s = .next ((s.setSem n.toNat ⟨true, []⟩).wrote true [] d 0)) ∧
     (∀ w, s.hart.resume = .granted w → exec (.tas d n) s = .next (s.wrote true [] d (BitVec.ofNat 64 (min w (2 ^ 32 - 1))))) ∧
     (s.hart.resume = .none → x.bit = true →
       exec (.tas d n) s = .next ((s.setSem n.toNat ⟨true, x.queue ++ [(s.hart.id, s.cycle)]⟩).upd (fun h => { h with wait := .tas n.toNat, cur := [wTas d n], inUse := none }))) ∧
     exec (.stst d n) s = .next ((s.setSem n.toNat ⟨true, x.queue⟩).wrote true [] d (if x.bit then 1 else 0)) ∧
     exec (.cdrd d n) s = .next (s.wrote false [] d (c.cds.getD n.toNat 0)) ∧
     (s.hart.sound = true → exec (.cdwr a n) s = .next ((s.setCluster (clusterOf s.hart.id) { c with cds := c.cds.setIfInBounds n.toNat (s.gs a) }).wrote false [a] 0 0)) ∧
     (s.engineBusy s.hart.id = false →
       exec (.sset n) s = .next ((D.setSem n.toNat ⟨true, x.queue⟩).retired 0 0) ∧
       (x.queue = [] → exec (.sclr n) s = .next ((D.setSem n.toNat ⟨false, []⟩).retired 0 0)) ∧
       (∀ k since rest, x.queue = (k, since) :: rest → k ≠ s.hart.id →
         let t := D.setSem n.toNat ⟨true, rest⟩
         exec (.sclr n) s = .next ((t.setHart { t.getHart k with wait := .none, resume := .granted (s.cycle - since) }).retired 0 0)))) ∧
  (∀ (s : State) (d a : Reg5), s.hart.bar < 32 → s.hart.sound = true →
     let c := clusterOf s.hart.id
     let b := s.getBar c s.hart.bar
     let bit : BitVec 32 := BitVec.ofNat 32 (2 ^ s.hart.gangHart)
     let done := fun (x : Bar) => if x.count = x.n ∧ x.pend = 0 ∧ x.fault = false then { x with phase := !x.phase, count := 0, arr := 0 } else x
     let arrived := if b.arr &&& bit = 0 then done { b with arr := b.arr ||| bit, count := b.count + 1, pend := b.pend + s.gs a } else done b
     let past := fun (t : State) => t.hart.pc = s.hart.pc + 4 ∧ t.hart.garr = false ∧ (∀ r, r ≠ d → t.gs r = s.gs r)
     (s.rowsOut s.hart.id = false → ∃ t, exec (.gbarA a) s = .next t ∧ past t ∧ t.gs d = s.gs d ∧ t.getBar c s.hart.bar = arrived ∧ t.hart.sbuf = [] ∧ t.hart.vbuf = []) ∧
     (s.rowsOut s.hart.id = false → s.hart.resume = .none → s.hart.garr = false → arrived.fault = false → arrived.arr &&& bit = 0 →
       ∃ t, exec (.gbar a) s = .next t ∧ past t ∧ t.gs d = s.gs d ∧ t.getBar c s.hart.bar = arrived ∧ t.hart.sbuf = [] ∧ t.hart.vbuf = []) ∧
     (s.hart.resume = .none → s.hart.garr = true → b.fault = false → b.arr &&& bit = 0 →
       exec (.gbar a) s = .next ((s.upd (fun h => { h with status := h.status &&& 0x1FF })).wrote true [a] 0 0)) ∧
     (s.hart.resume = .none → (b.fault = true ∨ b.arr &&& bit = 0) →
       exec (.gbarW d) s = .next ((s.upd (fun h => { h with status := h.status &&& 0x1FF })).wrote true [] d (if b.fault then 1 else 0))) ∧
     (∃ t, exec .gbarR s = .next t ∧ past t ∧ t.gs d = s.gs d ∧ t.getBar c s.hart.bar = done { b with fault := false }))

/-- R35, R90, R203: a `setc` of 5, 6 or 7 into FCSR.RM traps ILL 0x03 with its word, and FCSR is left unchanged; a `fence` of system scope with a ticket outstanding traps TKR with the count of outstanding
tickets, and performs nothing; a `gbar` whose wait returns 1 traps BF with the barrier index and sets GARR.
R140, R307, R308, Table 5-8: an instruction that reads an s register, or a governing mask below VL, whose codeword has an uncorrectable error traps ECC by precise unwind with TVAL 0, and the error has its
machine-check record; stated for one instruction of each shape. (How the registers' codewords are numbered is the model's, log 19.) -/
def Obligations.SystemInstructionsTrap : Prop :=
  ∀ (s : State) (a b d : Reg5) (m x : Reg3) (j : BitVec 1) (o : BitVec 16) (k : Nat),
    (s.hart.sound = true → 5 ≤ (s.gs a).toNat / 32 % 8 → exec (.setc a 0x005) s = .next (s.trap ⟨0x01, BitVec.ofNat 64 ((wSetc a 0x005).toNat * 2 ^ 32 + 3)⟩)) ∧
    (0 < s.outstanding s.hart → exec (.fence 4) s = .next (s.trap ⟨0x07, BitVec.ofNat 64 (s.outstanding s.hart)⟩)) ∧
    (s.hart.sound = true → (s.hart.resume = .barrier true ∨ (s.hart.resume = .none ∧ s.hart.garr = true ∧ (s.getBar (clusterOf s.hart.id) s.hart.bar).fault = true)) →
      exec (.gbar a) s = .next ((s.upd (fun h => { h with status := (h.status &&& 0x1FF) ||| 0x200 })).trap ⟨0x0E, BitVec.ofNat 64 s.hart.bar⟩)) ∧
    (s.hart.cur = [] → let ecc := fun (addr : Nat) => Host.Outcome.next ((s.eccRecord s.hart.id (256 * dieOf s.hart.id) addr).trap ⟨0x0C, 0⟩)
     (a ≠ 0 → s.hart.bad = [sCode a.toNat] →
       exec (.add d a b) s = ecc 0 ∧ exec (.addi d a o) s = ecc 0 ∧ exec (.beq a b o) s = ecc 0 ∧ exec (.ldD d a (o.truncate 13)) s = ecc 0 ∧
       (s.hart.owns = true → s.hart.room .valu j = true → exec (.vaddVs d b a m x j) s = ecc 0)) ∧
     (m ≠ 0 → s.hart.owns = true → s.hart.room .valu j = true → k < 512 → k * 64 < s.hart.vl → s.hart.bad = [512 * (32 + m.toNat) + k] →
       exec (.vaddVv d a b m x j) s = ecc (8 * k)))
/-! ### Vector results: element i of each active element is written, and its exception bits under x; every other element, bit and register stays -/

/-- R44, R10: element i of width w of a group at register r is bits [w * (i mod E) + w - 1 : w * (i mod E)] of register r + i / E, with E = 512 × G / w; a list of elements written gives each
its value, and leaves every other element of the group and every register outside it. -/
def Obligations.ElementsOfRegisterGroups : Prop :=
  ∀ (h : Hart) (r w : Nat) (xs : List (Nat × Nat)),
    let e := 512 * h.lanes / w
    w ∈ [4, 8, 16, 32, 64, 128] → 1 ≤ h.lanes → h.lanes ≤ 32 → (∀ p ∈ xs, r + p.1 / e < 32) → (xs.map (·.1)).Nodup →
    (∀ i k, r + i / e = k → k < 32 → h.elem r w i = ((h.v.getD k 0).extractLsb' (w * (i % e)) w).toNat) ∧
    (∀ p ∈ xs, (h.putElems r w xs).elem r w p.1 = p.2 % 2 ^ w) ∧
    (∀ i, r + i / e < 32 → (∀ p ∈ xs, p.1 ≠ i) → (h.putElems r w xs).elem r w i = h.elem r w i) ∧
    (∀ k, (∀ p ∈ xs, r + p.1 / e ≠ k) → (h.putElems r w xs).v.getD k 0 = h.v.getD k 0)

/-- R97, R98, R101, Table 4-3: the VINT instructions in their vv, vs and vi forms, on operands that may be named, write the result of each active element modulo 2^SEW; b is an element, s[sb], or the
5-bit constant, and a shift counts b modulo SEW. They raise nothing, so x clears the bits of the active elements. -/
def Obligations.VectorIntegerResults : Prop :=
  ∀ (s : State) (d a b : Reg5) (c : BitVec 5) (m x : Reg3) (j : BitVec 1),
    let h := s.hart
    let w := h.sew
    let sg := fun (n : Nat) => Int.bmod n (2 ^ w)
    let md := fun (n : Int) => (n % 2 ^ w).toNat
    ∀ p ∈ ([((Instr.vaddVv, Instr.vaddVs, Instr.vaddVi), UnitClass.valu, fun _ a b => (a + b) % 2 ^ w),
        ((Instr.vsubVv, Instr.vsubVs, Instr.vsubVi), .valu, fun _ a b => md (a - b)),
        ((Instr.vmulVv, Instr.vmulVs, Instr.vmulVi), .vmul, fun _ a b => a * b % 2 ^ w),
        ((Instr.vmulhVv, Instr.vmulhVs, Instr.vmulhVi), .vmul, fun _ a b => if h.fmt = 1 then a * b / 2 ^ w % 2 ^ w else md (sg a * sg b / 2 ^ w)),
        ((Instr.vmaccVv, Instr.vmaccVs, Instr.vmaccVi), .vmul, fun d a b => (d + a * b) % 2 ^ w),
        ((Instr.vnmsacVv, Instr.vnmsacVs, Instr.vnmsacVi), .vmul, fun d a b => md (d - a * b)),
        ((Instr.vminVv, Instr.vminVs, Instr.vminVi), .valu, fun _ a b => if sg b < sg a then b else a),
        ((Instr.vmaxVv, Instr.vmaxVs, Instr.vmaxVi), .valu, fun _ a b => if sg a < sg b then b else a),
        ((Instr.vminuVv, Instr.vminuVs, Instr.vminuVi), .valu, fun _ a b => min a b),
        ((Instr.vmaxuVv, Instr.vmaxuVs, Instr.vmaxuVi), .valu, fun _ a b => max a b),
        ((Instr.vandVv, Instr.vandVs, Instr.vandVi), .valu, fun _ a b => a &&& b),
        ((Instr.vorVv, Instr.vorVs, Instr.vorVi), .valu, fun _ a b => a ||| b),
        ((Instr.vxorVv, Instr.vxorVs, Instr.vxorVi), .valu, fun _ a b => a ^^^ b),
        ((Instr.vsllVv, Instr.vsllVs, Instr.vsllVi), .valu, fun _ a b => a * 2 ^ (b % w) % 2 ^ w),
        ((Instr.vsrlVv, Instr.vsrlVs, Instr.vsrlVi), .valu, fun _ a b => a / 2 ^ (b % w)),
        ((Instr.vsraVv, Instr.vsraVs, Instr.vsraVi), .valu, fun _ a b => md (sg a / 2 ^ (b % w)))] :
        List (((Reg5 → Reg5 → Reg5 → Reg3 → Reg3 → BitVec 1 → Instr) × (Reg5 → Reg5 → Reg5 → Reg3 → Reg3 → BitVec 1 → Instr) ×
          (Reg5 → Reg5 → BitVec 5 → Reg3 → Reg3 → BitVec 1 → Instr)) × UnitClass × (Nat → Nat → Nat → Nat))),
      h.mayJoin p.2.1 j = true →
      (h.operandsOk [h.opd a, h.opd b] [h.opd d] = true → exec (p.1.1 d a b m x j) s =
        .next (s.vecDone p.2.1 j d w m x (fun i => (p.2.2 (h.elem d.toNat w i) (h.elem a.toNat w i) (h.elem b.toNat w i), {})))) ∧
      (h.operandsOk [h.opd a] [h.opd d] = true →
        exec (p.1.2.1 d a b m x j) s = .next (s.vecDone p.2.1 j d w m x (fun i => (p.2.2 (h.elem d.toNat w i) (h.elem a.toNat w i) ((s.gs b).toNat % 2 ^ w), {}))) ∧
        exec (p.1.2.2 d a c m x j) s = .next (s.vecDone p.2.1 j d w m x (fun i => (p.2.2 (h.elem d.toNat w i) (h.elem a.toNat w i) (md c.toInt), {}))))

/-- R56, R102, R103, R104, R105: the saturating instructions clamp the exact result and raise IS where that changes it; the averages round up; `vmerge` takes b where its mask bit is 1 and a elsewhere;
`vmv` copies; `vnsra` shifts a double-width element, rounds in VTYPE.RM and clamps; `vwmul` and `vwadd` write exact double-width results; `vdot4` adds four byte products. -/
def Obligations.SaturatingWideningAndSelectingResults : Prop :=
  ∀ (s : State) (d a b : Reg5) (m x : Reg3) (j : BitVec 1),
    let h := s.hart
    let w := h.sew
    let sg := fun (n : Nat) => Int.bmod n (2 ^ w)
    let clampTo := fun (lo hi n : Int) => ((max lo (min hi n) % 2 ^ w).toNat, ({ is := decide (n < lo ∨ hi < n) } : Exc))
    let cs := clampTo (-2 ^ (w - 1)) (2 ^ (w - 1) - 1)
    let cu := clampTo 0 (2 ^ w - 1)
    let ea := fun i => h.elem a.toNat w i
    let eb := fun i => h.elem b.toNat w i
    let val := fun (n v : Nat) => if h.fmt = 1 then (v : Int) else Int.bmod v (2 ^ n)
    let to2 := fun (n : Int) => ((n % 2 ^ (2 * w)).toNat, ({} : Exc))
    let by4 := fun (i : Nat) => ((List.range 4).map (fun q => val 8 (ea i / 256 ^ q % 256) * val 8 (eb i / 256 ^ q % 256))).sum
    (h.mayJoin .valu j = true → h.operandsOk [h.opd a, h.opd b] [h.opd d] = true →
      exec (.vsadd d a b m x j) s = .next (s.vecDone .valu j d w m x (fun i => cs (sg (ea i) + sg (eb i)))) ∧
      exec (.vsaddu d a b m x j) s = .next (s.vecDone .valu j d w m x (fun i => cu (ea i + eb i))) ∧
      exec (.vssub d a b m x j) s = .next (s.vecDone .valu j d w m x (fun i => cs (sg (ea i) - sg (eb i)))) ∧
      exec (.vssubu d a b m x j) s = .next (s.vecDone .valu j d w m x (fun i => cu ((ea i : Int) - eb i))) ∧
      exec (.vavg d a b m x j) s = .next (s.vecDone .valu j d w m x (fun i => (((sg (ea i) + sg (eb i) + 1) / 2 % 2 ^ w).toNat, {}))) ∧
      exec (.vavgu d a b m x j) s = .next (s.vecDone .valu j d w m x (fun i => ((ea i + eb i + 1) / 2, {}))) ∧
      exec (.vmerge d a b m j) s = .next (s.vecDone .valu j d w 0 0 (fun i => (if h.maskBit m i then eb i else ea i, {})))) ∧
    (h.mayJoin .valu j = true → h.operandsOk [h.opd a] [h.opd d] = true → exec (.vmv d a j) s = .next (s.vecDone .valu j d w 0 0 (fun i => (ea i, {})))) ∧
    (h.mayJoin .valu j = true → w ≤ 32 → h.lmul ≤ 4 → h.operandsOk [⟨a, 2 * h.lmul, 2 * w⟩, h.opd b] [h.opd d] = true →
      exec (.vnsra d a b m x j) s = .next (s.vecDone .valu j d w m x (fun i =>
        let n := roundShiftInt h.vrm (val (2 * w) (h.elem a.toNat (2 * w) i)) (eb i % (2 * w))
        if h.fmt = 1 then cu n else cs n))) ∧
    (w ≤ 32 → h.lmul ≤ 4 → h.operandsOk [h.opd a, h.opd b] [⟨d, 2 * h.lmul, 2 * w⟩] = true → anyOverlap [h.opd a, h.opd b] [⟨d, 2 * h.lmul, 2 * w⟩] = false →
      (h.mayJoin .vmul j = true → exec (.vwmul d a b m j) s = .next (s.vecDone .vmul j d (2 * w) m 0 (fun i => to2 (val w (ea i) * val w (eb i))))) ∧
      (h.mayJoin .valu j = true → exec (.vwadd d a b m j) s = .next (s.vecDone .valu j d (2 * w) m 0 (fun i => to2 (val w (ea i) + val w (eb i)))))) ∧
    (h.mayJoin .vmul j = true → w = 32 → h.operandsOk [h.opd a, h.opd b] [h.opd d] = true →
      exec (.vdot4 d a b m j) s = .next (s.vecDone .vmul j d 32 m 0 (fun i => ((((h.elem d.toNat 32 i : Int) + by4 i) % 2 ^ 32).toNat, {}))))
/-- R52 to R57, R98, R106 to R109, Table 4-4: at FMT 2 or 3 the float instructions write, for each active element, the exact result rounded once in VTYPE.RM, with its exceptions under x and in FCSR; minima,
maxima and `vfsgnj` round nothing; `vfexpb` raises overflow where a − b is positive and no underflow; `vfwma` multiplies narrow values, scaled where SC = 1, and adds to f32 with one rounding; the estimates round
to 12 bits. -/
def Obligations.VectorFloatResults : Prop :=
  ∀ (s : State) (d a b : Reg5) (m x : Reg3) (j : BitVec 1),
    let h := s.hart
    let w := h.sew
    let rd := h.ff.read
    let fit := fun (rm : RM) (v : FVal × Exc) => ((h.ff.round rm h.satBit v.1).1, v.2.or (h.ff.round rm h.satBit v.1).2)
    let mulAdd := fun (z p : FVal × Exc) => ((FVal.add h.vrm z.1 p.1).1, p.2.or (FVal.add h.vrm z.1 p.1).2)
    let neg := fun (p : FVal × Exc) => (p.1.neg, p.2)
    let diff := fun (a b : Nat) => FVal.add .rne (rd a) (rd b).neg
    let bounded := fun (a b : Nat) => h.ff.round h.vrm h.satBit (FVal.exp (diff a b).1).1
    (h.fmt = 2 ∨ h.fmt = 3 →
      (∀ p ∈ ([((Instr.vfaddVv, Instr.vfaddVs), UnitClass.valu, fun _ a b => fit h.vrm (FVal.add h.vrm (rd a) (rd b))),
          ((Instr.vfsubVv, Instr.vfsubVs), .valu, fun _ a b => fit h.vrm (FVal.add h.vrm (rd a) (rd b).neg)),
          ((Instr.vfmulVv, Instr.vfmulVs), .vmul, fun _ a b => fit h.vrm (FVal.mul (rd a) (rd b))),
          ((Instr.vfdivVv, Instr.vfdivVs), .vmul, fun _ a b => fit h.vrm (FVal.div (rd a) (rd b))),
          ((Instr.vfmaVv, Instr.vfmaVs), .vmul, fun d a b => fit h.vrm (mulAdd (rd d, {}) (FVal.mul (rd a) (rd b)))),
          ((Instr.vfnmaVv, Instr.vfnmaVs), .vmul, fun d a b => fit h.vrm (mulAdd (rd d, {}) (neg (FVal.mul (rd a) (rd b))))),
          ((Instr.vfminVv, Instr.vfminVs), .valu, fun _ a b => fit .rne (FVal.minimum (rd a) (rd b), {})),
          ((Instr.vfmaxVv, Instr.vfmaxVs), .valu, fun _ a b => fit .rne (FVal.maximum (rd a) (rd b), {})),
          ((Instr.vfsgnjVv, Instr.vfsgnjVs), .valu, fun _ a b =>
            (if rd a = .nan then h.ff.nanCode else a % 2 ^ (w - 1) + b / 2 ^ (w - 1) % 2 * 2 ^ (w - 1), {})),
          ((Instr.vfexpbVv, Instr.vfexpbVs), .vmul, fun _ a b =>
            ((bounded a b).1, (diff a b).2.or { nx := (bounded a b).2.nx, ov := FVal.lt (.num false 0 0) (diff a b).1 }))] :
          List (((Reg5 → Reg5 → Reg5 → Reg3 → Reg3 → BitVec 1 → Instr) × (Reg5 → Reg5 → Reg5 → Reg3 → Reg3 → BitVec 1 → Instr)) × UnitClass × (Nat → Nat → Nat → Nat × Exc))),
        h.mayJoin p.2.1 j = true →
        (h.operandsOk [h.opd a, h.opd b] [h.opd d] = true → exec (p.1.1 d a b m x j) s =
          .next (s.vecDone p.2.1 j d w m x (fun i => p.2.2 (h.elem d.toNat w i) (h.elem a.toNat w i) (h.elem b.toNat w i)))) ∧
        (h.operandsOk [h.opd a] [h.opd d] = true → exec (p.1.2 d a b m x j) s =
          .next (s.vecDone p.2.1 j d w m x (fun i => p.2.2 (h.elem d.toNat w i) (h.elem a.toNat w i) ((s.gs b).toNat % 2 ^ w))))) ∧
      (h.mayJoin .vmul j = true → h.operandsOk [h.opd a] [h.opd d] = true →
        ∀ p ∈ ([(Instr.vfsqrt, fun a => fit h.vrm (rd a).sqrt), (Instr.vfln, fun a => fit h.vrm (rd a).ln), (Instr.vfexp, fun a => fit h.vrm (rd a).exp),
            (Instr.vfrsqe, fun a => h.estimate (rd a).rsqrt), (Instr.vfrece, fun a => h.estimate (FVal.div (.num false 1 0) (rd a)))] :
            List ((Reg5 → Reg5 → Reg3 → Reg3 → BitVec 1 → Instr) × (Nat → Nat × Exc))),
          exec (p.1 d a m x j) s = .next (s.vecDone .vmul j d w m x (fun i => p.2 (h.elem a.toNat w i))))) ∧
    (let z := fun i => (FName.f32.read (h.elem d.toNat 32 i), ({} : Exc))
     let va := fun i => h.value a (h.elem a.toNat w i) i
     let to32 := fun (v : FVal × Exc) => ((FName.f32.round h.vrm false v.1).1, v.2.or (FName.f32.round h.vrm false v.1).2)
     h.mayJoin .vmul j = true → (3 ≤ h.fmt ∨ (h.fmt = 2 ∧ w = 16)) →
      (h.scaleBad [a, b] (some (h.wideOpd d)) = false → anyOverlap [h.opd a, h.opd b] [h.wideOpd d] = false → h.operandsOk [h.opd a, h.opd b] [h.wideOpd d] = true →
        exec (.vfwmaVv d a b m x j) s = .next (s.vecDone .vmul j d 32 m x (fun i =>
          let vb := h.value b (h.elem b.toNat w i) i
          let r := to32 (mulAdd (z i) (FVal.mul (va i).1 vb.1))
          (r.1, ((va i).2.or vb.2).or r.2)))) ∧
      (h.scaleBad [a] (some (h.wideOpd d)) = false → anyOverlap [h.opd a] [h.wideOpd d] = false → h.operandsOk [h.opd a] [h.wideOpd d] = true →
        exec (.vfwmaVs d a b m x j) s = .next (s.vecDone .vmul j d 32 m x (fun i =>
          let r := to32 (mulAdd (z i) (FVal.mul (va i).1 (h.scalarValue b)))
          (r.1, ((va i).2.or {}).or r.2)))))

/-- R51: the value of an element of an i4x pair before its scale: the marker 1000 in one code of a pair gives the other as e2m1 times 2^OX and itself 0, two markers give 0, and any other pair is two
signed 4-bit integers; R47, R50: with SC = 1 the value is multiplied by the E8M0 scale of its block of 32, a scale of 255 giving NaN with invalid. At FMT 7 the paired scale register has 16 bits for
each block, the scale in [7:0] and OX in [11:8]. -/
def Obligations.NarrowValuesAreScaledAndDecoded : Prop :=
  ∀ (h : Hart) (r : Reg5) (i lo hi ox : Nat), lo < 16 → hi < 16 →
    ((i4xValue lo hi ox false).rat = if hi = 8 then some 0 else if lo = 8 then (FName.e2m1.read hi).rat.map (· * 2 ^ ox) else some ((Int.bmod lo 16 : Int) : ℚ)) ∧
    ((i4xValue lo hi ox true).rat = if lo = 8 then some 0 else if hi = 8 then (FName.e2m1.read lo).rat.map (· * 2 ^ ox) else some ((Int.bmod hi 16 : Int) : ℚ)) ∧
    (h.fmt < 7 → h.scaled = true → r.toNat + h.lmul < 32 →
      let scale : Nat := (h.v.getD (r.toNat + h.lmul) 0).toNat / 2 ^ (8 * (i / 32)) % 2 ^ 8
      let v := h.plainValue (h.elem r.toNat h.sew i)
      (scale = 255 → h.value r (h.elem r.toNat h.sew i) i = (.nan, { nv := true })) ∧
      (scale < 255 → (h.value r (h.elem r.toNat h.sew i) i).1.rat = v.rat.map (· * 2 ^ ((scale : Int) - 127)))) ∧
    (h.fmt = 7 → r.toNat + h.lmul < 32 →
      let entry : Nat := if h.scaled then (h.v.getD (r.toNat + h.lmul) 0).toNat / 2 ^ (16 * (i / 32)) % 2 ^ 16 else 127
      let v := i4xValue (h.elem r.toNat 4 (i / 2 * 2)) (h.elem r.toNat 4 (i / 2 * 2 + 1)) (entry / 2 ^ 8 % 2 ^ 4) (i % 2 == 1)
      (entry % 2 ^ 8 = 255 → h.value r (h.elem r.toNat 4 i) i = (.nan, { nv := true })) ∧
      (entry % 2 ^ 8 < 255 → (h.value r (h.elem r.toNat 4 i) i).1.rat = v.rat.map (· * 2 ^ (((entry % 2 ^ 8 : Nat) : Int) - 127))))

/-- R48, R56, R110 to R113: `vfcvt` rounds a value once to a float target, and a float value to an integer one, clamped; an integer or i4x value to an integer target is rounded and clamped with IS; `vpack`
and `vunpk` convert bytes and 4-bit codes; `vfclass` sets one bit; `vfabs` and `vfneg` change only the sign but for a canonical NaN; `vgmb` writes SKH of SKEY, SSTEP and the index. That a NaN
which a scale of 255 makes of an element sets IS in an integer conversion, as a NaN source does, is the model's reading (log 33: R56, R110). -/
def Obligations.ConversionResults : Prop :=
  ∀ (s : State) (d a c : Reg5) (m x : Reg3) (j : BitVec 1),
    let h := s.hart
    let w := h.sew
    let ea := fun i => h.elem a.toNat w i
    let va := fun i => h.value a (ea i) i
    let lo := fun (sg : Bool) (n : Nat) => if sg then -(2 ^ (n - 1) : Int) else 0
    let hi := fun (sg : Bool) (n : Nat) => if sg then (2 ^ (n - 1) : Int) - 1 else 2 ^ n - 1
    let toInt := fun (sg : Bool) (n : Nat) (v : FVal) =>
      match v with
      | .num neg k e =>
        let r := roundToInt h.vrm neg k e
        (((max (lo sg n) (min (hi sg n) r.1)) % 2 ^ n).toNat, ({ is := decide (r.1 < lo sg n ∨ hi sg n < r.1), nx := r.2 } : Exc))
      | v => v.toIntFmt h.vrm sg n
    (h.mayJoin .valu j = true → h.scaleBad [a] (some (h.opdW d (cvtTo c).width)) = false → h.operandsOk [h.opd a] [h.opdW d (cvtTo c).width] = true →
      ((cvtTo c).width ≠ w → anyOverlap [h.opd a] [h.opdW d (cvtTo c).width] = false) →
      (∀ p ∈ ([(9, .f32), (10, .f16), (11, .bf16), (12, .e4m3), (13, .e5m2), (14, .e2m1)] : List (Reg5 × FName)), c = p.1 →
        exec (.vfcvt d a c m x j) s = .next (s.vecDone .valu j d p.2.width m x (fun i =>
          ((p.2.round h.vrm h.satBit (va i).1).1, (va i).2.or (p.2.round h.vrm h.satBit (va i).1).2)))) ∧
      (∀ p ∈ ([(0, true, 4), (1, true, 8), (2, true, 16), (3, true, 32), (4, true, 64), (5, false, 8), (6, false, 16), (7, false, 32), (8, false, 64)] : List (Reg5 × Bool × Nat)), c = p.1 →
        exec (.vfcvt d a c m x j) s = .next (s.vecDone .valu j d p.2.2 m x (fun i =>
          let r := if h.fmt ≤ 1 ∨ h.fmt = 7 then toInt p.2.1 p.2.2 (va i).1 else (va i).1.toIntFmt h.vrm p.2.1 p.2.2
          (r.1, (va i).2.or r.2))))) ∧
    (h.mayJoin .valu j = true → w = 8 → anyOverlap [h.opd a] [h.opdW d 4] = false → h.operandsOk [h.opd a] [h.opdW d 4] = true →
      exec (.vpack d a x j) s = .next (s.vecDone .valu j d 4 0 x (fun i =>
        let v := Int.bmod (ea i) 256
        if v = -128 then (8, {}) else ((max (-7) (min v 7) % 16).toNat, { is := decide (v < -7 ∨ 7 < v) })))) ∧
    (h.mayJoin .valu j = true → w = 8 → anyOverlap [h.opdW a 4] [h.opd d] = false → h.operandsOk [h.opdW a 4] [h.opd d] = true →
      exec (.vunpk d a j) s = .next (s.vecDone .valu j d 8 0 0 (fun i => (if h.elem a.toNat 4 i = 8 then 128 else (Int.bmod (h.elem a.toNat 4 i) 16 % 256).toNat, {})))) ∧
    (h.mayJoin .valu j = true → h.operandsOk [h.opd a] [h.opd d] = true →
      (h.fmt = 2 ∨ h.fmt = 3 → exec (.vfclass d a m j) s = .next (s.vecDone .valu j d w m 0 (fun i => (2 ^ (match h.ff.read (ea i) with
        | .nan => 8
        | .inf n => if n then 0 else 7
        | .num n k _ => if k = 0 then (if n then 3 else 4) else if ea i % 2 ^ (w - 1) < 2 ^ h.ff.fbits then (if n then 2 else 5) else (if n then 1 else 6)), {})))) ∧
      (2 ≤ h.fmt → h.fmt ≤ 6 →
        exec (.vfabs d a m j) s = .next (s.vecDone .valu j d w m 0 (fun i => (if h.ff.read (ea i) = .nan then h.ff.nanCode else ea i % 2 ^ (w - 1), {}))) ∧
        exec (.vfneg d a m j) s = .next (s.vecDone .valu j d w m 0 (fun i => (if h.ff.read (ea i) = .nan then h.ff.nanCode else ea i ^^^ 2 ^ (w - 1), {}))))) ∧
    (h.mayJoin .vmul j = true → w = 32 → anyOverlap [h.opd a] [h.opd d] = false → h.operandsOk [h.opd a] [h.opd d] = true →
      exec (.vgmb d a m j) s = .next (s.vecDone .vmul j d 32 m 0 (fun i => (skh h.skey h.sstep (ea i), {}))))
/-- R14, R57, R114, R115, Tables 4-6 and 4-7: the compares and the mask instructions write bit i of mD for each active element i and leave every other bit; ordered float compares of a NaN are invalid and
false; `mpop` and `mffs` write s[sd], 0 and −1 where no active bit is set; `mtov` writes elements. Nothing else changes but x, FCSR, VSTART, PC and the convoy. -/
def Obligations.CompareAndMaskResults : Prop :=
  ∀ (s : State) (d a b : Reg5) (m x : Reg3) (j : BitVec 1),
    let h := s.hart
    let w := h.sew
    let sg := fun (n : Nat) => Int.bmod n (2 ^ w)
    let nan := fun (p : Nat) => decide (h.ff.read p = .nan)
    let no : Exc := {}
    let masked := fun (u : UnitClass) (m x : Reg3) (f : Nat → Bool × Exc) =>
      Host.Outcome.next ({ s with hart := h.maskDone u j d x ((h.active m h.vl).map (fun i => (i, f i))) } : State)
    let cmp := fun (i : (Reg5 → Reg5 → Reg5 → Reg3 → Reg3 → BitVec 1 → Instr) × (Reg5 → Reg5 → Reg5 → Reg3 → Reg3 → BitVec 1 → Instr)) (f : Nat → Nat → Bool × Exc) =>
      (h.operandsOk [h.opd a, h.opd b] [] = true → exec (i.1 d a b m x j) s = masked .xlane m x (fun i => f (h.elem a.toNat w i) (h.elem b.toNat w i))) ∧
      (h.operandsOk [h.opd a] [] = true → exec (i.2 d a b m x j) s = masked .xlane m x (fun i => f (h.elem a.toNat w i) ((s.gs b).toNat % 2 ^ w)))
    (h.mayJoin .xlane j = true →
      cmp (.vceqVv, .vceqVs) (fun a b => (decide (a = b), no)) ∧ cmp (.vcneVv, .vcneVs) (fun a b => (decide (a ≠ b), no)) ∧
      cmp (.vcltVv, .vcltVs) (fun a b => (decide (sg a < sg b), no)) ∧ cmp (.vcleVv, .vcleVs) (fun a b => (decide (sg a ≤ sg b), no)) ∧
      cmp (.vcgtVv, .vcgtVs) (fun a b => (decide (sg b < sg a), no)) ∧ cmp (.vcgeVv, .vcgeVs) (fun a b => (decide (sg b ≤ sg a), no)) ∧
      cmp (.vcltuVv, .vcltuVs) (fun a b => (decide (a < b), no)) ∧ cmp (.vcleuVv, .vcleuVs) (fun a b => (decide (a ≤ b), no)) ∧
      (2 ≤ h.fmt → h.fmt ≤ 6 →
        cmp (.vfceqVv, .vfceqVs) (fun a b => (FVal.eq (h.ff.read a) (h.ff.read b), no)) ∧
        cmp (.vfcltVv, .vfcltVs) (fun a b => (FVal.lt (h.ff.read a) (h.ff.read b), { nv := nan a || nan b })) ∧
        cmp (.vfcleVv, .vfcleVs) (fun a b => (FVal.lt (h.ff.read a) (h.ff.read b) || FVal.eq (h.ff.read a) (h.ff.read b), { nv := nan a || nan b })) ∧
        cmp (.vfcunVv, .vfcunVs) (fun a b => (nan a || nan b, no)))) ∧
    (let bit := fun (r : Reg5) (i : Nat) => (h.gm r.toNat).getLsbD i
     let ones := (h.active m h.vl).filter (bit a)
     (h.mayJoin .valu j = true →
       exec (.mand d a b x j) s = masked .valu 0 x (fun i => (bit a i && bit b i, no)) ∧ exec (.mor d a b x j) s = masked .valu 0 x (fun i => (bit a i || bit b i, no)) ∧
       exec (.mxor d a b x j) s = masked .valu 0 x (fun i => (bit a i != bit b i, no)) ∧ exec (.mandn d a b x j) s = masked .valu 0 x (fun i => (bit a i && !bit b i, no)) ∧
       exec (.mnot d a x j) s = masked .valu 0 x (fun i => (!bit a i, no)) ∧ exec (.mmv d a x j) s = masked .valu 0 x (fun i => (bit a i, no)) ∧
       exec (.mset d x j) s = masked .valu 0 x (fun _ => (true, no)) ∧ exec (.mclr d x j) s = masked .valu 0 x (fun _ => (false, no)) ∧
       (h.operandsOk [] [h.opd d] = true → exec (.mtov d a m x j) s = .next (s.vecDone .valu j d w m x (fun i => ((bit a i).toNat, no)))) ∧
       (h.operandsOk [h.opd a] [] = true → exec (.vtom d a m x j) s = masked .valu m x (fun i => (decide (h.elem a.toNat w i ≠ 0), no)))) ∧
     (h.mayJoin .xlane j = true →
       exec (.mpop d a m j) s = .next { s with hart := (h.vectorPast 4 .xlane j [d]).ps d (BitVec.ofNat 64 ones.length) } ∧
       exec (.mffs d a m j) s = .next { s with hart := (h.vectorPast 4 .xlane j [d]).ps d (match ones with | [] => BitVec.ofInt 64 (-1) | i :: _ => BitVec.ofNat 64 i) } ∧
       (d ≠ a → exec (.msbf d a m x j) s = masked .xlane m x (fun i => (decide (∀ k ∈ ones, i < k) && (decide (i < h.vl)), no)))))
/-- R43, R57 to R61, R116, Table 4-8: reductions write s[sd] from the initial value and the active elements: the integer forms extend elements to 64 bits; with VL = 0 a float form writes the initial value; with
REPRO = 1 `vfredsum`, `vfdot` and the norms use the block tree; with REPRO = 0 they return the value of some full binary tree, for `vfdot` over products each of which may be rounded
apart; `vfredmax` and `vfredmin` are exact. Nothing else changes but FCSR, VSTART,
PC and the convoy (and the model's own counter of free values). -/
def Obligations.ReductionResults : Prop :=
  ∀ (s : State) (d a b : Reg5) (m : Reg3) (j : BitVec 1),
    let h := s.hart
    let w := h.sew
    let act := h.active m h.vl
    let ea := fun i => h.elem a.toNat w i
    let sg := fun i => Int.bmod (ea i) (2 ^ w)
    let val := fun i => if h.fmt = 1 then (ea i : Int) else sg i
    let va := fun i => h.value a (ea i) i
    let vb := fun i => h.value b (h.elem b.toNat w i) i
    let f := FName.f32
    let init := f.read ((s.gs b).toNat % 2 ^ 32)
    let res := fun (n : Nat) (v : Word) (e : Exc) => Host.Outcome.next ({ s with free := s.free + n, hart := { (h.vectorPast 4 .xlane j [d]).ps d v with fcsr := h.fcsr ||| e.fcsr } } : State)
    let word := fun (v : FVal) => BitVec.ofNat 64 (f.round .rne false v).1
    let excs := fun (e : Exc) (es : List Exc) => es.foldl Exc.or e
    let mulOf := fun i => ((FVal.mul (va i).1 (vb i).1).1, (((va i).2.or (vb i).2).or (FVal.mul (va i).1 (vb i).1).2))
    let term := fun (rm : RM) (r : FVal × Exc) => (f.read (f.round rm false r.1).1, r.2.or (f.round rm false r.1).2)
    let blocks := fun (rm : RM) (t : Nat → FVal) (x : FVal) => blockSum rm (fun i => if i ∈ act then some (t i) else none) h.vl x
    h.mayJoin .xlane j = true → h.operandsOk [h.opd a] [] = true →
      exec (.vredsum d a b m j) s = res 0 (BitVec.ofInt 64 ((s.gs b).toInt + (act.map val).sum)) {} ∧
      exec (.vredmax d a b m j) s = res 0 (BitVec.ofInt 64 ((act.map sg).foldl max (s.gs b).toInt)) {} ∧
      exec (.vredmin d a b m j) s = res 0 (BitVec.ofInt 64 ((act.map sg).foldl min (s.gs b).toInt)) {} ∧
      exec (.vredmaxu d a b m j) s = res 0 (BitVec.ofNat 64 ((act.map ea).foldl max (s.gs b).toNat % 2 ^ 64)) {} ∧
      exec (.vredminu d a b m j) s = res 0 (BitVec.ofNat 64 ((act.map ea).foldl min (s.gs b).toNat % 2 ^ 64)) {} ∧
      exec (.vredand d a b m j) s = res 0 (((act.map val).map (BitVec.ofInt 64)).foldl (fun x y => x &&& y) (s.gs b)) {} ∧
      exec (.vredor d a b m j) s = res 0 (((act.map val).map (BitVec.ofInt 64)).foldl (fun x y => x ||| y) (s.gs b)) {} ∧
      (2 ≤ h.fmt →
        (h.vl = 0 → ∀ p ∈ ([.vfredmax, .vfredmin] ++ if h.scaleBad [a] none then [] else [.vfredsum] : List (Reg5 → Reg5 → Reg5 → Reg3 → BitVec 1 → Instr)),
          exec (p d a b m j) s = res 0 (BitVec.ofNat 64 ((s.gs b).toNat % 2 ^ 32)) {}) ∧
        (h.vl = 0 → h.scaleBad [a, b] none = false → h.operandsOk [h.opd a, h.opd b] [] = true →
          exec (.vfdot d a b m j) s = res 0 (BitVec.ofNat 64 ((s.gs d).toNat % 2 ^ 32)) {}) ∧
        (0 < h.vl →
          exec (.vfredmax d a b m j) s = res 0 (word ((act.map (fun i => h.plainValue (ea i))).foldl FVal.maximum init)) {} ∧
          exec (.vfredmin d a b m j) s = res 0 (word ((act.map (fun i => h.plainValue (ea i))).foldl FVal.minimum init)) {} ∧
          (h.scaleBad [a] none = false → h.repro = true →
            let sum := blocks .rne (fun i => (term .rne (va i)).1) init
            exec (.vfredsum d a b m j) s = res 0 (word sum.1) (excs sum.2 (act.map (fun i => (term .rne (va i)).2)))) ∧
          (h.scaleBad [a] none = false → h.repro = false → ∃ n v e, SumTree h.vrm (init :: act.map (fun i => (va i).1)) v ∧ exec (.vfredsum d a b m j) s = res n (word v) e) ∧
          (h.scaleBad [a, b] none = false → h.operandsOk [h.opd a, h.opd b] [] = true → h.repro = true →
            let sum := blocks .rne (fun i => (term .rne (mulOf i)).1) (f.read ((s.gs d).toNat % 2 ^ 32))
            exec (.vfdot d a b m j) s = res 0 (word sum.1) (excs sum.2 (act.map (fun i => (term .rne (mulOf i)).2)))) ∧
          (h.scaleBad [a, b] none = false → h.operandsOk [h.opd a, h.opd b] [] = true → h.repro = false →
            ∃ (n : Nat) (v : FVal) (e : Exc) (apart : Nat → Bool),
              SumTree h.vrm (f.read ((s.gs d).toNat % 2 ^ 32) :: act.map (fun i => if apart i then (term h.vrm (mulOf i)).1 else (mulOf i).1)) v ∧
              exec (.vfdot d a b m j) s = res n (word v) e)) ∧
        (∀ p ∈ ([(.vnorm, .rup), (.vnormd, .rdn)] : List ((Reg5 → Reg5 → Reg5 → Reg3 → BitVec 1 → Instr) × RM)),
          let sq := fun (x : FVal) => term p.2 (FVal.mul x x)
          (h.repro = false → ∃ (n : Nat) (v : FVal) (e : Exc), SumTree p.2 ((sq init).1 :: act.map (fun i => (sq (h.plainValue (ea i))).1)) v ∧
            exec (p.1 d a b m j) s = res n (word (f.read (f.round p.2 false v.sqrt.1).1)) e) ∧
          (h.repro = true →
          let q := blocks p.2 (fun i => (sq (h.plainValue (ea i))).1) (sq init).1
          let e := (excs (sq init).2 (act.map (fun i => (sq (h.plainValue (ea i))).2))).or q.2
          exec (p.1 d a b m j) s = res 0 (word (f.read (f.round p.2 false q.1.sqrt.1).1)) (e.or (q.1.sqrt.2.or (f.round p.2 false q.1.sqrt.1).2)))))

/-- R43, R100, R117, R118, Tables 4-9 and 4-10: the permutations write the elements of the table, from VSTART to VL − 1 where m allows, and leave the others; `vext` writes s[sd]; `vtopk` writes the first k of the
ranking with their indices, pads both registers, and returns the count. With VL = 0 `vext`, like the rest, leaves its destination as it is (R43). Nothing else changes but VSTART, PC and the convoy. -/
def Obligations.PermutationResults : Prop :=
  ∀ (s : State) (d a b : Reg5) (m : Reg3) (j : BitVec 1),
    let h := s.hart
    let w := h.sew
    let act := h.active m h.vl
    let ea := fun i => h.elem a.toNat w i
    let eb := fun i => h.elem b.toNat w i
    let k := (s.gs b).toNat
    let put := fun (u : UnitClass) (xs : List (Nat × Nat)) => Host.Outcome.next ({ s with hart := (h.putElems d.toNat w xs).vectorPast 4 u j [] } : State)
    let each := fun (f : Nat → Nat) => put .xlane (act.map (fun i => (i, f i)))
    (h.mayJoin .xlane j = true → h.operandsOk [h.opd a] [h.opd d] = true → anyOverlap [h.opd a] [h.opd d] = false →
      exec (.vslup d a b m j) s = put .xlane ((act.filter (fun i => decide (k ≤ i))).map (fun i => (i, ea (i - k)))) ∧
      exec (.vsldn d a b m j) s = each (fun i => if i + k < h.vl then ea (i + k) else 0) ∧
      exec (.vcomp d a m j) s = put .xlane (act.mapIdx (fun c i => (c, ea i))) ∧ exec (.vexpd d a m j) s = put .xlane (act.mapIdx (fun c i => (i, ea c))) ∧
      exec (.vrev d a m j) s = each (fun i => ea (h.vl - 1 - i))) ∧
    (h.mayJoin .xlane j = true → h.operandsOk [h.opd a, h.opd b] [h.opd d] = true → anyOverlap [h.opd a, h.opd b] [h.opd d] = false →
      exec (.vperm d a b m j) s = each (fun i => if eb i < h.vl then ea (eb i) else 0) ∧
      exec (.vzip d a b m j) s = each (fun i => if i % 2 = 0 then ea (i / 2) else eb ((i - 1) / 2)) ∧
      exec (.vuzp d a b m j) s = each (fun i => if 2 * i < h.vl then ea (2 * i) else eb (2 * i - h.vl))) ∧
    (h.operandsOk [] [h.opd d] = true →
      (h.mayJoin .valu j = true →
        exec (.vbcs d b m j) s = put .valu (act.map (fun i => (i, (s.gs b).toNat % 2 ^ w))) ∧ exec (.vid d m j) s = put .valu (act.map (fun i => (i, i % 2 ^ w))) ∧
        exec (.vins d a b j) s = put .valu (if h.vstart.toNat ≤ k ∧ k < h.vl then [(k, (s.gs a).toNat % 2 ^ w)] else [])) ∧
      (h.mayJoin .xlane j = true → exec (.viota d a m j) s = each (fun i => (List.range i).countP (fun n => (h.gm a.toNat).getLsbD n) % 2 ^ w))) ∧
    (h.mayJoin .xlane j = true → h.operandsOk [h.opd a] [] = true →
      let v : Word := if k < h.vl then (if h.fmt = 0 then BitVec.ofInt 64 (Int.bmod (ea k) (2 ^ w)) else BitVec.ofNat 64 (ea k)) else 0
      (h.vl = 0 → exec (.vext d a b j) s = .next { s with hart := h.vectorPast 4 .xlane j [d] }) ∧
      (0 < h.vl → exec (.vext d a b j) s = .next { s with hart := (h.vectorPast 4 .xlane j [d]).ps d v })) ∧
    (let od : VOpd := ⟨d, 1, w⟩
     let oi : VOpd := ⟨d + 1, 1, 32⟩
     h.mayJoin .xlane j = true → h.operandsOk [h.opd a] [od, oi] = true → anyOverlap [h.opd a] [od, oi] = false → 1 ≤ k → k ≤ 256 → k ≤ 16 * h.lanes → k ≤ h.perReg w →
       (h.vl = 0 → exec (.vtopk d a b m j) s = .next { s with hart := (h.vectorPast 4 .xlane j [b]).ps b 0 }) ∧
       (0 < h.vl → ∃ top : List Nat,
         let before := fun (i i' : Nat) => h.ranksAbove (ea i) (ea i') = true ∨ (h.ranksAbove (ea i') (ea i) = false ∧ i < i')
         top.Pairwise before ∧ (∀ i ∈ top, i ∈ act) ∧ top.length = min k act.length ∧ (∀ i ∈ act, i ∉ top → ∀ i' ∈ top, before i' i) ∧
         let pad := List.range (k - top.length)
         let vals := top.mapIdx (fun n i => (n, h.rankCode (ea i))) ++ pad.map (fun n => (top.length + n, h.negCode))
         let idxs := top.mapIdx (fun n i => (n, i)) ++ pad.map (fun n => (top.length + n, 2 ^ 32 - 1))
         let h' := ((h.putElems d.toNat w vals).putElems (d + 1).toNat 32 idxs).vectorPast 4 .xlane j [b]
         exec (.vtopk d a b m j) s = .next { s with hart := h'.ps b (BitVec.ofNat 64 top.length) }))
/-! ### Vector memory -/

/-- R113, R119, R122 to R124, R167: a vector load whose active elements are aligned and placed reads each from memory into its element of the destination and changes nothing else but VSTART, PC and the convoy
(and what the hart remembers of the instruction, `keeping`); a fault-only-first load may also stop at any active element above the first and trims VL to it. -/
def Obligations.VectorLoadsReadMemory : Prop :=
  ∀ (s : State) (d a b : Reg5) (m : Reg3) (j : BitVec 1) (c : BitVec 4) (loc : Nat → Nat),
    let h := s.hart
    let w := h.sew
    let act := h.activeMem m h.vl
    let rd := fun (n l : Nat) => leNat (memRead n l s.mem)
    let J := s.joined .vlsu j []
    let datum := fun (i : Nat) => if w = 4 then rd 1 (loc i) / 16 ^ (i % 2) % 16 else rd (w / 8) (loc i)
    let done := fun (i : Instr) (w : Nat) (xs : List (Nat × Nat)) => ∃ t : State, exec i s = .next (({ s with hart := (h.putElems d.toNat w xs).vectorPast 4 .vlsu j [] } : State).keeping t)
    let fine := fun (core : Bool) (n : Nat) (ad : Nat → Word) =>
      (∀ i ∈ act, (ad i).toNat % n = 0 ∧ J.reaches core .read n (ad i) (loc i)) ∧ (core = true → J.pagesAgree .read act ad loc)
    let iw := 8 * 2 ^ (c.toNat % 4)
    h.mayJoin .vlsu j = true → J.undisturbed = true → h.answers = [] → h.cur = [] →
      (let ad := fun i => h.gs a + BitVec.ofNat 64 (i * w / 8)
       h.operandsOk [] [h.opd d] = true → fine true (max 1 (w / 8)) ad →
        done (.vld d a m j) w (act.map (fun i => (i, datum i))) ∧
        (∃ (g n : Nat) (t : State), (g = h.vl ∨ (g ∈ act ∧ ∃ f ∈ act, f < g)) ∧ exec (.vldFf d a m j) s = .next (({ s with
          free := n, hart := { (h.putElems d.toNat w ((act.filter (fun i => decide (i < g))).map (fun i => (i, datum i)))).vectorPast 4 .vlsu j [] with vl := g } } : State).keeping t))) ∧
      (let ad := fun i => h.gs a + h.gs b * BitVec.ofNat 64 i
       8 ≤ w → h.operandsOk [] [h.opd d] = true → fine true (w / 8) ad → done (.vlds d a b m j) w (act.map (fun i => (i, rd (w / 8) (loc i))))) ∧
      (let ad := fun i => h.gs a + BitVec.ofNat 64 (h.elem b.toNat iw i)
       8 ≤ w → h.operandsOk [h.opdW b iw] [h.opd d] = true → anyOverlap [h.opdW b iw] [h.opd d] = false → fine false (w / 8) ad →
        done (.vldx d a b m j c) w (act.map (fun i => (i, rd (w / 8) (loc i))))) ∧
      (let ad := fun i => h.gs b + BitVec.ofNat 64 (4 * h.elem a.toNat 32 i)
       w = 32 → h.operandsOk [h.opd a] [h.opd d] = true → anyOverlap [h.opd a] [h.opd d] = false → fine false 4 ad →
        done (.vgmbT d a b m j) 32 (act.map (fun i => (i, rd 4 (loc i))))) ∧
      (let whole := h.activeMem 0 (h.lmul * 64 * h.lanes)
       h.operandsOk [] [⟨d, h.lmul, 8⟩] = true → (∀ i ∈ whole, J.reaches true .read 1 (h.gs a + BitVec.ofNat 64 i) (loc i)) →
       J.pagesAgree .read whole (fun i => h.gs a + BitVec.ofNat 64 i) loc →
        done (.vldw d a j) 8 (whole.map (fun i => (i, rd 1 (loc i))))) ∧
      (let o := (h.gs a).toNat % 8192
       h.vbuf = [] → s.badCopies = [] → h.operandsOk [] [h.opd d] = true → o % max 1 (w / 8) = 0 →
        (∀ i ∈ act, loc i = 2 ^ 53 + (coreOf h.id * 32 + i % 32) * 8192 + (if w = 4 then (o + i / 64) % 8192 else (o + i / 32 * (w / 8)) % 8192) ∧
          J.bad (loc i) (max 1 (w / 8)) = false ∧ J.quietAt (loc i) (max 1 (w / 8)) = true) →
        done (.vlls d a m j) w (act.map (fun i =>
          (i, if w = 4 then rd 1 (loc i) / 16 ^ (i / 32 % 2) % 16 else rd (w / 8) (loc i)))))

/-- R119, R126, R128, R159, R167: a vector store or atomic whose active elements are aligned and placed retires; once its buffered writes have performed, memory is as if each active element had written its bytes,
or an atomic its new value, in ascending order; no register changes but VSTART, PC and the convoy (and what the hart
remembers of the instruction, `keeping`). Stated for a hart with no write buffered. -/
def Obligations.VectorStoresAndAtomicsWriteMemory : Prop :=
  ∀ (s : State) (v a b : Reg5) (m : Reg3) (j : BitVec 1) (c : BitVec 4) (o : BitVec 3) (loc : Nat → Nat),
    let h := s.hart
    let w := h.sew
    let act := h.activeMem m h.vl
    let J := s.joined .vlsu j []
    let x := fun i => h.elem v.toNat w i
    let fine := fun (core : Bool) (n : Nat) (ad : Nat → Word) =>
      (∀ i ∈ act, (ad i).toNat % n = 0 ∧ J.reaches core .write n (ad i) (loc i)) ∧ (core = true → J.pagesAgree .write act ad loc)
    let wrote := fun (i : Instr) (is : List Nat) (bytes : List Host.Cell → Nat → List Byte) =>
      ∃ t, exec i s = .next t ∧ t.settledMem = is.foldl (fun mem k => memPut mem (loc k) (bytes mem k)) s.mem ∧
        t.hart = ({ h.vectorPast 4 .vlsu j [] with vbuf := t.hart.vbuf, wseq := t.hart.wseq } : Hart).keeping t.hart
    let nib := fun (n : Nat) (mem : List Host.Cell) (i : Nat) =>
      let old := (memGet mem (loc i)).toNat
      [BitVec.ofNat 8 (if n % 2 = 1 then old % 16 + x i * 16 else old / 16 * 16 + x i)]
    let plain := fun (_ : List Host.Cell) (i : Nat) => natLe (w / 8) (x i)
    let iw := 8 * 2 ^ (c.toNat % 4)
    h.mayJoin .vlsu j = true → J.undisturbed = true → h.answers = [] → h.cur = [] → h.sbuf = [] → h.vbuf = [] → Memory.wf s.mem = true → s.harts.all (fun p => p.2.id != h.id) = true →
      (let ad := fun i => h.gs a + BitVec.ofNat 64 (i * w / 8)
       h.operandsOk [h.opd v] [] = true → fine true (max 1 (w / 8)) ad → wrote (.vst v a m j) act (fun mem i => if w = 4 then nib i mem i else plain mem i)) ∧
      (let ad := fun i => h.gs a + h.gs b * BitVec.ofNat 64 i
       8 ≤ w → h.operandsOk [h.opd v] [] = true → fine true (w / 8) ad → wrote (.vsts v a b m j) act plain) ∧
      (let ad := fun i => h.gs a + BitVec.ofNat 64 (h.elem b.toNat iw i)
       8 ≤ w → h.operandsOk [h.opd v, h.opdW b iw] [] = true → fine false (w / 8) ad → wrote (.vstx v a b m j c) act plain) ∧
      (let whole := h.activeMem 0 (h.lmul * 64 * h.lanes)
       h.operandsOk [⟨v, h.lmul, 8⟩] [] = true → (∀ i ∈ whole, J.reaches true .write 1 (h.gs a + BitVec.ofNat 64 i) (loc i)) →
       J.pagesAgree .write whole (fun i => h.gs a + BitVec.ofNat 64 i) loc →
        wrote (.vstw v a j) whole (fun _ i => [BitVec.ofNat 8 (h.elem v.toNat 8 i)])) ∧
      (let off := (h.gs a).toNat % 8192
       h.operandsOk [h.opd v] [] = true → off % max 1 (w / 8) = 0 →
        (∀ i ∈ act, loc i = 2 ^ 53 + (coreOf h.id * 32 + i % 32) * 8192 + (if w = 4 then (off + i / 64) % 8192 else (off + i / 32 * (w / 8)) % 8192) ∧
          J.quietAt (loc i) (max 1 (w / 8)) = true) →
        wrote (.vsls v a m j) act (fun mem i => if w = 4 then nib (i / 32) mem i else plain mem i)) ∧
      (let ad := fun i => h.gs a + BitVec.ofNat 64 (h.elem b.toNat w i)
       (w = 32 ∨ w = 64) → h.operandsOk [h.opd v, h.opd b] [] = true → anyOverlap [h.opd b] [h.opd v] = false → fine false (w / 8) ad → (o.getLsbD 1 = true → s.outstanding h = 0 ∧ s.rowsOut h.id = false) →
        let sg := fun (n : Nat) => Int.bmod n (2 ^ w)
        let F := FName.f32
        ∀ p ∈ ([(Instr.vamoAdd, false, fun x y => (x + y) % 2 ^ w), (Instr.vamoMin, false, fun x y => if sg y < sg x then y else x),
            (Instr.vamoMax, false, fun x y => if sg x < sg y then y else x), (Instr.vamoAnd, false, fun x y => x &&& y), (Instr.vamoOr, false, fun x y => x ||| y),
            (Instr.vamoXor, false, fun x y => x ^^^ y), (Instr.vamoSwp, false, fun _ y => y),
            (Instr.vamoFadd, true, fun x y => (F.round h.vrm false (FVal.add h.vrm (F.read x) (F.read y)).1).1),
            (Instr.vamoFmax, true, fun x y => (F.round .rne false (FVal.maximum (F.read x) (F.read y))).1)] :
            List ((Reg5 → Reg5 → Reg5 → Reg3 → BitVec 3 → BitVec 1 → Instr) × Bool × (Nat → Nat → Nat))),
          (p.2.1 = true → h.fmt = 2 ∧ w = 32) →
          wrote (p.1 v a b m o j) act (fun mem i => natLe (w / 8) (p.2.2 (leNat (memRead (w / 8) (loc i) mem)) (x i))))
/-- R309, R314, R316, R317, R318: a vector access through a valid peer register whose active elements are aligned and have been answered completes with the answers: a load writes them, a store or `pvamo.add` has
performed at the owner; nothing else changes but VSTART, PC and the convoy (and what the hart remembers of the instruction, `keeping`). -/
def Obligations.PeerVectorAccessesTakeTheirAnswers : Prop :=
  ∀ (s : State) (d a b : Reg5) (m : Reg3) (j : BitVec 1) (k : BitVec 4) (x : Nat → Nat) (st : Nat → Bool),
    let h := s.hart
    let w := h.sew
    let act := h.activeMem m h.vl
    let unit_ := fun i => h.gs a + BitVec.ofNat 64 (i * w / 8)
    let index := fun i => h.gs a + BitVec.ofNat 64 (h.elem b.toNat w i)
    let past := fun (i : Instr) (xs : List (Nat × Nat)) => ∃ t : State, exec i s = .next (({ s with hart := (h.putElems d.toNat w xs).vectorPast 4 .engine j [] } : State).keeping t)
    let wrote := fun (i : Instr) => past i []
    h.mayJoin .engine j = true → (s.joined .engine j []).undisturbed = true → 8 ≤ w → (h.peers.getD k.toNat 0).getLsbD 63 = true →
    (∀ i ∈ act, tabGet h.answers i = some (.done (x i) (st i))) →
      ((∀ i ∈ act, (unit_ i).toNat % (w / 8) = 0) →
        (h.operandsOk [] [h.opd d] = true → past (.pvld d a m j k) (act.map (fun i => (i, x i)))) ∧ (h.operandsOk [h.opd d] [] = true → wrote (.pvst d a m j k))) ∧
      ((∀ i ∈ act, (index i).toNat % (w / 8) = 0) → anyOverlap [h.opd b] [h.opd d] = false → h.operandsOk [h.opd b] [h.opd d] = true →
        past (.pvldx d a b m j k) (act.map (fun i => (i, x i))) ∧ wrote (.pvstx d a b m j k) ∧ (w = 32 ∨ w = 64 → wrote (.pvamoAdd d a b m j k)))

/-- R205 to R210: where the cluster's engine is the hart's to use, `vcopy` of active elements whose bytes are aligned, placed, and share no byte with one another's destinations copies each, and each has performed when it retires; `vcopy.ff` may also stop at any
active element above the first and trims VL to it; `vcopy.b` is accepted and copies later: one move of the engine delivers the next element and counts its bytes off the barrier. -/
def Obligations.CopiesMoveMemory : Prop :=
  ∀ (s : State) (d a : Reg5) (m : Reg3) (j : BitVec 1) (src dst : Nat → Nat),
    let h := s.hart
    let n := h.sew / 8
    let act := h.activeMem m h.vl
    let from_ := fun i => h.gs a + BitVec.ofNat 64 (i * n)
    let into := fun i => h.gs d + BitVec.ofNat 64 (i * n)
    let J := s.joined .engine j []
    let c := s.getCluster (clusterOf h.id)
    let copied := fun (is : List Nat) => is.foldl (fun mem i => memPut mem (dst i) (memRead n (src i) s.mem)) s.mem
    let meet := rangesOverlap (h.gs d) (h.gs a) (h.vl * n)
    let apart := ∀ i ∈ act, ∀ i' ∈ act, src i + n ≤ dst i' ∨ dst i' + n ≤ src i
    (h.mayJoin .engine j = true → J.undisturbed = true → h.answers = [] → h.cur = [] → 8 ≤ h.sew →
      (∀ i ∈ act, (from_ i).toNat % n = 0 ∧ (into i).toNat % n = 0) →
      ((∀ i ∈ act, J.reaches false .read n (from_ i) (src i) ∧ J.reaches false .write n (into i) (dst i)) → apart → (c.copies.head?.map J.ownPlace).getD true = true → Memory.wf s.mem = true → h.sbuf = [] → h.vbuf = [] → s.harts.all (fun p => p.2.id != h.id) = true →
        (∃ t, exec (.vcopy d a m j) s = .next t ∧ t.mem = copied act ∧ t.hart = ({ h.vectorPast 4 .engine j [] with wseq := t.hart.wseq } : Hart).keeping t.hart) ∧
        (∃ t g, (g = h.vl ∨ (g ∈ act ∧ ∃ f ∈ act, f < g)) ∧ exec (.vcopyFf d a m j) s = .next t ∧ t.mem = copied (act.filter (fun i => decide (i < g))) ∧
          t.hart = ({ h.vectorPast 4 .engine j [] with vl := g, wseq := t.hart.wseq } : Hart).keeping t.hart)) ∧
      (act ≠ [] → c.copies.length < 16 → exec (.vcopyB d a m j) s = .next (({ s with hart := h.vectorPast 4 .engine j [] } : State).setCluster (clusterOf h.id) { c with copies := c.copies ++
        [{ hart := h.id, bar := h.bar, ctx := h.ctxid, user := !h.super, n := n, dst := h.gs d, src := h.gs a, toSave := if meet then act else [], saved := [], left := act,
           vl := h.vl, vstart := h.vstart.toNat, word := wVcopyB d a m j, pc := h.pc, reiss := h.reissue, wait := none, answer := [], asked := [], told := [], strip := h.strip, sync := false }] }))) ∧
    (∀ (k i x : Nat) (rest : List Nat) (e : Copy) (es : List Copy) (l l' : Option Nat) (b b' : Bool) (z : Nat) (s1 s2 : State),
      (s.getCluster k).copies = e :: es → e.sync = false → e.wait = none → e.toSave = [] → e.left = i :: rest → tabGet e.saved i = none →
      s.copyAccess e (e.read i) = (s1, .done x b, l) → s1.copyAccess e (e.write i x) = (s2, .done z b', l') →
      exec (.copyElement k) s = .next ((s2.setHead k (if rest = [] then none else some { e with left := rest, wait := none, answer := [], asked := [], told := [] })).delivered k e.bar e.n))

/-- R211 to R213, R235, Table 8-6, R350, R351: `qbind` and `qbind.f` read their record at issue, an indirect stream its block table record too, and bind vN with a consumed count of 0, the old binding freed;
`qfree` ends a binding, of an output stream when its appended elements have performed, and vN reads as zeros (of a register without a binding it has no effect, by the model's choice, log 32); `qstat` writes
s[sd]; an instruction that reads a bound register takes the elements fetched for it, in order, and consumes them. Element e of an indirect stream lies at row(POS + e div ROWLEN) + (e mod ROWLEN) × n. -/
def Obligations.StreamsBindAndFeedOperands : Prop :=
  ∀ (s s1 s2 : State) (n a d : Reg5) (j : BitVec 1) (k : BitVec 4) (r : Nat) (st : Stream),
    let h := s.hart
    let J := s.joined .engine j []
    let va := h.gs a
    let fl := field r 0x20 4
    let bound := fun (t : State) (x : Stream) => Host.Outcome.next (((t.freeStream n).upd (fun h => h.setStream n (some x))).vecRetired 4)
    let grp := BitVec.ofNat 2 (fl / 2 ^ 8)
    let gr := s1.hart.groups.getD grp.toNat Group.init
    let blank : Stream := { recAddr := va, fabric := false, peer := 0, group := none, mode := BitVec.ofNat 2 fl, out := fl.testBit 2, sew := BitVec.ofNat 3 (fl / 8), base := BitVec.ofNat 64 (field r 0x00 8), stride := BitVec.ofNat 64 (field r 0x08 8), count := field r 0x10 8, pos := BitVec.ofNat 64 (field r 0x18 8), table := 0, rstride := 0, nblk := 0, flaga := 0, seq := 0, done := 0, fetched := [], flt := none }
    (h.mayJoin .engine j = true → va.toNat % 64 = 0 → s.copyBusy h.id = false → J.readRecord 0 va 64 = .ok s1 r →
      (streamRecordBad r = false → fl % 4 ≠ 2 → exec (.qbind n a j) s = bound s1 blank) ∧
      (∀ b : Nat, streamRecordBad r = false → fl % 4 = 2 → blank.base.toNat % 32 = 0 → s1.readRecord 1 blank.base 32 = .ok s2 b →
        field b 0x18 8 = 0 → field b 0x10 8 ≠ 0 → field b 0x08 8 % 8 = 0 → field b 0x00 8 % 8 = 0 →
        exec (.qbind n a j) s = bound s2 { blank with table := BitVec.ofNat 64 (field b 0x00 8), rstride := BitVec.ofNat 64 (field b 0x08 8), nblk := field b 0x10 8 }) ∧
      (fabricRecordBad r k = false → (fl.testBit 10 = true → gr.v = true ∧ gr.ab = false) → (fl.testBit 2 = true → (s1.hart.peerRoute k).isSome = true) →
        exec (.qbindF n a j k) s = bound s1 { blank with fabric := true, peer := k, group := if fl.testBit 10 then some grp else none, mode := 0, stride := 0, count := field r 0x08 8, pos := 0, flaga := BitVec.ofNat 64 (field r 0x10 8), seq := BitVec.ofNat 64 (field r 0x18 8) })) ∧
    (h.mayJoin .engine j = true → h.stream n = some st →
      (st.out = false → exec (.qfree n j) s = .next { s with hart := { (h.setStream n none).vectorPast 4 .engine j [] with v := h.v.setIfInBounds n.toNat 0 } }) ∧
      (st.out = true →
        let t := J.drainV h.id h.vbuf.length
        exec (.qfree n j) s = .next ((t.upd (fun h => { h.setStream n none with v := h.v.setIfInBounds n.toNat 0, bad := h.bad.filter (fun c => c / 512 != n.toNat) })).vecRetired 4) ∧
        ((t.getHart h.id).vbuf = [])) ∧
      let flags := (if st.flt.isSome && st.fetched.isEmpty then 8 else 0) + (if st.count ≤ st.done then 4 else 0) + (if st.out then 2 else 0) + 1
      exec (.qstat d n j) s = .next { s with hart := (h.vectorPast 4 .engine j [d]).ps d (BitVec.ofNat 64 (st.done % 2 ^ 32 * 2 ^ 32 + min st.fetched.length 65535 * 2 ^ 16 + flags)) }) ∧
    (h.mayJoin .engine j = true → h.stream n = none →
      exec (.qfree n j) s = .next { s with hart := h.vectorPast 4 .engine j [] } ∧ exec (.qstat d n j) s = .next { s with hart := (h.vectorPast 4 .engine j [d]).ps d 0 }) ∧
    (h.mayJoin .valu j = true → h.stream n = some st → st.out = false → st.sew.toNat = h.vtype.toNat % 8 → (h.opd n).misaligned = false → h.streamInside (h.opd n) = false →
      h.plainGroups [h.opd d] = true → partialOverlaps [h.opd n] [h.opd d] = false → h.vl - h.vstart.toNat ≤ st.fetched.length →
      let c := h.vl - h.vstart.toNat
      let st' := { st with done := st.done + c, fetched := st.fetched.drop c }
      let h' := h.putElems d.toNat h.sew ((h.active 0 h.vl).map (fun i => (i, st.fetched.getD (i - h.vstart.toNat) 0)))
      exec (.vmv d n j) s = .next { s with hart := (h'.setStream n (some st')).vectorPast 4 .valu j [] }) ∧
    (∀ (id q e x : Nat) (ok : Bool),
      let t := (st.pos.toNat + e / st.stride.toNat) % 2 ^ 64
      st.mode = 2 → st.stride ≠ 0 → t / 32 < st.nblk → x / 64 ≠ 0 →
      s.engineRead id ⟨streamIdx q e + 2 ^ 49, st.table + BitVec.ofNat 64 (8 * (t / 32)), 8, .load, 0, 0⟩ = (s1, .done x ok) →
        let at_ := BitVec.ofNat 64 (x / 64 * 64 + t % 32 * st.rstride.toNat + e % st.stride.toNat * (4 * 2 ^ st.sew.toNat / 8))
        s.streamAddr id q st e = .at s1 at_ at_)

/-- R232, R233: `vxlt` writes the row address of each active token, 0 with m7[i] = 1 for one that is unmapped or beyond the table, and m7[i] = 0 for the others; `vxlt.ff` does the same, or writes the rows below
some active element above the first, all of them mapped, and trims VL to it, m7 unchanged. Stated where the record and the entries are placed and read without change
(but for what the hart remembers of the instruction, `keeping`). That the record is read and checked with no active element too is the model's choice (log 39). -/
def Obligations.TableTranslationResults : Prop :=
  ∀ (s s1 : State) (d a b : Reg5) (m : Reg3) (j : BitVec 1) (r : Nat) (loc : Nat → Nat),
    let h := s.hart
    let act := h.activeMem m h.vl
    let J := s.joined .vlsu j []
    let tok := fun i => h.elem b.toNat 64 i
    let inside := fun i => tok i / 32 < field r 0x10 8
    let base := fun i => if inside i then leNat (memRead 8 (loc i) s.mem) / 64 * 64 else 0
    let row := fun i => if base i = 0 then 0 else (base i + tok i % 32 * field r 0x08 8) % 2 ^ 64
    let rows := fun (is : List Nat) => h.putElems d.toNat 64 (is.map (fun i => (i, row i)))
    let full := fun (i : Instr) => ∃ t : State, exec i s = .next (({ s with hart := ((rows act).pm 7 (putMask (h.gm 7) (act.map (fun i => (i, decide (base i = 0)))))).vectorPast 4 .vlsu j [] } : State).keeping t)
    h.mayJoin .vlsu j = true → J.undisturbed = true → h.answers = [] → h.cur = [] → h.sew = 64 → h.operandsOk [h.opd b] [h.opd d] = true →
    (h.gs a).toNat % 32 = 0 → J.readRecord 0 (h.gs a) 32 = .ok s1 r → s1 = J.keeping s1 →
    field r 0x18 8 = 0 → field r 0x10 8 ≠ 0 → field r 0x08 8 % 8 = 0 → field r 0x00 8 % 8 = 0 →
    (∀ i ∈ act, inside i → s1.reaches false .read 8 (BitVec.ofNat 64 (field r 0x00 8 + 8 * (tok i / 32))) (loc i)) →
      full (.vxlt d a b m j) ∧
      (full (.vxltFf d a b m j) ∨
        ∃ g ∈ act, (∃ f ∈ act, f < g) ∧ (∀ i ∈ act, i < g → base i ≠ 0) ∧
          ∃ t : State, exec (.vxltFf d a b m j) s = .next (({ s with free := s.free + 1, hart := { (rows (act.filter (fun i => decide (i < g)))).vectorPast 4 .vlsu j [] with vl := g } } : State).keeping t))
/-! ### Tiles -/

/-- R174, R175, R177, R179, R181 to R183, R187, R188, R190: `tcfg` and `tzero` clear the bank and its open block; `trow`, `tld` and `tst` close the open block and move rows; `cload` makes a Curd tile; `tsave` writes
and, in supervisor mode, `trest` sets the state of the bank, while no other hart of the core holds the TILE unit. The memory side of `tld`, `tst`, `cload`, `tsave` and `trest` is that of the drivers whose completion is assumed.
That `tld` and `tst` close the open block and read their record with VL = 0 too is the model's choice (log 39). -/
def Obligations.TileStateAndRowResults : Prop :=
  ∀ (s s1 s2 : State) (t fc : BitVec 3) (sa d : Reg5) (r : BitVec 7) (j : BitVec 1) (b : Nat) (bs ps : List Byte) (ds : List (Nat × Nat)),
    let h := s.hart
    let T := s.getTile b
    let J := s.joined .tile j []
    let l := s.accLoc b 0 0
    let C := s.closeTile b
    let x := (s.gs sa).toNat
    let cleared := fun (u : State) (T' : Tile) => u.hart = h.vectorPast 8 .tile j [] ∧ u.getTile b = T' ∧
      (∀ k, memGet u.mem k = if l ≤ k ∧ k < l + 65536 then 0 else memGet s.mem k)
    let base := fieldW bs 0
    let stride := fieldW bs 8
    let is := h.activeMem 0 h.vl
    let elems := fun (op : ROp) (u : State) => is.flatMap (fun i => rowElems op i (strideAddr base stride i) (4 * T.tn) (if op = .load then [] else (u.accRow b (r.toNat + i) T.tn).flatMap (natLe 4)))
    s.tileReady t b j = true → s.tileTaken h.id = false → Memory.wf s.mem = true → fc.toNat ≤ 1 →
      (x / 2 ^ 15 = 0 → x / 2 ^ 7 % 2 = 0 → ∃ u, exec (.tcfg t fc sa j) s = .next u ∧ cleared u { T with
        curd := false, f32 := fc == 1, tm := x % 128 + 1, tn := x / 2 ^ 8 % 128 + 1, kc := 0, blk := [], bsa := Vector.replicate 128 127, bsb := Vector.replicate 128 127 }) ∧
      (∃ u, exec (.tzero t j) s = .next u ∧ cleared u { T with curd := false, kc := 0, blk := [] }) ∧
      (T.kc ≠ 0 → T.tm ≤ 128 → T.tn ≤ 128 → T.blk.Pairwise (fun p q => p.pos < q.pos) →
        (C.getTile b).kc = 0 ∧ ∀ i n, i < T.tm → n < T.tn → C.acc b i n = (closeOne (s.acc b i n) (T.blk.find? (fun c => c.pos == i * 128 + n)) (T.bsa.getD i 127).toNat (T.bsb.getD n 127).toNat).1) ∧
      (h.sew = 32 → T.curd = false → r.toNat < T.tm → h.vl ≤ T.tn → h.operandsOk [] [h.opd d] = true →
        exec (.trow t r d j) s = .next { C with hart := (C.hart.putElems d.toNat 32 ((h.active 0 h.vl).map (fun i => (i, (C.accRow b r.toNat T.tn).getD i 0)))).vectorPast 8 .tile j [] }) ∧
      (T.curd = false → T.f32 = (fc == 1) → r.toNat + h.vl ≤ T.tm → J.issueRecord 0 (s.gs sa) 8 16 = .ok s1 bs → s1.hart = J.hart.keeping s1.hart → s1.getTile b = T → s1.tileBad b = none →
        baseStride base stride 4 = none → s1.copyBusy h.id = false →
        ((s1.closeTile b).runRows { tileHdr (wTld t fc r) (bTld sa j) j with bad0B := decide (1 < fc.toNat) } .translate h.vl is (elems .load s1) .none = .all s2 ds →
          exec (.tld t fc r sa j) s = .next (((rowsDone is ds).foldl (fun u i => u.putAccRow b (r.toNat + i) (words32 (rowBytes (elems .load s1) ds i))) s2).vecRetired 8)) ∧
        (((s1.closeTile b).lockRows base stride h.vl (4 * T.tn) []).runRows { tileHdr (wTst t fc r) (bTst sa j) j with bad0B := decide (1 < fc.toNat) } .translate h.vl is (elems .store (s1.closeTile b)) .none = .all s2 ds →
          exec (.tst t fc r sa j) s = .next (s2.vecRetired 8))) ∧
      (x % 64 = 0 → J.readBlock 0 (s.gs sa) 65664 none = .ok s1 bs → s1.hart = J.hart.keeping s1.hart → (∀ y ∈ bs.take 128, y.toNat ≤ 64) →
        let Z := { s1.zeroTile b with mem := memPut s1.mem (s1.accLoc b 0 0) (bs.drop 128) }
        exec (.cload t fc sa j) s = .next ((Z.setTile b { s1.getTile b with curd := true, f32 := fc == 1, kc := 0, blk := [], nl := vec128 bs 0 }).vecRetired 8)) ∧
      (h.super = true → x % 64 = 0 → J.writeBlock 0 (s.gs sa) (s.tileArea b) = .ok s1 ps → exec (.tsave t sa j) s = .next (s1.vecRetired 8)) ∧
      (h.super = true → x % 64 = 0 → J.readBlock 0 (s.gs sa) 0x10400 none = .ok s1 bs → s1.hart = J.hart.keeping s1.hart → tileAreaBad bs = false →
        let kc := fieldOf bs 0xB 1
        let restored := fun (u : State) (blk : List BlkCell) =>
          let Z := { u.zeroTile b with mem := memPut u.mem (u.accLoc b 0 0) ((bs.drop 0x400).take 65536) }
          let fl := fieldOf bs 8 1
          let T' : Tile := { curd := fl.testBit 0, f32 := fl.testBit 1, tm := fieldOf bs 9 1 + 1, tn := fieldOf bs 0xA 1 + 1, kc := kc, blk := blk, bsa := vec128 bs 0x40, bsb := vec128 bs 0xC0, nl := vec128 bs 0x140 }
          Host.Outcome.next ((Z.setTile b T').vecRetired 8)
        (kc = 0 → exec (.trest t sa j) s = restored s1 []) ∧
        (kc ≠ 0 → s1.readBlock 1 (s.gs sa + 0x10400) (72 * 16384) none = .ok s2 ps → s2.hart = J.hart.keeping s2.hart → pendBad 16384 ps = false → exec (.trest t sa j) s = restored s2 (blocksOf 16384 0 ps)))
/-- R178 to R180, R184 to R186, R190 to R192, R278: `vopa` adds the exact products of integer operands modulo 2^32, f32 products to the accumulators with one rounding, or the exact products of narrower
operands to the open K-block, which closes before it would pass 32 values or change its scales, and at 32; `tepi` writes converted rows; the Curd tests cut
the leaves of false nodes and give the lowest leaf left; `cleaf` adds leaf values; `gmm` multiplies a group's rows, K-block by K-block. The memory side of `tepi` and of the values of `gmm` is
that of the drivers whose completion is assumed; `gmm` and `gmm.e` complete where the group record and every element that they address lie in the untranslated
windows, the record names no scales, and no write is buffered. That `tepi` closes the block and reads its record with VL = 0 too (log 39), that its rows into a stream go and stop as credit
comes and fill up their last element with zeros (log 22), that a strip of which no row lies below M clears the tile and writes nothing is the model's reading
(log 24), and that VSTART does not shorten the operands of `vopa` is the model's choice (log 39). -/
def Obligations.TileArithmeticResults : Prop :=
  ∀ (s s1 s2 s3 s4 : State) (t fa fb fc : BitVec 3) (sm : BitVec 2) (r : BitVec 7) (d a b sa : Reg5) (m x : Reg3) (j : BitVec 1) (k b2 : Nat) (g : List Byte) (ds : List (Nat × Nat))
    (cols : EpiCols) (pre : RowReads) (za zb : Option Scales) (loc : Nat → Nat) (l : Nat) (un : List Byte),
    let h := s.hart
    let w := h.sew
    let J := s.joined .tile j []
    let T := s.getTile k
    let rk := 32 / w
    s.tileReady t k j = true → s.tileTaken h.id = false → Memory.wf s.mem = true → T.tm ≤ 128 → T.tn ≤ 128 →
      (T.curd = false → h.vl = T.tm * rk → T.tn * rk ≤ h.vlmax → h.operandsOk [h.opd a, h.opd b] [] = true →
        (fa = 0 → fb = 0 → (w = 4 ∨ w = 8 ∨ w = 16) → T.f32 = false →
          ∃ u, exec (.vopa t fa fb sm a b j) s = .next u ∧ u.hart = h.vectorPast 8 .tile j [] ∧ u.getTile k = T ∧
            (∀ i n, i < 128 → n < 128 → u.acc k i n = if i < T.tm ∧ n < T.tn then
              (((s.acc k i n : Int) + ((List.range rk).map (fun q => Int.bmod (h.elem a.toNat w (q * T.tm + i)) (2 ^ w) * Int.bmod (h.elem b.toNat w (q * T.tn + n)) (2 ^ w))).sum) % 2 ^ 32).toNat
              else s.acc k i n) ∧
            (∀ q, (q < s.accLoc k 0 0 ∨ s.accLoc k 0 0 + 65536 ≤ q) → memGet u.mem q = memGet s.mem q)) ∧
        (T.f32 = true → ¬(fa = 0 ∧ fb = 0) → fmtWidth fa w = w → fmtWidth fb w = w → ((fa = 0 ∨ fb = 0) → w = 4 ∨ w = 8 ∨ w = 16) →
          (sm.getLsbD 0 = true → a.toNat + h.lmul < 32) → (sm.getLsbD 1 = true → b.toNat + h.lmul < 32) → T.blk.Pairwise (fun p q => p.pos < q.pos) →
          let scale := fun (on : Bool) (code : BitVec 3) (g : Reg5) (i : Nat) => if on then rowScale code (h.v.getD (g.toNat + h.lmul) 0) i else 127
          let sA := fun i => scale (sm.getLsbD 0) fa a i
          let sB := fun n => scale (sm.getLsbD 1) fb b n
          let value := fun (code : BitVec 3) (g : Reg5) (n i ox q : Nat) => tileValue code w (h.elem g.toNat w (q * n + i)) (q * n + i) (h.elem g.toNat w) (ox / 2 ^ 8 % 16)
          let va := fun i q => value fa a T.tm i (sA i) q
          let vb := fun n q => value fb b T.tn n (sB n) q
          let C := s.closeTile k
          ∃ u, exec (.vopa t fa fb sm a b j) s = .next u ∧ u.hart = { h.vectorPast 8 .tile j [] with fcsr := u.hart.fcsr } ∧ (u.getTile k).tm = T.tm ∧ (u.getTile k).tn = T.tn ∧
            (w = 32 → (u.getTile k).kc = 0 ∧ ∀ i n, i < 128 → n < 128 → u.acc k i n =
              if i < T.tm ∧ n < T.tn then (FName.f32.round .rne false (FVal.add .rne (FName.f32.read (C.acc k i n)) (FVal.mul (scaleBy (va i 0) (sA i % 256)).1 (scaleBy (vb n 0) (sB n % 256)).1).1).1).1
              else s.acc k i n) ∧
            (w < 32 →
              let differs := (∃ i < T.tm, (T.bsa.getD i 127).toNat ≠ sA i % 256) ∨ (∃ n < T.tn, (T.bsb.getD n 127).toNat ≠ sB n % 256)
              ∀ first : Bool, (first = true ↔ T.kc ≠ 0 ∧ (32 < T.kc + rk ∨ differs)) →
                let S := if first then C else s
                let total := if first then rk else T.kc + rk
                (u.getTile k).kc = (if total = 32 then 0 else total) ∧
                (∀ i < T.tm, ((u.getTile k).bsa.getD i 127).toNat = sA i % 256) ∧ (∀ n < T.tn, ((u.getTile k).bsb.getD n 127).toNat = sB n % 256) ∧
                ∀ i n, i < 128 → n < 128 →
                  if i < T.tm ∧ n < T.tn then
                    ∃ c : BlkCell, ((S.getTile k).cell i n).gains c ((List.range rk).map (fun q => (FVal.mul (va i q) (vb n q)).1)) ∧
                      (total < 32 → (((u.getTile k).cell i n).nan, ((u.getTile k).cell i n).pinf, ((u.getTile k).cell i n).ninf, ((u.getTile k).cell i n).sum) = (c.nan, c.pinf, c.ninf, c.sum) ∧
                        u.acc k i n = S.acc k i n) ∧
                      (total = 32 → u.acc k i n = (closeOne (S.acc k i n) (some c) (sA i % 256) (sB n % 256)).1)
                  else u.acc k i n = s.acc k i n) ∧
            (∀ q, (q < s.accLoc k 0 0 ∨ s.accLoc k 0 0 + 65536 ≤ q) → memGet u.mem q = memGet s.mem q))) ∧
      (let bs := g
       let hdr := tileHdr (wTepi t fc sm r) (bTepi sa j) j
       let is := h.activeMem 0 h.vl
       T.curd = false → r.toNat + h.vl ≤ T.tm → T.tn * outWidth fc % 8 = 0 → J.issueRecord 0 (s.gs sa) 64 64 = .ok s1 bs → s1.epiRecordBad bs = false →
       baseStride (fieldW bs 0) (fieldW bs 8) (max 1 (outWidth fc / 8)) = none → s1.epiCols bs sm T.tn = (.ok s2 un, some cols) → s2.hart = J.hart.keeping s2.hart → s2.tileBad k = none →
       s2.copyBlocks h.id (if sm.getLsbD 0 then scaleElems (fieldW bs 0x10) r.toNat is else []) = false →
       (if sm.getLsbD 0 then s2.readRows is (scaleElems (fieldW bs 0x10) r.toNat is) else .ok (s2, .none)) = .ok (s3, pre) →
       let C := s3.closeTile k
       let row := fun (i : Nat) => C.epiRow k fc cols (if sm.getLsbD 0 then some (leNat (rowBytes pre.es pre.ds i)) else none) (r.toNat + i)
       let es := is.flatMap (fun i => rowElems .store i (strideAddr (fieldW bs 0) (fieldW bs 8) i) (T.tn * outWidth fc / 8) (row i).1)
       ((fieldOf bs 0x28 8).testBit 4 = false → C.copyBlocks C.hart.id es = false →
         (C.lockRows (fieldW bs 0) (fieldW bs 8) h.vl (T.tn * outWidth fc / 8) []).runRows hdr .translate h.vl is es pre = .all s4 ds →
         exec (.tepi t fc sm r sa j) s = .next ((s4.drainEntry.upd (·.raise ((rowsDone is ds).foldl (fun (e : Exc) i => e.or (row i).2) {}))).vecRetired 8)) ∧
       (∀ st, (fieldOf bs 0x28 8).testBit 4 = true → C.hart.stream (BitVec.ofNat 5 (24 + fieldOf bs 0x28 8 % 8)) = some st → is ≠ [] →
         C.epiStream hdr (BitVec.ofNat 5 (24 + fieldOf bs 0x28 8 % 8)) st is row pre = .next s4 → exec (.tepi t fc sm r sa j) s = .next (s4.vecRetired 8))) ∧
      (let feat := fun q => h.elem a.toNat 32 q
       let pass := fun (c : Nat) => curdPass c h.vl (fc == 1) feat
       let tested := fun (banks : List Nat) =>
         let cells := fun q => banks.flatMap (fun b => (List.range 32).map (fun n => leNat (memRead 16 (s.accLoc b 0 0 + (n * 128 + q) * 16) s.mem)))
         let run := fun q => (cells q).foldl (fun run c => if c.testBit 18 && !pass c then run &&& (c / 2 ^ 64) else run) (2 ^ (T.nl.getD q 0).toNat - 1)
         let rs := ((List.range 128).filter (fun q => (T.nl.getD q 0).toNat != 0 && h.maskBit m q)).map (fun q => (q, if run q = 0 then (255, ({ nv := true } : Exc)) else (lowestBit (run q), {})))
         Host.Outcome.next ({ s with hart := ((h.putElems d.toNat 8 (rs.map (fun p => (p.1, p.2.1)))).except x (rs.map (fun p => (p.1, p.2.2)))).vectorPast 8 .tile j [] } : State)
       w = 32 → h.vl ≤ 4096 → h.vstart = 0 → fc.toNat ≤ 1 → T.curd = true → T.f32 = (fc == 1) → anyOverlap [h.opd a] [⟨d, 1, 8⟩] = false → h.operandsOk [h.opd a] [⟨d, 1, 8⟩] = true →
         exec (.ctest t fc d a m x j) s = tested [k] ∧
         (s.tileReady (t + 1) b2 j = true → (s.getTile b2).curd = true → (s.getTile b2).f32 = (fc == 1) → exec (.ctestC t fc d a m x j) s = tested [k, b2])) ∧
      (let leaf := fun q => h.elem a.toNat 8 q
       let live := (h.activeMem m h.vl).filter (fun q => decide (leaf q < 64))
       let sum := fun q => FName.f32.round h.vrm false (FVal.add h.vrm (FName.f32.read (h.elem d.toNat 32 q)) (FName.f32.read (leNat (memRead 4 (loc q) s.mem)))).1
       let err := fun q => (FVal.add h.vrm (FName.f32.read (h.elem d.toNat 32 q)) (FName.f32.read (leNat (memRead 4 (loc q) s.mem)))).2.or (sum q).2
       w = 32 → h.vl ≤ 128 → anyOverlap [⟨a, 1, 8⟩] [h.opd d] = false → h.operandsOk [⟨a, 1, 8⟩] [h.opd d] = true → J.undisturbed = true → h.answers = [] → h.cur = [] →
       (∀ q ∈ live, (s.gs sa + BitVec.ofNat 64 (4 * (64 * q + leaf q))).toNat % 4 = 0 ∧ J.reaches false .read 4 (s.gs sa + BitVec.ofNat 64 (4 * (64 * q + leaf q))) (loc q)) →
         ∃ u : State, exec (.cleaf d a sa m j) s = .next (({ s with hart := ((h.putElems d.toNat 32 (live.map (fun q => (q, (sum q).1)))).raise (live.foldl (fun (e : Exc) q => e.or (err q)) {})).vectorPast 8 .tile j [] } : State).keeping u)) ∧
      (let row0 := (s.gs b).toNat % 2 ^ 32
       let cb := (s.gs b).toNat / 2 ^ 32 % 2 ^ 16
       let live := (h.activeMem 0 h.vl).filter (fun i => decide (row0 + i < grpM g))
       1 ≤ h.vl → h.vl ≤ 128 → groupBad g w cb = none → groupAligned g = none →
       ∀ p ∈ [(Instr.gmm t b sa j, tileHdr (wGmm t) (bGmm b sa j) j, false), (Instr.gmmE t b sa j, tileHdr (wGmmE t) (bGmmE b sa j) j, true)],
         (J.issueRecord 0 (s.gs sa) 64 64 = .ok s1 g → s1.groupScales p.2.1 g row0 cb = .ok (s2, za, zb) → s2.gmmRows p.2.1 k p.2.2 g row0 cb za zb = .next s3 →
           exec p.1 s = .next (s3.vecRetired 8)) ∧
         ((s.gs sa).toNat % 64 = 0 → J.reaches false .read 64 (s.gs sa) l → g = memRead 64 l s.mem → s.ecc = [] → s.badCopies = [] → J.undisturbed = true → h.answers = [] → h.cur = [] →
           s.allHarts.all (fun y => y.sbuf.isEmpty && y.vbuf.isEmpty) = true → grpSm g = 0 →
           (∀ e ∈ (if live.isEmpty then [] else gmmReadsB g w cb none) ++ live.flatMap (fun i => gmmReads g w p.2.2 none i (row0 + i) ++
               if p.2.2 then gmmWrites g cb i (row0 + i) (List.replicate (grpNc g cb) 0) else []),
             0xFFFFF00000000000 ≤ e.addr.toNat ∧ ∃ q, s.window h.agent e.addr = .loc q false) →
           ∃ u, exec p.1 s = .next u ∧ u.hart = ({ h.vectorPast 8 .tile j [] with fcsr := u.hart.fcsr, wseq := u.hart.wseq } : Hart).keeping u.hart ∧
             u.getTile k = { T with curd := false, f32 := !grpInt g, tm := h.vl, tn := grpNc g cb, kc := 0, blk := [] } ∧
             (p.2.2 = false → ∀ q, (q < s.accLoc k 0 0 ∨ s.accLoc k 0 0 + 65536 ≤ q) → memGet u.mem q = memGet s.mem q) ∧
             (grpM g ≤ row0 → u = ((J.gmmTile k (!grpInt g) (grpNc g cb)).vecRetired 8).keeping u) ∧
             (let wo := grpW g w
              let rowA := fun i => s.windowElem wo (grpRowA g (row0 + i))
              let rowB := fun kk => s.windowElem wo (strideAddr (fieldW g 0x20) (stride32 g 0x10) kk + BitVec.ofNat 64 (128 * cb * wo / 8))
              let va := fun i kk => tileValue (grpFa g) wo (rowA i kk) kk (rowA i) 0
              let vb := fun kk n => tileValue (grpFb g) wo (rowB kk n) n (rowB kk) 0
              ∀ i n, i < 128 → n < 128 →
                if i ∈ live ∧ n < grpNc g cb then
                  (grpInt g = true → u.acc k i n = ((((List.range (grpKd g)).map (fun kk => Int.bmod (rowA i kk) (2 ^ wo) * Int.bmod (rowB kk n) (2 ^ wo))).sum) % 2 ^ 32).toNat) ∧
                  (grpInt g = false → wo = 32 → ∃ c : Nat → Nat, c 0 = 0 ∧ u.acc k i n = c (grpKd g) ∧
                    ∀ kk < grpKd g, c (kk + 1) = (FName.f32.round .rne false (FVal.add .rne (FName.f32.read (c kk)) (FVal.mul (va i kk) (vb kk n)).1).1).1) ∧
                  (grpInt g = false → wo < 32 → ∃ c : Nat → Nat, c 0 = 0 ∧ u.acc k i n = c (grpNb g) ∧
                    ∀ kb < grpNb g, ∃ e : BlkCell, (⟨0, false, false, false, 0⟩ : BlkCell).gains e
                        ((List.range (min 32 (grpKd g - 32 * kb))).map (fun q => (FVal.mul (va i (32 * kb + q)) (vb (32 * kb + q) n)).1)) ∧
                      c (kb + 1) = (closeOne (c kb) (some e) 127 127).1)
                else u.acc k i n = if h.vstart.toNat ≤ i ∧ i < h.vl then 0 else (s.closeTile k).acc k i n)))
/-- R239, R244 to R247, R251, R253 to R258: a SKIM instruction at a slot of this package that is granted to the hart's context is applied there whole and retires: `rset` opens the race with its record, `rpost` applies
its active elements in order, `rbound` gives the cut, `rleave` tests and takes a shard's leave, which is a release where the slot accepts it and changes nothing where it refuses, `rwin` gives the winner and its record once
every shard has left, `rstat` the counts. A slot of another context traps PRV. A slot of another package is asked first (the model's way to the order of R354, log 40), applies the instruction, and
the instruction retires with its answer. -/
def Obligations.SkimmerResults : Prop :=
  ∀ (s : State) (d hr a b v i : Reg5) (m : Reg3) (j : BitVec 1) (x : RaceSlot) (loc : Nat → Nat),
    let h := s.hart
    let H := s.gs hr
    let k := handleSlot H
    let J := s.joined .engine j []
    let Jd := s.joined .engine j [d]
    let got := fun (n : Nat) => Host.Outcome.next ((Jd.ps d (BitVec.ofNat 64 n)).vecRetired 4)
    let K := fieldOf x.cap 0x24 2
    let nshard := fieldOf x.cap 0x28 2
    let cut := if x.state = 0 then 0xFF800000 else if 0 < K then (if x.top.length < K then 0xFF800000 else (x.top.getLast?.map (·.z)).getD 0xFF800000) else x.best.g
    let sh := H.toNat / 256 % 64
    let brem := FName.f32.read ((s.gs d).toNat % 2 ^ 32)
    let handedOut := fun (slots : List (Nat × RaceSlot)) (w : List Byte) => ∃ t, exec (.rwin d hr b j) s = .next t ∧ t.slots = slots ∧ t.settledMem = memPut s.mem (loc 0) w ∧
      t.hart = ({ (h.vectorPast 4 .engine j [d]).ps d (BitVec.ofNat 64 (leNat (w.take 4))) with vbuf := t.hart.vbuf, wseq := t.hart.wseq } : Hart).keeping t.hart
    let left := (List.range nshard).all (fun q => x.left.getLsbD q)
    h.mayJoin .engine j = true → handleOk H = true →
      (handlePkg H = s.pkg.toNat → tabGet s.slots k = some x → x.ctx = h.ctxid →
        exec (.rbound d hr j) s = got cut ∧
        exec (.rstat d hr j) s = got (x.eval % 2 ^ 32 * 2 ^ 32 + nshard % 256 * 2 ^ 16 + ((List.range 64).filter (fun q => x.left.getLsbD q)).length * 2 ^ 8 + (if x.drop then 8 else 0) + (if x.nanp then 4 else 0) + x.state) ∧
        (x.state ≠ 1 → exec (.rleave d hr b j) s = got 3) ∧
        (x.state = 1 → (nshard ≤ sh ∨ x.left.getLsbD sh = true) → exec (.rleave d hr b j) s = got 2) ∧
        (x.state = 1 → sh < nshard → x.left.getLsbD sh = false → brem ≠ .inf true → brem.lt (FName.f32.read cut) = false → exec (.rleave d hr b j) s = got 0) ∧
        (s.engineBusy h.id = false → x.state = 1 → sh < nshard → x.left.getLsbD sh = false → (brem = .inf true ∨ brem.lt (FName.f32.read cut) = true) →
          ∃ y, exec (.rleave d hr b j) s = .next ((({ Jd.drainAll h.id with slots := tabPut s.slots k y } : State).ps d 1).vecRetired 4) ∧
            y = { x with left := x.left ||| BitVec.ofNat 64 (2 ^ sh), uup := y.uup, ldn := y.ldn }) ∧
        ((s.gs b).toNat % 32 = 0 →
          (s.copyBusy h.id = false → x.state ≠ 2 → ¬(x.state = 1 ∧ left = true) → exec (.rwin d hr b j) s = got (2 ^ 64 - 1)) ∧
          (h.answers = [] → h.cur = [] → h.sbuf = [] → h.vbuf = [] → s.harts.all (fun p => p.2.id != h.id) = true → Jd.undisturbed = true → Jd.reaches false .write 32 (s.gs b) (loc 0) →
            (x.state = 1 → left = true → handedOut (tabPut s.slots k { x with state := 2, win := x.record }) x.record) ∧
            (x.state = 2 → x.win.length = 32 → handedOut s.slots x.win))) ∧
        ((s.gs a).toNat % 64 = 0 → h.answers = [] → h.cur = [] → J.undisturbed = true → (∀ q < 4, J.reaches false .read 64 (s.gs a + BitVec.ofNat 64 (64 * q)) (loc q)) →
          let bs := (List.range 4).flatMap (fun q => memRead 64 (loc q) s.mem)
          raceRecordOk bs = true → ∃ t : State, exec (.rset hr a j) s = .next ((({ J with slots := tabPut s.slots k { RaceSlot.init h.ctxid with cap := bs, state := 1 } } : State).vecRetired 4).keeping t)) ∧
        (h.sew = 32 → h.operandsOk [h.opd v, h.opd i] [] = true →
          let Z := fun q => h.elem v.toNat 32 q
          let I := fun q => h.elem i.toNat 32 q
          (h.active m h.vl = [] → exec (.rpost v hr i m j) s = .next (J.vecRetired 4)) ∧
          (h.active m h.vl ≠ [] → (recReplay x.cap = true → s.copyBusy h.id = false ∧ ∀ q ∈ h.active m h.vl, x.applies sh (Z q) (I q) = true →
              J.reaches true .read 4 (fieldW x.cap 0x10 + BitVec.ofNat 64 (4 * I q)) (loc (I q))) →
            let noise := fun q => if recReplay x.cap then leNat (memRead 4 (loc (I q)) s.mem) else skh (fieldW x.cap 0) (fieldW x.cap 8) (I q)
            exec (.rpost v hr i m j) s =
              .next (({ J with slots := tabPut s.slots k ((h.active m h.vl).foldl (fun y q => y.post sh (Z q) (I q) (noise q)) x) } : State).vecRetired 4)))) ∧
      (handlePkg H = s.pkg.toNat → (tabGet s.slots k = none ∨ (tabGet s.slots k = some x ∧ x.ctx ≠ h.ctxid)) →
        let prv := fun (w : IWord) => Host.Outcome.next (J.trap ⟨0x02, BitVec.ofNat 64 w.toNat⟩)
        exec (.rbound d hr j) s = prv (wRbound d hr j) ∧ exec (.rstat d hr j) s = prv (wRstat d hr j) ∧ exec (.rset hr a j) s = prv (wRset hr a j) ∧
        exec (.rleave d hr b j) s = prv (wRleave d hr b j) ∧ exec (.rwin d hr b j) s = prv (wRwin d hr b j) ∧
        (h.sew = 32 → h.operandsOk [h.opd v, h.opd i] [] = true → exec (.rpost v hr i m j) s = prv (wRpost v hr i m j))) ∧
      (∀ n st, handlePkg H ≠ s.pkg.toNat → n < 2 ^ 64 → tabGet h.answers (2 ^ 59) = some (.done (4 * n) st) →
        exec (.rbound d hr j) s = got n ∧ exec (.rstat d hr j) s = got n ∧
        (∀ q st', q < 2 ^ 64 → tabGet h.answers (2 ^ 58) = some (.done (4 * q) st') →
          exec (.rset hr a j) s = .next (J.vecRetired 4) ∧ exec (.rleave d hr b j) s = got (if q = 1 then n else q) ∧
          ((s.gs b).toNat % 32 = 0 → s.copyBusy h.id = false → n = 2 ^ 64 - 1 → exec (.rwin d hr b j) s = got n) ∧
          (h.sew = 32 → h.operandsOk [h.opd v, h.opd i] [] = true → exec (.rpost v hr i m j) s = .next (J.vecRetired 4))))

/-- R244, R245: what one post does to a slot. A post that the race no longer takes sets DROP and a NaN logit sets NANP, each with nothing else; any other counts. With K = 0 the entry of the post becomes the best where
it ranks above it, or equal with a lower index, and else the best stays. With K > 0 TOP keeps the K first of its entries and the new one in its order, whatever it drops standing behind all that it keeps. The cut never falls.
The order of TOP, which `rset` sets up and every post keeps, is a premise. -/
def Obligations.SlotsKeepTheBest : Prop :=
  ∀ (x : RaceSlot) (sh z j g : Nat) (r : List Byte),
    let y := x.post sh z j g
    let K := fieldOf x.cap 0x24 2
    let e : TopEntry := ⟨code32 (x.penalised z j), j, code32 (addR .rne (divR .rne (x.penalised z j) (FName.f32.read (fieldOf x.cap 0x18 4))) (FName.f32.read g))⟩
    let score := FName.f32.read e.g
    let best := FName.f32.read x.best.g
    let races := x.state = 1 ∧ sh < fieldOf x.cap 0x28 2 ∧ x.left.getLsbD sh = false ∧ j ≠ 0xFFFFFFFF
    (x.open_ r).topOk ∧
    (¬races → y = { x with drop := true }) ∧
    (races → (FName.f32.read z).isNan = true → y = { x with nanp := true }) ∧
    (races → (FName.f32.read z).isNan = false → y.eval = x.eval + 1 ∧ y.state = x.state ∧ y.cap = x.cap ∧ y.left = x.left ∧
      (K = 0 → y.top = x.top ∧ (FName.f32.read y.cut).lt (FName.f32.read x.cut) = false ∧
        y.best = if scoreAbove score best = true ∨ (scoreEq score best = true ∧ j < x.best.j) then e else x.best) ∧
      (0 < K → x.topOk → (FName.f32.read e.z).isNan = false → y.best = x.best ∧ y.topOk ∧ y.top.length = min (x.top.length + 1) K ∧ (FName.f32.read y.cut).lt (FName.f32.read x.cut) = false ∧
        ∃ dropped, (y.top ++ dropped).Perm (e :: x.top) ∧ ∀ u ∈ y.top, ∀ v ∈ dropped, u.leads v = true))
/-- R259, R267 to R277, R281: a CHURN instruction on a context of the hart's own: each status that the tables give, and what each does where it goes through: `chset` opens a dispatch, `chcount` counts the choices
of its tokens, `chplace` and `chdone` write the tables and publish the pool, `chsend` places tokens in order or waits for its turn, `chstat` reads the state; a context of another owner traps PRV. `wtake` and `wput` act
on a pool word in one step. The memory side of `chset`, `chcount`, `chplace`, `chdone` and of what `chsend` writes is that of the drivers whose completion is assumed; `chsend` completes where every element that its tokens
can address lies in the untranslated windows and no write is buffered. That `chdone` traps TKR whatever RPEND is, before it waits, is the model's reading (log 26). -/
def Obligations.ChurnAndPoolResults : Prop :=
  ∀ (s s1 s2 : State) (d hr b : Reg5) (j : BitVec 1) (x : Churn) (bs un : List Byte) (ds : List (Nat × Nat)) (n : BitVec 11) (l : Nat) (strict : Bool),
    let h := s.hart
    let H := s.gs hr
    let k := churnKey H
    let J := s.joined .engine j [d]
    let status := fun (u : State) (q : Nat) => Host.Outcome.next ((u.ps d (BitVec.ofNat 64 q)).vecRetired 4)
    let base := (s.gs b).toNat
    let T := fieldOf x.cap 0 4
    let Kc := fieldOf x.cap 4 1
    let E := fieldOf x.cap 6 2
    let wrong := fun (want : Nat) => if x.state = 4 then 3 else if x.state = want then 0 else 1
    (h.mayJoin .engine j = true → churnHandleOk H = true →
      (tabGet s.churns k = none ∨ (tabGet s.churns k = some x ∧ x.owner ≠ h.ctxid) → exec (.chstat d hr j) s = .next (J.trap ⟨0x02, BitVec.ofNat 64 (wChstat d hr j).toNat⟩)) ∧
      (tabGet s.churns k = some x → x.owner = h.ctxid →
        exec (.chstat d hr j) s = status J ((if x.state = 1 then x.cntd else x.next) % 2 ^ 32 * 2 ^ 32 + min x.drops 65535 * 2 ^ 16 + (if fieldOf x.cap 0x64 4 < x.drops then 2 ^ 7 else 0) +
          (if x.rfail then 2 ^ 6 else 0) + (if 0 < x.rpend then 2 ^ 5 else 0) + (if s.stripWaits k then 2 ^ 4 else 0) + x.state) ∧
        ((s.gs b).toNat % 64 = 0 → J.readBlock 0 (s.gs b) 128 none = .ok s1 bs → dispatchRecordOk bs = true → s1.claimed k = false →
          exec (.chset d hr b j) s = status ((s1.setChurn k { Churn.init h.ctxid with state := 1, cap := bs }).wakeStrips k (fun _ => true) .aborted) 0) ∧
        (s.claimed k = false → wrong 1 ≠ 0 → exec (.chcount d hr b j) s = status J (wrong 1) ∧ exec (.chplace d hr j) s = status J (wrong 1)) ∧
        (s.claimed k = false → wrong 1 = 0 → T < base + h.vl → exec (.chcount d hr b j) s = status J 2) ∧
        (let is := h.activeMem 0 h.vl
         let es := is.flatMap (fun i => choiceElems x.cap i (base + i))
         let chosen := fun (i c : Nat) => leNat (tagBytes (es.filter (fun e => elemNo e == i)) ds (8 * c))
         s.claimed k = false → wrong 1 = 0 → base + h.vl ≤ T → J.copyBlocks h.id es = false → J.runRows (churnHdr (wChcount d hr b j) d j) .translate h.vl is es .none = .all s1 ds → s1.churns = s.churns →
           ∃ y, exec (.chcount d hr b j) s = status (s1.setChurn k y) 0 ∧ y = { x with cnt := y.cnt, cntd := y.cntd } ∧ y.cntd % 2 ^ 32 = (x.cntd + (rowsDone is ds).length) % 2 ^ 32 ∧
             ∀ e, countOf y.cnt e % 2 ^ 32 = (countOf x.cnt e + (((rowsDone is ds).map (fun i => ((List.range Kc).filter (fun c => chosen i c == e && decide (e < E))).length)).sum)) % 2 ^ 32) ∧
        (s.claimed k = false → wrong 1 = 0 → x.cntd ≠ T → exec (.chplace d hr j) s = status J 2) ∧
        (let entries := chunks16 E bs
         let plc := entries.map placementOf
         s.claimed k = false → wrong 1 = 0 → x.cntd = T → J.readBlock 0 (fieldW x.cap 0x20) (16 * E) none = .ok s1 bs → (∀ p ∈ entries, placementOk (fieldOf x.cap 0xC 4) p = true) →
           s1.writeAll (writeElems 1 (fieldW x.cap 0x28) ((List.range E).flatMap (fun e => natLe 4 (countOf x.cnt e))) ++ (List.range E).flatMap (x.groupElems plc) ++
             writeElems 2 (fieldW x.cap 0x50 + 64) (x.taskWords.flatMap (natLe 8)) ++ writeElems 3 (fieldW x.cap 0x50) (natLe 8 0)) [] = .ok s2 un →
           exec (.chplace d hr j) s = status (s2.setChurn k { x with state := 2, plc := plc, tasks := x.taskWords.length, cur := [], next := 0, drops := 0, tables := some (s2.hart.id, s2.hart.lock.num) }) 0) ∧
        (h.resume = .aborted → exec (.chsend d hr b j) s = status J 1) ∧
        (h.resume ≠ .aborted →
          let vst := h.vstart.toNat
          let turn := wrong 2 = 0 ∧ base + h.vl ≤ T ∧ vst < h.vl
          (turn → x.next < base + vst →
            exec (.chsend d hr b j) s = .next { s with hart := { h.begin_ with wait := .churn k (base + vst), cur := [wChsend d hr b j], inUse := some .engine } }) ∧
          (s.claimed k = false →
            (wrong 2 ≠ 0 → exec (.chsend d hr b j) s = status J (wrong 2)) ∧
            (wrong 2 = 0 → T < base + h.vl → exec (.chsend d hr b j) s = status J 2) ∧
            (wrong 2 = 0 → base + h.vl ≤ T → h.vl ≤ vst → exec (.chsend d hr b j) s = status J 0) ∧
            (turn → h.claim ≠ some k → base + vst < x.next → exec (.chsend d hr b j) s = status J 4) ∧
            (turn → base + vst = x.next → J.undisturbed = true →
              ((J.openLock h.id []).sendStrip k base none (h.vl - vst) vst = .done s1 → exec (.chsend d hr b j) s = status (s1.committed k) 0) ∧
              (h.answers = [] → h.cur = [] → s.ecc = [] → s.badCopies = [] → s.allHarts.all (fun y => y.sbuf.isEmpty && y.vbuf.isEmpty) = true →
                (∀ i, vst ≤ i → i < h.vl → ∀ p : Pair, p.c < Kc → (match p.to_ with
                    | .row q => p.e < E ∧ q < fieldOf x.cap 8 4
                    | .drop (some q) => p.e < E ∧ q < fieldOf x.cap 0x64 4
                    | _ => True) →
                  ∀ e ∈ choiceElems x.cap i (base + i) ++ x.pairReads i (base + i) p ++ x.pairWrites i (base + i) p (List.replicate 2 0) (List.replicate (fieldOf x.cap 0xC 4) 0),
                    0xFFFFF00000000000 ≤ e.addr.toNat ∧ ∃ q, s.window h.agent e.addr = .loc q false) →
                ∃ u y, exec (.chsend d hr b j) s = .next u ∧ tabGet u.churns k = some y ∧ y = { x with next := base + h.vl, cur := y.cur, drops := y.drops, rows := y.rows, rfail := y.rfail } ∧
                  u.hart = ({ (h.vectorPast 4 .engine j [d]).ps d 0 with vbuf := u.hart.vbuf, wseq := u.hart.wseq } : Hart).keeping u.hart)))) ∧
        (s.claimed k = false → x.state = 3 → exec (.chdone d hr j) s = status J 0) ∧
        (s.claimed k = false → x.state ≠ 3 → wrong 2 ≠ 0 → exec (.chdone d hr j) s = status J (wrong 2)) ∧
        (s.claimed k = false → wrong 2 = 0 → x.next ≠ T → exec (.chdone d hr j) s = status J 2) ∧
        (s.claimed k = false → wrong 2 = 0 → x.next = T → x.hasRemote = true → 0 < s.outstanding h → exec (.chdone d hr j) s = .next (J.trap ⟨0x07, BitVec.ofNat 64 (s.outstanding h)⟩)) ∧
        (s.claimed k = false → wrong 2 = 0 → x.next = T → (x.hasRemote = true → s.outstanding h = 0) → x.rpend = 0 →
          (x.rfail = true → exec (.chdone d hr j) s = status (J.setChurn k { x with state := 4 }) 3) ∧
          (x.rfail = false → s.engineBusy h.id = false →
            ((J.drainAll h.id).tablesDone x).writeAll (writeElems 0 (fieldW x.cap 0x48) (natLe 8 x.drops)) (writeElems 1 (fieldW x.cap 0x50) (natLe 8 (x.tasks * 2 ^ 32))) = .ok s1 un →
            exec (.chdone d hr j) s = status (s1.drainEntry.setChurn k { x with state := 3 }) 0)))) ∧
    (let s0 := s.checked false [hr]
     let put := s0.drainAll h.id
     h.sound = true → (s.gs hr).toNat % 8 = 0 → s.copyHits h.id (s.gs hr) 8 = false →
      (s0.translate h.agent .write (s.gs hr) = (s1, .loc l strict) → s1.bad l 8 = false → s1.badCopies = [] → s1.quietAt l 8 = true → Memory.wf s1.mem = true →
        let w := leNat (memRead 8 l s1.mem)
        ∃ t, exec (.wtake d hr) s = .next t ∧ (∀ r, r ≠ d → t.gs r = s.gs r) ∧ t.hart.pc = h.pc + 4 ∧ (d ≠ 0 → t.gs d = if w % 2 ^ 32 < w / 2 ^ 32 then BitVec.ofNat 64 (w % 2 ^ 32) else BitVec.allOnes 64) ∧
          leNat (memRead 8 l t.mem) = (if w % 2 ^ 32 < w / 2 ^ 32 then w + 1 else w) ∧ (∀ q, (q < l ∨ l + 8 ≤ q) → memGet t.mem q = memGet s1.mem q)) ∧
      (0 < s.outstanding h → exec (.wput d hr n) s = .next (s0.trap ⟨0x07, BitVec.ofNat 64 (s.outstanding h)⟩)) ∧
      (s.outstanding h = 0 → s.engineBusy h.id = false → put.translate h.agent .write (s.gs hr) = (s1, .loc l strict) → s1.bad l 8 = false → s1.badCopies = [] → s1.quietAt l 8 = true → Memory.wf s1.mem = true →
        let w := leNat (memRead 8 l s1.mem)
        let tot := w / 2 ^ 32
        ∃ t, exec (.wput d hr n) s = .next t ∧ (∀ r, r ≠ d → t.gs r = s.gs r) ∧ t.hart.pc = h.pc + 4 ∧ (d ≠ 0 → t.gs d = if tot + n.toNat < 2 ^ 32 then BitVec.ofNat 64 tot else BitVec.allOnes 64) ∧
          leNat (memRead 8 l t.mem) = (if tot + n.toNat < 2 ^ 32 then w + n.toNat * 2 ^ 32 else w) ∧ (∀ q, (q < l ∨ l + 8 ≤ q) → memGet t.mem q = memGet s1.mem q)))
/-- R344 to R349: a collective on a valid group whose harts are not aborted arrives at its port and waits; with its result it writes vd, ORs the exceptions into FCSR, sets LAST to success and retires; an abort before that
traps GA; a group that is invalid or aborted traps GA at issue. That a GA at issue leaves LAST as it is and a later GA sets it to 2 is the model's choice (log 27). `gabort` applies the abort here and sends it, and has no effect on an invalid group; `gstat` gives the fields of Table 14-4. -/
def Obligations.CollectivesEndWithTheirResult : Prop :=
  ∀ (s : State) (d a : Reg5) (n : BitVec 2) (j : BitVec 1) (res : List Nat) (exc : Nat),
    let h := s.hart
    let g := h.group n
    let J := s.joined .engine j []
    let w := h.sew
    let done := Host.Outcome.next ({ s with hart := ({ (h.putElems d.toNat w (res.mapIdx (fun i x => (i, x)))).setLast n 1 with fcsr := h.fcsr ||| BitVec.ofNat 10 exc } : Hart).vectorPast 4 .engine j [] } : State)
    let ga := Host.Outcome.next (J.trap ⟨0x0D, BitVec.ofNat 64 n.toNat⟩)
    h.mayJoin .engine j = true →
      (h.operandsOk [h.opd a] [h.opd d] = true →
        (∀ p ∈ ([.vcsum d a n j, .vcmax d a n j, .vcmin d a n j, .vcscan d a n j] : List Instr),
          (h.resume = .go res exc → exec p s = done) ∧ (h.resume = .none → h.vstart = 0 → h.collFmt 0 = true → (g.v = false ∨ g.ab = true) → exec p s = ga)) ∧
        (d ≠ a → h.resume = .go res exc → exec (.vcgat d a n j) s = done ∧ exec (.vcsct d a n j) s = done)) ∧
      (h.operandsOk [h.opd d] [h.opd d] = true → h.resume = .go res exc → exec (.vcbc d a n j) s = done) ∧
      (h.resume = .none → h.vstart = 0 → h.collFmt 0 = true → g.v = true → g.ab = false → h.operandsOk [h.opd a] [h.opd d] = true → s.combinesHere h.ctxid g.gid = true →
        let key : CollKey := ⟨0, h.vl, h.vtype &&& 0x71FF, 0⟩
        let c : Coll := ⟨n, key, (List.range h.vl).map (h.elem a.toNat w), false, h.vl, [], 0, false⟩
        exec (.vcsum d a n j) s = .next ({ s with hart := { h.begin_ with wait := .group n.toNat, coll := some c, cur := [wVcsum d a n j], inUse := some .engine }, agenda := s.agenda ++ [.collectiveArrival h.ctxid g.gid g.rank.toNat key] } : State)) ∧
      (h.resume = .aborted → h.coll = none → exec (.vcsum d a n j) s = .next ((J.upd (fun x => { x.setLast n 2 with vstart := 0 })).trap ⟨0x0D, BitVec.ofNat 64 n.toNat⟩)) ∧
      (g.v = false → exec (.gabort n j) s = .next (J.vecRetired 4)) ∧
      (g.v = true → exec (.gabort n j) s = .next (((J.applyAbort h.ctxid g.gid 1 g.rank).emit (.abort h.ctxid g.gid 1 g.rank)).vecRetired 4)) ∧
      exec (.gstat d n j) s = .next (((s.joined .engine j [d]).ps d (BitVec.ofNat 64 ((if g.v then 2 ^ 63 else 0) + (if g.ab then 2 ^ 62 else 0) + g.why.toNat * 2 ^ 60 + g.last.toNat * 2 ^ 58 +
        g.orig.toNat * 2 ^ 48 + g.gid.toNat * 2 ^ 32 + g.rank.toNat * 2 ^ 16 + g.nm1.toNat))).vecRetired 4)

/-- R345, R346, R348, R351 to R353: the combining port counts arrivals, sends GO once all have come, or aborts a group whose members do not match; a member sends its source after GO; with every source the port forms the
result of each rank, integer sums modulo 2^SEW; a result that fills its destination ends the wait; an abort is applied once, sets AB, WHY and ORIG, and V falls by a kill, and discards the counts of the group's chunks that are
not full, its packets on their way and those that come later; a withdrawal counts until GO: before it the arrival is taken back, a member of another package is told so, and a member here traps INT; the flag of a chunk is written once its count is full, and no other. That an event which finds nothing to act on (no group, an abort
that was applied before, a withdrawal after GO) changes nothing is the model's choice (log 14), as are a result in one chunk (log 20) and ORIG of a mismatch (log 27). -/
def Obligations.PortsCombineAndAbort : Prop :=
  ∀ (s : State) (ctx gid : BitVec 16) (rank hart first : Nat) (key : CollKey) (p : PortGroup) (data : List Nat) (exc orig : BitVec 10) (why : BitVec 2) (ap user : Bool) (flag seq : Word)
    (srcs : List (List Nat)) (remote : List (Nat × List Nat)),
    let c := s.combine ctx gid
    let c1 := { c with arrived := tabPut c.arrived rank key }
    let h := s.getHart hart
    let P := p.members.length
    (s.portGroup ctx gid = none → exec (.collectiveArrival ctx gid rank key) s = .next (s.setCombine ctx gid (some c1)) ∧ exec (.groupAbortApply ctx gid why orig) s = .next s) ∧
    (s.portGroup ctx gid = some p → p.abort = none → s.combinesHere ctx gid = true → c.go = false → rank < P →
      (c1.arrived.length < P → exec (.collectiveArrival ctx gid rank key) s = .next (s.setCombine ctx gid (some c1))) ∧
      (P ≤ c1.arrived.length → (∀ x ∈ c1.arrived, x.2 = key) → ∃ t, exec (.collectiveArrival ctx gid rank key) s = .next t ∧ (t.combine ctx gid).go = true ∧ t.outbox = s.outbox ++ [.go ctx gid] ∧
        ∀ r m, r < P → (p.members.getD r (128, 0, 0)).1 = s.pkg.toNat → s.memberHart ctx gid r = some m → Ev.collectiveGo m.id ∈ t.agenda) ∧
      (P ≤ c1.arrived.length → (∃ x ∈ c1.arrived, x.2 ≠ key) → ∃ o, exec (.collectiveArrival ctx gid rank key) s = .next ((s.took.applyAbort ctx gid 3 o).emit (.abort ctx gid 3 o)))) ∧
    (∀ k q, h.wait = .group q → h.coll = some k → k.go = false → (h.group k.g).v = true → (h.group k.g).ab = false → s.combinesHere h.ctxid (h.group k.g).gid = false →
      s.portGroup h.ctxid (h.group k.g).gid = some p → exec (.collectiveGo hart) s = .next ((s.setHart { h with coll := some { k with go := true } }).emit (.source h.ctxid (h.group k.g).gid (h.group k.g).rank.toNat k.src))) ∧
    (∀ k q, h.wait = .group q → h.coll = some k → k.go = true → (h.group k.g).v = true → (h.group k.g).ab = false → k.got = [] → k.want = data.length →
      exec (.collectiveChunk hart 0 data exc true) s = .next (s.setHart { h with wait := .none, resume := .go data exc.toNat, coll := some { k with got := data.mapIdx (fun i x => (i, x)), exc := exc } })) ∧
    (∀ k q, h.wait = .group q → h.coll = some k → k.go = true → (h.group k.g).v = true → (h.group k.g).ab = false →
      exec (.collectiveChunk hart first data exc false) s = .next (s.setHart { h with coll := some { k with got := data.mapIdx (fun i x => (first + i, x)) ++ k.got } })) ∧
    (s.portGroup ctx gid = some p → c.go = true → c.arrived ≠ [] → c.sources = [] → remote = srcs.mapIdx (fun r x => (r, x)) → srcs.length = P → s.ranksHere p = [] → key = (c.arrived.headD (0, key)).2 →
      ∃ e, exec (.collectiveData ctx gid remote) s = .next ({ s.setCombine ctx gid none with outbox := s.outbox ++ (List.range P).map (fun r => Out.result ctx gid r (collResult key srcs r).1 e) } : State)) ∧
    (let w := 4 * 2 ^ (key.vtype.toNat % 8)
     let sum := fun (xs : List Nat) => xs.foldl (fun x y => (x + y) % 2 ^ w) 0
     (∀ x ∈ srcs, ∀ y ∈ x, y < 2 ^ w) → srcs ≠ [] → ({ Hart.init 0 with vtype := key.vtype } : Hart).sew = w → ({ Hart.init 0 with vtype := key.vtype } : Hart).fmt < 2 →
      (key.op = 0 → (collResult key srcs rank).1 = (List.range key.vl).map (fun i => sum (srcs.map (fun x => x.getD i 0)))) ∧
      (key.op = 6 → (collResult key srcs rank).1 = (List.range key.vl).map (fun i => sum ((srcs.take (rank + 1)).map (fun x => x.getD i 0)))) ∧
      (key.op = 4 → (collResult key srcs rank).1 = (List.range key.vl).map (fun i => sum (srcs.map (fun x => x.getD (rank * key.vl + i) 0)))) ∧
      (key.op = 3 → (collResult key srcs rank).1 = srcs.flatten) ∧ (key.op = 5 → (collResult key srcs rank).1 = srcs.getD key.root [])) ∧
    (s.portGroup ctx gid = some p → p.abort.isSome = true → exec (.groupAbortApply ctx gid why orig) s = .next s) ∧
    (s.portGroup ctx gid = some p → p.abort = none → ∃ t, exec (.groupAbortApply ctx gid why orig) s = .next t ∧ t.portGroup ctx gid = some { p with abort := some (why, orig) } ∧ t.mem = s.mem ∧
      t.chunks = s.chunks.filter (fun y => !(y.ctx == ctx && y.group == some gid && decide (y.got < y.want))) ∧
      (∀ q, s.hart.ctxid = ctx → s.hart.wait = .group q → (∃ k, s.hart.coll = some k ∧ (s.hart.group k.g).gid = gid ∧ (s.hart.group k.g).v = true) → t.hart.wait = .none ∧ t.hart.resume = .aborted) ∧
      (s.hart.ctxid = ctx → ∀ n : BitVec 2, n.toNat < s.hart.groups.size → (s.hart.group n).v = true → (s.hart.group n).gid = gid → (s.hart.group n).ab = false →
        t.hart.group n = { s.hart.group n with ab := true, why := why, orig := orig, v := why != 2 }) ∧ (s.hart.ctxid ≠ ctx → s.sent.all (fun q => !ofGroup ctx gid q) = true → t.hart = s.hart)) ∧
    (s.combinesHere ctx gid = false → exec (.arrivalWithdrawal ctx gid rank false) s = .next s) ∧
    (s.combinesHere ctx gid = true → c.go = true → exec (.arrivalWithdrawal ctx gid rank ap) s = .next (if (s.memberHart ctx gid rank).isNone then s.emit (.withdrawn ctx gid rank false) else s)) ∧
    (s.combinesHere ctx gid = true → c.go = false → ∃ u, (u.combine ctx gid).arrived = tabDel c.arrived rank ∧ (∀ k, Ev.collectiveArrival ctx gid rank k ∉ u.agenda) ∧ u.hart = s.hart ∧ u.mem = s.mem ∧
      (s.memberHart ctx gid rank = none → exec (.arrivalWithdrawal ctx gid rank ap) s = .next u ∧ u.outbox = s.outbox ++ [.withdrawn ctx gid rank true]) ∧
      (∀ m k, s.memberHart ctx gid rank = some m → m.coll = some k → k.go = false → m.stop = false → u.outbox = s.outbox ∧
        exec (.arrivalWithdrawal ctx gid rank ap) s = .next (if m.requested then (u.setHart { m with wait := .none, coll := none }).takeInt m.id else u.setHart { m with wait := .none, coll := none }))) ∧
    (∀ m k, s.combinesHere ctx gid = false → s.memberHart ctx gid rank = some m → m.coll = some k → k.go = false → m.stop = false →
      exec (.arrivalWithdrawal ctx gid rank true) s = .next (if m.requested then (s.setHart { m with wait := .none, coll := none }).takeInt m.id else s.setHart { m with wait := .none, coll := none })) ∧
    (∀ f : ChunkCount → Bool, f = (fun y => decide (y.want ≤ y.got) && y.same ⟨ctx, user, flag, seq, some gid, 0, 0⟩) →
      (s.chunks.find? f = none → exec (.streamChunkFull ctx (some gid) user flag seq) s = .next s) ∧
      (∀ y, s.chunks.find? f = some y → exec (.streamChunkFull ctx (some gid) user flag seq) s = .next (({ s with chunks := s.chunks.erase y } : State).fwWrite { fwAgent 0 ctx with user := user } flag (natLe 8 seq.toNat)).1)) ∧
    (∀ q : Packet, q.src ≠ s.pkg.toNat → s.portGroup q.ctx gid = some p → p.abort.isSome = true → q.tag.map (·.group) = some (some gid) → exec (.remoteRequest q) s = .next s) ∧
    (∀ q : Packet, q.src = s.pkg.toNat → s.sent.any (· == q) = true → s.portGroup q.ctx gid = some p → p.abort.isSome = true → q.tag.map (·.group) = some (some gid) →
      exec (.remoteRequest q) s = .next (s.queue (.remoteAnswer q.seq [])))
/-- R321 to R328, R333, R275, R185, R186, R128, R229, R230, R212: `tkwait` and `tkpoll` report the entry whose notice came first, or say that there is none or that one still waits; an element of a request performs at
its owner where it is placed, else its page gets a ticket, one for each page; the answer comes back to the hart, copy engine or dispatch context that asked; firmware sends notices by STATUS, or fails a ticket after a
second; a notice sets the entries of its ticket, page and package, and fails or resends a dispatch's rows; credit ends a wait in time, else the row's hart traps INT; the oldest buffered updates of a hart perform; a stream takes one element
ahead. That an event which finds nothing to act on (no packet, ticket, stream or update) changes nothing is the model's choice (log 14); that the answers of a request reach its hart together, that its tickets enter at the end of
its instruction, and when buffered updates and fetches ahead perform are the model's too (logs 7, 12, 22). -/
def Obligations.TicketsAndRemoteRequests : Prop :=
  ∀ (s s1 s2 s3 : State) (d a : Reg5) (j : BitVec 1) (t : Ticket) (p : Packet) (e : RElem) (k q n l x seq page ticket pkg die : Nat) (o : OwnerTicket) (ans : List (Nat × RAns)) (ok st : Bool) (str : Stream) (va rep : Word),
    let h := s.hart
    let J := s.joined .engine j [d]
    let ag : Agent := ⟨p.die * 256, p.ctx, p.user, some (if p.hart < 1024 then p.src * 1024 + p.hart else 0xFFFFFFFF)⟩
    let S := s.took
    let g := s.getHart k
    let clear := Host.Outcome.next (((J.upd (fun y => { y with tkOvf := false })).ps d 0).vecRetired 4)
    let waits := Host.Outcome.next ((J.ps d 3).vecRetired 4)
    let told := Host.Outcome.next (((J.setCore (coreOf h.id) { s.getCore (coreOf h.id) with tickets := replaceTicket t (if t.state = .ready then none else some { t with state := .failr }) (s.getCore (coreOf h.id)).tickets }).ps d
      (BitVec.ofNat 64 (t.page.toNat * 2 ^ 25 + t.pkg.toNat * 2 ^ 18 + t.ticket.toNat * 4 + if t.state = .ready then 1 else 2))).vecRetired 4)
    (h.mayJoin .engine j = true →
      (s.reportable = some t → exec (.tkpoll d j) s = told ∧ exec (.tkwait d a j) s = told) ∧
      (s.reportable = none → s.ticketWaits = false → exec (.tkpoll d j) s = clear ∧ exec (.tkwait d a j) s = clear) ∧
      (s.reportable = none → s.ticketWaits = true → exec (.tkpoll d j) s = waits ∧ (h.resume = .limit → exec (.tkwait d a j) s = waits) ∧
        (h.resume ≠ .limit → exec (.tkwait d a j) s = .next { s with hart := { h.begin_ with wait := .tkwait (if s.gs a = 0 then none else some (s.cycle + (s.gs a).toNat)), cur := [wTkwait d a j], inUse := some .engine } }))) ∧
    (p.src ≠ s.pkg.toNat → p.tag = none → p.elems = [e] →
      (e.op = .store → S.tabPlace ag .write e.addr = (s1, .loc l st) → Memory.wf s1.mem = true → s1.quietAt l e.n = true →
        ∃ u, exec (.remoteRequest p) s = .next u ∧ memRead e.n l u.mem = natLe e.n e.data ∧ (∀ y, (y < l ∨ l + e.n ≤ y) → memGet u.mem y = memGet s1.mem y) ∧ u.outbox = s1.outbox ++ [.answer p.src p.seq [(e.idx, .done 0 st)]]) ∧
      (e.op = .load → S.tabPlace ag .read e.addr = (s1, .loc l st) → s1.quietAt l e.n = true → s1.bad l e.n = false → s1.badCopies = [] →
        exec (.remoteRequest p) s = .next (s1.emit (.answer p.src p.seq [(e.idx, .done (leNat (memRead e.n l s1.mem)) st)]))) ∧
      (e.op = .store ∨ e.op = .load → S.tabPlace ag (ropAcc e.op) e.addr = (s1, .fault n) → (s1.owned.find? (fun y => y.die == p.die && y.ctx == p.ctx && y.page == pageOf e.addr)) = some o →
        ∃ u, exec (.remoteRequest p) s = .next u ∧ u.mem = s1.mem ∧ u.owned.length = s1.owned.length ∧ u.outbox = s1.outbox ++ [.answer p.src p.seq [(e.idx, .ticket o.ticket)]])) ∧
    (s.sent.find? (fun y => y.seq == seq) = none → exec (.remoteAnswer seq ans) s = .next s) ∧
    (s.sent.find? (fun y => y.seq == seq) = some p → p.hart = k → k < 8192 → g.wait = .remote 1 → (s.getCluster (clusterOf k)).copies.any (fun c => c.wait == some p.seq) = false →
      ∃ u, exec (.remoteAnswer seq ans) s = .next u ∧ u = ({ s with sent := s.sent.filter (fun y => y.seq != p.seq) } : State).setHart { g with answers := g.answers ++ ans, wait := .none }) ∧
    (s.ownedTicket die ticket = none → exec (.replayNoticeSend die ticket) s = .next s ∧ exec (.serviceTimeout die ticket) s = .next s) ∧
    (s.ownedTicket die ticket = some o →
      (s.serviceStatus o = (s1, some 1) → exec (.replayNoticeSend die ticket) s = .next (s1.sendNotices o true)) ∧
      (s.serviceStatus o = (s1, some 2) → exec (.replayNoticeSend die ticket) s = .next (s1.sendNotices o false)) ∧
      (s.time < o.posted + 10 ^ 9 → exec (.serviceTimeout die ticket) s = .next s) ∧
      (o.posted + 10 ^ 9 ≤ s.time → s.serviceStatus o = (s1, some 0) → exec (.serviceTimeout die ticket) s = .next (s1.sendNotices o false))) ∧
    (let told := fun (y : Ticket) => if y.state = .wait ∧ y.ticket.toNat = ticket ∧ y.pkg.toNat = pkg ∧ y.page.toNat = page then { y with state := if ok then .ready else .fail, ord := s.notices } else y
     ∃ u, exec (.replayNotice pkg page ticket ok) s = .next u ∧ u.cores = s.cores.map (fun c => (c.1, { c.2 with tickets := c.2.tickets.map told })) ∧ u.mem = s.mem) ∧
    (s.churns = [] → exec (.churnRemoteReplay pkg page ticket ok) s = .next s) ∧
    (∀ c, s.churns = [(n, c)] →
      let hit := fun (r : ChurnRow) => r.ticket == some ticket && r.pkg == pkg && pageOf r.elem.addr == page
      exec (.churnRemoteReplay pkg page ticket false) s = .next (s.setChurn n { c with rows := c.rows.filter (fun r => !hit r), rfail := c.rfail || c.rows.any hit })) ∧
    (g.wait = .credit none → exec (.tepiRowHandover k) s = .next (s.setHart { g with wait := .none, resume := .woken })) ∧
    (g.wait = .credit (some n) → exec (.tepiRowHandover k) s = .next (if s.cycle ≤ n + 4096 then s.setHart { g with wait := .none, resume := .woken } else s)) ∧
    (g.wait = .credit none → exec (.tepiCreditTimeout k) s = .next s) ∧
    (g.wait = .credit (some n) → n + 4096 ≤ s.cycle → (g.pending = true ∧ g.ie = true) ∨ g.stop = true → exec (.tepiCreditTimeout k) s = .next (s.takeInt k)) ∧
    (g.vbuf.findIdx? (·.rmw.isSome) = some n → exec (.pailChainApply k) s = .next ((s.setHart { g with vbuf := g.vbuf.drop (n + 1) }).performAll (g.vbuf.take (n + 1)))) ∧ (g.vbuf.findIdx? (·.rmw.isSome) = none → exec (.pailChainApply k) s = .next s) ∧
    (g.vbuf.findIdx? (fun y => isHost y.loc) = some n → exec (.hostCompletion k) s = .next ((s.setHart { g with vbuf := g.vbuf.drop (n + 1) }).performAll (g.vbuf.take (n + 1)))) ∧
    (g.vbuf.findIdx? (fun y => isHost y.loc) = none → exec (.hostCompletion k) s = .next s) ∧
    (g.streams.getD q none = none → exec (.streamFetch k q) s = .next s) ∧
    (let own := s.setHart { g with places := [], refuse := none, opened := false }
     g.streams.getD q none = some str → g.fetchNext str = some n → own.chunkReady k q str n = (s1, .done str.seq.toNat st) → s1.streamAddr k q str n = .at s2 va rep →
      s2.engineRead k ⟨streamIdx q n, va, 4 * 2 ^ str.sew.toNat / 8, .load, 0, 0⟩ = (s3, .done x ok) → exec (.streamFetch k q) s =
        .next (let u := s3.putStream k q { str with fetched := str.fetched ++ [x] }; u.setHart { u.getHart k with places := g.places, refuse := g.refuse, opened := g.opened }))
/-- R146, R147, R164, R165: in supervisor mode with an aligned area, `vsave` writes the layout of Table 5-9, which holds VTYPE, version 1, VL, LANES, the 32 vector and 7 mask registers at their offsets; `vrest` of a
valid area without streams sets them from it and leaves VOWN and PEND; an invalid area traps ILL 0x03; restoring what `vsave` writes gives every register back up to 512 x LANES bits. `brole` sets the roles but banks 0 to 3
stay CC, a bank whose role changes reads 0, no other byte changes once the buffered writes of the core's harts have performed (and of the cluster's other cores those into cluster memory that arrive before it), and tiles of
banks that leave TL lose their mapping. That `vsave` and `vrest` leave the open convoy open is the model's choice (log 39). -/
def Obligations.ContextsAreSavedAndRolesChange : Prop :=
  ∀ (s s1 : State) (a : Reg5) (bs un : List Byte),
    let h := s.hart
    let s0 := s.checked false [a]
    let B := s0.upd (·.begin_)
    let A := s.vectorArea
    let b0 := (s.checked true [a]).clusterWrites (coreOf h.id)
    let drained := (b0.allHarts.filter (fun g => coreOf g.id == coreOf h.id)).foldl (fun u g => u.drainAll g.id) b0
    let old := (s.getCore (coreOf h.id)).brole
    let new := s.gs a &&& 0xFFFFFFFFFFFFFF00
    let changed := fun (b : Nat) => b < 32 ∧ bankRole new b ≠ bankRole old b
    h.super = true → h.sound = true →
      ((s.gs a).toNat % 64 = 0 → B.writeBlock 0 (s.gs a) A = .ok s1 un → exec (.vsave a) s = .next (s1.retired 0 0)) ∧
      ((s.gs a).toNat % 64 ≠ 0 → exec (.vsave a) s = .next (s0.trap ⟨0x05, s.gs a⟩) ∧ exec (.vrest a) s = .next (s0.trap ⟨0x05, s.gs a⟩)) ∧
      ((s.gs a).toNat % 64 = 0 → B.readBlock 0 (s.gs a) 94784 none = .ok s1 bs →
        (vectorAreaBad bs = true → exec (.vrest a) s = .next (s1.trap ⟨0x01, illTval 0x03 (wVrest a) 0⟩)) ∧
        (vectorAreaBad bs = false → (∀ q < 8, fieldOf bs (0x17040 + 64 * q) 8 = 0) →
          ∃ t : State, exec (.vrest a) s = .next (t.retired 0 0) ∧ t = { s1 with hart := { s1.hart with vtype := t.hart.vtype, vl := t.hart.vl, lanes := t.hart.lanes, v := t.hart.v, m := t.hart.m, streams := t.hart.streams, bad := t.hart.bad } } ∧
            t.hart.vtype = BitVec.ofNat 16 (fieldOf bs 0 2) ∧ t.hart.vl = fieldOf bs 8 4 ∧ t.hart.lanes = fieldOf bs 0xC 4 ∧ (∀ k : Fin 32, t.hart.v.get k = BitVec.ofNat 16384 (fieldOf bs (0x40 + 2048 * k.val) 2048)) ∧
            (∀ k : Fin 7, t.hart.m.get k = BitVec.ofNat 32768 (fieldOf bs (0x10040 + 4096 * k.val) 4096)) ∧ (∀ q : Fin 8, t.hart.streams.get q = none))) ∧
      (A.length = 94784 ∧ fieldOf A 0 2 = h.vtype.toNat ∧ fieldOf A 4 4 = 1 ∧ (h.vl < 2 ^ 32 → fieldOf A 8 4 = h.vl) ∧ (h.lanes < 2 ^ 32 → fieldOf A 0xC 4 = h.lanes) ∧
        (∀ k : Fin 32, fieldOf A (0x40 + 2048 * k.val) 2048 = (h.v.get k).toNat % 2 ^ (512 * h.lanes)) ∧ (∀ k : Fin 7, fieldOf A (0x10040 + 4096 * k.val) 4096 = (h.m.get k).toNat)) ∧
      (s.allHarts.all (fun g => coreOf g.id != coreOf h.id || !g.working) = true → s.copyInBanks (coreOf h.id) ((List.range 32).filter (fun b => bankRole new b != bankRole old b)) = false → s.ecc = [] → s.badCopies = [] → Memory.wf drained.mem = true →
        ∃ t : State, exec (.brole a) s = .next t ∧ t.hart.pc = h.pc + 4 ∧ (∀ r, t.gs r = s.gs r) ∧ (t.getCore (coreOf h.id)).brole = new ∧
          (∀ b o, changed b → o < 65536 → memGet t.mem (locBank (coreOf h.id) b o) = 0) ∧
          (∀ q, (∀ b o, changed b → o < 65536 → q ≠ locBank (coreOf h.id) b o) → memGet t.mem q = memGet drained.mem q) ∧
          (∀ k b, k < 8 → b < 32 → changed b → bankRole old b = 2 → h.tmap.toNat / 2 ^ (8 * k) % 256 = 128 + b → t.hart.tmap.toNat / 2 ^ (8 * k) % 256 = b))
/-- R284, R285, R294, R292, R227, R228, Table 12-2: while firmware serves, a call of a hart whose slot reads with DONE = 0 has the effect of its function; a function that is not listed completes with status 3, arguments
out of range with status 2; RES holds value and status, REQ DONE, SEQ and FUNC of the request read. `YIELD` returns 0, and then the hart of a cluster that is to be pre-empted stands; that one of another cluster goes on is the model's choice (log 28), as is status 2 for what PROMOTE cannot move (log 29). -/
def Obligations.MailboxCallsAreAnswered : Prop :=
  ∀ (s s1 : State) (k n : Nat) (bs : List Byte),
    let req := fieldOf bs 0 8
    let fn := req % 256
    let arg := fun (i : Nat) => fieldOf bs (8 * i + 8) 8
    let S : State := { s1 with calls := s1.calls.erase k }
    let h := S.getHart k
    let res := fun (u : State) (status value : Nat) => Host.Outcome.next (u.respond k req status value)
    s.serving = true → s.calls.contains k = true → s.callBusy k = false → s.readLoc (mailboxLoc k) 40 = (s1, some bs) → req < 2 ^ 63 →
      (∀ status value, value < 2 ^ 48 → status < 2 ^ 16 → S.quietAt (mailboxLoc k) 64 = true → Memory.wf S.mem = true →
        let m := (S.respond k req status value).mem
        memRead 8 (mailboxLoc k) m = natLe 8 (2 ^ 63 + req / 2 ^ 16 % 2 ^ 32 * 2 ^ 16 + fn) ∧ memRead 8 (mailboxLoc k + 0x38) m = natLe 8 (value * 2 ^ 16 + status)) ∧
      (fn = 0 ∨ 8 < fn → exec (.mailboxBadFunc k) s = res S 3 0) ∧
      (fn = 1 →
        (arg 0 = 0 → exec (.endHart k) s = .next ((S.drainAll k).setHart { (S.drainAll k).getHart k with run := false, stop := false })) ∧
        (0x100 ≤ arg 0 → arg 0 < 2 ^ 32 → exec (.endHart k) s = .next (((S.drainAll k).setHart { (S.drainAll k).getHart k with run := false, stop := false }).updJob h.jobid
          (fun j => { j with codes := j.codes ++ [(h.gang.toNat / 2 ^ 32, h.gangHart, arg 0)] }))) ∧
        (arg 0 ≠ 0 → arg 0 < 0x100 → exec (.endHart k) s = res S 2 0)) ∧
      (fn = 2 →
        (0x100 ≤ arg 0 → arg 0 < 2 ^ 32 → exec (.endJob k) s = .next ((S.updJob h.jobid (fun j => { j with err := some (j.err.getD (arg 0)) })).stopJob h.jobid)) ∧ (arg 0 < 0x100 → exec (.endJob k) s = res S 2 0)) ∧
      (fn = 3 →
        let u := S.respond k req 0 0
        exec (.yield k) s = .next (if S.victims.contains (clusterOf k) = true ∧ (u.getHart k).run = true then u.setHart { u.getHart k with run := false, yielded := true } else u)) ∧
      (fn = 4 →
        (arg 0 = h.ctxid.toNat → arg 3 < 2 → arg 2 = 0 → exec (.shootdown k) s = .next { S with shoots := S.shoots ++ [⟨k, h.ctxid, 0, 0, decide (arg 3 = 1), req, memRead 64 (mailboxLoc k) S.mem⟩] }) ∧ (arg 0 ≠ h.ctxid.toNat → exec (.shootdown k) s = res S 2 0)) ∧
      (fn = 5 →
        (arg 2 ≠ h.ctxid.toNat → exec (.promote k) s = res S 2 0) ∧
        (∀ l e, arg 2 = h.ctxid.toNat → canonical (BitVec.ofNat 64 (arg 0)) = true → arg 0 % 65536 = 0 → arg 1 % 65536 = 0 → arg 1 < 0x3000000000 → S.unready (arg 1) = false →
          S.walk h.ctxid (BitVec.ofNat 64 (arg 0)) = some (l, e, 3) → pteKind e = 2 →
          let busy := (S.promos.filter (fun p => p.frame / 0xC00000000 == arg 1 / 0xC00000000)).length
          (16 ≤ busy → exec (.promote k) s = res S 1 0) ∧
          (busy < 16 → exec (.promote k) s = .next { S with promos := S.promos ++ [⟨k, h.ctxid, pageOf (BitVec.ofNat 64 (arg 0)), l, pteGen e, arg 1, false, false, false, req, memRead 64 (mailboxLoc k) S.mem⟩] }))) ∧
      (fn = 6 →
        (2 < arg 0 ∨ 3 < arg 1 → exec (.grant k n) s = res S 2 0) ∧
        (arg 0 ≤ 2 → arg 1 ≤ 3 → S.freeOf (arg 0) (arg 1) = [] → exec (.grant k n) s = res S 1 0) ∧
        (arg 0 ≤ 2 → arg 1 ≤ 3 → S.freeOf (arg 0) (arg 1) ≠ [] → ∃ r ∈ S.freeOf (arg 0) (arg 1), exec (.grant k n) s = res (S.give (arg 0) (arg 1) r h.ctxid) 0 r)) ∧
      (fn = 7 → arg 0 ≤ 2 → arg 1 ≤ 3 →
        (S.holder (arg 0) (arg 1) (arg 2) ≠ some h.ctxid → exec (.release k) s = res S 2 0) ∧
        (S.holder (arg 0) (arg 1) (arg 2) = some h.ctxid → exec (.release k) s = res (S.free_ (arg 0) (arg 1) (arg 2)) 0 0)) ∧
      (fn = 8 →
        let t := S.getHart (arg 0 % 1024)
        (arg 0 / 1024 = S.pkg.toNat → t.jobid ≠ 0 → t.ctxid = h.ctxid → 1 ≤ arg 1 → arg 1 ≤ 255 → exec (.intr k) s = res (S.setHart { t with irqs := irqInsert (arg 1) t.irqs }) 0 0) ∧
        (t.ctxid ≠ h.ctxid ∨ arg 1 = 0 ∨ 255 < arg 1 → exec (.intr k) s = res S 2 0))

/-- R227, R228: a shoot-down does not complete before a request under a matching translation has been answered; when it completes no matching translation is left, or none that permits a write, of an instruction in progress neither, every buffered write has performed, and the call is answered; a promotion copies its page after write permission
is shot down, is switched where GEN stands and no write walk was seen, else is discarded with status 4, and a switched one is answered after the page is shot down. Such an answer writes the slot as firmware read it. That an event with no
shoot-down and no promotion to end changes nothing is the model's choice (log 14), and that every buffered write has then performed is more than the rules ask (log 7). -/
def Obligations.ShootDownsAndPromotionsComplete : Prop :=
  ∀ (s : State) (k : Nat) (x : Shoot) (p : Promo),
    (s.shoots.find? (fun y => y.hart == k) = some x →
      let u := { s with shoots := s.shoots.filter (· != x) }.shootNow x.ctx x.first x.pages x.wonly
      (∀ t ∈ u.tlb, t.matched x.ctx x.first x.pages = true → x.wonly = true ∧ t.wr = false) ∧ u.hart.sbuf = [] ∧ u.hart.vbuf = [] ∧ (s.requestsOut x.ctx x.first x.pages = false → x.pages ≠ 0 → exec (.shootdownDone k) s = .next (u.respondLate k x.slot x.req 0 0)) ∧
      (s.requestsOut x.ctx x.first x.pages = true → exec (.shootdownDone k) s = .next s) ∧ (u.hart.ctxid = x.ctx → ∀ m ∈ u.hart.places, m.matched x.first x.pages = true → x.wonly = true ∧ m.acc ≠ .write) ∧
      (∀ w ∈ u.walkc, w.matched x.ctx x.first x.pages = false)) ∧
    (∀ (u : State) (slot : List Byte) (req status value : Nat), u.respondLate k slot req status value = (u.writeLoc (mailboxLoc k) slot).respond k req status value) ∧
    (s.shoots = [] → s.promos = [] → exec (.shootdownDone k) s = .next s) ∧ (s.promos = [] → exec (.promoteCopyDone k) s = .next s) ∧
    (s.shoots = [] → s.promos = [p] → p.hart = k →
      (s.requestsOut p.ctx p.page 1 = true → p.copying = false ∨ p.switched = true → exec (.shootdownDone k) s = .next s) ∧
      (s.requestsOut p.ctx p.page 1 = false → p.copying = false → p.switched = false → ∃ u : State, exec (.shootdownDone k) s = .next u ∧ u.promos = [{ p with copying := true }] ∧ (∀ t ∈ u.tlb, t.matched p.ctx p.page 1 = true → t.wr = false)) ∧
      (s.requestsOut p.ctx p.page 1 = false → p.copying = true → p.switched = true → ∃ u : State, exec (.shootdownDone k) s = .next (u.respondLate k p.slot p.req 0 0) ∧ u.promos = [] ∧ (∀ t ∈ u.tlb, t.matched p.ctx p.page 1 = false)) ∧
      (p.copying = true → p.switched = false →
        let e := leNat (memRead 8 p.pte s.mem)
        (e % 2 ^ 16 = p.gen → p.tracked = false → ∃ u : State, exec (.promoteCopyDone k) s = .next u ∧ u.promos = [{ p with switched := true }]) ∧
        (e % 2 ^ 16 ≠ p.gen ∨ p.tracked = true → ∃ u : State, exec (.promoteCopyDone k) s = .next (u.respondLate k p.slot p.req 4 0) ∧ u.promos = [] ∧ u.tlb = s.tlb)))
/-- R286 to R288, R290, R291 to R298, R343: a write of TAIL or CTRL sets the page's fields, RING, PMAX and LOG2N only while EN = 0; firmware takes the next record of a resident queue, which fails with error 1 if it is
invalid; a dependence signal holds its job until it reaches DEPVAL; the chosen job's next gang goes into a cluster that fits, else a lower one is asked to yield, for a suspended cluster that goes first too; a yielded cluster is saved and resumed; a job that is over
is freed; queues that wait are switched in, and the one resident longest out; a kill ends the jobs of its context with error 4; a register of the window reads as it was written. What an event that finds nothing to act on leaves (log 14), where a record is taken and a cluster chosen (log 15), that a root that is held
stays (log 28), and that the hardware's own fields of the window ignore writes (log 30) are the model's choices. -/
def Obligations.QueuesJobsAndClustersAreServed : Prop :=
  ∀ (s s1 : State) (q ix cl : Nat) (v id : Word) (bs : List Byte) (jb : Job) (pk : Parked) (ends : Bool),
    let x := s.getQueue q
    let ctx := jobCtx jb.cap
    (256 ≤ q → exec (.queueTailWrite q v.toNat) s = .next s ∧ exec (.queueEnable q v) s = .next s ∧ exec (.queueDisable q v) s = .next s) ∧
    (q < 256 → x.res = false →
      (∃ t : State, exec (.queueTailWrite q v.toNat) s = .next t ∧ t.getQueue q = { x with tail := v.toNat, since := (t.getQueue q).since } ∧ ∀ r, r ≠ q → t.getQueue r = s.getQueue r) ∧
      (∃ t : State, exec (.queueEnable q v) s = .next t ∧ t.getQueue q = { x with en := true, pmax := if x.en then x.pmax else v.toNat / 2 ^ 16 % 16, log2n := if x.en then x.log2n else v.toNat / 2 ^ 8 % 16, since := (t.getQueue q).since }) ∧
      (∃ t : State, exec (.queueDisable q v) s = .next t ∧ t.getQueue q = { x with en := false, err := false, pmax := if x.en then x.pmax else v.toNat / 2 ^ 16 % 16, log2n := if x.en then x.log2n else v.toNat / 2 ^ 8 % 16 })) ∧
    (exec (.hostWindowWrite 0x4010 v) s = .next { s with pcap := v.toNat } ∧ exec (.hostWindowWrite 0x4018 v) s = .next { s with mcRing := v } ∧ exec (.hostWindowWrite 0x4028 v) s = .next { s with fwImg := v } ∧
      exec (.hostWindowWrite 0x4040 v) s = .next { s with rootTab := v } ∧ exec (.hostWindowWrite 0x4030 1) s = .next { s with fwCmd := 1, fwStat := 1 } ∧ exec (.hostWindowWrite 0x4030 2) s = .next (({ s with fwCmd := 2 } : State).queue .fwReset) ∧
      exec (.hostWindowWrite 0x4008 v) s = .next (if v.getLsbD 16 then ({ s with killReg := v } : State).queue (.contextKill v) else { s with killReg := v }) ∧
      (∀ o ∈ [0x4008, 0x4010, 0x4018, 0x4028, 0x4040], ∃ t : State, exec (.hostWindowWrite o v) s = .next t ∧ t.hostRead o = v.toNat) ∧
      (q < 256 → x.en = true → exec (.hostWindowWrite (64 * q + 0x10) v) s = .next s)) ∧
    (s.serving = true → x.res = true → x.en = true → x.err = false → x.progress < x.tail → x.badTail = false → x.dropped = [] → s.readLoc (x.ring.toNat + 128 * (x.progress % 2 ^ x.log2n)) 128 = (s1, some bs) →
      ∃ t r, exec (.takeRecord q) s = .next t ∧ t.jobs = s1.jobs ++ [r] ∧ r.queue = q ∧ r.cap = bs ∧ r.prio = min (fieldOf bs 0x17 1 % 16) x.pmax ∧ r.err = (if jobRecordOk bs then none else some 1) ∧
        r.start = none ∧ r.placed = 0 ∧ (r.dep = true ↔ jobDepsig bs = 0) ∧ (t.getQueue q).progress = x.progress + 1 ∧ r.prev = x.last ∧ (t.getQueue q).last = some r.id) ∧
    (s.serving = true → x.res = true → x.en = true → x.err = false → x.progress < x.tail → x.badTail = true → ∃ t : State, exec (.takeRecord q) s = .next t ∧ (t.getQueue q).err = true ∧ t.jobs = s.jobs) ∧
    (s.job id = none → exec (.depsigPoll id) s = .next s ∧ exec (.depsigRecheck id) s = .next s ∧ exec (.jobEnd id ends) s = .next s) ∧
    (s.job id = some jb → s.serving = true → jb.dep = false → jb.err = none → (tabGet s.roots ctx.toNat).isSome = true →
      (∀ i ∈ [Instr.depsigPoll id, Instr.depsigRecheck id],
        (s.fwRead (fwAgent 0 ctx) (jobDepsig jb.cap) 8 = (s1, none) → exec i s = .next (s1.updJob id (·.fail 2))) ∧
        (s.fwRead (fwAgent 0 ctx) (jobDepsig jb.cap) 8 = (s1, some bs) → exec i s = .next (if jobDepval jb.cap ≤ leNat bs then s1.updJob id (fun k => { k with dep := true }) else s1)))) ∧
    (s.chosen = none → exec (.jobPlacement cl) s = .next s) ∧
    (s.chosen = some jb → s.serving = true → s.parkedFirst jb.prio = true → (∀ c < 32, s.gangsIn c ≠ [] ∨ s.victims.contains c = true) → s.victim jb.prio = some ix → s.victims.contains ix = false →
      exec (.jobPlacement cl) s = .next (s.preemptCluster ix)) ∧
    (s.chosen = some jb → s.serving = true → s.parkedFirst jb.prio = false →
      (let placed := fun (u : State) => ∃ t : State, exec (.jobPlacement cl) s = .next t ∧ t = u.placeGang jb cl ∧ ∃ g, t.gangs.getLast? = some g ∧ g.job = jb.id ∧ g.cluster = cl ∧ g.prio = jb.prio ∧
         g.harts = (u.openHarts cl jb.cap).take (jobHarts jb.cap) ∧ g.lanes = min (u.grantLimit (jobLanes jb.cap)) ((tabGet u.pgrant jb.prio).getD 32)
       s.fits cl jb.cap = true → (jb.start.isSome = true → placed s) ∧
        (jb.start = none → s.readRoot ctx = (s1, none) → exec (.jobPlacement cl) s = .next (s1.updJob jb.id (·.fail 6))) ∧
        (∀ root, jb.start = none → s.readRoot ctx = (s1, some root) → placed (if (tabGet s1.roots ctx.toNat).isSome then s1 else { s1 with roots := tabPut s1.roots ctx.toNat root }))) ∧
      ((∀ c < 32, s.fits c jb.cap = false) → s.fits cl jb.cap = false → s.victim jb.prio = some ix → s.victims.contains ix = false → exec (.jobPlacement cl) s = .next (s.preemptCluster ix)) ∧
      ((∀ c < 32, s.fits c jb.cap = false) → s.fits cl jb.cap = false → s.victim jb.prio = none → exec (.jobPlacement cl) s = .next s)) ∧
    (s.serving = true → s.victims.contains cl = true → (s.hartsIn cl).all (fun h => !h.run) = true → s.quiet ((s.hartsIn cl).map (·.id)) = true →
      (s.gangsIn cl = [] → exec (.clusterSuspend cl) s = .next { s with victims := s.victims.filter (· != cl) }) ∧
      (s.gangsIn cl ≠ [] → ∃ t p, exec (.clusterSuspend cl) s = .next t ∧ t.parked = s.parked ++ [p] ∧ p.from_ = cl ∧ p.gangs = s.gangsIn cl ∧ t.gangs = s.gangs.filter (fun g => g.cluster != cl) ∧ t.victims = s.victims.filter (· != cl) ∧
        p.harts.length = (s.hartsIn cl).length ∧ ∀ j ∈ t.jobs, (s.gangsIn cl).any (fun g => g.job == j.id) = true → j.pre = true)) ∧
    (s.parked[ix]? = none → exec (.clusterResume ix cl ends) s = .next s) ∧
    (s.parked[ix]? = some pk → s.serving = true → cl < 32 → s.gangsIn cl = [] → s.hartsIn cl = [] →
      (∃ t : State, exec (.clusterResume ix cl true) s = .next t ∧ t.parked.length = s.parked.length ∧ ∀ g ∈ pk.gangs, ∀ j ∈ t.jobs, j.id = g.job → j.err ≠ none) ∧
      (∃ t : State, exec (.clusterResume ix cl false) s = .next t ∧ t.parked = s.parked.eraseIdx ix ∧ t.gangs = s.gangs ++ pk.gangs.map (fun g => { g with cluster := cl, harts := g.harts.map (fun i => cl * 32 + i % 32) }))) ∧
    (s.job id = some jb → s.serving = true → s.jobOver jb = true → jobCompl jb.cap = 0 → ∃ t : State, exec (.jobEnd id ends) s = .next t ∧ (∀ k ∈ t.jobs, k.id ≠ id) ∧ (∀ g ∈ t.gangs, g.job ≠ id) ∧ t.msix = (if jobIrq jb.cap then jobMsix jb.cap :: s.msix else s.msix)) ∧
    (s.serving = true → x.waiting = true → s.residents < 64 → ∃ t : State, exec (.queueSwitchIn q) s = .next t ∧ (t.getQueue q).res = true ∧ (t.getQueue q).resAt = s.time) ∧
    (s.serving = true → s.longWait = true → 64 ≤ s.residents → s.switchable q = true → (∀ y ∈ s.queues, s.switchable y.1 = true → x.resAt ≤ y.2.resAt) → ∃ t : State, exec (.queueSwitchOut q) s = .next t ∧ (t.getQueue q).res = false) ∧
    (s.serving = true → v.getLsbD 16 = true → ∃ t : State, exec (.contextKill v) s = .next t ∧ ∀ j ∈ t.jobs, jobCtx j.cap = (v.truncate 16 : BitVec 16) → j.killed = true ∧ j.err ≠ none) ∧
    (v.getLsbD 16 = false → exec (.contextKill v) s = .next s)
/-- R299 to R307, R338 to R341: the stages of bring-up set their bits of BRDY in order, none after a failure; WMARK advances by 256 MiB of zeros; a failure sets FAIL; package reset keeps the firmware store, the leaf and
the host's memory; an image is stored only if it verifies; attestation signs with the next leaf; power halves the grants of the lowest priority and raises those of the highest; the host's accesses answer; a scrub records
what it finds; links count errors, a lane in whose slice 16 of them occur within 1 ms fails, and links lose lanes; a lost package fails what waits for it, and a package whose links have all been down for 10 ms is lost itself. What an event that finds
nothing to act on leaves (log 14), what is lost to a package that is lost itself (log 17), what firmware verifies and loads (log 18), where its image lies and starts (log 38), how the errors of cached copies are named (log 19) and where the host window and WMARK stand for the host (logs 4, 30) are the model's choices. -/
def Obligations.PackageEventsHaveTheirEffect : Prop :=
  ∀ (s s1 : State) (pkg : BitVec 7) (die n l lost : Nat) (cut : Bool) (nonce image : List Byte) (ports : List Nat) (present : List (BitVec 7)) (e : RElem) (g : Gang) (gs : List Gang),
    let bit := fun (k : Nat) => ({ s with brdy := s.brdy ||| BitVec.ofNat 64 (2 ^ k) } : State)
    let due := fun (k : Nat) => s.stageFailed = false ∧ s.nextStage = k
    let low := gs.foldl (fun (m : Nat) x => min m x.prio) g.prio
    let high := gs.foldl (fun (m : Nat) x => max m x.prio) g.prio
    let below := fun (x : Gang) => decide (x.lanes < s.grantLimit x.limit)
    ((due 0 → s.recovery = false → exec (.clk pkg) s = .next { bit 0 with pkg := pkg, eweok := s.eweok.map (fun y => { y with run := !(s.fwStore.getD []).isEmpty, pc := BitVec.ofNat 64 (2 ^ 53), status := y.status ||| 1 }), mem := (List.range 4).foldl (fun m y => memPut m (locFirm y 0) (s.fwStore.getD [])) s.mem, m0 := (Config.blocks s.resets).foldl (fun m y => shake256 (m ++ shake256 y)) s.m0 }) ∧ (due 1 → exec .d2d s = .next (bit 1)) ∧ (due 2 → exec .dramcal s = .next (bit 2)) ∧ (due 3 → exec .llcinit s = .next (bit 3)) ∧
      (due 4 → s.wmark 0 = 192 → s.wmark 1 = 192 → s.wmark 2 = 192 → s.wmark 3 = 192 → exec .draminit s = .next (bit 4)) ∧
      (due 5 → (∀ p ∈ ports, p = s.pkg.toNat) → exec (.fabric ports present) s = .next { bit 5 with present := present }) ∧
      (due 5 → (∃ p ∈ ports, p ≠ s.pkg.toNat) → exec (.fabric ports present) s = .next { s with brdy := s.brdy ||| 0x600 }) ∧ (due 6 → exec .ready s = .next (bit 6)) ∧
      (s.stageFailed = true → exec .d2d s = .next s ∧ exec .dramcal s = .next s ∧ exec .llcinit s = .next s ∧ exec .ready s = .next s ∧ exec .stageFail s = .next s ∧ exec (.clk pkg) s = .next s ∧ exec .draminit s = .next s) ∧
      (∀ k < 7, due k → exec .stageFail s = .next { s with brdy := s.brdy ||| BitVec.ofNat 64 ((k + 1) * 256) })) ∧
    (s.stageFailed = false → s.brdy.getLsbD 3 = true → die < 4 → s.wmark die < 192 → Memory.wf s.mem = true →
      ∃ t : State, exec (.wmarkAdvance die) s = .next t ∧ t.wmark die = s.wmark die + 1 ∧
        ∀ q, memGet t.mem q = if die * 0xC00000000 + s.wmark die * 2 ^ 28 ≤ q ∧ q < die * 0xC00000000 + (s.wmark die + 1) * 2 ^ 28 then 0 else memGet s.mem q) ∧
    (Memory.wf s.mem = true → ∀ i ∈ [Instr.packageReset, Instr.fwReset], ∃ t : State, exec i s = .next t ∧ t.fwStore = s.fwStore ∧ t.leaf = s.leaf ∧ t.resets = s.resets + 1 ∧ t.brdy = 0 ∧ t.jobs = [] ∧ t.queues = State.reset.queues ∧ t.hart = State.reset.hart ∧
      (∀ q, 2 ^ 51 ≤ q → q < 2 ^ 52 → memGet t.mem q = memGet s.mem q) ∧ (∀ q, (q < 2 ^ 51 ∨ 2 ^ 52 ≤ q) → memGet t.mem q = 0) ∧
      (s.fwStore = none → t.recovery = true ∧ t.fwStat = 4) ∧ (∀ im, s.fwStore = some im → (Config.imageOk im = true → t.recovery = false ∧ t.m0 = shake256 im) ∧ (Config.imageOk im = false → t.recovery = true ∧ t.fwStat = 4))) ∧
    (s.fwStat ≠ 1 → exec (.fwInstall n cut) s = .next s) ∧
    (s.fwStat = 1 → s.readLoc (2 ^ 51 + s.fwImg.toNat % 2 ^ 51) n = (s1, some image) → (Config.imageOk image = false → exec (.fwInstall n cut) s = .next { s1 with fwStat := 3 }) ∧
      (Config.imageOk image = true → exec (.fwInstall n false) s = .next { s1 with fwStore := some image, fwStat := 2 })) ∧
    (s.fwStat = 1 → s.readLoc (2 ^ 51 + s.fwImg.toNat % 2 ^ 51) n = (s1, none) → exec (.fwInstall n cut) s = .next { s1 with fwStat := 3 }) ∧
    (s.recovery = false → s.stageFailed = false → s.brdy.getLsbD 0 = true →
      (2 ^ 20 ≤ s.leaf → exec (.attestation nonce) s = .next (s.emit .noReport)) ∧
      (s.leaf < 2 ^ 20 → nonce.length = 32 → let r := s.m0 ++ nonce ++ natLe 8 s.pkg.toNat ++ natLe 8 s.resets
        exec (.attestation nonce) s = .next (({ s with leaf := s.leaf + 1 } : State).emit (.report r (Config.signature s.leaf r))))) ∧
    (s.gangs.filter (fun x => decide (4 < x.lanes)) = [] → exec (.powerMeasure n cut) s = .next s) ∧
    (s.gangs.filter (fun x => decide (4 < x.lanes)) = g :: gs → (cut = true ∨ s.pcap < n) → exec (.powerMeasure n cut) s = .next (s.regrant (fun x => x.prio == low && decide (4 < x.lanes)) (fun x => x.lanes / 2))) ∧
    (cut = false → n ≤ s.pcap → exec (.powerMeasure n cut) s = .next s) ∧
    (s.gangs.filter below = g :: gs → 100 * n < 95 * s.pcap → exec (.grantRaise n) s = .next (s.regrant (fun x => x.prio == high && below x) (fun x => min (2 * x.lanes) (s.grantLimit x.limit)))) ∧
    (95 * s.pcap ≤ 100 * n → exec (.grantRaise n) s = .next s) ∧
    (e.addr.toNat < 2 ^ 63 → (0x3000000000 < e.addr.toNat + e.n ∨ s.brdy.getLsbD 2 = false) → exec (.hostAccess e) s = .next (s.emit (.hostAnswer e.addr none))) ∧
    (e.addr.toNat + e.n ≤ 0x3000000000 → s.brdy.getLsbD 2 = true → s.unready e.addr.toNat = false → s.unready (e.addr.toNat + e.n - 1) = false → e.op = .load → s.quietAt e.addr.toNat e.n = true → s.bad e.addr.toNat e.n = false → s.badCopies = [] →
      exec (.hostAccess e) s = .next (s.emit (.hostAnswer e.addr (some (leNat (memRead e.n e.addr.toNat s.mem)))))) ∧
    (n < 0x1000 → e.addr.toNat = 2 ^ 63 + 8 * n → e.n = 8 → (e.op = .load → exec (.hostAccess e) s = .next (s.emit (.hostAnswer e.addr (some (s.hostRead (8 * n) % 2 ^ 64))))) ∧
      (e.op = .store → exec (.hostAccess e) s = .next ((s.hostWrite (8 * n) (BitVec.ofNat 64 e.data)).emit (.hostAnswer e.addr (some 0))))) ∧
    (s.ecc = [] → exec (.patrolScrub [] []) s = .next s) ∧
    (s.ecc = [] → n < 0x3000000000 → n % 32 = 0 → ∃ t : State, exec (.patrolScrub [n] []) s = .next t ∧ t = ({ s with ecc := [n] } : State).eccAgent (fwAgent 0 0) n) ∧
    (s.ecc = [] → s.badCopies = [] → n < 0x3000000000 → n % 8 = 0 → die < 256 → exec (.patrolScrub [2 ^ 60 + (n + 2 ^ 52 * die + 2 ^ 62)] []) s = .next { s with badCopies := [⟨1, die, n, none⟩] }) ∧
    (∀ x, s.links[l / 72]? = some x →
      let recent := x.errs.filter (fun y => decide (s.time ≤ y.2 + 10 ^ 6)) ++ [(l % 72, s.time)]
      let left := fun (ys : List (Nat × Nat)) => ({ s with linkErrs := s.linkErrs + 1, links := s.links.setIfInBounds (l / 72) { x with errs := ys } } : State)
      (recent.countP (fun y => y.1 / 2 == l % 72 / 2) < 16 → exec (.linkError l) s = .next (left recent)) ∧
      (16 ≤ recent.countP (fun y => y.1 / 2 == l % 72 / 2) → exec (.linkError l) s = .next ((left (recent.filter (fun y => !(y.1 / 2 == l % 72 / 2)))).queue (.laneFailure (l / 72))))) ∧
    (∀ x, s.links[l]? = some x →
      let y : Link := if s.brdy.getLsbD 6 || x.erased then (if x.down then x else { x with down := true, since := s.time }) else { x with erased := true }
      exec (.laneFailure l) s = .next { s with links := s.links.setIfInBounds l y }) ∧
    ((s.links.all (fun x => x.down && decide (x.since + 10 ^ 7 ≤ s.time))) = false → exec (.packageLost s.pkg.toNat) s = .next s) ∧
    (lost ≠ s.pkg.toNat → s.sent = [] → s.groups = [] → ∃ t : State, exec (.packageLost lost) s = .next t ∧ t.present = s.present.filter (fun p => p.toNat != lost) ∧ t.mem = s.mem ∧
      t.cores = s.cores.map (fun c => (c.1, { c.2 with tickets := c.2.tickets.map (fun y => if y.state = .wait ∧ y.pkg.toNat = lost then { y with state := .fail, ord := s.notices } else y) })))
end

