-- ==== Sys2Proof/Laws/State.lean ====
section
/-! SUPPORT. One lemma per field and update of the state and of a hart, true by definition, so that no proof unfolds a record update. -/

namespace Sys2Proof.Machine

open Sys2Proof

/-! ### `State.upd` -/

@[simp] theorem State.upd_eweok (s : State) (g : Hart → Hart) : (s.upd g).eweok = s.eweok := rfl
@[simp] theorem State.upd_hart (s : State) (g : Hart → Hart) : (s.upd g).hart = g s.hart := rfl
@[simp] theorem State.upd_harts (s : State) (g : Hart → Hart) : (s.upd g).harts = s.harts := rfl
@[simp] theorem State.upd_cores (s : State) (g : Hart → Hart) : (s.upd g).cores = s.cores := rfl
@[simp] theorem State.upd_clusters (s : State) (g : Hart → Hart) : (s.upd g).clusters = s.clusters := rfl
@[simp] theorem State.upd_mem (s : State) (g : Hart → Hart) : (s.upd g).mem = s.mem := rfl
@[simp] theorem State.upd_writes (s : State) (g : Hart → Hart) : (s.upd g).writes = s.writes := rfl
@[simp] theorem State.upd_past (s : State) (g : Hart → Hart) : (s.upd g).past = s.past := rfl
@[simp] theorem State.upd_ecc (s : State) (g : Hart → Hart) : (s.upd g).ecc = s.ecc := rfl
@[simp] theorem State.upd_badCopies (s : State) (g : Hart → Hart) : (s.upd g).badCopies = s.badCopies := rfl
@[simp] theorem State.upd_tlb (s : State) (g : Hart → Hart) : (s.upd g).tlb = s.tlb := rfl
@[simp] theorem State.upd_walkc (s : State) (g : Hart → Hart) : (s.upd g).walkc = s.walkc := rfl
@[simp] theorem State.upd_roots (s : State) (g : Hart → Hart) : (s.upd g).roots = s.roots := rfl
@[simp] theorem State.upd_spOwner (s : State) (g : Hart → Hart) : (s.upd g).spOwner = s.spOwner := rfl
@[simp] theorem State.upd_pkg (s : State) (g : Hart → Hart) : (s.upd g).pkg = s.pkg := rfl
@[simp] theorem State.upd_present (s : State) (g : Hart → Hart) : (s.upd g).present = s.present := rfl
@[simp] theorem State.upd_brdy (s : State) (g : Hart → Hart) : (s.upd g).brdy = s.brdy := rfl
@[simp] theorem State.upd_cycle (s : State) (g : Hart → Hart) : (s.upd g).cycle = s.cycle := rfl
@[simp] theorem State.upd_free (s : State) (g : Hart → Hart) : (s.upd g).free = s.free := rfl
@[simp] theorem State.upd_chunks (s : State) (g : Hart → Hart) : (s.upd g).chunks = s.chunks := rfl
@[simp] theorem State.upd_sent (s : State) (g : Hart → Hart) : (s.upd g).sent = s.sent := rfl
@[simp] theorem State.upd_seq (s : State) (g : Hart → Hart) : (s.upd g).seq = s.seq := rfl
@[simp] theorem State.upd_calls (s : State) (g : Hart → Hart) : (s.upd g).calls = s.calls := rfl
@[simp] theorem State.upd_mcRing (s : State) (g : Hart → Hart) : (s.upd g).mcRing = s.mcRing := rfl
@[simp] theorem State.upd_mcHead (s : State) (g : Hart → Hart) : (s.upd g).mcHead = s.mcHead := rfl
@[simp] theorem State.upd_corrected (s : State) (g : Hart → Hart) : (s.upd g).corrected = s.corrected := rfl
@[simp] theorem State.upd_msix (s : State) (g : Hart → Hart) : (s.upd g).msix = s.msix := rfl
@[simp] theorem State.upd_time (s : State) (g : Hart → Hart) : (s.upd g).time = s.time := rfl
@[simp] theorem State.upd_mchk (s : State) (g : Hart → Hart) : (s.upd g).mchk = s.mchk := rfl
@[simp] theorem State.upd_combines (s : State) (g : Hart → Hart) : (s.upd g).combines = s.combines := rfl
@[simp] theorem State.upd_groups (s : State) (g : Hart → Hart) : (s.upd g).groups = s.groups := rfl
@[simp] theorem State.upd_agenda (s : State) (g : Hart → Hart) : (s.upd g).agenda = s.agenda := rfl
@[simp] theorem State.upd_slots (s : State) (g : Hart → Hart) : (s.upd g).slots = s.slots := rfl
@[simp] theorem State.upd_churns (s : State) (g : Hart → Hart) : (s.upd g).churns = s.churns := rfl
@[simp] theorem State.upd_outbox (s : State) (g : Hart → Hart) : (s.upd g).outbox = s.outbox := rfl
@[simp] theorem State.upd_nextTk (s : State) (g : Hart → Hart) : (s.upd g).nextTk = s.nextTk := rfl
@[simp] theorem State.upd_owned (s : State) (g : Hart → Hart) : (s.upd g).owned = s.owned := rfl
@[simp] theorem State.upd_notices (s : State) (g : Hart → Hart) : (s.upd g).notices = s.notices := rfl
@[simp] theorem State.upd_shoots (s : State) (g : Hart → Hart) : (s.upd g).shoots = s.shoots := rfl
@[simp] theorem State.upd_promos (s : State) (g : Hart → Hart) : (s.upd g).promos = s.promos := rfl
@[simp] theorem State.upd_queues (s : State) (g : Hart → Hart) : (s.upd g).queues = s.queues := rfl
@[simp] theorem State.upd_jobs (s : State) (g : Hart → Hart) : (s.upd g).jobs = s.jobs := rfl
@[simp] theorem State.upd_gangs (s : State) (g : Hart → Hart) : (s.upd g).gangs = s.gangs := rfl
@[simp] theorem State.upd_parked (s : State) (g : Hart → Hart) : (s.upd g).parked = s.parked := rfl
@[simp] theorem State.upd_nextJob (s : State) (g : Hart → Hart) : (s.upd g).nextJob = s.nextJob := rfl
@[simp] theorem State.upd_lastQ (s : State) (g : Hart → Hart) : (s.upd g).lastQ = s.lastQ := rfl
@[simp] theorem State.upd_pgrant (s : State) (g : Hart → Hart) : (s.upd g).pgrant = s.pgrant := rfl
@[simp] theorem State.upd_pcap (s : State) (g : Hart → Hart) : (s.upd g).pcap = s.pcap := rfl
@[simp] theorem State.upd_rootTab (s : State) (g : Hart → Hart) : (s.upd g).rootTab = s.rootTab := rfl
@[simp] theorem State.upd_fwImg (s : State) (g : Hart → Hart) : (s.upd g).fwImg = s.fwImg := rfl
@[simp] theorem State.upd_killReg (s : State) (g : Hart → Hart) : (s.upd g).killReg = s.killReg := rfl
@[simp] theorem State.upd_fwCmd (s : State) (g : Hart → Hart) : (s.upd g).fwCmd = s.fwCmd := rfl
@[simp] theorem State.upd_fwStat (s : State) (g : Hart → Hart) : (s.upd g).fwStat = s.fwStat := rfl
@[simp] theorem State.upd_recovery (s : State) (g : Hart → Hart) : (s.upd g).recovery = s.recovery := rfl
@[simp] theorem State.upd_fwStore (s : State) (g : Hart → Hart) : (s.upd g).fwStore = s.fwStore := rfl
@[simp] theorem State.upd_m0 (s : State) (g : Hart → Hart) : (s.upd g).m0 = s.m0 := rfl
@[simp] theorem State.upd_leaf (s : State) (g : Hart → Hart) : (s.upd g).leaf = s.leaf := rfl
@[simp] theorem State.upd_resets (s : State) (g : Hart → Hart) : (s.upd g).resets = s.resets := rfl
@[simp] theorem State.upd_links (s : State) (g : Hart → Hart) : (s.upd g).links = s.links := rfl
@[simp] theorem State.upd_linkErrs (s : State) (g : Hart → Hart) : (s.upd g).linkErrs = s.linkErrs := rfl
@[simp] theorem State.upd_victims (s : State) (g : Hart → Hart) : (s.upd g).victims = s.victims := rfl
@[simp] theorem State.upd_dying (s : State) (g : Hart → Hart) : (s.upd g).dying = s.dying := rfl
@[simp] theorem State.upd_dev (s : State) (g : Hart → Hart) : (s.upd g).dev = s.dev := rfl
@[simp] theorem State.upd_tried (s : State) (g : Hart → Hart) : (s.upd g).tried = s.tried := rfl

/-! ### `State.took` -/

@[simp] theorem State.took_eweok (s : State) : (s.took).eweok = s.eweok := rfl
@[simp] theorem State.took_hart (s : State) : (s.took).hart = s.hart := rfl
@[simp] theorem State.took_harts (s : State) : (s.took).harts = s.harts := rfl
@[simp] theorem State.took_cores (s : State) : (s.took).cores = s.cores := rfl
@[simp] theorem State.took_clusters (s : State) : (s.took).clusters = s.clusters := rfl
@[simp] theorem State.took_mem (s : State) : (s.took).mem = s.mem := rfl
@[simp] theorem State.took_writes (s : State) : (s.took).writes = s.writes := rfl
@[simp] theorem State.took_past (s : State) : (s.took).past = s.past := rfl
@[simp] theorem State.took_ecc (s : State) : (s.took).ecc = s.ecc := rfl
@[simp] theorem State.took_badCopies (s : State) : (s.took).badCopies = s.badCopies := rfl
@[simp] theorem State.took_tlb (s : State) : (s.took).tlb = s.tlb := rfl
@[simp] theorem State.took_walkc (s : State) : (s.took).walkc = s.walkc := rfl
@[simp] theorem State.took_roots (s : State) : (s.took).roots = s.roots := rfl
@[simp] theorem State.took_spOwner (s : State) : (s.took).spOwner = s.spOwner := rfl
@[simp] theorem State.took_pkg (s : State) : (s.took).pkg = s.pkg := rfl
@[simp] theorem State.took_present (s : State) : (s.took).present = s.present := rfl
@[simp] theorem State.took_brdy (s : State) : (s.took).brdy = s.brdy := rfl
@[simp] theorem State.took_cycle (s : State) : (s.took).cycle = s.cycle := rfl
@[simp] theorem State.took_free (s : State) : (s.took).free = s.free + 1 := rfl
@[simp] theorem State.took_chunks (s : State) : (s.took).chunks = s.chunks := rfl
@[simp] theorem State.took_sent (s : State) : (s.took).sent = s.sent := rfl
@[simp] theorem State.took_seq (s : State) : (s.took).seq = s.seq := rfl
@[simp] theorem State.took_calls (s : State) : (s.took).calls = s.calls := rfl
@[simp] theorem State.took_mcRing (s : State) : (s.took).mcRing = s.mcRing := rfl
@[simp] theorem State.took_mcHead (s : State) : (s.took).mcHead = s.mcHead := rfl
@[simp] theorem State.took_corrected (s : State) : (s.took).corrected = s.corrected := rfl
@[simp] theorem State.took_msix (s : State) : (s.took).msix = s.msix := rfl
@[simp] theorem State.took_time (s : State) : (s.took).time = s.time := rfl
@[simp] theorem State.took_mchk (s : State) : (s.took).mchk = s.mchk := rfl
@[simp] theorem State.took_combines (s : State) : (s.took).combines = s.combines := rfl
@[simp] theorem State.took_groups (s : State) : (s.took).groups = s.groups := rfl
@[simp] theorem State.took_agenda (s : State) : (s.took).agenda = s.agenda := rfl
@[simp] theorem State.took_slots (s : State) : (s.took).slots = s.slots := rfl
@[simp] theorem State.took_churns (s : State) : (s.took).churns = s.churns := rfl
@[simp] theorem State.took_outbox (s : State) : (s.took).outbox = s.outbox := rfl
@[simp] theorem State.took_nextTk (s : State) : (s.took).nextTk = s.nextTk := rfl
@[simp] theorem State.took_owned (s : State) : (s.took).owned = s.owned := rfl
@[simp] theorem State.took_notices (s : State) : (s.took).notices = s.notices := rfl
@[simp] theorem State.took_shoots (s : State) : (s.took).shoots = s.shoots := rfl
@[simp] theorem State.took_promos (s : State) : (s.took).promos = s.promos := rfl
@[simp] theorem State.took_queues (s : State) : (s.took).queues = s.queues := rfl
@[simp] theorem State.took_jobs (s : State) : (s.took).jobs = s.jobs := rfl
@[simp] theorem State.took_gangs (s : State) : (s.took).gangs = s.gangs := rfl
@[simp] theorem State.took_parked (s : State) : (s.took).parked = s.parked := rfl
@[simp] theorem State.took_nextJob (s : State) : (s.took).nextJob = s.nextJob := rfl
@[simp] theorem State.took_lastQ (s : State) : (s.took).lastQ = s.lastQ := rfl
@[simp] theorem State.took_pgrant (s : State) : (s.took).pgrant = s.pgrant := rfl
@[simp] theorem State.took_pcap (s : State) : (s.took).pcap = s.pcap := rfl
@[simp] theorem State.took_rootTab (s : State) : (s.took).rootTab = s.rootTab := rfl
@[simp] theorem State.took_fwImg (s : State) : (s.took).fwImg = s.fwImg := rfl
@[simp] theorem State.took_killReg (s : State) : (s.took).killReg = s.killReg := rfl
@[simp] theorem State.took_fwCmd (s : State) : (s.took).fwCmd = s.fwCmd := rfl
@[simp] theorem State.took_fwStat (s : State) : (s.took).fwStat = s.fwStat := rfl
@[simp] theorem State.took_recovery (s : State) : (s.took).recovery = s.recovery := rfl
@[simp] theorem State.took_fwStore (s : State) : (s.took).fwStore = s.fwStore := rfl
@[simp] theorem State.took_m0 (s : State) : (s.took).m0 = s.m0 := rfl
@[simp] theorem State.took_leaf (s : State) : (s.took).leaf = s.leaf := rfl
@[simp] theorem State.took_resets (s : State) : (s.took).resets = s.resets := rfl
@[simp] theorem State.took_links (s : State) : (s.took).links = s.links := rfl
@[simp] theorem State.took_linkErrs (s : State) : (s.took).linkErrs = s.linkErrs := rfl
@[simp] theorem State.took_victims (s : State) : (s.took).victims = s.victims := rfl
@[simp] theorem State.took_dying (s : State) : (s.took).dying = s.dying := rfl
@[simp] theorem State.took_dev (s : State) : (s.took).dev = s.dev := rfl
@[simp] theorem State.took_tried (s : State) : (s.took).tried = s.tried := rfl

/-! ### `State.queue` -/

@[simp] theorem State.queue_eweok (s : State) (e : Ev) : (s.queue e).eweok = s.eweok := rfl
@[simp] theorem State.queue_hart (s : State) (e : Ev) : (s.queue e).hart = s.hart := rfl
@[simp] theorem State.queue_harts (s : State) (e : Ev) : (s.queue e).harts = s.harts := rfl
@[simp] theorem State.queue_cores (s : State) (e : Ev) : (s.queue e).cores = s.cores := rfl
@[simp] theorem State.queue_clusters (s : State) (e : Ev) : (s.queue e).clusters = s.clusters := rfl
@[simp] theorem State.queue_mem (s : State) (e : Ev) : (s.queue e).mem = s.mem := rfl
@[simp] theorem State.queue_writes (s : State) (e : Ev) : (s.queue e).writes = s.writes := rfl
@[simp] theorem State.queue_past (s : State) (e : Ev) : (s.queue e).past = s.past := rfl
@[simp] theorem State.queue_ecc (s : State) (e : Ev) : (s.queue e).ecc = s.ecc := rfl
@[simp] theorem State.queue_badCopies (s : State) (e : Ev) : (s.queue e).badCopies = s.badCopies := rfl
@[simp] theorem State.queue_tlb (s : State) (e : Ev) : (s.queue e).tlb = s.tlb := rfl
@[simp] theorem State.queue_walkc (s : State) (e : Ev) : (s.queue e).walkc = s.walkc := rfl
@[simp] theorem State.queue_roots (s : State) (e : Ev) : (s.queue e).roots = s.roots := rfl
@[simp] theorem State.queue_spOwner (s : State) (e : Ev) : (s.queue e).spOwner = s.spOwner := rfl
@[simp] theorem State.queue_pkg (s : State) (e : Ev) : (s.queue e).pkg = s.pkg := rfl
@[simp] theorem State.queue_present (s : State) (e : Ev) : (s.queue e).present = s.present := rfl
@[simp] theorem State.queue_brdy (s : State) (e : Ev) : (s.queue e).brdy = s.brdy := rfl
@[simp] theorem State.queue_cycle (s : State) (e : Ev) : (s.queue e).cycle = s.cycle := rfl
@[simp] theorem State.queue_free (s : State) (e : Ev) : (s.queue e).free = s.free := rfl
@[simp] theorem State.queue_chunks (s : State) (e : Ev) : (s.queue e).chunks = s.chunks := rfl
@[simp] theorem State.queue_sent (s : State) (e : Ev) : (s.queue e).sent = s.sent := rfl
@[simp] theorem State.queue_seq (s : State) (e : Ev) : (s.queue e).seq = s.seq := rfl
@[simp] theorem State.queue_calls (s : State) (e : Ev) : (s.queue e).calls = s.calls := rfl
@[simp] theorem State.queue_mcRing (s : State) (e : Ev) : (s.queue e).mcRing = s.mcRing := rfl
@[simp] theorem State.queue_mcHead (s : State) (e : Ev) : (s.queue e).mcHead = s.mcHead := rfl
@[simp] theorem State.queue_corrected (s : State) (e : Ev) : (s.queue e).corrected = s.corrected := rfl
@[simp] theorem State.queue_msix (s : State) (e : Ev) : (s.queue e).msix = s.msix := rfl
@[simp] theorem State.queue_time (s : State) (e : Ev) : (s.queue e).time = s.time := rfl
@[simp] theorem State.queue_mchk (s : State) (e : Ev) : (s.queue e).mchk = s.mchk := rfl
@[simp] theorem State.queue_combines (s : State) (e : Ev) : (s.queue e).combines = s.combines := rfl
@[simp] theorem State.queue_groups (s : State) (e : Ev) : (s.queue e).groups = s.groups := rfl
@[simp] theorem State.queue_agenda (s : State) (e : Ev) : (s.queue e).agenda = s.agenda ++ [e] := rfl
@[simp] theorem State.queue_slots (s : State) (e : Ev) : (s.queue e).slots = s.slots := rfl
@[simp] theorem State.queue_churns (s : State) (e : Ev) : (s.queue e).churns = s.churns := rfl
@[simp] theorem State.queue_outbox (s : State) (e : Ev) : (s.queue e).outbox = s.outbox := rfl
@[simp] theorem State.queue_nextTk (s : State) (e : Ev) : (s.queue e).nextTk = s.nextTk := rfl
@[simp] theorem State.queue_owned (s : State) (e : Ev) : (s.queue e).owned = s.owned := rfl
@[simp] theorem State.queue_notices (s : State) (e : Ev) : (s.queue e).notices = s.notices := rfl
@[simp] theorem State.queue_shoots (s : State) (e : Ev) : (s.queue e).shoots = s.shoots := rfl
@[simp] theorem State.queue_promos (s : State) (e : Ev) : (s.queue e).promos = s.promos := rfl
@[simp] theorem State.queue_queues (s : State) (e : Ev) : (s.queue e).queues = s.queues := rfl
@[simp] theorem State.queue_jobs (s : State) (e : Ev) : (s.queue e).jobs = s.jobs := rfl
@[simp] theorem State.queue_gangs (s : State) (e : Ev) : (s.queue e).gangs = s.gangs := rfl
@[simp] theorem State.queue_parked (s : State) (e : Ev) : (s.queue e).parked = s.parked := rfl
@[simp] theorem State.queue_nextJob (s : State) (e : Ev) : (s.queue e).nextJob = s.nextJob := rfl
@[simp] theorem State.queue_lastQ (s : State) (e : Ev) : (s.queue e).lastQ = s.lastQ := rfl
@[simp] theorem State.queue_pgrant (s : State) (e : Ev) : (s.queue e).pgrant = s.pgrant := rfl
@[simp] theorem State.queue_pcap (s : State) (e : Ev) : (s.queue e).pcap = s.pcap := rfl
@[simp] theorem State.queue_rootTab (s : State) (e : Ev) : (s.queue e).rootTab = s.rootTab := rfl
@[simp] theorem State.queue_fwImg (s : State) (e : Ev) : (s.queue e).fwImg = s.fwImg := rfl
@[simp] theorem State.queue_killReg (s : State) (e : Ev) : (s.queue e).killReg = s.killReg := rfl
@[simp] theorem State.queue_fwCmd (s : State) (e : Ev) : (s.queue e).fwCmd = s.fwCmd := rfl
@[simp] theorem State.queue_fwStat (s : State) (e : Ev) : (s.queue e).fwStat = s.fwStat := rfl
@[simp] theorem State.queue_recovery (s : State) (e : Ev) : (s.queue e).recovery = s.recovery := rfl
@[simp] theorem State.queue_fwStore (s : State) (e : Ev) : (s.queue e).fwStore = s.fwStore := rfl
@[simp] theorem State.queue_m0 (s : State) (e : Ev) : (s.queue e).m0 = s.m0 := rfl
@[simp] theorem State.queue_leaf (s : State) (e : Ev) : (s.queue e).leaf = s.leaf := rfl
@[simp] theorem State.queue_resets (s : State) (e : Ev) : (s.queue e).resets = s.resets := rfl
@[simp] theorem State.queue_links (s : State) (e : Ev) : (s.queue e).links = s.links := rfl
@[simp] theorem State.queue_linkErrs (s : State) (e : Ev) : (s.queue e).linkErrs = s.linkErrs := rfl
@[simp] theorem State.queue_victims (s : State) (e : Ev) : (s.queue e).victims = s.victims := rfl
@[simp] theorem State.queue_dying (s : State) (e : Ev) : (s.queue e).dying = s.dying := rfl
@[simp] theorem State.queue_dev (s : State) (e : Ev) : (s.queue e).dev = s.dev := rfl
@[simp] theorem State.queue_tried (s : State) (e : Ev) : (s.queue e).tried = s.tried := rfl

/-! ### `State.emit` -/

@[simp] theorem State.emit_eweok (s : State) (o : Out) : (s.emit o).eweok = s.eweok := rfl
@[simp] theorem State.emit_hart (s : State) (o : Out) : (s.emit o).hart = s.hart := rfl
@[simp] theorem State.emit_harts (s : State) (o : Out) : (s.emit o).harts = s.harts := rfl
@[simp] theorem State.emit_cores (s : State) (o : Out) : (s.emit o).cores = s.cores := rfl
@[simp] theorem State.emit_clusters (s : State) (o : Out) : (s.emit o).clusters = s.clusters := rfl
@[simp] theorem State.emit_mem (s : State) (o : Out) : (s.emit o).mem = s.mem := rfl
@[simp] theorem State.emit_writes (s : State) (o : Out) : (s.emit o).writes = s.writes := rfl
@[simp] theorem State.emit_past (s : State) (o : Out) : (s.emit o).past = s.past := rfl
@[simp] theorem State.emit_ecc (s : State) (o : Out) : (s.emit o).ecc = s.ecc := rfl
@[simp] theorem State.emit_badCopies (s : State) (o : Out) : (s.emit o).badCopies = s.badCopies := rfl
@[simp] theorem State.emit_tlb (s : State) (o : Out) : (s.emit o).tlb = s.tlb := rfl
@[simp] theorem State.emit_walkc (s : State) (o : Out) : (s.emit o).walkc = s.walkc := rfl
@[simp] theorem State.emit_roots (s : State) (o : Out) : (s.emit o).roots = s.roots := rfl
@[simp] theorem State.emit_spOwner (s : State) (o : Out) : (s.emit o).spOwner = s.spOwner := rfl
@[simp] theorem State.emit_pkg (s : State) (o : Out) : (s.emit o).pkg = s.pkg := rfl
@[simp] theorem State.emit_present (s : State) (o : Out) : (s.emit o).present = s.present := rfl
@[simp] theorem State.emit_brdy (s : State) (o : Out) : (s.emit o).brdy = s.brdy := rfl
@[simp] theorem State.emit_cycle (s : State) (o : Out) : (s.emit o).cycle = s.cycle := rfl
@[simp] theorem State.emit_free (s : State) (o : Out) : (s.emit o).free = s.free := rfl
@[simp] theorem State.emit_chunks (s : State) (o : Out) : (s.emit o).chunks = s.chunks := rfl
@[simp] theorem State.emit_sent (s : State) (o : Out) : (s.emit o).sent = s.sent := rfl
@[simp] theorem State.emit_seq (s : State) (o : Out) : (s.emit o).seq = s.seq := rfl
@[simp] theorem State.emit_calls (s : State) (o : Out) : (s.emit o).calls = s.calls := rfl
@[simp] theorem State.emit_mcRing (s : State) (o : Out) : (s.emit o).mcRing = s.mcRing := rfl
@[simp] theorem State.emit_mcHead (s : State) (o : Out) : (s.emit o).mcHead = s.mcHead := rfl
@[simp] theorem State.emit_corrected (s : State) (o : Out) : (s.emit o).corrected = s.corrected := rfl
@[simp] theorem State.emit_msix (s : State) (o : Out) : (s.emit o).msix = s.msix := rfl
@[simp] theorem State.emit_time (s : State) (o : Out) : (s.emit o).time = s.time := rfl
@[simp] theorem State.emit_mchk (s : State) (o : Out) : (s.emit o).mchk = s.mchk := rfl
@[simp] theorem State.emit_combines (s : State) (o : Out) : (s.emit o).combines = s.combines := rfl
@[simp] theorem State.emit_groups (s : State) (o : Out) : (s.emit o).groups = s.groups := rfl
@[simp] theorem State.emit_agenda (s : State) (o : Out) : (s.emit o).agenda = s.agenda := rfl
@[simp] theorem State.emit_slots (s : State) (o : Out) : (s.emit o).slots = s.slots := rfl
@[simp] theorem State.emit_churns (s : State) (o : Out) : (s.emit o).churns = s.churns := rfl
@[simp] theorem State.emit_outbox (s : State) (o : Out) : (s.emit o).outbox = s.outbox ++ [o] := rfl
@[simp] theorem State.emit_nextTk (s : State) (o : Out) : (s.emit o).nextTk = s.nextTk := rfl
@[simp] theorem State.emit_owned (s : State) (o : Out) : (s.emit o).owned = s.owned := rfl
@[simp] theorem State.emit_notices (s : State) (o : Out) : (s.emit o).notices = s.notices := rfl
@[simp] theorem State.emit_shoots (s : State) (o : Out) : (s.emit o).shoots = s.shoots := rfl
@[simp] theorem State.emit_promos (s : State) (o : Out) : (s.emit o).promos = s.promos := rfl
@[simp] theorem State.emit_queues (s : State) (o : Out) : (s.emit o).queues = s.queues := rfl
@[simp] theorem State.emit_jobs (s : State) (o : Out) : (s.emit o).jobs = s.jobs := rfl
@[simp] theorem State.emit_gangs (s : State) (o : Out) : (s.emit o).gangs = s.gangs := rfl
@[simp] theorem State.emit_parked (s : State) (o : Out) : (s.emit o).parked = s.parked := rfl
@[simp] theorem State.emit_nextJob (s : State) (o : Out) : (s.emit o).nextJob = s.nextJob := rfl
@[simp] theorem State.emit_lastQ (s : State) (o : Out) : (s.emit o).lastQ = s.lastQ := rfl
@[simp] theorem State.emit_pgrant (s : State) (o : Out) : (s.emit o).pgrant = s.pgrant := rfl
@[simp] theorem State.emit_pcap (s : State) (o : Out) : (s.emit o).pcap = s.pcap := rfl
@[simp] theorem State.emit_rootTab (s : State) (o : Out) : (s.emit o).rootTab = s.rootTab := rfl
@[simp] theorem State.emit_fwImg (s : State) (o : Out) : (s.emit o).fwImg = s.fwImg := rfl
@[simp] theorem State.emit_killReg (s : State) (o : Out) : (s.emit o).killReg = s.killReg := rfl
@[simp] theorem State.emit_fwCmd (s : State) (o : Out) : (s.emit o).fwCmd = s.fwCmd := rfl
@[simp] theorem State.emit_fwStat (s : State) (o : Out) : (s.emit o).fwStat = s.fwStat := rfl
@[simp] theorem State.emit_recovery (s : State) (o : Out) : (s.emit o).recovery = s.recovery := rfl
@[simp] theorem State.emit_fwStore (s : State) (o : Out) : (s.emit o).fwStore = s.fwStore := rfl
@[simp] theorem State.emit_m0 (s : State) (o : Out) : (s.emit o).m0 = s.m0 := rfl
@[simp] theorem State.emit_leaf (s : State) (o : Out) : (s.emit o).leaf = s.leaf := rfl
@[simp] theorem State.emit_resets (s : State) (o : Out) : (s.emit o).resets = s.resets := rfl
@[simp] theorem State.emit_links (s : State) (o : Out) : (s.emit o).links = s.links := rfl
@[simp] theorem State.emit_linkErrs (s : State) (o : Out) : (s.emit o).linkErrs = s.linkErrs := rfl
@[simp] theorem State.emit_victims (s : State) (o : Out) : (s.emit o).victims = s.victims := rfl
@[simp] theorem State.emit_dying (s : State) (o : Out) : (s.emit o).dying = s.dying := rfl
@[simp] theorem State.emit_dev (s : State) (o : Out) : (s.emit o).dev = s.dev := rfl
@[simp] theorem State.emit_tried (s : State) (o : Out) : (s.emit o).tried = s.tried := rfl

/-! ### `State.setCore` -/

@[simp] theorem State.setCore_eweok (s : State) (k : Nat) (c : Core) : (s.setCore k c).eweok = s.eweok := rfl
@[simp] theorem State.setCore_hart (s : State) (k : Nat) (c : Core) : (s.setCore k c).hart = s.hart := rfl
@[simp] theorem State.setCore_harts (s : State) (k : Nat) (c : Core) : (s.setCore k c).harts = s.harts := rfl
@[simp] theorem State.setCore_cores (s : State) (k : Nat) (c : Core) : (s.setCore k c).cores = tabPut s.cores k c := rfl
@[simp] theorem State.setCore_clusters (s : State) (k : Nat) (c : Core) : (s.setCore k c).clusters = s.clusters := rfl
@[simp] theorem State.setCore_mem (s : State) (k : Nat) (c : Core) : (s.setCore k c).mem = s.mem := rfl
@[simp] theorem State.setCore_writes (s : State) (k : Nat) (c : Core) : (s.setCore k c).writes = s.writes := rfl
@[simp] theorem State.setCore_past (s : State) (k : Nat) (c : Core) : (s.setCore k c).past = s.past := rfl
@[simp] theorem State.setCore_ecc (s : State) (k : Nat) (c : Core) : (s.setCore k c).ecc = s.ecc := rfl
@[simp] theorem State.setCore_badCopies (s : State) (k : Nat) (c : Core) : (s.setCore k c).badCopies = s.badCopies := rfl
@[simp] theorem State.setCore_tlb (s : State) (k : Nat) (c : Core) : (s.setCore k c).tlb = s.tlb := rfl
@[simp] theorem State.setCore_walkc (s : State) (k : Nat) (c : Core) : (s.setCore k c).walkc = s.walkc := rfl
@[simp] theorem State.setCore_roots (s : State) (k : Nat) (c : Core) : (s.setCore k c).roots = s.roots := rfl
@[simp] theorem State.setCore_spOwner (s : State) (k : Nat) (c : Core) : (s.setCore k c).spOwner = s.spOwner := rfl
@[simp] theorem State.setCore_pkg (s : State) (k : Nat) (c : Core) : (s.setCore k c).pkg = s.pkg := rfl
@[simp] theorem State.setCore_present (s : State) (k : Nat) (c : Core) : (s.setCore k c).present = s.present := rfl
@[simp] theorem State.setCore_brdy (s : State) (k : Nat) (c : Core) : (s.setCore k c).brdy = s.brdy := rfl
@[simp] theorem State.setCore_cycle (s : State) (k : Nat) (c : Core) : (s.setCore k c).cycle = s.cycle := rfl
@[simp] theorem State.setCore_free (s : State) (k : Nat) (c : Core) : (s.setCore k c).free = s.free := rfl
@[simp] theorem State.setCore_chunks (s : State) (k : Nat) (c : Core) : (s.setCore k c).chunks = s.chunks := rfl
@[simp] theorem State.setCore_sent (s : State) (k : Nat) (c : Core) : (s.setCore k c).sent = s.sent := rfl
@[simp] theorem State.setCore_seq (s : State) (k : Nat) (c : Core) : (s.setCore k c).seq = s.seq := rfl
@[simp] theorem State.setCore_calls (s : State) (k : Nat) (c : Core) : (s.setCore k c).calls = s.calls := rfl
@[simp] theorem State.setCore_mcRing (s : State) (k : Nat) (c : Core) : (s.setCore k c).mcRing = s.mcRing := rfl
@[simp] theorem State.setCore_mcHead (s : State) (k : Nat) (c : Core) : (s.setCore k c).mcHead = s.mcHead := rfl
@[simp] theorem State.setCore_corrected (s : State) (k : Nat) (c : Core) : (s.setCore k c).corrected = s.corrected := rfl
@[simp] theorem State.setCore_msix (s : State) (k : Nat) (c : Core) : (s.setCore k c).msix = s.msix := rfl
@[simp] theorem State.setCore_time (s : State) (k : Nat) (c : Core) : (s.setCore k c).time = s.time := rfl
@[simp] theorem State.setCore_mchk (s : State) (k : Nat) (c : Core) : (s.setCore k c).mchk = s.mchk := rfl
@[simp] theorem State.setCore_combines (s : State) (k : Nat) (c : Core) : (s.setCore k c).combines = s.combines := rfl
@[simp] theorem State.setCore_groups (s : State) (k : Nat) (c : Core) : (s.setCore k c).groups = s.groups := rfl
@[simp] theorem State.setCore_agenda (s : State) (k : Nat) (c : Core) : (s.setCore k c).agenda = s.agenda := rfl
@[simp] theorem State.setCore_slots (s : State) (k : Nat) (c : Core) : (s.setCore k c).slots = s.slots := rfl
@[simp] theorem State.setCore_churns (s : State) (k : Nat) (c : Core) : (s.setCore k c).churns = s.churns := rfl
@[simp] theorem State.setCore_outbox (s : State) (k : Nat) (c : Core) : (s.setCore k c).outbox = s.outbox := rfl
@[simp] theorem State.setCore_nextTk (s : State) (k : Nat) (c : Core) : (s.setCore k c).nextTk = s.nextTk := rfl
@[simp] theorem State.setCore_owned (s : State) (k : Nat) (c : Core) : (s.setCore k c).owned = s.owned := rfl
@[simp] theorem State.setCore_notices (s : State) (k : Nat) (c : Core) : (s.setCore k c).notices = s.notices := rfl
@[simp] theorem State.setCore_shoots (s : State) (k : Nat) (c : Core) : (s.setCore k c).shoots = s.shoots := rfl
@[simp] theorem State.setCore_promos (s : State) (k : Nat) (c : Core) : (s.setCore k c).promos = s.promos := rfl
@[simp] theorem State.setCore_queues (s : State) (k : Nat) (c : Core) : (s.setCore k c).queues = s.queues := rfl
@[simp] theorem State.setCore_jobs (s : State) (k : Nat) (c : Core) : (s.setCore k c).jobs = s.jobs := rfl
@[simp] theorem State.setCore_gangs (s : State) (k : Nat) (c : Core) : (s.setCore k c).gangs = s.gangs := rfl
@[simp] theorem State.setCore_parked (s : State) (k : Nat) (c : Core) : (s.setCore k c).parked = s.parked := rfl
@[simp] theorem State.setCore_nextJob (s : State) (k : Nat) (c : Core) : (s.setCore k c).nextJob = s.nextJob := rfl
@[simp] theorem State.setCore_lastQ (s : State) (k : Nat) (c : Core) : (s.setCore k c).lastQ = s.lastQ := rfl
@[simp] theorem State.setCore_pgrant (s : State) (k : Nat) (c : Core) : (s.setCore k c).pgrant = s.pgrant := rfl
@[simp] theorem State.setCore_pcap (s : State) (k : Nat) (c : Core) : (s.setCore k c).pcap = s.pcap := rfl
@[simp] theorem State.setCore_rootTab (s : State) (k : Nat) (c : Core) : (s.setCore k c).rootTab = s.rootTab := rfl
@[simp] theorem State.setCore_fwImg (s : State) (k : Nat) (c : Core) : (s.setCore k c).fwImg = s.fwImg := rfl
@[simp] theorem State.setCore_killReg (s : State) (k : Nat) (c : Core) : (s.setCore k c).killReg = s.killReg := rfl
@[simp] theorem State.setCore_fwCmd (s : State) (k : Nat) (c : Core) : (s.setCore k c).fwCmd = s.fwCmd := rfl
@[simp] theorem State.setCore_fwStat (s : State) (k : Nat) (c : Core) : (s.setCore k c).fwStat = s.fwStat := rfl
@[simp] theorem State.setCore_recovery (s : State) (k : Nat) (c : Core) : (s.setCore k c).recovery = s.recovery := rfl
@[simp] theorem State.setCore_fwStore (s : State) (k : Nat) (c : Core) : (s.setCore k c).fwStore = s.fwStore := rfl
@[simp] theorem State.setCore_m0 (s : State) (k : Nat) (c : Core) : (s.setCore k c).m0 = s.m0 := rfl
@[simp] theorem State.setCore_leaf (s : State) (k : Nat) (c : Core) : (s.setCore k c).leaf = s.leaf := rfl
@[simp] theorem State.setCore_resets (s : State) (k : Nat) (c : Core) : (s.setCore k c).resets = s.resets := rfl
@[simp] theorem State.setCore_links (s : State) (k : Nat) (c : Core) : (s.setCore k c).links = s.links := rfl
@[simp] theorem State.setCore_linkErrs (s : State) (k : Nat) (c : Core) : (s.setCore k c).linkErrs = s.linkErrs := rfl
@[simp] theorem State.setCore_victims (s : State) (k : Nat) (c : Core) : (s.setCore k c).victims = s.victims := rfl
@[simp] theorem State.setCore_dying (s : State) (k : Nat) (c : Core) : (s.setCore k c).dying = s.dying := rfl
@[simp] theorem State.setCore_dev (s : State) (k : Nat) (c : Core) : (s.setCore k c).dev = s.dev := rfl
@[simp] theorem State.setCore_tried (s : State) (k : Nat) (c : Core) : (s.setCore k c).tried = s.tried := rfl

/-! ### `State.setCluster` -/

@[simp] theorem State.setCluster_eweok (s : State) (k : Nat) (c : Cluster) : (s.setCluster k c).eweok = s.eweok := rfl
@[simp] theorem State.setCluster_hart (s : State) (k : Nat) (c : Cluster) : (s.setCluster k c).hart = s.hart := rfl
@[simp] theorem State.setCluster_harts (s : State) (k : Nat) (c : Cluster) : (s.setCluster k c).harts = s.harts := rfl
@[simp] theorem State.setCluster_cores (s : State) (k : Nat) (c : Cluster) : (s.setCluster k c).cores = s.cores := rfl
@[simp] theorem State.setCluster_clusters (s : State) (k : Nat) (c : Cluster) : (s.setCluster k c).clusters = tabPut s.clusters k c := rfl
@[simp] theorem State.setCluster_mem (s : State) (k : Nat) (c : Cluster) : (s.setCluster k c).mem = s.mem := rfl
@[simp] theorem State.setCluster_writes (s : State) (k : Nat) (c : Cluster) : (s.setCluster k c).writes = s.writes := rfl
@[simp] theorem State.setCluster_past (s : State) (k : Nat) (c : Cluster) : (s.setCluster k c).past = s.past := rfl
@[simp] theorem State.setCluster_ecc (s : State) (k : Nat) (c : Cluster) : (s.setCluster k c).ecc = s.ecc := rfl
@[simp] theorem State.setCluster_badCopies (s : State) (k : Nat) (c : Cluster) : (s.setCluster k c).badCopies = s.badCopies := rfl
@[simp] theorem State.setCluster_tlb (s : State) (k : Nat) (c : Cluster) : (s.setCluster k c).tlb = s.tlb := rfl
@[simp] theorem State.setCluster_walkc (s : State) (k : Nat) (c : Cluster) : (s.setCluster k c).walkc = s.walkc := rfl
@[simp] theorem State.setCluster_roots (s : State) (k : Nat) (c : Cluster) : (s.setCluster k c).roots = s.roots := rfl
@[simp] theorem State.setCluster_spOwner (s : State) (k : Nat) (c : Cluster) : (s.setCluster k c).spOwner = s.spOwner := rfl
@[simp] theorem State.setCluster_pkg (s : State) (k : Nat) (c : Cluster) : (s.setCluster k c).pkg = s.pkg := rfl
@[simp] theorem State.setCluster_present (s : State) (k : Nat) (c : Cluster) : (s.setCluster k c).present = s.present := rfl
@[simp] theorem State.setCluster_brdy (s : State) (k : Nat) (c : Cluster) : (s.setCluster k c).brdy = s.brdy := rfl
@[simp] theorem State.setCluster_cycle (s : State) (k : Nat) (c : Cluster) : (s.setCluster k c).cycle = s.cycle := rfl
@[simp] theorem State.setCluster_free (s : State) (k : Nat) (c : Cluster) : (s.setCluster k c).free = s.free := rfl
@[simp] theorem State.setCluster_chunks (s : State) (k : Nat) (c : Cluster) : (s.setCluster k c).chunks = s.chunks := rfl
@[simp] theorem State.setCluster_sent (s : State) (k : Nat) (c : Cluster) : (s.setCluster k c).sent = s.sent := rfl
@[simp] theorem State.setCluster_seq (s : State) (k : Nat) (c : Cluster) : (s.setCluster k c).seq = s.seq := rfl
@[simp] theorem State.setCluster_calls (s : State) (k : Nat) (c : Cluster) : (s.setCluster k c).calls = s.calls := rfl
@[simp] theorem State.setCluster_mcRing (s : State) (k : Nat) (c : Cluster) : (s.setCluster k c).mcRing = s.mcRing := rfl
@[simp] theorem State.setCluster_mcHead (s : State) (k : Nat) (c : Cluster) : (s.setCluster k c).mcHead = s.mcHead := rfl
@[simp] theorem State.setCluster_corrected (s : State) (k : Nat) (c : Cluster) : (s.setCluster k c).corrected = s.corrected := rfl
@[simp] theorem State.setCluster_msix (s : State) (k : Nat) (c : Cluster) : (s.setCluster k c).msix = s.msix := rfl
@[simp] theorem State.setCluster_time (s : State) (k : Nat) (c : Cluster) : (s.setCluster k c).time = s.time := rfl
@[simp] theorem State.setCluster_mchk (s : State) (k : Nat) (c : Cluster) : (s.setCluster k c).mchk = s.mchk := rfl
@[simp] theorem State.setCluster_combines (s : State) (k : Nat) (c : Cluster) : (s.setCluster k c).combines = s.combines := rfl
@[simp] theorem State.setCluster_groups (s : State) (k : Nat) (c : Cluster) : (s.setCluster k c).groups = s.groups := rfl
@[simp] theorem State.setCluster_agenda (s : State) (k : Nat) (c : Cluster) : (s.setCluster k c).agenda = s.agenda := rfl
@[simp] theorem State.setCluster_slots (s : State) (k : Nat) (c : Cluster) : (s.setCluster k c).slots = s.slots := rfl
@[simp] theorem State.setCluster_churns (s : State) (k : Nat) (c : Cluster) : (s.setCluster k c).churns = s.churns := rfl
@[simp] theorem State.setCluster_outbox (s : State) (k : Nat) (c : Cluster) : (s.setCluster k c).outbox = s.outbox := rfl
@[simp] theorem State.setCluster_nextTk (s : State) (k : Nat) (c : Cluster) : (s.setCluster k c).nextTk = s.nextTk := rfl
@[simp] theorem State.setCluster_owned (s : State) (k : Nat) (c : Cluster) : (s.setCluster k c).owned = s.owned := rfl
@[simp] theorem State.setCluster_notices (s : State) (k : Nat) (c : Cluster) : (s.setCluster k c).notices = s.notices := rfl
@[simp] theorem State.setCluster_shoots (s : State) (k : Nat) (c : Cluster) : (s.setCluster k c).shoots = s.shoots := rfl
@[simp] theorem State.setCluster_promos (s : State) (k : Nat) (c : Cluster) : (s.setCluster k c).promos = s.promos := rfl
@[simp] theorem State.setCluster_queues (s : State) (k : Nat) (c : Cluster) : (s.setCluster k c).queues = s.queues := rfl
@[simp] theorem State.setCluster_jobs (s : State) (k : Nat) (c : Cluster) : (s.setCluster k c).jobs = s.jobs := rfl
@[simp] theorem State.setCluster_gangs (s : State) (k : Nat) (c : Cluster) : (s.setCluster k c).gangs = s.gangs := rfl
@[simp] theorem State.setCluster_parked (s : State) (k : Nat) (c : Cluster) : (s.setCluster k c).parked = s.parked := rfl
@[simp] theorem State.setCluster_nextJob (s : State) (k : Nat) (c : Cluster) : (s.setCluster k c).nextJob = s.nextJob := rfl
@[simp] theorem State.setCluster_lastQ (s : State) (k : Nat) (c : Cluster) : (s.setCluster k c).lastQ = s.lastQ := rfl
@[simp] theorem State.setCluster_pgrant (s : State) (k : Nat) (c : Cluster) : (s.setCluster k c).pgrant = s.pgrant := rfl
@[simp] theorem State.setCluster_pcap (s : State) (k : Nat) (c : Cluster) : (s.setCluster k c).pcap = s.pcap := rfl
@[simp] theorem State.setCluster_rootTab (s : State) (k : Nat) (c : Cluster) : (s.setCluster k c).rootTab = s.rootTab := rfl
@[simp] theorem State.setCluster_fwImg (s : State) (k : Nat) (c : Cluster) : (s.setCluster k c).fwImg = s.fwImg := rfl
@[simp] theorem State.setCluster_killReg (s : State) (k : Nat) (c : Cluster) : (s.setCluster k c).killReg = s.killReg := rfl
@[simp] theorem State.setCluster_fwCmd (s : State) (k : Nat) (c : Cluster) : (s.setCluster k c).fwCmd = s.fwCmd := rfl
@[simp] theorem State.setCluster_fwStat (s : State) (k : Nat) (c : Cluster) : (s.setCluster k c).fwStat = s.fwStat := rfl
@[simp] theorem State.setCluster_recovery (s : State) (k : Nat) (c : Cluster) : (s.setCluster k c).recovery = s.recovery := rfl
@[simp] theorem State.setCluster_fwStore (s : State) (k : Nat) (c : Cluster) : (s.setCluster k c).fwStore = s.fwStore := rfl
@[simp] theorem State.setCluster_m0 (s : State) (k : Nat) (c : Cluster) : (s.setCluster k c).m0 = s.m0 := rfl
@[simp] theorem State.setCluster_leaf (s : State) (k : Nat) (c : Cluster) : (s.setCluster k c).leaf = s.leaf := rfl
@[simp] theorem State.setCluster_resets (s : State) (k : Nat) (c : Cluster) : (s.setCluster k c).resets = s.resets := rfl
@[simp] theorem State.setCluster_links (s : State) (k : Nat) (c : Cluster) : (s.setCluster k c).links = s.links := rfl
@[simp] theorem State.setCluster_linkErrs (s : State) (k : Nat) (c : Cluster) : (s.setCluster k c).linkErrs = s.linkErrs := rfl
@[simp] theorem State.setCluster_victims (s : State) (k : Nat) (c : Cluster) : (s.setCluster k c).victims = s.victims := rfl
@[simp] theorem State.setCluster_dying (s : State) (k : Nat) (c : Cluster) : (s.setCluster k c).dying = s.dying := rfl
@[simp] theorem State.setCluster_dev (s : State) (k : Nat) (c : Cluster) : (s.setCluster k c).dev = s.dev := rfl
@[simp] theorem State.setCluster_tried (s : State) (k : Nat) (c : Cluster) : (s.setCluster k c).tried = s.tried := rfl

/-! ### `State.checked` -/

@[simp] theorem State.checked_eweok (s : State) (b : Bool) (rs : List Reg5) : (s.checked b rs).eweok = s.eweok := rfl
@[simp] theorem State.checked_hart (s : State) (b : Bool) (rs : List Reg5) : (s.checked b rs).hart = { s.hart with convoy := s.hart.convoyPast b rs } := rfl
@[simp] theorem State.checked_harts (s : State) (b : Bool) (rs : List Reg5) : (s.checked b rs).harts = s.harts := rfl
@[simp] theorem State.checked_cores (s : State) (b : Bool) (rs : List Reg5) : (s.checked b rs).cores = s.cores := rfl
@[simp] theorem State.checked_clusters (s : State) (b : Bool) (rs : List Reg5) : (s.checked b rs).clusters = s.clusters := rfl
@[simp] theorem State.checked_mem (s : State) (b : Bool) (rs : List Reg5) : (s.checked b rs).mem = s.mem := rfl
@[simp] theorem State.checked_writes (s : State) (b : Bool) (rs : List Reg5) : (s.checked b rs).writes = s.writes := rfl
@[simp] theorem State.checked_past (s : State) (b : Bool) (rs : List Reg5) : (s.checked b rs).past = s.past := rfl
@[simp] theorem State.checked_ecc (s : State) (b : Bool) (rs : List Reg5) : (s.checked b rs).ecc = s.ecc := rfl
@[simp] theorem State.checked_badCopies (s : State) (b : Bool) (rs : List Reg5) : (s.checked b rs).badCopies = s.badCopies := rfl
@[simp] theorem State.checked_tlb (s : State) (b : Bool) (rs : List Reg5) : (s.checked b rs).tlb = s.tlb := rfl
@[simp] theorem State.checked_walkc (s : State) (b : Bool) (rs : List Reg5) : (s.checked b rs).walkc = s.walkc := rfl
@[simp] theorem State.checked_roots (s : State) (b : Bool) (rs : List Reg5) : (s.checked b rs).roots = s.roots := rfl
@[simp] theorem State.checked_spOwner (s : State) (b : Bool) (rs : List Reg5) : (s.checked b rs).spOwner = s.spOwner := rfl
@[simp] theorem State.checked_pkg (s : State) (b : Bool) (rs : List Reg5) : (s.checked b rs).pkg = s.pkg := rfl
@[simp] theorem State.checked_present (s : State) (b : Bool) (rs : List Reg5) : (s.checked b rs).present = s.present := rfl
@[simp] theorem State.checked_brdy (s : State) (b : Bool) (rs : List Reg5) : (s.checked b rs).brdy = s.brdy := rfl
@[simp] theorem State.checked_cycle (s : State) (b : Bool) (rs : List Reg5) : (s.checked b rs).cycle = s.cycle := rfl
@[simp] theorem State.checked_free (s : State) (b : Bool) (rs : List Reg5) : (s.checked b rs).free = s.free := rfl
@[simp] theorem State.checked_chunks (s : State) (b : Bool) (rs : List Reg5) : (s.checked b rs).chunks = s.chunks := rfl
@[simp] theorem State.checked_sent (s : State) (b : Bool) (rs : List Reg5) : (s.checked b rs).sent = s.sent := rfl
@[simp] theorem State.checked_seq (s : State) (b : Bool) (rs : List Reg5) : (s.checked b rs).seq = s.seq := rfl
@[simp] theorem State.checked_calls (s : State) (b : Bool) (rs : List Reg5) : (s.checked b rs).calls = s.calls := rfl
@[simp] theorem State.checked_mcRing (s : State) (b : Bool) (rs : List Reg5) : (s.checked b rs).mcRing = s.mcRing := rfl
@[simp] theorem State.checked_mcHead (s : State) (b : Bool) (rs : List Reg5) : (s.checked b rs).mcHead = s.mcHead := rfl
@[simp] theorem State.checked_corrected (s : State) (b : Bool) (rs : List Reg5) : (s.checked b rs).corrected = s.corrected := rfl
@[simp] theorem State.checked_msix (s : State) (b : Bool) (rs : List Reg5) : (s.checked b rs).msix = s.msix := rfl
@[simp] theorem State.checked_time (s : State) (b : Bool) (rs : List Reg5) : (s.checked b rs).time = s.time := rfl
@[simp] theorem State.checked_mchk (s : State) (b : Bool) (rs : List Reg5) : (s.checked b rs).mchk = s.mchk := rfl
@[simp] theorem State.checked_combines (s : State) (b : Bool) (rs : List Reg5) : (s.checked b rs).combines = s.combines := rfl
@[simp] theorem State.checked_groups (s : State) (b : Bool) (rs : List Reg5) : (s.checked b rs).groups = s.groups := rfl
@[simp] theorem State.checked_agenda (s : State) (b : Bool) (rs : List Reg5) : (s.checked b rs).agenda = s.agenda := rfl
@[simp] theorem State.checked_slots (s : State) (b : Bool) (rs : List Reg5) : (s.checked b rs).slots = s.slots := rfl
@[simp] theorem State.checked_churns (s : State) (b : Bool) (rs : List Reg5) : (s.checked b rs).churns = s.churns := rfl
@[simp] theorem State.checked_outbox (s : State) (b : Bool) (rs : List Reg5) : (s.checked b rs).outbox = s.outbox := rfl
@[simp] theorem State.checked_nextTk (s : State) (b : Bool) (rs : List Reg5) : (s.checked b rs).nextTk = s.nextTk := rfl
@[simp] theorem State.checked_owned (s : State) (b : Bool) (rs : List Reg5) : (s.checked b rs).owned = s.owned := rfl
@[simp] theorem State.checked_notices (s : State) (b : Bool) (rs : List Reg5) : (s.checked b rs).notices = s.notices := rfl
@[simp] theorem State.checked_shoots (s : State) (b : Bool) (rs : List Reg5) : (s.checked b rs).shoots = s.shoots := rfl
@[simp] theorem State.checked_promos (s : State) (b : Bool) (rs : List Reg5) : (s.checked b rs).promos = s.promos := rfl
@[simp] theorem State.checked_queues (s : State) (b : Bool) (rs : List Reg5) : (s.checked b rs).queues = s.queues := rfl
@[simp] theorem State.checked_jobs (s : State) (b : Bool) (rs : List Reg5) : (s.checked b rs).jobs = s.jobs := rfl
@[simp] theorem State.checked_gangs (s : State) (b : Bool) (rs : List Reg5) : (s.checked b rs).gangs = s.gangs := rfl
@[simp] theorem State.checked_parked (s : State) (b : Bool) (rs : List Reg5) : (s.checked b rs).parked = s.parked := rfl
@[simp] theorem State.checked_nextJob (s : State) (b : Bool) (rs : List Reg5) : (s.checked b rs).nextJob = s.nextJob := rfl
@[simp] theorem State.checked_lastQ (s : State) (b : Bool) (rs : List Reg5) : (s.checked b rs).lastQ = s.lastQ := rfl
@[simp] theorem State.checked_pgrant (s : State) (b : Bool) (rs : List Reg5) : (s.checked b rs).pgrant = s.pgrant := rfl
@[simp] theorem State.checked_pcap (s : State) (b : Bool) (rs : List Reg5) : (s.checked b rs).pcap = s.pcap := rfl
@[simp] theorem State.checked_rootTab (s : State) (b : Bool) (rs : List Reg5) : (s.checked b rs).rootTab = s.rootTab := rfl
@[simp] theorem State.checked_fwImg (s : State) (b : Bool) (rs : List Reg5) : (s.checked b rs).fwImg = s.fwImg := rfl
@[simp] theorem State.checked_killReg (s : State) (b : Bool) (rs : List Reg5) : (s.checked b rs).killReg = s.killReg := rfl
@[simp] theorem State.checked_fwCmd (s : State) (b : Bool) (rs : List Reg5) : (s.checked b rs).fwCmd = s.fwCmd := rfl
@[simp] theorem State.checked_fwStat (s : State) (b : Bool) (rs : List Reg5) : (s.checked b rs).fwStat = s.fwStat := rfl
@[simp] theorem State.checked_recovery (s : State) (b : Bool) (rs : List Reg5) : (s.checked b rs).recovery = s.recovery := rfl
@[simp] theorem State.checked_fwStore (s : State) (b : Bool) (rs : List Reg5) : (s.checked b rs).fwStore = s.fwStore := rfl
@[simp] theorem State.checked_m0 (s : State) (b : Bool) (rs : List Reg5) : (s.checked b rs).m0 = s.m0 := rfl
@[simp] theorem State.checked_leaf (s : State) (b : Bool) (rs : List Reg5) : (s.checked b rs).leaf = s.leaf := rfl
@[simp] theorem State.checked_resets (s : State) (b : Bool) (rs : List Reg5) : (s.checked b rs).resets = s.resets := rfl
@[simp] theorem State.checked_links (s : State) (b : Bool) (rs : List Reg5) : (s.checked b rs).links = s.links := rfl
@[simp] theorem State.checked_linkErrs (s : State) (b : Bool) (rs : List Reg5) : (s.checked b rs).linkErrs = s.linkErrs := rfl
@[simp] theorem State.checked_victims (s : State) (b : Bool) (rs : List Reg5) : (s.checked b rs).victims = s.victims := rfl
@[simp] theorem State.checked_dying (s : State) (b : Bool) (rs : List Reg5) : (s.checked b rs).dying = s.dying := rfl
@[simp] theorem State.checked_dev (s : State) (b : Bool) (rs : List Reg5) : (s.checked b rs).dev = s.dev := rfl
@[simp] theorem State.checked_tried (s : State) (b : Bool) (rs : List Reg5) : (s.checked b rs).tried = s.tried := rfl

/-! ### `State.stalled` -/

@[simp] theorem State.stalled_eweok (s : State) (w : Stall) : (s.stalled w).eweok = s.eweok := rfl
@[simp] theorem State.stalled_hart (s : State) (w : Stall) : (s.stalled w).hart = { s.hart with stall := w } := rfl
@[simp] theorem State.stalled_harts (s : State) (w : Stall) : (s.stalled w).harts = s.harts := rfl
@[simp] theorem State.stalled_cores (s : State) (w : Stall) : (s.stalled w).cores = s.cores := rfl
@[simp] theorem State.stalled_clusters (s : State) (w : Stall) : (s.stalled w).clusters = s.clusters := rfl
@[simp] theorem State.stalled_mem (s : State) (w : Stall) : (s.stalled w).mem = s.mem := rfl
@[simp] theorem State.stalled_writes (s : State) (w : Stall) : (s.stalled w).writes = s.writes := rfl
@[simp] theorem State.stalled_past (s : State) (w : Stall) : (s.stalled w).past = s.past := rfl
@[simp] theorem State.stalled_ecc (s : State) (w : Stall) : (s.stalled w).ecc = s.ecc := rfl
@[simp] theorem State.stalled_badCopies (s : State) (w : Stall) : (s.stalled w).badCopies = s.badCopies := rfl
@[simp] theorem State.stalled_tlb (s : State) (w : Stall) : (s.stalled w).tlb = s.tlb := rfl
@[simp] theorem State.stalled_walkc (s : State) (w : Stall) : (s.stalled w).walkc = s.walkc := rfl
@[simp] theorem State.stalled_roots (s : State) (w : Stall) : (s.stalled w).roots = s.roots := rfl
@[simp] theorem State.stalled_spOwner (s : State) (w : Stall) : (s.stalled w).spOwner = s.spOwner := rfl
@[simp] theorem State.stalled_pkg (s : State) (w : Stall) : (s.stalled w).pkg = s.pkg := rfl
@[simp] theorem State.stalled_present (s : State) (w : Stall) : (s.stalled w).present = s.present := rfl
@[simp] theorem State.stalled_brdy (s : State) (w : Stall) : (s.stalled w).brdy = s.brdy := rfl
@[simp] theorem State.stalled_cycle (s : State) (w : Stall) : (s.stalled w).cycle = s.cycle := rfl
@[simp] theorem State.stalled_free (s : State) (w : Stall) : (s.stalled w).free = s.free := rfl
@[simp] theorem State.stalled_chunks (s : State) (w : Stall) : (s.stalled w).chunks = s.chunks := rfl
@[simp] theorem State.stalled_sent (s : State) (w : Stall) : (s.stalled w).sent = s.sent := rfl
@[simp] theorem State.stalled_seq (s : State) (w : Stall) : (s.stalled w).seq = s.seq := rfl
@[simp] theorem State.stalled_calls (s : State) (w : Stall) : (s.stalled w).calls = s.calls := rfl
@[simp] theorem State.stalled_mcRing (s : State) (w : Stall) : (s.stalled w).mcRing = s.mcRing := rfl
@[simp] theorem State.stalled_mcHead (s : State) (w : Stall) : (s.stalled w).mcHead = s.mcHead := rfl
@[simp] theorem State.stalled_corrected (s : State) (w : Stall) : (s.stalled w).corrected = s.corrected := rfl
@[simp] theorem State.stalled_msix (s : State) (w : Stall) : (s.stalled w).msix = s.msix := rfl
@[simp] theorem State.stalled_time (s : State) (w : Stall) : (s.stalled w).time = s.time := rfl
@[simp] theorem State.stalled_mchk (s : State) (w : Stall) : (s.stalled w).mchk = s.mchk := rfl
@[simp] theorem State.stalled_combines (s : State) (w : Stall) : (s.stalled w).combines = s.combines := rfl
@[simp] theorem State.stalled_groups (s : State) (w : Stall) : (s.stalled w).groups = s.groups := rfl
@[simp] theorem State.stalled_agenda (s : State) (w : Stall) : (s.stalled w).agenda = s.agenda := rfl
@[simp] theorem State.stalled_slots (s : State) (w : Stall) : (s.stalled w).slots = s.slots := rfl
@[simp] theorem State.stalled_churns (s : State) (w : Stall) : (s.stalled w).churns = s.churns := rfl
@[simp] theorem State.stalled_outbox (s : State) (w : Stall) : (s.stalled w).outbox = s.outbox := rfl
@[simp] theorem State.stalled_nextTk (s : State) (w : Stall) : (s.stalled w).nextTk = s.nextTk := rfl
@[simp] theorem State.stalled_owned (s : State) (w : Stall) : (s.stalled w).owned = s.owned := rfl
@[simp] theorem State.stalled_notices (s : State) (w : Stall) : (s.stalled w).notices = s.notices := rfl
@[simp] theorem State.stalled_shoots (s : State) (w : Stall) : (s.stalled w).shoots = s.shoots := rfl
@[simp] theorem State.stalled_promos (s : State) (w : Stall) : (s.stalled w).promos = s.promos := rfl
@[simp] theorem State.stalled_queues (s : State) (w : Stall) : (s.stalled w).queues = s.queues := rfl
@[simp] theorem State.stalled_jobs (s : State) (w : Stall) : (s.stalled w).jobs = s.jobs := rfl
@[simp] theorem State.stalled_gangs (s : State) (w : Stall) : (s.stalled w).gangs = s.gangs := rfl
@[simp] theorem State.stalled_parked (s : State) (w : Stall) : (s.stalled w).parked = s.parked := rfl
@[simp] theorem State.stalled_nextJob (s : State) (w : Stall) : (s.stalled w).nextJob = s.nextJob := rfl
@[simp] theorem State.stalled_lastQ (s : State) (w : Stall) : (s.stalled w).lastQ = s.lastQ := rfl
@[simp] theorem State.stalled_pgrant (s : State) (w : Stall) : (s.stalled w).pgrant = s.pgrant := rfl
@[simp] theorem State.stalled_pcap (s : State) (w : Stall) : (s.stalled w).pcap = s.pcap := rfl
@[simp] theorem State.stalled_rootTab (s : State) (w : Stall) : (s.stalled w).rootTab = s.rootTab := rfl
@[simp] theorem State.stalled_fwImg (s : State) (w : Stall) : (s.stalled w).fwImg = s.fwImg := rfl
@[simp] theorem State.stalled_killReg (s : State) (w : Stall) : (s.stalled w).killReg = s.killReg := rfl
@[simp] theorem State.stalled_fwCmd (s : State) (w : Stall) : (s.stalled w).fwCmd = s.fwCmd := rfl
@[simp] theorem State.stalled_fwStat (s : State) (w : Stall) : (s.stalled w).fwStat = s.fwStat := rfl
@[simp] theorem State.stalled_recovery (s : State) (w : Stall) : (s.stalled w).recovery = s.recovery := rfl
@[simp] theorem State.stalled_fwStore (s : State) (w : Stall) : (s.stalled w).fwStore = s.fwStore := rfl
@[simp] theorem State.stalled_m0 (s : State) (w : Stall) : (s.stalled w).m0 = s.m0 := rfl
@[simp] theorem State.stalled_leaf (s : State) (w : Stall) : (s.stalled w).leaf = s.leaf := rfl
@[simp] theorem State.stalled_resets (s : State) (w : Stall) : (s.stalled w).resets = s.resets := rfl
@[simp] theorem State.stalled_links (s : State) (w : Stall) : (s.stalled w).links = s.links := rfl
@[simp] theorem State.stalled_linkErrs (s : State) (w : Stall) : (s.stalled w).linkErrs = s.linkErrs := rfl
@[simp] theorem State.stalled_victims (s : State) (w : Stall) : (s.stalled w).victims = s.victims := rfl
@[simp] theorem State.stalled_dying (s : State) (w : Stall) : (s.stalled w).dying = s.dying := rfl
@[simp] theorem State.stalled_dev (s : State) (w : Stall) : (s.stalled w).dev = s.dev := rfl
@[simp] theorem State.stalled_tried (s : State) (w : Stall) : (s.stalled w).tried = s.tried := rfl

/-! ### `State.trap` -/

@[simp] theorem State.trap_eweok (s : State) (t : Trap) : (s.trap t).eweok = s.eweok := rfl
@[simp] theorem State.trap_hart (s : State) (t : Trap) : (s.trap t).hart = s.hart.trap t := rfl
@[simp] theorem State.trap_harts (s : State) (t : Trap) : (s.trap t).harts = s.harts := rfl
@[simp] theorem State.trap_cores (s : State) (t : Trap) : (s.trap t).cores = s.cores := rfl
@[simp] theorem State.trap_clusters (s : State) (t : Trap) : (s.trap t).clusters = s.clusters := rfl
@[simp] theorem State.trap_mem (s : State) (t : Trap) : (s.trap t).mem = s.mem := rfl
@[simp] theorem State.trap_writes (s : State) (t : Trap) : (s.trap t).writes = s.writes := rfl
@[simp] theorem State.trap_past (s : State) (t : Trap) : (s.trap t).past = s.past := rfl
@[simp] theorem State.trap_ecc (s : State) (t : Trap) : (s.trap t).ecc = s.ecc := rfl
@[simp] theorem State.trap_badCopies (s : State) (t : Trap) : (s.trap t).badCopies = s.badCopies := rfl
@[simp] theorem State.trap_tlb (s : State) (t : Trap) : (s.trap t).tlb = s.tlb := rfl
@[simp] theorem State.trap_walkc (s : State) (t : Trap) : (s.trap t).walkc = s.walkc := rfl
@[simp] theorem State.trap_roots (s : State) (t : Trap) : (s.trap t).roots = s.roots := rfl
@[simp] theorem State.trap_spOwner (s : State) (t : Trap) : (s.trap t).spOwner = s.spOwner := rfl
@[simp] theorem State.trap_pkg (s : State) (t : Trap) : (s.trap t).pkg = s.pkg := rfl
@[simp] theorem State.trap_present (s : State) (t : Trap) : (s.trap t).present = s.present := rfl
@[simp] theorem State.trap_brdy (s : State) (t : Trap) : (s.trap t).brdy = s.brdy := rfl
@[simp] theorem State.trap_cycle (s : State) (t : Trap) : (s.trap t).cycle = s.cycle := rfl
@[simp] theorem State.trap_free (s : State) (t : Trap) : (s.trap t).free = s.free := rfl
@[simp] theorem State.trap_chunks (s : State) (t : Trap) : (s.trap t).chunks = s.chunks := rfl
@[simp] theorem State.trap_sent (s : State) (t : Trap) : (s.trap t).sent = s.sent := rfl
@[simp] theorem State.trap_seq (s : State) (t : Trap) : (s.trap t).seq = s.seq := rfl
@[simp] theorem State.trap_calls (s : State) (t : Trap) : (s.trap t).calls = s.calls := rfl
@[simp] theorem State.trap_mcRing (s : State) (t : Trap) : (s.trap t).mcRing = s.mcRing := rfl
@[simp] theorem State.trap_mcHead (s : State) (t : Trap) : (s.trap t).mcHead = s.mcHead := rfl
@[simp] theorem State.trap_corrected (s : State) (t : Trap) : (s.trap t).corrected = s.corrected := rfl
@[simp] theorem State.trap_msix (s : State) (t : Trap) : (s.trap t).msix = s.msix := rfl
@[simp] theorem State.trap_time (s : State) (t : Trap) : (s.trap t).time = s.time := rfl
@[simp] theorem State.trap_mchk (s : State) (t : Trap) : (s.trap t).mchk = s.mchk := rfl
@[simp] theorem State.trap_combines (s : State) (t : Trap) : (s.trap t).combines = s.combines := rfl
@[simp] theorem State.trap_groups (s : State) (t : Trap) : (s.trap t).groups = s.groups := rfl
@[simp] theorem State.trap_agenda (s : State) (t : Trap) : (s.trap t).agenda = s.agenda := rfl
@[simp] theorem State.trap_slots (s : State) (t : Trap) : (s.trap t).slots = s.slots := rfl
@[simp] theorem State.trap_churns (s : State) (t : Trap) : (s.trap t).churns = s.churns := rfl
@[simp] theorem State.trap_outbox (s : State) (t : Trap) : (s.trap t).outbox = s.outbox := rfl
@[simp] theorem State.trap_nextTk (s : State) (t : Trap) : (s.trap t).nextTk = s.nextTk := rfl
@[simp] theorem State.trap_owned (s : State) (t : Trap) : (s.trap t).owned = s.owned := rfl
@[simp] theorem State.trap_notices (s : State) (t : Trap) : (s.trap t).notices = s.notices := rfl
@[simp] theorem State.trap_shoots (s : State) (t : Trap) : (s.trap t).shoots = s.shoots := rfl
@[simp] theorem State.trap_promos (s : State) (t : Trap) : (s.trap t).promos = s.promos := rfl
@[simp] theorem State.trap_queues (s : State) (t : Trap) : (s.trap t).queues = s.queues := rfl
@[simp] theorem State.trap_jobs (s : State) (t : Trap) : (s.trap t).jobs = s.jobs := rfl
@[simp] theorem State.trap_gangs (s : State) (t : Trap) : (s.trap t).gangs = s.gangs := rfl
@[simp] theorem State.trap_parked (s : State) (t : Trap) : (s.trap t).parked = s.parked := rfl
@[simp] theorem State.trap_nextJob (s : State) (t : Trap) : (s.trap t).nextJob = s.nextJob := rfl
@[simp] theorem State.trap_lastQ (s : State) (t : Trap) : (s.trap t).lastQ = s.lastQ := rfl
@[simp] theorem State.trap_pgrant (s : State) (t : Trap) : (s.trap t).pgrant = s.pgrant := rfl
@[simp] theorem State.trap_pcap (s : State) (t : Trap) : (s.trap t).pcap = s.pcap := rfl
@[simp] theorem State.trap_rootTab (s : State) (t : Trap) : (s.trap t).rootTab = s.rootTab := rfl
@[simp] theorem State.trap_fwImg (s : State) (t : Trap) : (s.trap t).fwImg = s.fwImg := rfl
@[simp] theorem State.trap_killReg (s : State) (t : Trap) : (s.trap t).killReg = s.killReg := rfl
@[simp] theorem State.trap_fwCmd (s : State) (t : Trap) : (s.trap t).fwCmd = s.fwCmd := rfl
@[simp] theorem State.trap_fwStat (s : State) (t : Trap) : (s.trap t).fwStat = s.fwStat := rfl
@[simp] theorem State.trap_recovery (s : State) (t : Trap) : (s.trap t).recovery = s.recovery := rfl
@[simp] theorem State.trap_fwStore (s : State) (t : Trap) : (s.trap t).fwStore = s.fwStore := rfl
@[simp] theorem State.trap_m0 (s : State) (t : Trap) : (s.trap t).m0 = s.m0 := rfl
@[simp] theorem State.trap_leaf (s : State) (t : Trap) : (s.trap t).leaf = s.leaf := rfl
@[simp] theorem State.trap_resets (s : State) (t : Trap) : (s.trap t).resets = s.resets := rfl
@[simp] theorem State.trap_links (s : State) (t : Trap) : (s.trap t).links = s.links := rfl
@[simp] theorem State.trap_linkErrs (s : State) (t : Trap) : (s.trap t).linkErrs = s.linkErrs := rfl
@[simp] theorem State.trap_victims (s : State) (t : Trap) : (s.trap t).victims = s.victims := rfl
@[simp] theorem State.trap_dying (s : State) (t : Trap) : (s.trap t).dying = s.dying := rfl
@[simp] theorem State.trap_dev (s : State) (t : Trap) : (s.trap t).dev = s.dev := rfl
@[simp] theorem State.trap_tried (s : State) (t : Trap) : (s.trap t).tried = s.tried := rfl

/-! ### `Hart.trap` -/

@[simp] theorem Hart.trap_id (h : Hart) (t : Trap) : (h.trap t).id = h.id := rfl
@[simp] theorem Hart.trap_run (h : Hart) (t : Trap) : (h.trap t).run = h.run := rfl
@[simp] theorem Hart.trap_pc (h : Hart) (t : Trap) : (h.trap t).pc = h.tvec := rfl
@[simp] theorem Hart.trap_s (h : Hart) (t : Trap) : (h.trap t).s = h.s := rfl
@[simp] theorem Hart.trap_v (h : Hart) (t : Trap) : (h.trap t).v = h.v := rfl
@[simp] theorem Hart.trap_m (h : Hart) (t : Trap) : (h.trap t).m = h.m := rfl
@[simp] theorem Hart.trap_vl (h : Hart) (t : Trap) : (h.trap t).vl = h.vl := rfl
@[simp] theorem Hart.trap_vtype (h : Hart) (t : Trap) : (h.trap t).vtype = h.vtype := rfl
@[simp] theorem Hart.trap_vstart (h : Hart) (t : Trap) : (h.trap t).vstart = h.vstart := rfl
@[simp] theorem Hart.trap_lanes (h : Hart) (t : Trap) : (h.trap t).lanes = h.lanes := rfl
@[simp] theorem Hart.trap_pend (h : Hart) (t : Trap) : (h.trap t).pend = h.pend := rfl
@[simp] theorem Hart.trap_slip (h : Hart) (t : Trap) : (h.trap t).slip = h.slip := rfl
@[simp] theorem Hart.trap_fcsr (h : Hart) (t : Trap) : (h.trap t).fcsr = h.fcsr := rfl
@[simp] theorem Hart.trap_status (h : Hart) (t : Trap) : (h.trap t).status = trapStatus h.status := rfl
@[simp] theorem Hart.trap_tmap (h : Hart) (t : Trap) : (h.trap t).tmap = h.tmap := rfl
@[simp] theorem Hart.trap_skey (h : Hart) (t : Trap) : (h.trap t).skey = h.skey := rfl
@[simp] theorem Hart.trap_sstep (h : Hart) (t : Trap) : (h.trap t).sstep = h.sstep := rfl
@[simp] theorem Hart.trap_cause (h : Hart) (t : Trap) : (h.trap t).cause = t.cause := rfl
@[simp] theorem Hart.trap_epc (h : Hart) (t : Trap) : (h.trap t).epc = h.pc := rfl
@[simp] theorem Hart.trap_tval (h : Hart) (t : Trap) : (h.trap t).tval = t.tval := rfl
@[simp] theorem Hart.trap_tvec (h : Hart) (t : Trap) : (h.trap t).tvec = h.tvec := rfl
@[simp] theorem Hart.trap_ctxid (h : Hart) (t : Trap) : (h.trap t).ctxid = h.ctxid := rfl
@[simp] theorem Hart.trap_vownV (h : Hart) (t : Trap) : (h.trap t).vownV = h.vownV := rfl
@[simp] theorem Hart.trap_vownCtx (h : Hart) (t : Trap) : (h.trap t).vownCtx = h.vownCtx := rfl
@[simp] theorem Hart.trap_fltBase (h : Hart) (t : Trap) : (h.trap t).fltBase = h.fltBase := rfl
@[simp] theorem Hart.trap_fltHead (h : Hart) (t : Trap) : (h.trap t).fltHead = h.fltHead := rfl
@[simp] theorem Hart.trap_fltn (h : Hart) (t : Trap) : (h.trap t).fltn = h.fltn := rfl
@[simp] theorem Hart.trap_tkOvf (h : Hart) (t : Trap) : (h.trap t).tkOvf = h.tkOvf := rfl
@[simp] theorem Hart.trap_jobid (h : Hart) (t : Trap) : (h.trap t).jobid = h.jobid := rfl
@[simp] theorem Hart.trap_gang (h : Hart) (t : Trap) : (h.trap t).gang = h.gang := rfl
@[simp] theorem Hart.trap_peers (h : Hart) (t : Trap) : (h.trap t).peers = h.peers := rfl
@[simp] theorem Hart.trap_groups (h : Hart) (t : Trap) : (h.trap t).groups = h.groups := rfl
@[simp] theorem Hart.trap_streams (h : Hart) (t : Trap) : (h.trap t).streams = h.streams := rfl
@[simp] theorem Hart.trap_irqs (h : Hart) (t : Trap) : (h.trap t).irqs = h.irqs := rfl
@[simp] theorem Hart.trap_preempt (h : Hart) (t : Trap) : (h.trap t).preempt = h.preempt := rfl
@[simp] theorem Hart.trap_yielded (h : Hart) (t : Trap) : (h.trap t).yielded = h.yielded := rfl
@[simp] theorem Hart.trap_seen (h : Hart) (t : Trap) : (h.trap t).seen = h.seen := rfl
@[simp] theorem Hart.trap_stop (h : Hart) (t : Trap) : (h.trap t).stop = h.stop := rfl
@[simp] theorem Hart.trap_convoy (h : Hart) (t : Trap) : (h.trap t).convoy = none := rfl
@[simp] theorem Hart.trap_reissue (h : Hart) (t : Trap) : (h.trap t).reissue = false := rfl
@[simp] theorem Hart.trap_sbuf (h : Hart) (t : Trap) : (h.trap t).sbuf = h.sbuf := rfl
@[simp] theorem Hart.trap_vbuf (h : Hart) (t : Trap) : (h.trap t).vbuf = h.vbuf := rfl
@[simp] theorem Hart.trap_strip (h : Hart) (t : Trap) : (h.trap t).strip = h.strip := rfl
@[simp] theorem Hart.trap_wseq (h : Hart) (t : Trap) : (h.trap t).wseq = h.wseq := rfl
@[simp] theorem Hart.trap_wait (h : Hart) (t : Trap) : (h.trap t).wait = .none := rfl
@[simp] theorem Hart.trap_resume (h : Hart) (t : Trap) : (h.trap t).resume = .none := rfl
@[simp] theorem Hart.trap_stopAt (h : Hart) (t : Trap) : (h.trap t).stopAt = none := rfl
@[simp] theorem Hart.trap_answers (h : Hart) (t : Trap) : (h.trap t).answers = [] := rfl
@[simp] theorem Hart.trap_asked (h : Hart) (t : Trap) : (h.trap t).asked = [] := rfl
@[simp] theorem Hart.trap_told (h : Hart) (t : Trap) : (h.trap t).told = [] := rfl
@[simp] theorem Hart.trap_cur (h : Hart) (t : Trap) : (h.trap t).cur = [] := rfl
@[simp] theorem Hart.trap_places (h : Hart) (t : Trap) : (h.trap t).places = [] := rfl
@[simp] theorem Hart.trap_refuse (h : Hart) (t : Trap) : (h.trap t).refuse = none := rfl
@[simp] theorem Hart.trap_opened (h : Hart) (t : Trap) : (h.trap t).opened = false := rfl
@[simp] theorem Hart.trap_credit (h : Hart) (t : Trap) : (h.trap t).credit = none := rfl
@[simp] theorem Hart.trap_lock (h : Hart) (t : Trap) : (h.trap t).lock = h.lock := rfl
@[simp] theorem Hart.trap_vq (h : Hart) (t : Trap) : (h.trap t).vq = h.vq := rfl
@[simp] theorem Hart.trap_late (h : Hart) (t : Trap) : (h.trap t).late = h.late := rfl
@[simp] theorem Hart.trap_busy (h : Hart) (t : Trap) : (h.trap t).busy = h.busy := rfl
@[simp] theorem Hart.trap_stall (h : Hart) (t : Trap) : (h.trap t).stall = .none := rfl
@[simp] theorem Hart.trap_constAt (h : Hart) (t : Trap) : (h.trap t).constAt = h.constAt := rfl
@[simp] theorem Hart.trap_bar (h : Hart) (t : Trap) : (h.trap t).bar = h.bar := rfl
@[simp] theorem Hart.trap_coll (h : Hart) (t : Trap) : (h.trap t).coll = none := rfl
@[simp] theorem Hart.trap_bad (h : Hart) (t : Trap) : (h.trap t).bad = h.bad := rfl
@[simp] theorem Hart.trap_inUse (h : Hart) (t : Trap) : (h.trap t).inUse = none := rfl
@[simp] theorem Hart.trap_claim (h : Hart) (t : Trap) : (h.trap t).claim = none := rfl

/-! ### `Hart.tret` -/

@[simp] theorem Hart.tret_id (h : Hart) : (h.tret).id = h.id := rfl
@[simp] theorem Hart.tret_run (h : Hart) : (h.tret).run = h.run := rfl
@[simp] theorem Hart.tret_pc (h : Hart) : (h.tret).pc = h.epc := rfl
@[simp] theorem Hart.tret_s (h : Hart) : (h.tret).s = h.s := rfl
@[simp] theorem Hart.tret_v (h : Hart) : (h.tret).v = h.v := rfl
@[simp] theorem Hart.tret_m (h : Hart) : (h.tret).m = h.m := rfl
@[simp] theorem Hart.tret_vl (h : Hart) : (h.tret).vl = h.vl := rfl
@[simp] theorem Hart.tret_vtype (h : Hart) : (h.tret).vtype = h.vtype := rfl
@[simp] theorem Hart.tret_vstart (h : Hart) : (h.tret).vstart = h.vstart := rfl
@[simp] theorem Hart.tret_lanes (h : Hart) : (h.tret).lanes = h.lanes := rfl
@[simp] theorem Hart.tret_pend (h : Hart) : (h.tret).pend = h.pend := rfl
@[simp] theorem Hart.tret_slip (h : Hart) : (h.tret).slip = h.slip := rfl
@[simp] theorem Hart.tret_fcsr (h : Hart) : (h.tret).fcsr = h.fcsr := rfl
@[simp] theorem Hart.tret_status (h : Hart) : (h.tret).status = tretStatus (if h.reissue then h.status &&& 0x2FF else h.status) := rfl
@[simp] theorem Hart.tret_tmap (h : Hart) : (h.tret).tmap = h.tmap := rfl
@[simp] theorem Hart.tret_skey (h : Hart) : (h.tret).skey = h.skey := rfl
@[simp] theorem Hart.tret_sstep (h : Hart) : (h.tret).sstep = h.sstep := rfl
@[simp] theorem Hart.tret_cause (h : Hart) : (h.tret).cause = h.cause := rfl
@[simp] theorem Hart.tret_epc (h : Hart) : (h.tret).epc = h.epc := rfl
@[simp] theorem Hart.tret_tval (h : Hart) : (h.tret).tval = h.tval := rfl
@[simp] theorem Hart.tret_tvec (h : Hart) : (h.tret).tvec = h.tvec := rfl
@[simp] theorem Hart.tret_ctxid (h : Hart) : (h.tret).ctxid = h.ctxid := rfl
@[simp] theorem Hart.tret_vownV (h : Hart) : (h.tret).vownV = h.vownV := rfl
@[simp] theorem Hart.tret_vownCtx (h : Hart) : (h.tret).vownCtx = h.vownCtx := rfl
@[simp] theorem Hart.tret_fltBase (h : Hart) : (h.tret).fltBase = h.fltBase := rfl
@[simp] theorem Hart.tret_fltHead (h : Hart) : (h.tret).fltHead = h.fltHead := rfl
@[simp] theorem Hart.tret_fltn (h : Hart) : (h.tret).fltn = h.fltn := rfl
@[simp] theorem Hart.tret_tkOvf (h : Hart) : (h.tret).tkOvf = h.tkOvf := rfl
@[simp] theorem Hart.tret_jobid (h : Hart) : (h.tret).jobid = h.jobid := rfl
@[simp] theorem Hart.tret_gang (h : Hart) : (h.tret).gang = h.gang := rfl
@[simp] theorem Hart.tret_peers (h : Hart) : (h.tret).peers = h.peers := rfl
@[simp] theorem Hart.tret_groups (h : Hart) : (h.tret).groups = h.groups := rfl
@[simp] theorem Hart.tret_streams (h : Hart) : (h.tret).streams = h.streams := rfl
@[simp] theorem Hart.tret_irqs (h : Hart) : (h.tret).irqs = h.irqs := rfl
@[simp] theorem Hart.tret_preempt (h : Hart) : (h.tret).preempt = h.preempt := rfl
@[simp] theorem Hart.tret_yielded (h : Hart) : (h.tret).yielded = h.yielded := rfl
@[simp] theorem Hart.tret_seen (h : Hart) : (h.tret).seen = h.seen := rfl
@[simp] theorem Hart.tret_stop (h : Hart) : (h.tret).stop = h.stop := rfl
@[simp] theorem Hart.tret_convoy (h : Hart) : (h.tret).convoy = none := rfl
@[simp] theorem Hart.tret_reissue (h : Hart) : (h.tret).reissue = (h.status.getLsbD 8 && !h.reissue) := rfl
@[simp] theorem Hart.tret_sbuf (h : Hart) : (h.tret).sbuf = h.sbuf := rfl
@[simp] theorem Hart.tret_vbuf (h : Hart) : (h.tret).vbuf = h.vbuf := rfl
@[simp] theorem Hart.tret_strip (h : Hart) : (h.tret).strip = h.strip := rfl
@[simp] theorem Hart.tret_wseq (h : Hart) : (h.tret).wseq = h.wseq := rfl
@[simp] theorem Hart.tret_wait (h : Hart) : (h.tret).wait = .none := rfl
@[simp] theorem Hart.tret_resume (h : Hart) : (h.tret).resume = .none := rfl
@[simp] theorem Hart.tret_stopAt (h : Hart) : (h.tret).stopAt = none := rfl
@[simp] theorem Hart.tret_answers (h : Hart) : (h.tret).answers = [] := rfl
@[simp] theorem Hart.tret_asked (h : Hart) : (h.tret).asked = [] := rfl
@[simp] theorem Hart.tret_told (h : Hart) : (h.tret).told = [] := rfl
@[simp] theorem Hart.tret_cur (h : Hart) : (h.tret).cur = [] := rfl
@[simp] theorem Hart.tret_places (h : Hart) : (h.tret).places = [] := rfl
@[simp] theorem Hart.tret_refuse (h : Hart) : (h.tret).refuse = none := rfl
@[simp] theorem Hart.tret_opened (h : Hart) : (h.tret).opened = false := rfl
@[simp] theorem Hart.tret_credit (h : Hart) : (h.tret).credit = none := rfl
@[simp] theorem Hart.tret_lock (h : Hart) : (h.tret).lock = h.lock := rfl
@[simp] theorem Hart.tret_vq (h : Hart) : (h.tret).vq = h.vq := rfl
@[simp] theorem Hart.tret_late (h : Hart) : (h.tret).late = h.late := rfl
@[simp] theorem Hart.tret_busy (h : Hart) : (h.tret).busy = h.busy := rfl
@[simp] theorem Hart.tret_stall (h : Hart) : (h.tret).stall = h.stall := rfl
@[simp] theorem Hart.tret_constAt (h : Hart) : (h.tret).constAt = h.constAt := rfl
@[simp] theorem Hart.tret_bar (h : Hart) : (h.tret).bar = h.bar := rfl
@[simp] theorem Hart.tret_coll (h : Hart) : (h.tret).coll = none := rfl
@[simp] theorem Hart.tret_bad (h : Hart) : (h.tret).bad = h.bad := rfl
@[simp] theorem Hart.tret_inUse (h : Hart) : (h.tret).inUse = none := rfl
@[simp] theorem Hart.tret_claim (h : Hart) : (h.tret).claim = none := rfl

/-! ### `Hart.raise` -/

@[simp] theorem Hart.raise_id (h : Hart) (e : Exc) : (h.raise e).id = h.id := rfl
@[simp] theorem Hart.raise_run (h : Hart) (e : Exc) : (h.raise e).run = h.run := rfl
@[simp] theorem Hart.raise_pc (h : Hart) (e : Exc) : (h.raise e).pc = h.pc := rfl
@[simp] theorem Hart.raise_s (h : Hart) (e : Exc) : (h.raise e).s = h.s := rfl
@[simp] theorem Hart.raise_v (h : Hart) (e : Exc) : (h.raise e).v = h.v := rfl
@[simp] theorem Hart.raise_m (h : Hart) (e : Exc) : (h.raise e).m = h.m := rfl
@[simp] theorem Hart.raise_vl (h : Hart) (e : Exc) : (h.raise e).vl = h.vl := rfl
@[simp] theorem Hart.raise_vtype (h : Hart) (e : Exc) : (h.raise e).vtype = h.vtype := rfl
@[simp] theorem Hart.raise_vstart (h : Hart) (e : Exc) : (h.raise e).vstart = h.vstart := rfl
@[simp] theorem Hart.raise_lanes (h : Hart) (e : Exc) : (h.raise e).lanes = h.lanes := rfl
@[simp] theorem Hart.raise_pend (h : Hart) (e : Exc) : (h.raise e).pend = h.pend := rfl
@[simp] theorem Hart.raise_slip (h : Hart) (e : Exc) : (h.raise e).slip = h.slip := rfl
@[simp] theorem Hart.raise_fcsr (h : Hart) (e : Exc) : (h.raise e).fcsr = h.fcsr ||| e.fcsr := rfl
@[simp] theorem Hart.raise_status (h : Hart) (e : Exc) : (h.raise e).status = h.status := rfl
@[simp] theorem Hart.raise_tmap (h : Hart) (e : Exc) : (h.raise e).tmap = h.tmap := rfl
@[simp] theorem Hart.raise_skey (h : Hart) (e : Exc) : (h.raise e).skey = h.skey := rfl
@[simp] theorem Hart.raise_sstep (h : Hart) (e : Exc) : (h.raise e).sstep = h.sstep := rfl
@[simp] theorem Hart.raise_cause (h : Hart) (e : Exc) : (h.raise e).cause = h.cause := rfl
@[simp] theorem Hart.raise_epc (h : Hart) (e : Exc) : (h.raise e).epc = h.epc := rfl
@[simp] theorem Hart.raise_tval (h : Hart) (e : Exc) : (h.raise e).tval = h.tval := rfl
@[simp] theorem Hart.raise_tvec (h : Hart) (e : Exc) : (h.raise e).tvec = h.tvec := rfl
@[simp] theorem Hart.raise_ctxid (h : Hart) (e : Exc) : (h.raise e).ctxid = h.ctxid := rfl
@[simp] theorem Hart.raise_vownV (h : Hart) (e : Exc) : (h.raise e).vownV = h.vownV := rfl
@[simp] theorem Hart.raise_vownCtx (h : Hart) (e : Exc) : (h.raise e).vownCtx = h.vownCtx := rfl
@[simp] theorem Hart.raise_fltBase (h : Hart) (e : Exc) : (h.raise e).fltBase = h.fltBase := rfl
@[simp] theorem Hart.raise_fltHead (h : Hart) (e : Exc) : (h.raise e).fltHead = h.fltHead := rfl
@[simp] theorem Hart.raise_fltn (h : Hart) (e : Exc) : (h.raise e).fltn = h.fltn := rfl
@[simp] theorem Hart.raise_tkOvf (h : Hart) (e : Exc) : (h.raise e).tkOvf = h.tkOvf := rfl
@[simp] theorem Hart.raise_jobid (h : Hart) (e : Exc) : (h.raise e).jobid = h.jobid := rfl
@[simp] theorem Hart.raise_gang (h : Hart) (e : Exc) : (h.raise e).gang = h.gang := rfl
@[simp] theorem Hart.raise_peers (h : Hart) (e : Exc) : (h.raise e).peers = h.peers := rfl
@[simp] theorem Hart.raise_groups (h : Hart) (e : Exc) : (h.raise e).groups = h.groups := rfl
@[simp] theorem Hart.raise_streams (h : Hart) (e : Exc) : (h.raise e).streams = h.streams := rfl
@[simp] theorem Hart.raise_irqs (h : Hart) (e : Exc) : (h.raise e).irqs = h.irqs := rfl
@[simp] theorem Hart.raise_preempt (h : Hart) (e : Exc) : (h.raise e).preempt = h.preempt := rfl
@[simp] theorem Hart.raise_yielded (h : Hart) (e : Exc) : (h.raise e).yielded = h.yielded := rfl
@[simp] theorem Hart.raise_seen (h : Hart) (e : Exc) : (h.raise e).seen = h.seen := rfl
@[simp] theorem Hart.raise_stop (h : Hart) (e : Exc) : (h.raise e).stop = h.stop := rfl
@[simp] theorem Hart.raise_convoy (h : Hart) (e : Exc) : (h.raise e).convoy = h.convoy := rfl
@[simp] theorem Hart.raise_reissue (h : Hart) (e : Exc) : (h.raise e).reissue = h.reissue := rfl
@[simp] theorem Hart.raise_sbuf (h : Hart) (e : Exc) : (h.raise e).sbuf = h.sbuf := rfl
@[simp] theorem Hart.raise_vbuf (h : Hart) (e : Exc) : (h.raise e).vbuf = h.vbuf := rfl
@[simp] theorem Hart.raise_strip (h : Hart) (e : Exc) : (h.raise e).strip = h.strip := rfl
@[simp] theorem Hart.raise_wseq (h : Hart) (e : Exc) : (h.raise e).wseq = h.wseq := rfl
@[simp] theorem Hart.raise_wait (h : Hart) (e : Exc) : (h.raise e).wait = h.wait := rfl
@[simp] theorem Hart.raise_resume (h : Hart) (e : Exc) : (h.raise e).resume = h.resume := rfl
@[simp] theorem Hart.raise_stopAt (h : Hart) (e : Exc) : (h.raise e).stopAt = h.stopAt := rfl
@[simp] theorem Hart.raise_answers (h : Hart) (e : Exc) : (h.raise e).answers = h.answers := rfl
@[simp] theorem Hart.raise_asked (h : Hart) (e : Exc) : (h.raise e).asked = h.asked := rfl
@[simp] theorem Hart.raise_told (h : Hart) (e : Exc) : (h.raise e).told = h.told := rfl
@[simp] theorem Hart.raise_cur (h : Hart) (e : Exc) : (h.raise e).cur = h.cur := rfl
@[simp] theorem Hart.raise_places (h : Hart) (e : Exc) : (h.raise e).places = h.places := rfl
@[simp] theorem Hart.raise_refuse (h : Hart) (e : Exc) : (h.raise e).refuse = h.refuse := rfl
@[simp] theorem Hart.raise_opened (h : Hart) (e : Exc) : (h.raise e).opened = h.opened := rfl
@[simp] theorem Hart.raise_credit (h : Hart) (e : Exc) : (h.raise e).credit = h.credit := rfl
@[simp] theorem Hart.raise_lock (h : Hart) (e : Exc) : (h.raise e).lock = h.lock := rfl
@[simp] theorem Hart.raise_vq (h : Hart) (e : Exc) : (h.raise e).vq = h.vq := rfl
@[simp] theorem Hart.raise_late (h : Hart) (e : Exc) : (h.raise e).late = h.late := rfl
@[simp] theorem Hart.raise_busy (h : Hart) (e : Exc) : (h.raise e).busy = h.busy := rfl
@[simp] theorem Hart.raise_stall (h : Hart) (e : Exc) : (h.raise e).stall = h.stall := rfl
@[simp] theorem Hart.raise_constAt (h : Hart) (e : Exc) : (h.raise e).constAt = h.constAt := rfl
@[simp] theorem Hart.raise_bar (h : Hart) (e : Exc) : (h.raise e).bar = h.bar := rfl
@[simp] theorem Hart.raise_coll (h : Hart) (e : Exc) : (h.raise e).coll = h.coll := rfl
@[simp] theorem Hart.raise_bad (h : Hart) (e : Exc) : (h.raise e).bad = h.bad := rfl
@[simp] theorem Hart.raise_inUse (h : Hart) (e : Exc) : (h.raise e).inUse = h.inUse := rfl
@[simp] theorem Hart.raise_claim (h : Hart) (e : Exc) : (h.raise e).claim = h.claim := rfl

/-! ### `Hart.past` -/

@[simp] theorem Hart.past_id (h : Hart) (pc : Word) (c : Option Convoy) : (h.past pc c).id = h.id := rfl
@[simp] theorem Hart.past_run (h : Hart) (pc : Word) (c : Option Convoy) : (h.past pc c).run = h.run := rfl
@[simp] theorem Hart.past_pc (h : Hart) (pc : Word) (c : Option Convoy) : (h.past pc c).pc = pc := rfl
@[simp] theorem Hart.past_s (h : Hart) (pc : Word) (c : Option Convoy) : (h.past pc c).s = h.s := rfl
@[simp] theorem Hart.past_v (h : Hart) (pc : Word) (c : Option Convoy) : (h.past pc c).v = h.v := rfl
@[simp] theorem Hart.past_m (h : Hart) (pc : Word) (c : Option Convoy) : (h.past pc c).m = h.m := rfl
@[simp] theorem Hart.past_vl (h : Hart) (pc : Word) (c : Option Convoy) : (h.past pc c).vl = h.vl := rfl
@[simp] theorem Hart.past_vtype (h : Hart) (pc : Word) (c : Option Convoy) : (h.past pc c).vtype = h.vtype := rfl
@[simp] theorem Hart.past_vstart (h : Hart) (pc : Word) (c : Option Convoy) : (h.past pc c).vstart = h.vstart := rfl
@[simp] theorem Hart.past_lanes (h : Hart) (pc : Word) (c : Option Convoy) : (h.past pc c).lanes = h.lanes := rfl
@[simp] theorem Hart.past_pend (h : Hart) (pc : Word) (c : Option Convoy) : (h.past pc c).pend = h.pend := rfl
@[simp] theorem Hart.past_slip (h : Hart) (pc : Word) (c : Option Convoy) : (h.past pc c).slip = h.slip := rfl
@[simp] theorem Hart.past_fcsr (h : Hart) (pc : Word) (c : Option Convoy) : (h.past pc c).fcsr = h.fcsr := rfl
@[simp] theorem Hart.past_status (h : Hart) (pc : Word) (c : Option Convoy) : (h.past pc c).status = if h.reissue then h.status &&& 0x2FF else h.status := rfl
@[simp] theorem Hart.past_tmap (h : Hart) (pc : Word) (c : Option Convoy) : (h.past pc c).tmap = h.tmap := rfl
@[simp] theorem Hart.past_skey (h : Hart) (pc : Word) (c : Option Convoy) : (h.past pc c).skey = h.skey := rfl
@[simp] theorem Hart.past_sstep (h : Hart) (pc : Word) (c : Option Convoy) : (h.past pc c).sstep = h.sstep := rfl
@[simp] theorem Hart.past_cause (h : Hart) (pc : Word) (c : Option Convoy) : (h.past pc c).cause = h.cause := rfl
@[simp] theorem Hart.past_epc (h : Hart) (pc : Word) (c : Option Convoy) : (h.past pc c).epc = h.epc := rfl
@[simp] theorem Hart.past_tval (h : Hart) (pc : Word) (c : Option Convoy) : (h.past pc c).tval = h.tval := rfl
@[simp] theorem Hart.past_tvec (h : Hart) (pc : Word) (c : Option Convoy) : (h.past pc c).tvec = h.tvec := rfl
@[simp] theorem Hart.past_ctxid (h : Hart) (pc : Word) (c : Option Convoy) : (h.past pc c).ctxid = h.ctxid := rfl
@[simp] theorem Hart.past_vownV (h : Hart) (pc : Word) (c : Option Convoy) : (h.past pc c).vownV = h.vownV := rfl
@[simp] theorem Hart.past_vownCtx (h : Hart) (pc : Word) (c : Option Convoy) : (h.past pc c).vownCtx = h.vownCtx := rfl
@[simp] theorem Hart.past_fltBase (h : Hart) (pc : Word) (c : Option Convoy) : (h.past pc c).fltBase = h.fltBase := rfl
@[simp] theorem Hart.past_fltHead (h : Hart) (pc : Word) (c : Option Convoy) : (h.past pc c).fltHead = h.fltHead := rfl
@[simp] theorem Hart.past_fltn (h : Hart) (pc : Word) (c : Option Convoy) : (h.past pc c).fltn = h.fltn := rfl
@[simp] theorem Hart.past_tkOvf (h : Hart) (pc : Word) (c : Option Convoy) : (h.past pc c).tkOvf = h.tkOvf := rfl
@[simp] theorem Hart.past_jobid (h : Hart) (pc : Word) (c : Option Convoy) : (h.past pc c).jobid = h.jobid := rfl
@[simp] theorem Hart.past_gang (h : Hart) (pc : Word) (c : Option Convoy) : (h.past pc c).gang = h.gang := rfl
@[simp] theorem Hart.past_peers (h : Hart) (pc : Word) (c : Option Convoy) : (h.past pc c).peers = h.peers := rfl
@[simp] theorem Hart.past_groups (h : Hart) (pc : Word) (c : Option Convoy) : (h.past pc c).groups = h.groups := rfl
@[simp] theorem Hart.past_streams (h : Hart) (pc : Word) (c : Option Convoy) : (h.past pc c).streams = h.streams := rfl
@[simp] theorem Hart.past_irqs (h : Hart) (pc : Word) (c : Option Convoy) : (h.past pc c).irqs = h.irqs := rfl
@[simp] theorem Hart.past_preempt (h : Hart) (pc : Word) (c : Option Convoy) : (h.past pc c).preempt = h.preempt := rfl
@[simp] theorem Hart.past_yielded (h : Hart) (pc : Word) (c : Option Convoy) : (h.past pc c).yielded = h.yielded := rfl
@[simp] theorem Hart.past_seen (h : Hart) (pc : Word) (c : Option Convoy) : (h.past pc c).seen = h.seen := rfl
@[simp] theorem Hart.past_stop (h : Hart) (pc : Word) (c : Option Convoy) : (h.past pc c).stop = h.stop := rfl
@[simp] theorem Hart.past_convoy (h : Hart) (pc : Word) (c : Option Convoy) : (h.past pc c).convoy = c := rfl
@[simp] theorem Hart.past_reissue (h : Hart) (pc : Word) (c : Option Convoy) : (h.past pc c).reissue = false := rfl
@[simp] theorem Hart.past_sbuf (h : Hart) (pc : Word) (c : Option Convoy) : (h.past pc c).sbuf = h.sbuf := rfl
@[simp] theorem Hart.past_vbuf (h : Hart) (pc : Word) (c : Option Convoy) : (h.past pc c).vbuf = h.vbuf := rfl
@[simp] theorem Hart.past_strip (h : Hart) (pc : Word) (c : Option Convoy) : (h.past pc c).strip = h.strip := rfl
@[simp] theorem Hart.past_wseq (h : Hart) (pc : Word) (c : Option Convoy) : (h.past pc c).wseq = h.wseq := rfl
@[simp] theorem Hart.past_wait (h : Hart) (pc : Word) (c : Option Convoy) : (h.past pc c).wait = .none := rfl
@[simp] theorem Hart.past_resume (h : Hart) (pc : Word) (c : Option Convoy) : (h.past pc c).resume = .none := rfl
@[simp] theorem Hart.past_stopAt (h : Hart) (pc : Word) (c : Option Convoy) : (h.past pc c).stopAt = none := rfl
@[simp] theorem Hart.past_answers (h : Hart) (pc : Word) (c : Option Convoy) : (h.past pc c).answers = [] := rfl
@[simp] theorem Hart.past_asked (h : Hart) (pc : Word) (c : Option Convoy) : (h.past pc c).asked = [] := rfl
@[simp] theorem Hart.past_told (h : Hart) (pc : Word) (c : Option Convoy) : (h.past pc c).told = [] := rfl
@[simp] theorem Hart.past_cur (h : Hart) (pc : Word) (c : Option Convoy) : (h.past pc c).cur = [] := rfl
@[simp] theorem Hart.past_places (h : Hart) (pc : Word) (c : Option Convoy) : (h.past pc c).places = [] := rfl
@[simp] theorem Hart.past_refuse (h : Hart) (pc : Word) (c : Option Convoy) : (h.past pc c).refuse = none := rfl
@[simp] theorem Hart.past_opened (h : Hart) (pc : Word) (c : Option Convoy) : (h.past pc c).opened = false := rfl
@[simp] theorem Hart.past_credit (h : Hart) (pc : Word) (c : Option Convoy) : (h.past pc c).credit = none := rfl
@[simp] theorem Hart.past_lock (h : Hart) (pc : Word) (c : Option Convoy) : (h.past pc c).lock = h.lock := rfl
@[simp] theorem Hart.past_vq (h : Hart) (pc : Word) (c : Option Convoy) : (h.past pc c).vq = h.vq := rfl
@[simp] theorem Hart.past_late (h : Hart) (pc : Word) (c : Option Convoy) : (h.past pc c).late = h.late := rfl
@[simp] theorem Hart.past_busy (h : Hart) (pc : Word) (c : Option Convoy) : (h.past pc c).busy = h.busy := rfl
@[simp] theorem Hart.past_stall (h : Hart) (pc : Word) (c : Option Convoy) : (h.past pc c).stall = h.stall := rfl
@[simp] theorem Hart.past_constAt (h : Hart) (pc : Word) (c : Option Convoy) : (h.past pc c).constAt = h.constAt := rfl
@[simp] theorem Hart.past_bar (h : Hart) (pc : Word) (c : Option Convoy) : (h.past pc c).bar = h.bar := rfl
@[simp] theorem Hart.past_coll (h : Hart) (pc : Word) (c : Option Convoy) : (h.past pc c).coll = none := rfl
@[simp] theorem Hart.past_bad (h : Hart) (pc : Word) (c : Option Convoy) : (h.past pc c).bad = h.bad := rfl
@[simp] theorem Hart.past_inUse (h : Hart) (pc : Word) (c : Option Convoy) : (h.past pc c).inUse = none := rfl
@[simp] theorem Hart.past_claim (h : Hart) (pc : Word) (c : Option Convoy) : (h.past pc c).claim = none := rfl

/-! ### `Hart.retire` -/

@[simp] theorem Hart.retire_id (h : Hart) (vec : Bool) (pc : Word) : (h.retire vec pc).id = h.id := rfl
@[simp] theorem Hart.retire_run (h : Hart) (vec : Bool) (pc : Word) : (h.retire vec pc).run = h.run := rfl
@[simp] theorem Hart.retire_pc (h : Hart) (vec : Bool) (pc : Word) : (h.retire vec pc).pc = pc := rfl
@[simp] theorem Hart.retire_s (h : Hart) (vec : Bool) (pc : Word) : (h.retire vec pc).s = h.s := rfl
@[simp] theorem Hart.retire_v (h : Hart) (vec : Bool) (pc : Word) : (h.retire vec pc).v = h.v := rfl
@[simp] theorem Hart.retire_m (h : Hart) (vec : Bool) (pc : Word) : (h.retire vec pc).m = h.m := rfl
@[simp] theorem Hart.retire_vl (h : Hart) (vec : Bool) (pc : Word) : (h.retire vec pc).vl = h.vl := rfl
@[simp] theorem Hart.retire_vtype (h : Hart) (vec : Bool) (pc : Word) : (h.retire vec pc).vtype = h.vtype := rfl
@[simp] theorem Hart.retire_vstart (h : Hart) (vec : Bool) (pc : Word) : (h.retire vec pc).vstart = if vec then 0 else h.vstart := rfl
@[simp] theorem Hart.retire_lanes (h : Hart) (vec : Bool) (pc : Word) : (h.retire vec pc).lanes = h.lanes := rfl
@[simp] theorem Hart.retire_pend (h : Hart) (vec : Bool) (pc : Word) : (h.retire vec pc).pend = h.pend := rfl
@[simp] theorem Hart.retire_slip (h : Hart) (vec : Bool) (pc : Word) : (h.retire vec pc).slip = h.slip := rfl
@[simp] theorem Hart.retire_fcsr (h : Hart) (vec : Bool) (pc : Word) : (h.retire vec pc).fcsr = h.fcsr := rfl
@[simp] theorem Hart.retire_status (h : Hart) (vec : Bool) (pc : Word) : (h.retire vec pc).status = if h.reissue then h.status &&& 0x2FF else h.status := rfl
@[simp] theorem Hart.retire_tmap (h : Hart) (vec : Bool) (pc : Word) : (h.retire vec pc).tmap = h.tmap := rfl
@[simp] theorem Hart.retire_skey (h : Hart) (vec : Bool) (pc : Word) : (h.retire vec pc).skey = h.skey := rfl
@[simp] theorem Hart.retire_sstep (h : Hart) (vec : Bool) (pc : Word) : (h.retire vec pc).sstep = h.sstep := rfl
@[simp] theorem Hart.retire_cause (h : Hart) (vec : Bool) (pc : Word) : (h.retire vec pc).cause = h.cause := rfl
@[simp] theorem Hart.retire_epc (h : Hart) (vec : Bool) (pc : Word) : (h.retire vec pc).epc = h.epc := rfl
@[simp] theorem Hart.retire_tval (h : Hart) (vec : Bool) (pc : Word) : (h.retire vec pc).tval = h.tval := rfl
@[simp] theorem Hart.retire_tvec (h : Hart) (vec : Bool) (pc : Word) : (h.retire vec pc).tvec = h.tvec := rfl
@[simp] theorem Hart.retire_ctxid (h : Hart) (vec : Bool) (pc : Word) : (h.retire vec pc).ctxid = h.ctxid := rfl
@[simp] theorem Hart.retire_vownV (h : Hart) (vec : Bool) (pc : Word) : (h.retire vec pc).vownV = h.vownV := rfl
@[simp] theorem Hart.retire_vownCtx (h : Hart) (vec : Bool) (pc : Word) : (h.retire vec pc).vownCtx = h.vownCtx := rfl
@[simp] theorem Hart.retire_fltBase (h : Hart) (vec : Bool) (pc : Word) : (h.retire vec pc).fltBase = h.fltBase := rfl
@[simp] theorem Hart.retire_fltHead (h : Hart) (vec : Bool) (pc : Word) : (h.retire vec pc).fltHead = h.fltHead := rfl
@[simp] theorem Hart.retire_fltn (h : Hart) (vec : Bool) (pc : Word) : (h.retire vec pc).fltn = h.fltn := rfl
@[simp] theorem Hart.retire_tkOvf (h : Hart) (vec : Bool) (pc : Word) : (h.retire vec pc).tkOvf = h.tkOvf := rfl
@[simp] theorem Hart.retire_jobid (h : Hart) (vec : Bool) (pc : Word) : (h.retire vec pc).jobid = h.jobid := rfl
@[simp] theorem Hart.retire_gang (h : Hart) (vec : Bool) (pc : Word) : (h.retire vec pc).gang = h.gang := rfl
@[simp] theorem Hart.retire_peers (h : Hart) (vec : Bool) (pc : Word) : (h.retire vec pc).peers = h.peers := rfl
@[simp] theorem Hart.retire_groups (h : Hart) (vec : Bool) (pc : Word) : (h.retire vec pc).groups = h.groups := rfl
@[simp] theorem Hart.retire_streams (h : Hart) (vec : Bool) (pc : Word) : (h.retire vec pc).streams = h.streams := rfl
@[simp] theorem Hart.retire_irqs (h : Hart) (vec : Bool) (pc : Word) : (h.retire vec pc).irqs = h.irqs := rfl
@[simp] theorem Hart.retire_preempt (h : Hart) (vec : Bool) (pc : Word) : (h.retire vec pc).preempt = h.preempt := rfl
@[simp] theorem Hart.retire_yielded (h : Hart) (vec : Bool) (pc : Word) : (h.retire vec pc).yielded = h.yielded := rfl
@[simp] theorem Hart.retire_seen (h : Hart) (vec : Bool) (pc : Word) : (h.retire vec pc).seen = h.seen := rfl
@[simp] theorem Hart.retire_stop (h : Hart) (vec : Bool) (pc : Word) : (h.retire vec pc).stop = h.stop := rfl
@[simp] theorem Hart.retire_convoy (h : Hart) (vec : Bool) (pc : Word) : (h.retire vec pc).convoy = h.convoy := rfl
@[simp] theorem Hart.retire_reissue (h : Hart) (vec : Bool) (pc : Word) : (h.retire vec pc).reissue = false := rfl
@[simp] theorem Hart.retire_sbuf (h : Hart) (vec : Bool) (pc : Word) : (h.retire vec pc).sbuf = h.sbuf := rfl
@[simp] theorem Hart.retire_vbuf (h : Hart) (vec : Bool) (pc : Word) : (h.retire vec pc).vbuf = h.vbuf := rfl
@[simp] theorem Hart.retire_strip (h : Hart) (vec : Bool) (pc : Word) : (h.retire vec pc).strip = h.strip := rfl
@[simp] theorem Hart.retire_wseq (h : Hart) (vec : Bool) (pc : Word) : (h.retire vec pc).wseq = h.wseq := rfl
@[simp] theorem Hart.retire_wait (h : Hart) (vec : Bool) (pc : Word) : (h.retire vec pc).wait = .none := rfl
@[simp] theorem Hart.retire_resume (h : Hart) (vec : Bool) (pc : Word) : (h.retire vec pc).resume = .none := rfl
@[simp] theorem Hart.retire_stopAt (h : Hart) (vec : Bool) (pc : Word) : (h.retire vec pc).stopAt = none := rfl
@[simp] theorem Hart.retire_answers (h : Hart) (vec : Bool) (pc : Word) : (h.retire vec pc).answers = [] := rfl
@[simp] theorem Hart.retire_asked (h : Hart) (vec : Bool) (pc : Word) : (h.retire vec pc).asked = [] := rfl
@[simp] theorem Hart.retire_told (h : Hart) (vec : Bool) (pc : Word) : (h.retire vec pc).told = [] := rfl
@[simp] theorem Hart.retire_cur (h : Hart) (vec : Bool) (pc : Word) : (h.retire vec pc).cur = [] := rfl
@[simp] theorem Hart.retire_places (h : Hart) (vec : Bool) (pc : Word) : (h.retire vec pc).places = if vec then h.places else [] := rfl
@[simp] theorem Hart.retire_refuse (h : Hart) (vec : Bool) (pc : Word) : (h.retire vec pc).refuse = if vec then h.refuse else none := rfl
@[simp] theorem Hart.retire_opened (h : Hart) (vec : Bool) (pc : Word) : (h.retire vec pc).opened = false := rfl
@[simp] theorem Hart.retire_credit (h : Hart) (vec : Bool) (pc : Word) : (h.retire vec pc).credit = none := rfl
@[simp] theorem Hart.retire_lock (h : Hart) (vec : Bool) (pc : Word) : (h.retire vec pc).lock = h.lock := rfl
@[simp] theorem Hart.retire_vq (h : Hart) (vec : Bool) (pc : Word) : (h.retire vec pc).vq = h.vq := rfl
@[simp] theorem Hart.retire_late (h : Hart) (vec : Bool) (pc : Word) : (h.retire vec pc).late = h.late := rfl
@[simp] theorem Hart.retire_busy (h : Hart) (vec : Bool) (pc : Word) : (h.retire vec pc).busy = h.busy := rfl
@[simp] theorem Hart.retire_stall (h : Hart) (vec : Bool) (pc : Word) : (h.retire vec pc).stall = h.stall := rfl
@[simp] theorem Hart.retire_constAt (h : Hart) (vec : Bool) (pc : Word) : (h.retire vec pc).constAt = h.constAt := rfl
@[simp] theorem Hart.retire_bar (h : Hart) (vec : Bool) (pc : Word) : (h.retire vec pc).bar = h.bar := rfl
@[simp] theorem Hart.retire_coll (h : Hart) (vec : Bool) (pc : Word) : (h.retire vec pc).coll = none := rfl
@[simp] theorem Hart.retire_bad (h : Hart) (vec : Bool) (pc : Word) : (h.retire vec pc).bad = h.bad := rfl
@[simp] theorem Hart.retire_inUse (h : Hart) (vec : Bool) (pc : Word) : (h.retire vec pc).inUse = none := rfl
@[simp] theorem Hart.retire_claim (h : Hart) (vec : Bool) (pc : Word) : (h.retire vec pc).claim = none := rfl

/-! ### `Hart.pm` -/

@[simp] theorem Hart.pm_id (h : Hart) (k : Nat) (x : MBits) : (h.pm k x).id = h.id := rfl
@[simp] theorem Hart.pm_run (h : Hart) (k : Nat) (x : MBits) : (h.pm k x).run = h.run := rfl
@[simp] theorem Hart.pm_pc (h : Hart) (k : Nat) (x : MBits) : (h.pm k x).pc = h.pc := rfl
@[simp] theorem Hart.pm_s (h : Hart) (k : Nat) (x : MBits) : (h.pm k x).s = h.s := rfl
@[simp] theorem Hart.pm_v (h : Hart) (k : Nat) (x : MBits) : (h.pm k x).v = h.v := rfl
@[simp] theorem Hart.pm_m (h : Hart) (k : Nat) (x : MBits) : (h.pm k x).m = h.m.setIfInBounds (k - 1) x := rfl
@[simp] theorem Hart.pm_vl (h : Hart) (k : Nat) (x : MBits) : (h.pm k x).vl = h.vl := rfl
@[simp] theorem Hart.pm_vtype (h : Hart) (k : Nat) (x : MBits) : (h.pm k x).vtype = h.vtype := rfl
@[simp] theorem Hart.pm_vstart (h : Hart) (k : Nat) (x : MBits) : (h.pm k x).vstart = h.vstart := rfl
@[simp] theorem Hart.pm_lanes (h : Hart) (k : Nat) (x : MBits) : (h.pm k x).lanes = h.lanes := rfl
@[simp] theorem Hart.pm_pend (h : Hart) (k : Nat) (x : MBits) : (h.pm k x).pend = h.pend := rfl
@[simp] theorem Hart.pm_slip (h : Hart) (k : Nat) (x : MBits) : (h.pm k x).slip = h.slip := rfl
@[simp] theorem Hart.pm_fcsr (h : Hart) (k : Nat) (x : MBits) : (h.pm k x).fcsr = h.fcsr := rfl
@[simp] theorem Hart.pm_status (h : Hart) (k : Nat) (x : MBits) : (h.pm k x).status = h.status := rfl
@[simp] theorem Hart.pm_tmap (h : Hart) (k : Nat) (x : MBits) : (h.pm k x).tmap = h.tmap := rfl
@[simp] theorem Hart.pm_skey (h : Hart) (k : Nat) (x : MBits) : (h.pm k x).skey = h.skey := rfl
@[simp] theorem Hart.pm_sstep (h : Hart) (k : Nat) (x : MBits) : (h.pm k x).sstep = h.sstep := rfl
@[simp] theorem Hart.pm_cause (h : Hart) (k : Nat) (x : MBits) : (h.pm k x).cause = h.cause := rfl
@[simp] theorem Hart.pm_epc (h : Hart) (k : Nat) (x : MBits) : (h.pm k x).epc = h.epc := rfl
@[simp] theorem Hart.pm_tval (h : Hart) (k : Nat) (x : MBits) : (h.pm k x).tval = h.tval := rfl
@[simp] theorem Hart.pm_tvec (h : Hart) (k : Nat) (x : MBits) : (h.pm k x).tvec = h.tvec := rfl
@[simp] theorem Hart.pm_ctxid (h : Hart) (k : Nat) (x : MBits) : (h.pm k x).ctxid = h.ctxid := rfl
@[simp] theorem Hart.pm_vownV (h : Hart) (k : Nat) (x : MBits) : (h.pm k x).vownV = h.vownV := rfl
@[simp] theorem Hart.pm_vownCtx (h : Hart) (k : Nat) (x : MBits) : (h.pm k x).vownCtx = h.vownCtx := rfl
@[simp] theorem Hart.pm_fltBase (h : Hart) (k : Nat) (x : MBits) : (h.pm k x).fltBase = h.fltBase := rfl
@[simp] theorem Hart.pm_fltHead (h : Hart) (k : Nat) (x : MBits) : (h.pm k x).fltHead = h.fltHead := rfl
@[simp] theorem Hart.pm_fltn (h : Hart) (k : Nat) (x : MBits) : (h.pm k x).fltn = h.fltn := rfl
@[simp] theorem Hart.pm_tkOvf (h : Hart) (k : Nat) (x : MBits) : (h.pm k x).tkOvf = h.tkOvf := rfl
@[simp] theorem Hart.pm_jobid (h : Hart) (k : Nat) (x : MBits) : (h.pm k x).jobid = h.jobid := rfl
@[simp] theorem Hart.pm_gang (h : Hart) (k : Nat) (x : MBits) : (h.pm k x).gang = h.gang := rfl
@[simp] theorem Hart.pm_peers (h : Hart) (k : Nat) (x : MBits) : (h.pm k x).peers = h.peers := rfl
@[simp] theorem Hart.pm_groups (h : Hart) (k : Nat) (x : MBits) : (h.pm k x).groups = h.groups := rfl
@[simp] theorem Hart.pm_streams (h : Hart) (k : Nat) (x : MBits) : (h.pm k x).streams = h.streams := rfl
@[simp] theorem Hart.pm_irqs (h : Hart) (k : Nat) (x : MBits) : (h.pm k x).irqs = h.irqs := rfl
@[simp] theorem Hart.pm_preempt (h : Hart) (k : Nat) (x : MBits) : (h.pm k x).preempt = h.preempt := rfl
@[simp] theorem Hart.pm_yielded (h : Hart) (k : Nat) (x : MBits) : (h.pm k x).yielded = h.yielded := rfl
@[simp] theorem Hart.pm_seen (h : Hart) (k : Nat) (x : MBits) : (h.pm k x).seen = h.seen := rfl
@[simp] theorem Hart.pm_stop (h : Hart) (k : Nat) (x : MBits) : (h.pm k x).stop = h.stop := rfl
@[simp] theorem Hart.pm_convoy (h : Hart) (k : Nat) (x : MBits) : (h.pm k x).convoy = h.convoy := rfl
@[simp] theorem Hart.pm_reissue (h : Hart) (k : Nat) (x : MBits) : (h.pm k x).reissue = h.reissue := rfl
@[simp] theorem Hart.pm_sbuf (h : Hart) (k : Nat) (x : MBits) : (h.pm k x).sbuf = h.sbuf := rfl
@[simp] theorem Hart.pm_vbuf (h : Hart) (k : Nat) (x : MBits) : (h.pm k x).vbuf = h.vbuf := rfl
@[simp] theorem Hart.pm_strip (h : Hart) (k : Nat) (x : MBits) : (h.pm k x).strip = h.strip := rfl
@[simp] theorem Hart.pm_wseq (h : Hart) (k : Nat) (x : MBits) : (h.pm k x).wseq = h.wseq := rfl
@[simp] theorem Hart.pm_wait (h : Hart) (k : Nat) (x : MBits) : (h.pm k x).wait = h.wait := rfl
@[simp] theorem Hart.pm_resume (h : Hart) (k : Nat) (x : MBits) : (h.pm k x).resume = h.resume := rfl
@[simp] theorem Hart.pm_stopAt (h : Hart) (k : Nat) (x : MBits) : (h.pm k x).stopAt = h.stopAt := rfl
@[simp] theorem Hart.pm_answers (h : Hart) (k : Nat) (x : MBits) : (h.pm k x).answers = h.answers := rfl
@[simp] theorem Hart.pm_asked (h : Hart) (k : Nat) (x : MBits) : (h.pm k x).asked = h.asked := rfl
@[simp] theorem Hart.pm_told (h : Hart) (k : Nat) (x : MBits) : (h.pm k x).told = h.told := rfl
@[simp] theorem Hart.pm_cur (h : Hart) (k : Nat) (x : MBits) : (h.pm k x).cur = h.cur := rfl
@[simp] theorem Hart.pm_places (h : Hart) (k : Nat) (x : MBits) : (h.pm k x).places = h.places := rfl
@[simp] theorem Hart.pm_refuse (h : Hart) (k : Nat) (x : MBits) : (h.pm k x).refuse = h.refuse := rfl
@[simp] theorem Hart.pm_opened (h : Hart) (k : Nat) (x : MBits) : (h.pm k x).opened = h.opened := rfl
@[simp] theorem Hart.pm_credit (h : Hart) (k : Nat) (x : MBits) : (h.pm k x).credit = h.credit := rfl
@[simp] theorem Hart.pm_lock (h : Hart) (k : Nat) (x : MBits) : (h.pm k x).lock = h.lock := rfl
@[simp] theorem Hart.pm_vq (h : Hart) (k : Nat) (x : MBits) : (h.pm k x).vq = h.vq := rfl
@[simp] theorem Hart.pm_late (h : Hart) (k : Nat) (x : MBits) : (h.pm k x).late = h.late := rfl
@[simp] theorem Hart.pm_busy (h : Hart) (k : Nat) (x : MBits) : (h.pm k x).busy = h.busy := rfl
@[simp] theorem Hart.pm_stall (h : Hart) (k : Nat) (x : MBits) : (h.pm k x).stall = h.stall := rfl
@[simp] theorem Hart.pm_constAt (h : Hart) (k : Nat) (x : MBits) : (h.pm k x).constAt = h.constAt := rfl
@[simp] theorem Hart.pm_bar (h : Hart) (k : Nat) (x : MBits) : (h.pm k x).bar = h.bar := rfl
@[simp] theorem Hart.pm_coll (h : Hart) (k : Nat) (x : MBits) : (h.pm k x).coll = h.coll := rfl
@[simp] theorem Hart.pm_bad (h : Hart) (k : Nat) (x : MBits) : (h.pm k x).bad = h.bad := rfl
@[simp] theorem Hart.pm_inUse (h : Hart) (k : Nat) (x : MBits) : (h.pm k x).inUse = h.inUse := rfl
@[simp] theorem Hart.pm_claim (h : Hart) (k : Nat) (x : MBits) : (h.pm k x).claim = h.claim := rfl

/-! ### `Hart.ps` -/

@[simp] theorem Hart.ps_id (h : Hart) (r : Reg5) (x : Word) : (h.ps r x).id = h.id := by unfold Hart.ps; split <;> rfl
@[simp] theorem Hart.ps_run (h : Hart) (r : Reg5) (x : Word) : (h.ps r x).run = h.run := by unfold Hart.ps; split <;> rfl
@[simp] theorem Hart.ps_pc (h : Hart) (r : Reg5) (x : Word) : (h.ps r x).pc = h.pc := by unfold Hart.ps; split <;> rfl
@[simp] theorem Hart.ps_v (h : Hart) (r : Reg5) (x : Word) : (h.ps r x).v = h.v := by unfold Hart.ps; split <;> rfl
@[simp] theorem Hart.ps_m (h : Hart) (r : Reg5) (x : Word) : (h.ps r x).m = h.m := by unfold Hart.ps; split <;> rfl
@[simp] theorem Hart.ps_vl (h : Hart) (r : Reg5) (x : Word) : (h.ps r x).vl = h.vl := by unfold Hart.ps; split <;> rfl
@[simp] theorem Hart.ps_vtype (h : Hart) (r : Reg5) (x : Word) : (h.ps r x).vtype = h.vtype := by unfold Hart.ps; split <;> rfl
@[simp] theorem Hart.ps_vstart (h : Hart) (r : Reg5) (x : Word) : (h.ps r x).vstart = h.vstart := by unfold Hart.ps; split <;> rfl
@[simp] theorem Hart.ps_lanes (h : Hart) (r : Reg5) (x : Word) : (h.ps r x).lanes = h.lanes := by unfold Hart.ps; split <;> rfl
@[simp] theorem Hart.ps_pend (h : Hart) (r : Reg5) (x : Word) : (h.ps r x).pend = h.pend := by unfold Hart.ps; split <;> rfl
@[simp] theorem Hart.ps_slip (h : Hart) (r : Reg5) (x : Word) : (h.ps r x).slip = h.slip := by unfold Hart.ps; split <;> rfl
@[simp] theorem Hart.ps_fcsr (h : Hart) (r : Reg5) (x : Word) : (h.ps r x).fcsr = h.fcsr := by unfold Hart.ps; split <;> rfl
@[simp] theorem Hart.ps_status (h : Hart) (r : Reg5) (x : Word) : (h.ps r x).status = h.status := by unfold Hart.ps; split <;> rfl
@[simp] theorem Hart.ps_tmap (h : Hart) (r : Reg5) (x : Word) : (h.ps r x).tmap = h.tmap := by unfold Hart.ps; split <;> rfl
@[simp] theorem Hart.ps_skey (h : Hart) (r : Reg5) (x : Word) : (h.ps r x).skey = h.skey := by unfold Hart.ps; split <;> rfl
@[simp] theorem Hart.ps_sstep (h : Hart) (r : Reg5) (x : Word) : (h.ps r x).sstep = h.sstep := by unfold Hart.ps; split <;> rfl
@[simp] theorem Hart.ps_cause (h : Hart) (r : Reg5) (x : Word) : (h.ps r x).cause = h.cause := by unfold Hart.ps; split <;> rfl
@[simp] theorem Hart.ps_epc (h : Hart) (r : Reg5) (x : Word) : (h.ps r x).epc = h.epc := by unfold Hart.ps; split <;> rfl
@[simp] theorem Hart.ps_tval (h : Hart) (r : Reg5) (x : Word) : (h.ps r x).tval = h.tval := by unfold Hart.ps; split <;> rfl
@[simp] theorem Hart.ps_tvec (h : Hart) (r : Reg5) (x : Word) : (h.ps r x).tvec = h.tvec := by unfold Hart.ps; split <;> rfl
@[simp] theorem Hart.ps_ctxid (h : Hart) (r : Reg5) (x : Word) : (h.ps r x).ctxid = h.ctxid := by unfold Hart.ps; split <;> rfl
@[simp] theorem Hart.ps_vownV (h : Hart) (r : Reg5) (x : Word) : (h.ps r x).vownV = h.vownV := by unfold Hart.ps; split <;> rfl
@[simp] theorem Hart.ps_vownCtx (h : Hart) (r : Reg5) (x : Word) : (h.ps r x).vownCtx = h.vownCtx := by unfold Hart.ps; split <;> rfl
@[simp] theorem Hart.ps_fltBase (h : Hart) (r : Reg5) (x : Word) : (h.ps r x).fltBase = h.fltBase := by unfold Hart.ps; split <;> rfl
@[simp] theorem Hart.ps_fltHead (h : Hart) (r : Reg5) (x : Word) : (h.ps r x).fltHead = h.fltHead := by unfold Hart.ps; split <;> rfl
@[simp] theorem Hart.ps_fltn (h : Hart) (r : Reg5) (x : Word) : (h.ps r x).fltn = h.fltn := by unfold Hart.ps; split <;> rfl
@[simp] theorem Hart.ps_tkOvf (h : Hart) (r : Reg5) (x : Word) : (h.ps r x).tkOvf = h.tkOvf := by unfold Hart.ps; split <;> rfl
@[simp] theorem Hart.ps_jobid (h : Hart) (r : Reg5) (x : Word) : (h.ps r x).jobid = h.jobid := by unfold Hart.ps; split <;> rfl
@[simp] theorem Hart.ps_gang (h : Hart) (r : Reg5) (x : Word) : (h.ps r x).gang = h.gang := by unfold Hart.ps; split <;> rfl
@[simp] theorem Hart.ps_peers (h : Hart) (r : Reg5) (x : Word) : (h.ps r x).peers = h.peers := by unfold Hart.ps; split <;> rfl
@[simp] theorem Hart.ps_groups (h : Hart) (r : Reg5) (x : Word) : (h.ps r x).groups = h.groups := by unfold Hart.ps; split <;> rfl
@[simp] theorem Hart.ps_streams (h : Hart) (r : Reg5) (x : Word) : (h.ps r x).streams = h.streams := by unfold Hart.ps; split <;> rfl
@[simp] theorem Hart.ps_irqs (h : Hart) (r : Reg5) (x : Word) : (h.ps r x).irqs = h.irqs := by unfold Hart.ps; split <;> rfl
@[simp] theorem Hart.ps_preempt (h : Hart) (r : Reg5) (x : Word) : (h.ps r x).preempt = h.preempt := by unfold Hart.ps; split <;> rfl
@[simp] theorem Hart.ps_yielded (h : Hart) (r : Reg5) (x : Word) : (h.ps r x).yielded = h.yielded := by unfold Hart.ps; split <;> rfl
@[simp] theorem Hart.ps_seen (h : Hart) (r : Reg5) (x : Word) : (h.ps r x).seen = h.seen := by unfold Hart.ps; split <;> rfl
@[simp] theorem Hart.ps_stop (h : Hart) (r : Reg5) (x : Word) : (h.ps r x).stop = h.stop := by unfold Hart.ps; split <;> rfl
@[simp] theorem Hart.ps_convoy (h : Hart) (r : Reg5) (x : Word) : (h.ps r x).convoy = h.convoy := by unfold Hart.ps; split <;> rfl
@[simp] theorem Hart.ps_reissue (h : Hart) (r : Reg5) (x : Word) : (h.ps r x).reissue = h.reissue := by unfold Hart.ps; split <;> rfl
@[simp] theorem Hart.ps_sbuf (h : Hart) (r : Reg5) (x : Word) : (h.ps r x).sbuf = h.sbuf := by unfold Hart.ps; split <;> rfl
@[simp] theorem Hart.ps_vbuf (h : Hart) (r : Reg5) (x : Word) : (h.ps r x).vbuf = h.vbuf := by unfold Hart.ps; split <;> rfl
@[simp] theorem Hart.ps_strip (h : Hart) (r : Reg5) (x : Word) : (h.ps r x).strip = h.strip := by unfold Hart.ps; split <;> rfl
@[simp] theorem Hart.ps_wseq (h : Hart) (r : Reg5) (x : Word) : (h.ps r x).wseq = h.wseq := by unfold Hart.ps; split <;> rfl
@[simp] theorem Hart.ps_wait (h : Hart) (r : Reg5) (x : Word) : (h.ps r x).wait = h.wait := by unfold Hart.ps; split <;> rfl
@[simp] theorem Hart.ps_resume (h : Hart) (r : Reg5) (x : Word) : (h.ps r x).resume = h.resume := by unfold Hart.ps; split <;> rfl
@[simp] theorem Hart.ps_stopAt (h : Hart) (r : Reg5) (x : Word) : (h.ps r x).stopAt = h.stopAt := by unfold Hart.ps; split <;> rfl
@[simp] theorem Hart.ps_answers (h : Hart) (r : Reg5) (x : Word) : (h.ps r x).answers = h.answers := by unfold Hart.ps; split <;> rfl
@[simp] theorem Hart.ps_asked (h : Hart) (r : Reg5) (x : Word) : (h.ps r x).asked = h.asked := by unfold Hart.ps; split <;> rfl
@[simp] theorem Hart.ps_told (h : Hart) (r : Reg5) (x : Word) : (h.ps r x).told = h.told := by unfold Hart.ps; split <;> rfl
@[simp] theorem Hart.ps_cur (h : Hart) (r : Reg5) (x : Word) : (h.ps r x).cur = h.cur := by unfold Hart.ps; split <;> rfl
@[simp] theorem Hart.ps_places (h : Hart) (r : Reg5) (x : Word) : (h.ps r x).places = h.places := by unfold Hart.ps; split <;> rfl
@[simp] theorem Hart.ps_refuse (h : Hart) (r : Reg5) (x : Word) : (h.ps r x).refuse = h.refuse := by unfold Hart.ps; split <;> rfl
@[simp] theorem Hart.ps_opened (h : Hart) (r : Reg5) (x : Word) : (h.ps r x).opened = h.opened := by unfold Hart.ps; split <;> rfl
@[simp] theorem Hart.ps_credit (h : Hart) (r : Reg5) (x : Word) : (h.ps r x).credit = h.credit := by unfold Hart.ps; split <;> rfl
@[simp] theorem Hart.ps_lock (h : Hart) (r : Reg5) (x : Word) : (h.ps r x).lock = h.lock := by unfold Hart.ps; split <;> rfl
@[simp] theorem Hart.ps_vq (h : Hart) (r : Reg5) (x : Word) : (h.ps r x).vq = h.vq := by unfold Hart.ps; split <;> rfl
@[simp] theorem Hart.ps_late (h : Hart) (r : Reg5) (x : Word) : (h.ps r x).late = h.late := by unfold Hart.ps; split <;> rfl
@[simp] theorem Hart.ps_busy (h : Hart) (r : Reg5) (x : Word) : (h.ps r x).busy = h.busy := by unfold Hart.ps; split <;> rfl
@[simp] theorem Hart.ps_stall (h : Hart) (r : Reg5) (x : Word) : (h.ps r x).stall = h.stall := by unfold Hart.ps; split <;> rfl
@[simp] theorem Hart.ps_constAt (h : Hart) (r : Reg5) (x : Word) : (h.ps r x).constAt = h.constAt := by unfold Hart.ps; split <;> rfl
@[simp] theorem Hart.ps_bar (h : Hart) (r : Reg5) (x : Word) : (h.ps r x).bar = h.bar := by unfold Hart.ps; split <;> rfl
@[simp] theorem Hart.ps_coll (h : Hart) (r : Reg5) (x : Word) : (h.ps r x).coll = h.coll := by unfold Hart.ps; split <;> rfl
@[simp] theorem Hart.ps_inUse (h : Hart) (r : Reg5) (x : Word) : (h.ps r x).inUse = h.inUse := by unfold Hart.ps; split <;> rfl
@[simp] theorem Hart.ps_claim (h : Hart) (r : Reg5) (x : Word) : (h.ps r x).claim = h.claim := by unfold Hart.ps; split <;> rfl

/-! ### `Hart.putElem` -/

@[simp] theorem Hart.putElem_id (h : Hart) (r w i y : Nat) : (h.putElem r w i y).id = h.id := rfl
@[simp] theorem Hart.putElem_run (h : Hart) (r w i y : Nat) : (h.putElem r w i y).run = h.run := rfl
@[simp] theorem Hart.putElem_pc (h : Hart) (r w i y : Nat) : (h.putElem r w i y).pc = h.pc := rfl
@[simp] theorem Hart.putElem_s (h : Hart) (r w i y : Nat) : (h.putElem r w i y).s = h.s := rfl
@[simp] theorem Hart.putElem_m (h : Hart) (r w i y : Nat) : (h.putElem r w i y).m = h.m := rfl
@[simp] theorem Hart.putElem_vl (h : Hart) (r w i y : Nat) : (h.putElem r w i y).vl = h.vl := rfl
@[simp] theorem Hart.putElem_vtype (h : Hart) (r w i y : Nat) : (h.putElem r w i y).vtype = h.vtype := rfl
@[simp] theorem Hart.putElem_vstart (h : Hart) (r w i y : Nat) : (h.putElem r w i y).vstart = h.vstart := rfl
@[simp] theorem Hart.putElem_lanes (h : Hart) (r w i y : Nat) : (h.putElem r w i y).lanes = h.lanes := rfl
@[simp] theorem Hart.putElem_pend (h : Hart) (r w i y : Nat) : (h.putElem r w i y).pend = h.pend := rfl
@[simp] theorem Hart.putElem_slip (h : Hart) (r w i y : Nat) : (h.putElem r w i y).slip = h.slip := rfl
@[simp] theorem Hart.putElem_fcsr (h : Hart) (r w i y : Nat) : (h.putElem r w i y).fcsr = h.fcsr := rfl
@[simp] theorem Hart.putElem_status (h : Hart) (r w i y : Nat) : (h.putElem r w i y).status = h.status := rfl
@[simp] theorem Hart.putElem_tmap (h : Hart) (r w i y : Nat) : (h.putElem r w i y).tmap = h.tmap := rfl
@[simp] theorem Hart.putElem_skey (h : Hart) (r w i y : Nat) : (h.putElem r w i y).skey = h.skey := rfl
@[simp] theorem Hart.putElem_sstep (h : Hart) (r w i y : Nat) : (h.putElem r w i y).sstep = h.sstep := rfl
@[simp] theorem Hart.putElem_cause (h : Hart) (r w i y : Nat) : (h.putElem r w i y).cause = h.cause := rfl
@[simp] theorem Hart.putElem_epc (h : Hart) (r w i y : Nat) : (h.putElem r w i y).epc = h.epc := rfl
@[simp] theorem Hart.putElem_tval (h : Hart) (r w i y : Nat) : (h.putElem r w i y).tval = h.tval := rfl
@[simp] theorem Hart.putElem_tvec (h : Hart) (r w i y : Nat) : (h.putElem r w i y).tvec = h.tvec := rfl
@[simp] theorem Hart.putElem_ctxid (h : Hart) (r w i y : Nat) : (h.putElem r w i y).ctxid = h.ctxid := rfl
@[simp] theorem Hart.putElem_vownV (h : Hart) (r w i y : Nat) : (h.putElem r w i y).vownV = h.vownV := rfl
@[simp] theorem Hart.putElem_vownCtx (h : Hart) (r w i y : Nat) : (h.putElem r w i y).vownCtx = h.vownCtx := rfl
@[simp] theorem Hart.putElem_fltBase (h : Hart) (r w i y : Nat) : (h.putElem r w i y).fltBase = h.fltBase := rfl
@[simp] theorem Hart.putElem_fltHead (h : Hart) (r w i y : Nat) : (h.putElem r w i y).fltHead = h.fltHead := rfl
@[simp] theorem Hart.putElem_fltn (h : Hart) (r w i y : Nat) : (h.putElem r w i y).fltn = h.fltn := rfl
@[simp] theorem Hart.putElem_tkOvf (h : Hart) (r w i y : Nat) : (h.putElem r w i y).tkOvf = h.tkOvf := rfl
@[simp] theorem Hart.putElem_jobid (h : Hart) (r w i y : Nat) : (h.putElem r w i y).jobid = h.jobid := rfl
@[simp] theorem Hart.putElem_gang (h : Hart) (r w i y : Nat) : (h.putElem r w i y).gang = h.gang := rfl
@[simp] theorem Hart.putElem_peers (h : Hart) (r w i y : Nat) : (h.putElem r w i y).peers = h.peers := rfl
@[simp] theorem Hart.putElem_groups (h : Hart) (r w i y : Nat) : (h.putElem r w i y).groups = h.groups := rfl
@[simp] theorem Hart.putElem_streams (h : Hart) (r w i y : Nat) : (h.putElem r w i y).streams = h.streams := rfl
@[simp] theorem Hart.putElem_irqs (h : Hart) (r w i y : Nat) : (h.putElem r w i y).irqs = h.irqs := rfl
@[simp] theorem Hart.putElem_preempt (h : Hart) (r w i y : Nat) : (h.putElem r w i y).preempt = h.preempt := rfl
@[simp] theorem Hart.putElem_yielded (h : Hart) (r w i y : Nat) : (h.putElem r w i y).yielded = h.yielded := rfl
@[simp] theorem Hart.putElem_seen (h : Hart) (r w i y : Nat) : (h.putElem r w i y).seen = h.seen := rfl
@[simp] theorem Hart.putElem_stop (h : Hart) (r w i y : Nat) : (h.putElem r w i y).stop = h.stop := rfl
@[simp] theorem Hart.putElem_convoy (h : Hart) (r w i y : Nat) : (h.putElem r w i y).convoy = h.convoy := rfl
@[simp] theorem Hart.putElem_reissue (h : Hart) (r w i y : Nat) : (h.putElem r w i y).reissue = h.reissue := rfl
@[simp] theorem Hart.putElem_sbuf (h : Hart) (r w i y : Nat) : (h.putElem r w i y).sbuf = h.sbuf := rfl
@[simp] theorem Hart.putElem_vbuf (h : Hart) (r w i y : Nat) : (h.putElem r w i y).vbuf = h.vbuf := rfl
@[simp] theorem Hart.putElem_strip (h : Hart) (r w i y : Nat) : (h.putElem r w i y).strip = h.strip := rfl
@[simp] theorem Hart.putElem_wseq (h : Hart) (r w i y : Nat) : (h.putElem r w i y).wseq = h.wseq := rfl
@[simp] theorem Hart.putElem_wait (h : Hart) (r w i y : Nat) : (h.putElem r w i y).wait = h.wait := rfl
@[simp] theorem Hart.putElem_resume (h : Hart) (r w i y : Nat) : (h.putElem r w i y).resume = h.resume := rfl
@[simp] theorem Hart.putElem_stopAt (h : Hart) (r w i y : Nat) : (h.putElem r w i y).stopAt = h.stopAt := rfl
@[simp] theorem Hart.putElem_answers (h : Hart) (r w i y : Nat) : (h.putElem r w i y).answers = h.answers := rfl
@[simp] theorem Hart.putElem_asked (h : Hart) (r w i y : Nat) : (h.putElem r w i y).asked = h.asked := rfl
@[simp] theorem Hart.putElem_told (h : Hart) (r w i y : Nat) : (h.putElem r w i y).told = h.told := rfl
@[simp] theorem Hart.putElem_cur (h : Hart) (r w i y : Nat) : (h.putElem r w i y).cur = h.cur := rfl
@[simp] theorem Hart.putElem_places (h : Hart) (r w i y : Nat) : (h.putElem r w i y).places = h.places := rfl
@[simp] theorem Hart.putElem_refuse (h : Hart) (r w i y : Nat) : (h.putElem r w i y).refuse = h.refuse := rfl
@[simp] theorem Hart.putElem_opened (h : Hart) (r w i y : Nat) : (h.putElem r w i y).opened = h.opened := rfl
@[simp] theorem Hart.putElem_credit (h : Hart) (r w i y : Nat) : (h.putElem r w i y).credit = h.credit := rfl
@[simp] theorem Hart.putElem_lock (h : Hart) (r w i y : Nat) : (h.putElem r w i y).lock = h.lock := rfl
@[simp] theorem Hart.putElem_vq (h : Hart) (r w i y : Nat) : (h.putElem r w i y).vq = h.vq := rfl
@[simp] theorem Hart.putElem_late (h : Hart) (r w i y : Nat) : (h.putElem r w i y).late = h.late := rfl
@[simp] theorem Hart.putElem_busy (h : Hart) (r w i y : Nat) : (h.putElem r w i y).busy = h.busy := rfl
@[simp] theorem Hart.putElem_stall (h : Hart) (r w i y : Nat) : (h.putElem r w i y).stall = h.stall := rfl
@[simp] theorem Hart.putElem_constAt (h : Hart) (r w i y : Nat) : (h.putElem r w i y).constAt = h.constAt := rfl
@[simp] theorem Hart.putElem_bar (h : Hart) (r w i y : Nat) : (h.putElem r w i y).bar = h.bar := rfl
@[simp] theorem Hart.putElem_coll (h : Hart) (r w i y : Nat) : (h.putElem r w i y).coll = h.coll := rfl
@[simp] theorem Hart.putElem_bad (h : Hart) (r w i y : Nat) : (h.putElem r w i y).bad = h.bad := rfl
@[simp] theorem Hart.putElem_inUse (h : Hart) (r w i y : Nat) : (h.putElem r w i y).inUse = h.inUse := rfl
@[simp] theorem Hart.putElem_claim (h : Hart) (r w i y : Nat) : (h.putElem r w i y).claim = h.claim := rfl

end Sys2Proof.Machine
end

