-- ==== Sys2Proof/Laws/Memory.lean ====
section
/-! SUPPORT. Memory: its canonical form is kept by every operation on it, and what a byte reads as after one (log 4). -/

namespace Sys2Proof.Machine

open Sys2Proof

/-! ### The canonical form -/

theorem Memory.wfFrom_cons (lo k : Nat) (b : Byte) (m : List Host.Cell) :
    Memory.wfFrom lo ((k, b) :: m) = true ↔ lo ≤ k ∧ b ≠ 0 ∧ Memory.wfFrom (k + 1) m = true := by
  simp [Memory.wfFrom, and_assoc]

theorem Memory.wfFrom_mono {lo lo' : Nat} (h : lo' ≤ lo) : ∀ {m : List Host.Cell}, Memory.wfFrom lo m = true → Memory.wfFrom lo' m = true
  | [], _ => rfl
  | (k, b) :: m, hm => by
    rw [wfFrom_cons] at hm ⊢
    exact ⟨by omega, hm.2⟩

/-- A filtered memory keeps the canonical form. -/
theorem Memory.wfFrom_filter (p : Host.Cell → Bool) : ∀ {lo : Nat} {m : List Host.Cell}, Memory.wfFrom lo m = true → Memory.wfFrom lo (m.filter p) = true
  | _, [], _ => rfl
  | lo, (k, b) :: m, hm => by
    rw [wfFrom_cons] at hm
    rw [List.filter_cons]
    split
    · rw [wfFrom_cons]
      exact ⟨hm.1, hm.2.1, wfFrom_filter p hm.2.2⟩
    · exact wfFrom_mono (by omega) (wfFrom_filter p hm.2.2)

/-- Two memories that meet at a location make one. -/
theorem Memory.wfFrom_append : ∀ {lo mid : Nat} {m r : List Host.Cell}, lo ≤ mid → Memory.wfFrom lo m = true → (∀ c ∈ m, c.1 < mid) →
    Memory.wfFrom mid r = true → Memory.wfFrom lo (m ++ r) = true
  | _, _, [], _, hl, _, _, hr => wfFrom_mono hl hr
  | lo, mid, (k, b) :: m, r, hl, hm, hb, hr => by
    rw [wfFrom_cons] at hm
    rw [List.cons_append, wfFrom_cons]
    have hk : k < mid := hb (k, b) (by simp)
    exact ⟨hm.1, hm.2.1, wfFrom_append (by omega) hm.2.2 (fun c hc => hb c (by simp [hc])) hr⟩

theorem Memory.wfFrom_le : ∀ {lo : Nat} {m : List Host.Cell}, Memory.wfFrom lo m = true → ∀ c ∈ m, lo ≤ c.1 ∧ c.2 ≠ 0
  | _, [], _, _, hc => by simp at hc
  | lo, (k, b) :: m, hm, c, hc => by
    rw [wfFrom_cons] at hm
    rcases List.mem_cons.1 hc with rfl | hc
    · exact ⟨hm.1, hm.2.1⟩
    · exact ⟨by have := (wfFrom_le hm.2.2 c hc).1; omega, (wfFrom_le hm.2.2 c hc).2⟩

/-- The part of a memory below a location. -/
theorem Memory.takeWhile_lt (l : Nat) : ∀ {lo : Nat} {m : List Host.Cell}, Memory.wfFrom lo m = true →
    Memory.wfFrom lo (m.takeWhile (fun c => decide (c.1 < l))) = true ∧ ∀ c ∈ m.takeWhile (fun c => decide (c.1 < l)), c.1 < l
  | _, [], _ => by simp [wfFrom]
  | lo, (k, b) :: m, hm => by
    rw [wfFrom_cons] at hm
    rw [List.takeWhile_cons]
    split
    · rename_i hk
      have h := takeWhile_lt l hm.2.2
      refine ⟨by rw [wfFrom_cons]; exact ⟨hm.1, hm.2.1, h.1⟩, fun c hc => ?_⟩
      rcases List.mem_cons.1 hc with rfl | hc
      · simpa using hk
      · exact h.2 c hc
    · simp [wfFrom]

/-- The part of a memory from a location on. -/
theorem Memory.dropWhile_lt (l : Nat) : ∀ {lo : Nat} {m : List Host.Cell}, Memory.wfFrom lo m = true →
    Memory.wfFrom l (m.dropWhile (fun c => decide (c.1 < l))) = true
  | _, [], _ => rfl
  | lo, (k, b) :: m, hm => by
    have hm' := hm
    rw [wfFrom_cons] at hm
    rw [List.dropWhile_cons]
    split
    · exact dropWhile_lt l hm.2.2
    · rename_i hk
      rw [wfFrom_cons]
      refine ⟨?_, hm.2⟩
      have : ¬ k < l := by simpa using hk
      omega

theorem Memory.cellsOf_wf : ∀ (bs : List Byte) (l : Nat), Memory.wfFrom l (cellsOf l bs) = true ∧ ∀ c ∈ cellsOf l bs, c.1 < l + bs.length
  | [], l => by simp [cellsOf, wfFrom]
  | b :: bs, l => by
    have h := cellsOf_wf bs (l + 1)
    have hb : ∀ c ∈ cellsOf (l + 1) bs, c.1 < l + (b :: bs).length := fun c hc => by have := h.2 c hc; simp; omega
    rw [cellsOf]
    split
    · exact ⟨wfFrom_mono (by omega) h.1, hb⟩
    · refine ⟨by rw [wfFrom_cons]; exact ⟨le_refl _, ‹_›, h.1⟩, fun c hc => ?_⟩
      rcases List.mem_cons.1 hc with rfl | hc
      · simp
      · exact hb c hc

/-- A block of cells put in place of a range keeps the canonical form. -/
theorem Memory.splice_wf {m new : List Host.Cell} {l n : Nat} (hm : Memory.wf m = true) (hn : Memory.wfFrom l new = true) (hb : ∀ c ∈ new, c.1 < l + n) :
    Memory.wf (m.takeWhile (fun c => decide (c.1 < l)) ++ new ++ m.dropWhile (fun c => decide (c.1 < l + n))) = true := by
  rw [List.append_assoc]
  exact wfFrom_append (Nat.zero_le l) (takeWhile_lt l hm).1 (takeWhile_lt l hm).2
    (wfFrom_append (by omega) hn hb (dropWhile_lt (l + n) hm))

/-- Writing a block keeps the canonical form. -/
theorem Memory.memPut_wf {m : List Host.Cell} (l : Nat) (bs : List Byte) (hm : Memory.wf m = true) : Memory.wf (memPut m l bs) = true :=
  splice_wf hm (cellsOf_wf bs l).1 (cellsOf_wf bs l).2

/-- Zeroing a range keeps the canonical form. -/
theorem Memory.memClear_wf {m : List Host.Cell} (l n : Nat) (hm : Memory.wf m = true) : Memory.wf (memClear m l n) = true := by
  have h := splice_wf (new := []) (l := l) (n := n) hm rfl (by simp)
  simpa [memClear] using h

/-- Moving the cells of a range. -/
theorem Memory.shifted_wf (f : Nat → Nat) (lo lo' : Nat) (hf : ∀ a b, lo ≤ a → a < b → f a < f b) :
    ∀ {k : Nat} {m : List Host.Cell}, lo ≤ k → Memory.wfFrom k m = true → (∀ c ∈ m, lo' ≤ f c.1) →
      Memory.wfFrom lo' (m.map (fun (c : Host.Cell) => ((f c.1, c.2) : Host.Cell))) = true
  | _, [], _, _, _ => rfl
  | k, (a, b) :: m, hk, hm, hb => by
    rw [wfFrom_cons] at hm
    rw [List.map_cons, wfFrom_cons]
    refine ⟨hb (a, b) (by simp), hm.2.1, ?_⟩
    have : ∀ {q : Nat}, lo ≤ a → a < q → Memory.wfFrom q m = true → Memory.wfFrom (f a + 1) (m.map (fun (c : Host.Cell) => ((f c.1, c.2) : Host.Cell))) = true := by
      intro q ha hq hq'
      refine shifted_wf f a (f a + 1) (fun x y hx hxy => hf x y (by omega) hxy) (by omega) hq' (fun c hc => ?_)
      exact hf a c.1 ha (by have := (wfFrom_le hq' c hc).1; omega)
    exact this (by omega) (by omega) hm.2.2

/-- Saving a range keeps the canonical form. -/
theorem Memory.cellsIn_wf {m : List Host.Cell} (lo n : Nat) (hm : Memory.wf m = true) : Memory.wf (cellsIn m lo n) = true := by
  refine shifted_wf (· - lo) lo 0 (fun a b ha hab => by omega) (le_refl lo) (takeWhile_lt (lo + n) (dropWhile_lt lo hm)).1 (fun _ _ => Nat.zero_le _)

/-- Putting saved cells into a range keeps the canonical form. -/
theorem Memory.putCells_wf {m cs : List Host.Cell} (lo n : Nat) (hm : Memory.wf m = true) (hc : Memory.wf cs = true) :
    Memory.wf (putCells m lo n cs) = true := by
  refine splice_wf hm (shifted_wf (· + lo) 0 lo (fun a b _ hab => by omega) (le_refl 0) (wfFrom_filter _ hc) (fun _ _ => Nat.le_add_left _ _)) ?_
  intro c hcm
  simp only [List.mem_map, List.mem_filter] at hcm
  obtain ⟨a, ⟨_, ha⟩, rfl⟩ := hcm
  have ha : a.1 < n ∧ a.2 ≠ 0 := by simpa using ha
  show a.1 + lo < lo + n
  omega

/-- Copying a frame keeps the canonical form. -/
theorem Memory.copyFrame_wf {m : List Host.Cell} (src dst : Nat) (hm : Memory.wf m = true) : Memory.wf (copyFrame m src dst) = true := by
  have h := takeWhile_lt (src + 65536) (dropWhile_lt src hm)
  refine splice_wf hm (shifted_wf (fun a => a - src + dst) src dst (fun a b ha hab => by show a - src + dst < b - src + dst; omega) (le_refl src) h.1 (fun _ _ => Nat.le_add_left _ _)) ?_
  intro c hcm
  obtain ⟨a, ha, rfl⟩ := List.mem_map.1 hcm
  have := h.2 a ha
  have := (wfFrom_le h.1 a ha).1
  show a.1 - src + dst < dst + 65536
  omega

/-- Performing a write keeps the canonical form. -/
theorem State.perform_mem (s : State) (l : Nat) (bs : List Byte) : (s.perform l bs).mem = memPut s.mem l bs := by
  unfold State.perform
  simp only []
  split
  · rfl
  · split <;> rfl

/-! ### Reading after a write -/

theorem memGet_below : ∀ {lo : Nat} {m : List Host.Cell} {k : Nat}, Memory.wfFrom lo m = true → k < lo → memGet m k = 0
  | _, [], _, _, _ => rfl
  | lo, (a, b) :: m, k, hm, hk => by
    rw [Memory.wfFrom_cons] at hm
    rw [memGet, if_neg (by omega)]
    exact memGet_below hm.2.2 (by omega)

theorem memGet_append_right : ∀ {m r : List Host.Cell} {k : Nat}, (∀ c ∈ m, c.1 ≠ k) → memGet (m ++ r) k = memGet r k
  | [], _, _, _ => rfl
  | (a, b) :: m, r, k, h => by
    rw [List.cons_append, memGet, if_neg (h (a, b) (by simp))]
    exact memGet_append_right (fun c hc => h c (by simp [hc]))

theorem memGet_takeWhile (l : Nat) : ∀ {lo : Nat} {m r : List Host.Cell} {k : Nat}, Memory.wfFrom lo m = true → k < l → (∀ c ∈ r, l ≤ c.1) →
    memGet (m.takeWhile (fun c => decide (c.1 < l)) ++ r) k = memGet m k
  | _, [], r, k, _, hk, hr => by
    have h := memGet_append_right (m := r) (r := []) (k := k) (fun c hc => by have := hr c hc; omega)
    simpa [memGet] using h
  | lo, (a, b) :: m, r, k, hm, hk, hr => by
    rw [Memory.wfFrom_cons] at hm
    rw [List.takeWhile_cons]
    split
    · rw [List.cons_append, memGet, memGet]
      split
      · rfl
      · exact memGet_takeWhile l hm.2.2 hk hr
    · rename_i ha
      have ha : ¬ a < l := by simpa using ha
      rw [memGet, if_neg (by omega), memGet_below hm.2.2 (by omega)]
      have h := memGet_append_right (m := r) (r := []) (k := k) (fun c hc => by have := hr c hc; omega)
      simpa [memGet] using h

theorem memGet_dropWhile (l : Nat) : ∀ {lo : Nat} {m : List Host.Cell} {k : Nat}, Memory.wfFrom lo m = true → l ≤ k →
    memGet (m.dropWhile (fun c => decide (c.1 < l))) k = memGet m k
  | _, [], _, _, _ => rfl
  | lo, (a, b) :: m, k, hm, hk => by
    rw [Memory.wfFrom_cons] at hm
    rw [List.dropWhile_cons]
    split
    · rename_i ha
      have ha : a < l := by simpa using ha
      rw [memGet_dropWhile l hm.2.2 hk]
      exact (if_neg (by omega)).symm
    · rfl

theorem memGet_cellsOf : ∀ (bs : List Byte) (l k : Nat), l ≤ k → memGet (cellsOf l bs) k = bs.getD (k - l) 0
  | [], _, _, _ => by simp [cellsOf, memGet]
  | b :: bs, l, k, hk => by
    rw [cellsOf]
    by_cases hkl : k = l
    · subst hkl
      split
      · rw [memGet_below (Memory.cellsOf_wf bs (k + 1)).1 (by omega)]
        simp [*]
      · rw [memGet, if_pos rfl]
        simp
    · have h := memGet_cellsOf bs (l + 1) k (by omega)
      have hidx : k - l = (k - (l + 1)) + 1 := by omega
      split
      · rw [h, hidx, List.getD_cons_succ]
      · rw [memGet, if_neg (by omega), h, hidx, List.getD_cons_succ]

/-- What a byte reads as after a block is written: the block's own byte inside it, and outside it what it read as before. -/
theorem memGet_memPut {m : List Host.Cell} (hm : Memory.wf m = true) (l : Nat) (bs : List Byte) (k : Nat) :
    memGet (memPut m l bs) k = if l ≤ k ∧ k < l + bs.length then bs.getD (k - l) 0 else memGet m k := by
  unfold memPut
  rw [List.append_assoc]
  have hc := Memory.cellsOf_wf bs l
  by_cases h1 : k < l
  · rw [if_neg (by omega)]
    refine memGet_takeWhile l hm h1 (fun c hcm => ?_)
    rcases List.mem_append.1 hcm with h | h
    · exact (Memory.wfFrom_le hc.1 c h).1
    · have := (Memory.wfFrom_le (Memory.dropWhile_lt (l + bs.length) hm) c h).1; omega
  · rw [memGet_append_right (fun c hcm => by have := (Memory.takeWhile_lt l hm).2 c hcm; omega)]
    by_cases h2 : k < l + bs.length
    · rw [if_pos ⟨by omega, h2⟩, ← memGet_cellsOf bs l k (by omega)]
      have hd := Memory.dropWhile_lt (l + bs.length) hm
      clear hc
      induction cellsOf l bs with
      | nil => exact memGet_below hd h2
      | cons c cs ih =>
        obtain ⟨a, b⟩ := c
        rw [List.cons_append, memGet, memGet]
        split
        · rfl
        · exact ih
    · rw [if_neg (by omega), memGet_append_right (fun c hcm => by have := hc.2 c hcm; omega)]
      exact memGet_dropWhile _ hm (by omega)

/-- Reading a block byte by byte. -/
theorem memRead_eq : ∀ (n l : Nat) {lo : Nat} {m : List Host.Cell}, Memory.wfFrom lo m = true → memRead n l m = (List.range n).map (fun k => memGet m (l + k))
  | 0, _, _, _, _ => rfl
  | n + 1, l, lo, m, hm => by
    have hd := Memory.dropWhile_lt l hm
    rw [memRead, List.range_succ_eq_map, List.map_cons, List.map_map, memRead_eq n (l + 1) hd]
    refine congr (congrArg _ ?_) (List.map_congr_left (fun k _ => ?_))
    · have h := memGet_dropWhile l hm (le_refl l)
      rw [Nat.add_zero, ← h]
      generalize hr : m.dropWhile (fun c => decide (c.1 < l)) = r at hd h
      cases r with
      | nil => rfl
      | cons c cs =>
        obtain ⟨a, b⟩ := c
        simp only [memGet]
        split
        · rfl
        · rw [Memory.wfFrom_cons] at hd
          exact (memGet_below hd.2.2 (by omega)).symm
    · have : l + (Nat.succ k) = l + 1 + k := by omega
      rw [Function.comp_apply, this]
      exact memGet_dropWhile l hm (by omega)

/-- The length of a block read. -/
@[simp] theorem memRead_length : ∀ (n l : Nat) (m : List Host.Cell), (memRead n l m).length = n
  | 0, _, _ => rfl
  | n + 1, l, m => by rw [memRead, List.length_cons, memRead_length]

/-- A block reads as the bytes written to it. -/
theorem memRead_memPut_same {m : List Host.Cell} (hm : Memory.wf m = true) (l : Nat) (bs : List Byte) : memRead bs.length l (memPut m l bs) = bs := by
  rw [memRead_eq _ _ (Memory.memPut_wf l bs hm)]
  refine List.ext_getElem (by simp) (fun k h1 h2 => ?_)
  have hk : k < bs.length := h2
  simp only [List.getElem_map, List.getElem_range]
  rw [memGet_memPut hm, if_pos ⟨by omega, by omega⟩]
  have : l + k - l = k := by omega
  rw [this, List.getD_eq_getElem?_getD, List.getElem?_eq_getElem hk, Option.getD_some]

@[simp] theorem natLe_length : ∀ (n x : Nat), (natLe n x).length = n
  | 0, _ => rfl
  | n + 1, x => by rw [natLe, List.length_cons, natLe_length]

/-- A number written as bytes and read back. -/
theorem leNat_natLe : ∀ (n x : Nat), leNat (natLe n x) = x % 2 ^ (8 * n)
  | 0, x => by simp [natLe, leNat, Nat.mod_one]
  | n + 1, x => by
    rw [natLe, leNat, leNat_natLe n, BitVec.toNat_ofNat]
    have : 2 ^ (8 * (n + 1)) = 256 * 2 ^ (8 * n) := by rw [Nat.mul_add, Nat.pow_add]; ring
    rw [this, Nat.mod_mul]

end Sys2Proof.Machine
end

