-- ==== Sys2Proof/Laws/Blocks.lean ====
section
/-! SUPPORT. Reading a block of memory (R354 step 8) where nothing faults or waits: the one lemma about it that callers cite, and the lemmas it rests on. -/

namespace Sys2Proof.Machine

/-- Draining a hart that has nothing buffered changes nothing. -/
theorem State.drainWhere_nil (s : State) (id : Nat) (f : PendWrite → Bool) (h : (s.getHart id).vbuf = []) : s.drainWhere id f = s := by
  simp [State.drainWhere, h, splitWrites]

/-- The state of the one hart, with nothing buffered, no register set aside for firmware's harts to run, and no error in memory or in a copy of it. -/
structure State.Alone (s : State) : Prop where
  harts : s.harts = []
  firm : s.eweok.toList.all (fun h => !h.run) = true
  sbuf : s.hart.sbuf = []
  vbuf : s.hart.vbuf = []
  ecc : s.ecc = []
  copies : s.badCopies = []

/-- A state whose issuing hart remembers other translations of its instruction. -/
def State.placed (s : State) (ps : List Placing) : State := s.upd (fun h => { h with places := ps })

@[simp] theorem State.placed_hart_id (s : State) (ps : List Placing) : (s.placed ps).hart.id = s.hart.id := rfl
@[simp] theorem State.placed_places (s : State) (ps : List Placing) : (s.placed ps).hart.places = ps := rfl
@[simp] theorem State.placed_mem (s : State) (ps : List Placing) : (s.placed ps).mem = s.mem := rfl
@[simp] theorem State.placed_placed (s : State) (ps qs : List Placing) : (s.placed ps).placed qs = s.placed qs := rfl
theorem State.placed_self (s : State) : s.placed s.hart.places = s := rfl

theorem State.Alone.placed {s : State} (h : s.Alone) (ps : List Placing) : (s.placed ps).Alone := ⟨h.harts, h.firm, h.sbuf, h.vbuf, h.ecc, h.copies⟩

/-- A load of the one hart, with nothing buffered and no bad codeword, gives the bytes of memory and changes nothing. -/
theorem State.performElem_load (s : State) (l : Nat) (e : RElem) (ho : e.op = .load) (ha : s.Alone) :
    s.performElem s.hart.id false l e = (s, .done (leNat (memRead e.n l s.mem)) false) := by
  have h0 : s.getHart s.hart.id = s.hart := by simp [State.getHart]
  have hf : s.eweok.toList.filter (fun h => h.run && h.id != s.hart.id) = [] := by
    rw [List.filter_eq_nil_iff]
    intro h hm
    have := List.all_eq_true.mp ha.firm h hm
    simp only [Bool.not_eq_true'] at this
    simp [this]
  have h1 : s.settleVector s.hart.id l e.n e.addr = s := by
    simp [State.settleVector, State.drainWhere_nil s s.hart.id _ (by rw [h0]; exact ha.vbuf), h0, ha.sbuf, lastHit, State.settleOthers, State.allHarts, ha.harts, hf]
  have h2 : s.readError s.hart.id false l e.n = (s, false) := by
    simp [State.readError, State.bad, ha.ecc, ha.copies, State.meetCopies]
  simp [State.performElem, ho, h1, h2]

/-- Translations remembered are of one address each, to its location under `f`. -/
def placesBy (f : Nat → Nat) (ps : List Placing) : Prop := ∀ m ∈ ps, m.bits = 0 ∧ m.place = .loc (f m.base) false

/-- An element placed by a translation that changes nothing: it is remembered, and nothing else changes. -/
theorem State.place1_plain (s : State) (e : RElem) (f : Nat → Nat) (ha : s.hart.answers = []) (hq : placesBy f s.hart.places)
    (hp : s.translateVia false s.hart.agent (ropAcc e.op) e.addr = (s, .loc (f e.addr.toNat) false)) :
    ∃ ps, s.place1 s.hart.id .translate e = (s.placed ps, .loc e (f e.addr.toNat) false) ∧ placesBy f ps := by
  have h0 : s.getHart s.hart.id = s.hart := by simp [State.getHart]
  unfold State.place1
  rw [h0, ha]
  simp only [tabGet, Route.wide, State.placeVa, h0]
  cases hm : s.hart.placing false (ropAcc e.op) e.addr with
  | some m =>
    have h1 := List.find?_some hm
    have h2 := hq m (List.mem_of_find?_eq_some hm)
    simp only [h2.1, Bool.and_eq_true, beq_iff_eq, pow_zero, Nat.div_one] at h1
    refine ⟨s.hart.places, ?_, hq⟩
    simp only [h2.2, h2.1, ← h1.2]
    simp [Place.move, State.placed_self, Nat.mod_one]
  | none =>
    refine ⟨⟨e.addr.toNat / 2 ^ 0, 0, ropAcc e.op, .loc (f e.addr.toNat) false⟩ :: s.hart.places, ?_, ?_⟩
    · simp only [hp, Bool.false_and, Bool.false_eq_true, if_false, State.noted, h0, State.setHart, if_true]
      rfl
    · intro m hm'
      simp only [List.mem_cons] at hm'
      rcases hm' with rfl | hm'
      · exact ⟨rfl, by simp⟩
      · exact hq m hm'

/-- Elements that are all placed by translations that change nothing. -/
theorem State.placeAll_plain (f : Nat → Nat) : ∀ (es : List RElem) (s : State), s.hart.answers = [] → placesBy f s.hart.places →
    (∀ e ∈ es, ∀ ps, (s.placed ps).translateVia false s.hart.agent (ropAcc e.op) e.addr = (s.placed ps, .loc (f e.addr.toNat) false)) →
    ∃ ps, s.placeAll s.hart.id .translate es = (s.placed ps, es.map (fun e => .loc e (f e.addr.toNat) false)) ∧ placesBy f ps
  | [], s, _, hq, _ => ⟨s.hart.places, rfl, hq⟩
  | e :: es, s, ha, hq, hp => by
    obtain ⟨ps, h1, hq1⟩ := s.place1_plain e f ha hq (hp e (by simp) s.hart.places)
    obtain ⟨qs, h2, hq2⟩ := State.placeAll_plain f es (s.placed ps) ha hq1 (fun x hx q => hp x (by simp [hx]) q)
    refine ⟨qs, ?_, hq2⟩
    rw [State.placed_hart_id] at h2
    simp only [State.placeAll, h1, h2, List.map_cons, State.placed_placed]

/-- Placed loads of the one hart that nothing disturbs. -/
theorem State.performPlaced_loads (s : State) (b : Bool) (f : RElem → Nat) (ha : s.Alone) :
    ∀ (es : List RElem), (∀ e ∈ es, e.op = .load) →
    s.performPlaced s.hart.id b (es.map (fun e => .loc e (f e) false)) = (s, es.map (fun e => (e.idx, leNat (memRead e.n (f e) s.mem))), .done)
  | [], _ => rfl
  | e :: es, h => by
    simp [State.performPlaced, State.performElem_load s (f e) e (h e (by simp)) ha, State.performPlaced_loads s b f ha es (fun x hx => h x (by simp [hx]))]

theorem needsOf_locs (f : RElem → Nat) : ∀ (es : List RElem), needsOf (es.map (fun e => .loc e (f e) false)) = []
  | [] => rfl
  | _ :: es => by simp [needsOf, needsOf_locs f es]

theorem blockTrap_locs (r : Option Word) (f : RElem → Nat) : ∀ (es : List RElem), blockTrap r (es.map (fun e => .loc e (f e) false)) = none
  | [] => rfl
  | _ :: es => by simp [blockTrap, blockTrap_locs r f es]

/-- An element of a block access lies in a piece of it. -/
theorem blockElems_mem (tag : Nat) (op : ROp) : ∀ (ps : List (Word × Nat)) (k : Nat) (bs : List Byte) (e : RElem), e ∈ blockElems tag op k ps bs → (e.addr, e.n) ∈ ps ∧ e.op = op
  | [], _, _, e, h => absurd h (by simp [blockElems])
  | p :: ps, k, bs, e, h => by
    simp only [blockElems, List.mem_cons] at h
    rcases h with rfl | h
    · simp
    · have := blockElems_mem tag op ps (k + 1) (bs.drop p.2) e h
      exact ⟨by simp [this.1], this.2⟩

/-- A piece of a block lies inside it. -/
theorem blockPieces_mem : ∀ (fuel : Nat) (va : Word) (n : Nat) (p : Word × Nat), va.toNat + n ≤ 2 ^ 64 → p ∈ blockPieces fuel va n →
    va.toNat ≤ p.1.toNat ∧ p.1.toNat + p.2 ≤ va.toNat + n ∧ 0 < p.2
  | 0, _, _, p, _, h => absurd h (by simp [blockPieces])
  | fuel + 1, va, n, p, hn, h => by
    unfold blockPieces at h
    split at h
    · simp at h
    · rename_i h0
      simp only [List.mem_cons] at h
      generalize hr : (if 0xFFFFF00000000000 ≤ va.toNat then 64 - va.toNat % 64 else 65536 - va.toNat % 65536) = room at h
      have hroom : 0 < room := by
        rw [← hr]
        split <;> omega
      rcases h with rfl | h
      · refine ⟨le_refl _, ?_, ?_⟩
        · simp
        · simp; omega
      · by_cases hz : n - min n room = 0
        · exfalso
          rw [hz] at h
          cases fuel with
          | zero => simp [blockPieces] at h
          | succ f => simp [blockPieces] at h
        · have hk : min n room = room := by omega
          rw [hk] at h
          have ha : (va + BitVec.ofNat 64 room).toNat = va.toNat + room := by
            rw [BitVec.toNat_add, BitVec.toNat_ofNat]
            have : room < 2 ^ 64 := by omega
            rw [Nat.mod_eq_of_lt this, Nat.mod_eq_of_lt (by omega)]
          have := blockPieces_mem fuel (va + BitVec.ofNat 64 room) (n - room) p (by omega) h
          omega

/-- A block that the one hart reads where each of its addresses is placed without a change: its bytes, piece by piece, and the state but for what it remembers of its
translations. -/
theorem State.readBlock_pieces (s : State) (tag : Nat) (va : Word) (n : Nat) (r : Option Word) (f : Nat → Nat) (h1 : s.Alone)
    (hc : s.copyBusy s.hart.id = false) (ha : s.hart.answers = []) (hq : placesBy f s.hart.places) (hn : va.toNat + n ≤ 2 ^ 64)
    (hp : ∀ (a : Word) (ps : List Placing), va.toNat ≤ a.toNat → a.toNat < va.toNat + n → (s.placed ps).translateVia false s.hart.agent .read a = (s.placed ps, .loc (f a.toNat) false)) :
    ∃ ps, placesBy f ps ∧ s.readBlock tag va n r = .ok (s.placed ps) ((blockElems tag .load 0 (blockPieces (n + 1) va n) []).flatMap (fun e =>
      natLe e.n ((tabGet ((blockElems tag .load 0 (blockPieces (n + 1) va n) []).map (fun e => (e.idx, leNat (memRead e.n (f e.addr.toNat) s.mem)))) e.idx).getD 0))) := by
  obtain ⟨ps, hpl, hps⟩ := State.placeAll_plain f (blockElems tag .load 0 (blockPieces (n + 1) va n) []) s ha hq (fun e h ps => by
    have hm := blockElems_mem _ _ _ _ _ e h
    have hb := blockPieces_mem _ _ _ _ hn hm.1
    rw [hm.2]
    exact hp e.addr ps hb.1 (by have := hb.2.1; have := hb.2.2; simp at *; omega))
  have hl := State.performPlaced_loads (s.placed ps) true (fun e => f e.addr.toNat) (h1.placed ps) (blockElems tag .load 0 (blockPieces (n + 1) va n) [])
    (fun e h => (blockElems_mem _ _ _ _ _ e h).2)
  rw [State.placed_hart_id, State.placed_mem] at hl
  refine ⟨ps, hps, ?_⟩
  simp only [State.readBlock, State.copyBlocks, hc, Bool.false_and, Bool.false_eq_true, if_false, hpl, needsOf_locs (fun e => f e.addr.toNat), blockTrap_locs r (fun e => f e.addr.toNat),
    ne_eq, not_true_eq_false, hl]

/-- A block that a hart writes where each of its addresses is placed without a change, once the write has its interlock entry, is written. -/
theorem State.writeBlock_plain (s : State) (tag : Nat) (va : Word) (bs : List Byte) (f : Nat → Nat) (hc : s.copyBusy s.hart.id = false) (ha : s.hart.answers = [])
    (hq : placesBy f s.hart.places) (hn : va.toNat + bs.length ≤ 2 ^ 64)
    (hp : ∀ (t : State) (a : Word), t.getCore (coreOf s.hart.id) = s.getCore (coreOf s.hart.id) → t.hart.agent = s.hart.agent → va.toNat ≤ a.toNat → a.toNat < va.toNat + bs.length →
      t.translateVia false s.hart.agent .write a = (t, .loc (f a.toNat) false)) :
    ∃ t, s.writeBlock tag va bs = .ok t [] := by
  have hg : s.getHart s.hart.id = s.hart := by simp [State.getHart]
  have ho : ∀ rs, (s.openLock s.hart.id rs).hart.id = s.hart.id ∧ (s.openLock s.hart.id rs).hart.answers = s.hart.answers ∧ (s.openLock s.hart.id rs).hart.places = s.hart.places ∧
      (s.openLock s.hart.id rs).hart.agent = s.hart.agent ∧ (s.openLock s.hart.id rs).cores = s.cores := by
    intro rs
    unfold State.openLock
    rw [hg]
    dsimp only
    split <;> (unfold State.setHart; rw [if_pos rfl]; exact ⟨rfl, rfl, rfl, rfl, rfl⟩)
  obtain ⟨hi, h2, h3, h4, h5⟩ := ho (linesOf [(va, bs.length)])
  simp only [State.writeBlock, State.copyBlocks, hc, Bool.false_and, Bool.false_eq_true, if_false]
  generalize s.openLock s.hart.id (linesOf [(va, bs.length)]) = t0 at *
  obtain ⟨ps, hpl, -⟩ := State.placeAll_plain f (blockElems tag .store 0 (blockPieces (bs.length + 1) va bs.length) bs) t0 (h2.trans ha) (by rw [h3]; exact hq) (fun e h ps => by
    have hm := blockElems_mem _ _ _ _ _ e h
    have hb := blockPieces_mem _ _ _ _ hn hm.1
    rw [hm.2, h4]
    exact hp (t0.placed ps) e.addr (by unfold State.getCore; rw [← h5]; rfl) h4 hb.1 (by have := hb.2.1; have := hb.2.2; simp at *; omega))
  rw [← hi, hpl]
  simp only [needsOf_locs (fun e => f e.addr.toNat), blockTrap_locs none (fun e => f e.addr.toNat), ne_eq, not_true_eq_false, if_false]
  exact ⟨_, rfl⟩

/-- Bytes above every cell that memory lists are zero. -/
theorem memRead_above : ∀ (n l : Nat) (mem : List Host.Cell), (∀ c ∈ mem, c.1 < l) → memRead n l mem = List.replicate n 0
  | 0, _, _, _ => rfl
  | n + 1, l, mem, h => by
    have hd : mem.dropWhile (fun c => decide (c.1 < l)) = [] := by
      rw [List.dropWhile_eq_nil_iff]
      exact fun c hc => by simpa using h c hc
    simp only [memRead, hd]
    rw [memRead_above n (l + 1) [] (by simp), List.replicate_succ]

/-- A block that lies above every cell that memory lists reads as zeros. -/
theorem State.readBlock_zero (s : State) (tag : Nat) (va : Word) (n : Nat) (r : Option Word) (f : Nat → Nat) (h1 : s.Alone)
    (hc : s.copyBusy s.hart.id = false) (ha : s.hart.answers = []) (hq : placesBy f s.hart.places) (hn : va.toNat + n ≤ 2 ^ 64)
    (hp : ∀ (a : Word) (ps : List Placing), va.toNat ≤ a.toNat → a.toNat < va.toNat + n → (s.placed ps).translateVia false s.hart.agent .read a = (s.placed ps, .loc (f a.toNat) false))
    (hm : ∀ a, va.toNat ≤ a → ∀ c ∈ s.mem, c.1 < f a) :
    ∃ ps bs, placesBy f ps ∧ s.readBlock tag va n r = .ok (s.placed ps) bs ∧ ∀ b ∈ bs, b = 0 := by
  have z : ∀ k, leNat (List.replicate k (0 : Byte)) = 0 := fun k => by
    induction k with
    | zero => rfl
    | succ k ih => rw [List.replicate_succ, leNat, ih]; rfl
  have y : ∀ k, ∀ b ∈ natLe k 0, b = 0 := fun k => by
    induction k with
    | zero => simp [natLe]
    | succ k ih => simpa [natLe] using ih
  have t : ∀ (xs : List (Nat × Nat)) (i : Nat), (∀ x ∈ xs, x.2 = 0) → (tabGet xs i).getD 0 = 0 := fun xs i => by
    induction xs with
    | nil => simp [tabGet]
    | cons x xs ih =>
      intro h
      simp only [tabGet]
      split
      · simpa using h x (by simp)
      · exact ih (fun q hq => h q (by simp [hq]))
  obtain ⟨ps, hps, hes⟩ := s.readBlock_pieces tag va n r f h1 hc ha hq hn hp
  refine ⟨ps, _, hps, hes, fun b hb => ?_⟩
  simp only [List.mem_flatMap] at hb
  obtain ⟨e, _, hb⟩ := hb
  rw [t _ _ (fun x hx => by
    simp only [List.mem_map] at hx
    obtain ⟨q, hq, rfl⟩ := hx
    have hlo := (blockPieces_mem _ _ _ _ hn (blockElems_mem _ _ _ _ _ q hq).1).1
    simp only [memRead_above q.n _ s.mem (hm q.addr.toNat hlo), z])] at hb
  exact y _ b hb

theorem leNat_zeros : ∀ (bs : List Byte), (∀ b ∈ bs, b = 0) → leNat bs = 0
  | [], _ => rfl
  | b :: bs, h => by
    rw [leNat, leNat_zeros bs (fun x hx => h x (by simp [hx])), h b (by simp)]
    rfl

theorem natLe_zero : ∀ (n : Nat), ∀ b ∈ natLe n 0, b = 0
  | 0 => by simp [natLe]
  | n + 1 => by simpa [natLe] using natLe_zero n

theorem natLe_leNat : ∀ (bs : List Byte), natLe bs.length (leNat bs) = bs
  | [] => rfl
  | b :: bs => by
    have h : (b.toNat + 256 * leNat bs) / 256 = leNat bs := by
      have := b.isLt
      omega
    have h8 : BitVec.ofNat 8 (b.toNat + 256 * leNat bs) = b := by
      apply BitVec.eq_of_toNat_eq
      have := b.isLt
      rw [BitVec.toNat_ofNat]
      omega
    simp [natLe, leNat, h, h8, natLe_leNat bs]

/-- An element of a block access has a number from its place on. -/
theorem blockElems_idx (tag : Nat) (op : ROp) : ∀ (ps : List (Word × Nat)) (k : Nat) (bs : List Byte) (e : RElem), e ∈ blockElems tag op k ps bs → 2 ^ 60 + tag * 2 ^ 32 + k ≤ e.idx
  | [], _, _, e, h => absurd h (by simp [blockElems])
  | p :: ps, k, bs, e, h => by
    simp only [blockElems, List.mem_cons] at h
    rcases h with rfl | h
    · simp
    · have := blockElems_idx tag op ps (k + 1) (bs.drop p.2) e h
      omega

theorem tabGet_zeros : ∀ (xs : List (Nat × Nat)) (i : Nat), (∀ x ∈ xs, x.1 = i → x.2 = 0) → (tabGet xs i).getD 0 = 0
  | [], _, _ => by simp [tabGet]
  | x :: xs, i, h => by
    simp only [tabGet]
    split
    · rename_i hx
      simpa using h x (by simp) hx
    · exact tabGet_zeros xs i (fun q hq => h q (by simp [hq]))

/-- A block whose first 64 bytes are all that memory lists of it: those bytes, and zeros. -/
theorem State.readBlock_head (s : State) (tag : Nat) (va : Word) (n : Nat) (r : Option Word) (f : Nat → Nat) (h1 : s.Alone)
    (hc : s.copyBusy s.hart.id = false) (hans : s.hart.answers = []) (hq : placesBy f s.hart.places) (hn : va.toNat + n ≤ 2 ^ 64) (h64 : 64 ≤ n)
    (hw : 0xFFFFF00000000000 ≤ va.toNat) (hal : va.toNat % 64 = 0)
    (hp : ∀ (a : Word) (ps : List Placing), va.toNat ≤ a.toNat → a.toNat < va.toNat + n → (s.placed ps).translateVia false s.hart.agent .read a = (s.placed ps, .loc (f a.toNat) false))
    (hm : ∀ a, va.toNat + 64 ≤ a → ∀ c ∈ s.mem, c.1 < f a) :
    ∃ ps zs, placesBy f ps ∧ s.readBlock tag va n r = .ok (s.placed ps) (memRead 64 (f va.toNat) s.mem ++ zs) ∧ ∀ b ∈ zs, b = 0 := by
  obtain ⟨pl, hpl, hes⟩ := s.readBlock_pieces tag va n r f h1 hc hans hq hn hp
  have hk : min n 64 = 64 := by omega
  have hps : blockPieces (n + 1) va n = (va, 64) :: blockPieces n (va + 64) (n - 64) := by
    rw [blockPieces, if_neg (by omega), if_pos hw, hal]
    simp [hk]
  have ha : (va + 64).toNat = va.toNat + 64 ∨ n = 64 := by
    by_cases h : n = 64
    · exact Or.inr h
    · left
      rw [BitVec.toNat_add]
      have : (64 : Word).toNat = 64 := rfl
      rw [this, Nat.mod_eq_of_lt (by omega)]
  refine ⟨pl, (blockElems tag .load 1 (blockPieces n (va + 64) (n - 64)) []).flatMap (fun e => natLe e.n ((tabGet ((blockElems tag .load 0 (blockPieces (n + 1) va n) []).map
    (fun e => (e.idx, leNat (memRead e.n (f e.addr.toNat) s.mem)))) e.idx).getD 0)), hpl, ?_, fun b hb => ?_⟩
  · rw [hes]
    congr 1
    conv => lhs; arg 2; rw [hps]
    have hl : memRead 64 (f va.toNat) s.mem = natLe 64 (leNat (memRead 64 (f va.toNat) s.mem)) := by
      have := natLe_leNat (memRead 64 (f va.toNat) s.mem)
      rw [memRead_length] at this
      exact this.symm
    have ht : tabGet ((blockElems tag .load 0 (blockPieces (n + 1) va n) []).map (fun e => (e.idx, leNat (memRead e.n (f e.addr.toNat) s.mem)))) (2 ^ 60 + tag * 2 ^ 32 + 0) =
        some (leNat (memRead 64 (f va.toNat) s.mem)) := by
      rw [hps]
      simp [blockElems, tabGet]
    simp only [blockElems, List.flatMap_cons, List.drop_nil]
    rw [ht, hl]
    simp only [Option.getD_some, ← hl]
  · simp only [List.mem_flatMap] at hb
    obtain ⟨e, hmem, hb⟩ := hb
    have hi := blockElems_idx _ _ _ _ _ e hmem
    rw [tabGet_zeros _ _ (fun x hx hxe => by
      rw [hps] at hx
      simp only [blockElems, List.map_cons, List.mem_cons, List.mem_map, List.drop_nil] at hx
      rcases hx with rfl | ⟨q, hq, rfl⟩
      · simp only at hxe
        omega
      · rcases ha with ha | ha
        · have hb := (blockPieces_mem _ _ _ _ (by omega) (blockElems_mem _ _ _ _ _ q hq).1).1
          exact leNat_zeros _ (by rw [memRead_above q.n _ s.mem (hm _ (by simp only at hb; omega))]; exact fun b hb => List.eq_of_mem_replicate hb)
        · subst ha
          exfalso
          have := (blockElems_mem _ _ _ _ _ q hq).1
          simp [blockPieces] at this)] at hb
    exact natLe_zero _ b hb

/-- A field in the first part of a block. -/
theorem fieldOf_head (hd zs : List Byte) (off n : Nat) (h : off + n ≤ hd.length) : fieldOf (hd ++ zs) off n = fieldOf hd off n := by
  unfold fieldOf
  rw [List.drop_append_of_le_length (by omega), List.take_append_of_le_length (by simp; omega)]

theorem zeroIn_head (hd zs : List Byte) (lo hi : Nat) (h : hi ≤ hd.length) (hl : lo ≤ hi) : zeroIn (hd ++ zs) lo hi = zeroIn hd lo hi := by
  unfold zeroIn
  rw [List.drop_append_of_le_length (by omega), List.take_append_of_le_length (by simp; omega)]

/-- The bytes of a block from some offset on where zeros follow its first part. -/
theorem drop_zeros (hd zs : List Byte) (lo : Nat) (hz : ∀ b ∈ zs, b = 0) (h : hd.length ≤ lo) : ∀ b ∈ (hd ++ zs).drop lo, b = 0 := by
  intro b hb
  rw [List.drop_append, List.drop_eq_nil_of_le h, List.nil_append] at hb
  exact hz b (List.mem_of_mem_drop hb)

theorem fieldOf_zeros (hd zs : List Byte) (off n : Nat) (hz : ∀ b ∈ zs, b = 0) (h : hd.length ≤ off) : fieldOf (hd ++ zs) off n = 0 :=
  leNat_zeros _ (fun b hb => drop_zeros hd zs off hz h b (List.mem_of_mem_take hb))

theorem zeroIn_zeros (hd zs : List Byte) (lo hi : Nat) (hz : ∀ b ∈ zs, b = 0) (h : hd.length ≤ lo) : zeroIn (hd ++ zs) lo hi = true := by
  unfold zeroIn
  rw [List.all_eq_true]
  intro b hb
  rw [drop_zeros hd zs lo hz h b (List.mem_of_mem_take hb)]
  rfl

/-- A tile save area with no open block (Table 7-9) has 66,560 bytes. -/
theorem State.tileArea_length (s : State) (b : Nat) (h : (s.getTile b).kc = 0) : (s.tileArea b).length = 66560 := by
  simp only [State.tileArea, h, List.length_append, natLe_length, memRead_length, List.length_replicate, Vector.length_toList, if_true, List.length_nil]

theorem length_flatMap_const {α : Type} (f : α → List Byte) (n : Nat) (h : ∀ x, (f x).length = n) : ∀ (xs : List α), (xs.flatMap f).length = xs.length * n
  | [] => by simp
  | x :: xs => by
    rw [List.flatMap_cons, List.length_append, h, length_flatMap_const f n h xs, List.length_cons, Nat.add_mul, Nat.one_mul, Nat.add_comm]

theorem streamBytes_length (st : Option Stream) : (streamBytes st).length = 64 := by
  cases st <;> simp only [streamBytes, List.length_append, natLe_length, List.length_replicate]

/-- A vector save area (Table 5-9) has 94,784 bytes. -/
theorem State.vectorArea_length (s : State) : s.vectorArea.length = 94784 := by
  simp only [State.vectorArea, List.length_append, natLe_length, List.length_replicate, length_flatMap_const _ 2048 (fun v => natLe_length _ _), length_flatMap_const _ 4096 (fun m => natLe_length _ _),
    length_flatMap_const _ 64 streamBytes_length, Vector.length_toList]

end Sys2Proof.Machine
end

