-- ==== Sys2Proof/Laws/Instr.lean ====
section
/-! SUPPORT. What an instruction can come to, once for the shared operations that every meaning goes through: the checks of R354, the convoy, retirement. -/

namespace Sys2Proof.Machine

open Sys2Proof

/-! ### Scalar registers -/

@[simp] theorem Hart.ps_zero (h : Hart) (x : Word) : h.ps 0 x = h := rfl

theorem Hart.gs_ps_same (h : Hart) {r : Reg5} (hr : r ≠ 0) (x : Word) : (h.ps r x).gs r = x := by
  unfold Hart.gs Hart.ps
  rw [if_neg hr, if_neg hr]
  simp

theorem Hart.gs_ps_other (h : Hart) {r q : Reg5} (hq : q ≠ r) (x : Word) : (h.ps r x).gs q = h.gs q := by
  unfold Hart.gs Hart.ps
  have hne : r.toNat ≠ q.toNat := fun e => hq (BitVec.eq_of_toNat_eq e.symm)
  split
  · rfl
  · split
    · rfl
    · simp [hne]

@[simp] theorem Hart.gs_zero (h : Hart) : h.gs 0 = 0 := rfl

@[simp] theorem State.gs_zero (s : State) : s.gs 0 = 0 := rfl

theorem Hart.ps_past (h : Hart) (r : Reg5) (x pc : Word) (c : Option Convoy) : (h.ps r x).past pc c = (h.past pc c).ps r x := by
  unfold Hart.ps; split <;> rfl

/-! ### The checks of R354 -/

/-- A scalar instruction without privilege and vector state passes every check of its header. -/
theorem Hdr.check_scalar (hd : Hdr) (s : State) (hu : hd.unit = none) (h7 : hd.bad07 = false) (hb : hd.bad0B = false) (hp : hd.priv = false) (hv : hd.vo = false) :
    hd.check s = none := by
  simp [Hdr.check, Hdr.convoyTrap, hu, h7, hb, hp, hv]

/-- A scalar instruction that is privileged, or looks at vector state, passes where the mode and the owner allow it. -/
theorem Hdr.check_system (hd : Hdr) (s : State) (hu : hd.unit = none) (h7 : hd.bad07 = false) (hb : hd.bad0B = false)
    (hp : hd.priv = true → s.hart.super = true) (hv : hd.vo = true → s.hart.owns = true) : hd.check s = none := by
  simp only [Hdr.check, Hdr.convoyTrap, hu, h7, hb, Bool.false_eq_true, if_false]
  have h1 : (hd.priv && !s.hart.super) = false := by cases h : hd.priv <;> simp_all
  have h2 : (hd.vo && (!s.hart.vownV || s.hart.vownCtx != s.hart.ctxid)) = false := by
    cases h : hd.vo
    · rfl
    · have := hv h
      simp only [Hart.owns, Bool.and_eq_true, beq_iff_eq] at this
      simp [this.1, this.2]
  rw [h1, h2]; rfl

/-- A scalar header's convoy. -/
theorem Hdr.convoy_scalar (hd : Hdr) (h : Hart) (hu : hd.unit = none) : hd.convoy h.convoy = h.convoyPast hd.serial hd.reads := by
  unfold Hdr.convoy Hart.convoyPast
  rw [hu] <;> rfl

/-- A hart whose registers have no uncorrectable error reads every register. -/
theorem Hdr.badSource_sound (hd : Hdr) (h : Hart) (hs : h.sound = true) : hd.badSource h = none := by
  unfold Hdr.badSource
  rw [List.isEmpty_iff.mp hs]
  rfl

/-- What an instruction reads does not depend on the convoy, nor on what it has remembered. -/
@[simp] theorem Hdr.badSource_starts (hd : Hdr) (h : Hart) (c : Option Convoy) : hd.badSource (hd.starts { h with convoy := c }) = hd.badSource h := by
  unfold Hdr.starts Hart.begin_
  split
  · split <;> rfl
  · rfl

/-- A scalar instruction starts with nothing to forget. -/
theorem Hdr.starts_scalar (hd : Hdr) (h : Hart) (hu : hd.unit = none) : hd.starts h = h := by
  unfold Hdr.starts; rw [hu] <;> rfl

/-- Starting leaves the words of an instruction that has begun. -/
@[simp] theorem Hdr.starts_cur (hd : Hdr) (h : Hart) : (hd.starts h).cur = h.cur := by
  unfold Hdr.starts Hart.begin_
  split
  · split <;> rfl
  · rfl

/-- The state in which an instruction that has passed its checks has its effect: the convoy is settled, and one that begins has remembered nothing. -/
def State.begun (s : State) (hd : Hdr) : State := s.upd (fun x => hd.starts { x with convoy := hd.convoy x.convoy })

/-- A scalar instruction that names no source register reads none with an error. -/
theorem Hdr.badSource_nil (hd : Hdr) (h : Hart) (hu : hd.unit = none) (hr : hd.reads = []) : hd.badSource h = none := by
  unfold Hdr.badSource
  simp [hu, hr]

/-- An instruction that reads a register with an uncorrectable error as it begins traps ECC by precise unwind, with its record (R140, R307). -/
theorem runInstr_bad (hd : Hdr) (s : State) (f : State → Except Trap Eff) (c : Nat) (hc : hd.check s = none) (hn : s.hart.cur = [])
    (hb : hd.badSource s.hart = some c) : runInstr hd s f = .next (((s.begun hd).regError c).1.trap ⟨0x0C, 0⟩) := by
  have h1 : (if (s.begun hd).hart.cur.isEmpty then hd.badSource (s.begun hd).hart else none) = some c := by
    have he : (s.begun hd).hart.cur.isEmpty = true := by
      show (hd.starts { s.hart with convoy := hd.convoy s.hart.convoy }).cur.isEmpty = true
      rw [Hdr.starts_cur, hn] <;> rfl
    rw [he, if_pos rfl]
    exact (Hdr.badSource_starts hd s.hart _).trans hb
  unfold runInstr; rw [hc]
  show (match (if (s.begun hd).hart.cur.isEmpty then hd.badSource (s.begun hd).hart else none) with
    | some c => Host.Outcome.next (((s.begun hd).regError c).1.trap ((s.begun hd).regError c).2)
    | none => _) = _
  rw [h1] <;> rfl

/-- An instruction that passes its checks and reads no register with an error: its own checks and effect. -/
theorem runInstr_passes (hd : Hdr) (s : State) (f : State → Except Trap Eff) (hc : hd.check s = none) (hb : hd.badSource s.hart = none) :
    runInstr hd s f =
      match f (s.begun hd) with
      | .error t => .next ((s.begun hd).trap t)
      | .ok e => .next (hd.finish s.hart.convoy e) := by
  unfold runInstr; rw [hc]
  simp only [State.upd_hart, Hdr.badSource_starts, hb, ite_self]
  rfl

/-- An instruction that its header's checks stop takes the trap they give. -/
theorem runInstr_trap (hd : Hdr) (s : State) (f : State → Except Trap Eff) (t : Trap) (hc : hd.check s = some t) : runInstr hd s f = .next (s.trap t) := by
  unfold runInstr; rw [hc]

/-- Taking a trap closes the convoy, whatever it was. -/
theorem State.trap_convoy (s : State) (c : Option Convoy) (t : Trap) : (s.upd (fun h => { h with convoy := c })).trap t = s.trap t := rfl

/-- Every instruction answers a next state. -/
theorem runInstr_next (hd : Hdr) (s : State) (f : State → Except Trap Eff) : ∃ t, runInstr hd s f = .next t := by
  unfold runInstr
  split
  · exact ⟨_, rfl⟩
  · simp only []
    split
    · exact ⟨_, rfl⟩
    · split <;> exact ⟨_, rfl⟩

/-- A scalar instruction has its effect in the state with the convoy settled. -/
theorem State.begun_scalar (s : State) (hd : Hdr) (hu : hd.unit = none) : s.begun hd = s.checked hd.serial hd.reads := by
  unfold State.begun State.checked State.upd
  beta_reduce
  rw [Hdr.starts_scalar hd _ hu, Hdr.convoy_scalar hd s.hart hu]

/-- A scalar instruction that always retires. -/
theorem scalarOp_next (hd : Hdr) (f : State → State) (s : State) (hu : hd.unit = none) (hl : hd.body = none) (hc : hd.check s = none)
    (hb : hd.badSource s.hart = none) :
    scalarOp hd f s = .next { f (s.checked hd.serial hd.reads) with
      hart := (f (s.checked hd.serial hd.reads)).hart.past ((f (s.checked hd.serial hd.reads)).hart.pc + 4) (f (s.checked hd.serial hd.reads)).hart.convoy } := by
  unfold scalarOp
  rw [runInstr_passes hd s _ hc hb]
  rw [State.begun_scalar s hd hu]
  simp only [Hdr.finish, hu, Hdr.len, hl, Option.isSome_none, Bool.false_eq_true, if_false]
  rfl

/-- A scalar instruction that writes one register and nothing else. -/
theorem scalarReg_next (hd : Hdr) (d : Reg5) (f : Hart → Word) (s : State) (hu : hd.unit = none) (hl : hd.body = none) (hc : hd.check s = none)
    (hb : hd.badSource s.hart = none) :
    scalarReg hd d f s = .next (s.wrote hd.serial hd.reads d (f (s.checked hd.serial hd.reads).hart)) := by
  unfold scalarReg
  rw [scalarOp_next hd _ s hu hl hc hb]
  unfold State.wrote State.ps State.upd
  simp only [Hart.ps_past, Hart.ps_pc, Hart.ps_convoy]
  rfl

theorem aluOp_next (w : IWord) (d a b : Reg5) (f : Word → Word → Word) (s : State) (hs : s.hart.sound = true) :
    aluOp w d a b f s = .next (s.wrote false [a, b] d (f (s.gs a) (s.gs b))) :=
  scalarReg_next _ d _ s rfl rfl (Hdr.check_scalar _ s rfl rfl rfl rfl rfl) (Hdr.badSource_sound _ _ hs)

theorem immOp_next (w : IWord) (d a : Reg5) (i : BitVec 16) (f : Word → Word → Word) (s : State) (hs : s.hart.sound = true) :
    immOp w d a i f s = .next (s.wrote false [a] d (f (s.gs a) (i.signExtend 64))) :=
  scalarReg_next _ d _ s rfl rfl (Hdr.check_scalar _ s rfl rfl rfl rfl rfl) (Hdr.badSource_sound _ _ hs)

theorem shiftOp_next (w : IWord) (d a : Reg5) (n : BitVec 6) (f : Word → Nat → Word) (s : State) (hs : s.hart.sound = true) :
    shiftOp w d a n f s = .next (s.wrote false [a] d (f (s.gs a) n.toNat)) :=
  scalarReg_next _ d _ s rfl rfl (Hdr.check_scalar _ s rfl rfl rfl rfl rfl) (Hdr.badSource_sound _ _ hs)

theorem bitOp_next (w : IWord) (d a : Reg5) (f : Word → Word) (s : State) (hs : s.hart.sound = true) : bitOp w d a f s = .next (s.wrote false [a] d (f (s.gs a))) :=
  scalarReg_next _ d _ s rfl rfl (Hdr.check_scalar _ s rfl rfl rfl rfl rfl) (Hdr.badSource_sound _ _ hs)

theorem branchOp_next (w : IWord) (a b : Reg5) (o : BitVec 16) (f : Word → Word → Bool) (s : State) (hs : s.hart.sound = true) :
    branchOp w a b o f s =
      .next { s with hart := s.hart.past (if f (s.gs a) (s.gs b) then target s.hart.pc o else s.hart.pc + 4) (s.hart.convoyPast false [a, b]) } := by
  unfold branchOp
  rw [runInstr_passes _ s _ (Hdr.check_scalar _ s rfl rfl rfl rfl rfl) (Hdr.badSource_sound _ _ hs)]
  rw [State.begun_scalar s _ rfl]
  show Host.Outcome.next (Hdr.finish _ _ (if f (s.gs a) (s.gs b) = true then _ else _)) = _
  split <;> rfl

theorem fpOp_next (w : IWord) (reads : List Reg5) (d : Reg5) (f : Hart → Nat × Exc) (s : State)
    (hs : s.hart.sound = true) (hf : ∀ c : Option Convoy, f { s.hart with convoy := c } = f s.hart) :
    fpOp w reads d f s =
      .next { s with hart := { (s.hart.scalarPast false reads).ps d (BitVec.ofNat 64 (f s.hart).1) with fcsr := s.hart.fcsr ||| (f s.hart).2.fcsr } } := by
  unfold fpOp
  rw [scalarOp_next _ _ s rfl rfl (Hdr.check_scalar _ s rfl rfl rfl rfl rfl) (Hdr.badSource_sound _ _ hs)]
  have hh : f (s.checked false reads).hart = f s.hart := hf _
  simp only [hh]
  unfold State.ps State.upd Hart.ps
  by_cases hd : d = 0
  · simp only [hd, if_true]; rfl
  · simp only [hd, if_false]; rfl

end Sys2Proof.Machine
end

