-- ==== Sys2Proof/Laws/Late.lean ====
section
/-! SUPPORT. Where no vector instruction stands unexecuted, executing those that stand changes nothing, and an instruction issues as its meaning says. -/

namespace Sys2Proof.Machine

open Sys2Proof

theorem State.catchUp_nil (s : State) (h : s.hart.late = []) : s.catchUp = s := by
  unfold State.catchUp
  rw [h] <;> rfl

/-- No hart has an instruction that stands. -/
theorem State.lagging_nil (s : State) (h : ∀ g ∈ s.allHarts, g.late = []) : s.lagging = [] := by
  unfold State.lagging
  rw [List.filter_eq_nil_iff.mpr (fun g hg => by rw [h g hg]; decide)]
  rfl

theorem State.catchUpAll_nil (s : State) (h : s.lagging = []) : s.catchUpAll = s := by
  unfold State.catchUpAll
  rw [h] <;> rfl

theorem State.lateSome_nil (s : State) (h : s.lagging = []) : s.lateSome = s := by
  unfold State.lateSome
  rw [h]

theorem State.before_nil (s : State) (e : Ev) (h : s.lagging = []) : s.before_ e = s := by
  unfold State.before_
  rw [State.catchUpAll_nil s h, ite_self]

/-- An instruction that may not stand in the queue issues as its meaning says where none stands there. -/
theorem State.issueInstr_plain (s : State) (i : Instr) (ws : List IWord) (h : s.hart.late = []) (hm : mayStand ws true = false) : s.issueInstr i ws = exec i s := by
  unfold State.issueInstr
  rw [h]
  simp only [List.isEmpty_nil, hm, Bool.false_eq_true, if_false, if_true]

/-- One that may stand is executed in the state after the draw that says whether it does, or stands there with what that came to. -/
theorem State.issueInstr_late (s : State) (i : Instr) (ws : List IWord) (h : s.hart.late = []) (hm : mayStand ws true = true) :
    s.issueInstr i ws = exec i s.took ∨ ∃ t, exec i s.took = .next t ∧ s.issueInstr i ws = .next (s.took.stood t ws) := by
  unfold State.issueInstr
  rw [h]
  simp only [List.isEmpty_nil, hm, if_true]
  cases hx : exec i s.took with
  | next t =>
    dsimp only
    split
    · exact .inr ⟨t, rfl, rfl⟩
    · exact .inl rfl
  | fault f => exact .inl rfl
  | refused r => exact .inl rfl

end Sys2Proof.Machine
end

