-- ==== Sys2Proof/Laws/PerInstr.lean ====
section
/-! SUPPORT. For every instruction as syntax, one lemma for each constructor of the opcode table (R7): its length in words. -/

namespace Sys2Proof.Laws.EncodingLength

open Sys2Proof

/-- An instruction is one word, or two: a tile prefix and its body (R7). Events have no word. -/
def Statement (i : Instr) : Prop := Machine.isEvent i = false → ((encodeBody i).isSome = true ↔ (encode i).length = 2) ∧ ((encodeBody i).isSome = false ↔ (encode i).length = 1)

theorem add (d : BitVec 5) (a : BitVec 5) (b : BitVec 5) : Statement (.add d a b) := fun _ => ⟨⟨fun h => Bool.noConfusion h, fun h => absurd h (by decide : ¬(1 = 2))⟩, ⟨fun _ => rfl, fun _ => rfl⟩⟩
theorem sub (d : BitVec 5) (a : BitVec 5) (b : BitVec 5) : Statement (.sub d a b) := fun _ => ⟨⟨fun h => Bool.noConfusion h, fun h => absurd h (by decide : ¬(1 = 2))⟩, ⟨fun _ => rfl, fun _ => rfl⟩⟩
theorem and (d : BitVec 5) (a : BitVec 5) (b : BitVec 5) : Statement (.and d a b) := fun _ => ⟨⟨fun h => Bool.noConfusion h, fun h => absurd h (by decide : ¬(1 = 2))⟩, ⟨fun _ => rfl, fun _ => rfl⟩⟩
theorem or (d : BitVec 5) (a : BitVec 5) (b : BitVec 5) : Statement (.or d a b) := fun _ => ⟨⟨fun h => Bool.noConfusion h, fun h => absurd h (by decide : ¬(1 = 2))⟩, ⟨fun _ => rfl, fun _ => rfl⟩⟩
theorem xor (d : BitVec 5) (a : BitVec 5) (b : BitVec 5) : Statement (.xor d a b) := fun _ => ⟨⟨fun h => Bool.noConfusion h, fun h => absurd h (by decide : ¬(1 = 2))⟩, ⟨fun _ => rfl, fun _ => rfl⟩⟩
theorem andn (d : BitVec 5) (a : BitVec 5) (b : BitVec 5) : Statement (.andn d a b) := fun _ => ⟨⟨fun h => Bool.noConfusion h, fun h => absurd h (by decide : ¬(1 = 2))⟩, ⟨fun _ => rfl, fun _ => rfl⟩⟩
theorem sll (d : BitVec 5) (a : BitVec 5) (b : BitVec 5) : Statement (.sll d a b) := fun _ => ⟨⟨fun h => Bool.noConfusion h, fun h => absurd h (by decide : ¬(1 = 2))⟩, ⟨fun _ => rfl, fun _ => rfl⟩⟩
theorem srl (d : BitVec 5) (a : BitVec 5) (b : BitVec 5) : Statement (.srl d a b) := fun _ => ⟨⟨fun h => Bool.noConfusion h, fun h => absurd h (by decide : ¬(1 = 2))⟩, ⟨fun _ => rfl, fun _ => rfl⟩⟩
theorem sra (d : BitVec 5) (a : BitVec 5) (b : BitVec 5) : Statement (.sra d a b) := fun _ => ⟨⟨fun h => Bool.noConfusion h, fun h => absurd h (by decide : ¬(1 = 2))⟩, ⟨fun _ => rfl, fun _ => rfl⟩⟩
theorem slt (d : BitVec 5) (a : BitVec 5) (b : BitVec 5) : Statement (.slt d a b) := fun _ => ⟨⟨fun h => Bool.noConfusion h, fun h => absurd h (by decide : ¬(1 = 2))⟩, ⟨fun _ => rfl, fun _ => rfl⟩⟩
theorem sltu (d : BitVec 5) (a : BitVec 5) (b : BitVec 5) : Statement (.sltu d a b) := fun _ => ⟨⟨fun h => Bool.noConfusion h, fun h => absurd h (by decide : ¬(1 = 2))⟩, ⟨fun _ => rfl, fun _ => rfl⟩⟩
theorem min (d : BitVec 5) (a : BitVec 5) (b : BitVec 5) : Statement (.min d a b) := fun _ => ⟨⟨fun h => Bool.noConfusion h, fun h => absurd h (by decide : ¬(1 = 2))⟩, ⟨fun _ => rfl, fun _ => rfl⟩⟩
theorem max (d : BitVec 5) (a : BitVec 5) (b : BitVec 5) : Statement (.max d a b) := fun _ => ⟨⟨fun h => Bool.noConfusion h, fun h => absurd h (by decide : ¬(1 = 2))⟩, ⟨fun _ => rfl, fun _ => rfl⟩⟩
theorem minu (d : BitVec 5) (a : BitVec 5) (b : BitVec 5) : Statement (.minu d a b) := fun _ => ⟨⟨fun h => Bool.noConfusion h, fun h => absurd h (by decide : ¬(1 = 2))⟩, ⟨fun _ => rfl, fun _ => rfl⟩⟩
theorem maxu (d : BitVec 5) (a : BitVec 5) (b : BitVec 5) : Statement (.maxu d a b) := fun _ => ⟨⟨fun h => Bool.noConfusion h, fun h => absurd h (by decide : ¬(1 = 2))⟩, ⟨fun _ => rfl, fun _ => rfl⟩⟩
theorem adds (d : BitVec 5) (a : BitVec 5) (b : BitVec 5) (h : BitVec 3) : Statement (.adds d a b h) := fun _ => ⟨⟨fun h => Bool.noConfusion h, fun h => absurd h (by decide : ¬(1 = 2))⟩, ⟨fun _ => rfl, fun _ => rfl⟩⟩
theorem addi (d : BitVec 5) (a : BitVec 5) (i : BitVec 16) : Statement (.addi d a i) := fun _ => ⟨⟨fun h => Bool.noConfusion h, fun h => absurd h (by decide : ¬(1 = 2))⟩, ⟨fun _ => rfl, fun _ => rfl⟩⟩
theorem andi (d : BitVec 5) (a : BitVec 5) (i : BitVec 16) : Statement (.andi d a i) := fun _ => ⟨⟨fun h => Bool.noConfusion h, fun h => absurd h (by decide : ¬(1 = 2))⟩, ⟨fun _ => rfl, fun _ => rfl⟩⟩
theorem ori (d : BitVec 5) (a : BitVec 5) (i : BitVec 16) : Statement (.ori d a i) := fun _ => ⟨⟨fun h => Bool.noConfusion h, fun h => absurd h (by decide : ¬(1 = 2))⟩, ⟨fun _ => rfl, fun _ => rfl⟩⟩
theorem xori (d : BitVec 5) (a : BitVec 5) (i : BitVec 16) : Statement (.xori d a i) := fun _ => ⟨⟨fun h => Bool.noConfusion h, fun h => absurd h (by decide : ¬(1 = 2))⟩, ⟨fun _ => rfl, fun _ => rfl⟩⟩
theorem slti (d : BitVec 5) (a : BitVec 5) (i : BitVec 16) : Statement (.slti d a i) := fun _ => ⟨⟨fun h => Bool.noConfusion h, fun h => absurd h (by decide : ¬(1 = 2))⟩, ⟨fun _ => rfl, fun _ => rfl⟩⟩
theorem sltiu (d : BitVec 5) (a : BitVec 5) (i : BitVec 16) : Statement (.sltiu d a i) := fun _ => ⟨⟨fun h => Bool.noConfusion h, fun h => absurd h (by decide : ¬(1 = 2))⟩, ⟨fun _ => rfl, fun _ => rfl⟩⟩
theorem slli (d : BitVec 5) (a : BitVec 5) (h : BitVec 6) : Statement (.slli d a h) := fun _ => ⟨⟨fun h => Bool.noConfusion h, fun h => absurd h (by decide : ¬(1 = 2))⟩, ⟨fun _ => rfl, fun _ => rfl⟩⟩
theorem srli (d : BitVec 5) (a : BitVec 5) (h : BitVec 6) : Statement (.srli d a h) := fun _ => ⟨⟨fun h => Bool.noConfusion h, fun h => absurd h (by decide : ¬(1 = 2))⟩, ⟨fun _ => rfl, fun _ => rfl⟩⟩
theorem srai (d : BitVec 5) (a : BitVec 5) (h : BitVec 6) : Statement (.srai d a h) := fun _ => ⟨⟨fun h => Bool.noConfusion h, fun h => absurd h (by decide : ¬(1 = 2))⟩, ⟨fun _ => rfl, fun _ => rfl⟩⟩
theorem lhi (d : BitVec 5) (i : BitVec 21) : Statement (.lhi d i) := fun _ => ⟨⟨fun h => Bool.noConfusion h, fun h => absurd h (by decide : ¬(1 = 2))⟩, ⟨fun _ => rfl, fun _ => rfl⟩⟩
theorem apc (d : BitVec 5) (i : BitVec 21) : Statement (.apc d i) := fun _ => ⟨⟨fun h => Bool.noConfusion h, fun h => absurd h (by decide : ¬(1 = 2))⟩, ⟨fun _ => rfl, fun _ => rfl⟩⟩
theorem mul (d : BitVec 5) (a : BitVec 5) (b : BitVec 5) : Statement (.mul d a b) := fun _ => ⟨⟨fun h => Bool.noConfusion h, fun h => absurd h (by decide : ¬(1 = 2))⟩, ⟨fun _ => rfl, fun _ => rfl⟩⟩
theorem mulh (d : BitVec 5) (a : BitVec 5) (b : BitVec 5) : Statement (.mulh d a b) := fun _ => ⟨⟨fun h => Bool.noConfusion h, fun h => absurd h (by decide : ¬(1 = 2))⟩, ⟨fun _ => rfl, fun _ => rfl⟩⟩
theorem mulhu (d : BitVec 5) (a : BitVec 5) (b : BitVec 5) : Statement (.mulhu d a b) := fun _ => ⟨⟨fun h => Bool.noConfusion h, fun h => absurd h (by decide : ¬(1 = 2))⟩, ⟨fun _ => rfl, fun _ => rfl⟩⟩
theorem mulhsu (d : BitVec 5) (a : BitVec 5) (b : BitVec 5) : Statement (.mulhsu d a b) := fun _ => ⟨⟨fun h => Bool.noConfusion h, fun h => absurd h (by decide : ¬(1 = 2))⟩, ⟨fun _ => rfl, fun _ => rfl⟩⟩
theorem div (d : BitVec 5) (a : BitVec 5) (b : BitVec 5) : Statement (.div d a b) := fun _ => ⟨⟨fun h => Bool.noConfusion h, fun h => absurd h (by decide : ¬(1 = 2))⟩, ⟨fun _ => rfl, fun _ => rfl⟩⟩
theorem divu (d : BitVec 5) (a : BitVec 5) (b : BitVec 5) : Statement (.divu d a b) := fun _ => ⟨⟨fun h => Bool.noConfusion h, fun h => absurd h (by decide : ¬(1 = 2))⟩, ⟨fun _ => rfl, fun _ => rfl⟩⟩
theorem rem (d : BitVec 5) (a : BitVec 5) (b : BitVec 5) : Statement (.rem d a b) := fun _ => ⟨⟨fun h => Bool.noConfusion h, fun h => absurd h (by decide : ¬(1 = 2))⟩, ⟨fun _ => rfl, fun _ => rfl⟩⟩
theorem remu (d : BitVec 5) (a : BitVec 5) (b : BitVec 5) : Statement (.remu d a b) := fun _ => ⟨⟨fun h => Bool.noConfusion h, fun h => absurd h (by decide : ¬(1 = 2))⟩, ⟨fun _ => rfl, fun _ => rfl⟩⟩
theorem clz (d : BitVec 5) (a : BitVec 5) : Statement (.clz d a) := fun _ => ⟨⟨fun h => Bool.noConfusion h, fun h => absurd h (by decide : ¬(1 = 2))⟩, ⟨fun _ => rfl, fun _ => rfl⟩⟩
theorem ctz (d : BitVec 5) (a : BitVec 5) : Statement (.ctz d a) := fun _ => ⟨⟨fun h => Bool.noConfusion h, fun h => absurd h (by decide : ¬(1 = 2))⟩, ⟨fun _ => rfl, fun _ => rfl⟩⟩
theorem pop (d : BitVec 5) (a : BitVec 5) : Statement (.pop d a) := fun _ => ⟨⟨fun h => Bool.noConfusion h, fun h => absurd h (by decide : ¬(1 = 2))⟩, ⟨fun _ => rfl, fun _ => rfl⟩⟩
theorem rev8 (d : BitVec 5) (a : BitVec 5) : Statement (.rev8 d a) := fun _ => ⟨⟨fun h => Bool.noConfusion h, fun h => absurd h (by decide : ¬(1 = 2))⟩, ⟨fun _ => rfl, fun _ => rfl⟩⟩
theorem sextb (d : BitVec 5) (a : BitVec 5) : Statement (.sextb d a) := fun _ => ⟨⟨fun h => Bool.noConfusion h, fun h => absurd h (by decide : ¬(1 = 2))⟩, ⟨fun _ => rfl, fun _ => rfl⟩⟩
theorem sexth (d : BitVec 5) (a : BitVec 5) : Statement (.sexth d a) := fun _ => ⟨⟨fun h => Bool.noConfusion h, fun h => absurd h (by decide : ¬(1 = 2))⟩, ⟨fun _ => rfl, fun _ => rfl⟩⟩
theorem sextw (d : BitVec 5) (a : BitVec 5) : Statement (.sextw d a) := fun _ => ⟨⟨fun h => Bool.noConfusion h, fun h => absurd h (by decide : ¬(1 = 2))⟩, ⟨fun _ => rfl, fun _ => rfl⟩⟩
theorem zextw (d : BitVec 5) (a : BitVec 5) : Statement (.zextw d a) := fun _ => ⟨⟨fun h => Bool.noConfusion h, fun h => absurd h (by decide : ¬(1 = 2))⟩, ⟨fun _ => rfl, fun _ => rfl⟩⟩
theorem ldB (d : BitVec 5) (a : BitVec 5) (o : BitVec 13) : Statement (.ldB d a o) := fun _ => ⟨⟨fun h => Bool.noConfusion h, fun h => absurd h (by decide : ¬(1 = 2))⟩, ⟨fun _ => rfl, fun _ => rfl⟩⟩
theorem ldH (d : BitVec 5) (a : BitVec 5) (o : BitVec 13) : Statement (.ldH d a o) := fun _ => ⟨⟨fun h => Bool.noConfusion h, fun h => absurd h (by decide : ¬(1 = 2))⟩, ⟨fun _ => rfl, fun _ => rfl⟩⟩
theorem ldW (d : BitVec 5) (a : BitVec 5) (o : BitVec 13) : Statement (.ldW d a o) := fun _ => ⟨⟨fun h => Bool.noConfusion h, fun h => absurd h (by decide : ¬(1 = 2))⟩, ⟨fun _ => rfl, fun _ => rfl⟩⟩
theorem ldD (d : BitVec 5) (a : BitVec 5) (o : BitVec 13) : Statement (.ldD d a o) := fun _ => ⟨⟨fun h => Bool.noConfusion h, fun h => absurd h (by decide : ¬(1 = 2))⟩, ⟨fun _ => rfl, fun _ => rfl⟩⟩
theorem ldBu (d : BitVec 5) (a : BitVec 5) (o : BitVec 13) : Statement (.ldBu d a o) := fun _ => ⟨⟨fun h => Bool.noConfusion h, fun h => absurd h (by decide : ¬(1 = 2))⟩, ⟨fun _ => rfl, fun _ => rfl⟩⟩
theorem ldHu (d : BitVec 5) (a : BitVec 5) (o : BitVec 13) : Statement (.ldHu d a o) := fun _ => ⟨⟨fun h => Bool.noConfusion h, fun h => absurd h (by decide : ¬(1 = 2))⟩, ⟨fun _ => rfl, fun _ => rfl⟩⟩
theorem ldWu (d : BitVec 5) (a : BitVec 5) (o : BitVec 13) : Statement (.ldWu d a o) := fun _ => ⟨⟨fun h => Bool.noConfusion h, fun h => absurd h (by decide : ¬(1 = 2))⟩, ⟨fun _ => rfl, fun _ => rfl⟩⟩
theorem stB (v : BitVec 5) (a : BitVec 5) (o : BitVec 13) : Statement (.stB v a o) := fun _ => ⟨⟨fun h => Bool.noConfusion h, fun h => absurd h (by decide : ¬(1 = 2))⟩, ⟨fun _ => rfl, fun _ => rfl⟩⟩
theorem stH (v : BitVec 5) (a : BitVec 5) (o : BitVec 13) : Statement (.stH v a o) := fun _ => ⟨⟨fun h => Bool.noConfusion h, fun h => absurd h (by decide : ¬(1 = 2))⟩, ⟨fun _ => rfl, fun _ => rfl⟩⟩
theorem stW (v : BitVec 5) (a : BitVec 5) (o : BitVec 13) : Statement (.stW v a o) := fun _ => ⟨⟨fun h => Bool.noConfusion h, fun h => absurd h (by decide : ¬(1 = 2))⟩, ⟨fun _ => rfl, fun _ => rfl⟩⟩
theorem stD (v : BitVec 5) (a : BitVec 5) (o : BitVec 13) : Statement (.stD v a o) := fun _ => ⟨⟨fun h => Bool.noConfusion h, fun h => absurd h (by decide : ¬(1 = 2))⟩, ⟨fun _ => rfl, fun _ => rfl⟩⟩
theorem ldcB (d : BitVec 5) (a : BitVec 5) (o : BitVec 13) : Statement (.ldcB d a o) := fun _ => ⟨⟨fun h => Bool.noConfusion h, fun h => absurd h (by decide : ¬(1 = 2))⟩, ⟨fun _ => rfl, fun _ => rfl⟩⟩
theorem ldcH (d : BitVec 5) (a : BitVec 5) (o : BitVec 13) : Statement (.ldcH d a o) := fun _ => ⟨⟨fun h => Bool.noConfusion h, fun h => absurd h (by decide : ¬(1 = 2))⟩, ⟨fun _ => rfl, fun _ => rfl⟩⟩
theorem ldcW (d : BitVec 5) (a : BitVec 5) (o : BitVec 13) : Statement (.ldcW d a o) := fun _ => ⟨⟨fun h => Bool.noConfusion h, fun h => absurd h (by decide : ¬(1 = 2))⟩, ⟨fun _ => rfl, fun _ => rfl⟩⟩
theorem ldcD (d : BitVec 5) (a : BitVec 5) (o : BitVec 13) : Statement (.ldcD d a o) := fun _ => ⟨⟨fun h => Bool.noConfusion h, fun h => absurd h (by decide : ¬(1 = 2))⟩, ⟨fun _ => rfl, fun _ => rfl⟩⟩
theorem ldcBu (d : BitVec 5) (a : BitVec 5) (o : BitVec 13) : Statement (.ldcBu d a o) := fun _ => ⟨⟨fun h => Bool.noConfusion h, fun h => absurd h (by decide : ¬(1 = 2))⟩, ⟨fun _ => rfl, fun _ => rfl⟩⟩
theorem ldcHu (d : BitVec 5) (a : BitVec 5) (o : BitVec 13) : Statement (.ldcHu d a o) := fun _ => ⟨⟨fun h => Bool.noConfusion h, fun h => absurd h (by decide : ¬(1 = 2))⟩, ⟨fun _ => rfl, fun _ => rfl⟩⟩
theorem ldcWu (d : BitVec 5) (a : BitVec 5) (o : BitVec 13) : Statement (.ldcWu d a o) := fun _ => ⟨⟨fun h => Bool.noConfusion h, fun h => absurd h (by decide : ¬(1 = 2))⟩, ⟨fun _ => rfl, fun _ => rfl⟩⟩
theorem amoSwp (d : BitVec 5) (a : BitVec 5) (b : BitVec 5) (w : BitVec 2) (sc : BitVec 3) (o : BitVec 2) : Statement (.amoSwp d a b w sc o) := fun _ => ⟨⟨fun h => Bool.noConfusion h, fun h => absurd h (by decide : ¬(1 = 2))⟩, ⟨fun _ => rfl, fun _ => rfl⟩⟩
theorem amoAdd (d : BitVec 5) (a : BitVec 5) (b : BitVec 5) (w : BitVec 2) (sc : BitVec 3) (o : BitVec 2) : Statement (.amoAdd d a b w sc o) := fun _ => ⟨⟨fun h => Bool.noConfusion h, fun h => absurd h (by decide : ¬(1 = 2))⟩, ⟨fun _ => rfl, fun _ => rfl⟩⟩
theorem amoAnd (d : BitVec 5) (a : BitVec 5) (b : BitVec 5) (w : BitVec 2) (sc : BitVec 3) (o : BitVec 2) : Statement (.amoAnd d a b w sc o) := fun _ => ⟨⟨fun h => Bool.noConfusion h, fun h => absurd h (by decide : ¬(1 = 2))⟩, ⟨fun _ => rfl, fun _ => rfl⟩⟩
theorem amoOr (d : BitVec 5) (a : BitVec 5) (b : BitVec 5) (w : BitVec 2) (sc : BitVec 3) (o : BitVec 2) : Statement (.amoOr d a b w sc o) := fun _ => ⟨⟨fun h => Bool.noConfusion h, fun h => absurd h (by decide : ¬(1 = 2))⟩, ⟨fun _ => rfl, fun _ => rfl⟩⟩
theorem amoXor (d : BitVec 5) (a : BitVec 5) (b : BitVec 5) (w : BitVec 2) (sc : BitVec 3) (o : BitVec 2) : Statement (.amoXor d a b w sc o) := fun _ => ⟨⟨fun h => Bool.noConfusion h, fun h => absurd h (by decide : ¬(1 = 2))⟩, ⟨fun _ => rfl, fun _ => rfl⟩⟩
theorem amoMin (d : BitVec 5) (a : BitVec 5) (b : BitVec 5) (w : BitVec 2) (sc : BitVec 3) (o : BitVec 2) : Statement (.amoMin d a b w sc o) := fun _ => ⟨⟨fun h => Bool.noConfusion h, fun h => absurd h (by decide : ¬(1 = 2))⟩, ⟨fun _ => rfl, fun _ => rfl⟩⟩
theorem amoMax (d : BitVec 5) (a : BitVec 5) (b : BitVec 5) (w : BitVec 2) (sc : BitVec 3) (o : BitVec 2) : Statement (.amoMax d a b w sc o) := fun _ => ⟨⟨fun h => Bool.noConfusion h, fun h => absurd h (by decide : ¬(1 = 2))⟩, ⟨fun _ => rfl, fun _ => rfl⟩⟩
theorem amoMinu (d : BitVec 5) (a : BitVec 5) (b : BitVec 5) (w : BitVec 2) (sc : BitVec 3) (o : BitVec 2) : Statement (.amoMinu d a b w sc o) := fun _ => ⟨⟨fun h => Bool.noConfusion h, fun h => absurd h (by decide : ¬(1 = 2))⟩, ⟨fun _ => rfl, fun _ => rfl⟩⟩
theorem amoMaxu (d : BitVec 5) (a : BitVec 5) (b : BitVec 5) (w : BitVec 2) (sc : BitVec 3) (o : BitVec 2) : Statement (.amoMaxu d a b w sc o) := fun _ => ⟨⟨fun h => Bool.noConfusion h, fun h => absurd h (by decide : ¬(1 = 2))⟩, ⟨fun _ => rfl, fun _ => rfl⟩⟩
theorem amoCas (d : BitVec 5) (a : BitVec 5) (b : BitVec 5) (w : BitVec 2) (sc : BitVec 3) (o : BitVec 2) : Statement (.amoCas d a b w sc o) := fun _ => ⟨⟨fun h => Bool.noConfusion h, fun h => absurd h (by decide : ¬(1 = 2))⟩, ⟨fun _ => rfl, fun _ => rfl⟩⟩
theorem beq (a : BitVec 5) (b : BitVec 5) (o : BitVec 16) : Statement (.beq a b o) := fun _ => ⟨⟨fun h => Bool.noConfusion h, fun h => absurd h (by decide : ¬(1 = 2))⟩, ⟨fun _ => rfl, fun _ => rfl⟩⟩
theorem bne (a : BitVec 5) (b : BitVec 5) (o : BitVec 16) : Statement (.bne a b o) := fun _ => ⟨⟨fun h => Bool.noConfusion h, fun h => absurd h (by decide : ¬(1 = 2))⟩, ⟨fun _ => rfl, fun _ => rfl⟩⟩
theorem blt (a : BitVec 5) (b : BitVec 5) (o : BitVec 16) : Statement (.blt a b o) := fun _ => ⟨⟨fun h => Bool.noConfusion h, fun h => absurd h (by decide : ¬(1 = 2))⟩, ⟨fun _ => rfl, fun _ => rfl⟩⟩
theorem bge (a : BitVec 5) (b : BitVec 5) (o : BitVec 16) : Statement (.bge a b o) := fun _ => ⟨⟨fun h => Bool.noConfusion h, fun h => absurd h (by decide : ¬(1 = 2))⟩, ⟨fun _ => rfl, fun _ => rfl⟩⟩
theorem bltu (a : BitVec 5) (b : BitVec 5) (o : BitVec 16) : Statement (.bltu a b o) := fun _ => ⟨⟨fun h => Bool.noConfusion h, fun h => absurd h (by decide : ¬(1 = 2))⟩, ⟨fun _ => rfl, fun _ => rfl⟩⟩
theorem bgeu (a : BitVec 5) (b : BitVec 5) (o : BitVec 16) : Statement (.bgeu a b o) := fun _ => ⟨⟨fun h => Bool.noConfusion h, fun h => absurd h (by decide : ¬(1 = 2))⟩, ⟨fun _ => rfl, fun _ => rfl⟩⟩
theorem jal (d : BitVec 5) (i : BitVec 21) : Statement (.jal d i) := fun _ => ⟨⟨fun h => Bool.noConfusion h, fun h => absurd h (by decide : ¬(1 = 2))⟩, ⟨fun _ => rfl, fun _ => rfl⟩⟩
theorem jalr (d : BitVec 5) (a : BitVec 5) (i : BitVec 16) : Statement (.jalr d a i) := fun _ => ⟨⟨fun h => Bool.noConfusion h, fun h => absurd h (by decide : ¬(1 = 2))⟩, ⟨fun _ => rfl, fun _ => rfl⟩⟩
theorem vloop (a : BitVec 5) (o : BitVec 16) : Statement (.vloop a o) := fun _ => ⟨⟨fun h => Bool.noConfusion h, fun h => absurd h (by decide : ¬(1 = 2))⟩, ⟨fun _ => rfl, fun _ => rfl⟩⟩
theorem fadd (d : BitVec 5) (a : BitVec 5) (b : BitVec 5) (r : BitVec 3) : Statement (.fadd d a b r) := fun _ => ⟨⟨fun h => Bool.noConfusion h, fun h => absurd h (by decide : ¬(1 = 2))⟩, ⟨fun _ => rfl, fun _ => rfl⟩⟩
theorem fsub (d : BitVec 5) (a : BitVec 5) (b : BitVec 5) (r : BitVec 3) : Statement (.fsub d a b r) := fun _ => ⟨⟨fun h => Bool.noConfusion h, fun h => absurd h (by decide : ¬(1 = 2))⟩, ⟨fun _ => rfl, fun _ => rfl⟩⟩
theorem fmul (d : BitVec 5) (a : BitVec 5) (b : BitVec 5) (r : BitVec 3) : Statement (.fmul d a b r) := fun _ => ⟨⟨fun h => Bool.noConfusion h, fun h => absurd h (by decide : ¬(1 = 2))⟩, ⟨fun _ => rfl, fun _ => rfl⟩⟩
theorem fdiv (d : BitVec 5) (a : BitVec 5) (b : BitVec 5) (r : BitVec 3) : Statement (.fdiv d a b r) := fun _ => ⟨⟨fun h => Bool.noConfusion h, fun h => absurd h (by decide : ¬(1 = 2))⟩, ⟨fun _ => rfl, fun _ => rfl⟩⟩
theorem fsqrt (d : BitVec 5) (a : BitVec 5) (r : BitVec 3) : Statement (.fsqrt d a r) := fun _ => ⟨⟨fun h => Bool.noConfusion h, fun h => absurd h (by decide : ¬(1 = 2))⟩, ⟨fun _ => rfl, fun _ => rfl⟩⟩
theorem fma (d : BitVec 5) (a : BitVec 5) (b : BitVec 5) (r : BitVec 3) : Statement (.fma d a b r) := fun _ => ⟨⟨fun h => Bool.noConfusion h, fun h => absurd h (by decide : ¬(1 = 2))⟩, ⟨fun _ => rfl, fun _ => rfl⟩⟩
theorem fmin (d : BitVec 5) (a : BitVec 5) (b : BitVec 5) (r : BitVec 3) : Statement (.fmin d a b r) := fun _ => ⟨⟨fun h => Bool.noConfusion h, fun h => absurd h (by decide : ¬(1 = 2))⟩, ⟨fun _ => rfl, fun _ => rfl⟩⟩
theorem fmax (d : BitVec 5) (a : BitVec 5) (b : BitVec 5) (r : BitVec 3) : Statement (.fmax d a b r) := fun _ => ⟨⟨fun h => Bool.noConfusion h, fun h => absurd h (by decide : ¬(1 = 2))⟩, ⟨fun _ => rfl, fun _ => rfl⟩⟩
theorem feq (d : BitVec 5) (a : BitVec 5) (b : BitVec 5) (r : BitVec 3) : Statement (.feq d a b r) := fun _ => ⟨⟨fun h => Bool.noConfusion h, fun h => absurd h (by decide : ¬(1 = 2))⟩, ⟨fun _ => rfl, fun _ => rfl⟩⟩
theorem flt (d : BitVec 5) (a : BitVec 5) (b : BitVec 5) (r : BitVec 3) : Statement (.flt d a b r) := fun _ => ⟨⟨fun h => Bool.noConfusion h, fun h => absurd h (by decide : ¬(1 = 2))⟩, ⟨fun _ => rfl, fun _ => rfl⟩⟩
theorem fle (d : BitVec 5) (a : BitVec 5) (b : BitVec 5) (r : BitVec 3) : Statement (.fle d a b r) := fun _ => ⟨⟨fun h => Bool.noConfusion h, fun h => absurd h (by decide : ¬(1 = 2))⟩, ⟨fun _ => rfl, fun _ => rfl⟩⟩
theorem fcvtWS (d : BitVec 5) (a : BitVec 5) (r : BitVec 3) : Statement (.fcvtWS d a r) := fun _ => ⟨⟨fun h => Bool.noConfusion h, fun h => absurd h (by decide : ¬(1 = 2))⟩, ⟨fun _ => rfl, fun _ => rfl⟩⟩
theorem fcvtSW (d : BitVec 5) (a : BitVec 5) (r : BitVec 3) : Statement (.fcvtSW d a r) := fun _ => ⟨⟨fun h => Bool.noConfusion h, fun h => absurd h (by decide : ¬(1 = 2))⟩, ⟨fun _ => rfl, fun _ => rfl⟩⟩
theorem fcvtBfS (d : BitVec 5) (a : BitVec 5) (r : BitVec 3) : Statement (.fcvtBfS d a r) := fun _ => ⟨⟨fun h => Bool.noConfusion h, fun h => absurd h (by decide : ¬(1 = 2))⟩, ⟨fun _ => rfl, fun _ => rfl⟩⟩
theorem fcvtSBf (d : BitVec 5) (a : BitVec 5) (r : BitVec 3) : Statement (.fcvtSBf d a r) := fun _ => ⟨⟨fun h => Bool.noConfusion h, fun h => absurd h (by decide : ¬(1 = 2))⟩, ⟨fun _ => rfl, fun _ => rfl⟩⟩
theorem fln (d : BitVec 5) (a : BitVec 5) (r : BitVec 3) : Statement (.fln d a r) := fun _ => ⟨⟨fun h => Bool.noConfusion h, fun h => absurd h (by decide : ¬(1 = 2))⟩, ⟨fun _ => rfl, fun _ => rfl⟩⟩
theorem fexp (d : BitVec 5) (a : BitVec 5) (r : BitVec 3) : Statement (.fexp d a r) := fun _ => ⟨⟨fun h => Bool.noConfusion h, fun h => absurd h (by decide : ¬(1 = 2))⟩, ⟨fun _ => rfl, fun _ => rfl⟩⟩
theorem sys : Statement .sys := fun _ => ⟨⟨fun h => Bool.noConfusion h, fun h => absurd h (by decide : ¬(1 = 2))⟩, ⟨fun _ => rfl, fun _ => rfl⟩⟩
theorem brk : Statement .brk := fun _ => ⟨⟨fun h => Bool.noConfusion h, fun h => absurd h (by decide : ¬(1 = 2))⟩, ⟨fun _ => rfl, fun _ => rfl⟩⟩
theorem tret : Statement .tret := fun _ => ⟨⟨fun h => Bool.noConfusion h, fun h => absurd h (by decide : ¬(1 = 2))⟩, ⟨fun _ => rfl, fun _ => rfl⟩⟩
theorem wfi : Statement .wfi := fun _ => ⟨⟨fun h => Bool.noConfusion h, fun h => absurd h (by decide : ¬(1 = 2))⟩, ⟨fun _ => rfl, fun _ => rfl⟩⟩
theorem mwait (d : BitVec 5) (a : BitVec 5) (b : BitVec 5) : Statement (.mwait d a b) := fun _ => ⟨⟨fun h => Bool.noConfusion h, fun h => absurd h (by decide : ¬(1 = 2))⟩, ⟨fun _ => rfl, fun _ => rfl⟩⟩
theorem fence (sc : BitVec 3) : Statement (.fence sc) := fun _ => ⟨⟨fun h => Bool.noConfusion h, fun h => absurd h (by decide : ¬(1 = 2))⟩, ⟨fun _ => rfl, fun _ => rfl⟩⟩
theorem fenceSv : Statement .fenceSv := fun _ => ⟨⟨fun h => Bool.noConfusion h, fun h => absurd h (by decide : ¬(1 = 2))⟩, ⟨fun _ => rfl, fun _ => rfl⟩⟩
theorem fenceVs : Statement .fenceVs := fun _ => ⟨⟨fun h => Bool.noConfusion h, fun h => absurd h (by decide : ¬(1 = 2))⟩, ⟨fun _ => rfl, fun _ => rfl⟩⟩
theorem fenceC : Statement .fenceC := fun _ => ⟨⟨fun h => Bool.noConfusion h, fun h => absurd h (by decide : ¬(1 = 2))⟩, ⟨fun _ => rfl, fun _ => rfl⟩⟩
theorem vsetl (d : BitVec 5) (a : BitVec 5) (b : BitVec 5) : Statement (.vsetl d a b) := fun _ => ⟨⟨fun h => Bool.noConfusion h, fun h => absurd h (by decide : ¬(1 = 2))⟩, ⟨fun _ => rfl, fun _ => rfl⟩⟩
theorem vsetli (d : BitVec 5) (a : BitVec 5) (t : BitVec 16) : Statement (.vsetli d a t) := fun _ => ⟨⟨fun h => Bool.noConfusion h, fun h => absurd h (by decide : ¬(1 = 2))⟩, ⟨fun _ => rfl, fun _ => rfl⟩⟩
theorem getc (d : BitVec 5) (c : BitVec 16) : Statement (.getc d c) := fun _ => ⟨⟨fun h => Bool.noConfusion h, fun h => absurd h (by decide : ¬(1 = 2))⟩, ⟨fun _ => rfl, fun _ => rfl⟩⟩
theorem setc (a : BitVec 5) (c : BitVec 16) : Statement (.setc a c) := fun _ => ⟨⟨fun h => Bool.noConfusion h, fun h => absurd h (by decide : ¬(1 = 2))⟩, ⟨fun _ => rfl, fun _ => rfl⟩⟩
theorem tas (d : BitVec 5) (n : BitVec 11) : Statement (.tas d n) := fun _ => ⟨⟨fun h => Bool.noConfusion h, fun h => absurd h (by decide : ¬(1 = 2))⟩, ⟨fun _ => rfl, fun _ => rfl⟩⟩
theorem sclr (n : BitVec 11) : Statement (.sclr n) := fun _ => ⟨⟨fun h => Bool.noConfusion h, fun h => absurd h (by decide : ¬(1 = 2))⟩, ⟨fun _ => rfl, fun _ => rfl⟩⟩
theorem sset (n : BitVec 11) : Statement (.sset n) := fun _ => ⟨⟨fun h => Bool.noConfusion h, fun h => absurd h (by decide : ¬(1 = 2))⟩, ⟨fun _ => rfl, fun _ => rfl⟩⟩
theorem stst (d : BitVec 5) (n : BitVec 11) : Statement (.stst d n) := fun _ => ⟨⟨fun h => Bool.noConfusion h, fun h => absurd h (by decide : ¬(1 = 2))⟩, ⟨fun _ => rfl, fun _ => rfl⟩⟩
theorem cdrd (d : BitVec 5) (n : BitVec 11) : Statement (.cdrd d n) := fun _ => ⟨⟨fun h => Bool.noConfusion h, fun h => absurd h (by decide : ¬(1 = 2))⟩, ⟨fun _ => rfl, fun _ => rfl⟩⟩
theorem cdwr (a : BitVec 5) (n : BitVec 11) : Statement (.cdwr a n) := fun _ => ⟨⟨fun h => Bool.noConfusion h, fun h => absurd h (by decide : ¬(1 = 2))⟩, ⟨fun _ => rfl, fun _ => rfl⟩⟩
theorem gbar (a : BitVec 5) : Statement (.gbar a) := fun _ => ⟨⟨fun h => Bool.noConfusion h, fun h => absurd h (by decide : ¬(1 = 2))⟩, ⟨fun _ => rfl, fun _ => rfl⟩⟩
theorem gbarA (a : BitVec 5) : Statement (.gbarA a) := fun _ => ⟨⟨fun h => Bool.noConfusion h, fun h => absurd h (by decide : ¬(1 = 2))⟩, ⟨fun _ => rfl, fun _ => rfl⟩⟩
theorem gbarW (d : BitVec 5) : Statement (.gbarW d) := fun _ => ⟨⟨fun h => Bool.noConfusion h, fun h => absurd h (by decide : ¬(1 = 2))⟩, ⟨fun _ => rfl, fun _ => rfl⟩⟩
theorem gbarR : Statement .gbarR := fun _ => ⟨⟨fun h => Bool.noConfusion h, fun h => absurd h (by decide : ¬(1 = 2))⟩, ⟨fun _ => rfl, fun _ => rfl⟩⟩
theorem wtake (d : BitVec 5) (a : BitVec 5) : Statement (.wtake d a) := fun _ => ⟨⟨fun h => Bool.noConfusion h, fun h => absurd h (by decide : ¬(1 = 2))⟩, ⟨fun _ => rfl, fun _ => rfl⟩⟩
theorem wput (d : BitVec 5) (a : BitVec 5) (n : BitVec 11) : Statement (.wput d a n) := fun _ => ⟨⟨fun h => Bool.noConfusion h, fun h => absurd h (by decide : ¬(1 = 2))⟩, ⟨fun _ => rfl, fun _ => rfl⟩⟩
theorem vaddVv (d : BitVec 5) (a : BitVec 5) (b : BitVec 5) (m : BitVec 3) (x : BitVec 3) (j : BitVec 1) : Statement (.vaddVv d a b m x j) := fun _ => ⟨⟨fun h => Bool.noConfusion h, fun h => absurd h (by decide : ¬(1 = 2))⟩, ⟨fun _ => rfl, fun _ => rfl⟩⟩
theorem vaddVs (d : BitVec 5) (a : BitVec 5) (b : BitVec 5) (m : BitVec 3) (x : BitVec 3) (j : BitVec 1) : Statement (.vaddVs d a b m x j) := fun _ => ⟨⟨fun h => Bool.noConfusion h, fun h => absurd h (by decide : ¬(1 = 2))⟩, ⟨fun _ => rfl, fun _ => rfl⟩⟩
theorem vaddVi (d : BitVec 5) (a : BitVec 5) (i : BitVec 5) (m : BitVec 3) (x : BitVec 3) (j : BitVec 1) : Statement (.vaddVi d a i m x j) := fun _ => ⟨⟨fun h => Bool.noConfusion h, fun h => absurd h (by decide : ¬(1 = 2))⟩, ⟨fun _ => rfl, fun _ => rfl⟩⟩
theorem vsubVv (d : BitVec 5) (a : BitVec 5) (b : BitVec 5) (m : BitVec 3) (x : BitVec 3) (j : BitVec 1) : Statement (.vsubVv d a b m x j) := fun _ => ⟨⟨fun h => Bool.noConfusion h, fun h => absurd h (by decide : ¬(1 = 2))⟩, ⟨fun _ => rfl, fun _ => rfl⟩⟩
theorem vsubVs (d : BitVec 5) (a : BitVec 5) (b : BitVec 5) (m : BitVec 3) (x : BitVec 3) (j : BitVec 1) : Statement (.vsubVs d a b m x j) := fun _ => ⟨⟨fun h => Bool.noConfusion h, fun h => absurd h (by decide : ¬(1 = 2))⟩, ⟨fun _ => rfl, fun _ => rfl⟩⟩
theorem vsubVi (d : BitVec 5) (a : BitVec 5) (i : BitVec 5) (m : BitVec 3) (x : BitVec 3) (j : BitVec 1) : Statement (.vsubVi d a i m x j) := fun _ => ⟨⟨fun h => Bool.noConfusion h, fun h => absurd h (by decide : ¬(1 = 2))⟩, ⟨fun _ => rfl, fun _ => rfl⟩⟩
theorem vmulVv (d : BitVec 5) (a : BitVec 5) (b : BitVec 5) (m : BitVec 3) (x : BitVec 3) (j : BitVec 1) : Statement (.vmulVv d a b m x j) := fun _ => ⟨⟨fun h => Bool.noConfusion h, fun h => absurd h (by decide : ¬(1 = 2))⟩, ⟨fun _ => rfl, fun _ => rfl⟩⟩
theorem vmulVs (d : BitVec 5) (a : BitVec 5) (b : BitVec 5) (m : BitVec 3) (x : BitVec 3) (j : BitVec 1) : Statement (.vmulVs d a b m x j) := fun _ => ⟨⟨fun h => Bool.noConfusion h, fun h => absurd h (by decide : ¬(1 = 2))⟩, ⟨fun _ => rfl, fun _ => rfl⟩⟩
theorem vmulVi (d : BitVec 5) (a : BitVec 5) (i : BitVec 5) (m : BitVec 3) (x : BitVec 3) (j : BitVec 1) : Statement (.vmulVi d a i m x j) := fun _ => ⟨⟨fun h => Bool.noConfusion h, fun h => absurd h (by decide : ¬(1 = 2))⟩, ⟨fun _ => rfl, fun _ => rfl⟩⟩
theorem vmulhVv (d : BitVec 5) (a : BitVec 5) (b : BitVec 5) (m : BitVec 3) (x : BitVec 3) (j : BitVec 1) : Statement (.vmulhVv d a b m x j) := fun _ => ⟨⟨fun h => Bool.noConfusion h, fun h => absurd h (by decide : ¬(1 = 2))⟩, ⟨fun _ => rfl, fun _ => rfl⟩⟩
theorem vmulhVs (d : BitVec 5) (a : BitVec 5) (b : BitVec 5) (m : BitVec 3) (x : BitVec 3) (j : BitVec 1) : Statement (.vmulhVs d a b m x j) := fun _ => ⟨⟨fun h => Bool.noConfusion h, fun h => absurd h (by decide : ¬(1 = 2))⟩, ⟨fun _ => rfl, fun _ => rfl⟩⟩
theorem vmulhVi (d : BitVec 5) (a : BitVec 5) (i : BitVec 5) (m : BitVec 3) (x : BitVec 3) (j : BitVec 1) : Statement (.vmulhVi d a i m x j) := fun _ => ⟨⟨fun h => Bool.noConfusion h, fun h => absurd h (by decide : ¬(1 = 2))⟩, ⟨fun _ => rfl, fun _ => rfl⟩⟩
theorem vmaccVv (d : BitVec 5) (a : BitVec 5) (b : BitVec 5) (m : BitVec 3) (x : BitVec 3) (j : BitVec 1) : Statement (.vmaccVv d a b m x j) := fun _ => ⟨⟨fun h => Bool.noConfusion h, fun h => absurd h (by decide : ¬(1 = 2))⟩, ⟨fun _ => rfl, fun _ => rfl⟩⟩
theorem vmaccVs (d : BitVec 5) (a : BitVec 5) (b : BitVec 5) (m : BitVec 3) (x : BitVec 3) (j : BitVec 1) : Statement (.vmaccVs d a b m x j) := fun _ => ⟨⟨fun h => Bool.noConfusion h, fun h => absurd h (by decide : ¬(1 = 2))⟩, ⟨fun _ => rfl, fun _ => rfl⟩⟩
theorem vmaccVi (d : BitVec 5) (a : BitVec 5) (i : BitVec 5) (m : BitVec 3) (x : BitVec 3) (j : BitVec 1) : Statement (.vmaccVi d a i m x j) := fun _ => ⟨⟨fun h => Bool.noConfusion h, fun h => absurd h (by decide : ¬(1 = 2))⟩, ⟨fun _ => rfl, fun _ => rfl⟩⟩
theorem vnmsacVv (d : BitVec 5) (a : BitVec 5) (b : BitVec 5) (m : BitVec 3) (x : BitVec 3) (j : BitVec 1) : Statement (.vnmsacVv d a b m x j) := fun _ => ⟨⟨fun h => Bool.noConfusion h, fun h => absurd h (by decide : ¬(1 = 2))⟩, ⟨fun _ => rfl, fun _ => rfl⟩⟩
theorem vnmsacVs (d : BitVec 5) (a : BitVec 5) (b : BitVec 5) (m : BitVec 3) (x : BitVec 3) (j : BitVec 1) : Statement (.vnmsacVs d a b m x j) := fun _ => ⟨⟨fun h => Bool.noConfusion h, fun h => absurd h (by decide : ¬(1 = 2))⟩, ⟨fun _ => rfl, fun _ => rfl⟩⟩
theorem vnmsacVi (d : BitVec 5) (a : BitVec 5) (i : BitVec 5) (m : BitVec 3) (x : BitVec 3) (j : BitVec 1) : Statement (.vnmsacVi d a i m x j) := fun _ => ⟨⟨fun h => Bool.noConfusion h, fun h => absurd h (by decide : ¬(1 = 2))⟩, ⟨fun _ => rfl, fun _ => rfl⟩⟩
theorem vminVv (d : BitVec 5) (a : BitVec 5) (b : BitVec 5) (m : BitVec 3) (x : BitVec 3) (j : BitVec 1) : Statement (.vminVv d a b m x j) := fun _ => ⟨⟨fun h => Bool.noConfusion h, fun h => absurd h (by decide : ¬(1 = 2))⟩, ⟨fun _ => rfl, fun _ => rfl⟩⟩
theorem vminVs (d : BitVec 5) (a : BitVec 5) (b : BitVec 5) (m : BitVec 3) (x : BitVec 3) (j : BitVec 1) : Statement (.vminVs d a b m x j) := fun _ => ⟨⟨fun h => Bool.noConfusion h, fun h => absurd h (by decide : ¬(1 = 2))⟩, ⟨fun _ => rfl, fun _ => rfl⟩⟩
theorem vminVi (d : BitVec 5) (a : BitVec 5) (i : BitVec 5) (m : BitVec 3) (x : BitVec 3) (j : BitVec 1) : Statement (.vminVi d a i m x j) := fun _ => ⟨⟨fun h => Bool.noConfusion h, fun h => absurd h (by decide : ¬(1 = 2))⟩, ⟨fun _ => rfl, fun _ => rfl⟩⟩
theorem vmaxVv (d : BitVec 5) (a : BitVec 5) (b : BitVec 5) (m : BitVec 3) (x : BitVec 3) (j : BitVec 1) : Statement (.vmaxVv d a b m x j) := fun _ => ⟨⟨fun h => Bool.noConfusion h, fun h => absurd h (by decide : ¬(1 = 2))⟩, ⟨fun _ => rfl, fun _ => rfl⟩⟩
theorem vmaxVs (d : BitVec 5) (a : BitVec 5) (b : BitVec 5) (m : BitVec 3) (x : BitVec 3) (j : BitVec 1) : Statement (.vmaxVs d a b m x j) := fun _ => ⟨⟨fun h => Bool.noConfusion h, fun h => absurd h (by decide : ¬(1 = 2))⟩, ⟨fun _ => rfl, fun _ => rfl⟩⟩
theorem vmaxVi (d : BitVec 5) (a : BitVec 5) (i : BitVec 5) (m : BitVec 3) (x : BitVec 3) (j : BitVec 1) : Statement (.vmaxVi d a i m x j) := fun _ => ⟨⟨fun h => Bool.noConfusion h, fun h => absurd h (by decide : ¬(1 = 2))⟩, ⟨fun _ => rfl, fun _ => rfl⟩⟩
theorem vminuVv (d : BitVec 5) (a : BitVec 5) (b : BitVec 5) (m : BitVec 3) (x : BitVec 3) (j : BitVec 1) : Statement (.vminuVv d a b m x j) := fun _ => ⟨⟨fun h => Bool.noConfusion h, fun h => absurd h (by decide : ¬(1 = 2))⟩, ⟨fun _ => rfl, fun _ => rfl⟩⟩
theorem vminuVs (d : BitVec 5) (a : BitVec 5) (b : BitVec 5) (m : BitVec 3) (x : BitVec 3) (j : BitVec 1) : Statement (.vminuVs d a b m x j) := fun _ => ⟨⟨fun h => Bool.noConfusion h, fun h => absurd h (by decide : ¬(1 = 2))⟩, ⟨fun _ => rfl, fun _ => rfl⟩⟩
theorem vminuVi (d : BitVec 5) (a : BitVec 5) (i : BitVec 5) (m : BitVec 3) (x : BitVec 3) (j : BitVec 1) : Statement (.vminuVi d a i m x j) := fun _ => ⟨⟨fun h => Bool.noConfusion h, fun h => absurd h (by decide : ¬(1 = 2))⟩, ⟨fun _ => rfl, fun _ => rfl⟩⟩
theorem vmaxuVv (d : BitVec 5) (a : BitVec 5) (b : BitVec 5) (m : BitVec 3) (x : BitVec 3) (j : BitVec 1) : Statement (.vmaxuVv d a b m x j) := fun _ => ⟨⟨fun h => Bool.noConfusion h, fun h => absurd h (by decide : ¬(1 = 2))⟩, ⟨fun _ => rfl, fun _ => rfl⟩⟩
theorem vmaxuVs (d : BitVec 5) (a : BitVec 5) (b : BitVec 5) (m : BitVec 3) (x : BitVec 3) (j : BitVec 1) : Statement (.vmaxuVs d a b m x j) := fun _ => ⟨⟨fun h => Bool.noConfusion h, fun h => absurd h (by decide : ¬(1 = 2))⟩, ⟨fun _ => rfl, fun _ => rfl⟩⟩
theorem vmaxuVi (d : BitVec 5) (a : BitVec 5) (i : BitVec 5) (m : BitVec 3) (x : BitVec 3) (j : BitVec 1) : Statement (.vmaxuVi d a i m x j) := fun _ => ⟨⟨fun h => Bool.noConfusion h, fun h => absurd h (by decide : ¬(1 = 2))⟩, ⟨fun _ => rfl, fun _ => rfl⟩⟩
theorem vandVv (d : BitVec 5) (a : BitVec 5) (b : BitVec 5) (m : BitVec 3) (x : BitVec 3) (j : BitVec 1) : Statement (.vandVv d a b m x j) := fun _ => ⟨⟨fun h => Bool.noConfusion h, fun h => absurd h (by decide : ¬(1 = 2))⟩, ⟨fun _ => rfl, fun _ => rfl⟩⟩
theorem vandVs (d : BitVec 5) (a : BitVec 5) (b : BitVec 5) (m : BitVec 3) (x : BitVec 3) (j : BitVec 1) : Statement (.vandVs d a b m x j) := fun _ => ⟨⟨fun h => Bool.noConfusion h, fun h => absurd h (by decide : ¬(1 = 2))⟩, ⟨fun _ => rfl, fun _ => rfl⟩⟩
theorem vandVi (d : BitVec 5) (a : BitVec 5) (i : BitVec 5) (m : BitVec 3) (x : BitVec 3) (j : BitVec 1) : Statement (.vandVi d a i m x j) := fun _ => ⟨⟨fun h => Bool.noConfusion h, fun h => absurd h (by decide : ¬(1 = 2))⟩, ⟨fun _ => rfl, fun _ => rfl⟩⟩
theorem vorVv (d : BitVec 5) (a : BitVec 5) (b : BitVec 5) (m : BitVec 3) (x : BitVec 3) (j : BitVec 1) : Statement (.vorVv d a b m x j) := fun _ => ⟨⟨fun h => Bool.noConfusion h, fun h => absurd h (by decide : ¬(1 = 2))⟩, ⟨fun _ => rfl, fun _ => rfl⟩⟩
theorem vorVs (d : BitVec 5) (a : BitVec 5) (b : BitVec 5) (m : BitVec 3) (x : BitVec 3) (j : BitVec 1) : Statement (.vorVs d a b m x j) := fun _ => ⟨⟨fun h => Bool.noConfusion h, fun h => absurd h (by decide : ¬(1 = 2))⟩, ⟨fun _ => rfl, fun _ => rfl⟩⟩
theorem vorVi (d : BitVec 5) (a : BitVec 5) (i : BitVec 5) (m : BitVec 3) (x : BitVec 3) (j : BitVec 1) : Statement (.vorVi d a i m x j) := fun _ => ⟨⟨fun h => Bool.noConfusion h, fun h => absurd h (by decide : ¬(1 = 2))⟩, ⟨fun _ => rfl, fun _ => rfl⟩⟩
theorem vxorVv (d : BitVec 5) (a : BitVec 5) (b : BitVec 5) (m : BitVec 3) (x : BitVec 3) (j : BitVec 1) : Statement (.vxorVv d a b m x j) := fun _ => ⟨⟨fun h => Bool.noConfusion h, fun h => absurd h (by decide : ¬(1 = 2))⟩, ⟨fun _ => rfl, fun _ => rfl⟩⟩
theorem vxorVs (d : BitVec 5) (a : BitVec 5) (b : BitVec 5) (m : BitVec 3) (x : BitVec 3) (j : BitVec 1) : Statement (.vxorVs d a b m x j) := fun _ => ⟨⟨fun h => Bool.noConfusion h, fun h => absurd h (by decide : ¬(1 = 2))⟩, ⟨fun _ => rfl, fun _ => rfl⟩⟩
theorem vxorVi (d : BitVec 5) (a : BitVec 5) (i : BitVec 5) (m : BitVec 3) (x : BitVec 3) (j : BitVec 1) : Statement (.vxorVi d a i m x j) := fun _ => ⟨⟨fun h => Bool.noConfusion h, fun h => absurd h (by decide : ¬(1 = 2))⟩, ⟨fun _ => rfl, fun _ => rfl⟩⟩
theorem vsllVv (d : BitVec 5) (a : BitVec 5) (b : BitVec 5) (m : BitVec 3) (x : BitVec 3) (j : BitVec 1) : Statement (.vsllVv d a b m x j) := fun _ => ⟨⟨fun h => Bool.noConfusion h, fun h => absurd h (by decide : ¬(1 = 2))⟩, ⟨fun _ => rfl, fun _ => rfl⟩⟩
theorem vsllVs (d : BitVec 5) (a : BitVec 5) (b : BitVec 5) (m : BitVec 3) (x : BitVec 3) (j : BitVec 1) : Statement (.vsllVs d a b m x j) := fun _ => ⟨⟨fun h => Bool.noConfusion h, fun h => absurd h (by decide : ¬(1 = 2))⟩, ⟨fun _ => rfl, fun _ => rfl⟩⟩
theorem vsllVi (d : BitVec 5) (a : BitVec 5) (i : BitVec 5) (m : BitVec 3) (x : BitVec 3) (j : BitVec 1) : Statement (.vsllVi d a i m x j) := fun _ => ⟨⟨fun h => Bool.noConfusion h, fun h => absurd h (by decide : ¬(1 = 2))⟩, ⟨fun _ => rfl, fun _ => rfl⟩⟩
theorem vsrlVv (d : BitVec 5) (a : BitVec 5) (b : BitVec 5) (m : BitVec 3) (x : BitVec 3) (j : BitVec 1) : Statement (.vsrlVv d a b m x j) := fun _ => ⟨⟨fun h => Bool.noConfusion h, fun h => absurd h (by decide : ¬(1 = 2))⟩, ⟨fun _ => rfl, fun _ => rfl⟩⟩
theorem vsrlVs (d : BitVec 5) (a : BitVec 5) (b : BitVec 5) (m : BitVec 3) (x : BitVec 3) (j : BitVec 1) : Statement (.vsrlVs d a b m x j) := fun _ => ⟨⟨fun h => Bool.noConfusion h, fun h => absurd h (by decide : ¬(1 = 2))⟩, ⟨fun _ => rfl, fun _ => rfl⟩⟩
theorem vsrlVi (d : BitVec 5) (a : BitVec 5) (i : BitVec 5) (m : BitVec 3) (x : BitVec 3) (j : BitVec 1) : Statement (.vsrlVi d a i m x j) := fun _ => ⟨⟨fun h => Bool.noConfusion h, fun h => absurd h (by decide : ¬(1 = 2))⟩, ⟨fun _ => rfl, fun _ => rfl⟩⟩
theorem vsraVv (d : BitVec 5) (a : BitVec 5) (b : BitVec 5) (m : BitVec 3) (x : BitVec 3) (j : BitVec 1) : Statement (.vsraVv d a b m x j) := fun _ => ⟨⟨fun h => Bool.noConfusion h, fun h => absurd h (by decide : ¬(1 = 2))⟩, ⟨fun _ => rfl, fun _ => rfl⟩⟩
theorem vsraVs (d : BitVec 5) (a : BitVec 5) (b : BitVec 5) (m : BitVec 3) (x : BitVec 3) (j : BitVec 1) : Statement (.vsraVs d a b m x j) := fun _ => ⟨⟨fun h => Bool.noConfusion h, fun h => absurd h (by decide : ¬(1 = 2))⟩, ⟨fun _ => rfl, fun _ => rfl⟩⟩
theorem vsraVi (d : BitVec 5) (a : BitVec 5) (i : BitVec 5) (m : BitVec 3) (x : BitVec 3) (j : BitVec 1) : Statement (.vsraVi d a i m x j) := fun _ => ⟨⟨fun h => Bool.noConfusion h, fun h => absurd h (by decide : ¬(1 = 2))⟩, ⟨fun _ => rfl, fun _ => rfl⟩⟩
theorem vsadd (d : BitVec 5) (a : BitVec 5) (b : BitVec 5) (m : BitVec 3) (x : BitVec 3) (j : BitVec 1) : Statement (.vsadd d a b m x j) := fun _ => ⟨⟨fun h => Bool.noConfusion h, fun h => absurd h (by decide : ¬(1 = 2))⟩, ⟨fun _ => rfl, fun _ => rfl⟩⟩
theorem vsaddu (d : BitVec 5) (a : BitVec 5) (b : BitVec 5) (m : BitVec 3) (x : BitVec 3) (j : BitVec 1) : Statement (.vsaddu d a b m x j) := fun _ => ⟨⟨fun h => Bool.noConfusion h, fun h => absurd h (by decide : ¬(1 = 2))⟩, ⟨fun _ => rfl, fun _ => rfl⟩⟩
theorem vssub (d : BitVec 5) (a : BitVec 5) (b : BitVec 5) (m : BitVec 3) (x : BitVec 3) (j : BitVec 1) : Statement (.vssub d a b m x j) := fun _ => ⟨⟨fun h => Bool.noConfusion h, fun h => absurd h (by decide : ¬(1 = 2))⟩, ⟨fun _ => rfl, fun _ => rfl⟩⟩
theorem vssubu (d : BitVec 5) (a : BitVec 5) (b : BitVec 5) (m : BitVec 3) (x : BitVec 3) (j : BitVec 1) : Statement (.vssubu d a b m x j) := fun _ => ⟨⟨fun h => Bool.noConfusion h, fun h => absurd h (by decide : ¬(1 = 2))⟩, ⟨fun _ => rfl, fun _ => rfl⟩⟩
theorem vavg (d : BitVec 5) (a : BitVec 5) (b : BitVec 5) (m : BitVec 3) (x : BitVec 3) (j : BitVec 1) : Statement (.vavg d a b m x j) := fun _ => ⟨⟨fun h => Bool.noConfusion h, fun h => absurd h (by decide : ¬(1 = 2))⟩, ⟨fun _ => rfl, fun _ => rfl⟩⟩
theorem vavgu (d : BitVec 5) (a : BitVec 5) (b : BitVec 5) (m : BitVec 3) (x : BitVec 3) (j : BitVec 1) : Statement (.vavgu d a b m x j) := fun _ => ⟨⟨fun h => Bool.noConfusion h, fun h => absurd h (by decide : ¬(1 = 2))⟩, ⟨fun _ => rfl, fun _ => rfl⟩⟩
theorem vmerge (d : BitVec 5) (a : BitVec 5) (b : BitVec 5) (m : BitVec 3) (j : BitVec 1) : Statement (.vmerge d a b m j) := fun _ => ⟨⟨fun h => Bool.noConfusion h, fun h => absurd h (by decide : ¬(1 = 2))⟩, ⟨fun _ => rfl, fun _ => rfl⟩⟩
theorem vmv (d : BitVec 5) (a : BitVec 5) (j : BitVec 1) : Statement (.vmv d a j) := fun _ => ⟨⟨fun h => Bool.noConfusion h, fun h => absurd h (by decide : ¬(1 = 2))⟩, ⟨fun _ => rfl, fun _ => rfl⟩⟩
theorem vnsra (d : BitVec 5) (a : BitVec 5) (b : BitVec 5) (m : BitVec 3) (x : BitVec 3) (j : BitVec 1) : Statement (.vnsra d a b m x j) := fun _ => ⟨⟨fun h => Bool.noConfusion h, fun h => absurd h (by decide : ¬(1 = 2))⟩, ⟨fun _ => rfl, fun _ => rfl⟩⟩
theorem vwmul (d : BitVec 5) (a : BitVec 5) (b : BitVec 5) (m : BitVec 3) (j : BitVec 1) : Statement (.vwmul d a b m j) := fun _ => ⟨⟨fun h => Bool.noConfusion h, fun h => absurd h (by decide : ¬(1 = 2))⟩, ⟨fun _ => rfl, fun _ => rfl⟩⟩
theorem vwadd (d : BitVec 5) (a : BitVec 5) (b : BitVec 5) (m : BitVec 3) (j : BitVec 1) : Statement (.vwadd d a b m j) := fun _ => ⟨⟨fun h => Bool.noConfusion h, fun h => absurd h (by decide : ¬(1 = 2))⟩, ⟨fun _ => rfl, fun _ => rfl⟩⟩
theorem vdot4 (d : BitVec 5) (a : BitVec 5) (b : BitVec 5) (m : BitVec 3) (j : BitVec 1) : Statement (.vdot4 d a b m j) := fun _ => ⟨⟨fun h => Bool.noConfusion h, fun h => absurd h (by decide : ¬(1 = 2))⟩, ⟨fun _ => rfl, fun _ => rfl⟩⟩
theorem vfaddVv (d : BitVec 5) (a : BitVec 5) (b : BitVec 5) (m : BitVec 3) (x : BitVec 3) (j : BitVec 1) : Statement (.vfaddVv d a b m x j) := fun _ => ⟨⟨fun h => Bool.noConfusion h, fun h => absurd h (by decide : ¬(1 = 2))⟩, ⟨fun _ => rfl, fun _ => rfl⟩⟩
theorem vfaddVs (d : BitVec 5) (a : BitVec 5) (b : BitVec 5) (m : BitVec 3) (x : BitVec 3) (j : BitVec 1) : Statement (.vfaddVs d a b m x j) := fun _ => ⟨⟨fun h => Bool.noConfusion h, fun h => absurd h (by decide : ¬(1 = 2))⟩, ⟨fun _ => rfl, fun _ => rfl⟩⟩
theorem vfsubVv (d : BitVec 5) (a : BitVec 5) (b : BitVec 5) (m : BitVec 3) (x : BitVec 3) (j : BitVec 1) : Statement (.vfsubVv d a b m x j) := fun _ => ⟨⟨fun h => Bool.noConfusion h, fun h => absurd h (by decide : ¬(1 = 2))⟩, ⟨fun _ => rfl, fun _ => rfl⟩⟩
theorem vfsubVs (d : BitVec 5) (a : BitVec 5) (b : BitVec 5) (m : BitVec 3) (x : BitVec 3) (j : BitVec 1) : Statement (.vfsubVs d a b m x j) := fun _ => ⟨⟨fun h => Bool.noConfusion h, fun h => absurd h (by decide : ¬(1 = 2))⟩, ⟨fun _ => rfl, fun _ => rfl⟩⟩
theorem vfmulVv (d : BitVec 5) (a : BitVec 5) (b : BitVec 5) (m : BitVec 3) (x : BitVec 3) (j : BitVec 1) : Statement (.vfmulVv d a b m x j) := fun _ => ⟨⟨fun h => Bool.noConfusion h, fun h => absurd h (by decide : ¬(1 = 2))⟩, ⟨fun _ => rfl, fun _ => rfl⟩⟩
theorem vfmulVs (d : BitVec 5) (a : BitVec 5) (b : BitVec 5) (m : BitVec 3) (x : BitVec 3) (j : BitVec 1) : Statement (.vfmulVs d a b m x j) := fun _ => ⟨⟨fun h => Bool.noConfusion h, fun h => absurd h (by decide : ¬(1 = 2))⟩, ⟨fun _ => rfl, fun _ => rfl⟩⟩
theorem vfdivVv (d : BitVec 5) (a : BitVec 5) (b : BitVec 5) (m : BitVec 3) (x : BitVec 3) (j : BitVec 1) : Statement (.vfdivVv d a b m x j) := fun _ => ⟨⟨fun h => Bool.noConfusion h, fun h => absurd h (by decide : ¬(1 = 2))⟩, ⟨fun _ => rfl, fun _ => rfl⟩⟩
theorem vfdivVs (d : BitVec 5) (a : BitVec 5) (b : BitVec 5) (m : BitVec 3) (x : BitVec 3) (j : BitVec 1) : Statement (.vfdivVs d a b m x j) := fun _ => ⟨⟨fun h => Bool.noConfusion h, fun h => absurd h (by decide : ¬(1 = 2))⟩, ⟨fun _ => rfl, fun _ => rfl⟩⟩
theorem vfmaVv (d : BitVec 5) (a : BitVec 5) (b : BitVec 5) (m : BitVec 3) (x : BitVec 3) (j : BitVec 1) : Statement (.vfmaVv d a b m x j) := fun _ => ⟨⟨fun h => Bool.noConfusion h, fun h => absurd h (by decide : ¬(1 = 2))⟩, ⟨fun _ => rfl, fun _ => rfl⟩⟩
theorem vfmaVs (d : BitVec 5) (a : BitVec 5) (b : BitVec 5) (m : BitVec 3) (x : BitVec 3) (j : BitVec 1) : Statement (.vfmaVs d a b m x j) := fun _ => ⟨⟨fun h => Bool.noConfusion h, fun h => absurd h (by decide : ¬(1 = 2))⟩, ⟨fun _ => rfl, fun _ => rfl⟩⟩
theorem vfnmaVv (d : BitVec 5) (a : BitVec 5) (b : BitVec 5) (m : BitVec 3) (x : BitVec 3) (j : BitVec 1) : Statement (.vfnmaVv d a b m x j) := fun _ => ⟨⟨fun h => Bool.noConfusion h, fun h => absurd h (by decide : ¬(1 = 2))⟩, ⟨fun _ => rfl, fun _ => rfl⟩⟩
theorem vfnmaVs (d : BitVec 5) (a : BitVec 5) (b : BitVec 5) (m : BitVec 3) (x : BitVec 3) (j : BitVec 1) : Statement (.vfnmaVs d a b m x j) := fun _ => ⟨⟨fun h => Bool.noConfusion h, fun h => absurd h (by decide : ¬(1 = 2))⟩, ⟨fun _ => rfl, fun _ => rfl⟩⟩
theorem vfminVv (d : BitVec 5) (a : BitVec 5) (b : BitVec 5) (m : BitVec 3) (x : BitVec 3) (j : BitVec 1) : Statement (.vfminVv d a b m x j) := fun _ => ⟨⟨fun h => Bool.noConfusion h, fun h => absurd h (by decide : ¬(1 = 2))⟩, ⟨fun _ => rfl, fun _ => rfl⟩⟩
theorem vfminVs (d : BitVec 5) (a : BitVec 5) (b : BitVec 5) (m : BitVec 3) (x : BitVec 3) (j : BitVec 1) : Statement (.vfminVs d a b m x j) := fun _ => ⟨⟨fun h => Bool.noConfusion h, fun h => absurd h (by decide : ¬(1 = 2))⟩, ⟨fun _ => rfl, fun _ => rfl⟩⟩
theorem vfmaxVv (d : BitVec 5) (a : BitVec 5) (b : BitVec 5) (m : BitVec 3) (x : BitVec 3) (j : BitVec 1) : Statement (.vfmaxVv d a b m x j) := fun _ => ⟨⟨fun h => Bool.noConfusion h, fun h => absurd h (by decide : ¬(1 = 2))⟩, ⟨fun _ => rfl, fun _ => rfl⟩⟩
theorem vfmaxVs (d : BitVec 5) (a : BitVec 5) (b : BitVec 5) (m : BitVec 3) (x : BitVec 3) (j : BitVec 1) : Statement (.vfmaxVs d a b m x j) := fun _ => ⟨⟨fun h => Bool.noConfusion h, fun h => absurd h (by decide : ¬(1 = 2))⟩, ⟨fun _ => rfl, fun _ => rfl⟩⟩
theorem vfsgnjVv (d : BitVec 5) (a : BitVec 5) (b : BitVec 5) (m : BitVec 3) (x : BitVec 3) (j : BitVec 1) : Statement (.vfsgnjVv d a b m x j) := fun _ => ⟨⟨fun h => Bool.noConfusion h, fun h => absurd h (by decide : ¬(1 = 2))⟩, ⟨fun _ => rfl, fun _ => rfl⟩⟩
theorem vfsgnjVs (d : BitVec 5) (a : BitVec 5) (b : BitVec 5) (m : BitVec 3) (x : BitVec 3) (j : BitVec 1) : Statement (.vfsgnjVs d a b m x j) := fun _ => ⟨⟨fun h => Bool.noConfusion h, fun h => absurd h (by decide : ¬(1 = 2))⟩, ⟨fun _ => rfl, fun _ => rfl⟩⟩
theorem vfexpbVv (d : BitVec 5) (a : BitVec 5) (b : BitVec 5) (m : BitVec 3) (x : BitVec 3) (j : BitVec 1) : Statement (.vfexpbVv d a b m x j) := fun _ => ⟨⟨fun h => Bool.noConfusion h, fun h => absurd h (by decide : ¬(1 = 2))⟩, ⟨fun _ => rfl, fun _ => rfl⟩⟩
theorem vfexpbVs (d : BitVec 5) (a : BitVec 5) (b : BitVec 5) (m : BitVec 3) (x : BitVec 3) (j : BitVec 1) : Statement (.vfexpbVs d a b m x j) := fun _ => ⟨⟨fun h => Bool.noConfusion h, fun h => absurd h (by decide : ¬(1 = 2))⟩, ⟨fun _ => rfl, fun _ => rfl⟩⟩
theorem vfwmaVv (d : BitVec 5) (a : BitVec 5) (b : BitVec 5) (m : BitVec 3) (x : BitVec 3) (j : BitVec 1) : Statement (.vfwmaVv d a b m x j) := fun _ => ⟨⟨fun h => Bool.noConfusion h, fun h => absurd h (by decide : ¬(1 = 2))⟩, ⟨fun _ => rfl, fun _ => rfl⟩⟩
theorem vfwmaVs (d : BitVec 5) (a : BitVec 5) (b : BitVec 5) (m : BitVec 3) (x : BitVec 3) (j : BitVec 1) : Statement (.vfwmaVs d a b m x j) := fun _ => ⟨⟨fun h => Bool.noConfusion h, fun h => absurd h (by decide : ¬(1 = 2))⟩, ⟨fun _ => rfl, fun _ => rfl⟩⟩
theorem vfsqrt (d : BitVec 5) (a : BitVec 5) (m : BitVec 3) (x : BitVec 3) (j : BitVec 1) : Statement (.vfsqrt d a m x j) := fun _ => ⟨⟨fun h => Bool.noConfusion h, fun h => absurd h (by decide : ¬(1 = 2))⟩, ⟨fun _ => rfl, fun _ => rfl⟩⟩
theorem vfrsqe (d : BitVec 5) (a : BitVec 5) (m : BitVec 3) (x : BitVec 3) (j : BitVec 1) : Statement (.vfrsqe d a m x j) := fun _ => ⟨⟨fun h => Bool.noConfusion h, fun h => absurd h (by decide : ¬(1 = 2))⟩, ⟨fun _ => rfl, fun _ => rfl⟩⟩
theorem vfrece (d : BitVec 5) (a : BitVec 5) (m : BitVec 3) (x : BitVec 3) (j : BitVec 1) : Statement (.vfrece d a m x j) := fun _ => ⟨⟨fun h => Bool.noConfusion h, fun h => absurd h (by decide : ¬(1 = 2))⟩, ⟨fun _ => rfl, fun _ => rfl⟩⟩
theorem vfln (d : BitVec 5) (a : BitVec 5) (m : BitVec 3) (x : BitVec 3) (j : BitVec 1) : Statement (.vfln d a m x j) := fun _ => ⟨⟨fun h => Bool.noConfusion h, fun h => absurd h (by decide : ¬(1 = 2))⟩, ⟨fun _ => rfl, fun _ => rfl⟩⟩
theorem vfexp (d : BitVec 5) (a : BitVec 5) (m : BitVec 3) (x : BitVec 3) (j : BitVec 1) : Statement (.vfexp d a m x j) := fun _ => ⟨⟨fun h => Bool.noConfusion h, fun h => absurd h (by decide : ¬(1 = 2))⟩, ⟨fun _ => rfl, fun _ => rfl⟩⟩
theorem vfcvt (d : BitVec 5) (a : BitVec 5) (c : BitVec 5) (m : BitVec 3) (x : BitVec 3) (j : BitVec 1) : Statement (.vfcvt d a c m x j) := fun _ => ⟨⟨fun h => Bool.noConfusion h, fun h => absurd h (by decide : ¬(1 = 2))⟩, ⟨fun _ => rfl, fun _ => rfl⟩⟩
theorem vpack (d : BitVec 5) (a : BitVec 5) (x : BitVec 3) (j : BitVec 1) : Statement (.vpack d a x j) := fun _ => ⟨⟨fun h => Bool.noConfusion h, fun h => absurd h (by decide : ¬(1 = 2))⟩, ⟨fun _ => rfl, fun _ => rfl⟩⟩
theorem vunpk (d : BitVec 5) (a : BitVec 5) (j : BitVec 1) : Statement (.vunpk d a j) := fun _ => ⟨⟨fun h => Bool.noConfusion h, fun h => absurd h (by decide : ¬(1 = 2))⟩, ⟨fun _ => rfl, fun _ => rfl⟩⟩
theorem vfclass (d : BitVec 5) (a : BitVec 5) (m : BitVec 3) (j : BitVec 1) : Statement (.vfclass d a m j) := fun _ => ⟨⟨fun h => Bool.noConfusion h, fun h => absurd h (by decide : ¬(1 = 2))⟩, ⟨fun _ => rfl, fun _ => rfl⟩⟩
theorem vgmb (d : BitVec 5) (a : BitVec 5) (m : BitVec 3) (j : BitVec 1) : Statement (.vgmb d a m j) := fun _ => ⟨⟨fun h => Bool.noConfusion h, fun h => absurd h (by decide : ¬(1 = 2))⟩, ⟨fun _ => rfl, fun _ => rfl⟩⟩
theorem vgmbT (d : BitVec 5) (a : BitVec 5) (b : BitVec 5) (m : BitVec 3) (j : BitVec 1) : Statement (.vgmbT d a b m j) := fun _ => ⟨⟨fun h => Bool.noConfusion h, fun h => absurd h (by decide : ¬(1 = 2))⟩, ⟨fun _ => rfl, fun _ => rfl⟩⟩
theorem vfabs (d : BitVec 5) (a : BitVec 5) (m : BitVec 3) (j : BitVec 1) : Statement (.vfabs d a m j) := fun _ => ⟨⟨fun h => Bool.noConfusion h, fun h => absurd h (by decide : ¬(1 = 2))⟩, ⟨fun _ => rfl, fun _ => rfl⟩⟩
theorem vfneg (d : BitVec 5) (a : BitVec 5) (m : BitVec 3) (j : BitVec 1) : Statement (.vfneg d a m j) := fun _ => ⟨⟨fun h => Bool.noConfusion h, fun h => absurd h (by decide : ¬(1 = 2))⟩, ⟨fun _ => rfl, fun _ => rfl⟩⟩
theorem vceqVv (d : BitVec 5) (a : BitVec 5) (b : BitVec 5) (m : BitVec 3) (x : BitVec 3) (j : BitVec 1) : Statement (.vceqVv d a b m x j) := fun _ => ⟨⟨fun h => Bool.noConfusion h, fun h => absurd h (by decide : ¬(1 = 2))⟩, ⟨fun _ => rfl, fun _ => rfl⟩⟩
theorem vceqVs (d : BitVec 5) (a : BitVec 5) (b : BitVec 5) (m : BitVec 3) (x : BitVec 3) (j : BitVec 1) : Statement (.vceqVs d a b m x j) := fun _ => ⟨⟨fun h => Bool.noConfusion h, fun h => absurd h (by decide : ¬(1 = 2))⟩, ⟨fun _ => rfl, fun _ => rfl⟩⟩
theorem vcneVv (d : BitVec 5) (a : BitVec 5) (b : BitVec 5) (m : BitVec 3) (x : BitVec 3) (j : BitVec 1) : Statement (.vcneVv d a b m x j) := fun _ => ⟨⟨fun h => Bool.noConfusion h, fun h => absurd h (by decide : ¬(1 = 2))⟩, ⟨fun _ => rfl, fun _ => rfl⟩⟩
theorem vcneVs (d : BitVec 5) (a : BitVec 5) (b : BitVec 5) (m : BitVec 3) (x : BitVec 3) (j : BitVec 1) : Statement (.vcneVs d a b m x j) := fun _ => ⟨⟨fun h => Bool.noConfusion h, fun h => absurd h (by decide : ¬(1 = 2))⟩, ⟨fun _ => rfl, fun _ => rfl⟩⟩
theorem vcltVv (d : BitVec 5) (a : BitVec 5) (b : BitVec 5) (m : BitVec 3) (x : BitVec 3) (j : BitVec 1) : Statement (.vcltVv d a b m x j) := fun _ => ⟨⟨fun h => Bool.noConfusion h, fun h => absurd h (by decide : ¬(1 = 2))⟩, ⟨fun _ => rfl, fun _ => rfl⟩⟩
theorem vcltVs (d : BitVec 5) (a : BitVec 5) (b : BitVec 5) (m : BitVec 3) (x : BitVec 3) (j : BitVec 1) : Statement (.vcltVs d a b m x j) := fun _ => ⟨⟨fun h => Bool.noConfusion h, fun h => absurd h (by decide : ¬(1 = 2))⟩, ⟨fun _ => rfl, fun _ => rfl⟩⟩
theorem vcleVv (d : BitVec 5) (a : BitVec 5) (b : BitVec 5) (m : BitVec 3) (x : BitVec 3) (j : BitVec 1) : Statement (.vcleVv d a b m x j) := fun _ => ⟨⟨fun h => Bool.noConfusion h, fun h => absurd h (by decide : ¬(1 = 2))⟩, ⟨fun _ => rfl, fun _ => rfl⟩⟩
theorem vcleVs (d : BitVec 5) (a : BitVec 5) (b : BitVec 5) (m : BitVec 3) (x : BitVec 3) (j : BitVec 1) : Statement (.vcleVs d a b m x j) := fun _ => ⟨⟨fun h => Bool.noConfusion h, fun h => absurd h (by decide : ¬(1 = 2))⟩, ⟨fun _ => rfl, fun _ => rfl⟩⟩
theorem vcgtVv (d : BitVec 5) (a : BitVec 5) (b : BitVec 5) (m : BitVec 3) (x : BitVec 3) (j : BitVec 1) : Statement (.vcgtVv d a b m x j) := fun _ => ⟨⟨fun h => Bool.noConfusion h, fun h => absurd h (by decide : ¬(1 = 2))⟩, ⟨fun _ => rfl, fun _ => rfl⟩⟩
theorem vcgtVs (d : BitVec 5) (a : BitVec 5) (b : BitVec 5) (m : BitVec 3) (x : BitVec 3) (j : BitVec 1) : Statement (.vcgtVs d a b m x j) := fun _ => ⟨⟨fun h => Bool.noConfusion h, fun h => absurd h (by decide : ¬(1 = 2))⟩, ⟨fun _ => rfl, fun _ => rfl⟩⟩
theorem vcgeVv (d : BitVec 5) (a : BitVec 5) (b : BitVec 5) (m : BitVec 3) (x : BitVec 3) (j : BitVec 1) : Statement (.vcgeVv d a b m x j) := fun _ => ⟨⟨fun h => Bool.noConfusion h, fun h => absurd h (by decide : ¬(1 = 2))⟩, ⟨fun _ => rfl, fun _ => rfl⟩⟩
theorem vcgeVs (d : BitVec 5) (a : BitVec 5) (b : BitVec 5) (m : BitVec 3) (x : BitVec 3) (j : BitVec 1) : Statement (.vcgeVs d a b m x j) := fun _ => ⟨⟨fun h => Bool.noConfusion h, fun h => absurd h (by decide : ¬(1 = 2))⟩, ⟨fun _ => rfl, fun _ => rfl⟩⟩
theorem vcltuVv (d : BitVec 5) (a : BitVec 5) (b : BitVec 5) (m : BitVec 3) (x : BitVec 3) (j : BitVec 1) : Statement (.vcltuVv d a b m x j) := fun _ => ⟨⟨fun h => Bool.noConfusion h, fun h => absurd h (by decide : ¬(1 = 2))⟩, ⟨fun _ => rfl, fun _ => rfl⟩⟩
theorem vcltuVs (d : BitVec 5) (a : BitVec 5) (b : BitVec 5) (m : BitVec 3) (x : BitVec 3) (j : BitVec 1) : Statement (.vcltuVs d a b m x j) := fun _ => ⟨⟨fun h => Bool.noConfusion h, fun h => absurd h (by decide : ¬(1 = 2))⟩, ⟨fun _ => rfl, fun _ => rfl⟩⟩
theorem vcleuVv (d : BitVec 5) (a : BitVec 5) (b : BitVec 5) (m : BitVec 3) (x : BitVec 3) (j : BitVec 1) : Statement (.vcleuVv d a b m x j) := fun _ => ⟨⟨fun h => Bool.noConfusion h, fun h => absurd h (by decide : ¬(1 = 2))⟩, ⟨fun _ => rfl, fun _ => rfl⟩⟩
theorem vcleuVs (d : BitVec 5) (a : BitVec 5) (b : BitVec 5) (m : BitVec 3) (x : BitVec 3) (j : BitVec 1) : Statement (.vcleuVs d a b m x j) := fun _ => ⟨⟨fun h => Bool.noConfusion h, fun h => absurd h (by decide : ¬(1 = 2))⟩, ⟨fun _ => rfl, fun _ => rfl⟩⟩
theorem vfceqVv (d : BitVec 5) (a : BitVec 5) (b : BitVec 5) (m : BitVec 3) (x : BitVec 3) (j : BitVec 1) : Statement (.vfceqVv d a b m x j) := fun _ => ⟨⟨fun h => Bool.noConfusion h, fun h => absurd h (by decide : ¬(1 = 2))⟩, ⟨fun _ => rfl, fun _ => rfl⟩⟩
theorem vfceqVs (d : BitVec 5) (a : BitVec 5) (b : BitVec 5) (m : BitVec 3) (x : BitVec 3) (j : BitVec 1) : Statement (.vfceqVs d a b m x j) := fun _ => ⟨⟨fun h => Bool.noConfusion h, fun h => absurd h (by decide : ¬(1 = 2))⟩, ⟨fun _ => rfl, fun _ => rfl⟩⟩
theorem vfcltVv (d : BitVec 5) (a : BitVec 5) (b : BitVec 5) (m : BitVec 3) (x : BitVec 3) (j : BitVec 1) : Statement (.vfcltVv d a b m x j) := fun _ => ⟨⟨fun h => Bool.noConfusion h, fun h => absurd h (by decide : ¬(1 = 2))⟩, ⟨fun _ => rfl, fun _ => rfl⟩⟩
theorem vfcltVs (d : BitVec 5) (a : BitVec 5) (b : BitVec 5) (m : BitVec 3) (x : BitVec 3) (j : BitVec 1) : Statement (.vfcltVs d a b m x j) := fun _ => ⟨⟨fun h => Bool.noConfusion h, fun h => absurd h (by decide : ¬(1 = 2))⟩, ⟨fun _ => rfl, fun _ => rfl⟩⟩
theorem vfcleVv (d : BitVec 5) (a : BitVec 5) (b : BitVec 5) (m : BitVec 3) (x : BitVec 3) (j : BitVec 1) : Statement (.vfcleVv d a b m x j) := fun _ => ⟨⟨fun h => Bool.noConfusion h, fun h => absurd h (by decide : ¬(1 = 2))⟩, ⟨fun _ => rfl, fun _ => rfl⟩⟩
theorem vfcleVs (d : BitVec 5) (a : BitVec 5) (b : BitVec 5) (m : BitVec 3) (x : BitVec 3) (j : BitVec 1) : Statement (.vfcleVs d a b m x j) := fun _ => ⟨⟨fun h => Bool.noConfusion h, fun h => absurd h (by decide : ¬(1 = 2))⟩, ⟨fun _ => rfl, fun _ => rfl⟩⟩
theorem vfcunVv (d : BitVec 5) (a : BitVec 5) (b : BitVec 5) (m : BitVec 3) (x : BitVec 3) (j : BitVec 1) : Statement (.vfcunVv d a b m x j) := fun _ => ⟨⟨fun h => Bool.noConfusion h, fun h => absurd h (by decide : ¬(1 = 2))⟩, ⟨fun _ => rfl, fun _ => rfl⟩⟩
theorem vfcunVs (d : BitVec 5) (a : BitVec 5) (b : BitVec 5) (m : BitVec 3) (x : BitVec 3) (j : BitVec 1) : Statement (.vfcunVs d a b m x j) := fun _ => ⟨⟨fun h => Bool.noConfusion h, fun h => absurd h (by decide : ¬(1 = 2))⟩, ⟨fun _ => rfl, fun _ => rfl⟩⟩
theorem mand (d : BitVec 5) (a : BitVec 5) (b : BitVec 5) (x : BitVec 3) (j : BitVec 1) : Statement (.mand d a b x j) := fun _ => ⟨⟨fun h => Bool.noConfusion h, fun h => absurd h (by decide : ¬(1 = 2))⟩, ⟨fun _ => rfl, fun _ => rfl⟩⟩
theorem mor (d : BitVec 5) (a : BitVec 5) (b : BitVec 5) (x : BitVec 3) (j : BitVec 1) : Statement (.mor d a b x j) := fun _ => ⟨⟨fun h => Bool.noConfusion h, fun h => absurd h (by decide : ¬(1 = 2))⟩, ⟨fun _ => rfl, fun _ => rfl⟩⟩
theorem mxor (d : BitVec 5) (a : BitVec 5) (b : BitVec 5) (x : BitVec 3) (j : BitVec 1) : Statement (.mxor d a b x j) := fun _ => ⟨⟨fun h => Bool.noConfusion h, fun h => absurd h (by decide : ¬(1 = 2))⟩, ⟨fun _ => rfl, fun _ => rfl⟩⟩
theorem mandn (d : BitVec 5) (a : BitVec 5) (b : BitVec 5) (x : BitVec 3) (j : BitVec 1) : Statement (.mandn d a b x j) := fun _ => ⟨⟨fun h => Bool.noConfusion h, fun h => absurd h (by decide : ¬(1 = 2))⟩, ⟨fun _ => rfl, fun _ => rfl⟩⟩
theorem mnot (d : BitVec 5) (a : BitVec 5) (x : BitVec 3) (j : BitVec 1) : Statement (.mnot d a x j) := fun _ => ⟨⟨fun h => Bool.noConfusion h, fun h => absurd h (by decide : ¬(1 = 2))⟩, ⟨fun _ => rfl, fun _ => rfl⟩⟩
theorem mmv (d : BitVec 5) (a : BitVec 5) (x : BitVec 3) (j : BitVec 1) : Statement (.mmv d a x j) := fun _ => ⟨⟨fun h => Bool.noConfusion h, fun h => absurd h (by decide : ¬(1 = 2))⟩, ⟨fun _ => rfl, fun _ => rfl⟩⟩
theorem mpop (d : BitVec 5) (a : BitVec 5) (m : BitVec 3) (j : BitVec 1) : Statement (.mpop d a m j) := fun _ => ⟨⟨fun h => Bool.noConfusion h, fun h => absurd h (by decide : ¬(1 = 2))⟩, ⟨fun _ => rfl, fun _ => rfl⟩⟩
theorem mffs (d : BitVec 5) (a : BitVec 5) (m : BitVec 3) (j : BitVec 1) : Statement (.mffs d a m j) := fun _ => ⟨⟨fun h => Bool.noConfusion h, fun h => absurd h (by decide : ¬(1 = 2))⟩, ⟨fun _ => rfl, fun _ => rfl⟩⟩
theorem mset (d : BitVec 5) (x : BitVec 3) (j : BitVec 1) : Statement (.mset d x j) := fun _ => ⟨⟨fun h => Bool.noConfusion h, fun h => absurd h (by decide : ¬(1 = 2))⟩, ⟨fun _ => rfl, fun _ => rfl⟩⟩
theorem mclr (d : BitVec 5) (x : BitVec 3) (j : BitVec 1) : Statement (.mclr d x j) := fun _ => ⟨⟨fun h => Bool.noConfusion h, fun h => absurd h (by decide : ¬(1 = 2))⟩, ⟨fun _ => rfl, fun _ => rfl⟩⟩
theorem msbf (d : BitVec 5) (a : BitVec 5) (m : BitVec 3) (x : BitVec 3) (j : BitVec 1) : Statement (.msbf d a m x j) := fun _ => ⟨⟨fun h => Bool.noConfusion h, fun h => absurd h (by decide : ¬(1 = 2))⟩, ⟨fun _ => rfl, fun _ => rfl⟩⟩
theorem mtov (d : BitVec 5) (a : BitVec 5) (m : BitVec 3) (x : BitVec 3) (j : BitVec 1) : Statement (.mtov d a m x j) := fun _ => ⟨⟨fun h => Bool.noConfusion h, fun h => absurd h (by decide : ¬(1 = 2))⟩, ⟨fun _ => rfl, fun _ => rfl⟩⟩
theorem vtom (d : BitVec 5) (a : BitVec 5) (m : BitVec 3) (x : BitVec 3) (j : BitVec 1) : Statement (.vtom d a m x j) := fun _ => ⟨⟨fun h => Bool.noConfusion h, fun h => absurd h (by decide : ¬(1 = 2))⟩, ⟨fun _ => rfl, fun _ => rfl⟩⟩
theorem vredsum (d : BitVec 5) (a : BitVec 5) (b : BitVec 5) (m : BitVec 3) (j : BitVec 1) : Statement (.vredsum d a b m j) := fun _ => ⟨⟨fun h => Bool.noConfusion h, fun h => absurd h (by decide : ¬(1 = 2))⟩, ⟨fun _ => rfl, fun _ => rfl⟩⟩
theorem vredmax (d : BitVec 5) (a : BitVec 5) (b : BitVec 5) (m : BitVec 3) (j : BitVec 1) : Statement (.vredmax d a b m j) := fun _ => ⟨⟨fun h => Bool.noConfusion h, fun h => absurd h (by decide : ¬(1 = 2))⟩, ⟨fun _ => rfl, fun _ => rfl⟩⟩
theorem vredmin (d : BitVec 5) (a : BitVec 5) (b : BitVec 5) (m : BitVec 3) (j : BitVec 1) : Statement (.vredmin d a b m j) := fun _ => ⟨⟨fun h => Bool.noConfusion h, fun h => absurd h (by decide : ¬(1 = 2))⟩, ⟨fun _ => rfl, fun _ => rfl⟩⟩
theorem vredmaxu (d : BitVec 5) (a : BitVec 5) (b : BitVec 5) (m : BitVec 3) (j : BitVec 1) : Statement (.vredmaxu d a b m j) := fun _ => ⟨⟨fun h => Bool.noConfusion h, fun h => absurd h (by decide : ¬(1 = 2))⟩, ⟨fun _ => rfl, fun _ => rfl⟩⟩
theorem vredminu (d : BitVec 5) (a : BitVec 5) (b : BitVec 5) (m : BitVec 3) (j : BitVec 1) : Statement (.vredminu d a b m j) := fun _ => ⟨⟨fun h => Bool.noConfusion h, fun h => absurd h (by decide : ¬(1 = 2))⟩, ⟨fun _ => rfl, fun _ => rfl⟩⟩
theorem vredand (d : BitVec 5) (a : BitVec 5) (b : BitVec 5) (m : BitVec 3) (j : BitVec 1) : Statement (.vredand d a b m j) := fun _ => ⟨⟨fun h => Bool.noConfusion h, fun h => absurd h (by decide : ¬(1 = 2))⟩, ⟨fun _ => rfl, fun _ => rfl⟩⟩
theorem vredor (d : BitVec 5) (a : BitVec 5) (b : BitVec 5) (m : BitVec 3) (j : BitVec 1) : Statement (.vredor d a b m j) := fun _ => ⟨⟨fun h => Bool.noConfusion h, fun h => absurd h (by decide : ¬(1 = 2))⟩, ⟨fun _ => rfl, fun _ => rfl⟩⟩
theorem vfredsum (d : BitVec 5) (a : BitVec 5) (b : BitVec 5) (m : BitVec 3) (j : BitVec 1) : Statement (.vfredsum d a b m j) := fun _ => ⟨⟨fun h => Bool.noConfusion h, fun h => absurd h (by decide : ¬(1 = 2))⟩, ⟨fun _ => rfl, fun _ => rfl⟩⟩
theorem vfredmax (d : BitVec 5) (a : BitVec 5) (b : BitVec 5) (m : BitVec 3) (j : BitVec 1) : Statement (.vfredmax d a b m j) := fun _ => ⟨⟨fun h => Bool.noConfusion h, fun h => absurd h (by decide : ¬(1 = 2))⟩, ⟨fun _ => rfl, fun _ => rfl⟩⟩
theorem vfredmin (d : BitVec 5) (a : BitVec 5) (b : BitVec 5) (m : BitVec 3) (j : BitVec 1) : Statement (.vfredmin d a b m j) := fun _ => ⟨⟨fun h => Bool.noConfusion h, fun h => absurd h (by decide : ¬(1 = 2))⟩, ⟨fun _ => rfl, fun _ => rfl⟩⟩
theorem vnorm (d : BitVec 5) (a : BitVec 5) (b : BitVec 5) (m : BitVec 3) (j : BitVec 1) : Statement (.vnorm d a b m j) := fun _ => ⟨⟨fun h => Bool.noConfusion h, fun h => absurd h (by decide : ¬(1 = 2))⟩, ⟨fun _ => rfl, fun _ => rfl⟩⟩
theorem vnormd (d : BitVec 5) (a : BitVec 5) (b : BitVec 5) (m : BitVec 3) (j : BitVec 1) : Statement (.vnormd d a b m j) := fun _ => ⟨⟨fun h => Bool.noConfusion h, fun h => absurd h (by decide : ¬(1 = 2))⟩, ⟨fun _ => rfl, fun _ => rfl⟩⟩
theorem vfdot (d : BitVec 5) (a : BitVec 5) (b : BitVec 5) (m : BitVec 3) (j : BitVec 1) : Statement (.vfdot d a b m j) := fun _ => ⟨⟨fun h => Bool.noConfusion h, fun h => absurd h (by decide : ¬(1 = 2))⟩, ⟨fun _ => rfl, fun _ => rfl⟩⟩
theorem vslup (d : BitVec 5) (a : BitVec 5) (b : BitVec 5) (m : BitVec 3) (j : BitVec 1) : Statement (.vslup d a b m j) := fun _ => ⟨⟨fun h => Bool.noConfusion h, fun h => absurd h (by decide : ¬(1 = 2))⟩, ⟨fun _ => rfl, fun _ => rfl⟩⟩
theorem vsldn (d : BitVec 5) (a : BitVec 5) (b : BitVec 5) (m : BitVec 3) (j : BitVec 1) : Statement (.vsldn d a b m j) := fun _ => ⟨⟨fun h => Bool.noConfusion h, fun h => absurd h (by decide : ¬(1 = 2))⟩, ⟨fun _ => rfl, fun _ => rfl⟩⟩
theorem vperm (d : BitVec 5) (a : BitVec 5) (b : BitVec 5) (m : BitVec 3) (j : BitVec 1) : Statement (.vperm d a b m j) := fun _ => ⟨⟨fun h => Bool.noConfusion h, fun h => absurd h (by decide : ¬(1 = 2))⟩, ⟨fun _ => rfl, fun _ => rfl⟩⟩
theorem vcomp (d : BitVec 5) (a : BitVec 5) (m : BitVec 3) (j : BitVec 1) : Statement (.vcomp d a m j) := fun _ => ⟨⟨fun h => Bool.noConfusion h, fun h => absurd h (by decide : ¬(1 = 2))⟩, ⟨fun _ => rfl, fun _ => rfl⟩⟩
theorem vexpd (d : BitVec 5) (a : BitVec 5) (m : BitVec 3) (j : BitVec 1) : Statement (.vexpd d a m j) := fun _ => ⟨⟨fun h => Bool.noConfusion h, fun h => absurd h (by decide : ¬(1 = 2))⟩, ⟨fun _ => rfl, fun _ => rfl⟩⟩
theorem vbcs (d : BitVec 5) (b : BitVec 5) (m : BitVec 3) (j : BitVec 1) : Statement (.vbcs d b m j) := fun _ => ⟨⟨fun h => Bool.noConfusion h, fun h => absurd h (by decide : ¬(1 = 2))⟩, ⟨fun _ => rfl, fun _ => rfl⟩⟩
theorem vext (d : BitVec 5) (a : BitVec 5) (b : BitVec 5) (j : BitVec 1) : Statement (.vext d a b j) := fun _ => ⟨⟨fun h => Bool.noConfusion h, fun h => absurd h (by decide : ¬(1 = 2))⟩, ⟨fun _ => rfl, fun _ => rfl⟩⟩
theorem vins (d : BitVec 5) (a : BitVec 5) (b : BitVec 5) (j : BitVec 1) : Statement (.vins d a b j) := fun _ => ⟨⟨fun h => Bool.noConfusion h, fun h => absurd h (by decide : ¬(1 = 2))⟩, ⟨fun _ => rfl, fun _ => rfl⟩⟩
theorem vid (d : BitVec 5) (m : BitVec 3) (j : BitVec 1) : Statement (.vid d m j) := fun _ => ⟨⟨fun h => Bool.noConfusion h, fun h => absurd h (by decide : ¬(1 = 2))⟩, ⟨fun _ => rfl, fun _ => rfl⟩⟩
theorem viota (d : BitVec 5) (a : BitVec 5) (m : BitVec 3) (j : BitVec 1) : Statement (.viota d a m j) := fun _ => ⟨⟨fun h => Bool.noConfusion h, fun h => absurd h (by decide : ¬(1 = 2))⟩, ⟨fun _ => rfl, fun _ => rfl⟩⟩
theorem vrev (d : BitVec 5) (a : BitVec 5) (m : BitVec 3) (j : BitVec 1) : Statement (.vrev d a m j) := fun _ => ⟨⟨fun h => Bool.noConfusion h, fun h => absurd h (by decide : ¬(1 = 2))⟩, ⟨fun _ => rfl, fun _ => rfl⟩⟩
theorem vtopk (d : BitVec 5) (a : BitVec 5) (b : BitVec 5) (m : BitVec 3) (j : BitVec 1) : Statement (.vtopk d a b m j) := fun _ => ⟨⟨fun h => Bool.noConfusion h, fun h => absurd h (by decide : ¬(1 = 2))⟩, ⟨fun _ => rfl, fun _ => rfl⟩⟩
theorem vzip (d : BitVec 5) (a : BitVec 5) (b : BitVec 5) (m : BitVec 3) (j : BitVec 1) : Statement (.vzip d a b m j) := fun _ => ⟨⟨fun h => Bool.noConfusion h, fun h => absurd h (by decide : ¬(1 = 2))⟩, ⟨fun _ => rfl, fun _ => rfl⟩⟩
theorem vuzp (d : BitVec 5) (a : BitVec 5) (b : BitVec 5) (m : BitVec 3) (j : BitVec 1) : Statement (.vuzp d a b m j) := fun _ => ⟨⟨fun h => Bool.noConfusion h, fun h => absurd h (by decide : ¬(1 = 2))⟩, ⟨fun _ => rfl, fun _ => rfl⟩⟩
theorem vld (d : BitVec 5) (a : BitVec 5) (m : BitVec 3) (j : BitVec 1) : Statement (.vld d a m j) := fun _ => ⟨⟨fun h => Bool.noConfusion h, fun h => absurd h (by decide : ¬(1 = 2))⟩, ⟨fun _ => rfl, fun _ => rfl⟩⟩
theorem vlds (d : BitVec 5) (a : BitVec 5) (b : BitVec 5) (m : BitVec 3) (j : BitVec 1) : Statement (.vlds d a b m j) := fun _ => ⟨⟨fun h => Bool.noConfusion h, fun h => absurd h (by decide : ¬(1 = 2))⟩, ⟨fun _ => rfl, fun _ => rfl⟩⟩
theorem vldx (d : BitVec 5) (a : BitVec 5) (b : BitVec 5) (m : BitVec 3) (j : BitVec 1) (w : BitVec 4) : Statement (.vldx d a b m j w) := fun _ => ⟨⟨fun h => Bool.noConfusion h, fun h => absurd h (by decide : ¬(1 = 2))⟩, ⟨fun _ => rfl, fun _ => rfl⟩⟩
theorem vldFf (d : BitVec 5) (a : BitVec 5) (m : BitVec 3) (j : BitVec 1) : Statement (.vldFf d a m j) := fun _ => ⟨⟨fun h => Bool.noConfusion h, fun h => absurd h (by decide : ¬(1 = 2))⟩, ⟨fun _ => rfl, fun _ => rfl⟩⟩
theorem vldw (d : BitVec 5) (a : BitVec 5) (j : BitVec 1) : Statement (.vldw d a j) := fun _ => ⟨⟨fun h => Bool.noConfusion h, fun h => absurd h (by decide : ¬(1 = 2))⟩, ⟨fun _ => rfl, fun _ => rfl⟩⟩
theorem vst (v : BitVec 5) (a : BitVec 5) (m : BitVec 3) (j : BitVec 1) : Statement (.vst v a m j) := fun _ => ⟨⟨fun h => Bool.noConfusion h, fun h => absurd h (by decide : ¬(1 = 2))⟩, ⟨fun _ => rfl, fun _ => rfl⟩⟩
theorem vsts (v : BitVec 5) (a : BitVec 5) (b : BitVec 5) (m : BitVec 3) (j : BitVec 1) : Statement (.vsts v a b m j) := fun _ => ⟨⟨fun h => Bool.noConfusion h, fun h => absurd h (by decide : ¬(1 = 2))⟩, ⟨fun _ => rfl, fun _ => rfl⟩⟩
theorem vstx (v : BitVec 5) (a : BitVec 5) (b : BitVec 5) (m : BitVec 3) (j : BitVec 1) (w : BitVec 4) : Statement (.vstx v a b m j w) := fun _ => ⟨⟨fun h => Bool.noConfusion h, fun h => absurd h (by decide : ¬(1 = 2))⟩, ⟨fun _ => rfl, fun _ => rfl⟩⟩
theorem vstw (v : BitVec 5) (a : BitVec 5) (j : BitVec 1) : Statement (.vstw v a j) := fun _ => ⟨⟨fun h => Bool.noConfusion h, fun h => absurd h (by decide : ¬(1 = 2))⟩, ⟨fun _ => rfl, fun _ => rfl⟩⟩
theorem vamoAdd (v : BitVec 5) (a : BitVec 5) (b : BitVec 5) (m : BitVec 3) (o : BitVec 3) (j : BitVec 1) : Statement (.vamoAdd v a b m o j) := fun _ => ⟨⟨fun h => Bool.noConfusion h, fun h => absurd h (by decide : ¬(1 = 2))⟩, ⟨fun _ => rfl, fun _ => rfl⟩⟩
theorem vamoMin (v : BitVec 5) (a : BitVec 5) (b : BitVec 5) (m : BitVec 3) (o : BitVec 3) (j : BitVec 1) : Statement (.vamoMin v a b m o j) := fun _ => ⟨⟨fun h => Bool.noConfusion h, fun h => absurd h (by decide : ¬(1 = 2))⟩, ⟨fun _ => rfl, fun _ => rfl⟩⟩
theorem vamoMax (v : BitVec 5) (a : BitVec 5) (b : BitVec 5) (m : BitVec 3) (o : BitVec 3) (j : BitVec 1) : Statement (.vamoMax v a b m o j) := fun _ => ⟨⟨fun h => Bool.noConfusion h, fun h => absurd h (by decide : ¬(1 = 2))⟩, ⟨fun _ => rfl, fun _ => rfl⟩⟩
theorem vamoAnd (v : BitVec 5) (a : BitVec 5) (b : BitVec 5) (m : BitVec 3) (o : BitVec 3) (j : BitVec 1) : Statement (.vamoAnd v a b m o j) := fun _ => ⟨⟨fun h => Bool.noConfusion h, fun h => absurd h (by decide : ¬(1 = 2))⟩, ⟨fun _ => rfl, fun _ => rfl⟩⟩
theorem vamoOr (v : BitVec 5) (a : BitVec 5) (b : BitVec 5) (m : BitVec 3) (o : BitVec 3) (j : BitVec 1) : Statement (.vamoOr v a b m o j) := fun _ => ⟨⟨fun h => Bool.noConfusion h, fun h => absurd h (by decide : ¬(1 = 2))⟩, ⟨fun _ => rfl, fun _ => rfl⟩⟩
theorem vamoXor (v : BitVec 5) (a : BitVec 5) (b : BitVec 5) (m : BitVec 3) (o : BitVec 3) (j : BitVec 1) : Statement (.vamoXor v a b m o j) := fun _ => ⟨⟨fun h => Bool.noConfusion h, fun h => absurd h (by decide : ¬(1 = 2))⟩, ⟨fun _ => rfl, fun _ => rfl⟩⟩
theorem vamoSwp (v : BitVec 5) (a : BitVec 5) (b : BitVec 5) (m : BitVec 3) (o : BitVec 3) (j : BitVec 1) : Statement (.vamoSwp v a b m o j) := fun _ => ⟨⟨fun h => Bool.noConfusion h, fun h => absurd h (by decide : ¬(1 = 2))⟩, ⟨fun _ => rfl, fun _ => rfl⟩⟩
theorem vamoFadd (v : BitVec 5) (a : BitVec 5) (b : BitVec 5) (m : BitVec 3) (o : BitVec 3) (j : BitVec 1) : Statement (.vamoFadd v a b m o j) := fun _ => ⟨⟨fun h => Bool.noConfusion h, fun h => absurd h (by decide : ¬(1 = 2))⟩, ⟨fun _ => rfl, fun _ => rfl⟩⟩
theorem vamoFmax (v : BitVec 5) (a : BitVec 5) (b : BitVec 5) (m : BitVec 3) (o : BitVec 3) (j : BitVec 1) : Statement (.vamoFmax v a b m o j) := fun _ => ⟨⟨fun h => Bool.noConfusion h, fun h => absurd h (by decide : ¬(1 = 2))⟩, ⟨fun _ => rfl, fun _ => rfl⟩⟩
theorem vlls (d : BitVec 5) (a : BitVec 5) (m : BitVec 3) (j : BitVec 1) : Statement (.vlls d a m j) := fun _ => ⟨⟨fun h => Bool.noConfusion h, fun h => absurd h (by decide : ¬(1 = 2))⟩, ⟨fun _ => rfl, fun _ => rfl⟩⟩
theorem vsls (v : BitVec 5) (a : BitVec 5) (m : BitVec 3) (j : BitVec 1) : Statement (.vsls v a m j) := fun _ => ⟨⟨fun h => Bool.noConfusion h, fun h => absurd h (by decide : ¬(1 = 2))⟩, ⟨fun _ => rfl, fun _ => rfl⟩⟩
theorem vxlt (d : BitVec 5) (a : BitVec 5) (b : BitVec 5) (m : BitVec 3) (j : BitVec 1) : Statement (.vxlt d a b m j) := fun _ => ⟨⟨fun h => Bool.noConfusion h, fun h => absurd h (by decide : ¬(1 = 2))⟩, ⟨fun _ => rfl, fun _ => rfl⟩⟩
theorem vxltFf (d : BitVec 5) (a : BitVec 5) (b : BitVec 5) (m : BitVec 3) (j : BitVec 1) : Statement (.vxltFf d a b m j) := fun _ => ⟨⟨fun h => Bool.noConfusion h, fun h => absurd h (by decide : ¬(1 = 2))⟩, ⟨fun _ => rfl, fun _ => rfl⟩⟩
theorem qbind (n : BitVec 5) (a : BitVec 5) (j : BitVec 1) : Statement (.qbind n a j) := fun _ => ⟨⟨fun h => Bool.noConfusion h, fun h => absurd h (by decide : ¬(1 = 2))⟩, ⟨fun _ => rfl, fun _ => rfl⟩⟩
theorem qfree (n : BitVec 5) (j : BitVec 1) : Statement (.qfree n j) := fun _ => ⟨⟨fun h => Bool.noConfusion h, fun h => absurd h (by decide : ¬(1 = 2))⟩, ⟨fun _ => rfl, fun _ => rfl⟩⟩
theorem qstat (d : BitVec 5) (n : BitVec 5) (j : BitVec 1) : Statement (.qstat d n j) := fun _ => ⟨⟨fun h => Bool.noConfusion h, fun h => absurd h (by decide : ¬(1 = 2))⟩, ⟨fun _ => rfl, fun _ => rfl⟩⟩
theorem vcopy (d : BitVec 5) (a : BitVec 5) (m : BitVec 3) (j : BitVec 1) : Statement (.vcopy d a m j) := fun _ => ⟨⟨fun h => Bool.noConfusion h, fun h => absurd h (by decide : ¬(1 = 2))⟩, ⟨fun _ => rfl, fun _ => rfl⟩⟩
theorem vcopyFf (d : BitVec 5) (a : BitVec 5) (m : BitVec 3) (j : BitVec 1) : Statement (.vcopyFf d a m j) := fun _ => ⟨⟨fun h => Bool.noConfusion h, fun h => absurd h (by decide : ¬(1 = 2))⟩, ⟨fun _ => rfl, fun _ => rfl⟩⟩
theorem vcopyB (d : BitVec 5) (a : BitVec 5) (m : BitVec 3) (j : BitVec 1) : Statement (.vcopyB d a m j) := fun _ => ⟨⟨fun h => Bool.noConfusion h, fun h => absurd h (by decide : ¬(1 = 2))⟩, ⟨fun _ => rfl, fun _ => rfl⟩⟩
theorem rset (h : BitVec 5) (a : BitVec 5) (j : BitVec 1) : Statement (.rset h a j) := fun _ => ⟨⟨fun h => Bool.noConfusion h, fun h => absurd h (by decide : ¬(1 = 2))⟩, ⟨fun _ => rfl, fun _ => rfl⟩⟩
theorem rpost (v : BitVec 5) (h : BitVec 5) (i : BitVec 5) (m : BitVec 3) (j : BitVec 1) : Statement (.rpost v h i m j) := fun _ => ⟨⟨fun h => Bool.noConfusion h, fun h => absurd h (by decide : ¬(1 = 2))⟩, ⟨fun _ => rfl, fun _ => rfl⟩⟩
theorem rbound (d : BitVec 5) (h : BitVec 5) (j : BitVec 1) : Statement (.rbound d h j) := fun _ => ⟨⟨fun h => Bool.noConfusion h, fun h => absurd h (by decide : ¬(1 = 2))⟩, ⟨fun _ => rfl, fun _ => rfl⟩⟩
theorem rleave (d : BitVec 5) (h : BitVec 5) (b : BitVec 5) (j : BitVec 1) : Statement (.rleave d h b j) := fun _ => ⟨⟨fun h => Bool.noConfusion h, fun h => absurd h (by decide : ¬(1 = 2))⟩, ⟨fun _ => rfl, fun _ => rfl⟩⟩
theorem rwin (d : BitVec 5) (h : BitVec 5) (b : BitVec 5) (j : BitVec 1) : Statement (.rwin d h b j) := fun _ => ⟨⟨fun h => Bool.noConfusion h, fun h => absurd h (by decide : ¬(1 = 2))⟩, ⟨fun _ => rfl, fun _ => rfl⟩⟩
theorem rstat (d : BitVec 5) (h : BitVec 5) (j : BitVec 1) : Statement (.rstat d h j) := fun _ => ⟨⟨fun h => Bool.noConfusion h, fun h => absurd h (by decide : ¬(1 = 2))⟩, ⟨fun _ => rfl, fun _ => rfl⟩⟩
theorem chset (d : BitVec 5) (h : BitVec 5) (b : BitVec 5) (j : BitVec 1) : Statement (.chset d h b j) := fun _ => ⟨⟨fun h => Bool.noConfusion h, fun h => absurd h (by decide : ¬(1 = 2))⟩, ⟨fun _ => rfl, fun _ => rfl⟩⟩
theorem chcount (d : BitVec 5) (h : BitVec 5) (b : BitVec 5) (j : BitVec 1) : Statement (.chcount d h b j) := fun _ => ⟨⟨fun h => Bool.noConfusion h, fun h => absurd h (by decide : ¬(1 = 2))⟩, ⟨fun _ => rfl, fun _ => rfl⟩⟩
theorem chplace (d : BitVec 5) (h : BitVec 5) (j : BitVec 1) : Statement (.chplace d h j) := fun _ => ⟨⟨fun h => Bool.noConfusion h, fun h => absurd h (by decide : ¬(1 = 2))⟩, ⟨fun _ => rfl, fun _ => rfl⟩⟩
theorem chsend (d : BitVec 5) (h : BitVec 5) (b : BitVec 5) (j : BitVec 1) : Statement (.chsend d h b j) := fun _ => ⟨⟨fun h => Bool.noConfusion h, fun h => absurd h (by decide : ¬(1 = 2))⟩, ⟨fun _ => rfl, fun _ => rfl⟩⟩
theorem chdone (d : BitVec 5) (h : BitVec 5) (j : BitVec 1) : Statement (.chdone d h j) := fun _ => ⟨⟨fun h => Bool.noConfusion h, fun h => absurd h (by decide : ¬(1 = 2))⟩, ⟨fun _ => rfl, fun _ => rfl⟩⟩
theorem chstat (d : BitVec 5) (h : BitVec 5) (j : BitVec 1) : Statement (.chstat d h j) := fun _ => ⟨⟨fun h => Bool.noConfusion h, fun h => absurd h (by decide : ¬(1 = 2))⟩, ⟨fun _ => rfl, fun _ => rfl⟩⟩
theorem pld (d : BitVec 5) (a : BitVec 5) (k : BitVec 4) (z : BitVec 3) : Statement (.pld d a k z) := fun _ => ⟨⟨fun h => Bool.noConfusion h, fun h => absurd h (by decide : ¬(1 = 2))⟩, ⟨fun _ => rfl, fun _ => rfl⟩⟩
theorem pst (v : BitVec 5) (a : BitVec 5) (k : BitVec 4) (z : BitVec 3) : Statement (.pst v a k z) := fun _ => ⟨⟨fun h => Bool.noConfusion h, fun h => absurd h (by decide : ¬(1 = 2))⟩, ⟨fun _ => rfl, fun _ => rfl⟩⟩
theorem pamoSwp (d : BitVec 5) (a : BitVec 5) (b : BitVec 5) (k : BitVec 4) (z : BitVec 3) : Statement (.pamoSwp d a b k z) := fun _ => ⟨⟨fun h => Bool.noConfusion h, fun h => absurd h (by decide : ¬(1 = 2))⟩, ⟨fun _ => rfl, fun _ => rfl⟩⟩
theorem pamoAdd (d : BitVec 5) (a : BitVec 5) (b : BitVec 5) (k : BitVec 4) (z : BitVec 3) : Statement (.pamoAdd d a b k z) := fun _ => ⟨⟨fun h => Bool.noConfusion h, fun h => absurd h (by decide : ¬(1 = 2))⟩, ⟨fun _ => rfl, fun _ => rfl⟩⟩
theorem pamoAnd (d : BitVec 5) (a : BitVec 5) (b : BitVec 5) (k : BitVec 4) (z : BitVec 3) : Statement (.pamoAnd d a b k z) := fun _ => ⟨⟨fun h => Bool.noConfusion h, fun h => absurd h (by decide : ¬(1 = 2))⟩, ⟨fun _ => rfl, fun _ => rfl⟩⟩
theorem pamoOr (d : BitVec 5) (a : BitVec 5) (b : BitVec 5) (k : BitVec 4) (z : BitVec 3) : Statement (.pamoOr d a b k z) := fun _ => ⟨⟨fun h => Bool.noConfusion h, fun h => absurd h (by decide : ¬(1 = 2))⟩, ⟨fun _ => rfl, fun _ => rfl⟩⟩
theorem pamoXor (d : BitVec 5) (a : BitVec 5) (b : BitVec 5) (k : BitVec 4) (z : BitVec 3) : Statement (.pamoXor d a b k z) := fun _ => ⟨⟨fun h => Bool.noConfusion h, fun h => absurd h (by decide : ¬(1 = 2))⟩, ⟨fun _ => rfl, fun _ => rfl⟩⟩
theorem pamoMin (d : BitVec 5) (a : BitVec 5) (b : BitVec 5) (k : BitVec 4) (z : BitVec 3) : Statement (.pamoMin d a b k z) := fun _ => ⟨⟨fun h => Bool.noConfusion h, fun h => absurd h (by decide : ¬(1 = 2))⟩, ⟨fun _ => rfl, fun _ => rfl⟩⟩
theorem pamoMax (d : BitVec 5) (a : BitVec 5) (b : BitVec 5) (k : BitVec 4) (z : BitVec 3) : Statement (.pamoMax d a b k z) := fun _ => ⟨⟨fun h => Bool.noConfusion h, fun h => absurd h (by decide : ¬(1 = 2))⟩, ⟨fun _ => rfl, fun _ => rfl⟩⟩
theorem pamoMinu (d : BitVec 5) (a : BitVec 5) (b : BitVec 5) (k : BitVec 4) (z : BitVec 3) : Statement (.pamoMinu d a b k z) := fun _ => ⟨⟨fun h => Bool.noConfusion h, fun h => absurd h (by decide : ¬(1 = 2))⟩, ⟨fun _ => rfl, fun _ => rfl⟩⟩
theorem pamoMaxu (d : BitVec 5) (a : BitVec 5) (b : BitVec 5) (k : BitVec 4) (z : BitVec 3) : Statement (.pamoMaxu d a b k z) := fun _ => ⟨⟨fun h => Bool.noConfusion h, fun h => absurd h (by decide : ¬(1 = 2))⟩, ⟨fun _ => rfl, fun _ => rfl⟩⟩
theorem pamoCas (d : BitVec 5) (a : BitVec 5) (b : BitVec 5) (k : BitVec 4) (z : BitVec 3) : Statement (.pamoCas d a b k z) := fun _ => ⟨⟨fun h => Bool.noConfusion h, fun h => absurd h (by decide : ¬(1 = 2))⟩, ⟨fun _ => rfl, fun _ => rfl⟩⟩
theorem pvld (d : BitVec 5) (a : BitVec 5) (m : BitVec 3) (j : BitVec 1) (k : BitVec 4) : Statement (.pvld d a m j k) := fun _ => ⟨⟨fun h => Bool.noConfusion h, fun h => absurd h (by decide : ¬(1 = 2))⟩, ⟨fun _ => rfl, fun _ => rfl⟩⟩
theorem pvldx (d : BitVec 5) (a : BitVec 5) (b : BitVec 5) (m : BitVec 3) (j : BitVec 1) (k : BitVec 4) : Statement (.pvldx d a b m j k) := fun _ => ⟨⟨fun h => Bool.noConfusion h, fun h => absurd h (by decide : ¬(1 = 2))⟩, ⟨fun _ => rfl, fun _ => rfl⟩⟩
theorem pvst (v : BitVec 5) (a : BitVec 5) (m : BitVec 3) (j : BitVec 1) (k : BitVec 4) : Statement (.pvst v a m j k) := fun _ => ⟨⟨fun h => Bool.noConfusion h, fun h => absurd h (by decide : ¬(1 = 2))⟩, ⟨fun _ => rfl, fun _ => rfl⟩⟩
theorem pvstx (v : BitVec 5) (a : BitVec 5) (b : BitVec 5) (m : BitVec 3) (j : BitVec 1) (k : BitVec 4) : Statement (.pvstx v a b m j k) := fun _ => ⟨⟨fun h => Bool.noConfusion h, fun h => absurd h (by decide : ¬(1 = 2))⟩, ⟨fun _ => rfl, fun _ => rfl⟩⟩
theorem pvamoAdd (v : BitVec 5) (a : BitVec 5) (b : BitVec 5) (m : BitVec 3) (j : BitVec 1) (k : BitVec 4) : Statement (.pvamoAdd v a b m j k) := fun _ => ⟨⟨fun h => Bool.noConfusion h, fun h => absurd h (by decide : ¬(1 = 2))⟩, ⟨fun _ => rfl, fun _ => rfl⟩⟩
theorem qbindF (n : BitVec 5) (a : BitVec 5) (j : BitVec 1) (k : BitVec 4) : Statement (.qbindF n a j k) := fun _ => ⟨⟨fun h => Bool.noConfusion h, fun h => absurd h (by decide : ¬(1 = 2))⟩, ⟨fun _ => rfl, fun _ => rfl⟩⟩
theorem vcsum (d : BitVec 5) (a : BitVec 5) (n : BitVec 2) (j : BitVec 1) : Statement (.vcsum d a n j) := fun _ => ⟨⟨fun h => Bool.noConfusion h, fun h => absurd h (by decide : ¬(1 = 2))⟩, ⟨fun _ => rfl, fun _ => rfl⟩⟩
theorem vcmax (d : BitVec 5) (a : BitVec 5) (n : BitVec 2) (j : BitVec 1) : Statement (.vcmax d a n j) := fun _ => ⟨⟨fun h => Bool.noConfusion h, fun h => absurd h (by decide : ¬(1 = 2))⟩, ⟨fun _ => rfl, fun _ => rfl⟩⟩
theorem vcmin (d : BitVec 5) (a : BitVec 5) (n : BitVec 2) (j : BitVec 1) : Statement (.vcmin d a n j) := fun _ => ⟨⟨fun h => Bool.noConfusion h, fun h => absurd h (by decide : ¬(1 = 2))⟩, ⟨fun _ => rfl, fun _ => rfl⟩⟩
theorem vcgat (d : BitVec 5) (a : BitVec 5) (n : BitVec 2) (j : BitVec 1) : Statement (.vcgat d a n j) := fun _ => ⟨⟨fun h => Bool.noConfusion h, fun h => absurd h (by decide : ¬(1 = 2))⟩, ⟨fun _ => rfl, fun _ => rfl⟩⟩
theorem vcsct (d : BitVec 5) (a : BitVec 5) (n : BitVec 2) (j : BitVec 1) : Statement (.vcsct d a n j) := fun _ => ⟨⟨fun h => Bool.noConfusion h, fun h => absurd h (by decide : ¬(1 = 2))⟩, ⟨fun _ => rfl, fun _ => rfl⟩⟩
theorem vcbc (d : BitVec 5) (a : BitVec 5) (n : BitVec 2) (j : BitVec 1) : Statement (.vcbc d a n j) := fun _ => ⟨⟨fun h => Bool.noConfusion h, fun h => absurd h (by decide : ¬(1 = 2))⟩, ⟨fun _ => rfl, fun _ => rfl⟩⟩
theorem vcscan (d : BitVec 5) (a : BitVec 5) (n : BitVec 2) (j : BitVec 1) : Statement (.vcscan d a n j) := fun _ => ⟨⟨fun h => Bool.noConfusion h, fun h => absurd h (by decide : ¬(1 = 2))⟩, ⟨fun _ => rfl, fun _ => rfl⟩⟩
theorem gabort (n : BitVec 2) (j : BitVec 1) : Statement (.gabort n j) := fun _ => ⟨⟨fun h => Bool.noConfusion h, fun h => absurd h (by decide : ¬(1 = 2))⟩, ⟨fun _ => rfl, fun _ => rfl⟩⟩
theorem gstat (d : BitVec 5) (n : BitVec 2) (j : BitVec 1) : Statement (.gstat d n j) := fun _ => ⟨⟨fun h => Bool.noConfusion h, fun h => absurd h (by decide : ¬(1 = 2))⟩, ⟨fun _ => rfl, fun _ => rfl⟩⟩
theorem tkwait (d : BitVec 5) (a : BitVec 5) (j : BitVec 1) : Statement (.tkwait d a j) := fun _ => ⟨⟨fun h => Bool.noConfusion h, fun h => absurd h (by decide : ¬(1 = 2))⟩, ⟨fun _ => rfl, fun _ => rfl⟩⟩
theorem tkpoll (d : BitVec 5) (j : BitVec 1) : Statement (.tkpoll d j) := fun _ => ⟨⟨fun h => Bool.noConfusion h, fun h => absurd h (by decide : ¬(1 = 2))⟩, ⟨fun _ => rfl, fun _ => rfl⟩⟩
theorem vsave (a : BitVec 5) : Statement (.vsave a) := fun _ => ⟨⟨fun h => Bool.noConfusion h, fun h => absurd h (by decide : ¬(1 = 2))⟩, ⟨fun _ => rfl, fun _ => rfl⟩⟩
theorem vrest (a : BitVec 5) : Statement (.vrest a) := fun _ => ⟨⟨fun h => Bool.noConfusion h, fun h => absurd h (by decide : ¬(1 = 2))⟩, ⟨fun _ => rfl, fun _ => rfl⟩⟩
theorem brole (a : BitVec 5) : Statement (.brole a) := fun _ => ⟨⟨fun h => Bool.noConfusion h, fun h => absurd h (by decide : ¬(1 = 2))⟩, ⟨fun _ => rfl, fun _ => rfl⟩⟩
theorem tcfg (t : BitVec 3) (fc : BitVec 3) (sa : BitVec 5) (j : BitVec 1) : Statement (.tcfg t fc sa j) := fun _ => ⟨⟨fun _ => rfl, fun _ => rfl⟩, ⟨fun h => Bool.noConfusion h, fun h => absurd h (by decide : ¬(2 = 1))⟩⟩
theorem tzero (t : BitVec 3) (j : BitVec 1) : Statement (.tzero t j) := fun _ => ⟨⟨fun _ => rfl, fun _ => rfl⟩, ⟨fun h => Bool.noConfusion h, fun h => absurd h (by decide : ¬(2 = 1))⟩⟩
theorem vopa (t : BitVec 3) (fa : BitVec 3) (fb : BitVec 3) (sm : BitVec 2) (a : BitVec 5) (b : BitVec 5) (j : BitVec 1) : Statement (.vopa t fa fb sm a b j) := fun _ => ⟨⟨fun _ => rfl, fun _ => rfl⟩, ⟨fun h => Bool.noConfusion h, fun h => absurd h (by decide : ¬(2 = 1))⟩⟩
theorem tld (t : BitVec 3) (fc : BitVec 3) (r : BitVec 7) (sa : BitVec 5) (j : BitVec 1) : Statement (.tld t fc r sa j) := fun _ => ⟨⟨fun _ => rfl, fun _ => rfl⟩, ⟨fun h => Bool.noConfusion h, fun h => absurd h (by decide : ¬(2 = 1))⟩⟩
theorem tst (t : BitVec 3) (fc : BitVec 3) (r : BitVec 7) (sa : BitVec 5) (j : BitVec 1) : Statement (.tst t fc r sa j) := fun _ => ⟨⟨fun _ => rfl, fun _ => rfl⟩, ⟨fun h => Bool.noConfusion h, fun h => absurd h (by decide : ¬(2 = 1))⟩⟩
theorem trow (t : BitVec 3) (r : BitVec 7) (d : BitVec 5) (j : BitVec 1) : Statement (.trow t r d j) := fun _ => ⟨⟨fun _ => rfl, fun _ => rfl⟩, ⟨fun h => Bool.noConfusion h, fun h => absurd h (by decide : ¬(2 = 1))⟩⟩
theorem tepi (t : BitVec 3) (fc : BitVec 3) (sm : BitVec 2) (r : BitVec 7) (sa : BitVec 5) (j : BitVec 1) : Statement (.tepi t fc sm r sa j) := fun _ => ⟨⟨fun _ => rfl, fun _ => rfl⟩, ⟨fun h => Bool.noConfusion h, fun h => absurd h (by decide : ¬(2 = 1))⟩⟩
theorem gmm (t : BitVec 3) (b : BitVec 5) (sa : BitVec 5) (j : BitVec 1) : Statement (.gmm t b sa j) := fun _ => ⟨⟨fun _ => rfl, fun _ => rfl⟩, ⟨fun h => Bool.noConfusion h, fun h => absurd h (by decide : ¬(2 = 1))⟩⟩
theorem gmmE (t : BitVec 3) (b : BitVec 5) (sa : BitVec 5) (j : BitVec 1) : Statement (.gmmE t b sa j) := fun _ => ⟨⟨fun _ => rfl, fun _ => rfl⟩, ⟨fun h => Bool.noConfusion h, fun h => absurd h (by decide : ¬(2 = 1))⟩⟩
theorem cload (t : BitVec 3) (fc : BitVec 3) (sa : BitVec 5) (j : BitVec 1) : Statement (.cload t fc sa j) := fun _ => ⟨⟨fun _ => rfl, fun _ => rfl⟩, ⟨fun h => Bool.noConfusion h, fun h => absurd h (by decide : ¬(2 = 1))⟩⟩
theorem ctest (t : BitVec 3) (fc : BitVec 3) (d : BitVec 5) (a : BitVec 5) (m : BitVec 3) (x : BitVec 3) (j : BitVec 1) : Statement (.ctest t fc d a m x j) := fun _ => ⟨⟨fun _ => rfl, fun _ => rfl⟩, ⟨fun h => Bool.noConfusion h, fun h => absurd h (by decide : ¬(2 = 1))⟩⟩
theorem cleaf (d : BitVec 5) (a : BitVec 5) (sa : BitVec 5) (m : BitVec 3) (j : BitVec 1) : Statement (.cleaf d a sa m j) := fun _ => ⟨⟨fun _ => rfl, fun _ => rfl⟩, ⟨fun h => Bool.noConfusion h, fun h => absurd h (by decide : ¬(2 = 1))⟩⟩
theorem ctestC (t : BitVec 3) (fc : BitVec 3) (d : BitVec 5) (a : BitVec 5) (m : BitVec 3) (x : BitVec 3) (j : BitVec 1) : Statement (.ctestC t fc d a m x j) := fun _ => ⟨⟨fun _ => rfl, fun _ => rfl⟩, ⟨fun h => Bool.noConfusion h, fun h => absurd h (by decide : ¬(2 = 1))⟩⟩
theorem tsave (t : BitVec 3) (sa : BitVec 5) (j : BitVec 1) : Statement (.tsave t sa j) := fun _ => ⟨⟨fun _ => rfl, fun _ => rfl⟩, ⟨fun h => Bool.noConfusion h, fun h => absurd h (by decide : ¬(2 = 1))⟩⟩
theorem trest (t : BitVec 3) (sa : BitVec 5) (j : BitVec 1) : Statement (.trest t sa j) := fun _ => ⟨⟨fun _ => rfl, fun _ => rfl⟩, ⟨fun h => Bool.noConfusion h, fun h => absurd h (by decide : ¬(2 = 1))⟩⟩
theorem convoyBegin (hart : Nat) : Statement (.convoyBegin hart) := fun h => Bool.noConfusion h
theorem preemptionRequest (hart : Nat) : Statement (.preemptionRequest hart) := fun h => Bool.noConfusion h
theorem softwareInterrupt (hart : Nat) : Statement (.softwareInterrupt hart) := fun h => Bool.noConfusion h
theorem wfiWake (hart : Nat) : Statement (.wfiWake hart) := fun h => Bool.noConfusion h
theorem mwaitWake (hart : Nat) : Statement (.mwaitWake hart) := fun h => Bool.noConfusion h
theorem mwaitTimeout (hart : Nat) : Statement (.mwaitTimeout hart) := fun h => Bool.noConfusion h
theorem tkwaitLimit (hart : Nat) : Statement (.tkwaitLimit hart) := fun h => Bool.noConfusion h
theorem tepiRowHandover (hart : Nat) : Statement (.tepiRowHandover hart) := fun h => Bool.noConfusion h
theorem tepiCreditTimeout (hart : Nat) : Statement (.tepiCreditTimeout hart) := fun h => Bool.noConfusion h
theorem streamFetch (hart : Nat) (q : Nat) : Statement (.streamFetch hart q) := fun h => Bool.noConfusion h
theorem copyElement (cluster : Nat) : Statement (.copyElement cluster) := fun h => Bool.noConfusion h
theorem pailChainApply (hart : Nat) : Statement (.pailChainApply hart) := fun h => Bool.noConfusion h
theorem remoteRequest (p : Packet) : Statement (.remoteRequest p) := fun h => Bool.noConfusion h
theorem remoteAnswer (seq : Nat) (ans : List (Nat × RAns)) : Statement (.remoteAnswer seq ans) := fun h => Bool.noConfusion h
theorem replayNoticeSend (die : Nat) (ticket : Nat) : Statement (.replayNoticeSend die ticket) := fun h => Bool.noConfusion h
theorem serviceTimeout (die : Nat) (ticket : Nat) : Statement (.serviceTimeout die ticket) := fun h => Bool.noConfusion h
theorem replayNotice (pkg : Nat) (page : Nat) (ticket : Nat) (ok : Bool) : Statement (.replayNotice pkg page ticket ok) := fun h => Bool.noConfusion h
theorem churnRemoteReplay (pkg : Nat) (page : Nat) (ticket : Nat) (ok : Bool) : Statement (.churnRemoteReplay pkg page ticket ok) := fun h => Bool.noConfusion h
theorem collectiveArrival (ctx : BitVec 16) (gid : BitVec 16) (rank : Nat) (key : CollKey) : Statement (.collectiveArrival ctx gid rank key) := fun h => Bool.noConfusion h
theorem collectiveGo (hart : Nat) : Statement (.collectiveGo hart) := fun h => Bool.noConfusion h
theorem collectiveData (ctx : BitVec 16) (gid : BitVec 16) (remote : List (Nat × List Nat)) : Statement (.collectiveData ctx gid remote) := fun h => Bool.noConfusion h
theorem collectiveChunk (hart : Nat) (first : Nat) (data : List Nat) (exc : BitVec 10) (full : Bool) : Statement (.collectiveChunk hart first data exc full) := fun h => Bool.noConfusion h
theorem streamChunkFull (ctx : BitVec 16) (group : Option (BitVec 16)) (user : Bool) (flag : Word) (seq : Word) : Statement (.streamChunkFull ctx group user flag seq) := fun h => Bool.noConfusion h
theorem groupAbortApply (ctx : BitVec 16) (gid : BitVec 16) (why : BitVec 2) (orig : BitVec 10) : Statement (.groupAbortApply ctx gid why orig) := fun h => Bool.noConfusion h
theorem linkError (link : Nat) : Statement (.linkError link) := fun h => Bool.noConfusion h
theorem laneFailure (link : Nat) : Statement (.laneFailure link) := fun h => Bool.noConfusion h
theorem packageLost (pkg : Nat) : Statement (.packageLost pkg) := fun h => Bool.noConfusion h
theorem powerMeasure (mean : Nat) (hot : Bool) : Statement (.powerMeasure mean hot) := fun h => Bool.noConfusion h
theorem grantRaise (mean : Nat) : Statement (.grantRaise mean) := fun h => Bool.noConfusion h
theorem endHart (hart : Nat) : Statement (.endHart hart) := fun h => Bool.noConfusion h
theorem endJob (hart : Nat) : Statement (.endJob hart) := fun h => Bool.noConfusion h
theorem yield (hart : Nat) : Statement (.yield hart) := fun h => Bool.noConfusion h
theorem shootdown (hart : Nat) : Statement (.shootdown hart) := fun h => Bool.noConfusion h
theorem shootdownDone (hart : Nat) : Statement (.shootdownDone hart) := fun h => Bool.noConfusion h
theorem promote (hart : Nat) : Statement (.promote hart) := fun h => Bool.noConfusion h
theorem promoteCopyDone (hart : Nat) : Statement (.promoteCopyDone hart) := fun h => Bool.noConfusion h
theorem grant (hart : Nat) (n : Nat) : Statement (.grant hart n) := fun h => Bool.noConfusion h
theorem release (hart : Nat) : Statement (.release hart) := fun h => Bool.noConfusion h
theorem intr (hart : Nat) : Statement (.intr hart) := fun h => Bool.noConfusion h
theorem mailboxBadFunc (hart : Nat) : Statement (.mailboxBadFunc hart) := fun h => Bool.noConfusion h
theorem queueTailWrite (q : Nat) (v : Nat) : Statement (.queueTailWrite q v) := fun h => Bool.noConfusion h
theorem queueEnable (q : Nat) (v : Word) : Statement (.queueEnable q v) := fun h => Bool.noConfusion h
theorem queueDisable (q : Nat) (v : Word) : Statement (.queueDisable q v) := fun h => Bool.noConfusion h
theorem contextKill (v : Word) : Statement (.contextKill v) := fun h => Bool.noConfusion h
theorem fwInstall (n : Nat) (cut : Bool) : Statement (.fwInstall n cut) := fun h => Bool.noConfusion h
theorem fwReset : Statement .fwReset := fun h => Bool.noConfusion h
theorem hostWindowWrite (off : Nat) (v : Word) : Statement (.hostWindowWrite off v) := fun h => Bool.noConfusion h
theorem takeRecord (q : Nat) : Statement (.takeRecord q) := fun h => Bool.noConfusion h
theorem depsigRecheck (job : Word) : Statement (.depsigRecheck job) := fun h => Bool.noConfusion h
theorem depsigPoll (job : Word) : Statement (.depsigPoll job) := fun h => Bool.noConfusion h
theorem jobPlacement (cluster : Nat) : Statement (.jobPlacement cluster) := fun h => Bool.noConfusion h
theorem clusterSuspend (cluster : Nat) : Statement (.clusterSuspend cluster) := fun h => Bool.noConfusion h
theorem clusterResume (ix : Nat) (cluster : Nat) (bad : Bool) : Statement (.clusterResume ix cluster bad) := fun h => Bool.noConfusion h
theorem jobEnd (job : Word) (ctxEnds : Bool) : Statement (.jobEnd job ctxEnds) := fun h => Bool.noConfusion h
theorem queueSwitchOut (q : Nat) : Statement (.queueSwitchOut q) := fun h => Bool.noConfusion h
theorem queueSwitchIn (q : Nat) : Statement (.queueSwitchIn q) := fun h => Bool.noConfusion h
theorem packageReset : Statement .packageReset := fun h => Bool.noConfusion h
theorem clk (pkg : BitVec 7) : Statement (.clk pkg) := fun h => Bool.noConfusion h
theorem d2d : Statement .d2d := fun h => Bool.noConfusion h
theorem dramcal : Statement .dramcal := fun h => Bool.noConfusion h
theorem llcinit : Statement .llcinit := fun h => Bool.noConfusion h
theorem wmarkAdvance (die : Nat) : Statement (.wmarkAdvance die) := fun h => Bool.noConfusion h
theorem draminit : Statement .draminit := fun h => Bool.noConfusion h
theorem fabric (ports : List Nat) (present : List (BitVec 7)) : Statement (.fabric ports present) := fun h => Bool.noConfusion h
theorem ready : Statement .ready := fun h => Bool.noConfusion h
theorem stageFail : Statement .stageFail := fun h => Bool.noConfusion h
theorem attestation (nonce : List Byte) : Statement (.attestation nonce) := fun h => Bool.noConfusion h
theorem patrolScrub (decayed : List Nat) (corrected : List Nat) : Statement (.patrolScrub decayed corrected) := fun h => Bool.noConfusion h
theorem hostAccess (e : RElem) : Statement (.hostAccess e) := fun h => Bool.noConfusion h
theorem illegalEncoding (sub : BitVec 8) (word : IWord) (pos : Nat) : Statement (.illegalEncoding sub word pos) := fun h => Bool.noConfusion h
theorem fetchFault (addr : Word) : Statement (.fetchFault addr) := fun h => Bool.noConfusion h
theorem hostCompletion (hart : Nat) : Statement (.hostCompletion hart) := fun h => Bool.noConfusion h
theorem arrivalWithdrawal (ctx : BitVec 16) (gid : BitVec 16) (rank : Nat) (applied : Bool) : Statement (.arrivalWithdrawal ctx gid rank applied) := fun h => Bool.noConfusion h

end Sys2Proof.Laws.EncodingLength
end

