-- ==== Sys2Proof/Laws/Tables.lean ====
section
/-! SUPPORT. The tables of the state, the harts, cores and clusters they hold, and what the shared operations over them leave alone. -/

namespace Sys2Proof.Machine

open Sys2Proof

/-! ### Tables -/

@[simp] theorem tabGet_tabPut_same {α : Type} : ∀ (t : List (Nat × α)) (n : Nat) (x : α), tabGet (tabPut t n x) n = some x
  | [], n, x => by simp [tabPut, tabGet]
  | (k, v) :: rest, n, x => by
    unfold tabPut
    split
    · simp [tabGet]
    · split
      · simp [tabGet]
      · next h => simp [tabGet, h, tabGet_tabPut_same rest n x]

theorem tabGet_tabPut_other {α : Type} : ∀ (t : List (Nat × α)) {n m : Nat} (x : α), m ≠ n → tabGet (tabPut t n x) m = tabGet t m
  | [], n, m, x, h => by simp [tabPut, tabGet, Ne.symm h]
  | (k, v) :: rest, n, m, x, h => by
    unfold tabPut
    split
    · simp [tabGet, Ne.symm h]
    · split
      · next hk => subst hk; simp [tabGet, Ne.symm h]
      · simp [tabGet, tabGet_tabPut_other rest x h]

theorem tabGet_tabDel_other {α : Type} : ∀ (t : List (Nat × α)) {n m : Nat}, m ≠ n → tabGet (tabDel t n) m = tabGet t m
  | [], _, _, _ => rfl
  | (k, v) :: rest, n, m, h => by
    unfold tabDel
    split
    · next hk => subst hk; simp [tabGet, Ne.symm h]
    · simp [tabGet, tabGet_tabDel_other rest h]

/-- A table mapped entry by entry. -/
theorem tabGet_map {α β : Type} (f : α → β) : ∀ (t : List (Nat × α)) (n : Nat), tabGet (t.map (fun c => (c.1, f c.2))) n = (tabGet t n).map f
  | [], _ => rfl
  | (k, v) :: rest, n => by
    simp only [List.map_cons, tabGet]
    split
    · rfl
    · exact tabGet_map f rest n

/-! ### Harts, cores and clusters -/

theorem getD_set_same {α : Type} {n : Nat} (v : Vector α n) (i : Nat) (hi : i < n) (x d : α) : (v.setIfInBounds i x).getD i d = x := by
  simp [Vector.getD, Array.getD, hi]

theorem getD_set_other {α : Type} {n i j : Nat} (v : Vector α n) (h : j ≠ i) (x d : α) : (v.setIfInBounds i x).getD j d = v.getD j d := by
  have e : (v.setIfInBounds i x)[j]? = v[j]? := Vector.getElem?_setIfInBounds_ne (Ne.symm h)
  have k : ∀ u : Vector α n, u.getD j d = (u[j]?).getD d := by
    intro u
    show u.toArray.getD j d = _
    rw [Array.getD_eq_getD_getElem?]
    simp
  rw [k, k, e]

theorem State.getHart_own (s : State) : s.getHart s.hart.id = s.hart := by simp [State.getHart]

theorem State.getHart_setHart_same (s : State) (h : Hart) : (s.setHart h).getHart h.id = h := by
  unfold State.setHart State.putAway State.getHart
  by_cases e : s.hart.id = h.id
  · simp [e]
  · by_cases f : isFirm h.id = true
    · have hk : h.id - 4096 < 4 := by simp [isFirm] at f; omega
      simp only [e, f, if_false, if_true]
      exact getD_set_same _ _ hk _ _
    · simp [e, f]

theorem State.getHart_setHart_other (s : State) (h : Hart) {n : Nat} (hn : n ≠ h.id) : (s.setHart h).getHart n = s.getHart n := by
  unfold State.setHart State.putAway State.getHart
  by_cases e : s.hart.id = h.id
  · simp [e, Ne.symm hn]
  · by_cases f : isFirm h.id = true
    · simp only [e, f, if_false, if_true]
      split
      · rfl
      · split
        · next g =>
          have hk : n - 4096 ≠ h.id - 4096 := by simp [isFirm] at f g; omega
          exact getD_set_other _ hk _ _
        · rfl
    · simp only [e, f, if_false, Bool.false_eq_true]
      rw [tabGet_tabPut_other _ _ hn]

/-- Setting another hart leaves the issuing hart alone. -/
theorem State.setHart_hart (s : State) (h : Hart) : (s.setHart h).hart = if s.hart.id = h.id then h else s.hart := by
  unfold State.setHart State.putAway
  split
  · rfl
  · split <;> rfl

@[simp] theorem State.setHart_mem (s : State) (h : Hart) : (s.setHart h).mem = s.mem := by
  unfold State.setHart State.putAway; split <;> first | rfl | (split <;> rfl)
@[simp] theorem State.setHart_ecc (s : State) (h : Hart) : (s.setHart h).ecc = s.ecc := by
  unfold State.setHart State.putAway; split <;> first | rfl | (split <;> rfl)
@[simp] theorem State.setHart_tlb (s : State) (h : Hart) : (s.setHart h).tlb = s.tlb := by
  unfold State.setHart State.putAway; split <;> first | rfl | (split <;> rfl)
@[simp] theorem State.setHart_cores (s : State) (h : Hart) : (s.setHart h).cores = s.cores := by
  unfold State.setHart State.putAway; split <;> first | rfl | (split <;> rfl)
@[simp] theorem State.setHart_clusters (s : State) (h : Hart) : (s.setHart h).clusters = s.clusters := by
  unfold State.setHart State.putAway; split <;> first | rfl | (split <;> rfl)
@[simp] theorem State.setHart_jobs (s : State) (h : Hart) : (s.setHart h).jobs = s.jobs := by
  unfold State.setHart State.putAway; split <;> first | rfl | (split <;> rfl)
@[simp] theorem State.setHart_gangs (s : State) (h : Hart) : (s.setHart h).gangs = s.gangs := by
  unfold State.setHart State.putAway; split <;> first | rfl | (split <;> rfl)
@[simp] theorem State.setHart_queues (s : State) (h : Hart) : (s.setHart h).queues = s.queues := by
  unfold State.setHart State.putAway; split <;> first | rfl | (split <;> rfl)
@[simp] theorem State.setHart_groups (s : State) (h : Hart) : (s.setHart h).groups = s.groups := by
  unfold State.setHart State.putAway; split <;> first | rfl | (split <;> rfl)
@[simp] theorem State.setHart_slots (s : State) (h : Hart) : (s.setHart h).slots = s.slots := by
  unfold State.setHart State.putAway; split <;> first | rfl | (split <;> rfl)
@[simp] theorem State.setHart_churns (s : State) (h : Hart) : (s.setHart h).churns = s.churns := by
  unfold State.setHart State.putAway; split <;> first | rfl | (split <;> rfl)
@[simp] theorem State.setHart_sent (s : State) (h : Hart) : (s.setHart h).sent = s.sent := by
  unfold State.setHart State.putAway; split <;> first | rfl | (split <;> rfl)
@[simp] theorem State.setHart_parked (s : State) (h : Hart) : (s.setHart h).parked = s.parked := by
  unfold State.setHart State.putAway; split <;> first | rfl | (split <;> rfl)

@[simp] theorem State.getCore_setCore_same (s : State) (k : Nat) (c : Core) : (s.setCore k c).getCore k = c := by simp [State.getCore, State.setCore]
theorem State.getCore_setCore_other (s : State) {k n : Nat} (c : Core) (h : n ≠ k) : (s.setCore k c).getCore n = s.getCore n := by
  simp [State.getCore, State.setCore, tabGet_tabPut_other _ _ h]
@[simp] theorem State.getCluster_setCluster_same (s : State) (k : Nat) (c : Cluster) : (s.setCluster k c).getCluster k = c := by
  simp [State.getCluster, State.setCluster]
theorem State.getCluster_setCluster_other (s : State) {k n : Nat} (c : Cluster) (h : n ≠ k) : (s.setCluster k c).getCluster n = s.getCluster n := by
  simp [State.getCluster, State.setCluster, tabGet_tabPut_other _ _ h]

/-! ### What the shared operations leave alone -/

theorem State.ps_gs_same (s : State) {r : Reg5} (hr : r ≠ 0) (x : Word) : (s.ps r x).gs r = x := Hart.gs_ps_same s.hart hr x
theorem State.ps_gs_other (s : State) {r q : Reg5} (hq : q ≠ r) (x : Word) : (s.ps r x).gs q = s.gs q := Hart.gs_ps_other s.hart hq x

/-- Performing a write changes memory, its history (R77), the codewords and the cached copies of them it covers whole, the harts asleep on its line and the calls it starts, and nothing else. -/
theorem State.perform_cases (s : State) (l : Nat) (bs : List Byte) : ∃ cs, s.perform l bs =
    { s with mem := memPut s.mem l bs, ecc := repaired s.ecc l bs.length, hart := s.hart.wakeOn l bs.length,
             writes := s.writes + 1, past := (s.writes, l, memRead bs.length l s.mem) :: s.past,
             harts := s.harts.map (fun p => (p.1, p.2.wakeOn l bs.length)), eweok := s.eweok.map (·.wakeOn l bs.length),
             badCopies := s.badCopies.filter (fun c => !(decide (l ≤ c.cw) && decide (c.cw + c.size ≤ l + bs.length))), calls := cs } := by
  unfold State.perform
  split
  · exact ⟨s.calls, rfl⟩
  · simp only []
    split
    · exact ⟨_, rfl⟩
    · exact ⟨s.calls, rfl⟩

/-- A wake changes the wait of a hart and nothing else. -/
theorem Hart.wakeOn_cases (h : Hart) (l n : Nat) : h.wakeOn l n = h ∨ h.wakeOn l n = { h with wait := .none, resume := .woken } := by
  unfold Hart.wakeOn
  split
  · split
    · exact .inr rfl
    · exact .inl rfl
  · exact .inl rfl

@[simp] theorem Hart.wakeOn_s (h : Hart) (l n : Nat) : (h.wakeOn l n).s = h.s := by rcases h.wakeOn_cases l n with e | e <;> rw [e]
@[simp] theorem Hart.wakeOn_pc (h : Hart) (l n : Nat) : (h.wakeOn l n).pc = h.pc := by rcases h.wakeOn_cases l n with e | e <;> rw [e]
@[simp] theorem Hart.wakeOn_id (h : Hart) (l n : Nat) : (h.wakeOn l n).id = h.id := by rcases h.wakeOn_cases l n with e | e <;> rw [e]
@[simp] theorem Hart.wakeOn_sbuf (h : Hart) (l n : Nat) : (h.wakeOn l n).sbuf = h.sbuf := by rcases h.wakeOn_cases l n with e | e <;> rw [e]
@[simp] theorem Hart.wakeOn_vbuf (h : Hart) (l n : Nat) : (h.wakeOn l n).vbuf = h.vbuf := by rcases h.wakeOn_cases l n with e | e <;> rw [e]

@[simp] theorem State.perform_tlb (s : State) (l : Nat) (bs : List Byte) : (s.perform l bs).tlb = s.tlb := by obtain ⟨cs, e⟩ := s.perform_cases l bs; rw [e]
@[simp] theorem State.perform_cores (s : State) (l : Nat) (bs : List Byte) : (s.perform l bs).cores = s.cores := by obtain ⟨cs, e⟩ := s.perform_cases l bs; rw [e]
@[simp] theorem State.perform_clusters (s : State) (l : Nat) (bs : List Byte) : (s.perform l bs).clusters = s.clusters := by
  obtain ⟨cs, e⟩ := s.perform_cases l bs; rw [e]
@[simp] theorem State.perform_outbox (s : State) (l : Nat) (bs : List Byte) : (s.perform l bs).outbox = s.outbox := by obtain ⟨cs, e⟩ := s.perform_cases l bs; rw [e]
@[simp] theorem State.perform_jobs (s : State) (l : Nat) (bs : List Byte) : (s.perform l bs).jobs = s.jobs := by obtain ⟨cs, e⟩ := s.perform_cases l bs; rw [e]
@[simp] theorem State.perform_promos (s : State) (l : Nat) (bs : List Byte) : (s.perform l bs).promos = s.promos := by obtain ⟨cs, e⟩ := s.perform_cases l bs; rw [e]
theorem State.perform_hart (s : State) (l : Nat) (bs : List Byte) : (s.perform l bs).hart = s.hart.wakeOn l bs.length := by
  obtain ⟨cs, e⟩ := s.perform_cases l bs; rw [e]

end Sys2Proof.Machine
end

