-- ==== Sys2Proof/Laws/Vector.lean ====
section
/-! SUPPORT. What a vector, tile or engine instruction can come to, once for the shared operations: the checks of R354 where the hart may join, the operands where no
register is bound to a stream, and element-wise and mask results. -/

namespace Sys2Proof.Machine

open Sys2Proof

/-! ### Joining a convoy (R15, R144, R157) -/

/-- The convoy that a header joins is that of its J bit. -/
theorem Hdr.joins_eq (hd : Hdr) (h : Hart) (j : BitVec 1) (hj : hd.j = (j == 1)) : hd.joins h.convoy = h.joinedConvoy j := by
  unfold Hdr.joins Hart.joinedConvoy
  cases h.convoy <;> simp [hj]

/-- An instruction of a unit class passes every check of its header where the hart may join. -/
theorem Hdr.check_unit (hd : Hdr) (s : State) (u : UnitClass) (j : BitVec 1) (hu : hd.unit = some u) (hj : hd.j = (j == 1)) (h7 : hd.bad07 = false)
    (hb : hd.bad0B = false) (hp : hd.priv = false) (hm : s.hart.mayJoin u j = true) : hd.check s = none := by
  simp only [Hart.mayJoin, Hart.owns, Hart.room, Bool.and_eq_true, decide_eq_true_eq, beq_iff_eq] at hm
  obtain ⟨⟨⟨hv, hc⟩, hl, hn⟩, -⟩ := hm
  have h1 : hd.convoyTrap s.hart.convoy = none := by
    unfold Hdr.convoyTrap
    rw [hu, Hdr.joins_eq hd s.hart j hj]
    simp only
    rw [if_neg (by omega), if_neg (by omega)]
  simp [Hdr.check, h7, h1, hb, hp, hv, hc]

/-- A hart that may join has no register with an uncorrectable error. -/
theorem Hart.mayJoin_sound {h : Hart} {u : UnitClass} {j : BitVec 1} (hm : h.mayJoin u j = true) : h.sound = true := by
  simp only [Hart.mayJoin, Bool.and_eq_true] at hm
  exact hm.2

/-- Where no register has an uncorrectable error, no group has. -/
theorem Hart.badGroup_sound {h : Hart} (hs : h.sound = true) (r regs w lo n : Nat) : h.badGroup r regs w lo n = none := by
  unfold Hart.badGroup
  rw [List.isEmpty_iff.mp hs]
  rfl

/-- The convoy of a header of a unit class. -/
theorem Hdr.convoy_unit (hd : Hdr) (h : Hart) (u : UnitClass) (j : BitVec 1) (hu : hd.unit = some u) (hj : hd.j = (j == 1)) :
    hd.convoy h.convoy = h.convoyWith u j hd.swrites := by
  unfold Hdr.convoy Hart.convoyWith
  rw [hu, Hdr.joins_eq hd h j hj]

/-- An instruction of a unit class that passes its header's checks: its own checks and effect on the state that has joined. -/
theorem runInstr_unit (hd : Hdr) (s : State) (f : State → Except Trap Eff) (u : UnitClass) (j : BitVec 1) (hu : hd.unit = some u) (hj : hd.j = (j == 1))
    (h7 : hd.bad07 = false) (hb : hd.bad0B = false) (hp : hd.priv = false) (hm : s.hart.mayJoin u j = true) :
    runInstr hd s f =
      match f (s.joined u j hd.swrites) with
      | .error t => .next ((s.joined u j hd.swrites).trap t)
      | .ok e => .next (hd.finish s.hart.convoy e) := by
  rw [runInstr_passes hd s f (Hdr.check_unit hd s u j hu hj h7 hb hp hm) (Hdr.badSource_sound hd _ (Hart.mayJoin_sound hm))]
  have he : s.begun hd = s.joined u j hd.swrites := by
    unfold State.begun State.joined State.upd Hdr.starts
    beta_reduce
    rw [hu, Hdr.convoy_unit hd s.hart u j hu hj] <;> rfl
  rw [he] <;> cases f (s.joined u j hd.swrites) <;> rfl

/-- The end of an instruction of a unit class that retires. -/
theorem Hdr.finish_next_unit (hd : Hdr) (c : Option Convoy) (s : State) (u : UnitClass) (hu : hd.unit = some u) :
    hd.finish c (.next s) = s.vecRetired hd.len := by
  simp only [Hdr.finish, hu, Option.isSome_some]
  rfl

/-- A hart with another convoy, that remembers of its instruction what hart `b` does. -/
def Hart.going (h b : Hart) (c : Option Convoy) : Hart := { h with convoy := c, places := b.places, refuse := b.refuse, opened := b.opened, credit := b.credit }

/-- Beginning an instruction changes what the hart remembers of one and nothing else, whatever the convoy. -/
theorem Hart.begin_eq (h : Hart) (c : Option Convoy) : ({ h with convoy := c } : Hart).begin_ = h.going h.begin_ c := by
  unfold Hart.going Hart.begin_
  dsimp only
  split <;> rfl

/-- What an instruction has remembered depends on that alone. -/
theorem Hart.begin_congr {a b : Hart} (hc : a.cur = b.cur) (hp : a.places = b.places) (hr : a.refuse = b.refuse) :
    a.begin_.places = b.begin_.places ∧ a.begin_.refuse = b.begin_.refuse := by
  unfold Hart.begin_
  rw [hc]
  split
  · exact ⟨rfl, rfl⟩
  · exact ⟨hp, hr⟩

/-- Joining changes no register, mask, stream or type. -/
theorem State.joined_hart (s : State) (u : UnitClass) (j : BitVec 1) (sw : List Reg5) :
    (s.joined u j sw).hart = s.hart.going s.hart.begin_ (s.hart.convoyWith u j sw) := s.hart.begin_eq _

/-- A hart that has joined has the registers with an error that it had. -/
theorem State.joined_sound (s : State) (u : UnitClass) (j : BitVec 1) (sw : List Reg5) : (s.joined u j sw).hart.sound = s.hart.sound := by
  rw [State.joined_hart] <;> rfl

/-- A hart that has joined has the streams that it had. -/
theorem State.joined_streams (s : State) (u : UnitClass) (j : BitVec 1) (sw : List Reg5) : (s.joined u j sw).hart.streams = s.hart.streams := by
  rw [State.joined_hart] <;> rfl

/-! ### Operands without streams (R10, R211) -/

/-- A plain operand has no stream. -/
theorem Hart.plain_stream {h : Hart} {os : List VOpd} (hp : h.plainGroups os = true) {o : VOpd} (ho : o ∈ os) : h.stream o.reg = none := by
  have := List.all_eq_true.mp hp o ho
  simp only [Bool.and_eq_true, Option.isNone_iff_eq_none] at this
  exact this.2

/-- A plain operand starts at a multiple of its size. -/
theorem Hart.plain_aligned {h : Hart} {os : List VOpd} (hp : h.plainGroups os = true) {o : VOpd} (ho : o ∈ os) : o.misaligned = false := by
  have := List.all_eq_true.mp hp o ho
  simp only [Bool.and_eq_true, Bool.not_eq_true'] at this
  exact this.1.1

/-- A plain operand has no stream within it. -/
theorem Hart.plain_inside {h : Hart} {os : List VOpd} (hp : h.plainGroups os = true) {o : VOpd} (ho : o ∈ os) : h.streamInside o = false := by
  have h1 := List.all_eq_true.mp hp o ho
  simp only [Bool.and_eq_true, List.all_eq_true] at h1
  unfold Hart.streamInside
  rw [List.any_eq_false]
  intro k hk
  have := h1.1.2 k hk
  simp only [Option.isNone_iff_eq_none] at this
  simp [this]

/-- Step 4 of R354 passes plain operands. -/
theorem stepFour_plain (hdr : Hdr) (h : Hart) (bad07 masked : Bool) (srcs dsts : List VOpd) (hs : h.plainGroups srcs = true) (hd : h.plainGroups dsts = true)
    (h7 : bad07 = false) : stepFour hdr h false bad07 masked srcs dsts = .ok () := by
  have a1 : srcs.any (h.streamBad · false false) = false := by
    rw [List.any_eq_false]; intro o ho; simp [Hart.streamBad, Hart.plain_stream hs ho]
  have a2 : dsts.any (h.streamBad · true masked) = false := by
    rw [List.any_eq_false]; intro o ho; simp [Hart.streamBad, Hart.plain_stream hd ho]
  have a3 : srcs.any VOpd.misaligned = false := by rw [List.any_eq_false]; intro o ho; simp [Hart.plain_aligned hs ho]
  have a4 : dsts.any VOpd.misaligned = false := by rw [List.any_eq_false]; intro o ho; simp [Hart.plain_aligned hd ho]
  have a5 : srcs.any h.streamInside = false := by rw [List.any_eq_false]; intro o ho; simp [Hart.plain_inside hs ho]
  have a6 : dsts.any h.streamInside = false := by rw [List.any_eq_false]; intro o ho; simp [Hart.plain_inside hd ho]
  simp [stepFour, a1, a2, a3, a4, a5, a6, h7]

/-- Plain source operands need no fetching. -/
theorem State.fetchSources_plain (s : State) (n : Nat) (hs : s.hart.sound = true) : ∀ (os : List VOpd) (acc : List (VOpd × List Nat)),
    (∀ o ∈ os, s.hart.stream o.reg = none) → s.fetchSources n os acc = (s, .ok (acc.map (·.2) ++ os.map (fun _ => [])))
  | [], acc, _ => by simp [State.fetchSources]
  | o :: os, acc, h => by
    have h1 : s.fetchSource o n = .ok s [] := by simp [State.fetchSource, h o (by simp), Hart.badGroup_sound hs]
    rw [State.fetchSources, h1, h o (by simp)]
    simp only [Option.isSome_none, Bool.false_eq_true, if_false]
    rw [State.fetchSources_plain s n hs os (acc ++ [(o, [])]) (fun q hq => h q (by simp [hq]))]
    simp

/-- Further groups read without an error change nothing. -/
theorem State.reading_sound (s : State) (os : List (VOpd × Nat × Nat)) (e : Eff) (hs : s.hart.sound = true) : s.reading os e = e := by
  have h1 : os.findSome? (fun o => if (s.hart.stream o.1.reg).isSome then none else s.hart.badGroup o.1.reg.toNat o.1.regs o.1.w o.2.1 o.2.2) = none := by
    rw [List.findSome?_eq_none_iff]
    intro o _
    rw [Hart.badGroup_sound hs, ite_self]
  unfold State.reading
  rw [h1, ite_self]

/-- The value of an element of a plain source operand. -/
theorem Hart.srcVal_plain (h : Hart) (os : List VOpd) (vals : List (List Nat)) (k i : Nat) {o : VOpd} (hk : os[k]? = some o) (ho : h.stream o.reg = none) :
    h.srcVal os vals k i = h.elem o.reg.toNat o.w i := by
  simp [Hart.srcVal, hk, ho]

/-- Plain operands advance no stream. -/
theorem Hart.advance_plain (h : Hart) (os : List VOpd) (k : Nat) (hp : ∀ o ∈ os, h.stream o.reg = none) : h.advance os k = h := by
  have hs : (h.streams.mapFinIdx (fun q st _ => if os.any (fun o => o.reg.toNat == 24 + q) then st.map (·.advance k) else st)) = h.streams := by
    apply Vector.ext
    intro q hq
    rw [Vector.getElem_mapFinIdx]
    split
    · next ha =>
      obtain ⟨o, ho, e⟩ := List.any_eq_true.mp ha
      have h1 := hp o ho
      simp only [beq_iff_eq] at e
      have h2 : h.streams[q] = none := by
        unfold Hart.stream at h1
        rw [if_pos (by omega)] at h1
        have e2 : o.reg.toNat - 24 = q := by omega
        rw [e2] at h1
        simpa [Vector.getD, hq] using h1
      rw [h2]
      rfl
    · rfl
  unfold Hart.advance
  rw [hs]

/-! ### Element-wise instructions (R96, R114) -/

/-- A vector instruction on plain operands. -/
theorem vecRun_plain (hdr : Hdr) (bad03 bad07 : Hart → Bool) (masked : Bool) (srcs dsts : Hart → List VOpd) (k : State → List VOpd → (Nat → Nat → Nat) → Eff)
    (s : State) (u : UnitClass) (j : BitVec 1) (hu : hdr.unit = some u) (hj : hdr.j = (j == 1)) (h7 : hdr.bad07 = false) (hb : hdr.bad0B = false)
    (hp : hdr.priv = false) (hm : s.hart.mayJoin u j = true)
    (b3 : bad03 (s.joined u j hdr.swrites).hart = false) (b7 : bad07 (s.joined u j hdr.swrites).hart = false)
    (hs : (s.joined u j hdr.swrites).hart.plainGroups (srcs (s.joined u j hdr.swrites).hart) = true)
    (hd : (s.joined u j hdr.swrites).hart.plainGroups (dsts (s.joined u j hdr.swrites).hart) = true) :
    vecRun hdr bad03 bad07 masked srcs dsts k s =
      .next (hdr.finish s.hart.convoy (k (s.joined u j hdr.swrites) (srcs (s.joined u j hdr.swrites).hart)
        ((s.joined u j hdr.swrites).hart.srcVal (srcs (s.joined u j hdr.swrites).hart) ((srcs (s.joined u j hdr.swrites).hart).map (fun _ => []))))) := by
  unfold vecRun
  rw [runInstr_unit hdr s _ u j hu hj h7 hb hp hm]
  simp only [b3, stepFour_plain hdr _ _ masked _ _ hs hd b7, State.fetchSources_plain _ _ ((s.joined_sound u j hdr.swrites).trans (Hart.mayJoin_sound hm)) _ _ (fun o ho => Hart.plain_stream hs ho), List.map_nil, List.nil_append]

/-- Setting elements one by one changes vector registers only, whatever the convoy. -/
theorem Hart.putElem_fold (b : Hart) (c : Option Convoy) (r w : Nat) : ∀ (xs : List (Nat × Nat)) (h : Hart),
    xs.foldl (fun h p => h.putElem r w p.1 p.2) (h.going b c) = { h.going b c with v := (xs.foldl (fun h p => h.putElem r w p.1 p.2) h).v } := by
  intro xs
  induction xs with
  | nil => intro h; rfl
  | cons p ps ih => intro h; exact ih (h.putElem r w p.1 p.2)

/-- Setting elements one by one changes vector registers only. -/
theorem Hart.putElem_fold_eq (r w : Nat) : ∀ (xs : List (Nat × Nat)) (h : Hart),
    xs.foldl (fun h p => h.putElem r w p.1 p.2) h = { h with v := (xs.foldl (fun h p => h.putElem r w p.1 p.2) h).v } := by
  intro xs
  induction xs with
  | nil => intro h; rfl
  | cons p ps ih => intro h; exact (ih (h.putElem r w p.1 p.2)).trans rfl

/-- Setting elements changes vector registers and the codewords with an error only. -/
theorem Hart.putElems_eq (r w : Nat) (xs : List (Nat × Nat)) (h : Hart) :
    h.putElems r w xs = { h with v := (h.putElems r w xs).v, bad := (h.putElems r w xs).bad } := by
  unfold Hart.putElems
  dsimp only
  rw [Hart.putElem_fold_eq]

/-- Elements set in a hart whatever its convoy. -/
theorem Hart.putElems_convoy (h b : Hart) (c : Option Convoy) (r w : Nat) (xs : List (Nat × Nat)) :
    (h.going b c).putElems r w xs = (h.putElems r w xs).going b c := by
  unfold Hart.putElems
  dsimp only
  rw [Hart.putElem_fold b c r w xs h, Hart.putElem_fold_eq r w xs h]
  rfl

/-- The exceptions of an instruction change FCSR, a mask and its codewords only. -/
theorem Hart.except_eq (h : Hart) (x : Reg3) (es : List (Nat × Exc)) : h.except x es = { h with fcsr := (h.except x es).fcsr, m := (h.except x es).m, bad := (h.except x es).bad } := by
  unfold Hart.except Hart.raise Hart.pmBits Hart.pm
  split <;> rfl

/-- The exceptions of an instruction recorded in a hart whatever its convoy. -/
theorem Hart.except_convoy (h b : Hart) (c : Option Convoy) (x : Reg3) (es : List (Nat × Exc)) :
    (h.going b c).except x es = (h.except x es).going b c := by
  unfold Hart.except
  split <;> rfl

/-- The results of an element-wise instruction on plain operands (R96): each active element gets its result, and nothing else changes but the exceptions. -/
theorem State.mapped_plain (hdr : Hdr) (so : List VOpd) (src : Nat → Nat → Nat) (dst : VOpd) (m x : Reg3) (f : Hart → (Nat → Nat → Nat) → Nat → Nat × Exc)
    (g : Nat → Nat × Exc) (s : State) (u : UnitClass) (j : BitVec 1) (hu : hdr.unit = some u) (hl : hdr.body = none)
    (hs : (s.joined u j []).hart.plainGroups so = true) (hst : (s.joined u j []).hart.stream dst.reg = none) (hf : ∀ i, f (s.joined u j []).hart src i = g i) :
    hdr.finish s.hart.convoy ((s.joined u j []).mapped hdr so src dst m x f) = s.vecDone u j dst.reg dst.w m x g := by
  have hadv : ∀ (h : Hart) (n : Nat), h.streams = s.hart.streams → h.advance so n = h := fun h n e =>
    Hart.advance_plain h _ n (fun o ho => by
      have := Hart.plain_stream hs ho
      unfold Hart.stream at this ⊢
      rw [s.joined_streams] at this
      rw [e]; exact this)
  unfold State.mapped
  simp only [State.putResult, hst, hf, Hart.activeFor, Option.isSome_none, Bool.false_eq_true, if_false, List.filter_true]
  rw [Hdr.finish_next_unit hdr _ _ u hu]
  simp only [Hdr.len, hl, Option.isSome_none, Bool.false_eq_true, if_false, List.map_map, Function.comp_def, State.upd]
  rw [hadv _ _ (by rw [Hart.putElems_eq]; exact s.joined_streams u j [])]
  simp only [State.vecRetired, State.vecDone, Hart.vecDone, Hart.vectorPast, State.joined_hart, Hart.putElems_convoy, Hart.except_convoy, List.map_map, Function.comp_def]
  have hc : ∀ (xs : List (Nat × Nat)) (es : List (Nat × Exc)), ((s.hart.putElems dst.reg.toNat dst.w xs).except x es).convoyWith u j [] = s.hart.convoyWith u j [] := fun xs es => by
    rw [Hart.except_eq, Hart.putElems_eq]; rfl
  have hb : ∀ (xs : List (Nat × Nat)) (es : List (Nat × Exc)), ((s.hart.putElems dst.reg.toNat dst.w xs).except x es).begin_.places = s.hart.begin_.places ∧
      ((s.hart.putElems dst.reg.toNat dst.w xs).except x es).begin_.refuse = s.hart.begin_.refuse := fun xs es => by
    rw [Hart.except_eq, Hart.putElems_eq]; exact Hart.begin_congr rfl rfl rfl
  rw [hc, (hb _ _).1, (hb _ _).2]
  rfl

/-- An element-wise instruction on plain operands (R96). -/
theorem vecMap_plain (hdr : Hdr) (bad03 bad07 : Hart → Bool) (srcs : Hart → List VOpd) (dst : Hart → VOpd) (m x : Reg3)
    (f : Hart → (Nat → Nat → Nat) → Nat → Nat × Exc) (g : Nat → Nat × Exc) (s : State) (u : UnitClass) (j : BitVec 1) (hu : hdr.unit = some u)
    (hj : hdr.j = (j == 1)) (h7 : hdr.bad07 = false) (hb : hdr.bad0B = false) (hp : hdr.priv = false) (hl : hdr.body = none) (hw : hdr.swrites = [])
    (hm : s.hart.mayJoin u j = true) (b3 : bad03 (s.joined u j []).hart = false) (b7 : bad07 (s.joined u j []).hart = false)
    (ho : (s.joined u j []).hart.operandsOk (srcs (s.joined u j []).hart) [dst (s.joined u j []).hart] = true)
    (hf : ∀ i, f (s.joined u j []).hart ((s.joined u j []).hart.srcVal (srcs (s.joined u j []).hart) ((srcs (s.joined u j []).hart).map (fun _ => []))) i = g i) :
    vecMap hdr bad03 bad07 srcs dst m x f s = .next (s.vecDone u j (dst (s.joined u j []).hart).reg (dst (s.joined u j []).hart).w m x g) := by
  simp only [Hart.operandsOk, Bool.and_eq_true, Bool.not_eq_true'] at ho
  obtain ⟨⟨hs, hd⟩, hov⟩ := ho
  unfold vecMap
  rw [vecRun_plain hdr bad03 _ _ srcs _ _ s u j hu hj h7 hb hp hm (by rw [hw]; exact b3) (by rw [hw]; simp [b7, hov]) (by rw [hw]; exact hs) (by rw [hw]; exact hd), hw]
  exact congrArg Host.Outcome.next (State.mapped_plain hdr _ _ _ m x f g s u j hu hl hs (Hart.plain_stream hd (List.mem_singleton.mpr rfl)) hf)

/-- The same of an instruction that reads further groups, its accumulator or paired scale registers (R47, R95). -/
theorem vecMapAlso_plain (hdr : Hdr) (bad03 bad07 : Hart → Bool) (srcs : Hart → List VOpd) (also : Hart → List (VOpd × Nat × Nat)) (dst : Hart → VOpd) (m x : Reg3)
    (f : Hart → (Nat → Nat → Nat) → Nat → Nat × Exc) (g : Nat → Nat × Exc) (s : State) (u : UnitClass) (j : BitVec 1) (hu : hdr.unit = some u)
    (hj : hdr.j = (j == 1)) (h7 : hdr.bad07 = false) (hb : hdr.bad0B = false) (hp : hdr.priv = false) (hl : hdr.body = none) (hw : hdr.swrites = [])
    (hm : s.hart.mayJoin u j = true) (b3 : bad03 (s.joined u j []).hart = false) (b7 : bad07 (s.joined u j []).hart = false)
    (ho : (s.joined u j []).hart.operandsOk (srcs (s.joined u j []).hart) [dst (s.joined u j []).hart] = true)
    (hf : ∀ i, f (s.joined u j []).hart ((s.joined u j []).hart.srcVal (srcs (s.joined u j []).hart) ((srcs (s.joined u j []).hart).map (fun _ => []))) i = g i) :
    vecMapAlso hdr bad03 bad07 srcs also dst m x f s = .next (s.vecDone u j (dst (s.joined u j []).hart).reg (dst (s.joined u j []).hart).w m x g) := by
  simp only [Hart.operandsOk, Bool.and_eq_true, Bool.not_eq_true'] at ho
  obtain ⟨⟨hs, hd⟩, hov⟩ := ho
  unfold vecMapAlso
  rw [vecRun_plain hdr bad03 _ _ srcs _ _ s u j hu hj h7 hb hp hm (by rw [hw]; exact b3) (by rw [hw]; simp [b7, hov]) (by rw [hw]; exact hs) (by rw [hw]; exact hd), hw]
  rw [State.reading_sound _ _ _ ((s.joined_sound u j []).trans (Hart.mayJoin_sound hm))]
  exact congrArg Host.Outcome.next (State.mapped_plain hdr _ _ _ m x f g s u j hu hl hs (Hart.plain_stream hd (List.mem_singleton.mpr rfl)) hf)

/-- Writing a mask register of a hart whatever its convoy. -/
theorem Hart.pm_setConvoy (h b : Hart) (c : Option Convoy) (k : Nat) (bs : List (Nat × Bool)) :
    (h.going b c).pmBits k bs = (h.pmBits k bs).going b c := rfl

/-- An instruction that writes a mask register, on plain operands (R114, R115): bit i of each active element, and nothing else but the exceptions. -/
theorem vecMask_plain (hdr : Hdr) (bad03 : Hart → Bool) (srcs : Hart → List VOpd) (d : Reg5) (m x : Reg3) (f : Hart → (Nat → Nat → Nat) → Nat → Bool × Exc)
    (g : Nat → Bool × Exc) (s : State) (u : UnitClass) (j : BitVec 1) (hu : hdr.unit = some u) (hj : hdr.j = (j == 1)) (h7 : hdr.bad07 = false)
    (hb : hdr.bad0B = false) (hp : hdr.priv = false) (hl : hdr.body = none) (hw : hdr.swrites = []) (hm : s.hart.mayJoin u j = true)
    (b3 : bad03 (s.joined u j []).hart = false) (ho : (s.joined u j []).hart.plainGroups (srcs (s.joined u j []).hart) = true)
    (hf : ∀ i, f (s.joined u j []).hart ((s.joined u j []).hart.srcVal (srcs (s.joined u j []).hart) ((srcs (s.joined u j []).hart).map (fun _ => []))) i = g i) :
    vecMask hdr bad03 srcs d m x f s = .next { s with hart := s.hart.maskDone u j d x ((s.hart.active m s.hart.vl).map (fun i => (i, g i))) } := by
  have hadv : ∀ (h : Hart) (n : Nat), h.streams = s.hart.streams → h.advance (srcs (s.joined u j []).hart) n = h := fun h n e =>
    Hart.advance_plain h _ n (fun o ho' => by
      have := Hart.plain_stream ho ho'
      unfold Hart.stream at this ⊢
      rw [s.joined_streams] at this
      rw [e]; exact this)
  unfold vecMask
  rw [vecRun_plain hdr bad03 _ _ srcs _ _ s u j hu hj h7 hb hp hm (by rw [hw]; exact b3) rfl (by rw [hw]; exact ho) rfl]
  simp only [hw, State.consume, hf, State.upd]
  rw [Hdr.finish_next_unit hdr _ _ u hu, hadv (s.joined u j []).hart _ (s.joined_streams u j [])]
  simp only [Hdr.len, hl, Option.isSome_none, Bool.false_eq_true, if_false, State.vecRetired, Hart.maskDone, Hart.vectorPast, State.joined_hart, Hart.pm_setConvoy,
    Hart.except_convoy, List.map_map, Function.comp_def]
  have hc : ∀ (y : List (Nat × Bool)) (es : List (Nat × Exc)), ((s.hart.pmBits d.toNat y).except x es).convoyWith u j [] = s.hart.convoyWith u j [] := fun y es => by rw [Hart.except_eq]; rfl
  have hb : ∀ (y : List (Nat × Bool)) (es : List (Nat × Exc)), ((s.hart.pmBits d.toNat y).except x es).begin_.places = s.hart.begin_.places ∧
      ((s.hart.pmBits d.toNat y).except x es).begin_.refuse = s.hart.begin_.refuse := fun y es => by
    rw [Hart.except_eq]; exact Hart.begin_congr rfl rfl rfl
  rw [hc, (hb _ _).1, (hb _ _).2]
  rfl

end Sys2Proof.Machine
end

