-- ==== Sys2Proof/Tests/Slice0.lean ====
section
/-! SUPPORT. Tests of the model against values that the spec writes out, the encodings among them, and for each statement about it a witness that its hypotheses can hold
together. -/

section Tests

open Sys2Proof Sys2Proof.Machine

-- One theorem at a time: many at once, each with a thread of its own, take more memory than the check allows.
set_option Elab.async false

/-! ### Decoding: words that the spec writes out with their fields -/

/-- 01 Tables 1-3 and 1-6, their worked words. -/
theorem test_decode_formats : decode [0x08A6FFFC] = .ok (.addi 5 6 0xFFFC) 4 ∧ decode [0x08000000] = .ok (.addi 0 0 0) 4 ∧ decode [0x9110A2B4] = .ok (.vfmaVv 8 16 20 2 5 1) 4 ∧
    decode [0xFC4B6180, 0xF8880000] = .ok (.vopa 2 6 6 3 4 8 0) 8 := by decide

/-- 03, the worked words of scalar instructions. -/
theorem test_decode_scalar : decode [0x04A63800] = .ok (.add 5 6 7) 4 ∧ decode [0x04A638CF] = .ok (.adds 5 6 7 3) 4 ∧ decode [0x20A63000] = .ok (.slli 5 6 12) 4 ∧
    decode [0x34C54010] = .ok (.ldW 6 5 16) 4 ∧ decode [0x40A736B9] = .ok (.amoCas 5 7 6 3 2 3) 4 ∧ decode [0x44A0FFFD] = .ok (.beq 5 0 0xFFFD) 4 ∧
    decode [0x68A638C0] = .ok (.fadd 5 6 7 3) 4 ∧ decode [0x7D078043] = .ok (.vsetli 8 7 0x8043) 4 := by decide

/-- 03 `fence device`: the scope stands in fn[8:6], which 0xC5 gives as 3. -/
theorem test_decode_fence : decode [0x6C0000C5] = .ok (.fence 3) 4 := by decide

/-- 04, the worked words of vector instructions, and 06 `vsls`. -/
theorem test_decode_vector : decode [0x8908F800] = .ok (.vaddVi 8 8 0x1F 0 0 0) 4 ∧ decode [0xA0283000] = .ok (.vceqVs 1 8 6 0 0 0) 4 ∧
    decode [0xA8A83007] = .ok (.vfredsum 5 8 6 0 0) 4 ∧ decode [0xAD10280B] = .ok (.vtopk 8 16 5 0 0) 4 ∧ decode [0xBC860001] = .ok (.vsls 4 6 0 0) 4 := by decide

/-- 07, the worked pairs of the Curd tests. -/
theorem test_decode_tiles : decode [0xFD000200, 0xF800A000] = .ok (.cload 0 1 20 0) 8 ∧ decode [0xFD200200, 0xF8800000] = .ok (.ctest 0 1 4 0 0 0 0) 8 ∧
    decode [0xFD400000, 0xF904C000] = .ok (.cleaf 8 4 24 0 0) 8 := by decide

/-- 08, the worked words of barriers and copies. -/
theorem test_decode_cluster : decode [0x78063800] = .ok (.gbarA 6) 4 ∧ decode [0x78A04000] = .ok (.gbarW 5) 4 ∧ decode [0x78003000] = .ok (.gbar 0) 4 ∧
    decode [0xC0C50003] = .ok (.vcopy 6 5 0 0) 4 ∧ decode [0x42498EB1] = .ok (.amoAdd 18 9 17 3 2 3) 4 := by decide

/-- 10 and 11, the worked words of SKIM and CHURN instructions. -/
theorem test_decode_die : decode [0xC414A800] = .ok (.rset 20 21 0) 4 ∧ decode [0xC5144801] = .ok (.rpost 8 20 9 0 0) 4 ∧ decode [0xC4D40002] = .ok (.rbound 6 20 0) 4 ∧
    decode [0xC4D40003] = .ok (.rleave 6 20 0 0) 4 ∧ decode [0xC4F42804] = .ok (.rwin 7 20 5 0) 4 ∧ decode [0xC4B40005] = .ok (.rstat 5 20 0) 4 ∧
    decode [0xC935A000] = .ok (.chset 9 21 20 0) 4 ∧ decode [0xC935C003] = .ok (.chsend 9 21 24 0) 4 ∧ decode [0xC9350005] = .ok (.chstat 9 21 0) 4 := by decide

/-- 13 and 14, the worked words of peer accesses, tickets and collectives. -/
theorem test_decode_fabric : decode [0xCCA601A0] = .ok (.pld 5 6 3 2) 4 ∧ decode [0xCCD600A1] = .ok (.pst 6 22 1 2) 4 ∧ decode [0xCCA730B3] = .ok (.pamoAdd 5 7 6 1 3) 4 ∧
    decode [0xD1142721] = .ok (.pvldx 8 20 4 7 0 1) 4 ∧ decode [0xD4A0000A] = .ok (.tkpoll 5 0) 4 ∧ decode [0xD5040800] = .ok (.vcsum 8 4 1 0) 4 ∧
    decode [0xD4000807] = .ok (.gabort 1 0) 4 ∧ decode [0xD4A00808] = .ok (.gstat 5 1 0) 4 := by decide

/-- 06 `brole s5`, and the system words of 03. -/
theorem test_decode_system : decode [0xD8050002] = .ok (.brole 5) 4 ∧ decode [0x6C000000] = .ok .sys 4 ∧ decode [0x6C000002] = .ok .tret 4 := by decide

/-- A prefix alone is no instruction; MAJ = 0 traps ILL 0x01 (R22). -/
theorem test_decode_refuses : decode [0xFC4B6180] = .short ∧ decode [0x00000000] = .ill 0x01 0 := by decide

/-! ### Ill-formed terms, one for each check of the fields (R9, R13, R14, R20, R21, R23, R34) -/

theorem test_ill_atomics : illFields (.amoAdd 1 2 3 1 0 0) = some 0x03 ∧ illFields (.amoAdd 1 2 3 3 5 0) = some 0x03 ∧ illFields (.amoAdd 1 2 3 3 4 0) = none := by decide
theorem test_ill_rounding : illFields (.fadd 1 2 3 5) = some 0x03 ∧ illFields (.fadd 1 2 3 7) = none ∧ illFields (.fence 5) = some 0x03 := by decide
theorem test_ill_vtype : illFields (.vsetli 1 2 0x0005) = some 0x08 ∧ illFields (.vsetli 1 2 0x0043) = none ∧ vtypeLegal 0x0042 = true ∧ vtypeLegal 0x0041 = false := by decide
theorem test_ill_control_registers : illFields (.getc 1 0x009) = some 0x0C ∧ illFields (.setc 1 0x020) = some 0x0C ∧ illFields (.setc 1 0x005) = none := by decide
theorem test_ill_communication : illFields (.tas 1 64) = some 0x04 ∧ illFields (.tas 1 63) = none ∧ illFields (.cdrd 1 16) = some 0x04 ∧ illFields (.wput 1 2 0) = some 0x03 := by decide
theorem test_ill_masks : illFields (.vmerge 1 2 3 0 0) = some 0x03 ∧ illFields (.vceqVv 0 1 2 0 0 0) = some 0x04 ∧ illFields (.vceqVv 3 1 2 0 3 0) = some 0x03 ∧
    illFields (.mand 1 2 8 0 0) = some 0x04 ∧ illFields (.mand 1 2 7 0 0) = none ∧ illFields (.mpop 1 0 0 0) = some 0x04 := by decide
theorem test_ill_vector : illFields (.vfcvt 1 2 15 0 0 0) = some 0x03 ∧ illFields (.vldx 1 2 3 0 0 4) = some 0x03 ∧ illFields (.vamoAdd 1 2 3 0 4 0) = some 0x03 ∧
    illFields (.vtopk 31 2 3 0 0) = some 0x04 := by decide
theorem test_ill_streams : illFields (.qbind 23 1 0) = some 0x04 ∧ illFields (.qbind 24 1 0) = none := by decide
theorem test_ill_peer : illFields (.pld 1 2 3 7) = some 0x03 ∧ illFields (.pst 1 2 3 4) = some 0x03 ∧ illFields (.pamoAdd 1 2 3 0 1) = some 0x03 ∧ illFields (.pamoAdd 1 2 3 0 2) = none := by decide

/-! ### Small states -/

/-- Hart 0 in supervisor mode, of context 0 that owns its vector state, at SEW 32 with FMT 2 and 4 elements, on a package with every stage of bring-up set; bank 4 of its core is
scratchpad, bank 5 a tile. -/
def hart0 : Hart := { Hart.init 0 with run := true, status := 3, vownV := true, vtype := 0x0043, vl := 4, jobid := 1, tmap := 0x85 }
/-- The state with that hart. -/
def base : State := { State.reset with brdy := 0x7F, cores := [(0, { Core.init with brole := 0x900 })], hart := hart0 }
/-- The first address of the scratchpad window. -/
def spad : Word := 0xFFFFF00000000000
/-- A state with some scalar registers set. -/
def Sys2Proof.Machine.State.withS (s : State) (xs : List (Reg5 × Word)) : State := xs.foldl (fun s p => s.ps p.1 p.2) s
/-- The next state of an outcome meets a test. -/
def gives (o : Host.Outcome State Fault Refusal) (f : State → Bool) : Bool :=
  match o with
  | .next t => f t
  | _ => false

/-! ### Witnesses: reset, the step, fetch, traps -/

/-- The next step of a state made to fetch `add s5, s6, s7` is that instruction's. -/
theorem witness_step : (let s := State.withFetchWord State.reset 32 0x04A63800
    decide (s.agenda = [] ∧ s.dev = false ∧ s.nextHart = some 0) && (match (s.took.focus 0).meet with
      | .run s0 => (match s0.fetch with
        | .words s1 ws => decide (decode ws = .ok (.add 5 6 7) 4) && gives (exec (.add 5 6 7) s1) (fun _ => true)
        | _ => false)
      | _ => false)) = true := by decide +kernel
/-- The same for a word that is no instruction. -/
theorem witness_step_illegal : (let s := State.withFetchWord State.reset 32 0
    decide (s.agenda = [] ∧ s.dev = false ∧ s.nextHart = some 0) && (match (s.took.focus 0).meet with
      | .run s0 => (match s0.fetch with
        | .words _ ws => decide (decode ws = .ill 0x01 0)
        | _ => false)
      | _ => false)) = true := by decide +kernel
/-- A fetch that translation places, of a word that is no prefix. -/
theorem witness_fetch : (let s := (State.withFetchWord State.reset 32 0x04A63800)
    match s.translate s.hart.agent .fetch s.hart.pc with
    | (s1, .loc l _) => decide (l % 4 = 0) && !s1.bad l 4 && decide (tabGet (s1.getCore (coreOf s1.hart.id)).icache (l / 64 * 64) = none) && !isPrefix 0x04A63800
    | _ => false) = true := by decide
theorem witness_encode : isEvent (.vaddVv 1 2 3 0 0 0) = false ∧ illFields (.vaddVv 1 2 3 0 0 0) = none ∧ isEvent (.tas 1 64) = false ∧ illFields (.tas 1 64) = some 0x04 := by decide
theorem witness_memory : MemoryOk State.reset ∧ ∃ t, step State.reset = .next t := ⟨⟨rfl, fun _ h => absurd h (List.not_mem_nil)⟩, _, rfl⟩
theorem witness_tret : base.hart.super = true := by decide
theorem witness_user : State.reset.hart.super = false ∧ State.reset.hart.room .tile 0 = true ∧ State.reset.hart.room .tile 1 = true := by decide
theorem witness_not_owner : State.reset.hart.owns = false ∧ State.reset.hart.room .valu 0 = true ∧ State.reset.hart.room .vmul 0 = true ∧ State.reset.hart.room .vlsu 0 = true ∧
    State.reset.hart.room .xlane 0 = true ∧ State.reset.hart.room .engine 0 = true := by decide

/-! ### Witnesses: scalar results and memory accesses -/

/-- A hart that owns its vector state, a `jalr` target that is a multiple of 4 and one that is not. -/
theorem witness_control_transfer : base.hart.owns = true ∧ (BitVec.ofInt 64 ((base.withS [(6, 8)]).gs 6).toInt : Word).toNat % 4 = 0 ∧
    (BitVec.ofInt 64 (((base.withS [(6, 8)]).gs 6).toInt + 1) : Word).toNat % 4 ≠ 0 := by decide
/-- 1 + 2^-24 lies halfway between 1 and the next f32: no overflow, a finite result, and 1 is a finite value. -/
theorem witness_rounding : (FName.f32.round .rne false (.num false (2 ^ 24 + 1) (-24))).2.ov = false ∧ (FName.f32.round .rne false (.num false (2 ^ 24 + 1) (-24))).1 = 0x3F800000 ∧
    ((FName.f32.read 0x3F800000).rat).isSome = true := by decide
/-- A scalar hart whose s5 points at the scratchpad. -/
def atSpad : State := base.withS [(5, spad), (6, 0x1122334455667788)]
/-- Translation of the scratchpad window changes nothing. -/
theorem spad_via (t : State) (core : Bool) (k : AccK) (hc : t.cores = base.cores) (hh : coreOf t.hart.agent.hart = 0) : t.translateVia core t.hart.agent k spad = (t, .loc (locBank 0 4 0) false) := by
  have h1 : banksIn (t.getCore 0).brole 1 = [4] := by
    have : (t.getCore 0).brole = 0x900 := by unfold State.getCore; rw [hc]; rfl
    rw [this]; decide
  have hw : t.scratchpad 0 0 = .loc (locBank 0 4 0) false := by
    unfold State.scratchpad
    rw [h1]
    rfl
  have hv : t.window t.hart.agent spad = .loc (locBank 0 4 0) false := by
    unfold State.window
    simp only
    rw [if_pos (by decide), hh]
    exact hw
  unfold State.translateVia
  rw [if_neg (by decide), if_pos (by decide), hv]
theorem spad_place (t : State) (k : AccK) (hc : t.cores = base.cores) (hh : coreOf t.hart.agent.hart = 0) : t.translate t.hart.agent k spad = (t, .loc (locBank 0 4 0) false) :=
  spad_via t true k hc hh
/-- A placed aligned load, constant load, store and atomic, with nothing buffered, no bad codeword and room in the store buffer. -/
theorem witness_scalar_memory : (atSpad.checked false [5]).translate atSpad.hart.agent .read spad = (atSpad.checked false [5], .loc (locBank 0 4 0) false) ∧
    (spad : Word).toNat % 8 = 0 ∧ (atSpad.checked false [5]).bad (locBank 0 4 0) 8 = false ∧ (atSpad.checked false [5]).quietAt (locBank 0 4 0) 8 = true ∧
    (atSpad.checked false [5]).quietAt (64 * (locBank 0 4 0 / 64)) 64 = true ∧ tabGet ((atSpad.checked false [5]).getCore 0).consts (locBank 0 4 0 / 64) = none ∧
    atSpad.copyHits 0 spad 8 = false ∧ (atSpad.checked false [5]).hart.sbuf.length < 8 :=
  ⟨spad_place (atSpad.checked false [5]) .read rfl rfl, by decide, by decide, by decide, by decide, by decide, by decide, by decide⟩
/-- A held constant line that has the bytes of memory. -/
theorem witness_constant_line : tabGet (({ atSpad with cores := [(0, { Core.init with brole := 0x900, consts := [(locBank 0 4 0 / 64, List.replicate 64 0)] })] } : State).getCore 0).consts (locBank 0 4 0 / 64) =
    some (memRead 64 (64 * (locBank 0 4 0 / 64)) atSpad.mem) := by decide
theorem witness_store_load_fence : (∀ t : State, t.hart.agent = atSpad.hart.agent → t.cores = atSpad.cores → t.spOwner = atSpad.spOwner → ∀ k, t.translate t.hart.agent k spad = (t, .loc (locBank 0 4 0) false)) ∧
    (spad : Word).toNat % 8 = 0 ∧ mailboxHart (locBank 0 4 0) 8 = none ∧ atSpad.hart.sbuf = [] ∧ atSpad.hart.vbuf = [] ∧ atSpad.harts = [] ∧ atSpad.clusters = [] ∧ atSpad.ecc = [] ∧
    Memory.wf atSpad.mem = true ∧ ∃ s1, exec (.stD 6 5 0) atSpad = .next s1 ∧ ∃ s2, exec (.fence 3) s1 = .next s2 :=
  ⟨fun t ha hc _ k => spad_place t k hc (by rw [ha]; rfl), by decide, by decide, rfl, rfl, rfl, rfl, rfl, rfl, _, rfl, _, rfl⟩
/-- What a store wrote is what memory holds after a fence. -/
theorem test_store_fence : gives (exec (.stD 6 5 0) atSpad) (fun s1 => gives (exec (.fence 3) s1) (fun s2 => memRead 8 (locBank 0 4 0) s2.mem == [0x88, 0x77, 0x66, 0x55, 0x44, 0x33, 0x22, 0x11])) = true := by
  decide
theorem witness_misaligned : ((atSpad.gs 5) + 1).toNat % 2 ≠ 0 ∧ (BitVec.ofInt 64 ((atSpad.gs 5).toInt + (1 : BitVec 13).toInt) : Word).toNat % 8 ≠ 0 ∧ ((base.withS [(5, 2)]).gs 5).toNat % 4 ≠ 0 := by decide
/-- A release with a ticket outstanding, and one with none, of an atomic that is placed. -/
def ticket0 : Ticket := ⟨.wait, 7, 3, 5, 0, 0, 0⟩
/-- The state with a ticket of hart 0 outstanding. -/
def ticketed : State := { base with cores := [(0, { Core.init with brole := 0x900, tickets := [ticket0] })] }
theorem witness_atomics : 0 < ticketed.outstanding ticketed.hart ∧ atSpad.outstanding atSpad.hart = 0 ∧ atSpad.copyBusy 0 = false ∧
    ((atSpad.checked false [7, 5, 6]).drainAll 0).translate atSpad.hart.agent .write (atSpad.gs 5) = ((atSpad.checked false [7, 5, 6]).drainAll 0, .loc (locBank 0 4 0) false) :=
  ⟨by decide, by decide, by decide, spad_place ((atSpad.checked false [7, 5, 6]).drainAll 0) .write rfl rfl⟩
/-- An atomic add at the scratchpad: 0 + 5, the old value in s7. -/
theorem test_amo_add : gives (exec (.amoAdd 7 5 6 3 3 0) (base.withS [(5, spad), (6, 5)])) (fun t => t.gs 7 == 0 && leNat (memRead 8 (locBank 0 4 0) t.mem) == 5) = true := by decide
/-- A hart with a valid peer register and the answer to element 0. -/
def answered : State := { base with hart := { hart0 with peers := hart0.peers.set 3 0x8000000000000000, answers := [(0, .done 0xFF false), (1, .done 1 false), (2, .done 2 false), (3, .done 3 false)] } }
theorem witness_peer_scalar : (answered.hart.peers.getD 3 0).getLsbD 63 = true ∧ (answered.gs 5).toNat % 4 = 0 ∧ tabGet answered.hart.answers 0 = some (.done 0xFF false) := by decide
/-- `pld.b` sign-extends the byte 0xFF of its answer. -/
theorem test_pld : gives (exec (.pld 7 5 3 0) answered) (fun t => t.gs 7 == BitVec.ofInt 64 (-1)) = true := by decide

/-! ### Tests of scalar results -/

theorem test_slt_signs : gives (exec (.slt 7 5 6) (base.withS [(5, BitVec.ofInt 64 (-1)), (6, 1)])) (fun t => t.gs 7 == 1) = true := by decide
theorem test_div_by_zero : gives (exec (.div 7 5 6) (base.withS [(5, 42)])) (fun t => t.gs 7 == BitVec.ofInt 64 (-1)) = true := by decide
theorem test_lhi : gives (exec (.lhi 5 0x246) base) (fun t => t.gs 5 == 0x123000) = true := by decide
theorem test_s0_discards : gives (exec (.addi 0 0 5) base) (fun t => t.gs 0 == 0 && t.hart.pc == 4) = true := by decide
/-- 1.0 + 2.0 = 3.0 in f32. -/
theorem test_fadd : gives (exec (.fadd 7 5 6 0) (base.withS [(5, 0x3F800000), (6, 0x40000000)])) (fun t => t.gs 7 == 0x40400000) = true := by decide


/-! ### Witnesses: control registers, strips, fences, waits, semaphores, barriers -/

theorem witness_control_registers : base.hart.owns = true ∧ base.hart.super = true ∧ (base.gs 5).toNat / 32 % 8 < 5 ∧ 5 ≤ ((base.withS [(5, 0xA0)]).gs 5).toNat / 32 % 8 := by decide
theorem witness_strips : base.hart.owns = true ∧ vtypeLegal 0x0043 = true ∧ (base.withS [(6, 0x0043)]).gs 6 = (0x0043 : BitVec 16).zeroExtend 64 := by decide
/-- A request of 1000 elements of 32 bits at LMUL 1 is granted 512 on 32 lanes; VTYPE bit 15 rounds 40 down to 32. -/
theorem test_vsetli : gives (exec (.vsetli 7 5 0x0003) (base.withS [(5, 1000)])) (fun t => t.gs 7 == 512 && t.hart.vl == 512 && t.hart.strip == 1) = true ∧
    gives (exec (.vsetli 7 5 0x8003) (base.withS [(5, 40)])) (fun t => t.gs 7 == 32) = true := by decide
theorem witness_fences : base.copyBusy base.hart.id = false ∧ Memory.wf base.mem = true ∧ base.outstanding base.hart = 0 ∧ (4 : BitVec 3).toNat ≤ 4 ∧ 0 < ticketed.outstanding ticketed.hart := by decide
/-- Base with its hart changed. -/
def withHart (f : Hart → Hart) : State := { base with hart := f base.hart }
theorem witness_wfi : (withHart (fun h => { h with irqs := [3] })).hart.irqs ≠ [] ∧ base.hart.resume ≠ .woken ∧ base.hart.preempt = false ∧ base.hart.irqs = [] := by decide
/-- The doubleword at the scratchpad is 0: `mwait` sleeps for an s[sb] of 0 and completes for another. -/
theorem witness_mwait : (atSpad.gs 5).toNat % 8 = 0 ∧ (match (atSpad.checked false [5, 6]).elem 0 true ⟨0, atSpad.gs 5, 8, .load, 0, 0⟩ with | (_, .done x _) => x == 0 | _ => false) = true ∧
    BitVec.ofNat 64 0 ≠ atSpad.gs 6 ∧ BitVec.ofNat 64 0 = atSpad.gs 7 := by decide
theorem witness_wakes : ((withHart (fun h => { h with wait := .wfi })).getHart 0).wait = .wfi ∧ ((withHart (fun h => { h with wait := .mwait 64 0 })).getHart 0).wait = .mwait 64 0 ∧
    0 + 1048576 ≤ ({ base with cycle := 1048576 } : State).cycle ∧ ((withHart (fun h => { h with wait := .tkwait (some 0) })).getHart 0).wait = .tkwait (some 0) := by decide
theorem witness_requests : (let h := (withHart (fun h => { h with status := 0x002, preempt := true, irqs := [1] })).getHart 0
    h.run = true ∧ h.stop = false ∧ h.ie = true ∧ h.answers = [] ∧ h.stopAt = none ∧ h.resume = .none ∧ h.wait = .none ∧ h.id = 0 ∧ h.preempt = true) ∧
    (let h := (withHart (fun h => { h with status := 0x002, irqs := [1] })).getHart 0; h.preempt = false ∧ h.irqs = [1]) := by decide
/-- Base with cluster 0 changed. -/
def withCluster (f : Cluster → Cluster) : State := base.setCluster 0 (f (base.getCluster 0))
theorem witness_semaphores : base.hart.resume = .none ∧ (base.getSem 3).bit = false ∧ (base.getSem 3).queue = [] ∧ (withHart (fun h => { h with resume := .granted 9 })).hart.resume = .granted 9 ∧
    ((base.setSem 3 ⟨true, [(32, 0)]⟩).getSem 3).bit = true ∧ ((base.setSem 3 ⟨true, [(32, 0)]⟩).getSem 3).queue = [(32, 0)] ∧ (32 : Nat) ≠ base.hart.id ∧ base.copyBusy base.hart.id = false := by decide
/-- A barrier of two harts, at which this one arrives first or last; one that has a fault; one at which it has arrived. -/
def barred (b : Bar) : State := base.setBar 0 0 b
theorem witness_barriers : base.hart.bar < 32 ∧ base.hart.resume = .none ∧ base.hart.garr = false ∧ (withHart (fun h => { h with status := 0x203 })).hart.garr = true ∧
    ((barred ⟨2, 1, 2, false, 0, false⟩).getBar 0 0).arr &&& (1 : BitVec 32) = 0 ∧ ((barred ⟨2, 1, 2, false, 0, true⟩).getBar 0 0).fault = true ∧ (base.getBar 0 0).arr &&& (1 : BitVec 32) = 0 := by decide
/-- The arrival of the second of two harts completes the phase. -/
theorem test_gbar : gives (exec (.gbar 5) (barred ⟨2, 1, 2, false, 0, false⟩)) (fun t => t.getBar 0 0 == ⟨2, 0, 0, true, 0, false⟩ && t.hart.pc == 4) = true := by decide
theorem witness_barrier_fault : (withHart (fun h => { h with resume := .barrier true })).hart.resume = .barrier true := by decide

/-! ### Witnesses: vector results -/

theorem witness_elements : (32 : Nat) ∈ [4, 8, 16, 32, 64, 128] ∧ 1 ≤ base.hart.lanes ∧ base.hart.lanes ≤ 32 ∧ (∀ p ∈ ([(0, 1), (511, 2), (512, 3)] : List (Nat × Nat)), 30 + p.1 / (512 * base.hart.lanes / 32) < 32) ∧
    (([(0, 1), (511, 2), (512, 3)] : List (Nat × Nat)).map (·.1)).Nodup := by decide
theorem witness_vector_operands : (∀ u ∈ [UnitClass.valu, .vmul, .xlane, .vlsu, .engine, .tile], base.hart.mayJoin u 0 = true) ∧ base.hart.operandsOk [base.hart.opd 1, base.hart.opd 2] [base.hart.opd 3] = true ∧
    base.hart.operandsOk [base.hart.opd 1] [base.hart.opd 1] = true ∧ anyOverlap [base.hart.opd 1, base.hart.opd 2] [base.hart.opd 3] = false := by decide
theorem witness_widening : (let h := base.hart
    h.sew ≤ 32 ∧ h.lmul ≤ 4 ∧ h.sew = 32 ∧ h.operandsOk [⟨2, 2 * h.lmul, 2 * h.sew⟩, h.opd 5] [h.opd 8] = true ∧ h.operandsOk [h.opd 1, h.opd 5] [⟨2, 2 * h.lmul, 2 * h.sew⟩] = true ∧
      anyOverlap [h.opd 1, h.opd 5] [⟨2, 2 * h.lmul, 2 * h.sew⟩] = false) := by decide
/-- Base with another VTYPE. -/
def typed (t : BitVec 16) : State := withHart (fun h => { h with vtype := t })
theorem witness_float : base.hart.fmt = 2 ∧ (typed 0x0062).hart.fmt = 3 := by decide
theorem witness_vfwma : (let h := (typed 0x0042).hart
    h.mayJoin .vmul 0 = true ∧ h.fmt = 2 ∧ h.sew = 16 ∧ h.scaleBad [1, 2] (some (h.wideOpd 4)) = false ∧ anyOverlap [h.opd 1, h.opd 2] [h.wideOpd 4] = false ∧
      h.operandsOk [h.opd 1, h.opd 2] [h.wideOpd 4] = true ∧ h.scaleBad [1] (some (h.wideOpd 4)) = false ∧ anyOverlap [h.opd 1] [h.wideOpd 4] = false ∧ h.operandsOk [h.opd 1] [h.wideOpd 4] = true) := by decide
theorem witness_convert : (let h := base.hart
    (∀ c ∈ ([0, 5, 8, 9, 10, 14] : List Reg5), h.scaleBad [1] (some (h.opdW 8 (cvtTo c).width)) = false ∧ h.operandsOk [h.opd 1] [h.opdW 8 (cvtTo c).width] = true ∧ anyOverlap [h.opd 1] [h.opdW 8 (cvtTo c).width] = false) ∧
      2 ≤ h.fmt ∧ h.fmt ≤ 6 ∧ h.sew = 32) := by decide
theorem witness_pack : (let h := (typed 0x0001).hart
    h.mayJoin .valu 0 = true ∧ h.sew = 8 ∧ anyOverlap [h.opd 1] [h.opdW 2 4] = false ∧ h.operandsOk [h.opd 1] [h.opdW 2 4] = true ∧ anyOverlap [h.opdW 1 4] [h.opd 2] = false ∧
      h.operandsOk [h.opdW 1 4] [h.opd 2] = true) := by decide
theorem witness_masks : base.hart.operandsOk [base.hart.opd 1, base.hart.opd 2] [] = true ∧ base.hart.operandsOk [] [base.hart.opd 3] = true ∧ (1 : Reg5) ≠ 2 := by decide
theorem witness_reductions : base.hart.scaleBad [1] none = false ∧ base.hart.scaleBad [1, 2] none = false ∧ 0 < base.hart.vl ∧ (withHart (fun h => { h with vl := 0 })).hart.vl = 0 ∧
    base.hart.repro = false ∧ (typed 0x8043).hart.repro = true := by decide
theorem witness_topk : (let h := base.hart
    let k := ((base.withS [(2, 1)]).gs 2).toNat
    h.operandsOk [h.opd 1] [⟨4, 1, h.sew⟩, ⟨4 + 1, 1, 32⟩] = true ∧ anyOverlap [h.opd 1] [⟨4, 1, h.sew⟩, ⟨4 + 1, 1, 32⟩] = false ∧ 1 ≤ k ∧ k ≤ 256 ∧ k ≤ 16 * h.lanes ∧ k ≤ h.perReg h.sew) := by decide
/-- Four elements of 0 and s5 = 2: element 4 lies beyond VL and stays. -/
theorem test_vadd : gives (exec (.vaddVs 3 1 5 0 0 0) (base.withS [(5, 2)])) (fun t => (List.range 5).map (t.hart.elem 3 32) == [2, 2, 2, 2, 0]) = true := by decide +kernel
/-- The sum of the element numbers 0 to 3. -/
theorem test_vid_vredsum : gives (exec (.vid 3 0 0) (typed 0x0003)) (fun t => gives (exec (.vredsum 7 3 0 0 0) t) (fun t => t.gs 7 == 6)) = true := by decide +kernel
/-- Base at SEW 8, FMT 4 and SC = 1, with a scale of 255 in v3. -/
def scaledHart : State := { typed 0x0181 with hart := { (typed 0x0181).hart with v := base.hart.v.set 3 255 } }
theorem witness_scaled : (let h := scaledHart.hart
    h.fmt < 7 ∧ h.scaled = true ∧ (2 : Reg5).toNat + h.lmul < 32 ∧ (h.v.getD ((2 : Reg5).toNat + h.lmul) 0).toNat / 2 ^ (8 * (0 / 32)) % 2 ^ 8 = 255 ∧
      (h.v.getD ((7 : Reg5).toNat + h.lmul) 0).toNat / 2 ^ (8 * (0 / 32)) % 2 ^ 8 < 255) := by decide +kernel

/-! ### Witnesses: vector memory -/

/-- One element, at the first byte of the scratchpad; s6 leads there for element 63 of bytes. -/
def one : State := (withHart (fun h => { h with vl := 1 })).withS [(5, spad), (6, spad - 63)]
theorem one_reaches (u : UnitClass) (core : Bool) (k : AccK) (n : Nat) (hn : n ∈ [1, 4, 8]) : (one.joined u 0 []).reaches core k n spad (locBank 0 4 0) := by
  refine ⟨⟨false, spad_via _ core k rfl (by cases u <;> rfl)⟩, ?_, ?_, ?_, ?_⟩ <;> fin_cases hn <;> cases u <;> decide
/-- Element 0 of a unit-stride, strided, indexed and `vgmb` access of one element lies at the scratchpad, aligned. -/
theorem witness_vector_memory : (one.joined .vlsu 0 []).undisturbed = true ∧ one.hart.activeMem 0 one.hart.vl = [0] ∧ one.hart.sew = 32 ∧ one.hart.operandsOk [one.hart.opd 4] [one.hart.opd 3] = true ∧
    anyOverlap [one.hart.opd 4] [one.hart.opd 3] = false ∧ spad.toNat % 4 = 0 ∧ one.hart.gs 5 + BitVec.ofNat 64 (0 * one.hart.sew / 8) = spad ∧ one.hart.gs 5 + one.hart.gs 7 * BitVec.ofNat 64 0 = spad ∧
    one.hart.gs 5 + BitVec.ofNat 64 (one.hart.elem 4 32 0) = spad ∧ one.hart.gs 5 + BitVec.ofNat 64 (4 * one.hart.elem 4 32 0) = spad ∧ one.hart.sbuf = [] ∧ one.hart.vbuf = [] ∧
    Memory.wf one.mem = true ∧ one.harts.all (fun p => p.2.id != one.hart.id) = true ∧ one.outstanding one.hart = 0 ∧ (∀ c k, (one.joined .vlsu 0 []).reaches c k 4 spad (locBank 0 4 0)) ∧ one.hart.answers = [] :=
  ⟨by decide, by decide, by decide, by decide, by decide, by decide, by decide +kernel, by decide +kernel, by decide +kernel, by decide +kernel, rfl, rfl, by decide, by decide, by decide,
    fun c k => one_reaches .vlsu c k 4 (by decide), rfl⟩
/-- A whole-register access of one lane that starts at its last byte. -/
def lastByte : State := { one with hart := { one.hart with lanes := 1, vstart := 63 } }
theorem witness_whole_register : lastByte.hart.activeMem 0 (lastByte.hart.lmul * 64 * lastByte.hart.lanes) = [63] ∧ lastByte.hart.gs 6 + BitVec.ofNat 64 63 = spad ∧
    lastByte.hart.operandsOk [] [⟨3, lastByte.hart.lmul, 8⟩] = true ∧ (∀ k, (lastByte.joined .vlsu 0 []).reaches true k 1 spad (locBank 0 4 0)) :=
  ⟨by decide, by decide, by decide, fun k => ⟨⟨false, spad_via _ true k rfl rfl⟩, by decide, by decide, by decide, by decide⟩⟩
/-- The lane slice of element 0 at offset 0. -/
theorem witness_lane_slice : (base.hart.gs 5).toNat % 8192 % max 1 (base.hart.sew / 8) = 0 ∧ (∀ i ∈ one.hart.activeMem 0 one.hart.vl, (one.joined .vlsu 0 []).bad (2 ^ 53 + i % 32 * 8192) 4 = false ∧
    (one.joined .vlsu 0 []).quietAt (2 ^ 53 + i % 32 * 8192) 4 = true) := by decide
/-- A vector store of one element at the scratchpad. -/
theorem test_vst_vld : gives (exec (.vst 3 5 0 0) { one with hart := { one.hart with v := one.hart.v.set 3 0x55667788 } }) (fun t => gives (exec (.vld 4 5 0 0) t) (fun t => t.hart.elem 4 32 0 == 0x55667788)) = true := by
  decide +kernel
theorem witness_vector_amo_fmt : one.hart.fmt = 2 ∧ one.hart.sew = 32 := by decide

/-! ### Witnesses: peers, copies, streams, table translation -/

/-- The accesses of one element, in a window, are placed alike. -/
theorem witness_pages : (one.joined .vlsu 0 []).pagesAgree .read [0] (fun _ => spad) (fun _ => locBank 0 4 0) := fun _ _ _ _ h => absurd (show spad.toNat < 0xFFFFF00000000000 from h) (by decide)
theorem witness_peer_vector : (let h := answered.hart
    h.mayJoin .engine 0 = true ∧ (answered.joined .engine 0 []).undisturbed = true ∧ 8 ≤ h.sew ∧ (h.peers.getD 3 0).getLsbD 63 = true ∧
      (∀ i ∈ h.activeMem 0 h.vl, tabGet h.answers i = some (.done ([0xFF, 1, 2, 3].getD i 0) false) ∧ (h.gs 5 + BitVec.ofNat 64 (i * h.sew / 8)).toNat % 4 = 0 ∧ (h.gs 5 + BitVec.ofNat 64 (h.elem 4 h.sew i)).toNat % 4 = 0) ∧
      anyOverlap [h.opd 4] [h.opd 3] = false ∧ h.operandsOk [h.opd 4] [h.opd 3] = true) := by decide +kernel
/-- A second placed address, 8 bytes on. -/
theorem spad_via8 (t : State) (core : Bool) (k : AccK) (hc : t.cores = base.cores) (hh : coreOf t.hart.agent.hart = 0) : t.translateVia core t.hart.agent k (spad + 8) = (t, .loc (locBank 0 4 8) false) := by
  have h1 : banksIn (t.getCore 0).brole 1 = [4] := by
    have : (t.getCore 0).brole = 0x900 := by unfold State.getCore; rw [hc]; rfl
    rw [this]; decide
  have hw : t.scratchpad 0 8 = .loc (locBank 0 4 8) false := by
    unfold State.scratchpad
    rw [h1]
    rfl
  have hv : t.window t.hart.agent (spad + 8) = .loc (locBank 0 4 8) false := by
    unfold State.window
    simp only
    rw [if_pos (by decide), hh]
    exact hw
  unfold State.translateVia
  rw [if_neg (by decide), if_pos (by decide), hv]
/-- One element whose source and destination are both in the scratchpad. -/
theorem witness_copies : one.hart.mayJoin .engine 0 = true ∧ (one.joined .engine 0 []).undisturbed = true ∧ 8 ≤ one.hart.sew ∧ one.hart.activeMem 0 one.hart.vl = [0] ∧
    (∀ k, (one.joined .engine 0 []).reaches false k 4 spad (locBank 0 4 0)) ∧ (∀ k, (one.joined .engine 0 []).reaches false k 4 (spad + 8) (locBank 0 4 8)) ∧ spad.toNat % 4 = 0 ∧ (spad + 8).toNat % 4 = 0 ∧
    locBank 0 4 0 + 4 ≤ locBank 0 4 8 ∧ (one.getCluster 0).copies.length < 16 ∧ one.hart.answers = [] ∧ one.hart.cur = [] ∧ one.hart.sbuf = [] ∧ one.hart.vbuf = [] ∧ Memory.wf one.mem = true ∧
    one.harts.all (fun p => p.2.id != one.hart.id) = true ∧ ((one.getCluster 0).copies.head?.map (one.joined .engine 0 []).ownPlace).getD true = true :=
  ⟨by decide, by decide, by decide, by decide, fun k => one_reaches .engine false k 4 (by decide), fun k => ⟨⟨false, spad_via8 _ false k rfl rfl⟩, by decide, by decide, by decide, by decide⟩, by decide, by decide, by decide, by decide, rfl, rfl, rfl, rfl, by decide, by decide, by decide⟩
/-- A copy with its last element left. -/
def copy0 : Copy := ⟨0, 0, 0, false, 4, spad + 8, spad, [], [], [0], 1, 0, 0, 0, false, none, [], [], [], 0, false⟩
/-- The state whose cluster 0 holds it. -/
def copying : State := withCluster (fun c => { c with copies := [copy0] })
theorem witness_copy_element : (copying.getCluster 0).copies = [copy0] ∧ (match copying.copyAccess copy0 (copy0.read 0) with
    | (s1, .done x _, _) => (match s1.copyAccess copy0 (copy0.write 0 x) with
      | (_, .done _ _, _) => true
      | _ => false)
    | _ => false) = true := by decide +kernel
/-- A scratchpad that holds a record at its first byte, and s5 points to it. -/
def recorded (n r : Nat) (f : Hart → Hart) : State := { (withHart f).withS [(5, spad)] with mem := memPut [] (locBank 0 4 0) (natLe n r) }
/-- A stream record: base, stride, count 4, position 0, MODE 0 and SEW 32; a fabric record with SEQ 1 beside it. -/
def streamRec : Nat := spad.toNat + 4 * 2 ^ 128 + 24 * 2 ^ 256
def fabricRec : Nat := spad.toNat + 4 * 2 ^ 64 + 1 * 2 ^ 192 + 24 * 2 ^ 256
theorem witness_qbind : (let s := recorded 64 streamRec id
    s.hart.mayJoin .engine 0 = true ∧ (s.hart.gs 5).toNat % 64 = 0 ∧ s.copyBusy s.hart.id = false ∧ streamRecordBad streamRec = false ∧ field streamRec 0x20 4 % 4 ≠ 2 ∧
      (match (s.joined .engine 0 []).readRecord 0 (s.hart.gs 5) 64 with | .ok _ r => r == streamRec | _ => false) = true) ∧
    (let s := recorded 64 fabricRec id
     fabricRecordBad fabricRec 0 = false ∧ (field fabricRec 0x20 4).testBit 10 = false ∧ (field fabricRec 0x20 4).testBit 2 = false ∧
      (match (s.joined .engine 0 []).readRecord 0 (s.hart.gs 5) 64 with | .ok _ r => r == fabricRec | _ => false) = true) := by decide +kernel
/-- An input stream bound to v24 with four elements fetched. -/
def stream0 : Stream := { recAddr := spad, fabric := false, peer := 0, group := none, mode := 0, out := false, sew := 3, base := spad, stride := 0, count := 4, pos := 0, table := 0, rstride := 0, nblk := 0, flaga := 0, seq := 0, done := 0, fetched := [5, 6, 7, 8], flt := none }
/-- The state with that stream. -/
def streaming : State := withHart (fun h => h.setStream 24 (some stream0))
theorem witness_streams : (let h := streaming.hart
    h.stream 24 = some stream0 ∧ h.stream 25 = none ∧ stream0.sew.toNat = h.vtype.toNat % 8 ∧ (h.opd 24).misaligned = false ∧ h.streamInside (h.opd 24) = false ∧ h.plainGroups [h.opd 3] = true ∧
      partialOverlaps [h.opd 24] [h.opd 3] = false ∧ h.vl - h.vstart.toNat ≤ stream0.fetched.length) := by decide
/-- A record of an indirect stream, MODE 2 with rows of 4 elements, and behind it the record of its block table of one entry; a fabric record of group register 1. -/
def indirectRec : Nat := (spad.toNat + 64) + 4 * 2 ^ 64 + 4 * 2 ^ 128 + 26 * 2 ^ 256 + (spad.toNat + 8 * 2 ^ 64 + 1 * 2 ^ 128) * 2 ^ 512
def groupRec : Nat := fabricRec + 5 * 2 ^ 264
theorem witness_qbind_indirect : (match ((recorded 96 indirectRec id).joined .engine 0 []).readRecord 0 spad 64 with
    | .ok s1 r => !streamRecordBad r && field r 0x20 4 % 4 == 2 && field r 0 8 % 32 == 0 && (match s1.readRecord 1 (BitVec.ofNat 64 (field r 0 8)) 32 with
      | .ok _ b => field b 0x18 8 == 0 && field b 0x10 8 != 0 && field b 0x08 8 % 8 == 0 && field b 0x00 8 % 8 == 0
      | _ => false)
    | _ => false) = true := by decide +kernel
theorem witness_qbind_group : (match ((recorded 64 groupRec (fun h => { h with groups := h.groups.set 1 { Group.init with v := true } })).joined .engine 0 []).readRecord 0 spad 64 with
    | .ok s1 r => !fabricRecordBad r 0 && (field r 0x20 4).testBit 10 && BitVec.ofNat 2 (field r 0x20 4 / 2 ^ 8) == (1 : BitVec 2) && (s1.hart.groups.getD 1 Group.init).v && !(s1.hart.groups.getD 1 Group.init).ab
    | _ => false) = true := by decide +kernel
theorem witness_qfree_output : (withHart (fun h => h.setStream 24 (some { stream0 with out := true }))).hart.stream 24 = some { stream0 with out := true } := by decide
/-- The block table's one entry is its first doubleword: rows of token 0 are at the scratchpad. -/
theorem witness_indirect_element : (let st : Stream := { stream0 with mode := 2, stride := 4, table := spad, rstride := 8, nblk := 1 }
    st.mode = 2 ∧ st.stride ≠ 0 ∧ (st.pos.toNat + 5 / st.stride.toNat) % 2 ^ 64 / 32 < st.nblk ∧ (match (recorded 8 spad.toNat id).engineRead 0 ⟨streamIdx 0 5 + 2 ^ 49, st.table, 8, .load, 0, 0⟩ with
      | (_, .done x _) => x / 64 != 0
      | _ => false) = true) := by decide +kernel
theorem test_stream_operand : gives (exec (.vmv 3 24 0) streaming) (fun t => (List.range 4).map (t.hart.elem 3 32) == [5, 6, 7, 8] && (t.hart.stream 24).map (·.done) == some 4) = true := by decide +kernel
/-- A block table of one entry at SEW 64 that is its own record's first doubleword; token 0 is inside, and a token of 32 beyond it. -/
def tableRec : Nat := spad.toNat + 8 * 2 ^ 64 + 1 * 2 ^ 128
def tabled : State := recorded 32 tableRec (fun h => { h with vtype := 0x0004, vl := 1 })
theorem witness_table : (let h := tabled.hart
    let J := tabled.joined .vlsu 0 []
    h.mayJoin .vlsu 0 = true ∧ J.undisturbed = true ∧ h.sew = 64 ∧ h.operandsOk [h.opd 4] [h.opd 3] = true ∧ (h.gs 5).toNat % 32 = 0 ∧ field tableRec 0x18 8 = 0 ∧ field tableRec 0x10 8 ≠ 0 ∧
      field tableRec 0x08 8 % 8 = 0 ∧ field tableRec 0x00 8 % 8 = 0 ∧ h.activeMem 0 h.vl = [0] ∧ h.elem 4 64 0 / 32 < field tableRec 0x10 8 ∧ BitVec.ofNat 64 (field tableRec 0x00 8 + 8 * (h.elem 4 64 0 / 32)) = spad ∧
      h.answers = [] ∧ h.cur = [] ∧ (match J.readRecord 0 (h.gs 5) 32 with
        | .ok t r => r == tableRec && t == J.keeping t && decide (t.translateVia false t.hart.agent .read spad = (t, .loc (locBank 0 4 0) false)) && !t.bad (locBank 0 4 0) 8 && t.badCopies.isEmpty &&
            t.quietAt (locBank 0 4 0) 8 && t.hart.vbuf.isEmpty
        | _ => false) = true) := by decide +kernel
theorem test_vxlt : gives (exec (.vxlt 3 5 4 0 0) tabled) (fun t => t.hart.elem 3 64 0 == spad.toNat && !(t.hart.gm 7).getLsbD 0) = true := by decide +kernel

/-! ### Witnesses: tiles -/

/-- Tiles 0 and 1 in banks 5 and 6, scratchpad in banks 8 to 27, and s5 at its first byte. -/
def tiled (T : Tile) (f : Hart → Hart) : State :=
  { withHart (fun h => f { h with tmap := 0x8685, s := h.s.set 5 spad }) with cores := [(0, { Core.init with brole := 0x0055555555552800, tiles := [(5, T), (6, T)] })] }
/-- Where the 20 banks of scratchpad have an offset. -/
def spot (a : Nat) : Nat := locBank 0 (8 + (a - 0xFFFFF00000000000) / 64 % 20) ((a - 0xFFFFF00000000000) / 64 / 20 * 64 + (a - 0xFFFFF00000000000) % 64)
theorem tiled_via (t : State) (core : Bool) (k : AccK) (hb : (t.getCore 0).brole = 0x0055555555552800) (hi : t.hart.id = 0) (a : Word) (h0 : 0xFFFFF00000000000 ≤ a.toNat) (h1 : a.toNat < 0xFFFFF00000000000 + 1310720) :
    t.translateVia core t.hart.agent k a = (t, .loc (spot a.toNat) false) := by
  have hh : coreOf t.hart.agent.hart = 0 := by simp [Hart.agent, hi, coreOf]
  have hbs : banksIn (t.getCore 0).brole 1 = (List.range 20).map (fun q => 8 + q) := by
    rw [hb]; decide
  have hw : t.window t.hart.agent a = .loc (spot a.toNat) false := by
    have hq : ((List.range 20).map (fun q => 8 + q))[(a.toNat - 0xFFFFF00000000000) / 64 % 20]? = some (8 + (a.toNat - 0xFFFFF00000000000) / 64 % 20) := by
      have : (a.toNat - 0xFFFFF00000000000) / 64 % 20 < 20 := Nat.mod_lt _ (by decide)
      rw [List.getElem?_map, List.getElem?_range this]
      rfl
    unfold State.window
    simp only
    rw [if_pos (by omega), hh]
    unfold State.scratchpad
    simp only [hbs, List.length_map, List.length_range]
    rw [hq]
    simp only
    rw [if_pos (by omega)]
    rfl
  have hc : canonical a = true := by
    simp only [canonical, Bool.or_eq_true, beq_iff_eq]
    right
    omega
  unfold State.translateVia
  rw [if_neg (by rw [hc]; decide), if_pos h0, hw]
theorem base_firm : base.eweok.toList.all (fun h => !h.run) = true := by decide
theorem witness_tile : (let s := tiled Tile.init id
    let kc := tiled { Tile.init with kc := 4, blk := [⟨0, false, false, false, 1⟩, ⟨129, false, false, false, 2⟩] } id
    let T := kc.getTile 5
    s.tileReady 0 5 0 = true ∧ s.tileTaken 0 = false ∧ s.tileReady (0 + 1) 6 0 = true ∧ Memory.wf s.mem = true ∧ (1 : BitVec 3).toNat ≤ 1 ∧ (s.gs 0).toNat / 2 ^ 15 = 0 ∧ (s.gs 0).toNat / 2 ^ 7 % 2 = 0 ∧
      kc.tileReady 0 5 0 = true ∧ T.kc ≠ 0 ∧ T.tm ≤ 128 ∧ T.tn ≤ 128 ∧ T.blk.Pairwise (fun p q => p.pos < q.pos) ∧ s.hart.sew = 32 ∧ (s.getTile 5).curd = false ∧ (127 : BitVec 7).toNat < (s.getTile 5).tm ∧
      s.hart.vl ≤ (s.getTile 5).tn ∧ s.hart.operandsOk [] [s.hart.opd 3] = true) := by decide
/-- One row of one accumulator, whose record is at the scratchpad and says that the row is too. -/
def oneRow (n r : Nat) (T : Tile) : State := { tiled T (fun h => { h with vl := 1 }) with mem := memPut [] (spot spad.toNat) (natLe n r) }
/-- A tile of one accumulator. -/
def tile1 : Tile := { Tile.init with tm := 1, tn := 1 }
theorem witness_tld : (let s := oneRow 16 spad.toNat tile1
    let h := s.hart
    let J := s.joined .tile 0 []
    (s.getTile 5).curd = false ∧ (s.getTile 5).f32 = ((1 : BitVec 3) == 1) ∧ (0 : BitVec 7).toNat + h.vl ≤ (s.getTile 5).tm ∧ s.copyBusy h.id = false ∧ s.tileReady 0 5 0 = true ∧ s.tileTaken 0 = false ∧
    (match J.issueRecord 0 (s.gs 5) 8 16 with
      | .ok s1 bs =>
        let es := fun (op : ROp) (u : State) => (h.activeMem 0 h.vl).flatMap (fun i => rowElems op i (strideAddr (fieldW bs 0) (fieldW bs 8) i) (4 * 1) (if op = .load then [] else (u.accRow 5 (0 + i) 1).flatMap (natLe 4)))
        decide (s1.hart = J.hart.keeping s1.hart) && decide (s1.getTile 5 = s.getTile 5) && (s1.tileBad 5).isNone && (baseStride (fieldW bs 0) (fieldW bs 8) 4).isNone && fieldW bs 0 == spad &&
        (match (s1.closeTile 5).runRows { tileHdr (wTld 0 1 0) (bTld 5 0) 0 with bad0B := decide (1 < (1 : BitVec 3).toNat) } .translate h.vl (h.activeMem 0 h.vl) (es .load s1) .none with | .all _ _ => true | _ => false) &&
        (match ((s1.closeTile 5).lockRows (fieldW bs 0) (fieldW bs 8) h.vl (4 * 1) []).runRows { tileHdr (wTst 0 1 0) (bTst 5 0) 0 with bad0B := decide (1 < (1 : BitVec 3).toNat) } .translate h.vl (h.activeMem 0 h.vl) (es .store (s1.closeTile 5)) .none with | .all _ _ => true | _ => false)
      | _ => false) = true) := by decide +kernel
/-- `cload` from memory of zeros; `tsave` to the scratchpad. -/
theorem witness_cload : (let s := tiled Tile.init id
    let J := s.joined .tile 0 []
    (s.gs 5).toNat % 64 = 0 ∧ ∃ s1 bs, J.readBlock 0 (s.gs 5) 65664 none = .ok s1 bs ∧ s1.hart = J.hart.keeping s1.hart ∧ ∀ y ∈ bs.take 128, y.toNat ≤ 64) := by
  obtain ⟨ps, bs, -, h, hz⟩ := ((tiled Tile.init id).joined .tile 0 []).readBlock_zero 0 spad 65664 none spot ⟨rfl, by decide, rfl, rfl, rfl, rfl⟩ (by decide) rfl (fun _ hm => absurd hm List.not_mem_nil) (by decide)
    (fun a ps ha hb => tiled_via (((tiled Tile.init id).joined .tile 0 []).placed ps) false .read rfl rfl a ha (lt_of_lt_of_le hb (by decide))) (fun _ _ c hc => absurd hc List.not_mem_nil)
  exact ⟨by decide, _, bs, h, rfl, fun y hy => by rw [hz y (List.mem_of_mem_take hy)]; decide⟩
theorem tiled_area : ((tiled Tile.init id).tileArea 5).length = 66560 := State.tileArea_length _ 5 (by decide)
theorem witness_tsave : (let s := tiled Tile.init id
    s.hart.super = true ∧ ∃ s1, (s.joined .tile 0 []).writeBlock 0 (s.gs 5) (s.tileArea 5) = .ok s1 []) := by
  obtain ⟨t, h⟩ := ((tiled Tile.init id).joined .tile 0 []).writeBlock_plain 0 spad ((tiled Tile.init id).tileArea 5) spot (by decide) rfl (fun _ hm => absurd hm List.not_mem_nil) (by rw [tiled_area]; decide)
    (fun t a hc ha h0 h1 => ha ▸ tiled_via t false .write (by rw [show t.getCore 0 = _ from hc]; rfl) (congrArg Agent.hart ha) a h0 (lt_of_lt_of_le h1 (by rw [tiled_area]; decide)))
  exact ⟨by decide, t, h⟩
/-- The state whose memory lists only bytes of the first 64 of the scratchpad. -/
def headed (bs : List Byte) : State := { tiled Tile.init id with mem := memPut [] (spot spad.toNat) bs }
/-- What a block at the scratchpad then holds, read for an instruction that has made no translation. -/
theorem headed_block (bs : List Byte) (t : State) (ht : t = { (headed bs) with hart := t.hart }) (hs : t.hart.sbuf = []) (hv : t.hart.vbuf = []) (ha : t.hart.answers = []) (hi : t.hart.id = 0) (hq : t.hart.places = []) (n : Nat) (h : 64 ≤ n) (hn : n ≤ 1310720) (h64 : bs.length ≤ 64) :
    ∃ ps zs, placesBy spot ps ∧ t.readBlock 0 spad n none = .ok (t.placed ps) (memRead 64 (spot spad.toNat) (memPut [] (spot spad.toNat) bs) ++ zs) ∧ ∀ b ∈ zs, b = 0 := by
  have hm : t.mem = memPut [] (spot spad.toNat) bs := by rw [ht]; rfl
  have hc : t.copyBusy t.hart.id = false := by
    rw [hi, ht]
    rfl
  have hal : t.Alone := ⟨by rw [ht]; rfl, by rw [ht]; exact base_firm, hs, hv, by rw [ht]; rfl, by rw [ht]; rfl⟩
  rw [← hm]
  refine t.readBlock_head 0 spad n none spot hal hc ha (fun m hm => absurd (hq ▸ hm) List.not_mem_nil) (by simp only [show spad.toNat = 0xFFFFF00000000000 from rfl]; omega) h (by decide) (by decide) (fun a ps ha hb => ?_) (fun a ha c hcm => ?_)
  · refine tiled_via (t.placed ps) false .read ?_ ?_ a ha (lt_of_lt_of_le hb (by simp only [show spad.toNat = 0xFFFFF00000000000 from rfl]; omega))
    · have : (t.placed ps).getCore 0 = (headed bs).getCore 0 := by rw [ht]; rfl
      rw [this]
      rfl
    · exact hi
  · have h1 : c.1 < spot spad.toNat + bs.length := by
      rw [hm] at hcm
      simp only [memPut, List.takeWhile_nil, List.dropWhile_nil, List.nil_append, List.append_nil] at hcm
      exact (Memory.cellsOf_wf bs _).2 c hcm
    have h2 : spot spad.toNat + 64 ≤ spot a := by
      have ha' : 0xFFFFF00000000000 + 64 ≤ a := ha
      simp only [spot, locBank, show spad.toNat = 0xFFFFF00000000000 from rfl]
      omega
    omega
/-- The first 64 bytes of a tile save area with version 1 and TM, TN 1, whose KC is 0 or 4. -/
def tileHead (kc : Nat) : List Byte := natLe 64 (1 + kc * 2 ^ 88)
theorem tileHead_ok (kc : Nat) (zs : List Byte) (hk : kc = 0 ∨ kc = 4) (hz : ∀ b ∈ zs, b = 0) :
    tileAreaBad (memRead 64 (spot spad.toNat) (memPut [] (spot spad.toNat) (tileHead kc)) ++ zs) = false ∧
    fieldOf (memRead 64 (spot spad.toNat) (memPut [] (spot spad.toNat) (tileHead kc)) ++ zs) 0xB 1 = kc := by
  have hl : memRead 64 (spot spad.toNat) (memPut [] (spot spad.toNat) (tileHead kc)) = tileHead kc := memRead_memPut_same rfl _ (tileHead kc)
  have h64 : (tileHead kc).length = 64 := natLe_length _ _
  have hany : (((tileHead kc ++ zs).drop 0x140).take 128).any (fun x => decide (64 < x.toNat)) = false := by
    rw [List.any_eq_false]
    intro b hb
    rw [drop_zeros (tileHead kc) zs 0x140 hz (by rw [h64]; decide) b (List.mem_of_mem_take hb)]
    decide
  rw [hl]
  have e := fun off n (h : off + n ≤ 64) => fieldOf_head (tileHead kc) zs off n (by rw [h64]; exact h)
  have y := fun lo hi (h : hi ≤ 64) (h' : lo ≤ hi) => zeroIn_head (tileHead kc) zs lo hi (by rw [h64]; exact h) h'
  refine ⟨?_, ?_⟩
  · unfold tileAreaBad
    rw [e 0 4 (by decide), e 8 1 (by decide), e 9 1 (by decide), e 0xA 1 (by decide), e 0xB 1 (by decide), y 4 8 (by decide) (by decide), y 0xC 0x40 (by decide) (by decide),
      zeroIn_zeros (tileHead kc) zs 0x1C0 0x400 hz (by rw [h64]; decide), hany]
    rcases hk with rfl | rfl <;> decide
  · rw [e 0xB 1 (by decide)]
    rcases hk with rfl | rfl <;> decide
theorem pendBad_zero : ∀ (n : Nat) (bs : List Byte), (∀ b ∈ bs, b = 0) → pendBad n bs = false
  | 0, _, _ => rfl
  | n + 1, bs, h => by
    rw [pendBad, leNat_zeros _ (fun b hb => h b (List.mem_of_mem_take hb)), pendBad_zero n (bs.drop 72) (fun b hb => h b (List.mem_of_mem_drop hb))]
    rw [Nat.zero_div, Nat.zero_mod]; rfl
/-- What a block at the scratchpad leaves above its first 64 bytes: nothing is listed there. -/
theorem headed_above (bs : List Byte) (h64 : bs.length ≤ 64) (a : Nat) (ha : spad.toNat + 64 ≤ a) (c : Nat × Byte) (hc : c ∈ memPut [] (spot spad.toNat) bs) : c.1 < spot a := by
  have h1 : c.1 < spot spad.toNat + bs.length := by
    simp only [memPut, List.takeWhile_nil, List.dropWhile_nil, List.nil_append, List.append_nil] at hc
    exact (Memory.cellsOf_wf bs _).2 c hc
  have h2 : spot spad.toNat + 64 ≤ spot a := by
    have ha' : 0xFFFFF00000000000 + 64 ≤ a := ha
    simp only [spot, locBank, show spad.toNat = 0xFFFFF00000000000 from rfl]
    omega
  omega
theorem headed_placed_mem (bs : List Byte) (u : State) (hu : u.mem = (headed bs).mem) (qs : List Placing) : (u.placed qs).mem = memPut [] (spot spad.toNat) bs := hu
/-- `trest` reads its area, and that of the sums of an open block after it. -/
theorem witness_trest (kc : Nat) (hk : kc = 0 ∨ kc = 4) : (let J := (headed (tileHead kc)).joined .tile 0 []
    ∃ s1 bs, J.readBlock 0 spad 0x10400 none = .ok s1 bs ∧ s1.hart = J.hart.keeping s1.hart ∧ tileAreaBad bs = false ∧ fieldOf bs 0xB 1 = kc ∧
      ∃ s2 ps, s1.readBlock 1 (spad + 0x10400) (72 * 16384) none = .ok s2 ps ∧ s2.hart = J.hart.keeping s2.hart ∧ pendBad 16384 ps = false) := by
  obtain ⟨qs, zs, hqs, h, hz⟩ := headed_block (tileHead kc) ((headed (tileHead kc)).joined .tile 0 []) rfl rfl rfl rfl rfl rfl 0x10400 (by decide) (by decide) (by simp [tileHead, natLe_length])
  have hb := tileHead_ok kc zs hk hz
  obtain ⟨rs, ps, -, h2, hz2⟩ := (((headed (tileHead kc)).joined .tile 0 []).placed qs).readBlock_zero 1 (spad + 0x10400) (72 * 16384) none spot ⟨rfl, base_firm, rfl, rfl, rfl, rfl⟩ rfl rfl hqs (by decide)
    (fun a ps ha hb => tiled_via ((((headed (tileHead kc)).joined .tile 0 []).placed qs).placed ps) false .read rfl rfl a (le_trans (by decide) ha) (lt_of_lt_of_le hb (by decide)))
    (fun a ha c hc => headed_above (tileHead kc) (le_of_eq (natLe_length _ _)) a (le_trans (by decide) ha) c ((headed_placed_mem (tileHead kc) ((headed (tileHead kc)).joined .tile 0 []) rfl qs) ▸ hc))
  exact ⟨_, _, h, rfl, hb.1, hb.2, _, ps, h2, rfl, pendBad_zero _ _ hz2⟩
theorem witness_trest_ready : (headed (tileHead 0)).tileReady 0 5 0 = true ∧ (headed (tileHead 4)).tileReady 0 5 0 = true ∧ ((headed (tileHead 4)).gs 5).toNat % 64 = 0 := by decide

/-! ### Witnesses: tile arithmetic -/

theorem witness_vopa : (let s := tiled { Tile.init with f32 := false, tm := 2, tn := 2 } (fun h => { h with vtype := 0x0002, vl := 4 })
    let h := s.hart
    s.tileReady 0 5 0 = true ∧ s.tileTaken 0 = false ∧ (s.getTile 5).tm ≤ 128 ∧ (s.getTile 5).tn ≤ 128 ∧ (s.getTile 5).curd = false ∧ h.vl = (s.getTile 5).tm * (32 / h.sew) ∧ (s.getTile 5).tn * (32 / h.sew) ≤ h.vlmax ∧
      h.operandsOk [h.opd 1, h.opd 2] [] = true ∧ h.sew = 16 ∧ (s.getTile 5).f32 = false) := by decide
theorem witness_vopa_float : (let s := fun (k : Nat) => tiled { Tile.init with tm := 2, tn := 2, kc := k } (fun h => { h with vtype := 0x0042, vl := 4 })
    let h := (s 0).hart
    (s 0).tileReady 0 5 0 = true ∧ ((s 0).getTile 5).f32 = true ∧ ¬((2 : BitVec 3) = 0 ∧ (2 : BitVec 3) = 0) ∧ fmtWidth 2 h.sew = h.sew ∧ h.vl = 2 * (32 / h.sew) ∧ ((s 0).getTile 5).kc = 0 ∧
      ((s 30).getTile 5).kc + 2 ≤ 32 ∧ ((s 31).getTile 5).kc ≠ 0 ∧ 32 < ((s 31).getTile 5).kc + 2 ∧ (∀ i < 2, ((s 30).getTile 5).bsa.getD i 127 = 127 ∧ ((s 30).getTile 5).bsb.getD i 127 = 127)) := by decide +kernel
/-- An epilogue to f32 rows, whose record at the scratchpad names no arrays, no scales and no stream; and one whose FLAGS name the output stream at v24. -/
def epiState (flags : Nat) : State := oneRow 64 (spad.toNat + 64 + flags * 2 ^ 320) tile1
theorem witness_tepi : (let s := epiState 0
    let h := s.hart
    let J := s.joined .tile 0 []
    (s.getTile 5).curd = false ∧ (0 : BitVec 7).toNat + h.vl ≤ (s.getTile 5).tm ∧ (s.getTile 5).tn * outWidth 1 % 8 = 0 ∧
    (match J.issueRecord 0 (s.gs 5) 64 64 with
      | .ok s1 bs =>
        !s1.epiRecordBad bs && (baseStride (fieldW bs 0) (fieldW bs 8) (max 1 (outWidth 1 / 8))).isNone && !(fieldOf bs 0x28 8).testBit 4 &&
        (match s1.epiCols bs 0 (s.getTile 5).tn with
          | (.ok s2 _, some cols) =>
            let C := s2.closeTile 5
            let row := fun (i : Nat) => C.epiRow 5 1 cols none i
            let es := (h.activeMem 0 h.vl).flatMap (fun i => rowElems .store i (strideAddr (fieldW bs 0) (fieldW bs 8) i) ((s.getTile 5).tn * outWidth 1 / 8) (row i).1)
            decide (s2.hart = J.hart.keeping s2.hart) && (s2.tileBad 5).isNone && !s2.copyBlocks h.id [] && !C.copyBlocks C.hart.id es &&
            (match (C.lockRows (fieldW bs 0) (fieldW bs 8) h.vl ((s.getTile 5).tn * outWidth 1 / 8) []).runRows (tileHdr (wTepi 0 1 0 0) (bTepi 5 0) 0) .translate h.vl (h.activeMem 0 h.vl) es .none with | .all _ _ => true | _ => false)
          | _ => false)
      | _ => false) = true) := by decide +kernel
/-- An output stream bound to v24. -/
def outStream : Stream := { stream0 with out := true, fetched := [], count := 4 }
theorem witness_tepi_stream : (let s := { epiState 16 with hart := { (epiState 16).hart.setStream 24 (some outStream) with resume := .woken, irqs := [1] } }
    let h := s.hart
    let J := s.joined .tile 0 []
    (match J.issueRecord 0 (s.gs 5) 64 64 with
      | .ok s1 bs =>
        !s1.epiRecordBad bs && (fieldOf bs 0x28 8).testBit 4 && decide ((s1.closeTile 5).hart.stream (BitVec.ofNat 5 (24 + fieldOf bs 0x28 8 % 8)) = some outStream) &&
        (match s1.epiCols bs 0 (s.getTile 5).tn with
          | (.ok s2 _, some cols) =>
            let C := s2.closeTile 5
            (match C.epiStream (tileHdr (wTepi 0 1 0 0) (bTepi 5 0) 0) 24 outStream (h.activeMem 0 h.vl) (fun i => C.epiRow 5 1 cols none i) .none with | .next _ => true | _ => false)
          | _ => false)
      | _ => false) = true) := by decide +kernel
theorem witness_curd : (let s := tiled { Tile.init with curd := true } id
    let h := s.hart
    h.sew = 32 ∧ h.vl ≤ 4096 ∧ h.vstart = 0 ∧ (1 : BitVec 3).toNat ≤ 1 ∧ (s.getTile 5).curd = true ∧ (s.getTile 5).f32 = ((1 : BitVec 3) == 1) ∧ anyOverlap [h.opd 1] [⟨3, 1, 8⟩] = false ∧
      h.operandsOk [h.opd 1] [⟨3, 1, 8⟩] = true ∧ s.tileReady (0 + 1) 6 0 = true ∧ (s.getTile 6).curd = true ∧ (s.getTile 6).f32 = ((1 : BitVec 3) == 1)) := by decide
/-- `cleaf` of one row with leaf 0. -/
theorem witness_cleaf : (let s := tiled Tile.init (fun h => { h with vl := 1 })
    let h := s.hart
    h.vl ≤ 128 ∧ anyOverlap [⟨1, 1, 8⟩] [h.opd 3] = false ∧ h.operandsOk [⟨1, 1, 8⟩] [h.opd 3] = true ∧ (s.joined .tile 0 []).undisturbed = true ∧
      (h.activeMem 0 h.vl).filter (fun q => decide (h.elem 1 8 q < 64)) = [0] ∧ s.gs 5 + BitVec.ofNat 64 (4 * (64 * 0 + h.elem 1 8 0)) = spad ∧ spad.toNat % 4 = 0 ∧
      (s.joined .tile 0 []).reaches false .read 4 spad (spot spad.toNat) ∧ h.answers = []) :=
  ⟨by decide, by decide, by decide, by decide, by decide +kernel, by decide +kernel, by decide, ⟨⟨false, tiled_via _ false .read (by decide) rfl spad (by decide) (by decide)⟩, by decide, by decide, by decide, by decide⟩, by decide⟩
/-- A group of M, N and KD 1 in int8 with all its rows at the scratchpad; the rows from 0 multiply, and those from 1 on are not there. -/
def gmmRec : Nat := 1 + 1 * 2 ^ 16 + 1 * 2 ^ 32 + (spad.toNat + 64) * 2 ^ 192 + (spad.toNat + 128) * 2 ^ 256 + (spad.toNat + 192) * 2 ^ 320
def gmmState (row0 : Word) : State := let s := oneRow 64 gmmRec tile1
  { s with hart := { s.hart with vtype := 0x0001, s := s.hart.s.set 6 row0 } }
theorem witness_gmm : (let s := gmmState 0
    let h := s.hart
    let J := s.joined .tile 0 []
    s.tileReady 0 5 0 = true ∧ 1 ≤ h.vl ∧ h.vl ≤ 128 ∧
    (match J.issueRecord 0 (s.gs 5) 64 64 with
      | .ok s1 g =>
        (groupBad g h.sew 0).isNone && (groupAligned g).isNone &&
        ([(tileHdr (wGmm 0) (bGmm 6 5 0) 0, false), (tileHdr (wGmmE 0) (bGmmE 6 5 0) 0, true)].all (fun p => match s1.groupScales p.1 g 0 0 with
          | .ok (s2, za, zb) => (match s2.gmmRows p.1 5 p.2 g 0 0 za zb with | .next _ => true | _ => false)
          | _ => false))
      | _ => false) = true) := by decide +kernel
/-- The conditions under which `gmm` and `gmm.e` complete: their record is in the scratchpad window and reachable, no write is buffered, and every element that they address is in the window; row 0 is below M,
or no row is. -/
def GmmMeets (s : State) (row0 : Word) : Prop :=
    let h := s.hart
    let J := s.joined .tile 0 []
    let g := memRead 64 (spot spad.toNat) s.mem
    let live := (h.activeMem 0 h.vl).filter (fun i => decide (row0.toNat + i < grpM g))
    (s.gs 5).toNat % 64 = 0 ∧ J.reaches false .read 64 (s.gs 5) (spot spad.toNat) ∧ s.ecc = [] ∧ J.undisturbed = true ∧ h.answers = [] ∧
      s.allHarts.all (fun y => y.sbuf.isEmpty && y.vbuf.isEmpty) = true ∧ grpSm g = 0 ∧ (groupBad g h.sew 0).isNone = true ∧ (groupAligned g).isNone = true ∧ (row0 = 1 → grpM g ≤ row0.toNat) ∧
      (∀ pe ∈ [false, true], ((if live.isEmpty then [] else gmmReadsB g h.sew 0 none) ++ live.flatMap (fun i => gmmReads g h.sew pe none i (row0.toNat + i) ++
        if pe then gmmWrites g 0 i (row0.toNat + i) (List.replicate (grpNc g 0) 0) else [])).all (fun e =>
          decide (0xFFFFF00000000000 ≤ e.addr.toNat) && (match s.window h.agent e.addr with | .loc _ st => !st | _ => false)) = true)
theorem gmm_meets (row0 : Word) (hv : row0 = 0 ∨ row0 = 1) : GmmMeets (gmmState row0) row0 := by
  rcases hv with rfl | rfl
  · exact ⟨by decide, ⟨⟨false, tiled_via _ false .read (by decide) rfl spad (by decide) (by decide)⟩, by decide, by decide, by decide, by decide⟩, rfl, by decide, rfl, by decide, by decide +kernel, by decide +kernel,
      by decide +kernel, by decide, by decide +kernel⟩
  · exact ⟨by decide, ⟨⟨false, tiled_via _ false .read (by decide) rfl spad (by decide) (by decide)⟩, by decide, by decide, by decide, by decide⟩, rfl, by decide, rfl, by decide, by decide +kernel, by decide +kernel,
      by decide +kernel, by decide +kernel, by decide +kernel⟩
theorem witness_gmm_completes : GmmMeets (gmmState 0) 0 := gmm_meets 0 (Or.inl rfl)
theorem witness_gmm_past : GmmMeets (gmmState 1) 1 := gmm_meets 1 (Or.inr rfl)

/-! ### Witnesses: races and dispatches -/

/-- A race record of one shard with T 1.0 and K 0. -/
def raceRec : List Byte := natLe 256 (0x3F800000 * 2 ^ 192 + 1 * 2 ^ 320)
/-- A slot of context 0 in a state; its cut is −infinity. -/
def slot0 (st : Nat) (left : BitVec 64) : RaceSlot := { RaceSlot.init 0 with cap := raceRec, state := st, left := left, win := if st = 2 then List.replicate 32 0 else [] }
/-- The state that has it as slot 0 of die 0 of package 0, whose handle is 0, with s5 at the scratchpad. -/
def raced (x : RaceSlot) : State := { atSpad with slots := [(0, x)] }
theorem witness_skimmer : (let s := raced (slot0 1 0)
    let h := s.hart
    h.mayJoin .engine 0 = true ∧ handleOk (s.gs 0) = true ∧ handlePkg (s.gs 0) = s.pkg.toNat ∧ tabGet s.slots (handleSlot (s.gs 0)) = some (slot0 1 0) ∧ (slot0 1 0).ctx = h.ctxid ∧ s.engineBusy h.id = false ∧
      (slot0 1 0).state = 1 ∧ 0 < fieldOf raceRec 0x28 2 ∧ (slot0 1 0).left.getLsbD 0 = false ∧ fieldOf raceRec 0x28 2 = 1 ∧ (slot0 1 1).left.getLsbD 0 = true ∧ (slot0 0 0).state ≠ 1 ∧
      FName.f32.read ((s.gs 0).toNat % 2 ^ 32) ≠ .inf true ∧ (FName.f32.read ((s.gs 0).toNat % 2 ^ 32)).lt (FName.f32.read 0xFF800000) = false ∧ (s.gs 5).toNat % 32 = 0 ∧ (s.gs 5).toNat % 64 = 0 ∧
      FName.f32.read (((s.withS [(7, 0xFF800000)]).gs 7).toNat % 2 ^ 32) = .inf true ∧ h.sew = 32 ∧ h.operandsOk [h.opd 1, h.opd 2] [] = true ∧ h.active 0 h.vl ≠ [] ∧ recReplay raceRec = false ∧
      (withHart (fun h => { h with vl := 0 })).hart.active 0 0 = []) := by decide +kernel
/-- A winner can be handed out: the slot is open and every shard has left, or it has closed with a record; the 32 bytes lie in the scratchpad. -/
theorem witness_rwin : (let s := raced (slot0 1 1)
    let h := s.hart
    h.answers = [] ∧ h.sbuf = [] ∧ h.vbuf = [] ∧ s.harts.all (fun p => p.2.id != h.id) = true ∧ (s.joined .engine 0 [7]).undisturbed = true ∧ (s.joined .engine 0 [7]).reaches false .write 32 (s.gs 5) (locBank 0 4 0) ∧
      (List.range (fieldOf (slot0 1 1).cap 0x28 2)).all (fun q => (slot0 1 1).left.getLsbD q) = true ∧ (slot0 1 1).state = 1 ∧ (slot0 2 1).state = 2 ∧ (slot0 2 1).win.length = 32) :=
  ⟨rfl, rfl, rfl, rfl, by decide, ⟨⟨false, spad_via _ false .write rfl rfl⟩, by decide, by decide, by decide, by decide⟩, by decide, rfl, rfl, rfl⟩
/-- A valid race record in the scratchpad. -/
def raceIn : State := { tiled Tile.init id with slots := [(0, slot0 0 0)], mem := memPut [] (spot spad.toNat) (raceRec.take 64) }
theorem witness_rset : (∀ q < 4, (raceIn.joined .engine 0 []).reaches false .read 64 (raceIn.gs 5 + BitVec.ofNat 64 (64 * q)) (spot (spad.toNat + 64 * q))) ∧
    raceRecordOk ((List.range 4).flatMap (fun q => memRead 64 (spot (spad.toNat + 64 * q)) raceIn.mem)) = true ∧ (raceIn.gs 5).toNat % 64 = 0 ∧ raceIn.hart.answers = [] ∧
    (raceIn.joined .engine 0 []).undisturbed = true := by
  refine ⟨fun q hq => ?_, by decide +kernel, by decide, rfl, by decide⟩
  have hv : ∀ a : Word, 0xFFFFF00000000000 ≤ a.toNat → a.toNat < 0xFFFFF00000000000 + 1310720 → ∀ l, l = spot a.toNat →
      (raceIn.joined .engine 0 []).translateVia false (raceIn.joined .engine 0 []).hart.agent .read a = (raceIn.joined .engine 0 [], .loc l false) :=
    fun a h0 h1 l hl => hl ▸ tiled_via _ false .read (by decide) rfl a h0 h1
  refine ⟨⟨false, hv _ ?_ ?_ _ ?_⟩, ?_, ?_, ?_, ?_⟩ <;> revert q hq <;> decide +kernel
/-- A slot whose record asks for replay, its noise at the scratchpad: a post of token 0 finds it there. -/
theorem witness_rpost_replay : (let x : RaceSlot := { slot0 1 0 with cap := natLe 256 (spad.toNat * 2 ^ 128 + 0x3F800000 * 2 ^ 192 + 1 * 2 ^ 320 + 1 * 2 ^ 336) }
    let J := (raced x).joined .engine 0 []
    let h := (raced x).hart
    recReplay x.cap = true ∧ h.active 0 h.vl ≠ [] ∧ ∀ q ∈ h.active 0 h.vl, J.reaches true .read 4 (fieldW x.cap 0x10 + BitVec.ofNat 64 (4 * h.elem 2 32 q)) (locBank 0 4 0)) := by
  refine ⟨by decide, by decide, fun q hq => ?_⟩
  have he : (base.hart.active 0 base.hart.vl).all (fun q => base.hart.elem 2 32 q == 0) = true := by decide +kernel
  have h0 : base.hart.elem 2 32 q = 0 := by simpa using List.all_eq_true.mp he q hq
  have h1 : (raced { slot0 1 0 with cap := natLe 256 (spad.toNat * 2 ^ 128 + 0x3F800000 * 2 ^ 192 + 1 * 2 ^ 320 + 1 * 2 ^ 336) }).hart.elem 2 32 q = 0 := h0
  have h2 : fieldW (natLe 256 (spad.toNat * 2 ^ 128 + 0x3F800000 * 2 ^ 192 + 1 * 2 ^ 320 + 1 * 2 ^ 336)) 0x10 + BitVec.ofNat 64 (4 * 0) = spad := by decide +kernel
  simp only [h1, h2]
  exact ⟨⟨false, spad_via _ true .read rfl rfl⟩, by decide, by decide, by decide, by decide⟩
theorem witness_skimmer_other : (tabGet (raced { slot0 1 0 with ctx := 1 }).slots 0 = some { slot0 1 0 with ctx := 1 } ∧ ({ slot0 1 0 with ctx := 1 } : RaceSlot).ctx ≠ base.hart.ctxid ∧ tabGet base.slots 0 = none) ∧
    (handleOk 0x10000 = true ∧ handlePkg 0x10000 ≠ base.pkg.toNat ∧ tabGet (withHart (fun h => { h with answers := [(2 ^ 59, .done (4 * 7) false), (2 ^ 58, .done (4 * 1) false)] })).hart.answers (2 ^ 59) = some (.done (4 * 7) false) ∧
      tabGet (withHart (fun h => { h with answers := [(2 ^ 59, .done (4 * 7) false), (2 ^ 58, .done (4 * 1) false)] })).hart.answers (2 ^ 58) = some (.done (4 * 1) false)) := by decide +kernel
/-- A race that takes posts, with K 0 and with K 1. -/
theorem witness_slots : (let x := slot0 1 0
    x.state = 1 ∧ 0 < fieldOf x.cap 0x28 2 ∧ x.left.getLsbD 0 = false ∧ (5 : Nat) ≠ 0xFFFFFFFF ∧ (FName.f32.read 0x7FC00000).isNan = true ∧ (FName.f32.read 0).isNan = false ∧ fieldOf x.cap 0x24 2 = 0 ∧
      0 < fieldOf (natLe 256 (0x3F800000 * 2 ^ 192 + 1 * 2 ^ 288 + 1 * 2 ^ 320)) 0x24 2) ∧
    ({ slot0 1 0 with cap := natLe 256 (0x3F800000 * 2 ^ 192 + 1 * 2 ^ 288 + 1 * 2 ^ 320), top := [⟨0x40000000, 3, 0⟩] } : RaceSlot).topOk ∧
    (FName.f32.read (code32 ((slot0 1 0).penalised 0x3F800000 5))).isNan = false := ⟨by decide +kernel, ⟨by decide +kernel, by decide +kernel, by decide +kernel⟩, by decide +kernel⟩
/-- A dispatch of one token with one choice among one local expert, rows of 16 bytes; its arrays lie in the scratchpad. -/
def dispRec : List Byte := natLe 128 (1 + 1 * 2 ^ 32 + 1 * 2 ^ 48 + 1 * 2 ^ 64 + 16 * 2 ^ 96 + (spad.toNat + 0x200) * 2 ^ 128 + (spad.toNat + 0x240) * 2 ^ 192 + (spad.toNat + 0x280) * 2 ^ 256 + (spad.toNat + 0x2C0) * 2 ^ 320 +
  (spad.toNat + 0x300) * 2 ^ 384 + (spad.toNat + 0x340) * 2 ^ 448 + (spad.toNat + 0x380) * 2 ^ 512 + (spad.toNat + 0x3C0) * 2 ^ 576 + (spad.toNat + 0x400) * 2 ^ 640 + (spad.toNat + 0x540) * 2 ^ 704 + 1 * 2 ^ 768 +
  1 * 2 ^ 784 + (spad.toNat + 0x580) * 2 ^ 832 + (spad.toNat + 0x5C0) * 2 ^ 896)
/-- The placement entry of its expert: a base and a size, no package. -/
def entry0 : List Byte := natLe 16 (0x20000 + 16 * 2 ^ 64)
/-- The dispatch in a state, with `n` tokens counted or sent. -/
def churn0 (st n : Nat) : Churn := { Churn.init 0 with state := st, cap := dispRec, plc := [placementOf entry0], cntd := n, next := n, cnt := [(0, n)] }
/-- The state with it as context 0 of die 0, for a strip of one token. -/
def churned (x : Churn) (bs : List Byte) (at_ : Nat) : State := { (withHart (fun h => { h with vl := 1 })).withS [(5, spad)] with churns := [(0, x)], mem := memPut [] (locBank 0 4 at_) bs }
theorem witness_chset : (let J := (churned (churn0 0 0) dispRec 0).joined .engine 0 [7]
    churnHandleOk (base.gs 0) = true ∧ churnKey (base.gs 0) = 0 ∧ spad.toNat % 64 = 0 ∧ dispatchRecordOk dispRec = true ∧ (match J.readBlock 0 spad 128 none with | .ok s1 bs => decide (bs = dispRec) && !s1.claimed 0 | _ => false) = true) := by decide +kernel
theorem witness_churn_states : (churned (churn0 1 0) [] 0).claimed 0 = false ∧ base.engineBusy base.hart.id = false ∧ base.hart.sound = true ∧ (churn0 1 0).owner = base.hart.ctxid ∧ (churn0 1 0).state = 1 ∧ (churn0 2 0).state ≠ 1 ∧ fieldOf dispRec 0 4 = 1 ∧ 1 < ((base.withS [(6, 5)]).gs 6).toNat + base.hart.vl ∧ (churn0 1 0).cntd ≠ 1 ∧ (churn0 3 1).state = 3 ∧
    (churn0 4 1).state = 4 ∧ (churn0 2 1).next = 1 ∧ (churn0 2 0).next ≠ 1 ∧ (churn0 2 1).hasRemote = false ∧ (churn0 2 1).rpend = 0 ∧ (churn0 2 1).rfail = false ∧
    ({ churn0 2 1 with plc := [⟨0, 16, some 1⟩] } : Churn).hasRemote = true ∧ tabGet base.churns 0 = none ∧ ({ churn0 1 0 with owner := 5 } : Churn).owner ≠ base.hart.ctxid ∧ 0 < ticketed.outstanding ticketed.hart := by decide +kernel
theorem witness_chcount : (let s := churned (churn0 1 0) [] 0
    let h := s.hart
    let J := s.joined .engine 0 [7]
    let es := (h.activeMem 0 h.vl).flatMap (fun i => choiceElems dispRec i (0 + i))
    J.copyBlocks h.id es = false ∧ (match J.runRows (churnHdr (wChcount 7 0 0 0) 7 0) .translate h.vl (h.activeMem 0 h.vl) es .none with | .all s1 _ => decide (s1.churns = s.churns) | _ => false) = true) := by decide +kernel
theorem witness_chplace : (let s := churned (churn0 1 1) entry0 0x280
    let J := s.joined .engine 0 [7]
    let x := churn0 1 1
    (match J.readBlock 0 (fieldW x.cap 0x20) 16 none with
      | .ok s1 bs =>
        let entries := chunks16 1 bs
        let plc := entries.map placementOf
        entries.all (placementOk (fieldOf x.cap 0xC 4)) && (match s1.writeAll (writeElems 1 (fieldW x.cap 0x28) ((List.range 1).flatMap (fun e => natLe 4 (countOf x.cnt e))) ++ (List.range 1).flatMap (x.groupElems plc) ++
          writeElems 2 (fieldW x.cap 0x50 + 64) (x.taskWords.flatMap (natLe 8)) ++ writeElems 3 (fieldW x.cap 0x50) (natLe 8 0)) [] with | .ok _ _ => true | _ => false)
      | _ => false) = true) := by decide +kernel
/-- A strip whose first token is next, whose choice is beyond E, so that it sends nothing; and one whose token has been sent. -/
theorem witness_chsend : (let s := churned (churn0 2 0) (natLe 2 0xFFFF) 0x200
    let J := s.joined .engine 0 [7]
    s.hart.resume ≠ .aborted ∧ 0 + s.hart.vl ≤ 1 ∧ s.hart.vstart.toNat < s.hart.vl ∧ 0 + s.hart.vstart.toNat = (churn0 2 0).next ∧ s.claimed 0 = false ∧ J.undisturbed = true ∧
      (match (J.openLock s.hart.id []).sendStrip 0 0 none 1 0 with | .done _ => true | _ => false) = true ∧ 0 + s.hart.vstart.toNat < (churn0 2 1).next ∧
      ({ churn0 2 0 with next := 0 } : Churn).next < 5 + s.hart.vstart.toNat) := by decide +kernel
/-- The same dispatch with its expert's rows in the scratchpad: whatever its token chooses, each element that `chsend` can address is in the window. -/
def churnIn : Churn := { churn0 2 0 with plc := [⟨spad + 0x800, 16, none⟩] }
theorem witness_chsend_window : (let s := churned churnIn (natLe 2 0) 0x200
    s.hart.answers = [] ∧ s.ecc = [] ∧ s.allHarts.all (fun y => y.sbuf.isEmpty && y.vbuf.isEmpty) = true ∧ (s.joined .engine 0 [7]).undisturbed = true ∧ tabGet s.churns 0 = some churnIn ∧ churnIn.owner = s.hart.ctxid ∧
      ∀ i, s.hart.vstart.toNat ≤ i → i < s.hart.vl → ∀ p : Pair, p.c < fieldOf churnIn.cap 4 1 → (match p.to_ with
        | .row q => p.e < fieldOf churnIn.cap 6 2 ∧ q < fieldOf churnIn.cap 8 4
        | .drop (some q) => p.e < fieldOf churnIn.cap 6 2 ∧ q < fieldOf churnIn.cap 0x64 4
        | _ => True) →
        (choiceElems churnIn.cap i (0 + i) ++ churnIn.pairReads i (0 + i) p ++ churnIn.pairWrites i (0 + i) p (List.replicate 2 0) (List.replicate (fieldOf churnIn.cap 0xC 4) 0)).all (fun e =>
          decide (0xFFFFF00000000000 ≤ e.addr.toNat) && (match s.window s.hart.agent e.addr with | .loc _ st => !st | _ => false)) = true) := by
  refine ⟨rfl, rfl, by decide, by decide, rfl, rfl, fun i _ hi p hc hm => ?_⟩
  obtain rfl : i = 0 := Nat.lt_one_iff.mp hi
  obtain ⟨c, e, t⟩ := p
  have hK : fieldOf churnIn.cap 4 1 = 1 := by decide +kernel
  have hE : fieldOf churnIn.cap 6 2 = 1 := by decide +kernel
  have hC : fieldOf churnIn.cap 8 4 = 1 := by decide +kernel
  have hD : fieldOf churnIn.cap 0x64 4 = 0 := by decide +kernel
  rw [hK] at hc
  rw [hE, hC, hD] at hm
  obtain rfl : c = 0 := Nat.lt_one_iff.mp hc
  cases t with
  | none => exact (by decide +kernel : (choiceElems churnIn.cap 0 (0 + 0) ++ churnIn.pairReads 0 (0 + 0) ⟨0, 0, .none⟩ ++ churnIn.pairWrites 0 (0 + 0) ⟨0, 0, .none⟩ (List.replicate 2 0) (List.replicate (fieldOf churnIn.cap 0xC 4) 0)).all (fun e =>
          decide (0xFFFFF00000000000 ≤ e.addr.toNat) && (match (churned churnIn (natLe 2 0) 0x200).window (churned churnIn (natLe 2 0) 0x200).hart.agent e.addr with | .loc _ st => !st | _ => false)) = true)
  | row q =>
    obtain rfl : e = 0 := Nat.lt_one_iff.mp hm.1
    obtain rfl : q = 0 := Nat.lt_one_iff.mp hm.2
    decide +kernel
  | drop q =>
    cases q with
    | none => exact (by decide +kernel : (choiceElems churnIn.cap 0 (0 + 0) ++ churnIn.pairReads 0 (0 + 0) ⟨0, 0, .drop none⟩ ++ churnIn.pairWrites 0 (0 + 0) ⟨0, 0, .drop none⟩ (List.replicate 2 0) (List.replicate (fieldOf churnIn.cap 0xC 4) 0)).all (fun e =>
          decide (0xFFFFF00000000000 ≤ e.addr.toNat) && (match (churned churnIn (natLe 2 0) 0x200).window (churned churnIn (natLe 2 0) 0x200).hart.agent e.addr with | .loc _ st => !st | _ => false)) = true)
    | some d => exact absurd hm.2 (Nat.not_lt_zero d)
theorem witness_chdone : (let s := churned (churn0 2 1) [] 0
    let J := s.joined .engine 0 [7]
    (match ((J.drainAll s.hart.id).tablesDone (churn0 2 1)).writeAll (writeElems 0 (fieldW dispRec 0x48) (natLe 8 0)) (writeElems 1 (fieldW dispRec 0x50) (natLe 8 0)) with | .ok _ _ => true | _ => false) = true) := by decide +kernel
/-- A pool word with and without a task left. -/
theorem witness_pool : (atSpad.checked false [5]).bad (locBank 0 4 0) 8 = false ∧ (atSpad.checked false [5]).quietAt (locBank 0 4 0) 8 = true ∧ Memory.wf (atSpad.checked false [5]).mem = true ∧
    atSpad.copyHits 0 spad 8 = false ∧ (atSpad.gs 5).toNat % 8 = 0 ∧ ((atSpad.checked false [5]).drainAll 0).bad (locBank 0 4 0) 8 = false ∧ ((atSpad.checked false [5]).drainAll 0).quietAt (locBank 0 4 0) 8 = true ∧
    Memory.wf ((atSpad.checked false [5]).drainAll 0).mem = true ∧ atSpad.outstanding atSpad.hart = 0 ∧ atSpad.engineBusy atSpad.hart.id = false := by decide
theorem witness_pool_placed : ((atSpad.checked false [5]).drainAll 0).translate atSpad.hart.agent .write spad = ((atSpad.checked false [5]).drainAll 0, .loc (locBank 0 4 0) false) := spad_place _ .write rfl rfl
/-- `wtake` of an empty pool gives all ones; after `wput` of 3 it gives task 0. -/
theorem test_pool : gives (exec (.wtake 7 5) atSpad) (fun t => t.gs 7 == BitVec.allOnes 64) = true ∧ gives (exec (.wput 7 5 3) atSpad) (fun s1 => gives (exec (.wtake 7 5) s1) (fun t => t.gs 7 == 0)) = true := by decide +kernel

/-! ### Witnesses: collectives and ports -/

/-- Group register 1 of group 7, rank 0 of 1. -/
def group0 : Group := { v := true, ab := false, why := 0, last := 0, orig := 0, gid := 7, rank := 0, nm1 := 0 }
/-- The package's port holds a group with these members; the hart's group register 1 is of it. -/
def grouped (members : List (Nat × Nat × Nat)) (ab : Option (BitVec 2 × BitVec 10)) (f : Hart → Hart) : State :=
  { withHart (fun h => f { h with groups := h.groups.set 1 group0 }) with groups := [⟨0, 7, members, ab⟩] }
theorem witness_collectives : (let s := grouped [(0, 0, 0)] none id
    let h := s.hart
    h.mayJoin .engine 0 = true ∧ h.operandsOk [h.opd 1] [h.opd 3] = true ∧ h.operandsOk [h.opd 3] [h.opd 3] = true ∧ (3 : Reg5) ≠ 1 ∧ h.resume = .none ∧ h.vstart = 0 ∧ h.collFmt 0 = true ∧ (h.group 1).v = true ∧
      (h.group 1).ab = false ∧ (h.group 2).v = false ∧ s.combinesHere h.ctxid (h.group 1).gid = true ∧ h.coll = none) ∧
    (grouped [] none (fun h => { h with resume := .go [1, 2, 3, 4] 0 })).hart.resume = .go [1, 2, 3, 4] 0 ∧ (grouped [] none (fun h => { h with resume := .aborted })).hart.resume = .aborted := by decide
/-- What the member of rank 0 brings. -/
def key0 : CollKey := ⟨0, 4, 0x0043, 0⟩
/-- A collective of the hart at register 1: whether GO has come, the elements it waits for. -/
def coll0 (go : Bool) : Coll := ⟨1, key0, [1, 2, 3, 4], go, 4, [], 0, false⟩
theorem witness_ports : base.portGroup 0 7 = none ∧ (grouped [(0, 0, 0)] none id).portGroup 0 7 = some ⟨0, 7, [(0, 0, 0)], none⟩ ∧ (grouped [(0, 0, 0)] none id).combinesHere 0 7 = true ∧
    ((grouped [(0, 0, 0)] none id).combine 0 7).go = false ∧ (tabPut ((grouped [(0, 0, 0)] none id).combine 0 7).arrived 0 key0).length = 1 ∧ (∀ x ∈ tabPut ((grouped [(0, 0, 0)] none id).combine 0 7).arrived 0 key0, x.2 = key0) ∧
    (tabPut ((grouped [(0, 0, 0), (0, 0, 1)] none id).combine 0 7).arrived 0 key0).length < 2 ∧ (grouped [(1, 0, 0)] none id).combinesHere 0 7 = false ∧
    ((grouped [(0, 0, 0)] (some (1, 0)) id).portGroup 0 7).map (·.abort.isSome) = some true := by decide
/-- Two members, of which the other has arrived with another length. -/
def mismatched : State := { grouped [(0, 0, 0), (0, 0, 1)] none id with combines := [⟨0, 7, [(1, { key0 with vl := 5 })], false, []⟩] }
theorem witness_mismatch : 2 ≤ (tabPut (mismatched.combine 0 7).arrived 0 key0).length ∧ (∃ x ∈ tabPut (mismatched.combine 0 7).arrived 0 key0, x.2 ≠ key0) := ⟨by decide, (1, { key0 with vl := 5 }), by decide, by decide⟩
theorem witness_collective_hart : (let h := (grouped [(1, 0, 0)] none (fun h => { h with wait := .group 1, coll := some (coll0 false) })).getHart 0
    h.wait = .group 1 ∧ h.coll = some (coll0 false) ∧ (h.group 1).v = true ∧ (h.group 1).ab = false ∧ (coll0 false).go = false) ∧
    (let h := (grouped [(1, 0, 0)] none (fun h => { h with wait := .group 1, coll := some (coll0 true) })).getHart 0
     h.wait = .group 1 ∧ h.coll = some (coll0 true) ∧ (coll0 true).go = true ∧ (coll0 true).got = [] ∧ (coll0 true).want = [5, 6, 7, 8].length) ∧
    ((grouped [(1, 0, 0)] none (fun h => { h with coll := some (coll0 false) })).memberHart 0 7 0).map (fun m => (m.coll, m.stop, m.requested)) = some (some (coll0 false), false, false) ∧
    ((grouped [(1, 0, 0)] none (fun h => { h with coll := some (coll0 false), status := 2, irqs := [1] })).memberHart 0 7 0).map (fun m => (m.coll, m.stop, m.requested)) = some (some (coll0 false), false, true) := by decide
/-- Every source has come from elsewhere, after GO; none of the members is here. -/
def gathered : State := { grouped [(1, 0, 0), (2, 0, 0)] none id with combines := [⟨0, 7, [(0, key0), (1, key0)], true, []⟩] }
theorem witness_sources : gathered.portGroup 0 7 = some ⟨0, 7, [(1, 0, 0), (2, 0, 0)], none⟩ ∧ (gathered.combine 0 7).go = true ∧ (gathered.combine 0 7).arrived ≠ [] ∧ (gathered.combine 0 7).sources = [] ∧
    gathered.ranksHere ⟨0, 7, [(1, 0, 0), (2, 0, 0)], none⟩ = [] ∧ key0 = ((gathered.combine 0 7).arrived.headD (0, key0)).2 ∧
    ({ Hart.init 0 with vtype := 0x0003 } : Hart).sew = 4 * 2 ^ ((0x0003 : BitVec 16).toNat % 8) ∧ ({ Hart.init 0 with vtype := 0x0003 } : Hart).fmt < 2 := by decide
/-- The sum of two sources at SEW 32 in integers, and the inclusive scan of rank 0. -/
theorem test_collective_sum : (collResult ⟨0, 2, 0x0003, 0⟩ [[1, 2], [10, 2 ^ 32 - 1]] 0).1 = [11, 1] ∧ (collResult ⟨6, 2, 0x0003, 0⟩ [[1, 2], [10, 2 ^ 32 - 1]] 0).1 = [1, 2] := by decide
/-- An abort without a kill sets AB, WHY and ORIG and leaves V. -/
theorem test_gabort : gives (exec (.gabort 1 0) (grouped [(0, 0, 0)] none id)) (fun t => (t.hart.group 1).ab && (t.hart.group 1).v && (t.hart.group 1).why == 1) = true := by decide +kernel
/-- A chunk of group 7 whose bytes have all come, and none; a packet of the group's stream that comes after its abort. -/
theorem witness_chunks : (let f : ChunkCount → Bool := fun y => decide (y.want ≤ y.got) && y.same ⟨0, false, 0x10000, 1, some 7, 0, 0⟩
    base.chunks.find? f = none ∧ ({ base with chunks := [⟨0, false, 0x10000, 1, some 7, 8, 8⟩] } : State).chunks.find? f = some ⟨0, false, 0x10000, 1, some 7, 8, 8⟩) ∧
    (let q : Packet := ⟨9, 1, 0, 0, 0, 0, false, [], some ⟨some 7, 0x10000, 8, 0x20000, 1⟩⟩
     q.src ≠ base.pkg.toNat ∧ ((grouped [(0, 0, 0)] (some (1, 0)) id).portGroup q.ctx 7).map (·.abort.isSome) = some true ∧ q.tag.map (·.group) = some (some 7)) := by decide

/-! ### Witnesses: tickets, requests, firmware -/

/-- A table that maps every address below 2^42 to itself, for context 0, at 0x2000000. -/
def mapped (s : State) : State := { s with roots := [(0, 0x2000000)], mem := memPut s.mem 0x2000000 (natLe 8 0x8F00000000000000) }
/-- The state with one ticket of hart 0, in a state. -/
def ticketIn (t : TkState) : State := { base with cores := [(0, { Core.init with brole := 0x900, tickets := [{ ticket0 with state := t }] })] }
theorem witness_tickets : base.hart.mayJoin .engine 0 = true ∧ (ticketIn .ready).reportable = some { ticket0 with state := .ready } ∧ (ticketIn .fail).reportable = some { ticket0 with state := .fail } ∧
    base.reportable = none ∧ base.ticketWaits = false ∧ (ticketIn .wait).reportable = none ∧ (ticketIn .wait).ticketWaits = true ∧ (withHart (fun h => { h with resume := .limit })).hart.resume = .limit ∧
    base.hart.resume ≠ .limit := by decide
/-- A store and a load that package 1 sends for context 0, at an address that the tables map, and for context 1, which has none. -/
def packet0 (op : ROp) (ctx : BitVec 16) : Packet := { seq := 9, src := 1, dst := 0, die := 0, hart := 0, ctx := ctx, user := false, elems := [⟨0, 0x10000, 8, op, 0x55, 0⟩], tag := none }
/-- A ticket that die 0 has given for context 1. -/
def owner0 (entry : Option Word) : OwnerTicket := { die := 0, ticket := 4, ctx := 1, page := pageOf 0x10000, pkgs := [1], entry := entry, posted := 0 }
theorem witness_remote_request : (let s := mapped base
    (1 : Nat) ≠ s.pkg.toNat ∧ ([AccK.write, AccK.read].all (fun k => match s.took.tabPlace ⟨0, 0, false, some 1024⟩ k 0x10000 with
      | (s1, .loc l _) => l == 0x10000 && Memory.wf s1.mem && s1.quietAt l 8 && !s1.bad l 8
      | _ => false)) = true ∧
    (match ({ s with owned := [owner0 none] } : State).took.tabPlace ⟨0, 1, false, some 1024⟩ .read 0x10000 with
      | (s1, .fault 0) => (s1.owned.find? (fun y => y.die == 0 && y.ctx == 1 && y.page == pageOf 0x10000)).isSome
      | _ => false) = true) := by decide +kernel
/-- Hart 32 waits for one answer. -/
def awaiting : State := { base with sent := [{ packet0 .load 0 with hart := 32 }], harts := [(32, { Hart.init 32 with wait := .remote 1 })] }
theorem witness_remote_answer : base.sent.find? (fun y => y.seq == 9) = none ∧ (awaiting.sent.find? (fun y => y.seq == 9)).isSome = true ∧ (awaiting.getHart 32).wait = .remote 1 ∧ 32 < 8192 ∧
    (awaiting.getCluster (clusterOf 32)).copies.any (fun c => c.wait == some 9) = false := by decide
/-- The service entry at 0x10000 has its STATUS at 0x10018. -/
def serviced (st : Nat) (entry : Option Word) (time : Nat) : State := { mapped { base with roots := [] } with owned := [{ owner0 entry with ctx := 0 }], mem := memPut (mapped base).mem 0x10018 (natLe 4 st), time := time }
theorem witness_notices : base.ownedTicket 0 4 = none ∧ (serviced 1 (some 0x10000) 0).ownedTicket 0 4 = some { owner0 (some 0x10000) with ctx := 0 } ∧
    ((serviced 1 (some 0x10000) 0).serviceStatus { owner0 (some 0x10000) with ctx := 0 }).2 = some 1 ∧ ((serviced 2 none 0).serviceStatus (owner0 none)).2 = some 2 ∧
    ((serviced 0 (some 0x10000) (10 ^ 9)).serviceStatus { owner0 (some 0x10000) with ctx := 0 }).2 = some 0 ∧ (serviced 0 none 5).time < 0 + 10 ^ 9 ∧ 0 + 10 ^ 9 ≤ (serviced 0 none (10 ^ 9)).time := by decide +kernel
theorem witness_notice_tables : base.churns = [] ∧ ({ base with churns := [(0, churn0 2 0)] } : State).churns = [(0, churn0 2 0)] := ⟨rfl, rfl⟩
theorem witness_credit : ((withHart (fun h => { h with wait := .credit none, irqs := [1] })).getHart 0).wait = .credit none ∧ ((withHart (fun h => { h with wait := .credit none, irqs := [1] })).getHart 0).pending = true ∧
    ((withHart (fun h => { h with wait := .credit none, irqs := [1] })).getHart 0).ie = true ∧ ((withHart (fun h => { h with wait := .credit (some 0) })).getHart 0).wait = .credit (some 0) ∧
    0 + 4096 ≤ ({ base with cycle := 4096 } : State).cycle ∧ ((withHart (fun h => { h with wait := .credit (some 0), irqs := [1] })).getHart 0).pending = true ∧ base.cycle ≤ 0 + 4096 := by decide
theorem witness_updates : ((withHart (fun h => { h with vbuf := [⟨0, 64, [1], 0, some (0, 1, false), 64, 0, ⟨0, []⟩⟩] })).getHart 0).vbuf.findIdx? (·.rmw.isSome) = some 0 ∧ (base.getHart 0).vbuf.findIdx? (·.rmw.isSome) = none ∧
    ((withHart (fun h => { h with vbuf := [⟨0, 2 ^ 51, [1], 0, none, 0x10000, 0, ⟨0, []⟩⟩] })).getHart 0).vbuf.findIdx? (fun y => isHost y.loc) = some 0 ∧ (base.getHart 0).vbuf.findIdx? (fun y => isHost y.loc) = none := by decide
/-- A user hart whose stream has its next element at 0x10000. -/
def fetching : State := mapped (withHart (fun h => { h.setStream 24 (some { stream0 with fetched := [], base := 0x10000 }) with status := 2 }))
theorem witness_stream_fetch : (base.getHart 0).streams.getD 0 none = none ∧ ((fetching.getHart 0).streams.getD 0 none).isSome = true ∧ (fetching.getHart 0).fetchNext { stream0 with fetched := [], base := 0x10000 } = some 0 ∧
    (match fetching.chunkReady 0 0 { stream0 with fetched := [], base := 0x10000 } 0 with
      | (s1, .done x _) => x == 0 && (match s1.streamAddr 0 0 { stream0 with fetched := [], base := 0x10000 } 0 with
        | .at s2 va _ => (match s2.engineRead 0 ⟨streamIdx 0 0, va, 4, .load, 0, 0⟩ with | (_, .done _ _) => true | _ => false)
        | _ => false)
      | _ => false) = true := by decide +kernel
theorem witness_vsave : (atSpad.gs 5).toNat % 64 = 0 ∧ ((base.withS [(5, 1)]).gs 5).toNat % 64 ≠ 0 ∧ base.hart.super = true ∧ base.hart.sound = true ∧ base.hart.vl < 2 ^ 32 ∧ base.hart.lanes < 2 ^ 32 := by decide
theorem witness_vsave_write : ∃ s1, (((tiled Tile.init id).checked false [5]).upd (·.begin_)).writeBlock 0 spad (tiled Tile.init id).vectorArea = .ok s1 [] := by
  have hl : (tiled Tile.init id).vectorArea.length = 94784 := State.vectorArea_length _
  obtain ⟨t, h⟩ := (((tiled Tile.init id).checked false [5]).upd (·.begin_)).writeBlock_plain 0 spad (tiled Tile.init id).vectorArea spot (by decide) rfl (fun _ hm => absurd hm List.not_mem_nil) (by rw [hl]; decide)
    (fun t a hc ha h0 h1 => ha ▸ tiled_via t false .write (by rw [show t.getCore 0 = _ from hc]; rfl) (congrArg Agent.hart ha) a h0 (lt_of_lt_of_le h1 (by rw [hl]; decide)))
  exact ⟨t, h⟩
/-- The first 64 bytes of a vector save area: VTYPE 3, a version, VL 4, LANES 32. -/
def vecHead (version : Nat) : List Byte := natLe 64 (3 + version * 2 ^ 32 + 4 * 2 ^ 64 + 32 * 2 ^ 96)
/-- An area that breaks its layout, with version 0, and one that does not, without streams. -/
theorem witness_vrest (v : Nat) (hv : v = 0 ∨ v = 1) : ∃ s1 bs, (((headed (vecHead v)).checked false [5]).upd (·.begin_)).readBlock 0 spad 94784 none = .ok s1 bs ∧ vectorAreaBad bs = decide (v = 0) ∧
    ∀ q < 8, fieldOf bs (0x17040 + 64 * q) 8 = 0 := by
  obtain ⟨qs, zs, -, h, hz⟩ := headed_block (vecHead v) (((headed (vecHead v)).checked false [5]).upd (·.begin_)) rfl rfl rfl rfl rfl rfl 94784 (by decide) (by decide) (by simp [vecHead, natLe_length])
  have hl : memRead 64 (spot spad.toNat) (memPut [] (spot spad.toNat) (vecHead v)) = vecHead v := memRead_memPut_same rfl _ (vecHead v)
  have h64 : (vecHead v).length = 64 := natLe_length _ _
  rw [hl] at h
  have e := fun off n (h : off + n ≤ 64) => fieldOf_head (vecHead v) zs off n (by rw [h64]; exact h)
  refine ⟨_, _, h, ?_, fun q _ => fieldOf_zeros (vecHead v) zs _ 8 hz (by rw [h64]; omega)⟩
  have hr : (List.range 8).any (fun q => !zeroIn (vecHead v ++ zs) (0x17050 + 64 * q) (0x17080 + 64 * q)) = false := by
    rw [List.any_eq_false]
    intro q _
    rw [zeroIn_zeros (vecHead v) zs _ _ hz (by rw [h64]; omega)]
    decide
  unfold vectorAreaBad
  rw [e 4 4 (by decide), e 2 2 (by decide), e 0 2 (by decide), e 0xC 4 (by decide), zeroIn_head (vecHead v) zs 0x18 0x40 (by rw [h64]) (by decide), hr]
  rcases hv with rfl | rfl <;> decide
theorem witness_brole : base.allHarts.all (fun g => coreOf g.id != coreOf base.hart.id || !g.working) = true ∧ base.badCopies = [] ∧ base.copyInBanks 0 ((List.range 32).filter (fun b => bankRole 0x600 b != bankRole 0x900 b)) = false ∧ base.ecc = [] ∧
    (let b0 := (base.checked true [5]).clusterWrites (coreOf base.hart.id)
     Memory.wf ((b0.allHarts.filter (fun g => coreOf g.id == coreOf base.hart.id)).foldl (fun u g => u.drainAll g.id) b0).mem = true) ∧
    bankRole 0x600 5 ≠ bankRole (base.getCore 0).brole 5 ∧ bankRole (base.getCore 0).brole 5 = 2 ∧ base.hart.tmap.toNat / 2 ^ (8 * 0) % 256 = 128 + 5 := by decide

/-! ### Witnesses: mailbox calls, shoot-downs, promotions -/

/-- Hart 0 has called: REQ and the first four arguments in its slot. -/
def calling (s : State) (ws : List Nat) : State := { s with calls := [0], mem := memPut s.mem (mailboxLoc 0) (ws.flatMap (natLe 8)) }
/-- Firmware reads that call: REQ as written and the state of the call. -/
def reads (s : State) (ws : List Nat) (p : State → Bool) : Bool :=
  (calling s ws).serving && (calling s ws).calls.contains 0 && !(calling s ws).callBusy 0 &&
  match (calling s ws).readLoc (mailboxLoc 0) 40 with
  | (s1, some bs) => decide (fieldOf bs 0 8 = ws.headD 0) && decide (ws.headD 0 < 2 ^ 63) && (List.range 4).all (fun i => fieldOf bs (8 * i + 8) 8 == ws.getD (i + 1) 0) && p { s1 with calls := s1.calls.erase 0 }
  | _ => false
/-- One call for each function, with arguments in range and out of range. -/
theorem witness_calls : reads base [0] (fun S => S.quietAt (mailboxLoc 0) 64 && Memory.wf S.mem) = true ∧ reads base [9] (fun _ => true) = true ∧ reads base [1, 0] (fun _ => true) = true ∧
    reads base [1, 0x100] (fun _ => true) = true ∧ reads base [1, 0xFF] (fun _ => true) = true ∧ reads base [2, 0xFFFFFFFF] (fun _ => true) = true ∧ reads base [2, 0xFF] (fun _ => true) = true ∧
    reads base [3] (fun S => S.victims.isEmpty) = true := by decide +kernel
theorem witness_calls_memory : reads base [4, 0, 0, 0, 1] (fun S => (S.getHart 0).ctxid == 0) = true ∧ reads base [4, 1, 0, 0, 1] (fun S => (S.getHart 0).ctxid != 1) = true ∧ reads base [5, 0, 0, 1] (fun _ => true) = true := by
  decide +kernel
/-- A leaf of KIND 2 for the page at 0x10000. -/
def hostPaged : State := { base with roots := [(0, 0x2000000)], mem := memPut (memPut (memPut [] 0x2000000 (natLe 8 0x8000000002010000)) 0x2010000 (natLe 8 0x8000000002020000)) 0x2020008 (natLe 8 0xCF08000000000000) }
theorem witness_promote : reads hostPaged [5, 0x10000, 0x30000, 0] (fun S => canonical (BitVec.ofNat 64 0x10000) && !S.unready 0x30000 &&
      (match S.walk 0 0x10000 with | some (_, e, 3) => pteKind e == 2 | _ => false) && decide ((S.promos.filter (fun p => p.frame / 0xC00000000 == 0x30000 / 0xC00000000)).length < 16)) = true ∧
    16 ≤ ((List.replicate 16 (⟨1, 0, 0, 0, 0, 0, false, false, false, 0, []⟩ : Promo)).filter (fun p => p.frame / 0xC00000000 == 0x30000 / 0xC00000000)).length := by decide +kernel
theorem witness_grants : reads base [6, 3, 0] (fun _ => true) = true ∧ reads base [6, 1, 3] (fun S => !(S.freeOf 1 3).isEmpty) = true ∧ reads { base with churns := [(0, churn0 0 0), (1, churn0 0 0), (2, churn0 0 0), (3, churn0 0 0)] } [6, 1, 0] (fun S => (S.freeOf 1 0).isEmpty) = true ∧
    reads base [7, 0, 0, 5] (fun S => S.holder 0 0 5 != some 0) = true ∧ reads { base with spOwner := [(5, 0)] } [7, 2, 0, 5] (fun S => S.holder 2 0 5 == some 0) = true ∧
    reads base [8, 0, 1] (fun S => (S.getHart 0).jobid != 0 && S.pkg == 0) = true ∧ reads base [8, 0, 0] (fun _ => true) = true ∧ reads base [8, 0, 256] (fun _ => true) = true := by decide +kernel
theorem witness_shoot : ({ base with shoots := [⟨0, 0, 0, 1, false, 4, []⟩] } : State).shoots.find? (fun y => y.hart == 0) = some ⟨0, 0, 0, 1, false, 4, []⟩ ∧ (1 : Nat) ≠ 0 ∧ base.shoots = [] ∧ base.promos = [] := by decide
/-- A promotion of the page at 0x10000 in a stage. -/
def promo0 (copying switched tracked : Bool) (gen : Nat) : Promo := ⟨0, 0, 1, 0x2020008, gen, 0x30000, tracked, copying, switched, 5, []⟩
theorem witness_promotion : (let s := fun (p : Promo) => { hostPaged with promos := [p] }
    (s (promo0 true false false 0)).promos = [promo0 true false false 0] ∧ leNat (memRead 8 (promo0 true false false 0).pte hostPaged.mem) % 2 ^ 16 = (promo0 true false false 0).gen ∧
      leNat (memRead 8 (promo0 true false false 1).pte hostPaged.mem) % 2 ^ 16 ≠ (promo0 true false false 1).gen ∧ (promo0 false false false 0).copying = false ∧ (promo0 true true false 0).switched = true) := by decide

/-! ### Witnesses: queues, jobs, clusters -/

/-- A job record of one gang of one hart for context 0, with a dependence signal at an address. -/
def jobRec (dep : Nat) : List Byte := natLe 128 (1 * 2 ^ 128 + 1 * 2 ^ 168 + spad.toNat * 2 ^ 320 + dep * 2 ^ 512 + 1 * 2 ^ 576)
/-- A resident queue with one record at 0x4000. -/
def queue0 : Queue := { Queue.init with tail := 1, ring := 0x4000, res := true, en := true, log2n := 4 }
def queued (q : Queue) (bs : List Byte) : State := { base with queues := [(3, q)], mem := memPut [] 0x4000 bs }
theorem witness_queues : (3 : Nat) < 256 ∧ (256 : Nat) ≤ 256 ∧ (base.getQueue 3).res = false ∧ (queued queue0 []).serving = true ∧ queue0.progress < queue0.tail ∧ queue0.badTail = false ∧ queue0.dropped = [] ∧
    jobRecordOk (jobRec 0) = true ∧ ((queued queue0 (jobRec 0)).readLoc (0x4000 + 128 * (0 % 2 ^ 4)) 128).2 = some (jobRec 0) ∧ jobRecordOk [] = false ∧ ({ queue0 with tail := 17 } : Queue).badTail = true ∧
    ({ queue0 with res := false } : Queue).waiting = true ∧ (queued queue0 []).residents < 64 := by decide +kernel
/-- A job that firmware has taken, whose dependence is met or not. -/
def job0 (dep : Bool) : Job := { id := 5, queue := 3, cap := jobRec 0x10000, prio := 7, prev := none, dep := dep, placed := 0, start := none, die := 0, codes := [], err := none, killed := false, pre := false }
/-- The state with it, with tables for context 0. -/
def jobbed (j : Job) : State := mapped { queued queue0 [] with jobs := [j], hart := Hart.init 0 }
theorem witness_depsig : base.job 5 = none ∧ (jobbed (job0 false)).job 5 = some (job0 false) ∧ (jobbed (job0 false)).serving = true ∧ (tabGet (jobbed (job0 false)).roots (jobCtx (job0 false).cap).toNat).isSome = true ∧
    (((jobbed (job0 false)).fwRead (fwAgent 0 0) (jobDepsig (job0 false).cap) 8).2.map leNat) = some 0 ∧ jobDepval (job0 false).cap = 1 ∧
    ((({ jobbed (job0 false) with mem := memPut (jobbed (job0 false)).mem 0x10000 [1] } : State).fwRead (fwAgent 0 0) (jobDepsig (job0 false).cap) 8).2.map leNat) = some 1 ∧
    (({ jobbed (job0 false) with mem := [] } : State).fwRead (fwAgent 0 0) (jobDepsig (job0 false).cap) 8).2 = none := by decide +kernel
theorem witness_placement : (jobbed (job0 false)).chosen = none ∧ (jobbed (job0 true)).chosen = some (job0 true) ∧ (jobbed (job0 true)).parkedFirst 7 = false ∧ (jobbed (job0 true)).fits 31 (job0 true).cap = true ∧
    (tabGet (jobbed (job0 true)).roots (jobCtx (job0 true).cap).toNat).isSome = true ∧ (({ jobbed (job0 true) with roots := [] } : State).readRoot 0).2 = none ∧
    tabGet ({ jobbed (job0 true) with roots := [] } : State).roots 0 = none ∧ (job0 true).start = none ∧ (jobbed { job0 true with start := some 0, placed := 0 }).chosen = some { job0 true with start := some 0, placed := 0 } ∧
    (jobbed { job0 true with start := some 0 }).fits 31 (job0 true).cap = true ∧
    (let s : State := { jobbed (job0 true) with rootTab := 0x5000, mem := memPut (jobbed (job0 true)).mem 0x5000 (natLe 8 0x8000000002000000) }
     s.chosen = some (job0 true) ∧ s.fits 31 (job0 true).cap = true ∧ (s.readRoot 0).2 = some 0x2000000 ∧ tabGet (s.readRoot 0).1.roots 0 = some 0x2000000) := by decide +kernel
/-- A gang of a job of context 1 and priority 2 in every cluster. -/
def gangs0 (prio : Nat) : List Gang := (List.range 32).map (fun c => ⟨9, prio, 0, c, 0, [c * 32], 32, 32, c⟩)
def crowded (prio : Nat) : State := { jobbed (job0 true) with gangs := gangs0 prio, clusters := (List.range 32).map (fun c => (c, { Cluster.init with owner := some 1 })) }
theorem witness_preemption : (crowded 2).chosen = some (job0 true) ∧ (∀ c < 32, (crowded 2).fits c (job0 true).cap = false) ∧ (crowded 2).fits 32 (job0 true).cap = false ∧ (crowded 2).victim 7 = some 31 ∧
    (crowded 2).victims.contains 31 = false ∧ (crowded 7).victim 7 = none ∧ (∀ c < 32, (crowded 7).fits c (job0 true).cap = false) := by decide +kernel
theorem witness_suspend : (let s := fun (gs : List Gang) => { jobbed (job0 true) with victims := [0], gangs := gs }
    (s []).serving = true ∧ (s []).victims.contains 0 = true ∧ ((s []).hartsIn 0).all (fun h => !h.run) = true ∧ (s []).quiet (((s []).hartsIn 0).map (·.id)) = true ∧ (s []).gangsIn 0 = [] ∧
      (s (gangs0 2)).gangsIn 0 ≠ [] ∧ ((s (gangs0 2)).hartsIn 0).all (fun h => !h.run) = true ∧ (s (gangs0 2)).quiet (((s (gangs0 2)).hartsIn 0).map (·.id)) = true) := by decide +kernel
/-- A suspended cluster of context 1. -/
def parked0 : Parked := ⟨1, 0, [⟨9, 2, 0, 0, 0, [0], 32, 32, 0⟩], [], [], Cluster.init, [], [], [], []⟩
theorem witness_resume : (let s := { jobbed (job0 true) with parked := [parked0] }
    s.parked[0]? = some parked0 ∧ s.parked[1]? = none ∧ s.serving = true ∧ (31 : Nat) < 32 ∧ s.gangsIn 31 = [] ∧ s.hartsIn 31 = []) := by decide
theorem witness_job_end : (let j := { job0 true with err := some 1 }
    (jobbed j).job 5 = some j ∧ (jobbed j).jobOver j = true ∧ jobCompl j.cap = 0) := by decide +kernel
theorem witness_switch_out : (let s := { base with time := 10 ^ 6, queues := (3, { queue0 with res := false }) :: (List.range 64).map (fun q => (q + 10, queue0)) }
    s.serving = true ∧ s.longWait = true ∧ 64 ≤ s.residents ∧ s.switchable 10 = true ∧ (∀ y ∈ s.queues, s.switchable y.1 = true → (s.getQueue 10).resAt ≤ y.2.resAt)) := by decide +kernel
theorem witness_kill : (0x10000 : Word).getLsbD 16 = true ∧ (0 : Word).getLsbD 16 = false ∧ jobCtx (job0 true).cap = ((0x10000 : Word).truncate 16 : BitVec 16) := by decide +kernel

/-! ### Witnesses: package events -/

/-- The reset state after the first `k` stages. -/
def staged (k : Nat) : State := { State.reset with brdy := BitVec.ofNat 64 (2 ^ k - 1) }
theorem witness_stages : (∀ k < 7, (staged k).stageFailed = false ∧ (staged k).nextStage = k) ∧ (staged 0).recovery = false ∧ ({ staged 2 with brdy := 0x303 } : State).stageFailed = true ∧
    (let s := { staged 4 with brdy := 0xC0C0C0C00000000F }
     s.nextStage = 4 ∧ s.stageFailed = false ∧ s.wmark 0 = 192 ∧ s.wmark 1 = 192 ∧ s.wmark 2 = 192 ∧ s.wmark 3 = 192) ∧
    (∀ p ∈ ([0] : List Nat), p = (staged 5).pkg.toNat) ∧ (∃ p ∈ ([0, 1] : List Nat), p ≠ (staged 5).pkg.toNat) := by decide
theorem witness_wmark : (staged 4).stageFailed = false ∧ (staged 4).brdy.getLsbD 3 = true ∧ (3 : Nat) < 4 ∧ (staged 4).wmark 3 < 192 ∧ Memory.wf (staged 4).mem = true := by decide
theorem witness_images : base.fwStore = some [] ∧ ({ base with fwStore := none } : State).fwStore = none ∧ base.fwStat ≠ 1 ∧ (let s := { base with fwStat := 1, fwImg := 0x4000 }
    (s.readLoc (2 ^ 51 + s.fwImg.toNat % 2 ^ 51) 2).2 = some [0, 0] ∧ (({ s with ecc := [2 ^ 51 + 0x4000] } : State).readLoc (2 ^ 51 + s.fwImg.toNat % 2 ^ 51) 2).2 = none) := by decide
theorem witness_attestation : base.recovery = false ∧ base.stageFailed = false ∧ base.brdy.getLsbD 0 = true ∧ base.leaf < 2 ^ 20 ∧ 2 ^ 20 ≤ ({ base with leaf := 2 ^ 20 } : State).leaf ∧ (List.replicate 32 (0 : Byte)).length = 32 := by
  decide
theorem witness_power : base.gangs.filter (fun x => decide (4 < x.lanes)) = [] ∧ (crowded 2).gangs.filter (fun x => decide (4 < x.lanes)) = gangs0 2 ∧ (crowded 2).pcap < 1451 ∧ 1450 ≤ (crowded 2).pcap ∧
    ((gangs0 2).map (fun g => { g with lanes := 16 })).filter (fun x => decide (x.lanes < base.grantLimit x.limit)) = (gangs0 2).map (fun g => { g with lanes := 16 }) ∧ 100 * 1377 < 95 * base.pcap ∧ 95 * base.pcap ≤ 100 * 1378 := by decide +kernel
theorem witness_host : (let e : RElem := ⟨0, 0x2FFFFFFFF8, 8, .load, 0, 0⟩
    e.addr.toNat + e.n ≤ 0x3000000000 ∧ base.brdy.getLsbD 2 = true ∧ base.unready e.addr.toNat = false ∧ base.unready (e.addr.toNat + e.n - 1) = false ∧ base.quietAt e.addr.toNat e.n = true ∧ base.bad e.addr.toNat e.n = false) ∧
    0x3000000000 < (0x2FFFFFFFF9 : Word).toNat + 8 ∧ State.reset.brdy.getLsbD 2 = false ∧ (0x4010 / 8 : Nat) < 0x1000 ∧ (0x8000000000004010 : Word).toNat = 2 ^ 63 + 8 * (0x4010 / 8) := by decide
theorem witness_scrub : base.ecc = [] ∧ (0x2FFFFFFFE0 : Nat) < 0x3000000000 ∧ 0x2FFFFFFFE0 % 32 = 0 := by decide
theorem witness_lost : (1 : Nat) ≠ base.pkg.toNat ∧ base.sent = [] ∧ base.groups = [] := by decide
/-- A link with 15 mismatches of lanes 2 and 3, a slice, in the last millisecond, and one with none; a package that is itself lost would have all four links down. -/
theorem witness_links : (let x : Link := ⟨false, false, 0, List.replicate 7 (3, 0) ++ List.replicate 8 (2, 0)⟩
    let s : State := { base with links := base.links.set 1 x }
    s.links[(72 + 3) / 72]? = some x ∧ 16 ≤ (x.errs.filter (fun (y : Nat × Nat) => decide (s.time ≤ y.2 + 10 ^ 6)) ++ [(3, s.time)]).countP (fun (y : Nat × Nat) => y.1 / 2 == 3 / 2) ∧ base.links[3 / 72]? = some ⟨false, false, 0, []⟩ ∧
      ([(3, base.time)] : List (Nat × Nat)).countP (fun (y : Nat × Nat) => y.1 / 2 == 3 / 2) < 16 ∧ base.links.all (fun x => x.down && decide (x.since + 10 ^ 7 ≤ base.time)) = false) := by decide +kernel

/-! ### Witnesses: sound registers, calls that wait, older lines, requests -/

/-- The states above have no register with an uncorrectable error; one with an error in s5, and one with an error in mask m1 below VL. -/
theorem witness_sound : base.hart.sound = true ∧ atSpad.hart.sound = true ∧ answered.hart.sound = true ∧ (withHart (fun h => { h with bad := [sCode (5 : Reg5).toNat] })).hart.bad = [sCode (5 : Reg5).toNat] ∧
    (withHart (fun h => { h with bad := [512 * (32 + (1 : Reg3).toNat) + 0] })).hart.bad = [512 * (32 + (1 : Reg3).toNat) + 0] ∧ (1 : Reg3) ≠ 0 ∧ 0 * 64 < base.hart.vl ∧ base.hart.owns = true ∧ base.hart.room .valu 0 = true := by decide
/-- A hart with a copy unfinished cannot issue its `fence`: the slot is another hart's. -/
theorem witness_stalled : (let s := withCluster (fun c => { c with copies := [copy0] })
    s.engineBusy s.hart.id = true ∧ gives (exec (.fence 0) s) (fun t => (t.entered s.hart.pc [0x6C000005]).settleStop.hart.stall == .waiting) = true) := by decide +kernel
/-- A pair at the first two words of memory, and a word that another package has answered with. -/
theorem witness_fetch_pair : (let s := { (State.withFetchWord State.reset 64 0xF8880000FC4B6180) with cores := [] }
    match s.fetchWord 0 s.hart.pc with
    | .word s2 w => isPrefix w && w == 0xFC4B6180 && (match s2.fetchWord 1 (s2.hart.pc + 4) with | .word _ b => b == 0xF8880000 | _ => false)
    | _ => false) = true ∧ tabGet (withHart (fun h => { h with answers := [(2 ^ 61, .done 0x04A63800 false)] })).hart.answers (2 ^ 61) = some (.done 0x04A63800 false) := by decide +kernel
/-- A write has performed on the bytes of the constant line since the job started. -/
def rewritten : State := { atSpad with past := [(0, locBank 0 4 0, [1])], writes := 1 }
theorem witness_constant_past : (rewritten.checked false [5]).quietAt (64 * (locBank 0 4 0 / 64)) 64 = true ∧ (∃ w ∈ (rewritten.checked false [5]).past, (rewritten.checked false [5]).hart.constAt ≤ w.1 ∧ w.2.1 < locBank 0 4 0 + 8 ∧
      locBank 0 4 0 < w.2.1 + w.2.2.length) ∧ ¬∃ w ∈ (atSpad.checked false [5]).past, (atSpad.checked false [5]).hart.constAt ≤ w.1 ∧ w.2.1 < locBank 0 4 0 + 8 ∧ locBank 0 4 0 < w.2.1 + w.2.2.length :=
  ⟨by decide, ⟨(0, locBank 0 4 0, [1]), by decide, by decide, by decide, by decide⟩, by rintro ⟨w, hw, -⟩; exact absurd hw List.not_mem_nil⟩
theorem witness_store_placed : (atSpad.checked false [6, 5]).translate atSpad.hart.agent .write spad = (atSpad.checked false [6, 5], .loc (locBank 0 4 0) false) ∧ tabGet atSpad.hart.answers 0 = none ∧ atSpad.hart.answers = [] ∧
    atSpad.churns = [] ∧ (3 : BitVec 3).toNat ≤ 3 ∧ atSpad.engineBusy atSpad.hart.id = false ∧ atSpad.rowsOut atSpad.hart.id = false :=
  ⟨spad_place (atSpad.checked false [6, 5]) .write rfl rfl, rfl, rfl, rfl, by decide, by decide, by decide⟩
/-- The same peer access before its answer: package 0 is in reach and no ticket of the hart names the page. -/
theorem witness_peer_request : (let s := { answered with hart := { answered.hart with answers := [] } }
    (s.hart.peers.getD 3 0).getLsbD 63 = true ∧ tabGet s.hart.answers 0 = none ∧ s.reachable ((s.hart.peers.getD 3 0).toNat % 128) = true ∧ s.tickets s.hart.id = [] ∧ (answered.joined .engine 0 []).undisturbed = true ∧ answered.hart.vbuf = []) := by decide
/-- A convoy whose units are free begins, and one does not while another runs or a unit is taken. -/
theorem witness_convoys : (base.getHart 0).vq = [] ∧ (let s := withHart (fun h => { h with vq := [⟨[.valu], false, none⟩] })
    (s.getHart 0).vq = [⟨[UnitClass.valu], false, none⟩] ∧ (s.getHart 0).busy = [] ∧ s.unitsTaken 0 .valu + [UnitClass.valu].count .valu ≤ UnitClass.units .valu) ∧
    ((withHart (fun h => { h with vq := [⟨[.valu], false, none⟩], busy := [.vmul] })).getHart 0).busy ≠ [] := by decide
theorem witness_requests_stall : ((withHart (fun h => { h with status := 0x002, irqs := [1] })).getHart 0).stall ≠ .role ∧ (base.gs 5).getLsbD 1 = false ∧ ((base.withS [(5, 2)]).gs 5).getLsbD 1 = true := by decide

/-! ### Witnesses: harts at rest, standing instructions, the widened clauses -/

/-- Nothing is in progress, no codeword is bad and no answer has come. -/
def AtRest (s : State) : Bool := s.hart.cur.isEmpty && s.hart.answers.isEmpty && s.badCopies.isEmpty && s.ecc.isEmpty && s.hart.sound && s.hart.convoy.isNone && s.hart.places.isEmpty
theorem witness_rest : [State.reset, base, atSpad, tiled Tile.init id, oneRow 64 spad.toNat tile1, epiState 0, gmmState 0, gmmState 1, raced (slot0 1 0), raceIn, churned churnIn (natLe 2 0) 0x200, mapped base, hostPaged, streaming].all AtRest = true := by
  decide +kernel
/-- A `vadd.vv` stands in the vector queue, and the next instruction is `add s5, s6, s7`, which runs ahead of it. -/
def lateQ : Late := { words := [0x80A63800], pc := 0, s := State.reset.hart.s, places := [], refuse := none, lock := ⟨0, []⟩, seq := 0, convoy := none }
noncomputable def lagging : State := let s := State.withFetchWord State.reset 32 0x04A63800
  { s with hart := { s.hart with late := [lateQ] } }
theorem witness_runs_ahead : (match (lagging.took.focus 0).meet with
      | .run s0 => (match s0.fetch with
        | .words s1 ws => decide (lagging.nextHart = some 0 ∧ (lagging.took.focus 0).hart.requested = false ∧ decode ws = .ok (.add 5 6 7) 4 ∧ mayStand ws s1.hart.late.isEmpty = false ∧ s1.hart.late ≠ [] ∧ runsAhead ws = true) &&
            gives (exec (.add 5 6 7) s1) (fun t => !s1.trapped t)
        | _ => false)
      | _ => false) = true := by decide +kernel
/-- `sys` runs ahead of nothing, and `vadd.vv` may stand. -/
theorem witness_stands : (let s := State.withFetchWord State.reset 32 0x80A63800
    match (s.took.focus 0).meet with
      | .run s0 => (match s0.fetch with
        | .words s1 ws => (match decode ws with
          | .ok i _ => mayStand ws s1.hart.late.isEmpty && gives (exec i s1.took) (fun _ => true)
          | _ => false)
        | _ => false)
      | _ => false) = true ∧ mayStand [encodeWord .sys] false = false ∧ runsAhead [encodeWord .sys] = false ∧ mayStand [0x80A63800] false = true ∧ gives (exec .sys lagging) (fun _ => true) = true := by decide +kernel
/-- An instruction changes a register; a hart in user mode traps. -/
theorem witness_changes : isEvent (.addi 5 0 7) = false ∧ gives (exec (.addi 5 0 7) base) (fun t => t.gs 5 != base.gs 5) = true ∧ State.reset.hart.super = false ∧
    gives (exec .sys State.reset) (fun t => t.hart.super && t.hart.pc == t.hart.tvec) = true := by decide
/-- 2^200 overflows f32 and 2^12 e4m3; 1 + 2^-24 is a tie in both modes to nearest. -/
theorem witness_rounding_bounds : (FName.f32.round .rne false (.num false 1 200)).2.ov = true ∧ (FName.f32.round .rtz false (.num true 1 200)).2.ov = true ∧ (FName.e4m3.round .rne true (.num false 1 12)).2.ov = true ∧
    (FName.e2m1.round .rup false (.num true 1 12)).2.ov = true ∧ (FName.f32.round .rna false (.num false (2 ^ 24 + 1) (-24))).1 = 0x3F800001 ∧ (FName.f32.round .rna false (.num false (2 ^ 24 + 1) (-24))).2.ov = false := by decide
/-- Two harts have tile convoys that have not begun: the later one's waits for the earlier one's. A convoy that joins the running one begins where its unit is free. -/
theorem witness_convoy_order : (let s : State := { withHart (fun h => { h with vq := [⟨[.tile], false, some 5⟩] }) with harts := [(1, { Hart.init 1 with vq := [⟨[.tile], false, some 9⟩] })] }
    s.tileBehind 1 ⟨[.tile], false, some 9⟩ = true ∧ s.tileBehind 0 ⟨[.tile], false, some 5⟩ = false ∧ (s.getHart 1).vq = [⟨[.tile], false, some 9⟩]) ∧
    (let h := (withHart (fun h => { h with vq := [⟨[.vmul], true, none⟩], busy := [.valu] })).getHart 0
     h.vq = [⟨[.vmul], true, none⟩] ∧ h.busy ≠ [] ∧ (∀ u ∈ ([.vmul] : List UnitClass), (withHart (fun h => { h with vq := [⟨[.vmul], true, none⟩], busy := [.valu] })).unitsTaken 0 u + (h.busy ++ [UnitClass.vmul]).count u ≤ u.units)) := by decide
/-- Arrivals that can be withdrawn: of a member of another package, of a waiting hart here with and without a request, before GO and after. -/
theorem witness_withdrawal : (let s := grouped [(0, 0, 0), (1, 0, 0)] none id
    s.combinesHere 0 7 = true ∧ (s.combine 0 7).go = false ∧ s.memberHart 0 7 1 = none) ∧
    (let s := grouped [(0, 0, 0), (1, 0, 0)] none (fun h => { h with wait := .group 1, coll := some (coll0 false) })
     s.combinesHere 0 7 = true ∧ (s.combine 0 7).go = false ∧ (s.memberHart 0 7 0).map (fun m => (m.coll, m.stop, m.requested)) = some (some (coll0 false), false, false)) ∧
    (let s := grouped [(0, 0, 0), (1, 0, 0)] none (fun h => { h with wait := .group 1, coll := some (coll0 false), status := 2, irqs := [1] })
     s.combinesHere 0 7 = true ∧ (s.memberHart 0 7 0).map (fun m => (m.coll, m.stop, m.requested)) = some (some (coll0 false), false, true)) ∧
    (gathered.combine 0 7).go = true ∧ (({ gathered with groups := [⟨0, 7, [(0, 0, 0), (2, 0, 0)], none⟩] } : State).combinesHere 0 7 = true) ∧
    ((grouped [(1, 0, 0)] none id).combinesHere 0 7 = false) := by decide
/-- A packet of this package's, of a group that has been aborted. -/
theorem witness_own_packet : (let q : Packet := ⟨9, 0, 0, 0, 0, 0, false, [], some ⟨some 7, 0x10000, 8, 0x20000, 1⟩⟩
    let s : State := { grouped [(0, 0, 0)] (some (1, 0)) id with sent := [q] }
    q.src = s.pkg.toNat ∧ s.sent.any (· == q) = true ∧ (s.portGroup q.ctx 7).map (·.abort.isSome) = some true ∧ q.tag.map (·.group) = some (some 7)) := by decide
/-- The hart of a cluster that is to be pre-empted calls YIELD. -/
theorem witness_yield_victim : reads { base with victims := [0] } [3] (fun S => S.victims.contains (clusterOf 0) && (S.getHart 0).run) = true := by decide +kernel
/-- A request of hart 0 under a translation of page 1 of context 0 has not been answered. -/
theorem witness_requests_out : (withHart (fun h => { h with wait := .remote 1, places := [⟨1, 16, .write, .peer 1 0 false⟩] })).requestsOut 0 1 1 = true ∧ base.requestsOut 0 1 1 = false ∧ hostPaged.requestsOut 0 1 1 = false := by decide
/-- Every cluster holds a gang of priority 2, and a suspended cluster of priority 9 goes before the job of priority 7. -/
theorem witness_parked_first : (let s : State := { crowded 2 with parked := [{ parked0 with gangs := [⟨9, 9, 0, 0, 0, [0], 32, 32, 0⟩] }] }
    s.chosen = some (job0 true) ∧ s.serving = true ∧ s.parkedFirst 7 = true ∧ (∀ c < 32, s.gangsIn c ≠ []) ∧ s.victim 7 = some 31 ∧ s.victims.contains 31 = false) := by decide +kernel
/-- A tile of f32 accumulators: at SEW 32; with 16-bit operands whose scale registers are read; and with an open block of other scales. -/
theorem witness_vopa_scaled : (let s := tiled { Tile.init with tm := 2, tn := 2 } (fun h => { h with vtype := 0x0043, vl := 2 })
    let h := s.hart
    s.tileReady 0 5 0 = true ∧ (s.getTile 5).f32 = true ∧ h.sew = 32 ∧ fmtWidth 1 h.sew = 32 ∧ h.vl = 2 * (32 / h.sew) ∧ h.operandsOk [h.opd 1, h.opd 2] [] = true ∧ (s.getTile 5).blk = []) ∧
    (let s := tiled { Tile.init with tm := 2, tn := 2, kc := 4, bsa := Vector.replicate 128 126 } (fun h => { h with vtype := 0x0042, vl := 4 })
     let h := s.hart
     fmtWidth 2 h.sew = h.sew ∧ (1 : Reg5).toNat + h.lmul < 32 ∧ (s.getTile 5).kc ≠ 0 ∧ (s.getTile 5).kc + 2 ≤ 32 ∧ ∃ i < 2, ((s.getTile 5).bsa.getD i 127).toNat ≠ 127) := by decide +kernel
/-- Group records of f32 and of f16 operands whose fields are valid. -/
theorem witness_gmm_float : ([(1 : Nat), 2].all (fun c => let g := natLe 64 (gmmRec + (c + 8 * c + 64) * 2 ^ 48)
    (groupBad g 32 0).isNone && (groupAligned g).isNone && !grpInt g && grpSm g == 0 && (if c = 1 then grpW g 32 == 32 else grpW g 32 == 16))) = true := by decide +kernel
/-- A strip whose first token is not next. -/
theorem witness_chsend_waits : (churned (churn0 2 0) [] 0).hart.claim ≠ some 0 ∧ (churn0 2 0).next < 0 + ({ base.hart with vstart := 1 } : Hart).vstart.toNat ∧ ({ base.hart with vstart := 1 } : Hart).vstart.toNat < base.hart.vl := by decide
/-- Firmware's store is empty, or holds an image that starts. -/
theorem witness_clk : (staged 0).fwStore = some [] ∧ ({ staged 0 with fwStore := some [1, 2] } : State).recovery = false ∧ ({ staged 0 with fwStore := some [1, 2] } : State).nextStage = 0 := by decide
/-- A scrub can find an error in a cached copy. -/
theorem witness_cached_error : base.badCopies = [] ∧ base.ecc = [] ∧ (0x40 : Nat) < 0x3000000000 ∧ 0x40 % 8 = 0 ∧ (3 : Nat) < 256 := by decide

end Tests
end

section
/-! PROOFS. Instruction words as sums of fields (R7, R11): a word whose fields stand apart from each other and from the bits of its opcode gives each of them back. -/

namespace Sys2Proof.Words

open Sys2Proof

/-! ### The bits of a number -/

/-- The bits `[hi:lo]` of a number. -/
def bits (x hi lo : Nat) : Nat := x / 2 ^ lo % 2 ^ (hi - lo + 1)

/-- A field within the word reads the number that the word was made of, whatever stands above bit 31 of it. -/
theorem fld_ofNat {n : Nat} (x : Nat) {hi lo : Nat} (h : lo ≤ hi) (h32 : hi < 32) :
    (fld (BitVec.ofNat 32 x) hi lo : BitVec n) = BitVec.ofNat n (bits x hi lo) := by
  have split : (2 : Nat) ^ 32 = 2 ^ lo * 2 ^ (32 - lo) := by rw [← pow_add]; congr 1; omega
  rw [fld, BitVec.toNat_ofNat, split, Nat.mod_mul_right_div_self, Nat.mod_mod_of_dvd _ (pow_dvd_pow 2 (by omega)), bits]

/-- What is added from bit `p` on leaves the bits below alone. -/
theorem bits_add_above (x v : Nat) {hi lo p : Nat} (h : lo ≤ hi) (hp : hi < p) : bits (x + v * 2 ^ p) hi lo = bits x hi lo := by
  obtain ⟨k, rfl⟩ := Nat.exists_eq_add_of_lt hp
  have e : x + v * 2 ^ (hi + k + 1) = x + 2 ^ lo * (2 ^ (hi - lo + 1) * (v * 2 ^ k)) := by
    rw [show hi + k + 1 = lo + ((hi - lo + 1) + k) by omega, pow_add, pow_add]; ring
  rw [bits, e, Nat.add_mul_div_left _ _ (by positivity), Nat.add_mul_mod_self_left, bits]

/-- A value of `n` bits, added where `n` zeros stand, carries nothing into the bits above. -/
theorem bits_add_below (x : Nat) {v n hi lo p : Nat} (hv : v < 2 ^ n) (hp : p + n ≤ lo) (h0 : x / 2 ^ p % 2 ^ n = 0) :
    bits (x + v * 2 ^ p) hi lo = bits x hi lo := by
  obtain ⟨k, rfl⟩ := Nat.exists_eq_add_of_le hp
  have carry : (x / 2 ^ p + v) / 2 ^ n = x / 2 ^ p / 2 ^ n := by
    have whole : x / 2 ^ p = 2 ^ n * (x / 2 ^ p / 2 ^ n) := by have := Nat.div_add_mod (x / 2 ^ p) (2 ^ n); omega
    rw [whole, Nat.mul_add_div (by positivity), Nat.div_eq_of_lt hv, Nat.add_zero, Nat.mul_div_cancel_left _ (by positivity)]
  have e : (x + v * 2 ^ p) / 2 ^ (p + n + k) = x / 2 ^ (p + n + k) := by
    rw [pow_add, pow_add, ← Nat.div_div_eq_div_mul, ← Nat.div_div_eq_div_mul, Nat.add_mul_div_right _ _ (by positivity), carry,
      Nat.div_div_eq_div_mul, Nat.div_div_eq_div_mul, mul_assoc]
  rw [bits, e, bits]

/-- The bits to which a value is added, where they were zero, are that value. -/
theorem bits_add_same (x : Nat) {v hi lo : Nat} (hv : v < 2 ^ (hi - lo + 1)) (h0 : bits x hi lo = 0) : bits (x + v * 2 ^ lo) hi lo = v := by
  rw [bits] at h0 ⊢
  rw [Nat.add_mul_div_right _ _ (by positivity), Nat.add_mod, h0, Nat.zero_add, Nat.mod_mod, Nat.mod_eq_of_lt hv]

/-! ### Fields -/

/-- A field of a word: its bits `[hi:lo]` and the value they hold. -/
structure Field where
  hi : Nat
  lo : Nat
  val : BitVec (hi - lo + 1)

/-- What a field adds to the number of its word; the encoder writes no factor for a field at bit 0. -/
def Field.place : Field → Nat
  | ⟨_, 0, v⟩ => v.toNat
  | ⟨_, l + 1, v⟩ => v.toNat * 2 ^ (l + 1)

theorem Field.place_eq (f : Field) : f.place = f.val.toNat * 2 ^ f.lo := by
  obtain ⟨hi, _ | l, v⟩ := f
  · simp [Field.place]
  · rfl

/-- A field has no bit of `[hi:lo]`. -/
def Field.apart (hi lo : Nat) : Field → Bool
  | ⟨h, l, _⟩ => decide (hi < l) || decide (h < lo)

/-- The number that an opcode and fields make, as the encoder sums it. -/
def packed (c : Nat) : List Field → Nat
  | [] => c
  | f :: fs => packed (c + f.place) fs

/-- Fields lie within a word, apart from each other, where the opcode has zeros. -/
def fits (c : Nat) : List Field → Bool
  | [] => true
  | ⟨hi, lo, _⟩ :: fs => decide (lo ≤ hi) && decide (hi < 32) && bits c hi lo == 0 && fs.all (Field.apart hi lo) && fits c fs

/-- The decoder reads each field of a list from a word. -/
def Reads (w : IWord) : List Field → Prop
  | [] => True
  | ⟨hi, lo, v⟩ :: fs => v = fld w hi lo ∧ Reads w fs

theorem fits_cons {c : Nat} {f : Field} {fs : List Field} :
    fits c (f :: fs) = true ↔ f.lo ≤ f.hi ∧ f.hi < 32 ∧ bits c f.hi f.lo = 0 ∧ fs.all (Field.apart f.hi f.lo) = true ∧ fits c fs = true := by
  obtain ⟨hi, lo, v⟩ := f
  simp [fits, and_assoc]

theorem bits_add_place_same {c : Nat} {f : Field} (h0 : bits c f.hi f.lo = 0) : bits (c + f.place) f.hi f.lo = f.val.toNat := by
  rw [f.place_eq, bits_add_same c f.val.isLt h0]

theorem bits_add_place_apart {c hi lo : Nat} {f : Field} (h : lo ≤ hi) (hf : f.lo ≤ f.hi) (h0 : bits c f.hi f.lo = 0) (ha : f.apart hi lo = true) :
    bits (c + f.place) hi lo = bits c hi lo := by
  rw [f.place_eq]
  rcases (by simpa [Field.apart] using ha : hi < f.lo ∨ f.hi < lo) with above | below
  · exact bits_add_above c _ h above
  · exact bits_add_below c f.val.isLt (by omega) h0

/-- A field in place leaves room for those apart from it. -/
theorem fits_add_place {c : Nat} {f : Field} (hf : f.lo ≤ f.hi) (h0 : bits c f.hi f.lo = 0) :
    ∀ {fs : List Field}, fs.all (Field.apart f.hi f.lo) = true → fits c fs = true → fits (c + f.place) fs = true
  | [], _, _ => rfl
  | g :: gs, ha, hfit => by
    obtain ⟨ag, ags⟩ : g.apart f.hi f.lo = true ∧ gs.all (Field.apart f.hi f.lo) = true := by simpa using ha
    obtain ⟨hg, h32, g0, gapart, gfit⟩ := fits_cons.1 hfit
    have back : f.apart g.hi g.lo = true := by simp only [Field.apart, Bool.or_eq_true, decide_eq_true_eq] at ag ⊢; omega
    exact fits_cons.2 ⟨hg, h32, (bits_add_place_apart hg hf h0 back).trans g0, gapart, fits_add_place hf h0 ags gfit⟩

/-- Bits apart from every field are the opcode's. -/
theorem fld_packed_apart {n hi lo : Nat} (h : lo ≤ hi) (h32 : hi < 32) : ∀ {c : Nat} {fs : List Field}, fits c fs = true → fs.all (Field.apart hi lo) = true →
    (fld (BitVec.ofNat 32 (packed c fs)) hi lo : BitVec n) = fld (BitVec.ofNat 32 c) hi lo
  | _, [], _, _ => rfl
  | c, f :: fs, hfit, ha => by
    obtain ⟨af, afs⟩ : f.apart hi lo = true ∧ fs.all (Field.apart hi lo) = true := by simpa using ha
    obtain ⟨hf, -, f0, fapart, ffit⟩ := fits_cons.1 hfit
    rw [packed, fld_packed_apart h h32 (fits_add_place hf f0 fapart ffit) afs, fld_ofNat _ h h32, fld_ofNat _ h h32, bits_add_place_apart h hf f0 af]

/-- Every field is read back from its word. -/
theorem reads_packed : ∀ {c : Nat} {fs : List Field}, fits c fs = true → Reads (BitVec.ofNat 32 (packed c fs)) fs
  | _, [], _ => trivial
  | c, f :: fs, hfit => by
    obtain ⟨hf, h32, f0, fapart, ffit⟩ := fits_cons.1 hfit
    have rest := fits_add_place hf f0 fapart ffit
    refine ⟨?_, reads_packed rest⟩
    rw [packed, fld_packed_apart hf h32 rest fapart, fld_ofNat _ hf h32, bits_add_place_same f0, BitVec.ofNat_toNat, BitVec.setWidth_eq]

/-! ### The words of the one-word instructions -/

/-- The fields of an instruction's word, and the bits `[hi:lo]` of the selector that tells it from the others of its major. -/
structure Layout where
  hi : Nat
  lo : Nat
  fields : List Field

/-- The words of formats I, B and J, which the major alone names (Tables 1-3 and 1-8); the selector is the major.
Here and below the instructions of one row share the operand names of the first. -/
def immediateLayout : Instr → Option Layout
  | .addi d a i | .andi d a i | .ori d a i | .xori d a i | .slti d a i | .sltiu d a i | .beq d a i | .bne d a i | .blt d a i | .bge d a i | .bltu d a i
  | .bgeu d a i | .jalr d a i | .vsetli d a i => some ⟨31, 26, [⟨25, 21, d⟩, ⟨20, 16, a⟩, ⟨15, 0, i⟩]⟩
  | .lhi d i | .apc d i | .jal d i => some ⟨31, 26, [⟨25, 21, d⟩, ⟨20, 0, i⟩]⟩
  | .vloop a o | .getc a o => some ⟨31, 26, [⟨25, 21, a⟩, ⟨15, 0, o⟩]⟩
  | .setc a c => some ⟨31, 26, [⟨20, 16, a⟩, ⟨15, 0, c⟩]⟩
  | _ => none

/-- The words of formats A, SH, M, C and P, and those of majors 0x10 and 0x36 (Tables 1-3 and 1-8). -/
def scalarLayout : Instr → Option Layout
  | .add d a b | .sub d a b | .and d a b | .or d a b | .xor d a b | .andn d a b | .sll d a b | .srl d a b | .sra d a b | .slt d a b | .sltu d a b | .min d a b
  | .max d a b | .minu d a b | .maxu d a b | .mul d a b | .mulh d a b | .mulhu d a b | .mulhsu d a b | .div d a b | .divu d a b | .rem d a b | .remu d a b
  | .mwait d a b | .vsetl d a b => some ⟨5, 0, [⟨25, 21, d⟩, ⟨20, 16, a⟩, ⟨15, 11, b⟩]⟩
  | .adds d a b h | .fadd d a b h | .fsub d a b h | .fmul d a b h | .fdiv d a b h | .fma d a b h | .fmin d a b h | .fmax d a b h | .feq d a b h | .flt d a b h
  | .fle d a b h => some ⟨5, 0, [⟨25, 21, d⟩, ⟨20, 16, a⟩, ⟨15, 11, b⟩, ⟨8, 6, h⟩]⟩
  | .clz d a | .ctz d a | .pop d a | .rev8 d a | .sextb d a | .sexth d a | .sextw d a | .zextw d a => some ⟨5, 0, [⟨25, 21, d⟩, ⟨20, 16, a⟩]⟩
  | .amoSwp d a b w sc o | .amoAdd d a b w sc o | .amoAnd d a b w sc o | .amoOr d a b w sc o | .amoXor d a b w sc o | .amoMin d a b w sc o | .amoMax d a b w sc o
  | .amoMinu d a b w sc o | .amoMaxu d a b w sc o | .amoCas d a b w sc o =>
    some ⟨3, 0, [⟨25, 21, d⟩, ⟨20, 16, a⟩, ⟨15, 11, b⟩, ⟨10, 9, w⟩, ⟨8, 6, sc⟩, ⟨5, 4, o⟩]⟩
  | .fsqrt d a r | .fcvtWS d a r | .fcvtSW d a r | .fcvtBfS d a r | .fcvtSBf d a r | .fln d a r | .fexp d a r =>
    some ⟨5, 0, [⟨25, 21, d⟩, ⟨20, 16, a⟩, ⟨8, 6, r⟩]⟩
  | .sys | .brk | .tret | .wfi | .fenceSv | .fenceVs | .fenceC => some ⟨5, 0, []⟩
  | .fence sc => some ⟨5, 0, [⟨8, 6, sc⟩]⟩
  | .vsave a | .vrest a | .brole a => some ⟨5, 0, [⟨20, 16, a⟩]⟩
  | .slli d a h | .srli d a h | .srai d a h => some ⟨1, 0, [⟨25, 21, d⟩, ⟨20, 16, a⟩, ⟨15, 10, h⟩]⟩
  | .ldB d a o | .ldH d a o | .ldW d a o | .ldD d a o | .ldBu d a o | .ldHu d a o | .ldWu d a o | .stB d a o | .stH d a o | .stW d a o | .stD d a o | .ldcB d a o
  | .ldcH d a o | .ldcW d a o | .ldcD d a o | .ldcBu d a o | .ldcHu d a o | .ldcWu d a o => some ⟨15, 13, [⟨25, 21, d⟩, ⟨20, 16, a⟩, ⟨12, 0, o⟩]⟩
  | .tas d n | .stst d n | .cdrd d n => some ⟨15, 11, [⟨25, 21, d⟩, ⟨10, 0, n⟩]⟩
  | .sclr n | .sset n => some ⟨15, 11, [⟨10, 0, n⟩]⟩
  | .cdwr a n => some ⟨15, 11, [⟨20, 16, a⟩, ⟨10, 0, n⟩]⟩
  | .gbar a | .gbarA a => some ⟨15, 11, [⟨20, 16, a⟩]⟩
  | .gbarW d => some ⟨15, 11, [⟨25, 21, d⟩]⟩
  | .gbarR => some ⟨15, 11, []⟩
  | .wtake d a => some ⟨15, 11, [⟨25, 21, d⟩, ⟨20, 16, a⟩]⟩
  | .wput d a n => some ⟨15, 11, [⟨25, 21, d⟩, ⟨20, 16, a⟩, ⟨10, 0, n⟩]⟩
  | .pld d a k z | .pst d a k z => some ⟨3, 0, [⟨25, 21, d⟩, ⟨20, 16, a⟩, ⟨10, 7, k⟩, ⟨6, 4, z⟩]⟩
  | .pamoSwp d a b k z | .pamoAdd d a b k z | .pamoAnd d a b k z | .pamoOr d a b k z | .pamoXor d a b k z | .pamoMin d a b k z | .pamoMax d a b k z
  | .pamoMinu d a b k z | .pamoMaxu d a b k z | .pamoCas d a b k z => some ⟨3, 0, [⟨25, 21, d⟩, ⟨20, 16, a⟩, ⟨15, 11, b⟩, ⟨10, 7, k⟩, ⟨6, 4, z⟩]⟩
  | _ => none

/-- The words of formats V and VM (Tables 1-3 and 1-8). -/
def vectorLayout : Instr → Option Layout
  | .vaddVv d a b m x j | .vaddVs d a b m x j | .vaddVi d a b m x j | .vsubVv d a b m x j | .vsubVs d a b m x j | .vsubVi d a b m x j | .vmulVv d a b m x j
  | .vmulVs d a b m x j | .vmulVi d a b m x j | .vmulhVv d a b m x j | .vmulhVs d a b m x j | .vmulhVi d a b m x j | .vmaccVv d a b m x j | .vmaccVs d a b m x j
  | .vmaccVi d a b m x j | .vnmsacVv d a b m x j | .vnmsacVs d a b m x j | .vnmsacVi d a b m x j | .vminVv d a b m x j | .vminVs d a b m x j
  | .vminVi d a b m x j | .vmaxVv d a b m x j | .vmaxVs d a b m x j | .vmaxVi d a b m x j | .vminuVv d a b m x j | .vminuVs d a b m x j | .vminuVi d a b m x j
  | .vmaxuVv d a b m x j | .vmaxuVs d a b m x j | .vmaxuVi d a b m x j | .vandVv d a b m x j | .vandVs d a b m x j | .vandVi d a b m x j | .vorVv d a b m x j
  | .vorVs d a b m x j | .vorVi d a b m x j | .vxorVv d a b m x j | .vxorVs d a b m x j | .vxorVi d a b m x j | .vsllVv d a b m x j | .vsllVs d a b m x j
  | .vsllVi d a b m x j | .vsrlVv d a b m x j | .vsrlVs d a b m x j | .vsrlVi d a b m x j | .vsraVv d a b m x j | .vsraVs d a b m x j | .vsraVi d a b m x j
  | .vsadd d a b m x j | .vsaddu d a b m x j | .vssub d a b m x j | .vssubu d a b m x j | .vavg d a b m x j | .vavgu d a b m x j | .vnsra d a b m x j
  | .vfaddVv d a b m x j | .vfaddVs d a b m x j | .vfsubVv d a b m x j | .vfsubVs d a b m x j | .vfmulVv d a b m x j | .vfmulVs d a b m x j
  | .vfdivVv d a b m x j | .vfdivVs d a b m x j | .vfmaVv d a b m x j | .vfmaVs d a b m x j | .vfnmaVv d a b m x j | .vfnmaVs d a b m x j | .vfminVv d a b m x j
  | .vfminVs d a b m x j | .vfmaxVv d a b m x j | .vfmaxVs d a b m x j | .vfsgnjVv d a b m x j | .vfsgnjVs d a b m x j | .vfexpbVv d a b m x j
  | .vfexpbVs d a b m x j | .vfwmaVv d a b m x j | .vfwmaVs d a b m x j | .vfcvt d a b m x j | .vceqVv d a b m x j | .vceqVs d a b m x j | .vcneVv d a b m x j
  | .vcneVs d a b m x j | .vcltVv d a b m x j | .vcltVs d a b m x j | .vcleVv d a b m x j | .vcleVs d a b m x j | .vcgtVv d a b m x j | .vcgtVs d a b m x j
  | .vcgeVv d a b m x j | .vcgeVs d a b m x j | .vcltuVv d a b m x j | .vcltuVs d a b m x j | .vcleuVv d a b m x j | .vcleuVs d a b m x j | .vfceqVv d a b m x j
  | .vfceqVs d a b m x j | .vfcltVv d a b m x j | .vfcltVs d a b m x j | .vfcleVv d a b m x j | .vfcleVs d a b m x j | .vfcunVv d a b m x j
  | .vfcunVs d a b m x j | .vamoAdd d a b m x j | .vamoMin d a b m x j | .vamoMax d a b m x j | .vamoAnd d a b m x j | .vamoOr d a b m x j | .vamoXor d a b m x j
  | .vamoSwp d a b m x j | .vamoFadd d a b m x j | .vamoFmax d a b m x j =>
    some ⟨3, 0, [⟨25, 21, d⟩, ⟨20, 16, a⟩, ⟨15, 11, b⟩, ⟨10, 8, m⟩, ⟨7, 5, x⟩, ⟨4, 4, j⟩]⟩
  | .vmerge d a b m j | .vwmul d a b m j | .vwadd d a b m j | .vdot4 d a b m j | .vgmbT d a b m j | .vredsum d a b m j | .vredmax d a b m j | .vredmin d a b m j
  | .vredmaxu d a b m j | .vredminu d a b m j | .vredand d a b m j | .vredor d a b m j | .vfredsum d a b m j | .vfredmax d a b m j | .vfredmin d a b m j
  | .vnorm d a b m j | .vnormd d a b m j | .vfdot d a b m j | .vslup d a b m j | .vsldn d a b m j | .vperm d a b m j | .vtopk d a b m j | .vzip d a b m j
  | .vuzp d a b m j | .vxlt d a b m j | .vxltFf d a b m j | .rpost d a b m j => some ⟨3, 0, [⟨25, 21, d⟩, ⟨20, 16, a⟩, ⟨15, 11, b⟩, ⟨10, 8, m⟩, ⟨4, 4, j⟩]⟩
  | .vmv d a j | .vunpk d a j | .qbind d a j | .qstat d a j | .rbound d a j | .rstat d a j | .chplace d a j | .chdone d a j | .chstat d a j | .tkwait d a j =>
    some ⟨3, 0, [⟨25, 21, d⟩, ⟨20, 16, a⟩, ⟨4, 4, j⟩]⟩
  | .vfsqrt d a m x j | .vfrsqe d a m x j | .vfrece d a m x j | .vfln d a m x j | .vfexp d a m x j | .msbf d a m x j | .mtov d a m x j | .vtom d a m x j =>
    some ⟨3, 0, [⟨25, 21, d⟩, ⟨20, 16, a⟩, ⟨10, 8, m⟩, ⟨7, 5, x⟩, ⟨4, 4, j⟩]⟩
  | .vpack d a x j | .mnot d a x j | .mmv d a x j => some ⟨3, 0, [⟨25, 21, d⟩, ⟨20, 16, a⟩, ⟨7, 5, x⟩, ⟨4, 4, j⟩]⟩
  | .vfclass d a m j | .vgmb d a m j | .vfabs d a m j | .vfneg d a m j | .mpop d a m j | .mffs d a m j | .vcomp d a m j | .vexpd d a m j | .viota d a m j
  | .vrev d a m j | .vlls d a m j | .vsls d a m j | .vcopy d a m j | .vcopyFf d a m j | .vcopyB d a m j =>
    some ⟨3, 0, [⟨25, 21, d⟩, ⟨20, 16, a⟩, ⟨10, 8, m⟩, ⟨4, 4, j⟩]⟩
  | .mand d a b x j | .mor d a b x j | .mxor d a b x j | .mandn d a b x j => some ⟨3, 0, [⟨25, 21, d⟩, ⟨20, 16, a⟩, ⟨15, 11, b⟩, ⟨7, 5, x⟩, ⟨4, 4, j⟩]⟩
  | .mset d x j | .mclr d x j => some ⟨3, 0, [⟨25, 21, d⟩, ⟨7, 5, x⟩, ⟨4, 4, j⟩]⟩
  | .vbcs d b m j => some ⟨3, 0, [⟨25, 21, d⟩, ⟨15, 11, b⟩, ⟨10, 8, m⟩, ⟨4, 4, j⟩]⟩
  | .vext d a b j | .vins d a b j | .rleave d a b j | .rwin d a b j | .chset d a b j | .chcount d a b j | .chsend d a b j =>
    some ⟨3, 0, [⟨25, 21, d⟩, ⟨20, 16, a⟩, ⟨15, 11, b⟩, ⟨4, 4, j⟩]⟩
  | .vid d m j => some ⟨3, 0, [⟨25, 21, d⟩, ⟨10, 8, m⟩, ⟨4, 4, j⟩]⟩
  | .qfree n j | .tkpoll n j => some ⟨3, 0, [⟨25, 21, n⟩, ⟨4, 4, j⟩]⟩
  | .rset h a j => some ⟨3, 0, [⟨20, 16, h⟩, ⟨15, 11, a⟩, ⟨4, 4, j⟩]⟩
  | .vcsum d a n j | .vcmax d a n j | .vcmin d a n j | .vcgat d a n j | .vcsct d a n j | .vcbc d a n j | .vcscan d a n j =>
    some ⟨3, 0, [⟨25, 21, d⟩, ⟨20, 16, a⟩, ⟨12, 11, n⟩, ⟨4, 4, j⟩]⟩
  | .gabort n j => some ⟨3, 0, [⟨12, 11, n⟩, ⟨4, 4, j⟩]⟩
  | .gstat d n j => some ⟨3, 0, [⟨25, 21, d⟩, ⟨12, 11, n⟩, ⟨4, 4, j⟩]⟩
  | .vld d a m j | .vldFf d a m j | .vst d a m j => some ⟨7, 5, [⟨25, 21, d⟩, ⟨20, 16, a⟩, ⟨10, 8, m⟩, ⟨4, 4, j⟩]⟩
  | .vlds d a b m j | .vsts d a b m j => some ⟨7, 5, [⟨25, 21, d⟩, ⟨20, 16, a⟩, ⟨15, 11, b⟩, ⟨10, 8, m⟩, ⟨4, 4, j⟩]⟩
  | .vldx d a b m j w | .vstx d a b m j w | .pvldx d a b m j w | .pvstx d a b m j w | .pvamoAdd d a b m j w =>
    some ⟨7, 5, [⟨25, 21, d⟩, ⟨20, 16, a⟩, ⟨15, 11, b⟩, ⟨10, 8, m⟩, ⟨4, 4, j⟩, ⟨3, 0, w⟩]⟩
  | .vldw d a j | .vstw d a j => some ⟨7, 5, [⟨25, 21, d⟩, ⟨20, 16, a⟩, ⟨4, 4, j⟩]⟩
  | .pvld d a m j k | .pvst d a m j k => some ⟨7, 5, [⟨25, 21, d⟩, ⟨20, 16, a⟩, ⟨10, 8, m⟩, ⟨4, 4, j⟩, ⟨3, 0, k⟩]⟩
  | .qbindF n a j k => some ⟨7, 5, [⟨25, 21, n⟩, ⟨20, 16, a⟩, ⟨4, 4, j⟩, ⟨3, 0, k⟩]⟩
  | _ => none

/-- The decoder picks an instruction from its own word. -/
def ReadsBack (i : Instr) : Prop := pick (encodeWord i) = some i

/-- The fields of a layout fit an opcode, and leave to it its major and its selector. -/
def Layout.fits (c : Nat) : Layout → Bool
  | ⟨hi, lo, fs⟩ => Words.fits c fs && decide (lo ≤ hi) && decide (hi < 32) && fs.all (Field.apart 31 26) && fs.all (Field.apart hi lo)

/-- An instruction's word is an opcode with the fields of a layout, and the decoder picks the instruction from every word that has these fields, and the major and the
selector of that opcode. -/
def HasLayout (i : Instr) : Layout → Prop
  | ⟨hi, lo, fs⟩ => ∃ c : Nat, encodeWord i = BitVec.ofNat 32 (packed c fs) ∧ Layout.fits c ⟨hi, lo, fs⟩ = true ∧
      ∀ w : IWord, Reads w fs → (fld w 31 26 : BitVec 6) = fld (BitVec.ofNat 32 c) 31 26 →
        (fld w hi lo : BitVec (hi - lo + 1)) = fld (BitVec.ofNat 32 c) hi lo → pick w = some i

theorem HasLayout.readsBack {i : Instr} {l : Layout} : HasLayout i l → ReadsBack i := by
  obtain ⟨hi, lo, fs⟩ := l
  rintro ⟨c, hw, hfit, hpick⟩
  simp only [Layout.fits, Bool.and_eq_true, decide_eq_true_eq] at hfit
  obtain ⟨⟨⟨⟨hf, hlo⟩, h32⟩, hmajor⟩, hsel⟩ := hfit
  rw [ReadsBack, hw]
  exact hpick _ (reads_packed hf) (fld_packed_apart (by omega) (by omega) hf hmajor) (fld_packed_apart hlo h32 hf hsel)

/-! There are three tables, since one proof for all of them would be too costly to check. Each proof has one case for every instruction that its table lists (`cases h` closes
the others). The opcode is found by comparing the encoder's sum with the table's fields; what is left is the decoder's choice. There the fields of the instruction are those read
from the word, the major is rewritten and the match on it evaluated (`whnf`) down to the match on the selector, and the selector is rewritten. -/

theorem hasLayout_of_immediateLayout {i : Instr} {l : Layout} (h : immediateLayout i = some l) : HasLayout i l := by
  cases i <;> cases h <;> refine ⟨_, rfl, rfl, fun w hr major _ => ?_⟩
  all_goals
    repeat obtain ⟨rfl, hr⟩ := hr
    rw [pick, major]
    rfl

theorem hasLayout_of_scalarLayout {i : Instr} {l : Layout} (h : scalarLayout i = some l) : HasLayout i l := by
  cases i <;> cases h <;> refine ⟨_, rfl, rfl, fun w hr major selector => ?_⟩
  all_goals
    repeat obtain ⟨rfl, hr⟩ := hr
    rw [pick, major]
    conv_lhs => whnf
    rw [selector]
    rfl

theorem hasLayout_of_vectorLayout {i : Instr} {l : Layout} (h : vectorLayout i = some l) : HasLayout i l := by
  cases i <;> cases h <;> refine ⟨_, rfl, rfl, fun w hr major selector => ?_⟩
  all_goals
    repeat obtain ⟨rfl, hr⟩ := hr
    rw [pick, major]
    conv_lhs => whnf
    rw [selector]
    rfl

/-- The layout of an instruction of one word. -/
def layout (i : Instr) : Option Layout := (immediateLayout i).or ((scalarLayout i).or (vectorLayout i))

theorem hasLayout_of_layout {i : Instr} {l : Layout} (h : layout i = some l) : HasLayout i l := by
  simp only [layout, Option.or_eq_some_iff] at h
  rcases h with h | ⟨-, h | ⟨-, h⟩⟩
  · exact hasLayout_of_immediateLayout h
  · exact hasLayout_of_scalarLayout h
  · exact hasLayout_of_vectorLayout h

theorem layout_isSome {i : Instr} (hi : Machine.isEvent i = false) (hb : encodeBody i = none) : (layout i).isSome = true := by
  cases i <;> cases hi <;> cases hb <;> rfl

/-- Every instruction of one word is read back from it. -/
theorem readsBack_of_noBody {i : Instr} (hi : Machine.isEvent i = false) (hb : encodeBody i = none) : ReadsBack i := by
  obtain ⟨l, hl⟩ := Option.isSome_iff_exists.1 (layout_isSome hi hb)
  exact (hasLayout_of_layout hl).readsBack

/-! ### Tile pairs -/

/-- The decoder picks a tile instruction from its own two words (R16). -/
def PairReadsBack (i : Instr) (b : IWord) : Prop :=
  (fld (encodeWord i) 31 26 : BitVec 6) = 0x3F ∧ (fld b 31 26 : BitVec 6) = 0x3E ∧ pickTile (encodeWord i) b = some i

/-- The fields of the two words of a tile pair (Table 1-6). -/
def pairLayout : Instr → Option (List Field × List Field)
  | .tcfg t fc sa j | .cload t fc sa j => some ([⟨20, 18, t⟩, ⟨11, 9, fc⟩], [⟨15, 11, sa⟩, ⟨4, 4, j⟩])
  | .tzero t j => some ([⟨20, 18, t⟩], [⟨4, 4, j⟩])
  | .vopa t fa fb sm a b j => some ([⟨20, 18, t⟩, ⟨17, 15, fa⟩, ⟨14, 12, fb⟩, ⟨8, 7, sm⟩], [⟨25, 21, a⟩, ⟨20, 16, b⟩, ⟨4, 4, j⟩])
  | .tld t fc r sa j | .tst t fc r sa j => some ([⟨20, 18, t⟩, ⟨11, 9, fc⟩, ⟨6, 0, r⟩], [⟨15, 11, sa⟩, ⟨4, 4, j⟩])
  | .trow t r d j => some ([⟨20, 18, t⟩, ⟨6, 0, r⟩], [⟨25, 21, d⟩, ⟨4, 4, j⟩])
  | .tepi t fc sm r sa j => some ([⟨20, 18, t⟩, ⟨11, 9, fc⟩, ⟨8, 7, sm⟩, ⟨6, 0, r⟩], [⟨15, 11, sa⟩, ⟨4, 4, j⟩])
  | .gmm t b sa j | .gmmE t b sa j => some ([⟨20, 18, t⟩], [⟨20, 16, b⟩, ⟨15, 11, sa⟩, ⟨4, 4, j⟩])
  | .ctest t fc d a m x j | .ctestC t fc d a m x j =>
    some ([⟨20, 18, t⟩, ⟨11, 9, fc⟩], [⟨25, 21, d⟩, ⟨20, 16, a⟩, ⟨10, 8, m⟩, ⟨7, 5, x⟩, ⟨4, 4, j⟩])
  | .cleaf d a sa m j => some ([], [⟨25, 21, d⟩, ⟨20, 16, a⟩, ⟨15, 11, sa⟩, ⟨10, 8, m⟩, ⟨4, 4, j⟩])
  | .tsave t sa j | .trest t sa j => some ([⟨20, 18, t⟩], [⟨15, 11, sa⟩, ⟨4, 4, j⟩])
  | _ => none

/-- The fields of a tile pair fit the opcodes of its two words, and leave to them their majors and TOP. -/
def pairFits (c : Nat) (fs gs : List Field) : Bool :=
  fits c fs && fits 0xF8000000 gs && bits c 31 26 == 0x3F && fs.all (Field.apart 31 21) && gs.all (Field.apart 31 26)

/-- The two words of an instruction are opcodes of major 0x3F and 0x3E with the fields of a pair of lists, and the decoder picks the instruction from every pair of words that
has these fields, the TOP of that opcode and, where no field holds it, its low bit, which tells `gmm` from `gmm.e`. -/
def HasPairLayout (i : Instr) (b : IWord) (l : List Field × List Field) : Prop :=
  ∃ c : Nat, encodeWord i = BitVec.ofNat 32 (packed c l.1) ∧ b = BitVec.ofNat 32 (packed 0xF8000000 l.2) ∧ pairFits c l.1 l.2 = true ∧
    ∀ p q : IWord, Reads p l.1 → Reads q l.2 → (fld p 25 21 : BitVec 5) = fld (BitVec.ofNat 32 c) 25 21 →
      (l.1.all (Field.apart 0 0) = true → (fld p 0 0 : BitVec 1) = fld (BitVec.ofNat 32 c) 0 0) → pickTile p q = some i

/-- Fields apart from some bits are apart from each range among them. -/
theorem all_apart_of_le {hi lo hi' lo' : Nat} (hh : hi' ≤ hi) (hl : lo ≤ lo') {fs : List Field} (h : fs.all (Field.apart hi lo) = true) :
    fs.all (Field.apart hi' lo') = true := by
  simp only [List.all_eq_true, Field.apart, Bool.or_eq_true, decide_eq_true_eq] at h ⊢
  intro f hf
  have := h f hf
  omega

theorem HasPairLayout.pairReadsBack {i : Instr} {b : IWord} {l : List Field × List Field} : HasPairLayout i b l → PairReadsBack i b := by
  rintro ⟨c, hw, rfl, hfit, hpick⟩
  simp only [pairFits, Bool.and_eq_true, beq_iff_eq] at hfit
  obtain ⟨⟨⟨⟨hf, hg⟩, hc⟩, hfirst⟩, hbody⟩ := hfit
  have top : l.1.all (Field.apart 25 21) = true := all_apart_of_le (by omega) le_rfl hfirst
  have major : l.1.all (Field.apart 31 26) = true := all_apart_of_le le_rfl (by omega) hfirst
  rw [PairReadsBack, hw]
  refine ⟨?_, ?_, hpick _ _ (reads_packed hf) (reads_packed hg) (fld_packed_apart (by omega) (by omega) hf top) (fld_packed_apart le_rfl (by omega) hf)⟩
  · rw [fld_packed_apart (by omega) (by omega) hf major, fld_ofNat _ (by omega) (by omega), hc]; rfl
  · rw [fld_packed_apart (by omega) (by omega) hg hbody]; rfl

theorem hasPairLayout_of_pairLayout {i : Instr} {b : IWord} {l : List Field × List Field} (hb : encodeBody i = some b) (h : pairLayout i = some l) :
    HasPairLayout i b l := by
  cases i <;> cases h <;> cases hb <;> refine ⟨_, rfl, rfl, rfl, fun p q hp hq top low => ?_⟩
  all_goals
    repeat obtain ⟨rfl, hp⟩ := hp
    repeat obtain ⟨rfl, hq⟩ := hq
    rw [pickTile, top]
  case gmm | gmmE =>
    dsimp
    rw [low rfl]
    rfl
  all_goals rfl

theorem pairLayout_isSome {i : Instr} {b : IWord} (hb : encodeBody i = some b) : (pairLayout i).isSome = true := by
  cases i <;> cases hb <;> rfl

/-- Every tile pair is read back from its two words. -/
theorem pairReadsBack_of_body {i : Instr} {b : IWord} (hb : encodeBody i = some b) : PairReadsBack i b := by
  obtain ⟨l, hl⟩ := Option.isSome_iff_exists.1 (pairLayout_isSome hb)
  exact (hasPairLayout_of_pairLayout hb hl).pairReadsBack

/-! ### Decoding what was encoded -/

/-- The decoder picks no instruction for a major that Table 1-8 does not assign. -/
theorem majorAssigned_of_pick {w : IWord} {i : Instr} (h : pick w = some i) : majorAssigned (fld w 31 26 : BitVec 6).toNat = true := by
  unfold pick at h
  split at h
  case h_55 => cases h
  all_goals
    rename_i hm
    rw [hm]; rfl

/-- The decoder's answer for an instruction that it has read back: the instruction, or the lowest subcode that its fields break, with the word `w` (R13, R25). -/
def answer (i : Instr) (w : IWord) : Decoded := (illFields i).elim (.ok i (4 * (encode i).length)) (.ill · w)

theorem answer_of_wf {i : Instr} (h : i.WF) (w : IWord) : answer i w = .ok i (4 * (encode i).length) := by rw [answer, h]; rfl

theorem answer_of_illFields {i : Instr} {sub : BitVec 8} (h : illFields i = some sub) (w : IWord) : answer i w = .ill sub w := by rw [answer, h]; rfl

theorem decodeWord_encodeWord {i : Instr} (hb : encodeBody i = none) (h : ReadsBack i) : decodeWord (encodeWord i) = answer i (encodeWord i) := by
  have hm := majorAssigned_of_pick h
  have h3E : (fld (encodeWord i) 31 26 : BitVec 6) ≠ 0x3E := fun e => by rw [e] at hm; cases hm
  have hlen : (encode i).length = 1 := by rw [encode, hb]; rfl
  rw [decodeWord, if_neg h3E, if_neg (by simp [hm]), h, answer, hlen]
  cases hill : illFields i <;> simp [hill]

theorem decodePair_encode {i : Instr} {b : IWord} (hb : encodeBody i = some b) (h : PairReadsBack i b) : decodePair (encodeWord i) b = answer i b := by
  obtain ⟨-, h3E, hpick⟩ := h
  have hlen : (encode i).length = 2 := by rw [encode, hb]; rfl
  rw [decodePair, hpick, answer, hlen]
  cases hill : illFields i <;> simp [hill, h3E, prefixBad, bodyBad, hb]

/-- Decoding the words of an instruction, whatever follows them (R7, R16, R25). -/
theorem decode_encode {i : Instr} (hi : Machine.isEvent i = false) (rest : List IWord) : ∃ w ∈ encode i, decode (encode i ++ rest) = answer i w := by
  cases hb : encodeBody i with
  | none =>
    have h := readsBack_of_noBody hi hb
    have h3F : (fld (encodeWord i) 31 26 : BitVec 6) ≠ 0x3F := fun e => by have hm := majorAssigned_of_pick h; rw [e] at hm; cases hm
    have hwords : encode i = [encodeWord i] := by rw [encode, hb]; rfl
    rw [hwords]
    exact ⟨_, List.mem_singleton_self _, (if_neg h3F).trans (decodeWord_encodeWord hb h)⟩
  | some b =>
    have h := pairReadsBack_of_body hb
    have hwords : encode i = [encodeWord i, b] := by rw [encode, hb]; rfl
    rw [hwords]
    exact ⟨b, by simp, (if_pos h.1).trans (decodePair_encode hb h)⟩

/-- Settles O5: it is the decoder's answer for an instruction's own words, where its fields are legal. -/
theorem decodeOfEncodeIsTheInstruction : Obligations.DecodeOfEncodeIsTheInstruction := by
  intro i rest hi hwf
  obtain ⟨w, -, hd⟩ := decode_encode hi rest
  rw [hd, answer_of_wf hwf]

/-- Settles O6: it is the same answer, where a field is illegal. -/
theorem illegalFieldsAreRefused : Obligations.IllegalFieldsAreRefused := by
  intro i sub rest hi hill
  obtain ⟨w, hw, hd⟩ := decode_encode hi rest
  exact ⟨w, hw, hd.trans (answer_of_illFields hill w)⟩

/-- Settles O4: the decoder is evaluated on each of the words. -/
theorem writtenWordsDecode : Obligations.WrittenWordsDecode := by
  refine ⟨?_, ?_, ?_, ?_, ?_, ?_, ?_⟩ <;> rfl

end Sys2Proof.Words
end

section
/-! PROOFS. The step of a hart: the words fetched at its PC, the instruction they decode to, and what executing it comes to (R7, R16, R17, R22). -/

namespace Sys2Proof.Machine

open Sys2Proof

/-! ### The words at PC -/

/-- Cells below a location do not matter to a read from it, nor to what is read from above it. -/
theorem dropWhile_dropWhile_lt {k l : Nat} (h : k ≤ l) : ∀ m : List Host.Cell,
    (m.dropWhile (fun c => decide (c.1 < k))).dropWhile (fun c => decide (c.1 < l)) = m.dropWhile (fun c => decide (c.1 < l))
  | [] => rfl
  | c :: cs => by
    by_cases hk : c.1 < k
    · have hl : c.1 < l := by omega
      simp [hk, hl, dropWhile_dropWhile_lt h cs]
    · simp [hk]

theorem memRead_dropWhile (n : Nat) {k l : Nat} (h : k ≤ l) (m : List Host.Cell) : memRead n l (m.dropWhile (fun c => decide (c.1 < k))) = memRead n l m := by
  cases n with
  | zero => rfl
  | succ n => rw [memRead, memRead, dropWhile_dropWhile_lt h]

/-- A block read without its first bytes is the block read from further on. -/
theorem memRead_drop : ∀ {n k : Nat} (l : Nat) (m : List Host.Cell), k ≤ n → (memRead n l m).drop k = memRead (n - k) (l + k) m
  | _, 0, _, _, _ => rfl
  | n + 1, k + 1, l, m, h => by
    rw [memRead, List.drop_succ_cons, memRead_drop (l + 1) _ (by omega), memRead_dropWhile _ (by omega), Nat.add_sub_add_right, Nat.add_assoc, Nat.add_comm 1]

/-- The first bytes of a block read are a shorter block. -/
theorem memRead_take : ∀ {n k : Nat} (l : Nat) (m : List Host.Cell), k ≤ n → (memRead n l m).take k = memRead k l m
  | _, 0, _, _, _ => rfl
  | n + 1, k + 1, l, m, h => by rw [memRead, memRead, List.take_succ_cons, memRead_take (l + 1) _ (by omega)]

/-- A word depends on four bytes. -/
theorem wordAt_take (bs : List Byte) : wordAt (bs.take 4) = wordAt bs := by simp [wordAt, List.getD_eq_getElem?_getD]

/-- The word of a line at an aligned location is the word of memory there. -/
theorem wordAt_line {l : Nat} (h : l % 4 = 0) (m : List Host.Cell) : wordAt ((memRead 64 (l / 64 * 64) m).drop (l % 64)) = wordAt (memRead 4 l m) := by
  rw [← wordAt_take, memRead_drop _ _ (by omega), memRead_take _ _ (by omega), show l / 64 * 64 + l % 64 = l by omega]

theorem wordAt_memRead (l : Nat) (m : List Host.Cell) :
    wordAt (memRead 4 l m) = wordOfBytes (memRead 4 l m)[0]! (memRead 4 l m)[1]! (memRead 4 l m)[2]! (memRead 4 l m)[3]! := rfl

/-- No error is found where the data have none and no cached copy has. -/
theorem State.readError_clean (s : State) (own : Nat) (scalar : Bool) {l n : Nat} (h : s.bad l n = false) (hc : s.badCopies = []) :
    s.readError own scalar l n = (s, false) := by simp [State.readError, h, hc, State.meetCopies]

/-- A line that the core does not hold is read from memory, and then held (R171). -/
theorem State.fetchLine_miss (s : State) (l : Nat) (h : tabGet (s.getCore (coreOf s.hart.id)).icache (l / 64 * 64) = none) :
    ∃ c, s.fetchLine l = (s.setCore (coreOf s.hart.id) c, memRead 64 (l / 64 * 64) s.mem) := by
  simp only [State.fetchLine, h]
  exact ⟨_, rfl⟩

/-- The word at an aligned location whose line the core does not hold is that of memory (R7, R171). -/
theorem State.fetchLoc_miss (s : State) (va : Word) {l : Nat} (ha : l % 4 = 0) (hb : s.bad l 4 = false) (hc : s.badCopies = [])
    (hi : tabGet (s.getCore (coreOf s.hart.id)).icache (l / 64 * 64) = none) :
    ∃ c, s.fetchLoc va l = .word (s.setCore (coreOf s.hart.id) c) (wordAt (memRead 4 l s.mem)) := by
  obtain ⟨c, hline⟩ := s.fetchLine_miss l hi
  refine ⟨c, ?_⟩
  simp only [State.fetchLoc, s.readError_clean _ _ hb hc, hline, wordAt_line ha]
  exact if_pos (by omega)

/-- A word that no answer is held for is read where translation puts its address. -/
theorem State.fetchWord_loc {s s1 : State} {k l : Nat} {va : Word} {strict : Bool} (hans : tabGet s.hart.answers (2 ^ 61 + k) = none)
    (ht : s.translate s.hart.agent .fetch va = (s1, .loc l strict)) : s.fetchWord k va = s1.fetchLoc va l := by
  simp only [State.fetchWord, hans, ht]

theorem State.fetchWord_answered {s : State} {k d : Nat} {st : Bool} (va : Word) (h : tabGet s.hart.answers (2 ^ 61 + k) = some (.done d st)) :
    s.fetchWord k va = .word s (BitVec.ofNat 32 d) := by
  simp only [State.fetchWord, h, answerRes, State.fetchAnswer]

/-- A word that begins no tile pair is the whole instruction (R17). -/
theorem State.fetch_single {s s1 : State} {w : IWord} (hcur : s.hart.cur = []) (hw : s.fetchWord 0 s.hart.pc = .word s1 w) (hp : isPrefix w = false) :
    s.fetch = .words s1 [w] := by
  simp [State.fetch, hcur, hw, hp]

/-- The first word of a tile pair brings the word after it (R17). -/
theorem State.fetch_pair {s s1 s2 : State} {w b : IWord} (hcur : s.hart.cur = []) (hw : s.fetchWord 0 s.hart.pc = .word s1 w) (hp : isPrefix w = true)
    (hb : s1.fetchWord 1 (s1.hart.pc + 4) = .word s2 b) : s.fetch = .words s2 [w, b] := by
  rw [State.fetch, if_neg (not_not.2 hcur), hw]
  simp only [hp, if_true, hb]

/-- Settles O3: a line of the instruction cache that is read anew holds the bytes of memory, and the word is four of them. -/
theorem fetchReadsTheBytesAtPc : Obligations.FetchReadsTheBytesAtPc := by
  refine ⟨?_, fun s k va d st h => State.fetchWord_answered va h⟩
  intro s s1 l strict hcur hans ht ha hb hc hi
  obtain ⟨c, hloc⟩ := s1.fetchLoc_miss s.hart.pc ha hb hc hi
  have hw : s.fetchWord 0 s.hart.pc = .word (s1.setCore (coreOf s1.hart.id) c) (wordAt (memRead 4 l s1.mem)) := (State.fetchWord_loc hans ht).trans hloc
  rw [wordAt_memRead] at hw
  exact ⟨_, hw, State.setCore_mem .., State.setCore_hart .., State.fetch_single hcur hw, fun hp _ _ h => State.fetch_pair hcur hw hp h⟩

/-! ### The instruction at PC issues -/

/-- Where an instruction may not stand in the queue, and others stand there, a scalar one runs ahead of them unless it traps (R152). -/
theorem State.issueInstr_ahead {s t : State} {i : Instr} {ws : List IWord} (hm : mayStand ws s.hart.late.isEmpty = false) (hl : s.hart.late ≠ [])
    (hr : runsAhead ws = true) (hx : exec i s = .next t) : s.issueInstr i ws = if s.trapped t then exec i s.catchUp else .next t := by
  rw [State.issueInstr, if_neg (by simp [hm]), if_neg (by simpa using hl), if_pos hr, hx]

/-- Any other that may not stand is executed after them. -/
theorem State.issueInstr_behind {s : State} (i : Instr) {ws : List IWord} (hm : mayStand ws s.hart.late.isEmpty = false) (hl : s.hart.late ≠ [])
    (hr : runsAhead ws = false) : s.issueInstr i ws = exec i s.catchUp := by
  rw [State.issueInstr, if_neg (by simp [hm]), if_neg (by simpa using hl), if_neg (by simp [hr])]

/-- One that may stand does so, or is executed, after those that stand there (log 37). -/
theorem State.issueInstr_mayStand {s t : State} {i : Instr} {ws : List IWord} (hm : mayStand ws s.hart.late.isEmpty = true) (hx : exec i s.took = .next t) :
    (s.hart.late = [] ∧ s.issueInstr i ws = .next t) ∨ (s.took.standsWell t = true ∧ s.issueInstr i ws = .next (s.took.stood t ws)) ∨
      (s.hart.late ≠ [] ∧ s.issueInstr i ws = exec i s.took.catchUp) := by
  unfold State.issueInstr
  simp only [hm, hx, if_true]
  by_cases hs : (s.took.standsWell t && decide (Config.pick s.free % 2 = 0)) = true
  · exact .inr (.inl ⟨(Bool.and_eq_true_iff.1 hs).1, if_pos hs⟩)
  · rw [if_neg hs]
    by_cases hl : s.hart.late = []
    · exact .inl ⟨hl, if_pos (by simp [hl])⟩
    · exact .inr (.inr ⟨hl, if_neg (by simpa using hl)⟩)

/-! ### The step around it -/

/-- Where no event, no other agent's move and no request comes first, the step is the next hart's turn, which fetches, issues and ends (R149, R150). -/
theorem step_of_run {s s0 : State} {id : Nat} (hagenda : s.agenda = []) (hdev : s.dev = false) (hnext : s.nextHart = some id)
    (hreq : (s.took.focus id).hart.requested = false) (hmeet : (s.took.focus id).meet = .run s0) :
    step s = thenDo (thenDo (issue s0) State.settleStop) (fun u => u.turnEnd id State.pass) := by
  simp [step, hagenda, hdev, hnext, turn, hreq, hmeet]

/-- Words that decode to an instruction issue it. -/
theorem issue_of_ok {s s1 : State} {ws : List IWord} {i : Instr} {n : Nat} (hf : s.fetch = .words s1 ws) (hd : decode ws = .ok i n) :
    issue s = thenDo (s1.issueInstr i ws) (fun t => t.entered s1.hart.pc ws) := by
  simp only [issue, hf, hd]

/-- Words that decode to none trap ILL (R22, R24). -/
theorem issue_of_ill {s s1 : State} {ws : List IWord} {sub : BitVec 8} {w : IWord} (hf : s.fetch = .words s1 ws) (hd : decode ws = .ill sub w) :
    issue s = .next (s1.catchUp.trap ⟨0x01, illTval sub w 0⟩) := by
  simp only [issue, hf, hd]
  rfl

/-- Settles O2: the step is the turn of the next hart, and each way in which its instruction may issue gives one of the states named. -/
theorem stepRunsTheDecodedInstruction : Obligations.StepRunsTheDecodedInstruction := by
  intro s s0 s1 ws id hagenda hdev hnext hreq hmeet hf ends
  have hstep := step_of_run hagenda hdev hnext hreq hmeet
  refine ⟨fun i n t hd => ?_, fun sub w hd => ?_⟩
  · have issued : ∀ {u}, s1.issueInstr i ws = .next u → ends u := fun h => by
      show step s = _
      rw [hstep, issue_of_ok hf hd, h]
      rfl
    refine ⟨fun hm hl hx => ?_, fun hm hx => ?_, fun hm hl hr hx => ?_, fun hm hl hr hx => ?_⟩
    · exact issued ((s1.issueInstr_plain i ws hl (by simpa [hl] using hm)).trans hx)
    · rcases State.issueInstr_mayStand hm hx with ⟨hl, h⟩ | ⟨hs, h⟩ | ⟨hl, h⟩
      · exact .inl ⟨hl, issued h⟩
      · exact .inr (.inl ⟨hs, issued h⟩)
      · exact .inr (.inr ⟨hl, fun u hu => issued (h.trans hu)⟩)
    · have h := State.issueInstr_ahead hm hl hr hx
      refine ⟨fun ht => issued (h.trans (by simp [ht])), fun ht u hu => issued (h.trans (by simp [ht, hu]))⟩
    · exact issued ((State.issueInstr_behind i hm hl hr).trans hx)
  · rw [hstep, issue_of_ill hf hd]
    rfl

end Sys2Proof.Machine
end

section
/-! PROOFS. How a scalar instruction ends that its header stops nowhere, and the control registers of Table 2-2 (02 R34, R38, 03 R93). -/

namespace Sys2Proof.Machine

open Sys2Proof

/-! ### How a scalar instruction ends that its header stops nowhere (R354) -/

section Scalar

variable {hd : Hdr} {s : State} {f : State → Except Trap Eff}

/-- Its own checks pass, and its effect on the state with the convoy settled ends it. -/
theorem runInstr_scalar_ok {e : Eff} (hu : hd.unit = none) (hc : hd.check s = none) (hb : hd.badSource s.hart = none)
    (he : f (s.checked hd.serial hd.reads) = .ok e) : runInstr hd s f = .next (hd.finish s.hart.convoy e) := by
  rw [runInstr_passes hd s f hc hb, State.begun_scalar s hd hu, he]

/-- One of its own checks traps: the convoy closes in any case, so the trap finds the state as it was before the instruction. -/
theorem runInstr_scalar_error {t : Trap} (hu : hd.unit = none) (hc : hd.check s = none) (hb : hd.badSource s.hart = none)
    (he : f (s.checked hd.serial hd.reads) = .error t) : runInstr hd s f = .next (s.trap t) := by
  rw [runInstr_passes hd s f hc hb, State.begun_scalar s hd hu, he]
  exact congrArg Host.Outcome.next (s.trap_convoy _ t)

/-- It retires with its hart changed by `g`, of which settling the convoy is no part. -/
theorem runInstr_scalar_upd (g : Hart → Hart) (hu : hd.unit = none) (hl : hd.body = none) (hc : hd.check s = none) (hb : hd.badSource s.hart = none)
    (hf : f (s.checked hd.serial hd.reads) = .ok (.next ((s.checked hd.serial hd.reads).upd g)))
    (hg : ∀ k : Option Convoy, g { s.hart with convoy := k } = { g s.hart with convoy := k }) (hpc : (g s.hart).pc = s.hart.pc) :
    runInstr hd s f = .next { s with hart := (g s.hart).past (s.hart.pc + 4) (s.hart.convoyPast hd.serial hd.reads) } := by
  have hh : g (s.checked hd.serial hd.reads).hart = { g s.hart with convoy := s.hart.convoyPast hd.serial hd.reads } := hg _
  rw [runInstr_scalar_ok hu hc hb hf]
  simp only [Hdr.finish, Hdr.len, hu, hl, State.upd, hh, hpc]
  rfl

end Scalar

/-! ### Control registers (R34, R38, R93, Table 2-2) -/

/-- Writing s[r] and settling the convoy commute. -/
theorem Hart.ps_convoyed (h : Hart) (k : Option Convoy) (r : Reg5) (x : Word) : ({ h with convoy := k } : Hart).ps r x = { h.ps r x with convoy := k } := by
  unfold Hart.ps
  split <;> rfl

/-- `getc` writes s[sd] with what the register reads, in every mode that may read it (R93). -/
theorem exec_getc {s : State} (d : Reg5) {c : BitVec 16} (hp : cregSupervisor c = true → s.hart.super = true) (hv : cregVector c = true → s.hart.owns = true) :
    exec (.getc d c) s = .next (s.wrote true [] d (s.readCreg c)) := by
  show execGetc d c s = _
  unfold execGetc scalarOp
  rw [runInstr_scalar_upd (·.ps d (s.readCreg c)) rfl rfl (Hdr.check_system _ s rfl rfl rfl hp hv) (Hdr.badSource_nil _ _ rfl rfl) rfl
    (fun k => s.hart.ps_convoyed k d _) (s.hart.ps_pc d _), Hart.ps_past]
  rfl

/-- Writing a control register and settling the convoy commute. -/
theorem Hart.writeCreg_convoy (h : Hart) (k : Option Convoy) (c : BitVec 16) (x : Word) :
    ({ h with convoy := k } : Hart).writeCreg c x = { h.writeCreg c x with convoy := k } := by
  unfold Hart.writeCreg
  dsimp only
  split <;> rfl

@[simp] theorem Hart.writeCreg_pc (h : Hart) (c : BitVec 16) (x : Word) : (h.writeCreg c x).pc = h.pc := by unfold Hart.writeCreg; split <;> rfl
@[simp] theorem Hart.writeCreg_convoyPast (h : Hart) (c : BitVec 16) (x : Word) (serial : Bool) (rs : List Reg5) :
    (h.writeCreg c x).convoyPast serial rs = h.convoyPast serial rs := by unfold Hart.writeCreg; split <;> rfl

/-- `setc` writes the RW fields of the register from s[sa], unless it puts a reserved rounding code into FCSR.RM (R35, R93). -/
theorem exec_setc {s : State} (a : Reg5) {c : BitVec 16} (hs : s.hart.sound = true) (hp : cregSupervisor c = true → s.hart.super = true)
    (hrm : c = 0x005 → (s.gs a).toNat / 32 % 8 < 5) :
    exec (.setc a c) s = .next { s with hart := (s.hart.writeCreg c (s.gs a)).scalarPast true [a] } := by
  have ok : ¬(decide (c = 0x005) && decide (5 ≤ (s.gs a).toNat / 32 % 8)) = true := by simpa using hrm
  show execSetc a c s = _
  unfold execSetc
  rw [runInstr_scalar_upd (·.writeCreg c (s.gs a)) rfl rfl (Hdr.check_system _ s rfl rfl rfl hp (fun h => Bool.noConfusion h)) (Hdr.badSource_sound _ _ hs) (if_neg ok)
    (fun k => s.hart.writeCreg_convoy k c _) (s.hart.writeCreg_pc c _), Hart.scalarPast, Hart.writeCreg_convoyPast, Hart.writeCreg_pc]

/-- Settles O27: `getc` and `setc` go through what a register reads and how it is written, and these are given for each number of Table 2-2. -/
theorem controlRegistersReadAndWrite : Obligations.ControlRegistersReadAndWrite := by
  intro s d a
  have read : ∀ {c : BitVec 16} {n : Nat}, (cregSupervisor c = false ∨ s.hart.super = true) → (cregVector c = false ∨ s.hart.owns = true) →
      s.readCreg c = BitVec.ofNat 64 n → exec (.getc d c) s = .next (s.wrote true [] d (BitVec.ofNat 64 n)) := fun hp hv h =>
    h ▸ exec_getc d (fun hc => hp.resolve_left (by simp [hc])) (fun hc => hv.resolve_left (by simp [hc]))
  refine ⟨?_, fun owns => ?_, fun super => ?_, fun hs => ?_⟩
  · simp only [List.forall_mem_cons, List.not_mem_nil, false_implies, implies_true, and_true]
    refine ⟨?_, ?_, ?_, ?_, ?_, ?_, ?_, ?_, ?_, ?_, ?_⟩ <;> exact read (.inl rfl) (.inl rfl) (by simp [State.readCreg, State.hartid])
  · simp only [List.forall_mem_cons, List.not_mem_nil, false_implies, implies_true, and_true]
    refine ⟨?_, ?_, ?_⟩ <;> exact read (.inl rfl) (.inr owns) (by simp [State.readCreg])
  · simp only [List.forall_mem_cons, List.not_mem_nil, false_implies, implies_true, and_true]
    refine ⟨?_, ?_, ?_, ?_, ?_, ?_, ?_, ?_, ?_, ?_, ?_⟩ <;> exact read (.inr super) (.inl rfl) (by simp [State.readCreg])
  · have write : ∀ {c : BitVec 16}, (cregSupervisor c = false ∨ s.hart.super = true) → c ≠ 0x005 →
        exec (.setc a c) s = .next { s with hart := (s.hart.writeCreg c (s.gs a)).scalarPast true [a] } := fun hp h5 =>
      exec_setc a hs (fun hc => hp.resolve_left (by simp [hc])) (fun h => absurd h h5)
    refine ⟨write (.inl rfl) (by decide), write (.inl rfl) (by decide), fun rm => exec_setc a hs (fun h => Bool.noConfusion h) (fun _ => rm),
      write (.inl rfl) (by decide), write (.inl rfl) (by decide), fun super => ?_⟩
    refine ⟨?_, ?_, ?_, ?_, ?_, ?_, ?_, ?_, ?_, ?_⟩ <;> exact write (.inr super) (by decide)

end Sys2Proof.Machine
end

section
/-! PROOFS. The grant of a strip (02 R40, R41, 03 R92). -/

namespace Sys2Proof.Machine

open Sys2Proof

/-- The vector registers once the pending grant applies: the bits that stay are those below 512 times the smaller grant (R41). -/
def Hart.grantedV (h : Hart) : Vector VBits 32 :=
  if h.lanes = h.pend then h.v else h.v.map (fun x => BitVec.ofNat 16384 (x.toNat % 2 ^ (512 * min h.lanes h.pend)))

theorem Hart.applyGrant_pend (h : Hart) : h.applyGrant h.pend = { h with lanes := h.pend, v := h.grantedV } := by
  unfold Hart.applyGrant Hart.grantedV
  by_cases hg : h.lanes = h.pend
  · rw [if_pos hg, if_pos hg]
    exact congrArg (fun n => ({ h with lanes := n } : Hart)) hg
  · rw [if_neg hg, if_neg hg]

/-- All that opening a strip changes. -/
theorem Hart.openStrip_eq (h : Hart) (d a : Reg5) (t : BitVec 16) : h.openStrip d a t =
    ({ h with vtype := t, vl := grantVl t h.pend (h.gs a), vstart := 0, lanes := h.pend, strip := h.strip + 1, v := h.grantedV } : Hart).ps d
      (BitVec.ofNat 64 (grantVl t h.pend (h.gs a))) := by
  unfold Hart.openStrip
  rw [h.applyGrant_pend]

/-- A strip opened in a hart whatever its convoy. -/
theorem Hart.openStrip_convoy (h : Hart) (k : Option Convoy) (d a : Reg5) (t : BitVec 16) :
    ({ h with convoy := k } : Hart).openStrip d a t = { h.openStrip d a t with convoy := k } := by
  rw [Hart.openStrip_eq, Hart.openStrip_eq]
  unfold Hart.ps
  split <;> rfl

@[simp] theorem Hart.openStrip_pc (h : Hart) (d a : Reg5) (t : BitVec 16) : (h.openStrip d a t).pc = h.pc := by
  rw [Hart.openStrip_eq, Hart.ps_pc]

/-- `vsetli` opens a strip with the vtype of its word (R92). -/
theorem exec_vsetli {s : State} (d a : Reg5) (t : BitVec 16) (ho : s.hart.owns = true) (hs : s.hart.sound = true) :
    exec (.vsetli d a t) s = .next { s with hart := (s.hart.openStrip d a t).past (s.hart.pc + 4) (s.hart.convoyPast true [a]) } := by
  show execVsetli d a t s = _
  exact runInstr_scalar_upd (·.openStrip d a t) rfl rfl (Hdr.check_system _ s rfl rfl rfl (fun h => Bool.noConfusion h) (fun _ => ho)) (Hdr.badSource_sound _ _ hs) rfl
    (fun k => s.hart.openStrip_convoy k d a t) (s.hart.openStrip_pc d a t)

/-- `vsetl` opens a strip with the vtype in s[sb], where that is legal (R21, R92). -/
theorem exec_vsetl {s : State} (d a b : Reg5) {t : BitVec 16} (ho : s.hart.owns = true) (hs : s.hart.sound = true) (ht : vtypeLegal t = true)
    (hb : s.gs b = t.zeroExtend 64) :
    exec (.vsetl d a b) s = .next { s with hart := (s.hart.openStrip d a t).past (s.hart.pc + 4) (s.hart.convoyPast true [a, b]) } := by
  have hn : (s.gs b).toNat = t.toNat := by rw [hb, BitVec.toNat_setWidth, Nat.mod_eq_of_lt (by omega)]
  show execVsetl d a b s = _
  unfold execVsetl
  refine runInstr_scalar_upd (·.openStrip d a t) rfl rfl (Hdr.check_system _ s rfl rfl rfl (fun h => Bool.noConfusion h) (fun _ => ho)) (Hdr.badSource_sound _ _ hs) ?_
    (fun k => s.hart.openStrip_convoy k d a t) (s.hart.openStrip_pc d a t)
  show (if (decide ((s.gs b).toNat < 2 ^ 16) && vtypeLegal (BitVec.ofNat 16 (s.gs b).toNat)) = true then
    Except.ok (Eff.next (State.upd _ (·.openStrip d a (BitVec.ofNat 16 (s.gs b).toNat)))) else Except.error _) = _
  rw [hn, BitVec.ofNat_toNat, BitVec.setWidth_eq, if_pos (by simp [ht, t.isLt])]

/-- The length granted, as R40 writes it. -/
theorem grantVl_eq (t : BitVec 16) (g : Nat) (req : Word) : grantVl t g req =
    let m := if req.toInt ≤ 0 then 0 else min req.toInt.toNat (16384 / (4 * 2 ^ (t.toNat % 8)) * 2 ^ (t.toNat / 8 % 4) * g / 32)
    if t.getLsbD 15 = true ∧ 32 ≤ req.toInt then m - m % 32 else m := by
  simp only [grantVl, vlmaxOf, Bool.and_eq_true, decide_eq_true_eq]

/-- Settles O28: both open the same strip, whose fields `openStrip_eq` lists. -/
theorem stripsAreGranted : Obligations.StripsAreGranted := by
  intro s d a b t ho hs ht req g vlmax m n opened
  have hopen : ∀ rs : List Reg5, Host.Outcome.next { s with hart := (s.hart.openStrip d a t).past (s.hart.pc + 4) (s.hart.convoyPast true rs) } = opened rs := fun rs => by
    have hvl : grantVl t s.hart.pend (s.hart.gs a) = n := grantVl_eq t s.hart.pend (s.hart.gs a)
    rw [Hart.openStrip_eq, Hart.ps_past, hvl]
    rfl
  exact ⟨(exec_vsetli d a t ho hs).trans (hopen [a]), fun hb => (exec_vsetl d a b ho hs ht hb).trans (hopen [a, b])⟩

end Sys2Proof.Machine
end

section
/-! PROOFS. The elements of a register group as bits of its registers (02 R44, 01 R10). -/

namespace Sys2Proof.Machine

open Sys2Proof

/-! ### Bits of a number replaced -/

theorem testBit_putBits (x p w y k : Nat) :
    (putBits x p w y).testBit k = if k < p then x.testBit k else if k < p + w then y.testBit (k - p) else x.testBit k := by
  have low : y % 2 ^ w * 2 ^ p + x % 2 ^ p < 2 ^ (p + w) := by
    have hy := Nat.mod_lt y (Nat.two_pow_pos w)
    have hx := Nat.mod_lt x (Nat.two_pow_pos p)
    calc y % 2 ^ w * 2 ^ p + x % 2 ^ p < (y % 2 ^ w + 1) * 2 ^ p := by rw [Nat.add_mul]; omega
      _ ≤ 2 ^ w * 2 ^ p := Nat.mul_le_mul_right _ hy
      _ = 2 ^ (p + w) := by rw [← pow_add, Nat.add_comm]
  rw [putBits, Nat.add_assoc, Nat.mul_comm (x / _), Nat.testBit_two_pow_mul_add _ low, Nat.mul_comm (y % _),
    Nat.testBit_two_pow_mul_add _ (Nat.mod_lt x (Nat.two_pow_pos p)), Nat.testBit_mod_two_pow, Nat.testBit_mod_two_pow, Nat.testBit_div_two_pow]
  by_cases hp : k < p
  · simp [hp, show k < p + w by omega]
  · by_cases hw : k < p + w
    · simp [hp, hw, show k - p < w by omega]
    · simp [hp, hw, show k - (p + w) + (p + w) = k by omega]

/-- The bits replaced read as what replaced them. -/
theorem putBits_same (x p w y : Nat) : putBits x p w y / 2 ^ p % 2 ^ w = y % 2 ^ w := by
  apply Nat.eq_of_testBit_eq
  intro k
  rw [Nat.testBit_mod_two_pow, Nat.testBit_mod_two_pow, Nat.testBit_div_two_pow, testBit_putBits]
  by_cases hk : k < w
  · simp [hk, show k + p < p + w by omega]
  · simp [hk]

/-- Bits apart from those replaced read as before. -/
theorem putBits_apart (x y : Nat) {p w q v : Nat} (h : q + v ≤ p ∨ p + w ≤ q) : putBits x p w y / 2 ^ q % 2 ^ v = x / 2 ^ q % 2 ^ v := by
  apply Nat.eq_of_testBit_eq
  intro k
  rw [Nat.testBit_mod_two_pow, Nat.testBit_mod_two_pow, Nat.testBit_div_two_pow, Nat.testBit_div_two_pow, testBit_putBits]
  by_cases hk : k < v
  · have : k + q < p ∨ ¬k + q < p ∧ ¬k + q < p + w := by omega
    rcases this with hb | ⟨hb, hc⟩
    · simp [hb]
    · simp [hb, hc]
  · simp [hk]

/-- Bits replaced within a register leave a number that fits it. -/
theorem putBits_lt {x p w n : Nat} (y : Nat) (hx : x < 2 ^ n) (h : p + w ≤ n) : putBits x p w y < 2 ^ n := by
  apply Nat.lt_pow_two_of_testBit
  intro k hk
  rw [testBit_putBits, if_neg (by omega), if_neg (by omega)]
  exact Nat.testBit_lt_two_pow (hx.trans_le (Nat.pow_le_pow_right (by omega) hk))

theorem toNat_ofNat_putBits {n p w : Nat} (x : BitVec n) (y : Nat) (h : p + w ≤ n) : (BitVec.ofNat n (putBits x.toNat p w y)).toNat = putBits x.toNat p w y := by
  rw [BitVec.toNat_ofNat, Nat.mod_eq_of_lt (putBits_lt y x.isLt h)]

/-! ### Elements of register groups (R10, R44) -/

/-- The elements of a register fill it at most, whatever is granted: their width divides what a lane holds of a register. -/
theorem Hart.perReg_fits {h : Hart} {w : Nat} (hw : w ∈ [4, 8, 16, 32, 64, 128]) (hl : 1 ≤ h.lanes) (hl32 : h.lanes ≤ 32) :
    0 < h.perReg w ∧ w * h.perReg w ≤ 16384 := by
  unfold Hart.perReg
  simp only [List.mem_cons, List.not_mem_nil, or_false] at hw
  rcases hw with rfl | rfl | rfl | rfl | rfl | rfl <;> omega

/-- The bits of an element stand within its register. -/
theorem elem_bits_le {w e : Nat} (i : Nat) (he : 0 < e) (hfit : w * e ≤ 16384) : w * (i % e) + w ≤ 16384 :=
  calc w * (i % e) + w = w * (i % e + 1) := by ring
    _ ≤ w * e := Nat.mul_le_mul_left w (Nat.mod_lt i he)
    _ ≤ 16384 := hfit

/-- Elements of one register that are not the same stand apart. -/
theorem elem_bits_apart {w e i j : Nat} (hij : i ≠ j) (hreg : i / e = j / e) : w * (j % e) + w ≤ w * (i % e) ∨ w * (i % e) + w ≤ w * (j % e) := by
  have hne : i % e ≠ j % e := fun h => hij (by rw [← Nat.div_add_mod i e, ← Nat.div_add_mod j e, hreg, h])
  rcases Nat.lt_or_gt_of_ne hne with h | h
  · exact .inr (by simpa [Nat.mul_add] using Nat.mul_le_mul_left w h)
  · exact .inl (by simpa [Nat.mul_add] using Nat.mul_le_mul_left w h)

/-- The register of an element once the element is set. -/
theorem Hart.putElem_reg {h : Hart} {r w i : Nat} (y : Nat) (he : 0 < h.perReg w) (hfit : w * h.perReg w ≤ 16384) (hr : r + i / h.perReg w < 32) :
    ((h.putElem r w i y).v.getD (r + i / h.perReg w) 0).toNat = putBits (h.v.getD (r + i / h.perReg w) 0).toNat (w * (i % h.perReg w)) w y := by
  show ((h.v.setIfInBounds _ _).getD _ 0).toNat = _
  rw [getD_set_same _ _ hr, toNat_ofNat_putBits _ y (elem_bits_le i he hfit)]

/-- Another register stays. -/
theorem Hart.putElem_reg_other (h : Hart) {r w i k : Nat} (y : Nat) (hk : r + i / h.perReg w ≠ k) : (h.putElem r w i y).v.getD k 0 = h.v.getD k 0 :=
  getD_set_other _ (Ne.symm hk) _ _

theorem Hart.elem_putElem_same {h : Hart} {r w i : Nat} (y : Nat) (he : 0 < h.perReg w) (hfit : w * h.perReg w ≤ 16384) (hr : r + i / h.perReg w < 32) :
    (h.putElem r w i y).elem r w i = y % 2 ^ w := by
  show ((h.putElem r w i y).v.getD (r + i / h.perReg w) 0).toNat / 2 ^ (w * (i % h.perReg w)) % 2 ^ w = _
  rw [Hart.putElem_reg y he hfit hr, putBits_same]

theorem Hart.elem_putElem_other {h : Hart} {r w i j : Nat} (y : Nat) (he : 0 < h.perReg w) (hfit : w * h.perReg w ≤ 16384) (hr : r + i / h.perReg w < 32)
    (hij : i ≠ j) : (h.putElem r w i y).elem r w j = h.elem r w j := by
  show ((h.putElem r w i y).v.getD (r + j / h.perReg w) 0).toNat / 2 ^ (w * (j % h.perReg w)) % 2 ^ w =
    (h.v.getD (r + j / h.perReg w) 0).toNat / 2 ^ (w * (j % h.perReg w)) % 2 ^ w
  by_cases hreg : i / h.perReg w = j / h.perReg w
  · rw [← hreg, Hart.putElem_reg y he hfit hr, putBits_apart _ _ (elem_bits_apart hij hreg)]
  · rw [h.putElem_reg_other y (by omega)]

/-! ### Lists of elements written -/

/-- Elements set one after the other (`putElems` but for the codewords it repairs). -/
def Hart.putAll (h : Hart) (r w : Nat) (xs : List (Nat × Nat)) : Hart := xs.foldl (fun h p => h.putElem r w p.1 p.2) h

theorem Hart.putElems_v (h : Hart) (r w : Nat) (xs : List (Nat × Nat)) : (h.putElems r w xs).v = (h.putAll r w xs).v := rfl

theorem Hart.elem_putElems (h : Hart) (r w : Nat) (xs : List (Nat × Nat)) (i : Nat) : (h.putElems r w xs).elem r w i = (h.putAll r w xs).elem r w i := rfl

theorem Hart.putAll_cons (h : Hart) (r w : Nat) (p : Nat × Nat) (ps : List (Nat × Nat)) : h.putAll r w (p :: ps) = (h.putElem r w p.1 p.2).putAll r w ps := rfl

@[simp] theorem Hart.putElem_perReg (h : Hart) (r w i y n : Nat) : (h.putElem r w i y).perReg n = h.perReg n := rfl

/-- A register in which no element is written stays. -/
theorem Hart.putAll_reg_other {r w k : Nat} {xs : List (Nat × Nat)} {h : Hart} (hk : ∀ p ∈ xs, r + p.1 / h.perReg w ≠ k) :
    (h.putAll r w xs).v.getD k 0 = h.v.getD k 0 := by
  induction xs generalizing h with
  | nil => rfl
  | cons p ps ih =>
    rw [List.forall_mem_cons] at hk
    rw [Hart.putAll_cons, ih (by simpa using hk.2), h.putElem_reg_other p.2 hk.1]

/-- An element that is not written stays. -/
theorem Hart.elem_putAll_other {r w i : Nat} {xs : List (Nat × Nat)} {h : Hart} (he : 0 < h.perReg w) (hfit : w * h.perReg w ≤ 16384)
    (hr : ∀ p ∈ xs, r + p.1 / h.perReg w < 32) (hi : ∀ p ∈ xs, p.1 ≠ i) : (h.putAll r w xs).elem r w i = h.elem r w i := by
  induction xs generalizing h with
  | nil => rfl
  | cons p ps ih =>
    rw [List.forall_mem_cons] at hr hi
    rw [Hart.putAll_cons, ih (by simpa using he) (by simpa using hfit) (by simpa using hr.2) hi.2, Hart.elem_putElem_other p.2 he hfit hr.1 hi.1]

/-- An element that is written once gets its value. -/
theorem Hart.elem_putAll_mem {r w : Nat} {p : Nat × Nat} {xs : List (Nat × Nat)} {h : Hart} (he : 0 < h.perReg w) (hfit : w * h.perReg w ≤ 16384)
    (hr : ∀ q ∈ xs, r + q.1 / h.perReg w < 32) (hnd : (xs.map (·.1)).Nodup) (hp : p ∈ xs) : (h.putAll r w xs).elem r w p.1 = p.2 % 2 ^ w := by
  induction xs generalizing h with
  | nil => cases hp
  | cons q qs ih =>
    obtain ⟨hq, hnd⟩ := List.nodup_cons.1 hnd
    rw [List.forall_mem_cons] at hr
    rw [Hart.putAll_cons]
    rcases List.mem_cons.1 hp with rfl | hp
    · have once : ∀ x ∈ qs, x.1 ≠ p.1 := fun x hx e => hq (List.mem_map.2 ⟨x, hx, e⟩)
      rw [Hart.elem_putAll_other (by simpa using he) (by simpa using hfit) (by simpa using hr.2) once, Hart.elem_putElem_same p.2 he hfit hr.1]
    · exact ih (by simpa using he) (by simpa using hfit) (by simpa using hr.2) hnd hp

/-- Settles O33: the bits of the elements of a group stand apart from each other, within their registers. -/
theorem elementsOfRegisterGroups : Obligations.ElementsOfRegisterGroups := by
  intro h r w xs e hw hl hl32 hr hnd
  obtain ⟨he, hfit⟩ := Hart.perReg_fits hw hl hl32
  refine ⟨fun i k hk _ => ?_, fun p hp => ?_, fun i _ hi => ?_, fun k hk => ?_⟩
  · rw [BitVec.extractLsb'_toNat, Nat.shiftRight_eq_div_pow, ← hk]
    rfl
  · rw [Hart.elem_putElems, Hart.elem_putAll_mem he hfit hr hnd hp]
  · rw [Hart.elem_putElems, Hart.elem_putAll_other he hfit hr hi]
  · rw [Hart.putElems_v, Hart.putAll_reg_other hk]

end Sys2Proof.Machine
end

section
/-! PROOFS. The values of narrow elements: integers, i4x pairs, and E8M0 scales (02 R47 to R51). -/

namespace Sys2Proof.Machine

open Sys2Proof

/-! ### Exact values as rational numbers (R48, R49) -/

/-- A value times a power of two. -/
theorem FVal.rat_mul_pow (v : FVal) (e : Int) : (FVal.mul v (.num false 1 e)).1.rat = v.rat.map (· * 2 ^ e) := by
  cases v with
  | nan => rfl
  | inf neg => rfl
  | num neg m x =>
    have h2 : (2 : ℚ) ^ (x + e) = 2 ^ x * 2 ^ e := zpow_add₀ two_ne_zero x e
    simp [FVal.mul, FVal.rat, h2, mul_assoc]

/-- An integer as an exact value. -/
theorem FVal.rat_ofInt (n : Int) : (FVal.ofInt false n 0).rat = some (n : ℚ) := by
  unfold FVal.ofInt
  by_cases h0 : n = 0
  · simp [h0, FVal.rat]
  · rw [if_neg h0]
    by_cases hn : n < 0
    · simp [FVal.rat, hn, abs_of_neg hn]
    · simp [FVal.rat, hn, abs_of_nonneg (not_lt.1 hn)]

/-- Four bits read as a signed integer (R48). -/
theorem bitsInt_four {n : Nat} (hn : n < 16) : bitsInt true 4 n = Int.bmod n 16 := by
  unfold bitsInt
  rw [Int.bmod_def]
  by_cases h : 8 ≤ n
  · simp [h]; omega
  · simp [h]; omega

/-- A 4-bit integer of an i4x pair that holds no marker (R51). -/
theorem rat_ofInt_four {n : Nat} (hn : n < 16) : (FVal.ofInt false (bitsInt true 4 n) 0).rat = some ((Int.bmod n 16 : Int) : ℚ) := by
  rw [bitsInt_four hn, FVal.rat_ofInt]

/-- The lower element of an i4x pair (R51): zero where the code above it is the marker, an outlier where its own is. -/
theorem rat_i4xValue_lo {lo : Nat} (hi ox : Nat) (hlo : lo < 16) : (i4xValue lo hi ox false).rat =
    if hi = 8 then some 0 else if lo = 8 then (FName.e2m1.read hi).rat.map (· * 2 ^ ox) else some ((Int.bmod lo 16 : Int) : ℚ) := by
  by_cases h : hi = 8 <;> by_cases l : lo = 8
  · simp [i4xValue, h, l, FVal.rat]
  · simp [i4xValue, h, l, FVal.rat]
  · simp [i4xValue, h, l, FVal.rat_mul_pow]
  · simp [i4xValue, h, l, rat_ofInt_four hlo]

/-- The upper element of an i4x pair (R51). -/
theorem rat_i4xValue_hi (lo : Nat) {hi : Nat} (ox : Nat) (hhi : hi < 16) : (i4xValue lo hi ox true).rat =
    if lo = 8 then some 0 else if hi = 8 then (FName.e2m1.read lo).rat.map (· * 2 ^ ox) else some ((Int.bmod hi 16 : Int) : ℚ) := by
  by_cases h : hi = 8 <;> by_cases l : lo = 8
  · simp [i4xValue, h, l, FVal.rat]
  · simp [i4xValue, h, l, FVal.rat_mul_pow]
  · simp [i4xValue, h, l, FVal.rat]
  · simp [i4xValue, h, l, rat_ofInt_four hhi]

/-! ### Scales (R47, R50) -/

theorem scaleBy_nan (v : FVal) : scaleBy v 255 = (.nan, { nv := true }) := rfl

/-- A scale that is a number multiplies by its power of two. -/
theorem rat_scaleBy (v : FVal) {e : Nat} (h : e < 255) : (scaleBy v e).1.rat = v.rat.map (· * 2 ^ ((e : Int) - 127)) := by
  rw [scaleBy, if_neg (by omega), e8m0, if_neg (by omega)]
  exact v.rat_mul_pow _

/-- The value of an element of a format of one code, as its scale multiplies it. -/
theorem Hart.value_scaled {h : Hart} (r : Reg5) (raw i : Nat) (hf : h.fmt ≠ 7) (hs : h.scaled = true) :
    h.value r raw i = scaleBy (h.plainValue raw) ((h.v.getD (r.toNat + h.lmul) 0).toNat / 2 ^ (8 * (i / 32)) % 2 ^ 8) := by
  simp [Hart.value, Hart.scaleEntry, hf, hs]

/-- The value of an element of an i4x pair: without scales it is that of a scale of 1, 127, and of OX 0. -/
theorem Hart.rat_value_i4x {h : Hart} (r : Reg5) (raw i : Nat) (hf : h.fmt = 7) :
    let entry := if h.scaled then (h.v.getD (r.toNat + h.lmul) 0).toNat / 2 ^ (16 * (i / 32)) % 2 ^ 16 else 127
    let v := i4xValue (h.elem r.toNat 4 (i / 2 * 2)) (h.elem r.toNat 4 (i / 2 * 2 + 1)) (entry / 2 ^ 8 % 2 ^ 4) (i % 2 == 1)
    (entry % 2 ^ 8 = 255 → h.value r raw i = (.nan, { nv := true })) ∧
    (entry % 2 ^ 8 < 255 → (h.value r raw i).1.rat = v.rat.map (· * 2 ^ (((entry % 2 ^ 8 : Nat) : Int) - 127))) := by
  cases hs : h.scaled with
  | true =>
    intro entry v
    have hv : h.value r raw i = scaleBy v (entry % 2 ^ 8) := by simp [Hart.value, Hart.scaleEntry, hf, hs, v, entry]
    exact ⟨fun h255 => by rw [hv, h255, scaleBy_nan], fun hlt => by rw [hv, rat_scaleBy v hlt]⟩
  | false =>
    intro entry v
    have hv : h.value r raw i = (v, {}) := by simp [Hart.value, hf, hs, v, entry]
    exact ⟨fun h255 => by simp [entry] at h255, fun _ => by simp [hv, entry]⟩

/-- Settles O37: an i4x pair by its markers, and a scale as a power of two that multiplies. -/
theorem narrowValuesAreScaledAndDecoded : Obligations.NarrowValuesAreScaledAndDecoded := by
  intro h r i lo hi ox hlo hhi
  refine ⟨rat_i4xValue_lo hi ox hlo, rat_i4xValue_hi lo ox hhi, fun hf hs _ => ?_, fun hf _ => Hart.rat_value_i4x r _ i hf⟩
  intro scale v
  have hv : h.value r (h.elem r.toNat h.sew i) i = scaleBy v scale := Hart.value_scaled r _ i (by omega) hs
  exact ⟨fun h255 => by rw [hv, h255, scaleBy_nan], fun hlt => by rw [hv, rat_scaleBy v hlt]⟩

end Sys2Proof.Machine
end

section
/-! PROOFS. The s registers and masks that the words of `vadd` name (Tables 1-3, 1-4, 1-8). -/

namespace Sys2Proof.Words

open Sys2Proof Sys2Proof.Machine

/-- A field of a word, as the number that `vectorReads` takes from it. -/
theorem fld_toNat {w : IWord} {hi lo : Nat} {v : BitVec (hi - lo + 1)} (h : v = fld w hi lo) : w.toNat / 2 ^ lo % 2 ^ (hi - lo + 1) = v.toNat := by
  rw [h, fld, BitVec.toNat_ofNat, Nat.mod_mod]

section

variable (d a b : Reg5) (m x : Reg3) (j : BitVec 1)

/-- The word of format V that an opcode makes with its fields (Table 1-3). -/
def vectorWord (c : Nat) : IWord := BitVec.ofNat 32 (packed c [⟨25, 21, d⟩, ⟨20, 16, a⟩, ⟨15, 11, b⟩, ⟨10, 8, m⟩, ⟨7, 5, x⟩, ⟨4, 4, j⟩])

/-- Major, s register and governing mask of a word of format V. -/
theorem vectorWord_fields {c : Nat} (hf : fits c [⟨25, 21, d⟩, ⟨20, 16, a⟩, ⟨15, 11, b⟩, ⟨10, 8, m⟩, ⟨7, 5, x⟩, ⟨4, 4, j⟩] = true) :
    (vectorWord d a b m x j c).toNat / 2 ^ 26 % 2 ^ 6 = (fld (BitVec.ofNat 32 c) 31 26 : BitVec 6).toNat ∧
      (vectorWord d a b m x j c).toNat / 2 ^ 11 % 2 ^ 5 = b.toNat ∧ (vectorWord d a b m x j c).toNat / 2 ^ 8 % 2 ^ 3 = m.toNat := by
  obtain ⟨-, -, hb, hm, -⟩ := reads_packed hf
  have major := fld_packed_apart (n := 6) (hi := 31) (lo := 26) (by decide) (by decide) hf rfl
  exact ⟨fld_toNat (hi := 31) (lo := 26) major.symm, fld_toNat (hi := 15) (lo := 11) hb, fld_toNat (hi := 10) (lo := 8) hm⟩

theorem vectorReads_wVaddVs : vectorReads (wVaddVs d a b m x j) none = ([b.toNat], [m.toNat]) := by
  obtain ⟨major, hb, hm⟩ := vectorWord_fields d a b m x j (c := 0x84000000) rfl
  show vectorReads (vectorWord d a b m x j 0x84000000) none = _
  simp only [vectorReads, major, hb, hm]
  rfl

theorem vectorReads_wVaddVv : vectorReads (wVaddVv d a b m x j) none = ([], [m.toNat]) := by
  obtain ⟨major, -, hm⟩ := vectorWord_fields d a b m x j (c := 0x80000000) rfl
  show vectorReads (vectorWord d a b m x j 0x80000000) none = _
  simp only [vectorReads, major, hm]
  rfl

end

end Sys2Proof.Words
end

section
/-! PROOFS. The traps of system instructions, and of instructions that read a register with an uncorrectable error (R35, R90, R140, R203, R307). -/

namespace Sys2Proof.Machine

open Sys2Proof

/-! ### Uncorrectable errors in registers (R140, R306, R307, Table 5-8) -/

/-- A trap ends every wait, so it takes no notice of one that a write has just ended. -/
theorem Hart.wakeOn_trap (h : Hart) (l n : Nat) (t : Trap) : (h.wakeOn l n).trap t = h.trap t := by
  rcases h.wakeOn_cases l n with e | e <;> exact (congrArg (Hart.trap · t) e).trans rfl

/-! A trap of the issuing hart leaves nothing of its convoy, its wait, or what it has remembered of its instruction: two harts that differ in these alone come to the same
trap, whatever has been performed or recorded before it. -/

section Trap

variable {s : State} {h : Hart} {t : Trap}

theorem State.perform_trap (ht : h.trap t = s.hart.trap t) (l : Nat) (bs : List Byte) :
    (({ s with hart := h } : State).perform l bs).trap t = (s.perform l bs).trap t := by
  have hw : (h.wakeOn l bs.length).trap t = (s.hart.wakeOn l bs.length).trap t := by rw [Hart.wakeOn_trap, Hart.wakeOn_trap, ht]
  unfold State.perform State.trap State.upd
  dsimp only
  split
  · simp only [hw]
  · split <;> simp only [hw]

theorem State.machineCheck_trap (ht : h.trap t = s.hart.trap t) (kind unit hart ctx addr syn : Nat) :
    (({ s with hart := h } : State).machineCheck kind unit hart ctx addr syn).trap t = (s.machineCheck kind unit hart ctx addr syn).trap t := by
  unfold State.machineCheck
  by_cases hr : s.mcRing = 0
  · simp only [hr, if_true, State.trap, State.upd, ht]
  · simp only [hr, if_false]
    exact congrArg (fun u : State => { u with msix := 0 :: s.msix }) (State.perform_trap (s := { s with mcHead := s.mcHead + 1 }) ht _ _)

/-- Of the hart that found an error the record has the number, context and job (R307, R308). -/
theorem State.eccRecord_trap (hid : h.id = s.hart.id) (hctx : h.ctxid = s.hart.ctxid) (hjob : h.jobid = s.hart.jobid)
    (ht : h.trap t = s.hart.trap t) (unit addr : Nat) :
    (({ s with hart := h } : State).eccRecord s.hart.id unit addr).trap t = (s.eccRecord s.hart.id unit addr).trap t := by
  have own : ({ s with hart := h } : State).getHart s.hart.id = h := by rw [State.getHart, if_pos hid]
  rw [State.eccRecord, State.eccRecord, own, State.getHart_own, hctx, hjob]
  exact congrArg (·.markJob s.hart.jobid) (State.machineCheck_trap (s := s.took) ht _ _ _ _ _ _)

end Trap

/-- A trap of an instruction that begins finds the hart as it was before the instruction. -/
theorem Hdr.starts_trap (hd : Hdr) (h : Hart) (c : Option Convoy) (t : Trap) : (hd.starts { h with convoy := c }).trap t = h.trap t := by
  unfold Hdr.starts Hart.begin_
  split
  · split <;> rfl
  · rfl

/-- Beginning an instruction leaves the number, context and job of the hart. -/
theorem Hdr.starts_owner (hd : Hdr) (h : Hart) : (hd.starts h).id = h.id ∧ (hd.starts h).ctxid = h.ctxid ∧ (hd.starts h).jobid = h.jobid := by
  unfold Hdr.starts Hart.begin_
  split
  · split <;> exact ⟨rfl, rfl, rfl⟩
  · exact ⟨rfl, rfl, rfl⟩

/-- An instruction that reads a register with an uncorrectable error as it begins traps ECC with the record of that error, and does nothing else (R140, R307). -/
theorem runInstr_ecc {hd : Hdr} {s : State} {f : State → Except Trap Eff} {c : Nat} (hc : hd.check s = none) (hn : s.hart.cur = [])
    (hb : hd.badSource s.hart = some c) :
    runInstr hd s f = .next ((s.eccRecord s.hart.id (256 * dieOf s.hart.id) (8 * (c % 512))).trap ⟨0x0C, 0⟩) := by
  obtain ⟨hid, hctx, hjob⟩ := hd.starts_owner { s.hart with convoy := hd.convoy s.hart.convoy }
  rw [runInstr_bad hd s f c hc hn hb]
  show Host.Outcome.next (State.trap (State.eccRecord _ (hd.starts { s.hart with convoy := hd.convoy s.hart.convoy }).id
    (256 * dieOf (hd.starts { s.hart with convoy := hd.convoy s.hart.convoy }).id) _) _) = _
  rw [hid]
  exact congrArg Host.Outcome.next (State.eccRecord_trap hid hctx hjob (hd.starts_trap s.hart _ _) _ _)

/-- The s registers and the masks, by number, whose errors an instruction finds as it begins (Tables 1-4, 1-6, 1-8). -/
def Hdr.sources (hd : Hdr) : List Nat × List Nat := if hd.unit.isSome then vectorReads hd.word hd.body else (hd.reads.map (·.toNat), [])

theorem Hdr.sources_scalar {hd : Hdr} (hu : hd.unit = none) : hd.sources = (hd.reads.map (·.toNat), []) := by rw [Hdr.sources, hu]; rfl

theorem Hdr.sources_unit {hd : Hdr} (hu : hd.unit.isSome = true) : hd.sources = vectorReads hd.word hd.body := if_pos hu

/-- Where one codeword of a hart is bad, an instruction finds it that reads its s register, or its mask at bits below VL (R140). -/
theorem Hdr.badSource_single {hd : Hdr} {h : Hart} {c : Nat} (hb : h.bad = [c])
    (hc : (∃ r ∈ hd.sources.1, r ≠ 0 ∧ c = sCode r) ∨ (∃ k ∈ hd.sources.2, k ≠ 0 ∧ c / 512 = 32 + k ∧ c % 512 * 64 < h.vl)) : hd.badSource h = some c := by
  have found : (hd.sources.1.any (fun r => r != 0 && c == sCode r) || hd.sources.2.any (fun k => k != 0 && c / 512 == 32 + k && decide (c % 512 * 64 < h.vl))) = true := by
    simpa [and_assoc] using hc
  unfold Hdr.badSource
  rw [hb]
  refine List.find?_cons_of_pos ?_
  show ((hd.sources.1.any _ || hd.sources.2.any _) || _) = true
  rw [found, Bool.true_or]

/-- An instruction that reads s[a], of which the codeword is bad, traps ECC. -/
theorem runInstr_ecc_sreg {hd : Hdr} {s : State} {f : State → Except Trap Eff} {a : Reg5} (hc : hd.check s = none) (ha : a.toNat ∈ hd.sources.1)
    (hn : s.hart.cur = []) (h0 : a ≠ 0) (hb : s.hart.bad = [sCode a.toNat]) :
    runInstr hd s f = .next ((s.eccRecord s.hart.id (256 * dieOf s.hart.id) 0).trap ⟨0x0C, 0⟩) := by
  have ha0 : a.toNat ≠ 0 := fun e => h0 (BitVec.eq_of_toNat_eq e)
  rw [runInstr_ecc hc hn (Hdr.badSource_single hb (.inl ⟨_, ha, ha0, rfl⟩)), sCode, Nat.mul_mod_right]

/-- An instruction that reads mask m, of which codeword k is bad and holds bits below VL, traps ECC. -/
theorem runInstr_ecc_mask {hd : Hdr} {s : State} {f : State → Except Trap Eff} {m : Reg3} {k : Nat} (hc : hd.check s = none) (hm : m.toNat ∈ hd.sources.2)
    (hn : s.hart.cur = []) (h0 : m ≠ 0) (hk : k < 512) (hvl : k * 64 < s.hart.vl) (hb : s.hart.bad = [512 * (32 + m.toNat) + k]) :
    runInstr hd s f = .next ((s.eccRecord s.hart.id (256 * dieOf s.hart.id) (8 * k)).trap ⟨0x0C, 0⟩) := by
  have hm0 : m.toNat ≠ 0 := fun e => h0 (BitVec.eq_of_toNat_eq e)
  have hmod : (512 * (32 + m.toNat) + k) % 512 = k := by omega
  rw [runInstr_ecc hc hn (Hdr.badSource_single hb (.inr ⟨_, hm, hm0, by omega, by omega⟩)), hmod]

/-- An instruction of a unit class passes every check of its header where the hart owns the vector state and the convoy has room: errors in registers come later (log 19). -/
theorem Hdr.check_room {hd : Hdr} {s : State} {u : UnitClass} {j : BitVec 1} (hu : hd.unit = some u) (hj : hd.j = (j == 1)) (h7 : hd.bad07 = false)
    (hb : hd.bad0B = false) (hp : hd.priv = false) (ho : s.hart.owns = true) (hr : s.hart.room u j = true) : hd.check s = none := by
  have hm : ({ s.hart with bad := [] } : Hart).mayJoin u j = true := by
    show (s.hart.owns && s.hart.room u j && true) = true
    simp [ho, hr]
  exact hd.check_unit { s with hart := { s.hart with bad := [] } } u j hu hj h7 hb hp hm

/-! ### System instructions that trap (R35, R90, R203) -/

/-- A `setc` of a reserved rounding code (R35). -/
theorem exec_setc_rounding {s : State} (a : Reg5) (hs : s.hart.sound = true) (hrm : 5 ≤ (s.gs a).toNat / 32 % 8) :
    exec (.setc a 0x005) s = .next (s.trap ⟨0x01, BitVec.ofNat 64 ((wSetc a 0x005).toNat * 2 ^ 32 + 3)⟩) := by
  have bad : (decide ((0x005 : BitVec 16) = 0x005) && decide (5 ≤ (s.gs a).toNat / 32 % 8)) = true := by simpa using hrm
  have tval : illTval 0x03 (wSetc a 0x005) 0 = BitVec.ofNat 64 ((wSetc a 0x005).toNat * 2 ^ 32 + 3) := by simp [illTval]
  rw [← tval]
  show execSetc a 0x005 s = _
  unfold execSetc
  exact runInstr_scalar_error rfl (Hdr.check_scalar _ s rfl rfl rfl rfl rfl) (Hdr.badSource_sound _ _ hs) (if_pos bad)

/-- A `fence` of system scope with a ticket outstanding (R90). -/
theorem exec_fence_ticket {s : State} (h : 0 < s.outstanding s.hart) :
    exec (.fence 4) s = .next (s.trap ⟨0x07, BitVec.ofNat 64 (s.outstanding s.hart)⟩) := by
  have bad : (decide ((4 : BitVec 3) = 4) && decide (0 < s.outstanding s.hart)) = true := by simpa using h
  show execFence 4 s = _
  unfold execFence
  exact runInstr_scalar_error rfl (Hdr.check_scalar _ s rfl rfl rfl rfl rfl) (Hdr.badSource_nil _ _ rfl rfl) (if_pos bad)

/-- The barrier's fault is seen as a wait begins (R201). -/
theorem State.barWait_fault {s : State} (h : (s.getBar (clusterOf s.hart.id) s.hart.bar).fault = true) : s.barWait = some true := by
  unfold State.barWait
  simp only [h, if_true]

/-- Bits set outside a mask are not seen under it. -/
theorem or_and_of_disjoint {n : Nat} (x : BitVec n) {y k : BitVec n} (h : y &&& k = 0) : ((x &&& k) ||| y) &&& k = x &&& k := by
  ext i hi
  have hi0 : (y[i] && k[i]) = false := by rw [← BitVec.getElem_and, h]; exact BitVec.getElem_zero hi
  rw [BitVec.getElem_and, BitVec.getElem_or, BitVec.getElem_and, Bool.and_or_distrib_right, hi0, Bool.and_assoc, Bool.and_self, Bool.or_false]

/-- GARR set, whatever it was before. -/
theorem Hart.setGarr_setGarr (h : Hart) (b c : Bool) : (h.setGarr b).setGarr c = h.setGarr c := by
  have hb : ((if b then 0x200 else 0 : BitVec 10) &&& 0x1FF) = 0 := by cases b <;> rfl
  unfold Hart.setGarr
  dsimp only
  rw [or_and_of_disjoint _ hb]

/-- A `gbar` whose wait returns 1: it has slept and is answered so, or a barrier at which it has arrived is faulty (R203). -/
theorem exec_gbar_fault {s : State} (a : Reg5) (hs : s.hart.sound = true)
    (h : s.hart.resume = .barrier true ∨ (s.hart.resume = .none ∧ s.hart.garr = true ∧ (s.getBar (clusterOf s.hart.id) s.hart.bar).fault = true)) :
    exec (.gbar a) s = .next ((s.upd (·.setGarr true)).trap ⟨0x0E, BitVec.ofNat 64 s.hart.bar⟩) := by
  have check : Hdr.check { word := wGbar a, reads := [a], serial := true } s = none := Hdr.check_scalar _ s rfl rfl rfl rfl rfl
  show execGbar a s = _
  unfold execGbar
  rcases h with hr | ⟨hr, hg, hf⟩
  · have resume : (s.checked true [a]).hart.resume = .barrier true := hr
    exact (runInstr_scalar_ok (e := (s.checked true [a]).gbarEnd true) rfl check (Hdr.badSource_sound _ _ hs) (by simp only [resume])).trans rfl
  · have resume : (s.checked true [a]).hart.resume = .none := hr
    have garr : (s.checked true [a]).hart.garr = true := hg
    have fault : ((s.checked true [a]).upd (·.setGarr false)).barWait = some true := State.barWait_fault hf
    refine (runInstr_scalar_ok (e := ((s.checked true [a]).upd (·.setGarr false)).gbarEnd true) rfl check (Hdr.badSource_sound _ _ hs) ?_).trans ?_
    · simp only [resume, garr, fault, Bool.not_true, Bool.false_and, Bool.false_eq_true, if_false, if_true]
    · show Host.Outcome.next (State.trap { s with hart := (Hart.setGarr _ false).setGarr true } _) = _
      rw [Hart.setGarr_setGarr]
      rfl

/-- Settles O32: each trap by the check, the effect or the register read that makes it. -/
theorem systemInstructionsTrap : Obligations.SystemInstructionsTrap := by
  intro s a b d m x j o k
  refine ⟨fun hs hrm => exec_setc_rounding a hs hrm, fun ht => exec_fence_ticket ht, fun hs h => exec_gbar_fault a hs h, ?_⟩
  intro hcur ecc
  refine ⟨fun ha hbad => ?_, fun hm ho hr hk hvl hbad => ?_⟩
  · have scalar : ∀ {w : IWord} {rs : List Reg5} {f : State → Except Trap Eff}, a ∈ rs → runInstr { word := w, reads := rs } s f = ecc 0 := fun hmem =>
      runInstr_ecc_sreg (Hdr.check_scalar _ s rfl rfl rfl rfl rfl) (by rw [Hdr.sources_scalar rfl]; exact List.mem_map_of_mem hmem) hcur ha hbad
    refine ⟨?_, ?_, ?_, ?_, fun ho hr => ?_⟩
    · show execAdd d a b s = _
      unfold execAdd aluOp scalarReg scalarOp
      exact scalar (by simp)
    · show execAddi d a o s = _
      unfold execAddi immOp scalarReg scalarOp
      exact scalar (by simp)
    · show execBeq a b o s = _
      unfold execBeq branchOp
      exact scalar (by simp)
    · show execLdD d a (o.truncate 13) s = _
      unfold execLdD loadOp
      exact scalar (by simp)
    · show execVaddVs d b a m x j s = _
      unfold execVaddVs vintOp vecMap vecRun
      exact runInstr_ecc_sreg (Hdr.check_room rfl rfl rfl rfl rfl ho hr)
        (by rw [Hdr.sources_unit rfl, vhdr, Words.vectorReads_wVaddVs]; exact List.mem_singleton_self _) hcur ha hbad
  · show execVaddVv d a b m x j s = _
    unfold execVaddVv vintOp vecMap vecRun
    exact runInstr_ecc_mask (Hdr.check_room rfl rfl rfl rfl rfl ho hr)
      (by rw [Hdr.sources_unit rfl, vhdr, Words.vectorReads_wVaddVv]; exact List.mem_singleton_self _) hcur hm hk hvl hbad

end Sys2Proof.Machine
end

section
/-! PROOFS. The results of the integer instructions (R67 to R73). -/

namespace Sys2Proof.Machine

open Sys2Proof

/-! ### Words as integers (R67) -/

theorem add_eq_ofNat (x y : Word) : x + y = BitVec.ofNat 64 (x.toNat + y.toNat) := BitVec.eq_of_toNat_eq (by simp)

theorem sub_eq_ofInt (x y : Word) : x - y = BitVec.ofInt 64 (x.toInt - y.toInt) := BitVec.eq_of_toInt_eq (by simp [BitVec.toInt_sub])

theorem shiftLeft_eq_ofNat (x : Word) (n : Nat) : x <<< n = BitVec.ofNat 64 (x.toNat * 2 ^ n) :=
  BitVec.eq_of_toNat_eq (by rw [BitVec.toNat_shiftLeft, Nat.shiftLeft_eq, BitVec.toNat_ofNat])

theorem shiftRight_eq_ofNat (x : Word) (n : Nat) : x >>> n = BitVec.ofNat 64 (x.toNat / 2 ^ n) := by
  rw [← Nat.shiftRight_eq_div_pow, ← BitVec.toNat_ushiftRight, BitVec.ofNat_toNat, BitVec.setWidth_eq]

theorem sshiftRight_eq_ofInt (x : Word) (n : Nat) : x.sshiftRight n = BitVec.ofInt 64 (x.toInt / 2 ^ n) := by
  have h : x.toInt / 2 ^ n = (x.sshiftRight n).toInt := by rw [BitVec.toInt_sshiftRight, Int.shiftRight_eq_div_pow]; norm_cast
  rw [h, BitVec.ofInt_toInt]

theorem boolWord_slt (x y : Word) : boolWord (x.slt y) = if x.toInt < y.toInt then 1 else 0 := by simp [boolWord, BitVec.slt]

theorem boolWord_ult (x y : Word) : boolWord (x.ult y) = if x.toNat < y.toNat then 1 else 0 := by simp [boolWord, BitVec.ult]

theorem signedMin_eq_ofInt (x y : Word) : (if x.slt y then x else y) = BitVec.ofInt 64 (min x.toInt y.toInt) := by
  rw [BitVec.slt]
  by_cases h : x.toInt < y.toInt
  · rw [if_pos (by simpa using h), min_eq_left h.le, BitVec.ofInt_toInt]
  · rw [if_neg (by simpa using h), min_eq_right (not_lt.1 h), BitVec.ofInt_toInt]

theorem signedMax_eq_ofInt (x y : Word) : (if x.slt y then y else x) = BitVec.ofInt 64 (max x.toInt y.toInt) := by
  rw [BitVec.slt]
  by_cases h : x.toInt < y.toInt
  · rw [if_pos (by simpa using h), max_eq_right h.le, BitVec.ofInt_toInt]
  · rw [if_neg (by simpa using h), max_eq_left (not_lt.1 h), BitVec.ofInt_toInt]

theorem ofNat_toNat_word (x : Word) : BitVec.ofNat 64 x.toNat = x := by rw [BitVec.ofNat_toNat, BitVec.setWidth_eq]

theorem unsignedMin_eq_ofNat (x y : Word) : (if x.ult y then x else y) = BitVec.ofNat 64 (min x.toNat y.toNat) := by
  rw [BitVec.ult]
  by_cases h : x.toNat < y.toNat
  · rw [if_pos (by simpa using h), min_eq_left h.le, ofNat_toNat_word]
  · rw [if_neg (by simpa using h), min_eq_right (not_lt.1 h), ofNat_toNat_word]

theorem unsignedMax_eq_ofNat (x y : Word) : (if x.ult y then y else x) = BitVec.ofNat 64 (max x.toNat y.toNat) := by
  rw [BitVec.ult]
  by_cases h : x.toNat < y.toNat
  · rw [if_pos (by simpa using h), max_eq_right h.le, ofNat_toNat_word]
  · rw [if_neg (by simpa using h), max_eq_left (not_lt.1 h), ofNat_toNat_word]

theorem add_shiftLeft_eq_ofNat (x y : Word) (n : Nat) : x + (y <<< n) = BitVec.ofNat 64 (x.toNat + y.toNat * 2 ^ n) := by
  rw [shiftLeft_eq_ofNat, add_eq_ofNat, BitVec.toNat_ofNat]
  exact BitVec.eq_of_toNat_eq (by simp)

/-- Settles O13: each operation of Table 3-1 as an operation on integers modulo 2^64. -/
theorem registerArithmeticResults : Obligations.RegisterArithmeticResults := by
  intro s d a b h hs x y n w
  have alu : ∀ {i : Instr} {o : IWord} {f : Word → Word → Word} {v : Word}, exec i s = aluOp o d a b f s → f x y = v → exec i s = w v := fun hi hv =>
    hi.trans ((aluOp_next _ d a b _ s hs).trans (congrArg w hv))
  refine ⟨?_, ?_, ?_, ?_, ?_, ?_, ?_, ?_, ?_, ?_, ?_, ?_, ?_, ?_, ?_, ?_⟩
  · exact alu (show exec _ s = execAdd d a b s from rfl) (add_eq_ofNat x y)
  · exact alu (show exec _ s = execSub d a b s from rfl) (sub_eq_ofInt x y)
  · exact alu (show exec _ s = execAnd d a b s from rfl) rfl
  · exact alu (show exec _ s = execOr d a b s from rfl) rfl
  · exact alu (show exec _ s = execXor d a b s from rfl) rfl
  · exact alu (show exec _ s = execAndn d a b s from rfl) rfl
  · exact alu (show exec _ s = execSll d a b s from rfl) (shiftLeft_eq_ofNat x n)
  · exact alu (show exec _ s = execSrl d a b s from rfl) (shiftRight_eq_ofNat x n)
  · exact alu (show exec _ s = execSra d a b s from rfl) (sshiftRight_eq_ofInt x n)
  · exact alu (show exec _ s = execSlt d a b s from rfl) (boolWord_slt x y)
  · exact alu (show exec _ s = execSltu d a b s from rfl) (boolWord_ult x y)
  · exact alu (show exec _ s = execMin d a b s from rfl) (signedMin_eq_ofInt x y)
  · exact alu (show exec _ s = execMax d a b s from rfl) (signedMax_eq_ofInt x y)
  · exact alu (show exec _ s = execMinu d a b s from rfl) (unsignedMin_eq_ofNat x y)
  · exact alu (show exec _ s = execMaxu d a b s from rfl) (unsignedMax_eq_ofNat x y)
  · exact alu (show exec _ s = execAdds d a b h s from rfl) (add_shiftLeft_eq_ofNat x y h.toNat)

end Sys2Proof.Machine
end

section
/-! PROOFS. The results of the integer instructions with an immediate, products, quotients, counts and extensions (R68 to R73). -/

namespace Sys2Proof.Machine

open Sys2Proof

/-! ### Immediates (R12, R68 to R70) -/

theorem signExtend_eq_ofInt {n : Nat} (i : BitVec n) : (i.signExtend 64 : Word) = BitVec.ofInt 64 i.toInt := rfl

theorem add_ofInt (x : Word) (k : Int) : x + BitVec.ofInt 64 k = BitVec.ofInt 64 (x.toInt + k) := by rw [BitVec.ofInt_add, BitVec.ofInt_toInt]

theorem shiftLeft_ofInt (k : Int) (n : Nat) : (BitVec.ofInt 64 k : Word) <<< n = BitVec.ofInt 64 (k * 2 ^ n) := by
  rw [BitVec.shiftLeft_eq_mul_twoPow, BitVec.ofInt_mul]
  congr 1
  exact BitVec.eq_of_toNat_eq (by simp [BitVec.toNat_twoPow, BitVec.toNat_ofInt]; norm_cast)

theorem boolWord_slt_immediate (x : Word) (i : BitVec 16) : boolWord (x.slt (i.signExtend 64)) = if x.toInt < i.toInt then 1 else 0 := by
  rw [boolWord_slt, BitVec.toInt_signExtend_of_le (by omega)]

/-- Settles O14: the immediate is its integer, of whatever width it is written. -/
theorem immediateResults : Obligations.ImmediateResults := by
  intro s d a i n u hs x k w w0
  have imm : ∀ {j : Instr} {o : IWord} {f : Word → Word → Word} {v : Word}, exec j s = immOp o d a i f s → f x k = v → exec j s = w v := fun hj hv =>
    hj.trans ((immOp_next _ d a i _ s hs).trans (congrArg w hv))
  have shift : ∀ {j : Instr} {o : IWord} {f : Word → Nat → Word} {v : Word}, exec j s = shiftOp o d a n f s → f x n.toNat = v → exec j s = w v := fun hj hv =>
    hj.trans ((shiftOp_next _ d a n _ s hs).trans (congrArg w hv))
  have upper : ∀ {j : Instr} {o : IWord} {f : Hart → Word} {v : Word}, exec j s = scalarReg { word := o } d f s → f (s.checked false []).hart = v → exec j s = w0 v :=
    fun hj hv => hj.trans ((scalarReg_next _ d _ s rfl rfl (Hdr.check_scalar _ s rfl rfl rfl rfl rfl) (Hdr.badSource_sound _ _ hs)).trans (congrArg w0 hv))
  refine ⟨?_, ?_, ?_, ?_, ?_, ?_, ?_, ?_, ?_, ?_, ?_⟩
  · exact imm (show exec _ s = execAddi d a i s from rfl) (add_ofInt x i.toInt)
  · exact imm (show exec _ s = execAndi d a i s from rfl) rfl
  · exact imm (show exec _ s = execOri d a i s from rfl) rfl
  · exact imm (show exec _ s = execXori d a i s from rfl) rfl
  · exact imm (show exec _ s = execSlti d a i s from rfl) (boolWord_slt_immediate x i)
  · exact imm (show exec _ s = execSltiu d a i s from rfl) (boolWord_ult x k)
  · exact shift (show exec _ s = execSlli d a n s from rfl) (shiftLeft_eq_ofNat x n.toNat)
  · exact shift (show exec _ s = execSrli d a n s from rfl) (shiftRight_eq_ofNat x n.toNat)
  · exact shift (show exec _ s = execSrai d a n s from rfl) (sshiftRight_eq_ofInt x n.toNat)
  · exact upper (show exec _ s = execLhi d u s from rfl) (shiftLeft_ofInt u.toInt 11)
  · exact upper (show exec _ s = execApc d u s from rfl) ((congrArg (s.hart.pc + ·) (shiftLeft_ofInt u.toInt 11)).trans (add_ofInt s.hart.pc _))

/-! ### Products, quotients and remainders (R71, R72) -/

theorem mul_eq_ofNat (x y : Word) : x * y = BitVec.ofNat 64 (x.toNat * y.toNat) := BitVec.eq_of_toNat_eq (by simp)

theorem allOnes_eq_ofInt : BitVec.allOnes 64 = BitVec.ofInt 64 (-1) := by decide

/-- Of truncating division only −2^63 by −1 leaves the signed words: it wraps to −2^63. -/
theorem divSigned_eq (x y : Word) : divSigned x y =
    if y = 0 then BitVec.ofInt 64 (-1) else if x.toInt = -2 ^ 63 ∧ y.toInt = -1 then x else BitVec.ofInt 64 (x.toInt.tdiv y.toInt) := by
  rw [divSigned, allOnes_eq_ofInt]
  by_cases h : x.toInt = -2 ^ 63 ∧ y.toInt = -1
  · have hx : x = BitVec.ofInt 64 (x.toInt.tdiv y.toInt) := by
      rw [← BitVec.ofInt_toInt (x := x), h.1, h.2]
      decide
    rw [if_pos h, ← hx]
  · rw [if_neg h]

theorem remSigned_eq (x y : Word) : remSigned x y =
    if y = 0 then x else if x.toInt = -2 ^ 63 ∧ y.toInt = -1 then 0 else BitVec.ofInt 64 (x.toInt.tmod y.toInt) := by
  rw [remSigned]
  by_cases h : x.toInt = -2 ^ 63 ∧ y.toInt = -1
  · rw [if_pos h, h.1, h.2]
    rfl
  · rw [if_neg h]

/-- Settles O15: the operations are those of the integers but for the two boundary cases of division. -/
theorem multiplyAndDivideResults : Obligations.MultiplyAndDivideResults := by
  intro s d a b hs x y w
  have alu : ∀ {i : Instr} {o : IWord} {f : Word → Word → Word} {v : Word}, exec i s = aluOp o d a b f s → f x y = v → exec i s = w v := fun hi hv =>
    hi.trans ((aluOp_next _ d a b _ s hs).trans (congrArg w hv))
  refine ⟨?_, ?_, ?_, ?_, ?_, ?_, ?_, ?_⟩
  · exact alu (show exec _ s = execMul d a b s from rfl) (mul_eq_ofNat x y)
  · exact alu (show exec _ s = execMulh d a b s from rfl) rfl
  · exact alu (show exec _ s = execMulhu d a b s from rfl) rfl
  · exact alu (show exec _ s = execMulhsu d a b s from rfl) rfl
  · exact alu (show exec _ s = execDiv d a b s from rfl) (divSigned_eq x y)
  · exact alu (show exec _ s = execDivu d a b s from rfl) (by rw [allOnes_eq_ofInt])
  · exact alu (show exec _ s = execRem d a b s from rfl) (remSigned_eq x y)
  · exact alu (show exec _ s = execRemu d a b s from rfl) rfl

/-! ### Counts, byte reversal and extensions (R73) -/

/-- The leading zeros of a word end where its highest one bit stands. -/
theorem clz64_spec (x : Word) : ∃ n : Nat, n ≤ 64 ∧ x.toNat < 2 ^ (64 - n) ∧ (n < 64 → 2 ^ (63 - n) ≤ x.toNat) ∧ clz64 x = BitVec.ofNat 64 n := by
  by_cases h : x = 0
  · exact ⟨64, le_rfl, by simp [h], fun h => absurd h (lt_irrefl _), by simp [clz64, h]⟩
  · have h0 : x.toNat ≠ 0 := fun e => h (BitVec.eq_of_toNat_eq e)
    have hlog : x.toNat.log2 < 64 := (Nat.log2_lt h0).2 x.isLt
    refine ⟨63 - x.toNat.log2, by omega, ?_, fun _ => ?_, by rw [clz64, if_neg h]⟩
    · rw [show 64 - (63 - x.toNat.log2) = x.toNat.log2 + 1 by omega]
      exact Nat.lt_log2_self
    · rw [show 63 - (63 - x.toNat.log2) = x.toNat.log2 by omega]
      exact Nat.log2_self_le h0

/-- Trailing zeros among the low n bits end at a one bit, or are all n. -/
theorem ctzBits_spec : ∀ n x : Nat, ctzBits n x ≤ n ∧ (∀ k < ctzBits n x, x.testBit k = false) ∧ (ctzBits n x < n → x.testBit (ctzBits n x) = true)
  | 0, x => by simp [ctzBits]
  | n + 1, x => by
    obtain ⟨hle, hzero, hone⟩ := ctzBits_spec n (x / 2)
    by_cases h : x % 2 = 1
    · simp [ctzBits, h]
    · rw [ctzBits, if_neg h, Nat.add_comm 1]
      refine ⟨by omega, fun k hk => ?_, fun hk => ?_⟩
      · cases k with
        | zero => simpa using h
        | succ k => rw [Nat.testBit_succ]; exact hzero k (by omega)
      · rw [Nat.testBit_succ]
        exact hone (by omega)

/-- One bits among the low n bits, counted from the lowest. -/
theorem popBits_eq : ∀ n x : Nat, popBits n x = (List.range n).countP x.testBit
  | 0, _ => rfl
  | n + 1, x => by
    have shift : x.testBit ∘ Nat.succ = (x / 2).testBit := funext fun k => Nat.testBit_succ x k
    rw [popBits, popBits_eq n, List.range_succ_eq_map, List.countP_cons, List.countP_map, shift, Nat.testBit_zero, Nat.add_comm]
    rcases Nat.mod_two_eq_zero_or_one x with h | h <;> simp [h]

/-- Byte k of the reversed bytes is byte n − 1 − k. -/
theorem revBytes_spec : ∀ n x : Nat, revBytes n x < 256 ^ n ∧ ∀ k < n, revBytes n x / 256 ^ k % 256 = x / 256 ^ (n - 1 - k) % 256
  | 0, _ => ⟨by simp [revBytes], fun _ h => absurd h (Nat.not_lt_zero _)⟩
  | n + 1, x => by
    obtain ⟨hlt, hbyte⟩ := revBytes_spec n (x / 256)
    have hp : 0 < 256 ^ n := by positivity
    refine ⟨?_, fun k hk => ?_⟩
    · have := Nat.mod_lt x (show 256 > 0 by omega)
      rw [revBytes, pow_succ]
      nlinarith
    · rw [revBytes]
      rcases Nat.lt_succ_iff_lt_or_eq.1 hk with hk | rfl
      · have split : 256 ^ n = 256 ^ k * (256 * 256 ^ (n - 1 - k)) := by rw [← pow_succ', ← pow_add]; congr 1; omega
        rw [split, show x % 256 * (256 ^ k * (256 * 256 ^ (n - 1 - k))) = 256 ^ k * (256 * (x % 256 * 256 ^ (n - 1 - k))) by ring,
          Nat.mul_add_div (by positivity), Nat.mul_add_mod, hbyte k hk, Nat.div_div_eq_div_mul, ← pow_succ', show n - 1 - k + 1 = n + 1 - 1 - k by omega]
      · rw [Nat.mul_comm, Nat.mul_add_div hp, Nat.div_eq_of_lt hlt]
        simp

theorem rev8Word_byte (x : Word) : ∀ k < 8, (rev8Word x).toNat / 2 ^ (8 * k) % 256 = x.toNat / 2 ^ (8 * (7 - k)) % 256 := by
  obtain ⟨hlt, hbyte⟩ := revBytes_spec 8 x.toNat
  intro k hk
  rw [rev8Word, BitVec.toNat_ofNat, Nat.mod_eq_of_lt (a := revBytes 8 x.toNat) (by omega), pow_mul, pow_mul]
  exact hbyte k hk

/-- The low bits of a word, sign-extended. -/
theorem signExtend_setWidth (x : Word) {n : Nat} (h : n ≤ 64) : ((x.setWidth n).signExtend 64 : Word) = BitVec.ofInt 64 (x.toInt.bmod (2 ^ n)) := by
  rw [signExtend_eq_ofInt, BitVec.toInt_setWidth, BitVec.toInt_eq_toNat_bmod, Int.bmod_bmod_of_dvd (by exact_mod_cast pow_dvd_pow 2 h)]

theorem setWidth_setWidth_eq_ofNat (x : Word) : ((x.setWidth 32).setWidth 64 : Word) = BitVec.ofNat 64 (x.toNat % 2 ^ 32) :=
  BitVec.eq_of_toNat_eq (by simp)

/-- Settles O16: each count or extension by what it says of the bits of the word. -/
theorem bitInstructionResults : Obligations.BitInstructionResults := by
  intro s d a hs x w
  have bit : ∀ {i : Instr} {o : IWord} {f : Word → Word} {v : Word}, exec i s = bitOp o d a f s → f x = v → exec i s = w v := fun hi hv =>
    hi.trans ((bitOp_next _ d a _ s hs).trans (congrArg w hv))
  refine ⟨?_, ?_, ?_, ?_, ?_, ?_, ?_, ?_⟩
  · obtain ⟨n, hn, hlt, hle, hv⟩ := clz64_spec x
    exact ⟨n, hn, hlt, hle, bit (show exec _ s = execClz d a s from rfl) hv⟩
  · obtain ⟨hn, hzero, hone⟩ := ctzBits_spec 64 x.toNat
    exact ⟨_, hn, hzero, hone, bit (show exec _ s = execCtz d a s from rfl) rfl⟩
  · exact bit (show exec _ s = execPop d a s from rfl) (congrArg (BitVec.ofNat 64) (popBits_eq 64 x.toNat))
  · exact ⟨_, rev8Word_byte x, bit (show exec _ s = execRev8 d a s from rfl) rfl⟩
  · exact bit (show exec _ s = execSextb d a s from rfl) (signExtend_setWidth x (by omega))
  · exact bit (show exec _ s = execSexth d a s from rfl) (signExtend_setWidth x (by omega))
  · exact bit (show exec _ s = execSextw d a s from rfl) (signExtend_setWidth x (by omega))
  · exact bit (show exec _ s = execZextw d a s from rfl) (setWidth_setWidth_eq_ofNat x)

end Sys2Proof.Machine
end

section
/-! PROOFS. Control transfer (R12, R81 to R83), scalar f32 results (R52 to R57, R84, R85), and traps and their return (R24, R36, R86, R87). -/

namespace Sys2Proof.Machine

open Sys2Proof

/-! ### Branches, jumps and the strip loop (R12, R81 to R83) -/

/-- A word offset from an address. -/
theorem target_eq_ofInt {n : Nat} (pc : Word) (o : BitVec n) : target pc o = BitVec.ofInt 64 (pc.toInt + 4 * o.toInt) := by
  rw [target, signExtend_eq_ofInt, shiftLeft_ofInt, add_ofInt, Int.mul_comm]
  rfl

theorem sub_ofNat (x : Word) (n : Nat) : x - BitVec.ofNat 64 n = BitVec.ofInt 64 (x.toInt - n) := by
  rw [← BitVec.ofInt_natCast, BitVec.sub_eq_add_neg, ← BitVec.ofInt_neg, add_ofInt, Int.sub_eq_add_neg]

/-- A scalar instruction that writes s[d], and jumps or falls through. -/
theorem runInstr_scalar_jump {hd : Hdr} {s : State} {f : State → Except Trap Eff} (d : Reg5) (x pc : Word) (jump : Bool) (hu : hd.unit = none) (hl : hd.body = none)
    (hc : hd.check s = none) (hb : hd.badSource s.hart = none)
    (hf : f (s.checked hd.serial hd.reads) =
      .ok (if jump then .jump ((s.checked hd.serial hd.reads).ps d x) pc else .next ((s.checked hd.serial hd.reads).ps d x))) :
    runInstr hd s f = .next { s with hart := (s.hart.past (if jump then pc else s.hart.pc + 4) (s.hart.convoyPast hd.serial hd.reads)).ps d x } := by
  have written : ((s.checked hd.serial hd.reads).ps d x).hart = { s.hart.ps d x with convoy := s.hart.convoyPast hd.serial hd.reads } := Hart.ps_convoyed s.hart _ d x
  rw [runInstr_scalar_ok hu hc hb hf, ← Hart.ps_past]
  cases jump
  · simp only [Bool.false_eq_true, if_false, Hdr.finish, Hdr.len, hu, hl, State.upd, written, Hart.ps_pc]
    rfl
  · simp only [if_true, Hdr.finish, hu, State.upd, written]
    rfl

/-- `jalr` jumps to an aligned target (R82). -/
theorem exec_jalr_aligned {s : State} (d a : Reg5) (o : BitVec 16) (hs : s.hart.sound = true) (ht : (s.gs a + o.signExtend 64).toNat % 4 = 0) :
    exec (.jalr d a o) s = .next { s with hart := (s.hart.past (s.gs a + o.signExtend 64) (s.hart.convoyPast false [a])).ps d (s.hart.pc + 4) } := by
  show execJalr d a o s = _
  exact runInstr_scalar_jump d (s.hart.pc + 4) (s.gs a + o.signExtend 64) true rfl rfl (Hdr.check_scalar _ s rfl rfl rfl rfl rfl) (Hdr.badSource_sound _ _ hs) (if_pos ht)

/-- `jalr` to any other target traps AL (R82). -/
theorem exec_jalr_misaligned {s : State} (d a : Reg5) (o : BitVec 16) (hs : s.hart.sound = true) (ht : (s.gs a + o.signExtend 64).toNat % 4 ≠ 0) :
    exec (.jalr d a o) s = .next (s.trap ⟨0x05, s.gs a + o.signExtend 64⟩) := by
  show execJalr d a o s = _
  exact runInstr_scalar_error rfl (Hdr.check_scalar _ s rfl rfl rfl rfl rfl) (Hdr.badSource_sound _ _ hs) (if_neg ht)

/-- `vloop` branches while the difference is positive (R83). -/
theorem exec_vloop {s : State} {x : Word} (a : Reg5) (o : BitVec 16) (hs : s.hart.sound = true) (ho : s.hart.owns = true) (hx : s.gs a - BitVec.ofNat 64 s.hart.vl = x) :
    exec (.vloop a o) s =
      .next { s with hart := (s.hart.past (if 0 < x.toInt then target s.hart.pc o else s.hart.pc + 4) (s.hart.convoyPast false [a])).ps a x } := by
  have positive : (BitVec.slt 0 x = true) = (0 < x.toInt) := by simp [BitVec.slt]
  subst hx
  show execVloop a o s = _
  simp only [← positive]
  exact runInstr_scalar_jump a (s.gs a - BitVec.ofNat 64 s.hart.vl) (target s.hart.pc o) (BitVec.slt 0 (s.gs a - BitVec.ofNat 64 s.hart.vl)) rfl rfl
    (Hdr.check_system _ s rfl rfl rfl (fun h => Bool.noConfusion h) (fun _ => ho)) (Hdr.badSource_sound _ _ hs) rfl

/-- Settles O17: each condition as one on integers, and what the jump writes. -/
theorem controlTransferResults : Obligations.ControlTransferResults := by
  intro s d a b o u hs x y to_ br
  have branch : ∀ {i : Instr} {w : IWord} {f : Word → Word → Bool} {c : Bool}, exec i s = branchOp w a b o f s → f x y = c → exec i s = br c := fun hi hc => by
    rw [hi, branchOp_next _ a b o _ s hs, target_eq_ofInt]
    exact congrArg br hc
  have ge : ∀ {p q : Prop} [Decidable p] [Decidable q], (¬p ↔ q) → (!decide p) = decide q := fun h => by rw [← decide_not]; exact decide_eq_decide.2 h
  refine ⟨?_, ?_, ?_, ?_, ?_, ?_, ?_, ?_, fun ho => ?_⟩
  · exact branch (show exec _ s = execBeq a b o s from rfl) rfl
  · exact branch (show exec _ s = execBne a b o s from rfl) (ge Iff.rfl)
  · exact branch (show exec _ s = execBlt a b o s from rfl) rfl
  · exact branch (show exec _ s = execBge a b o s from rfl) (ge not_lt)
  · exact branch (show exec _ s = execBltu a b o s from rfl) rfl
  · exact branch (show exec _ s = execBgeu a b o s from rfl) (ge not_lt)
  · show execJal d u s = _
    rw [← target_eq_ofInt]
    exact runInstr_scalar_jump d (s.hart.pc + 4) (target s.hart.pc u) true rfl rfl (Hdr.check_scalar _ s rfl rfl rfl rfl rfl) (Hdr.badSource_sound _ _ hs) rfl
  · have ht : BitVec.ofInt 64 (x.toInt + o.toInt) = s.gs a + o.signExtend 64 := (add_ofInt x o.toInt).symm
    rw [ht]
    exact ⟨exec_jalr_aligned d a o hs, exec_jalr_misaligned d a o hs⟩
  · rw [← target_eq_ofInt]
    exact exec_vloop a o hs ho (sub_ofNat x s.hart.vl)

/-! ### Scalar f32 results (R52 to R57, R84, R85) -/

/-- Settles O18: the meaning of each instruction is the operation of `fpOp` on what the hart's registers and FCSR hold. -/
theorem scalarFloatResults : Obligations.ScalarFloatResults := by
  intro s d a b r hs rm x y z w rounded invalid
  have fp : ∀ {i : Instr} {o : IWord} {rs : List Reg5} {f : Hart → Nat × Exc}, exec i s = fpOp o rs d f s → (∀ c : Option Convoy, f { s.hart with convoy := c } = f s.hart) →
      exec i s = w rs (f s.hart).1 (f s.hart).2 := fun hi hf => hi.trans (fpOp_next _ _ d _ s hs hf)
  refine ⟨?_, ?_, ?_, ?_, ?_, ?_, ?_, ?_, ?_, ?_, ?_, ?_, ?_, ?_, ?_, ?_, ?_⟩
  · exact fp (show exec _ s = execFadd d a b r s from rfl) (fun _ => rfl)
  · exact fp (show exec _ s = execFsub d a b r s from rfl) (fun _ => rfl)
  · exact fp (show exec _ s = execFmul d a b r s from rfl) (fun _ => rfl)
  · exact fp (show exec _ s = execFdiv d a b r s from rfl) (fun _ => rfl)
  · exact fp (show exec _ s = execFsqrt d a r s from rfl) (fun _ => rfl)
  · exact fp (show exec _ s = execFma d a b r s from rfl) (fun _ => rfl)
  · exact fp (show exec _ s = execFmin d a b r s from rfl) (fun _ => rfl)
  · exact fp (show exec _ s = execFmax d a b r s from rfl) (fun _ => rfl)
  · exact fp (show exec _ s = execFeq d a b r s from rfl) (fun _ => rfl)
  · exact fp (show exec _ s = execFlt d a b r s from rfl) (fun _ => rfl)
  · exact fp (show exec _ s = execFle d a b r s from rfl) (fun _ => rfl)
  · exact fp (show exec _ s = execFcvtWS d a r s from rfl) (fun _ => rfl)
  · exact fp (show exec _ s = execFcvtSW d a r s from rfl) (fun _ => rfl)
  · exact fp (show exec _ s = execFcvtBfS d a r s from rfl) (fun _ => rfl)
  · exact fp (show exec _ s = execFcvtSBf d a r s from rfl) (fun _ => rfl)
  · exact fp (show exec _ s = execFln d a r s from rfl) (fun _ => rfl)
  · exact fp (show exec _ s = execFexp d a r s from rfl) (fun _ => rfl)

/-! ### Traps and their return (R24, R36, R82, R86, R87) -/

/-- Settles O10: each takes its trap in the state as it was. -/
theorem trapsAreTaken : Obligations.TrapsAreTaken := by
  intro s sub w pos addr took
  have trap : ∀ {i : Instr} {o : IWord} {t : Trap}, exec i s = runInstr { word := o } s (fun _ => .error t) → exec i s = .next (s.trap t) := fun hi =>
    hi.trans (runInstr_scalar_error rfl (Hdr.check_scalar _ s rfl rfl rfl rfl rfl) (Hdr.badSource_nil _ _ rfl rfl) rfl)
  exact ⟨trap (show exec _ s = execSys s from rfl), trap (show exec _ s = execBrk s from rfl), fun _ => rfl, rfl⟩

/-- Settles O11: a `tret` in supervisor mode passes its checks and is `Hart.tret`. -/
theorem tretReturns : Obligations.TretReturns := by
  intro s hsuper st
  have passes : Hdr.check { word := wTret, serial := true, priv := true } s = none := Hdr.check_system _ s rfl rfl rfl (fun _ => hsuper) (fun h => Bool.noConfusion h)
  show execTret s = _
  rw [execTret, passes]
  rfl

end Sys2Proof.Machine
end

section
/-! PROOFS. Alignment of scalar accesses (R76, R78, R89, R315). -/

namespace Sys2Proof.Machine

open Sys2Proof

/-! ### Alignment (R76, R78, R89, R315) -/

theorem scalarAligned_error {ea : Word} {n : Nat} (h : ea.toNat % n ≠ 0) : scalarAligned ea n = .error ⟨0x05, ea⟩ := if_neg (by simpa using h)

theorem scalarAligned_ok {ea : Word} {n : Nat} (h : ea.toNat % n = 0) : scalarAligned ea n = .ok () := if_pos (by simpa using h)

theorem Hart.ea_eq_ofInt (h : Hart) (a : Reg5) (o : BitVec 13) : h.ea a o = BitVec.ofInt 64 ((h.gs a).toInt + o.toInt) := add_ofInt (h.gs a) o.toInt

section
variable {s : State} {n : Nat} (hs : s.hart.sound = true)
include hs

/-- A scalar instruction that reads registers and is neither privileged nor of a unit, whose own check traps. -/
theorem runInstr_reads_error {w : IWord} {rs : List Reg5} {f : State → Except Trap Eff} {t : Trap} (hf : f (s.checked false rs) = .error t) :
    runInstr { word := w, reads := rs } s f = .next (s.trap t) :=
  runInstr_scalar_error rfl (Hdr.check_scalar _ s rfl rfl rfl rfl rfl) (Hdr.badSource_sound _ _ hs) hf

/-- A scalar instruction that reads registers and is neither privileged nor of a unit, whose own checks pass. -/
theorem runInstr_reads_ok {w : IWord} {rs : List Reg5} {f : State → Except Trap Eff} {e : Eff} (hf : f (s.checked false rs) = .ok e) :
    runInstr { word := w, reads := rs } s f = .next (Hdr.finish { word := w, reads := rs } s.hart.convoy e) :=
  runInstr_scalar_ok rfl (Hdr.check_scalar _ s rfl rfl rfl rfl rfl) (Hdr.badSource_sound _ _ hs) hf

theorem loadOp_misaligned (w : IWord) (d a : Reg5) (o : BitVec 13) (signed : Bool) (h : (s.hart.ea a o).toNat % n ≠ 0) :
    loadOp w d a o n signed s = .next (s.trap ⟨0x05, s.hart.ea a o⟩) := by
  have mis : ((s.checked false [a]).hart.ea a o).toNat % n ≠ 0 := h
  exact runInstr_reads_error hs (by simp only [scalarAligned_error mis]; rfl)

theorem storeOp_misaligned (w : IWord) (v a : Reg5) (o : BitVec 13) (h : (s.hart.ea a o).toNat % n ≠ 0) :
    storeOp w v a o n s = .next (s.trap ⟨0x05, s.hart.ea a o⟩) := by
  have mis : ((s.checked false [v, a]).hart.ea a o).toNat % n ≠ 0 := h
  exact runInstr_reads_error hs (by simp only [scalarAligned_error mis]; rfl)

theorem constOp_misaligned (w : IWord) (d a : Reg5) (o : BitVec 13) (signed : Bool) (h : (s.hart.ea a o).toNat % n ≠ 0) :
    constOp w d a o n signed s = .next (s.trap ⟨0x05, s.hart.ea a o⟩) := by
  have mis : ((s.checked false [a]).hart.ea a o).toNat % n ≠ 0 := h
  exact runInstr_reads_error hs (by simp only [scalarAligned_error mis]; rfl)

theorem amoOp_misaligned (w : IWord) (code : Nat) (d a b : Reg5) (wd o : BitVec 2) (h : (s.gs a).toNat % (if wd = 2 then 4 else 8) ≠ 0) :
    amoOp w code d a b wd o s = .next (s.trap ⟨0x05, s.gs a⟩) := by
  have mis : ((s.checked false [d, a, b]).gs a).toNat % (if wd = 2 then 4 else 8) ≠ 0 := h
  exact runInstr_reads_error hs (by simp only [scalarAligned_error mis]; rfl)

theorem peerOp_misaligned (w : IWord) (rs : List Reg5) (a : Reg5) (k : BitVec 4) (e : Hart → Word → RElem) (post : State → Nat → State) (h : (s.gs a).toNat % n ≠ 0) :
    peerOp w rs a k n e post s = .next (s.trap ⟨0x05, s.gs a⟩) := by
  have mis : ((s.checked false (a :: rs)).gs a).toNat % n ≠ 0 := h
  exact runInstr_reads_error hs (by simp only [scalarAligned_error mis]; rfl)

theorem exec_mwait_misaligned (d a b : Reg5) (h : (s.gs a).toNat % 8 ≠ 0) : exec (.mwait d a b) s = .next (s.trap ⟨0x05, s.gs a⟩) := by
  have mis : ((s.checked false [a, b]).gs a).toNat % 8 ≠ 0 := h
  show execMwait d a b s = _
  exact runInstr_reads_error hs (by simp only [scalarAligned_error mis]; rfl)

end

/-- Settles O24: the alignment of the address is the first check of every scalar access. -/
theorem misalignedScalarAccessesTrap : Obligations.MisalignedScalarAccessesTrap := by
  intro s d a b o w sc q k z hs ea
  have address : ea = s.hart.ea a o := (s.hart.ea_eq_ofInt a o).symm
  clear_value ea
  subst address
  refine ⟨?_, ?_, exec_mwait_misaligned hs d a b, fun h => ⟨?_, ?_⟩⟩
  · simp only [List.forall_mem_cons, List.not_mem_nil, false_implies, implies_true, and_true]
    exact ⟨loadOp_misaligned hs _ d a o _, loadOp_misaligned hs _ d a o _, loadOp_misaligned hs _ d a o _, loadOp_misaligned hs _ d a o _, loadOp_misaligned hs _ d a o _,
      storeOp_misaligned hs _ d a o, storeOp_misaligned hs _ d a o, storeOp_misaligned hs _ d a o,
      constOp_misaligned hs _ d a o _, constOp_misaligned hs _ d a o _, constOp_misaligned hs _ d a o _, constOp_misaligned hs _ d a o _, constOp_misaligned hs _ d a o _⟩
  · simp only [List.forall_mem_cons, List.not_mem_nil, false_implies, implies_true, and_true]
    exact ⟨amoOp_misaligned hs _ _ d a b w q, amoOp_misaligned hs _ _ d a b w q, amoOp_misaligned hs _ _ d a b w q, amoOp_misaligned hs _ _ d a b w q,
      amoOp_misaligned hs _ _ d a b w q, amoOp_misaligned hs _ _ d a b w q, amoOp_misaligned hs _ _ d a b w q, amoOp_misaligned hs _ _ d a b w q,
      amoOp_misaligned hs _ _ d a b w q, amoOp_misaligned hs _ _ d a b w q⟩
  · show execPld d a k z s = _
    exact peerOp_misaligned hs _ _ a k _ _ h
  · show execPst d a k z s = _
    exact peerOp_misaligned hs _ _ a k _ _ h

end Sys2Proof.Machine
end

section
/-! PROOFS. Translation of a scalar access, and scalar stores (R74, R121, R169). -/

namespace Sys2Proof.Machine

open Sys2Proof

/-! ### Translation leaves the harts alone (R121, R225, R226) -/

@[simp] theorem State.walkCached_hart (s : State) (die : Nat) (ctx : BitVec 16) (va : Word) : (s.walkCached die ctx va).1.hart = s.hart := by
  rw [State.walkCached]
  split
  · rfl
  · split <;> rfl

@[simp] theorem State.walkInstall_hart (s : State) (core : Bool) (a : Agent) (k : AccK) (va : Word) : (s.walkInstall core a k va).1.hart = s.hart := by
  have walked := s.walkCached_hart (dieOf a.hart) a.ctx va
  rw [State.walkInstall]
  split
  next h => rw [← walked, h]
  next s' l e level h =>
    rw [h] at walked
    split
    · exact walked
    · extract_lets e' t ts s1
      show (if e' = e then s1 else s1.remember l (natLe 8 e'.toNat)).hart = s.hart
      split <;> exact walked

@[simp] theorem State.translateTab_hart (s : State) (core : Bool) (a : Agent) (k : AccK) (va : Word) : (s.translateTab core a k va).1.hart = s.hart := by
  simp only [State.translateTab]
  repeat' split
  all_goals simp [State.took]

@[simp] theorem State.translateVia_hart (s : State) (core : Bool) (a : Agent) (k : AccK) (va : Word) : (s.translateVia core a k va).1.hart = s.hart := by
  rw [State.translateVia]
  repeat' split
  all_goals simp

theorem State.hart_of_translate {s s1 : State} {a : Agent} {k : AccK} {va : Word} {p : Place} (h : s.translate a k va = (s1, p)) : s1.hart = s.hart := by
  rw [← s.translateVia_hart true a k va, ← State.translate, h]

/-! ### Stores (R74, R169) -/

/-- The low bytes of a value are those of its residue. -/
theorem natLe_mod : ∀ n x : Nat, natLe n (x % 2 ^ (8 * n)) = natLe n x
  | 0, _ => rfl
  | n + 1, x => by
    have pow : 2 ^ (8 * (n + 1)) = 256 * 2 ^ (8 * n) := by rw [Nat.mul_succ, Nat.pow_add, Nat.mul_comm]
    rw [natLe, natLe, pow, Nat.mod_mul_right_div_self, natLe_mod n]
    congr 1
    exact BitVec.eq_of_toNat_eq (by simp)

/-- A new scalar element that translation places at a location performs there. -/
theorem State.scalarElem_placed {s s1 : State} {e : RElem} {l : Nat} {st : Bool} (ha : tabGet s.hart.answers e.idx = none)
    (ht : s.translate s.hart.agent (ropAcc e.op) e.addr = (s1, .loc l st)) : s.scalarElem .translate e = s1.scalarAt s.hart.id l st e := by
  show s.scalarPlain s.hart.id e = _
  simp only [State.scalarPlain, State.placeElem, State.getHart_own, ha, ht]

theorem storeOp_placed {s s1 : State} {n l : Nat} {strict : Bool} (w : IWord) (v a : Reg5) (o : BitVec 13) (hs : s.hart.sound = true) (ha : tabGet s.hart.answers 0 = none)
    (ht : (s.checked false [v, a]).translate s.hart.agent .write (s.hart.ea a o) = (s1, .loc l strict)) (hal : (s.hart.ea a o).toNat % n = 0)
    (hc : s.copyHits s.hart.id (s.hart.ea a o) n = false) :
    storeOp w v a o n s = .next ((s1.bufferS s1.hart.id l (natLe n (s.gs v).toNat) (s.hart.ea a o)).retired 0 0) := by
  let c := s.checked false [v, a]
  let e : RElem := ⟨0, s.hart.ea a o, n, .store, (s.gs v).toNat % 2 ^ (8 * n), 0⟩
  have aligned : scalarAligned (c.hart.ea a o) n = .ok () := scalarAligned_ok hal
  have free : (c.hart.cur.isEmpty && c.copyHits c.hart.id (c.hart.ea a o) n) = false := by rw [show c.copyHits c.hart.id (c.hart.ea a o) n = false from hc, Bool.and_false]
  have elem : c.scalarElem .translate e = (s1.bufferS s1.hart.id l (natLe n (s.gs v).toNat) (s.hart.ea a o), .done 0 strict) := by
    rw [State.scalarElem_placed (s := c) (e := e) ha ht, ← State.hart_of_translate ht, ← natLe_mod]
    rfl
  refine (runInstr_reads_ok hs (e := c.scalarAccess .translate e (fun s _ => s)) ?_).trans ?_
  · show (match scalarAligned (c.hart.ea a o) n with | .error t => _ | .ok _ => _) = _
    rw [aligned]
    exact if_neg (Bool.not_eq_true _ ▸ free)
  · rw [State.scalarAccess, elem]
    rfl

/-- A store buffer with room takes the store as it is. -/
theorem State.bufferS_room {s : State} (l : Nat) (bs : List Byte) (va : Word) (h : s.hart.sbuf.length < 8) :
    s.bufferS s.hart.id l bs va =
      { s with hart := { s.hart with sbuf := s.hart.sbuf ++ [⟨s.hart.wseq, l, bs, s.hart.strip, none, va, 0, ⟨0, []⟩⟩], wseq := s.hart.wseq + 1 } } := by
  simp only [State.bufferS, State.getHart_own, if_neg (Nat.not_le.2 h)]
  exact if_pos rfl

/-- Settles O22: the bytes of the store enter the buffer of the issuing hart. -/
theorem scalarStoresEnterTheStoreBuffer : Obligations.ScalarStoresEnterTheStoreBuffer := by
  intro s s1 v a o l strict ea hs ha ht
  have address : ea = s.hart.ea a o := (s.hart.ea_eq_ofInt a o).symm
  clear_value ea
  subst address
  have store : ∀ (n : Nat) (w : IWord), (s.hart.ea a o).toNat % n = 0 → s.copyHits s.hart.id (s.hart.ea a o) n = false →
      (s1.hart.sbuf.length < 8 → storeOp w v a o n s = .next { s1 with hart := { s1.hart.past (s1.hart.pc + 4) s1.hart.convoy with
        sbuf := s1.hart.sbuf ++ [⟨s1.hart.wseq, l, natLe n (s.gs v).toNat, s1.hart.strip, none, s.hart.ea a o, 0, ⟨0, []⟩⟩], wseq := s1.hart.wseq + 1 } }) ∧
      storeOp w v a o n s = .next ((s1.bufferS s1.hart.id l (natLe n (s.gs v).toNat) (s.hart.ea a o)).retired 0 0) := fun n w hal hc => by
    have placed := storeOp_placed w v a o hs ha ht hal hc
    refine ⟨fun room => ?_, placed⟩
    rw [placed, State.bufferS_room _ _ _ room]
    rfl
  simp only [List.forall_mem_cons, List.not_mem_nil, false_implies, implies_true, and_true]
  exact ⟨store 1 _, store 2 _, store 4 _, store 8 _⟩

end Sys2Proof.Machine
end

section
/-! PROOFS. Three statements that a state fails whose records of harts do not stand under their own numbers: the loads (R74, R77) and what no instruction changes (R65). -/

namespace Sys2Proof.Machine

open Sys2Proof

/-! ### Loads placed at a location (R74, R77) -/

/-- A scalar instruction of one word that ends by writing a register. -/
theorem finish_next_ps (w : IWord) (rs : List Reg5) (d : Reg5) (t : State) (x : Word) (c : Option Convoy) :
    Hdr.finish { word := w, reads := rs } c (.next (t.ps d x)) = t.retired d x := by
  show ({ t with hart := (t.hart.ps d x).past ((t.hart.ps d x).pc + 4) (t.hart.ps d x).convoy } : State) = _
  rw [Hart.ps_past, Hart.ps_pc, Hart.ps_convoy]
  rfl

/-- A load reads what memory and the hart's own stores hold once the writes of the harts are settled. -/
theorem loadOp_placed {s s1 t : State} {n l : Nat} {strict : Bool} (w : IWord) (d a : Reg5) (o : BitVec 13) (signed : Bool) (hs : s.hart.sound = true)
    (ha : tabGet s.hart.answers 0 = none) (ht : (s.checked false [a]).translate s.hart.agent .read (s.hart.ea a o) = (s1, .loc l strict))
    (hal : (s.hart.ea a o).toNat % n = 0) (hset : s1.settleScalar s1.hart.id l n = t) (hb : t.bad l n = false) (hc : t.badCopies = []) :
    loadOp w d a o n signed s = .next (t.retired d (extend signed n (leNat (forward (t.getHart s1.hart.id).sbuf l (memRead n l t.mem))))) := by
  let c := s.checked false [a]
  let e : RElem := ⟨0, s.hart.ea a o, n, .load, 0, 0⟩
  have aligned : scalarAligned (c.hart.ea a o) n = .ok () := scalarAligned_ok hal
  have elem : c.scalarElem .translate e = (t, .done (leNat (forward (t.getHart s1.hart.id).sbuf l (memRead n l t.mem))) strict) := by
    rw [State.scalarElem_placed (s := c) (e := e) ha ht, show c.hart.id = s1.hart.id from congrArg Hart.id (State.hart_of_translate ht).symm]
    simp only [State.scalarAt, State.performMarked, State.performElem, e, if_true, hset, State.readError_clean _ _ _ hb hc]
  refine (runInstr_reads_ok hs (e := c.scalarAccess .translate e (fun s x => s.ps d (extend signed n x))) ?_).trans ?_
  · show (match scalarAligned (c.hart.ea a o) n with | .error t => _ | .ok _ => _) = _
    rw [aligned]
    rfl
  · rw [State.scalarAccess, elem]
    exact congrArg Host.Outcome.next (finish_next_ps w [a] d t _ s.hart.convoy)

/-- A constant load whose address translation places at a location reads its line. -/
theorem constOp_placed {s s1 : State} {n l : Nat} {strict : Bool} (w : IWord) (d a : Reg5) (o : BitVec 13) (signed : Bool) (hs : s.hart.sound = true) (hcur : s.hart.cur = [])
    (ht : (s.checked false [a]).translate s.hart.agent .read (s.hart.ea a o) = (s1, .loc l strict)) (hal : (s.hart.ea a o).toNat % n = 0)
    (hb : s1.bad l n = false) (hc : s1.badCopies = []) :
    constOp w d a o n signed s = .next ((s1.constRead l n).1.retired d (extend signed n (leNat (s1.constRead l n).2))) := by
  let c := s.checked false [a]
  let e : RElem := ⟨0, s.hart.ea a o, n, .load, 0, 0⟩
  have aligned : scalarAligned e.addr n = .ok () := scalarAligned_ok hal
  have place : c.placeElem c.hart.id e = (s1, .loc l strict) := by
    rw [State.placeElem, State.getHart_own]
    exact ht
  refine (runInstr_reads_ok hs (e := .next ((s1.constRead l n).1.ps d (extend signed n (leNat (s1.constRead l n).2)))) ?_).trans
    (congrArg Host.Outcome.next (finish_next_ps w [a] d _ _ s.hart.convoy))
  show (match scalarAligned e.addr n with | .error t => _ | .ok _ => if c.hart.cur ≠ [] then _ else (match c.placeElem c.hart.id e with | (s1, .loc l _) => _ | (s1, .host l _) => _ | _ => _)) = _
  rw [aligned, place]
  simp only [State.readError_clean _ _ _ hb hc]
  exact if_neg (not_not.2 hcur)

/-- A constant read takes the free values that reading its line takes, and no fewer. -/
theorem State.le_constRead_free (s : State) (l n : Nat) : (s.lineNow (l / 64)).1.free ≤ (s.constRead l n).1.free := by
  rw [State.constRead]
  extract_lets line
  split
  next s1 now read =>
    have free : (s.lineNow (l / 64)).1.free = s1.free := by rw [show s.lineNow (l / 64) = (s1, now) from read]
    rw [free]
    extract_lets since bs
    split
    · exact Nat.le_succ _
    · exact Nat.le_refl _

/-! ### Three counterexamples -/

/-- A state in which a record of a hart stands under the number of another one: hart 0's place holds a record of firmware core 1, which does not run and has a store to location 0
buffered. No run reaches it, but the statements are about every state: their premise `quietAt` looks at the record, an access at the firmware core itself. -/
def strayBuffer : State :=
  { State.reset with hart := Hart.init 4096, harts := [(0, Hart.init 4097)],
                     eweok := eweokInit.set 1 { Hart.init 4097 with sbuf := [⟨0, 0, [0], 0, none, 0, 0, ⟨0, []⟩⟩] } }

theorem strayBuffer_placed : (strayBuffer.checked false [0]).translate strayBuffer.hart.agent .read (strayBuffer.hart.ea 0 0) = (strayBuffer, .loc 0 false) := rfl

/-- The store that stands in the way may have performed or not; a free value is taken for it. -/
theorem strayBuffer_settled : (strayBuffer.settleScalar 4096 0 1).free = 1 ∧ (strayBuffer.settleScalar 4096 0 1).bad 0 1 = false ∧ (strayBuffer.settleScalar 4096 0 1).badCopies = [] := by
  have settled : strayBuffer.settleScalar 4096 0 1 = if Config.drained 0 = true then strayBuffer.took.drainS 4097 1 else strayBuffer.took := rfl
  rw [settled]
  split
  · exact ⟨rfl, rfl, rfl⟩
  · exact ⟨rfl, rfl, rfl⟩

/-- The same store stands in the way of a fill of the line. -/
theorem strayBuffer_constRead : (strayBuffer.constRead 0 1).1.free ≠ 0 := by
  have filled : (strayBuffer.lineNow 0).1 = if Config.drained 0 = true then strayBuffer.took.drainS 4097 1 else strayBuffer.took := rfl
  have before : (strayBuffer.lineNow 0).1.free = 1 := by
    rw [filled]
    split
    · rfl
    · rfl
  have grows := strayBuffer.le_constRead_free 0 1
  rw [before] at grows
  exact Nat.one_le_iff_ne_zero.1 grows

/-- Refutes O20: the load of location 0 takes a free value. -/
theorem not_scalarLoadsReadMemory : ¬ Obligations.ScalarLoadsReadMemory := by
  intro h
  obtain ⟨free, sound, copies⟩ := strayBuffer_settled
  have loaded := loadOp_placed (s := strayBuffer) (wLdB 0 0 0) 0 0 0 true rfl rfl strayBuffer_placed (Nat.mod_one _) rfl sound copies
  have claimed := h strayBuffer strayBuffer 0 0 0 0 false rfl rfl rfl (.ldB, 1, true) (List.mem_cons_self ..) rfl rfl rfl rfl
  have same := congrArg State.free (Host.Outcome.next.inj (loaded.symm.trans claimed))
  exact absurd (free.symm.trans same) (by decide)

/-- Refutes O21: the constant load of location 0 takes a free value, though no write has performed. -/
theorem not_constantLoadsReadTheirLine : ¬ Obligations.ConstantLoadsReadTheirLine := by
  intro h
  have loaded := constOp_placed (s := strayBuffer) (n := 1) (wLdcB 0 0 0) 0 0 0 true rfl rfl strayBuffer_placed (Nat.mod_one _) rfl rfl
  have claimed := (h strayBuffer strayBuffer 0 0 0 0 false rfl rfl rfl rfl rfl (.ldcB, 1, true) (List.mem_cons_self ..) rfl rfl).1 (fun ⟨w, hw, _⟩ => nomatch hw)
  exact strayBuffer_constRead (congrArg State.free (Host.Outcome.next.inj (loaded.symm.trans claimed)))

/-- A state in which a record of hart 0 stands under the number 5, with other values in its scalar registers, while hart 0 issues; hart 5 waits for semaphore 0. No run reaches it, but
the statement is about every state. -/
def strayRecord : State :=
  { State.reset with harts := [(5, { Hart.init 0 with s := Vector.replicate 32 1 })],
                     clusters := [(0, { Cluster.init with sems := Cluster.init.sems.setIfInBounds 0 ⟨true, [(5, 0)]⟩ })] }

/-- `sclr` grants the waiter, and the record under its number takes the place of the issuing hart. -/
theorem exec_sclr_strayRecord : ∃ t, exec (.sclr 0) strayRecord = .next t ∧ t.hart.s[(0 : Fin 32)] = 1 := ⟨_, rfl, rfl⟩

/-- Refutes O9, in its second clause: `sclr` changes the scalar registers of the issuing hart, s0 among them, where the record of the waiter that it grants is one of the issuing hart. -/
theorem not_whatNoInstructionChanges : ¬ Obligations.WhatNoInstructionChanges := by
  rintro ⟨-, registers, -⟩
  obtain ⟨t, cleared, one⟩ := exec_sclr_strayRecord
  have changed : t.hart.s[(0 : Fin 32)] ≠ strayRecord.hart.s[(0 : Fin 32)] := by
    rw [one]
    exact (by decide : (1 : Word) ≠ 0)
  exact (registers (.sclr 0) strayRecord t 0 rfl cleared changed).1 rfl

end Sys2Proof.Machine
end

section
/-! PROOFS. What performing a hart's own buffered writes does, and the fences (R90, R91, R159, R169, R171, R172). -/

namespace Sys2Proof.Machine

open Sys2Proof

/-! ### Performing buffered writes of the issuing hart -/

/-- What performing a buffered write leaves as it is in the hart that issues: its number, PC, registers and flags. -/
def Hart.kept (h : Hart) : Nat × Word × Vector Word 32 × Vector VBits 32 × Vector MBits 7 × BitVec 10 := (h.id, h.pc, h.s, h.v, h.m, h.fcsr)

theorem Hart.wakeOn_kept (h : Hart) (l n : Nat) : (h.wakeOn l n).kept = h.kept := by rcases h.wakeOn_cases l n with e | e <;> exact (congrArg Hart.kept e).trans rfl

/-- The second state follows the first by performing writes of the list, some of which the issuing hart has had in its vector buffer. -/
structure State.Performs (ws : List PendWrite) (s t : State) : Prop where
  kept : t.hart.kept = s.hart.kept
  vbuf : t.hart.vbuf ⊆ s.hart.vbuf
  wf : Memory.wf s.mem = true → Memory.wf t.mem = true
  mem : Memory.wf s.mem = true → ∀ k, (∀ p ∈ ws, p.hits k 1 = false) → memGet t.mem k = memGet s.mem k

namespace State.Performs

variable {ws : List PendWrite} {s t u : State}

theorem refl (s : State) : Performs ws s s := ⟨rfl, fun _ h => h, id, fun _ _ _ => rfl⟩

theorem trans (h : Performs ws s t) (h' : Performs ws t u) : Performs ws s u :=
  ⟨h'.kept.trans h.kept, fun _ x => h.vbuf (h'.vbuf x), fun w => h'.wf (h.wf w), fun w k hk => (h'.mem (h.wf w) k hk).trans (h.mem w k hk)⟩

theorem id_eq (h : Performs ws s t) : t.hart.id = s.hart.id := congrArg Prod.fst h.kept

/-- Taking writes out of the buffers performs nothing. -/
theorem unbuffer (x y : List PendWrite) (h : y ⊆ s.hart.vbuf) : Performs ws s { s with hart := { s.hart with sbuf := x, vbuf := y } } := ⟨rfl, h, id, fun _ _ _ => rfl⟩

/-- As many bytes as a write of the list has, put where it stands. -/
theorem perform {p : PendWrite} (hp : p ∈ ws) (bs : List Byte) (hl : bs.length = p.bytes.length) : Performs ws s (s.perform p.loc bs) where
  kept := by rw [State.perform_hart, Hart.wakeOn_kept]
  vbuf := by rw [State.perform_hart, Hart.wakeOn_vbuf]; exact fun _ h => h
  wf hw := by rw [State.perform_mem]; exact Memory.memPut_wf p.loc bs hw
  mem hw k hk := by
    have apart : ¬(p.loc ≤ k ∧ k < p.loc + bs.length) := by
      have := hk p hp
      simp only [PendWrite.hits, Bool.and_eq_false_iff, decide_eq_false_iff_not] at this
      omega
    rw [State.perform_mem, memGet_memPut hw, if_neg apart]

end State.Performs

/-- A buffered write performs as many bytes as it has, an atomic update as well. -/
theorem State.performWrite_eq (s : State) (p : PendWrite) : ∃ bs, s.performWrite p = s.perform p.loc bs ∧ bs.length = p.bytes.length := by
  rw [State.performWrite]
  split
  · exact ⟨_, rfl, rfl⟩
  · exact ⟨_, rfl, natLe_length _ _⟩

theorem State.performWrite_performs {ws : List PendWrite} (s : State) {p : PendWrite} (hp : p ∈ ws) : Performs ws s (s.performWrite p) := by
  obtain ⟨bs, e, hl⟩ := s.performWrite_eq p
  rw [e]
  exact .perform hp bs hl

theorem State.performWrite_sbuf (s : State) (p : PendWrite) : (s.performWrite p).hart.sbuf = s.hart.sbuf := by
  obtain ⟨bs, e, -⟩ := s.performWrite_eq p
  rw [e, State.perform_hart, Hart.wakeOn_sbuf]

theorem State.performWrite_vbuf (s : State) (p : PendWrite) : (s.performWrite p).hart.vbuf = s.hart.vbuf := by
  obtain ⟨bs, e, -⟩ := s.performWrite_eq p
  rw [e, State.perform_hart, Hart.wakeOn_vbuf]

theorem State.performAll_performs {ws : List PendWrite} : ∀ (ps : List PendWrite) (s : State), ps ⊆ ws → Performs ws s (s.performAll ps)
  | [], s, _ => .refl s
  | _ :: ps, s, h => (s.performWrite_performs (h (List.mem_cons_self ..))).trans (performAll_performs ps _ (fun _ hq => h (List.mem_cons_of_mem _ hq)))

theorem State.performAll_sbuf : ∀ (ps : List PendWrite) (s : State), (s.performAll ps).hart.sbuf = s.hart.sbuf
  | [], _ => rfl
  | _ :: ps, s => (performAll_sbuf ps _).trans (s.performWrite_sbuf _)

theorem State.performAll_vbuf : ∀ (ps : List PendWrite) (s : State), (s.performAll ps).hart.vbuf = s.hart.vbuf
  | [], _ => rfl
  | _ :: ps, s => (performAll_vbuf ps _).trans (s.performWrite_vbuf _)

theorem splitWrites_subset (f : PendWrite → Bool) : ∀ ps : List PendWrite, (splitWrites f ps).1 ⊆ ps ∧ (splitWrites f ps).2 ⊆ ps
  | [] => ⟨fun _ h => h, fun _ h => h⟩
  | p :: ps => by
    obtain ⟨h1, h2⟩ := splitWrites_subset f ps
    rw [splitWrites]
    split
    · exact ⟨List.cons_subset_cons p h1, List.subset_cons_of_subset p h2⟩
    · exact ⟨List.subset_cons_of_subset p h1, List.cons_subset_cons p h2⟩

/-! ### Draining the buffers of the issuing hart (R159, R169, R172) -/

theorem State.drainWhere_own (s : State) (f : PendWrite → Bool) : s.drainWhere s.hart.id f =
    if (splitWrites f s.hart.vbuf).1.isEmpty then s else ({ s with hart := { s.hart with vbuf := (splitWrites f s.hart.vbuf).2 } } : State).performAll (splitWrites f s.hart.vbuf).1 := by
  simp only [State.drainWhere, State.getHart_own, State.setHart, if_true]

theorem State.drainV_own (s : State) (k : Nat) : s.drainV s.hart.id k =
    if k = 0 then s else ({ s with hart := { s.hart with vbuf := s.hart.vbuf.drop k } } : State).performAll (s.hart.vbuf.take k) := by
  simp only [State.drainV, State.getHart_own, State.setHart, if_true]

/-- The writes that a vector drain performs, and those that it leaves. -/
theorem State.drainWhere_performs {ws : List PendWrite} (s : State) (hv : s.hart.vbuf ⊆ ws) (f : PendWrite → Bool) :
    Performs ws s (s.drainWhere s.hart.id f) ∧ (s.drainWhere s.hart.id f).hart.sbuf = s.hart.sbuf := by
  obtain ⟨h1, h2⟩ := splitWrites_subset f s.hart.vbuf
  rw [State.drainWhere_own]
  split
  · exact ⟨.refl s, rfl⟩
  · exact ⟨(State.Performs.unbuffer s.hart.sbuf _ h2).trans (State.performAll_performs _ _ (fun _ h => hv (h1 h))), State.performAll_sbuf _ _⟩

theorem State.drainV_performs {ws : List PendWrite} (s : State) (hv : s.hart.vbuf ⊆ ws) (k : Nat) :
    Performs ws s (s.drainV s.hart.id k) ∧ (s.drainV s.hart.id k).hart.sbuf = s.hart.sbuf ∧ (s.drainV s.hart.id k).hart.vbuf = s.hart.vbuf.drop k := by
  rw [State.drainV_own]
  split
  next h => exact ⟨.refl s, rfl, by rw [h, List.drop_zero]⟩
  · exact ⟨(State.Performs.unbuffer s.hart.sbuf _ (List.drop_subset k _)).trans (State.performAll_performs _ _ (fun _ h => hv (List.take_subset k _ h))),
      State.performAll_sbuf _ _, State.performAll_vbuf _ _⟩

theorem State.drainS1_performs {ws : List PendWrite} (s : State) (hs : s.hart.sbuf ⊆ ws) (hv : s.hart.vbuf ⊆ ws) :
    Performs ws s (s.drainS1 s.hart.id) ∧ (s.drainS1 s.hart.id).hart.sbuf = s.hart.sbuf.drop 1 := by
  simp only [State.drainS1, State.getHart_own]
  split
  next h => exact ⟨.refl s, by rw [h]; rfl⟩
  next p ps h =>
    obtain ⟨first, rest⟩ := s.drainWhere_performs hv (fun q => q.blocks p.loc p.bytes.length p.va && decide (q.seq < p.seq))
    generalize s.drainWhere s.hart.id (fun q => q.blocks p.loc p.bytes.length p.va && decide (q.seq < p.seq)) = s1 at first rest
    have hp : p ∈ ws := hs (by rw [h]; exact List.mem_cons_self ..)
    simp only [← first.id_eq, State.getHart_own, State.setHart, if_true]
    refine ⟨first.trans ((State.Performs.unbuffer _ s1.hart.vbuf (fun _ h => h)).trans (.perform hp _ rfl)), ?_⟩
    rw [State.perform_hart, Hart.wakeOn_sbuf, rest]

theorem State.drainS_performs {ws : List PendWrite} : ∀ (k : Nat) (s : State), s.hart.sbuf ⊆ ws → s.hart.vbuf ⊆ ws →
    Performs ws s (s.drainS s.hart.id k) ∧ (s.drainS s.hart.id k).hart.sbuf = s.hart.sbuf.drop k
  | 0, s, _, _ => ⟨.refl s, rfl⟩
  | k + 1, s, hs, hv => by
    obtain ⟨first, tail⟩ := s.drainS1_performs hs hv
    rw [State.drainS]
    generalize s.drainS1 s.hart.id = s1 at first tail ⊢
    obtain ⟨rest, left⟩ := drainS_performs k s1 (fun _ h => hs (List.drop_subset 1 _ (tail ▸ h))) (fun _ h => hv (first.vbuf h))
    rw [← first.id_eq]
    exact ⟨first.trans rest, by rw [left, tail, List.drop_drop, Nat.add_comm]⟩

/-- Every write that the hart has buffered has performed. -/
theorem State.drainAll_performs {ws : List PendWrite} (s : State) (hs : s.hart.sbuf ⊆ ws) (hv : s.hart.vbuf ⊆ ws) :
    Performs ws s (s.drainAll s.hart.id) ∧ (s.drainAll s.hart.id).hart.sbuf = [] ∧ (s.drainAll s.hart.id).hart.vbuf = [] := by
  obtain ⟨first, empty⟩ := State.drainS_performs s.hart.sbuf.length s hs hv
  rw [List.drop_length] at empty
  simp only [State.drainAll, State.getHart_own]
  generalize s.drainS s.hart.id s.hart.sbuf.length = s1 at first empty ⊢
  rw [← first.id_eq, State.getHart_own]
  obtain ⟨rest, sbuf, vbuf⟩ := s1.drainV_performs (fun _ h => hv (first.vbuf h)) s1.hart.vbuf.length
  exact ⟨first.trans rest, sbuf.trans empty, vbuf.trans List.drop_length⟩

/-! ### Fences (R90, R91, R171) -/

/-- What stands after a fence that has performed writes of the hart's buffers, and has changed nothing else that is looked at here. -/
structure State.Fenced (s u : State) : Prop where
  pc : u.hart.pc = s.hart.pc + 4
  sregs : u.hart.s = s.hart.s
  vregs : u.hart.v = s.hart.v
  masks : u.hart.m = s.hart.m
  fcsr : u.hart.fcsr = s.hart.fcsr
  mem : ∀ k, (∀ p ∈ s.hart.sbuf ++ s.hart.vbuf, p.hits k 1 = false) → memGet u.mem k = memGet s.mem k

/-- The constant cache of the issuing hart's core emptied (R91). -/
def State.dropConsts (t : State) : State :=
  let c := t.getCore (coreOf t.hart.id)
  if c.consts.isEmpty then t else t.setCore (coreOf t.hart.id) { c with consts := [] }

/-- The instruction cache of the issuing hart's core emptied (R171). -/
def State.dropCode (t : State) : State :=
  let c := t.getCore (coreOf t.hart.id)
  if c.icache.isEmpty then t else t.setCore (coreOf t.hart.id) { c with icache := [] }

theorem State.dropConsts_hart (t : State) : t.dropConsts.hart = t.hart := by rw [State.dropConsts]; split <;> rfl
theorem State.dropConsts_mem (t : State) : t.dropConsts.mem = t.mem := by rw [State.dropConsts]; split <;> rfl
theorem State.dropCode_hart (t : State) : t.dropCode.hart = t.hart := by rw [State.dropCode]; split <;> rfl
theorem State.dropCode_mem (t : State) : t.dropCode.mem = t.mem := by rw [State.dropCode]; split <;> rfl

theorem State.dropConsts_consts (t : State) : (t.dropConsts.getCore (coreOf t.hart.id)).consts = [] := by
  rw [State.dropConsts]
  split
  next empty => exact List.isEmpty_iff.1 empty
  next => exact congrArg Core.consts (t.getCore_setCore_same (coreOf t.hart.id) _)

theorem State.dropCode_icache (t : State) : (t.dropCode.getCore (coreOf t.hart.id)).icache = [] := by
  rw [State.dropCode]
  split
  next empty => exact List.isEmpty_iff.1 empty
  next => exact congrArg Core.icache (t.getCore_setCore_same (coreOf t.hart.id) _)

/-- A change that leaves memory alone, and in the hart what performing does, is none to what has performed. -/
theorem State.Performs.change {ws : List PendWrite} {s t u : State} (h : Performs ws s t) (hk : u.hart.kept = t.hart.kept) (hv : u.hart.vbuf = t.hart.vbuf)
    (hm : u.mem = t.mem) : Performs ws s u :=
  ⟨hk.trans h.kept, hv ▸ h.vbuf, hm ▸ h.wf, hm ▸ h.mem⟩

theorem State.Performs.dropConsts {ws : List PendWrite} {s t : State} (h : Performs ws s t) : Performs ws s t.dropConsts :=
  h.change (congrArg _ t.dropConsts_hart) (congrArg _ t.dropConsts_hart) t.dropConsts_mem

theorem State.Performs.dropCode {ws : List PendWrite} {s t : State} (h : Performs ws s t) : Performs ws s t.dropCode :=
  h.change (congrArg _ t.dropCode_hart) (congrArg _ t.dropCode_hart) t.dropCode_mem

/-- A state that retires past a serialising scalar instruction of one word. -/
def State.serialDone (t : State) : State := t.upd (fun x => x.retire false (x.pc + 4))

theorem State.Performs.fenced {s t : State} (h : Performs (s.hart.sbuf ++ s.hart.vbuf) (s.checked true []) t) (hw : Memory.wf s.mem = true) :
    s.Fenced t.serialDone := by
  have kept := h.kept
  simp only [Hart.kept, Prod.mk.injEq] at kept
  obtain ⟨-, pc, regs, vregs, masks, fcsr⟩ := kept
  exact ⟨congrArg (· + 4) pc, regs, vregs, masks, fcsr, h.mem hw⟩

section
variable {w : IWord} {s : State} {f : State → Except Trap Eff}

theorem runInstr_serial_next {t : State} (hf : f (s.checked true []) = .ok (.next t)) : runInstr { word := w, serial := true } s f = .next t.serialDone :=
  (runInstr_scalar_ok (hd := { word := w, serial := true }) rfl (Hdr.check_scalar _ s rfl rfl rfl rfl rfl) (Hdr.badSource_nil _ _ rfl rfl) hf).trans rfl

/-- A serialising instruction that waits stands at its address with its convoy as it was. -/
theorem runInstr_serial_waits (hf : f (s.checked true []) = .ok (.hold ((s.checked true []).stalled .waiting))) (hw : s.hart.wait = .none) (ha : s.hart.answers = []) :
    runInstr { word := w, serial := true } s f = .next { s with hart := { s.hart with stall := .waiting } } := by
  refine (runInstr_scalar_ok rfl (Hdr.check_scalar _ s rfl rfl rfl rfl rfl) (Hdr.badSource_nil _ _ rfl rfl) hf).trans (congrArg Host.Outcome.next ?_)
  have idle : ∀ x : Hart, x.wait = .none → x.answers = [] → Hdr.held { word := w, serial := true } x = x := fun x hx hy => if_pos (by simp [hx, hy])
  exact congrArg (fun h => { s with hart := h }) (idle { s.hart with stall := .waiting } hw ha)

end

/-- Every write buffered has performed, after the checks of a serialising instruction. -/
theorem State.drainAll_checked (s : State) : State.Performs (s.hart.sbuf ++ s.hart.vbuf) (s.checked true []) ((s.checked true []).drainAll s.hart.id) ∧
    ((s.checked true []).drainAll s.hart.id).hart.sbuf = [] ∧ ((s.checked true []).drainAll s.hart.id).hart.vbuf = [] :=
  (s.checked true []).drainAll_performs (List.subset_append_left ..) (List.subset_append_right ..)

section
variable {s : State}

theorem fence_system_passes (sc : BitVec 3) (ho : sc = 4 → s.outstanding s.hart = 0) : ¬(decide (sc = 4) && decide (0 < s.outstanding s.hart)) = true := by
  simp only [Bool.and_eq_true, decide_eq_true_eq, not_and, Nat.not_lt, Nat.le_zero]
  exact ho

section
variable (hb : s.engineBusy s.hart.id = true) (hw : s.hart.wait = .none) (ha : s.hart.answers = [])
include hb hw ha

theorem exec_fence_waits (sc : BitVec 3) (ho : sc = 4 → s.outstanding s.hart = 0) : exec (.fence sc) s = .next { s with hart := { s.hart with stall := .waiting } } := by
  show execFence sc s = _
  exact runInstr_serial_waits ((if_neg (fence_system_passes sc ho)).trans (if_pos hb)) hw ha

theorem exec_fenceVs_waits : exec .fenceVs s = .next { s with hart := { s.hart with stall := .waiting } } := by
  show execFenceVs s = _
  exact runInstr_serial_waits (if_pos hb) hw ha

theorem exec_fenceC_waits : exec .fenceC s = .next { s with hart := { s.hart with stall := .waiting } } := by
  show execFenceC s = _
  exact runInstr_serial_waits (if_pos hb) hw ha

end

section
variable (hm : Memory.wf s.mem = true)
include hm

theorem exec_fenceSv : ∃ u, exec .fenceSv s = .next u ∧ s.Fenced u ∧ u.hart.sbuf = [] := by
  let c := s.checked true []
  obtain ⟨performs, empty⟩ := State.drainS_performs (ws := s.hart.sbuf ++ s.hart.vbuf) c.hart.sbuf.length c (List.subset_append_left ..) (List.subset_append_right ..)
  refine ⟨(c.drainS c.hart.id c.hart.sbuf.length).serialDone, ?_, performs.fenced hm, empty.trans List.drop_length⟩
  show execFenceSv s = _
  exact runInstr_serial_next rfl

section
variable (hb : s.engineBusy s.hart.id = false)
include hb

theorem exec_fenceVs : ∃ u, exec .fenceVs s = .next u ∧ s.Fenced u ∧ u.hart.vbuf = [] := by
  let c := s.checked true []
  obtain ⟨performs, -, empty⟩ := State.drainV_performs (ws := s.hart.sbuf ++ s.hart.vbuf) c (List.subset_append_right ..) c.hart.vbuf.length
  refine ⟨(c.drainV c.hart.id c.hart.vbuf.length).serialDone, ?_, performs.fenced hm, empty.trans List.drop_length⟩
  show execFenceVs s = _
  exact runInstr_serial_next (if_neg (Bool.not_eq_true _ ▸ hb))

theorem exec_fence (sc : BitVec 3) (ho : sc = 4 → s.outstanding s.hart = 0) :
    ∃ u, exec (.fence sc) s = .next u ∧ s.Fenced u ∧ u.hart.sbuf = [] ∧ u.hart.vbuf = [] ∧ (sc ≠ 0 → (u.getCore (coreOf u.hart.id)).icache = []) := by
  obtain ⟨performs, sbuf, vbuf⟩ := s.drainAll_checked
  have ends : ∀ {u : State},
      (if sc = 0 then .ok (.next ((s.checked true []).drainAll s.hart.id)) else .ok (.next ((s.checked true []).drainAll s.hart.id).dropCode) : Except Trap Eff) = .ok (.next u) →
      execFence sc s = .next u.serialDone := fun hu =>
    runInstr_serial_next ((if_neg (fence_system_passes sc ho)).trans ((if_neg (Bool.not_eq_true _ ▸ hb)).trans hu))
  show ∃ u, execFence sc s = .next u ∧ _
  generalize (s.checked true []).drainAll s.hart.id = t at performs sbuf vbuf ends
  by_cases core_scope : sc = 0
  · exact ⟨t.serialDone, ends (if_pos core_scope), performs.fenced hm, sbuf, vbuf, fun h => absurd core_scope h⟩
  · have same := t.dropCode_hart
    have cached := t.dropCode_icache
    rw [← same] at cached
    exact ⟨t.dropCode.serialDone, ends (if_neg core_scope), performs.dropCode.fenced hm, (congrArg Hart.sbuf same).trans sbuf, (congrArg Hart.vbuf same).trans vbuf, fun _ => cached⟩

theorem exec_fenceC : ∃ u, exec .fenceC s = .next u ∧ s.Fenced u ∧ u.hart.sbuf = [] ∧ u.hart.vbuf = [] ∧ (u.getCore (coreOf u.hart.id)).consts = [] := by
  obtain ⟨performs, sbuf, vbuf⟩ := s.drainAll_checked
  have ends : execFenceC s =
      .next (((s.checked true []).drainAll s.hart.id).upd (fun h => { h with constAt := ((s.checked true []).drainAll s.hart.id).writes })).dropConsts.serialDone :=
    runInstr_serial_next ((if_neg (Bool.not_eq_true _ ▸ hb)).trans rfl)
  show ∃ u, execFenceC s = .next u ∧ _
  generalize (s.checked true []).drainAll s.hart.id = t at performs sbuf vbuf ends
  have since := performs.change (u := t.upd (fun h => { h with constAt := t.writes })) rfl rfl rfl
  have same := (t.upd (fun h => { h with constAt := t.writes })).dropConsts_hart
  have cached := (t.upd (fun h => { h with constAt := t.writes })).dropConsts_consts
  rw [← same] at cached
  exact ⟨_, ends, since.dropConsts.fenced hm, (congrArg Hart.sbuf same).trans sbuf, (congrArg Hart.vbuf same).trans vbuf, cached⟩

end
end
end

/-- Settles O29: every fence waits or drains; what it drains, and which of the core's caches it empties, is the fence's own. -/
theorem fencesPerformBufferedWrites : Obligations.FencesPerformBufferedWrites := by
  intro s sc i hi
  refine ⟨fun hb hsv hw ha => ?_, fun hb hm => ?_⟩
  · rcases hi with ⟨rfl, -, ho⟩ | rfl | rfl | rfl
    · exact exec_fence_waits hb hw ha sc ho
    · exact absurd rfl hsv
    · exact exec_fenceVs_waits hb hw ha
    · exact exec_fenceC_waits hb hw ha
  · rcases hi with ⟨rfl, -, ho⟩ | rfl | rfl | rfl
    · obtain ⟨u, done, f, sbuf, vbuf, icache⟩ := exec_fence hm (hb.resolve_right (fun h => nomatch h)) sc ho
      exact ⟨u, done, f.pc, f.sregs, f.vregs, f.masks, f.fcsr, fun _ => sbuf, fun _ => vbuf, fun h => (nomatch h), fun _ => icache, f.mem⟩
    · obtain ⟨u, done, f, sbuf⟩ := exec_fenceSv hm
      exact ⟨u, done, f.pc, f.sregs, f.vregs, f.masks, f.fcsr, fun _ => sbuf, fun h => absurd rfl h, fun h => (nomatch h), fun h => (nomatch h), f.mem⟩
    · obtain ⟨u, done, f, vbuf⟩ := exec_fenceVs hm (hb.resolve_right (fun h => nomatch h))
      exact ⟨u, done, f.pc, f.sregs, f.vregs, f.masks, f.fcsr, fun h => absurd rfl h, fun _ => vbuf, fun h => (nomatch h), fun h => (nomatch h), f.mem⟩
    · obtain ⟨u, done, f, sbuf, vbuf, consts⟩ := exec_fenceC hm (hb.resolve_right (fun h => nomatch h))
      exact ⟨u, done, f.pc, f.sregs, f.vregs, f.masks, f.fcsr, fun _ => sbuf, fun _ => vbuf, fun _ => consts, fun h => (nomatch h), f.mem⟩

end Sys2Proof.Machine
end

section
/-! PROOFS. Waits and requests (R36, R65, R88, R89, R156, R285, R333). -/

namespace Sys2Proof.Machine

open Sys2Proof

/-! ### `wfi` and `mwait` (R88, R89) -/

theorem exec_wfi_completes {s : State} (h : s.hart.resume = .woken ∨ s.hart.preempt = true ∨ s.hart.irqs ≠ []) : exec .wfi s = .next (s.wrote false [] 0 0) := by
  have due : (decide (s.hart.resume = .woken) || s.hart.pending) = true := by
    simpa [Hart.pending, Bool.or_eq_true, List.isEmpty_iff] using h
  show execWfi s = _
  exact (runInstr_scalar_ok (hd := { word := wWfi }) rfl (Hdr.check_scalar _ s rfl rfl rfl rfl rfl) (Hdr.badSource_nil _ _ rfl rfl) (if_pos due)).trans rfl

theorem exec_wfi_waits {s : State} (hr : s.hart.resume ≠ .woken) (hp : s.hart.preempt = false) (hi : s.hart.irqs = []) :
    exec .wfi s = .next { s with hart := { s.hart with wait := .wfi, cur := [wWfi], inUse := none } } := by
  have idle : ¬(decide (s.hart.resume = .woken) || s.hart.pending) = true := by simp [Hart.pending, hr, hp, hi]
  show execWfi s = _
  exact (runInstr_scalar_ok (hd := { word := wWfi }) rfl (Hdr.check_scalar _ s rfl rfl rfl rfl rfl) (Hdr.badSource_nil _ _ rfl rfl) (if_neg idle)).trans rfl

section
variable {s s1 : State} {a b : Reg5} {x : Nat} {st : Bool} (d : Reg5) (hs : s.hart.sound = true) (hal : (s.gs a).toNat % 8 = 0)
  (he : (s.checked false [a, b]).elem s.hart.id true ⟨0, s.gs a, 8, .load, 0, 0⟩ = (s1, .done x st))
include hs hal he

/-- A woken `mwait`, or one whose doubleword differs from the register, completes with it. -/
theorem exec_mwait_completes (h : s.hart.resume = .woken ∨ BitVec.ofNat 64 x ≠ s.gs b) : exec (.mwait d a b) s = .next (s1.retired d (BitVec.ofNat 64 x)) := by
  have aligned : scalarAligned ((s.checked false [a, b]).gs a) 8 = .ok () := scalarAligned_ok hal
  have elem : (s.checked false [a, b]).scalarElem .translate ⟨0, (s.checked false [a, b]).gs a, 8, .load, 0, 0⟩ = (s1, .done x st) := he
  show execMwait d a b s = _
  refine (runInstr_reads_ok hs (e := .next (s1.ps d (BitVec.ofNat 64 x))) ?_).trans (congrArg Host.Outcome.next (finish_next_ps _ _ d s1 _ _))
  simp only [aligned, State.scalarAccess, elem]
  by_cases woken : (s.checked false [a, b]).hart.resume = .woken
  · exact if_pos woken
  · exact (if_neg woken).trans (if_pos (h.resolve_left woken))

/-- Any other `mwait` sleeps. -/
theorem exec_mwait_sleeps (hr : s.hart.resume ≠ .woken) (hx : BitVec.ofNat 64 x = s.gs b) :
    exec (.mwait d a b) s = .next { s1 with hart := { s1.hart with
      wait := .mwait (s1.watched ⟨0, s.gs a, 8, .load, 0, 0⟩) s1.cycle, answers := [], asked := [], told := [], places := [], convoy := s.hart.convoy, cur := [wMwait d a b], inUse := none } } := by
  have aligned : scalarAligned ((s.checked false [a, b]).gs a) 8 = .ok () := scalarAligned_ok hal
  have elem : (s.checked false [a, b]).scalarElem .translate ⟨0, (s.checked false [a, b]).gs a, 8, .load, 0, 0⟩ = (s1, .done x st) := he
  show execMwait d a b s = _
  let sleep := fun (h : Hart) => { h with wait := .mwait (s1.watched ⟨0, s.gs a, 8, .load, 0, 0⟩) s1.cycle, answers := [], asked := [], told := [], places := [] }
  refine (runInstr_reads_ok hs (e := .hold (s1.upd sleep)) ?_).trans rfl
  simp only [aligned, elem]
  exact (if_neg (show (s.checked false [a, b]).hart.resume ≠ .woken from hr)).trans (if_neg (not_not.2 hx))

end

/-! ### Requests and the ends of waits (R36, R65, R156, R333) -/

/-- Where the convoy may begin, in the terms of the statement: its own units with those that other harts have. -/
theorem State.mayBegin_cons {s : State} {h : Hart} {c : QConvoy} {cs : List QConvoy} (hq : h.vq = c :: cs) : s.mayBegin h = true ↔
    (c.joins = true ∨ h.busy = []) ∧ (∀ u ∈ c.members, s.unitsTaken h.id u + ((if c.joins then h.busy else []) ++ c.members).count u ≤ u.units) ∧ s.tileBehind h.id c = false := by
  simp [State.mayBegin, hq, and_assoc]

theorem exec_convoyBegin_cons {s : State} {k : Nat} {c : QConvoy} {cs : List QConvoy} (hq : (s.getHart k).vq = c :: cs) : exec (.convoyBegin k) s =
    .next (if s.mayBegin (s.getHart k) then s.setHart { s.getHart k with vq := cs, busy := (s.getHart k).busy ++ c.members } else s) := by
  show execConvoyBegin k s = _
  simp only [execConvoyBegin, hq]

/-- A hart between instructions takes the request that is due: INT. -/
theorem State.honour_atPoint {s : State} {k : Nat} (hreq : (s.getHart k).requested = true) (hstop : (s.getHart k).stop = false) (hpt : (s.getHart k).atPoint = true)
    (hw : (s.getHart k).wait = .none) : s.honour k = s.setHart { (s.getHart k).tookInt.trap ⟨0x0B, (s.getHart k).intTval⟩ with seen := false } := by
  simp only [State.honour, hreq, hstop, hpt, State.takeInt, State.leaveQueue, hw, Hart.abandon, Bool.not_true, Bool.false_and, Bool.false_eq_true, if_false, if_true]

/-- A hart between instructions that has a request and may take it is at a point. -/
theorem Hart.atPoint_between {h : Hart} (hrun : h.run = true) (hans : h.answers = []) (hcur : h.cur = []) (hat : h.stopAt = none) (hres : h.resume = .none) (hwait : h.wait = .none)
    (hst : h.stall ≠ .role) : h.atPoint = true := by
  simp [Hart.atPoint, hrun, hans, hcur, hat, hres, hwait, hst, Wait.open_]

/-- Settles O30: each wait and each event by the one branch of its meaning that its premises select. -/
theorem waitsEndAndRequestsAreTaken : Obligations.WaitsEndAndRequestsAreTaken := by
  refine ⟨fun s s1 d a b x st => ⟨exec_wfi_completes, exec_wfi_waits, fun hs hal he =>
    ⟨exec_mwait_completes d hs hal he, fun hr hx => ⟨_, exec_mwait_sleeps d hs hal he hr hx⟩⟩⟩, ?_⟩
  intro s k l since h
  refine ⟨fun hq => ?_, fun c cs hq => ⟨fun joins units behind => ?_, fun held => ?_⟩, fun hw => ?_, fun hw => ?_, fun hw late => ?_, fun hw late => ?_, ?_⟩
  · show execConvoyBegin k s = _
    simp only [execConvoyBegin, show (s.getHart k).vq = [] from hq]
  · rw [exec_convoyBegin_cons hq, if_pos ((State.mayBegin_cons hq).2 ⟨joins, units, behind⟩)]
  · have stays : ¬s.mayBegin (s.getHart k) = true := fun may => by
      obtain ⟨joins, units, behind⟩ := (State.mayBegin_cons hq).1 may
      rcases held with ⟨own, busy⟩ | ⟨u, hu, more⟩ | tile
      · exact joins.elim (fun j => Bool.noConfusion (own.symm.trans j)) busy
      · exact absurd (units u hu) (Nat.not_le.2 more)
      · exact Bool.noConfusion (tile.symm.trans behind)
    rw [exec_convoyBegin_cons hq, if_neg stays]
  · show execWfiWake k s = _
    simp only [execWfiWake, show (s.getHart k).wait = .wfi from hw, h]
  · show execMwaitWake k s = _
    simp only [execMwaitWake, show (s.getHart k).wait = .mwait l since from hw, h]
  · show execMwaitTimeout k s = _
    simp only [execMwaitTimeout, show (s.getHart k).wait = .mwait l since from hw, h]
    exact congrArg Host.Outcome.next (if_pos late)
  · show execTkwaitLimit k s = _
    simp only [execTkwaitLimit, show (s.getHart k).wait = .tkwait (some l) from hw, h]
    exact congrArg Host.Outcome.next (if_pos late)
  · intro hrun hstop hie hans hcur hat hres hwait hst _
    have point : h.atPoint = true := Hart.atPoint_between hrun hans hcur hat hres hwait hst
    refine ⟨fun pre => ?_, fun n ns pre irqs => ?_⟩
    · have due : h.requested = true := by simp [Hart.requested, Hart.pending, hie, pre]
      show execPreemptionRequest k s = _
      rw [execPreemptionRequest, if_pos (by rw [show (s.getHart k).preempt = true from pre, Bool.true_or]), State.honour_atPoint due hstop point hwait]
      simp only [Hart.tookInt, Hart.intTval, show (s.getHart k).preempt = true from pre, if_true, h]
    · have due : h.requested = true := by simp [Hart.requested, Hart.pending, hie, irqs]
      show execSoftwareInterrupt k s = _
      rw [execSoftwareInterrupt, if_neg (by rw [show (s.getHart k).preempt = false from pre, show (s.getHart k).stop = false from hstop]; decide), State.honour_atPoint due hstop point hwait]
      simp only [Hart.tookInt, Hart.intTval, show (s.getHart k).preempt = false from pre, show (s.getHart k).irqs = n :: ns from irqs, Bool.false_eq_true, if_false, h]
      rfl

end Sys2Proof.Machine
end

section
/-! PROOFS. Vector instructions on operands that may be named, in the terms of the hart that issues them: what joining the convoy leaves alone (04 R96 to R100). -/

namespace Sys2Proof.Machine

open Sys2Proof

/-! ### Headers and operands -/

/-- The header of a vector instruction of one word that no check of its own stops, of a unit class and a J bit, writing the s registers `sw`. -/
structure Hdr.Vector (hd : Hdr) (u : UnitClass) (j : BitVec 1) (sw : List Reg5) : Prop where
  unit : hd.unit = some u
  joins : hd.j = (j == 1)
  overlap : hd.bad07 = false
  format : hd.bad0B = false
  user : hd.priv = false
  body : hd.body = none
  swrites : hd.swrites = sw

theorem vhdr_vector (w : IWord) (u : UnitClass) (j : BitVec 1) : (vhdr w u j).Vector u j [] := ⟨rfl, rfl, rfl, rfl, rfl, rfl, rfl⟩

/-- The header of an instruction that forbids registers of the same name, where none has it (R10). -/
theorem vhdr_vector_apart (w : IWord) (u : UnitClass) (j : BitVec 1) {same : Bool} (h : same = false) : ({ vhdr w u j with bad07 := same } : Hdr).Vector u j [] :=
  ⟨rfl, rfl, h, rfl, rfl, rfl, rfl⟩

/-- The header of an instruction that writes s registers. -/
theorem vhdr_vector_writes (w : IWord) (u : UnitClass) (j : BitVec 1) (sw : List Reg5) : ({ vhdr w u j with swrites := sw } : Hdr).Vector u j sw :=
  ⟨rfl, rfl, rfl, rfl, rfl, rfl, rfl⟩

/-- The value of element i of the k-th of some operands that are groups (R44). -/
def Hart.named (h : Hart) (os : List VOpd) (k i : Nat) : Nat := (os[k]?).elim 0 (fun o => h.elem o.reg.toNat o.w i)

/-- Plain operands give their elements. -/
theorem Hart.srcVal_named {h : Hart} {os : List VOpd} (vals : List (List Nat)) (hp : h.plainGroups os = true) : h.srcVal os vals = h.named os := by
  funext k i
  unfold Hart.named
  cases hk : os[k]? with
  | none => simp [Hart.srcVal, hk]
  | some o => exact h.srcVal_plain os vals k i hk (Hart.plain_stream hp (List.mem_of_getElem? hk))

/-- A hart that has joined reads the elements that it had. -/
theorem Hart.srcVal_going {h : Hart} {os : List VOpd} (b : Hart) (c : Option Convoy) (vals : List (List Nat)) (hp : h.plainGroups os = true) :
    (h.going b c).srcVal os vals = h.named os :=
  Hart.srcVal_named (h := h.going b c) vals hp

/-- The sources of operands that may be named are plain. -/
theorem Hart.operandsOk_srcs {h : Hart} {srcs dsts : List VOpd} (hok : h.operandsOk srcs dsts = true) : h.plainGroups srcs = true := by
  simp only [Hart.operandsOk, Bool.and_eq_true] at hok
  exact hok.1.1

/-- So are the destinations. -/
theorem Hart.operandsOk_dsts {h : Hart} {srcs dsts : List VOpd} (hok : h.operandsOk srcs dsts = true) : h.plainGroups dsts = true := by
  simp only [Hart.operandsOk, Bool.and_eq_true] at hok
  exact hok.1.2

theorem Hart.lmul_pos (h : Hart) : 0 < h.lmul := Nat.two_pow_pos _

theorem Hart.sew_pos (h : Hart) : 0 < h.sew := Nat.mul_pos (by decide) (Nat.two_pow_pos _)

/-- An element is a number of its width. -/
theorem Hart.elem_lt (h : Hart) (r w i : Nat) : h.elem r w i < 2 ^ w := Nat.mod_lt _ (Nat.two_pow_pos w)

/-! ### Instructions (R354) -/

section Run

variable {hd : Hdr} {s : State} {u : UnitClass} {j : BitVec 1} {sw : List Reg5} {bad03 bad07 : Hart → Bool} {srcs : Hart → List VOpd} {so : List VOpd}

/-- An instruction on plain operands has its effect in the state that has joined the convoy. -/
theorem vecRun_named {masked : Bool} {dsts : Hart → List VOpd} {ds : List VOpd} {k : State → List VOpd → (Nat → Nat → Nat) → Eff} (hv : hd.Vector u j sw)
    (hm : s.hart.mayJoin u j = true) (h3 : ∀ b c, bad03 (s.hart.going b c) = false) (h7 : ∀ b c, bad07 (s.hart.going b c) = false)
    (hs : ∀ b c, srcs (s.hart.going b c) = so) (hd' : ∀ b c, dsts (s.hart.going b c) = ds) (ps : s.hart.plainGroups so = true) (pd : s.hart.plainGroups ds = true) :
    vecRun hd bad03 bad07 masked srcs dsts k s = .next (hd.finish s.hart.convoy (k (s.joined u j sw) so (s.hart.named so))) := by
  obtain ⟨hu, hj, ho, hf, hp, -, hw⟩ := hv
  have J : (s.joined u j sw).hart = s.hart.going s.hart.begin_ (s.hart.convoyWith u j sw) := s.joined_hart u j sw
  subst hw
  rw [vecRun_plain hd bad03 bad07 masked srcs dsts k s u j hu hj ho hf hp hm (by rw [J, h3]) (by rw [J, h7]) (by rw [J, hs]; exact ps) (by rw [J, hd']; exact pd),
    J, hs, Hart.srcVal_going _ _ _ ps]

/-- An element-wise instruction whose operands may be named (R96). -/
theorem vecMap_named {dst : Hart → VOpd} {o : VOpd} {m x : Reg3} {f : Hart → (Nat → Nat → Nat) → Nat → Nat × Exc} {g : Nat → Nat × Exc} (hv : hd.Vector u j [])
    (hm : s.hart.mayJoin u j = true) (h3 : ∀ b c, bad03 (s.hart.going b c) = false) (h7 : ∀ b c, bad07 (s.hart.going b c) = false)
    (hs : ∀ b c, srcs (s.hart.going b c) = so) (hd' : ∀ b c, dst (s.hart.going b c) = o) (hok : s.hart.operandsOk so [o] = true)
    (hf : ∀ b c i, f (s.hart.going b c) (s.hart.named so) i = g i) :
    vecMap hd bad03 bad07 srcs dst m x f s = .next (s.vecDone u j o.reg o.w m x g) := by
  obtain ⟨hu, hj, ho, hfm, hp, hl, hw⟩ := hv
  have J : (s.joined u j []).hart = s.hart.going s.hart.begin_ (s.hart.convoyWith u j []) := s.joined_hart u j []
  rw [vecMap_plain hd bad03 bad07 srcs dst m x f g s u j hu hj ho hfm hp hl hw hm (by rw [J, h3]) (by rw [J, h7]) (by rw [J, hs, hd']; exact hok)
    (fun i => by rw [J, hs, Hart.srcVal_going _ _ _ (Hart.operandsOk_srcs hok), hf]), J, hd']

/-- An instruction that writes a mask register from operands that may be named (R114, R115). -/
theorem vecMask_named {d : Reg5} {m x : Reg3} {f : Hart → (Nat → Nat → Nat) → Nat → Bool × Exc} {g : Nat → Bool × Exc} (hv : hd.Vector u j [])
    (hm : s.hart.mayJoin u j = true) (h3 : ∀ b c, bad03 (s.hart.going b c) = false) (hs : ∀ b c, srcs (s.hart.going b c) = so) (hok : s.hart.operandsOk so [] = true)
    (hf : ∀ b c i, f (s.hart.going b c) (s.hart.named so) i = g i) :
    vecMask hd bad03 srcs d m x f s = .next { s with hart := s.hart.maskDone u j d x ((s.hart.active m s.hart.vl).map (fun i => (i, g i))) } := by
  obtain ⟨hu, hj, ho, hfm, hp, hl, hw⟩ := hv
  have J : (s.joined u j []).hart = s.hart.going s.hart.begin_ (s.hart.convoyWith u j []) := s.joined_hart u j []
  exact vecMask_plain hd bad03 srcs d m x f g s u j hu hj ho hfm hp hl hw hm (by rw [J, h3]) (by rw [J, hs]; exact Hart.operandsOk_srcs hok)
    (fun i => by rw [J, hs, Hart.srcVal_going _ _ _ (Hart.operandsOk_srcs hok), hf])

end Run

/-! ### How an instruction ends that has had its effect (R36, R42) -/

theorem Hart.convoyWith_congr {g h : Hart} (hc : g.convoy = h.convoy) (u : UnitClass) (j : BitVec 1) (sw : List Reg5) : g.convoyWith u j sw = h.convoyWith u j sw := by
  unfold Hart.convoyWith Hart.joinedConvoy
  rw [hc]

/-- Where the hart that has joined has changed nothing of its convoy and of what it remembers, it retires as that hart would without having joined. -/
theorem Hdr.Vector.finish {hd : Hdr} {s t : State} {r : Hart} {u : UnitClass} {j : BitVec 1} {sw : List Reg5} (hv : hd.Vector u j sw) (c : Option Convoy)
    (ht : t.hart = r.going s.hart.begin_ (s.hart.convoyWith u j sw)) (hconv : r.convoy = s.hart.convoy) (hcur : r.cur = s.hart.cur) (hpl : r.places = s.hart.places)
    (href : r.refuse = s.hart.refuse) : hd.finish c (.next t) = { t with hart := r.vectorPast 4 u j sw } := by
  have four : hd.len = 4 := by simp [Hdr.len, hv.body]
  obtain ⟨places, refuse⟩ := Hart.begin_congr hcur hpl href
  rw [Hdr.finish_next_unit hd c t u hv.unit, four, State.vecRetired, ht, Hart.vectorPast, Hart.convoyWith_congr hconv, places, refuse]
  rfl

theorem Hart.ps_going (h b : Hart) (c : Option Convoy) (d : Reg5) (x : Word) : (h.going b c).ps d x = (h.ps d x).going b c := by
  unfold Hart.ps
  split <;> rfl

theorem Hart.vectorPast_ps (h : Hart) (len : Word) (u : UnitClass) (j : BitVec 1) (sw : List Reg5) (d : Reg5) (x : Word) :
    (h.ps d x).vectorPast len u j sw = (h.vectorPast len u j sw).ps d x := by
  obtain ⟨places, refuse⟩ := Hart.begin_congr (a := h.ps d x) (b := h) (by simp) (by simp) (by simp)
  rw [Hart.vectorPast, Hart.convoyWith_congr (h.ps_convoy d x), places, refuse, Hart.ps_pc, Hart.ps_past]
  unfold Hart.ps
  split <;> rfl

/-- An instruction that ends in the state that has joined. -/
theorem Hdr.Vector.finish_joined {hd : Hdr} {u : UnitClass} {j : BitVec 1} {sw : List Reg5} (hv : hd.Vector u j sw) (s : State) (c : Option Convoy) :
    hd.finish c (.next (s.joined u j sw)) = { s with hart := s.hart.vectorPast 4 u j sw } :=
  hv.finish c (s.joined_hart u j sw) rfl rfl rfl rfl

/-- An instruction whose effect on the state that has joined is to write an s register. -/
theorem Hdr.Vector.finish_ps {hd : Hdr} {u : UnitClass} {j : BitVec 1} {sw : List Reg5} (hv : hd.Vector u j sw) (s : State) (c : Option Convoy) (d : Reg5) (x : Word) :
    hd.finish c (.next ((s.joined u j sw).ps d x)) = { s with hart := (s.hart.vectorPast 4 u j sw).ps d x } := by
  have written : ((s.joined u j sw).ps d x).hart = (s.hart.ps d x).going s.hart.begin_ (s.hart.convoyWith u j sw) := by
    rw [← Hart.ps_going, ← State.joined_hart]
    rfl
  rw [← Hart.vectorPast_ps]
  exact hv.finish (s := s) c written (by simp) (by simp) (by simp) (by simp)

/-- Plain sources consume no element of a stream. -/
theorem State.consume_plain {s : State} {so : List VOpd} (u : UnitClass) (j : BitVec 1) (sw : List Reg5) (hp : s.hart.plainGroups so = true) :
    (s.joined u j sw).consume so = s.joined u j sw := by
  have none : ∀ o ∈ so, (s.joined u j sw).hart.stream o.reg = none := fun o ho => by
    rw [State.joined_hart]
    exact Hart.plain_stream hp ho
  unfold State.consume
  simp only [State.upd, Hart.advance_plain _ _ _ none]

end Sys2Proof.Machine
end

section
/-! PROOFS. The results of the vector integer instructions (02 R44, R48, R56, 04 R96 to R105). -/

namespace Sys2Proof.Machine

open Sys2Proof

/-! ### Bits as integers (R48) -/

theorem bitsInt_unsigned (w n : Nat) : bitsInt false w n = n := rfl

theorem bitsInt_signed {w n : Nat} (hw : 0 < w) (hn : n < 2 ^ w) : bitsInt true w n = Int.bmod n (2 ^ w) := by
  obtain ⟨k, rfl⟩ := Nat.exists_eq_succ_of_ne_zero hw.ne'
  have half : (((2 ^ (k + 1) : Nat) : Int) + 1) / 2 = 2 ^ k := by push_cast; omega
  have whole : (n : Int) % ((2 ^ (k + 1) : Nat) : Int) = n := Int.emod_eq_of_lt (by omega) (by exact_mod_cast hn)
  have side : (n : Int) < 2 ^ k ↔ n < 2 ^ k := by exact_mod_cast Iff.rfl
  rw [Int.bmod_def, whole, half, bitsInt, Nat.succ_sub_one]
  by_cases h : n < 2 ^ k
  · simp [h, side, Nat.not_le.2 h]
  · simp [h, side, Nat.not_lt.1 h]

theorem intBits_lt (w : Nat) (x : Int) : intBits w x < 2 ^ w := by
  have pos : (0 : Int) < 2 ^ w := by positivity
  have lt : x % 2 ^ w < 2 ^ w := Int.emod_lt_of_pos x pos
  unfold intBits
  zify
  rwa [Int.toNat_of_nonneg (Int.emod_nonneg x pos.ne')]

/-- A natural number cut to w bits. -/
theorem intBits_natCast (w n : Nat) : intBits w (n : Int) = n % 2 ^ w := by
  unfold intBits
  have h : (n : Int) % (2 : Int) ^ w = ((n % 2 ^ w : Nat) : Int) := by push_cast; rfl
  rw [h, Int.toNat_natCast]

/-! ### VINT (R97, R98, R101, Table 4-3) -/

/-- An accumulating form names its destination as a source too, which R10 allows. -/
theorem Hart.operandsOk_accumulate {h : Hart} {srcs : List VOpd} {d : VOpd} (hok : h.operandsOk srcs [d] = true) : h.operandsOk (srcs ++ [d]) [d] = true := by
  have ps := Hart.operandsOk_srcs hok
  have pd := Hart.operandsOk_dsts hok
  simp only [Hart.operandsOk, Bool.and_eq_true, Bool.not_eq_true'] at hok
  have apart : partialOverlaps (srcs ++ [d]) [d] = false := by
    have same : d.partialOverlap d = false := by simp [VOpd.partialOverlap]
    simpa [partialOverlaps, same] using hok.2
  have plain : h.plainGroups (srcs ++ [d]) = true := by
    unfold Hart.plainGroups at ps pd ⊢
    rw [List.all_append, ps, pd]
    rfl
  simp only [Hart.operandsOk, plain, pd, apart]
  rfl

/-- Operand b of element i, a vector b being a group (R97). -/
def BForm.elemCode (f : BForm) (h : Hart) (i : Nat) : Nat :=
  match f with
  | .vv b => h.elem b.toNat h.sew i
  | .vs b => (h.gs b).toNat % 2 ^ h.sew
  | .vi c => intBits h.sew c.toInt

theorem BForm.elemCode_lt (f : BForm) (h : Hart) (i : Nat) : f.elemCode h i < 2 ^ h.sew := by
  cases f with
  | vv b => exact h.elem_lt _ _ _
  | vs b => exact Nat.mod_lt _ (Nat.two_pow_pos _)
  | vi c => exact intBits_lt _ _

/-- A VINT instruction on operands that may be named, whatever its form. -/
theorem vintOp_named {s : State} {u : UnitClass} {j : BitVec 1} {d a : Reg5} {b : BForm} (w : IWord) (acc : Bool) (f : IntFn) (m x : Reg3) (hm : s.hart.mayJoin u j = true)
    (hok : s.hart.operandsOk (s.hart.opd a :: b.srcs s.hart) [s.hart.opd d] = true) :
    vintOp (vhdr w u j) acc f d a b m x s = .next (s.vecDone u j d s.hart.sew m x (fun i =>
      (f s.hart.sew (s.hart.fmt == 1) (s.hart.elem d.toNat s.hart.sew i) (s.hart.elem a.toNat s.hart.sew i) (b.elemCode s.hart i), {}))) := by
  let so := ([s.hart.opd a] ++ b.srcs s.hart) ++ if acc then [s.hart.opd d] else []
  have all : s.hart.operandsOk so [s.hart.opd d] = true := by
    cases acc with
    | false => simpa [so] using hok
    | true => exact Hart.operandsOk_accumulate hok
  have srcs : ∀ (g : Hart) (c : Option Convoy), [(s.hart.going g c).opd a] ++ b.srcs (s.hart.going g c) ++ (if acc then [(s.hart.going g c).opd d] else []) = so := by
    intro g c
    cases b <;> rfl
  have code : ∀ (g : Hart) (c : Option Convoy) (i : Nat), b.val (s.hart.going g c) (s.hart.named so) (s.hart.going g c).sew i = b.elemCode s.hart i := by
    intro g c i
    cases b <;> rfl
  exact vecMap_named (so := so) (o := s.hart.opd d) (vhdr_vector w u j) hm (fun _ _ => rfl) (fun _ _ => rfl) srcs (fun _ _ => rfl) all
    (fun g c i => by rw [code g c i]; rfl)
/-- What a VINT operation comes to on numbers of SEW bits, of operands d, a and b. -/
def Hart.Computes (h : Hart) (f : IntFn) (g : Nat → Nat → Nat → Nat) : Prop :=
  ∀ n p q, n < 2 ^ h.sew → p < 2 ^ h.sew → q < 2 ^ h.sew → f h.sew (h.fmt == 1) n p q = g n p q

/-- The three forms of a VINT instruction. -/
theorem vint_forms {s : State} {u : UnitClass} {j : BitVec 1} {d a b : Reg5} {c : BitVec 5} {m x : Reg3} {vv vs vi : Instr} {wv ws wi : IWord} {acc : Bool} {f : IntFn}
    {g : Nat → Nat → Nat → Nat} (ev : exec vv s = vintOp (vhdr wv u j) acc f d a (.vv b) m x s) (es : exec vs s = vintOp (vhdr ws u j) acc f d a (.vs b) m x s)
    (ei : exec vi s = vintOp (vhdr wi u j) acc f d a (.vi c) m x s) (hg : s.hart.Computes f g) (hm : s.hart.mayJoin u j = true) :
    let h := s.hart
    let w := h.sew
    (h.operandsOk [h.opd a, h.opd b] [h.opd d] = true →
      exec vv s = .next (s.vecDone u j d w m x (fun i => (g (h.elem d.toNat w i) (h.elem a.toNat w i) (h.elem b.toNat w i), {})))) ∧
    (h.operandsOk [h.opd a] [h.opd d] = true →
      exec vs s = .next (s.vecDone u j d w m x (fun i => (g (h.elem d.toNat w i) (h.elem a.toNat w i) ((s.gs b).toNat % 2 ^ w), {}))) ∧
      exec vi s = .next (s.vecDone u j d w m x (fun i => (g (h.elem d.toNat w i) (h.elem a.toNat w i) (intBits w c.toInt), {})))) := by
  intro h w
  have run : ∀ {i : Instr} {o : IWord} {q : BForm}, exec i s = vintOp (vhdr o u j) acc f d a q m x s → h.operandsOk (h.opd a :: q.srcs h) [h.opd d] = true →
      exec i s = .next (s.vecDone u j d w m x (fun i => (g (h.elem d.toNat w i) (h.elem a.toNat w i) (q.elemCode h i), {}))) := fun {_ o q} e hok =>
    (e.trans (vintOp_named o acc f m x hm hok)).trans (congrArg (fun r => Host.Outcome.next (s.vecDone u j d w m x r))
      (funext fun i => congrArg (fun n => (n, ({} : Exc))) (hg _ _ _ (h.elem_lt _ _ _) (h.elem_lt _ _ _) (q.elemCode_lt h i))))
  exact ⟨run (q := .vv b) ev, fun hok => ⟨run (q := .vs b) es hok, run (q := .vi c) ei hok⟩⟩

/-! ### The operations that depend on a sign (Table 4-3) -/

theorem iMulh_computes (h : Hart) : h.Computes iMulh (fun _ p q =>
    if h.fmt = 1 then p * q / 2 ^ h.sew % 2 ^ h.sew else intBits h.sew (Int.bmod p (2 ^ h.sew) * Int.bmod q (2 ^ h.sew) / 2 ^ h.sew)) := by
  intro n p q _ hp hq
  by_cases hf : h.fmt = 1
  · have high : (p : Int) * q / 2 ^ h.sew = ((p * q / 2 ^ h.sew : Nat) : Int) := by push_cast; rfl
    simp only [iMulh, hf, beq_self_eq_true, Bool.not_true, bitsInt_unsigned, high, intBits_natCast, if_true]
  · simp only [iMulh, hf, beq_false_of_ne hf, Bool.not_false, bitsInt_signed h.sew_pos hp, bitsInt_signed h.sew_pos hq, if_false]

theorem iMin_computes (h : Hart) : h.Computes iMin (fun _ p q => if Int.bmod q (2 ^ h.sew) < Int.bmod p (2 ^ h.sew) then q else p) := fun n p q _ hp hq => by
  simp only [iMin, bitsInt_signed h.sew_pos hp, bitsInt_signed h.sew_pos hq]

theorem iMax_computes (h : Hart) : h.Computes iMax (fun _ p q => if Int.bmod p (2 ^ h.sew) < Int.bmod q (2 ^ h.sew) then q else p) := fun n p q _ hp hq => by
  simp only [iMax, bitsInt_signed h.sew_pos hp, bitsInt_signed h.sew_pos hq]

theorem iSra_computes (h : Hart) : h.Computes iSra (fun _ p q => intBits h.sew (Int.bmod p (2 ^ h.sew) / 2 ^ (q % h.sew))) := fun n p q _ hp _ => by
  simp only [iSra, bitsInt_signed h.sew_pos hp]

/-- Settles O34: each instruction by `vint_forms`, and what its operation comes to on numbers of SEW bits. -/
theorem vectorIntegerResults : Obligations.VectorIntegerResults := by
  intro s d a b c m x j h w sg md
  simp only [List.forall_mem_cons, List.not_mem_nil, false_implies, implies_true, and_true]
  refine ⟨?_, ?_, ?_, ?_, ?_, ?_, ?_, ?_, ?_, ?_, ?_, ?_, ?_, ?_, ?_, ?_⟩
  · exact vint_forms (f := iAdd) (g := fun _ p q => (p + q) % 2 ^ w) rfl rfl rfl (fun _ _ _ _ _ _ => rfl)
  · exact vint_forms (f := iSub) (g := fun _ p q => md (p - q)) rfl rfl rfl (fun _ _ _ _ _ _ => rfl)
  · exact vint_forms (f := iMul) (g := fun _ p q => p * q % 2 ^ w) rfl rfl rfl (fun _ _ _ _ _ _ => rfl)
  · exact vint_forms (f := iMulh) (g := fun _ p q => if h.fmt = 1 then p * q / 2 ^ w % 2 ^ w else md (sg p * sg q / 2 ^ w)) rfl rfl rfl (iMulh_computes h)
  · exact vint_forms (f := iMacc) (g := fun n p q => (n + p * q) % 2 ^ w) rfl rfl rfl (fun _ _ _ _ _ _ => rfl)
  · exact vint_forms (f := iNmsac) (g := fun n p q => md (n - p * q)) rfl rfl rfl (fun _ _ _ _ _ _ => rfl)
  · exact vint_forms (f := iMin) (g := fun _ p q => if sg q < sg p then q else p) rfl rfl rfl (iMin_computes h)
  · exact vint_forms (f := iMax) (g := fun _ p q => if sg p < sg q then q else p) rfl rfl rfl (iMax_computes h)
  · exact vint_forms (f := iMinu) (g := fun _ p q => min p q) rfl rfl rfl (fun _ _ _ _ _ _ => rfl)
  · exact vint_forms (f := iMaxu) (g := fun _ p q => max p q) rfl rfl rfl (fun _ _ _ _ _ _ => rfl)
  · exact vint_forms (f := iAnd) (g := fun _ p q => p &&& q) rfl rfl rfl (fun _ _ _ _ _ _ => rfl)
  · exact vint_forms (f := iOr) (g := fun _ p q => p ||| q) rfl rfl rfl (fun _ _ _ _ _ _ => rfl)
  · exact vint_forms (f := iXor) (g := fun _ p q => p ^^^ q) rfl rfl rfl (fun _ _ _ _ _ _ => rfl)
  · exact vint_forms (f := iSll) (g := fun _ p q => p * 2 ^ (q % w) % 2 ^ w) rfl rfl rfl (fun _ _ _ _ _ _ => rfl)
  · exact vint_forms (f := iSrl) (g := fun _ p q => p / 2 ^ (q % w)) rfl rfl rfl (fun _ _ _ _ _ _ => rfl)
  · exact vint_forms (f := iSra) (g := fun _ p q => md (sg p / 2 ^ (q % w))) rfl rfl rfl (iSra_computes h)

end Sys2Proof.Machine
end

section
/-! PROOFS. The results of the saturating, averaging, selecting, narrowing and widening instructions (02 R56, 04 R102 to R105). -/

namespace Sys2Proof.Machine

open Sys2Proof

/-! ### Groups that share no register (R10) -/

theorem VOpd.overlaps_eq_false {p q : VOpd} : p.overlaps q = false ↔ p.reg.toNat + p.regs ≤ q.reg.toNat ∨ q.reg.toNat + q.regs ≤ p.reg.toNat := by
  simp only [VOpd.overlaps, Bool.and_eq_false_iff, decide_eq_false_iff_not]
  omega

theorem anyOverlap_eq_false {srcs dsts : List VOpd} (h : anyOverlap srcs dsts = false) {p q : VOpd} (hp : p ∈ srcs) (hq : q ∈ dsts) : q.overlaps p = false := by
  simp only [anyOverlap, List.any_eq_false, Bool.not_eq_true] at h
  exact h q hq p hp

/-- Operands that may be named, of groups of other sizes, share no register. -/
theorem Hart.operandsOk_apart {h : Hart} {srcs dsts : List VOpd} (hok : h.operandsOk srcs dsts = true) {p q : VOpd} (hp : p ∈ srcs) (hq : q ∈ dsts) (hne : q.regs ≠ p.regs) :
    q.overlaps p = false := by
  simp only [Hart.operandsOk, Bool.and_eq_true, Bool.not_eq_true', partialOverlaps, List.any_eq_false, Bool.not_eq_true] at hok
  simpa [VOpd.partialOverlap, hne] using hok.2 q hq p hp

/-- Registers that start groups which share no register have other names. -/
theorem beq_eq_false_of_apart {p q : VOpd} (h : q.overlaps p = false) (hp : 0 < p.regs) (hq : 0 < q.regs) : (q.reg == p.reg) = false := by
  rw [beq_eq_false_iff_ne]
  intro e
  rw [VOpd.overlaps_eq_false, e] at h
  omega

/-! ### Results (R48, R56) -/

/-- A clamp leaves what lies between the ends of its format (R56). -/
theorem satInt_eq (signed : Bool) (w : Nat) (n : Int) : satInt signed w n = max (intMin signed w) (min (intMax signed w) n) := by
  have ends : intMin signed w ≤ intMax signed w := by
    have half : (0 : Int) < 2 ^ (w - 1) := by positivity
    have whole : (0 : Int) < 2 ^ w := by positivity
    cases signed
    · simp only [intMin, intMax, Bool.false_eq_true, if_false]
      omega
    · simp only [intMin, intMax, if_true]
      omega
  unfold satInt
  split
  · omega
  · split <;> omega

/-- A clamped result and IS (R56). -/
theorem clamp_eq (signed : Bool) (w : Nat) (n : Int) :
    clamp signed w n = (intBits w (max (intMin signed w) (min (intMax signed w) n)), { is := decide (n < intMin signed w ∨ intMax signed w < n) }) := by
  have changed : (satInt signed w n != n) = decide (n < intMin signed w ∨ intMax signed w < n) := by
    rw [bne, beq_eq_decide, ← decide_not, decide_eq_decide, satInt]
    split
    · omega
    · split <;> omega
  rw [clamp, changed, satInt_eq]

/-- An element as FMT has it (R96). -/
theorem Hart.bitsInt_fmt (h : Hart) {w n : Nat} (hw : 0 < w) (hn : n < 2 ^ w) : bitsInt h.signed w n = if h.fmt = 1 then (n : Int) else Int.bmod n (2 ^ w) := by
  by_cases hf : h.fmt = 1
  · simp [Hart.signed, hf, bitsInt_unsigned]
  · rw [if_neg hf, ← bitsInt_signed hw hn, Hart.signed, bne_iff_ne.2 hf]

/-- A result clamped to the integers that FMT has. -/
theorem Hart.clamp_fmt (h : Hart) (w : Nat) (n : Int) : clamp h.signed w n = if h.fmt = 1 then clamp false w n else clamp true w n := by
  by_cases hf : h.fmt = 1
  · simp [Hart.signed, hf]
  · rw [if_neg hf, Hart.signed, bne_iff_ne.2 hf]

/-- The four byte products of `vdot4` (R105). -/
theorem Hart.dot4_eq (h : Hart) (a b : Nat) :
    let val := fun (v : Nat) => if h.fmt = 1 then (v : Int) else Int.bmod v (2 ^ 8)
    dot4 h.signed a b = ((List.range 4).map (fun q => val (a / 256 ^ q % 256) * val (b / 256 ^ q % 256))).sum := by
  intro val
  have byte : ∀ n q : Nat, bitsInt h.signed 8 (n / 2 ^ (8 * q) % 256) = val (n / 256 ^ q % 256) := fun n q => by
    rw [pow_mul, show (2 : Nat) ^ 8 = 256 from rfl]
    exact h.bitsInt_fmt (by decide) (Nat.mod_lt _ (by decide))
  unfold dot4
  simp only [byte]

/-! ### The instructions (R102 to R105) -/

/-- A VSAT instruction on operands that may be named. -/
theorem vsatOp_named {s : State} {u : UnitClass} {j : BitVec 1} {d a b : Reg5} {m x : Reg3} (o : IWord) (f : Nat → Nat → Nat → Nat × Exc)
    (hm : s.hart.mayJoin u j = true) (hok : s.hart.operandsOk [s.hart.opd a, s.hart.opd b] [s.hart.opd d] = true) :
    vsatOp (vhdr o u j) f d a b m x s =
      .next (s.vecDone u j d s.hart.sew m x (fun i => f s.hart.sew (s.hart.elem a.toNat s.hart.sew i) (s.hart.elem b.toNat s.hart.sew i))) :=
  vecMap_named (so := [s.hart.opd a, s.hart.opd b]) (o := s.hart.opd d) (vhdr_vector o u j) hm (fun _ _ => rfl) (fun _ _ => rfl) (fun _ _ => rfl) (fun _ _ => rfl) hok
    (fun _ _ _ => rfl)

/-- `vmerge`: its mask selects (R103). -/
theorem exec_vmerge_named {s : State} {j : BitVec 1} {d a b : Reg5} {m : Reg3} (hm : s.hart.mayJoin .valu j = true)
    (hok : s.hart.operandsOk [s.hart.opd a, s.hart.opd b] [s.hart.opd d] = true) :
    exec (.vmerge d a b m j) s = .next (s.vecDone .valu j d s.hart.sew 0 0 (fun i =>
      (if s.hart.maskBit m i then s.hart.elem b.toNat s.hart.sew i else s.hart.elem a.toNat s.hart.sew i, {}))) := by
  have bound : s.hart.streamBad (s.hart.opd d) true true = false := by
    simp only [Hart.streamBad, Hart.plain_stream (Hart.operandsOk_dsts hok) (List.mem_singleton_self _)]
  show execVmerge d a b m j s = _
  unfold execVmerge
  exact vecMap_named (so := [s.hart.opd a, s.hart.opd b]) (o := s.hart.opd d) (vhdr_vector _ .valu j) hm (fun _ _ => bound) (fun _ _ => rfl) (fun _ _ => rfl) (fun _ _ => rfl) hok
    (fun _ _ _ => rfl)

/-- `vmv` (R103). -/
theorem exec_vmv_named {s : State} {j : BitVec 1} {d a : Reg5} (hm : s.hart.mayJoin .valu j = true) (hok : s.hart.operandsOk [s.hart.opd a] [s.hart.opd d] = true) :
    exec (.vmv d a j) s = .next (s.vecDone .valu j d s.hart.sew 0 0 (fun i => (s.hart.elem a.toNat s.hart.sew i, {}))) := by
  show execVmv d a j s = _
  unfold execVmv
  exact vecMap_named (so := [s.hart.opd a]) (o := s.hart.opd d) (vhdr_vector _ .valu j) hm (fun _ _ => rfl) (fun _ _ => rfl) (fun _ _ => rfl) (fun _ _ => rfl) hok
    (fun _ _ _ => rfl)

/-- `vnsra`: its source group is twice as large as its destination (R104). -/
theorem exec_vnsra_named {s : State} {j : BitVec 1} {d a b : Reg5} {m x : Reg3} (hm : s.hart.mayJoin .valu j = true) (hw : s.hart.sew ≤ 32) (hl : s.hart.lmul ≤ 4)
    (hok : s.hart.operandsOk [⟨a, 2 * s.hart.lmul, 2 * s.hart.sew⟩, s.hart.opd b] [s.hart.opd d] = true) :
    exec (.vnsra d a b m x j) s = .next (s.vecDone .valu j d s.hart.sew m x (fun i => clamp s.hart.signed s.hart.sew
      (roundShiftInt s.hart.vrm (bitsInt s.hart.signed (2 * s.hart.sew) (s.hart.elem a.toNat (2 * s.hart.sew) i)) (s.hart.elem b.toNat s.hart.sew i % (2 * s.hart.sew))))) := by
  have pos := s.hart.lmul_pos
  have apart : (s.hart.opd d).overlaps ⟨a, 2 * s.hart.lmul, 2 * s.hart.sew⟩ = false :=
    Hart.operandsOk_apart hok (List.mem_cons_self ..) (List.mem_singleton_self _) (by simp only [Hart.opd]; omega)
  have same : (d == a) = false := beq_eq_false_of_apart apart (by simp only; omega) pos
  have next : (d.toNat == a.toNat + 1) = false := by
    simp only [VOpd.overlaps_eq_false, Hart.opd] at apart
    rw [beq_eq_false_iff_ne]
    omega
  have h64 : (s.hart.sew == 64) = false := by rw [beq_eq_false_iff_ne]; omega
  have h8 : (s.hart.lmul == 8) = false := by rw [beq_eq_false_iff_ne]; omega
  show execVnsra d a b m x j s = _
  unfold execVnsra
  exact vecMap_named (so := [⟨a, 2 * s.hart.lmul, 2 * s.hart.sew⟩, s.hart.opd b]) (o := s.hart.opd d) (vhdr_vector_apart _ .valu j (by simp [same, next])) hm
    (fun _ _ => h64) (fun _ _ => h8) (fun _ _ => rfl) (fun _ _ => rfl) hok (fun _ _ _ => rfl)

/-- `vwmul` and `vwadd`: the destination group is twice as large as the sources, and shares no register with them (R104). -/
theorem widenOp_named {s : State} {u : UnitClass} {j : BitVec 1} {d a b : Reg5} {m : Reg3} (o : IWord) (f : Int → Int → Int) (hm : s.hart.mayJoin u j = true)
    (hw : s.hart.sew ≤ 32) (hl : s.hart.lmul ≤ 4) (hok : s.hart.operandsOk [s.hart.opd a, s.hart.opd b] [⟨d, 2 * s.hart.lmul, 2 * s.hart.sew⟩] = true)
    (hno : anyOverlap [s.hart.opd a, s.hart.opd b] [⟨d, 2 * s.hart.lmul, 2 * s.hart.sew⟩] = false) :
    widenOp (vhdr o u j) f d a b m s = .next (s.vecDone u j d (2 * s.hart.sew) m 0 (fun i => (intBits (2 * s.hart.sew)
      (f (bitsInt s.hart.signed s.hart.sew (s.hart.elem a.toNat s.hart.sew i)) (bitsInt s.hart.signed s.hart.sew (s.hart.elem b.toNat s.hart.sew i))), {}))) := by
  have pos := s.hart.lmul_pos
  have apart : ∀ r : Reg5, s.hart.opd r ∈ [s.hart.opd a, s.hart.opd b] → (d == r) = false ∧ (r.toNat == d.toNat + 1) = false := by
    intro r hr
    have h := anyOverlap_eq_false hno hr (List.mem_singleton_self _)
    refine ⟨beq_eq_false_of_apart h pos (by simp only; omega), ?_⟩
    simp only [VOpd.overlaps_eq_false, Hart.opd] at h
    rw [beq_eq_false_iff_ne]
    omega
  obtain ⟨da, ad⟩ := apart a (by simp)
  obtain ⟨db, bd⟩ := apart b (by simp)
  have h64 : (s.hart.sew == 64) = false := by rw [beq_eq_false_iff_ne]; omega
  have h7 : (s.hart.lmul == 8 || anyOverlap [s.hart.opd a, s.hart.opd b] [⟨d, 2 * s.hart.lmul, 2 * s.hart.sew⟩]) = false := by
    rw [hno, Bool.or_false, beq_eq_false_iff_ne]
    omega
  exact vecMap_named (so := [s.hart.opd a, s.hart.opd b]) (o := ⟨d, 2 * s.hart.lmul, 2 * s.hart.sew⟩) (vhdr_vector_apart o u j (by rw [da, db, ad, bd]; rfl)) hm
    (fun _ _ => h64) (fun _ _ => h7) (fun _ _ => rfl) (fun _ _ => rfl) hok (fun _ _ _ => rfl)

/-- `vdot4`: its destination is a source too (R105). -/
theorem exec_vdot4_named {s : State} {j : BitVec 1} {d a b : Reg5} {m : Reg3} (hm : s.hart.mayJoin .vmul j = true) (hw : s.hart.sew = 32)
    (hok : s.hart.operandsOk [s.hart.opd a, s.hart.opd b] [s.hart.opd d] = true) :
    exec (.vdot4 d a b m j) s = .next (s.vecDone .vmul j d 32 m 0 (fun i => (intBits 32 ((s.hart.elem d.toNat 32 i : Int) +
      dot4 s.hart.signed (s.hart.elem a.toNat s.hart.sew i) (s.hart.elem b.toNat s.hart.sew i)), {}))) := by
  have h32 : (s.hart.sew != 32) = false := by rw [hw]; rfl
  have width : (⟨d, s.hart.lmul, 32⟩ : VOpd) = s.hart.opd d := by rw [Hart.opd, hw]
  show execVdot4 d a b m j s = _
  unfold execVdot4
  exact vecMap_named (so := [s.hart.opd a, s.hart.opd b, s.hart.opd d]) (o := ⟨d, s.hart.lmul, 32⟩) (vhdr_vector _ .vmul j) hm (fun _ _ => h32) (fun _ _ => rfl) (fun _ _ => rfl)
    (fun _ _ => width.symm) (width ▸ Hart.operandsOk_accumulate hok) (fun _ _ _ => rfl)

/-- Settles O35: each instruction by its lemma above, and its results as clamps and integers. -/
theorem saturatingWideningAndSelectingResults : Obligations.SaturatingWideningAndSelectingResults := by
  intro s d a b m x j h w sg clampTo cs cu ea eb val to2 by4
  have hw : 0 < w := h.sew_pos
  have done : ∀ {i : Instr} {u : UnitClass} {n : Nat} {k y : Reg3} {f g : Nat → Nat × Exc}, exec i s = .next (s.vecDone u j d n k y f) → (∀ i, f i = g i) →
      exec i s = .next (s.vecDone u j d n k y g) := fun e hfg => funext hfg ▸ e
  have sat : ∀ {i : Instr} {o : IWord} {f : Nat → Nat → Nat → Nat × Exc} {g : Nat → Nat × Exc}, h.mayJoin .valu j = true → h.operandsOk [h.opd a, h.opd b] [h.opd d] = true →
      exec i s = vsatOp (vhdr o .valu j) f d a b m x s → (∀ i, f w (ea i) (eb i) = g i) → exec i s = .next (s.vecDone .valu j d w m x g) := fun hm hok e hfg =>
    done (e.trans (vsatOp_named _ _ hm hok)) hfg
  have signed : ∀ (r : Reg5) (i : Nat), bitsInt true w (h.elem r.toNat w i) = sg (h.elem r.toNat w i) := fun r i => bitsInt_signed hw (h.elem_lt _ _ _)
  have value : ∀ (r : Reg5) {n : Nat} (i : Nat), 0 < n → bitsInt h.signed n (h.elem r.toNat n i) = val n (h.elem r.toNat n i) := fun r n i hn => h.bitsInt_fmt hn (h.elem_lt _ _ _)
  refine ⟨fun hm hok => ⟨?_, ?_, ?_, ?_, ?_, ?_, exec_vmerge_named hm hok⟩, fun hm hok => exec_vmv_named hm hok, fun hm h32 hl hok => ?_, fun h32 hl hok hno => ⟨fun hm => ?_, fun hm => ?_⟩,
    fun hm h32 hok => ?_⟩
  · exact sat hm hok (show exec _ s = execVsadd d a b m x j s from rfl) (fun i => by rw [signed, signed]; exact clamp_eq true w _)
  · exact sat hm hok (show exec _ s = execVsaddu d a b m x j s from rfl) (fun i => clamp_eq false w _)
  · exact sat hm hok (show exec _ s = execVssub d a b m x j s from rfl) (fun i => by rw [signed, signed]; exact clamp_eq true w _)
  · exact sat hm hok (show exec _ s = execVssubu d a b m x j s from rfl) (fun i => clamp_eq false w _)
  · exact sat hm hok (show exec _ s = execVavg d a b m x j s from rfl) (fun i => by rw [signed, signed]; rfl)
  · exact sat hm hok (show exec _ s = execVavgu d a b m x j s from rfl) (fun i => rfl)
  · refine done (exec_vnsra_named hm h32 hl hok) (fun i => ?_)
    rw [value a i (Nat.mul_pos (by decide) hw), h.clamp_fmt]
    exact ite_congr rfl (fun _ => clamp_eq false w _) (fun _ => clamp_eq true w _)
  · refine done ((show exec _ s = execVwmul d a b m j s from rfl).trans (widenOp_named _ (fun p q => p * q) hm h32 hl hok hno)) (fun i => ?_)
    rw [value a i hw, value b i hw]
    rfl
  · refine done ((show exec _ s = execVwadd d a b m j s from rfl).trans (widenOp_named _ (fun p q => p + q) hm h32 hl hok hno)) (fun i => ?_)
    rw [value a i hw, value b i hw]
    rfl
  · refine done (exec_vdot4_named hm h32 hok) (fun i => ?_)
    rw [h.dot4_eq]
    rfl

end Sys2Proof.Machine
end

section
/-! PROOFS. The results of compares and of mask instructions (01 R14, 02 R57, 04 R114, R115). -/

namespace Sys2Proof.Machine

open Sys2Proof

/-! ### Results in a mask register -/

/-- The state past an instruction that writes a mask register: `f` gives the bit of an active element and its exceptions. -/
def State.masked (s : State) (u : UnitClass) (j : BitVec 1) (d : Reg5) (m x : Reg3) (f : Nat → Bool × Exc) : State :=
  { s with hart := s.hart.maskDone u j d x ((s.hart.active m s.hart.vl).map (fun i => (i, f i))) }

/-- Operand b of element i of a compare, a vector b being a group (R97). -/
def FForm.elemCode (f : FForm) (h : Hart) (i : Nat) : Nat :=
  match f with
  | .vv b => h.elem b.toNat h.sew i
  | .vs b => (h.gs b).toNat % 2 ^ h.sew

theorem FForm.elemCode_lt (f : FForm) (h : Hart) (i : Nat) : f.elemCode h i < 2 ^ h.sew := by
  cases f with
  | vv b => exact h.elem_lt _ _ _
  | vs b => exact Nat.mod_lt _ (Nat.two_pow_pos _)

theorem FVal.isNan_eq (v : FVal) : v.isNan = decide (v = .nan) := by
  cases v <;> rfl

/-- The float formats that the element-wise instructions may have. -/
theorem Hart.fmtIn_floats {h : Hart} (h2 : 2 ≤ h.fmt) (h6 : h.fmt ≤ 6) : (!h.fmtIn [2, 3, 4, 5, 6]) = false := by
  have : h.fmt = 2 ∨ h.fmt = 3 ∨ h.fmt = 4 ∨ h.fmt = 5 ∨ h.fmt = 6 := by omega
  rcases this with e | e | e | e | e <;> rw [Hart.fmtIn, e] <;> rfl

section Compare

variable {s : State} {j : BitVec 1} {d a : Reg5} {b : FForm}

/-- The operands of a compare once its hart has joined. -/
theorem FForm.srcs_going (b : FForm) (h g : Hart) (c : Option Convoy) (a : Reg5) : (h.going g c).opd a :: b.srcs (h.going g c) = h.opd a :: b.srcs h := by
  cases b <;> rfl

theorem FForm.code_named (b : FForm) (h g : Hart) (c : Option Convoy) (a : Reg5) (i : Nat) :
    b.code (h.going g c) (h.named (h.opd a :: b.srcs h)) i = b.elemCode h i := by
  cases b <;> rfl

/-- An integer compare on operands that may be named (R114). -/
theorem vcmpOp_named (w : IWord) (f : Nat → Nat → Nat → Bool) (m x : Reg3) (hm : s.hart.mayJoin .xlane j = true)
    (hok : s.hart.operandsOk (s.hart.opd a :: b.srcs s.hart) [] = true) :
    vcmpOp (vhdr w .xlane j) f d a b m x s =
      .next (s.masked .xlane j d m x (fun i => (f s.hart.sew (s.hart.elem a.toNat s.hart.sew i) (b.elemCode s.hart i), {}))) :=
  vecMask_named (so := s.hart.opd a :: b.srcs s.hart) (vhdr_vector w .xlane j) hm (fun _ _ => rfl) (fun _ _ => b.srcs_going _ _ _ a) hok
    (fun _ _ i => by rw [b.code_named]; rfl)

/-- A float compare on operands that may be named (R114). -/
theorem vfcmpOp_named (w : IWord) (ordered : Bool) (f : FVal → FVal → Bool) (m x : Reg3) (h2 : 2 ≤ s.hart.fmt) (h6 : s.hart.fmt ≤ 6) (hm : s.hart.mayJoin .xlane j = true)
    (hok : s.hart.operandsOk (s.hart.opd a :: b.srcs s.hart) [] = true) :
    vfcmpOp (vhdr w .xlane j) ordered f d a b m x s = .next (s.masked .xlane j d m x (fun i =>
      let p := s.hart.ff.read (s.hart.elem a.toNat s.hart.sew i)
      let q := s.hart.ff.read (b.elemCode s.hart i)
      (f p q, { nv := ordered && (decide (p = .nan) || decide (q = .nan)) }))) :=
  vecMask_named (so := s.hart.opd a :: b.srcs s.hart) (vhdr_vector w .xlane j) hm (fun _ _ => Hart.fmtIn_floats h2 h6) (fun _ _ => b.srcs_going _ _ _ a) hok
    (fun _ _ i => by simp only [b.code_named, FVal.isNan_eq]; rfl)

end Compare

/-- A mask instruction (R115). -/
theorem maskOp_masked {s : State} {j : BitVec 1} {d : Reg5} {x : Reg3} (w : IWord) (f : Hart → Nat → Bool) (hm : s.hart.mayJoin .valu j = true)
    (hf : ∀ g c, f (s.hart.going g c) = f s.hart) :
    maskOp (vhdr w .valu j) f d x s = .next (s.masked .valu j d 0 x (fun i => (f s.hart i, {}))) :=
  vecMask_named (so := []) (vhdr_vector w .valu j) hm (fun _ _ => rfl) (fun _ _ => rfl) rfl (fun g c i => by rw [hf g c])

/-- `mtov` (Table 4-7). -/
theorem exec_mtov_named {s : State} {j : BitVec 1} {d a : Reg5} {m x : Reg3} (hm : s.hart.mayJoin .valu j = true) (hok : s.hart.operandsOk [] [s.hart.opd d] = true) :
    exec (.mtov d a m x j) s = .next (s.vecDone .valu j d s.hart.sew m x (fun i => ((s.hart.mbit a i).toNat, {}))) := by
  show execMtov d a m x j s = _
  unfold execMtov
  exact vecMap_named (so := []) (o := s.hart.opd d) (vhdr_vector _ .valu j) hm (fun _ _ => rfl) (fun _ _ => rfl) (fun _ _ => rfl) (fun _ _ => rfl) hok (fun _ _ _ => rfl)

/-- `vtom` (Table 4-7). -/
theorem exec_vtom_named {s : State} {j : BitVec 1} {d a : Reg5} {m x : Reg3} (hm : s.hart.mayJoin .valu j = true) (hok : s.hart.operandsOk [s.hart.opd a] [] = true) :
    exec (.vtom d a m x j) s = .next (s.masked .valu j d m x (fun i => (decide (s.hart.elem a.toNat s.hart.sew i ≠ 0), {}))) := by
  show execVtom d a m x j s = _
  unfold execVtom
  exact vecMask_named (so := [s.hart.opd a]) (vhdr_vector _ .valu j) hm (fun _ _ => rfl) (fun _ _ => rfl) hok (fun _ _ i => by simp [Hart.named, Hart.opd, bne, beq_eq_decide])

/-! ### Counts and first bits (Table 4-7) -/

/-- A vector instruction without operands that writes one s register. -/
theorem vecRun_writes {s : State} {j : BitVec 1} {d : Reg5} {u : UnitClass} (w : IWord) (f : Hart → Word) (hm : s.hart.mayJoin u j = true) (hf : ∀ g c, f (s.hart.going g c) = f s.hart) :
    vecRun { vhdr w u j with swrites := [d] } (fun _ => false) (fun _ => false) false (fun _ => []) (fun _ => []) (fun s _ _ => .next (s.ps d (f s.hart))) s =
      .next { s with hart := (s.hart.vectorPast 4 u j [d]).ps d (f s.hart) } := by
  rw [vecRun_named (so := []) (ds := []) (vhdr_vector_writes w u j [d]) hm (fun _ _ => rfl) (fun _ _ => rfl) (fun _ _ => rfl) (fun _ _ => rfl) rfl rfl,
    (vhdr_vector_writes w u j [d]).finish_ps, State.joined_hart, hf]

/-- The first of some numbers as a word, -1 where there is none. -/
def firstWord : List Nat → Word
  | [] => BitVec.ofInt 64 (-1)
  | i :: _ => BitVec.ofNat 64 i

/-- `mffs` (Table 4-7). -/
theorem exec_mffs_writes {s : State} {j : BitVec 1} {d a : Reg5} {m : Reg3} (hm : s.hart.mayJoin .xlane j = true) :
    exec (.mffs d a m j) s = .next { s with hart := (s.hart.vectorPast 4 .xlane j [d]).ps d (firstWord (s.hart.marked a m)) } := by
  have first : firstWord (s.hart.marked a m) = match (s.hart.marked a m).head? with
      | some i => BitVec.ofNat 64 i
      | none => BitVec.allOnes 64 := by
    cases s.hart.marked a m <;> rfl
  rw [first]
  exact vecRun_writes _ (fun h => match (h.marked a m).head? with
    | some i => BitVec.ofNat 64 i
    | none => BitVec.allOnes 64) hm (fun _ _ => rfl)

theorem Hart.active_ascending (h : Hart) (m : Reg3) (n : Nat) : (h.active m n).Pairwise (· < ·) := List.pairwise_lt_range.filter _

theorem Hart.mem_active {h : Hart} {m : Reg3} {n i : Nat} (hi : i ∈ h.active m n) : i < n := List.mem_range.1 (List.mem_of_mem_filter hi)

/-- Below the first of some ascending numbers under n, or below n where there is none. -/
theorem lt_head_iff {n i : Nat} {xs : List Nat} (up : xs.Pairwise (· < ·)) (below : ∀ k ∈ xs, k < n) : i < xs.head?.getD n ↔ (∀ k ∈ xs, i < k) ∧ i < n := by
  cases xs with
  | nil => simp
  | cons k ks =>
    have first : ∀ {q : Nat}, q ∈ ks → k < q := List.rel_of_pairwise_cons up
    have hk := below k (List.mem_cons_self ..)
    constructor
    · intro hi
      have hi : i < k := hi
      exact ⟨fun q hq => (List.mem_cons.1 hq).elim (fun e => e ▸ hi) (fun hq => hi.trans (first hq)), hi.trans hk⟩
    · exact fun ⟨all, _⟩ => all k (List.mem_cons_self ..)

/-- `msbf` marks the elements before the first active bit that is set (Table 4-7). -/
theorem exec_msbf_masked {s : State} {j : BitVec 1} {d a : Reg5} {m x : Reg3} (hm : s.hart.mayJoin .xlane j = true) (hne : d ≠ a) :
    exec (.msbf d a m x j) s = .next (s.masked .xlane j d m x (fun i => (decide (∀ k ∈ s.hart.marked a m, i < k) && decide (i < s.hart.vl), {}))) := by
  have before : ∀ i, decide (i < (s.hart.marked a m).head?.getD s.hart.vl) = (decide (∀ k ∈ s.hart.marked a m, i < k) && decide (i < s.hart.vl)) := fun i => by
    rw [← Bool.decide_and, decide_eq_decide]
    exact lt_head_iff ((s.hart.active_ascending m _).filter _) (fun k hk => Hart.mem_active (List.mem_of_mem_filter hk))
  show execMsbf d a m x j s = _
  unfold execMsbf
  exact vecMask_named (so := []) (vhdr_vector_apart _ .xlane j (beq_eq_false_iff_ne.2 hne)) hm (fun _ _ => rfl) (fun _ _ => rfl) rfl (fun _ _ i => congrArg (fun p => (p, ({} : Exc))) (before i))

section Forms

variable {s : State} {j : BitVec 1} {d a b : Reg5} {m x : Reg3} {vv vs : Instr} {wv ws : IWord}

/-- The two forms of an integer compare. -/
theorem vcmp_forms {f : Nat → Nat → Nat → Bool} {r : Nat → Nat → Bool} (ev : exec vv s = vcmpOp (vhdr wv .xlane j) f d a (.vv b) m x s)
    (es : exec vs s = vcmpOp (vhdr ws .xlane j) f d a (.vs b) m x s) (hm : s.hart.mayJoin .xlane j = true)
    (hr : ∀ p q, p < 2 ^ s.hart.sew → q < 2 ^ s.hart.sew → f s.hart.sew p q = r p q) :
    (s.hart.operandsOk [s.hart.opd a, s.hart.opd b] [] = true → exec vv s =
      .next (s.masked .xlane j d m x (fun i => (r (s.hart.elem a.toNat s.hart.sew i) (s.hart.elem b.toNat s.hart.sew i), {})))) ∧
    (s.hart.operandsOk [s.hart.opd a] [] = true → exec vs s =
      .next (s.masked .xlane j d m x (fun i => (r (s.hart.elem a.toNat s.hart.sew i) ((s.gs b).toNat % 2 ^ s.hart.sew), {})))) := by
  have run : ∀ {i : Instr} {w : IWord} (q : FForm), exec i s = vcmpOp (vhdr w .xlane j) f d a q m x s → s.hart.operandsOk (s.hart.opd a :: q.srcs s.hart) [] = true →
      exec i s = .next (s.masked .xlane j d m x (fun i => (r (s.hart.elem a.toNat s.hart.sew i) (q.elemCode s.hart i), {}))) := fun {_ w} q e hok =>
    (e.trans (vcmpOp_named w f m x hm hok)).trans (congrArg (fun g => Host.Outcome.next (s.masked .xlane j d m x g))
      (funext fun i => congrArg (fun p => (p, ({} : Exc))) (hr _ _ (s.hart.elem_lt _ _ _) (q.elemCode_lt s.hart i))))
  exact ⟨run (.vv b) ev, run (.vs b) es⟩

/-- The two forms of a float compare. -/
theorem vfcmp_forms {ordered : Bool} {f : FVal → FVal → Bool} {g : Nat → Nat → Bool × Exc} (ev : exec vv s = vfcmpOp (vhdr wv .xlane j) ordered f d a (.vv b) m x s)
    (es : exec vs s = vfcmpOp (vhdr ws .xlane j) ordered f d a (.vs b) m x s) (hm : s.hart.mayJoin .xlane j = true) (h2 : 2 ≤ s.hart.fmt) (h6 : s.hart.fmt ≤ 6)
    (hg : ∀ p q, (f (s.hart.ff.read p) (s.hart.ff.read q),
      ({ nv := ordered && (decide (s.hart.ff.read p = .nan) || decide (s.hart.ff.read q = .nan)) } : Exc)) = g p q) :
    (s.hart.operandsOk [s.hart.opd a, s.hart.opd b] [] = true → exec vv s =
      .next (s.masked .xlane j d m x (fun i => g (s.hart.elem a.toNat s.hart.sew i) (s.hart.elem b.toNat s.hart.sew i)))) ∧
    (s.hart.operandsOk [s.hart.opd a] [] = true → exec vs s =
      .next (s.masked .xlane j d m x (fun i => g (s.hart.elem a.toNat s.hart.sew i) ((s.gs b).toNat % 2 ^ s.hart.sew)))) := by
  have run : ∀ {i : Instr} {w : IWord} (q : FForm), exec i s = vfcmpOp (vhdr w .xlane j) ordered f d a q m x s → s.hart.operandsOk (s.hart.opd a :: q.srcs s.hart) [] = true →
      exec i s = .next (s.masked .xlane j d m x (fun i => g (s.hart.elem a.toNat s.hart.sew i) (q.elemCode s.hart i))) := fun {_ w} q e hok =>
    (e.trans (vfcmpOp_named w ordered f m x h2 h6 hm hok)).trans (congrArg (fun r => Host.Outcome.next (s.masked .xlane j d m x r)) (funext fun i => hg _ _))
  exact ⟨run (.vv b) ev, run (.vs b) es⟩

end Forms

/-- Settles O39: the compares by their two forms, the mask instructions by the lemmas above. -/
theorem compareAndMaskResults : Obligations.CompareAndMaskResults := by
  intro s d a b m x j h w sg nan no masked cmp
  have signed : ∀ {n : Nat}, n < 2 ^ w → bitsInt true w n = sg n := fun hn => bitsInt_signed h.sew_pos hn
  refine ⟨fun hm => ⟨?_, ?_, ?_, ?_, ?_, ?_, ?_, ?_, fun h2 h6 => ⟨?_, ?_, ?_, ?_⟩⟩, ?_⟩
  · exact vcmp_forms (f := fun _ p q => p == q) (r := fun p q => decide (p = q)) rfl rfl hm (fun p q _ _ => beq_eq_decide p q)
  · exact vcmp_forms (f := fun _ p q => p != q) (r := fun p q => decide (p ≠ q)) rfl rfl hm (fun p q _ _ => by rw [bne, beq_eq_decide, decide_not])
  · exact vcmp_forms (f := fun w p q => decide (bitsInt true w p < bitsInt true w q)) (r := fun p q => decide (sg p < sg q)) rfl rfl hm
      (fun p q hp hq => by rw [← signed hp, ← signed hq])
  · exact vcmp_forms (f := fun w p q => decide (bitsInt true w p ≤ bitsInt true w q)) (r := fun p q => decide (sg p ≤ sg q)) rfl rfl hm
      (fun p q hp hq => by rw [← signed hp, ← signed hq])
  · exact vcmp_forms (f := fun w p q => decide (bitsInt true w q < bitsInt true w p)) (r := fun p q => decide (sg q < sg p)) rfl rfl hm
      (fun p q hp hq => by rw [← signed hp, ← signed hq])
  · exact vcmp_forms (f := fun w p q => decide (bitsInt true w q ≤ bitsInt true w p)) (r := fun p q => decide (sg q ≤ sg p)) rfl rfl hm
      (fun p q hp hq => by rw [← signed hp, ← signed hq])
  · exact vcmp_forms (f := fun _ p q => decide (p < q)) (r := fun p q => decide (p < q)) rfl rfl hm (fun _ _ _ _ => rfl)
  · exact vcmp_forms (f := fun _ p q => decide (p ≤ q)) (r := fun p q => decide (p ≤ q)) rfl rfl hm (fun _ _ _ _ => rfl)
  · exact vfcmp_forms (ordered := false) (f := FVal.eq) (g := fun p q => (FVal.eq (h.ff.read p) (h.ff.read q), no)) rfl rfl hm h2 h6 (fun _ _ => rfl)
  · exact vfcmp_forms (ordered := true) (f := FVal.lt) (g := fun p q => (FVal.lt (h.ff.read p) (h.ff.read q), { nv := nan p || nan q })) rfl rfl hm h2 h6 (fun _ _ => rfl)
  · exact vfcmp_forms (ordered := true) (f := fun p q => p.lt q || p.eq q)
      (g := fun p q => (FVal.lt (h.ff.read p) (h.ff.read q) || FVal.eq (h.ff.read p) (h.ff.read q), { nv := nan p || nan q })) rfl rfl hm h2 h6 (fun _ _ => rfl)
  · exact vfcmp_forms (ordered := false) (f := fun p q => p.isNan || q.isNan) (g := fun p q => (nan p || nan q, no)) rfl rfl hm h2 h6
      (fun p q => by rw [FVal.isNan_eq, FVal.isNan_eq]; rfl)
  · intro bit ones
    refine ⟨fun hm => ?_, fun hm => ⟨?_, ?_, fun hne => exec_msbf_masked hm hne⟩⟩
    · have op : ∀ {i : Instr} {o : IWord} (f : Hart → Nat → Bool), exec i s = maskOp (vhdr o .valu j) f d x s → (∀ g c, f (h.going g c) = f h) →
          exec i s = .next (s.masked .valu j d 0 x (fun n => (f h n, no))) := fun f e hf => e.trans (maskOp_masked _ f hm hf)
      refine ⟨?_, ?_, ?_, ?_, ?_, ?_, ?_, ?_, fun hok => exec_mtov_named hm hok, fun hok => exec_vtom_named hm hok⟩
      · exact op (fun h n => h.mbit a n && h.mbit b n) rfl (fun _ _ => rfl)
      · exact op (fun h n => h.mbit a n || h.mbit b n) rfl (fun _ _ => rfl)
      · exact op (fun h n => h.mbit a n != h.mbit b n) rfl (fun _ _ => rfl)
      · exact op (fun h n => h.mbit a n && !h.mbit b n) rfl (fun _ _ => rfl)
      · exact op (fun h n => !h.mbit a n) rfl (fun _ _ => rfl)
      · exact op (fun h n => h.mbit a n) rfl (fun _ _ => rfl)
      · exact op (fun _ _ => true) rfl (fun _ _ => rfl)
      · exact op (fun _ _ => false) rfl (fun _ _ => rfl)
    · exact vecRun_writes _ (fun h => BitVec.ofNat 64 (h.marked a m).length) hm (fun _ _ => rfl)
    · exact exec_mffs_writes hm

end Sys2Proof.Machine
end

section
/-! PROOFS. The results of the permutations but for `vtopk` (02 R43, 04 R100, R117). -/

namespace Sys2Proof.Machine

open Sys2Proof

/-! ### Elements written by an instruction of its own result list -/

/-- Setting elements leaves what does not depend on the vector registers and the errors in registers. -/
theorem Hart.putElems_other {α : Type} (h : Hart) (f : Hart → α) (r w : Nat) (xs : List (Nat × Nat)) (hf : ∀ (g : Hart) v bad, f { g with v := v, bad := bad } = f g) :
    f (h.putElems r w xs) = f h :=
  (congrArg f (Hart.putElems_eq r w xs h)).trans (hf _ _ _)

/-- Elements written into a group that is no stream, from plain sources. -/
theorem State.putResult_plain {s : State} (hd : Hdr) (n : Nat) {so : List VOpd} {o : VOpd} (xs : List (Nat × Nat)) (post : (Nat → Bool) → State → State)
    (hs : ∀ q ∈ so, s.hart.stream q.reg = none) (ho : s.hart.stream o.reg = none) :
    s.putResult hd n so o xs post = .next (post (fun _ => true) (s.upd (·.putElems o.reg.toNat o.w xs))) := by
  have none : ∀ q ∈ so, (s.hart.putElems o.reg.toNat o.w xs).stream q.reg = .none := fun q hq =>
    (s.hart.putElems_other (·.stream q.reg) _ _ _ fun _ _ _ => rfl).trans (hs q hq)
  simp only [State.putResult, ho, State.upd, Hart.advance_plain _ _ _ none]

/-- Elements written after the hart has joined stand as without joining. -/
theorem Hdr.Vector.finish_putElems {hd : Hdr} {u : UnitClass} {j : BitVec 1} {sw : List Reg5} (hv : hd.Vector u j sw) (s : State) (c : Option Convoy) (r w : Nat) (xs : List (Nat × Nat)) :
    hd.finish c (.next ((s.joined u j sw).upd (·.putElems r w xs))) = { s with hart := (s.hart.putElems r w xs).vectorPast 4 u j sw } := by
  have written : ((s.joined u j sw).upd (·.putElems r w xs)).hart = (s.hart.putElems r w xs).going s.hart.begin_ (s.hart.convoyWith u j sw) := by
    rw [State.upd_hart, State.joined_hart, Hart.putElems_convoy]
  exact hv.finish (s := s) c written (s.hart.putElems_other Hart.convoy r w xs fun _ _ _ => rfl) (s.hart.putElems_other Hart.cur r w xs fun _ _ _ => rfl)
    (s.hart.putElems_other Hart.places r w xs fun _ _ _ => rfl) (s.hart.putElems_other Hart.refuse r w xs fun _ _ _ => rfl)

/-- A permutation on operands that may be named, and that share no register where its destination may share none with a source (R100). -/
theorem permOp_named {hd : Hdr} {s : State} {u : UnitClass} {j : BitVec 1} {forbid below masked : Bool} {srcs : Hart → List VOpd} {so : List VOpd} {d : Reg5}
    {f : Hart → (Nat → Nat → Nat) → List (Nat × Nat)} {xs : List (Nat × Nat)} (hv : hd.Vector u j []) (hm : s.hart.mayJoin u j = true)
    (hs : ∀ g c, srcs (s.hart.going g c) = so) (hok : s.hart.operandsOk so [s.hart.opd d] = true) (hno : forbid = true → anyOverlap so [s.hart.opd d] = false)
    (hf : ∀ g c, f (s.hart.going g c) (s.hart.named so) = xs) :
    permOp hd forbid below masked srcs d f s = .next { s with hart := (s.hart.putElems d.toNat s.hart.sew xs).vectorPast 4 u j [] } := by
  have parts : partialOverlaps so [s.hart.opd d] = false := by
    simp only [Hart.operandsOk, Bool.and_eq_true, Bool.not_eq_true'] at hok
    exact hok.2
  have apart : ∀ g c, (if forbid then anyOverlap (srcs (s.hart.going g c)) [(s.hart.going g c).opd d] else partialOverlaps (srcs (s.hart.going g c)) [(s.hart.going g c).opd d]) = false := by
    intro g c
    rw [hs]
    cases forbid with
    | false => exact parts
    | true => exact hno rfl
  have sound : (s.joined u j []).hart.sound = true := (s.joined_sound u j []).trans (Hart.mayJoin_sound hm)
  have plain : ∀ {os : List VOpd} {q : VOpd}, s.hart.plainGroups os = true → q ∈ os → (s.joined u j []).hart.stream q.reg = none := fun hp hq => by
    rw [State.joined_hart]
    exact Hart.plain_stream hp hq
  have dst : (s.joined u j []).hart.opd d = s.hart.opd d := by
    rw [State.joined_hart]
    rfl
  have list : f (s.joined u j []).hart (s.hart.named so) = xs := by rw [State.joined_hart, hf]
  unfold permOp
  rw [vecRun_named (so := so) (ds := [s.hart.opd d]) hv hm (fun _ _ => rfl) apart hs (fun _ _ => rfl) (Hart.operandsOk_srcs hok) (Hart.operandsOk_dsts hok),
    State.reading_sound _ _ _ sound, dst, list, State.putResult_plain hd _ xs _ (fun _ => plain (Hart.operandsOk_srcs hok)) (plain (Hart.operandsOk_dsts hok) (List.mem_singleton_self _))]
  exact congrArg Host.Outcome.next (hv.finish_putElems s s.hart.convoy d.toNat s.hart.sew xs)

/-- The header of a permutation whose registers are apart. -/
theorem permHdr_vector (w : IWord) (j : BitVec 1) {same : Bool} (h : same = false) : (permHdr w j same).Vector .xlane j [] := vhdr_vector_apart w .xlane j h

/-- A source of an instruction whose destination may share no register with a source has another name. -/
theorem Hart.beq_eq_false_of_noOverlap {h : Hart} {so : List VOpd} {d r : Reg5} (hno : anyOverlap so [h.opd d] = false) (hr : h.opd r ∈ so) : (d == r) = false :=
  beq_eq_false_of_apart (anyOverlap_eq_false hno hr (List.mem_singleton_self _)) h.lmul_pos h.lmul_pos

section Forms

variable {s : State} {i : Instr} {w : IWord} {j : BitVec 1} {d a b : Reg5} {m : Reg3} {below masked : Bool} {f : Hart → (Nat → Nat → Nat) → List (Nat × Nat)} {xs : List (Nat × Nat)}

/-- The state past a permutation: elements of the destination. -/
def State.permuted (s : State) (u : UnitClass) (j : BitVec 1) (d : Reg5) (xs : List (Nat × Nat)) : State :=
  { s with hart := (s.hart.putElems d.toNat s.hart.sew xs).vectorPast 4 u j [] }

/-- A permutation of one source, which its destination may not overlap. -/
theorem perm_one (hm : s.hart.mayJoin .xlane j = true) (hok : s.hart.operandsOk [s.hart.opd a] [s.hart.opd d] = true) (hno : anyOverlap [s.hart.opd a] [s.hart.opd d] = false)
    (he : exec i s = permOp (permHdr w j (d == a)) true below masked (fun h => [h.opd a]) d f s) (hf : ∀ g c, f (s.hart.going g c) (s.hart.named [s.hart.opd a]) = xs) :
    exec i s = .next (s.permuted .xlane j d xs) :=
  he.trans (permOp_named (permHdr_vector w j (Hart.beq_eq_false_of_noOverlap hno (List.mem_singleton_self _))) hm (fun _ _ => rfl) hok (fun _ => hno) hf)

/-- A permutation of two sources, which its destination may not overlap. -/
theorem perm_two (hm : s.hart.mayJoin .xlane j = true) (hok : s.hart.operandsOk [s.hart.opd a, s.hart.opd b] [s.hart.opd d] = true)
    (hno : anyOverlap [s.hart.opd a, s.hart.opd b] [s.hart.opd d] = false)
    (he : exec i s = permOp (permHdr w j (d == a || d == b)) true below masked (fun h => [h.opd a, h.opd b]) d f s)
    (hf : ∀ g c, f (s.hart.going g c) (s.hart.named [s.hart.opd a, s.hart.opd b]) = xs) : exec i s = .next (s.permuted .xlane j d xs) := by
  have apart : (d == a || d == b) = false := by
    rw [Hart.beq_eq_false_of_noOverlap hno (r := a) (by simp), Hart.beq_eq_false_of_noOverlap hno (r := b) (by simp)]
    rfl
  exact he.trans (permOp_named (permHdr_vector w j apart) hm (fun _ _ => rfl) hok (fun _ => hno) hf)

/-- A permutation that reads no vector register. -/
theorem perm_none {u : UnitClass} (hm : s.hart.mayJoin u j = true) (hok : s.hart.operandsOk [] [s.hart.opd d] = true)
    (he : exec i s = permOp (vhdr w u j) false below masked (fun _ => []) d f s) (hf : ∀ g c, f (s.hart.going g c) (s.hart.named []) = xs) :
    exec i s = .next (s.permuted u j d xs) :=
  he.trans (permOp_named (vhdr_vector w u j) hm (fun _ _ => rfl) hok (fun h => Bool.noConfusion h) hf)

end Forms

/-- What `vext` writes: element k as a word, 0 where k is at or above VL (Table 4-9). -/
def Hart.extracted (h : Hart) (a : Reg5) (k : Nat) : Word := if k < h.vl then BitVec.ofInt 64 (bitsInt (h.fmt == 0) h.sew (h.elem a.toNat h.sew k)) else 0

/-- `vext`: with VL = 0 its destination stays (R43). -/
theorem exec_vext_named {s : State} {j : BitVec 1} {d a b : Reg5} (hm : s.hart.mayJoin .xlane j = true) (hok : s.hart.operandsOk [s.hart.opd a] [] = true) :
    exec (.vext d a b j) s = .next (if s.hart.vl = 0 then { s with hart := s.hart.vectorPast 4 .xlane j [d] }
      else { s with hart := (s.hart.vectorPast 4 .xlane j [d]).ps d (s.hart.extracted a (s.gs b).toNat) }) := by
  have hv := vhdr_vector_writes (wVext d a b j) .xlane j [d]
  have sound : (s.joined .xlane j [d]).hart.sound = true := (s.joined_sound ..).trans (Hart.mayJoin_sound hm)
  show execVext d a b j s = _
  unfold execVext
  rw [vecRun_named (so := [s.hart.opd a]) (ds := []) hv hm (fun _ _ => rfl) (fun _ _ => rfl) (fun _ _ => rfl) (fun _ _ => rfl) (Hart.operandsOk_srcs hok) rfl]
  simp only [State.reading_sound _ _ _ sound, State.consume_plain _ _ _ (Hart.operandsOk_srcs hok)]
  by_cases h0 : s.hart.vl = 0
  · have h0' : (s.joined .xlane j [d]).hart.vl = 0 := by rw [State.joined_hart]; exact h0
    rw [if_pos h0, if_pos h0', hv.finish_joined]
  · have h0' : ¬(s.joined .xlane j [d]).hart.vl = 0 := by rw [State.joined_hart]; exact h0
    rw [if_neg h0, if_neg h0', hv.finish_ps, State.joined_hart]
    rfl

end Sys2Proof.Machine
end

section
/-! PROOFS. `vtopk`: a ranking by insertion (04 R118). -/

namespace Sys2Proof.Machine

open Sys2Proof

/-! ### Insertion into a ranking -/

section Ranking

variable {R : Type} [LinearOrder R] {above : Nat → Nat → Bool} {key : Nat → R}

/-- One entry of index and code stands before another: it ranks above it, or as high and has the lower index (R118). -/
def Leads (above : Nat → Nat → Bool) (p q : Nat × Nat) : Prop := above p.2 q.2 = true ∨ (above q.2 p.2 = false ∧ p.1 < q.1)

/-- The whole ranking of some entries. -/
def rankAll (above : Nat → Nat → Bool) (ps : List (Nat × Nat)) (acc : List (Nat × Nat)) : List (Nat × Nat) := ps.foldl (fun acc p => rankInsert above p acc) acc

theorem rankInsert_perm (above : Nat → Nat → Bool) (p : Nat × Nat) (qs : List (Nat × Nat)) : (rankInsert above p qs).Perm (p :: qs) := by
  induction qs with
  | nil => exact List.Perm.refl _
  | cons q qs ih =>
    unfold rankInsert
    split
    · exact List.Perm.refl _
    · exact (ih.cons q).trans (List.Perm.swap p q qs)

theorem rankAll_perm (above : Nat → Nat → Bool) (ps acc : List (Nat × Nat)) : (rankAll above ps acc).Perm (ps ++ acc) := by
  induction ps generalizing acc with
  | nil => exact List.Perm.refl _
  | cons p ps ih => exact (ih _).trans (((rankInsert_perm above p acc).append_left ps).trans List.perm_middle)

/-- Of a ranking cut short, an entry put in and the ranking cut again: the same as cut once. -/
theorem take_rankInsert_take (above : Nat → Nat → Bool) (p : Nat × Nat) (k : Nat) (qs : List (Nat × Nat)) :
    (rankInsert above p (qs.take k)).take k = (rankInsert above p qs).take k := by
  induction qs generalizing k with
  | nil => rw [List.take_nil]
  | cons q qs ih =>
    cases k with
    | zero => rfl
    | succ k =>
      rw [List.take_succ_cons, rankInsert, rankInsert]
      split
      · have again : (q :: qs.take k).take k = (q :: qs).take k := by
          rw [← List.take_succ_cons, List.take_take, Nat.min_eq_left (Nat.le_succ k)]
        rw [List.take_succ_cons, List.take_succ_cons, again]
      · rw [List.take_succ_cons, List.take_succ_cons, ih]

/-- The first k of the ranking are those that `rankTop` keeps. -/
theorem rankTop_eq_take (above : Nat → Nat → Bool) (k : Nat) (ps : List (Nat × Nat)) : rankTop above k ps = (rankAll above ps []).take k := by
  have cut : ∀ (ps acc : List (Nat × Nat)), ps.foldl (fun acc p => (rankInsert above p acc).take k) (acc.take k) = (rankAll above ps acc).take k := by
    intro ps
    induction ps with
    | nil => exact fun _ => rfl
    | cons p ps ih =>
      intro acc
      rw [List.foldl_cons, take_rankInsert_take]
      exact ih _
  have start := cut ps []
  rw [List.take_nil] at start
  exact start

variable (hk : ∀ x y, above x y = decide (key y < key x))
include hk

theorem Leads.trans {p q r : Nat × Nat} (hpq : Leads above p q) (hqr : Leads above q r) : Leads above p r := by
  simp only [Leads, hk, decide_eq_true_iff, decide_eq_false_iff_not, not_lt] at *
  rcases hpq with hpq | ⟨hpq, ip⟩ <;> rcases hqr with hqr | ⟨hqr, iq⟩
  · exact .inl (hqr.trans hpq)
  · exact .inl (hqr.trans_lt hpq)
  · exact .inl (hqr.trans_le hpq)
  · exact .inr ⟨hqr.trans hpq, ip.trans iq⟩

/-- An entry put into a ranking of entries of lower indices leaves a ranking. -/
theorem rankInsert_ranked {p : Nat × Nat} {qs : List (Nat × Nat)} (hq : qs.Pairwise (Leads above)) (hi : ∀ q ∈ qs, q.1 < p.1) : (rankInsert above p qs).Pairwise (Leads above) := by
  induction qs with
  | nil => exact List.pairwise_singleton _ _
  | cons q qs ih =>
    obtain ⟨first, rest⟩ := List.pairwise_cons.1 hq
    rw [List.forall_mem_cons] at hi
    unfold rankInsert
    split
    next up =>
      have lead : Leads above p q := .inl up
      exact List.pairwise_cons.2 ⟨List.forall_mem_cons.2 ⟨lead, fun r hr => lead.trans hk (first r hr)⟩, hq⟩
    next up =>
      have lead : Leads above q p := .inr ⟨Bool.not_eq_true _ ▸ up, hi.1⟩
      refine List.pairwise_cons.2 ⟨fun r hr => ?_, ih rest hi.2⟩
      rcases List.mem_cons.1 ((rankInsert_perm above p qs).mem_iff.1 hr) with rfl | hr
      · exact lead
      · exact first r hr

theorem rankAll_ranked {ps acc : List (Nat × Nat)} (hacc : acc.Pairwise (Leads above)) (hps : ps.Pairwise (fun p q => p.1 < q.1)) (hi : ∀ q ∈ acc, ∀ p ∈ ps, q.1 < p.1) :
    (rankAll above ps acc).Pairwise (Leads above) := by
  induction ps generalizing acc with
  | nil => exact hacc
  | cons p ps ih =>
    obtain ⟨first, rest⟩ := List.pairwise_cons.1 hps
    refine ih (rankInsert_ranked hk hacc (fun q hq => hi q hq p (List.mem_cons_self ..))) rest (fun q hq r hr => ?_)
    rcases List.mem_cons.1 ((rankInsert_perm above p acc).mem_iff.1 hq) with rfl | hq
    · exact first r hr
    · exact hi q hq r (List.mem_cons_of_mem p hr)

/-- The first k of the ranking of entries of ascending indices: they are ranked, and lead all the others. -/
theorem rankTop_spec {ps : List (Nat × Nat)} (k : Nat) (hps : ps.Pairwise (fun p q => p.1 < q.1)) :
    let top := rankTop above k ps
    top.Pairwise (Leads above) ∧ (∀ p ∈ top, p ∈ ps) ∧ top.length = min k ps.length ∧ ∀ p ∈ ps, p ∉ top → ∀ q ∈ top, Leads above q p := by
  intro top
  have perm : (rankAll above ps []).Perm ps := by simpa using rankAll_perm above ps []
  have ranked : (top ++ (rankAll above ps []).drop k).Pairwise (Leads above) := by
    rw [show top = (rankAll above ps []).take k from rankTop_eq_take above k ps, List.take_append_drop]
    exact rankAll_ranked hk List.Pairwise.nil hps (by simp)
  have split : ∀ p, p ∈ ps ↔ p ∈ top ∨ p ∈ (rankAll above ps []).drop k := fun p => by
    rw [← perm.mem_iff, ← List.mem_append, show top = (rankAll above ps []).take k from rankTop_eq_take above k ps, List.take_append_drop]
  obtain ⟨hd, -, across⟩ := List.pairwise_append.1 ranked
  refine ⟨hd, fun p hp => (split p).2 (.inl hp), ?_, fun p hp hn q hq => across q hq p (((split p).1 hp).resolve_left hn)⟩
  rw [show top = (rankAll above ps []).take k from rankTop_eq_take above k ps, List.length_take, perm.length_eq]

end Ranking

/-! ### The order that elements are ranked by (R118) -/

/-- An exact value in the order of `vtopk`: NaN below all, then the infinities about the numbers. -/
def FVal.key : FVal → ℤ ×ₗ ℚ
  | .nan => toLex (-2, 0)
  | .inf neg => toLex (if neg then -1 else 1, 0)
  | .num neg m e => toLex (0, (sgnInt neg m : ℚ) * 2 ^ e)

/-- A mantissa brought to a lower exponent has the same value. -/
theorem mantissa_lowered (x : Int) {lo e : Int} (h : lo ≤ e) : ((x * 2 ^ (e - lo).toNat : Int) : ℚ) * 2 ^ lo = x * 2 ^ e := by
  have gap : e = ((e - lo).toNat : Int) + lo := by omega
  have two : (2 : ℚ) ^ e = 2 ^ (e - lo).toNat * 2 ^ lo := by
    conv_lhs => rw [gap]
    rw [zpow_add₀ two_ne_zero, zpow_natCast]
  rw [two]
  push_cast
  ring

/-- Values that are no NaN are ordered by their keys. -/
theorem FVal.lt_eq_key {u v : FVal} (hu : u ≠ .nan) (hv : v ≠ .nan) : u.lt v = decide (u.key < v.key) := by
  cases u with
  | nan => exact absurd rfl hu
  | inf x =>
    cases v with
    | nan => exact absurd rfl hv
    | inf y => cases x <;> cases y <;> simp [FVal.lt, FVal.key, Prod.Lex.toLex_lt_toLex]
    | num n m e => cases x <;> simp [FVal.lt, FVal.key, Prod.Lex.toLex_lt_toLex]
  | num n m e =>
    cases v with
    | nan => exact absurd rfl hv
    | inf y => cases y <;> simp [FVal.lt, FVal.key, Prod.Lex.toLex_lt_toLex]
    | num n' m' e' =>
      have pos : (0 : ℚ) < 2 ^ min e e' := by positivity
      have scaled : ((sgnInt n m * 2 ^ (e - min e e').toNat : Int) : ℚ) * 2 ^ min e e' < ((sgnInt n' m' * 2 ^ (e' - min e e').toNat : Int) : ℚ) * 2 ^ min e e' ↔ _ :=
        mul_lt_mul_iff_of_pos_right pos
      rw [mantissa_lowered _ (min_le_left e e'), mantissa_lowered _ (min_le_right e e'), Int.cast_lt] at scaled
      simp [FVal.lt, FVal.key, Prod.Lex.toLex_lt_toLex, scaled]

/-- A NaN stands below every other value. -/
theorem FVal.key_nan_lt {v : FVal} (hv : v ≠ .nan) : FVal.nan.key < v.key := by
  cases v with
  | nan => exact absurd rfl hv
  | inf x => cases x <;> simp [FVal.key, Prod.Lex.toLex_lt_toLex]
  | num n m e => simp [FVal.key, Prod.Lex.toLex_lt_toLex]

/-- An element code in the order of `vtopk`. -/
def Hart.rankKey (h : Hart) (c : Nat) : ℤ ×ₗ ℚ :=
  match h.ffmt with
  | none => toLex (0, (bitsInt h.signed h.sew c : ℚ))
  | some f => (f.read c).key

theorem Hart.ranksAbove_eq_key (h : Hart) (x y : Nat) : h.ranksAbove x y = decide (h.rankKey y < h.rankKey x) := by
  unfold Hart.ranksAbove Hart.rankKey
  cases h.ffmt with
  | none => simp [Prod.Lex.toLex_lt_toLex]
  | some f =>
    simp only
    by_cases hx : f.read x = .nan
    · have least : ¬(f.read y).key < FVal.nan.key := by
        by_cases hy : f.read y = .nan
        · rw [hy]; exact lt_irrefl _
        · exact (FVal.key_nan_lt hy).asymm
      simp [hx, FVal.isNan, least]
    · by_cases hy : f.read y = .nan
      · simp [hy, FVal.isNan_eq, hx, FVal.key_nan_lt hx]
      · simp [FVal.isNan_eq, hx, hy, FVal.lt_eq_key hy hx]

/-! ### The instruction -/

/-- The first k active elements of the ranking, with their codes. -/
def Hart.topPairs (h : Hart) (a : Reg5) (m : Reg3) (k : Nat) : List (Nat × Nat) :=
  rankTop h.ranksAbove k ((h.active m h.vl).map (fun i => (i, h.elem a.toNat h.sew i)))

/-- The values that `vtopk` writes for some elements, padded to k. -/
def Hart.topVals (h : Hart) (k : Nat) (top : List (Nat × Nat)) : List (Nat × Nat) :=
  top.mapIdx (fun n p => (n, h.rankCode p.2)) ++ (List.range (k - top.length)).map (fun n => (top.length + n, h.negCode))

/-- The indices that it writes. -/
def topIdxs (k : Nat) (top : List (Nat × Nat)) : List (Nat × Nat) :=
  top.mapIdx (fun n p => (n, p.1)) ++ (List.range (k - top.length)).map (fun n => (top.length + n, 2 ^ 32 - 1))

/-- Two groups written and an s register, after the hart has joined. -/
theorem Hdr.Vector.finish_putElems_ps {hd : Hdr} {u : UnitClass} {j : BitVec 1} {sw : List Reg5} (hv : hd.Vector u j sw) (s : State) (c : Option Convoy) (r w r' w' : Nat)
    (xs ys : List (Nat × Nat)) (d : Reg5) (x : Word) :
    hd.finish c (.next ((((s.joined u j sw).upd (·.putElems r w xs)).upd (·.putElems r' w' ys)).ps d x)) =
      { s with hart := (((s.hart.putElems r w xs).putElems r' w' ys).vectorPast 4 u j sw).ps d x } := by
  let g := (s.hart.putElems r w xs).putElems r' w' ys
  have written : ((((s.joined u j sw).upd (·.putElems r w xs)).upd (·.putElems r' w' ys)).ps d x).hart = (g.ps d x).going s.hart.begin_ (s.hart.convoyWith u j sw) := by
    show (((s.joined u j sw).hart.putElems r w xs).putElems r' w' ys).ps d x = _
    rw [State.joined_hart, Hart.putElems_convoy, Hart.putElems_convoy, Hart.ps_going]
  have kept : ∀ {α : Type} (f : Hart → α), (∀ (g : Hart) v bad, f { g with v := v, bad := bad } = f g) → f g = f s.hart := fun f hf =>
    (Hart.putElems_other _ f r' w' ys hf).trans (s.hart.putElems_other f r w xs hf)
  rw [← Hart.vectorPast_ps]
  exact hv.finish (s := s) c written ((g.ps_convoy d x).trans (kept Hart.convoy fun _ _ _ => rfl)) ((g.ps_cur d x).trans (kept Hart.cur fun _ _ _ => rfl))
    ((g.ps_places d x).trans (kept Hart.places fun _ _ _ => rfl)) ((g.ps_refuse d x).trans (kept Hart.refuse fun _ _ _ => rfl))

/-- `vtopk` on operands that may be named: the first k of the ranking with their indices, and their number (R118). -/
theorem exec_vtopk_named {s : State} {j : BitVec 1} {d a b : Reg5} {m : Reg3} {k : Nat} (hb : (s.gs b).toNat = k) (hm : s.hart.mayJoin .xlane j = true)
    (hok : s.hart.operandsOk [s.hart.opd a] [⟨d, 1, s.hart.sew⟩, ⟨d + 1, 1, 32⟩] = true) (hno : anyOverlap [s.hart.opd a] [⟨d, 1, s.hart.sew⟩, ⟨d + 1, 1, 32⟩] = false)
    (h1 : 1 ≤ k) (h256 : k ≤ 256) (hl : k ≤ 16 * s.hart.lanes) (hr : k ≤ s.hart.perReg s.hart.sew) :
    exec (.vtopk d a b m j) s = .next (if s.hart.vl = 0 then { s with hart := (s.hart.vectorPast 4 .xlane j [b]).ps b 0 }
      else
        let top := s.hart.topPairs a m k
        { s with hart := (((s.hart.putElems d.toNat s.hart.sew (s.hart.topVals k top)).putElems (d + 1).toNat 32 (topIdxs k top)).vectorPast 4 .xlane j [b]).ps b (BitVec.ofNat 64 top.length) }) := by
  have pos := s.hart.lmul_pos
  have apart : (d == a || d + 1 == a) = false := by
    have first := beq_eq_false_of_apart (anyOverlap_eq_false hno (List.mem_singleton_self _) (List.mem_cons_self ..)) pos Nat.one_pos
    have second := beq_eq_false_of_apart (anyOverlap_eq_false hno (List.mem_singleton_self _) (List.mem_cons_of_mem _ (List.mem_singleton_self _))) pos Nat.one_pos
    exact Bool.or_eq_false_iff.2 ⟨first, second⟩
  have hv : ({ permHdr (wVtopk d a b m j) j (d == a || d + 1 == a) with swrites := [b] } : Hdr).Vector .xlane j [b] := ⟨rfl, rfl, apart, rfl, rfl, rfl, rfl⟩
  have range : ((s.gs b).toNat == 0 || decide (256 < (s.gs b).toNat) || decide (16 * s.hart.lanes < (s.gs b).toNat) || decide (s.hart.perReg s.hart.sew < (s.gs b).toNat)) = false := by
    rw [hb]
    simp only [Bool.or_eq_false_iff, beq_eq_false_iff_ne, decide_eq_false_iff_not]
    omega
  have plain : ∀ {q : VOpd}, q ∈ [(⟨d, 1, s.hart.sew⟩ : VOpd), ⟨d + 1, 1, 32⟩] → s.hart.stream q.reg = none := fun hq => Hart.plain_stream (Hart.operandsOk_dsts hok) hq
  have J : (s.joined .xlane j [b]).hart = s.hart.going s.hart.begin_ (s.hart.convoyWith .xlane j [b]) := s.joined_hart .xlane j [b]
  show execVtopk d a b m j s = _
  unfold execVtopk
  simp only
  rw [vecRun_named (so := [s.hart.opd a]) (ds := [⟨d, 1, s.hart.sew⟩, ⟨d + 1, 1, 32⟩]) hv hm (fun _ _ => range) (fun _ _ => hno) (fun _ _ => rfl) (fun _ _ => rfl)
    (Hart.operandsOk_srcs hok) (Hart.operandsOk_dsts hok)]
  by_cases h0 : s.hart.vl = 0
  · have h0' : (s.joined .xlane j [b]).hart.vl = 0 := by rw [J]; exact h0
    rw [if_pos h0, if_pos h0', State.consume_plain _ _ _ (Hart.operandsOk_srcs hok), hv.finish_ps]
  · have h0' : ¬(s.joined .xlane j [b]).hart.vl = 0 := by rw [J]; exact h0
    have src : ∀ q ∈ [s.hart.opd a], (s.joined .xlane j [b]).hart.stream q.reg = none := fun q hq => by rw [J]; exact Hart.plain_stream (Hart.operandsOk_srcs hok) hq
    have dst : (s.joined .xlane j [b]).hart.stream d = none := by rw [J]; exact plain (List.mem_cons_self ..)
    have dst' : (s.joined .xlane j [b]).hart.stream (d + 1) = none := by rw [J]; exact plain (List.mem_cons_of_mem _ (List.mem_singleton_self _))
    have vals : ∀ hd n xs, (s.joined .xlane j [b]).putResult hd n [s.hart.opd a] ⟨d, 1, (s.joined .xlane j [b]).hart.sew⟩ xs (fun _ t => t) =
        .next ((s.joined .xlane j [b]).upd (·.putElems d.toNat (s.joined .xlane j [b]).hart.sew xs)) := fun hd n xs => State.putResult_plain hd n xs _ src dst
    have idxs : ∀ hd n w xs ys (post : (Nat → Bool) → State → State), ((s.joined .xlane j [b]).upd (·.putElems d.toNat w xs)).putResult hd n [] ⟨d + 1, 1, 32⟩ ys post =
        .next (post (fun _ => true) (((s.joined .xlane j [b]).upd (·.putElems d.toNat w xs)).upd (·.putElems (d + 1).toNat 32 ys))) := fun hd n w xs ys post =>
      State.putResult_plain hd n ys post (List.forall_mem_nil _) ((Hart.putElems_other _ (·.stream (d + 1)) _ _ _ fun _ _ _ => rfl).trans dst')
    rw [if_neg h0, if_neg h0', vals]
    simp only
    rw [idxs, J]
    subst hb
    exact congrArg Host.Outcome.next (hv.finish_putElems_ps s s.hart.convoy _ _ _ _ (s.hart.topVals _ (s.hart.topPairs a m _)) (topIdxs _ (s.hart.topPairs a m _)) b _)

end Sys2Proof.Machine
end

section
/-! PROOFS. The statement about the permutations (02 R43, 04 R100, R117, R118, Tables 4-9 and 4-10). -/

namespace Sys2Proof.Machine

open Sys2Proof

theorem mapIdx_map {α β γ : Type} (f : ℕ → β → γ) (g : α → β) (xs : List α) : (xs.map g).mapIdx f = xs.mapIdx (fun n x => f n (g x)) :=
  List.ext_getElem (by simp) (by simp)

/-- The first k of the ranking are named by their indices alone: ranked active elements that stand before all others. -/
theorem Hart.topPairs_spec (h : Hart) (a : Reg5) (m : Reg3) (k : Nat) :
    let act := h.active m h.vl
    let ea := fun i => h.elem a.toNat h.sew i
    let before := fun (i i' : Nat) => h.ranksAbove (ea i) (ea i') = true ∨ (h.ranksAbove (ea i') (ea i) = false ∧ i < i')
    ∃ top : List Nat, h.topPairs a m k = top.map (fun i => (i, ea i)) ∧ top.Pairwise before ∧ (∀ i ∈ top, i ∈ act) ∧ top.length = min k act.length ∧
      ∀ i ∈ act, i ∉ top → ∀ i' ∈ top, before i' i := by
  intro act ea before
  let entry := fun i => (i, ea i)
  have ascending : (act.map entry).Pairwise (fun p q => p.1 < q.1) := List.pairwise_map.2 (h.active_ascending m h.vl)
  obtain ⟨ranked, mem, len, rest⟩ := rankTop_spec h.ranksAbove_eq_key k ascending
  let top := (h.topPairs a m k).map Prod.fst
  have entries : h.topPairs a m k = top.map entry := by
    rw [List.map_map]
    refine (List.map_id _).symm.trans (List.map_congr_left fun p hp => ?_)
    obtain ⟨i, -, rfl⟩ := List.mem_map.1 (mem p hp)
    rfl
  have inj : Function.Injective entry := fun i i' e => congrArg Prod.fst e
  change (h.topPairs a m k).Pairwise _ at ranked
  change ∀ p ∈ h.topPairs a m k, _ at mem
  change (h.topPairs a m k).length = _ at len
  change ∀ p ∈ _, p ∉ h.topPairs a m k → ∀ q ∈ h.topPairs a m k, _ at rest
  rw [entries] at ranked mem len rest
  refine ⟨top, entries, List.pairwise_map.1 ranked, fun i hi => ?_, by simpa using len, fun i hi hn i' hi' => ?_⟩
  · exact (List.mem_map_of_injective inj).1 (mem (entry i) (List.mem_map_of_mem hi))
  · have out : entry i ∉ top.map entry := fun hm => hn ((List.mem_map_of_injective inj).1 hm)
    exact rest (entry i) (List.mem_map_of_mem hi) out (entry i') (List.mem_map_of_mem hi')

/-- The word that `vext` writes: sign-extended for FMT 0, else as it stands. -/
theorem Hart.extracted_eq (h : Hart) (a : Reg5) (k : Nat) : h.extracted a k = if k < h.vl then
    (if h.fmt = 0 then BitVec.ofInt 64 (Int.bmod (h.elem a.toNat h.sew k) (2 ^ h.sew)) else BitVec.ofNat 64 (h.elem a.toNat h.sew k)) else 0 := by
  unfold Hart.extracted
  by_cases h0 : h.fmt = 0
  · rw [if_pos h0, h0, beq_self_eq_true, bitsInt_signed h.sew_pos (h.elem_lt _ _ _)]
  · rw [if_neg h0, beq_eq_false_iff_ne.2 h0, bitsInt_unsigned, BitVec.ofInt_natCast]

/-- `viota` counts the bits of a mask register below each element. -/
theorem popBits_mask (h : Hart) (a : Reg5) (i : Nat) : popBits i (h.gm a.toNat).toNat = (List.range i).countP (fun n => (h.gm a.toNat).getLsbD n) := popBits_eq _ _

/-- Settles O41: each form by its sources, `vext` and `vtopk` by lemmas of their own. -/
theorem permutationResults : Obligations.PermutationResults := by
  intro s d a b m j h w act ea eb k put each
  refine ⟨fun hm hok hno => ⟨?_, ?_, ?_, ?_, ?_⟩, fun hm hok hno => ⟨?_, ?_, ?_⟩, fun hok => ⟨fun hm => ⟨?_, ?_, ?_⟩, fun hm => ?_⟩, fun hm hok => ?_,
    fun hm hok hno h1 h256 hl hr => ?_⟩
  · exact perm_one (w := wVslup d a b m j) (below := true) (masked := m != 0)
      (f := fun h src => ((h.active m h.vl).filter (fun i => decide ((h.gs b).toNat ≤ i))).map (fun i => (i, src 0 (i - (h.gs b).toNat)))) hm hok hno rfl (fun _ _ => rfl)
  · exact perm_one (w := wVsldn d a b m j) (below := false) (masked := m != 0)
      (f := fun h src => (h.active m h.vl).map (fun i => (i, if i + (h.gs b).toNat < h.vl then src 0 (i + (h.gs b).toNat) else 0))) hm hok hno rfl (fun _ _ => rfl)
  · exact perm_one (w := wVcomp d a m j) (below := false) (masked := m != 0) (f := fun h src => (h.selected m).mapIdx (fun k i => (k, src 0 i))) hm hok hno rfl (fun _ _ => rfl)
  · exact perm_one (w := wVexpd d a m j) (below := true) (masked := m != 0) (f := fun h src => (h.selected m).mapIdx (fun k i => (i, src 0 k))) hm hok hno rfl (fun _ _ => rfl)
  · exact perm_one (w := wVrev d a m j) (below := true) (masked := m != 0) (f := fun h src => (h.active m h.vl).map (fun i => (i, src 0 (h.vl - 1 - i)))) hm hok hno rfl
      (fun _ _ => rfl)
  · exact perm_two (w := wVperm d a b m j) (below := true) (masked := m != 0)
      (f := fun h src => (h.active m h.vl).map (fun i => (i, if src 1 i < h.vl then src 0 (src 1 i) else 0))) hm hok hno rfl (fun _ _ => rfl)
  · exact perm_two (w := wVzip d a b m j) (below := true) (masked := m != 0)
      (f := fun h src => (h.active m h.vl).map (fun i => (i, if i % 2 = 0 then src 0 (i / 2) else src 1 ((i - 1) / 2)))) hm hok hno rfl (fun _ _ => rfl)
  · exact perm_two (w := wVuzp d a b m j) (below := true) (masked := m != 0)
      (f := fun h src => (h.active m h.vl).map (fun i => (i, if 2 * i < h.vl then src 0 (2 * i) else src 1 (2 * i - h.vl)))) hm hok hno rfl (fun _ _ => rfl)
  · exact perm_none (w := wVbcs d b m j) (below := false) (masked := m != 0) (f := fun h _ => (h.active m h.vl).map (fun i => (i, (h.gs b).toNat % 2 ^ h.sew))) hm hok rfl
      (fun _ _ => rfl)
  · exact perm_none (w := wVid d m j) (below := false) (masked := m != 0) (f := fun h _ => (h.active m h.vl).map (fun i => (i, i % 2 ^ h.sew))) hm hok rfl (fun _ _ => rfl)
  · refine perm_none (w := wVins d a b j) (below := false) (masked := false)
      (f := fun h _ => if h.vstart.toNat ≤ (h.gs b).toNat && (h.gs b).toNat < h.vl then [((h.gs b).toNat, (h.gs a).toNat % 2 ^ h.sew)] else []) hm hok rfl (fun _ _ => ?_)
    exact if_congr (by rw [Bool.and_eq_true, decide_eq_true_iff, decide_eq_true_iff]; rfl) rfl rfl
  · refine perm_none (w := wViota d a m j) (below := false) (masked := m != 0)
      (f := fun h _ => (h.active m h.vl).map (fun i => (i, popBits i (h.gm a.toNat).toNat % 2 ^ h.sew))) hm hok rfl (fun _ _ => ?_)
    exact List.map_congr_left fun i _ => congrArg (fun n => (i, n % 2 ^ w)) (popBits_mask h a i)
  · intro v
    have named := exec_vext_named (d := d) (b := b) hm hok
    rw [Hart.extracted_eq] at named
    exact ⟨fun h0 => named.trans (congrArg _ (if_pos h0)), fun h0 => named.trans (congrArg _ (if_neg h0.ne'))⟩
  · have named := exec_vtopk_named (m := m) rfl hm hok hno h1 h256 hl hr
    refine ⟨fun h0 => named.trans (congrArg _ (if_pos h0)), fun h0 => ?_⟩
    obtain ⟨top, entries, ranked, mem, len, rest⟩ := h.topPairs_spec a m k
    have done := named.trans (congrArg _ (if_neg h0.ne'))
    rw [entries] at done
    refine ⟨top, ranked, mem, len, rest, ?_⟩
    simpa only [Hart.topVals, topIdxs, mapIdx_map, List.length_map] using done

end Sys2Proof.Machine
end

section
/-! PROOFS. Three statements about vector results that fail under a VTYPE which R21 forbids: they speak of every state, and bound no width of the elements. -/

namespace Sys2Proof.Machine

open Sys2Proof

/-- Hart 0, which owns its vector state, with one element under a VTYPE, and vector registers that all hold one number. `vsetl` and `vsetli` refuse the three VTYPEs below
(`vtypes_forbidden`), so no run reaches these states, but the statements are about every state. -/
def oneElement (vtype : BitVec 16) (n : VBits) : State :=
  { State.reset with hart := { Hart.init 0 with vownV := true, vtype := vtype, vl := 1, v := Vector.replicate 32 n } }

/-- R21 has no bf16 and no f16 at SEW 64, and no SEW of 128. -/
theorem vtypes_forbidden : vtypeLegal 0x0064 = false ∧ vtypeLegal 0x0044 = false ∧ vtypeLegal 0x0005 = false := by decide

/-- bf16 at SEW 64: the destination of `vfwma`, LMUL × 32 / SEW registers, is an empty group that overlaps nothing, yet a destination that is named as a source is refused (R10, R108). -/
theorem exec_vfwmaVv_sew64 : ∃ t, exec (.vfwmaVv 0 0 1 0 0 0) (oneElement 0x0064 0) = .next t ∧ t.hart.cause = 0x01 := ⟨_, rfl, rfl⟩

/-- Refutes O36: where `vfwma.vv` has v0 as destination and source and SEW is 64, the statement has it execute, and it traps ILL. -/
theorem not_vectorFloatResults : ¬ Obligations.VectorFloatResults := by
  intro h
  obtain ⟨t, trapped, ill⟩ := exec_vfwmaVv_sew64
  obtain ⟨-, fused⟩ := h (oneElement 0x0064 0) 0 0 1 0 0 0
  obtain ⟨claimed, -⟩ := fused (by decide +kernel) (.inl (by decide +kernel))
  have same := congrArg (fun s : State => s.hart.cause) (Host.Outcome.next.inj (trapped.symm.trans (claimed (by decide +kernel) (by decide +kernel) (by decide +kernel))))
  exact absurd (ill.symm.trans same) (by decide +kernel)

/-- f16 at SEW 64: the class is that of the 16 bits which the format reads, here 1, a subnormal number; bit 20 belongs to the element alone. -/
theorem exec_vfclass_sew64 : ∃ t, exec (.vfclass 1 0 0 0) (oneElement 0x0044 (2 ^ 20 + 1)) = .next t ∧ t.hart.elem 1 64 0 = 2 ^ 5 := ⟨_, rfl, by decide +kernel⟩

/-- Refutes O38: for a 64-bit element whose f16 code is 1 and whose bit 20 is set, the statement has `vfclass` give a normal number, and it gives a subnormal one. -/
theorem not_conversionResults : ¬ Obligations.ConversionResults := by
  intro h
  obtain ⟨t, classified, subnormal⟩ := exec_vfclass_sew64
  obtain ⟨-, -, -, classes, -⟩ := h (oneElement 0x0044 (2 ^ 20 + 1)) 1 0 0 0 0 0
  obtain ⟨claimed, -⟩ := classes (by decide +kernel) (by decide +kernel)
  have same := congrArg (fun s : State => s.hart.elem 1 64 0) (Host.Outcome.next.inj (classified.symm.trans (claimed (.inl (by decide +kernel)))))
  exact absurd (subnormal.symm.trans same) (by decide +kernel)

/-- SEW 128: an element of 2^63 read as a word is negative, and 0 is the greater. -/
theorem exec_vredmax_sew128 : ∃ t, exec (.vredmax 1 0 2 0 0) (oneElement 0x0005 (2 ^ 63)) = .next t ∧ t.gs 1 = 0 := ⟨_, rfl, by decide +kernel⟩

/-- Refutes O40: for an element of 2^63 at SEW 128 the statement has `vredmax` take the maximum before it cuts the result to 64 bits, and it cuts each element first. -/
theorem not_reductionResults : ¬ Obligations.ReductionResults := by
  intro h
  obtain ⟨t, reduced, zero⟩ := exec_vredmax_sew128
  obtain ⟨-, claimed, -⟩ := h (oneElement 0x0005 (2 ^ 63)) 1 0 2 0 0 (by decide +kernel) (by decide +kernel)
  have same := congrArg (fun s : State => s.gs 1) (Host.Outcome.next.inj (reduced.symm.trans claimed))
  exact absurd (zero.symm.trans same) (by decide +kernel)

end Sys2Proof.Machine
end

section
/-! PROOFS. Who may execute what: privileged instructions in user mode, and vector state of another context (02 R34, 05 R144, R147, R354). -/

namespace Sys2Proof.Machine

open Sys2Proof

/-! ### The checks of a header that trap (R354) -/

/-- Where the convoy has room, no instruction of the unit class makes it illegal (R15, R157). -/
theorem Hdr.convoyTrap_room {hd : Hdr} {h : Hart} {u : UnitClass} {j : BitVec 1} (hu : hd.unit = some u) (hj : hd.j = (j == 1)) (hr : h.room u j = true) :
    hd.convoyTrap h.convoy = none := by
  simp only [Hart.room, Bool.and_eq_true, decide_eq_true_eq] at hr
  obtain ⟨short, free⟩ := hr
  simp only [Hdr.convoyTrap, hu, hd.joins_eq h j hj]
  rw [if_neg (by omega), if_neg (by omega)]

/-- A privileged header in user mode: PRV with the word (R34, R147). -/
theorem Hdr.check_prv {hd : Hdr} {s : State} (h7 : hd.bad07 = false) (hc : hd.convoyTrap s.hart.convoy = none) (hb : hd.bad0B = false) (hp : hd.priv = true)
    (hs : s.hart.super = false) : hd.check s = some ⟨0x02, BitVec.ofNat 64 hd.word.toNat⟩ := by
  simp [Hdr.check, h7, hc, hb, hp, hs]

/-- A header that needs the vector state, which another context owns: VO with the owner (R144). -/
theorem Hdr.check_vo {hd : Hdr} {s : State} (h7 : hd.bad07 = false) (hc : hd.convoyTrap s.hart.convoy = none) (hb : hd.bad0B = false) (hp : hd.priv = false)
    (hv : hd.vo = true) (ho : s.hart.owns = false) : hd.check s = some ⟨0x03, BitVec.ofNat 64 s.hart.vownCtx.toNat⟩ := by
  have other : (!s.hart.vownV || s.hart.vownCtx != s.hart.ctxid) = true := by
    simpa only [Hart.owns, Bool.and_eq_false_iff, Bool.or_eq_true, Bool.not_eq_true', bne, beq_eq_false_iff_ne] using ho
  simp only [Hdr.check, h7, hc, hb, hp, hv, other, Bool.false_and, Bool.and_self, Bool.false_eq_true, if_false, if_true]

section
variable {hd : Hdr} {s : State} {f : State → Except Trap Eff}

/-- A privileged scalar instruction in user mode. -/
theorem runInstr_prv (hu : hd.unit = none) (h7 : hd.bad07 = false) (hb : hd.bad0B = false) (hp : hd.priv = true) (hs : s.hart.super = false) :
    runInstr hd s f = .next (s.trap ⟨0x02, BitVec.ofNat 64 hd.word.toNat⟩) :=
  runInstr_trap hd s f _ (Hdr.check_prv h7 (by rw [Hdr.convoyTrap, hu]) hb hp hs)

/-- A scalar instruction that needs the vector state of another context. -/
theorem runInstr_vo_scalar (hu : hd.unit = none) (h7 : hd.bad07 = false) (hb : hd.bad0B = false) (hp : hd.priv = false) (hv : hd.vo = true) (ho : s.hart.owns = false) :
    runInstr hd s f = .next (s.trap ⟨0x03, BitVec.ofNat 64 s.hart.vownCtx.toNat⟩) :=
  runInstr_trap hd s f _ (Hdr.check_vo h7 (by rw [Hdr.convoyTrap, hu]) hb hp hv ho)

/-- An instruction of a unit class that needs the vector state of another context. -/
theorem runInstr_vo {u : UnitClass} {j : BitVec 1} (hr : s.hart.room u j = true) (hu : hd.unit = some u) (hj : hd.j = (j == 1)) (h7 : hd.bad07 = false) (hb : hd.bad0B = false)
    (hp : hd.priv = false) (hv : hd.vo = true) (ho : s.hart.owns = false) : runInstr hd s f = .next (s.trap ⟨0x03, BitVec.ofNat 64 s.hart.vownCtx.toNat⟩) :=
  runInstr_trap hd s f _ (Hdr.check_vo h7 (Hdr.convoyTrap_room hu hj hr) hb hp hv ho)

end

/-! ### Privileged instructions in user mode (R34, R87, R147, R164, R188) -/

section
variable {s : State} (hs : s.hart.super = false)
include hs

theorem exec_tret_prv : exec .tret s = .next (s.trap ⟨0x02, BitVec.ofNat 64 (encodeWord .tret).toNat⟩) := by
  show execTret s = _
  unfold execTret
  rw [Hdr.check_prv rfl rfl rfl rfl hs]
  rfl

theorem exec_getc_prv (d : Reg5) {c : BitVec 16} (hc : cregSupervisor c = true) :
    exec (.getc d c) s = .next (s.trap ⟨0x02, BitVec.ofNat 64 (encodeWord (.getc d c)).toNat⟩) := by
  show execGetc d c s = _
  unfold execGetc scalarOp
  exact runInstr_prv rfl rfl rfl hc hs

theorem exec_setc_prv (d : Reg5) {c : BitVec 16} (hc : cregSupervisor c = true) :
    exec (.setc d c) s = .next (s.trap ⟨0x02, BitVec.ofNat 64 (encodeWord (.setc d c)).toNat⟩) := by
  show execSetc d c s = _
  unfold execSetc
  exact runInstr_prv rfl rfl rfl hc hs

/-- A tile save or restore reports its prefix (R188). -/
theorem tileRun_prv {w b : IWord} {j : BitVec 1} {f : State → Except Trap Eff} (hr : s.hart.room .tile j = true) :
    tileRun (saveHdr w b j) s f = .next (s.trap ⟨0x02, BitVec.ofNat 64 w.toNat⟩) :=
  runInstr_trap _ s _ _ (Hdr.check_prv rfl (Hdr.convoyTrap_room (u := .tile) (j := j) rfl rfl hr) rfl rfl hs)

theorem exec_vsave_prv (a : Reg5) : exec (.vsave a) s = .next (s.trap ⟨0x02, BitVec.ofNat 64 (encodeWord (.vsave a)).toNat⟩) := by
  show execVsave a s = _
  unfold execVsave
  exact runInstr_prv rfl rfl rfl rfl hs

theorem exec_vrest_prv (a : Reg5) : exec (.vrest a) s = .next (s.trap ⟨0x02, BitVec.ofNat 64 (encodeWord (.vrest a)).toNat⟩) := by
  show execVrest a s = _
  unfold execVrest
  exact runInstr_prv rfl rfl rfl rfl hs

theorem exec_brole_prv (a : Reg5) : exec (.brole a) s = .next (s.trap ⟨0x02, BitVec.ofNat 64 (encodeWord (.brole a)).toNat⟩) := by
  show execBrole a s = _
  unfold execBrole
  exact runInstr_prv rfl rfl rfl rfl hs

theorem exec_tsave_prv (t : BitVec 3) (a : Reg5) {j : BitVec 1} (hr : s.hart.room .tile j = true) :
    exec (.tsave t a j) s = .next (s.trap ⟨0x02, BitVec.ofNat 64 (encodeWord (.tsave t a j)).toNat⟩) := by
  show execTsave t a j s = _
  unfold execTsave
  exact tileRun_prv hs hr

theorem exec_trest_prv (t : BitVec 3) (a : Reg5) {j : BitVec 1} (hr : s.hart.room .tile j = true) :
    exec (.trest t a j) s = .next (s.trap ⟨0x02, BitVec.ofNat 64 (encodeWord (.trest t a j)).toNat⟩) := by
  show execTrest t a j s = _
  unfold execTrest
  exact tileRun_prv hs hr

end

/-- The control registers of which the statement speaks are supervisor's (Table 2-2). -/
theorem cregSupervisor_iff {c : BitVec 16} : cregSupervisor c = true ↔ c = 0x006 ∨ (0x010 ≤ c.toNat ∧ c.toNat ≤ 0x018) ∨ c = 0x024 := by
  simp [cregSupervisor, or_assoc]

/-! ### Vector state of another context (R144) -/

section
variable {s : State} {j : BitVec 1} (ho : s.hart.owns = false)
include ho

theorem exec_valu_vo {d a b : Reg5} {m x : Reg3} (hr : s.hart.room .valu j = true) :
    let vo := Host.Outcome.next (s.trap ⟨0x03, BitVec.ofNat 64 s.hart.vownCtx.toNat⟩)
    exec (.vaddVv d a b m x j) s = vo ∧ exec (.vfaddVv d a b m x j) s = vo ∧ exec (.mand d a b x j) s = vo := by
  refine ⟨?_, ?_, ?_⟩
  · show execVaddVv d a b m x j s = _
    unfold execVaddVv vintOp vecMap vecRun
    exact runInstr_vo hr rfl rfl rfl rfl rfl rfl ho
  · show execVfaddVv d a b m x j s = _
    unfold execVfaddVv vfpOp vecMap vecRun
    exact runInstr_vo hr rfl rfl rfl rfl rfl rfl ho
  · show execMand d a b x j s = _
    unfold execMand maskOp vecMask vecRun
    exact runInstr_vo hr rfl rfl rfl rfl rfl rfl ho

theorem exec_vmul_vo {d a b : Reg5} {m x : Reg3} (hr : s.hart.room .vmul j = true) :
    let vo := Host.Outcome.next (s.trap ⟨0x03, BitVec.ofNat 64 s.hart.vownCtx.toNat⟩)
    exec (.vmulVv d a b m x j) s = vo := by
  show execVmulVv d a b m x j s = _
  unfold execVmulVv vintOp vecMap vecRun
  exact runInstr_vo hr rfl rfl rfl rfl rfl rfl ho

theorem exec_vlsu_vo {d a : Reg5} {m : Reg3} (hr : s.hart.room .vlsu j = true) :
    let vo := Host.Outcome.next (s.trap ⟨0x03, BitVec.ofNat 64 s.hart.vownCtx.toNat⟩)
    exec (.vld d a m j) s = vo ∧ exec (.vst d a m j) s = vo := by
  refine ⟨?_, ?_⟩
  · show execVld d a m j s = _
    unfold execVld vloadOp memRun
    exact runInstr_vo hr rfl rfl rfl rfl rfl rfl ho
  · show execVst d a m j s = _
    unfold execVst vstoreOp memRun
    exact runInstr_vo hr rfl rfl rfl rfl rfl rfl ho

theorem exec_xlane_vo {d a b : Reg5} {m x : Reg3} (hr : s.hart.room .xlane j = true) :
    let vo := Host.Outcome.next (s.trap ⟨0x03, BitVec.ofNat 64 s.hart.vownCtx.toNat⟩)
    exec (.vredsum d a b m j) s = vo ∧ exec (.vceqVv d a b m x j) s = vo := by
  refine ⟨?_, ?_⟩
  · show execVredsum d a b m j s = _
    unfold execVredsum redInt vecRun
    exact runInstr_vo hr rfl rfl rfl rfl rfl rfl ho
  · show execVceqVv d a b m x j s = _
    unfold execVceqVv vcmpOp vecMask vecRun
    exact runInstr_vo hr rfl rfl rfl rfl rfl rfl ho

theorem exec_engine_vo {d a : Reg5} {m : Reg3} (hr : s.hart.room .engine j = true) :
    let vo := Host.Outcome.next (s.trap ⟨0x03, BitVec.ofNat 64 s.hart.vownCtx.toNat⟩)
    exec (.vcopy d a m j) s = vo ∧ exec (.rstat d a j) s = vo ∧ exec (.tkpoll d j) s = vo := by
  refine ⟨?_, ?_, ?_⟩
  · show execVcopy d a m j s = _
    unfold execVcopy copyRun
    exact runInstr_vo hr rfl rfl rfl rfl rfl rfl ho
  · show execRstat d a j s = _
    unfold execRstat skimRead
    exact runInstr_vo hr rfl rfl rfl rfl rfl rfl ho
  · show execTkpoll d j s = _
    unfold execTkpoll
    exact runInstr_vo hr rfl rfl rfl rfl rfl rfl ho

theorem exec_tile_vo {a b d : Reg5} {m x : Reg3} {r : BitVec 7} {sm : BitVec 2} (hr : s.hart.room .tile j = true) :
    let vo := Host.Outcome.next (s.trap ⟨0x03, BitVec.ofNat 64 s.hart.vownCtx.toNat⟩)
    exec (.tzero m j) s = vo ∧ exec (.trow m r d j) s = vo ∧ exec (.tld m 1 r a j) s = vo ∧ exec (.vopa m x x sm a b j) s = vo ∧ exec (.gmm m b a j) s = vo ∧ exec (.cload m 0 a j) s = vo := by
  refine ⟨?_, ?_, ?_, ?_, ?_, ?_⟩
  · show execTzero m j s = _
    unfold execTzero tileRun
    exact runInstr_vo hr rfl rfl rfl rfl rfl rfl ho
  · show execTrow m r d j s = _
    unfold execTrow tileRun
    exact runInstr_vo hr rfl rfl rfl rfl rfl rfl ho
  · show execTld m 1 r a j s = _
    unfold execTld rowMove tileRun
    exact runInstr_vo hr rfl rfl rfl rfl rfl rfl ho
  · show execVopa m x x sm a b j s = _
    unfold execVopa tileRun
    exact runInstr_vo hr rfl rfl rfl (by simp) rfl rfl ho
  · show execGmm m b a j s = _
    unfold execGmm gmmOp tileRun
    exact runInstr_vo hr rfl rfl rfl rfl rfl rfl ho
  · show execCload m 0 a j s = _
    unfold execCload tileRun
    exact runInstr_vo hr rfl rfl rfl rfl rfl rfl ho

theorem exec_vloop_vo (a : Reg5) (o : BitVec 16) : exec (.vloop a o) s = .next (s.trap ⟨0x03, BitVec.ofNat 64 s.hart.vownCtx.toNat⟩) := by
  show execVloop a o s = _
  unfold execVloop
  exact runInstr_vo_scalar rfl rfl rfl rfl rfl ho

theorem exec_vsetl_vo (d a b : Reg5) : exec (.vsetl d a b) s = .next (s.trap ⟨0x03, BitVec.ofNat 64 s.hart.vownCtx.toNat⟩) := by
  show execVsetl d a b s = _
  unfold execVsetl
  exact runInstr_vo_scalar rfl rfl rfl rfl rfl ho

theorem exec_vsetli_vo (d a : Reg5) (t : BitVec 16) : exec (.vsetli d a t) s = .next (s.trap ⟨0x03, BitVec.ofNat 64 s.hart.vownCtx.toNat⟩) := by
  show execVsetli d a t s = _
  unfold execVsetli
  exact runInstr_vo_scalar rfl rfl rfl rfl rfl ho

theorem exec_getc_vo (d : Reg5) {c : BitVec 16} (hp : cregSupervisor c = false) (hv : cregVector c = true) : exec (.getc d c) s = .next (s.trap ⟨0x03, BitVec.ofNat 64 s.hart.vownCtx.toNat⟩) := by
  show execGetc d c s = _
  unfold execGetc scalarOp
  exact runInstr_vo_scalar rfl rfl rfl hp hv ho

end

/-- Settles O12: the header of each instruction says whether it is privileged and whether it needs the vector state, and its checks come before everything else. -/
theorem privilegeAndOwnershipTraps : Obligations.PrivilegeAndOwnershipTraps := by
  refine ⟨fun s i hs hi => ?_, fun s d a b m x j o t r sm ho => ?_⟩
  · rcases hi with rfl | ⟨a, rfl | rfl | rfl⟩ | ⟨d, c, ⟨rfl, hc⟩ | ⟨rfl, hc⟩⟩ | ⟨t, a, j, rfl | rfl, hr⟩
    · exact exec_tret_prv hs
    · exact exec_vsave_prv hs a
    · exact exec_vrest_prv hs a
    · exact exec_brole_prv hs a
    · exact exec_getc_prv hs d (cregSupervisor_iff.2 hc)
    · exact exec_setc_prv hs d (cregSupervisor_iff.2 (hc.imp_right .inl))
    · exact exec_tsave_prv hs t a hr
    · exact exec_trest_prv hs t a hr
  · exact ⟨exec_valu_vo ho, exec_vmul_vo ho, exec_vlsu_vo ho, exec_xlane_vo ho, exec_engine_vo ho, exec_tile_vo ho, exec_vloop_vo ho a o, exec_vsetl_vo ho d a b,
      fun _ => exec_vsetli_vo ho d a t, exec_getc_vo ho d rfl rfl, exec_getc_vo ho d rfl rfl, exec_getc_vo ho d rfl rfl⟩

end Sys2Proof.Machine
end

section
/-! PROOFS. The roles of a core's banks where a record stands under the number of another hart (06 R164). -/

namespace Sys2Proof.Machine

open Sys2Proof

/-- A state in which a record of hart 0, further on in its program and with a vector write buffered, stands under the number 1, while hart 0 issues in supervisor mode and hart 1's own
record stands under 2. No run reaches it, but the statement is about every state. -/
def strayRole : State :=
  { State.reset with hart := { Hart.init 0 with status := 1 },
                     harts := [(1, { Hart.init 0 with pc := 4, vbuf := [⟨0, 0, [0], 0, none, 0, 0, ⟨0, []⟩⟩] }), (2, Hart.init 1)] }

/-- `brole` drains hart 1: the record under its number loses its write and takes the place of the issuing hart, with its PC. -/
theorem exec_brole_strayRole : ∃ t, exec (.brole 0) strayRole = .next t ∧ t.hart.pc = 8 := ⟨_, rfl, rfl⟩

/-- Refutes O56, in its clause of `brole`: the PC of the issuing hart goes from 0 to 8, not to 4, where the record drained for another hart of the core is one of the issuing hart. -/
theorem not_contextsAreSavedAndRolesChange : ¬ Obligations.ContextsAreSavedAndRolesChange := by
  intro h
  obtain ⟨-, -, -, -, roles⟩ := h strayRole strayRole 0 [] [] rfl rfl
  obtain ⟨t, claimed, next, -⟩ := roles rfl rfl rfl rfl rfl
  obtain ⟨t', executed, eight⟩ := exec_brole_strayRole
  cases Host.Outcome.next.inj (executed.symm.trans claimed)
  exact absurd (eight.symm.trans next) (by decide)

end Sys2Proof.Machine
end

section
/-! PROOFS. Vector loads (R119, R122, R128), and a write of a hart whose record stands under another number. -/

namespace Sys2Proof.Machine

open Sys2Proof

/-- An instruction that names no source operand and whose elements are aligned goes on to `k` with the state that has joined. -/
theorem memRun_bare {s : State} {hd : Hdr} {u : UnitClass} {j : BitVec 1} {bad03 bad07 : Hart → Bool} {masked : Bool} {dsts : Hart → List VOpd} {n : Hart → Nat}
    {elems : Hart → (Nat → Nat → Nat) → List RElem} {k : State → List VOpd → List RElem → Except Trap Eff} {e : Eff} (hv : hd.Vector u j []) (hm : s.hart.mayJoin u j = true)
    (h3 : bad03 (s.joined u j []).hart = false) (h7 : bad07 (s.joined u j []).hart = false) (plain : (s.joined u j []).hart.plainGroups (dsts (s.joined u j []).hart) = true)
    (aligned : alignedAll (elems (s.joined u j []).hart ((s.joined u j []).hart.srcVal [] [])) = .ok ())
    (hk : k (s.joined u j []) [] (elems (s.joined u j []).hart ((s.joined u j []).hart.srcVal [] [])) = .ok e) :
    memRun hd bad03 bad07 masked (fun _ => []) (fun _ => []) dsts n elems addrCheck k s = .next (hd.finish s.hart.convoy e) := by
  obtain ⟨hu, hj, ho, hfm, hp, -, hw⟩ := hv
  unfold memRun
  rw [runInstr_unit hd s _ u j hu hj ho hfm hp hm, hw]
  simp only [h3, stepFour_plain hd _ _ masked [] _ rfl plain h7, State.fetchSources, addrCheck, List.map_nil, List.append_nil, aligned, hk]

/-- A load whose element is placed takes its data once the writes that stand in its way have performed or not (R128). -/
theorem State.performPlaced_load {s : State} {own l : Nat} {before st : Bool} {e : RElem} (he : e.op = .load)
    (clean : (s.settleVector own l e.n e.addr).bad l e.n = false) (copies : (s.settleVector own l e.n e.addr).badCopies = []) :
    s.performPlaced own before [.loc e l st] = (s.settleVector own l e.n e.addr, [(e.idx, leNat (memRead e.n l (s.settleVector own l e.n e.addr).mem))], .done) := by
  simp only [State.performPlaced, State.performElem, he, Bool.false_eq_true, if_false, State.readError_clean _ own false clean copies]

/-- Elements that are all placed without a fault, and that nothing stops, perform. -/
theorem State.runPlaced_all {s t : State} {hd : Hdr} {r : Route} {long : Bool} {n : Nat} {es : List RElem} {ps : List Placed} {ds : List (Nat × Nat)} (needs : needsBelowError ps = [])
    (faults : faultsOf ps = []) (stop : s.hart.stopOf es ps = none) (ran : s.performPlaced s.hart.id true ps = (t, ds, .done)) : s.runPlaced hd r long false n es ps = .all t ds := by
  simp only [State.runPlaced, needs, faults, stop, ran, ite_self, ne_eq, not_true_eq_false, Bool.false_eq_true, if_false, if_true]

/-! ### A counterexample -/

/-- `strayBuffer`, in which hart 4097 has a store to location 0 buffered while a record without one stands under its number, with a strip of one half byte. -/
def strayLoad : State := { strayBuffer with hart := { Hart.init 4096 with vownV := true, vl := 1 } }

/-- Its element 0, at location 0. -/
def strayElem : RElem := ⟨0, 0, 1, .load, 0, 0⟩

/-- The state in which that element performs: the load has joined its convoy, made its interlock entry and placed the element. -/
def strayPlaced : State :=
  (((strayLoad.joined .vlsu 0 []).openLock 4096 ((strayLoad.hart.unitRoute 0 1 4).lines [strayElem])).placeAll 4096 (strayLoad.hart.unitRoute 0 1 4) [strayElem]).1

/-- The store that stands in the way may have performed or not; a free value is taken for it. -/
theorem strayPlaced_settled : (strayPlaced.settleVector 4096 0 1 0).free = 1 ∧ (strayPlaced.settleVector 4096 0 1 0).bad 0 1 = false ∧
    (strayPlaced.settleVector 4096 0 1 0).badCopies = [] ∧ (strayPlaced.settleVector 4096 0 1 0).hart = strayPlaced.hart := by
  have settled : strayPlaced.settleVector 4096 0 1 0 = if Config.drained 0 = true then strayPlaced.took.drainS 4097 1 else strayPlaced.took := rfl
  rw [settled]
  split
  · exact ⟨rfl, rfl, rfl, rfl⟩
  · exact ⟨rfl, rfl, rfl, rfl⟩

/-- The element is placed at location 0, and performs. -/
theorem strayLoad_ran (hd : Hdr) : ∃ ds, (strayLoad.joined .vlsu 0 []).runElems hd (strayLoad.hart.unitRoute 0 1 4) true false 1 [strayElem] = .all (strayPlaced.settleVector 4096 0 1 0) ds := by
  obtain ⟨-, clean, copies, -⟩ := strayPlaced_settled
  have placed : (strayLoad.joined .vlsu 0 []).runElems hd (strayLoad.hart.unitRoute 0 1 4) true false 1 [strayElem] =
      strayPlaced.runPlaced hd (strayLoad.hart.unitRoute 0 1 4) true false 1 [strayElem] [.loc strayElem 0 false] := rfl
  exact ⟨_, placed.trans (State.runPlaced_all rfl rfl rfl (State.performPlaced_load rfl clean copies))⟩

/-- The load retires with a free value taken. -/
theorem exec_vld_strayLoad : ∃ t, exec (.vld 0 0 0 0) strayLoad = .next t ∧ t.free = 1 := by
  obtain ⟨free, -, -, same⟩ := strayPlaced_settled
  obtain ⟨ds, ran⟩ := strayLoad_ran (vhdr (wVld 0 0 0 0) .vlsu 0)
  have ends := congrArg (loadEnd (strayLoad.joined .vlsu 0 []) (vhdr (wVld 0 0 0 0) .vlsu 0) 1 [] (strayLoad.hart.opd 0) strayLoad.hart.loaded) ran
  rw [loadEnd, State.putResult_plain _ _ _ _ (List.forall_mem_nil _) (by rw [same]; rfl)] at ends
  show ∃ t, execVld 0 0 0 0 strayLoad = .next t ∧ t.free = 1
  unfold execVld vloadOp
  exact ⟨_, memRun_bare (vhdr_vector ..) rfl rfl rfl rfl rfl (congrArg Except.ok ends), free⟩

/-- Refutes O42: the load of a half byte at location 0 takes a free value, which the statement has stay. -/
theorem not_vectorLoadsReadMemory : ¬ Obligations.VectorLoadsReadMemory := by
  intro h
  obtain ⟨t, loaded, one⟩ := exec_vld_strayLoad
  obtain ⟨unit, -⟩ := h strayLoad 0 0 0 0 0 0 (fun _ => 0) rfl rfl rfl rfl
  have element : ∀ i ∈ strayLoad.hart.activeMem 0 1, i = 0 := by decide
  have reached : (strayLoad.joined .vlsu 0 []).reaches true .read 1 0 0 := ⟨⟨false, rfl⟩, .inl (by decide), rfl, rfl, rfl, rfl⟩
  have agree : (strayLoad.joined .vlsu 0 []).pagesAgree .read (strayLoad.hart.activeMem 0 1) (fun i => strayLoad.hart.gs 0 + BitVec.ofNat 64 (i * 4 / 8)) (fun _ => 0) := by
    intro i hi i' hi'
    cases element i hi
    cases element i' hi'
    exact fun _ _ => rfl
  obtain ⟨⟨t', claimed⟩, -⟩ := unit rfl ⟨fun i hi => by cases element i hi; exact ⟨rfl, reached⟩, fun _ => agree⟩
  cases Host.Outcome.next.inj (loaded.symm.trans claimed)
  exact Nat.zero_ne_one one

end Sys2Proof.Machine
end

section
/-! PROOFS. A store, and the load and the fence after it, where the hart has no other write buffered (03 R74, R90, 06 R169). -/

namespace Sys2Proof.Machine

open Sys2Proof

/-- Where no hart but the issuing one has been used and no firmware core runs, it is all the harts there are. -/
theorem State.allHarts_alone {s : State} (hh : s.harts = []) (he : s.eweok.toList.all (fun h => !h.run) = true) : s.allHarts = [s.hart] := by
  have stopped : s.eweok.toList.filter (fun h => h.run && h.id != s.hart.id) = [] := by
    refine List.filter_eq_nil_iff.2 (fun h hm => ?_)
    have stands : h.run = false := by simpa using List.all_eq_true.1 he h hm
    rw [stands, Bool.false_and]
    exact Bool.false_ne_true
  rw [State.allHarts, hh, stopped]
  rfl

/-- A buffered store gives a load of its bytes all of them, whatever stands in memory (R169). -/
theorem forward_single (p : PendWrite) {bs : List Byte} (hl : bs.length = p.bytes.length) : forward [p] p.loc bs = p.bytes := by
  refine List.ext_getElem (by simp [forward, hl]) (fun k _ hk => ?_)
  simp [forward, hk]

/-- A register that is stored whole is loaded as it was (R74). -/
theorem extend_stored (x : Word) : extend false 8 (leNat (natLe 8 x.toNat)) = x := by
  have small : x.toNat % 2 ^ 64 = x.toNat := Nat.mod_eq_of_lt x.isLt
  rw [leNat_natLe, extend, if_neg Bool.false_ne_true, small, small, BitVec.ofNat_toNat, BitVec.setWidth_eq]

/-! ### One buffered store -/

/-- The store is the one write that the hart has buffered, and there is no other hart. -/
structure State.OnlyStore (s : State) (p : PendWrite) : Prop where
  sbuf : s.hart.sbuf = [p]
  vbuf : s.hart.vbuf = []
  harts : s.harts = []
  eweok : s.eweok.toList.all (fun h => !h.run) = true

namespace State.OnlyStore

variable {s : State} {p : PendWrite} (hp : s.OnlyStore p)
include hp

theorem checked (serial : Bool) (rs : List Reg5) : (s.checked serial rs).OnlyStore p := ⟨hp.sbuf, hp.vbuf, hp.harts, hp.eweok⟩

/-- A scalar load leaves the store in its buffer: what it settles are vector writes, and writes of other harts (R128, R169). -/
theorem settleScalar_eq (l n : Nat) : s.settleScalar s.hart.id l n = s := by
  have alone := State.allHarts_alone hp.harts hp.eweok
  simp [State.settleScalar, State.settleOthers, State.getHart_own, hp.vbuf, alone, lastHit]

/-- A load of the bytes stored takes them from the buffer, and memory stays (R169). -/
theorem load {n : Nat} {strict : Bool} (w : IWord) (d a : Reg5) (o : BitVec 13) (signed : Bool) (hs : s.hart.sound = true) (ha : tabGet s.hart.answers 0 = none)
    (ht : (s.checked false [a]).translate s.hart.agent .read (s.hart.ea a o) = (s.checked false [a], .loc p.loc strict)) (hal : (s.hart.ea a o).toNat % n = 0)
    (hn : p.bytes.length = n) (he : s.ecc = []) (hc : s.badCopies = []) :
    loadOp w d a o n signed s = .next ((s.checked false [a]).retired d (extend signed n (leNat p.bytes))) := by
  have clean : (s.checked false [a]).bad p.loc n = false := by rw [State.bad, State.checked_ecc, he]; rfl
  rw [loadOp_placed w d a o signed hs ha ht hal ((hp.checked false [a]).settleScalar_eq p.loc n) clean hc, State.getHart_own, (hp.checked false [a]).sbuf,
    forward_single p (by rw [memRead_length, hn])]

theorem drainS1_eq : s.drainS1 s.hart.id = ({ s with hart := { s.hart with sbuf := [] } } : State).perform p.loc p.bytes := by
  simp only [State.drainS1, State.drainWhere, State.getHart_own, State.setHart, hp.sbuf, hp.vbuf, splitWrites, List.isEmpty_nil, if_true, List.drop_one, List.tail_cons]

/-- Once the hart's buffers have drained, memory has the store. -/
theorem drainAll_mem : (s.drainAll s.hart.id).mem = memPut s.mem p.loc p.bytes := by
  obtain ⟨performs, -⟩ := s.drainS1_performs (ws := [p]) (by rw [hp.sbuf]; exact fun _ h => h) (by rw [hp.vbuf]; exact List.nil_subset _)
  have none_left : (s.drainS1 s.hart.id).hart.vbuf = [] := List.subset_nil.1 (hp.vbuf ▸ performs.vbuf)
  have stored : (s.drainS1 s.hart.id).mem = memPut s.mem p.loc p.bytes := by rw [hp.drainS1_eq, State.perform_mem]
  simp only [State.drainAll, State.getHart_own, hp.sbuf, List.length_singleton, State.drainS]
  generalize s.drainS1 s.hart.id = s1 at performs none_left stored ⊢
  rw [← performs.id_eq, State.getHart_own, none_left]
  exact stored

/-- A fence that no engine and no ticket holds leaves the store in memory (R90). -/
theorem fence {u : State} {sc : BitVec 3} (hsc : sc ≠ 4) (hb : s.engineBusy s.hart.id = false) (hu : exec (.fence sc) s = .next u) : u.mem = memPut s.mem p.loc p.bytes := by
  have performed : ((s.checked true []).drainAll s.hart.id).mem = memPut s.mem p.loc p.bytes := (hp.checked true []).drainAll_mem
  have ends : ∀ {e : State},
      (if sc = 0 then .ok (.next ((s.checked true []).drainAll s.hart.id)) else .ok (.next ((s.checked true []).drainAll s.hart.id).dropCode) : Except Trap Eff) = .ok (.next e) →
      execFence sc s = .next e.serialDone := fun he =>
    runInstr_serial_next ((if_neg (fence_system_passes sc (fun h => absurd h hsc))).trans ((if_neg (Bool.not_eq_true _ ▸ hb)).trans he))
  generalize (s.checked true []).drainAll s.hart.id = t at performed ends
  have executed : execFence sc s = .next u := hu
  by_cases core_scope : sc = 0
  · cases Host.Outcome.next.inj (executed.symm.trans (ends (if_pos core_scope)))
    exact performed
  · cases Host.Outcome.next.inj (executed.symm.trans (ends (if_neg core_scope)))
    exact t.dropCode_mem.trans performed

end State.OnlyStore

/-! ### The round trip -/

/-- The state past a doubleword store of s[v] to a location, where the store buffer was empty. -/
def State.afterStore (s : State) (v a : Reg5) (l : Nat) (ea : Word) : State :=
  { s with hart := { s.hart.past (s.hart.pc + 4) (s.hart.convoyPast false [v, a]) with
    sbuf := [⟨s.hart.wseq, l, natLe 8 (s.gs v).toNat, s.hart.strip, none, ea, 0, ⟨0, []⟩⟩], wseq := s.hart.wseq + 1 } }

/-- A hart past an instruction is the same agent: of STATUS only REISSUE can change, not the mode. -/
theorem Hart.past_agent (h : Hart) (pc : Word) (c : Option Convoy) : (h.past pc c).agent = h.agent := by
  have mode : (h.past pc c).super = h.super := by
    rw [Hart.super, Hart.past_status]
    split
    · simp [Hart.super]
    · rfl
  rw [Hart.agent, mode, Hart.past_id, Hart.past_ctxid, Hart.agent]

theorem exec_stD_afterStore {s : State} {v a : Reg5} {o : BitVec 13} {l : Nat} {strict : Bool} (hs : s.hart.sound = true) (ha : tabGet s.hart.answers 0 = none)
    (ht : (s.checked false [v, a]).translate s.hart.agent .write (s.hart.ea a o) = (s.checked false [v, a], .loc l strict)) (hal : (s.hart.ea a o).toNat % 8 = 0)
    (hc : s.copyHits s.hart.id (s.hart.ea a o) 8 = false) (hb : s.hart.sbuf = []) : exec (.stD v a o) s = .next (s.afterStore v a l (s.hart.ea a o)) := by
  have room : (s.checked false [v, a]).hart.sbuf.length < 8 := by rw [State.checked_hart, hb]; decide
  show execStD v a o s = _
  unfold execStD
  rw [storeOp_placed _ v a o hs ha ht hal hc, State.bufferS_room _ _ _ room, State.checked_hart, hb]
  rfl

theorem State.afterStore_agent (s : State) (v a : Reg5) (l : Nat) (ea : Word) : (s.afterStore v a l ea).hart.agent = s.hart.agent :=
  s.hart.past_agent (s.hart.pc + 4) (s.hart.convoyPast false [v, a])

theorem State.afterStore_onlyStore {s : State} (v a : Reg5) (l : Nat) (ea : Word) (hv : s.hart.vbuf = []) (hh : s.harts = []) (he : s.eweok.toList.all (fun h => !h.run) = true) :
    (s.afterStore v a l ea).OnlyStore ⟨s.hart.wseq, l, natLe 8 (s.gs v).toNat, s.hart.strip, none, ea, 0, ⟨0, []⟩⟩ := ⟨rfl, hv, hh, he⟩

/-- Where no cluster and no dispatch context has been used, no engine works for a hart. -/
theorem State.engineBusy_unused {s : State} (own : Nat) (hcl : s.clusters = []) (hch : s.churns = []) : s.engineBusy own = false := by
  rw [State.engineBusy, State.copyBusy, State.rowsOut, State.getCluster, hcl, hch]
  rfl

theorem State.copyHits_unused {s : State} (own : Nat) (va : Word) (n : Nat) (hcl : s.clusters = []) : s.copyHits own va n = false := by
  rw [State.copyHits, State.getCluster, hcl]
  rfl

/-- Settles O23: the store is the one write in the buffer, from which the load takes its bytes, and which the fence performs. -/
theorem storesReachLoadsAndMemory : Obligations.StoresReachLoadsAndMemory := by
  intro s s1 s2 v d a o sc l ea place aligned _ hsb hvb hh hew hcl hch hecc hbc hs ha _ hsc wf stored fenced
  have address : ea = s.hart.ea a o := (s.hart.ea_eq_ofInt a o).symm
  clear_value ea
  subst address
  have entered := exec_stD_afterStore hs (by rw [ha]; rfl) (place (s.checked false [v, a]) rfl rfl rfl .write) aligned (State.copyHits_unused _ _ _ hcl) hsb
  cases Host.Outcome.next.inj (stored.symm.trans entered)
  have only := State.afterStore_onlyStore v a l (s.hart.ea a o) hvb hh hew
  have placed := place ((s.afterStore v a l (s.hart.ea a o)).checked false [a]) (s.afterStore_agent v a l (s.hart.ea a o)) rfl rfl .read
  have performed : s2.mem = memPut s.mem l (natLe 8 (s.gs v).toNat) := only.fence (fun h => absurd (h ▸ hsc) (by decide)) (State.engineBusy_unused _ hcl hch) fenced
  refine ⟨⟨_, only.load (wLdD d a o) d a o false hs rfl placed aligned (natLe_length 8 _) hecc hbc, fun hd => ?_, rfl⟩, ?_, fun k hk => ?_⟩
  · exact (Hart.gs_ps_same _ hd _).trans (extend_stored (s.gs v))
  · have same := memRead_memPut_same wf l (natLe 8 (s.gs v).toNat)
    rwa [natLe_length, ← performed] at same
  · rw [performed, memGet_memPut wf, natLe_length, if_neg (by omega)]

end Sys2Proof.Machine
end

section
/-! PROOFS. What a tile instruction comes to that the hart may issue while no other hart has the TILE unit (07 R174, R176, R307). -/

namespace Sys2Proof.Machine

open Sys2Proof

/-! ### A hart that has joined sees the tiles that it saw (R15, R174) -/

section

variable (s : State) (u : UnitClass) (j : BitVec 1) (sw : List Reg5)

@[simp] theorem State.joined_id : (s.joined u j sw).hart.id = s.hart.id := by rw [State.joined_hart]; rfl
@[simp] theorem State.joined_vl : (s.joined u j sw).hart.vl = s.hart.vl := by rw [State.joined_hart]; rfl
@[simp] theorem State.joined_gs (r : Reg5) : (s.joined u j sw).gs r = s.gs r := by rw [State.gs, State.joined_hart]; rfl
@[simp] theorem State.joined_getTile (b : Nat) : (s.joined u j sw).getTile b = s.getTile b := by rw [State.getTile, State.joined_id]; rfl
@[simp] theorem State.joined_accLoc (b i n : Nat) : (s.joined u j sw).accLoc b i n = s.accLoc b i n := by rw [State.accLoc, State.joined_id]; rfl
@[simp] theorem State.joined_tileBank (t : BitVec 3) : (s.joined u j sw).tileBank t = s.tileBank t := by rw [State.tileBank, State.joined_hart]; rfl
@[simp] theorem State.joined_tileBad (b : Nat) : (s.joined u j sw).tileBad b = s.tileBad b := by simp only [State.tileBad, State.joined_accLoc]; rfl
@[simp] theorem State.joined_tileArea (b : Nat) : (s.joined u j sw).tileArea b = s.tileArea b := by
  simp only [State.tileArea, State.joined_getTile, State.joined_accLoc]; rfl

/-- The issuing hart is none of the others that may have the TILE unit. -/
@[simp] theorem State.joined_tileTaken : (s.joined u j sw).tileTaken s.hart.id = s.tileTaken s.hart.id := by
  simp only [State.tileTaken, State.allHarts, List.cons_append, List.any_cons, State.joined_id, bne_self_eq_false, Bool.and_false, Bool.false_and, Bool.false_or]
  rfl

end

/-! ### The header and the checks of a tile instruction (R354) -/

/-- The header of a tile pair that no check of its own stops. -/
structure Hdr.Tile (hd : Hdr) (j : BitVec 1) : Prop where
  unit : hd.unit = some .tile
  joins : hd.j = (j == 1)
  overlap : hd.bad07 = false
  format : hd.bad0B = false
  body : hd.body.isSome = true
  swrites : hd.swrites = []

theorem tileHdr_tile (w b : IWord) (j : BitVec 1) : (tileHdr w b j).Tile j := ⟨rfl, rfl, rfl, rfl, rfl, rfl⟩

/-- The header of an instruction with a format code of accumulators (R18). -/
theorem tileHdr_tile_format (w b : IWord) (j : BitVec 1) {bad : Bool} (h : bad = false) : ({ tileHdr w b j with bad0B := bad } : Hdr).Tile j := ⟨rfl, rfl, rfl, h, rfl, rfl⟩

theorem saveHdr_tile (w b : IWord) (j : BitVec 1) : (saveHdr w b j).Tile j := ⟨rfl, rfl, rfl, rfl, rfl, rfl⟩

/-- A tile instruction that may execute in the mode passes the checks of its header where the hart may join. -/
theorem Hdr.Tile.check {hd : Hdr} {s : State} {j : BitVec 1} (hv : hd.Tile j) (hp : hd.priv = true → s.hart.super = true) (hm : s.hart.mayJoin .tile j = true) :
    hd.check s = none := by
  obtain ⟨hu, hj, h7, hb, -, -⟩ := hv
  have user : ({ hd with priv := false } : Hdr).check s = none := Hdr.check_unit _ s .tile j hu hj h7 hb rfl hm
  have passes : (hd.priv && !s.hart.super) = false := by
    cases h : hd.priv
    · rfl
    · rw [hp h]; rfl
  have same : hd.check s = ({ hd with priv := false } : Hdr).check s := by
    simp only [Hdr.check, passes]
    rfl
  rw [same, user]

/-- A tile instruction whose effect on the state that has joined is `t` retires with it. -/
theorem tileRun_next {hd : Hdr} {s t : State} {j : BitVec 1} {f : State → Except Trap Eff} (hv : hd.Tile j) (hp : hd.priv = true → s.hart.super = true)
    (hm : s.hart.mayJoin .tile j = true) (free : s.tileTaken s.hart.id = false) (hf : f (s.joined .tile j []) = .ok (.next t)) : tileRun hd s f = .next (t.vecRetired 8) := by
  have begun : s.begun hd = s.joined .tile j [] := by
    unfold State.begun State.joined State.upd Hdr.starts
    beta_reduce
    rw [hv.unit, Hdr.convoy_unit hd s.hart .tile j hv.unit hv.joins, hv.swrites]
    rfl
  have eight : hd.len = 8 := if_pos hv.body
  unfold tileRun
  rw [runInstr_passes hd s _ (hv.check hp hm) (Hdr.badSource_sound hd _ (Hart.mayJoin_sound hm)), begun]
  simp only [State.joined_id, State.joined_tileTaken, free, Bool.false_eq_true, if_false, hf]
  rw [Hdr.finish_next_unit hd _ _ .tile hv.unit, eight]

/-- The tile's bank holds no bad codeword, so that reading it changes nothing (R307). -/
theorem State.readsTile_sound {s : State} {b : Nat} (h : s.tileBad b = none) (f : State → Eff) : s.readsTile b f = f s := by
  simp only [State.readsTile, h, ite_self]

/-- What a hart that may issue an instruction of tile t finds: it may join, t is mapped to bank b, and b is sound. -/
theorem State.tileReady_iff (s : State) (t : BitVec 3) (b : Nat) (j : BitVec 1) :
    s.tileReady t b j = true ↔ s.hart.mayJoin .tile j = true ∧ s.tileBank t = some b ∧ s.tileBad b = none := by
  simp [State.tileReady, and_assoc]

/-- A tile that is mapped is found. -/
theorem State.needTile_mapped {s : State} {t : BitVec 3} {b : Nat} (h : s.tileBank t = some b) : s.needTile t = .ok b := by
  simp only [State.needTile, h]

/-- No check of a tile's own state stops the instruction. -/
theorem tileChecks_pass (hd : Hdr) : tileChecks hd false false = .ok () := rfl

/-! ### The tile set, and the state past a tile instruction -/

@[simp] theorem State.getTile_setTile (s : State) (b : Nat) (T : Tile) : (s.setTile b T).getTile b = T := by
  simp [State.getTile, State.setTile, State.setCore, State.getCore]

@[simp] theorem State.vecRetired_getTile (s : State) (len : Word) (b : Nat) : (s.vecRetired len).getTile b = s.getTile b := rfl
@[simp] theorem State.vecRetired_mem (s : State) (len : Word) : (s.vecRetired len).mem = s.mem := rfl

/-- A hart that has changed nothing since it joined retires past its instruction (R42). -/
theorem State.vecRetired_joined {s t : State} {u : UnitClass} {j : BitVec 1} {sw : List Reg5} (len : Word) (h : t.hart = (s.joined u j sw).hart) :
    (t.vecRetired len).hart = s.hart.vectorPast len u j sw := by
  rw [State.vecRetired, h, State.joined_hart]
  rfl

/-! ### Blocks of memory cleared, and reads apart from what is written -/

theorem cellsOf_zeros : ∀ n l : Nat, cellsOf l (List.replicate n 0) = []
  | 0, _ => rfl
  | n + 1, l => by rw [List.replicate_succ, cellsOf, if_pos rfl, cellsOf_zeros n]

/-- Clearing a block writes zeros to it. -/
theorem memClear_eq_memPut (m : List Host.Cell) (l n : Nat) : memClear m l n = memPut m l (List.replicate n 0) := by
  rw [memClear, memPut, cellsOf_zeros, List.append_nil, List.length_replicate]

theorem memGet_memClear {m : List Host.Cell} (hm : Memory.wf m = true) (l n k : Nat) : memGet (memClear m l n) k = if l ≤ k ∧ k < l + n then 0 else memGet m k := by
  rw [memClear_eq_memPut, memGet_memPut hm, List.length_replicate]
  split
  · simp only [List.getD_eq_getElem?_getD, List.getElem?_replicate]
    split <;> rfl
  · rfl

/-- A block that shares no byte with what is written reads as before. -/
theorem memRead_memPut_apart {m : List Host.Cell} (hm : Memory.wf m = true) {l n k : Nat} {bs : List Byte} (h : k + n ≤ l ∨ l + bs.length ≤ k) :
    memRead n k (memPut m l bs) = memRead n k m := by
  rw [memRead_eq n k hm, memRead_eq n k (Memory.memPut_wf l bs hm)]
  refine List.map_congr_left (fun i hi => ?_)
  have := List.mem_range.1 hi
  rw [memGet_memPut hm, if_neg (by omega)]

/-- A block read in two parts. -/
theorem memRead_add (a b l : Nat) (m : List Host.Cell) : memRead (a + b) l m = memRead a l m ++ memRead b (l + a) m := by
  have parts := List.take_append_drop a (memRead (a + b) l m)
  rw [memRead_take _ _ (Nat.le_add_right a b), memRead_drop _ _ (Nat.le_add_right a b), Nat.add_sub_cancel_left] at parts
  exact parts.symm

/-- The bytes of a tile's bank are zero once it is zeroed, and no other byte changes (R177). -/
theorem State.memGet_zeroTile {s : State} (hw : Memory.wf s.mem = true) (b k : Nat) :
    memGet (s.zeroTile b).mem k = if s.accLoc b 0 0 ≤ k ∧ k < s.accLoc b 0 0 + 65536 then 0 else memGet s.mem k :=
  memGet_memClear hw _ _ k

end Sys2Proof.Machine
end

section
/-! PROOFS. The accumulators of a tile as numbers, and what closing an open K-block makes of them (02 R52, 07 R175, R179, R180). -/

namespace Sys2Proof.Machine

open Sys2Proof

/-! ### Accumulators in memory (R175) -/

/-- Where the accumulators of a bank stand: rows of 512 bytes. -/
theorem State.accLoc_eq (s : State) (b i n : Nat) : s.accLoc b i n = s.accLoc b 0 0 + 512 * i + 4 * n := by
  simp only [State.accLoc, locBank]
  omega

theorem words32_append {bs : List Byte} (h : bs.length = 4) (rest : List Byte) : words32 (bs ++ rest) = leNat bs :: words32 rest := by
  obtain ⟨p, q, r, t, rfl⟩ : ∃ p q r t, bs = [p, q, r, t] := by
    match bs, h with
    | [p, q, r, t], _ => exact ⟨p, q, r, t, rfl⟩
  rfl

/-- The 32-bit values of a block. -/
theorem words32_memRead (m : List Host.Cell) : ∀ n l : Nat, words32 (memRead (4 * n) l m) = (List.range n).map (fun k => leNat (memRead 4 (l + 4 * k) m))
  | 0, _ => rfl
  | n + 1, l => by
    rw [Nat.mul_succ, Nat.add_comm, memRead_add, words32_append (memRead_length ..), words32_memRead m n, List.range_succ_eq_map, List.map_cons, List.map_map]
    congr 1
    refine List.map_congr_left (fun k _ => ?_)
    show leNat (memRead 4 (l + 4 + 4 * k) m) = leNat (memRead 4 (l + 4 * (k + 1)) m)
    congr 2
    omega

/-- A row of accumulators is its accumulators. -/
theorem State.accRow_eq (s : State) (b i n : Nat) : s.accRow b i n = (List.range n).map (s.acc b i) := by
  rw [State.accRow, words32_memRead]
  refine List.map_congr_left (fun k _ => ?_)
  rw [State.acc, s.accLoc_eq b i k, s.accLoc_eq b i 0]
  rfl

/-- The bytes of one of some 32-bit values. -/
theorem flatMap_natLe_four : ∀ (xs : List Nat) (n : Nat), n < xs.length → ((xs.flatMap (natLe 4)).drop (4 * n)).take 4 = natLe 4 (xs.getD n 0)
  | x :: xs, 0, _ => by
    rw [List.flatMap_cons]
    exact List.take_left' (natLe_length 4 x)
  | x :: xs, n + 1, h => by
    have skip : 4 * (n + 1) = (natLe 4 x).length + 4 * n := by rw [natLe_length]; omega
    rw [List.flatMap_cons, skip, List.drop_length_add_append, flatMap_natLe_four xs n (Nat.lt_of_succ_lt_succ h), List.getD_cons_succ]

theorem flatMap_natLe_length (xs : List Nat) : (xs.flatMap (natLe 4)).length = 4 * xs.length := by
  rw [length_flatMap_const (natLe 4) 4 (natLe_length 4), Nat.mul_comm]

/-- An accumulator after a row has been set: of that row its value, of another what it was. -/
theorem State.acc_putAccRow {s : State} (hw : Memory.wf s.mem = true) (b i : Nat) {xs : List Nat} (hx : xs.length ≤ 128) (i' : Nat) {n : Nat} (hn : n < 128) :
    (s.putAccRow b i xs).acc b i' n = if i' = i ∧ n < xs.length then xs.getD n 0 % 2 ^ 32 else s.acc b i' n := by
  show leNat (memRead 4 (s.accLoc b i' n) (memPut s.mem (s.accLoc b i 0) (xs.flatMap (natLe 4)))) = _
  have row := s.accLoc_eq b i 0
  have at_ := s.accLoc_eq b i' n
  split
  next h =>
    obtain ⟨rfl, h⟩ := h
    have written := memRead_memPut_same hw (s.accLoc b i' 0) (xs.flatMap (natLe 4))
    have piece : memRead 4 (s.accLoc b i' n) (memPut s.mem (s.accLoc b i' 0) (xs.flatMap (natLe 4))) = natLe 4 (xs.getD n 0) := by
      rw [← flatMap_natLe_four xs n h]
      conv_rhs => rw [← written]
      rw [memRead_drop _ _ (by rw [flatMap_natLe_length]; omega), memRead_take _ _ (by rw [flatMap_natLe_length]; omega), at_, row]
      rfl
    rw [piece, leNat_natLe]
  next h =>
    rw [State.acc, memRead_memPut_apart hw]
    rw [flatMap_natLe_length]
    omega

theorem State.putAccRow_wf {s : State} (hw : Memory.wf s.mem = true) (b i : Nat) (xs : List Nat) : Memory.wf (s.putAccRow b i xs).mem = true := Memory.memPut_wf _ _ hw

/-! ### The codes of f32 results (R52, R54) -/

theorem FName.f32_code_lt {mag : Nat} (neg : Bool) (h : mag < 2 ^ 31) : FName.f32.code neg mag < 2 ^ 32 := by
  have sign : FName.f32.width - 1 = 31 := rfl
  rw [FName.code, sign]
  split <;> omega

theorem FName.f32_overflow_lt (rm : RM) (sat neg : Bool) : FName.f32.overflow rm sat neg < 2 ^ 32 := by
  unfold FName.overflow
  extract_lets toInf
  split
  · exact FName.f32_code_lt (mag := FName.f32.maxCode) neg (by decide)
  · exact FName.f32_code_lt (mag := FName.f32.maxCode + 1) neg (by decide)

/-- A value rounded to f32 is a code of 32 bits. -/
theorem FName.f32_round_lt (rm : RM) (sat : Bool) (v : FVal) : (FName.f32.round rm sat v).1 < 2 ^ 32 := by
  cases v with
  | nan => exact (by decide : FName.f32.nanCode < 2 ^ 32)
  | inf neg => exact FName.f32_code_lt (mag := FName.f32.maxCode + 1) neg (by decide)
  | num neg m e =>
    dsimp only [FName.round, FName.roundNum]
    generalize max ((Nat.log2 m : Int) + e - FName.f32.fbits) (1 - (FName.f32.bias : Int) - FName.f32.fbits) = lsb
    generalize (if lsb ≤ e then (m * 2 ^ (e - lsb).toNat, false) else roundShift rm neg m (lsb - e).toNat) = r
    split
    · exact FName.f32_code_lt neg (Nat.two_pow_pos 31)
    · split
      · exact FName.f32_overflow_lt rm sat neg
      next h => exact FName.f32_code_lt neg (lt_of_le_of_lt (Nat.not_lt.1 h) (show FName.f32.maxCode < 2 ^ 31 by decide))

theorem closeOne_lt (c : Nat) (blk : Option BlkCell) (x y : Nat) : (closeOne c blk x y).1 < 2 ^ 32 := FName.f32_round_lt ..

/-! ### One row closed (R179, R180) -/

@[simp] theorem closeRow_length (bsb : Vector Byte 128) (x base : Nat) : ∀ (cs : List Nat) (j : Nat) (blk : List BlkCell), (closeRow bsb x base j cs blk).1.length = cs.length
  | [], _, _ => rfl
  | c :: cs, j, blk => by simp only [closeRow, List.length_cons, closeRow_length bsb x base cs]

/-- No cell of a row stands at a position below all of them. -/
theorem find_below {blk : List BlkCell} {p : Nat} (h : ∀ c ∈ blk, p < c.pos) : blk.find? (fun c => c.pos == p) = none :=
  List.find?_eq_none.2 (fun c hc => by have := h c hc; simp only [beq_iff_eq]; omega)

/-- Each accumulator of a row is closed with its own cell, where the cells ascend. -/
theorem closeRow_getD (bsb : Vector Byte 128) (x base : Nat) : ∀ (cs : List Nat) (j : Nat) (blk : List BlkCell), blk.Pairwise (fun p q => p.pos < q.pos) →
    (∀ c ∈ blk, base + j ≤ c.pos) → ∀ n < cs.length,
    (closeRow bsb x base j cs blk).1.getD n 0 = (closeOne (cs.getD n 0) (blk.find? (fun c => c.pos == base + j + n)) x (bsb.getD (j + n) 127).toNat).1
  | [], _, _, _, _, _, h => absurd h (Nat.not_lt_zero _)
  | c :: cs, j, [], hp, hb, n, hn => by
    cases n with
    | zero => rfl
    | succ n =>
      have ih := closeRow_getD bsb x base cs (j + 1) [] hp (List.forall_mem_nil _) n (Nat.lt_of_succ_lt_succ hn)
      rw [Nat.add_right_comm j 1 n] at ih
      exact ih
  | c :: cs, j, k :: ks, hp, hb, n, hn => by
    obtain ⟨first, rest⟩ := List.pairwise_cons.1 hp
    by_cases here : k.pos = base + j
    · have above : ∀ q ∈ ks, base + (j + 1) ≤ q.pos := fun q hq => by have := first q hq; omega
      cases n with
      | zero => simp [closeRow, here]
      | succ n =>
        have ih := closeRow_getD bsb x base cs (j + 1) ks rest above n (Nat.lt_of_succ_lt_succ hn)
        have other : (k.pos == base + j + (n + 1)) = false := by simp only [beq_eq_false_iff_ne]; omega
        rw [List.find?_cons_of_neg (by simp [other])]
        simp only [closeRow, here, if_true, Option.isSome_some, List.drop_one, List.tail_cons, List.getD_cons_succ]
        rw [ih, show base + (j + 1) + n = base + j + (n + 1) by omega, show j + 1 + n = j + (n + 1) by omega]
    · have above : ∀ q ∈ k :: ks, base + (j + 1) ≤ q.pos := List.forall_mem_cons.2
        ⟨by have := hb k (List.mem_cons_self ..); omega, fun q hq => by have := first q hq; have := hb k (List.mem_cons_self ..); omega⟩
      cases n with
      | zero =>
        rw [Nat.add_zero, find_below (fun q hq => by have := above q hq; omega)]
        simp [closeRow, here]
      | succ n =>
        have ih := closeRow_getD bsb x base cs (j + 1) (k :: ks) hp above n (Nat.lt_of_succ_lt_succ hn)
        simp only [closeRow, here, if_false, Option.isSome_none, Bool.false_eq_true, List.getD_cons_succ]
        rw [ih, show base + (j + 1) + n = base + j + (n + 1) by omega, show j + 1 + n = j + (n + 1) by omega]

/-- Row i of a tile closed, from its accumulators. -/
def Tile.closedRow (t : Tile) (i : Nat) (cs : List Nat) : List Nat × Exc :=
  closeRow t.bsb (t.bsa.getD i 127).toNat (i * 128) 0 cs (t.blk.filter (fun k => decide (i * 128 ≤ k.pos) && decide (k.pos < i * 128 + t.tn)))

@[simp] theorem Tile.closedRow_length (t : Tile) (i : Nat) (cs : List Nat) : (t.closedRow i cs).1.length = cs.length := closeRow_length ..

/-- An accumulator of a row is closed with its cell of the open block. -/
theorem Tile.closedRow_getD {t : Tile} (hb : t.blk.Pairwise (fun p q => p.pos < q.pos)) (i : Nat) {n : Nat} {cs : List Nat} (hl : cs.length = t.tn) (hn : n < t.tn) :
    (t.closedRow i cs).1.getD n 0 = (closeOne (cs.getD n 0) (t.blk.find? (fun c => c.pos == i * 128 + n)) (t.bsa.getD i 127).toNat (t.bsb.getD n 127).toNat).1 := by
  have inside : (t.blk.filter (fun k => decide (i * 128 ≤ k.pos) && decide (k.pos < i * 128 + t.tn))).find? (fun c => c.pos == i * 128 + n) =
      t.blk.find? (fun c => c.pos == i * 128 + n) := by
    rw [List.find?_filter]
    congr 1
    funext c
    by_cases h : c.pos = i * 128 + n
    · simp [h, hn]
    · simp [h]
  rw [Tile.closedRow, closeRow_getD _ _ _ cs 0 _ (hb.filter _) (fun c hc => ?_) n (hl ▸ hn), Nat.add_zero, Nat.zero_add, inside]
  · have := (List.mem_filter.1 hc).2
    simp only [Bool.and_eq_true, decide_eq_true_eq] at this
    omega

/-! ### The rows of a tile closed -/

/-- Rows of a tile closed one after the other, with the exceptions that come of it. -/
def State.closeRows (b : Nat) (t : Tile) (is : List Nat) (a : State × Exc) : State × Exc :=
  is.foldl (fun acc i => (acc.1.putAccRow b i (t.closedRow i (acc.1.accRow b i t.tn)).1, acc.2.or (t.closedRow i (acc.1.accRow b i t.tn)).2)) a

/-- The rows of the open block of a tile closed. -/
def State.blockClosed (s : State) (b : Nat) : State × Exc := State.closeRows b (s.getTile b) (List.range (s.getTile b).tm) (s, {})

/-- A tile once its open block has been closed. -/
def Tile.closed (t : Tile) : Tile := { t with kc := 0, blk := t.blk.filter (fun k => !(decide (k.pos / 128 < t.tm) && decide (k.pos % 128 < t.tn))) }

/-- A tile without an open block stays. -/
theorem State.closeTile_none {s : State} {b : Nat} (h : (s.getTile b).kc = 0) : s.closeTile b = s := by
  unfold State.closeTile
  exact if_pos h

theorem State.closeTile_open {s : State} {b : Nat} (h : (s.getTile b).kc ≠ 0) : s.closeTile b =
    ((s.blockClosed b).1.setTile b (s.getTile b).closed).upd (·.raise (s.blockClosed b).2) := by
  unfold State.closeTile
  exact if_neg h

theorem State.closeTile_kc {s : State} {b : Nat} (h : (s.getTile b).kc ≠ 0) : ((s.closeTile b).getTile b).kc = 0 := by
  rw [State.closeTile_open h]
  exact congrArg Tile.kc (State.getTile_setTile ..)

/-- An accumulator after rows have been closed: of one of them it is closed with its cell, any other is what it was. -/
theorem State.closeRows_acc {b : Nat} {t : Tile} (htn : t.tn ≤ 128) (i : Nat) {n : Nat} (hn : n < 128) : ∀ (is : List Nat) (a : State × Exc), is.Nodup →
    Memory.wf a.1.mem = true → (State.closeRows b t is a).1.acc b i n =
      if i ∈ is ∧ n < t.tn then (t.closedRow i (a.1.accRow b i t.tn)).1.getD n 0 % 2 ^ 32 else a.1.acc b i n
  | [], _, _, _ => by simp [State.closeRows]
  | k :: is, a, hnd, hw => by
    obtain ⟨hk, hnd⟩ := List.nodup_cons.1 hnd
    have len : (t.closedRow k (a.1.accRow b k t.tn)).1.length = t.tn := by simp [State.accRow_eq]
    have set := State.acc_putAccRow hw b k (xs := (t.closedRow k (a.1.accRow b k t.tn)).1) (by omega)
    have rest := closeRows_acc (b := b) htn i hn is (a.1.putAccRow b k (t.closedRow k (a.1.accRow b k t.tn)).1, a.2.or (t.closedRow k (a.1.accRow b k t.tn)).2) hnd (State.putAccRow_wf hw ..)
    show (State.closeRows b t is _).1.acc b i n = _
    rw [rest, set i hn, len]
    by_cases hi : i = k
    · subst hi
      simp [hk]
    · have row : (a.1.putAccRow b k (t.closedRow k (a.1.accRow b k t.tn)).1).accRow b i t.tn = a.1.accRow b i t.tn := by
        refine (State.accRow_eq ..).trans (Eq.trans (List.map_congr_left (fun n' hn' => ?_)) (State.accRow_eq ..).symm)
        rw [set i (by have := List.mem_range.1 hn'; omega), if_neg (fun h => hi h.1)]
      simp [hi, row]

/-- Closing the open block of a tile closes each of its accumulators with its cell (R179, R180). -/
theorem State.closeTile_acc {s : State} {b : Nat} (hw : Memory.wf s.mem = true) (hk : (s.getTile b).kc ≠ 0) (htn : (s.getTile b).tn ≤ 128)
    (hb : (s.getTile b).blk.Pairwise (fun p q => p.pos < q.pos)) {i n : Nat} (hi : i < (s.getTile b).tm) (hn : n < (s.getTile b).tn) :
    (s.closeTile b).acc b i n = (closeOne (s.acc b i n) ((s.getTile b).blk.find? (fun c => c.pos == i * 128 + n))
      ((s.getTile b).bsa.getD i 127).toNat ((s.getTile b).bsb.getD n 127).toNat).1 := by
  have len : (s.accRow b i (s.getTile b).tn).length = (s.getTile b).tn := by simp [State.accRow_eq]
  have own : (s.accRow b i (s.getTile b).tn).getD n 0 = s.acc b i n := by simp [State.accRow_eq, hn]
  rw [State.closeTile_open hk]
  refine (State.closeRows_acc htn i (by omega) _ (s, {}) List.nodup_range hw).trans ?_
  rw [if_pos ⟨List.mem_range.2 hi, hn⟩, Tile.closedRow_getD hb i len hn, own, Nat.mod_eq_of_lt (closeOne_lt ..)]

theorem State.closeRows_hart (b : Nat) (t : Tile) : ∀ (is : List Nat) (a : State × Exc), (State.closeRows b t is a).1.hart = a.1.hart
  | [], _ => rfl
  | _ :: is, _ => (closeRows_hart b t is _).trans rfl

/-! ### Another hart of the same core closes a tile alike -/

section

variable {s : State} {g : Hart → Hart} (hid : (g s.hart).id = s.hart.id)
include hid

theorem State.getTile_upd (b : Nat) : (s.upd g).getTile b = s.getTile b := by
  rw [State.getTile, State.upd_hart, hid]
  rfl

theorem State.setTile_upd (b : Nat) (T : Tile) : (s.upd g).setTile b T = (s.setTile b T).upd g := by
  simp only [State.setTile, State.upd_hart, hid]
  rfl

theorem State.accRow_upd (b i n : Nat) : (s.upd g).accRow b i n = s.accRow b i n := by simp only [State.accRow, State.accLoc, State.upd_hart, State.upd_mem, hid]

theorem State.putAccRow_upd (b i : Nat) (xs : List Nat) : (s.upd g).putAccRow b i xs = (s.putAccRow b i xs).upd g := by
  simp only [State.putAccRow, State.accLoc, State.upd_hart, hid]
  rfl

end

theorem State.closeRows_upd (b : Nat) (t : Tile) {g : Hart → Hart} : ∀ (is : List Nat) (s : State) (e : Exc), (g s.hart).id = s.hart.id →
    State.closeRows b t is (s.upd g, e) = ((State.closeRows b t is (s, e)).1.upd g, (State.closeRows b t is (s, e)).2)
  | [], _, _, _ => rfl
  | i :: is, s, e, hid => by
    have ih := closeRows_upd b t is (s.putAccRow b i (t.closedRow i (s.accRow b i t.tn)).1) (e.or (t.closedRow i (s.accRow b i t.tn)).2) hid
    simp only [State.closeRows, List.foldl_cons, State.accRow_upd hid, State.putAccRow_upd hid] at ih ⊢
    exact ih

theorem State.upd_comm {s : State} {f g : Hart → Hart} (h : f (g s.hart) = g (f s.hart)) : (s.upd g).upd f = (s.upd f).upd g := by
  simp only [State.upd, h]

theorem State.closeTile_upd {s : State} {g : Hart → Hart} (hid : (g s.hart).id = s.hart.id) (hg : ∀ e, (g s.hart).raise e = g (s.hart.raise e)) (b : Nat) :
    (s.upd g).closeTile b = (s.closeTile b).upd g := by
  by_cases hk : (s.getTile b).kc = 0
  · rw [State.closeTile_none (by rwa [State.getTile_upd hid]), State.closeTile_none hk]
  · have rows : (s.upd g).blockClosed b = ((s.blockClosed b).1.upd g, (s.blockClosed b).2) := by
      rw [State.blockClosed, State.getTile_upd hid]
      exact State.closeRows_upd b _ _ s {} hid
    have left : (s.blockClosed b).1.hart = s.hart := State.closeRows_hart ..
    rw [State.closeTile_open (by rwa [State.getTile_upd hid]), State.closeTile_open hk, State.getTile_upd hid, rows, State.setTile_upd (by rwa [left])]
    refine State.upd_comm ?_
    show (g (s.blockClosed b).1.hart).raise _ = g ((s.blockClosed b).1.hart.raise _)
    rw [left, hg]

/-- Joining a convoy is changing the hart, whose registers stay. -/
theorem State.joined_eq_upd (s : State) (u : UnitClass) (j : BitVec 1) (sw : List Reg5) : s.joined u j sw = s.upd (·.going s.hart.begin_ (s.hart.convoyWith u j sw)) := by
  rw [State.upd, ← State.joined_hart]
  rfl

/-- A hart that has joined closes a tile as it would without having joined. -/
theorem State.joined_closeTile (s : State) (u : UnitClass) (j : BitVec 1) (sw : List Reg5) (b : Nat) :
    (s.joined u j sw).closeTile b = (s.closeTile b).upd (·.going s.hart.begin_ (s.hart.convoyWith u j sw)) := by
  rw [State.joined_eq_upd]
  exact State.closeTile_upd rfl (fun _ => rfl) b

end Sys2Proof.Machine
end

section
/-! PROOFS. Tiles configured, zeroed, moved by rows, saved and restored (07 R177, R182, R183, R187, R188, R190). -/

namespace Sys2Proof.Machine

open Sys2Proof

/-! ### How a tile instruction ends -/

/-- Where the hart that has joined has changed nothing of its convoy and of what it remembers, it retires as that hart would without having joined. -/
theorem State.vecRetired_going {s t : State} {r : Hart} {u : UnitClass} {j : BitVec 1} {sw : List Reg5} (len : Word)
    (ht : t.hart = r.going s.hart.begin_ (s.hart.convoyWith u j sw)) (hconv : r.convoy = s.hart.convoy) (hcur : r.cur = s.hart.cur) (hpl : r.places = s.hart.places)
    (href : r.refuse = s.hart.refuse) : t.vecRetired len = { t with hart := r.vectorPast len u j sw } := by
  obtain ⟨places, refuse⟩ := Hart.begin_congr hcur hpl href
  rw [State.vecRetired, ht, Hart.vectorPast, Hart.convoyWith_congr hconv, places, refuse]
  rfl

/-- Closing a tile changes FCSR of the hart, and nothing else of it. -/
theorem State.closeTile_hart (s : State) (b : Nat) : ∃ f, (s.closeTile b).hart = { s.hart with fcsr := f } := by
  by_cases hk : (s.getTile b).kc = 0
  · exact ⟨s.hart.fcsr, by rw [State.closeTile_none hk]⟩
  · have left : (s.blockClosed b).1.hart = s.hart := State.closeRows_hart ..
    rw [State.closeTile_open hk]
    exact ⟨_, congrArg (·.raise (s.blockClosed b).2) left⟩

/-- Elements written after the hart has joined, and FCSR has changed, stand as without joining. -/
theorem State.vecRetired_putElems {s c : State} {f : BitVec 10} (left : c.hart = { s.hart with fcsr := f }) (len : Word) (u : UnitClass) (j : BitVec 1) (sw : List Reg5) (r w : Nat)
    (xs : List (Nat × Nat)) : ((c.upd (·.going s.hart.begin_ (s.hart.convoyWith u j sw))).upd (·.putElems r w xs)).vecRetired len =
      { c with hart := (c.hart.putElems r w xs).vectorPast len u j sw } := by
  have same : ∀ {α : Type} (g : Hart → α), (∀ (x : Hart) v bad, g { x with v := v, bad := bad } = g x) → g { s.hart with fcsr := f } = g s.hart →
      g (c.hart.putElems r w xs) = g s.hart := fun g hg hf => by rw [Hart.putElems_other _ g _ _ _ hg, left, hf]
  exact State.vecRetired_going len (Hart.putElems_convoy ..) (same _ (fun _ _ _ => rfl) rfl) (same _ (fun _ _ _ => rfl) rfl) (same _ (fun _ _ _ => rfl) rfl)
    (same _ (fun _ _ _ => rfl) rfl)

/-- What `tcfg` and `tzero` leave: the tile that they set, zeros in its bank, and everything else (R177). -/
theorem State.zeroTile_cleared {s : State} (hw : Memory.wf s.mem = true) (j : BitVec 1) (b : Nat) (T : Tile) :
    ((((s.joined .tile j []).zeroTile b).setTile b T).vecRetired 8).hart = s.hart.vectorPast 8 .tile j [] ∧
    ((((s.joined .tile j []).zeroTile b).setTile b T).vecRetired 8).getTile b = T ∧
    ∀ k, memGet ((((s.joined .tile j []).zeroTile b).setTile b T).vecRetired 8).mem k =
      if s.accLoc b 0 0 ≤ k ∧ k < s.accLoc b 0 0 + 65536 then 0 else memGet s.mem k := by
  refine ⟨State.vecRetired_joined 8 rfl, State.getTile_setTile .., fun k => ?_⟩
  have zeroed := State.memGet_zeroTile (s := s.joined .tile j []) hw b k
  rw [State.joined_accLoc] at zeroed
  exact zeroed

/-! ### The instructions -/

/-- No format code above 1 (R18). -/
theorem format_ok {fc : BitVec 3} (h : fc.toNat ≤ 1) : decide (1 < fc.toNat) = false := decide_eq_false (Nat.not_lt.2 h)

/-- No unfinished copy of the hart's is on its way, so that none stands in the way of a row (R172). -/
theorem State.copyBlocks_idle {u : State} {own : Nat} (h : u.copyBusy own = false) (es : List RElem) : u.copyBlocks own es = false := by
  simp only [State.copyBlocks, h, Bool.false_and]

/-- A hart that joins a convoy and then keeps what it is (R42) has the identifier and the elements that it had. -/
theorem State.joined_keeping {s s1 : State} {u : UnitClass} {j : BitVec 1} {sw : List Reg5} (h : s1.hart = (s.joined u j sw).hart.keeping s1.hart) :
    s1.hart.id = s.hart.id ∧ s1.hart.vl = s.hart.vl ∧ s1.hart.activeMem 0 s.hart.vl = s.hart.activeMem 0 s.hart.vl := by
  refine ⟨(congrArg Hart.id h).trans (s.joined_id ..), (congrArg Hart.vl h).trans (s.joined_vl ..), ?_⟩
  have same : s1.hart.activeMem 0 s.hart.vl = ((s.joined u j sw).hart.keeping s1.hart).activeMem 0 s.hart.vl := congrArg (·.activeMem 0 s.hart.vl) h
  rw [same, State.joined_hart]
  rfl

section

variable {s : State} {t fc : BitVec 3} {b : Nat} {j : BitVec 1} (hr : s.tileReady t b j = true) (free : s.tileTaken s.hart.id = false)
include hr free

/-- A tile instruction of a tile that is ready, in what it does once it has begun. -/
theorem tileRun_ready {hd : Hdr} {u : State} {f : State → Except Trap Eff} (hv : hd.Tile j) (hp : hd.priv = true → s.hart.super = true)
    (hf : (s.joined .tile j []).needTile t = .ok b → (s.joined .tile j []).tileBad b = none → f (s.joined .tile j []) = .ok (.next u)) :
    tileRun hd s f = .next (u.vecRetired 8) := by
  obtain ⟨hm, bank, sound⟩ := (s.tileReady_iff t b j).1 hr
  exact tileRun_next hv hp hm free (hf (State.needTile_mapped (by rw [State.joined_tileBank, bank])) (by rw [State.joined_tileBad, sound]))

theorem exec_tcfg {sa : Reg5} (hfc : fc.toNat ≤ 1) (high : (s.gs sa).toNat / 2 ^ 15 = 0) (low : (s.gs sa).toNat / 2 ^ 7 % 2 = 0) : exec (.tcfg t fc sa j) s =
    .next ((((s.joined .tile j []).zeroTile b).setTile b { s.getTile b with
      curd := false, f32 := fc == 1, tm := (s.gs sa).toNat % 128 + 1, tn := (s.gs sa).toNat / 2 ^ 8 % 128 + 1, kc := 0, blk := [],
      bsa := Vector.replicate 128 127, bsb := Vector.replicate 128 127 }).vecRetired 8) := by
  show execTcfg t fc sa j s = _
  unfold execTcfg
  refine tileRun_ready hr free (tileHdr_tile_format _ _ _ (format_ok hfc)) (fun h => nomatch h) (fun found _ => ?_)
  have legal : require ((s.gs sa).toNat / 2 ^ 15 == 0 && (s.gs sa).toNat / 2 ^ 7 % 2 == 0) = fun _ => .ok () := by rw [high, low]; rfl
  simp only [State.joined_gs, legal, found, State.joined_getTile]

theorem exec_tzero : exec (.tzero t j) s =
    .next ((((s.joined .tile j []).zeroTile b).setTile b { s.getTile b with curd := false, kc := 0, blk := [] }).vecRetired 8) := by
  show execTzero t j s = _
  unfold execTzero
  refine tileRun_ready hr free (tileHdr_tile _ _ _) (fun h => nomatch h) (fun found _ => ?_)
  simp only [found, State.joined_getTile]

/-- `trow` closes the open block, and reads a row of a tile into a register group (R183). -/
theorem exec_trow {r : BitVec 7} {d : Reg5} (hsew : s.hart.sew = 32) (hcurd : (s.getTile b).curd = false) (hrow : r.toNat < (s.getTile b).tm) (hvl : s.hart.vl ≤ (s.getTile b).tn)
    (hok : s.hart.operandsOk [] [s.hart.opd d] = true) : exec (.trow t r d j) s = .next { s.closeTile b with
      hart := ((s.closeTile b).hart.putElems d.toNat 32 ((s.hart.active 0 s.hart.vl).map (fun i => (i, ((s.closeTile b).accRow b r.toNat (s.getTile b).tn).getD i 0)))).vectorPast 8 .tile j [] } := by
  have hart := s.joined_hart .tile j []
  have closed := s.joined_closeTile .tile j [] b
  generalize hJ : s.joined .tile j [] = J at hart closed
  have plain : J.hart.plainGroups [J.hart.opd d] = true := by rw [hart]; exact Hart.operandsOk_dsts hok
  have sew : (J.hart.sew != 32) = false := by rw [hart]; exact bne_eq_false_iff_eq.2 hsew
  have active : J.hart.active 0 s.hart.vl = s.hart.active 0 s.hart.vl := by rw [hart]; rfl
  have row : (J.closeTile b).accRow b r.toNat (s.getTile b).tn = (s.closeTile b).accRow b r.toNat (s.getTile b).tn := by rw [closed]; exact State.accRow_upd rfl ..
  have stream : (J.closeTile b).hart.stream d = none := by
    obtain ⟨f, e⟩ := J.closeTile_hart b
    rw [e]
    exact Hart.plain_stream plain (List.mem_singleton_self _)
  obtain ⟨f, left⟩ := s.closeTile_hart b
  generalize hxs : (s.hart.active 0 s.hart.vl).map (fun i => (i, ((s.closeTile b).accRow b r.toNat (s.getTile b).tn).getD i 0)) = xs
  have checks : (decide ((s.getTile b).tm ≤ r.toNat) || decide ((s.getTile b).tn < s.hart.vl)) = false := by
    rw [decide_eq_false (Nat.not_le.2 hrow), decide_eq_false (Nat.not_lt.2 hvl)]; rfl
  have tile : J.getTile b = s.getTile b := by rw [← hJ, State.joined_getTile]
  have len : J.hart.vl = s.hart.vl := by rw [← hJ, State.joined_vl]
  show execTrow t r d j s = _
  unfold execTrow
  refine (tileRun_ready (u := (J.closeTile b).upd (·.putElems d.toNat 32 xs)) hr free (tileHdr_tile _ _ _) (fun h => nomatch h) ?_).trans
    (congrArg Host.Outcome.next ?_)
  · rw [hJ]
    intro found sound
    have four : stepFour (tileHdr (wTrow t r) (bTrow d j) j) J.hart (J.hart.sew != 32) false false [] [J.hart.opd d] = .ok () := by
      rw [sew]
      exact stepFour_plain _ _ _ _ [] _ rfl plain rfl
    have result := State.putResult_plain (s := J.closeTile b) (tileHdr (wTrow t r) (bTrow d j) j) J.hart.vl (so := []) (o := J.hart.opd d) xs (fun _ s => s) (List.forall_mem_nil _) stream
    rw [len, show (J.hart.opd d).w = 32 from bne_eq_false_iff_eq.1 sew] at result
    simp only [four, found, tile, len, checks, hcurd, tileChecks_pass, State.readsTile_sound sound, row, active, hxs, result]
    rfl
  · rw [closed, State.vecRetired_putElems left]

section

variable {r : BitVec 7} {sa : Reg5} {s1 s2 : State} {bs : List Byte} {ds : List (Nat × Nat)} (hcurd : (s.getTile b).curd = false)
  (hf : (s.getTile b).f32 = (fc == 1)) (hrow : r.toNat + s.hart.vl ≤ (s.getTile b).tm) (hread : (s.joined .tile j []).issueRecord 0 (s.gs sa) 8 16 = .ok s1 bs)
  (hsound : s1.tileBad b = none) (haligned : baseStride (fieldW bs 0) (fieldW bs 8) 4 = none)
include hcurd hf hrow hread hsound haligned

/-- A row instruction of accumulators of the tile's format, whose record is read and aligned, in what it does with its rows. -/
theorem rowMove_next {hd : Hdr} {u : State} {k : State → Nat → Word → Word → Eff} (hv : hd.Tile j) (hp : hd.priv = true → s.hart.super = true)
    (hk : k s1 b (fieldW bs 0) (fieldW bs 8) = .next u) : rowMove hd t (fc == 1) r sa k s = .next (u.vecRetired 8) := by
  refine tileRun_ready hr free hv hp (fun found _ => ?_)
  have rows : decide ((s.getTile b).tm < r.toNat + s.hart.vl) = false := decide_eq_false (Nat.not_lt.2 hrow)
  have format : ((s.getTile b).f32 != (fc == 1)) = false := bne_eq_false_iff_eq.2 hf
  simp only [found, State.joined_getTile, State.joined_vl, State.joined_gs, rows, hcurd, format, Bool.or_self, tileChecks_pass, hread, haligned, State.readsTile_sound hsound, hk]
  rfl

variable (hfc : fc.toNat ≤ 1) (hhart : s1.hart = (s.joined .tile j []).hart.keeping s1.hart) (htile : s1.getTile b = s.getTile b) (hidle : s1.copyBusy s.hart.id = false)
include hfc hhart htile hidle

theorem exec_tld
    (hrun : (s1.closeTile b).runRows { tileHdr (wTld t fc r) (bTld sa j) j with bad0B := decide (1 < fc.toNat) } .translate s.hart.vl (s.hart.activeMem 0 s.hart.vl)
      ((s.hart.activeMem 0 s.hart.vl).flatMap (fun i => rowElems .load i (strideAddr (fieldW bs 0) (fieldW bs 8) i) (4 * (s.getTile b).tn) [])) .none = .all s2 ds) :
    exec (.tld t fc r sa j) s = .next (((rowsDone (s.hart.activeMem 0 s.hart.vl) ds).foldl (fun u i => u.putAccRow b (r.toNat + i)
      (words32 (rowBytes ((s.hart.activeMem 0 s.hart.vl).flatMap (fun i => rowElems .load i (strideAddr (fieldW bs 0) (fieldW bs 8) i) (4 * (s.getTile b).tn) [])) ds i))) s2).vecRetired 8) := by
  show execTld t fc r sa j s = _
  unfold execTld
  obtain ⟨own, len, active⟩ := State.joined_keeping hhart
  refine rowMove_next hr free hcurd hf hrow hread hsound haligned (tileHdr_tile_format _ _ _ (format_ok hfc)) (fun h => nomatch h) ?_
  simp only [own, len, active, htile, State.copyBlocks_idle hidle, Bool.false_eq_true, if_false, hrun]
  rfl

theorem exec_tst
    (hrun : ((s1.closeTile b).lockRows (fieldW bs 0) (fieldW bs 8) s.hart.vl (4 * (s.getTile b).tn) []).runRows
      { tileHdr (wTst t fc r) (bTst sa j) j with bad0B := decide (1 < fc.toNat) } .translate s.hart.vl (s.hart.activeMem 0 s.hart.vl)
      ((s.hart.activeMem 0 s.hart.vl).flatMap (fun i => rowElems .store i (strideAddr (fieldW bs 0) (fieldW bs 8) i) (4 * (s.getTile b).tn)
        (((s1.closeTile b).accRow b (r.toNat + i) (s.getTile b).tn).flatMap (natLe 4)))) .none = .all s2 ds) :
    exec (.tst t fc r sa j) s = .next (s2.vecRetired 8) := by
  show execTst t fc r sa j s = _
  unfold execTst
  obtain ⟨own, len, active⟩ := State.joined_keeping hhart
  refine rowMove_next hr free hcurd hf hrow hread hsound haligned (tileHdr_tile_format _ _ _ (format_ok hfc)) (fun h => nomatch h) ?_
  simp only [own, len, active, htile, State.copyBlocks_idle hidle, Bool.false_eq_true, if_false, hrun]
  rfl

end

/-- Blocks of tiles stand on lines of 64 bytes. -/
theorem exec_cload {sa : Reg5} {s1 : State} {bs : List Byte} (hfc : fc.toNat ≤ 1) (aligned : (s.gs sa).toNat % 64 = 0)
    (hread : (s.joined .tile j []).readBlock 0 (s.gs sa) 65664 none = .ok s1 bs) (leaves : ∀ y ∈ bs.take 128, y.toNat ≤ 64) : exec (.cload t fc sa j) s =
    .next (({ s1.zeroTile b with mem := memPut s1.mem (s1.accLoc b 0 0) (bs.drop 128) }.setTile b
      { s1.getTile b with curd := true, f32 := fc == 1, kc := 0, blk := [], nl := vec128 bs 0 }).vecRetired 8) := by
  have few : (bs.take 128).any (fun x => decide (64 < x.toNat)) = false := List.any_eq_false.2 (fun y hy => by simpa using leaves y hy)
  show execCload t fc sa j s = _
  unfold execCload
  refine tileRun_ready hr free (tileHdr_tile_format _ _ _ (format_ok hfc)) (fun h => nomatch h) (fun found _ => ?_)
  simp only [found, State.joined_gs, aligned, ne_eq, not_true_eq_false, if_false, hread, few, Bool.false_eq_true]
  rfl

theorem exec_tsave {sa : Reg5} {s1 : State} {ps : List Byte} (super : s.hart.super = true) (aligned : (s.gs sa).toNat % 64 = 0)
    (hwrite : (s.joined .tile j []).writeBlock 0 (s.gs sa) (s.tileArea b) = .ok s1 ps) : exec (.tsave t sa j) s = .next (s1.vecRetired 8) := by
  show execTsave t sa j s = _
  unfold execTsave
  refine tileRun_ready hr free (saveHdr_tile _ _ _) (fun _ => super) (fun found sound => ?_)
  simp only [found, State.joined_gs, State.joined_tileArea, aligned, ne_eq, not_true_eq_false, if_false, State.readsTile_sound sound, hwrite]

/-- The tile of a save area, with the blocks that its PEND fields give (R188). -/
def savedTile (bs : List Byte) (blk : List BlkCell) : Tile :=
  { curd := (fieldOf bs 8 1).testBit 0, f32 := (fieldOf bs 8 1).testBit 1, tm := fieldOf bs 9 1 + 1, tn := fieldOf bs 0xA 1 + 1, kc := fieldOf bs 0xB 1, blk := blk
    bsa := vec128 bs 0x40, bsb := vec128 bs 0xC0, nl := vec128 bs 0x140 }

/-- What `trest` leaves of a state in which the save area has been read: its tile and its accumulators. -/
def State.restoredTile (u : State) (b : Nat) (bs : List Byte) (blk : List BlkCell) : State :=
  ({ u.zeroTile b with mem := memPut u.mem (u.accLoc b 0 0) ((bs.drop 0x400).take 65536) } : State).setTile b (savedTile bs blk)

section

variable {sa : Reg5} {s1 : State} {bs : List Byte} (super : s.hart.super = true) (aligned : (s.gs sa).toNat % 64 = 0)
  (hread : (s.joined .tile j []).readBlock 0 (s.gs sa) 0x10400 none = .ok s1 bs) (legal : tileAreaBad bs = false)
include super aligned hread legal

theorem exec_trest_closed (closed : fieldOf bs 0xB 1 = 0) : exec (.trest t sa j) s = .next ((s1.restoredTile b bs []).vecRetired 8) := by
  show execTrest t sa j s = _
  unfold execTrest
  refine tileRun_ready hr free (saveHdr_tile _ _ _) (fun _ => super) (fun found _ => ?_)
  simp only [found, State.joined_gs, aligned, ne_eq, not_true_eq_false, if_false, hread, legal, Bool.false_eq_true, closed, if_true, decide_false, Bool.false_and]
  rw [State.restoredTile, savedTile, closed]

theorem exec_trest_open {s2 : State} {ps : List Byte} (opened : fieldOf bs 0xB 1 ≠ 0) (pend : s1.readBlock 1 (s.gs sa + 0x10400) (72 * 16384) none = .ok s2 ps)
    (good : pendBad 16384 ps = false) : exec (.trest t sa j) s = .next ((s2.restoredTile b bs (blocksOf 16384 0 ps)).vecRetired 8) := by
  show execTrest t sa j s = _
  unfold execTrest
  refine tileRun_ready hr free (saveHdr_tile _ _ _) (fun _ => super) (fun found _ => ?_)
  simp only [found, State.joined_gs, aligned, ne_eq, not_true_eq_false, if_false, hread, legal, Bool.false_eq_true, opened, pend, good, Bool.and_false]
  rfl

end

end

/-- Settles O48: each instruction passes its checks in the state that has joined (`tileRun_ready`), and what it then does is its own equation; the accumulators of a closed block are those that
`closeOne` gives (`State.closeTile_acc`). -/
theorem tileStateAndRowResults : Obligations.TileStateAndRowResults := by
  unfold Obligations.TileStateAndRowResults
  intro s s1 s2 t fc sa d r j b bs ps ds h T J l C x cleared base stride is elems hr free hw hfc
  refine ⟨fun high low => ⟨_, exec_tcfg hr free hfc high low, State.zeroTile_cleared hw j b _⟩, ⟨_, exec_tzero hr free, State.zeroTile_cleared hw j b _⟩,
    fun hk _ htn hs => ⟨State.closeTile_kc hk, fun i n hi hn => State.closeTile_acc hw hk htn hs hi hn⟩, exec_trow hr free, ?_, ?_, exec_tsave hr free, ?_⟩
  · intro hcurd hf hrow hread hhart htile hsound haligned hidle
    exact ⟨exec_tld hr free hcurd hf hrow hread hsound haligned hfc hhart htile hidle, exec_tst hr free hcurd hf hrow hread hsound haligned hfc hhart htile hidle⟩
  · exact fun aligned hread _ leaves => exec_cload hr free hfc aligned hread leaves
  · exact fun super aligned hread _ legal => ⟨exec_trest_closed hr free super aligned hread legal, fun opened pend _ good => exec_trest_open hr free super aligned hread legal opened pend good⟩

end Sys2Proof.Machine
end

section
/-! PROOFS. `cleaf` before the buffered writes of a record without a hart (07 R192). -/

namespace Sys2Proof.Machine

open Sys2Proof

/-! ### A strip of one tree whose leaf value stands at location 0 -/

/-- `strayBuffer`, in which hart 4097 has a store to location 0 buffered while a record without one stands under its number, with tile 0 in bank 4 and a strip of one 32-bit element. No run
reaches it, but the statement is about every state. -/
def strayLeaf : State :=
  { strayBuffer with hart := { Hart.init 4096 with vownV := true, vl := 1, vtype := 0x0003, tmap := 0x84 }, cores := [(1024, { Core.init with brole := 0x200 })] }

/-- The table element of its leaf 0, at location 0. -/
def leafElem : RElem := ⟨0, 0, 4, .load, 0, 0⟩

/-- The state in which that element performs: `cleaf` has joined its convoy, made its interlock entry and placed the element. -/
def strayLeafPlaced : State := (((strayLeaf.joined .tile 0 []).openLock 4096 (Route.translate.lines [leafElem])).placeAll 4096 .translate [leafElem]).1

/-- The store that stands in the way may have performed or not; a free value is taken for it. -/
theorem strayLeafPlaced_settled : (strayLeafPlaced.settleVector 4096 0 4 0).free = 1 ∧ (strayLeafPlaced.settleVector 4096 0 4 0).bad 0 4 = false ∧
    (strayLeafPlaced.settleVector 4096 0 4 0).badCopies = [] := by
  have settled : strayLeafPlaced.settleVector 4096 0 4 0 = if Config.drained 0 = true then strayLeafPlaced.took.drainS 4097 1 else strayLeafPlaced.took := rfl
  rw [settled]
  split
  · exact ⟨rfl, rfl, rfl⟩
  · exact ⟨rfl, rfl, rfl⟩

/-- The element is placed at location 0, and performs. -/
theorem strayLeaf_ran (hd : Hdr) : ∃ ds, (strayLeaf.joined .tile 0 []).runElems hd .translate false false 1 [leafElem] = .all (strayLeafPlaced.settleVector 4096 0 4 0) ds := by
  obtain ⟨-, clean, copies⟩ := strayLeafPlaced_settled
  have placed : (strayLeaf.joined .tile 0 []).runElems hd .translate false false 1 [leafElem] = strayLeafPlaced.runPlaced hd .translate false false 1 [leafElem] [.loc leafElem 0 false] := rfl
  exact ⟨_, placed.trans (State.runPlaced_all rfl rfl rfl (State.performPlaced_load rfl clean copies))⟩

/-- The elements of registers that hold zero. -/
theorem Hart.elem_zero {h : Hart} (hv : h.v = Vector.replicate 32 0) (r w i : Nat) : h.elem r w i = 0 := by
  have reg : ∀ k, h.v.getD k 0 = 0 := fun k => by
    simp only [hv, Vector.getD, Vector.toArray_replicate, Array.getD_eq_getD_getElem?, Array.getElem?_replicate]
    split
    · rfl
    · rfl
  have zero : (0 : BitVec 16384).toNat = 0 := BitVec.toNat_zero
  rw [Hart.elem, reg, zero, Nat.zero_div, Nat.zero_mod]

/-- The address of the leaf value of tree 0, whose leaf is 0. -/
theorem strayLeaf_address : strayLeaf.gs 0 + BitVec.ofNat 64 (4 * (64 * 0 + strayLeaf.hart.elem (0 : Reg5).toNat 8 0)) = 0 := by
  rw [Hart.elem_zero rfl]
  rfl

/-! ### What `cleaf` comes to (R192) -/

/-- The elements of the leaf tables that `cleaf` reads: each active tree's, at its leaf, where that is below 64 (R192). -/
def State.leafElems (s : State) (a sa : Reg5) (m : Reg3) : List RElem :=
  ((s.hart.activeMem m s.hart.vl).filter (fun q => decide (s.hart.elem a.toNat 8 q < 64))).map
    (fun q => ⟨q, s.gs sa + BitVec.ofNat 64 (4 * (64 * q + s.hart.elem a.toNat 8 q)), 4, .load, 0, 0⟩)

/-- The leaf of a tree and its address are those that the hart had before it joined its convoy. -/
theorem State.leafElems_joined {s : State} {a sa : Reg5} (m : Reg3) (j : BitVec 1) (stream : s.hart.stream a = none) (vals : List (List Nat)) :
    (((s.joined .tile j []).hart.activeMem m (s.joined .tile j []).hart.vl).filter (fun q => decide ((s.joined .tile j []).hart.srcVal [⟨a, 1, 8⟩] vals 0 q % 256 < 64))).map (fun q =>
      (⟨q, (s.joined .tile j []).hart.gs sa + BitVec.ofNat 64 (4 * (64 * q + (s.joined .tile j []).hart.srcVal [⟨a, 1, 8⟩] vals 0 q % 256)), 4, .load, 0, 0⟩ : RElem)) = s.leafElems a sa m := by
  have leaf : ∀ q, (s.joined .tile j []).hart.srcVal [⟨a, 1, 8⟩] vals 0 q % 256 = s.hart.elem a.toNat 8 q := fun q => by
    rw [Hart.srcVal_plain _ _ vals 0 q rfl (by rw [State.joined_hart]; exact stream), State.joined_hart]
    exact Nat.mod_eq_of_lt (Hart.elem_lt ..)
  simp only [leaf]
  rw [State.joined_hart]
  rfl

/-- The sums of the accumulators of a hart and the leaf values that have been read, in the register group at `d` (R192). -/
def Hart.addsLeaves (h g : Hart) (d a : Reg5) (ds : List (Nat × Nat)) (k : Nat) : Hart :=
  let rs := ds.map (fun p => (p.1, toF32 h.vrm (FVal.add h.vrm (FName.f32.read (h.elem d.toNat 32 p.1)) (FName.f32.read p.2))))
  ((g.putElems d.toNat 32 (rs.map (fun r => (r.1, r.2.1)))).raise (rs.foldl (fun (e : Exc) r => e.or r.2.2) {})).advance [⟨a, 1, 8⟩] (k - g.vstart.toNat)

theorem exec_cleaf {s s2 : State} {d a sa : Reg5} {m : Reg3} {j : BitVec 1} {ds : List (Nat × Nat)} (hm : s.hart.mayJoin .tile j = true) (free : s.tileTaken s.hart.id = false)
    (hsew : s.hart.sew = 32) (hvl : s.hart.vl ≤ 128) (distinct : (d == a) = false) (apart : anyOverlap [⟨a, 1, 8⟩] [s.hart.opd d] = false)
    (hsrc : s.hart.plainGroups [⟨a, 1, 8⟩, s.hart.opd d] = true) (hdst : s.hart.plainGroups [s.hart.opd d] = true) (aligned : alignedAll (s.leafElems a sa m) = .ok ())
    (hrun : (s.joined .tile j []).runElems { tileHdr wCleaf (bCleaf d a sa m j) j with bad07 := d == a } .translate false false s.hart.vl (s.leafElems a sa m) = .all s2 ds) :
    exec (.cleaf d a sa m j) s = .next ((s2.upd (fun g => (s.joined .tile j []).hart.addsLeaves g d a ds s.hart.vl)).vecRetired 8) := by
  have hart := s.joined_hart .tile j []
  have sound : (s.joined .tile j []).hart.sound = true := by rw [hart]; exact (Hart.mayJoin_sound hm :)
  have stream : s.hart.stream a = none := Hart.plain_stream hsrc (List.mem_cons_self ..)
  have opd : (s.joined .tile j []).hart.opd d = s.hart.opd d := by rw [hart]; rfl
  have legal : ((s.joined .tile j []).hart.sew != 32 || decide (128 < s.hart.vl)) = false := by
    rw [hart, decide_eq_false (Nat.not_lt.2 hvl), Bool.or_false]
    exact bne_eq_false_iff_eq.2 hsew
  have four := stepFour_plain { tileHdr wCleaf (bCleaf d a sa m j) j with bad07 := d == a } (s.joined .tile j []).hart false (m != 0) [⟨a, 1, 8⟩, s.hart.opd d] [s.hart.opd d]
    (by rw [hart]; exact hsrc) (by rw [hart]; exact hdst) rfl
  have fetched := State.fetchSources_plain _ s.hart.vl sound [⟨a, 1, 8⟩] [] (by rw [hart]; exact List.forall_mem_singleton.2 stream)
  have elems := State.leafElems_joined (s := s) (sa := sa) m j stream
  show execCleaf d a sa m j s = _
  unfold execCleaf
  refine tileRun_next (j := j) ⟨rfl, rfl, distinct, rfl, rfl, rfl⟩ (fun h => nomatch h) hm free ?_
  simp only [State.joined_vl] at elems
  simp only [opd, State.joined_vl, legal, apart, four, fetched, elems, aligned, State.reading_sound _ _ _ sound, hrun]
  rfl

/-! ### The counterexample -/

theorem strayLeaf_activeMem : strayLeaf.hart.activeMem 0 strayLeaf.hart.vl = [0] := by decide

theorem strayLeaf_leafElems : strayLeaf.leafElems 0 0 0 = [leafElem] := by
  have low : decide (strayLeaf.hart.elem (0 : Reg5).toNat 8 0 < 64) = true := by
    rw [Hart.elem_zero rfl]
    rfl
  rw [State.leafElems, strayLeaf_activeMem, List.filter_cons_of_pos (p := fun q => decide (strayLeaf.hart.elem (0 : Reg5).toNat 8 q < 64)) low, List.filter_nil, List.map_singleton, strayLeaf_address]
  rfl

/-- `cleaf` retires with a free value taken. -/
theorem exec_cleaf_strayLeaf : ∃ t, exec (.cleaf 1 0 0 0 0) strayLeaf = .next t ∧ t.free = 1 := by
  obtain ⟨ds, ran⟩ := strayLeaf_ran { tileHdr wCleaf (bCleaf 1 0 0 0 0) 0 with bad07 := false }
  exact ⟨_, exec_cleaf rfl rfl rfl (by decide) rfl rfl rfl rfl (by rw [strayLeaf_leafElems]; rfl) (by rw [strayLeaf_leafElems]; exact ran), strayLeafPlaced_settled.1⟩

/-- Refutes O49, in its clause of `cleaf`: the read of the leaf at location 0 takes a free value, which the statement has stay. -/
theorem not_tileArithmeticResults : ¬ Obligations.TileArithmeticResults := by
  intro h
  obtain ⟨t, ran, one⟩ := exec_cleaf_strayLeaf
  obtain ⟨-, -, -, leaf, -⟩ := h strayLeaf strayLeaf strayLeaf strayLeaf strayLeaf 0 0 0 0 0 0 1 0 0 0 0 0 0 4 0 [] [] ⟨[], []⟩ .none none none (fun _ => 0) 0 [] rfl rfl rfl (by decide) (by decide)
  have reached : (strayLeaf.joined .tile 0 []).reaches false .read 4 0 0 := ⟨⟨false, rfl⟩, .inl (by decide), rfl, rfl, rfl, rfl⟩
  obtain ⟨u, claimed⟩ := leaf rfl (by decide) rfl rfl rfl rfl rfl (fun q hq => by
    have zero : q = 0 := List.mem_singleton.1 (strayLeaf_activeMem ▸ List.mem_of_mem_filter hq)
    rw [zero, strayLeaf_address]
    exact ⟨rfl, reached⟩)
  have same := congrArg State.free (Host.Outcome.next.inj (ran.symm.trans claimed))
  exact Nat.one_ne_zero (one.symm.trans same)

end Sys2Proof.Machine
end

section
/-! PROOFS. Semaphores, data registers and gang barriers (08 R196 to R203, Table 8-3). -/

namespace Sys2Proof.Machine

open Sys2Proof

/-! ### What the draining of a hart's buffers leaves alone (R199, R201) -/

section Drain

variable {α : Type} {f : State → α} (hperform : ∀ s l bs, f (s.perform l bs) = f s)
  (hbuf : ∀ s x y, f { s with hart := { s.hart with sbuf := x, vbuf := y } } = f s)
include hperform

theorem State.performAll_keeps : ∀ (ps : List PendWrite) (s : State), f (s.performAll ps) = f s
  | [], _ => rfl
  | p :: ps, s => by
    obtain ⟨bs, e, -⟩ := s.performWrite_eq p
    exact (performAll_keeps ps (s.performWrite p)).trans (e ▸ hperform s p.loc bs)

include hbuf

theorem State.drainWhere_keeps (s : State) (g : PendWrite → Bool) : f (s.drainWhere s.hart.id g) = f s := by
  rw [State.drainWhere_own]
  split
  · rfl
  · exact (State.performAll_keeps hperform _ _).trans (hbuf s s.hart.sbuf _)

theorem State.drainV_keeps (s : State) (k : Nat) : f (s.drainV s.hart.id k) = f s := by
  rw [State.drainV_own]
  split
  · rfl
  · exact (State.performAll_keeps hperform _ _).trans (hbuf s s.hart.sbuf _)

theorem State.drainS1_keeps (s : State) : f (s.drainS1 s.hart.id) = f s ∧ (s.drainS1 s.hart.id).hart.id = s.hart.id := by
  refine ⟨?_, (s.drainS1_performs (List.subset_append_left ..) (List.subset_append_right ..)).1.id_eq⟩
  simp only [State.drainS1, State.getHart_own]
  split
  · rfl
  next p ps _ =>
    have first := State.drainWhere_keeps hperform hbuf s (fun q => q.blocks p.loc p.bytes.length p.va && decide (q.seq < p.seq))
    have same := (s.drainWhere_performs (List.Subset.refl _) (fun q => q.blocks p.loc p.bytes.length p.va && decide (q.seq < p.seq))).1.id_eq
    generalize s.drainWhere s.hart.id (fun q => q.blocks p.loc p.bytes.length p.va && decide (q.seq < p.seq)) = t at first same
    simp only [← same, State.getHart_own, State.setHart, if_true]
    exact (hperform _ _ _).trans ((hbuf t _ t.hart.vbuf).trans first)

theorem State.drainS_keeps : ∀ (k : Nat) (s : State), f (s.drainS s.hart.id k) = f s ∧ (s.drainS s.hart.id k).hart.id = s.hart.id
  | 0, _ => ⟨rfl, rfl⟩
  | k + 1, s => by
    obtain ⟨first, same⟩ := State.drainS1_keeps hperform hbuf s
    obtain ⟨rest, left⟩ := drainS_keeps k (s.drainS1 s.hart.id)
    rw [same] at rest left
    exact ⟨rest.trans first, left⟩

/-- What neither performing a write nor taking it out of its buffer changes stands when every buffered write of the issuing hart has performed. -/
theorem State.drainAll_keeps (s : State) : f (s.drainAll s.hart.id) = f s := by
  obtain ⟨first, same⟩ := State.drainS_keeps hperform hbuf s.hart.sbuf.length s
  have rest := State.drainV_keeps hperform hbuf (s.drainS s.hart.id s.hart.sbuf.length)
    ((s.drainS s.hart.id s.hart.sbuf.length).getHart s.hart.id).vbuf.length
  rw [same] at rest
  simp only [State.drainAll, State.getHart_own]
  exact rest.trans first

end Drain

/-- What semaphores and barriers are read by: the registers of the clusters, the clock, and of the issuing hart its status, its place in its gang and its barrier. -/
def State.gangView (s : State) : List (Nat × Cluster) × Nat × BitVec 10 × Word × Nat := (s.clusters, s.cycle, s.hart.status, s.hart.gang, s.hart.bar)

theorem State.drainAll_gangView (s : State) : (s.drainAll s.hart.id).gangView = s.gangView := by
  refine State.drainAll_keeps (f := State.gangView) (fun s l bs => ?_) (fun _ _ _ => rfl) s
  obtain ⟨cs, e⟩ := s.perform_cases l bs
  rw [e]
  rcases s.hart.wakeOn_cases l bs.length with w | w <;> simp only [State.gangView, w]

/-! ### Semaphores and data registers (R196, R197, R199) -/

section

variable {w : IWord} {s : State} {serial : Bool} {rs : List Reg5}

/-- The header of a scalar instruction of one word without privilege, which stops it nowhere where the registers that it reads have no error. -/
theorem Hdr.plain_passes (sound : rs = [] ∨ s.hart.sound = true) : Hdr.check { word := w, reads := rs, serial := serial } s = none ∧
    Hdr.badSource { word := w, reads := rs, serial := serial } s.hart = none :=
  ⟨Hdr.check_scalar _ s rfl rfl rfl rfl rfl, sound.elim (fun h => Hdr.badSource_nil _ _ rfl h) (Hdr.badSource_sound _ _)⟩

/-- A scalar instruction that has had its effect retires with a register written. -/
theorem runInstr_retires {f : State → Except Trap Eff} {t : State} (sound : rs = [] ∨ s.hart.sound = true) (d : Reg5) (x : Word)
    (hf : f (s.checked serial rs) = .ok (.next (t.ps d x))) : runInstr { word := w, reads := rs, serial := serial } s f = .next (t.retired d x) := by
  obtain ⟨check, source⟩ := Hdr.plain_passes (w := w) (serial := serial) sound
  refine (runInstr_scalar_ok rfl check source hf).trans (congrArg Host.Outcome.next ?_)
  show ({ t with hart := (t.hart.ps d x).past ((t.hart.ps d x).pc + 4) (t.hart.ps d x).convoy } : State) = _
  rw [Hart.ps_past, Hart.ps_pc, Hart.ps_convoy]
  rfl

end

theorem execTas_free {s : State} (d : Reg5) (n : BitVec 11) (resume : s.hart.resume = .none) (bit : (s.getSem n.toNat).bit = false) (queue : (s.getSem n.toNat).queue = []) :
    execTas d n s = .next ((s.setSem n.toNat ⟨true, []⟩).wrote true [] d 0) := by
  have sem : (s.checked true []).getSem n.toNat = ⟨false, []⟩ := by
    show s.getSem n.toNat = _
    rw [← bit, ← queue]
  have resumed : (s.checked true []).hart.resume = .none := resume
  refine (runInstr_retires (t := (s.checked true []).setSem n.toNat ⟨true, []⟩) (.inl rfl) d 0 ?_).trans rfl
  simp only [resumed, sem]
  rfl

theorem execTas_granted {s : State} (d : Reg5) (n : BitVec 11) {w : Nat} (resume : s.hart.resume = .granted w) :
    execTas d n s = .next (s.wrote true [] d (BitVec.ofNat 64 (min w (2 ^ 32 - 1)))) := by
  have resumed : (s.checked true []).hart.resume = .granted w := resume
  refine (runInstr_retires (t := s.checked true []) (.inl rfl) d (BitVec.ofNat 64 (min w (2 ^ 32 - 1))) ?_).trans rfl
  simp only [resumed]

theorem execTas_queued {s : State} (d : Reg5) (n : BitVec 11) (resume : s.hart.resume = .none) (bit : (s.getSem n.toNat).bit = true) :
    execTas d n s = .next ((s.setSem n.toNat ⟨true, (s.getSem n.toNat).queue ++ [(s.hart.id, s.cycle)]⟩).upd
      (fun h => { h with wait := .tas n.toNat, cur := [wTas d n], inUse := none })) := by
  have sem : (s.checked true []).getSem n.toNat = ⟨true, (s.getSem n.toNat).queue⟩ := by
    show s.getSem n.toNat = _
    rw [← bit]
  have resumed : (s.checked true []).hart.resume = .none := resume
  obtain ⟨check, source⟩ := Hdr.plain_passes (w := wTas d n) (s := s) (serial := true) (.inl rfl)
  refine (runInstr_scalar_ok (e := .hold (((s.checked true []).setSem n.toNat ⟨true, (s.getSem n.toNat).queue ++ [(s.hart.id, s.cycle)]⟩).upd
    (fun h => { h with wait := .tas n.toNat }))) rfl check source ?_).trans rfl
  simp only [resumed, sem]
  rfl

theorem execStst_eq (s : State) (d : Reg5) (n : BitVec 11) :
    execStst d n s = .next ((s.setSem n.toNat ⟨true, (s.getSem n.toNat).queue⟩).wrote true [] d (if (s.getSem n.toNat).bit then 1 else 0)) := by
  unfold execStst scalarOp
  exact (runInstr_retires (t := (s.checked true []).setSem n.toNat ⟨true, (s.getSem n.toNat).queue⟩) (.inl rfl) d _ rfl).trans rfl

theorem execCdrd_eq (s : State) (d : Reg5) (n : BitVec 11) :
    execCdrd d n s = .next (s.wrote false [] d ((s.getCluster (clusterOf s.hart.id)).cds.getD n.toNat 0)) := by
  unfold execCdrd scalarOp
  exact (runInstr_retires (t := s.checked false []) (.inl rfl) d _ rfl).trans rfl

theorem execCdwr_eq {s : State} (a : Reg5) (n : BitVec 11) (hs : s.hart.sound = true) :
    execCdwr a n s = .next ((s.setCluster (clusterOf s.hart.id)
      { s.getCluster (clusterOf s.hart.id) with cds := (s.getCluster (clusterOf s.hart.id)).cds.setIfInBounds n.toNat (s.gs a) }).wrote false [a] 0 0) := by
  unfold execCdwr scalarOp
  exact (runInstr_retires (t := (s.checked false [a]).setCluster (clusterOf s.hart.id)
    { s.getCluster (clusterOf s.hart.id) with cds := (s.getCluster (clusterOf s.hart.id)).cds.setIfInBounds n.toNat (s.gs a) }) (.inr hs) 0 0 rfl).trans rfl

/-- A release with no access of an engine unfinished has its effect in the state in which every buffered write has performed (R199). -/
theorem releaseOp_retires {s : State} (w : IWord) (f : State → State) (idle : s.engineBusy s.hart.id = false) :
    releaseOp { word := w, serial := true } f s = .next ((f ((s.checked true []).drainAll s.hart.id)).retired 0 0) := by
  refine runInstr_retires (.inl rfl) 0 0 ?_
  show (if s.engineBusy s.hart.id = true then _ else _) = _
  rw [idle]
  rfl

/-- Performing the hart's writes leaves the semaphores of its cluster. -/
theorem State.getSem_drained (s : State) (n : Nat) : ((s.checked true []).drainAll s.hart.id).getSem n = s.getSem n := by
  have view := (s.checked true []).drainAll_gangView
  have id_eq := s.drainAll_checked.1.id_eq
  simp only [State.gangView, Prod.mk.injEq] at view
  obtain ⟨clusters, -⟩ := view
  simp only [State.checked_hart, State.checked_clusters] at clusters id_eq
  unfold State.getSem State.getCluster
  rw [clusters, id_eq]

theorem execSset_eq {s : State} (n : BitVec 11) (idle : s.engineBusy s.hart.id = false) :
    execSset n s = .next ((((s.checked true []).drainAll s.hart.id).setSem n.toNat ⟨true, (s.getSem n.toNat).queue⟩).retired 0 0) := by
  unfold execSset
  rw [releaseOp_retires _ _ idle, State.getSem_drained]

theorem execSclr_clears {s : State} (n : BitVec 11) (idle : s.engineBusy s.hart.id = false) (queue : (s.getSem n.toNat).queue = []) :
    execSclr n s = .next ((((s.checked true []).drainAll s.hart.id).setSem n.toNat ⟨false, []⟩).retired 0 0) := by
  unfold execSclr
  rw [releaseOp_retires _ _ idle]
  simp only [State.getSem_drained, queue]

theorem execSclr_grants {s : State} (n : BitVec 11) {k since : Nat} {rest : List (Nat × Nat)} (idle : s.engineBusy s.hart.id = false)
    (queue : (s.getSem n.toNat).queue = (k, since) :: rest) :
    let t := ((s.checked true []).drainAll s.hart.id).setSem n.toNat ⟨true, rest⟩
    execSclr n s = .next ((t.setHart { t.getHart k with wait := .none, resume := .granted (s.cycle - since) }).retired 0 0) := by
  have view := (s.checked true []).drainAll_gangView
  simp only [State.gangView, Prod.mk.injEq, State.checked_hart, State.checked_cycle] at view
  obtain ⟨-, cycle, -⟩ := view
  unfold execSclr
  rw [releaseOp_retires _ _ idle]
  simp only [State.getSem_drained, queue]
  rw [← cycle]

/-! ### Gang barriers (R200, R201, R203, Table 8-3) -/

/-- A barrier register after `try_complete()` (R201). -/
def Bar.settled (x : Bar) : Bar := if x.count = x.n ∧ x.pend = 0 ∧ x.fault = false then { x with phase := !x.phase, count := 0, arr := 0 } else x

/-- A barrier register after the arrival of a hart, by its bit of ARR, with bytes to come (R201). -/
def Bar.arrived (x : Bar) (bit : BitVec 32) (bytes : Word) : Bar :=
  if x.arr &&& bit = 0 then ({ x with arr := x.arr ||| bit, count := x.count + 1, pend := x.pend + bytes } : Bar).settled else x.settled

/-- The second state follows the first by what an operation on a barrier does, which leaves `x` in the barrier register of the hart and changes nothing of the hart but its buffers and its wait. -/
structure State.BarSet (s t : State) (x : Bar) : Prop where
  kept : t.hart.kept = s.hart.kept
  status : t.hart.status = s.hart.status
  gang : t.hart.gang = s.hart.gang
  bar : t.hart.bar = s.hart.bar
  reg : t.getBar (clusterOf s.hart.id) s.hart.bar = x

theorem State.getBar_setBar_same {s : State} {b : Nat} (hb : b < 32) (c : Nat) (x : Bar) : (s.setBar c b x).getBar c b = x := by
  unfold State.getBar State.setBar
  rw [State.getCluster_setCluster_same]
  exact getD_set_same _ _ hb _ _

/-- A release of a barrier changes the wait of a hart and nothing else. -/
theorem State.releaseBar_hart (s : State) (c b : Nat) (fault : Bool) : ∃ w r, (s.releaseBar c b fault).hart = { s.hart with wait := w, resume := r } := by
  unfold State.releaseBar State.mapHarts
  dsimp only
  split
  · split
    · exact ⟨_, _, rfl⟩
    · exact ⟨_, _, rfl⟩
  · exact ⟨_, _, rfl⟩

/-- `try_complete()` settles the barrier register, and changes the wait of a hart and nothing else of it. -/
theorem State.tryComplete_spec {s : State} {b : Nat} (hb : b < 32) (c : Nat) : (s.tryComplete c b).getBar c b = (s.getBar c b).settled ∧
    ∃ w r, (s.tryComplete c b).hart = { s.hart with wait := w, resume := r } := by
  unfold State.tryComplete Bar.settled
  simp only [Bool.and_eq_true, decide_eq_true_eq, beq_iff_eq, Bool.not_eq_true', and_assoc]
  split
  · exact ⟨State.getBar_setBar_same hb c _, State.releaseBar_hart ..⟩
  · exact ⟨rfl, s.hart.wait, s.hart.resume, rfl⟩

namespace State.BarSet

variable {s t : State} {x : Bar}

theorem id_eq (h : BarSet s t x) : t.hart.id = s.hart.id := congrArg Prod.fst h.kept

theorem setBar (h : BarSet s t x) (hb : s.hart.bar < 32) (y : Bar) : BarSet s (t.setBar (clusterOf s.hart.id) s.hart.bar y) y :=
  ⟨h.kept, h.status, h.gang, h.bar, State.getBar_setBar_same hb _ y⟩

theorem tryComplete (h : BarSet s t x) (hb : s.hart.bar < 32) : BarSet s (t.tryComplete (clusterOf s.hart.id) s.hart.bar) x.settled := by
  obtain ⟨reg, w, r, hart⟩ := State.tryComplete_spec (s := t) hb (clusterOf s.hart.id)
  rw [h.reg] at reg
  exact ⟨by rw [hart]; exact h.kept, by rw [hart]; exact h.status, by rw [hart]; exact h.gang, by rw [hart]; exact h.bar, reg⟩

/-- Performing the hart's writes leaves its barrier. -/
theorem drained (s : State) : BarSet s (s.drainAll s.hart.id) (s.getBar (clusterOf s.hart.id) s.hart.bar) := by
  have kept := (s.drainAll_performs (List.subset_append_left ..) (List.subset_append_right ..)).1.kept
  have view := s.drainAll_gangView
  simp only [State.gangView, Prod.mk.injEq] at view
  obtain ⟨clusters, -, status, gang, bar⟩ := view
  refine ⟨kept, status, gang, bar, ?_⟩
  unfold State.getBar State.getCluster
  rw [clusters]

/-- What the hart is past such an instruction with GARR clear. -/
theorem retired (h : BarSet s t x) (garr : s.hart.garr = false) : (t.retired 0 0).hart.pc = s.hart.pc + 4 ∧ (t.retired 0 0).hart.garr = false ∧
    (∀ r, (t.retired 0 0).gs r = s.gs r) ∧ (t.retired 0 0).getBar (clusterOf s.hart.id) s.hart.bar = x := by
  have kept := h.kept
  simp only [Hart.kept, Prod.mk.injEq] at kept
  obtain ⟨-, pc, regs, -⟩ := kept
  refine ⟨congrArg (· + 4) pc, ?_, fun r => ?_, h.reg⟩
  · show (if t.hart.reissue then t.hart.status &&& 0x2FF else t.hart.status).getLsbD 9 = false
    have clear : t.hart.status.getLsbD 9 = false := h.status ▸ garr
    split
    · rw [BitVec.getLsbD_and, clear, Bool.false_and]
    · exact clear
  · show (if r = 0 then 0 else t.hart.s[r.toNat]) = (if r = 0 then 0 else s.hart.s[r.toNat])
    rw [regs]

end State.BarSet

/-- A bit of a vector is clear where the vector meets nothing of the power of two. -/
theorem and_twoPow_eq_zero {x : BitVec 32} {k : Nat} (hk : k < 32) : x &&& BitVec.ofNat 32 (2 ^ k) = 0 ↔ x.getLsbD k = false := by
  have power : BitVec.ofNat 32 (2 ^ k) = BitVec.twoPow 32 k := BitVec.eq_of_toNat_eq (by rw [BitVec.toNat_ofNat, BitVec.toNat_twoPow])
  have nonzero : BitVec.twoPow 32 k ≠ 0 := fun h => by
    have clear := congrArg (BitVec.getLsbD · k) h
    simp [hk] at clear
  rw [power, BitVec.and_twoPow]
  split
  next h => exact ⟨fun e => absurd e nonzero, fun e => absurd (h.symm.trans e) (by decide)⟩
  next h => exact ⟨fun _ => Bool.not_eq_true _ ▸ h, fun _ => rfl⟩

/-- An arrival (R201): a hart counts once in each phase. -/
theorem State.arrive_barSet {s : State} (hb : s.hart.bar < 32) (bytes : Word) :
    State.BarSet s (s.arrive bytes) ((s.getBar (clusterOf s.hart.id) s.hart.bar).arrived (BitVec.ofNat 32 (2 ^ s.hart.gangHart)) bytes) := by
  have drained := State.BarSet.drained s
  have bit : s.hart.gangHart < 32 := Nat.mod_lt _ (by decide)
  unfold State.arrive Bar.arrived
  simp only [drained.reg, and_twoPow_eq_zero bit]
  by_cases arr : (s.getBar (clusterOf s.hart.id) s.hart.bar).arr.getLsbD s.hart.gangHart = true
  · rw [if_pos arr, if_neg (by rw [arr]; decide)]
    exact drained.tryComplete hb
  · rw [if_neg arr, if_pos (Bool.not_eq_true _ ▸ arr)]
    exact (drained.setBar hb _).tryComplete hb

theorem State.retired_buffers {t : State} {ss : List PendWrite} {vs : List PendWrite} (h : t.hart.sbuf = ss ∧ t.hart.vbuf = vs) :
    (t.retired 0 0).hart.sbuf = ss ∧ (t.retired 0 0).hart.vbuf = vs := h

theorem State.arrive_buffers {s : State} (hb : s.hart.bar < 32) (bytes : Word) : (s.arrive bytes).hart.sbuf = [] ∧ (s.arrive bytes).hart.vbuf = [] := by
  obtain ⟨-, sbuf, vbuf⟩ := s.drainAll_performs (List.subset_append_left ..) (List.subset_append_right ..)
  unfold State.arrive
  extract_lets h s1 b s2
  obtain ⟨-, w, r, hart⟩ := State.tryComplete_spec (s := s2) hb (clusterOf h.id)
  have same : s2.hart = s1.hart := by
    unfold s2
    split <;> rfl
  rw [hart, same]
  exact ⟨sbuf, vbuf⟩

/-- What a barrier instruction that arrives leaves of the hart that issues it, with GARR clear before it. -/
theorem State.arrive_retired {s : State} (hb : s.hart.bar < 32) (garr : s.hart.garr = false) (bytes : Word) : ((s.arrive bytes).retired 0 0).hart.pc = s.hart.pc + 4 ∧
    ((s.arrive bytes).retired 0 0).hart.garr = false ∧ (∀ r, ((s.arrive bytes).retired 0 0).gs r = s.gs r) ∧
    ((s.arrive bytes).retired 0 0).getBar (clusterOf s.hart.id) s.hart.bar = (s.getBar (clusterOf s.hart.id) s.hart.bar).arrived (BitVec.ofNat 32 (2 ^ s.hart.gangHart)) bytes ∧
    ((s.arrive bytes).retired 0 0).hart.sbuf = [] ∧ ((s.arrive bytes).retired 0 0).hart.vbuf = [] := by
  obtain ⟨pc, clear, regs, reg⟩ := (State.arrive_barSet hb bytes).retired garr
  exact ⟨pc, clear, regs, reg, State.retired_buffers (State.arrive_buffers hb bytes)⟩

theorem Hart.garr_setGarr (h : Hart) (b : Bool) : (h.setGarr b).garr = b := by
  show ((h.status &&& 0x1FF) ||| (if b then 0x200 else 0)).getLsbD 9 = b
  rw [BitVec.getLsbD_or, BitVec.getLsbD_and]
  cases b <;> simp

/-- `gbar.a` (Table 8-3). -/
theorem execGbarA_arrives {s : State} (a : Reg5) (hs : s.hart.sound = true) (rows : s.rowsOut s.hart.id = false) :
    execGbarA a s = .next ((((s.checked true [a]).upd (·.setGarr false)).arrive (s.gs a)).retired 0 0) := by
  refine runInstr_retires (rs := [a]) (.inr hs) 0 0 ?_
  have out : (s.checked true [a]).rowsOut (s.checked true [a]).hart.id = false := rows
  have bytes : (s.checked true [a]).gs a = s.gs a := rfl
  simp only [out, bytes, Bool.false_eq_true, if_false]
  generalize ((s.checked true [a]).upd (·.setGarr false)).arrive (s.gs a) = t
  rfl

/-- A wait at a barrier without a fault ends where the hart's bit of ARR is clear (R201). -/
theorem State.barWait_done {s : State} (fault : (s.getBar (clusterOf s.hart.id) s.hart.bar).fault = false)
    (arr : (s.getBar (clusterOf s.hart.id) s.hart.bar).arr &&& BitVec.ofNat 32 (2 ^ s.hart.gangHart) = 0) : s.barWait = some false := by
  have bit : s.hart.gangHart < 32 := Nat.mod_lt _ (by decide)
  unfold State.barWait
  simp only [fault, (and_twoPow_eq_zero bit).1 arr, Bool.false_eq_true, if_false]

/-- `gbar` whose phase completes with its arrival (R203). -/
theorem execGbar_arrives {s : State} (a : Reg5) (hs : s.hart.sound = true) (hb : s.hart.bar < 32) (rows : s.rowsOut s.hart.id = false) (resume : s.hart.resume = .none)
    (garr : s.hart.garr = false)
    (fault : ((s.getBar (clusterOf s.hart.id) s.hart.bar).arrived (BitVec.ofNat 32 (2 ^ s.hart.gangHart)) (s.gs a)).fault = false)
    (arr : ((s.getBar (clusterOf s.hart.id) s.hart.bar).arrived (BitVec.ofNat 32 (2 ^ s.hart.gangHart)) (s.gs a)).arr &&& BitVec.ofNat 32 (2 ^ s.hart.gangHart) = 0) :
    execGbar a s = .next (((s.checked true [a]).arrive (s.gs a)).retired 0 0) := by
  have set := State.arrive_barSet (s := s.checked true [a]) hb (s.gs a)
  have reg : ((s.checked true [a]).arrive (s.gs a)).getBar (clusterOf ((s.checked true [a]).arrive (s.gs a)).hart.id) ((s.checked true [a]).arrive (s.gs a)).hart.bar =
      (s.getBar (clusterOf s.hart.id) s.hart.bar).arrived (BitVec.ofNat 32 (2 ^ s.hart.gangHart)) (s.gs a) := by
    rw [set.id_eq, set.bar]
    exact set.reg
  have place : ((s.checked true [a]).arrive (s.gs a)).hart.gangHart = s.hart.gangHart := congrArg (fun w : Word => w.toNat % 32) set.gang
  have wait : ((s.checked true [a]).arrive (s.gs a)).barWait = some false := State.barWait_done (by rw [reg]; exact fault) (by rw [reg, place]; exact arr)
  have resumed : (s.checked true [a]).hart.resume = .none := resume
  have unset : (s.checked true [a]).hart.garr = false := garr
  refine runInstr_retires (rs := [a]) (.inr hs) 0 0 ?_
  have out : (s.checked true [a]).rowsOut (s.checked true [a]).hart.id = false := rows
  have bytes : (s.checked true [a]).gs a = s.gs a := rfl
  simp only [resumed, unset, out, bytes, wait, Bool.not_false, Bool.true_and, Bool.false_eq_true, if_false]
  generalize (s.checked true [a]).arrive (s.gs a) = t
  rfl

theorem Hart.setGarr_false (h : Hart) : h.setGarr false = { h with status := h.status &&& 0x1FF } := by simp [Hart.setGarr]

/-- `gbar` after an arrival by `gbar.a`, whose phase has completed (R203). -/
theorem execGbar_arrived {s : State} (a : Reg5) (hs : s.hart.sound = true) (resume : s.hart.resume = .none) (garr : s.hart.garr = true)
    (fault : (s.getBar (clusterOf s.hart.id) s.hart.bar).fault = false)
    (arr : (s.getBar (clusterOf s.hart.id) s.hart.bar).arr &&& BitVec.ofNat 32 (2 ^ s.hart.gangHart) = 0) :
    execGbar a s = .next ((s.upd (fun h => { h with status := h.status &&& 0x1FF })).wrote true [a] 0 0) := by
  have resumed : (s.checked true [a]).hart.resume = .none := resume
  have set : (s.checked true [a]).hart.garr = true := garr
  have wait : ((s.checked true [a]).upd (·.setGarr false)).barWait = some false := State.barWait_done fault arr
  refine (runInstr_retires (t := (s.checked true [a]).upd (·.setGarr false)) (rs := [a]) (.inr hs) 0 0 ?_).trans ?_
  · simp only [resumed, set, wait, Bool.not_true, Bool.false_and, Bool.false_eq_true, if_false, if_true]
    rfl
  · rw [State.upd, Hart.setGarr_false]
    rfl

/-- `gbar.w` where it need not wait (Table 8-3). -/
theorem execGbarW_done {s : State} (d : Reg5) (resume : s.hart.resume = .none)
    (h : (s.getBar (clusterOf s.hart.id) s.hart.bar).fault = true ∨ (s.getBar (clusterOf s.hart.id) s.hart.bar).arr &&& BitVec.ofNat 32 (2 ^ s.hart.gangHart) = 0) :
    execGbarW d s = .next ((s.upd (fun h => { h with status := h.status &&& 0x1FF })).wrote true [] d (if (s.getBar (clusterOf s.hart.id) s.hart.bar).fault then 1 else 0)) := by
  have resumed : (s.checked true []).hart.resume = .none := resume
  have wait : ((s.checked true []).upd (·.setGarr false)).barWait = some (s.getBar (clusterOf s.hart.id) s.hart.bar).fault := by
    cases fault : (s.getBar (clusterOf s.hart.id) s.hart.bar).fault with
    | true => exact State.barWait_fault fault
    | false => exact State.barWait_done fault (h.resolve_left (fault ▸ Bool.false_ne_true))
  refine (runInstr_retires (t := (s.checked true []).upd (·.setGarr false)) (.inl rfl) d (if (s.getBar (clusterOf s.hart.id) s.hart.bar).fault then 1 else 0) ?_).trans ?_
  · simp only [resumed, wait]
  · rw [State.upd, Hart.setGarr_false]
    rfl

/-- `gbar.r` (Table 8-3). -/
theorem execGbarR_retires (s : State) (hb : s.hart.bar < 32) : ∃ t, execGbarR s = .next (t.retired 0 0) ∧
    State.BarSet ((s.checked true []).upd (·.setGarr false)) t ({ s.getBar (clusterOf s.hart.id) s.hart.bar with fault := false } : Bar).settled := by
  unfold execGbarR scalarOp
  have start : State.BarSet ((s.checked true []).upd (·.setGarr false)) ((s.checked true []).upd (·.setGarr false)) (s.getBar (clusterOf s.hart.id) s.hart.bar) :=
    ⟨rfl, rfl, rfl, rfl, rfl⟩
  exact ⟨_, runInstr_retires (.inl rfl) 0 0 rfl, (start.setBar hb _).tryComplete hb⟩

/-- Settles O31: each instruction has its effect on the registers of the cluster, whose semaphores, data registers and barriers performing the hart's writes leaves alone. -/
theorem semaphoresAndGangBarriers : Obligations.SemaphoresAndGangBarriers := by
  refine ⟨fun s d a n => ⟨execTas_free d n, fun w => execTas_granted d n, execTas_queued d n, execStst_eq s d n, execCdrd_eq s d n, execCdwr_eq a n, fun idle =>
    ⟨execSset_eq n idle, execSclr_clears n idle, fun k since rest queue _ => execSclr_grants n idle queue⟩⟩, fun s d a hb hs => ?_⟩
  refine ⟨fun rows => ?_, fun rows resume garr fault arr => ?_, fun resume garr fault arr => execGbar_arrived a hs resume garr fault arr, execGbarW_done d, ?_⟩
  · obtain ⟨pc, garr, regs, reg, sbuf, vbuf⟩ :=
      State.arrive_retired (s := (s.checked true [a]).upd (·.setGarr false)) hb (Hart.garr_setGarr _ false) (s.gs a)
    exact ⟨_, execGbarA_arrives a hs rows, ⟨pc, garr, fun r _ => regs r⟩, regs d, reg, sbuf, vbuf⟩
  · obtain ⟨pc, clear, regs, reg, sbuf, vbuf⟩ := State.arrive_retired (s := s.checked true [a]) hb garr (s.gs a)
    exact ⟨_, execGbar_arrives a hs hb rows resume garr fault arr, ⟨pc, clear, fun r _ => regs r⟩, regs d, reg, sbuf, vbuf⟩
  · obtain ⟨t, done, set⟩ := execGbarR_retires s hb
    obtain ⟨pc, garr, regs, reg⟩ := set.retired (Hart.garr_setGarr _ false)
    exact ⟨_, done, ⟨pc, garr, fun r _ => regs r⟩, regs d, reg⟩

end Sys2Proof.Machine
end

section
/-! PROOFS. Streams (08 R211 to R214, 09 R235, 14 R350, R351, Table 8-6). -/

namespace Sys2Proof.Machine

open Sys2Proof

/-! ### Instructions of a unit class that pass their checks -/

section

variable {hd : Hdr} {s : State} {u : UnitClass} {j : BitVec 1} {sw : List Reg5}

theorem Hdr.Vector.runs {f : State → Except Trap Eff} {e : Eff} (hv : hd.Vector u j sw) (hm : s.hart.mayJoin u j = true) (hf : f (s.joined u j sw) = .ok e) :
    runInstr hd s f = .next (hd.finish s.hart.convoy e) := by
  obtain ⟨unit, joins, overlap, format, user, -, rfl⟩ := hv
  rw [runInstr_unit hd s f u j unit joins overlap format user hm, hf]

theorem Hdr.Vector.finish_next (hv : hd.Vector u j sw) (c : Option Convoy) (t : State) : hd.finish c (.next t) = t.vecRetired 4 := by
  rw [Hdr.finish_next_unit hd c t u hv.unit, show hd.len = 4 by simp [Hdr.len, hv.body]]

/-- An instruction whose effect on the state that has joined is one on the hart that has not. -/
theorem Hdr.Vector.finish_hart (hv : hd.Vector u j sw) (s : State) (r : Hart) (hconv : r.convoy = s.hart.convoy) (hcur : r.cur = s.hart.cur) (hpl : r.places = s.hart.places)
    (href : r.refuse = s.hart.refuse) : hd.finish s.hart.convoy (.next { s with hart := r.going s.hart.begin_ (s.hart.convoyWith u j sw) }) = { s with hart := r.vectorPast 4 u j sw } :=
  (hv.finish (s := s) (r := r) s.hart.convoy (t := { s with hart := r.going s.hart.begin_ (s.hart.convoyWith u j sw) }) rfl hconv hcur hpl href).trans rfl

theorem State.joined_copyBusy (k : Nat) : (s.joined u j sw).copyBusy k = s.copyBusy k := rfl

end

/-- A hart whose register is bound no more and reads as zeros (R212). -/
def Hart.unbound (h : Hart) (n : Reg5) : Hart := { h.setStream n none with v := h.v.setIfInBounds n.toNat 0 }

theorem Hart.unbound_vectorPast (h : Hart) (n : Reg5) (len : Word) (u : UnitClass) (j : BitVec 1) (sw : List Reg5) :
    (h.unbound n).vectorPast len u j sw = { (h.setStream n none).vectorPast len u j sw with v := h.v.setIfInBounds n.toNat 0 } := by
  obtain ⟨places, refuse⟩ := Hart.begin_congr (a := h.unbound n) (b := h.setStream n none) rfl rfl rfl
  unfold Hart.vectorPast
  rw [places, refuse]
  rfl

/-! ### Binding (R212, R235, R350, R351) -/

/-- The binding that a stream record at `va` describes, but for the table of an indirect one (Table 8-5, R212). -/
def Stream.ofRecord (va : Word) (r : Nat) : Stream :=
  { recAddr := va, fabric := false, peer := 0, group := none, mode := BitVec.ofNat 2 (field r 0x20 4), out := (field r 0x20 4).testBit 2, sew := BitVec.ofNat 3 (field r 0x20 4 / 8),
    base := BitVec.ofNat 64 (field r 0x00 8), stride := BitVec.ofNat 64 (field r 0x08 8), count := field r 0x10 8, pos := BitVec.ofNat 64 (field r 0x18 8), table := 0, rstride := 0, nblk := 0,
    flaga := 0, seq := 0, done := 0, fetched := [], flt := none }

/-- Its form: indirect where MODE is 2. -/
theorem Stream.ofRecord_mode (va : Word) (r : Nat) : (Stream.ofRecord va r).mode = 2 ↔ field r 0x20 4 % 4 = 2 := by
  rw [← BitVec.toNat_inj]
  exact Iff.rfl

section

variable {s s1 s2 : State} {hd : Hdr} {va : Word} {r b i : Nat} (aligned : va.toNat % 64 = 0) (record : s.readRecord i va 64 = .ok s1 r)
include aligned record

theorem State.readStream_direct (sound : streamRecordBad r = false) (mode : field r 0x20 4 % 4 ≠ 2) : s.readStream hd i va = .ok s1 (Stream.ofRecord va r) := by
  have direct : ¬(Stream.ofRecord va r).mode = 2 := fun h => mode ((Stream.ofRecord_mode va r).1 h)
  unfold State.readStream
  rw [if_neg (fun h => h aligned), record]
  dsimp only
  rw [sound, if_neg Bool.false_ne_true]
  exact if_neg direct

theorem State.readStream_indirect (sound : streamRecordBad r = false) (mode : field r 0x20 4 % 4 = 2) (table : s1.readTable hd (i + 1) (Stream.ofRecord va r).base = .ok s2 b) :
    s.readStream hd i va = .ok s2 { Stream.ofRecord va r with table := BitVec.ofNat 64 (field b 0x00 8), rstride := BitVec.ofNat 64 (field b 0x08 8), nblk := field b 0x10 8 } := by
  have indirect : (Stream.ofRecord va r).mode = 2 := (Stream.ofRecord_mode va r).2 mode
  unfold State.readStream
  rw [if_neg (fun h => h aligned), record]
  dsimp only
  rw [sound, if_neg Bool.false_ne_true]
  refine (if_pos indirect).trans ?_
  rw [show BitVec.ofNat 64 (field r 0x00 8) = (Stream.ofRecord va r).base from rfl, table]
  rfl

theorem State.readFabric_fresh {k : BitVec 4} (sound : fabricRecordBad r k = false)
    (group : (field r 0x20 4).testBit 10 = true → (s1.hart.groups.getD (BitVec.ofNat 2 (field r 0x20 4 / 2 ^ 8)).toNat Group.init).v = true ∧
      (s1.hart.groups.getD (BitVec.ofNat 2 (field r 0x20 4 / 2 ^ 8)).toNat Group.init).ab = false)
    (peer : (field r 0x20 4).testBit 2 = true → (s1.hart.peerRoute k).isSome = true) :
    s.readFabric hd true i va k = .ok s1 { Stream.ofRecord va r with
      fabric := true, peer := k, group := if (field r 0x20 4).testBit 10 then some (BitVec.ofNat 2 (field r 0x20 4 / 2 ^ 8)) else none, mode := 0, stride := 0, count := field r 0x08 8, pos := 0,
      flaga := BitVec.ofNat 64 (field r 0x10 8), seq := BitVec.ofNat 64 (field r 0x18 8) } := by
  have live : (true && (field r 0x20 4).testBit 10 && (!(s1.hart.groups.getD (BitVec.ofNat 2 (field r 0x20 4 / 2 ^ 8)).toNat Group.init).v ||
      (s1.hart.groups.getD (BitVec.ofNat 2 (field r 0x20 4 / 2 ^ 8)).toNat Group.init).ab)) = false := by
    cases named : (field r 0x20 4).testBit 10 with
    | false => rfl
    | true =>
      obtain ⟨valid, aborted⟩ := group named
      rw [valid, aborted]
      rfl
  have route : (true && (field r 0x20 4).testBit 2 && (s1.hart.peerRoute k).isNone) = false := by
    cases output : (field r 0x20 4).testBit 2 with
    | false => rfl
    | true => simpa using peer output
  unfold State.readFabric
  rw [if_neg (fun h => h aligned), record]
  dsimp only
  rw [sound, if_neg Bool.false_ne_true, live, if_neg Bool.false_ne_true, route, if_neg Bool.false_ne_true]
  rfl

end

theorem State.readTable_sound {s s1 : State} {hd : Hdr} {va : Word} {i b : Nat} (aligned : va.toNat % 32 = 0) (record : s.readRecord i va 32 = .ok s1 b) (zero : field b 0x18 8 = 0)
    (blocks : field b 0x10 8 ≠ 0) (rows : field b 0x08 8 % 8 = 0) (entries : field b 0x00 8 % 8 = 0) : s.readTable hd i va = .ok s1 b := by
  unfold State.readTable
  rw [if_neg (fun h => h aligned), record]
  simp [zero, blocks, rows, entries]

section

variable {s : State} {j : BitVec 1} (hm : s.hart.mayJoin .engine j = true)
include hm

section

variable {t : State} {x : Stream} (n a : Reg5) (idle : s.copyBusy s.hart.id = false)
include idle

theorem exec_qbind_binds (read : (s.joined .engine j []).readStream (vhdr (wQbind n a j) .engine j) 0 (s.gs a) = .ok t x) :
    exec (.qbind n a j) s = .next (((t.freeStream n).upd (fun h => h.setStream n (some x))).vecRetired 4) := by
  show execQbind n a j s = _
  unfold execQbind
  refine ((vhdr_vector _ .engine j).runs (e := .next ((t.freeStream n).upd (fun h => h.setStream n (some x)))) hm ?_).trans
    (congrArg Host.Outcome.next ((vhdr_vector _ .engine j).finish_next _ _))
  simp only [State.joined_copyBusy, State.joined_id, State.joined_gs, idle, read, State.bindEnd, Bool.false_eq_true, if_false]

theorem exec_qbindF_binds (k : BitVec 4) (read : (s.joined .engine j []).readFabric (vhdr (wQbindF n a j k) .engine j) true 0 (s.gs a) k = .ok t x) :
    exec (.qbindF n a j k) s = .next (((t.freeStream n).upd (fun h => h.setStream n (some x))).vecRetired 4) := by
  show execQbindF n a j k s = _
  unfold execQbindF
  refine ((vhdr_vector _ .engine j).runs (e := .next ((t.freeStream n).upd (fun h => h.setStream n (some x)))) hm ?_).trans
    (congrArg Host.Outcome.next ((vhdr_vector _ .engine j).finish_next _ _))
  simp only [State.joined_copyBusy, State.joined_id, State.joined_gs, idle, read, State.bindEnd, Bool.false_eq_true, if_false]

end

/-! ### The end of a binding, and its status (R212, Table 8-6) -/

theorem exec_qfree_frees (n : Reg5) : exec (.qfree n j) s = .next ((vhdr (wQfree n j) .engine j).finish s.hart.convoy (.next ((s.joined .engine j []).freeStream n))) := by
  show execQfree n j s = _
  exact (vhdr_vector _ .engine j).runs hm rfl

theorem exec_qfree_input {n : Reg5} {st : Stream} (bound : s.hart.stream n = some st) (input : st.out = false) :
    exec (.qfree n j) s = .next { s with hart := { (s.hart.setStream n none).vectorPast 4 .engine j [] with v := s.hart.v.setIfInBounds n.toNat 0 } } := by
  have joined : (s.joined .engine j []).hart.stream n = some st := by rw [State.joined_hart]; exact bound
  have nobad : s.hart.bad = [] := List.isEmpty_iff.1 (Hart.mayJoin_sound hm)
  have freed : (s.joined .engine j []).freeStream n = { s with hart := (s.hart.unbound n).going s.hart.begin_ (s.hart.convoyWith .engine j []) } := by
    unfold State.freeStream
    rw [joined]
    simp only [input, Bool.false_eq_true, if_false, State.upd, State.joined_hart, Hart.going, Hart.unbound, Hart.setStream, nobad, List.filter_nil]
    rfl
  rw [exec_qfree_frees hm, freed, (vhdr_vector _ .engine j).finish_hart s (s.hart.unbound n) rfl rfl rfl rfl, Hart.unbound_vectorPast]

theorem exec_qfree_output {n : Reg5} {st : Stream} (bound : s.hart.stream n = some st) (output : st.out = true) :
    exec (.qfree n j) s = .next ((((s.joined .engine j []).drainV s.hart.id s.hart.vbuf.length).upd
      (fun h => { h.setStream n none with v := h.v.setIfInBounds n.toNat 0, bad := h.bad.filter (fun c => c / 512 != n.toNat) })).vecRetired 4) := by
  have joined : (s.joined .engine j []).hart.stream n = some st := by rw [State.joined_hart]; exact bound
  have buffered : (s.joined .engine j []).hart.vbuf = s.hart.vbuf := by rw [State.joined_hart]; rfl
  rw [exec_qfree_frees hm, (vhdr_vector _ .engine j).finish_next]
  unfold State.freeStream
  rw [joined]
  simp only [output, if_true, State.joined_id, buffered]

theorem exec_qfree_unbound {n : Reg5} (unbound : s.hart.stream n = none) : exec (.qfree n j) s = .next { s with hart := s.hart.vectorPast 4 .engine j [] } := by
  have joined : (s.joined .engine j []).freeStream n = s.joined .engine j [] := by
    unfold State.freeStream
    rw [State.joined_hart]
    rw [show (s.hart.going s.hart.begin_ (s.hart.convoyWith .engine j [])).stream n = none from unbound]
  rw [exec_qfree_frees hm, joined, (vhdr_vector _ .engine j).finish_joined]

theorem exec_qstat_writes (d n : Reg5) : exec (.qstat d n j) s = .next { s with hart := (s.hart.vectorPast 4 .engine j [d]).ps d (Stream.status (s.hart.stream n)) } := by
  have joined : (s.joined .engine j [d]).hart.stream n = s.hart.stream n := by rw [State.joined_hart]; rfl
  show execQstat d n j s = _
  unfold execQstat
  refine ((vhdr_vector_writes _ .engine j [d]).runs (e := .next ((s.joined .engine j [d]).ps d (Stream.status (s.hart.stream n)))) hm (by rw [joined])).trans ?_
  rw [(vhdr_vector_writes _ .engine j [d]).finish_ps]

end

/-- Draining the whole of the vector buffer of the issuing hart leaves it empty. -/
theorem State.drainV_empties (s : State) (u : UnitClass) (j : BitVec 1) (sw : List Reg5) :
    (((s.joined u j sw).drainV s.hart.id s.hart.vbuf.length).getHart s.hart.id).vbuf = [] := by
  have buffered : (s.joined u j sw).hart.vbuf = s.hart.vbuf := by rw [State.joined_hart]; rfl
  obtain ⟨performs, -, vbuf⟩ := (s.joined u j sw).drainV_performs (List.Subset.refl _) s.hart.vbuf.length
  have same := performs.id_eq
  rw [State.joined_id] at same vbuf
  generalize (s.joined u j sw).drainV s.hart.id s.hart.vbuf.length = t at same vbuf
  rw [← same, State.getHart_own, vbuf, buffered, List.drop_length]

/-! ### Operands (R213, R214) -/

section

variable {s : State} {o : VOpd} {st : Stream} {n : Nat} (bound : s.hart.stream o.reg = some st) (enough : n - s.hart.vstart.toNat ≤ st.fetched.length)
include bound enough

/-- An operand whose elements have been fetched ahead takes them. -/
theorem State.fetchSource_held : s.fetchSource o n = .ok s (st.fetched.take (n - s.hart.vstart.toNat)) := by
  have length : (st.fetched.take (n - s.hart.vstart.toNat)).length = n - s.hart.vstart.toNat := List.length_take_of_le enough
  unfold State.fetchSource
  simp only [bound, length, lt_irrefl, decide_false, Bool.false_and, Bool.false_eq_true, if_false, Nat.sub_self, State.fetchFrom, enough, if_true]

theorem State.fetchSources_held : s.fetchSources n [o] [] = (s, .ok [st.fetched.take (n - s.hart.vstart.toNat)]) := by
  simp only [State.fetchSources, List.find?_nil, ite_self, State.fetchSource_held bound enough, List.nil_append, List.map_cons, List.map_nil]

end

/-- An active element of a stream operand is the next that was fetched. -/
theorem Hart.srcVal_held {h : Hart} {o : VOpd} {st : Stream} {n i : Nat} (bound : h.stream o.reg = some st) (below : i < n) (from_ : h.vstart.toNat ≤ i) :
    h.srcVal [o] [st.fetched.take (n - h.vstart.toNat)] 0 i = st.fetched.getD (i - h.vstart.toNat) 0 := by
  have first : ([o] : List VOpd)[0]? = some o := rfl
  unfold Hart.srcVal
  simp only [first, bound, Option.isNone_some, Bool.false_eq_true, if_false, Nat.not_lt.2 from_, List.getD_eq_getElem?_getD, List.getElem?_cons_zero, Option.getD_some]
  rw [List.getElem?_take_of_lt (Nat.sub_lt_sub_right from_ below)]

/-- The operand's stream, and no other, has consumed the elements (R213). -/
theorem Hart.advance_bound {h : Hart} {o : VOpd} {st : Stream} (bound : h.stream o.reg = some st) (k : Nat) : h.advance [o] k = h.setStream o.reg (some (st.advance k)) := by
  have range : 24 ≤ o.reg.toNat := by
    by_contra below
    rw [Hart.stream, if_neg below] at bound
    exact nomatch bound
  have read : h.streams.getD (o.reg.toNat - 24) none = some st := by rwa [Hart.stream, if_pos range] at bound
  have streams : (h.streams.mapFinIdx fun q st _ => if [o].any (fun o => o.reg.toNat == 24 + q) then st.map (·.advance k) else st) =
      h.streams.setIfInBounds (o.reg.toNat - 24) (some (st.advance k)) := by
    ext1 q hq
    rw [Vector.getElem_mapFinIdx, Vector.getElem_setIfInBounds]
    simp only [List.any_cons, List.any_nil, Bool.or_false, beq_iff_eq]
    by_cases own : o.reg.toNat - 24 = q
    · subst own
      have held : h.streams[o.reg.toNat - 24] = some st := by simpa [Vector.getD, hq] using read
      rw [if_pos (by omega), if_pos rfl, held]
      rfl
    · rw [if_neg (by omega), if_neg own]
  unfold Hart.advance Hart.setStream
  rw [streams]

/-- An instruction that raises no exception and has no exception mask records none. -/
theorem Hart.except_none (h : Hart) (is : List Nat) : h.except 0 (is.map (fun i => (i, ({} : Exc)))) = h := by
  have none : (is.map (fun i => (i, ({} : Exc)))).foldl (fun (e : Exc) p => e.or p.2) {} = {} := by
    induction is with
    | nil => rfl
    | cons i is ih => exact ih
  have kept : h.fcsr ||| ({} : Exc).fcsr = h.fcsr := BitVec.or_zero
  unfold Hart.except Hart.raise
  rw [none, kept]
  rfl

/-- A stream of the element width is a source, with the registers of its group unbound (R214). -/
theorem stepFour_stream {hdr : Hdr} {h : Hart} {o d : VOpd} {st : Stream} (masked : Bool) (bound : h.stream o.reg = some st) (input : st.out = false)
    (width : st.sew.toNat = h.vtype.toNat % 8) (aligned : o.misaligned = false) (inside : h.streamInside o = false) (plain : h.plainGroups [d] = true) (apart : partialOverlaps [o] [d] = false) :
    stepFour hdr h false (false || partialOverlaps [o] [d]) masked [o] [d] = .ok () := by
  have source : h.streamBad o false false = false := by simp [Hart.streamBad, bound, input, width]
  have one : d ∈ [d] := List.mem_singleton_self d
  have dest : h.streamBad d true masked = false := by simp [Hart.streamBad, Hart.plain_stream plain one]
  unfold stepFour
  simp only [List.any_cons, List.any_nil, source, dest, aligned, inside, apart, Hart.plain_aligned plain one, Hart.plain_inside plain one, Bool.or_false, Bool.false_eq_true, if_false]

/-- The results of an element-wise instruction on a stream operand, without exceptions, in a group that is none. -/
theorem State.mapped_stream {s : State} {hdr : Hdr} {o d : VOpd} {st : Stream} {src : Nat → Nat → Nat} {y : Nat → Nat} (bound : s.hart.stream o.reg = some st) (plain : s.hart.stream d.reg = none)
    (value : ∀ i ∈ s.hart.active 0 s.hart.vl, src 0 i = y i) :
    s.mapped hdr [o] src d 0 0 (fun _ src i => (src 0 i, {})) =
      .next (s.upd fun h => (h.putElems d.reg.toNat d.w ((s.hart.active 0 s.hart.vl).map (fun i => (i, y i)))).setStream o.reg (some (st.advance (s.hart.vl - s.hart.vstart.toNat)))) := by
  have written : (s.hart.active 0 s.hart.vl).map (fun i => (i, src 0 i)) = (s.hart.active 0 s.hart.vl).map (fun i => (i, y i)) :=
    List.map_congr_left fun i hi => by rw [value i hi]
  have still : ∀ xs, (s.hart.putElems d.reg.toNat d.w xs).stream o.reg = some st := fun xs =>
    (s.hart.putElems_other (·.stream o.reg) _ _ _ fun _ _ _ => rfl).trans bound
  unfold State.mapped State.putResult Hart.activeFor
  simp only [plain, Option.isSome_none, Bool.false_eq_true, if_false, List.map_map, Function.comp_def, List.filter_true, State.upd, Hart.except_none, written, Hart.advance_bound (still _)]

/-- A hart that has taken the active elements of a stream into a group at SEW, and consumed every element from VSTART (R213). -/
def Hart.taking (h : Hart) (d n : Reg5) (st : Stream) : Hart :=
  (h.putElems d.toNat h.sew ((h.active 0 h.vl).map (fun i => (i, st.fetched.getD (i - h.vstart.toNat) 0)))).setStream n (some (st.advance (h.vl - h.vstart.toNat)))

theorem Hart.taking_going (h b : Hart) (c : Option Convoy) (d n : Reg5) (st : Stream) : (h.going b c).taking d n st = (h.taking d n st).going b c := by
  unfold Hart.taking
  rw [Hart.putElems_convoy]
  rfl

/-- It stands otherwise as it was. -/
theorem Hart.taking_other {α : Type} (h : Hart) (f : Hart → α) (d n : Reg5) (st : Stream) (hf : ∀ (g : Hart) v bad streams, f { g with v := v, bad := bad, streams := streams } = f g) :
    f (h.taking d n st) = f h :=
  (hf _ _ _ _).trans (h.putElems_other f _ _ _ fun g v bad => hf g v bad g.streams)

theorem Hart.vstart_le_active {h : Hart} {m : Reg3} {n i : Nat} (hi : i ∈ h.active m n) : h.vstart.toNat ≤ i := by
  simp only [Hart.active, List.mem_filter, Bool.and_eq_true, decide_eq_true_eq] at hi
  exact hi.2.1

/-- `vmv` from a stream whose elements have been fetched ahead takes them, in order, and consumes them (R213). -/
theorem exec_vmv_stream {s : State} {d n : Reg5} {j : BitVec 1} {st : Stream} (hm : s.hart.mayJoin .valu j = true) (bound : s.hart.stream n = some st) (input : st.out = false)
    (width : st.sew.toNat = s.hart.vtype.toNat % 8) (aligned : (s.hart.opd n).misaligned = false) (inside : s.hart.streamInside (s.hart.opd n) = false)
    (plain : s.hart.plainGroups [s.hart.opd d] = true) (apart : partialOverlaps [s.hart.opd n] [s.hart.opd d] = false) (enough : s.hart.vl - s.hart.vstart.toNat ≤ st.fetched.length) :
    exec (.vmv d n j) s = .next { s with hart := (s.hart.taking d n st).vectorPast 4 .valu j [] } := by
  have hdr := vhdr_vector (wVmv d n j) .valu j
  have joined := s.joined_hart .valu j []
  have effect : (s.joined .valu j []).upd (·.taking d n st) = { s with hart := (s.hart.taking d n st).going s.hart.begin_ (s.hart.convoyWith .valu j []) } := by
    rw [State.upd, joined, Hart.taking_going]
    rfl
  show execVmv d n j s = _
  unfold execVmv vecMap vecRun
  refine (hdr.runs (e := .next ((s.joined .valu j []).upd (·.taking d n st))) hm ?_).trans ?_
  · generalize s.joined .valu j [] = J at *
    have here : J.hart.stream (J.hart.opd n).reg = some st := by rw [joined]; exact bound
    have there : J.hart.plainGroups [J.hart.opd d] = true := by rw [joined]; exact plain
    have held : J.hart.vl - J.hart.vstart.toNat ≤ st.fetched.length := by rw [joined]; exact enough
    have four := stepFour_stream (hdr := vhdr (wVmv d n j) .valu j) (h := J.hart) (o := J.hart.opd n) (d := J.hart.opd d) (0 != (0 : Reg3)) here input
      (by rw [joined]; exact width) (by rw [joined]; exact aligned) (by rw [joined]; exact inside) there (by rw [joined]; exact apart)
    have value : ∀ i ∈ J.hart.active 0 J.hart.vl, J.hart.srcVal [J.hart.opd n] [st.fetched.take (J.hart.vl - J.hart.vstart.toNat)] 0 i = st.fetched.getD (i - J.hart.vstart.toNat) 0 :=
      fun i hi => Hart.srcVal_held here (Hart.mem_active hi) (Hart.vstart_le_active hi)
    have fetched := State.fetchSources_held here held
    have mapped := State.mapped_stream (hdr := vhdr (wVmv d n j) .valu j) here (Hart.plain_stream there (List.mem_singleton_self _)) value
    simp only [four, fetched, mapped]
    rfl
  · rw [effect]
    exact congrArg Host.Outcome.next (hdr.finish_hart s (s.hart.taking d n st) (s.hart.taking_other Hart.convoy d n st fun _ _ _ _ => rfl) (s.hart.taking_other Hart.cur d n st fun _ _ _ _ => rfl)
      (s.hart.taking_other Hart.places d n st fun _ _ _ _ => rfl) (s.hart.taking_other Hart.refuse d n st fun _ _ _ _ => rfl))

/-! ### The addresses of indirect streams (R232, R235) -/

theorem State.streamAddr_indirect {s s1 : State} {id q e x : Nat} {st : Stream} {ok : Bool} (mode : st.mode = 2) (stride : st.stride ≠ 0)
    (inside : (st.pos.toNat + e / st.stride.toNat) % 2 ^ 64 / 32 < st.nblk) (mapped : x / 64 ≠ 0)
    (entry : s.engineRead id ⟨streamIdx q e + 2 ^ 49, st.table + BitVec.ofNat 64 (8 * ((st.pos.toNat + e / st.stride.toNat) % 2 ^ 64 / 32)), 8, .load, 0, 0⟩ = (s1, .done x ok)) :
    let a := BitVec.ofNat 64 (x / 64 * 64 + (st.pos.toNat + e / st.stride.toNat) % 2 ^ 64 % 32 * st.rstride.toNat + e % st.stride.toNat * (4 * 2 ^ st.sew.toNat / 8))
    s.streamAddr id q st e = .at s1 a a := by
  have rows : ¬st.stride.toNat = 0 := fun h => stride (BitVec.eq_of_toNat_eq h)
  unfold State.streamAddr
  simp only [mode, rows, if_false]
  rw [if_neg (Nat.not_le.2 inside), entry]
  exact if_neg mapped

/-- Settles O46: each instruction of streams by its branch, whose effect is on the state that has joined the convoy. -/
theorem streamsBindAndFeedOperands : Obligations.StreamsBindAndFeedOperands := by
  intro s s1 s2 n a d j k r st
  refine ⟨fun hm aligned idle record => ?_, fun hm bound => ?_, fun hm unbound => ?_, fun hm bound input width aligned inside plain apart enough => ?_, fun id q e x ok => ?_⟩
  · have read : (s.joined .engine j []).readRecord 0 (s.gs a) 64 = .ok s1 r := record
    refine ⟨fun sound mode => exec_qbind_binds hm n a idle (State.readStream_direct aligned read sound mode), fun b sound mode base table zero blocks rows entries =>
      exec_qbind_binds hm n a idle (State.readStream_indirect aligned read sound mode (State.readTable_sound base table zero blocks rows entries)),
      fun sound group peer => exec_qbindF_binds hm n a idle k (State.readFabric_fresh aligned read sound group peer)⟩
  · refine ⟨exec_qfree_input hm bound, fun output => ⟨exec_qfree_output hm bound output, s.drainV_empties .engine j []⟩, ?_⟩
    rw [exec_qstat_writes hm, bound]
    simp only [Stream.status, Nat.add_assoc]
  · exact ⟨exec_qfree_unbound hm unbound, by rw [exec_qstat_writes hm, show s.hart.stream n = none from unbound]; rfl⟩
  · rw [exec_vmv_stream hm bound input width aligned inside plain apart enough]
    simp only [Hart.taking, Stream.advance, enough, if_true]
  · exact fun mode stride inside mapped entry => State.streamAddr_indirect mode stride inside mapped entry

end Sys2Proof.Machine
end

section
/-! PROOFS. A copy of more elements than an element number tells apart (08 R205, R206). -/

namespace Sys2Proof.Machine

open Sys2Proof

/-! ### One write of the cluster's engine, with no other hart and nothing buffered (R205, R206) -/

theorem State.Alone.perform {s : State} (ha : s.Alone) (l : Nat) (bs : List Byte) : (s.perform l bs).Alone ∧ (s.perform l bs).mem = memPut s.mem l bs ∧ (s.perform l bs).hart.id = s.hart.id := by
  obtain ⟨harts, firm, sbuf, vbuf, ecc, copies⟩ := ha
  obtain ⟨cs, e⟩ := s.perform_cases l bs
  have stands : ∀ h : Hart, (h.wakeOn l bs.length).run = h.run := fun h => by rcases h.wakeOn_cases l bs.length with w | w <;> rw [w]
  rw [e]
  refine ⟨⟨by simp [harts], ?_, by simp [sbuf], by simp [vbuf], by simp [ecc, repaired], by simp [copies]⟩, rfl, by simp⟩
  simpa [Vector.toList_map, List.all_map, Function.comp_def, stands] using firm

/-- A vector store of a byte by the one hart performs when its buffer is drained of it, and nothing is buffered then. -/
theorem State.Alone.storeDrained {s : State} (ha : s.Alone) (l : Nat) (e : RElem) (ho : e.op = .store) (hn : e.n = 1) :
    let t := (s.performElem s.hart.id false l e).1
    let u := t.drainV s.hart.id (lastHit (fun q => q.hits l e.n) (t.getHart s.hart.id).vbuf 0 0)
    u.Alone ∧ u.mem = memPut s.mem l (natLe 1 e.data) ∧ u.hart.id = s.hart.id := by
  intro t u
  let p : PendWrite := ⟨s.hart.wseq, l, natLe 1 e.data, s.hart.strip, none, e.addr, s.hart.laneOf e.idx, s.hart.lock⟩
  have room : s.roomInLane s.hart.id (s.hart.laneOf e.idx) 16 = s := by simp [State.roomInLane, State.getHart_own, ha.vbuf]
  have buffered : t = { s with hart := { s.hart with vbuf := [p], wseq := s.hart.wseq + 1 } } := by
    simp only [t, State.performElem, ho, hn, Bool.false_eq_true, if_false, State.bufferV, State.getHart_own, room, ha.vbuf, State.setHart, if_true, List.nil_append, p]
  have own : t.getHart s.hart.id = { s.hart with vbuf := [p], wseq := s.hart.wseq + 1 } := by rw [buffered]; exact State.getHart_own _
  have all : lastHit (fun q => q.hits l e.n) (t.getHart s.hart.id).vbuf 0 0 = 1 := by
    rw [own]
    simp [lastHit, PendWrite.hits, hn, natLe, p]
  have drained : u = ({ s with hart := { s.hart with vbuf := [], wseq := s.hart.wseq + 1 } } : State).perform l (natLe 1 e.data) := by
    simp only [u, all]
    rw [buffered]
    exact (State.drainV_own _ 1).trans rfl
  have rest : ({ s with hart := { s.hart with vbuf := [], wseq := s.hart.wseq + 1 } } : State).Alone := ⟨ha.harts, ha.firm, ha.sbuf, rfl, ha.ecc, ha.copies⟩
  obtain ⟨alone, mem, id_eq⟩ := rest.perform l (natLe 1 e.data)
  rw [drained]
  exact ⟨alone, mem, id_eq⟩

/-- A state of one hart whose memory is zero but at one location. -/
structure State.Dark (s : State) (k : Nat) : Prop where
  alone : s.Alone
  wf : Memory.wf s.mem = true
  zero : ∀ l, l ≠ k → memGet s.mem l = 0

theorem memRead_byte {m : List Host.Cell} (hm : Memory.wf m = true) (l : Nat) : memRead 1 l m = [memGet m l] := by
  rw [memRead_eq 1 l hm]
  rfl

theorem State.Dark.read {s : State} {k l : Nat} (h : s.Dark k) (hl : l ≠ k) : leNat (memRead 1 l s.mem) = 0 := by
  rw [memRead_byte h.wf, h.zero l hl]
  rfl

/-- A write of a copy in the engine's order whose element has the datum 0 and whose source is not the lone location. -/
def darkWrite (k : Nat) (x : Placed × Nat × Option Nat) : Prop := ∃ e l st, x.1 = .loc e l st ∧ e.op = .store ∧ e.n = 1 ∧ x.2.1 = 0 ∧ x.2.2 ≠ some k

/-- Writing zeros leaves the rest of memory zero. -/
theorem State.Dark.copyWrites {k : Nat} (overlap : Bool) : ∀ {ps : List (Placed × Nat × Option Nat)} {s : State}, s.Dark k → (∀ x ∈ ps, darkWrite k x) → (s.copyWrites overlap ps).Dark k
  | [], _, h, _ => h
  | (p, d, src) :: ps, s, h, all => by
    obtain ⟨e, l, st, place, store, byte, datum, source⟩ := all (p, d, src) (List.mem_cons_self ..)
    dsimp only at place datum source
    subst place datum
    have value : s.copyVal overlap src e.n 0 = (s, 0) := by
      cases src with
      | none => rfl
      | some q =>
        have now : leNat (memRead 1 q s.mem) = 0 := h.read (fun e => source (congrArg some e))
        simp [State.copyVal, byte, now]
    obtain ⟨alone, mem, -⟩ := h.alone.storeDrained l { e with data := 0 } store byte
    unfold State.copyWrites
    simp only [value]
    refine State.Dark.copyWrites overlap ⟨alone, ?_, fun q hq => ?_⟩ (fun x hx => all x (List.mem_cons_of_mem _ hx))
    · rw [mem]
      exact Memory.memPut_wf _ _ h.wf
    · rw [mem, memGet_memPut h.wf]
      split
      next inside =>
        have at_ : q - l = 0 := by
          obtain ⟨from_, below⟩ := inside
          simp only [natLe, List.length_singleton] at below
          omega
        rw [at_]
        rfl
      · exact h.zero q hq

/-! ### The elements of a copy from address 0 by a firmware core (R205, R206, R226) -/

theorem State.translateVia_firm {s : State} {a : Agent} {va : Word} (core : Bool) (k : AccK) (firm : isFirm a.hart = true) (ready : s.brdy = 0) (low : va.toNat < 0x3000000000) :
    s.translateVia core a k va = (s, .loc va.toNat false) := by
  have canon : canonical va = true := by
    have small : va.toNat / 2 ^ 54 = 0 := Nat.div_eq_of_lt (by omega)
    rw [canonical, small]
    rfl
  have table : s.unready va.toNat = false := by simp [State.unready, State.reduced, ready]
  unfold State.translateVia State.firmPlace
  simp only [canon, firm, table, Bool.true_eq_false, Bool.false_eq_true, if_false, if_true, low, show ¬0xFFFFF00000000000 ≤ va.toNat by omega, show ¬2 ^ 53 ≤ va.toNat by omega,
    decide_false, Bool.false_and]

/-- An element that is placed in the package. -/
def Placed.here (p : Placed) : Prop := ∃ e l st, p = .loc e l st

theorem needsOf_here : ∀ {ps : List Placed}, (∀ p ∈ ps, p.here) → needsOf ps = []
  | [], _ => rfl
  | p :: ps, h => by
    obtain ⟨e, l, st, rfl⟩ := h p (List.mem_cons_self ..)
    exact needsOf_here (ps := ps) fun q hq => h q (List.mem_cons_of_mem _ hq)

theorem faultsOf_here : ∀ {ps : List Placed}, (∀ p ∈ ps, p.here) → faultsOf ps = []
  | [], _ => rfl
  | p :: ps, h => by
    obtain ⟨e, l, st, rfl⟩ := h p (List.mem_cons_self ..)
    exact faultsOf_here (ps := ps) fun q hq => h q (List.mem_cons_of_mem _ hq)

theorem elemNo_lt (e : RElem) : elemNo e < 2 ^ 32 := Nat.mod_lt _ (by decide)

/-- Where no element faults, every read of a copy performs, in order. -/
theorem State.Alone.copyReads {s : State} (ha : s.Alone) (f : RElem → Nat) (es : List RElem) (loads : ∀ e ∈ es, e.op = .load) :
    s.copyReads (2 ^ 32) (es.map (fun e => .loc e (f e) false)) = (s, es.map (fun e => (e.idx, leNat (memRead e.n (f e) s.mem))), .done) := by
  have all : (es.map (fun e => Placed.loc e (f e) false)).filter (fun p => decide (elemNo p.elem < 2 ^ 32)) = es.map (fun e => .loc e (f e) false) :=
    List.filter_eq_self.2 fun p _ => decide_eq_true (elemNo_lt p.elem)
  have none : (es.map (fun e => Placed.loc e (f e) false)).filter (fun p => decide (2 ^ 32 ≤ elemNo p.elem)) = [] :=
    List.filter_eq_nil_iff.2 fun p _ => by simpa using elemNo_lt p.elem
  unfold State.copyReads
  rw [all, none, State.performPlaced_loads s true f ha es loads]
  simp [State.performPlaced]

/-- The datum of a number in a table of elements by their numbers. -/
theorem tabGet_map_getD (g : Nat → Nat) {k : Nat} (hk : g k = 0) : ∀ is : List Nat, (tabGet (is.map (fun i => (i, g i))) k).getD 0 = 0
  | [] => rfl
  | i :: is => by
    rw [List.map_cons, tabGet]
    split
    next same => exact same ▸ hk
    · exact tabGet_map_getD g hk is

/-- The first element with a number below 2^32 is the one whose index is the number. -/
theorem find_elemNo_ne (n k : Nat) : (List.range n).find? (fun i => i % 2 ^ 32 == k) ≠ some (2 ^ 32) := by
  intro found
  rw [List.find?_range_eq_some] at found
  obtain ⟨number, -, earlier⟩ := found
  have zero := earlier 0 (by decide)
  simp only [Nat.mod_self, Nat.zero_mod] at number zero
  rw [number] at zero
  exact Bool.noConfusion zero

theorem copyRead_addr {i : Nat} (hi : i < 2 ^ 64) : (copyRead 0 1 i).addr.toNat = i := by
  rw [copyRead, Nat.mul_one, show (0 : Word) + BitVec.ofNat 64 i = BitVec.ofNat 64 i from BitVec.zero_add _, BitVec.toNat_ofNat, Nat.mod_eq_of_lt hi]

theorem copyWrite_addr {dst : Word} {i : Nat} (hi : dst.toNat + i < 2 ^ 64) : (copyWrite dst 1 i 0).addr.toNat = dst.toNat + i := by
  rw [copyWrite, Nat.mul_one, BitVec.toNat_add, BitVec.toNat_ofNat, Nat.mod_eq_of_lt (show i < 2 ^ 64 by omega), Nat.mod_eq_of_lt hi]

/-- Every datum that such a copy has by a number is that of a byte below 2^32. -/
theorem State.Dark.copyDatum {s : State} (h : s.Dark (2 ^ 32)) (n : Nat) {k : Nat} (hk : k < 2 ^ 32) :
    (tabGet (((List.range n).map (copyRead 0 1)).map (fun e => (e.idx, leNat (memRead e.n e.addr.toNat s.mem)))) k).getD 0 = 0 := by
  have byte : leNat (memRead 1 (copyRead 0 1 k).addr.toNat s.mem) = 0 := h.read (by rw [copyRead_addr (by omega)]; omega)
  rw [List.map_map]
  exact tabGet_map_getD (fun i => leNat (memRead 1 (copyRead 0 1 i).addr.toNat s.mem)) byte (List.range n)

/-- No element's source is found at 2^32. -/
theorem copySource_ne {n : Nat} (hn : n < 2 ^ 64) (k : Nat) :
    ((((List.range n).map (copyRead 0 1)).map (fun e => Placed.loc e e.addr.toNat false)).find? (fun q => elemNo q.elem == k)).bind Placed.loc? ≠ some (2 ^ 32) := by
  rw [List.map_map, List.find?_map]
  intro found
  obtain ⟨p, first, place⟩ := Option.bind_eq_some_iff.1 found
  obtain ⟨i, least, rfl⟩ := Option.map_eq_some_iff.1 first
  have below := List.mem_range.1 (List.mem_of_find?_eq_some least)
  have at_ : i = 2 ^ 32 := (copyRead_addr (show i < 2 ^ 64 by omega)).symm.trans (Option.some.inj place)
  rw [at_] at least
  exact find_elemNo_ne n k least

/-- A copy from address 0 writes zeros only, whatever its length: the byte at 2^32, where it is read, has the number 0 of a byte that is zero. -/
theorem State.Dark.runCopy {s : State} {n : Nat} {dst : Word} (h : s.Dark (2 ^ 32)) (firm : isFirm s.hart.id = true) (ready : s.brdy = 0) (fresh : s.hart.answers = [])
    (forgot : s.hart.places = []) (first : s.hart.reissue = false) (go : s.hart.stopAt = none) (hdr : Hdr) (low : dst.toNat + n < 0x3000000000) :
    ∃ t, s.runCopy hdr false 1 dst 0 (List.range n) = .next t ∧ t.Dark (2 ^ 32) := by
  obtain ⟨reads, hreads⟩ : ∃ es, (List.range n).map (copyRead 0 1) = es := ⟨_, rfl⟩
  obtain ⟨stores, hstores⟩ : ∃ es, (List.range n).map (fun i => copyWrite dst 1 i 0) = es := ⟨_, rfl⟩
  have readAt : ∀ e ∈ reads, ∃ i < n, e = copyRead 0 1 i ∧ e.addr.toNat = i := fun e he => by
    obtain ⟨i, hi, rfl⟩ := List.mem_map.1 (hreads ▸ he)
    have below := List.mem_range.1 hi
    exact ⟨i, below, rfl, copyRead_addr (by omega)⟩
  have storeAt : ∀ e ∈ stores, ∃ i < n, e = copyWrite dst 1 i 0 ∧ e.addr.toNat = dst.toNat + i := fun e he => by
    obtain ⟨i, hi, rfl⟩ := List.mem_map.1 (hstores ▸ he)
    have below := List.mem_range.1 hi
    exact ⟨i, below, rfl, copyWrite_addr (by omega)⟩
  obtain ⟨ps, readsPlaced, plain⟩ := State.placeAll_plain (fun l => l) reads s fresh (forgot ▸ fun m hm => absurd hm List.not_mem_nil) fun e he qs => by
    obtain ⟨i, hi, -, addr⟩ := readAt e he
    exact State.translateVia_firm (s := s.placed qs) false _ firm ready (by omega)
  obtain ⟨qs, storesPlaced, -⟩ := State.placeAll_plain (fun l => l) stores (s.placed ps) fresh plain fun e he qs => by
    obtain ⟨i, hi, -, addr⟩ := storeAt e he
    exact State.translateVia_firm (s := (s.placed ps).placed qs) false _ firm ready (by omega)
  rw [State.placed_hart_id, State.placed_placed] at storesPlaced
  have dark : (s.placed qs).Dark (2 ^ 32) := ⟨h.alone.placed qs, h.wf, h.zero⟩
  have performed := dark.alone.copyReads (fun e => e.addr.toNat) reads fun e he => by
    obtain ⟨i, -, rfl, -⟩ := readAt e he
    rfl
  obtain ⟨rp, hrp⟩ : ∃ xs, reads.map (fun e => Placed.loc e e.addr.toNat false) = xs := ⟨_, rfl⟩
  obtain ⟨wp, hwp⟩ : ∃ xs, stores.map (fun e => Placed.loc e e.addr.toNat false) = xs := ⟨_, rfl⟩
  have readsHere : ∀ p ∈ rp, p.here := fun p hp => by
    obtain ⟨e, -, rfl⟩ := List.mem_map.1 (hrp ▸ hp)
    exact ⟨e, _, _, rfl⟩
  have here : ∀ p ∈ wp, p.here := fun p hp => by
    obtain ⟨e, -, rfl⟩ := List.mem_map.1 (hwp ▸ hp)
    exact ⟨e, _, _, rfl⟩
  have whole : rp.filter (fun p => decide (elemNo p.elem < 2 ^ 32)) = rp := List.filter_eq_self.2 fun p _ => decide_eq_true (elemNo_lt p.elem)
  have still : (s.placed qs).hart.stopAt = none := go
  have again : (s.placed qs).hart.reissue = false := first
  have asks : ∀ f, needsOf (wp.filter f) = [] := fun f => needsOf_here fun p hp => here p (List.mem_of_mem_filter hp)
  have faults : mergeFaults (List.range n) (faultsOf rp) (faultsOf wp) = [] := by simp [mergeFaults, faultsOf_here readsHere, faultsOf_here here]
  unfold State.runCopy
  dsimp only
  rw [hreads, hstores, readsPlaced]
  dsimp only
  rw [storesPlaced]
  dsimp only
  rw [hrp] at performed ⊢
  rw [hwp, faults]
  simp only [List.head?_nil, Option.map_none, Option.getD_none, Hart.stopOf, Hart.stopIn, still, ite_self, whole, performed, needsOf_here readsHere, needsOf_here here, asks, again, List.filter_nil, List.map_nil,
    ne_eq, not_true_eq_false, Bool.false_and, Bool.false_eq_true, if_false, if_true]
  refine ⟨_, rfl, dark.copyWrites _ fun x hx => ?_⟩
  obtain ⟨p, hp, rfl⟩ := List.mem_map.1 hx
  obtain ⟨e, he, rfl⟩ := List.mem_map.1 (hwp ▸ List.mem_of_mem_filter hp)
  obtain ⟨i, -, rfl, -⟩ := storeAt e he
  refine ⟨_, _, _, rfl, rfl, rfl, ?_, ?_⟩
  · rw [← hreads]
    exact dark.copyDatum n (elemNo_lt _)
  · rw [← hrp, ← hreads]
    exact copySource_ne (by omega) _

/-! ### The state in which the statement fails -/

/-- A firmware core about to copy `n` bytes from address 0 to address 2^33, with one byte of memory that is not zero, at 2^32. -/
def wideCopy (n : Nat) : State :=
  { State.reset with hart := { Hart.init 4096 with vownV := true, vl := n, vtype := 1, s := (Vector.replicate 32 0).set 1 (2 ^ 33) }, mem := [(2 ^ 32, 1)] }

theorem wideCopy_wf (n : Nat) : Memory.wf (wideCopy n).mem = true := by
  show Memory.wf [(2 ^ 32, 1)] = true
  decide

theorem wideCopy_active (n : Nat) : (wideCopy n).hart.activeMem 0 (wideCopy n).hart.vl = List.range n := by
  have all : ∀ i, ((wideCopy n).hart.maskBit 0 i) = true := fun i => rfl
  show (((List.range n).filter (fun i => decide (0 ≤ i) && (wideCopy n).hart.maskBit 0 i)).filter (fun _ => true)) = List.range n
  rw [List.filter_true]
  exact List.filter_eq_self.2 fun i _ => all i

/-- An interlock entry made changes nothing else of the issuing hart (R172). -/
theorem State.openLock_own (s : State) (ls : List (Nat × Nat)) : ∃ k, s.openLock s.hart.id ls = { s with hart := { s.hart with lock := k, opened := true } } := by
  unfold State.openLock
  simp only [State.getHart_own, State.setHart, if_true]
  split
  next was => exact ⟨_, congrArg (fun o => ({ s with hart := { s.hart with lock := _, opened := o } } : State)) was⟩
  · exact ⟨_, rfl⟩

theorem State.engineLeave_mem (s : State) : s.engineLeave.mem = s.mem := by
  unfold State.engineLeave
  dsimp only
  split <;> rfl

/-- A copy of a hart whose cluster's engine is idle runs at once (R205). -/
theorem State.startCopy_idle {s t : State} {hdr : Hdr} {trims : Bool} {n : Nat} {dst src : Word} {is : List Nat} (idle : s.clusters = [])
    (ran : (s.openLock s.hart.id (linesOf [(src, s.hart.vl * n), (dst, s.hart.vl * n)])).runCopy hdr trims n dst src is = .next t) :
    s.startCopy hdr trims n dst src is = .next t.engineLeave := by
  have none : (s.getCluster (clusterOf s.hart.id)).copies = [] := by
    rw [State.getCluster, idle]
    rfl
  have free : ∀ es, s.copyBlocks s.hart.id es = false := fun es => by simp [State.copyBlocks, State.copyBusy, none]
  unfold State.startCopy
  simp only [free, State.throughEngine, none, ran, List.any_nil, List.head?_nil, List.length_nil, Option.map_none, Option.getD_none, Bool.false_eq_true, if_false, if_true]
  rfl

/-- `vcopy` of bytes, which no address misaligns (R210). -/
theorem exec_vcopy_bytes {s t : State} {d a : Reg5} {m : Reg3} {j : BitVec 1} (hm : s.hart.mayJoin .engine j = true) (bytes : s.hart.sew = 8)
    (started : (s.joined .engine j []).startCopy (vhdr (wVcopy d a m j) .engine j) false 1 (s.hart.gs d) (s.hart.gs a) (s.hart.activeMem m s.hart.vl) = .next t) :
    exec (.vcopy d a m j) s = .next (t.vecRetired 4) := by
  have hdr := vhdr_vector (wVcopy d a m j) .engine j
  have joined := s.joined_hart .engine j []
  have width : (s.joined .engine j []).hart.sew = 8 := by rw [joined]; exact bytes
  have regs : ∀ r, (s.joined .engine j []).hart.gs r = s.hart.gs r := fun r => by rw [joined]; rfl
  have active : (s.joined .engine j []).hart.activeMem m (s.joined .engine j []).hart.vl = s.hart.activeMem m s.hart.vl := by rw [joined]; rfl
  have aligned : ∀ as, copyAligned 1 as = .ok () := fun as => by simp [copyAligned, Nat.mod_one]
  show execVcopy d a m j s = _
  unfold execVcopy copyRun
  refine (hdr.runs (e := .next t) hm ?_).trans (congrArg Host.Outcome.next (hdr.finish_next _ _))
  simp only [width, regs, active, aligned, started, require]
  rfl

/-- The model's run of the copy leaves the last byte of the destination zero. -/
theorem exec_wideCopy {n : Nat} (hn : n < 2 ^ 34) : ∃ t, exec (.vcopy 1 0 0 0) (wideCopy n) = .next t ∧ memGet t.mem (2 ^ 33 + 2 ^ 32) = 0 := by
  let J := (wideCopy n).joined .engine 0 []
  obtain ⟨k, lock⟩ := J.openLock_own (linesOf [(0, J.hart.vl * 1), (2 ^ 33, J.hart.vl * 1)])
  have dark : ({ J with hart := { J.hart with lock := k, opened := true } } : State).Dark (2 ^ 32) := by
    refine ⟨⟨rfl, rfl, rfl, rfl, rfl, rfl⟩, wideCopy_wf n, fun l hl => ?_⟩
    show memGet [(2 ^ 32, 1)] l = 0
    rw [memGet, if_neg hl.symm]
    rfl
  have low : (2 ^ 33 : Word).toNat + n < 0x3000000000 := by
    show 2 ^ 33 + n < 0x3000000000
    omega
  obtain ⟨t, ran, after⟩ := dark.runCopy rfl rfl rfl rfl rfl rfl (vhdr (wVcopy 1 0 0 0) .engine 0) low
  rw [← lock] at ran
  refine ⟨t.engineLeave.vecRetired 4, exec_vcopy_bytes rfl rfl ?_, ?_⟩
  · rw [wideCopy_active]
    exact State.startCopy_idle rfl ran
  · show memGet t.engineLeave.mem _ = 0
    rw [State.engineLeave_mem]
    exact after.zero _ (by decide)

/-- Bytes written leave memory in its canonical form. -/
theorem Memory.memPuts_wf (dst : Nat → Nat) (bs : Nat → List Byte) : ∀ (is : List Nat) {m : List Host.Cell}, Memory.wf m = true →
    Memory.wf (is.foldl (fun m i => memPut m (dst i) (bs i)) m) = true
  | [], _, h => h
  | i :: is, _, h => memPuts_wf dst bs is (Memory.memPut_wf (dst i) (bs i) h)

/-- What the statement says of the last byte's destination: it holds that byte. -/
theorem copied_last {m : List Host.Cell} (hm : Memory.wf m = true) (src dst : Nat → Nat) (n : Nat) :
    memGet ((List.range (n + 1)).foldl (fun mem i => memPut mem (dst i) (memRead 1 (src i) m)) m) (dst n) = memGet m (src n) := by
  have wf := Memory.memPuts_wf dst (fun i => memRead 1 (src i) m) (List.range n) hm
  rw [List.range_succ, List.foldl_append, List.foldl_cons, List.foldl_nil, memGet_memPut wf, memRead_length, if_pos (by omega), memRead_byte hm, Nat.sub_self]
  rfl

/-- An access of a byte below 2^34 by the core is placed at its own address, where no write is buffered. -/
theorem wideCopy_reaches (n : Nat) (k : AccK) {va : Word} {l : Nat} (at_ : va.toNat = l) (low : l < 2 ^ 34) : ((wideCopy n).joined .engine 0 []).reaches false k 1 va l := by
  refine ⟨⟨false, ?_⟩, .inl (by omega), rfl, rfl, rfl, rfl⟩
  rw [State.translateVia_firm false k rfl rfl (by omega), at_]

/-- Refutes O45, in its clause of `vcopy`: of a copy of 2^32 + 1 bytes (the statement puts no bound on VL), the last has the element number of the first, whose value the model writes for it. -/
theorem not_copiesMoveMemory : ¬ Obligations.CopiesMoveMemory := by
  intro h
  obtain ⟨n, hn⟩ : ∃ n, n = 2 ^ 32 := ⟨_, rfl⟩
  obtain ⟨copies, -⟩ := h (wideCopy (n + 1)) 1 0 0 0 (fun i => i) (fun i => 2 ^ 33 + i)
  have active := wideCopy_active (n + 1)
  have width : (wideCopy (n + 1)).hart.sew = 8 := rfl
  have dst : (wideCopy (n + 1)).hart.gs 1 = 2 ^ 33 := rfl
  have src : (wideCopy (n + 1)).hart.gs 0 = 0 := rfl
  simp only [active, width, dst, src] at copies
  obtain ⟨sync, -⟩ := copies rfl rfl rfl rfl (by decide) (fun i _ => ⟨Nat.mod_one _, Nat.mod_one _⟩)
  obtain ⟨⟨t, ran, mem, -⟩, -⟩ := sync (fun i hi => by
      have below := List.mem_range.1 hi
      have low : (2 ^ 33 : Word).toNat + i < 2 ^ 34 := by
        show 2 ^ 33 + i < 2 ^ 34
        omega
      exact ⟨wideCopy_reaches _ _ (copyRead_addr (i := i) (by omega)) (by omega), wideCopy_reaches _ _ (copyWrite_addr (dst := 2 ^ 33) (i := i) (by omega)) low⟩)
    (fun i hi i' _ => by
      have below := List.mem_range.1 hi
      omega) rfl (wideCopy_wf _) rfl rfl rfl
  obtain ⟨u, done, zero⟩ := exec_wideCopy (n := n + 1) (by omega)
  have same : t = u := Host.Outcome.next.inj (ran.symm.trans done)
  have last := copied_last (wideCopy_wf (n + 1)) (fun i => i) (fun i => 2 ^ 33 + i) n
  rw [← mem, same, hn, zero] at last
  exact absurd last (by decide)

end Sys2Proof.Machine
end

section
/-! PROOFS. Row addresses of tokens through a block table (09 R232, R233). -/

namespace Sys2Proof.Machine

open Sys2Proof

/-! ### What `vxlt` comes to where every table entry performs (R233) -/

/-- The table entries that `vxlt` reads for the elements `is`: those of the tokens in the group at `b` whose block is below NBLK of the record `r` (R233). -/
def Hart.tableElems (h : Hart) (b : Reg5) (r : Nat) (is : List Nat) : List RElem :=
  (is.filter (fun i => decide (h.elem b.toNat 64 i / 32 < field r 0x10 8))).map
    (fun i => ⟨i, BitVec.ofNat 64 (field r 0x00 8 + 8 * (h.elem b.toNat 64 i / 32)), 8, .load, 0, 0⟩)

/-- The row addresses of the tokens that hart `h` has in the group at `b`, by the entries `ds` that were read, in the group at `d` of a hart, and its marks in m7 (R233). -/
def Hart.takesRows (h g : Hart) (d b : Reg5) (r : Nat) (is : List Nat) (ds : List (Nat × Nat)) : Hart :=
  (g.putElems d.toNat 64 (is.map (fun i => (i, rowAddr (tokenBase ds i) (field r 0x08 8) (h.elem b.toNat 64 i))))).pmBits 7 (is.map (fun i => (i, tokenBase ds i == 0)))

/-- Where every table entry has performed, `vxlt` writes its rows and their marks. -/
theorem State.runXlt_all {s t : State} {h : Hart} {hd : Hdr} {so : List VOpd} {dst : VOpd} {b : Reg5} {n r : Nat} {is : List Nat} {ds : List (Nat × Nat)}
    (vl : s.hart.vl = n) (ran : s.runElems hd .translate true false n (h.tableElems b r is) = .all t ds) (plain : ∀ q ∈ so, t.hart.stream q.reg = none)
    (group : t.hart.stream dst.reg = none) (width : dst.w = 64) :
    s.runXlt hd false so dst (h.elem b.toNat 64) r is = .next (t.upd (fun g => h.takesRows g dst.reg b r is ds)) := by
  subst vl
  unfold Hart.tableElems at ran
  unfold State.runXlt
  simp only [Bool.true_or, decide_true, if_true, ran, State.putResult_plain hd _ _ _ plain group, width, List.filter_true]
  rfl

/-- Joining a convoy and keeping what another remembers of an instruction change nothing else of a hart. -/
theorem State.joined_kept {α : Type} {s s1 : State} {u : UnitClass} {j : BitVec 1} {sw : List Reg5} (kept : s1.hart = (s.joined u j sw).hart.keeping s1.hart) (f : Hart → α)
    (hf : ∀ c b g, f ((s.hart.going b c).keeping g) = f s.hart) : f s1.hart = f s.hart := by
  rw [State.joined_hart] at kept
  exact (congrArg f kept).trans (hf _ _ _)

/-- `vxlt` on plain operands whose record is read and keeps Table 9-8, and whose table entries all perform. -/
theorem exec_vxlt {s s1 t : State} {d a b : Reg5} {m : Reg3} {j : BitVec 1} {r : Nat} {ds : List (Nat × Nat)} (hm : s.hart.mayJoin .vlsu j = true) (hsew : s.hart.sew = 64)
    (hok : s.hart.operandsOk [s.hart.opd b] [s.hart.opd d] = true) (table : (s.joined .vlsu j []).readTable (vhdr (wVxlt d a b m j) .vlsu j) 0 (s.gs a) = .ok s1 r)
    (kept : s1.hart = (s.joined .vlsu j []).hart.keeping s1.hart)
    (ran : s1.runElems (vhdr (wVxlt d a b m j) .vlsu j) .translate true false s.hart.vl (s.hart.tableElems b r (s.hart.activeMem m s.hart.vl)) = .all t ds)
    (streams : t.hart.streams = s.hart.streams) :
    exec (.vxlt d a b m j) s = .next ((t.upd (fun g => s.hart.takesRows g d b r (s.hart.activeMem m s.hart.vl) ds)).vecRetired 4) := by
  have srcs := Hart.operandsOk_srcs hok
  have dsts := Hart.operandsOk_dsts hok
  have parts : partialOverlaps [s.hart.opd b] [s.hart.opd d] = false := by
    simp only [Hart.operandsOk, Bool.and_eq_true, Bool.not_eq_true'] at hok
    exact hok.2
  have source : s.hart.stream b = none := Hart.plain_stream srcs (List.mem_singleton_self _)
  have group : s.hart.stream d = none := Hart.plain_stream dsts (List.mem_singleton_self _)
  have bound : ∀ q, t.hart.stream q = s.hart.stream q := fun q => by rw [Hart.stream, Hart.stream, streams]
  have vl := State.joined_kept kept Hart.vl fun _ _ _ => rfl
  have opd := State.joined_kept kept (·.opd d) fun _ _ _ => rfl
  have active := State.joined_kept kept (·.activeMem m s.hart.vl) fun _ _ _ => rfl
  have sound := (State.joined_kept kept Hart.sound fun _ _ _ => rfl).trans (Hart.mayJoin_sound hm)
  have plain := (State.joined_kept kept (·.stream b) fun _ _ _ => rfl).trans source
  have tokens : s1.hart.srcVal [s.hart.opd b] [[]] 0 = s.hart.elem b.toNat 64 := funext fun i => by
    rw [Hart.srcVal_plain _ _ _ 0 i rfl plain, ← hsew]
    exact State.joined_kept kept (·.elem b.toNat s.hart.sew i) fun _ _ _ => rfl
  have joined := s.joined_hart .vlsu j []
  have operand : ∀ q, (s.joined .vlsu j []).hart.opd q = s.hart.opd q := fun q => by rw [joined]; rfl
  have address : (s.joined .vlsu j []).hart.gs a = s.gs a := s.joined_gs .vlsu j [] a
  have legal : ((s.joined .vlsu j []).hart.sew != 64) = false := by rw [joined]; exact bne_eq_false_iff_eq.2 hsew
  have four := stepFour_plain (vhdr (wVxlt d a b m j) .vlsu j) (s.joined .vlsu j []).hart false (m != 0) [s.hart.opd b] [s.hart.opd d] (by rw [joined]; exact srcs)
    (by rw [joined]; exact dsts) rfl
  have fetched := State.fetchSources_plain s1 s.hart.vl sound [s.hart.opd b] [] (List.forall_mem_singleton.2 plain)
  have runs := State.runXlt_all (so := [s.hart.opd b]) (dst := s.hart.opd d) vl ran (List.forall_mem_singleton.2 ((bound b).trans source)) ((bound d).trans group) hsew
  have hv := vhdr_vector (wVxlt d a b m j) .vlsu j
  show execVxlt d a b m j s = _
  unfold execVxlt xltOp
  refine (hv.runs (e := .next (t.upd (fun g => s.hart.takesRows g d b r (s.hart.activeMem m s.hart.vl) ds))) hm ?_).trans (congrArg Host.Outcome.next (hv.finish_next _ _))
  simp only [operand, address, State.joined_vl, legal, parts, four, table, fetched, opd, vl, active, List.map_nil, List.nil_append, List.map_singleton, tokens, runs]
  rfl

/-- Retirement takes no free value. -/
theorem State.vecRetired_free (s : State) (len : Word) : (s.vecRetired len).free = s.free := rfl

/-! ### The counterexample -/

/-- `strayBuffer`, in which hart 4097 has a store to location 0 buffered while a record without one stands under its number, with a strip of one token, 0, and at location 32, where s1 points,
a record of a block table of one entry at location 0. No run reaches it, but the statement is about every state. -/
def strayTable : State :=
  { strayBuffer with hart := { Hart.init 4096 with vownV := true, vl := 1, vtype := 0x0004, s := (Vector.replicate 32 0).set 1 32 }, mem := [(48, 1)] }

/-- The state in which the record has been read: the hart remembers where it lies. -/
def strayRead : State := (strayTable.joined .vlsu 0 []).noted 4096 0 .read 32 (.loc 32 false)

theorem strayTable_record : (strayTable.joined .vlsu 0 []).readRecord 0 32 32 = .ok strayRead (2 ^ 128) := rfl

/-- The one table entry, at location 0. -/
def entryElem : RElem := ⟨0, 0, 8, .load, 0, 0⟩

/-- The state in which the entry performs: `vxlt` has made its interlock entry and placed it. -/
def strayEntry : State := ((strayRead.openLock 4096 (Route.translate.lines [entryElem])).placeAll 4096 .translate [entryElem]).1

/-- The store that stands in the way may have performed or not; a free value is taken for it. -/
theorem strayEntry_settled : (strayEntry.settleVector 4096 0 8 0).free = 1 ∧ (strayEntry.settleVector 4096 0 8 0).bad 0 8 = false ∧
    (strayEntry.settleVector 4096 0 8 0).badCopies = [] ∧ (strayEntry.settleVector 4096 0 8 0).hart = strayEntry.hart := by
  have settled : strayEntry.settleVector 4096 0 8 0 = if Config.drained 0 = true then strayEntry.took.drainS 4097 1 else strayEntry.took := rfl
  rw [settled]
  split
  · exact ⟨rfl, rfl, rfl, rfl⟩
  · exact ⟨rfl, rfl, rfl, rfl⟩

/-- The entry is placed at location 0, and performs. -/
theorem strayEntry_ran (hd : Hdr) : ∃ ds, strayRead.runElems hd .translate true false 1 [entryElem] = .all (strayEntry.settleVector 4096 0 8 0) ds := by
  obtain ⟨-, clean, copies, -⟩ := strayEntry_settled
  have placed : strayRead.runElems hd .translate true false 1 [entryElem] = strayEntry.runPlaced hd .translate true false 1 [entryElem] [.loc entryElem 0 false] := rfl
  exact ⟨_, placed.trans (State.runPlaced_all rfl rfl rfl (State.performPlaced_load rfl clean copies))⟩

theorem strayTable_active : strayTable.hart.activeMem 0 strayTable.hart.vl = [0] := by decide

theorem strayTable_token (i : Nat) : strayTable.hart.elem (0 : Reg5).toNat 64 i = 0 := Hart.elem_zero rfl _ _ _

theorem strayTable_elems : strayTable.hart.tableElems 0 (2 ^ 128) [0] = [entryElem] := by
  unfold Hart.tableElems
  simp only [strayTable_token]
  rfl

/-- `vxlt` retires with a free value taken. -/
theorem exec_vxlt_strayTable : ∃ t, exec (.vxlt 0 1 0 0 0) strayTable = .next t ∧ t.free = 1 := by
  obtain ⟨free, -, -, same⟩ := strayEntry_settled
  obtain ⟨ds, ran⟩ := strayEntry_ran (vhdr (wVxlt 0 1 0 0 0) .vlsu 0)
  have table : (strayTable.joined .vlsu 0 []).readTable (vhdr (wVxlt 0 1 0 0 0) .vlsu 0) 0 (strayTable.gs 1) = .ok strayRead (2 ^ 128) :=
    State.readTable_sound rfl strayTable_record rfl (by decide) rfl rfl
  exact ⟨_, exec_vxlt rfl rfl rfl table rfl (by rw [strayTable_active, strayTable_elems]; exact ran) (by rw [same]; rfl), (State.vecRetired_free _ _).trans ((State.upd_free _ _).trans free)⟩

/-- Refutes O47, in its clause of `vxlt`: the read of the table entry at location 0 takes a free value, which the statement has stay. -/
theorem not_tableTranslationResults : ¬ Obligations.TableTranslationResults := by
  intro h
  obtain ⟨t, ran, one⟩ := exec_vxlt_strayTable
  obtain ⟨⟨u, claimed⟩, -⟩ := h strayTable strayRead 0 1 0 0 0 (2 ^ 128) (fun _ => 0) rfl rfl rfl rfl rfl rfl rfl strayTable_record rfl rfl (by decide) rfl rfl (fun i _ _ => by
    simp only [strayTable_token]
    exact ⟨⟨false, rfl⟩, .inl (by decide), rfl, rfl, rfl, rfl⟩)
  have same := congrArg State.free (Host.Outcome.next.inj (ran.symm.trans claimed))
  exact Nat.one_ne_zero (one.symm.trans same)

end Sys2Proof.Machine
end

section
/-! PROOFS. What one post does to a race slot (10 R244, R245). -/

namespace Sys2Proof.Machine

open Sys2Proof

/-! ### The order of scores -/

/-- Values that are no NaN are equal where their keys are. -/
theorem FVal.eq_eq_key {u v : FVal} (hu : u ≠ .nan) (hv : v ≠ .nan) : u.eq v = decide (u.key = v.key) := by
  cases u with
  | nan => exact absurd rfl hu
  | inf x =>
    cases v with
    | nan => exact absurd rfl hv
    | inf y => cases x <;> cases y <;> simp [FVal.eq, FVal.key]
    | num n m e => cases x <;> simp [FVal.eq, FVal.key]
  | num n m e =>
    cases v with
    | nan => exact absurd rfl hv
    | inf y => cases y <;> simp [FVal.eq, FVal.key]
    | num n' m' e' =>
      have pos : (2 : ℚ) ^ min e e' ≠ 0 := by positivity
      have scaled : ((sgnInt n m * 2 ^ (e - min e e').toNat : Int) : ℚ) * 2 ^ min e e' = ((sgnInt n' m' * 2 ^ (e' - min e e').toNat : Int) : ℚ) * 2 ^ min e e' ↔ _ :=
        mul_left_inj' pos
      rw [mantissa_lowered _ (min_le_left e e'), mantissa_lowered _ (min_le_right e e'), Int.cast_inj] at scaled
      simp [FVal.eq, FVal.key, scaled]

/-- A comparison with a NaN is false. -/
theorem FVal.lt_nan (v : FVal) : v.lt .nan = false := by
  cases v <;> rfl

theorem FVal.nan_lt (v : FVal) : FVal.nan.lt v = false := rfl

/-- Nothing is below −infinity. -/
theorem FVal.lt_negInf (v : FVal) : v.lt (.inf true) = false := by
  cases v with
  | nan => rfl
  | inf n => exact Bool.and_false n
  | num n m e => rfl

/-- The order of values is asymmetric, NaN included. -/
theorem FVal.lt_asymm {u v : FVal} (h : u.lt v = true) : v.lt u = false := by
  by_cases hu : u = .nan
  · rw [hu, FVal.lt_nan]
  · by_cases hv : v = .nan
    · rw [hv, FVal.nan_lt]
    · rw [FVal.lt_eq_key hu hv, decide_eq_true_iff] at h
      rw [FVal.lt_eq_key hv hu, decide_eq_false_iff_not]
      exact h.asymm

theorem FVal.lt_irrefl (v : FVal) : v.lt v = false := by
  by_contra h
  rw [Bool.not_eq_false] at h
  exact Bool.false_ne_true ((FVal.lt_asymm h).symm.trans h)

/-- Of values that rank equal, neither is below the other. -/
theorem scoreEq_not_lt {u v : FVal} (h : scoreEq u v = true) : u.lt v = false := by
  by_cases hu : u = .nan
  · rw [hu, FVal.nan_lt]
  · by_cases hv : v = .nan
    · rw [hv, FVal.lt_nan]
    · simp only [scoreEq, FVal.isNan_eq, hu, hv, decide_false, Bool.false_and, Bool.false_or, FVal.eq_eq_key hu hv, decide_eq_true_iff] at h
      rw [FVal.lt_eq_key hu hv, decide_eq_false_iff_not, h]
      exact lt_irrefl _

/-- A score that ranks above another is not below it (R244). -/
theorem scoreAbove_not_lt {u v : FVal} (h : scoreAbove u v = true) : u.lt v = false := by
  simp only [scoreAbove, Bool.and_eq_true, Bool.or_eq_true] at h
  rcases h.2 with nan | below
  · rw [FVal.isNan_eq, decide_eq_true_iff] at nan
    rw [nan, FVal.lt_nan]
  · exact FVal.lt_asymm below

/-! ### TOP: entries in their order (R244) -/

/-- The place of an entry in TOP: z' descending, then j ascending. -/
def TopEntry.rank (u : TopEntry) : (ℤ ×ₗ ℚ)ᵒᵈ ×ₗ ℕ := toLex (OrderDual.toDual (FName.f32.read u.z).key, u.j)

/-- The score of an entry is a number or an infinity. -/
def TopEntry.scored (u : TopEntry) : Prop := (FName.f32.read u.z).isNan = false

section Order

variable {u v w : TopEntry}

theorem TopEntry.scored.ne_nan (h : u.scored) : FName.f32.read u.z ≠ .nan := fun e => by
  rw [TopEntry.scored, e] at h
  exact Bool.false_ne_true h.symm

theorem TopEntry.leads_eq_rank (hu : u.scored) (hv : v.scored) : u.leads v = decide (u.rank ≤ v.rank) := by
  simp only [TopEntry.leads, FVal.lt_eq_key hv.ne_nan hu.ne_nan, FVal.eq_eq_key hu.ne_nan hv.ne_nan, TopEntry.rank, Prod.Lex.toLex_le_toLex, OrderDual.toDual_lt_toDual,
    OrderDual.toDual_inj, Bool.decide_or, Bool.decide_and]

/-- The test by which `topInsert` puts an entry before another. -/
theorem TopEntry.before_eq_rank (hu : u.scored) (hv : v.scored) :
    ((FName.f32.read v.z).lt (FName.f32.read u.z) || ((FName.f32.read u.z).eq (FName.f32.read v.z) && decide (u.j < v.j))) = decide (u.rank < v.rank) := by
  simp only [FVal.lt_eq_key hv.ne_nan hu.ne_nan, FVal.eq_eq_key hu.ne_nan hv.ne_nan, TopEntry.rank, Prod.Lex.toLex_lt_toLex, OrderDual.toDual_lt_toDual,
    OrderDual.toDual_inj, Bool.decide_or, Bool.decide_and]

theorem TopEntry.leads_refl (hu : u.scored) : u.leads u = true := by
  rw [TopEntry.leads_eq_rank hu hu, decide_eq_true_iff]

theorem TopEntry.leads_trans (hu : u.scored) (hv : v.scored) (hw : w.scored) (huv : u.leads v = true) (hvw : v.leads w = true) : u.leads w = true := by
  rw [TopEntry.leads_eq_rank hu hv, decide_eq_true_iff] at huv
  rw [TopEntry.leads_eq_rank hv hw, decide_eq_true_iff] at hvw
  rw [TopEntry.leads_eq_rank hu hw, decide_eq_true_iff]
  exact huv.trans hvw

/-- An entry that leads another has no lower score. -/
theorem TopEntry.leads_not_lt (h : u.leads v = true) : (FName.f32.read u.z).lt (FName.f32.read v.z) = false := by
  simp only [TopEntry.leads, Bool.or_eq_true, Bool.and_eq_true] at h
  rcases h with above | ⟨level, -⟩
  · exact FVal.lt_asymm above
  · exact scoreEq_not_lt (by rw [scoreEq, level, Bool.or_true])

end Order

/-- `topInsert` puts the entry somewhere among the others. -/
theorem topInsert_split (e : TopEntry) (us : List TopEntry) : ∃ as bs, us = as ++ bs ∧ topInsert e us = as ++ e :: bs := by
  induction us with
  | nil => exact ⟨[], [], rfl, rfl⟩
  | cons u us ih =>
    obtain ⟨as, bs, split, put⟩ := ih
    rw [topInsert]
    split
    · exact ⟨[], u :: us, rfl, rfl⟩
    · exact ⟨u :: as, bs, by rw [split, List.cons_append], by rw [put, List.cons_append]⟩

theorem topInsert_perm (e : TopEntry) (us : List TopEntry) : (topInsert e us).Perm (e :: us) := by
  obtain ⟨as, bs, rfl, put⟩ := topInsert_split e us
  rw [put]
  exact List.perm_middle

/-- An entry put into a list in the order of TOP leaves it in that order. -/
theorem topInsert_pairwise {e : TopEntry} {us : List TopEntry} (he : e.scored) (hus : ∀ u ∈ us, u.scored) (sorted : us.Pairwise (fun u v => u.leads v = true)) :
    (topInsert e us).Pairwise (fun u v => u.leads v = true) := by
  induction us with
  | nil => exact List.pairwise_singleton _ _
  | cons u us ih =>
    obtain ⟨first, rest⟩ := List.pairwise_cons.1 sorted
    obtain ⟨hu, hus⟩ := List.forall_mem_cons.1 hus
    simp only [topInsert, TopEntry.before_eq_rank he hu, decide_eq_true_iff]
    split
    next before =>
      have lead : e.leads u = true := by rw [TopEntry.leads_eq_rank he hu, decide_eq_true_iff]; exact before.le
      exact List.pairwise_cons.2 ⟨List.forall_mem_cons.2 ⟨lead, fun v hv => TopEntry.leads_trans he hu (hus v hv) lead (first v hv)⟩, sorted⟩
    next before =>
      have lead : u.leads e = true := by rw [TopEntry.leads_eq_rank hu he, decide_eq_true_iff]; exact not_lt.1 before
      exact List.pairwise_cons.2 ⟨fun v hv => (List.mem_cons.1 ((topInsert_perm e us).mem_iff.1 hv)).elim (fun same => same ▸ lead) (first v), ih hus rest⟩

/-- Of a list in the order of TOP with an entry put in, all but the last have no lower score than the last entry of the list had. -/
theorem topInsert_take_not_lt {e p q : TopEntry} {us : List TopEntry} (he : e.scored) (hus : ∀ u ∈ us, u.scored) (sorted : us.Pairwise (fun u v => u.leads v = true))
    (last : us.getLast? = some p) (hq : q ∈ (topInsert e us).take us.length) : (FName.f32.read q.z).lt (FName.f32.read p.z) = false := by
  obtain ⟨us, rfl⟩ := List.getLast?_eq_some_iff.1 last
  have before : ∀ u ∈ us ++ [p], u.leads p = true := by
    refine List.forall_mem_append.2 ⟨fun u hu => (List.pairwise_append.1 sorted).2.2 u hu p (List.mem_singleton_self p), List.forall_mem_singleton.2 ?_⟩
    exact TopEntry.leads_refl (hus p (List.mem_append_right us (List.mem_singleton_self p)))
  obtain ⟨as, bs, split, put⟩ := topInsert_split e (us ++ [p])
  have ranked := topInsert_pairwise he hus sorted
  rw [put] at hq ranked
  refine TopEntry.leads_not_lt ?_
  rcases List.eq_nil_or_concat bs with rfl | ⟨bs, r, rfl⟩
  · rw [split, List.append_nil, List.take_left] at hq
    exact before q (by rw [split, List.append_nil]; exact hq)
  · rw [List.concat_eq_append, ← List.append_assoc] at split
    obtain ⟨rfl, same⟩ := List.append_inj' split rfl
    obtain rfl : p = r := List.singleton_inj.1 same
    rw [List.concat_eq_append, ← List.cons_append, ← List.append_assoc] at hq ranked
    rw [show (as ++ bs ++ [p]).length = (as ++ e :: bs).length by simp, List.take_left] at hq
    exact (List.pairwise_append.1 ranked).2.2 q hq p (List.mem_singleton_self p)

/-! ### A post (R244) -/

/-- The entry that a post of logit `z` at index `j` with noise `g` makes. -/
def RaceSlot.entry (x : RaceSlot) (z j g : Nat) : TopEntry :=
  ⟨code32 (x.penalised z j), j, code32 (addR .rne (divR .rne (x.penalised z j) (recF32 x.cap 0x18)) (FName.f32.read g))⟩

/-- The entry of a post takes the place of the best one: it ranks above it, or equal with a lower index. -/
def TopEntry.beats (e b : TopEntry) : Bool :=
  scoreAbove (FName.f32.read e.g) (FName.f32.read b.g) || (scoreEq (FName.f32.read e.g) (FName.f32.read b.g) && decide (e.j < b.j))

theorem TopEntry.beats_not_lt {e b : TopEntry} (h : e.beats b = true) : (FName.f32.read e.g).lt (FName.f32.read b.g) = false := by
  simp only [TopEntry.beats, Bool.or_eq_true, Bool.and_eq_true] at h
  exact h.elim scoreAbove_not_lt fun level => scoreEq_not_lt level.1

/-- A slot still takes a post of a shard and an index: the race runs, the shard races, the index names a token. -/
def RaceSlot.takes (x : RaceSlot) (sh j : Nat) : Prop := x.state = 1 ∧ sh < recNshard x.cap ∧ x.left.getLsbD sh = false ∧ j ≠ 0xFFFFFFFF

section Post

variable {x : RaceSlot} {sh z j g : Nat}

theorem RaceSlot.takes_iff : x.takes sh j ↔ (decide (x.state ≠ 1) || decide (recNshard x.cap ≤ sh) || x.left.getLsbD sh || j == 0xFFFFFFFF) = false := by
  simp only [RaceSlot.takes, Bool.or_eq_false_iff, decide_eq_false_iff_not, not_not, not_le, beq_eq_false_iff_ne, ne_eq, and_assoc]

theorem RaceSlot.post_refused (h : ¬x.takes sh j) : x.post sh z j g = { x with drop := true } := by
  rw [RaceSlot.takes_iff, Bool.not_eq_false] at h
  exact if_pos h

theorem RaceSlot.post_nan (h : x.takes sh j) (nan : (FName.f32.read z).isNan = true) : x.post sh z j g = { x with nanp := true } := by
  rw [RaceSlot.takes_iff] at h
  unfold RaceSlot.post
  rw [if_neg (by rw [h]; exact Bool.false_ne_true), if_pos nan]

/-- A post that counts in a race without truncation. -/
theorem RaceSlot.post_best (h : x.takes sh j) (num : (FName.f32.read z).isNan = false) (hK : recK x.cap = 0) :
    ∃ dn up, x.post sh z j g = { x with eval := x.eval + 1, sdn := dn, sup := up, best := if (x.entry z j g).beats x.best then x.entry z j g else x.best } := by
  rw [RaceSlot.takes_iff] at h
  unfold RaceSlot.post
  rw [if_neg (by rw [h]; exact Bool.false_ne_true), if_neg (by rw [num]; exact Bool.false_ne_true)]
  by_cases above : (x.entry z j g).beats x.best = true
  · simp only [if_pos above, hK, lt_irrefl, if_false]
    unfold TopEntry.beats RaceSlot.entry at above
    simp only [above, if_true]
    split
    · exact ⟨_, _, rfl⟩
    · exact ⟨_, _, rfl⟩
  · simp only [if_neg above, hK, lt_irrefl, if_false]
    unfold TopEntry.beats RaceSlot.entry at above
    simp only [above]
    split
    · exact ⟨_, _, rfl⟩
    · exact ⟨_, _, rfl⟩

/-- A post that counts in a race with truncation. -/
theorem RaceSlot.post_top (h : x.takes sh j) (num : (FName.f32.read z).isNan = false) (hK : 0 < recK x.cap) :
    x.post sh z j g = { x with eval := x.eval + 1, top := (topInsert (x.entry z j g) x.top).take (recK x.cap) } := by
  rw [RaceSlot.takes_iff] at h
  unfold RaceSlot.post
  rw [if_neg (by rw [h]; exact Bool.false_ne_true), if_neg (by rw [num]; exact Bool.false_ne_true)]
  simp only [hK, if_true, hK.ne', decide_false, Bool.false_and, Bool.false_eq_true, if_false]
  rfl

end Post

/-! ### The cut (R245) -/

theorem RaceSlot.cut_best {x : RaceSlot} (running : x.state = 1) (hK : recK x.cap = 0) : x.cut = x.best.g := by
  simp [RaceSlot.cut, running, hK]

theorem RaceSlot.cut_short {x : RaceSlot} (hK : 0 < recK x.cap) (short : x.top.length < recK x.cap) : x.cut = 0xFF800000 := by
  simp only [RaceSlot.cut, hK, short, if_true, ite_self]

theorem RaceSlot.cut_full {x : RaceSlot} {p : TopEntry} (running : x.state = 1) (hK : 0 < recK x.cap) (full : ¬x.top.length < recK x.cap) (last : x.top.getLast? = some p) : x.cut = p.z := by
  simp [RaceSlot.cut, running, hK, full, last]

theorem read_negInf : FName.f32.read 0xFF800000 = .inf true := by decide

/-- The cut of a race with truncation does not fall as an entry is put into TOP. -/
theorem RaceSlot.cut_insert {x y : RaceSlot} {e : TopEntry} (running : x.state = 1) (hK : 0 < recK x.cap) (ok : x.topOk) (he : e.scored)
    (hy : y = { x with eval := x.eval + 1, top := (topInsert e x.top).take (recK x.cap) }) : (FName.f32.read y.cut).lt (FName.f32.read x.cut) = false := by
  obtain ⟨sorted, fits, scored⟩ := ok
  subst hy
  by_cases short : x.top.length < recK x.cap
  · rw [RaceSlot.cut_short hK short, read_negInf, FVal.lt_negInf]
  · have size : x.top.length = recK x.cap := by omega
    have kept : ((topInsert e x.top).take (recK x.cap)).length = recK x.cap := by
      rw [List.length_take, (topInsert_perm e x.top).length_eq, List.length_cons, size]
      exact Nat.min_eq_left (Nat.le_succ _)
    obtain ⟨p, hp⟩ := Option.isSome_iff_exists.1 (List.getLast?_isSome.2 (List.ne_nil_of_length_pos (size ▸ hK)))
    obtain ⟨q, hq⟩ := Option.isSome_iff_exists.1 (List.getLast?_isSome.2 (List.ne_nil_of_length_pos (kept.symm ▸ hK)))
    rw [RaceSlot.cut_full running hK short hp, RaceSlot.cut_full (x := { x with eval := x.eval + 1, top := (topInsert e x.top).take (recK x.cap) }) running hK (by simp only [kept]; omega) hq]
    exact topInsert_take_not_lt he scored sorted hp (size ▸ List.mem_of_getLast? hq)

/-- Settles O51: a post either is refused, or is of a NaN, or counts, for BEST or for TOP. -/
theorem slotsKeepTheBest : Obligations.SlotsKeepTheBest := by
  intro x sh z j g r y K e score best races
  refine ⟨⟨List.Pairwise.nil, Nat.zero_le _, List.forall_mem_nil _⟩, RaceSlot.post_refused, RaceSlot.post_nan, fun takes num => ?_⟩
  have running : x.state = 1 := takes.1
  rcases Nat.eq_zero_or_pos K with hK | hK
  · obtain ⟨dn, up, post⟩ := RaceSlot.post_best (g := g) takes num hK
    change y = _ at post
    have rise : (FName.f32.read y.cut).lt (FName.f32.read x.cut) = false := by
      rw [RaceSlot.cut_best (x := y) (by rw [post]; exact running) (by rw [post]; exact hK), RaceSlot.cut_best running hK, post]
      dsimp only
      split
      next beats => exact TopEntry.beats_not_lt beats
      · exact FVal.lt_irrefl _
    refine ⟨by rw [post], by rw [post], by rw [post], by rw [post], fun _ => ⟨by rw [post], rise, ?_⟩, fun pos => absurd pos hK.not_gt⟩
    rw [post]
    refine if_congr ?_ rfl rfl
    rw [TopEntry.beats, Bool.or_eq_true, Bool.and_eq_true, decide_eq_true_iff]
    rfl
  · have post := RaceSlot.post_top (g := g) takes num hK
    change y = _ at post
    refine ⟨by rw [post], by rw [post], by rw [post], by rw [post], fun zero => absurd zero hK.ne', fun _ ok he => ?_⟩
    obtain ⟨sorted, fits, scored⟩ := ok
    have perm := topInsert_perm e x.top
    have ranked := topInsert_pairwise he scored sorted
    have kept : y.top = (topInsert e x.top).take K := by rw [post]; rfl
    have size : y.top.length = min (x.top.length + 1) K := by rw [kept, List.length_take, perm.length_eq, List.length_cons, Nat.min_comm]
    have split := List.take_append_drop K (topInsert e x.top)
    rw [← kept] at split
    rw [← split] at perm ranked
    obtain ⟨inside, -, across⟩ := List.pairwise_append.1 ranked
    have cap : y.cap = x.cap := by rw [post]
    refine ⟨by rw [post], ⟨inside, ?_, fun u hu => ?_⟩, size, RaceSlot.cut_insert running hK ⟨sorted, fits, scored⟩ he post, _, perm, across⟩
    · rw [size, cap]
      exact Nat.min_le_right ..
    · exact (List.mem_cons.1 (perm.mem_iff.1 (List.mem_append_left _ hu))).elim (fun same => same ▸ he) (scored u)

end Sys2Proof.Machine
end

section
/-! PROOFS. `rset` (10 R253), and a write of a hart whose record stands under another number. -/

namespace Sys2Proof.Machine

open Sys2Proof

/-! ### SKIM instructions at a slot of this package that is granted to the hart's context (R239, R251) -/

section Here

variable {s : State} {hdr : Hdr} {H : Word} {x : RaceSlot} (here : handlePkg H = s.pkg.toNat) (slot : tabGet s.slots (handleSlot H) = some x) (granted : x.ctx = s.hart.ctxid)
include here slot granted

/-- A request that only asks leaves everything alone. -/
theorem State.skim_asks : s.skim hdr H skimProbe [] = .ok s 0 [] := by
  have ctx : x.ctx = s.hart.agent.ctx := granted
  simp only [State.skim, here, if_true, State.skimApply, slot, ctx, ne_eq, not_true_eq_false, if_false]
  rfl

/-- A record given to the slot opens its race. -/
theorem State.skim_opens (n : Nat) : s.skim hdr H 0 [(n, 0)] = .ok { s with slots := tabPut s.slots (handleSlot H) (x.open_ (natLe 256 n)) } 0 [] := by
  have ctx : x.ctx = s.hart.agent.ctx := granted
  simp only [State.skim, here, if_true, State.skimApply, slot, ctx, ne_eq, not_true_eq_false, if_false]
  rfl

end Here

/-- `rset` of a valid record opens the race at its slot, in the state that reading the record has left. -/
theorem exec_rset_opens {s s1 : State} {hr a : Reg5} {j : BitVec 1} {x : RaceSlot} {bs : List Byte} (hm : s.hart.mayJoin .engine j = true) (handle : handleOk (s.gs hr) = true)
    (here : handlePkg (s.gs hr) = s.pkg.toNat) (slot : tabGet s.slots (handleSlot (s.gs hr)) = some x) (granted : x.ctx = s.hart.ctxid) (aligned : (s.gs a).toNat % 64 = 0)
    (read : (s.joined .engine j []).readBlock 0 (s.gs a) 256 none = .ok s1 bs) (pkg : s1.pkg = s.pkg) (slots : s1.slots = s.slots) (ctx : s1.hart.ctxid = s.hart.ctxid)
    (valid : raceRecordOk bs = true) :
    exec (.rset hr a j) s = .next (({ s1 with slots := tabPut s.slots (handleSlot (s.gs hr)) (x.open_ (natLe 256 (leNat bs))) } : State).vecRetired 4) := by
  have hdr := vhdr_vector (wRset hr a j) .engine j
  have asks := State.skim_asks (s := s.joined .engine j []) (hdr := skimHdr (wRset hr a j) j) here slot (granted.trans (congrArg Hart.ctxid (s.joined_hart .engine j [])).symm)
  have opens := State.skim_opens (s := s1) (hdr := skimHdr (wRset hr a j) j) (here.trans (congrArg BitVec.toNat pkg.symm)) (by rw [slots]; exact slot) (granted.trans ctx.symm) (leNat bs)
  have first : (s.joined .engine j []).skimAnswered (s.gs hr) 0 = false := by
    rw [State.skimAnswered, show handlePkg (s.gs hr) = (s.joined .engine j []).pkg.toNat from here, bne_self_eq_false, Bool.false_and]
  show execRset hr a j s = _
  unfold execRset skimRun
  refine (hdr.runs hm ?_).trans (congrArg Host.Outcome.next (hdr.finish_next _ _))
  simp only [State.joined_gs, handle, require, if_true, asks, Skim.eff, first, Bool.false_eq_true, if_false, aligned, ne_eq, not_true_eq_false, read, valid, Bool.not_true, opens, slots]

/-! ### The counterexample -/

/-- `strayBuffer`, in which hart 4097 has a store to location 0 buffered while a record without one stands under its number, with a race slot granted to context 0, and at location 0 a valid
race record of one shard, with T = 1.0 and K = 0. No run reaches it, but the statement is about every state. -/
def strayRace : State :=
  { strayBuffer with hart := { Hart.init 4096 with vownV := true }, slots := [(0, RaceSlot.init 0)], mem := [(0x1A, 0x80), (0x1B, 0x3F), (0x28, 1)] }

/-- The read of the record, which lies in one page. -/
def recordElem : RElem := ⟨2 ^ 60, 0, 256, .load, 0, 0⟩

/-- The state in which the record is read: `rset` has joined its convoy and placed the record. -/
def strayRacePlaced : State := ((strayRace.joined .engine 0 []).placeAll 4096 .translate [recordElem]).1

/-- The store that stands in the way may have performed or not, and memory is the same either way; a free value is taken for it. -/
theorem strayRacePlaced_settled : let t := strayRacePlaced.settleVector 4096 0 256 0
    t.free = 1 ∧ t.bad 0 256 = false ∧ t.badCopies = [] ∧ t.mem = strayRace.mem ∧ t.pkg = strayRace.pkg ∧ t.slots = strayRace.slots ∧ t.hart.ctxid = strayRace.hart.ctxid := by
  intro t
  have settled : t = if Config.drained 0 = true then strayRacePlaced.took.drainS 4097 1 else strayRacePlaced.took := rfl
  rw [settled]
  split
  · exact ⟨rfl, rfl, rfl, rfl, rfl, rfl, rfl⟩
  · exact ⟨rfl, rfl, rfl, rfl, rfl, rfl, rfl⟩

/-- The record is read, in one piece. -/
theorem strayRace_record : (strayRace.joined .engine 0 []).readBlock 0 0 256 none =
    .ok (strayRacePlaced.settleVector 4096 0 256 0) (natLe 256 (leNat (memRead 256 0 strayRace.mem))) := by
  obtain ⟨-, clean, copies, mem, -⟩ := strayRacePlaced_settled
  have ran := State.performPlaced_load (before := true) (st := false) (e := recordElem) rfl clean copies
  have placed : (strayRace.joined .engine 0 []).readBlock 0 0 256 none = match strayRacePlaced.performPlaced 4096 true [.loc recordElem 0 false] with
    | (s2, ds, .done) => .ok s2 (natLe 256 ((tabGet ds (2 ^ 60)).getD 0) ++ [])
    | (s2, _, .ecc e l) => .trap (s2.eccAt 4096 l) ⟨0x0C, e.addr⟩ := rfl
  rw [placed, ran]
  dsimp only [recordElem]
  rw [mem, List.append_nil]
  rfl

/-- `rset` retires with a free value taken. -/
theorem exec_rset_strayRace : ∃ t, exec (.rset 0 0 0) strayRace = .next t ∧ t.free = 1 := by
  obtain ⟨free, -, -, -, pkg, slots, ctx⟩ := strayRacePlaced_settled
  exact ⟨_, exec_rset_opens rfl rfl rfl rfl rfl rfl strayRace_record pkg slots ctx (by decide +kernel), free⟩

/-- A quarter of the record is placed where it lies, and nothing that the harts listed have buffered stands in the way. -/
theorem strayRace_reaches {q : Nat} (hq : q < 4) : (strayRace.joined .engine 0 []).reaches false .read 64 (0 + BitVec.ofNat 64 (64 * q)) (64 * q) := by
  have at_ : (0 + BitVec.ofNat 64 (64 * q)).toNat = 64 * q := by
    rw [zero_add, BitVec.toNat_ofNat, Nat.mod_eq_of_lt (by omega)]
  refine ⟨⟨false, ?_⟩, .inl (by omega), rfl, rfl, rfl, rfl⟩
  rw [State.translateVia_firm false .read rfl rfl (by omega), at_]

/-- Refutes O50, in its clause of `rset`: the read of the record at location 0 takes a free value, which the statement has stay. -/
theorem not_skimmerResults : ¬ Obligations.SkimmerResults := by
  intro h
  obtain ⟨here, -⟩ := h strayRace 0 0 0 0 0 0 0 0 (RaceSlot.init 0) (fun q => 64 * q) rfl rfl
  obtain ⟨-, -, -, -, -, -, -, opens, -⟩ := here rfl rfl rfl
  obtain ⟨t, claimed⟩ := opens rfl rfl rfl rfl (fun q hq => strayRace_reaches hq) (by decide +kernel)
  obtain ⟨u, ran, one⟩ := exec_rset_strayRace
  have same := congrArg State.free (Host.Outcome.next.inj (ran.symm.trans claimed))
  exact Nat.one_ne_zero (one.symm.trans same)

end Sys2Proof.Machine
end

section
/-! PROOFS. What the CHURN instructions come to on a context of the hart's own (11 R259, R267 to R277). -/

namespace Sys2Proof.Machine

open Sys2Proof

/-! ### Statuses and counts -/

/-- The status that the state of a context gives an instruction that wants state `want`, 0 where it goes on (Table 11-8). -/
def Churn.status (x : Churn) (want : Nat) : Nat := if x.state = 4 then 3 else if x.state = want then 0 else 1

theorem Churn.wrong_eq (x : Churn) (want : Nat) : x.wrong want = if x.status want = 0 then none else some (x.status want) := by
  unfold Churn.wrong Churn.status
  split
  · rfl
  · split <;> rfl

theorem Churn.wrong_none {x : Churn} {want : Nat} (h : x.status want = 0) : x.wrong want = none := (x.wrong_eq want).trans (if_pos h)

theorem Churn.wrong_some {x : Churn} {want : Nat} (h : x.status want ≠ 0) : x.wrong want = some (x.status want) := (x.wrong_eq want).trans (if_neg h)

/-- A context that an instruction finds in the state it wants is in that state. -/
theorem Churn.state_of_status {x : Churn} {want : Nat} (h : x.status want = 0) : x.state = want := by
  unfold Churn.status at h
  split at h
  · exact absurd h (by decide)
  · split at h
    next e => exact e
    · exact absurd h (by decide)

/-- A count raised once for each number of a list. -/
theorem countOf_foldl_countUp (e : Nat) : ∀ (cs : List Nat) (t : List (Nat × Nat)), countOf (cs.foldl countUp t) e % 2 ^ 32 = (countOf t e + cs.count e) % 2 ^ 32
  | [], _ => rfl
  | c :: cs, t => by
    have raised : countOf (countUp t c) e % 2 ^ 32 = (countOf t e + if c = e then 1 else 0) % 2 ^ 32 := by
      unfold countUp
      by_cases h : c = e
      · subst h
        rw [countOf, tabGet_tabPut_same, if_pos rfl]
        exact Nat.mod_mod ..
      · rw [countOf, tabGet_tabPut_other _ _ (Ne.symm h), if_neg h]
        rfl
    have split : (c :: cs).count e = (if c = e then 1 else 0) + cs.count e := by
      rw [List.count_cons, Nat.add_comm]
      simp only [beq_iff_eq]
    rw [List.foldl_cons, countOf_foldl_countUp e cs, split, ← Nat.add_assoc]
    exact Nat.ModEq.add_right _ raised

/-- What element i of the strip chose as its c-th expert, by the data that its reads gave (R270). -/
def chosenBy (es : List RElem) (ds : List (Nat × Nat)) (i c : Nat) : Nat := leNat (tagBytes (es.filter (fun e => elemNo e == i)) ds (8 * c))

/-- How often element i of the strip chose expert e. -/
def timesChosen (x : Churn) (es : List RElem) (ds : List (Nat × Nat)) (e i : Nat) : Nat :=
  ((List.range (dispK x.cap)).filter (fun c => chosenBy es ds i c == e && decide (e < dispE x.cap))).length

/-- The choices of an element below E that are expert e. -/
theorem count_chosen (x : Churn) (es : List RElem) (ds : List (Nat × Nat)) (e i : Nat) :
    (((List.range (dispK x.cap)).map (chosenBy es ds i)).filter (fun e => decide (e < dispE x.cap))).count e = timesChosen x es ds e i := by
  rw [List.count, List.countP_filter, List.countP_map, List.countP_eq_length_filter, timesChosen]
  congr 2
  funext c
  rw [Function.comp_apply]
  by_cases h : chosenBy es ds i c = e
  · rw [h]
  · rw [beq_eq_false_iff_ne.2 h, Bool.false_and, Bool.false_and]

/-- Counting tokens changes the counts and their number: each expert's count by the choices of it, modulo 2^32 (R270). -/
theorem countTokens_counts (es : List RElem) (ds : List (Nat × Nat)) : ∀ (is : List Nat) (x : Churn), ∃ cnt cntd, countTokens x es ds is = { x with cnt := cnt, cntd := cntd } ∧
    cntd % 2 ^ 32 = (x.cntd + is.length) % 2 ^ 32 ∧ ∀ e, countOf cnt e % 2 ^ 32 = (countOf x.cnt e + (is.map (timesChosen x es ds e)).sum) % 2 ^ 32
  | [], x => ⟨x.cnt, x.cntd, rfl, rfl, fun _ => rfl⟩
  | i :: is, x => by
    obtain ⟨cnt, cntd, counted, number, counts⟩ := countTokens_counts es ds is
      { x with cnt := (((List.range (dispK x.cap)).map (chosenBy es ds i)).filter (fun e => decide (e < dispE x.cap))).foldl countUp x.cnt, cntd := (x.cntd + 1) % 2 ^ 32 }
    refine ⟨cnt, cntd, counted, ?_, fun e => ?_⟩
    · rw [number, List.length_cons, Nat.mod_add_mod, Nat.add_assoc, Nat.add_comm 1]
    · have first := countOf_foldl_countUp e (((List.range (dispK x.cap)).map (chosenBy es ds i)).filter (fun e => decide (e < dispE x.cap))) x.cnt
      rw [count_chosen] at first
      rw [counts e, List.map_cons, List.sum_cons, ← Nat.add_assoc]
      exact Nat.ModEq.add_right _ first

/-! ### The checks of a CHURN instruction (R354), and who has the context (R267) -/

theorem churnHdr_vector (w : IWord) (d : Reg5) (j : BitVec 1) : (churnHdr w d j).Vector .engine j [d] := vhdr_vector_writes w .engine j [d]

/-- Joining a convoy leaves alone who else has a context. -/
@[simp] theorem State.joined_claimed (s : State) (u : UnitClass) (j : BitVec 1) (sw : List Reg5) (k : Nat) : (s.joined u j sw).claimed k = s.claimed k := by
  simp only [State.claimed, State.allHarts, List.cons_append, List.any_cons, State.joined_id, bne_self_eq_false, Bool.false_and, Bool.false_or]
  rfl

/-- A hart that joins a convoy waits at no context that it did not wait at. -/
@[simp] theorem State.joined_stripWaits (s : State) (u : UnitClass) (j : BitVec 1) (sw : List Reg5) (k : Nat) : (s.joined u j sw).stripWaits k = s.stripWaits k := by
  have wait : (s.joined u j sw).hart.wait = s.hart.wait := by rw [State.joined_hart]; rfl
  simp only [State.stripWaits, State.allHarts, List.cons_append, List.any_cons, State.joined_id, wait]
  rfl

theorem State.applied_next {s t : State} {k : Nat} (free : s.claimed k = false) : s.applied k (.next t) = .next t := by
  simp only [State.applied, free, Bool.false_eq_true, if_false]

theorem State.applied_trap {s t : State} {k : Nat} {p : Trap} (free : s.claimed k = false) : s.applied k (.trap t p) = .trap t p := by
  simp only [State.applied, free, Bool.false_eq_true, if_false]

/-- An instruction that waits for another agent keeps its words and its unit, with the convoy as it was. -/
theorem Hdr.finish_waits (hd : Hdr) (c : Option Convoy) (t : State) (waits : t.hart.wait ≠ .none) :
    hd.finish c (.hold t) = { t with hart := { t.hart with convoy := c, cur := hd.words, inUse := hd.unit } } := by
  have held : ∀ x : Hart, x.wait ≠ .none → hd.held x = { x with cur := hd.words, inUse := hd.unit } := fun x hx => if_neg (by simp [hx])
  exact congrArg (fun g => ({ t with hart := g } : State)) (held { t.hart with convoy := c } waits)

section Own

variable {s : State} {w : IWord} {d hr : Reg5} {j : BitVec 1} {x : Churn} (hm : s.hart.mayJoin .engine j = true) (handle : churnHandleOk (s.gs hr) = true)
include hm handle

/-- A context that is not granted to the hart's own context traps PRV (R259). -/
theorem churnRun_foreign {f : State → Nat → Churn → Except Trap Eff}
    (other : tabGet s.churns (churnKey (s.gs hr)) = none ∨ (tabGet s.churns (churnKey (s.gs hr)) = some x ∧ x.owner ≠ s.hart.ctxid)) :
    churnRun (churnHdr w d j) hr f s = .next ((s.joined .engine j [d]).trap ⟨0x02, BitVec.ofNat 64 w.toNat⟩) := by
  have ctx : (s.joined .engine j [d]).hart.ctxid = s.hart.ctxid := by rw [State.joined_hart]; rfl
  have churns : (s.joined .engine j [d]).churns = s.churns := rfl
  unfold churnRun
  rw [runInstr_unit (churnHdr w d j) s _ .engine j rfl rfl rfl rfl rfl hm]
  simp only [show (churnHdr w d j).swrites = [d] from rfl, State.joined_gs, handle, require, if_true, churns]
  rcases other with none | ⟨some, owner⟩
  · rw [none]
    rfl
  · simp only [some, ctx, if_neg owner]
    rfl

theorem exec_chstat_foreign (other : tabGet s.churns (churnKey (s.gs hr)) = none ∨ (tabGet s.churns (churnKey (s.gs hr)) = some x ∧ x.owner ≠ s.hart.ctxid)) :
    exec (.chstat d hr j) s = .next ((s.joined .engine j [d]).trap ⟨0x02, BitVec.ofNat 64 (wChstat d hr j).toNat⟩) := by
  show execChstat d hr j s = _
  unfold execChstat
  exact churnRun_foreign hm handle other

variable (slot : tabGet s.churns (churnKey (s.gs hr)) = some x) (owner : x.owner = s.hart.ctxid)
include slot owner

/-- A CHURN instruction on a context of the hart's own has its effect in the state that has joined. -/
theorem churnRun_own {f : State → Nat → Churn → Except Trap Eff} {e : Eff} (hf : f (s.joined .engine j [d]) (churnKey (s.gs hr)) x = .ok e) :
    churnRun (churnHdr w d j) hr f s = .next ((churnHdr w d j).finish s.hart.convoy e) := by
  have ctx : x.owner = (s.joined .engine j [d]).hart.ctxid := by rw [State.joined_hart]; exact owner
  refine (churnHdr_vector w d j).runs hm ?_
  simp only [State.joined_gs, handle, require, if_true, show (s.joined .engine j [d]).churns = s.churns from rfl, slot, if_pos ctx, hf]

/-- One that writes a status retires with it. -/
theorem churnRun_status {f : State → Nat → Churn → Except Trap Eff} {t : State} {q : Nat} (hf : f (s.joined .engine j [d]) (churnKey (s.gs hr)) x = .ok (churnStatus t d q)) :
    churnRun (churnHdr w d j) hr f s = .next ((t.ps d (BitVec.ofNat 64 q)).vecRetired 4) :=
  (churnRun_own hm handle slot owner hf).trans (congrArg Host.Outcome.next ((churnHdr_vector w d j).finish_next _ _))

/-! ### `chset` and `chstat` (R269, R277) -/

theorem exec_chstat : exec (.chstat d hr j) s = .next (((s.joined .engine j [d]).ps d (BitVec.ofNat 64 (x.stat (s.stripWaits (churnKey (s.gs hr)))))).vecRetired 4) := by
  show execChstat d hr j s = _
  unfold execChstat
  refine churnRun_status hm handle slot owner ?_
  rw [State.joined_stripWaits]
  rfl

theorem exec_chset {b : Reg5} {s1 : State} {bs : List Byte} (aligned : (s.gs b).toNat % 64 = 0) (read : (s.joined .engine j [d]).readBlock 0 (s.gs b) 128 none = .ok s1 bs)
    (valid : dispatchRecordOk bs = true) (free : s1.claimed (churnKey (s.gs hr)) = false) : exec (.chset d hr b j) s =
    .next ((((s1.setChurn (churnKey (s.gs hr)) { Churn.init s.hart.ctxid with state := 1, cap := bs }).wakeStrips (churnKey (s.gs hr)) (fun _ => true) .aborted).ps d
      (BitVec.ofNat 64 0)).vecRetired 4) := by
  show execChset d hr b j s = _
  unfold execChset
  refine churnRun_status hm handle slot owner ?_
  simp only [State.joined_gs, aligned, ne_eq, not_true_eq_false, if_false, read, valid, Bool.not_true, Bool.false_eq_true, free, owner]

/-! ### `chcount` and `chplace` (R270, R271) -/

section Counting

variable (free : s.claimed (churnKey (s.gs hr)) = false)
include free

theorem exec_chcount_wrong {b : Reg5} (wrong : x.status 1 ≠ 0) : exec (.chcount d hr b j) s = .next (((s.joined .engine j [d]).ps d (BitVec.ofNat 64 (x.status 1))).vecRetired 4) := by
  show execChcount d hr b j s = _
  unfold execChcount
  refine churnRun_status hm handle slot owner ?_
  simp only [Churn.wrong_some wrong]
  exact congrArg Except.ok (State.applied_next ((State.joined_claimed ..).trans free))

theorem exec_chplace_wrong (wrong : x.status 1 ≠ 0) : exec (.chplace d hr j) s = .next (((s.joined .engine j [d]).ps d (BitVec.ofNat 64 (x.status 1))).vecRetired 4) := by
  show execChplace d hr j s = _
  unfold execChplace
  refine churnRun_status hm handle slot owner ?_
  simp only [Churn.wrong_some wrong]
  exact congrArg Except.ok (State.applied_next ((State.joined_claimed ..).trans free))

variable (right : x.status 1 = 0)
include right

theorem exec_chcount_beyond {b : Reg5} (beyond : dispT x.cap < (s.gs b).toNat + s.hart.vl) :
    exec (.chcount d hr b j) s = .next (((s.joined .engine j [d]).ps d (BitVec.ofNat 64 2)).vecRetired 4) := by
  show execChcount d hr b j s = _
  unfold execChcount
  refine churnRun_status hm handle slot owner ?_
  simp only [Churn.wrong_none right, State.joined_gs, State.joined_vl, beyond, if_true]
  exact congrArg Except.ok (State.applied_next ((State.joined_claimed ..).trans free))

/-- `chcount` whose reads all perform counts the choices of its tokens. -/
theorem exec_chcount {b : Reg5} {s1 : State} {ds : List (Nat × Nat)} (within : (s.gs b).toNat + s.hart.vl ≤ dispT x.cap)
    (clear : (s.joined .engine j [d]).copyBlocks s.hart.id ((s.hart.activeMem 0 s.hart.vl).flatMap (fun i => choiceElems x.cap i ((s.gs b).toNat + i))) = false)
    (ran : (s.joined .engine j [d]).runRows (churnHdr (wChcount d hr b j) d j) .translate s.hart.vl (s.hart.activeMem 0 s.hart.vl)
      ((s.hart.activeMem 0 s.hart.vl).flatMap (fun i => choiceElems x.cap i ((s.gs b).toNat + i))) .none = .all s1 ds) (churns : s1.churns = s.churns) :
    exec (.chcount d hr b j) s = .next (((s1.setChurn (churnKey (s.gs hr))
      (countTokens x ((s.hart.activeMem 0 s.hart.vl).flatMap (fun i => choiceElems x.cap i ((s.gs b).toNat + i))) ds (rowsDone (s.hart.activeMem 0 s.hart.vl) ds))).ps d
        (BitVec.ofNat 64 0)).vecRetired 4) := by
  have active : (s.joined .engine j [d]).hart.activeMem 0 s.hart.vl = s.hart.activeMem 0 s.hart.vl := by rw [State.joined_hart]; rfl
  show execChcount d hr b j s = _
  unfold execChcount
  refine churnRun_status hm handle slot owner ?_
  simp only [Churn.wrong_none right, State.joined_gs, State.joined_vl, State.joined_id, active, Nat.not_lt.2 within, if_false, clear, Bool.false_eq_true, ran, State.updChurn, churns, slot]
  exact congrArg Except.ok (State.applied_next ((State.joined_claimed ..).trans free))

theorem exec_chplace_uncounted (uncounted : x.cntd ≠ dispT x.cap) : exec (.chplace d hr j) s = .next (((s.joined .engine j [d]).ps d (BitVec.ofNat 64 2)).vecRetired 4) := by
  show execChplace d hr j s = _
  unfold execChplace
  refine churnRun_status hm handle slot owner ?_
  simp only [Churn.wrong_none right, uncounted, ne_eq, not_false_eq_true, if_true]
  exact congrArg Except.ok (State.applied_next ((State.joined_claimed ..).trans free))

/-- The elements that `chplace` writes: the counts, the fields of the group records, the tasks, and last the pool word (R271). -/
def Churn.tableElems (x : Churn) (plc : List Placement) : List RElem :=
  writeElems 1 (dispCount x.cap) ((List.range (dispE x.cap)).flatMap (fun e => natLe 4 (countOf x.cnt e))) ++ (List.range (dispE x.cap)).flatMap (x.groupElems plc) ++
    writeElems 2 (dispPool x.cap + 64) (x.taskWords.flatMap (natLe 8)) ++ writeElems 3 (dispPool x.cap) (natLe 8 0)

/-- `chplace` of counted tokens whose placement table is well formed writes the tables. -/
theorem exec_chplace {s1 s2 : State} {bs un : List Byte} (counted : x.cntd = dispT x.cap)
    (read : (s.joined .engine j [d]).readBlock 0 (dispPlace x.cap) (16 * dispE x.cap) none = .ok s1 bs) (valid : ∀ p ∈ chunks16 (dispE x.cap) bs, placementOk (dispRowb x.cap) p = true)
    (written : s1.writeAll (x.tableElems ((chunks16 (dispE x.cap) bs).map placementOf)) [] = .ok s2 un) : exec (.chplace d hr j) s =
    .next (((s2.setChurn (churnKey (s.gs hr)) { x with state := 2, plc := (chunks16 (dispE x.cap) bs).map placementOf, tasks := x.taskWords.length, cur := [], next := 0, drops := 0,
                                                        tables := some (s2.hart.id, s2.hart.lock.num) }).ps d (BitVec.ofNat 64 0)).vecRetired 4) := by
  have well : (chunks16 (dispE x.cap) bs).any (fun b => !placementOk (dispRowb x.cap) b) = false := List.any_eq_false.2 (fun p hp => by simp [valid p hp])
  unfold Churn.tableElems at written
  show execChplace d hr j s = _
  unfold execChplace
  refine churnRun_status hm handle slot owner ?_
  simp only [Churn.wrong_none right, counted, ne_eq, not_true_eq_false, if_false, read, well, Bool.false_eq_true, written]
  exact congrArg Except.ok (State.applied_next ((State.joined_claimed ..).trans free))

end Counting

/-! ### `chdone` (R276) -/

section Done

variable (free : s.claimed (churnKey (s.gs hr)) = false)
include free

theorem exec_chdone_again (done : x.state = 3) : exec (.chdone d hr j) s = .next (((s.joined .engine j [d]).ps d (BitVec.ofNat 64 0)).vecRetired 4) := by
  show execChdone d hr j s = _
  unfold execChdone
  refine churnRun_status hm handle slot owner ?_
  simp only [done, if_true]
  exact congrArg Except.ok (State.applied_next ((State.joined_claimed ..).trans free))

theorem exec_chdone_wrong (open_ : x.state ≠ 3) (wrong : x.status 2 ≠ 0) :
    exec (.chdone d hr j) s = .next (((s.joined .engine j [d]).ps d (BitVec.ofNat 64 (x.status 2))).vecRetired 4) := by
  show execChdone d hr j s = _
  unfold execChdone
  refine churnRun_status hm handle slot owner ?_
  simp only [open_, if_false, Churn.wrong_some wrong]
  exact congrArg Except.ok (State.applied_next ((State.joined_claimed ..).trans free))

variable (right : x.status 2 = 0)
include right

theorem exec_chdone_unsent (unsent : x.next ≠ dispT x.cap) : exec (.chdone d hr j) s = .next (((s.joined .engine j [d]).ps d (BitVec.ofNat 64 2)).vecRetired 4) := by
  have open_ : x.state ≠ 3 := by rw [Churn.state_of_status right]; decide
  show execChdone d hr j s = _
  unfold execChdone
  refine churnRun_status hm handle slot owner ?_
  simp only [open_, if_false, Churn.wrong_none right, unsent, ne_eq, not_false_eq_true, if_true]
  exact congrArg Except.ok (State.applied_next ((State.joined_claimed ..).trans free))

variable (sent : x.next = dispT x.cap)
include sent

/-- With a REMOTE expert and a ticket outstanding `chdone` traps TKR. -/
theorem exec_chdone_tkr (remote : x.hasRemote = true) (out : 0 < s.outstanding s.hart) :
    exec (.chdone d hr j) s = .next ((s.joined .engine j [d]).trap ⟨0x07, BitVec.ofNat 64 (s.outstanding s.hart)⟩) := by
  have open_ : x.state ≠ 3 := by rw [Churn.state_of_status right]; decide
  have same : (s.joined .engine j [d]).outstanding (s.joined .engine j [d]).hart = s.outstanding s.hart := by rw [State.joined_hart]; rfl
  show execChdone d hr j s = _
  unfold execChdone
  refine (churnRun_own hm handle slot owner (e := .trap (s.joined .engine j [d]) ⟨0x07, BitVec.ofNat 64 (s.outstanding s.hart)⟩) ?_).trans rfl
  simp only [open_, if_false, Churn.wrong_none right, sent, ne_eq, not_true_eq_false, remote, same, out, and_self, if_true]
  exact congrArg Except.ok (State.applied_trap ((State.joined_claimed ..).trans free))

variable (ticketless : x.hasRemote = true → s.outstanding s.hart = 0) (arrived : x.rpend = 0)
include ticketless arrived

theorem exec_chdone_failed (failed : x.rfail = true) : exec (.chdone d hr j) s =
    .next ((((s.joined .engine j [d]).setChurn (churnKey (s.gs hr)) { x with state := 4 }).ps d (BitVec.ofNat 64 3)).vecRetired 4) := by
  have open_ : x.state ≠ 3 := by rw [Churn.state_of_status right]; decide
  have same : (s.joined .engine j [d]).outstanding (s.joined .engine j [d]).hart = s.outstanding s.hart := by rw [State.joined_hart]; rfl
  have passes : ¬(x.hasRemote = true ∧ 0 < s.outstanding s.hart) := fun h => absurd (ticketless h.1) h.2.ne'
  show execChdone d hr j s = _
  unfold execChdone
  refine churnRun_status hm handle slot owner ?_
  simp only [open_, if_false, Churn.wrong_none right, sent, ne_eq, not_true_eq_false, same, passes, arrived, Nat.lt_irrefl, failed, if_true]
  exact congrArg Except.ok (State.applied_next ((State.joined_claimed ..).trans free))

/-- `chdone` publishes the pool once every write of the dispatch has performed. -/
theorem exec_chdone {s1 : State} {un : List Byte} (good : x.rfail = false) (idle : s.engineBusy s.hart.id = false)
    (written : (((s.joined .engine j [d]).drainAll s.hart.id).tablesDone x).writeAll (writeElems 0 (dispDcnt x.cap) (natLe 8 x.drops))
      (writeElems 1 (dispPool x.cap) (natLe 8 (x.tasks * 2 ^ 32))) = .ok s1 un) :
    exec (.chdone d hr j) s = .next (((s1.drainEntry.setChurn (churnKey (s.gs hr)) { x with state := 3 }).ps d (BitVec.ofNat 64 0)).vecRetired 4) := by
  have open_ : x.state ≠ 3 := by rw [Churn.state_of_status right]; decide
  have same : (s.joined .engine j [d]).outstanding (s.joined .engine j [d]).hart = s.outstanding s.hart := by rw [State.joined_hart]; rfl
  have passes : ¬(x.hasRemote = true ∧ 0 < s.outstanding s.hart) := fun h => absurd (ticketless h.1) h.2.ne'
  have calm : (s.joined .engine j [d]).engineBusy s.hart.id = false := idle
  show execChdone d hr j s = _
  unfold execChdone
  refine churnRun_status hm handle slot owner ?_
  simp only [open_, if_false, Churn.wrong_none right, sent, ne_eq, not_true_eq_false, same, passes, arrived, Nat.lt_irrefl, good, Bool.false_eq_true, State.joined_id, calm, written]
  exact congrArg Except.ok (State.applied_next ((State.joined_claimed ..).trans free))

end Done

/-! ### `chsend` but for its tokens (R272, R273) -/

section Sending

variable {b : Reg5}

theorem exec_chsend_aborted (aborted : s.hart.resume = .aborted) : exec (.chsend d hr b j) s = .next (((s.joined .engine j [d]).ps d (BitVec.ofNat 64 1)).vecRetired 4) := by
  have same : (s.joined .engine j [d]).hart.resume = .aborted := by rw [State.joined_hart]; exact aborted
  show execChsend d hr b j s = _
  unfold execChsend
  refine churnRun_status hm handle slot owner ?_
  simp only [same, if_true]

variable (resume : s.hart.resume ≠ .aborted)
include resume

/-- A strip whose turn has not come waits at the context (R273). -/
theorem exec_chsend_waits (right : x.status 2 = 0) (within : (s.gs b).toNat + s.hart.vl ≤ dispT x.cap) (more : s.hart.vstart.toNat < s.hart.vl)
    (early : x.next < (s.gs b).toNat + s.hart.vstart.toNat) :
    exec (.chsend d hr b j) s = .next { s with hart := { s.hart.begin_ with wait := .churn (churnKey (s.gs hr)) ((s.gs b).toNat + s.hart.vstart.toNat),
                                                                            cur := [wChsend d hr b j], inUse := some .engine } } := by
  have same : (s.joined .engine j [d]).hart.resume = s.hart.resume ∧ (s.joined .engine j [d]).hart.vstart = s.hart.vstart := by rw [State.joined_hart]; exact ⟨rfl, rfl⟩
  show execChsend d hr b j s = _
  unfold execChsend
  refine (churnRun_own hm handle slot owner
    (e := .hold ((s.joined .engine j [d]).upd (fun h => { h with wait := .churn (churnKey (s.gs hr)) ((s.gs b).toNat + s.hart.vstart.toNat) }))) ?_).trans ?_
  · simp only [same.1, same.2, resume, if_false, State.joined_gs, State.joined_vl, Churn.state_of_status right, within, more, early, and_self, if_true]
  · have begun : s.hart.begin_ = s.hart.going s.hart.begin_ s.hart.convoy := s.hart.begin_eq s.hart.convoy
    rw [Hdr.finish_waits _ _ _ Wait.noConfusion]
    refine congrArg (fun g => Host.Outcome.next ({ s with hart := g } : State)) ?_
    rw [State.upd_hart, State.joined_hart]
    exact congrArg (fun g : Hart => { g with wait := .churn (churnKey (s.gs hr)) ((s.gs b).toNat + s.hart.vstart.toNat), cur := [wChsend d hr b j], inUse := some .engine }) begun.symm

variable (free : s.claimed (churnKey (s.gs hr)) = false)
include free

theorem exec_chsend_wrong (wrong : x.status 2 ≠ 0) : exec (.chsend d hr b j) s = .next (((s.joined .engine j [d]).ps d (BitVec.ofNat 64 (x.status 2))).vecRetired 4) := by
  have same : (s.joined .engine j [d]).hart.resume = s.hart.resume := by rw [State.joined_hart]; rfl
  have other : x.state ≠ 2 := fun h => wrong (by simp [Churn.status, h])
  show execChsend d hr b j s = _
  unfold execChsend
  refine churnRun_status hm handle slot owner ?_
  simp only [same, resume, other, false_and, if_false, Churn.wrong_some wrong]
  exact congrArg Except.ok (State.applied_next ((State.joined_claimed ..).trans free))

variable (right : x.status 2 = 0)
include right

theorem exec_chsend_beyond (beyond : dispT x.cap < (s.gs b).toNat + s.hart.vl) :
    exec (.chsend d hr b j) s = .next (((s.joined .engine j [d]).ps d (BitVec.ofNat 64 2)).vecRetired 4) := by
  have same : (s.joined .engine j [d]).hart.resume = s.hart.resume := by rw [State.joined_hart]; rfl
  show execChsend d hr b j s = _
  unfold execChsend
  refine churnRun_status hm handle slot owner ?_
  simp only [same, resume, if_false, State.joined_gs, State.joined_vl, Nat.not_le.2 beyond, false_and, and_false, Churn.wrong_none right, beyond, if_true]
  exact congrArg Except.ok (State.applied_next ((State.joined_claimed ..).trans free))

variable (within : (s.gs b).toNat + s.hart.vl ≤ dispT x.cap)
include within

theorem exec_chsend_empty (none_left : s.hart.vl ≤ s.hart.vstart.toNat) : exec (.chsend d hr b j) s = .next (((s.joined .engine j [d]).ps d (BitVec.ofNat 64 0)).vecRetired 4) := by
  have same : (s.joined .engine j [d]).hart.resume = s.hart.resume ∧ (s.joined .engine j [d]).hart.vstart = s.hart.vstart := by rw [State.joined_hart]; exact ⟨rfl, rfl⟩
  show execChsend d hr b j s = _
  unfold execChsend
  refine churnRun_status hm handle slot owner ?_
  simp only [same.1, same.2, resume, if_false, State.joined_gs, State.joined_vl, Nat.not_lt.2 none_left, Nat.not_lt.2 within, false_and, and_false, Churn.wrong_none right, none_left, if_true]
  exact congrArg Except.ok (State.applied_next ((State.joined_claimed ..).trans free))

variable (more : s.hart.vstart.toNat < s.hart.vl)
include more

/-- A strip that begins below NEXT gives status 4. -/
theorem exec_chsend_late (claim : s.hart.claim ≠ some (churnKey (s.gs hr))) (late : (s.gs b).toNat + s.hart.vstart.toNat < x.next) :
    exec (.chsend d hr b j) s = .next (((s.joined .engine j [d]).ps d (BitVec.ofNat 64 4)).vecRetired 4) := by
  have same : (s.joined .engine j [d]).hart.resume = s.hart.resume ∧ (s.joined .engine j [d]).hart.vstart = s.hart.vstart ∧ (s.joined .engine j [d]).hart.claim = s.hart.claim := by
    rw [State.joined_hart]; exact ⟨rfl, rfl, rfl⟩
  show execChsend d hr b j s = _
  unfold execChsend
  refine churnRun_status hm handle slot owner ?_
  simp only [same.1, same.2.1, same.2.2, claim, resume, if_false, State.joined_gs, State.joined_vl, Nat.not_lt.2 within, Nat.not_lt.2 late.le, and_false, Churn.wrong_none right,
    Nat.not_le.2 more, late, if_true]
  exact congrArg Except.ok (State.applied_next ((State.joined_claimed ..).trans free))

/-- A strip whose turn it is, and all of whose tokens are placed. -/
theorem exec_chsend_sends {s1 : State} (turn : (s.gs b).toNat + s.hart.vstart.toNat = x.next) (calm : (s.joined .engine j [d]).undisturbed = true)
    (sent : ((s.joined .engine j [d]).openLock s.hart.id []).sendStrip (churnKey (s.gs hr)) (s.gs b).toNat none (s.hart.vl - s.hart.vstart.toNat) s.hart.vstart.toNat = .done s1) :
    exec (.chsend d hr b j) s = .next (((s1.committed (churnKey (s.gs hr))).ps d (BitVec.ofNat 64 0)).vecRetired 4) := by
  have same : (s.joined .engine j [d]).hart.resume = s.hart.resume ∧ (s.joined .engine j [d]).hart.vstart = s.hart.vstart ∧ (s.joined .engine j [d]).hart.claim = s.hart.claim := by
    rw [State.joined_hart]; exact ⟨rfl, rfl, rfl⟩
  simp only [State.undisturbed, Bool.and_eq_true, Option.isNone_iff_eq_none, Bool.not_eq_true', State.joined_id] at calm
  obtain ⟨unstopped, idle⟩ := calm
  have first : (if s.hart.claim = some (churnKey (s.gs hr)) then max s.hart.vstart.toNat (x.next - (s.gs b).toNat) else s.hart.vstart.toNat) = s.hart.vstart.toNat := by
    rw [← turn, Nat.add_sub_cancel_left, max_self, ite_self]
  show execChsend d hr b j s = _
  unfold execChsend
  refine churnRun_status hm handle slot owner ?_
  simp only [same.1, same.2.1, same.2.2, first, resume, if_false, State.joined_gs, State.joined_vl, State.joined_id, Nat.not_lt.2 within, turn, Nat.lt_irrefl, and_false, Churn.wrong_none right,
    Nat.not_le.2 more, idle, Bool.false_eq_true, unstopped, stopPoint, sent]
  exact congrArg Except.ok (State.applied_next ((State.joined_claimed ..).trans free))

end Sending
end Own
end Sys2Proof.Machine
end

section
/-! PROOFS. The work pool (11 R281), where no buffered write stands in the way of its word, or those that do have not performed (log 7). -/

namespace Sys2Proof.Machine

open Sys2Proof

/-! ### Accesses that find nothing to drain (R128, R169) -/

theorem lastHit_none {f : PendWrite → Bool} : ∀ (ps : List PendWrite) (k best : Nat), (∀ p ∈ ps, f p = false) → lastHit f ps k best = best
  | [], _, _, _ => rfl
  | p :: ps, k, best, h => by
    rw [lastHit, h p (List.mem_cons_self ..), if_neg Bool.false_ne_true]
    exact lastHit_none ps (k + 1) best (fun q hq => h q (List.mem_cons_of_mem _ hq))

theorem splitWrites_none {f : PendWrite → Bool} : ∀ ps : List PendWrite, (∀ p ∈ ps, f p = false) → (splitWrites f ps).1 = []
  | [], _ => rfl
  | p :: ps, h => by
    have rest := splitWrites_none ps (fun q hq => h q (List.mem_cons_of_mem _ hq))
    rw [splitWrites, h p (List.mem_cons_self ..), rest, List.any_nil, Bool.or_self, if_neg Bool.false_ne_true]

/-- The hart's own writes, none of which is to the bytes, do not perform at an access to them. -/
theorem State.settleAtomic_own {s : State} {l n : Nat} (quiet : s.quietAt l n = true) : s.settleAtomic s.hart.id l n = s.settleOthers s.hart.id l n := by
  have own := List.all_eq_true.1 quiet s.hart (List.mem_append_left _ (List.mem_cons_self ..))
  simp only [Bool.and_eq_true, List.all_eq_true, Bool.not_eq_true'] at own
  obtain ⟨stores, writes⟩ := own
  have first : s.drainS s.hart.id (lastHit (fun p => p.hits l n) (s.getHart s.hart.id).sbuf 0 0) = s := by
    rw [State.getHart_own, lastHit_none _ _ _ stores]
    rfl
  have second : s.drainWhere s.hart.id (fun p => p.hits l n) = s := by
    rw [State.drainWhere_own, splitWrites_none _ writes]
    rfl
  simp only [State.settleAtomic, first, second]

/-- Every record of a hart stands under the hart's own number. -/
def State.Standing (s : State) : Prop := ∀ h ∈ s.allHarts, s.getHart h.id = h

/-- Where every record stands under its own number, an access to bytes that no write is buffered for leaves the state. -/
theorem State.settleAtomic_standing {s : State} {l n : Nat} (standing : s.Standing) (quiet : s.quietAt l n = true) : s.settleAtomic s.hart.id l n = s := by
  have other : ∀ h ∈ s.allHarts, s.settleOther h.id l n = s := fun h hh => by
    have none_hits := List.all_eq_true.1 quiet h hh
    simp only [Bool.and_eq_true, List.all_eq_true, Bool.not_eq_true'] at none_hits
    obtain ⟨stores, writes⟩ := none_hits
    simp only [State.settleOther, standing h hh, lastHit_none _ _ _ stores, lastHit_none _ _ _ writes, if_true, decide_true, Bool.true_or]
  have all : ∀ hs : List Hart, (∀ h ∈ hs, h ∈ s.allHarts) → (hs.map (·.id)).foldl (fun u id => if id = s.hart.id then u else u.settleOther id l n) s = s := by
    intro hs
    induction hs with
    | nil => exact fun _ => rfl
    | cons h hs ih =>
      intro sub
      rw [List.map_cons, List.foldl_cons, other h (sub h (List.mem_cons_self ..)), ite_self]
      exact ih (fun g hg => sub g (List.mem_cons_of_mem _ hg))
  exact (State.settleAtomic_own quiet).trans (all s.allHarts (fun _ hh => hh))

section Undrained

variable (undrained : ∀ n, Config.drained n = false)
include undrained

/-- Where no buffered write drains at an access, another hart's stay: at most free values are taken. -/
theorem State.settleOther_undrained (s : State) (id l n : Nat) : ∃ m, s.settleOther id l n = { s with free := m } := by
  unfold State.settleOther
  simp only [undrained, Bool.false_eq_true, if_false]
  split
  · split
    · exact ⟨s.free, rfl⟩
    · exact ⟨s.free + 1, rfl⟩
  · split
    · exact ⟨s.free + 1, rfl⟩
    · exact ⟨s.free + 1 + 1, rfl⟩

theorem State.settleOthers_undrained (s : State) (own l n : Nat) : ∃ m, s.settleOthers own l n = { s with free := m } := by
  unfold State.settleOthers
  generalize s.allHarts.map (·.id) = ids
  induction ids generalizing s with
  | nil => exact ⟨s.free, rfl⟩
  | cons id ids ih =>
    rw [List.foldl_cons]
    by_cases h : id = own
    · rw [if_pos h]
      exact ih s
    · obtain ⟨m, e⟩ := State.settleOther_undrained undrained s id l n
      rw [if_neg h, e]
      obtain ⟨m', e'⟩ := ih { s with free := m }
      exact ⟨m', e'⟩

/-- An access to bytes that no write of the hart's own is buffered for. -/
theorem State.settleAtomic_undrained {s : State} {l n : Nat} (quiet : s.quietAt l n = true) : ∃ m, s.settleAtomic s.hart.id l n = { s with free := m } := by
  rw [State.settleAtomic_own quiet]
  exact State.settleOthers_undrained undrained s s.hart.id l n

end Undrained

/-! ### An atomic on a pool word (R281) -/

theorem Hart.wakeOn_agent (h : Hart) (l n : Nat) : (h.wakeOn l n).agent = h.agent := by
  rcases h.wakeOn_cases l n with e | e
  · rw [e]
  · rw [e]
    rfl

/-- The state with the pool word at a location rewritten, or as it was. -/
def State.poolWritten (t : State) (l : Nat) (new : Option Nat) : State := new.elim t (fun x => t.perform l (natLe 8 x))

section Pool

variable {s s1 t : State} {d a : Reg5} {rel : Bool} {f : Nat → Nat → Word × Option Nat} {l : Nat} {strict : Bool}

/-- `wput`, a release, with a ticket outstanding traps TKR. -/
theorem exec_wput_tkr {n : BitVec 11} (sound : s.hart.sound = true) (aligned : (s.gs a).toNat % 8 = 0) (out : 0 < s.outstanding s.hart) :
    exec (.wput d a n) s = .next ((s.checked false [a]).trap ⟨0x07, BitVec.ofNat 64 (s.outstanding s.hart)⟩) := by
  show execWput d a n s = _
  unfold execWput poolOp
  refine (runInstr_reads_error (s := s) sound (t := ⟨0x07, BitVec.ofNat 64 (s.outstanding s.hart)⟩) ?_).trans rfl
  have ok : scalarAligned ((s.checked false [a]).gs a) 8 = .ok () := scalarAligned_ok aligned
  have same : (s.checked false [a]).outstanding (s.checked false [a]).hart = s.outstanding s.hart := rfl
  simp only [ok, same, out, decide_true, Bool.and_self, if_true]

/-- An atomic on a pool word that is placed at a location and finds no error there. -/
theorem poolOp_performs {w : IWord} (sound : s.hart.sound = true) (aligned : (s.gs a).toNat % 8 = 0) (clear : s.copyHits s.hart.id (s.gs a) 8 = false)
    (calm : rel = true → s.outstanding s.hart = 0 ∧ s.engineBusy s.hart.id = false)
    (placed : (if rel then (s.checked false [a]).drainAll s.hart.id else s.checked false [a]).translate s.hart.agent .write (s.gs a) = (s1, .loc l strict))
    (settled : s1.settleAtomic s1.hart.id l 8 = t) (clean : t.bad l 8 = false) (copies : t.badCopies = []) :
    let v := leNat (memRead 8 l t.mem)
    let r := f (v % 2 ^ 32) (v / 2 ^ 32)
    poolOp { word := w, reads := [a] } d a rel f s = .next ((t.poolWritten l r.2).retired d r.1) := by
  intro v r
  have ok : scalarAligned ((s.checked false [a]).gs a) 8 = .ok () := scalarAligned_ok aligned
  have clear' : (s.checked false [a]).copyHits (s.checked false [a]).hart.id ((s.checked false [a]).gs a) 8 = false := clear
  have ticketless : (rel && decide (0 < (s.checked false [a]).outstanding (s.checked false [a]).hart)) = false := by
    cases rel with
    | false => rfl
    | true =>
      have none_out : (s.checked false [a]).outstanding (s.checked false [a]).hart = 0 := (calm rfl).1
      rw [none_out]
      rfl
  have idle : (rel && (s.checked false [a]).engineBusy (s.checked false [a]).hart.id) = false := by
    cases rel with
    | false => rfl
    | true => exact (calm rfl).2
  have agent : (if rel then (s.checked false [a]).drainAll (s.checked false [a]).hart.id else s.checked false [a]).hart.agent = s.hart.agent := by
    cases rel with
    | false => rfl
    | true =>
      refine (State.drainAll_keeps (f := fun u => u.hart.agent) (fun u l bs => ?_) (fun _ _ _ => rfl) (s.checked false [a])).trans rfl
      rw [State.perform_hart]
      exact Hart.wakeOn_agent u.hart l bs.length
  unfold poolOp
  refine (runInstr_reads_ok (s := s) sound (e := .next ((t.poolWritten l r.2).ps d r.1)) ?_).trans (congrArg Host.Outcome.next (finish_next_ps w [a] d _ _ s.hart.convoy))
  simp only [ok, ticketless, idle, clear', Bool.false_eq_true, if_false, agent]
  rw [show (if rel = true then (s.checked false [a]).drainAll (s.checked false [a]).hart.id else s.checked false [a]).translate s.hart.agent .write ((s.checked false [a]).gs a) =
    (s1, .loc l strict) from placed]
  simp only [settled, State.readError_clean _ _ _ clean copies]
  show Except.ok (Eff.next ((match r.2 with | some x => t.perform l (natLe 8 x) | none => t).ps d r.1)) = _
  cases r.2 <;> rfl

/-- What an atomic on a pool word leaves: the other registers, PC past it, its result, the word, and every other byte. -/
theorem State.poolWritten_retired (regs : t.hart.s = s.hart.s) (pc : t.hart.pc = s.hart.pc) (wf : Memory.wf t.mem = true) (d : Reg5) (x : Word) (new : Option Nat) :
    let u := (t.poolWritten l new).retired d x
    (∀ r, r ≠ d → u.gs r = s.gs r) ∧ u.hart.pc = s.hart.pc + 4 ∧ (d ≠ 0 → u.gs d = x) ∧ leNat (memRead 8 l u.mem) = (new.map (· % 2 ^ 64)).getD (leNat (memRead 8 l t.mem)) ∧
      ∀ q, (q < l ∨ l + 8 ≤ q) → memGet u.mem q = memGet t.mem q := by
  intro u
  have hart : (t.poolWritten l new).hart.s = s.hart.s ∧ (t.poolWritten l new).hart.pc = s.hart.pc := by
    cases new with
    | none => exact ⟨regs, pc⟩
    | some y =>
      show (t.perform l (natLe 8 y)).hart.s = _ ∧ (t.perform l (natLe 8 y)).hart.pc = _
      rw [State.perform_hart, Hart.wakeOn_s, Hart.wakeOn_pc]
      exact ⟨regs, pc⟩
  obtain ⟨regs', pc'⟩ := hart
  have read : ∀ r, ((t.poolWritten l new).hart.past ((t.poolWritten l new).hart.pc + 4) (t.poolWritten l new).hart.convoy).gs r = s.gs r := fun r => by
    show (if r = 0 then 0 else (t.poolWritten l new).hart.s[r.toNat]) = if r = 0 then 0 else s.hart.s[r.toNat]
    rw [regs']
  refine ⟨fun r hr => (Hart.gs_ps_other _ hr x).trans (read r), ?_, fun hd => Hart.gs_ps_same _ hd x, ?_⟩
  · show (((t.poolWritten l new).hart.past _ _).ps d x).pc = _
    rw [Hart.ps_pc]
    exact congrArg (· + 4) pc'
  · cases new with
    | none => exact ⟨rfl, fun _ _ => rfl⟩
    | some y =>
      have mem : u.mem = memPut t.mem l (natLe 8 y) := State.perform_mem ..
      have len : (natLe 8 y).length = 8 := natLe_length 8 y
      have same := memRead_memPut_same wf l (natLe 8 y)
      rw [len] at same
      refine ⟨?_, fun q hq => ?_⟩
      · rw [mem, same, leNat_natLe]
        rfl
      · rw [mem, memGet_memPut wf, len, if_neg (by omega)]

end Pool

/-! ### Taking and adding tasks (R281) -/

theorem leNat_lt (bs : List Byte) : leNat bs < 2 ^ (8 * bs.length) := by
  have whole := congrArg leNat (natLe_leNat bs)
  rw [leNat_natLe] at whole
  exact Nat.mod_eq_iff_lt (Nat.two_pow_pos _).ne' |>.1 whole

/-- The word that `wtake` writes, if it writes one. -/
def takenWord (next total : Nat) : Word × Option Nat := if next < total then (BitVec.ofNat 64 next, some (total * 2 ^ 32 + next + 1)) else (BitVec.allOnes 64, none)

/-- The word that `wput` writes, if it writes one. -/
def addedWord (n : BitVec 11) (next total : Nat) : Word × Option Nat :=
  if total + n.toNat < 2 ^ 32 then (BitVec.ofNat 64 total, some ((total + n.toNat) * 2 ^ 32 + next)) else (BitVec.allOnes 64, none)

theorem takenWord_left {next total : Nat} (h : next < total) : takenWord next total = (BitVec.ofNat 64 next, some (total * 2 ^ 32 + next + 1)) := if_pos h

theorem takenWord_none {next total : Nat} (h : ¬next < total) : takenWord next total = (BitVec.allOnes 64, none) := if_neg h

theorem addedWord_fits {n : BitVec 11} {next total : Nat} (h : total + n.toNat < 2 ^ 32) : addedWord n next total = (BitVec.ofNat 64 total, some ((total + n.toNat) * 2 ^ 32 + next)) :=
  if_pos h

theorem addedWord_none {n : BitVec 11} {next total : Nat} (h : ¬total + n.toNat < 2 ^ 32) : addedWord n next total = (BitVec.allOnes 64, none) := if_neg h

/-- The pool word after a task was taken: NEXT, in its low half, is one more. -/
theorem taken_word {v : Nat} (small : v < 2 ^ 64) (left : v % 2 ^ 32 < v / 2 ^ 32) : (v / 2 ^ 32 * 2 ^ 32 + v % 2 ^ 32 + 1) % 2 ^ 64 = v + 1 := by omega

/-- The pool word after tasks were added: TOTAL, in its high half, is n more. -/
theorem added_word {v n : Nat} (fits : v / 2 ^ 32 + n < 2 ^ 32) : ((v / 2 ^ 32 + n) * 2 ^ 32 + v % 2 ^ 32) % 2 ^ 64 = v + n * 2 ^ 32 := by omega

/-- What `wtake` of a pool word at `l` does: its result, the word, PC, and nothing to another register or byte. -/
def State.TakesTask (s s1 t : State) (d : Reg5) (l : Nat) : Prop :=
  let v := leNat (memRead 8 l s1.mem)
  (∀ r, r ≠ d → t.gs r = s.gs r) ∧ t.hart.pc = s.hart.pc + 4 ∧ (d ≠ 0 → t.gs d = if v % 2 ^ 32 < v / 2 ^ 32 then BitVec.ofNat 64 (v % 2 ^ 32) else BitVec.allOnes 64) ∧
    leNat (memRead 8 l t.mem) = (if v % 2 ^ 32 < v / 2 ^ 32 then v + 1 else v) ∧ ∀ q, (q < l ∨ l + 8 ≤ q) → memGet t.mem q = memGet s1.mem q

/-- What `wput` of `n` tasks to a pool word at `l` does. -/
def State.AddsTasks (s s1 t : State) (d : Reg5) (n : BitVec 11) (l : Nat) : Prop :=
  let v := leNat (memRead 8 l s1.mem)
  (∀ r, r ≠ d → t.gs r = s.gs r) ∧ t.hart.pc = s.hart.pc + 4 ∧ (d ≠ 0 → t.gs d = if v / 2 ^ 32 + n.toNat < 2 ^ 32 then BitVec.ofNat 64 (v / 2 ^ 32) else BitVec.allOnes 64) ∧
    leNat (memRead 8 l t.mem) = (if v / 2 ^ 32 + n.toNat < 2 ^ 32 then v + n.toNat * 2 ^ 32 else v) ∧ ∀ q, (q < l ∨ l + 8 ≤ q) → memGet t.mem q = memGet s1.mem q

section Quiet

variable {s s1 : State} {d a : Reg5} {l m : Nat} {strict : Bool} (sound : s.hart.sound = true) (aligned : (s.gs a).toNat % 8 = 0) (clear : s.copyHits s.hart.id (s.gs a) 8 = false)
  (clean : s1.bad l 8 = false) (copies : s1.badCopies = []) (settled : s1.settleAtomic s1.hart.id l 8 = { s1 with free := m }) (wf : Memory.wf s1.mem = true)
include sound aligned clear clean copies settled wf

/-- An atomic on a pool word that no buffered write changes first reads and writes it in one step. -/
theorem poolOp_quiet {w : IWord} {rel : Bool} {f : Nat → Nat → Word × Option Nat} (calm : rel = true → s.outstanding s.hart = 0 ∧ s.engineBusy s.hart.id = false)
    (placed : (if rel then (s.checked false [a]).drainAll s.hart.id else s.checked false [a]).translate s.hart.agent .write (s.gs a) = (s1, .loc l strict)) :
    let v := leNat (memRead 8 l s1.mem)
    let r := f (v % 2 ^ 32) (v / 2 ^ 32)
    ∃ t, poolOp { word := w, reads := [a] } d a rel f s = .next t ∧ (∀ r, r ≠ d → t.gs r = s.gs r) ∧ t.hart.pc = s.hart.pc + 4 ∧ (d ≠ 0 → t.gs d = r.1) ∧
      leNat (memRead 8 l t.mem) = (r.2.map (· % 2 ^ 64)).getD v ∧ ∀ q, (q < l ∨ l + 8 ≤ q) → memGet t.mem q = memGet s1.mem q := by
  intro v r
  have hart : s1.hart.s = s.hart.s ∧ s1.hart.pc = s.hart.pc := by
    rw [State.hart_of_translate placed]
    cases rel with
    | false => exact ⟨rfl, rfl⟩
    | true =>
      have kept := ((s.checked false [a]).drainAll_performs (List.subset_append_left ..) (List.subset_append_right ..)).1.kept
      simp only [Hart.kept, Prod.mk.injEq] at kept
      obtain ⟨-, pc, regs, -⟩ := kept
      exact ⟨regs, pc⟩
  exact ⟨_, poolOp_performs sound aligned clear calm placed settled clean copies, State.poolWritten_retired (t := { s1 with free := m }) hart.1 hart.2 wf d r.1 r.2⟩

/-- `wtake` takes the next task of the pool, or finds none. -/
theorem exec_wtake (placed : (s.checked false [a]).translate s.hart.agent .write (s.gs a) = (s1, .loc l strict)) :
    ∃ t, exec (.wtake d a) s = .next t ∧ s.TakesTask s1 t d l := by
  have small : leNat (memRead 8 l s1.mem) < 2 ^ (8 * (memRead 8 l s1.mem).length) := leNat_lt _
  rw [memRead_length] at small
  obtain ⟨t, ran, regs, pc, result, word, rest⟩ := poolOp_quiet sound aligned clear clean copies settled wf (w := wWtake d a) (d := d) (rel := false) (f := takenWord) nofun placed
  refine ⟨t, ran, ?_⟩
  unfold State.TakesTask
  dsimp only
  generalize leNat (memRead 8 l s1.mem) = v at small result word ⊢
  by_cases left : v % 2 ^ 32 < v / 2 ^ 32
  · rw [takenWord_left left] at result word
    rw [Option.map_some, Option.getD_some, taken_word small left] at word
    rw [if_pos left, if_pos left]
    exact ⟨regs, pc, result, word, rest⟩
  · rw [takenWord_none left] at result word
    rw [if_neg left, if_neg left]
    exact ⟨regs, pc, result, word, rest⟩

/-- `wput` adds tasks to the pool once every write that the hart has buffered has performed, or finds TOTAL too large. -/
theorem exec_wput (n : BitVec 11) (ticketless : s.outstanding s.hart = 0) (idle : s.engineBusy s.hart.id = false)
    (placed : ((s.checked false [a]).drainAll s.hart.id).translate s.hart.agent .write (s.gs a) = (s1, .loc l strict)) :
    ∃ t, exec (.wput d a n) s = .next t ∧ s.AddsTasks s1 t d n l := by
  obtain ⟨t, ran, regs, pc, result, word, rest⟩ := poolOp_quiet sound aligned clear clean copies settled wf (w := wWput d a n) (d := d) (rel := true) (f := addedWord n)
    (fun _ => ⟨ticketless, idle⟩) placed
  refine ⟨t, ran, ?_⟩
  unfold State.AddsTasks
  dsimp only
  generalize leNat (memRead 8 l s1.mem) = v at result word ⊢
  by_cases fits : v / 2 ^ 32 + n.toNat < 2 ^ 32
  · rw [addedWord_fits fits] at result word
    rw [Option.map_some, Option.getD_some, added_word fits] at word
    rw [if_pos fits, if_pos fits]
    exact ⟨regs, pc, result, word, rest⟩
  · rw [addedWord_none fits] at result word
    rw [if_neg fits, if_neg fits]
    exact ⟨regs, pc, result, word, rest⟩

end Quiet

/-! ### The pool where every record stands under its own number -/

section Standing

variable {s s1 : State} {d a : Reg5} {l : Nat} {strict : Bool} (sound : s.hart.sound = true) (aligned : (s.gs a).toNat % 8 = 0) (clear : s.copyHits s.hart.id (s.gs a) 8 = false)
  (clean : s1.bad l 8 = false) (copies : s1.badCopies = []) (standing : s1.Standing) (quiet : s1.quietAt l 8 = true) (wf : Memory.wf s1.mem = true)
include sound aligned clear clean copies standing quiet wf

/-- Whatever drains, `wtake` does what it should on a word that no write is buffered for. -/
theorem exec_wtake_standing (placed : (s.checked false [a]).translate s.hart.agent .write (s.gs a) = (s1, .loc l strict)) :
    ∃ t, exec (.wtake d a) s = .next t ∧ s.TakesTask s1 t d l :=
  exec_wtake sound aligned clear clean copies (State.settleAtomic_standing standing quiet) wf placed

/-- Whatever drains, `wput` does what it should on a word that no write is buffered for. -/
theorem exec_wput_standing (n : BitVec 11) (ticketless : s.outstanding s.hart = 0) (idle : s.engineBusy s.hart.id = false)
    (placed : ((s.checked false [a]).drainAll s.hart.id).translate s.hart.agent .write (s.gs a) = (s1, .loc l strict)) :
    ∃ t, exec (.wput d a n) s = .next t ∧ s.AddsTasks s1 t d n l :=
  exec_wput sound aligned clear clean copies (State.settleAtomic_standing standing quiet) wf n ticketless idle placed

end Standing

end Sys2Proof.Machine
end

section
/-! PROOFS. `chsend` in the untranslated windows (11 R272 to R275): every token of a strip is placed, where no buffered write of another hart drains (log 7). -/

namespace Sys2Proof.Machine

open Sys2Proof

/-! ### What the accesses of a strip change -/

/-- A hart but for its vector buffer, its wait and the translations of its instruction. -/
def Hart.still (h : Hart) : Hart := { h with vbuf := [], wseq := 0, wait := .none, resume := .none, places := [] }

theorem Hart.eq_of_still {g h : Hart} (e : g.still = h.still) : g = { h with vbuf := g.vbuf, wseq := g.wseq, wait := g.wait, resume := g.resume, places := g.places } :=
  congrArg (fun x : Hart => { x with vbuf := g.vbuf, wseq := g.wseq, wait := g.wait, resume := g.resume, places := g.places }) e

theorem Hart.wakeOn_still (h : Hart) (l n : Nat) : (h.wakeOn l n).still = h.still := by
  rcases h.wakeOn_cases l n with e | e
  · rw [e]
  · rw [e]
    rfl

theorem Hart.wakeOn_places (h : Hart) (l n : Nat) : (h.wakeOn l n).places = h.places := by
  rcases h.wakeOn_cases l n with e | e
  · rw [e]
  · rw [e]

/-- A dispatch context but for what placing tokens changes: its cursors, NEXT, its drops and its rows. -/
def Churn.fixed (x : Churn) : Churn := { x with cur := [], next := 0, drops := 0, rows := [], rfail := false }

/-- The second state follows the first by accesses of a strip at context `k`, all of them to windows with the locations `f`. -/
structure State.StripStep (f : Nat → Nat) (k : Nat) (s t : State) : Prop where
  hart : t.hart.still = s.hart.still
  cores : t.cores = s.cores
  spOwner : t.spOwner = s.spOwner
  ecc : s.ecc = [] → t.ecc = []
  copies : s.badCopies = [] → t.badCopies = []
  places : placesBy f s.hart.places → placesBy f t.hart.places
  churn : ∀ x, tabGet s.churns k = some x → ∃ y, tabGet t.churns k = some y ∧ y.fixed = x.fixed

/-- No read finds an error, no element is answered, and every translation remembered is to its location. -/
structure State.Fit (f : Nat → Nat) (s : State) : Prop where
  ecc : s.ecc = []
  copies : s.badCopies = []
  answers : s.hart.answers = []
  places : placesBy f s.hart.places

/-- An element is to an address of the untranslated windows, and has its location there. -/
def State.Lands (f : Nat → Nat) (s : State) (e : RElem) : Prop := 0xFFFFF00000000000 ≤ e.addr.toNat ∧ s.window s.hart.agent e.addr = .loc (f e.addr.toNat) false

theorem State.window_congr {s t : State} (cores : t.cores = s.cores) (owner : t.spOwner = s.spOwner) (a : Agent) (va : Word) : t.window a va = s.window a va := by
  unfold State.window State.scratchpad State.clusterMem State.cmBanks State.dieScratch State.getCore
  rw [cores, owner]

/-- A load or a store that has its place in the package. -/
def Placed.plain (p : Placed) : Prop := ∃ e l st, p = .loc e l st ∧ (e.op = .load ∨ e.op = .store)

theorem Placed.plain.here {p : Placed} (h : p.plain) : p.here := by
  obtain ⟨e, l, st, rfl, -⟩ := h
  exact ⟨e, l, st, rfl⟩

namespace State.StripStep

variable {f : Nat → Nat} {k : Nat} {s t u : State}

theorem refl (s : State) : StripStep f k s s := ⟨rfl, rfl, rfl, id, id, id, fun x h => ⟨x, h, rfl⟩⟩

theorem trans (h : StripStep f k s t) (h' : StripStep f k t u) : StripStep f k s u where
  hart := h'.hart.trans h.hart
  cores := h'.cores.trans h.cores
  spOwner := h'.spOwner.trans h.spOwner
  ecc := h'.ecc ∘ h.ecc
  copies := h'.copies ∘ h.copies
  places := h'.places ∘ h.places
  churn x hx := by
    obtain ⟨y, hy, same⟩ := h.churn x hx
    obtain ⟨z, hz, same'⟩ := h'.churn y hy
    exact ⟨z, hz, same'.trans same⟩

theorem id_eq (h : StripStep f k s t) : t.hart.id = s.hart.id := (congrArg Hart.id h.hart : t.hart.still.id = s.hart.still.id)

theorem agent (h : StripStep f k s t) : t.hart.agent = s.hart.agent := (congrArg Hart.agent h.hart : t.hart.still.agent = s.hart.still.agent)

theorem fit (h : StripStep f k s t) (fit : s.Fit f) : t.Fit f :=
  ⟨h.ecc fit.ecc, h.copies fit.copies, (congrArg Hart.answers h.hart : t.hart.still.answers = s.hart.still.answers).trans fit.answers, h.places fit.places⟩

theorem lands (h : StripStep f k s t) {e : RElem} (l : s.Lands f e) : t.Lands f e :=
  ⟨l.1, by rw [h.agent, State.window_congr h.cores h.spOwner]; exact l.2⟩

/-- The issuing hart's buffer, wait or translations change. -/
theorem ofHart {g : Hart} (still : g.still = s.hart.still) (places : placesBy f s.hart.places → placesBy f g.places) : StripStep f k s { s with hart := g } :=
  ⟨still, rfl, rfl, id, id, places, fun x h => ⟨x, h, rfl⟩⟩

/-- Another count of free values. -/
theorem ofFree (n : Nat) : StripStep f k s { s with free := n } := ⟨rfl, rfl, rfl, id, id, id, fun x h => ⟨x, h, rfl⟩⟩

theorem perform (s : State) (l : Nat) (bs : List Byte) : StripStep f k s (s.perform l bs) := by
  obtain ⟨cs, e⟩ := s.perform_cases l bs
  rw [e]
  refine ⟨s.hart.wakeOn_still l bs.length, rfl, rfl, fun h => ?_, fun h => ?_, fun h => ?_, fun x h => ⟨x, h, rfl⟩⟩
  · show repaired s.ecc l bs.length = []
    rw [h]
    rfl
  · show s.badCopies.filter _ = []
    rw [h]
    rfl
  · show placesBy f (s.hart.wakeOn l bs.length).places
    rwa [Hart.wakeOn_places]

theorem performAll : ∀ (ps : List PendWrite) (s : State), StripStep f k s (s.performAll ps)
  | [], s => refl s
  | p :: ps, s => by
    obtain ⟨bs, e, -⟩ := s.performWrite_eq p
    exact (e ▸ perform s p.loc bs : StripStep f k s (s.performWrite p)).trans (performAll ps _)

theorem drainWhere (s : State) (p : PendWrite → Bool) : StripStep f k s (s.drainWhere s.hart.id p) := by
  rw [State.drainWhere_own]
  split
  · exact refl s
  · exact (ofHart (g := { s.hart with vbuf := (splitWrites p s.hart.vbuf).2 }) rfl id).trans (performAll _ _)

theorem roomInLane (lane : Nat) : ∀ (n : Nat) (s : State), StripStep f k s (s.roomInLane s.hart.id lane n)
  | 0, s => refl s
  | n + 1, s => by
    rw [State.roomInLane]
    simp only [State.getHart_own]
    split
    · exact refl s
    next p _ =>
      split
      · exact refl s
      · have first := drainWhere (f := f) (k := k) s (fun q => q.seq == p.seq)
        have rest := roomInLane lane n (s.drainWhere s.hart.id (fun q => q.seq == p.seq))
        rw [first.id_eq] at rest
        exact first.trans rest

/-- A write enters the vector buffer. -/
theorem bufferV (s : State) (l : Nat) (bs : List Byte) (va : Word) (i : Nat) : StripStep f k s (s.bufferV s.hart.id l bs none va i) := by
  unfold State.bufferV
  dsimp only
  have room := roomInLane (f := f) (k := k) ((s.getHart s.hart.id).laneOf i) 16 s
  generalize s.roomInLane s.hart.id ((s.getHart s.hart.id).laneOf i) 16 = t at room ⊢
  have own : t.getHart s.hart.id = t.hart := by rw [← room.id_eq, State.getHart_own]
  rw [own, State.setHart, if_pos rfl]
  exact room.trans (ofHart rfl id)

/-- Packets are sent. -/
theorem ofSent (ps : List Packet) (n : Nat) : StripStep f k s { s with sent := ps, seq := n } := ⟨rfl, rfl, rfl, id, id, id, fun x h => ⟨x, h, rfl⟩⟩

/-- The churn context is given other rows. -/
theorem setChurn {x y : Churn} (own : tabGet s.churns k = some x) (same : y.fixed = x.fixed) : StripStep f k s (s.setChurn k y) :=
  ⟨rfl, rfl, rfl, id, id, id, fun _ h => ⟨y, tabGet_tabPut_same _ _ _, same.trans (congrArg Churn.fixed (Option.some.inj (own.symm.trans h)))⟩⟩

theorem sendRow (s : State) (r : ChurnRow) : StripStep f k s (s.sendRow k r) := by
  unfold State.sendRow
  split
  · exact refl s
  next x own =>
    split
    · exact (ofSent _ _).trans (setChurn (x := x) (y := { x with rows := _ }) own rfl)
    · exact setChurn (x := x) own rfl

/-- The rows for a REMOTE expert are sent, or fail. -/
theorem remoteRow (s : State) (e slot pkg : Nat) (va : Word) (bs : List Byte) : StripStep f k s (s.remoteRow k e slot pkg va bs) := by
  unfold State.remoteRow
  generalize blockElems 0 .store 0 (blockPieces (bs.length + 1) va bs.length) bs = ps
  generalize s.hart = h
  induction ps generalizing s with
  | nil => exact refl s
  | cons p ps ih => exact (sendRow s _).trans (ih _)

section Undrained

variable (undrained : ∀ n, Config.drained n = false)
include undrained

/-- A store that stands in the way of an access may have performed, and here has not. -/
theorem mayTake (s u : State) (c : Bool) : StripStep f k s (if c = true then s else if Config.drained s.free = true then u else s.took) := by
  rw [undrained]
  cases c with
  | true => exact refl s
  | false => exact ofFree (s.free + 1)

theorem settleOthers (s : State) (own l n : Nat) : StripStep f k s (s.settleOthers own l n) := by
  obtain ⟨m, e⟩ := State.settleOthers_undrained undrained s own l n
  rw [e]
  exact ofFree m

theorem settleVector (s : State) (l n : Nat) (va : Word) : StripStep f k s (s.settleVector s.hart.id l n va) := by
  unfold State.settleVector
  exact ((drainWhere s _).trans (mayTake undrained _ _ _)).trans (settleOthers undrained _ _ _ _)

/-- An element of a strip performs, at whatever location: its read finds no error. -/
theorem performElem {e : RElem} (fit : s.Fit f) (op : e.op = .load ∨ e.op = .store) (l : Nat) :
    ∃ t d, s.performElem s.hart.id false l e = (t, .done d false) ∧ StripStep f k s t := by
  rcases op with op | op
  · have settled := settleVector (f := f) (k := k) undrained s l e.n e.addr
    have fit' := settled.fit fit
    have clean : (s.settleVector s.hart.id l e.n e.addr).bad l e.n = false := by
      rw [State.bad, fit'.ecc]
      rfl
    refine ⟨_, leNat (memRead e.n l (s.settleVector s.hart.id l e.n e.addr).mem), ?_, settled⟩
    simp only [State.performElem, op, Bool.false_eq_true, if_false, State.readError_clean _ _ _ clean fit'.copies]
  · refine ⟨_, 0, ?_, bufferV s l (natLe e.n e.data) e.addr e.idx⟩
    simp only [State.performElem, op, Bool.false_eq_true, if_false]

/-- Placed elements of a strip perform. -/
theorem performPlaced : ∀ {ps : List Placed} {s : State}, s.Fit f → (∀ p ∈ ps, p.plain) → ∃ t ds, s.performPlaced s.hart.id true ps = (t, ds, .done) ∧ StripStep f k s t
  | [], s, _, _ => ⟨s, [], rfl, refl s⟩
  | p :: ps, s, fit, plain => by
    obtain ⟨e, l, st, rfl, op⟩ := plain p (List.mem_cons_self ..)
    obtain ⟨t, d, performed, first⟩ := performElem (k := k) undrained fit op l
    obtain ⟨u, ds, rest_performed, rest⟩ := performPlaced (first.fit fit) (fun q hq => plain q (List.mem_cons_of_mem _ hq))
    rw [first.id_eq] at rest_performed
    refine ⟨u, (e.idx, d) :: ds, ?_, first.trans rest⟩
    simp only [State.performPlaced, performed, rest_performed]

end Undrained

/-- Elements that land are placed, and perform there where they are loads and stores. -/
theorem placeAll {es : List RElem} (fit : s.Fit f) (lands : ∀ e ∈ es, s.Lands f e) :
    ∃ t, s.placeAll s.hart.id .translate es = (t, es.map (fun e => .loc e (f e.addr.toNat) false)) ∧ StripStep f k s t := by
  obtain ⟨ps, placed, by_f⟩ := State.placeAll_plain f es s fit.answers fit.places (fun e he ps => by
    obtain ⟨high, at_⟩ := lands e he
    have canon : canonical e.addr = true := by
      have top : e.addr.toNat / 2 ^ 54 = 0x3FF := by have := e.addr.isLt; omega
      rw [canonical, top]
      rfl
    simp only [State.translateVia, canon, Bool.true_eq_false, if_false, high, if_true]
    exact congrArg (Prod.mk _) at_)
  exact ⟨_, placed, ofHart rfl (fun _ => by_f)⟩

end State.StripStep

/-! ### The accesses of a token (R270, R272) -/

theorem rowElems_op (op : ROp) (i : Nat) (va : Word) (n : Nat) (bs : List Byte) : ∀ e ∈ rowElems op i va n bs, e.op = op := by
  have go : ∀ (ps : List (Word × Nat)) (k : Nat) (bs : List Byte), ∀ e ∈ rowElems.go op i k ps bs, e.op = op := by
    intro ps
    induction ps with
    | nil => exact fun _ _ e he => absurd he List.not_mem_nil
    | cons p ps ih =>
      intro k bs e he
      rcases List.mem_cons.1 he with rfl | he
      · rfl
      · exact ih (k + 1) (bs.drop p.2) e he
  exact go _ 0 bs

theorem tokElems_op {i tag : Nat} {op : ROp} {va : Word} {n : Nat} {bs : List Byte} {e : RElem} (he : e ∈ tokElems i tag op va n bs) : e.op = op := by
  obtain ⟨e', he', rfl⟩ := List.mem_map.1 he
  exact rowElems_op op i va n bs e' he'

theorem choiceElems_load {r : List Byte} {i t : Nat} {e : RElem} (he : e ∈ choiceElems r i t) : e.op = .load := by
  obtain ⟨c, -, he⟩ := List.mem_flatMap.1 he
  exact tokElems_op he

theorem Churn.pairReads_load {x : Churn} {i t : Nat} {p : Pair} {e : RElem} (he : e ∈ x.pairReads i t p) : e.op = .load := by
  unfold Churn.pairReads at he
  split at he
  · rcases List.mem_append.1 he with he | he
    · split at he
      · exact absurd he List.not_mem_nil
      · exact tokElems_op he
    · exact tokElems_op he
  · exact absurd he List.not_mem_nil

theorem Churn.pairWrites_store {x : Churn} {i t : Nat} {p : Pair} {gate row : List Byte} {e : RElem} (he : e ∈ x.pairWrites i t p gate row) : e.op = .store := by
  unfold Churn.pairWrites at he
  dsimp only at he
  split at he
  · exact tokElems_op he
  · rcases List.mem_append.1 he with he | he
    · rcases List.mem_append.1 he with he | he
      · split at he
        · exact absurd he List.not_mem_nil
        · exact tokElems_op he
      · split at he
        · exact absurd he List.not_mem_nil
        · exact tokElems_op he
    · exact tokElems_op he
  · rcases List.mem_append.1 he with he | he
    · split at he
      · exact tokElems_op he
      · exact absurd he List.not_mem_nil
    · exact tokElems_op he

/-- Where a pair may go: a slot below C of an expert, or a place below DMAX of the drop log (R272). -/
def Churn.Admits (x : Churn) (p : Pair) : Prop :=
  match p.to_ with
  | .row q => p.e < dispE x.cap ∧ q < dispC x.cap
  | .drop (some q) => p.e < dispE x.cap ∧ q < dispDmax x.cap
  | _ => True

/-- The pairs of a token: its choices from the first, each at an admitted place. -/
theorem Churn.pairs_admitted : ∀ (es : List Nat) (x : Churn) (c : Nat), ∀ p ∈ (x.pairs c es).1, p.c < c + es.length ∧ x.Admits p
  | [], _, _, p, hp => absurd hp List.not_mem_nil
  | e :: es, x, c, p, hp => by
    have later : ∀ (y : Churn), y.cap = x.cap → p ∈ (y.pairs (c + 1) es).1 → p.c < c + (e :: es).length ∧ x.Admits p := fun y cap hy => by
      obtain ⟨below, admitted⟩ := pairs_admitted es y (c + 1) p hy
      unfold Churn.Admits at admitted ⊢
      rw [cap] at admitted
      exact ⟨by rw [List.length_cons]; omega, admitted⟩
    have first : c < c + (e :: es).length := by rw [List.length_cons]; omega
    rw [Churn.pairs] at hp
    split at hp
    · rcases List.mem_cons.1 hp with rfl | hp
      · exact ⟨first, trivial⟩
      · exact later x rfl hp
    next expert =>
      dsimp only at hp
      split at hp
      next slot =>
        rcases List.mem_cons.1 hp with rfl | hp
        · exact ⟨first, Nat.not_le.1 expert, slot⟩
        · exact later { x with cur := countUp x.cur e } rfl hp
      · rcases List.mem_cons.1 hp with rfl | hp
        · refine ⟨first, ?_⟩
          unfold Churn.Admits
          dsimp only
          split
          next log eq => exact nomatch eq
          next q eq =>
            rw [Slotted.drop.injEq] at eq
            split at eq
            next room => exact ⟨Nat.not_le.1 expert, Option.some.inj eq ▸ room⟩
            · exact nomatch eq
          · trivial
        · exact later { x with cur := countUp x.cur e, drops := (x.drops + 1) % 2 ^ 32 } rfl hp

/-- A property of every element that token `t`, as element `i`, can address. -/
def Churn.Addresses (x : Churn) (i t : Nat) (P : RElem → Prop) : Prop :=
  ∀ p : Pair, p.c < dispK x.cap → x.Admits p →
    ∀ e ∈ choiceElems x.cap i t ++ x.pairReads i t p ++ x.pairWrites i t p (List.replicate 2 0) (List.replicate (dispRowb x.cap) 0), P e

/-- Which elements a token can address does not change while tokens are placed. -/
theorem Churn.Addresses.congr {x y : Churn} {i t : Nat} {P : RElem → Prop} (same : y.fixed = x.fixed) (h : x.Addresses i t P) : y.Addresses i t P := by
  have at_x : x.fixed.Addresses i t P := h
  exact (same ▸ at_x : y.fixed.Addresses i t P)

theorem Churn.Addresses.choices {x : Churn} {i t : Nat} {P : RElem → Prop} (h : x.Addresses i t P) : ∀ e ∈ choiceElems x.cap i t, P e := fun e he => by
  obtain ⟨c, hc, -⟩ := List.mem_flatMap.1 he
  exact h ⟨c, 0, .none⟩ (List.mem_range.1 hc) trivial e (List.mem_append_left _ (List.mem_append_left _ he))

end Sys2Proof.Machine
end

section
/-! PROOFS. The tokens of a strip in the untranslated windows, one after the other (11 R272, R274). -/

namespace Sys2Proof.Machine

open Sys2Proof

/-- A placed element with the bytes of a store is a store in its place. -/
theorem Placed.withData_plain {p : Placed} {e : RElem} (h : p.here) (op : e.op = .store) : (p.withData e).plain := by
  obtain ⟨e', l, st, rfl⟩ := h
  exact ⟨e, l, st, rfl, .inr op⟩

theorem zipWith_withData_plain : ∀ {ps : List Placed} {es : List RElem}, (∀ p ∈ ps, p.here) → (∀ e ∈ es, e.op = .store) → ∀ p ∈ List.zipWith Placed.withData ps es, p.plain
  | [], _, _, _, p, hp => by simp at hp
  | _ :: _, [], _, _, p, hp => by simp at hp
  | q :: ps, e :: es, here, op, p, hp => by
    rcases List.mem_cons.1 hp with rfl | hp
    · exact Placed.withData_plain (here q (List.mem_cons_self ..)) (op e (List.mem_cons_self ..))
    · exact zipWith_withData_plain (fun q hq => here q (List.mem_cons_of_mem _ hq)) (fun e he => op e (List.mem_cons_of_mem _ he)) p hp

/-- Elements placed at locations are plain where they are loads or stores. -/
theorem plain_of_locs {es : List RElem} {f : RElem → Nat} (op : ∀ e ∈ es, e.op = .load ∨ e.op = .store) : ∀ p ∈ es.map (fun e => Placed.loc e (f e) false), p.plain := fun p hp => by
  obtain ⟨e, he, rfl⟩ := List.mem_map.1 hp
  exact ⟨e, f e, false, rfl, op e he⟩

theorem faultsOf_plain {ps : List Placed} (h : ∀ p ∈ ps, p.plain) : faultsOf ps = [] := faultsOf_here (fun p hp => (h p hp).here)

theorem needsOf_plain {ps : List Placed} (h : ∀ p ∈ ps, p.plain) : needsOf ps = [] := needsOf_here (fun p hp => (h p hp).here)

/-- What holds of every element that a token can address holds of those of the pairs of its choices. -/
theorem Churn.Addresses.pairs {x : Churn} {i t : Nat} {P : RElem → Prop} (h : x.Addresses i t P) {cs : List Nat} (length : cs.length = dispK x.cap) :
    (∀ e ∈ (x.pairs 0 cs).1.flatMap (x.pairReads i t), P e ∧ e.op = .load) ∧
      ∀ e ∈ (x.pairs 0 cs).1.flatMap (fun p => x.pairWrites i t p (List.replicate 2 0) (List.replicate (dispRowb x.cap) 0)), P e ∧ e.op = .store := by
  have admitted : ∀ p ∈ (x.pairs 0 cs).1, p.c < dispK x.cap ∧ x.Admits p := fun p hp => by
    have := Churn.pairs_admitted cs x 0 p hp
    rwa [length, Nat.zero_add] at this
  constructor
  · intro e he
    obtain ⟨p, hp, he⟩ := List.mem_flatMap.1 he
    obtain ⟨below, at_⟩ := admitted p hp
    exact ⟨h p below at_ e (List.mem_append_left _ (List.mem_append_right _ he)), Churn.pairReads_load he⟩
  · intro e he
    obtain ⟨p, hp, he⟩ := List.mem_flatMap.1 he
    obtain ⟨below, at_⟩ := admitted p hp
    exact ⟨h p below at_ e (List.mem_append_right _ he), Churn.pairWrites_store he⟩

/-- What a pair sends to another package: its row, where its expert is REMOTE (R275). -/
def State.pairRemote (s : State) (k : Nat) (x : Churn) (p : Pair) (row : List Byte) : State :=
  match p.to_, (x.place p.e).remote with
  | .row slot, some pkg => s.remoteRow k p.e slot pkg (x.dest p.e slot) row
  | _, _ => s

theorem State.StripStep.pairRemote {f : Nat → Nat} {k : Nat} (s : State) (x : Churn) (p : Pair) (row : List Byte) : StripStep f k s (s.pairRemote k x p row) := by
  unfold State.pairRemote
  split
  · exact .remoteRow _ _ _ _ _ _
  · exact .refl s

/-- A pair whose reads and writes perform, and then the others. -/
theorem State.sendPairs_cons {s s1 s2 u : State} {k i t : Nat} {x : Churn} {p : Pair} {ps : List Pair} {pr pw : List Placed} {ds ds' : List (Nat × Nat)} {ws : List RElem}
    (hws : x.pairWrites i t p (tagBytes (x.pairReads i t p) ds (8 * p.c + 1)) (tagBytes (x.pairReads i t p) ds (8 * p.c + 2)) = ws)
    (read : s.performPlaced s.hart.id true (pr.take (x.pairReads i t p).length) = (s1, ds, .done))
    (written : s1.performPlaced s.hart.id true (List.zipWith Placed.withData (pw.take ws.length) ws) = (s2, ds', .done))
    (needs : needsOf (List.zipWith Placed.withData (pw.take ws.length) ws) = [])
    (sent : (s2.pairRemote k x p (tagBytes (x.pairReads i t p) ds (8 * p.c + 2))).sendPairs k x i t ps (pr.drop (x.pairReads i t p).length) (pw.drop ws.length) = (u, [], none)) :
    s.sendPairs k x i t (p :: ps) pr pw = (u, [], none) := by
  rw [State.pairRemote] at sent
  rw [State.sendPairs]
  simp only [read, hws, written, needs, List.nil_append]
  exact sent

section Undrained

variable (undrained : ∀ n, Config.drained n = false) {f : Nat → Nat} {k : Nat}
include undrained

/-- The pairs of a token perform in order, and need nothing from another package. -/
theorem State.sendPairs_windows (x : Churn) (i t : Nat) : ∀ (pairs : List Pair) (s : State) (pr pw : List Placed), s.Fit f → (∀ p ∈ pr, p.plain) → (∀ p ∈ pw, p.here) →
    ∃ u, s.sendPairs k x i t pairs pr pw = (u, [], none) ∧ StripStep f k s u
  | [], s, _, _, _, _, _ => ⟨s, rfl, .refl s⟩
  | p :: ps, s, pr, pw, fit, reads, writes => by
    obtain ⟨s1, ds, read, first⟩ := State.StripStep.performPlaced (k := k) undrained fit (ps := pr.take (x.pairReads i t p).length) (fun q hq => reads q (List.mem_of_mem_take hq))
    obtain ⟨ws, hws⟩ : ∃ ws, x.pairWrites i t p (tagBytes (x.pairReads i t p) ds (8 * p.c + 1)) (tagBytes (x.pairReads i t p) ds (8 * p.c + 2)) = ws := ⟨_, rfl⟩
    have plain := zipWith_withData_plain (ps := pw.take ws.length) (es := ws) (fun q hq => writes q (List.mem_of_mem_take hq)) (fun e he => Churn.pairWrites_store (hws ▸ he))
    obtain ⟨s2, ds', written, second⟩ := State.StripStep.performPlaced (k := k) undrained (first.fit fit) plain
    have needs := needsOf_here (fun q hq => (plain q hq).here)
    rw [first.id_eq] at written
    have all := (first.trans second).trans (.pairRemote s2 x p (tagBytes (x.pairReads i t p) ds (8 * p.c + 2)))
    obtain ⟨u, sent, rest⟩ := sendPairs_windows x i t ps _ (pr.drop (x.pairReads i t p).length) (pw.drop ws.length) (all.fit fit)
      (fun q hq => reads q (List.mem_of_mem_drop hq)) (fun q hq => writes q (List.mem_of_mem_drop hq))
    exact ⟨u, State.sendPairs_cons hws read written needs sent, all.trans rest⟩

/-- A token whose elements all land is placed, and NEXT is past it. -/
theorem State.sendToken_windows {s : State} {x : Churn} {i t : Nat} (slot : tabGet s.churns k = some x) (fit : s.Fit f) (lands : x.Addresses i t (s.Lands f)) :
    ∃ u y, s.sendToken k i t = .ok u ∧ StripStep f k s u ∧ tabGet u.churns k = some y ∧ y.next = t + 1 := by
  obtain ⟨s1, placed, first⟩ := State.StripStep.placeAll (k := k) fit lands.choices
  have plain := plain_of_locs (f := fun e => f e.addr.toNat) (fun e he => .inl (choiceElems_load (r := x.cap) (i := i) (t := t) he))
  obtain ⟨s2, ds, read, second⟩ := State.StripStep.performPlaced (k := k) undrained (first.fit fit) plain
  have chosen := first.trans second
  rw [first.id_eq] at read
  obtain ⟨cs, hcs⟩ : ∃ cs, (List.range (dispK x.cap)).map (fun c => leNat (tagBytes (choiceElems x.cap i t) ds (8 * c))) = cs := ⟨_, rfl⟩
  obtain ⟨reads, writes⟩ := lands.pairs (cs := cs) (by rw [← hcs, List.length_map, List.length_range])
  obtain ⟨s3, readsPlaced, third⟩ := State.StripStep.placeAll (k := k) (chosen.fit fit) (fun e he => chosen.lands (reads e he).1)
  have thus := chosen.trans third
  obtain ⟨s4, writesPlaced, fourth⟩ := State.StripStep.placeAll (k := k) (thus.fit fit) (fun e he => thus.lands (writes e he).1)
  have before := thus.trans fourth
  rw [chosen.id_eq] at readsPlaced
  rw [thus.id_eq] at writesPlaced
  have plainReads := plain_of_locs (f := fun e => f e.addr.toNat) (fun e he => .inl (reads e he).2)
  have plainWrites := plain_of_locs (f := fun e => f e.addr.toNat) (fun e he => .inr (writes e he).2)
  obtain ⟨s5, sent, fifth⟩ := State.sendPairs_windows (k := k) undrained x i t (x.pairs 0 cs).1 s4 _ _ (before.fit fit) plainReads (fun p hp => (plainWrites p hp).here)
  have all := before.trans fifth
  obtain ⟨z, slot', -⟩ := all.churn x slot
  refine ⟨_, { z with cur := (x.pairs 0 cs).2.cur, drops := (x.pairs 0 cs).2.drops, next := t + 1 }, ?_, all.trans (.setChurn (y := { z with cur := (x.pairs 0 cs).2.cur, drops := (x.pairs 0 cs).2.drops, next := t + 1 }) slot' rfl), tabGet_tabPut_same _ _ _, rfl⟩
  unfold State.sendToken
  simp only [slot, placed, read, hcs, readsPlaced, writesPlaced, sent, faultsOf_plain plain, needsOf_plain plain, faultsOf_plain plainReads, faultsOf_plain plainWrites, needsOf_plain plainReads,
    List.append_nil, ne_eq, not_true_eq_false, if_false, State.updChurn, slot']

/-- Every token of a strip whose elements all land is placed. -/
theorem State.sendStrip_windows (b : Nat) : ∀ (n i : Nat) (s : State) (x : Churn), tabGet s.churns k = some x → x.next = b + i → s.Fit f →
    (∀ i', i ≤ i' → i' < i + n → x.Addresses i' (b + i') (s.Lands f)) →
    ∃ u y, s.sendStrip k b none n i = .done u ∧ StripStep f k s u ∧ tabGet u.churns k = some y ∧ y.next = b + (i + n)
  | 0, i, s, x, slot, next, _, _ => ⟨s, x, rfl, .refl s, slot, next⟩
  | n + 1, i, s, x, slot, _, fit, lands => by
    obtain ⟨s1, y, sent, first, slot', next⟩ := State.sendToken_windows undrained slot fit (lands i (Nat.le_refl i) (by omega))
    obtain ⟨z, same_slot, same⟩ := first.churn x slot
    have fixed : y.fixed = x.fixed := (congrArg Churn.fixed (Option.some.inj (slot'.symm.trans same_slot))).trans same
    obtain ⟨u, w, rest_sent, rest, slot'', next'⟩ := sendStrip_windows b n (i + 1) s1 y slot' next (first.fit fit) (fun i' lo hi =>
      Churn.Addresses.congr fixed (fun p hp ha e he => first.lands (lands i' (by omega) (by omega) p hp ha e he)))
    refine ⟨u, w, ?_, first.trans rest, slot'', next'.trans (by omega)⟩
    simp only [State.sendStrip, reduceCtorEq, if_false, sent, rest_sent]

end Undrained

/-- Waking the strips at a context changes the wait of a hart at most. -/
theorem State.StripStep.wakeStrips {f : Nat → Nat} {k : Nat} (s : State) (g : Nat → Bool) (r : Resume) : StripStep f k s (s.wakeStrips k g r) := by
  obtain ⟨w, v, e⟩ : ∃ w v, (s.wakeStrips k g r).hart = { s.hart with wait := w, resume := v } := by
    unfold State.wakeStrips State.mapHarts
    dsimp only
    split
    · split
      · exact ⟨.none, r, rfl⟩
      · exact ⟨s.hart.wait, s.hart.resume, rfl⟩
    · exact ⟨s.hart.wait, s.hart.resume, rfl⟩
  refine ⟨?_, rfl, rfl, id, id, fun h => ?_, fun x h => ⟨x, h, rfl⟩⟩
  · rw [e]
    rfl
  · rw [e]
    exact h

/-- The writes of the tokens that have committed perform, and the strips that may go on are woken; the context stands. -/
theorem State.StripStep.committed {f : Nat → Nat} {k : Nat} (s : State) : StripStep f k s (s.committed k) := by
  have drained : StripStep f k s s.drainEntry := .drainWhere s _
  unfold State.committed
  dsimp only
  split
  · exact drained.trans (.wakeStrips _ _ _)
  · exact drained

end Sys2Proof.Machine
end

section
/-! PROOFS. `chsend` of a strip that the untranslated windows hold (11 R272 to R274). -/

namespace Sys2Proof.Machine

open Sys2Proof

theorem Churn.eq_of_fixed {x y : Churn} (same : y.fixed = x.fixed) : y = { x with cur := y.cur, next := y.next, drops := y.drops, rows := y.rows, rfail := y.rfail } :=
  congrArg (fun z : Churn => { z with cur := y.cur, next := y.next, drops := y.drops, rows := y.rows, rfail := y.rfail }) same

/-- Performing the writes of a strip and waking others leaves the contexts. -/
theorem State.committed_churns (s : State) (k : Nat) : (s.committed k).churns = s.churns := by
  have drained : s.drainEntry.churns = s.churns :=
    State.drainWhere_keeps (f := State.churns) (fun s l bs => by obtain ⟨cs, e⟩ := s.perform_cases l bs; rw [e]) (fun _ _ _ => rfl) s _
  unfold State.committed
  dsimp only
  split
  · exact drained
  · exact drained

/-- The location that a place is, 0 where it is none. -/
def Place.spot : Place → Nat
  | .loc l _ => l
  | _ => 0

/-- The location of an address of the untranslated windows. -/
def State.spot (s : State) (a : Nat) : Nat := (s.window s.hart.agent (BitVec.ofNat 64 a)).spot

theorem State.spot_eq {s : State} {va : Word} {q : Nat} (at_ : s.window s.hart.agent va = .loc q false) : s.spot va.toNat = q := by
  have same : BitVec.ofNat 64 va.toNat = va := by simp
  exact (congrArg (fun a => (s.window s.hart.agent a).spot) same).trans (congrArg Place.spot at_)

/-- A hart that ran the accesses of a strip is, past the instruction, the hart that retired it but for its buffer and what it remembers. -/
theorem Hart.strip_past {h g : Hart} {j : BitVec 1} {d : Reg5} {x : Word} {k : Lock} {o : Bool}
    (still : g.still = ({ h.going h.begin_ (h.convoyWith .engine j [d]) with lock := k, opened := o } : Hart).still) :
    let r : Hart := { (g.ps d x).past ((g.ps d x).pc + 4) (g.ps d x).convoy with vstart := 0, places := (g.ps d x).places, refuse := (g.ps d x).refuse }
    r = ({ (h.vectorPast 4 .engine j [d]).ps d x with vbuf := r.vbuf, wseq := r.wseq } : Hart).keeping r := by
  intro r
  have whole := Hart.eq_of_still still
  generalize g.vbuf = vb, g.wseq = ws, g.wait = wt, g.resume = rs, g.places = pl at whole
  subst whole
  unfold r Hart.ps
  split
  · rfl
  · rfl

section Undrained

variable (undrained : ∀ n, Config.drained n = false) {s : State} {d hr b : Reg5} {j : BitVec 1} {x : Churn} (hm : s.hart.mayJoin .engine j = true)
  (handle : churnHandleOk (s.gs hr) = true) (slot : tabGet s.churns (churnKey (s.gs hr)) = some x) (owner : x.owner = s.hart.ctxid)
  (resume : s.hart.resume ≠ .aborted) (free : s.claimed (churnKey (s.gs hr)) = false) (right : x.status 2 = 0) (within : (s.gs b).toNat + s.hart.vl ≤ dispT x.cap)
  (more : s.hart.vstart.toNat < s.hart.vl) (turn : (s.gs b).toNat + s.hart.vstart.toNat = x.next)
include undrained slot more turn

/-- The tokens of a strip all of whose elements lie in the windows are placed, from the state that has joined. -/
theorem State.sendStrip_joined (answers : s.hart.answers = []) (cur : s.hart.cur = []) (ecc : s.ecc = []) (copies : s.badCopies = [])
    (windows : ∀ i, s.hart.vstart.toNat ≤ i → i < s.hart.vl → x.Addresses i ((s.gs b).toNat + i) (fun e => 0xFFFFF00000000000 ≤ e.addr.toNat ∧ ∃ q, s.window s.hart.agent e.addr = .loc q false)) :
    ∃ lk t y, ((s.joined .engine j [d]).openLock s.hart.id []).sendStrip (churnKey (s.gs hr)) (s.gs b).toNat none (s.hart.vl - s.hart.vstart.toNat) s.hart.vstart.toNat = .done t ∧
      t.hart.still = ({ s.hart.going s.hart.begin_ (s.hart.convoyWith .engine j [d]) with lock := lk, opened := true } : Hart).still ∧
        tabGet t.churns (churnKey (s.gs hr)) = some y ∧ y.fixed = x.fixed ∧ y.next = (s.gs b).toNat + s.hart.vl := by
  obtain ⟨lk, opened⟩ := (s.joined .engine j [d]).openLock_own []
  rw [State.joined_id, State.joined_hart] at opened
  obtain ⟨S, hS⟩ : ∃ S, (s.joined .engine j [d]).openLock s.hart.id [] = S := ⟨_, rfl⟩
  rw [hS] at opened ⊢
  have hart : S.hart = { s.hart.going s.hart.begin_ (s.hart.convoyWith .engine j [d]) with lock := lk, opened := true } := by rw [opened]
  have agent : S.hart.agent = s.hart.agent := by rw [hart]; rfl
  have slot' : tabGet S.churns (churnKey (s.gs hr)) = some x := by rw [opened]; exact slot
  have cores : S.cores = s.cores ∧ S.spOwner = s.spOwner ∧ S.ecc = s.ecc ∧ S.badCopies = s.badCopies := by rw [opened]; exact ⟨rfl, rfl, rfl, rfl⟩
  obtain ⟨cores, spOwner, sameEcc, sameCopies⟩ := cores
  have places : S.hart.places = [] := by
    rw [hart]
    show s.hart.begin_.places = []
    rw [Hart.begin_, cur]
    rfl
  have fit : S.Fit s.spot := by
    refine ⟨sameEcc.trans ecc, sameCopies.trans copies, ?_, ?_⟩
    · rw [hart]
      exact answers
    · rw [places]
      exact fun m hm => absurd hm List.not_mem_nil
  have lands : ∀ i, s.hart.vstart.toNat ≤ i → i < s.hart.vstart.toNat + (s.hart.vl - s.hart.vstart.toNat) → x.Addresses i ((s.gs b).toNat + i) (S.Lands s.spot) := fun i lo hi p hp ha e he => by
    obtain ⟨high, q, at_⟩ := windows i lo (by omega) p hp ha e he
    refine ⟨high, ?_⟩
    rw [agent, State.window_congr cores spOwner, at_, State.spot_eq at_]
  obtain ⟨t, y, sent, step, slot'', next⟩ := State.sendStrip_windows undrained (s.gs b).toNat (s.hart.vl - s.hart.vstart.toNat) s.hart.vstart.toNat S x slot' turn.symm fit lands
  obtain ⟨z, same_slot, fixed⟩ := step.churn x slot'
  refine ⟨lk, t, y, sent, step.hart.trans (congrArg Hart.still hart), slot'', (congrArg Churn.fixed (Option.some.inj (slot''.symm.trans same_slot))).trans fixed, next.trans (by omega)⟩

include hm handle owner resume free right within

/-- A strip whose turn it is, and all of whose elements lie in the windows, completes: NEXT is past it. -/
theorem exec_chsend_windows (calm : (s.joined .engine j [d]).undisturbed = true) (answers : s.hart.answers = []) (cur : s.hart.cur = []) (ecc : s.ecc = []) (copies : s.badCopies = [])
    (windows : ∀ i, s.hart.vstart.toNat ≤ i → i < s.hart.vl → x.Addresses i ((s.gs b).toNat + i) (fun e => 0xFFFFF00000000000 ≤ e.addr.toNat ∧ ∃ q, s.window s.hart.agent e.addr = .loc q false)) :
    ∃ u y, exec (.chsend d hr b j) s = .next u ∧ tabGet u.churns (churnKey (s.gs hr)) = some y ∧
      y = { x with next := (s.gs b).toNat + s.hart.vl, cur := y.cur, drops := y.drops, rows := y.rows, rfail := y.rfail } ∧
      u.hart = ({ (s.hart.vectorPast 4 .engine j [d]).ps d 0 with vbuf := u.hart.vbuf, wseq := u.hart.wseq } : Hart).keeping u.hart := by
  obtain ⟨lk, t, y, sent, still, slot', fixed, next⟩ := State.sendStrip_joined (d := d) (j := j) undrained slot more turn answers cur ecc copies windows
  have committed : State.StripStep s.spot (churnKey (s.gs hr)) t (t.committed (churnKey (s.gs hr))) := .committed t
  refine ⟨_, y, exec_chsend_sends hm handle slot owner resume free right within more turn calm sent, ?_, ?_, Hart.strip_past (committed.hart.trans still)⟩
  · show tabGet (t.committed _).churns _ = some y
    rw [State.committed_churns]
    exact slot'
  · rw [← next]
    exact Churn.eq_of_fixed fixed

end Undrained

end Sys2Proof.Machine
end

section
/-! PROOFS. What O52 comes to: it holds exactly where no buffered write ever drains before it must. In a state where a record stands under another hart's number, whether the other hart's
buffered write performs before a pool word is read is `Config.drained`'s to say (log 7), an opaque constant of which nothing can be proved. -/

namespace Sys2Proof.Machine

open Sys2Proof

/-! ### A pool word that a stray record's hart writes -/

/-- The store that firmware core 1 has buffered. -/
def strayWrite : PendWrite := ⟨0, 0, [1], 0, none, 0, 0, ⟨0, []⟩⟩

/-- `strayBuffer`, with a store of a 1 to location 0. No run reaches it, but the statement is about every state. -/
def strayStore : State := { strayBuffer with eweok := eweokInit.set 1 { Hart.init 4097 with sbuf := [strayWrite] } }

/-- `strayStore` at a count of free values. -/
def strayPool (n : Nat) : State := { strayStore with free := n }

theorem strayPool_placed (n : Nat) : ((strayPool n).checked false [0]).translate (strayPool n).hart.agent .write ((strayPool n).gs 0) = (strayPool n, .loc 0 false) :=
  State.translateVia_firm true .write rfl rfl (show (0 : Word).toNat < _ by decide)

/-! The count of free values is no part of what harts have buffered, nor of what performing writes does. -/

theorem State.getHart_free (s : State) (n id : Nat) : ({ s with free := n } : State).getHart id = s.getHart id := rfl

theorem State.quietAt_free (s : State) (n l k : Nat) : ({ s with free := n } : State).quietAt l k = s.quietAt l k := rfl

theorem State.perform_free (s : State) (n l : Nat) (bs : List Byte) : ({ s with free := n } : State).perform l bs = { s.perform l bs with free := n } := by
  unfold State.perform
  cases mailboxHart l bs.length with
  | none => rfl
  | some k =>
    dsimp only
    split
    · rfl
    · rfl

theorem State.setHart_free (s : State) (n : Nat) (h : Hart) : ({ s with free := n } : State).setHart h = { s.setHart h with free := n } := by
  unfold State.setHart
  split
  · rfl
  · unfold State.putAway
    split
    · rfl
    · rfl

/-- A hart's oldest store performs. -/
theorem State.drainS_one {s : State} {id : Nat} {p : PendWrite} {ps : List PendWrite} (stores : (s.getHart id).sbuf = p :: ps) (writes : (s.getHart id).vbuf = []) :
    s.drainS id 1 = (s.setHart { s.getHart id with sbuf := ps }).perform p.loc p.bytes := by
  have none_first : s.drainWhere id (fun q => q.blocks p.loc p.bytes.length p.va && decide (q.seq < p.seq)) = s := by
    rw [State.drainWhere, writes]
    rfl
  simp only [State.drainS, State.drainS1, stores, none_first, List.drop_one, List.tail_cons]

theorem strayStore_ids : strayStore.allHarts.map (·.id) = [4096, 4097] := rfl

theorem strayStore_buffered : (strayStore.getHart 4097).sbuf = [strayWrite] ∧ (strayStore.getHart 4097).vbuf = [] ∧ (strayStore.getHart 4097).mayDrainS 1 = true := ⟨rfl, rfl, rfl⟩

/-- The record listed as hart 0's is another hart's, and holds no write. -/
theorem strayPool_quiet (n : Nat) : (strayPool n).quietAt 0 8 = true := (State.quietAt_free strayStore n 0 8).trans rfl

theorem strayPool_drained (n : Nat) : (strayPool n).took.drainS 4097 1 = { strayStore.drainS 4097 1 with free := n + 1 } := by
  obtain ⟨stores, writes, -⟩ := strayStore_buffered
  rw [State.drainS_one stores writes, ← State.perform_free, ← State.setHart_free]
  exact State.drainS_one (s := { strayStore with free := n + 1 }) stores writes

/-- Where the buffered store drains, it is settled before the word is read. -/
theorem strayPool_settled {n : Nat} (drains : Config.drained n = true) : (strayPool n).settleAtomic 4096 0 8 = (strayPool n).took.drainS 4097 1 := by
  obtain ⟨stores, writes, may⟩ := strayStore_buffered
  have free : (strayPool n).free = n := rfl
  have other : (strayPool n).settleOther 4097 0 8 = (strayPool n).took.drainS 4097 1 := by
    have hits : lastHit (fun p => p.hits 0 8) [strayWrite] 0 0 = 1 := rfl
    unfold State.settleOther
    simp only [strayPool, State.getHart_free, writes, stores, may, hits, lastHit, if_true, drains, Bool.not_true, Bool.or_false, Nat.one_ne_zero, decide_false, Bool.false_eq_true, if_false]
  have ids : (strayPool n).allHarts.map (·.id) = [4096, 4097] := strayStore_ids
  rw [show (4096 : Nat) = (strayPool n).hart.id from rfl, State.settleAtomic_own (strayPool_quiet n), State.settleOthers, ids]
  exact other

theorem strayStore_mem : strayStore.mem = [] := rfl

theorem strayPool_word (n : Nat) : leNat (memRead 8 0 (strayPool n).mem) = 0 := by
  have mem : (strayPool n).mem = [] := strayStore_mem
  rw [mem]
  rfl

/-- The state of the store performed. -/
theorem strayStore_drained : (strayStore.drainS 4097 1).mem = [(0, 1)] ∧ (strayStore.drainS 4097 1).ecc = [] ∧ (strayStore.drainS 4097 1).badCopies = [] := ⟨rfl, rfl, rfl⟩

/-- Where the buffered store drains, `wtake` of a pool word that was 0, with no task left, leaves it at 1. -/
theorem exec_wtake_strayPool {n : Nat} (drains : Config.drained n = true) : ∃ t, exec (.wtake 0 0) (strayPool n) = .next t ∧ leNat (memRead 8 0 t.mem) = 1 := by
  obtain ⟨mem, ecc, copies⟩ := strayStore_drained
  have settled := (strayPool_settled drains).trans (strayPool_drained n)
  have clean : ({ strayStore.drainS 4097 1 with free := n + 1 } : State).bad 0 8 = false := by
    rw [State.bad, ecc]
    rfl
  have wf : Memory.wf ({ strayStore.drainS 4097 1 with free := n + 1 } : State).mem = true := by
    rw [mem]
    rfl
  have word : leNat (memRead 8 0 ({ strayStore.drainS 4097 1 with free := n + 1 } : State).mem) = 1 := by
    rw [mem]
    rfl
  have ran := poolOp_performs (s := strayPool n) (d := 0) (rel := false) (w := wWtake 0 0) (f := takenWord) rfl rfl rfl nofun (strayPool_placed n) settled clean copies
  obtain ⟨-, -, -, left, -⟩ := State.poolWritten_retired (l := 0) (s := { strayStore.drainS 4097 1 with free := n + 1 }) rfl rfl wf 0 (takenWord (1 % 2 ^ 32) (1 / 2 ^ 32)).1
    (takenWord (1 % 2 ^ 32) (1 / 2 ^ 32)).2
  simp only [word] at ran
  exact ⟨_, ran, left.trans word⟩

/-- The clause of O52 on `wtake` at `strayPool` asks that no buffered write drains. -/
theorem undrained_of_churnAndPoolResults (h : Obligations.ChurnAndPoolResults) (n : Nat) : Config.drained n = false := by
  by_contra drains
  obtain ⟨t, ran, one⟩ := exec_wtake_strayPool (Bool.eq_true_of_not_eq_false drains)
  obtain ⟨-, pool⟩ := h (strayPool n) (strayPool n) (strayPool n) 0 0 0 0 (Churn.init 0) [] [] [] 0 0 false
  obtain ⟨take, -⟩ := pool rfl rfl rfl
  obtain ⟨u, ran', -, -, -, zero, -⟩ := take (strayPool_placed n) rfl rfl (strayPool_quiet n) rfl
  rw [Host.Outcome.next.inj (ran'.symm.trans ran), one, strayPool_word] at zero
  exact absurd zero (by decide)

/-! ### Every clause, where no buffered write drains -/

/-- Where no buffered write drains before it must, every clause of O52 holds. -/
theorem churnAndPoolResults_of_undrained (undrained : ∀ n, Config.drained n = false) : Obligations.ChurnAndPoolResults := by
  intro s s1 s2 d hr b j x bs un ds n l strict h H k J status base T Kc E wrong
  refine ⟨fun hm handle => ⟨exec_chstat_foreign hm handle, fun slot owner => ⟨?_, ?_, ?_, ?_, ?_, ?_, ?_, ?_, fun resume => ⟨?_, fun free => ⟨?_, ?_, ?_, ?_, ?_⟩⟩, ?_, ?_, ?_, ?_, ?_⟩⟩, ?_⟩
  · exact exec_chstat hm handle slot owner
  · exact fun aligned read valid free => exec_chset hm handle slot owner aligned read valid free
  · exact fun free wrong => ⟨exec_chcount_wrong hm handle slot owner free wrong, exec_chplace_wrong hm handle slot owner free wrong⟩
  · exact fun free right beyond => exec_chcount_beyond hm handle slot owner free right beyond
  · intro is es chosen free right within clear ran churns
    obtain ⟨cnt, cntd, counted, number, counts⟩ := countTokens_counts es ds (rowsDone is ds) x
    refine ⟨_, exec_chcount hm handle slot owner free right within clear ran churns, ?_, ?_, ?_⟩
    · exact counted.trans (by rw [counted])
    · rw [counted]
      exact number
    · rw [counted]
      exact counts
  · exact fun free right uncounted => exec_chplace_uncounted hm handle slot owner free right uncounted
  · exact fun free right counted read valid written => exec_chplace hm handle slot owner free right counted read valid written
  · exact exec_chsend_aborted hm handle slot owner
  · exact fun ⟨right, within, more⟩ early => exec_chsend_waits hm handle slot owner resume right within more early
  · exact fun wrong => exec_chsend_wrong hm handle slot owner resume free wrong
  · exact fun right beyond => exec_chsend_beyond hm handle slot owner resume free right beyond
  · exact fun right within none_left => exec_chsend_empty hm handle slot owner resume free right within none_left
  · exact fun ⟨right, within, more⟩ claim late => exec_chsend_late hm handle slot owner resume free right within more claim late
  · exact fun ⟨right, within, more⟩ turn calm => ⟨fun sent => exec_chsend_sends hm handle slot owner resume free right within more turn calm sent,
      fun answers cur ecc copies _ windows => exec_chsend_windows undrained hm handle slot owner resume free right within more turn calm answers cur ecc copies windows⟩
  · exact fun free done => exec_chdone_again hm handle slot owner free done
  · exact fun free unpublished wrong => exec_chdone_wrong hm handle slot owner free unpublished wrong
  · exact fun free right unsent => exec_chdone_unsent hm handle slot owner free right unsent
  · exact fun free right sent remote out => exec_chdone_tkr hm handle slot owner free right sent remote out
  · exact fun free right sent ticketless arrived => ⟨exec_chdone_failed hm handle slot owner free right sent ticketless arrived,
      fun good idle written => exec_chdone hm handle slot owner free right sent ticketless arrived good idle written⟩
  · intro s0 put sound aligned clear
    refine ⟨fun placed clean copies quiet wf => ?_, exec_wput_tkr sound aligned, fun ticketless idle placed clean copies quiet wf => ?_⟩
    · obtain ⟨m, settled⟩ := State.settleAtomic_undrained undrained quiet
      exact exec_wtake sound aligned clear clean copies settled wf placed
    · obtain ⟨m, settled⟩ := State.settleAtomic_undrained undrained quiet
      exact exec_wput sound aligned clear clean copies settled wf n ticketless idle placed

/-- What O52 asks of the model is that no buffered write ever drains before it must, and nothing else. -/
theorem churnAndPoolResults_iff_undrained : Obligations.ChurnAndPoolResults ↔ ∀ n, Config.drained n = false :=
  ⟨undrained_of_churnAndPoolResults, churnAndPoolResults_of_undrained⟩

end Sys2Proof.Machine
end
